-- ==== Sys2Proof/Word.lean ====
section
/-! DEFINITION. The words of the EVP-320: the widths the manual names and nothing else. -/

namespace Sys2Proof

/-- A 64-bit word (R291, R432). -/
abbrev Word := BitVec 64

/-- A byte. -/
abbrev Byte := BitVec 8

/-- An accumulator element, a 40-bit field (R98). -/
abbrev Acc := BitVec 40

/-- The payload of a queue item (R339). -/
abbrev Payload := BitVec 120

/-- A unit address (R32). -/
abbrev UnitAddr := BitVec 64

/-- An exposed cell, by its linear cell index (02, Table 2-4). -/
abbrev CellIx := Fin 512

/-- The bits of an IEEE 754 binary32 value (R14). -/
abbrev F32 := BitVec 32

end Sys2Proof
end

