-- ==== Sys2Proof/Formats.lean ====
section
/-! DEFINITION. The formats that commands carry: messages, queue items, instruction fields, descriptors and
the events of nature (read errors, upsets) that arrive with a command. Types only; the functions over them
stand under Machine/. -/

namespace Sys2Proof.Machine

open Sys2Proof

/-- A number-keyed table: keys strictly rising. -/
abbrev SMap (α : Type) := List (Nat × α)

/-- The operand fields of an instruction word (R436, Table 12-6). -/
structure InsFields where
  rd  : BitVec 4
  ra  : BitVec 4
  rb  : BitVec 4
  imm : BitVec 44
deriving DecidableEq, Repr

/-- A message: the fields of Tables 2-7 and 2-8 and the body items (R45, R46). -/
structure Msg where
  dest    : UnitAddr
  epoch   : BitVec 16
  cls     : BitVec 8
  tag     : BitVec 32
  src     : UnitAddr
  code    : BitVec 8
  bounced : Bool
  body    : List Payload
deriving DecidableEq, Repr

/-- A queue item with V = 1 (R339, Table 10-1). -/
structure QItem where
  eop     : Bool
  kind    : BitVec 6
  payload : Payload
deriving DecidableEq, Repr

/-- A software-visible queue (Table 10-3). -/
inductive QueueId where
  | cmd (c : CellIx)
  | rpl (c : CellIx)
  | hiq
deriving DecidableEq, Repr

/-- A bit of a stored scratchpad row that has flipped: bit `bit` of codeword `word`; codeword 16 is the hidden one (R294, R608).
The hardware's faults are inputs of the command that reads (log 5). -/
structure RowFlip where
  word : Fin 17
  bit  : Fin 72
deriving DecidableEq, Repr

/-- A symbol of a stored device unit that is in error: symbol `sym` of the codeword of unit `unit`, off by `err` (R499,
R500; log 5). -/
structure UnitFlip where
  unit : Nat
  sym  : Fin 72
  err  : BitVec 8
deriving DecidableEq, Repr

/-- What a read of stored data meets (R309, R310, R501, R502, R610). -/
inductive ReadErr where
  /-- no error -/
  | clean
  /-- a correctable error: corrected, delivered and counted -/
  | corrected
  /-- an uncorrectable word (R310), or an uncorrectable unit (R502) -/
  | uncorrectable
  /-- two or more uncorrectable words of one row (R610) -/
  | lost
deriving DecidableEq, Repr

/-- A transient upset of the adder of element `m`, `n`: the bits that flip (R600). -/
structure Upset where
  m    : Fin 32
  n    : Fin 32
  flip : Acc
deriving DecidableEq, Repr

/-- The payload of a WAVE item (R632, Table 18-2). -/
structure Wave where
  origin : BitVec 16
  num    : BitVec 32
  links  : Bool
  root   : UnitAddr
deriving DecidableEq, Repr

/-- A channel by which a WAVE reaches a node (18, R635, R636): from the unit above, from member `i`, from the other die, from
the host message port, over a link. -/
inductive Chan where
  | parent
  | child (i : Nat)
  | peer
  | host
  | link (l : Fin 32)
deriving DecidableEq, Repr

/-- What software wrote to a stream's registers before and with the RESET (Table 13-11, R487, R488). -/
structure StreamSetup where
  sqBase  : Word
  sqSize  : BitVec 17
  cqBase  : Word
  cqSize  : BitVec 17
  vec     : BitVec 6
  coalCnt : BitVec 8
  coalNs  : BitVec 32
deriving DecidableEq, Repr

/-- A hart's access to the workstation window (R462). -/
inductive WsAccess where
  | load  (offset : Word) (bytes : Nat) (data : List Byte)
  | store (offset : Word) (data : List Byte)
deriving DecidableEq, Repr

def WsAccess.offset : WsAccess → Word
  | .load o _ _ => o
  | .store o _ => o

/-- The two mailboxes of the dictionary (Table 16-5). -/
inductive MbPath where
  | bar4
  | loc
deriving DecidableEq, Repr

/-- A write of a mailbox: to MB_HDR or MB_DATA at an offset, or GO (Table 16-5). -/
inductive MbWrite where
  | hdr  (offset : Nat) (bytes : List Byte)
  | data (offset : Nat) (bytes : List Byte)
  | go
  /-- a W1C write of MB_STAT -/
  | stat (done goerr : Bool)
deriving DecidableEq, Repr

/-- How a channel trains at boot (R497). -/
inductive ChanState where
  | full
  | fallback
  | retired
deriving DecidableEq, Repr

/-- The firmware slots that a boot finds (R658 to R660), by what the boot checks of each. -/
structure SlotImage where
  seq        : Word
  keyIdx     : BitVec 2
  svn        : Nat
  floor      : Nat
  version    : BitVec 32
  wellFormed : Bool
  digest     : List Byte
  sigOk      : Bool
deriving DecidableEq, Repr

/-- What a boot meets: the training of every channel (per die, 40), the spare and exposed cells that fail the
test, and nothing else that State does not hold (Table 19-5). -/
structure BootInput where
  chans0     : List ChanState
  chans1     : List ChanState
  failCells  : List CellIx
  failSpares : List (Fin 32)
deriving DecidableEq, Repr

/-- The event that the PCIe link reports (R473, Table 13-6). -/
inductive PcieEvent where
  | up      (rate : BitVec 8) (width : BitVec 8) (flit : Bool)
  | retrain (rate : BitVec 8) (width : BitVec 8) (flit : Bool)
  | aer
deriving DecidableEq, Repr

/-- What a receptacle holds after a cable change (R702). -/
inductive Cable where
  | absent
  | unsupported
  | copper
  | active
deriving DecidableEq, Repr

/-- A datagram of the management network, as the device receives or sends it (R581). -/
structure Datagram where
  addr  : BitVec 128
  port  : BitVec 16
  bytes : List Byte
deriving DecidableEq, Repr

end Sys2Proof.Machine
end

