-- ==== Sys2Proof/Syntax.lean ====
section
/-! DEFINITION. The commands of the block: one constructor per row of spec/opcode_table.json, with the row's
operands. `c` is a cell by its linear index, `f` the fields of an instruction word, `m` a message that arrives,
`u` a unit address, `l` a global link index, `e` and `x` what nature does to the read or the adder. -/

namespace Sys2Proof

open Sys2Proof.Machine

/-- One command per row of the table. -/
inductive Instr where
  /-- RUN (R428) -/
  | runCmd (c : CellIx)
  /-- IMAGE (R424) -/
  | imageCmd (c : CellIx)
  /-- IMAGE_ITEM (R426) -/
  | imageItem (c : CellIx)
  /-- WINDOW_OPEN_CMD (R313) -/
  | windowOpenCmd (u : UnitAddr)
  /-- WINDOW_CLOSE_CMD (R324) -/
  | windowCloseCmd (u : UnitAddr)
  /-- SCRUB (R332) -/
  | scrubCmd (c : CellIx)
  /-- CUT (R252) -/
  | cutCmd (m : Msg)
  /-- KILL (R327) -/
  | killCmd (m : Msg)
  /-- CMD_DISPATCH (R426) -/
  | cmdDispatch (c : CellIx)
  /-- COMMAND_COMPLETE (R429) -/
  | commandComplete (c : CellIx)
  /-- CARCASE_COMMAND_COMPLETE (R31) -/
  | carcaseCommandComplete (u : UnitAddr) (tag : BitVec 32)
  /-- SCRUB_END (R331) -/
  | scrubEnd (c : CellIx)
  /-- LI (R437) -/
  | li (c : CellIx) (f : InsFields)
  /-- LIH (R437) -/
  | lih (c : CellIx) (f : InsFields)
  /-- ADD (R437) -/
  | addI (c : CellIx) (f : InsFields)
  /-- SUB (R437) -/
  | subI (c : CellIx) (f : InsFields)
  /-- AND (R437) -/
  | andI (c : CellIx) (f : InsFields)
  /-- OR (R437) -/
  | orI (c : CellIx) (f : InsFields)
  /-- XOR (R437) -/
  | xorI (c : CellIx) (f : InsFields)
  /-- SHL (R437) -/
  | shl (c : CellIx) (f : InsFields)
  /-- SHR (R437) -/
  | shr (c : CellIx) (f : InsFields)
  /-- SRA (R437) -/
  | sra (c : CellIx) (f : InsFields)
  /-- MUL (R437) -/
  | mulI (c : CellIx) (f : InsFields)
  /-- LD1 (R437) -/
  | ld1 (c : CellIx) (f : InsFields) (e : List RowFlip)
  /-- LD2 (R437) -/
  | ld2 (c : CellIx) (f : InsFields) (e : List RowFlip)
  /-- LD4 (R437) -/
  | ld4 (c : CellIx) (f : InsFields) (e : List RowFlip)
  /-- LD8 (R437) -/
  | ld8 (c : CellIx) (f : InsFields) (e : List RowFlip)
  /-- ST1 (R437) -/
  | st1 (c : CellIx) (f : InsFields) (e : List RowFlip)
  /-- ST2 (R437) -/
  | st2 (c : CellIx) (f : InsFields) (e : List RowFlip)
  /-- ST4 (R437) -/
  | st4 (c : CellIx) (f : InsFields) (e : List RowFlip)
  /-- ST8 (R437) -/
  | st8 (c : CellIx) (f : InsFields)
  /-- BEQ (R437) -/
  | beq (c : CellIx) (f : InsFields)
  /-- BNE (R437) -/
  | bne (c : CellIx) (f : InsFields)
  /-- BLT (R437) -/
  | blt (c : CellIx) (f : InsFields)
  /-- BGE (R437) -/
  | bge (c : CellIx) (f : InsFields)
  /-- BLTU (R437) -/
  | bltu (c : CellIx) (f : InsFields)
  /-- BGEU (R437) -/
  | bgeu (c : CellIx) (f : InsFields)
  /-- JAL (R437) -/
  | jal (c : CellIx) (f : InsFields)
  /-- JR (R437) -/
  | jr (c : CellIx) (f : InsFields)
  /-- RDRAND (R438) -/
  | rdrand (c : CellIx) (f : InsFields)
  /-- TIME (R437) -/
  | timeRd (c : CellIx) (f : InsFields)
  /-- FENCE (R437) -/
  | fenceI (c : CellIx) (f : InsFields)
  /-- END (R441) -/
  | endRun (c : CellIx) (f : InsFields)
  /-- ILLEGAL_OPCODE (R437) -/
  | illegalOpcode (c : CellIx) (opc : BitVec 8) (f : InsFields)
  /-- FETCH (R209) -/
  | fetch (c : CellIx) (f : InsFields) (e : List UnitFlip)
  /-- JOINED_FETCH_ARRIVAL (R446) -/
  | joinedFetchArrival (c : CellIx) (e : List UnitFlip)
  /-- ENTRYRD (R210) -/
  | entryrd (c : CellIx) (f : InsFields)
  /-- STORE (R205) -/
  | storeG (c : CellIx) (f : InsFields)
  /-- GROUP_FREE (R208) -/
  | groupFree (dix : BitVec 32)
  /-- STORAGE_RELEASE (R206) -/
  | storageRelease (base : Nat)
  /-- GATHER_COLUMN (R220) -/
  | gatherColumn (c : CellIx) (f : InsFields) (e : List UnitFlip)
  /-- GATHER_ROW (R222) -/
  | gatherRow (c : CellIx) (f : InsFields) (e : List UnitFlip)
  /-- SELECT (R225) -/
  | selectN (c : CellIx) (f : InsFields)
  /-- AUDIT (R229) -/
  | auditN (c : CellIx) (f : InsFields)
  /-- ARRAY (R104) -/
  | arrayI (c : CellIx) (f : InsFields)
  /-- ARRAY_BEAT (R73) -/
  | arrayBeat (c : CellIx) (unsupplied : List Nat) (behind : Bool) (e : List RowFlip) (x : Option Upset)
  /-- TREE_EMPTY_TOKEN (R107) -/
  | treeEmptyToken (c : CellIx) (t : Fin 2)
  /-- TILE_CHECKPOINT (R603) -/
  | tileCheckpoint (c : CellIx) (t : Fin 2) (x : Option Upset)
  /-- LOAD (R104) -/
  | loadT (c : CellIx) (f : InsFields)
  /-- LOAD_COMPLETE (R104) -/
  | loadComplete (c : CellIx) (t : Fin 2)
  /-- DRAIN_RQ (R109) -/
  | drainRq (c : CellIx) (f : InsFields)
  /-- DRAIN_WIDE (R110) -/
  | drainWide (c : CellIx) (f : InsFields)
  /-- DRAIN_CHAIN (R114) -/
  | drainChain (c : CellIx) (f : InsFields)
  /-- DRAIN_SAB (R120) -/
  | drainSab (c : CellIx) (f : InsFields)
  /-- DRAIN_ROW (R108) -/
  | drainRow (c : CellIx) (t : Fin 2) (x : Option Upset)
  /-- SAB_ITEM_APPLY (R121) -/
  | sabItemApply (c : CellIx) (bank : Fin 16) (x : Option Acc)
  /-- RANGE_RESET (R176) -/
  | rangeReset (c : CellIx) (f : InsFields)
  /-- REQUANT (R156) -/
  | requant (c : CellIx) (f : InsFields)
  /-- RANGE_REQUANT (R166) -/
  | rangeRequant (c : CellIx) (f : InsFields)
  /-- DEQUANT (R138) -/
  | dequant (c : CellIx) (f : InsFields)
  /-- QUANT (R174) -/
  | quant (c : CellIx) (f : InsFields)
  /-- RANGE_F32 (R174) -/
  | rangeF32 (c : CellIx) (f : InsFields)
  /-- SABOUT (R124) -/
  | sabout (c : CellIx) (f : InsFields)
  /-- RANGEOUT (R444) -/
  | rangeout (c : CellIx) (f : InsFields)
  /-- RANGEMERGE (R148) -/
  | rangemerge (c : CellIx) (f : InsFields)
  /-- SCALE (R149) -/
  | scaleRq (c : CellIx) (f : InsFields)
  /-- LEDGER (R443) -/
  | ledgerW (c : CellIx) (f : InsFields)
  /-- CVT (R274) -/
  | cvt (c : CellIx) (f : InsFields)
  /-- LFU_MUL (R274) -/
  | lfuMul (c : CellIx) (f : InsFields)
  /-- EXP (R274) -/
  | expF (c : CellIx) (f : InsFields)
  /-- LOG (R274) -/
  | logF (c : CellIx) (f : InsFields)
  /-- RECIP (R274) -/
  | recip (c : CellIx) (f : InsFields)
  /-- RSQRT (R274) -/
  | rsqrt (c : CellIx) (f : InsFields)
  /-- SOFTMAX (R276) -/
  | softmax (c : CellIx) (f : InsFields)
  /-- GELU (R276) -/
  | gelu (c : CellIx) (f : InsFields)
  /-- SILU (R276) -/
  | silu (c : CellIx) (f : InsFields)
  /-- NORM (R276) -/
  | normF (c : CellIx) (f : InsFields)
  /-- WOPEN (R313) -/
  | wopen (c : CellIx) (f : InsFields)
  /-- DEFERRED_WINDOW_OPEN (R313) -/
  | deferredWindowOpen (u : UnitAddr) (w : Fin 16)
  /-- WCLOSE (R324) -/
  | wclose (c : CellIx) (f : InsFields)
  /-- SYNC (R442) -/
  | syncOp (c : CellIx) (f : InsFields)
  /-- QREAD (R344) -/
  | qread (c : CellIx) (f : InsFields)
  /-- QFLUSH (R349) -/
  | qflush (c : CellIx) (f : InsFields)
  /-- QUEUE_FLUSH_COMPLETE (R350) -/
  | queueFlushComplete (q : QueueId)
  /-- SEND (R444) -/
  | sendW (c : CellIx) (f : InsFields)
  /-- UNIT_OPERATION_COMPLETE (R440) -/
  | unitOperationComplete (c : CellIx) (k : Nat) (again : List Nat)
  /-- STALL_RELEASE (R449) -/
  | stallRelease (c : CellIx)
  /-- SEQ_WDOG (R435) -/
  | seqWdog (c : CellIx)
  /-- COMMAND_ARRIVAL (R57) -/
  | commandArrival (m : Msg)
  /-- ROLE_SET (R53) -/
  | roleSet (m : Msg)
  /-- WINDOW_WRITE (R319) -/
  | windowWrite (m : Msg)
  /-- WINDOW_WRITE_LANDED (R322) -/
  | windowWriteLanded (u : UnitAddr) (w : Fin 16)
  /-- CHAIN_SUM (R116) -/
  | chainSum (m : Msg)
  /-- CHAIN_INLET_ACCEPT (R116) -/
  | chainInletAccept (c : CellIx) (t : Fin 2)
  /-- BLOCK_FETCH (R39) -/
  | blockFetch (m : Msg) (e : List UnitFlip)
  /-- REPLY_ARRIVAL (R347) -/
  | replyArrival (m : Msg)
  /-- BOUNCE_ARRIVAL (R60) -/
  | bounceArrival (m : Msg)
  /-- QUEUE_ENQUEUE_RESUME (R343) -/
  | queueEnqueueResume (q : QueueId)
  /-- QUEUE_TAIL (R354) -/
  | queueTail (q : QueueId)
  /-- SYNC_READ (R363) -/
  | syncRead (m : Msg)
  /-- SYNC_INIT (R368) -/
  | syncInit (m : Msg)
  /-- SYNC_ADD (R363) -/
  | syncAdd (m : Msg)
  /-- SYNC_WAIT_GE (R363) -/
  | syncWaitGe (m : Msg)
  /-- SYNC_ARRIVE (R363) -/
  | syncArrive (m : Msg)
  /-- SYNC_ARRIVE_WAIT (R363) -/
  | syncArriveWait (m : Msg)
  /-- SYNC_WAIT_GEN (R363) -/
  | syncWaitGen (m : Msg)
  /-- SYNC_SET (R363) -/
  | syncSet (m : Msg)
  /-- SYNC_CLEAR (R363) -/
  | syncClear (m : Msg)
  /-- SYNC_WAIT_SET (R363) -/
  | syncWaitSet (m : Msg)
  /-- SYNC_WAIT_CLEAR (R363) -/
  | syncWaitClear (m : Msg)
  /-- SPILL_ALLOC (R517) -/
  | spillAlloc (m : Msg)
  /-- SPILL_FREE (R517) -/
  | spillFree (m : Msg)
  /-- SPILL_WRITE (R516) -/
  | spillWrite (m : Msg)
  /-- SPILL_READ (R516) -/
  | spillRead (m : Msg)
  /-- SPARE_SUBSTITUTION (R41) -/
  | spareSubstitution (c : CellIx)
  /-- RETIREMENT_REQUEST (R607) -/
  | retirementRequest (c : CellIx)
  /-- HOSTING_START (R614) -/
  | hostingStart (c : CellIx)
  /-- HOST_CONTEXT_SWITCH (R616) -/
  | hostContextSwitch (c : CellIx)
  /-- CE_LIMIT_REACHED (R307) -/
  | ceLimitReached (c : CellIx) (row : Fin 16384)
  /-- FIELD_REMAP (R307) -/
  | fieldRemap (c : CellIx) (row : Fin 16384)
  /-- PATROL (R503) -/
  | patrol (unit : Nat) (e : List UnitFlip)
  /-- UCIE_LANE_REPAIR (R619) -/
  | ucieLaneRepair (die : Fin 2) (mod : Fin 5) (lanes : Nat) (repaired : Bool)
  /-- JOB_ENTRY (R389) -/
  | jobEntry (st : Fin 8) (entry : List Word) (prectab : List Word)
  /-- JOB_START (R391) -/
  | jobStart (job : BitVec 32)
  /-- BUDGET_EXPIRY (R251) -/
  | budgetExpiry (job : BitVec 32)
  /-- JOB_END (R392) -/
  | jobEnd (job : BitVec 32)
  /-- JOB_FAILURE (R416) -/
  | jobFailure (job : BitVec 32) (layer : BitVec 32) (code : BitVec 8)
  /-- COMPLETION_ENTRY_WRITE (R490) -/
  | completionEntryWrite (st : Fin 8)
  /-- KILL_ENTRY (R394) -/
  | killEntry (st : Fin 8) (entry : List Word)
  /-- CUT_ENTRY (R397) -/
  | cutEntry (st : Fin 8) (entry : List Word)
  /-- REGISTER_ENTRY (R400) -/
  | registerEntry (st : Fin 8) (entry : List Word) (graph : List Word) (tensors : List (List Word)) (layers : List (List Word)) (room : Bool)
  /-- RELEASE_ENTRY (R402) -/
  | releaseEntry (st : Fin 8) (entry : List Word)
  /-- DELTA_LAYER_BEGIN (R247) -/
  | deltaLayerBegin (job : BitVec 32) (layer : BitVec 16)
  /-- LAYER_COMPLETE (R169) -/
  | layerComplete (job : BitVec 32) (layer : BitVec 16) (code : BitVec 8) (record carried : List Word) (ledgers : List (List Payload))
  /-- EVC_SEND_GO (R465) -/
  | evcSendGo (h : Fin 16) (addr : BitVec 50) (count : BitVec 32) (items : List Payload) (w1c : Bool)
  /-- EVC_HIQ_POP (R470) -/
  | evcHiqPop (h : Fin 16)
  /-- EVC_CLAIM (R482) -/
  | evcClaim (h : Fin 16)
  /-- EVC_COMPLETE (R474) -/
  | evcComplete (h : Fin 16) (id : BitVec 13) (w1c : Bool)
  /-- EVC_SRC_WRITE (R480) -/
  | evcSrcWrite (n : BitVec 12) (v : Word)
  /-- EVC_SGRP_WRITE (R480) -/
  | evcSgrpWrite (g : Fin 64) (v : Word)
  /-- EVC_THRESH_WRITE (R480) -/
  | evcThreshWrite (h : Fin 16) (v : Word)
  /-- EVC_HART_CTL_WRITE (R480) -/
  | evcHartCtlWrite (h : Fin 16) (v : Word)
  /-- EVC_SMASK_WRITE (R475) -/
  | evcSmaskWrite (g : Fin 64) (v : Word)
  /-- EVC_SPEND_READ (R476) -/
  | evcSpendRead (g : Fin 64)
  /-- EVC_SWFIRE (R472) -/
  | evcSwfire (v : Word)
  /-- EVC_MSIX_SEND (R494) -/
  | evcMsixSend (v : Word)
  /-- SOURCE_FIRE (R474) -/
  | sourceFire (id : BitVec 13)
  /-- STATUS_SOURCE_FIRE (R475) -/
  | statusSourceFire (n : BitVec 12)
  /-- TIMER_FIRE (R472) -/
  | timerFire (t : Fin 32) (armed : Option Word)
  /-- WORKSTATION_WINDOW_ACCESS (R462) -/
  | workstationWindowAccess (h : Fin 16) (base : Option Word) (w1c : BitVec 2) (a : WsAccess)
  /-- SQ_TAIL (R489) -/
  | sqTail (st : Fin 8) (v : BitVec 16) (w1c : BitVec 4)
  /-- CQ_HEAD (R492) -/
  | cqHead (st : Fin 8) (v : BitVec 16)
  /-- STREAM_RESET (R488) -/
  | streamReset (st : Fin 8) (w : StreamSetup)
  /-- CQ_PUBLISH (R491) -/
  | cqPublish (st : Fin 8) (v : BitVec 16)
  /-- COALESCE_TIMEOUT (R491) -/
  | coalesceTimeout (st : Fin 8)
  /-- BUS_MASTER_ENABLE_CHANGE (R463) -/
  | busMasterEnableChange (v : Bool)
  /-- FUNCTION_LEVEL_RESET (R486) -/
  | functionLevelReset
  /-- MB_GO (R577) -/
  | mbGo (p : MbPath) (w : MbWrite)
  /-- DICTIONARY_READ (R571) -/
  | dictionaryRead
  /-- DICTIONARY_WRITE (R571) -/
  | dictionaryWrite
  /-- RWC_STAGE_WRITE (R563) -/
  | rwcStageWrite
  /-- COMMIT (R564) -/
  | commitGroup
  /-- COMMIT_DISCARD (R564) -/
  | commitDiscard
  /-- COMMIT_APPLY (R566) -/
  | commitApply (u : UnitAddr) (index : BitVec 16)
  /-- CHAMOIS_DATAGRAM (R581) -/
  | chamoisDatagram (d : Datagram)
  /-- SOLICIT (R584) -/
  | solicit (d : Datagram)
  /-- ANNOUNCE_DELAY_EXPIRY (R584) -/
  | announceDelayExpiry
  /-- DAD_COMPLETE (R585) -/
  | dadComplete (duplicate : Bool)
  /-- NEIGHBOR_SOLICITATION (R579) -/
  | neighborSolicitation (d : Datagram) (target : BitVec 128)
  /-- ECHO_REQUEST (R579) -/
  | echoRequest (d : Datagram)
  /-- SAVE (R591) -/
  | saveStore
  /-- SAVE_DELAY_EXPIRY (R591) -/
  | saveDelayExpiry
  /-- STORE_SAVE_COMPLETE (R590) -/
  | storeSaveComplete (ok : Bool)
  /-- RESTORE (R593) -/
  | restoreStore
  /-- SNAP_GO_START (R633) -/
  | snapGoStart
  /-- SNAP_GO_ABANDON (R634) -/
  | snapGoAbandon
  /-- WAVE_ARRIVAL (R635) -/
  | waveArrival (u : UnitAddr) (ch : Chan) (w : Wave)
  /-- SNAPSHOT_REPORT (R639) -/
  | snapshotReport (m : Msg)
  /-- FABRIC_FREEZE_REQUEST (R643) -/
  | fabricFreezeRequest
  /-- FABRIC_FREEZE_END (R645) -/
  | fabricFreezeEnd
  /-- FREEZE_REACHED (R644) -/
  | freezeReached
  /-- DBG_DATA_READ (R647) -/
  | dbgDataRead
  /-- HOLD_PURGE (R546) -/
  | holdPurge
  /-- RETRAIN (R534) -/
  | retrain
  /-- ROUTES_WRITE (R543) -/
  | routesWrite
  /-- APP_GRANT_WRITE (R725) -/
  | appGrantWrite
  /-- LOST_RELEASE (R624) -/
  | lostRelease
  /-- DEV_ID_APPLY (R541) -/
  | devIdApply
  /-- KEY_REVOKE (R680) -/
  | keyRevoke
  /-- FW_STAGE (R677) -/
  | fwStage
  /-- FW_COMMIT (R677) -/
  | fwCommit
  /-- FW_DISCARD (R677) -/
  | fwDiscard
  /-- MR_EXTEND (R667) -/
  | mrExtend
  /-- QUOTE_NONCE (R672) -/
  | quoteNonce
  /-- QUOTE_SIGNED (R673) -/
  | quoteSigned
  /-- AK_CERT_SIGNED (R671) -/
  | akCertSigned
  /-- DBG_CHALLENGE (R674) -/
  | dbgChallenge
  /-- DBG_RESPONSE (R674) -/
  | dbgResponse
  /-- DATA_FLIT (R531) -/
  | dataFlit (l : Fin 32) (bytes : List Byte)
  /-- ABORT_FLIT (R539) -/
  | abortFlit (l : Fin 32) (bytes : List Byte)
  /-- IDLE_FLIT (R525) -/
  | idleFlit (l : Fin 32) (bytes : List Byte)
  /-- HELLO (R538) -/
  | helloFlit (l : Fin 32) (bytes : List Byte)
  /-- DEGRADE (R533) -/
  | degradeFlit (l : Fin 32) (bytes : List Byte)
  /-- ETH_FRAME (R536) -/
  | ethFrame (l : Fin 32) (frame : List Byte) (fcsOk : Bool)
  /-- REPLAY_TIMEOUT (R532) -/
  | replayTimeout (l : Fin 32)
  /-- HELLO_SEND (R537) -/
  | helloSend (l : Fin 32)
  /-- HELLO_TIMEOUT (R539) -/
  | helloTimeout (l : Fin 32)
  /-- FLIT_LOCK_LOST (R538) -/
  | flitLockLost (l : Fin 32)
  /-- FLIT_LOCK_ACQUIRED (R525) -/
  | flitLockAcquired (l : Fin 32)
  /-- LANE_DEGRADE (R533) -/
  | laneDegrade (l : Fin 32) (lanes : Nat) (errors : Option Nat)
  /-- LINK_RETRAIN_COMPLETE (R534) -/
  | linkRetrainComplete (l : Fin 32) (ok : Bool)
  /-- PACKET_FORWARD (R547) -/
  | packetForward (l : Fin 32) (vc : Fin 2)
  /-- HELD_PACKET_RELEASE (R546) -/
  | heldPacketRelease (dest : BitVec 16)
  /-- ARRIVAL_BUFFER_DELIVER (R540) -/
  | arrivalBufferDeliver (die : Fin 2)
  /-- CABLE_CHANGE (R702) -/
  | cableChange (port : Fin 8) (cable : Cable)
  /-- POWER_CONTROL_STEP (R683) -/
  | powerControlStep (inputW : Nat)
  /-- THERMAL_SAMPLE (R691) -/
  | thermalSample (die : Fin 2) (tj : BitVec 16)
  /-- THERMAL_TRIP (R694) -/
  | thermalTrip (die : Fin 2)
  /-- VCORE_UNDER_VOLTAGE (R687) -/
  | vcoreUnderVoltage (die : Fin 2)
  /-- VCORE_RECOVERY (R687) -/
  | vcoreRecovery (die : Fin 2)
  /-- INPUT_UNDER_VOLTAGE (R712) -/
  | inputUnderVoltage
  /-- INPUT_OVER_VOLTAGE (R712) -/
  | inputOverVoltage
  /-- PWR_EN_HIGH (R708) -/
  | pwrEnHigh
  /-- PWR_EN_LOW (R712) -/
  | pwrEnLow
  /-- MOD_RESET_ASSERT (R712) -/
  | modResetAssert
  /-- INTERNAL_RESET_RELEASE (R709) -/
  | internalResetRelease (recoveryN sris t1sTerm : Bool)
  /-- BOOT (R663) -/
  | bootRun (b : BootInput)
  /-- PERST_ASSERT (R712) -/
  | perstAssert
  /-- PERST_DEASSERT (R711) -/
  | perstDeassert
  /-- FREEZE_N_ASSERT (R643) -/
  | freezeNAssert
  /-- FREEZE_N_DEASSERT (R645) -/
  | freezeNDeassert
  /-- TAP_RESET (R650) -/
  | tapReset
  /-- BYPASS (R651) -/
  | bypassTap (tap : Fin 3) (opc : BitVec 8)
  /-- IDCODE (R651) -/
  | idcodeTap (tap : Fin 3)
  /-- SAMPLE_PRELOAD (R651) -/
  | samplePreload (tap : Fin 3) (boundary : List Bool)
  /-- EXTEST (R654) -/
  | extest (tap : Fin 3)
  /-- CLAMP (R654) -/
  | clampTap (tap : Fin 3)
  /-- HIGHZ (R654) -/
  | highzTap (tap : Fin 3)
  /-- EXTEST_PULSE (R651) -/
  | extestPulse (tap : Fin 3)
  /-- EXTEST_TRAIN (R651) -/
  | extestTrain (tap : Fin 3)
  /-- FRZ_STATUS (R651) -/
  | frzStatus (tap : Fin 3)
  /-- DBG_ACCESS (R652) -/
  | dbgAccess (tap : Fin 3) (dr : BitVec 168)
  /-- INPUT_RESTORED (R712) -/
  | inputRestored
  /-- RAIL_FAULT (R696) -/
  | railFault (rail : Fin 8)
  /-- PCIE_LINK_EVENT (R473) -/
  | pcieLinkEvent (e : PcieEvent)
  /-- MSIX_VECTOR_UNMASK (R494) -/
  | msixVectorUnmask (v : Fin 64)
  /-- LINK_MODE_WRITE (R538) -/
  | linkModeWrite
  /-- FW_SLOT_WRITE_COMPLETE (R677) -/
  | fwSlotWriteComplete (readback : Bool)
deriving DecidableEq, Repr

end Sys2Proof
end

