-- ==== Sys2Proof/Machine/State.lean ====
section
/-! DEFINITION. The state of the EVP-320 module, as plain data: what the spec names, grouped as its chapters
group it. A table keyed by number (SMap) lists only what differs from its default. -/

namespace Sys2Proof.Machine

open Sys2Proof

/-! ### Clock boundaries -/

/-- One direction of a clock-boundary FIFO (R356): the two pointers in Gray code, each as the first synchroniser stage and
the other domain hold it, and the entries between them. -/
structure ClockFifo (α : Type) where
  w : BitVec 8 := 0
  r : BitVec 8 := 0
  wMeta : BitVec 8 := 0
  wSync : BitVec 8 := 0
  rMeta : BitVec 8 := 0
  rSync : BitVec 8 := 0
  entries : List α := []
deriving DecidableEq, Repr

/-- A unit of device memory at a channel's PHY: its bytes, its block tag and its ECC status (Table 10-5). -/
structure PhyEntry where
  bytes : List Byte
  tag : BitVec 2
  ecc : ReadErr
deriving DecidableEq, Repr

/-- The FIFOs of the LPDDR6 channels, out to the PHY and in from it, by 40 × die + channel, and those of the local time counters
by die (Table 10-5). -/
structure Fifos where
  phyOut : SMap (ClockFifo PhyEntry) := []
  phyIn : SMap (ClockFifo PhyEntry) := []
  time : SMap (ClockFifo Word) := []
deriving DecidableEq, Repr

/-! ### Cells: ledgers, tiles, operations -/

/-- An error ledger, the items of Tables 7-5, 7-6, R263 and R264 (segs 0: nothing folded yet). -/
structure Ledger where
  exact : Bool := true
  kerfed : Bool := false
  midpt : Bool := false
  delta : Bool := false
  pred : Bool := false
  lfu : Bool := false
  poison : Bool := false
  special : Bool := false
  cutPlane : BitVec 4 := 0
  kerfBound : Nat := 0
  segs : Nat := 0
  deltaBound16 : Nat := 0
  skipped : Nat := 0
  frames : Nat := 0
  sel : Nat := 0
  grd : Nat := 0
  aud : Nat := 0
  skp : Nat := 0
  dis : Nat := 0
  ops : BitVec 16 := 0
  logerr : Nat := 0
deriving DecidableEq, Repr

/-- The states of Table 4-3. -/
inductive TileSt where
  | empty | loading | filling | closing | draining
deriving DecidableEq, Repr

/-- A chain sum in an inlet or at the port (R115, R116). -/
structure ChainSum where
  src : UnitAddr
  chain : BitVec 32
  seg : BitVec 12
  nseg : BitVec 12
  poison : Bool
  exact : Bool
  tile : BitVec 24
  job : BitVec 32
  elems : SMap Acc
  ledger : Ledger
deriving DecidableEq, Repr

/-- One operation that joined a tile, with the block it read at issue (R602). -/
structure JoinedOp where
  isLoad : Bool
  block : List Word
  row : Nat
deriving DecidableEq, Repr

/-- The codes of an output block being formed, in element order, whether one of them poisons it (R157, R150, R151), and
whether all of them inside the tensor are zero codes (R191). -/
structure BlockAcc where
  codes : List Nat := []
  psn : Bool := false
  zero : Bool := true
deriving DecidableEq, Repr

/-- A drain in progress: its block, its next row and (SAB) column, its operation's number (R108, R109), whether its merge is
still due, the SAB bank whose full queue it waits for (R122), whether its output is poisoned, the elements read for a CHAIN_SUM, and the two output blocks being formed. -/
structure DrainRun where
  block : List Word
  row : Nat
  op : Nat
  col : Nat := 0
  due : Bool := false
  bank : Option Nat := none
  psn : Bool := false
  buf : List Acc := []
  left : BlockAcc := {}
  right : BlockAcc := {}
deriving DecidableEq, Repr

/-- An accumulator tile with its inlet and hidden records (04, R598, R602, R603, R443): whether a cut acts on it (R252 to R254),
a LOAD filled it, a delta tile's array instruction joined it (R241), and it is a key tile of a DELTA layer (Table 7-7). -/
structure Tile where
  st : TileSt := .empty
  elems : SMap Acc := []
  res : SMap (BitVec 3) := []
  poison : Bool := false
  inlet : Option ChainSum := none
  port : List ChainSum := []
  staleDiscards : BitVec 16 := 0
  joined : List JoinedOp := []
  check : Option (SMap Acc × SMap (BitVec 3)) := none
  token : Bool := false
  drain : Option DrainRun := none
  load : Option (Nat × Nat) := none
  ledger : Ledger := {}
  lines : List Nat := []
  skips : List Nat := []
  job : BitVec 32 := 0
  layer : BitVec 16 := 0
  cut : Bool := false
  loaded : Bool := false
  isDelta : Bool := false
  key : Bool := false
deriving DecidableEq, Repr

/-- A position of a tile (R89): its plane, K-block and k-group, the row groups that need it (R83, R87), and those for
which the plane is the top one (R72). -/
structure ArrPos where
  plane : Nat
  kblk : Nat
  g : Nat
  needs : Nat
  tops : Nat
deriving DecidableEq, Repr

/-- Where a tile stands in its layer: its first row, column and element of the reduction, and M, N and K (R66, R67). -/
structure TileExt where
  m0 : Nat := 0
  n0 : Nat := 0
  k0 : Nat := 0
  mEnd : Nat := 0
  nEnd : Nat := 0
  kEnd : Nat := 0
deriving DecidableEq, Repr

/-- The array instruction in progress (R64, R89 to R97, R253): tiles finished, beats of window fill left, whether the
present tile has joined and whether its lookups are over, its positions and how far each row group has come, its place in
the layer, the blocks that the delta gate skips (R244), and whether it waits on the dovetail engine (R217). -/
structure ArrayRun where
  block : List Word
  op : Nat
  done : Nat := 0
  fill : Nat := 4
  joined : Bool := false
  ended : Bool := false
  plan : List ArrPos := []
  pos : List Nat := [0, 0, 0, 0]
  code : BitVec 8 := 0
  ext : TileExt := {}
  skipped : List (Nat × Nat) := []
  behind : Bool := false
deriving DecidableEq, Repr

/-- The unit that performs an operation (R175, R279, R450, Table 12-8). -/
inductive OpUnit where
  | array | drain | rq | lfu | dove | audit | fetch | store | net | seq | load
deriving DecidableEq, Repr

/-- What an operation waits for beyond its unit: an answer of a serving device (R515 to R518), the bus (R463), or a
lost unit's release (R620, R624). -/
inductive WaitFor where
  | alloc | write | read | bus
  | lost (unit : Nat)
deriving DecidableEq, Repr

/-- The wait of a spilled store or fetch: `target` is the element of SPILL_TARGETS tried, `offset` the granted extent,
`lo` and `hi` the entry that a fetch read (R205). -/
structure SpillWait where
  what : WaitFor
  target : Nat := 0
  offset : Nat := 0
  lo : Word := 0
  hi : Word := 0
deriving DecidableEq, Repr

/-- A group that a gather reads: its directory index, the entry as it was read, and the units with their tags that a serving
device has sent, none where none has (R205, R516). -/
structure GotGroup where
  dix : Nat
  lo : Word
  hi : Word
  units : Option (List (List Byte × BitVec 2)) := none
deriving DecidableEq, Repr

/-- A unit operation issued and not yet complete (R429, R440): the rows it touches (R301), its code, the
registers it will write, the tag of the REPLY it waits for, the storage it reads
(R206), and the run that issued it (Table 12-7, FENCE). -/
structure UnitOp where
  id : Nat
  unit : OpUnit
  reads : List (Nat × Nat) := []
  writes : List (Nat × Nat) := []
  code : BitVec 8 := 0
  regs : List (BitVec 4 × Word) := []
  blocking : Bool := false
  tag : Option (BitVec 32) := none
  done : Bool := true
  extents : List Nat := []
  joinDepth : Nat := 0
  joinNo : Nat := 0
  run : Nat := 0
  cmd : Nat := 0
  win : Option (Nat × Nat) := none
  block : List Word := []
  spill : Option SpillWait := none
  got : List GotGroup := []
deriving DecidableEq, Repr

/-- The command in progress at a cell (R423, R426 to R431). -/
structure CmdRun where
  cmd : BitVec 8
  divide : Bool
  logical : Bool
  job : BitVec 32
  layer : BitVec 16
  a : BitVec 21
  b : BitVec 25
  hdr : Word
  reserved : Bool
  body : List Payload
  len : Nat
  src : UnitAddr
  dest : UnitAddr
  tag : BitVec 32
  started : Bool := false
  ended : Bool := false
  j : Nat := 0
  count : Nat := 1
  tile : Nat := 0
  codes : List (BitVec 8) := []
  stop : Bool := false
  wepoch : BitVec 16 := 0
  no : Nat := 0
  joins : SMap Nat := []
deriving DecidableEq, Repr

/-- The cell sequencer (12). `ended` holds commands whose runs have ended and whose operations go on (R426); `fetching` the word
at SEQ_PC where the fetch of an instruction stalled on its row (R301), `untilEmpty` that a drain that met LOADING stalls until
EMPTY (Table 4-3). -/
structure Seq where
  regs : SMap Word := []
  pc : BitVec 21 := 0
  running : Bool := false
  stalled : Option (BitVec 4 × Instr) := none
  stallSince : Word := 0
  stallRep : Bool := false
  fetching : Option Word := none
  untilEmpty : Bool := false
  wdog : Bool := false
  lastCode : BitVec 8 := 0
  retired : BitVec 32 := 0
  limit : BitVec 32 := 1000
  waiting : Option Nat := none
  cmd : Option CmdRun := none
  hdr : Word := 0
  image : Option (Nat × Nat) := none
  rand : SMap Word := []
  nextOp : Nat := 0
  run : Nat := 0
  ended : List CmdRun := []
  nextCmd : Nat := 0
deriving DecidableEq, Repr

/-- Statistics of one entry in a RANGE_REQUANT (R166, R167). -/
structure EntryStat where
  lo : Int := 65536
  hi : Int := -65536
  clipped : Nat := 0
  n : Nat := 0
deriving DecidableEq, Repr

/-- The requantisation and range unit (R146, R174, R176, R177). `wiped`: a scrub has written zeros to the range record, and no
RANGE_RESET has opened one since (R329). `stats` are those of the operation in progress, which its end hands
to the layer. -/
structure Rq where
  lo : SMap Int := []
  hi : SMap Int := []
  flo : SMap F32 := []
  fhi : SMap F32 := []
  stats : SMap EntryStat := []
  usedMin : BitVec 16 := 0x7FFF
  usedMax : BitVec 16 := 0x8000
  special : Bool := false
  nonfinite : Bool := false
  rangeValid : Bool := false
  clips : BitVec 32 := 0
  codes : BitVec 32 := 0
  wiped : Bool := false
  ledger : Ledger := {}
deriving DecidableEq, Repr

/-- A repaired entry (R150) or a word of a ratio that is not finite (R151), with which the layer's blocks are poisoned: an entry or
only a word, of one channel or of all. -/
structure NfMark where
  entry : Bool
  chan : Option Nat
deriving DecidableEq, Repr

/-- The conversion of a layer on the device, from its first RANGE_RESET on: the policy values and the carried record as they then
stood (R164, R173), the statistics of its entries (R166, R167), the entries made, by channel, and what poisons its blocks (R150,
R151). -/
structure LayerConv where
  job : BitVec 32
  layer : BitVec 16
  clipLimit : Nat
  headroom : Nat
  carried : List Word
  stats : SMap EntryStat := []
  made : SMap Word := []
  nf : List NfMark := []
deriving DecidableEq, Repr

/-- A slot of the scatter buffer (R119, Table 4-5). -/
structure SabSlot where
  value : Acc := 0
  poison : Bool := false
  touched : Bool := false
deriving DecidableEq, Repr

/-- A scatter item on its way to a slot (R120). -/
structure ScatterItem where
  slot : Nat
  value : Acc
  poison : Bool
deriving DecidableEq, Repr

/-- The scatter accumulator buffer (R119 to R125, R130). -/
structure Sab where
  slots : SMap SabSlot := []
  queues : SMap (List ScatterItem) := []
  conflicts : BitVec 32 := 0
  ledger : Ledger := {}
deriving DecidableEq, Repr

/-- A software-read queue (R338 to R355, Table 10-10). `inflow` holds items that wait at the router,
`toDiscard` how many items a flush has still to discard of a packet not yet whole. -/
structure Queue where
  items : List QItem := []
  inflow : List QItem := []
  midHead : Bool := false
  flushing : Bool := false
  tail : Bool := false
  discarded : BitVec 16 := 0
  dropped : BitVec 16 := 0
  timer : Option Word := none
deriving DecidableEq, Repr

/-- A cut recorded at a cell (R252). -/
structure CutRec where
  job : BitVec 32
  layer : Option (BitVec 16)
deriving DecidableEq, Repr

/-- Spare rows and error counts of a cell's scratchpad (R306 to R311). -/
structure Rows where
  map : SMap Nat := []
  ce : SMap (BitVec 8) := []
  due : List Nat := []
  field : Nat := 0
  rebuilt : Word := 0
deriving DecidableEq, Repr

/-- The 64-bit counters of a cell (Tables 5-8, 6-5, 7-8, 9-11, 17-7, 18-1). -/
structure Counters where
  beatsLookup : Word := 0
  beatsWait : Word := 0
  lookups : Word := 0
  tilesDrained : Word := 0
  commandsDone : Word := 0
  fetchBlocks : Word := 0
  stalls : Word := 0
  busyNs : Word := 0
  absentDelivered : Word := 0
  kblocksRemoved : Word := 0
  predSelected : Word := 0
  predGuarded : Word := 0
  predAudited : Word := 0
  predSkipped : Word := 0
  predDisagree : Word := 0
  tilesKerfed : Word := 0
  deltaSkipped : Word := 0
  deltaTies : Word := 0
  keyTiles : Word := 0
  cuts : Word := 0
  adapts : Word := 0
  ceTotal : Word := 0
  ueTotal : Word := 0
  scrubs : Word := 0
  recomputes : Word := 0
  lost : Word := 0
  lastCause : BitVec 8 := 0
deriving DecidableEq, Repr

/-- One exposed cell, by its address (02; a spare or a host serves the address with this state, R41, R615). `psnRows`
marks quarter rows whose FP32 or L16 values derive from a poisoned block, with the words marked (R719; log 24). `zeroCols` holds
the rows of gathered weight blocks that are zero columns, by the slot's byte address (R190, R220; log 39). -/
structure Cell where
  seq : Seq := {}
  ops : List UnitOp := []
  tile0 : Tile := {}
  tile1 : Tile := {}
  arr : Option ArrayRun := none
  rowTab : SMap (BitVec 12) := []
  colTab : SMap (BitVec 12) := []
  rq : Rq := {}
  sab : Sab := {}
  psnRows : SMap (List Word) := []
  zeroCols : SMap Nat := []
  lfuSpecial : Bool := false
  lfuSats : BitVec 16 := 0
  lfuFlushes : BitVec 16 := 0
  doveKremoved : BitVec 32 := 0
  doveAudited : List Nat := []
  prevLastC : BitVec 4 := 0
  prevKerfed : BitVec 16 := 0
  prevSkips : BitVec 16 := 0
  cutRecs : List CutRec := []
  spad : List Host.Cell := []
  rows : Rows := {}
  spdCe : BitVec 16 := 0
  spdUe : Bool := false
  spdOwner : BitVec 32 := 0
  scrubbing : Bool := false
  scrubReply : Option CmdRun := none
  killed : List (BitVec 32) := []
  cmdq : Queue := {}
  rplq : Queue := {}
  held : Option Nat := none
  draws : SMap Word := []
  cnt : Counters := {}
  ceLimit : BitVec 8 := 4
  recomputeLimit : BitVec 16 := 64
  deltaCap : Word := 0xFFFFFFFFFFFFFFFF
  cmdQtmo : BitVec 32 := 0
  rplQtmo : BitVec 32 := 20000
  recomputeTimes : List Word := []
  failStreak : Nat := 0
  dutyBeat : BitVec 4 := 0
  retireReq : Bool := false
deriving DecidableEq, Repr

/-! ### Units: roles, windows, carcase commands, shadows -/

/-- The states of Table 9-4. -/
inductive WinSt where
  | closed | opened | closing
deriving DecidableEq, Repr

/-- A write accepted by a window and not yet landed (R322). -/
structure WinWrite where
  no : Nat
  src : UnitAddr
  tag : BitVec 32
  item0 : Payload
  addr : Nat
  data : List Byte
  ack : Bool
deriving DecidableEq, Repr

/-- A window at its owner (R312 to R326). `deferred`: an OPEN waits for it (R313 step 1). -/
structure Win where
  st : WinSt := .closed
  base : BitVec 14 := 0
  rows : BitVec 15 := 0
  wepoch : BitVec 16 := 0
  writers : UnitAddr := 0
  job : BitVec 32 := 0
  unlanded : List WinWrite := []
  byKill : Bool := false
  deferred : Bool := false
deriving DecidableEq, Repr

/-- A command spread by a carcase and not yet complete (R31): the cells that have still to complete it, the codes so
far, and the window whose close it waits for. -/
structure Spread where
  src : UnitAddr
  tag : BitVec 32
  cmd : BitVec 8
  job : BitVec 32
  left : List Nat
  codes : List (BitVec 8)
  wepoch : BitVec 16 := 0
  win : Option Nat := none
deriving DecidableEq, Repr

/-- A joined fetch held at a router: the command and number, the first member's block and mask, the entry read, the blocks (none
while a serving device has them), the members that have still to have their copy (R446), the code with which every member ends
without one, and the unit that was lost in reading (R201, R209, R624). -/
structure JoinRec where
  src : UnitAddr
  tag : BitVec 32
  n : Nat
  block : List Word
  mask : Nat
  lo : Word
  hi : Word
  blocks : Option (List (Nat × Bool × List Byte))
  left : List Nat
  ends : Option (BitVec 8) := none
  lost : Option Nat := none
deriving DecidableEq, Repr

/-- A node's shadow and pending state (R635, R640, R642): the wave and its root, the latched values, the channels that
still owe a WAVE, the members that have reported. -/
structure Shadow where
  origin : BitVec 16 := 0
  state : BitVec 16 := 0
  num : BitVec 32 := 0
  time : Word := 0
  vals : List (Nat × Nat × Word) := []
  root : UnitAddr := 0
  pending : List Chan := []
  kids : List Nat := []
  reported : Bool := false
deriving DecidableEq, Repr

/-- What every unit holds (02, 09, 18), keyed by the low 48 bits of its address. -/
structure UnitState where
  role : BitVec 8 := 0
  epoch : BitVec 16 := 0
  bounces : Word := 0
  bouncesLost : Word := 0
  wins : SMap Win := []
  winAccepted : BitVec 32 := 0
  nextWrite : Nat := 0
  winClosedB : BitVec 16 := 0
  winBoundsB : BitVec 16 := 0
  msgSent : Word := 0
  msgReceived : Word := 0
  disp : List Msg := []
  cmds : List Spread := []
  joins : List JoinRec := []
  shadow : Shadow := {}
deriving DecidableEq, Repr

/-! ### Device memory -/

/-- An extent in use: its size in units (a power of two) and whose storage it is. -/
inductive ExtUse where
  | group (dix : Nat)
  | image (cell : Nat)
  | hold (dest : Nat)
  | serve (dev : Nat)
deriving DecidableEq, Repr

structure Extent where
  base : Nat
  units : Nat
  use : ExtUse
deriving DecidableEq, Repr

/-- A level-3 grant that this device serves (R514): client device, offset and size in KiB, base in the pool. -/
structure Served where
  client : BitVec 16
  offset : Nat
  kib : Nat
  base : Nat
deriving DecidableEq, Repr

/-- Per-die counters of Tables 6-5, 10-11 and 14-8. -/
structure DieCounters where
  dircHits : Word := 0
  dircMisses : Word := 0
  spill3Units : Word := 0
  spill4Units : Word := 0
  noRoomStores : Word := 0
  ceTotal : Word := 0
  ueTotal : Word := 0
  syncOps : Word := 0
  waitersSpilled : Word := 0
  waitersKilled : Word := 0
  counterOvf : Word := 0
  lastCause : BitVec 8 := 0
  lanesRepaired : BitVec 8 := 0
  modulesDown : BitVec 8 := 0
deriving DecidableEq, Repr

/-- Device memory and what spills from it. `replaced` lists storage that an entry no longer names and that waits for
its release (R206): its LOC × 2^40 + BASE, its units, the home die. `storeQ` holds the group stores that wait, in the order in
which they reached the home caches: DIX, cell, operation (R207); `frees` the group frees whose storage has not returned: DIX and
storage; `freed` the group free that completed last, with its code (R201, R208). -/
structure MemSys where
  mem : List Host.Cell := []
  tags : SMap (BitVec 2) := []
  wsMem : List Host.Cell := []
  chans : SMap ChanState := []
  carveGib : Nat := 16
  dirEntries : Nat := 16777216
  appBase : Nat := 0
  appUnits : Nat := 0
  extents : List Extent := []
  dirc : SMap (List Nat) := []
  dirRev : SMap Nat := []
  served : List Served := []
  spill4 : List (Nat × Nat) := []
  replaced : List (Nat × Nat × Nat) := []
  storeQ : List (Nat × Nat × Nat) := []
  frees : List (Nat × Nat) := []
  freed : Option (Nat × BitVec 8) := none
  lost : List Nat := []
  die0 : DieCounters := {}
  die1 : DieCounters := {}
deriving DecidableEq, Repr

/-! ### Sync objects -/

/-- A sync object's state (R361, Table 10-6). -/
inductive SyncObj where
  | none
  | counter (count : Word) (ovf : Bool)
  | barrier (n arrived gen : BitVec 32)
  | flag (set : Bool)
deriving DecidableEq, Repr

/-- A waiter (R367, R369): the request's fields and, for a barrier, the GEN of its arrival. -/
structure Waiter where
  obj : Nat
  op : BitVec 4
  job : BitVec 32
  value : Word
  src : UnitAddr
  tag : BitVec 32
  typ : BitVec 2
deriving DecidableEq, Repr

/-! ### Host die, endpoint, streams -/

structure Hart where
  thresh : BitVec 4 := 0
  online : Bool := false
  machine : Bool := false
  badcomp : Bool := false
  hiqHi : Word := 0
  sendAddr : BitVec 50 := 0
  busy : Bool := false
  sendErr : Bool := false
  slot : BitVec 13 := 0
deriving DecidableEq, Repr

/-- The states of Table 13-7. -/
inductive SrcSt where
  | idle | pending | active | activePending
deriving DecidableEq, Repr

structure EvSrc where
  prio : BitVec 4 := 0
  targets : BitVec 16 := 0
  st : SrcSt := .idle
  hart : BitVec 4 := 0
deriving DecidableEq, Repr

structure Evc where
  harts : SMap Hart := []
  srcs : SMap EvSrc := []
  spend : SMap Word := []
  smask : SMap Word := []
  last : BitVec 4 := 0
  obBase : Word := 0
  bmoff : Bool := false
  flr : Bool := false
  timers : SMap Word := []
  hiq : Queue := {}
  hiqQtmo : BitVec 32 := 50000
  claims : Word := 0
  emptyClaims : Word := 0
  refires : Word := 0
  withdrawals : Word := 0
deriving DecidableEq, Repr

/-- A completion entry before it is written (R413): its 16 words, PHASE left clear, and the KILL entries that wait for it
(R396). -/
structure Completion where
  words : List Word
  killers : List Nat := []
deriving DecidableEq, Repr

/-- A stream queue pair (Table 13-11, R487 to R492). -/
structure Stream where
  sqBaseS : Word := 0
  sqSizeS : BitVec 17 := 0
  cqBaseS : Word := 0
  cqSizeS : BitVec 17 := 0
  sqBase : Word := 0
  sqSize : BitVec 17 := 0
  cqBase : Word := 0
  cqSize : BitVec 17 := 0
  sqTail : BitVec 16 := 0
  cqHead : BitVec 16 := 0
  sqHead : BitVec 16 := 0
  roomwait : Bool := false
  vec : BitVec 6 := 0
  coalCnt : BitVec 8 := 0
  coalNs : BitVec 32 := 0
  cqTail : BitVec 16 := 0
  phase : Bool := true
  dberr : Bool := false
  cfgerr : Bool := false
  cqfull : Bool := false
  unsig : Nat := 0
  firstAt : Option Word := none
  read : Word := 0
  published : Word := 0
  ready : List Completion := []
deriving DecidableEq, Repr

structure Vec where
  masked : Bool := true
  pba : Bool := false
  sent : Word := 0
deriving DecidableEq, Repr

structure Pcie where
  streams : SMap Stream := []
  vecs : SMap Vec := []
  bme : Bool := false
  up : Bool := false
  rate : BitVec 8 := 6
  width : BitVec 8 := 16
  flit : Bool := true
deriving DecidableEq, Repr

/-- Where a job stands: it waits for its counter, is ready, runs, is being killed, or waits for the REPLY to its signal
(R391 to R394, R416). -/
inductive JobPhase where
  | waiting | ready | running | killing | signal
deriving DecidableEq, Repr

/-- An accepted job (R389 to R397, R411, R415). `cuts` are the recorded cuts (none: scope JOB), `killers` the KILL entries
that wait for its completion entry, `silent` that none is written (R486, R488). -/
structure JobRec where
  id : BitVec 32
  stream : Nat
  appTag : BitVec 32
  graph : BitVec 32
  seed : Word
  budget : Word
  precs : List Word
  repro : Bool
  keyAll : Bool
  wait : Option (BitVec 16 × BitVec 16 × Word)
  sig : Option (BitVec 16 × BitVec 16)
  phase : JobPhase
  start : Word := 0
  startRun : Word := 0
  done : List Nat := []
  codes : List (BitVec 8) := []
  fail : Option (BitVec 8 × BitVec 32) := none
  killed : Bool := false
  expired : Bool := false
  cuts : List (Option (BitVec 16)) := []
  killers : List Nat := []
  silent : Bool := false
  sigLost : Bool := false
  elapsed : Word := 0
  ledger : Ledger := {}
deriving DecidableEq, Repr

/-- A registered graph: its descriptors, and whether a RELEASE has named it (R400 to R402). -/
structure GraphRec where
  handle : BitVec 32
  tensors : List (List Word)
  layers : List (List Word)
  released : Bool := false
deriving DecidableEq, Repr

/-- An entry that waits for others before it completes: KILL (R396) or RELEASE (R402). -/
structure EntryWait where
  id : Nat
  stream : Nat
  kind : BitVec 8
  appTag : BitVec 32
  graph : BitVec 32
deriving DecidableEq, Repr

/-- An entry that the driver has read and that waits for the previous one of its stream (R383), with the KILL and CUT
entries that have matched it (R393). -/
structure QEntry where
  stream : Nat
  cmd : Instr
  killers : List Nat := []
  cuts : List (Option (BitVec 16)) := []
deriving DecidableEq, Repr

/-- A delta frame in progress (R243, R247): which tiles are key tiles. -/
structure DeltaFrame where
  job : BitVec 32
  layer : BitVec 16
  keyAllTiles : Bool
  keys : List Nat
deriving DecidableEq, Repr

/-- The driver's side of the contract. `stored` lists the groups that each job has stored (R394). -/
structure Driver where
  graphs : List GraphRec := []
  nextHandle : BitVec 32 := 1
  jobs : List JobRec := []
  nextJob : BitVec 32 := 1
  queue : List QEntry := []
  waits : List EntryWait := []
  nextWait : Nat := 0
  frames : List DeltaFrame := []
  stored : List (BitVec 32 × Nat) := []
  adds : List (Nat × Completion) := []
deriving DecidableEq, Repr

/-! ### Links -/

inductive LinkSt where
  | absent | up | down | off
deriving DecidableEq, Repr

/-- A packet on its way over links: its items, whether it ended by ABORT (R539, R540), and the link and VC from which more of
it is to come (R547). -/
structure Packet where
  items : List QItem
  aborted : Bool
  src : Option (Nat × Bool)
deriving DecidableEq, Repr

/-- A DATA flit in a receive buffer (R529). -/
structure RxFlit where
  items : List QItem
  abort : Bool
deriving DecidableEq, Repr

structure Partner where
  devid : BitVec 16
  link : BitVec 8
  role : BitVec 8
  epoch : BitVec 16
  unnum : Bool
  serial : Word
deriving DecidableEq, Repr

/-- A DATA flit held for replay (R530). -/
structure HeldFlit where
  seq : BitVec 12
  vc : Bool
  items : List QItem
  abort : Bool
deriving DecidableEq, Repr

/-- A link (15): its state, acting mode, flit lock and lanes; SEQ, credits and replay (R529 to R532); `owe0`, `owe1` and
`nakSend` are what the next flit reports; HELLOs (R537); its partner; receive buffers and output queues by VC, `sent` items of
whose first packet have left, `mid` telling that the packet received last goes on; and the HELLO last sent. -/
structure Link where
  st : LinkSt := .absent
  mode : BitVec 8 := 1
  lock : Bool := false
  lanes : Nat := 4
  txSeq : BitVec 12 := 0
  rxSeq : BitVec 12 := 0xFFF
  rxAny : Bool := false
  held : List HeldFlit := []
  cred0 : Nat := 0
  cred1 : Nat := 0
  owe0 : Nat := 0
  owe1 : Nat := 0
  nakOpen : Bool := false
  nakSend : Bool := false
  hseq : BitVec 32 := 0
  helloAt : Word := 0
  lastHello : Word := 0
  lastAck : Word := 0
  helloDue : Bool := false
  partner : Option Partner := none
  dup : Bool := false
  peerMac : BitVec 48 := 0
  rx0 : List RxFlit := []
  rx1 : List RxFlit := []
  mid0 : Bool := false
  mid1 : Bool := false
  q0 : List Packet := []
  q1 : List Packet := []
  sent0 : Nat := 0
  sent1 : Nat := 0
  retraining : Bool := false
  out : List Byte := []
deriving DecidableEq, Repr

/-- The network between units and devices: messages and WAVE items on their way inside the device, links, routes,
arrival buffers, held packets; `wave0` and `wave1` hold the copies of a WAVE that have come over a link on one VC (R528). `ucie`
holds the FIFOs of the UCIe modules at their compute-die ends (Table 10-5), keyed by 10 × die + 2 × module + direction (module 0
to the host die, 1 to 4 to the other die; direction 1 into the die); `modsDown` the modules that cannot be repaired, 5 × die +
module (R619); `serTx` and `serRx` the FIFOs of the link ports. `behind` holds the messages in flight that stand behind a wave on
their way, with its ORIGIN and NUM (R638), `ahead` those that the host message port had sent before its last wave (R633). -/
structure Net where
  inFlight : List Msg := []
  links : SMap Link := []
  routes : SMap (BitVec 16) := []
  arrive0 : List Packet := []
  arrive1 : List Packet := []
  heldPk : List (Nat × Packet) := []
  numbered : Bool := false
  devId : BitVec 16 := 0
  split : SMap Nat := []
  flitsTx : Word := 0
  badFlits : Word := 0
  replays : Word := 0
  degrades : Word := 0
  forwarded : Word := 0
  aborted : Word := 0
  heldPurged : Word := 0
  cables : SMap Cable := []
  wave0 : List (Nat × Wave) := []
  wave1 : List (Nat × Wave) := []
  waves : List (Nat × Chan × Wave) := []
  behind : List (Msg × BitVec 16 × BitVec 32) := []
  ahead : List Msg := []
  ucie : SMap (ClockFifo (List QItem)) := []
  modsDown : List Nat := []
  serTx : SMap (ClockFifo HeldFlit) := []
  serRx : SMap (ClockFifo (List Byte)) := []
deriving DecidableEq, Repr

/-! ### Object dictionary -/

/-- A parameter instance: unit (low 48 bits), index and subindex. -/
structure ParamKey where
  unit : Nat
  index : Nat
  sub : Nat
deriving DecidableEq, Repr

/-- The path of a dictionary request; `dropped` where a Function Level Reset discards its response (R578). -/
inductive ReqPath where
  | bar4 | loc | chamois (addr : BitVec 128) (port : BitVec 16) | dropped
deriving DecidableEq, Repr

/-- A dictionary request in the service queue (R573): the path, 32 header bytes and data. -/
structure DictReq where
  path : ReqPath
  hdr : List Byte
  data : List Byte
deriving DecidableEq, Repr

/-- A pending commit (R564, R568): the instance, the group, what it sets at each unit by subindex, and the request that
it answers. -/
structure PendCommit where
  unit : Nat
  index : Nat
  vals : List (Nat × List (Nat × List Byte))
  req : DictReq
deriving DecidableEq, Repr

structure Mailbox where
  hdr : List Host.Cell := []
  data : List Host.Cell := []
  busy : Bool := false
  done : Bool := false
  goerr : Bool := false
deriving DecidableEq, Repr

/-- One copy of the persistent store (R587): its SEQ, its records, and the reliability records: the row maps of the
cells, the retired cells and the retired spares (R308, R613; log 29). -/
structure StoreCopy where
  seq : Word
  recs : List (ParamKey × List Byte)
  maps : SMap (SMap Nat)
  retired : List Nat
  spareBad : List Nat
deriving DecidableEq, Repr

/-- `params` are the acting values, `image` what the store is to hold (R590, R593), `saving` the copy being written. -/
structure Dict where
  params : List (ParamKey × List Byte) := []
  image : List (ParamKey × List Byte) := []
  stages : List (ParamKey × List (Nat × List Byte)) := []
  commits : List PendCommit := []
  bar4 : Mailbox := {}
  loc : Mailbox := {}
  queue : List DictReq := []
  cache : List (BitVec 128 × BitVec 16 × BitVec 32 × List Byte) := []
  mgmtTx : List Datagram := []
  announces : List Datagram := []
  dadState : BitVec 8 := 0
  framesRx : Word := 0
  framesTx : Word := 0
  chamoisBad : Word := 0
  storeA : Option StoreCopy := none
  storeB : Option StoreCopy := none
  acting : BitVec 8 := 2
  dirty : Bool := false
  dirtySince : Word := 0
  saving : Option StoreCopy := none
  saveRetry : Bool := false
  saveNow : Bool := false
  saves : Word := 0
  storeFails : Word := 0
  storeSkipped : BitVec 32 := 0
deriving DecidableEq, Repr

/-! ### Snapshot, freeze, test, security, power -/

/-- A TAP (R650 to R652): its instruction, the preloaded boundary values, what the last Capture-DR took, and the result of
the last DBG_ACCESS read. -/
structure Tap where
  instr : BitVec 8 := 0x01
  boundary : List Bool := []
  capture : Nat := 0
  dbgData : Word := 0
  dbgDone : Bool := false
  dbgErr : Bool := false
deriving DecidableEq, Repr

/-- A write through a BAR during a full freeze, whose effect waits for the thaw (Table 18-5, R646). -/
inductive BarOp where
  | sqTail (st : Fin 8) (v : BitVec 16) (w1c : BitVec 4)
  | cqHead (st : Fin 8) (v : BitVec 16)
  | streamReset (st : Fin 8) (w : StreamSetup)
  | flr
  | unmask (v : Fin 64)
  | mailbox (w : MbWrite)
deriving DecidableEq, Repr

/-- Snapshot waves and freezes (Tables 18-1, 18-7), with `lowAt` the local time at which FREEZE_N fell (Table 18-5), and the debug
registers and TAPs. -/
structure Dbg where
  snapRoot : Option Word := none
  snapLinks : Bool := false
  snapNum : BitVec 32 := 0
  snapDone : Bool := true
  snapAbandoned : Bool := false
  fabricReq : Bool := false
  fullReq : Bool := false
  lowAt : Word := 0
  fabricFrozen : Bool := false
  fullFrozen : Bool := false
  freezeAt : Word := 0
  freezes : Word := 0
  doorWait : List (BitVec 13) := []
  barWait : List BarOp := []
  auth : Bool := false
  authEver : Bool := false
  fullDebug : Bool := false
  unit : UnitAddr := 0
  space : BitVec 8 := 0
  offset : BitVec 32 := 0
  tap0 : Tap := {}
  tap1 : Tap := {}
  tap2 : Tap := {}
deriving DecidableEq, Repr

/-- A measurement log entry (R666): `event` is the row of Table 19-6. -/
structure LogEntry where
  reg : BitVec 8
  event : BitVec 8
  digest : List Byte
deriving DecidableEq, Repr

/-- The stage a boot has reached (Table 19-5). -/
inductive BootStage where
  | off | released | ready | recovery
deriving DecidableEq, Repr

structure Sec where
  keys : SMap (BitVec 4) := [(0, 0b0011), (1, 0b0101)]
  svnMin : Nat := 0
  slotA : Option SlotImage := some ⟨1, 0, 0, 0, 0x01000000, true, [], true⟩
  slotB : Option SlotImage := none
  bootSlot : BitVec 8 := 0
  fwStage : List Host.Cell := []
  fwState : BitVec 8 := 0
  fwNext : Option SlotImage := none
  fwVersion : BitVec 32 := 0
  mrs : SMap (List Byte) := []
  log : List LogEntry := []
  logFull : Bool := false
  certSvnMin : Nat := 0
  akCert : Bool := false
  quoteState : BitVec 8 := 0
  nonce : List Byte := []
  held : Option (List Byte) := none
  quote : List Byte := []
  challenge : Option (List Byte) := none
deriving DecidableEq, Repr

/-- A compute die's supply (20): VCORE in mV, ISSUE_DUTY, the cap and thermal targets in mV, TJ, whether THERMAL may fire
again (R692), whether an under-voltage holds the die (R687), and its counters. -/
structure DiePower where
  mv : Nat := 750
  duty : Nat := 16
  capMv : Nat := 750
  thermMv : Nat := 850
  tj : BitVec 16 := 1120
  warnArmed : Bool := true
  uv : Bool := false
  uvEvents : Word := 0
  warnEvents : Word := 0
  capNs : Word := 0
  thermNs : Word := 0
deriving DecidableEq, Repr

/-- Why the module is off and stays off (R694, R712). -/
inductive Latch where
  | clear | trip | over
deriving DecidableEq, Repr

/-- Supply, pins and power state of the module (20, 21); `energy` counts tenths of a mJ. -/
structure Power where
  on : Bool := true
  pg : Bool := true
  inputOk : Bool := true
  latch : Latch := .clear
  thermtripN : Bool := true
  pwrEn : Bool := true
  modResetN : Bool := true
  perstN : Bool := true
  freezeN : Bool := true
  strapRecoveryN : Bool := true
  strapSris : Bool := false
  strapT1s : Bool := false
  boot : BootStage := .released
  lastShutdown : BitVec 8 := 0
  shutdownNext : BitVec 8 := 0
  railFaults : BitVec 32 := 0
  die0 : DiePower := {}
  die1 : DiePower := {}
  inputW : Nat := 0
  inputMv : BitVec 16 := 12000
  energy : Word := 0
deriving DecidableEq, Repr

/-- Spare cells, retirement and hosting (17). -/
structure Host_ where
  host : Nat
  guest : Nat
  resident : Bool
deriving DecidableEq, Repr

structure Rel where
  spareOf : SMap Nat := []
  retired : List Nat := []
  spareBad : List Nat := []
  hosts : List Host_ := []
deriving DecidableEq, Repr

/-! ### The module -/

/-- The state of the module. `time…` are the three local time counters (R630), `runTime` the nanoseconds that
no freeze held (R631), and `free` the model's own counter that names the next free value (log 11). -/
structure State where
  pending : List Instr
  cells : SMap Cell
  units : SMap UnitState
  mem : MemSys
  sync : SMap SyncObj
  waiters : List Waiter
  evc : Evc
  pcie : Pcie
  drv : Driver
  net : Net
  dict : Dict
  dbg : Dbg
  sec : Sec
  pwr : Power
  rel : Rel
  conv : List LayerConv
  timeHost : Word
  timeDie0 : Word
  timeDie1 : Word
  runTime : Word
  fifo : Fifos
  free : Nat
deriving DecidableEq, Repr

/-- The module when its internal reset has just been released and the boot of Table 19-5 has not begun (R709):
every unit IDLE with epoch 0 (R51), every queue and FIFO empty (R359), every sync object NONE (R361), local
time zero (R630), every parameter at its default (R557). Values the spec does not give: log 7 to 10. -/
def State.reset : State :=
  { pending := [], cells := [], units := [], mem := {}, sync := [], waiters := [], evc := {}, pcie := {},
    drv := {}, net := {}, dict := {}, dbg := {}, sec := {}, pwr := {}, rel := {}, conv := [], timeHost := 0, timeDie0 := 0,
    timeDie1 := 0, runTime := 0, fifo := {}, free := 0 }

/-- A machine fault. The module has none that ends a run (R22): no meaning raises one. Safe: no run stops here. -/
inductive Fault where
  /-- Raised by no meaning; it stands so that the type is inhabited. Safe. -/
  | none
deriving DecidableEq, Repr

/-- A refusal. -/
inductive Refusal where
  /-- Raised by the dispatch for a command that has no meaning yet. Safe: it stops where the hardware goes on. -/
  | notModelled (mnemonic : String)
deriving DecidableEq, Repr

end Sys2Proof.Machine
end

