-- ==== Sys2Proof/Machine/Fifo.lean ====
section
/-! DEFINITION. The clock-boundary FIFOs of Table 10-5 (R356 to R359): Gray pointers, their synchronisers, the two flags,
and an entry's way through. -/

namespace Sys2Proof.Machine

open Sys2Proof

/-- The Gray code of a pointer (R356). -/
def grayCode (n : Nat) : BitVec 8 := BitVec.ofNat 8 n ^^^ (BitVec.ofNat 8 n >>> 1)

/-- The pointer of a Gray code. -/
def ofGray (g : BitVec 8) : Nat :=
  let a := g ^^^ (g >>> 4)
  let b := a ^^^ (a >>> 2)
  (b ^^^ (b >>> 1)).toNat

variable {α : Type}

/-- FULL, in the writing domain: its own pointer and the synchronised read pointer are a depth apart (R357). -/
def ClockFifo.full (depth : Nat) (f : ClockFifo α) : Bool :=
  decide ((ofGray f.w + 2 * depth - ofGray f.rSync) % (2 * depth) = depth)

/-- EMPTY, in the reading domain: its own pointer is the synchronised write pointer (R357). -/
def ClockFifo.empty (f : ClockFifo α) : Bool := decide (f.r = f.wSync)

/-- One edge of both synchronisers: each pointer moves one stage on (R356). -/
def ClockFifo.edge (f : ClockFifo α) : ClockFifo α :=
  { f with wSync := f.wMeta, wMeta := f.w, rSync := f.rMeta, rMeta := f.r }

/-- The writing domain writes an entry, where FULL is clear. -/
def ClockFifo.write (depth : Nat) (f : ClockFifo α) (e : α) : Option (ClockFifo α) :=
  if f.full depth then none
  else some { f with w := grayCode ((ofGray f.w + 1) % (2 * depth)), entries := f.entries ++ [e] }

/-- The reading domain reads the oldest entry, where EMPTY is clear. -/
def ClockFifo.read (depth : Nat) (f : ClockFifo α) : Option (α × ClockFifo α) :=
  if f.empty then none
  else
    match f.entries with
    | [] => none
    | e :: t => some (e, { f with r := grayCode ((ofGray f.r + 1) % (2 * depth)), entries := t })

/-- Both synchronisers settle: two stages (R356). -/
def ClockFifo.settle (f : ClockFifo α) : ClockFifo α := f.edge.edge

/-- An entry crosses while nothing holds the reader: it is written, seen after the synchroniser, read, and its space seen
again. A FIFO that shows FULL takes it after the flag has caught up (R357, R358). -/
def ClockFifo.pass (depth : Nat) (f : ClockFifo α) (e : α) : ClockFifo α :=
  match f.settle.write depth e with
  | none => f.settle
  | some g => (g.settle.read depth).elim g.settle (fun x => x.2.settle)

def ClockFifo.passAll (depth : Nat) (f : ClockFifo α) (l : List α) : ClockFifo α := l.foldl (ClockFifo.pass depth) f

/-- Entries of four queue items (Table 10-5). -/
def fourItems : Nat → List QItem → List (List QItem)
  | 0, _ => []
  | n + 1, l => l.take 4 :: fourItems n (l.drop 4)

end Sys2Proof.Machine
end

