-- ==== Sys2Proof/Config.lean ====
section
/-! DEFINITION. What an implementation fixes (fused and manufactured values) and the free values the manual leaves
open. No constant here has a body that a proof could use. -/

namespace Sys2Proof

/-- Free value: a 64-bit value the manual leaves open, a fresh one for each number (log 11). -/
opaque Config.freeWord : Nat → Word

/-- Free value: a byte of the k-th open byte string (random challenge R674; signatures' random parts) (log 11). -/
opaque Config.freeBytes : Nat → Nat → Byte

/-- Free value: the EPOCH field of a REPLY's header, by its destination and TAG (Table 2-7 names no role epoch that a
REPLY expects) (log 11). -/
opaque Config.replyEpoch : UnitAddr → BitVec 32 → BitVec 16

/-- Free value: sign and payload of the NaN that an FP32 operation returns (R14 gives none) (log 12). -/
opaque Config.nanBits : F32 → F32 → BitVec 24

/-- Free value: the FP32 bits of max(a, b) or min(a, b) for zeros of both signs or a NaN (log 12). -/
opaque Config.maxMinBits : F32 → F32 → F32

/-- FIPS 205 signature check, key, message, signature (R656; the standard is outside the manual) (log 13). -/
opaque Config.slhVerify : List Byte → List Byte → List Byte → Bool

/-- FIPS 205 signature by the key made from a seed string, of a message, with the randomness of a number; `true` for the
parameter set of quotes (R656, R669, R670) (log 13). -/
opaque Config.slhSign : Bool → List Byte → List Byte → Nat → List Byte

/-- FIPS 205 public key made from a seed string, by parameter set (R669, R670) (log 13). -/
opaque Config.slhPublic : Bool → List Byte → List Byte

/-- The certificate area: the first three X.509 certificates, each prefixed by its length (R671) (log 13). -/
opaque Config.certArea : List Byte

/-- The attestation key certificate in DER, by the key it certifies, firmware version, SVN, SVN_MIN and SERIAL (R671)
(log 13). -/
opaque Config.akCert : List Byte → BitVec 32 → Nat → Nat → Word → List Byte

/-- The event code and description of a log entry, by the row of Table 19-6, which gives names only (R666) (log 13). -/
opaque Config.eventCode : Nat → BitVec 8
opaque Config.eventText : Nat → List Byte

/-- Fuses (Table 19-2). -/
opaque Config.keyBytes : Nat → List Byte
opaque Config.devSeed : List Byte
opaque Config.rowsMappedTestRaw : Nat → BitVec 7

/-- Identity parameters (R726). -/
opaque Config.vendorId : BitVec 16
opaque Config.deviceId : BitVec 16
opaque Config.subsysVendor : BitVec 16
opaque Config.subsysId : BitVec 16
opaque Config.serialRaw : Word
opaque Config.hwRev : BitVec 16
opaque Config.baseMac : BitVec 48
opaque Config.variantAh : Bool

/-- Factory calibration (Table 16-11): index, unit, element. -/
opaque Config.factory : Nat → Nat → Nat → Int

/-- Free value: the seed of a job that this device's driver holds no record of, for draws of its commands here
(R179 gives the seed of a job only) (log 11). -/
opaque Config.foreignSeed : BitVec 32 → Word

/-- Free values: M, N and K (0, 1, 2) of a layer of a job whose record another device's driver holds (R66, R67) (log 21). -/
opaque Config.foreignDims : BitVec 32 → BitVec 16 → Nat → Nat

/-- Free values: REF_BOUND16 and FRAMES (0, 1) of a tile's reference ledger in a layer of another device's job (R262; log 21). -/
opaque Config.foreignRef : BitVec 32 → BitVec 16 → Nat → Nat → Nat

/-- Free value: the tensor that a layer of another device's job writes (or reads) is named as WGT there (R721; log 21). -/
opaque Config.foreignByRow : BitVec 32 → BitVec 16 → Bool → Bool

/-- Free values: byte `i` of unit `u` of a group that a serving device holds from offset `b` on, as this device's driver reads it
(log 11). -/
opaque Config.farByte : Nat → Nat → Nat → Byte

/-- Free values: the FP32 sum of products, and element n of a row of an LFU operation with RMS, EPS and auxiliary rows, as the
harts form them; key 0 for an exact layer, a fresh one for any other (R288, R289; log 11). -/
opaque Config.hostSum : Nat → List (F32 × F32) → F32
opaque Config.hostLfu : Nat → Nat × Bool × F32 → List (List F32) → Nat → F32

/-- Free values: the logical tile on which tile `i` of an array instruction works, and the first group column of its
reduction, by job, layer, cell, number of the operation, and i: the ARRAY block carries neither (R66, R67, R112; log 21). -/
opaque Config.tileAt : BitVec 32 → BitVec 16 → Nat → Nat → Nat → Nat
opaque Config.firstColumn : BitVec 32 → BitVec 16 → Nat → Nat → Nat

/-- Free values: how many pairs stand collected at PROW for row r, and how many elements the whole row has, when an LFU
operation finishes a row of several cells (R281, R282); by job, layer and row. The LFU block does not carry them
(log 25). -/
opaque Config.collected : BitVec 32 → BitVec 16 → Nat → Nat
opaque Config.rowTotal : BitVec 32 → BitVec 16 → Nat → BitVec 32

/-- Free values: of a row of several cells, the largest element that other cells hold and the mean of the row, as PHASE 1 takes its
terms about them (R276), and whether another cell's share derives from a poisoned block, as PHASE 2 has to know (R719); by job,
layer and row (log 25). -/
opaque Config.rowMax : BitVec 32 → BitVec 16 → Nat → F32
opaque Config.rowMean : BitVec 32 → BitVec 16 → Nat → F32
opaque Config.rowPoison : BitVec 32 → BitVec 16 → Nat → Bool

/-- Free values: SYM, and the zero code of (row, column), of the record of the scores or outputs that SELECT or AUDIT reads for a
layer of another device's job (R132, R191; log 20). -/
opaque Config.foreignSym : BitVec 32 → BitVec 16 → Bool → Bool
opaque Config.foreignZero : BitVec 32 → BitVec 16 → Bool → Nat → Nat → Int

/-- Free value: the rows of the tensor at a DIRBASE that a layer of another device's job gathers from (R219; log 39). -/
opaque Config.foreignRows : BitVec 32 → BitVec 16 → Nat → Nat

/-- The records of the store that hold the row maps, the retired cells and the retired spares (R308, R613), as bytes: the
manual gives no layout (log 29). -/
opaque Config.relRecords : List (Nat × List (Nat × Nat)) → List Nat → List Nat → List (List Byte)

/-- The fixed function of SRC and DEST that chooses one of `n` die-to-die modules (R48 says that it is fixed, not which it is;
log 41). -/
opaque Config.d2dModule : Nat → UnitAddr → UnitAddr → Nat

/-- Version and manufacturer fields of IDCODE, as the BSDL gives them (Table 18-8) (log 9). -/
opaque Config.idVersion : BitVec 4
opaque Config.idMaker : BitVec 11

/-- The beat in ps that a die measures, by VCORE in mV and Tj (Table 20-1 gives its points only) (log 14). -/
opaque Config.beatPs : Nat → BitVec 16 → BitVec 16

end Sys2Proof
end

