-- ==== Sys2Proof/Machine/Ops.lean ====
section
/-! DEFINITION. The named operations over tables, memory, units, cells, queues and messages. -/

namespace Sys2Proof.Machine

open Sys2Proof

/-! ### Bits and numbers -/

/-- Bits [hi:lo] of a word, as a number. -/
def fld {n : Nat} (w : BitVec n) (hi lo : Nat) : Nat := w.toNat / 2 ^ lo % 2 ^ (hi + 1 - lo)

/-- One bit of a word. -/
def bitOf {n : Nat} (w : BitVec n) (i : Nat) : Bool := w.getLsbD i

/-- A Bool as a number. -/
def b2n (b : Bool) : Nat := if b then 1 else 0

/-- Bits [n-1:0] of `x` read as two's complement. -/
def signed (n : Nat) (x : Nat) : Int := (BitVec.ofNat n x).toInt

/-- The low 64 bits of an integer. -/
def wordOfInt (x : Int) : Word := BitVec.ofInt 64 x

/-- ceil(a / b). -/
def ceilDiv (a b : Nat) : Nat := (a + b - 1) / b

/-- The `n` bytes of `x`, least significant first (R3). -/
def bytesLE : Nat → Nat → List Byte
  | 0, _ => []
  | n + 1, x => BitVec.ofNat 8 x :: bytesLE n (x / 256)

/-- The number whose bytes are given, least significant first (R3). -/
def ofBytesLE : List Byte → Nat
  | [] => 0
  | b :: bs => b.toNat + 256 * ofBytesLE bs

/-- `n` elements of a list from position `i`, padded with `d`. -/
def sliceD {α : Type} (l : List α) (i n : Nat) (d : α) : List α :=
  (l.drop i).take n ++ List.replicate (n - (l.length - i)) d

/-! ### Tables -/

/-- The entry at key `i`. -/
def SMap.get? {α : Type} : SMap α → Nat → Option α
  | [], _ => none
  | (k, v) :: t, i => if k = i then some v else SMap.get? t i

/-- The entry at key `i`, or `d` where the table lists none. -/
def SMap.getD {α : Type} (m : SMap α) (i : Nat) (d : α) : α := (SMap.get? m i).getD d

/-- The table with `v` at key `i`. -/
def SMap.set {α : Type} : SMap α → Nat → α → SMap α
  | [], i, v => [(i, v)]
  | (k, w) :: t, i, v =>
    if i < k then (i, v) :: (k, w) :: t
    else if i = k then (i, v) :: t
    else (k, w) :: SMap.set t i v

/-- The table without key `i`. -/
def SMap.erase {α : Type} : SMap α → Nat → SMap α
  | [], _ => []
  | (k, w) :: t, i => if i = k then SMap.erase t i else (k, w) :: SMap.erase t i

/-- The table with `v` at key `i`, where an unlisted key reads as `d`. -/
def SMap.put {α : Type} [DecidableEq α] (m : SMap α) (i : Nat) (v d : α) : SMap α :=
  if v = d then SMap.erase m i else SMap.set m i v

/-- The table with `v` first, where an unlisted key reads as `d`. -/
def SMap.cons {α : Type} [DecidableEq α] (d : α) (i : Nat) (v : α) (t : SMap α) : SMap α :=
  if v = d then t else (i, v) :: t

/-- `n` entries from key `i` up changed by `f`, in a table of keys from `i` up. -/
def SMap.walk {α : Type} [DecidableEq α] (d : α) (f : Nat → α → α) : Nat → Nat → SMap α → SMap α
  | 0, _, m => m
  | n + 1, i, [] => SMap.cons d i (f i d) (SMap.walk d f n (i + 1) [])
  | n + 1, i, (k, v) :: t =>
    if k = i then SMap.cons d i (f i v) (SMap.walk d f n (i + 1) t)
    else SMap.cons d i (f i d) (SMap.walk d f n (i + 1) ((k, v) :: t))

/-- `n` entries from key `i` up changed by `f`, where an unlisted key reads as `d`. -/
def SMap.update {α : Type} [DecidableEq α] (d : α) (f : Nat → α → α) (n i : Nat) (m : SMap α) : SMap α :=
  m.filter (fun e => decide (e.1 < i)) ++ SMap.walk d f n i (m.filter (fun e => decide (i ≤ e.1)))

/-! ### Memory: bytes at addresses, an unlisted byte reads as 0 (log 8) -/

/-- The canonical form of a memory: addresses strictly rising, no listed byte equal to 0. -/
abbrev Memory.wf (m : List Host.Cell) : Prop :=
  m.Pairwise (fun a b => a.1 < b.1) ∧ ∀ c ∈ m, c.2 ≠ 0

/-- One byte. -/
def Memory.read (m : List Host.Cell) (a : Nat) : Byte := SMap.getD m a 0

/-- Store one byte. -/
def Memory.write (m : List Host.Cell) (a : Nat) (b : Byte) : List Host.Cell := SMap.put m a b 0

/-- `n` bytes from address `a`. -/
def Memory.readBytes (m : List Host.Cell) (a n : Nat) : List Byte :=
  (List.range n).map (fun i => Memory.read m (a + i))

/-- Store bytes from address `a` up. -/
def Memory.writeBytes : List Host.Cell → Nat → List Byte → List Host.Cell
  | m, _, [] => m
  | m, a, b :: bs => Memory.writeBytes (Memory.write m a b) (a + 1) bs

/-- `n` bytes from `a` as a number (R3). -/
def Memory.readNat (m : List Host.Cell) (a n : Nat) : Nat := ofBytesLE (Memory.readBytes m a n)

/-- Store the low `n` bytes of `x` at `a` (R3). -/
def Memory.writeNat (m : List Host.Cell) (a n x : Nat) : List Host.Cell :=
  Memory.writeBytes m a (bytesLE n x)

/-- Zero `n` bytes from `a`. -/
def Memory.zero (m : List Host.Cell) (a n : Nat) : List Host.Cell :=
  m.filter (fun c => decide (c.1 < a ∨ a + n ≤ c.1))

/-- The 64-bit word at `a`. -/
def Memory.readWord (m : List Host.Cell) (a : Nat) : Word := BitVec.ofNat 64 (Memory.readNat m a 8)

/-- Store a 64-bit word at `a`. -/
def Memory.writeWord (m : List Host.Cell) (a : Nat) (w : Word) : List Host.Cell :=
  Memory.writeNat m a 8 w.toNat

/-- The 16 words of a logical row (R291). -/
def Memory.readRow (m : List Host.Cell) (row : Nat) : List Word :=
  (List.range 16).map (fun i => Memory.readWord m (row * 128 + 8 * i))

/-- Store words from a row's first word up (R292). -/
def Memory.writeWords : List Host.Cell → Nat → List Word → List Host.Cell
  | m, _, [] => m
  | m, a, w :: ws => Memory.writeWords (Memory.writeWord m a w) (a + 8) ws

/-! ### Unit addresses (R32, R33, R316) -/

/-- Exposed cells below a unit of each depth (Table 2-2). -/
def UA.span : Nat → Nat
  | 0 => 512
  | 1 => 256
  | 2 => 64
  | 3 => 16
  | 4 => 4
  | _ => 1

def UA.device (u : UnitAddr) : BitVec 16 := (u >>> 48).setWidth 16
def UA.depth (u : UnitAddr) : Nat := fld u 47 44
def UA.digit (u : UnitAddr) (i : Nat) : Nat := fld u (47 - 4 * i) (44 - 4 * i)

/-- The key of a unit within its device: the low 48 bits of its address. -/
def UA.key (u : UnitAddr) : Nat := u.toNat % 2 ^ 48

/-- R33. -/
def UA.canonical (u : UnitAddr) : Bool :=
  decide (UA.depth u ≤ 5) &&
  (List.range (UA.depth u)).all (fun i => decide (UA.digit u (i + 1) < if i = 0 then 2 else 4)) &&
  decide (u.toNat % 2 ^ (44 - 4 * UA.depth u) = 0)

/-- The linear index of the first exposed cell below the unit (02, Table 2-4). -/
def UA.index (u : UnitAddr) : Nat :=
  UA.digit u 1 * 256 + UA.digit u 2 * 64 + UA.digit u 3 * 16 + UA.digit u 4 * 4 + UA.digit u 5

/-- The key of the unit of depth `d` that holds the cell of linear index `i`. -/
def UA.keyOf (d i : Nat) : Nat :=
  let i := i / UA.span d * UA.span d
  d * 2 ^ 44 + i / 256 % 2 * 2 ^ 40 + i / 64 % 4 * 2 ^ 36 + i / 16 % 4 * 2 ^ 32 + i / 4 % 4 * 2 ^ 28
    + i % 4 * 2 ^ 24

/-- The address of a unit of device `dev` by its key. -/
def UA.mk (dev : BitVec 16) (key : Nat) : UnitAddr := BitVec.ofNat 64 (dev.toNat * 2 ^ 48 + key)

/-- The exposed cells of a unit, in ascending unit address (R37). -/
def UA.cells (u : UnitAddr) : List Nat :=
  (List.range (UA.span (UA.depth u))).map (fun i => UA.index u + i)

/-- The keys of all units strictly below a unit. -/
def UA.below (u : UnitAddr) : List Nat :=
  (List.range 6).flatMap (fun d =>
    if UA.depth u < d then
      (List.range (UA.span (UA.depth u) / UA.span d)).map (fun j => UA.keyOf d (UA.index u + j * UA.span d))
    else [])

/-- The keys of a unit's members: the units one depth below (Table 2-2). -/
def UA.children (u : UnitAddr) : List Nat :=
  let d := UA.depth u + 1
  if d ≤ 5 then
    (List.range (UA.span (UA.depth u) / UA.span d)).map (fun j => UA.keyOf d (UA.index u + j * UA.span d))
  else []

/-- The keys of the units strictly above a unit. -/
def UA.above (u : UnitAddr) : List Nat :=
  (List.range (UA.depth u)).map (fun d => UA.keyOf d (UA.index u))

/-- A source address lies in a subtree (R316). -/
def UA.inSubtree (src w : UnitAddr) : Bool :=
  decide (UA.device src = UA.device w) &&
  (List.range (UA.depth w)).all (fun i => decide (UA.digit src (i + 1) = UA.digit w (i + 1)))

/-! ### The module's parts -/

/-- Rows from `r` on are written: no zero column of a gather stands there any longer. -/
def Cell.overwritten (x : Cell) (r n : Nat) : Cell :=
  { x with zeroCols := x.zeroCols.filter (fun z => decide (z.1 / 128 < r ∨ r + n ≤ z.1 / 128)) }

def State.cell (s : State) (c : CellIx) : Cell := SMap.getD s.cells c.val {}
def State.setCell (s : State) (c : CellIx) (x : Cell) : State := { s with cells := SMap.set s.cells c.val x }
def State.modCell (s : State) (c : CellIx) (f : Cell → Cell) : State := s.setCell c (f (s.cell c))

/-- The cell at a linear index (indices above 511 do not occur). -/
def cellIx (i : Nat) : CellIx := Fin.ofNat 512 i

/-- A change of every cell of a list of linear indices. -/
def State.modCells (s : State) (l : List Nat) (f : Cell → Cell) : State :=
  l.foldl (fun s i => s.modCell (cellIx i) f) s

def State.unit (s : State) (k : Nat) : UnitState := SMap.getD s.units k {}
def State.modUnit (s : State) (k : Nat) (f : UnitState → UnitState) : State :=
  { s with units := SMap.set s.units k (f (s.unit k)) }

/-- The device address with DEPTH 0 (R46). -/
def State.devAddr (s : State) : UnitAddr := UA.mk s.net.devId 0

/-- The unit address that a cell serves (R41). -/
def State.cellAddr (s : State) (c : CellIx) : UnitAddr := UA.mk s.net.devId (UA.keyOf 5 c.val)

/-- The address is one of this device. -/
def State.local? (s : State) (u : UnitAddr) : Bool := decide (UA.device u = s.net.devId)

def CellIx.die (c : CellIx) : Nat := c.val / 256

/-- A die's local time counter (R630). -/
def State.dieTime (s : State) (d : Nat) : Word := if d = 0 then s.timeDie0 else s.timeDie1

def MemSys.die (m : MemSys) (d : Nat) : DieCounters := if d = 0 then m.die0 else m.die1
def State.modDie (s : State) (d : Nat) (f : DieCounters → DieCounters) : State :=
  if d = 0 then { s with mem := { s.mem with die0 := f s.mem.die0 } }
  else { s with mem := { s.mem with die1 := f s.mem.die1 } }

def State.diePower (s : State) (d : Nat) : DiePower := if d = 0 then s.pwr.die0 else s.pwr.die1
def State.modDiePower (s : State) (d : Nat) (f : DiePower → DiePower) : State :=
  if d = 0 then { s with pwr := { s.pwr with die0 := f s.pwr.die0 } }
  else { s with pwr := { s.pwr with die1 := f s.pwr.die1 } }

/-- A fresh free value, and the state in which its number is used up (log 11). -/
def State.freshWord (s : State) : Word := Config.freeWord s.free
def State.useFree (s : State) : State := { s with free := s.free + 1 }

/-! ### Liveness (log 1) -/

/-- Some freeze holds (R631, R643). -/
def State.frozen (s : State) : Bool := s.dbg.fabricFrozen || s.dbg.fullFrozen

/-- The module runs: its power is on and its boot has reached Driver ready. -/
def State.up (s : State) : Bool := s.pwr.on && decide (s.pwr.boot = .ready)

/-- The fabric works: the module runs and no freeze holds. -/
def State.fabricUp (s : State) : Bool := s.up && !s.frozen

/-- The fabric of a die works: no under-voltage stop holds it either (R687). -/
def State.dieUp (s : State) (d : Nat) : Bool := s.fabricUp && !(s.diePower d).uv

/-- The entry of a hosted address (R614). -/
def Rel.hostOf (r : Rel) (c : CellIx) : Option Host_ := r.hosts.find? (fun h => decide (h.guest = c.val))

/-- The context of an address is the one that its cell executes (R615, R616). -/
def State.resident (s : State) (c : CellIx) : Bool :=
  match s.rel.hostOf c with
  | some h => h.resident
  | none => !s.rel.hosts.any (fun h => decide (h.host = c.val) && h.resident)

/-- The physical cell that serves an address: its own, the spare of its depth-3 carcase (512 + its number), or its host's
(R41, R614). -/
def State.physical (s : State) (c : CellIx) : Nat :=
  let p (i : Nat) : Nat := if SMap.get? s.rel.spareOf (i / 16) = some i then 512 + i / 16 else i
  match s.rel.hostOf c with
  | some h => p h.host
  | none => p c.val

/-- The cell of the address works: its die does, and its context is resident. -/
def State.cellUp (s : State) (c : CellIx) : Bool := s.dieUp (CellIx.die c) && s.resident c

/-- The context of a message's destination, where that is a cell, is resident (R617). -/
def State.destResident (s : State) (m : Msg) : Bool :=
  !decide (UA.depth m.dest = 5) || s.resident (cellIx (UA.index m.dest))

/-- The dies below a unit work. -/
def State.unitUp (s : State) (u : UnitAddr) : Bool :=
  if UA.depth u = 0 then s.fabricUp else s.dieUp (UA.digit u 1)

/-- The host die works: the module runs and no full freeze halts it (R643). -/
def State.hostUp (s : State) : Bool := s.up && !s.dbg.fullFrozen

def Dbg.tap (d : Dbg) (i : Nat) : Tap := if i = 0 then d.tap0 else if i = 1 then d.tap1 else d.tap2

/-- An instruction that holds the pins of its TAP (R654). -/
def holdsPins (instr : BitVec 8) : Bool := decide (instr.toNat ∈ [0x00, 0x04, 0x05, 0x06, 0x07])

/-- The pins of TAP `i` carry no traffic (R654). -/
def State.pinsHeld (s : State) (i : Nat) : Bool := holdsPins (s.dbg.tap i).instr

/-- A meaning that acts only on its occasion, and leaves the state alone otherwise (log 1). -/
def onlyIf (b : Bool) (s : State) (f : State → State) : State := if b then f s else s

/-! ### The persistent store (R587 to R592) -/

/-- The copy that a save writes: SEQ one above the acting copy's (R590). -/
def State.storeCopy (s : State) : StoreCopy :=
  let seq := if s.dict.acting = 0 then s.dict.storeA.elim 0 (·.seq)
    else if s.dict.acting = 1 then s.dict.storeB.elim 0 (·.seq) else 0
  ⟨seq + 1, s.dict.image, (s.cells.filter (fun c => decide (c.2.rows.map ≠ []))).map (fun c => (c.1, c.2.rows.map)),
    s.rel.retired, s.rel.spareBad⟩

/-- The image has changed (R591). -/
def Dict.touch (d : Dict) (now : Word) : Dict := if d.dirty then d else { d with dirty := true, dirtySince := now }

/-- A save starts: the copy that is not acting is rewritten, and is invalid until the save is complete (R590). One that
falls due during a save starts when that has ended. -/
def State.startSave (s : State) : State :=
  if s.dict.saving.isSome then { s with dict := { s.dict with saveNow := true } }
  else
    let d : Dict := { s.dict with saving := some s.storeCopy, saveRetry := false, saveNow := false, dirty := false }
    let e : Dict := if d.acting = 0 then { d with storeB := none } else { d with storeA := none }
    { s with dict := e }

/-- A reliability record starts a save at once (R591). -/
def State.saveRecord (s : State) : State := ({ s with dict := s.dict.touch s.runTime }).startSave

/-! ### Queues (R338 to R355) -/

def Queue.packets (q : Queue) : Nat := q.items.countP (·.eop)

/-- Items at the router enter the queue while it has room (R343). The timer of R354 starts when the queue goes
from empty to non-empty. -/
def Queue.fill (depth : Nat) (now : Word) (q : Queue) : Queue :=
  if q.flushing then q else
  let n := depth - q.items.length
  let q' := { q with items := q.items ++ q.inflow.take n, inflow := q.inflow.drop n }
  if q.items = [] ∧ q'.items ≠ [] then { q' with timer := some now } else q'

/-- The last item of a list ends a packet; an empty list answers `d`. -/
def lastEop (d : Bool) : List QItem → Bool
  | [] => d
  | [i] => i.eop
  | _ :: t => lastEop d t

/-- The items up to and including the first EOP, and the rest. -/
def splitEop : List QItem → List QItem × List QItem
  | [] => ([], [])
  | i :: t => if i.eop then ([i], t) else ((i :: (splitEop t).1), (splitEop t).2)

/-- A saturating 16-bit count. -/
def sat16 (x : BitVec 16) (n : Nat) : BitVec 16 := BitVec.ofNat 16 (min (x.toNat + n) 0xFFFF)

/-- A saturating 32-bit count. -/
def sat32 (x : BitVec 32) (n : Nat) : BitVec 32 := BitVec.ofNat 32 (min (x.toNat + n) 0xFFFFFFFF)

/-- A packet is being enqueued: its EOP has not entered the queue (R341). -/
def Queue.partialIn (q : Queue) : Bool := !lastEop (!q.midHead) q.items

/-- A flush arrives (R349 to R351, R355). -/
def Queue.flush (q : Queue) : Queue :=
  if q.flushing then q else
  { q with items := [], discarded := sat16 q.discarded q.items.length, flushing := q.partialIn,
           midHead := false, timer := none }

/-- The rest of the packet that a flush discards has arrived (R350). -/
def Queue.flushDone (depth : Nat) (now : Word) (q : Queue) : Queue :=
  if q.flushing && q.inflow.any (·.eop) then
    let r := splitEop q.inflow
    Queue.fill depth now
      { q with inflow := r.2, discarded := sat16 q.discarded r.1.length, flushing := false }
  else q

/-- A read of a queue: the head item, if one is deliverable (R344, R350). The timer restarts on a read that leaves
the queue non-empty (R354). -/
def Queue.pop (depth : Nat) (now : Word) (q : Queue) : Option QItem × Queue :=
  if q.flushing then (none, q) else
  match q.items with
  | [] => (none, q)
  | i :: t =>
    (some i, Queue.fill depth now
      { q with items := t, midHead := !i.eop, timer := if t = [] then none else some now })

/-- The words [63:0] and [127:64] of a read of a queue (R339, R344). -/
def QItem.words : Option QItem → Word × Word
  | none => (0, 0)
  | some i => (BitVec.ofNat 64 i.payload.toNat,
      BitVec.ofNat 64 (i.payload.toNat / 2 ^ 64 + i.kind.toNat * 2 ^ 56 + b2n i.eop * 2 ^ 62 + 2 ^ 63))

/-! ### Messages (R45 to R49, R57 to R61) -/

/-- The payload of HDR0 (Table 2-7). -/
def Msg.hdr0 (m : Msg) : Payload :=
  BitVec.ofNat 120 (m.dest.toNat + m.epoch.toNat * 2 ^ 64 + m.cls.toNat * 2 ^ 80 + m.tag.toNat * 2 ^ 88)

/-- The payload of HDR1 (Table 2-8). -/
def Msg.hdr1 (m : Msg) : Payload :=
  BitVec.ofNat 120 (m.src.toNat + m.body.length % 65536 * 2 ^ 64 + m.code.toNat * 2 ^ 80 + b2n m.bounced * 2 ^ 88)

/-- Body items, EOP on the last. -/
def bodyItems : List Payload → List QItem
  | [] => []
  | [p] => [⟨true, 0x03, p⟩]
  | p :: t => ⟨false, 0x03, p⟩ :: bodyItems t

/-- The packet of a message (R340). -/
def Msg.items (m : Msg) : List QItem :=
  ⟨false, 0x01, m.hdr0⟩ :: ⟨m.body.isEmpty, 0x02, m.hdr1⟩ :: bodyItems m.body

/-- The message of a packet's items (R45, R46). -/
def Msg.ofItems : List QItem → Option Msg
  | h0 :: h1 :: t =>
    some { dest := h0.payload.setWidth 64, epoch := (h0.payload >>> 64).setWidth 16,
           cls := (h0.payload >>> 80).setWidth 8, tag := (h0.payload >>> 88).setWidth 32,
           src := h1.payload.setWidth 64, code := (h1.payload >>> 80).setWidth 8,
           bounced := h1.payload.getLsbD 88, body := t.map (·.payload) }
  | _ => none

/-- The class is checked against the role epoch (Table 2-9). -/
def Msg.epochChecked (m : Msg) : Bool :=
  !m.bounced && decide (1 ≤ m.cls.toNat ∧ m.cls.toNat ≤ 7)

/-- The virtual channel of a message (Table 15-4). -/
def Msg.vc1 (m : Msg) : Bool := m.bounced || decide (m.cls = 0x08 ∨ m.cls = 0x09)

/-- Bits [hi:lo] of body item `i`; an absent item reads as zero. -/
def Msg.fld (m : Msg) (i hi lo : Nat) : Nat := Machine.fld (m.body.getD i 0) hi lo

/-- The job identifier of a message by its class (Table 10-12). -/
def Msg.job (m : Msg) : Nat :=
  match m.cls.toNat with
  | 0x01 => m.fld 0 47 16
  | 0x03 => m.fld 0 94 63
  | 0x04 => m.fld 342 71 40
  | 0x05 => m.fld 0 55 24
  | 0x08 => m.fld 0 55 24
  | _ => 0

/-- The bounce of a message (R59). -/
def Msg.bounceOf (m : Msg) (code : BitVec 8) : Msg :=
  { m with dest := m.src, src := m.dest, bounced := true, code := code }

/-- Body item 0 of a REPLY (R372). -/
def replyItem (low24 job value : Nat) : Payload :=
  BitVec.ofNat 120 (low24 % 2 ^ 24 + job % 2 ^ 32 * 2 ^ 24 + value % 2 ^ 64 * 2 ^ 56)

/-- The 8-byte words packed 15 bytes to an item (R318). -/
def packItems : Nat → List Byte → List Payload
  | 0, _ => []
  | n + 1, bs => BitVec.ofNat 120 (ofBytesLE (bs.take 15)) :: packItems n (bs.drop 15)

/-- The bytes that items hold, 15 to an item (R318). -/
def unpackItems (ps : List Payload) : List Byte := ps.flatMap (fun p => bytesLE 15 p.toNat)

end Sys2Proof.Machine
end

