-- ==== Sys2Proof/Machine/Pool.lean ====
section
/-! DEFINITION. Device memory: its size, its regions (R504 to R507), the allocation pool of the two dies
(R508 to R510). Addresses are device addresses: 64-byte units (R375). -/

namespace Sys2Proof.Machine

open Sys2Proof

/-- Channels of die `d` in a training state (R497). -/
def MemSys.channels (m : MemSys) (d : Nat) (st : ChanState) : Nat :=
  (List.range 40).countP (fun i => decide (SMap.getD m.chans (40 * d + i) .full = st))

/-- MEM_BYTES (R504). -/
def MemSys.bytes (m : MemSys) : Nat :=
  2 * (min (40 - m.channels 0 .retired) (40 - m.channels 1 .retired) * 2 ^ 32 - m.carveGib * 2 ^ 29)

/-- DIRA and WAITA (Table 14-4). -/
def MemSys.dirBase (m : MemSys) : Nat := m.bytes - m.dirEntries * 16
def MemSys.waitBase (m : MemSys) : Nat := m.dirBase - 2 ^ 26

/-- The byte address of the directory entry of index DIX (R506). -/
def MemSys.dirAddr (m : MemSys) (dix : Nat) : Nat :=
  let b := 16 * (dix / 2)
  m.dirBase + b / 2 ^ 12 * 2 ^ 13 + dix % 2 * 2 ^ 12 + b % 2 ^ 12

/-- Two ranges of units overlap. -/
def overlaps (a n b k : Nat) : Bool := decide (a < b + k ∧ b < a + n)

/-- Storage handed out in extents: `limit` units, of which the ranges `taken` are not free. -/
structure Area where
  limit : Nat
  taken : List (Nat × Nat)

/-- The pool: below WAITA, outside the application grant and every extent in use (Table 14-4, R725). -/
def MemSys.pool (m : MemSys) : Area :=
  ⟨m.waitBase / 64, (m.appBase, m.appUnits) :: m.extents.map (fun e => (e.base, e.units))⟩

def Area.free (x : Area) (b n : Nat) : Bool :=
  decide (b + n ≤ x.limit) && x.taken.all (fun t => !overlaps b n t.1 t.2)

/-- The free buddies of an aligned block: the block itself where it is all free, else those of its halves (R510). -/
def Area.buddies (x : Area) : Nat → Nat → List (Nat × Nat)
  | 0, b => if x.free b 1 then [(b, 1)] else []
  | k + 1, b =>
    if x.free b (2 ^ (k + 1)) then [(b, 2 ^ (k + 1))]
    else x.buddies k b ++ x.buddies k (b + 2 ^ k)

/-- The chunks of die `d` that some taken range or the limit begins or ends in. -/
def Area.touched (x : Area) (d : Nat) : List Nat :=
  ((x.taken.flatMap (fun (t : Nat × Nat) => [t.1 / 1024, (t.1 + t.2) / 1024]) ++ [x.limit / 1024]).filter
    (fun k => decide (k % 2 = d))).dedup

/-- The wholly free chunk of die `d` at the lowest address, from chunk `k` up; a range of many chunks is passed over
at once. -/
def Area.freeChunk (x : Area) (d : Nat) : Nat → Nat → Option Nat
  | 0, _ => none
  | fuel + 1, k =>
    if x.limit < 1024 * (k + 1) then none
    else
      match x.taken.find? (fun t => overlaps (1024 * k) 1024 t.1 t.2) with
      | none => some (1024 * k)
      | some t =>
        let k' := max (k + 1) ((t.1 + t.2) / 1024)
        x.freeChunk d fuel (if k' % 2 = d then k' else k' + 1)

/-- The lowest address of a free extent of exactly `n` units of die `d` (R508). -/
def Area.lowest (x : Area) (d n : Nat) : Option Nat :=
  let small := ((x.touched d).flatMap (fun k => x.buddies 10 (1024 * k))).filterMap
    (fun y => if y.2 = n then some y.1 else none)
  let all := if n = 1024 then small ++ (x.freeChunk d (x.taken.length + 4) d).toList else small
  all.min?

/-- An extent of `n` units (a power of two): one of that size, else the lowest of the smallest larger size, split
(R508, R510). -/
def Area.find (x : Area) (d : Nat) : Nat → Nat → Option Nat
  | 0, _ => none
  | fuel + 1, n =>
    match x.lowest d n with
    | some b => some b
    | none => x.find d fuel (2 * n)

/-- The smallest power of two from 1 that is at least `n`. -/
def pow2Up (n : Nat) : Nat := if n ≤ 1 then 1 else 2 ^ (Nat.log2 (n - 1) + 1)

/-- Take an extent for `n` units (at most 1,024) from the allocator of die `d` (R508). -/
def MemSys.alloc (m : MemSys) (d n : Nat) (use : ExtUse) : Option (Nat × MemSys) :=
  let z := pow2Up n
  (m.pool.find d (11 - Nat.log2 z) z).map (fun b => (b, { m with extents := m.extents ++ [⟨b, z, use⟩] }))

/-- `k` extents of `n` units each, all or none (R615). -/
def MemSys.allocMany (m : MemSys) (d n : Nat) (use : ExtUse) : Nat → Option MemSys
  | 0 => some m
  | k + 1 =>
    match m.alloc d n use with
    | none => none
    | some (_, m') => m'.allocMany d n use k

/-- Zero `n` units from device address `b` with their tags (R509). -/
def MemSys.zeroUnits (m : MemSys) (b n : Nat) : MemSys :=
  { m with mem := Memory.zero m.mem (64 * b) (64 * n),
           tags := m.tags.filter (fun t => decide (t.1 < b ∨ b + n ≤ t.1)) }

/-- An extent returns to the pool, zeroed (R509). Buddies rejoin because the free buddies are the largest free
aligned blocks (R510). -/
def MemSys.release (m : MemSys) (b : Nat) : MemSys :=
  match m.extents.find? (fun e => decide (e.base = b)) with
  | none => m
  | some e =>
    let z := m.zeroUnits e.base e.units
    { z with extents := z.extents.erase e }

/-- Every extent of one use returns to the pool. -/
def MemSys.releaseUse (m : MemSys) (use : ExtUse) : MemSys :=
  (m.extents.filter (fun e => decide (e.use = use))).foldl (fun m e => m.release e.base) m

end Sys2Proof.Machine
end

