-- ==== Sys2Proof/Machine/Net.lean ====
section
/-! DEFINITION. Sending: links and their shares (R523, R529, R530), routing (R543 to R546), and the messages that
units send, reply and bounce (R45 to R49, R57 to R61, R371, R372). -/

namespace Sys2Proof.Machine

open Sys2Proof

/-! ### Links -/

def Net.link (n : Net) (l : Nat) : Link := SMap.getD n.links l {}
def Net.setLink (n : Net) (l : Nat) (k : Link) : Net := { n with links := SMap.set n.links l k }

/-- The acting split of the link's port (Table 15-1). -/
def Net.splitOf (n : Net) (l : Nat) : Nat := SMap.getD n.split (l / 4) 0

/-- The split creates the link (R523). -/
def Net.exists? (n : Net) (l : Nat) : Bool := decide (l < 32 ∧ l % 4 < 2 ^ n.splitOf l)

/-- Receive share per VC and replay share (Table 15-1). -/
def Net.rxShare (n : Net) (l : Nat) : Nat := 512 / 2 ^ n.splitOf l
def Net.replayShare (n : Net) (l : Nat) : Nat := 1024 / 2 ^ n.splitOf l

/-- The link can be routed to: it exists and is not ABSENT (R545). An unnumbered device forwards nothing (R541). -/
def Net.usable (n : Net) (l : Nat) : Bool :=
  n.numbered && n.exists? l && decide ((n.link l).st = .up ∨ (n.link l).st = .down)

/-- The route entry of a device ID (R543). -/
def Net.entry (n : Net) (dev : BitVec 16) : BitVec 16 := SMap.getD n.routes dev.toNat 0x000F

/-- The link on which a packet for a device leaves (R545). -/
def Net.route (n : Net) (dev : BitVec 16) : Option Nat :=
  let e := n.entry dev
  let p := 4 * fld e 3 0 + fld e 5 4
  let a := 4 * fld e 9 6 + fld e 11 10
  if fld e 3 0 ≤ 7 ∧ n.usable p then some p
  else if bitOf e 12 ∧ fld e 9 6 ≤ 7 ∧ n.usable a then some a
  else none

/-- DATA flits may leave on the link now (R529, R530, R542, Table 15-8); Ethernet mode has no flit lock. -/
def Link.sends (k : Link) : Bool :=
  decide (k.st = .up) && (k.lock || decide (k.mode = 2)) && !k.retraining && !k.dup

/-- One DATA flit of VC `v` leaves, where a packet, a credit and replay room allow it (R528 to R530, R539). -/
def Link.sendFlit (share : Nat) (k : Link) (v : Bool) : Option Link :=
  let q := if v then k.q1 else k.q0
  let sent := if v then k.sent1 else k.sent0
  let cred := if v then k.cred1 else k.cred0
  match q with
  | [] => none
  | p :: rest =>
    if !k.sends || cred = 0 || share ≤ k.held.length || 2048 ≤ k.held.length then none else
    let now := (p.items.drop sent).take 15
    if now = [] ∧ ¬ p.aborted then none else
    let flit : HeldFlit := ⟨k.txSeq, v, now, decide (now = [])⟩
    let ends := decide (now = []) || lastEop false now
    let k := { k with txSeq := k.txSeq + 1, held := k.held ++ [flit] }
    let q' := if ends then rest else q
    let sent' := if ends then 0 else sent + now.length
    some (if v then { k with q1 := q', sent1 := sent', cred1 := cred - 1 }
      else { k with q0 := q', sent0 := sent', cred0 := cred - 1 })

/-- Every DATA flit that may leave now leaves, VC 1 before VC 0 (DESIGN CHOICE, log 17). Answers the number sent. -/
def Link.pump (share : Nat) : Nat → Link → Nat × Link
  | 0, k => (0, k)
  | fuel + 1, k =>
    match (k.sendFlit share true).orElse (fun _ => k.sendFlit share false) with
    | none => (0, k)
    | some k' => ((Link.pump share fuel k').1 + 1, (Link.pump share fuel k').2)

/-- A flit leaves and reports the credits and the gap (Table 15-3). -/
def Link.reported (k : Link) : Link := { k with owe0 := k.owe0 - 1023, owe1 := k.owe1 - 1023, nakSend := false }

/-- The link's queues drain onto the wire through the port's FIFO (Table 10-5; FLITS_TX counts, Table 15-12); RETRY_NS counts from the first flit held (R532). -/
def Net.pump (n : Net) (l : Nat) : Net :=
  let r := Link.pump (n.replayShare l) 2048 (n.link l)
  let tx := ClockFifo.passAll 128 (SMap.getD n.serTx (l / 4) {}) (r.2.held.drop (r.2.held.length - r.1))
  { n.setLink l (if r.1 = 0 then r.2 else r.2.reported) with
    flitsTx := n.flitsTx + BitVec.ofNat 64 r.1, serTx := if r.1 = 0 then n.serTx else SMap.set n.serTx (l / 4) tx }

/-- A packet joins the queue of a link on its virtual channel. -/
def Net.enqueue (n : Net) (l : Nat) (vc1 : Bool) (p : Packet) : Net :=
  let k := n.link l
  (n.setLink l (if vc1 then { k with q1 := k.q1 ++ [p] } else { k with q0 := k.q0 ++ [p] })).pump l

/-- The virtual channel of a packet (Table 15-4). -/
def Packet.vc1 (p : Packet) : Bool := (Msg.ofItems p.items).elim false Msg.vc1

/-- Units that a held packet takes: 16 bytes to an item (R546). -/
def Packet.units (p : Packet) : Nat := max 1 (ceilDiv p.items.length 4)

/-- Take storage for a held packet from the pool of die `d`: extents of 64 KiB and one for the rest (R546). -/
def MemSys.allocHold (m : MemSys) (d dest n : Nat) : Option MemSys :=
  (m.allocMany d 1024 (.hold dest) (n / 1024)).bind (fun m =>
    if n % 1024 = 0 then some m else (m.alloc d (n % 1024) (.hold dest)).map (·.2))

/-- A packet for another device leaves on its route or is held in arrival order; where the pool has no extent it
answers none and the packet waits at its input (R545, R546). -/
def State.routePacket (s : State) (d : Nat) (dest : BitVec 16) (p : Packet) : Option State :=
  match s.net.route dest, s.net.heldPk.any (fun h => decide (h.1 = dest.toNat)) with
  | some l, false => some { s with net := s.net.enqueue l p.vc1 p }
  | _, _ =>
    (s.mem.allocHold d dest.toNat p.units).map (fun m =>
      { s with mem := m, net := { s.net with heldPk := s.net.heldPk ++ [(dest.toNat, p)] } })

/-! ### UCIe modules (R48, R619) -/

/-- The die-to-die modules that work at both ends, 1 to 4 (R619). -/
def Net.d2dUp (n : Net) : List Nat := [1, 2, 3, 4].filter (fun k => decide (k ∉ n.modsDown ∧ 5 + k ∉ n.modsDown))

/-- The die-to-die module on which a message crosses: a fixed function of SRC and DEST over the modules that work (R48,
R619). -/
def Net.d2dOf (n : Net) (src dest : UnitAddr) : Option Nat :=
  n.d2dUp[Config.d2dModule n.d2dUp.length src dest % n.d2dUp.length]?

/-- Items pass one direction of a module's FIFO at die `d`: `into` tells that they come into the die. -/
def Net.passUcie (n : Net) (d k : Nat) (into : Bool) (items : List QItem) : Net :=
  let key := 10 * d + 2 * k + b2n into
  let f := ClockFifo.passAll 64 (SMap.getD n.ucie key {}) (fourItems (ceilDiv items.length 4) items)
  { n with ucie := SMap.set n.ucie key f }

/-- Items cross from die `d` to the other die on module `k`. -/
def Net.crossDies (n : Net) (d k : Nat) (items : List QItem) : Net :=
  (n.passUcie d k false items).passUcie (1 - d) k true items

/-- Items pass between the host die and compute die `d` on its host-die module; where that is down, on the other die's and
a die-to-die module (R619). -/
def Net.crossHost (n : Net) (d : Nat) (into : Bool) (k : Nat) (items : List QItem) : Net :=
  if 5 * d ∉ n.modsDown then n.passUcie d 0 into items
  else if into then (n.passUcie (1 - d) 0 true items).crossDies (1 - d) k items
  else (n.crossDies d k items).passUcie (1 - d) 0 false items

/-- The die-to-die module that a message takes where the host-die module of its die is down. -/
def Net.hostWay (n : Net) (m : Msg) : Nat := (n.d2dOf m.src m.dest).getD 0

/-- A message of a unit of the device to a unit on the other die crosses from die to die (R48). -/
def State.crosses (s : State) (m : Msg) : Bool :=
  s.local? m.src && decide (UA.depth m.src ≠ 0 ∧ UA.depth m.dest ≠ 0 ∧ UA.digit m.src 1 % 2 ≠ UA.digit m.dest 1 % 2)

/-- Items of a packet with the given header go from die `a` to die `b`: where they differ, over the module that R48 chooses
(R547). -/
def Net.transit (n : Net) (a b : Nat) (head items : List QItem) : Net :=
  if a = b then n
  else ((Msg.ofItems head).bind (fun m => n.d2dOf m.src m.dest)).elim n (fun k => n.crossDies a k items)

/-! ### Messages and waves -/

/-- The root of a wave as this device sees it: the whole device for one that came over a link (R637). -/
def State.waveRoot (s : State) (w : Wave) : UnitAddr := if s.local? w.root then w.root else s.devAddr

/-- A node lies in scope (R636). -/
def State.inScope (s : State) (k : Nat) (root : UnitAddr) : Bool :=
  decide (UA.depth root ≤ k / 2 ^ 44) && UA.inSubtree (UA.mk s.net.devId k) root

/-- A shadow is that of a wave. -/
def Shadow.holds (h : Shadow) (w : Wave) : Bool := decide (h.state ≠ 0 ∧ h.origin = w.origin ∧ h.num = w.num)

/-- The waves that go before a message to its destination: its sender has latched them, or they came over a link as it did, and
they are still on their way to a node between (R342, R638). -/
def State.wavesAhead (s : State) (m : Msg) : List Wave :=
  let path := UA.key m.dest :: (UA.above m.dest ++ UA.above m.src)
  let sent (w : Wave) : Bool :=
    if s.local? m.src then s.inScope (UA.key m.src) (s.waveRoot w) && (s.unit (UA.key m.src)).shadow.holds w else w.links
  ((s.net.waves.filter (fun x => decide (x.1 ∈ path) && !(s.unit x.1).shadow.holds x.2.2)).map (fun x => x.2.2)).dedup.filter
    (fun w => sent w && s.inScope (UA.key m.dest) (s.waveRoot w) && !(s.unit (UA.key m.dest)).shadow.holds w)

/-- A message is in flight here, behind the waves that go before it. -/
def State.fly (s : State) (m : Msg) : State :=
  let ws := (s.wavesAhead m).map (fun w => (m, w.origin, w.num))
  { s with net := { s.net with inFlight := s.net.inFlight ++ [m], behind := s.net.behind ++ ws } }

/-- Each copy of the message that is in flight is behind a wave that its destination has not latched. -/
def Net.waits (n : Net) (m : Msg) : Bool :=
  n.behind.any (fun b => decide (b.1 = m)) && decide (n.inFlight.count m ≤ n.behind.countP (fun b => decide (b.1 = m)))

/-- A unit sends a message (R46, R49): within the device it is in flight until its arrival; to another device it is
routed, behind any that still waits here for room (R47), and while it waits for room it stays in flight here. MSG_SENT of the
sender counts it (Table 18-1). -/
def State.sendMsg (s : State) (m : Msg) : State :=
  let s := if s.local? m.src then
      s.modUnit (UA.key m.src) (fun u => { u with msgSent := u.msgSent + 1 }) else s
  let here : State := s.fly m
  if s.local? m.dest || s.net.inFlight.any (fun x => decide (UA.device x.dest = UA.device m.dest)) then here
  else (s.routePacket (UA.digit m.src 1 % 2) (UA.device m.dest) ⟨m.items, false, none⟩).getD here

/-- The REPLY to a request (R371, R372). -/
def replyMsg (req : Msg) (code : BitVec 8) (item : Payload) (more : List Payload) : Msg :=
  { dest := req.src, epoch := Config.replyEpoch req.src req.tag, cls := 0x08, tag := req.tag, src := req.dest,
    code := code, bounced := false, body := item :: more }

def State.reply (s : State) (req : Msg) (code : BitVec 8) (item : Payload) (more : List Payload) : State :=
  s.sendMsg (replyMsg req code item more)

/-- The sender's device is one the links do not reach (R61). -/
def State.unreachable (s : State) (u : UnitAddr) : Bool :=
  !s.local? u && (s.net.route (UA.device u)).isNone

/-- A bounce (R58, R59). BOUNCES counts those with STALE_ROLE (Table 2-10); a bounce that cannot reach its sender is
discarded and counted in BOUNCES_LOST (R61). -/
def State.bounce (s : State) (m : Msg) (code : BitVec 8) : State :=
  let k := UA.key m.dest
  if s.unreachable m.src then s.modUnit k (fun u => { u with bouncesLost := u.bouncesLost + 1 })
  else
    let s := if code = 0x14 then s.modUnit k (fun u => { u with bounces := u.bounces + 1 }) else s
    s.sendMsg (m.bounceOf code)

/-- An earlier message of the same sender to the same destination is in flight (R47). -/
def earlierInFlight : List Msg → Msg → Bool
  | [], _ => false
  | x :: t, m => if x = m then false else decide (x.src = m.src ∧ x.dest = m.dest) || earlierInFlight t m

/-- A chain sum of the same sender waits at the cell's port (R116). -/
def Cell.portHolds (x : Cell) (src : UnitAddr) : Bool :=
  (x.tile0.port ++ x.tile1.port).any (fun k => decide (k.src = src))

/-- The message may arrive now: no earlier one of its sender to its destination is still in flight (R47) or waits at the
cell's port (R116), no wave goes before it (R638), and where it crosses the dies a module works (R48, R619). -/
def State.mayArrive (s : State) (m : Msg) : Bool :=
  !earlierInFlight s.net.inFlight m && !s.net.waits m && (!s.crosses m || (s.net.d2dOf m.src m.dest).isSome) &&
  !(decide (UA.depth m.dest = 5) && (s.cell (cellIx (UA.index m.dest))).portHolds m.src)

/-- A message leaves the network at its destination (log 16), after the UCIe module between the dies where it crosses them.
MSG_RECEIVED counts it once it is delivered. -/
def State.takeMsg (s : State) (m : Msg) : State :=
  let n := if s.crosses m then s.net.transit (UA.digit m.src 1 % 2) (UA.digit m.dest 1 % 2) m.items m.items else s.net
  { s with net := { n with inFlight := n.inFlight.erase m } }

/-- MSG_RECEIVED of the destination unit (Table 18-1). -/
def State.received (s : State) (m : Msg) : State :=
  s.modUnit (UA.key m.dest) (fun u => { u with msgReceived := u.msgReceived + 1 })

/-- The role epoch against which a message is checked: that of its destination unit (R57). -/
def State.epochOf (s : State) (u : UnitAddr) : BitVec 16 := (s.unit (UA.key u)).epoch

/-- The common shape of an epoch-checked arrival: the message leaves the network; with another epoch it is bounced
with STALE_ROLE (R57, R58); else it is delivered by `f`. -/
def State.arrival (s : State) (m : Msg) (f : State → State) : State :=
  let s := s.takeMsg m
  if m.epoch = s.epochOf m.dest then f s else s.bounce m 0x14

/-- What an arriving request must be: of its class, not a bounce, for a canonical unit of this device whose dies work,
and next in the order of R47 (log 1, log 16). A message of an invalid class (0x00, 0x0A to 0xFF) meets no arrival: DESIGN CHOICE
(log 41; Table 2-9 calls the classes invalid and says no more): it stays in flight. -/
def State.requestOk (s : State) (m : Msg) (cls : BitVec 8) : Bool :=
  decide (m.cls = cls) && !m.bounced && s.local? m.dest && UA.canonical m.dest && s.unitUp m.dest && s.mayArrive m

end Sys2Proof.Machine
end

