-- ==== Sys2Proof/Machine/Flags.lean ====
section
/-! DEFINITION. Codes and how they combine (R31, R414, R429), the event controller: firing, routing, claiming
(R471 to R483), MSI-X vectors (R494), status sources of cells and dies (Tables 13-5, 13-6, 17-6). -/

namespace Sys2Proof.Machine

open Sys2Proof

/-! ### Completion codes (Table 11-18) -/

abbrev Code := BitVec 8
def ccOk : Code := 0x00
def ccEmpty : Code := 0x01
def ccKerfed : Code := 0x02
def ccPoison : Code := 0x03
def ccBadDesc : Code := 0x10
def ccBadPrec : Code := 0x11
def ccWinClosed : Code := 0x12
def ccWinBounds : Code := 0x13
def ccStaleRole : Code := 0x14
def ccMustUnd : Code := 0x15
def ccKilled : Code := 0x20
def ccNoRoom : Code := 0x30

/-- The numerically largest code, OK_EMPTY counting as OK unless every code is OK_EMPTY (R429). -/
def combineCodes (l : List Code) : Code :=
  if l ≠ [] ∧ l.all (fun c => decide (c = ccEmpty)) then ccEmpty
  else l.foldl (fun a c => if c ≠ ccEmpty ∧ a.toNat < c.toNat then c else a) ccOk

/-- The code of a carcase from its members' codes (R31). -/
def carcaseCode (l : List Code) : Code :=
  if l.any (fun c => decide (c = ccKilled)) then ccKilled else combineCodes l

/-- A code that never enters a command's code (R431). -/
def absorbed (c : Code) : Bool := decide (c = ccWinClosed ∨ c = ccWinBounds ∨ c = ccStaleRole)

/-- A code after which a command issues nothing more (R430). -/
def stops (c : Code) : Bool := decide (0x10 ≤ c.toNat) && !absorbed c

/-! ### Event controller -/

def Evc.hart (e : Evc) (h : Nat) : Hart := SMap.getD e.harts h {}
def Evc.modHart (e : Evc) (h : Nat) (f : Hart → Hart) : Evc := { e with harts := SMap.set e.harts h (f (e.hart h)) }
def Evc.src (e : Evc) (id : Nat) : EvSrc := SMap.getD e.srcs id {}
def Evc.modSrc (e : Evc) (id : Nat) (f : EvSrc → EvSrc) : Evc := { e with srcs := SMap.set e.srcs id (f (e.src id)) }

/-- The ID names a job-class source or a status group (R471). -/
def evIdOk (id : Nat) : Bool := decide ((1 ≤ id ∧ id ≤ 0xFFF) ∨ (0x1000 ≤ id ∧ id ≤ 0x103F))

/-- CUR of a hart: the highest PRIO among the sources it holds ACTIVE. -/
def Evc.cur (e : Evc) (h : Nat) : Nat :=
  e.srcs.foldl (fun a x =>
    if (x.2.st = .active ∨ x.2.st = .activePending) ∧ x.2.hart.toNat = h then max a x.2.prio.toNat else a) 0

def Evc.eff (e : Evc) (h : Nat) : Nat := max (e.cur h) (e.hart h).thresh.toNat

/-- The source stands in a presentation slot. -/
def Evc.presented (e : Evc) (id : Nat) : Bool := e.harts.any (fun x => decide (x.2.slot.toNat = id))

/-- R478. The source's own presence in the slot is not counted (R480). -/
def Evc.eligible (e : Evc) (id h : Nat) : Bool :=
  let x := e.src id
  let k := e.hart h
  bitOf x.targets h && k.online && decide (e.eff h < x.prio.toNat) &&
  (decide (k.slot = 0 ∨ k.slot.toNat = id) || decide ((e.src k.slot.toNat).prio.toNat < x.prio.toNat))

/-- route_event(): the eligible hart of lowest effective priority, the first in rotation after the hart chosen last. -/
def Evc.choose (e : Evc) (id : Nat) : Option Nat :=
  (((List.range 16).map (fun i => (e.last.toNat + i + 1) % 16)).foldl (fun b h =>
    if e.eligible id h then
      match b with
      | none => some (h, e.eff h)
      | some (g, p) => if e.eff h < p then some (h, e.eff h) else some (g, p)
    else b) none).map (·.1)

/-- Insert an ID in the order of a routing pass: descending PRIO, then ascending ID (R479). -/
def Evc.insert (e : Evc) (id : Nat) : List Nat → List Nat
  | [] => [id]
  | j :: t =>
    if (e.src j).prio.toNat < (e.src id).prio.toNat ∨ ((e.src j).prio = (e.src id).prio ∧ id < j) then id :: j :: t
    else j :: Evc.insert e id t

/-- Route the sources of a list in order; one that is displaced from a slot is routed later in the same pass (R479). -/
def Evc.routeList : Nat → List Nat → Evc → Evc
  | 0, _, e => e
  | _ + 1, [], e => e
  | n + 1, id :: t, e =>
    match e.choose id with
    | none => Evc.routeList n t e
    | some h =>
      let old := (e.hart h).slot.toNat
      let e1 := { e.modHart h (fun k => { k with slot := BitVec.ofNat 13 id }) with last := BitVec.ofNat 4 h }
      let e2 := e1.modSrc id (fun x => { x with hart := BitVec.ofNat 4 h })
      if old = 0 then Evc.routeList n t e2
      else Evc.routeList n (Evc.insert e2 old t) { e2 with withdrawals := e2.withdrawals + 1 }

/-- A routing pass (R477, R479, R480): presented sources whose hart is no longer eligible are withdrawn, then every
PENDING source that is not presented is routed. -/
def Evc.pass (e : Evc) : Evc :=
  let e := (List.range 16).foldl (fun (e : Evc) h =>
    let id := (e.hart h).slot.toNat
    if id ≠ 0 ∧ ¬ e.eligible id h then
      { e.modHart h (fun k => { k with slot := 0 }) with withdrawals := e.withdrawals + 1 }
    else e) e
  let todo := (e.srcs.filter (fun x =>
    decide (x.2.st = .pending ∧ x.2.prio ≠ 0) && !e.presented x.1)).map (·.1)
  Evc.routeList (todo.length + 256) (todo.foldl (fun l id => Evc.insert e id l) []) e

/-- A firing of a source or group (Table 13-7). REFIRES counts firings in ACTIVE (Table 13-16). -/
def Evc.fire (e : Evc) (id : Nat) : Evc :=
  match (e.src id).st with
  | .idle => (e.modSrc id (fun x => { x with st := .pending })).pass
  | .pending => e
  | .active => { e.modSrc id (fun x => { x with st := .activePending }) with refires := e.refires + 1 }
  | .activePending => e

/-- A firing of a status source: its pending bit, and its group if the bit was clear and is enabled (R475, R476). -/
def Evc.fireStatus (e : Evc) (n : Nat) : Evc :=
  let g := n / 64
  let p := SMap.getD e.spend g 0
  if p.getLsbD (n % 64) then e else
  let e := { e with spend := SMap.set e.spend g (p ||| BitVec.ofNat 64 (2 ^ (n % 64))) }
  if (SMap.getD e.smask g 0).getLsbD (n % 64) then e.fire (0x1000 + g) else e

/-- The source in the hart's slot becomes ACTIVE (R474, R482). Answers its ID, or 0 and no change but the count. -/
def Evc.claim (e : Evc) (h : Nat) : Nat × Evc :=
  let id := (e.hart h).slot.toNat
  if id = 0 then (0, { e with emptyClaims := e.emptyClaims + 1 })
  else
    let e := e.modHart h (fun k => { k with slot := 0 })
    let e := e.modSrc id (fun x => { x with st := .active, hart := BitVec.ofNat 4 h })
    (id, { e with claims := e.claims + 1 }.pass)

/-- A complete by a hart (R474, R475, R483). -/
def Evc.complete (e : Evc) (h id : Nat) : Evc :=
  let x := e.src id
  if evIdOk id ∧ (x.st = .active ∨ x.st = .activePending) ∧ x.hart.toNat = h then
    let again := if id < 0x1000 then decide (x.st = .activePending)
      else decide (SMap.getD e.spend (id - 0x1000) 0 &&& SMap.getD e.smask (id - 0x1000) 0 ≠ 0)
    (e.modSrc id (fun x => { x with st := if again then .pending else .idle })).pass
  else e.modHart h (fun k => { k with badcomp := true })

/-! ### Sources of the module -/

def State.modEvc (s : State) (f : Evc → Evc) : State := { s with evc := f s.evc }

/-- A job-class source fires (Table 13-4). -/
def State.fire (s : State) (id : Nat) : State := s.modEvc (·.fire id)

/-- A status source fires (Tables 13-5, 13-6). -/
def State.fireStatus (s : State) (n : Nat) : State := s.modEvc (·.fireStatus n)

/-- Kind `k` of Table 13-5 at a cell. -/
def State.fireCell (s : State) (k : Nat) (c : CellIx) : State := s.fireStatus (512 * k + c.val)

def srcHostStale : Nat := 3584
def srcHostClosed : Nat := 3585
def srcHostBounds : Nat := 3586
def srcHostBadDesc : Nat := 3587
def srcHiqTail : Nat := 3588
def srcDieRel (d : Nat) : Nat := 3589 + d
def srcCapacity : Nat := 3591
def srcThermal : Nat := 3592
def srcPower : Nat := 3593
def srcLink : Nat := 3594
def srcSnapshot : Nat := 3595
def srcPcie : Nat := 3596
def srcStream : Nat := 3597
def srcSend : Nat := 3598

/-- A reliability event of a cell, with its cause (Table 17-6). -/
def State.relCell (s : State) (c : CellIx) (cause : BitVec 8) : State :=
  (s.modCell c (fun x => { x with cnt := { x.cnt with lastCause := cause } })).fireCell 6 c

/-- A MSI-X vector falls due (R494): sent, or held in its PBA bit while it is masked or Bus Master Enable is 0. -/
def Pcie.vector (p : Pcie) (v : Nat) : Pcie :=
  let x := SMap.getD p.vecs v {}
  let y := if x.masked || !p.bme then { x with pba := true } else { x with sent := x.sent + 1, pba := false }
  { p with vecs := SMap.set p.vecs v y }

def State.vector (s : State) (v : Nat) : State := { s with pcie := s.pcie.vector v }

/-- Pending vectors that are unmasked go out (R494). -/
def Pcie.flushVectors (p : Pcie) : Pcie :=
  if p.bme then
    { p with vecs := p.vecs.map (fun x =>
        if x.2.pba && !x.2.masked then (x.1, { x.2 with pba := false, sent := x.2.sent + 1 }) else x) }
  else p

end Sys2Proof.Machine
end

