-- ==== Sys2Proof/Machine/Operands.lean ====
section
/-! DEFINITION. The operand forms: instruction words (R436), operation blocks (R444), PREC words (R382), slot-form
groups (R188, R189, R211), narrow addresses (R297), scale records (R137), and the row ranges they name. -/

namespace Sys2Proof.Machine

open Sys2Proof

/-! ### Instruction words -/

/-- The word of an instruction (R436, Table 12-6). -/
def encodeIns (opc : BitVec 8) (f : InsFields) : Word :=
  BitVec.ofNat 64 (opc.toNat + f.rd.toNat * 2 ^ 8 + f.ra.toNat * 2 ^ 12 + f.rb.toNat * 2 ^ 16 + f.imm.toNat * 2 ^ 20)

/-- IMM sign-extended to 64 bits. -/
def InsFields.sx (f : InsFields) : Word := f.imm.signExtend 64

/-- A sequencer register: s0 reads as zero (R432). -/
def Seq.reg (q : Seq) (r : BitVec 4) : Word := if r = 0 then 0 else SMap.getD q.regs r.toNat 0

/-- A write of a sequencer register: a write of s0 is ignored (R432). -/
def Seq.setReg (q : Seq) (r : BitVec 4) (w : Word) : Seq :=
  if r = 0 then q else { q with regs := SMap.put q.regs r.toNat w 0 }

/-- RA + IMM. -/
def Seq.addrOf (q : Seq) (f : InsFields) : Word := q.reg f.ra + f.sx

/-- The operand x: RB + IMM (R437). -/
def Seq.opX (q : Seq) (f : InsFields) : Word := q.reg f.rb + f.sx

/-! ### Operation blocks (Table 12-10) -/

/-- Bits [hi:lo] of word `i` of a block. -/
def bf (b : List Word) (i hi lo : Nat) : Nat := fld (b.getD i 0) hi lo

/-- One bit of word `i` of a block. -/
def bb (b : List Word) (i k : Nat) : Bool := (b.getD i 0).getLsbD k

/-- No bit outside the named fields is set; `ms` gives the named bits of each word (R444). -/
def reservedOk (ms : List Nat) (b : List Word) : Bool :=
  (List.range 16).all (fun i => decide ((b.getD i 0).toNat &&& (2 ^ 64 - 1 - ms.getD i 0) = 0))

def maskAll : Nat := 2 ^ 64 - 1
def maskFetch : List Nat := [2 ^ 39 - 1, maskAll, 2 ^ 34 - 1, 2 ^ 32 - 1]
def maskGather : List Nat :=
  [2 ^ 32 - 2 ^ 8 + 1, 2 ^ 64 - 2 ^ 32 + 2 ^ 14 - 1, 2 ^ 52 - 1, maskAll, maskAll, 2 ^ 6 - 1]
def maskSelect : List Nat := [2 ^ 58 - 1, 2 ^ 42 - 1, 2 ^ 48 - 1]
def maskArray : List Nat := [2 ^ 26 - 2 ^ 8 + 7, maskAll, 2 ^ 56 - 1, 2 ^ 58 - 1, 2 ^ 16 - 1]
def maskDrain : List Nat := [2 ^ 40 - 2 ^ 8 + 2 ^ 6 - 1, maskAll, maskAll, 2 ^ 60 - 1, 2 ^ 33 - 1, maskAll]
def maskRq : List Nat := [2 ^ 10 - 1, 2 ^ 56 - 1, 2 ^ 52 - 1, maskAll, 2 ^ 48 - 1]
def maskLfu : List Nat := [2 ^ 10 - 1, 2 ^ 56 - 1, maskAll, maskAll, 2 ^ 14 - 1]
def maskWopen : List Nat := [2 ^ 33 - 1, maskAll]
def maskSend : List Nat := [maskAll, 2 ^ 48 - 1, 2 ^ 63 - 1, 2 ^ 21 - 1]

/-! ### PREC words (Table 11-17) -/

def Prec.wbits (p : Word) : Nat := fld p 3 0
def Prec.abits (p : Word) : Nat := fld p 7 4
def Prec.serial (p : Word) : Bool := p.getLsbD 8
def Prec.azp (p : Word) : Bool := p.getLsbD 9
def Prec.order (p : Word) : Nat := fld p 11 10
def Prec.kerfFloor (p : Word) : Nat := fld p 15 12
def Prec.delta (p : Word) : Bool := p.getLsbD 16
def Prec.pred (p : Word) : Bool := p.getLsbD 17
def Prec.hostLayer (p : Word) : Bool := p.getLsbD 18
def Prec.exact (p : Word) : Bool := p.getLsbD 19
def Prec.outbits (p : Word) : Nat := fld p 23 20
def Prec.sr (p : Word) : Bool := p.getLsbD 24
def Prec.scaleMode (p : Word) : Nat := fld p 26 25
def Prec.midpt (p : Word) : Bool := p.getLsbD 27
def Prec.tau (p : Word) : Nat := fld p 47 32
def Prec.guard (p : Word) : Nat := fld p 55 48
def Prec.auditK (p : Word) : Nat := fld p 59 56
def Prec.keyint (p : Word) : Nat := fld p 63 60

/-- Planes of a W-serial tile: WBITS, or 1 for binary and ternary weights (R70, R95). -/
def Prec.wPlanes (p : Word) : Nat := if Prec.wbits p = 1 ∨ Prec.wbits p = 0xE then 1 else Prec.wbits p

/-- The conditions on a PREC word that need only the word (R71, R136, R223, R238, Table 11-17 [31:28]). -/
def Prec.valid (p : Word) : Bool :=
  let w := Prec.wbits p
  let o := Prec.outbits p
  decide ((1 ≤ w ∧ w ≤ 8) ∨ w = 0xE) && decide (1 ≤ Prec.abits p ∧ Prec.abits p ≤ 8) &&
  decide (Prec.order p ≤ 1) && decide ((1 ≤ o ∧ o ≤ 8) ∨ o = 0xF) && decide (Prec.scaleMode p ≤ 2) &&
  !(decide (Prec.scaleMode p = 1) && Prec.exact p) &&
  !(Prec.pred p && (Prec.exact p || Prec.hostLayer p)) &&
  !(Prec.delta p && (Prec.exact p || Prec.pred p || Prec.hostLayer p)) &&
  !(Prec.midpt p && Prec.serial p && !Prec.exact p && decide (Prec.order p = 0))

/-! ### Blocks and groups (R188 to R199, R211) -/

/-- Stored bits of one element, by WIDTH and FORM (Table 6-1, R285, Table 11-9). -/
def storedWidth (width form : Nat) : Nat :=
  if form = 1 then 32 else if form = 2 then 16
  else if width = 0xE then 2 else if width = 0xF then 16 else width

/-- WIDTH and FORM name a stored form (Table 5-3, Table 11-9). -/
def formOk (width form : Nat) : Bool :=
  (decide (form = 0) && decide ((1 ≤ width ∧ width ≤ 8) ∨ width = 0xE ∨ width = 0xF)) ||
  (decide (form = 1 ∨ form = 2) && decide (width = 0))

/-- Bytes of one block: 128 elements (R188). -/
def blockBytes (w : Nat) : Nat := 16 * w

/-- The unit pitch U and the dense size D (R189, Table 6-1, R285). -/
def unitPitch (w : Nat) : Nat := ceilDiv (16 * w) 64
def denseSize (w : Nat) : Nat := 16 * w

/-- Rows that a slot-form group spans: the header and 64 slots of U units (R211). -/
def groupRows (w : Nat) : Nat := 1 + 32 * unitPitch w

/-- The byte address of slot `i` of the group whose header is row `g` (R211). -/
def slotAddr (g w i : Nat) : Nat := 128 * g + 128 + i * unitPitch w * 64

/-- PRESENT and POISON of a slot-form group (R211). -/
def presentOf (m : List Host.Cell) (g : Nat) : Nat := Memory.readNat m (128 * g) 8
def poisonOf (m : List Host.Cell) (g : Nat) : Nat := Memory.readNat m (128 * g + 8) 8

/-- Element `e` of the block whose bytes begin at `a`: `w` bits from bit e × w (R188). -/
def elemAt (m : List Host.Cell) (a w e : Nat) : Nat :=
  let b := e * w
  Memory.readNat m (a + b / 8) (ceilDiv (b % 8 + w) 8) / 2 ^ (b % 8) % 2 ^ w

/-- The raw code of element (row, k) of a slot-form group, row 0 to 31, k 0 to 255 (R194), when its block is
present. -/
def groupElem (m : List Host.Cell) (g w row k : Nat) : Option Nat :=
  let i := k / 16 * 4 + row / 8
  if (presentOf m g).testBit i then some (elemAt m (slotAddr g w i) w (row % 8 * 16 + k % 16)) else none

/-- The block holding element (row, k) is present and poisoned. -/
def groupPoison (m : List Host.Cell) (g row k : Nat) : Bool :=
  let i := k / 16 * 4 + row / 8
  (presentOf m g).testBit i && (poisonOf m g).testBit i

/-- A weight code as a number: ternary and binary codes (R78 to R81), else two's complement (R72). -/
def weightValue (wb code : Nat) : Int :=
  if wb = 0xE then (code % 2 : Nat) - (code / 2 % 2 : Nat)
  else if wb = 1 then (if code % 2 = 1 then 1 else -1)
  else signed wb code

/-- Set a bit of a 64-bit map to a value. -/
def setBitTo (n i : Nat) (b : Bool) : Nat :=
  if b then n ||| 2 ^ i else if n.testBit i then n - 2 ^ i else n

/-- Write a block of a slot-form group: its element codes, PRESENT and POISON; an absent block writes no code. -/
def writeBlock (m : List Host.Cell) (g w i : Nat) (present poison : Bool) (codes : List Nat) : List Host.Cell :=
  let bits := codes.foldr (fun c a => c % 2 ^ w + 2 ^ w * a) 0
  let m := if present then Memory.writeNat m (slotAddr g w i) (unitPitch w * 64) bits else m
  let m := Memory.writeNat m (128 * g) 8 (setBitTo (Memory.readNat m (128 * g) 8) i present)
  Memory.writeNat m (128 * g + 8) 8 (setBitTo (Memory.readNat m (128 * g + 8) 8) i (present && poison))

/-! ### Code ranges and scale records (R132, R137) -/

/-- cmin and cmax (Table 5-1). Width 0xF is 16 bits. -/
def codeMin (o : Nat) (sym : Bool) : Int :=
  if o = 0xF then (if sym then -32767 else -32768)
  else if o = 0xE ∨ (sym ∧ o = 1) then -1
  else if sym then -((2 ^ (o - 1) - 1 : Nat) : Int) else 0
def codeMax (o : Nat) (sym : Bool) : Int :=
  if o = 0xF then 32767 else if o = 0xE ∨ (sym ∧ o = 1) then 1 else if sym then ((2 ^ (o - 1) - 1 : Nat) : Int) else ((2 ^ o - 1 : Nat) : Int)

/-- A code stored in `o` bits, as a number. -/
def codeValue (o : Nat) (sym : Bool) (c : Nat) : Int :=
  if o = 0xF then signed 16 c else if o = 0xE then weightValue 0xE c
  else if sym then (if o = 1 then weightValue 1 c else signed o c) else (c : Int)

/-- The stored bits of a code. -/
def codeBits (o : Nat) (c : Int) : Nat := (c % (2 ^ (if o = 0xF then 16 else o) : Nat)).toNat

def Rec.gran (h : Word) : Nat := fld h 1 0
def Rec.sym (h : Word) : Bool := h.getLsbD 2
def Rec.carry (h : Word) : Bool := h.getLsbD 3
def Rec.width (h : Word) : Nat := fld h 7 4
def Rec.nch (h : Word) : Nat := fld h 31 8

def Ent.scale (e : Word) : F32 := e.setWidth 32
def Ent.zp (e : Word) : Int := signed 16 (fld e 47 32)
def Ent.cnst (e : Word) : Bool := e.getLsbD 48

/-- A channel header (Table 5-4). -/
def Ent.mk (scale : F32) (zp : Int) (cnst : Bool) : Word :=
  BitVec.ofNat 64 (scale.toNat + (zp % 65536).toNat * 2 ^ 32 + b2n cnst * 2 ^ 48)

/-- The entry of a scale record at row `r` of the scratchpad: the header word and then its entries. -/
def recHeader (m : List Host.Cell) (r : Nat) : Word := Memory.readWord m (128 * r)
def recEntry (m : List Host.Cell) (r n : Nat) : Word :=
  Memory.readWord m (128 * r + 8 + 8 * (if Rec.gran (recHeader m r) = 0 then 0 else n))

/-! ### Accumulator words (Table 4-5) -/

def accWord (v : Acc) (poison touched : Bool) : Word :=
  BitVec.ofNat 64 (v.toNat + b2n poison * 2 ^ 40 + b2n touched * 2 ^ 41)

end Sys2Proof.Machine
end

