-- ==== Sys2Proof/Machine/Descriptor.lean ====
section
/-! DEFINITION. The descriptors of the contract (Tables 11-2 to 11-11), and what a layer's descriptors tell of the extents of
its operands (R66, R67, R408). -/

namespace Sys2Proof.Machine

open Sys2Proof

/-- A descriptor: its 64-bit words. -/
abbrev Desc := List Word

def Desc.f (d : Desc) (i hi lo : Nat) : Nat := fld (d.getD i 0) hi lo
def Desc.bit (d : Desc) (i k : Nat) : Bool := (d.getD i 0).getLsbD k

/-! ### The common header (Table 11-2) -/

def Desc.kind (d : Desc) : Nat := d.f 0 7 0
def Desc.vmin (d : Desc) : Nat := d.f 0 23 16
def Desc.size (d : Desc) : Nat := d.f 0 31 24

/-- The named bits of the words from 1 on, by kind (Tables 11-5 to 11-10). -/
def Desc.named (d : Desc) : List Nat :=
  match d.kind with
  | 0x01 => [maskAll, maskAll, maskAll, maskAll, maskAll - (2 ^ 16 - 2 ^ 5), maskAll, 2 ^ 16 - 1]
  | 0x02 => [2 ^ 33 - 1]
  | 0x03 => [2 ^ 34 - 1, if d.bit 1 33 then 2 ^ 32 - 1 else 0]
  | 0x04 => [maskAll]
  | 0x05 => [2 ^ 32 - 1]
  | 0x10 => [maskAll, 2 ^ 6 - 1, 2 ^ 32 - 1, 2 ^ 41 - 1]
  | 0x20 => [2 ^ 14 - 1, maskAll, maskAll, maskAll, maskAll, 2 ^ 41 - 1, 2 ^ 41 - 1, 2 ^ 41 - 1, maskAll, maskAll, maskAll]
  | 0x30 => [maskAll, maskAll, maskAll]
  | _ => []

/-- A reserved field of the first `n` words is not zero. -/
def Desc.reservedSet (d : Desc) (n : Nat) : Bool :=
  (List.range n).any (fun i => decide (0 < i ∧ (d.getD i 0).toNat &&& (maskAll - (d.named).getD (i - 1) 0) ≠ 0))

/-- A PREC word with a bit in [31:28] (check 3). -/
def precUnknown (p : Word) : Bool := decide (fld p 31 28 ≠ 0)

/-- Checks 1 to 5 of Table 11-4 on one descriptor that must have kind `kind` and `n` words. -/
def Desc.fault (d : Desc) (kind n : Nat) (entry : Bool) : Option Code :=
  if d.f 0 15 8 ≠ 1 ∨ d.f 0 63 32 ≠ 0 then some ccMustUnd
  else if d.kind = 0x20 ∧ precUnknown (d.getD 2 0) then some ccMustUnd
  else if d.kind ≠ kind ∨ d.size < n ∨ (entry ∧ d.size ≠ n) then some ccBadDesc
  else if d.vmin = 0 ∧ (n < d.size ∨ d.reservedSet n) then some ccBadDesc
  else none

/-! ### Tensors and layers (Tables 11-9 to 11-11) -/

namespace Tensor
def rows (t : Desc) : Nat := t.f 1 31 0
def klen (t : Desc) : Nat := t.f 1 63 32
def width (t : Desc) : Nat := t.f 2 3 0
def form (t : Desc) : Nat := t.f 2 5 4
def dirBase (t : Desc) : Nat := t.f 3 31 0
def srec (t : Desc) : Nat := t.f 4 39 0
def srecV (t : Desc) : Bool := t.bit 4 40
/-- The directory entries of a tensor (R195). -/
def groups (t : Desc) : Nat := ceilDiv (rows t) 32 * ceilDiv (klen t) 256
/-- Its logical tiles (R408). -/
def tiles (t : Desc) : Nat := ceilDiv (rows t) 32 * ceilDiv (klen t) 32
/-- Two descriptors describe one tensor (R377, R403). -/
def same (t u : Desc) : Bool :=
  decide (t.getD 1 0 = u.getD 1 0 ∧ t.f 2 5 0 = u.f 2 5 0 ∧ dirBase t = dirBase u ∧ t.f 4 40 0 = u.f 4 40 0)
/-- FORM, WIDTH and SREC_V agree (Table 11-9, R405). -/
def ok (t : Desc) : Bool := formOk (width t) (form t) && (srecV t == decide (form t = 0))
end Tensor

namespace Layer
def op (l : Desc) : Nat := l.f 1 7 0
def lfuOp (l : Desc) : Nat := l.f 1 11 8
def rms (l : Desc) : Bool := l.bit 1 13
def keyReq (l : Desc) : Bool := l.bit 1 12
def prec (l : Desc) : Word := l.getD 2 0
def inT (l : Desc) : Nat := l.f 3 31 0
def wgt (l : Desc) : Nat := l.f 3 63 32
def outT (l : Desc) : Nat := l.f 4 31 0
def pred (l : Desc) : Nat := l.f 4 63 32
def theta (l : Desc) : Nat := l.f 5 15 0
def acode (l : Desc) : Nat := l.f 5 31 16
def eps (l : Desc) : F32 := BitVec.ofNat 32 (l.f 5 63 32)
def carry (l : Desc) : Nat := l.f 6 39 0
def carryV (l : Desc) : Bool := l.bit 6 40
def dref (l : Desc) : Nat := l.f 7 39 0
def drefV (l : Desc) : Bool := l.bit 7 40
def ledger (l : Desc) : Nat := l.f 8 39 0
def ledgerV (l : Desc) : Bool := l.bit 8 40
def aux1 (l : Desc) : Nat := l.f 9 31 0
def aux2 (l : Desc) : Nat := l.f 9 63 32
def xaddr (l : Desc) : Nat := l.f 10 63 0
def xpitch (l : Desc) : Nat := l.f 11 63 0
end Layer

def GraphRec.tensor (g : GraphRec) (i : Nat) : Option Desc := g.tensors[i]?

/-- A layer of the graph names the tensor as WGT (R721). -/
def GraphRec.isWgt (g : GraphRec) (i : Nat) : Bool := g.layers.any (fun l => decide (Layer.op l = 1 ∧ Layer.wgt l = i))

/-- The channels of a tensor (R721). -/
def GraphRec.channels (g : GraphRec) (i : Nat) : Nat :=
  let t := (g.tensor i).getD []
  if g.isWgt i then Tensor.rows t else Tensor.klen t

/-- The layer makes or uses an output record (R720): LINEAR, or CONVERT to codes. -/
def GraphRec.converts (g : GraphRec) (l : Desc) : Bool :=
  (decide (Layer.op l = 1 ∨ Layer.op l = 3)) && decide ((g.tensor (Layer.outT l)).elim 1 Tensor.form = 0)

/-! ### The order of layers (R407) -/

/-- What a layer reads and what it writes, as (kind, address): 0 tensors, 1 scale records, 2 carried records, 3 delta references,
4 ledger areas, 5 workstation memory. `p` is its PREC word. -/
def GraphRec.reads (g : GraphRec) (l : Desc) (p : Word) : List (Nat × Nat) :=
  let ts := match Layer.op l with
    | 1 => [Layer.inT l, Layer.wgt l]
    | 2 => [Layer.inT l, Layer.aux1 l, Layer.aux2 l]
    | 3 => [Layer.inT l]
    | 5 => [Layer.inT l]
    | _ => []
  let q := if Prec.pred p then (g.layers[Layer.pred l]?).elim [] (fun x => [Layer.outT x]) else []
  ((ts ++ q).filterMap (fun i => (g.tensor i).filter (fun t => decide (Tensor.groups t ≠ 0)))).flatMap (fun t =>
    (0, Tensor.dirBase t) :: (if Tensor.srecV t then [(1, Tensor.srec t)] else [])) ++
  (if Layer.op l = 4 then [(5, 0)] else [])

def GraphRec.writes (g : GraphRec) (l : Desc) (p : Word) : List (Nat × Nat) :=
  let o := if Layer.op l = 5 then [] else
    ((g.tensor (Layer.outT l)).filter (fun t => decide (Tensor.groups t ≠ 0))).elim [] (fun t =>
      (0, Tensor.dirBase t) :: (if g.converts l then [(1, Tensor.srec t)] else []))
  o ++ (if g.converts l && decide (Prec.scaleMode p = 1) then [(2, Layer.carry l)] else []) ++
  (if decide (Layer.op l = 1) && Prec.delta p then [(3, Layer.dref l)] else []) ++
  (if Layer.ledgerV l then [(4, Layer.ledger l)] else []) ++ (if Layer.op l = 5 then [(5, 0)] else [])

/-- A tensor, a record or a ledger could tell in which order two layers run (R407). -/
def GraphRec.tells (g : GraphRec) (precs : List Word) (i k : Nat) : Bool :=
  let x (n : Nat) (f : Desc → Word → List (Nat × Nat)) : List (Nat × Nat) :=
    (g.layers[n]?).elim [] (fun l => f l (precs.getD n 0))
  (x i g.writes).any (fun r => decide (r ∈ x k g.reads ∨ r ∈ x k g.writes)) ||
  (x i g.reads).any (fun r => decide (r ∈ x k g.writes))

/-- Layer `k` of a job may run: every lower layer that could tell has completed (R407, R722). -/
def JobRec.mayRun (j : JobRec) (g : GraphRec) (k : Nat) : Bool :=
  (List.range k).all (fun i => decide (i ∈ j.done) || !g.tells j.precs i k)

/-! ### The layer that a command works on -/

/-- The job of this device whose record the driver holds. -/
def State.jobRec (s : State) (job : BitVec 32) : Option JobRec := s.drv.jobs.find? (fun j => decide (j.id = job))

/-- The graph and the descriptor of a layer of a job (R423). -/
def State.layerOf (s : State) (job : BitVec 32) (layer : BitVec 16) : Option (GraphRec × Desc) :=
  (s.jobRec job).bind (fun j =>
    (s.drv.graphs.find? (fun g => decide (g.handle = j.graph))).bind (fun g => (g.layers[layer.toNat]?).map (fun l => (g, l))))

/-- The driver sends work of a layer of its own running job to cells only once the layer may run (R407, R722), and never that of a
host layer (R21). -/
def State.sendsLayer (s : State) (job : BitVec 32) (layer : BitVec 16) : Bool :=
  match s.jobRec job, s.layerOf job layer with
  | some j, some (g, _) => decide (j.phase ≠ .running) ||
      (j.mayRun g layer.toNat && !Prec.hostLayer (j.precs.getD layer.toNat 0))
  | _, _ => true

/-- M, N and K of a layer: the rows of its output, the elements of an output row, and the length of its reduction (R64,
R408). The driver of this device holds them for its own jobs; for another's they are free values (log 21). -/
def State.dims (s : State) (job : BitVec 32) (layer : BitVec 16) : Nat × Nat × Nat :=
  match s.layerOf job layer with
  | some (g, l) =>
    let o := (g.tensor (Layer.outT l)).getD []
    (Tensor.rows o, Tensor.klen o, Tensor.klen ((g.tensor (Layer.inT l)).getD []))
  | none => (Config.foreignDims job layer 0, Config.foreignDims job layer 1, Config.foreignDims job layer 2)

/-- Row and column of the first element of logical tile `t` of an output of `n` elements a row (R408). -/
def tileOrigin (n t : Nat) : Nat × Nat := (32 * (t / ceilDiv n 32), 32 * (t % ceilDiv n 32))

/-- The place of logical tile `t` of a layer in its output, from element `k0` of the reduction on. -/
def State.extOf (s : State) (job : BitVec 32) (layer : BitVec 16) (t k0 : Nat) : TileExt :=
  let d := s.dims job layer
  let o := tileOrigin d.2.1 t
  { m0 := o.1, n0 := o.2, k0 := k0, mEnd := d.1, nEnd := d.2.1, kEnd := d.2.2 }

/-- Element (m, n) of the tile lies inside the operands (R67). -/
def TileExt.inside (e : TileExt) (m n : Nat) : Bool := decide (e.m0 + m < e.mEnd ∧ e.n0 + n < e.nEnd)

/-! ### Scale records in device memory (R137, R139) and the delta reference of a layer (R242) -/

/-- Word `i` of the record at a device address. -/
def State.recWord (s : State) (a i : Nat) : Word := Memory.readWord s.mem.mem (64 * a + 8 * i)

/-- The entries of a record by its header word (R137). -/
def Rec.entries (h : Word) : Nat := if Rec.gran h = 0 then 1 else Rec.nch h

/-- The bytes of the header and record copy of a delta reference (R242). -/
def drefHead (entries : Nat) : Nat := 64 * ceilDiv (24 + 8 * entries) 64

/-- The parts of a delta reference: its byte address, the input's record address and entries, the tiles of the output
(R242). -/
structure DeltaRef where
  base : Nat
  rec_ : Nat
  entries : Nat
  tiles : Nat

def State.deltaRef (s : State) (g : GraphRec) (l : Desc) : DeltaRef :=
  let r := (g.tensor (Layer.inT l)).elim 0 Tensor.srec
  ⟨64 * Layer.dref l, r, Rec.entries (s.recWord r 0), (g.tensor (Layer.outT l)).elim 0 Tensor.tiles⟩

/-- The byte address of tile `t`'s reference ledger. -/
def DeltaRef.ledger (d : DeltaRef) (t : Nat) : Nat := d.base + drefHead d.entries + 8192 * d.tiles + 16 * t

/-- The byte address of tile `t`'s reference words. -/
def DeltaRef.tile (d : DeltaRef) (t : Nat) : Nat := d.base + drefHead d.entries + 8192 * t

/-- The delta reference of a layer of a job, where the layer has one (R242). -/
def State.refOf (s : State) (job : BitVec 32) (layer : BitVec 16) : Option DeltaRef :=
  (s.layerOf job layer).bind (fun x => if Layer.drefV x.2 then some (s.deltaRef x.1 x.2) else none)

/-- REF_BOUND16 and FRAMES of tile `t` of a reference (Table 7-2). -/
def State.refLedger (s : State) (d : DeltaRef) (t : Nat) : Nat × Nat :=
  ((Memory.readWord s.mem.mem (d.ledger t)).toNat, fld (Memory.readWord s.mem.mem (d.ledger t + 8)) 23 0)

/-! ### Conditions on a record (R139) -/

/-- The header word passes the first four conditions of R139, for `n` channels. -/
def Rec.headOk (h : Word) (n : Nat) : Bool :=
  let w := Rec.width h
  decide (fld h 63 32 = 0 ∧ Rec.gran h ≠ 3 ∧ ((1 ≤ w ∧ w ≤ 8) ∨ w = 0xF ∨ w = 0xE) ∧ Rec.nch h = n) &&
  !(Rec.sym h && decide (Rec.gran h = 1)) && !(decide (w = 0xE) && !Rec.sym h)

/-- An entry passes the other conditions of R139; `e0` is entry 0. -/
def Rec.entryOk (h e e0 : Word) : Bool :=
  let z := Ent.zp e
  decide (fld e 63 49 = 0 ∧ codeMin (Rec.width h) (Rec.sym h) ≤ z ∧ z ≤ codeMax (Rec.width h) (Rec.sym h)) &&
  (decide (z = 0) || (!Ent.cnst e && !Rec.sym h)) &&
  (Ent.cnst e || decide (0 < (Ent.scale e).toNat ∧ (Ent.scale e).toNat < 0x7F800000)) &&
  (decide (Rec.gran h ≠ 1) || decide (Ent.scale e = Ent.scale e0))

/-- The record header of tensor `i` (R720), none for a tensor without codes. -/
def State.tensorRec (s : State) (g : GraphRec) (i : Nat) : Option Word :=
  (g.tensor i).bind (fun t => if Tensor.srecV t then some (s.recWord (Tensor.srec t) 0) else none)

/-- The entry of row m, not of column n, serves element (m, n) of a layer's output (`out`) or input tensor: a layer of the graph
names the tensor as WGT (R721). For another device's job a free value (log 21). -/
def State.byRow (s : State) (job : BitVec 32) (layer : BitVec 16) (out : Bool) : Bool :=
  (s.layerOf job layer).elim (Config.foreignByRow job layer out)
    (fun x => x.1.isWgt (if out then Layer.outT x.2 else Layer.inT x.2))

end Sys2Proof.Machine
end

