-- ==== Sys2Proof/Machine/Ecc.lean ====
section
/-! DEFINITION. The codes of stored data: the SEC-DED codewords of a scratchpad row with its hidden seventeenth (R294, R608), and
the Reed-Solomon codeword of a device unit (R499 to R502). A stored codeword is a function of the data that it holds, since
every write forms its check bits in the same action (R295, R608): State holds the data, and a read forms the codeword, applies
the flips it meets, and decodes. -/

namespace Sys2Proof.Machine

open Sys2Proof

/-- The bits of `x` below `n` that are 1. -/
def onBits (x n : Nat) : Nat := (List.range n).countP (fun i => x.testBit i)

/-! ### SEC-DED (72,64) -/

/-- The places of the 64 data bits of an extended Hamming code: those of 1 to 71 that are no power of two. The spec names the
code by its parameters alone (DESIGN CHOICE, log 5); what one and two flipped bits do is the same for every such code. -/
def dataPlaces : List Nat := (List.range 72).filter (fun p => decide (p ≠ 2 ^ Nat.log2 p))

/-- The 8 check bits of a word: the seven Hamming bits, and the parity of the 71 bits before it. -/
def checkBits (w : Word) : BitVec 8 :=
  let h := dataPlaces.zipIdx.foldl (fun x p => if w.getLsbD p.2 then x ^^^ p.1 else x) 0
  BitVec.ofNat 8 (h + 128 * ((onBits w.toNat 64 + onBits h 7) % 2))

/-- The codeword of a word (R294). -/
def secded (w : Word) : BitVec 72 := (checkBits w).append w

/-- The 64 data bits of the hidden codeword: the XOR of the row's words (R608). -/
def rowCheck (ws : List Word) : Word := ws.foldl (· ^^^ ·) 0

/-- The 17 codewords of a row (R294, R608). -/
def rowCodewords (spad : List Host.Cell) (row : Nat) : List (BitVec 72) :=
  let ws := (List.range 16).map (fun i => Memory.readWord spad (128 * row + 8 * i))
  (ws ++ [rowCheck ws]).map secded

/-- Codeword `i` as a read finds it. -/
def RowFlip.apply (e : List RowFlip) (i : Nat) (x : BitVec 72) : BitVec 72 :=
  e.foldl (fun y f => if f.word.val = i then y ^^^ BitVec.ofNat 72 (2 ^ f.bit.val) else y) x

/-- What the decoder makes of a codeword at the given distance: one bit is corrected, more are uncorrectable (R309, R310). -/
def secdedErr (x y : BitVec 72) : ReadErr :=
  match onBits (x ^^^ y).toNat 72 with
  | 0 => .clean
  | 1 => .corrected
  | _ => .uncorrectable

/-- What a read of words `ws` of a row meets (R309, R310, R609, R610): how many words it corrects, and the outcome. An
uncorrectable word makes it read the rest of the row; a second one makes the row lost. -/
def rowErr (spad : List Host.Cell) (row : Nat) (ws : List Nat) (e : List RowFlip) : Nat × ReadErr :=
  if e.isEmpty then (0, .clean)
  else
    let errs := (rowCodewords spad row).zipIdx.map (fun x => secdedErr x.1 (RowFlip.apply e x.2 x.1))
    let read := ws.map (fun i => errs.getD i .clean)
    if .uncorrectable ∉ read then (read.count .corrected, if .corrected ∈ read then .corrected else .clean)
    else if errs.count .uncorrectable = 1 then (errs.count .corrected, .uncorrectable)
    else (read.count .corrected, .lost)

/-! ### Reed-Solomon over GF(2^8) -/

/-- The product by x modulo x^8 + x^4 + x^3 + x^2 + 1 (R500). -/
def gfTwice (a : BitVec 8) : BitVec 8 := if a.msb then (a <<< 1) ^^^ 0x1D else a <<< 1

/-- The product of the field (R500). -/
def gfMul (a b : BitVec 8) : BitVec 8 :=
  ((List.range 8).foldl (fun (x : BitVec 8 × BitVec 8) i =>
    (if b.getLsbD i then x.1 ^^^ x.2 else x.1, gfTwice x.2)) (0, a)).1

/-- The power of α = 2 (R500). -/
def gfPow : Nat → BitVec 8
  | 0 => 1
  | n + 1 => gfTwice (gfPow n)

/-- A polynomial, highest power first, times x minus a. -/
def gfRoot (p : List (BitVec 8)) (a : BitVec 8) : List (BitVec 8) :=
  List.zipWith (· ^^^ ·) (p ++ [0]) (0 :: p.map (gfMul a))

/-- The generator: the product of x minus α^j for j from 0 to 6 (R500). -/
def rsGenerator : List (BitVec 8) := (List.range 7).foldl (fun p j => gfRoot p (gfPow j)) [1]

/-- The seven check symbols of 65 symbols: the remainder by the generator (R500). -/
def rsCheck (data : List (BitVec 8)) : List (BitVec 8) :=
  data.foldl (fun r d =>
    let q := d ^^^ r.headD 0
    List.zipWith (· ^^^ ·) (r.drop 1 ++ [0]) ((rsGenerator.drop 1).map (gfMul q))) (List.replicate 7 0)

/-- The codeword of a unit: its bytes, its tag, its check symbols (R499, R500). -/
def rsCodeword (bytes : List Byte) (tag : BitVec 2) : List (BitVec 8) :=
  let d := bytes ++ [tag.setWidth 8]
  d ++ rsCheck d

/-- The polynomial of a word at a point. -/
def rsEval (c : List (BitVec 8)) (a : BitVec 8) : BitVec 8 := c.foldl (fun x d => gfMul x a ^^^ d) 0

/-- A word is a multiple of the generator (R500). -/
def rsOk (c : List (BitVec 8)) : Bool := (List.range 7).all (fun j => decide (rsEval c (gfPow j) = 0))

/-- The codeword of unit `unit` as a read finds it. -/
def UnitFlip.apply (e : List UnitFlip) (unit : Nat) (c : List (BitVec 8)) : List (BitVec 8) :=
  e.foldl (fun y f => if f.unit = unit then y.set f.sym.val (y.getD f.sym.val 0 ^^^ f.err) else y) c

/-- What the decoder makes of a unit: up to three symbols in error are corrected, four are detected (R501, R502). -/
def rsErr (bytes : List Byte) (tag : BitVec 2) (unit : Nat) (e : List UnitFlip) : ReadErr :=
  if e.all (fun f => decide (f.unit ≠ unit)) then .clean
  else
    let c := rsCodeword bytes tag
    let r := UnitFlip.apply e unit c
    if rsOk r then .clean
    else if (List.zip c r).countP (fun x => decide (x.1 ≠ x.2)) ≤ 3 then .corrected
    else .uncorrectable

end Sys2Proof.Machine
end

