-- ==== Sys2Proof/Machine/Rows.lean ====
section
/-! DEFINITION. Scratchpad rows and their errors (R306 to R311, R608 to R610), lost device units (R502, R620),
and retirement requests (R606, R607, R311). -/

namespace Sys2Proof.Machine

open Sys2Proof

/-- Rows mapped at test: fused, 0 to 64 (R306). -/
def State.rowsMappedTest (s : State) (c : CellIx) : Nat := min (Config.rowsMappedTestRaw (s.physical c)).toNat 64

/-- Spare rows still free (R306). -/
def State.sparesFree (s : State) (c : CellIx) : Nat := 256 - s.rowsMappedTest c - (s.cell c).rows.field

/-- The cell requests retirement (R311, R606, R607). -/
def State.requestRetire (s : State) (c : CellIx) : State :=
  if (s.cell c).retireReq then s
  else (s.modCell c (fun x => { x with retireReq := true })).relCell c 3

/-- The map takes the row to a free spare row; the count of the new physical row starts at 0 (R307, R308). A save
starts (R591). -/
def State.remapRow (s : State) (c : CellIx) (row : Nat) : State :=
  let s := s.modCell c (fun x =>
    { x with rows := { x.rows with map := SMap.set x.rows.map row (16384 + s.rowsMappedTest c + x.rows.field),
                                    ce := SMap.put x.rows.ce row 0 0, due := x.rows.due.erase row,
                                    field := x.rows.field + 1 } })
  s.saveRecord.relCell c 2

/-- A correctable error of a row: corrected, delivered, written back and counted (R309). -/
def State.rowCorrected (s : State) (c : CellIx) (row : Nat) : State :=
  s.modCell c (fun x =>
    { x with spdCe := sat16 x.spdCe 1, cnt := { x.cnt with ceTotal := x.cnt.ceTotal + 1 },
             rows := { x.rows with
               ce := SMap.put x.rows.ce row
                 (BitVec.ofNat 8 (min ((SMap.getD x.rows.ce row 0).toNat + 1) 255)) 0 } })

/-- An uncorrectable word: UE, the rebuild from the check word, and the remap or the retirement request
(R310, R311, R609). -/
def State.rowRebuilt (s : State) (c : CellIx) (row : Nat) : State :=
  let s := s.modCell c (fun x =>
    { x with spdUe := true, cnt := { x.cnt with ueTotal := x.cnt.ueTotal + 1 },
             rows := { x.rows with rebuilt := x.rows.rebuilt + 1 } })
  let s := if 0 < s.sparesFree c then s.remapRow c row else s.requestRetire c
  s.relCell c 1

/-- A lost row: zeroed, counted, its reader held; the row is remapped or retirement is asked for (R310, R311, R610, R620). -/
def State.rowLost (s : State) (c : CellIx) (row : Nat) : State :=
  let s := s.modCell c (fun x =>
    { x with spdUe := true, spad := Memory.zero x.spad (128 * row) 128,
             cnt := { x.cnt with ueTotal := x.cnt.ueTotal + 1, lost := x.cnt.lost + 1 },
             held := some row })
  let s := if 0 < s.sparesFree c then s.remapRow c row else s.requestRetire c
  s.relCell c 6

/-- The words that a read of `n` bytes at `a` reads of its row. -/
def wordsOf (a n : Nat) : List Nat := (List.range 16).filter (fun i => decide (a % 128 < 8 * i + 8 ∧ 8 * i < a % 128 + n))

/-- A read of words `ws` of a scratchpad row, with the flips that it meets (R309, R310, R609, R610). -/
def State.rowRead (s : State) (c : CellIx) (row : Nat) (ws : List Nat) (e : List RowFlip) : State :=
  match rowErr (s.cell c).spad row ws e with
  | (n, err) =>
    let s := (List.range n).foldl (fun s _ => s.rowCorrected c row) s
    match err with
    | .uncorrectable => s.rowRebuilt c row
    | .lost => s.rowLost c row
    | _ => s

/-- The read loses its row (R610). -/
def State.rowLoses (s : State) (c : CellIx) (row : Nat) (ws : List Nat) (e : List RowFlip) : Bool :=
  decide ((rowErr (s.cell c).spad row ws e).2 = .lost)

/-- The cell has reached RECOMPUTE_LIMIT in an hour, or an operation of it failed its check three times in a row (R606,
R607). -/
def Cell.retires (x : Cell) : Bool :=
  decide ((x.recomputeLimit ≠ 0 ∧ x.recomputeLimit.toNat ≤ x.recomputeTimes.length) ∨ 3 ≤ x.failStreak)

/-- Repeats and recomputes count; the limit of R607 and three failures in a row ask for retirement (R606, R607). -/
def State.countRecompute (s : State) (c : CellIx) (again : Bool) : State :=
  let now := s.dieTime (CellIx.die c)
  let s := s.modCell c (fun x =>
    { x with cnt := { x.cnt with recomputes := x.cnt.recomputes + 1 },
             recomputeTimes := x.recomputeTimes.filter (fun t => decide ((now - t).toNat < 3600000000000)) ++ [now],
             failStreak := if again then x.failStreak + 1 else 1 })
  if (s.cell c).retires then s.requestRetire c else s

/-- A check that failed `n` times in a row before the repeat that passed: each repeat counts, and three failures ask for retirement
(R599, R606, R607). -/
def State.countRepeats (s : State) (c : CellIx) (n : Nat) : State :=
  let now := s.dieTime (CellIx.die c)
  let s := s.modCell c (fun x =>
    { x with cnt := { x.cnt with recomputes := x.cnt.recomputes + BitVec.ofNat 64 n },
             recomputeTimes :=
               x.recomputeTimes.filter (fun t => decide ((now - t).toNat < 3600000000000)) ++ List.replicate n now })
  if (s.cell c).retires || decide (3 ≤ n) then s.requestRetire c else s

/-- An uncorrectable unit of device memory: counted, and its die's source fires (R502, R620). `c` is the cell whose
operation read it. -/
def State.unitLost (s : State) (c : Option CellIx) (unit : Nat) : State :=
  let d := unit / 64 % 2
  let s := s.modDie d (fun x => { x with ueTotal := x.ueTotal + 1, lastCause := 7 })
  let s := { s with mem := { s.mem with lost := if unit ∈ s.mem.lost then s.mem.lost else s.mem.lost ++ [unit] } }
  let s := match c with
    | some c => s.modCell c (fun x => { x with cnt := { x.cnt with lost := x.cnt.lost + 1 } })
    | none => s
  s.fireStatus (srcDieRel d)

/-- A correctable unit of device memory: corrected, delivered, written back and counted (R501). -/
def State.unitCorrected (s : State) (unit : Nat) : State :=
  s.modDie (unit / 64 % 2) (fun x => { x with ceTotal := x.ceTotal + 1 })

end Sys2Proof.Machine
end

