-- ==== Sys2Proof/Machine/Regs.lean ====
section
/-! DEFINITION. The registers of the narrow view: Tables 12-3, 9-6 and the status registers they name, their values,
the counts that a read claims and the bits that a write sets (R297 to R299, R434). -/

namespace Sys2Proof.Machine

open Sys2Proof

/-! ### Values -/

def Seq.stat (q : Seq) : Word :=
  BitVec.ofNat 64 (b2n q.running + 2 * b2n q.stalled.isSome + 4 * (q.stalled.elim 0 (·.1.toNat)) + 64 * b2n q.wdog
    + 256 * q.lastCode.toNat + 2 ^ 32 * q.retired.toNat)

def tileStCode : TileSt → Nat
  | .empty => 0 | .loading => 1 | .filling => 2 | .closing => 3 | .draining => 4

def accPinf : Acc := 0x7FFFFFFFFF
def accNinf : Acc := 0x8000000000
def accNai : Acc := 0x8000000001
def accMax : Int := 549755813886

/-- One of the special codes of Table 4-1. -/
def accSpecial (a : Acc) : Bool := decide (a = accPinf ∨ a = accNinf ∨ a = accNai)

/-- The stalled instruction of the sequencer waits for tile `t` (Table 4-8). -/
def Seq.stalledOnTile (q : Seq) (m : List Host.Cell) (t : Nat) : Bool :=
  match q.stalled with
  | some (1, .arrayI _ f) => decide (fld (Memory.readWord m (q.addrOf f).toNat) 0 0 = t)
  | some (1, .drainRq _ f) => decide (fld (Memory.readWord m (q.addrOf f).toNat) 0 0 = t)
  | some (1, .drainWide _ f) => decide (fld (Memory.readWord m (q.addrOf f).toNat) 0 0 = t)
  | some (1, .drainChain _ f) => decide (fld (Memory.readWord m (q.addrOf f).toNat) 0 0 = t)
  | some (1, .drainSab _ f) => decide (fld (Memory.readWord m (q.addrOf f).toNat) 0 0 = t)
  | some (1, .loadT _ f) => decide ((q.reg f.rd).toNat % 2 = t)
  | _ => false

def Tile.stat (t : Tile) (stalled : Bool) : Word :=
  BitVec.ofNat 64 (tileStCode t.st + 8 * b2n t.poison
    + 16 * b2n (t.elems.any (fun e => decide (e.2 = accPinf ∨ e.2 = accNinf)))
    + 32 * b2n (t.elems.any (fun e => decide (e.2 = accNai))) + 64 * b2n t.inlet.isSome + 128 * b2n stalled
    + 256 * (t.inlet.elim 0 (·.chain.toNat)) + 2 ^ 48 * t.staleDiscards.toNat)

/-- Table 4-3: an array instruction may join the tile. -/
def Tile.joinable (t : Tile) (cont : Bool) : Bool := decide (t.st = .empty) || (cont && decide (t.st = .filling))

/-- An operation on tile `t` is stalled under Table 4-3: the instruction in issue, or the next tile of the array instruction
in progress (Table 4-8, R129). -/
def Cell.tileStalled (x : Cell) (t : Nat) : Bool :=
  x.seq.stalledOnTile x.spad t ||
  x.arr.elim false (fun r => !r.joined && decide ((bf r.block 0 0 0 + r.done) % 2 = t) &&
    !(if t = 0 then x.tile0 else x.tile1).joinable (bb r.block 0 1))

/-- A drain to SAB waits because the conflict queue of its item's bank is full (Table 4-9, R122). -/
def Sab.holds (b : Sab) (t : Tile) : Bool :=
  t.drain.elim false (fun d => d.bank.elim false (fun k => decide (8 ≤ (SMap.getD b.queues k []).length)))

/-- CEL_SAB_STAT (Table 4-9). -/
def Cell.sabStat (x : Cell) : Word :=
  BitVec.ofNat 64 ((x.sab.queues.foldl (fun a q => a + q.2.length) 0) % 256
    + 256 * b2n (x.sab.holds x.tile0 || x.sab.holds x.tile1) + 2 ^ 32 * x.sab.conflicts.toNat)

/-- An operation of a unit is in progress. -/
def Cell.unitBusy (x : Cell) (u : OpUnit) : Bool := x.ops.any (fun o => decide (o.unit = u))

/-- A drain in progress goes to RQ (R175). -/
def Tile.drainsToRq (t : Tile) : Bool := t.drain.elim false (fun d => decide (bf d.block 0 2 1 = 0))

def Cell.rqBusy (x : Cell) : Bool := x.unitBusy .rq || x.tile0.drainsToRq || x.tile1.drainsToRq

def Cell.rqStat (x : Cell) : Word :=
  BitVec.ofNat 64 (x.rq.usedMin.toNat + 2 ^ 16 * x.rq.usedMax.toNat + 2 ^ 32 * b2n x.rq.special
    + 2 ^ 33 * b2n x.rq.nonfinite + 2 ^ 34 * b2n x.rq.rangeValid + 2 ^ 35 * b2n x.rqBusy)

def Cell.lfuStat (x : Cell) : Word :=
  BitVec.ofNat 64 (b2n (x.unitBusy .lfu) + 2 * b2n x.lfuSpecial + 2 ^ 32 * x.lfuSats.toNat
    + 2 ^ 48 * x.lfuFlushes.toNat)

def Cell.doveStat (x : Cell) : Word :=
  BitVec.ofNat 64 (b2n (x.unitBusy .dove || x.arr.isSome) + 2 * b2n (x.arr.elim false (·.behind)) + 4 * b2n (x.unitBusy .audit)
    + 2 ^ 32 * x.doveKremoved.toNat)

/-- The job of the command that the cell executes (R347, R442). -/
def Cell.job (x : Cell) : BitVec 32 := x.seq.cmd.elim 0 (·.job)

/-- A cut acts on the cell's current job (Table 7-7). -/
def Cell.cutActs (x : Cell) : Bool :=
  x.seq.cmd.elim false (fun r => x.cutRecs.any (fun k => decide (k.job = r.job ∧ (k.layer = none ∨ k.layer = some r.layer))))

/-- The tile in progress is a key tile (Table 7-7): the one that the array works on, or else one not yet drained. -/
def Cell.keyTile (x : Cell) : Bool :=
  match x.arr with
  | some r => if r.joined then (if (bf r.block 0 0 0 + r.done) % 2 = 0 then x.tile0 else x.tile1).key
      else x.tile0.key || x.tile1.key
  | none => x.tile0.key || x.tile1.key

def Cell.prevStat (x : Cell) : Word :=
  BitVec.ofNat 64 (b2n x.cutActs + 2 * b2n x.keyTile + 16 * x.prevLastC.toNat + 2 ^ 32 * x.prevKerfed.toNat
    + 2 ^ 48 * x.prevSkips.toNat)

def Queue.stat (q : Queue) : Word :=
  BitVec.ofNat 64 (q.items.length % 128 + 2 ^ 8 * (q.packets % 128) + 2 ^ 16 * b2n q.flushing + 2 ^ 17 * b2n q.tail
    + 2 ^ 32 * q.discarded.toNat + 2 ^ 48 * q.dropped.toNat)

/-- SPD_STAT (Table 9-6). A field remap is one action here, so REMAPPING reads 0 (log 26). -/
def State.spdStat (s : State) (c : CellIx) : Word :=
  let x := s.cell c
  BitVec.ofNat 64 (x.spdCe.toNat + 2 ^ 16 * s.sparesFree c + 2 ^ 25 * b2n x.scrubbing + 2 ^ 27 * b2n x.spdUe)

def UnitState.winCnt (u : UnitState) : Word :=
  BitVec.ofNat 64 (u.winAccepted.toNat + 2 ^ 32 * u.winClosedB.toNat + 2 ^ 48 * u.winBoundsB.toNat)

/-! ### Windows as a cell sees them (R312) -/

def winStCode : WinSt → Nat
  | .closed => 0 | .opened => 1 | .closing => 2

def UnitState.win (u : UnitState) (w : Nat) : Win := SMap.getD u.wins w {}

/-- The unit that owns window `w` over a cell while it is not free: the cell, or one enclosing carcase. -/
def State.winOwner (s : State) (c : Nat) (w : Nat) : Option Nat :=
  ((List.range 6).map (fun d => UA.keyOf (5 - d) c)).find? (fun k => decide (((s.unit k).win w).st ≠ .closed))

/-- SPD_WINw (Table 9-8): the cell's own window, or that of the carcase it holds it for. -/
def State.winReg (s : State) (c : CellIx) (w : Nat) : Word :=
  let own := UA.keyOf 5 c.val
  match s.winOwner c.val w with
  | some k =>
    let x := (s.unit k).win w
    BitVec.ofNat 64 (x.base.toNat + 2 ^ 16 * x.rows.toNat + 2 ^ 32 * x.wepoch.toNat + 2 ^ 48 * winStCode x.st
      + 2 ^ 50 * b2n (decide (k ≠ own)))
  | none => BitVec.ofNat 64 (2 ^ 32 * ((s.unit own).win w).wepoch.toNat)

def State.winWr (s : State) (c : CellIx) (w : Nat) : Word :=
  (s.winOwner c.val w).elim 0 (fun k => ((s.unit k).win w).writers)
def State.winJob (s : State) (c : CellIx) (w : Nat) : Word :=
  (s.winOwner c.val w).elim 0 (fun k => ((s.unit k).win w).job.setWidth 64)

/-! ### The narrow address map (Tables 9-1, 12-3, 9-6) -/

/-- The 64-bit register at an aligned narrow address; none where the map names no register (R298, R434). -/
def State.narrowReg (s : State) (c : CellIx) (a : Nat) : Option Word :=
  let x := s.cell c
  let u := s.unit (UA.keyOf 5 c.val)
  if 0x201000 ≤ a ∧ a < 0x201100 then
    let w := (a - 0x201000) / 16
    if a % 16 = 0 then some (s.winReg c w) else some (s.winWr c w)
  else if 0x201180 ≤ a ∧ a < 0x201200 then some (s.winJob c ((a - 0x201180) / 8))
  else match a with
  | 0x200000 => some (x.seq.pc.setWidth 64)
  | 0x200008 => some x.seq.stat
  | 0x200010 => some (x.seq.limit.setWidth 64)
  | 0x200018 => some x.seq.hdr
  | 0x200020 => some (x.tile0.stat (x.tileStalled 0))
  | 0x200028 => some (x.tile1.stat (x.tileStalled 1))
  | 0x200030 => some x.sabStat
  | 0x200038 => some x.rqStat
  | 0x200040 => some (BitVec.ofNat 64 (x.rq.clips.toNat + 2 ^ 32 * x.rq.codes.toNat))
  | 0x200048 => some x.lfuStat
  | 0x200050 => some x.doveStat
  | 0x200058 => some x.prevStat
  | 0x200060 => some x.cmdq.stat
  | 0x200068 => some x.rplq.stat
  | 0x200070 => some (s.cellAddr c)
  | 0x200078 => some (BitVec.ofNat 64 (u.role.toNat + 2 ^ 16 * u.epoch.toNat))
  | 0x201100 => some (s.spdStat c)
  | 0x201108 => some u.winCnt
  | 0x201110 => some (x.spdOwner.setWidth 64)
  | _ => none

/-- A narrow address of the scratchpad or of a register that exists (R298). -/
def State.narrowOk (s : State) (c : CellIx) (a n : Nat) : Bool :=
  decide (a % n = 0) && (decide (a < 0x200000) || (s.narrowReg c (a / 8 * 8)).isSome)

/-- The access of `n` bytes at byte `o` of a register covers all bytes of field [hi:lo] (R299). -/
def covers (o n hi lo : Nat) : Bool := decide (8 * o ≤ lo ∧ hi < 8 * (o + n))

/-- Claim the RC fields that a narrow read covers (R299, R177, R336). -/
def State.claimRegs (s : State) (c : CellIx) (a n : Nat) : State :=
  let o := a % 8
  let top := covers o n 63 48
  let mid := covers o n 47 32
  let hi := covers o n 63 32
  match a / 8 * 8 with
  | 0x200008 => if hi then s.modCell c (fun x => { x with seq := { x.seq with retired := 0 } }) else s
  | 0x200020 => if top then s.modCell c (fun x => { x with tile0 := { x.tile0 with staleDiscards := 0 } }) else s
  | 0x200028 => if top then s.modCell c (fun x => { x with tile1 := { x.tile1 with staleDiscards := 0 } }) else s
  | 0x200030 => if hi then s.modCell c (fun x => { x with sab := { x.sab with conflicts := 0 } }) else s
  | 0x200040 => s.modCell c (fun x =>
      { x with rq := { x.rq with clips := if covers o n 31 0 then 0 else x.rq.clips,
                                 codes := if hi then 0 else x.rq.codes } })
  | 0x200048 => s.modCell c (fun x =>
      { x with lfuSats := if mid then 0 else x.lfuSats, lfuFlushes := if top then 0 else x.lfuFlushes })
  | 0x200050 => if hi then s.modCell c (fun x => { x with doveKremoved := 0 }) else s
  | 0x200058 => s.modCell c (fun x =>
      { x with prevKerfed := if mid then 0 else x.prevKerfed, prevSkips := if top then 0 else x.prevSkips })
  | 0x200060 => s.modCell c (fun x =>
      { x with cmdq := { x.cmdq with discarded := if mid then 0 else x.cmdq.discarded,
                                     dropped := if top then 0 else x.cmdq.dropped } })
  | 0x200068 => s.modCell c (fun x =>
      { x with rplq := { x.rplq with discarded := if mid then 0 else x.rplq.discarded,
                                     dropped := if top then 0 else x.rplq.dropped } })
  | 0x201100 => if covers o n 15 0 then s.modCell c (fun x => { x with spdCe := 0 }) else s
  | 0x201108 => s.modUnit (UA.keyOf 5 c.val) (fun u =>
      { u with winAccepted := if covers o n 31 0 then 0 else u.winAccepted,
               winClosedB := if mid then 0 else u.winClosedB, winBoundsB := if top then 0 else u.winBoundsB })
  | _ => s

/-- The value of `n` bytes at a narrow address (R293, R437). -/
def State.narrowRead (s : State) (c : CellIx) (a n : Nat) : Word :=
  if a < 0x200000 then BitVec.ofNat 64 (Memory.readNat (s.cell c).spad a n)
  else BitVec.ofNat 64 (((s.narrowReg c (a / 8 * 8)).getD 0).toNat / 2 ^ (8 * (a % 8)) % 2 ^ (8 * n))

/-- The register word that a write of `n` bytes of `v` at byte `o` leaves of `old`. -/
def mergeBytes (old : Nat) (o n : Nat) (v : Word) : Nat :=
  let lo := 2 ^ (8 * o)
  let hi := 2 ^ (8 * (o + n))
  old % lo + v.toNat % 2 ^ (8 * n) * lo + old / hi * hi

/-- The written bits of an access of `n` bytes at byte `o`: bit `i` is written as 1. -/
def writesOne (o n : Nat) (v : Word) (i : Nat) : Bool := (mergeBytes 0 o n v).testBit i

/-- A narrow store to a register: RW and W1C fields act, all else is ignored (R8, R299, Table 0-2). -/
def State.regWrite (s : State) (c : CellIx) (a n : Nat) (v : Word) : State :=
  let o := a % 8
  match a / 8 * 8 with
  | 0x200008 => if writesOne o n v 6 then s.modCell c (fun x => { x with seq := { x.seq with wdog := false } }) else s
  | 0x200010 => s.modCell c (fun x =>
      { x with seq := { x.seq with limit := BitVec.ofNat 32 (mergeBytes x.seq.limit.toNat o n v) } })
  | 0x200048 => if writesOne o n v 1 then s.modCell c (fun x => { x with lfuSpecial := false }) else s
  | 0x200060 => if writesOne o n v 17 then s.modCell c (fun x => { x with cmdq := { x.cmdq with tail := false } }) else s
  | 0x200068 => if writesOne o n v 17 then s.modCell c (fun x => { x with rplq := { x.rplq with tail := false } }) else s
  | 0x201100 => if writesOne o n v 27 then s.modCell c (fun x => { x with spdUe := false }) else s
  | _ => s

/-- A narrow store (R295, R437). -/
def State.narrowWrite (s : State) (c : CellIx) (a n : Nat) (v : Word) : State :=
  if a < 0x200000 then s.modCell c (fun x => { x.overwritten (a / 128) 1 with spad := Memory.writeNat x.spad a n v.toNat })
  else s.regWrite c a n v

end Sys2Proof.Machine
end

