-- ==== Sys2Proof/Machine/Issue.lean ====
section
/-! DEFINITION. How the sequencer issues, stalls, retires and ends runs (R427 to R431, R433, R439 to R441, R449), the
interlocks on rows, trackers, units and registers (R301, R302, R440), and the operations in flight. -/

namespace Sys2Proof.Machine

open Sys2Proof

/-! ### Runs -/

/-- The registers at the start of a run (R427); s5 to s12 keep their values in a later run of one command (R428). -/
def Seq.startRegs (q : Seq) (r : CmdRun) (tile : Nat) (first : Bool) : Seq :=
  let arg (i : Nat) : Word := (r.body.getD (i - 1) 0).setWidth 64
  let q1 : Seq := if first then { q with regs := [] } else q
  ((((((q1.setReg 1 (arg 1)).setReg 2 (arg 2)).setReg 3 (arg 3)).setReg 4 (arg 4)).setReg 13
    (BitVec.ofNat 64 r.count)).setReg 14 (BitVec.ofNat 64 tile)).setReg 15 (BitVec.ofNat 64 r.j)

/-- A run starts at A with s14 = `tile` (R427, R428); every draw channel's word counter starts at 0 (R438). -/
def Seq.startRun (q : Seq) (r : CmdRun) (tile : Nat) (first : Bool) : Seq :=
  { q.startRegs r tile first with
    pc := r.a, running := true, untilEmpty := false, run := q.run + 1, rand := [], cmd := some { r with tile := tile, started := true } }

/-- A run ends with a code: the next dealt tile's run starts, unless the code stops the command or no tile is left
(R428, R430, R441). -/
def Seq.endWith (q : Seq) (code : Code) : Seq :=
  match q.cmd with
  | none => { q with running := false }
  | some r =>
    let r := { r with codes := r.codes ++ [code] }
    if !stops code && r.divide && decide (r.tile + r.count < r.b.toNat) then
      ({ q with cmd := some r }).startRun r (r.tile + r.count) false
    else { q with running := false, cmd := some { r with ended := true, stop := r.stop || stops code } }

/-- The program counter moves; outside the scratchpad or off an 8-byte boundary the run completes with BAD_DESC
(R433). The instruction has retired (Table 12-4). -/
def Seq.goto (q : Seq) (pc : Word) : Seq :=
  let q := { q with retired := sat32 q.retired 1 }
  if pc.toNat < 0x200000 ∧ pc.toNat % 8 = 0 then { q with pc := BitVec.ofNat 21 pc.toNat }
  else q.endWith ccBadDesc

def Seq.next (q : Seq) : Seq := q.goto (q.pc.setWidth 64 + 8)

def State.modSeq (s : State) (c : CellIx) (f : Seq → Seq) : State := s.modCell c (fun x => { x with seq := f x.seq })

/-- The instruction in issue completes with a code that enters the command's code; a code of 0x10 or above stops the
command (R429, R430). -/
def Seq.complete (q : Seq) (code : Code) : Seq :=
  match q.cmd with
  | none => q.next
  | some r =>
    if stops code then
      { q with running := false, retired := sat32 q.retired 1,
               cmd := some { r with codes := r.codes ++ [code], ended := true, stop := true } }
    else if absorbed code then q.next
    else { q with cmd := some { r with codes := r.codes ++ [code] } }.next

/-- A blocking instruction completes: LASTCODE, and its code as above (R431). -/
def Seq.completeBlocking (q : Seq) (code : Code) : Seq :=
  ({ q with lastCode := code, waiting := none, stalled := none }).complete code

def State.finish (s : State) (c : CellIx) (code : Code) : State := s.modSeq c (·.complete code)
def State.finishBlocking (s : State) (c : CellIx) (code : Code) : State := s.modSeq c (·.completeBlocking code)

/-! ### Stalls and interlocks -/

/-- The instruction stalls with a cause of Table 12-9; STALLS counts it. -/
def State.stall (s : State) (c : CellIx) (cause : BitVec 4) (i : Instr) : State :=
  s.modCell c (fun x =>
    { x with seq := { x.seq with stalled := some (cause, i), stallSince := s.runTime, stallRep := false, fetching := none },
             cnt := { x.cnt with stalls := x.cnt.stalls + 1 } })

/-- A row range of a list overlaps [a, a + n). -/
def touches (l : List (Nat × Nat)) (a n : Nat) : Bool := l.any (fun r => overlaps r.1 r.2 a n)

/-- The operand rows of an array block that a tile holds until its drain (R602): activation and weight groups, the
reference groups of a delta tile, the zero points. -/
def arrayRows (b : List Word) : List (Nat × Nat) :=
  let p := b.getD 1 0
  let ngc := bf b 3 15 0
  let nt := max 1 (bf b 0 23 8)
  let a := ngc * groupRows (storedWidth (Prec.abits p) 0)
  let w := ngc * groupRows (storedWidth (Prec.wbits p) 0)
  [(bf b 2 13 0, a + (nt - 1) * bf b 2 41 28), (bf b 2 27 14, w + (nt - 1) * bf b 2 55 42)] ++
  (if bb b 0 24 then [(bf b 3 43 30, a + (nt - 1) * bf b 2 41 28)] else []) ++
  (if bb b 0 25 then [(bf b 3 57 44, ceilDiv (ngc * 512) 128)] else [])

/-- Rows that a tile's joined operations hold as reads (R602). -/
def Tile.heldRows (t : Tile) : List (Nat × Nat) :=
  t.joined.flatMap (fun j => if j.isLoad then [(j.row, 64)] else arrayRows j.block)

/-- An access to rows [a, a + n) must wait for an earlier operation (R301, R602). -/
def Cell.rowBusy (x : Cell) (write : Bool) (a n : Nat) : Bool :=
  x.ops.any (fun o => touches o.writes a n) ||
  (write && (x.ops.any (fun o => touches o.reads a n) || touches x.tile0.heldRows a n || touches x.tile1.heldRows a n))

/-- Operations still touching the scratchpad (R302). -/
def Cell.tracked (x : Cell) : Nat := x.ops.countP (fun o => !o.reads.isEmpty || !o.writes.isEmpty)

/-- A pending operation will write one of the registers (R440). -/
def Cell.regBusy (x : Cell) (rs : List (BitVec 4)) : Bool :=
  x.ops.any (fun o => o.regs.any (fun p => rs.any (fun r => decide (r = p.1 ∧ r ≠ 0))))

/-- The stall that an operation on given rows and registers meets, if any: REG, TRACK or ROW (Table 12-9). -/
def Cell.hazard (x : Cell) (rs : List (BitVec 4)) (reads writes : List (Nat × Nat)) : Option (BitVec 4) :=
  if x.regBusy rs then some 5
  else if (!reads.isEmpty || !writes.isEmpty) && decide (16 ≤ x.tracked) then some 3
  else if reads.any (fun r => x.rowBusy false r.1 r.2) || writes.any (fun r => x.rowBusy true r.1 r.2) then some 2
  else none

/-- Issue through the hazards: stall, or run. -/
def State.guarded (s : State) (c : CellIx) (i : Instr) (rs : List (BitVec 4)) (reads writes : List (Nat × Nat))
    (body : State → State) : State :=
  match (s.cell c).hazard rs reads writes with
  | some k => s.stall c k i
  | none => body s

/-! ### Issue -/

/-- The sequencer issues: a run is in progress, nothing holds it, and it is not between two stalls. -/
def Cell.issues (x : Cell) : Bool :=
  x.seq.running && x.seq.stalled.isNone && x.seq.waiting.isNone && x.held.isNone && !x.scrubbing

/-- The instruction word at SEQ_PC is that of `opc` and `f` (R433, R436). -/
def Cell.fetched (x : Cell) (opc : BitVec 8) (f : InsFields) : Bool :=
  decide (Memory.readWord x.spad x.seq.pc.toNat = encodeIns opc f)

/-- The instruction is issued, after the fetch of its word under R301; where it is not the next one of a running
program the command leaves the state alone (log 1, log 4). -/
def State.issue (s : State) (c : CellIx) (opc : BitVec 8) (f : InsFields) (i : Instr) (body : State → State) : State :=
  let x := s.cell c
  if s.cellUp c && x.issues && x.fetched opc f then
    if x.rowBusy false (x.seq.pc.toNat / 128) 1 then
      (s.stall c 2 i).modSeq c (fun q => { q with fetching := some (encodeIns opc f) })
    else body s
  else s

/-- The operation block at RA + IMM, read in one wide read (R439, R451): none where the address is no row's. -/
def Cell.blockAt (x : Cell) (f : InsFields) : Option (Nat × List Word) :=
  let a := (x.seq.addrOf f).toNat
  if a % 128 = 0 ∧ a < 0x200000 then some (a / 128, Memory.readRow x.spad (a / 128)) else none

/-- The instruction holds the program until its completion (Table 12-8): a blocking one, whose code LASTCODE shows. -/
def blocks (i : Instr) : Bool :=
  match i with
  | .entryrd .. => true | .selectN .. => true | .auditN .. => true | .scaleRq .. => true | .wopen .. => true
  | .syncOp .. => true | .qread .. => true | .qflush .. => true | .sendW .. => true
  | _ => false

/-- The instruction in issue completes at once with a code. -/
def State.reject (s : State) (c : CellIx) (i : Instr) (code : Code) : State :=
  if blocks i then s.finishBlocking c code else s.finish c code

/-- A unit instruction with its block: BAD_DESC for a bad address or a reserved bit, a ROW stall for a row still being
written, else `body` (R301, R439, R444). -/
def State.withBlock (s : State) (c : CellIx) (f : InsFields) (i : Instr) (mask : List Nat)
    (body : List Word → State → State) : State :=
  match (s.cell c).blockAt f with
  | none => s.reject c i ccBadDesc
  | some (row, b) =>
    if (s.cell c).rowBusy false row 1 then s.stall c 2 i
    else if !reservedOk mask b then s.reject c i ccBadDesc
    else body b s

/-! ### Operations in flight -/

/-- An operation is issued: it takes the next number and the run's. -/
def State.addOp (s : State) (c : CellIx) (o : UnitOp) : State :=
  s.modCell c (fun x =>
    let x := o.writes.foldl (fun x w => x.overwritten w.1 w.2) x
    { x with ops := x.ops ++ [{ o with id := x.seq.nextOp, run := x.seq.run, cmd := x.seq.cmd.elim 0 (·.no) }],
             seq := { x.seq with nextOp := x.seq.nextOp + 1 } })

/-- The number of the operation issued last. -/
def State.lastOp (s : State) (c : CellIx) : Nat := (s.cell c).seq.nextOp - 1

/-- The program goes on after an asynchronous issue. -/
def State.retire (s : State) (c : CellIx) : State := s.modSeq c (·.next)

/-- The program is held until the operation issued last completes, under cause REPLY where Table 12-9 lists it. -/
def State.waitOp (s : State) (c : CellIx) (cause : Option (BitVec 4 × Instr)) : State :=
  s.modSeq c (fun q =>
    { q with waiting := some (q.nextOp - 1), stalled := cause,
             stallSince := if cause.isSome then s.runTime else q.stallSince, stallRep := false })

def Cell.op? (x : Cell) (k : Nat) : Option UnitOp := x.ops.find? (fun o => decide (o.id = k))

/-- Change the operation of number `k`. -/
def Cell.modOp (x : Cell) (k : Nat) (f : UnitOp → UnitOp) : Cell :=
  { x with ops := x.ops.map (fun o => if o.id = k then f o else o) }

/-- The operation is complete (R429, R430, R440): its registers are written, its code enters the command's code or
LASTCODE, and a program that waits for it goes on. -/
def Seq.opDone (q : Seq) (o : UnitOp) : Seq :=
  let q := o.regs.foldl (fun q r => q.setReg r.1 r.2) q
  if o.blocking && decide (q.waiting = some o.id) then q.completeBlocking o.code
  else if absorbed o.code then q
  else
    match q.cmd with
    | some r =>
      if r.no = o.cmd then
        if stops o.code then
          { q with running := false, stalled := none,
                   cmd := some { r with codes := r.codes ++ [o.code], ended := true, stop := true } }
        else { q with cmd := some { r with codes := r.codes ++ [o.code] } }
      else { q with ended := q.ended.map (fun r => if r.no = o.cmd then { r with codes := r.codes ++ [o.code] } else r) }
    | none => { q with ended := q.ended.map (fun r => if r.no = o.cmd then { r with codes := r.codes ++ [o.code] } else r) }

/-- The key of the storage that an entry names: LOC × 2^40 + BASE. -/
def Ent2.key (lo hi : Word) : Nat := fld hi 43 42 * 2 ^ 40 + fld lo 39 0

/-- Storage may return to the pool once its last reader is done (R206): this says that an operation of a cell reads it, or that a
router holds blocks, or waits for blocks, of a fetch whose entry names it. -/
def State.storageRead (s : State) (base : Nat) : Bool :=
  s.cells.any (fun x => x.2.ops.any (fun o => decide (base ∈ o.extents))) ||
  s.units.any (fun u => u.2.joins.any (fun j => j.hi.getLsbD 40 && decide (Ent2.key j.lo j.hi = base)))

end Sys2Proof.Machine
end

