-- ==== Sys2Proof/Machine/Rand.lean ====
section
/-! DEFINITION. The random streams (R178 to R187): mixing, stream IDs, and the draws of a cell's consumers. -/

namespace Sys2Proof.Machine

open Sys2Proof

/-- mix64() (R178). -/
def mix64 (x : Word) : Word :=
  let x := (x ^^^ (x >>> 29)) * 0xA3B195C4D2E70F19
  let x := (x ^^^ (x >>> 32)) * 0xB5E317A94C2D86F1
  x ^^^ (x >>> 29)

def rngKey (seed sid : Word) : Word := mix64 (seed ^^^ mix64 sid)
def rngWord (key ctr : Word) : Word := mix64 (mix64 (ctr ^^^ key) + key)

/-- Draw `d` of a stream: 16 bits of word d >> 2. -/
def rngDraw (key : Word) (d : Nat) : Nat :=
  (rngWord key (BitVec.ofNat 64 (d / 4))).toNat / 2 ^ (16 * (d % 4)) % 65536

/-- A physical stream ID (Table 5-12). -/
def sidPhysical (u : UnitAddr) (consumer : Nat) : Word := BitVec.ofNat 64 (u.toNat / 256 * 256 + consumer % 256)

/-- A logical stream ID (Table 5-12). -/
def sidLogical (layer : BitVec 16) (tile consumer : Nat) : Word :=
  BitVec.ofNat 64 (layer.toNat * 2 ^ 48 + 0xF * 2 ^ 44 + tile % 2 ^ 24 * 2 ^ 20 + consumer % 256)

/-- The seed of a job (R179). -/
def State.seedOf (s : State) (job : BitVec 32) : Word :=
  match s.drv.jobs.find? (fun j => decide (j.id = job)) with
  | some j => j.seed
  | none => Config.foreignSeed job

def Cell.layer (x : Cell) : BitVec 16 := x.seq.cmd.elim 0 (·.layer)

/-- The draws of a command use logical stream IDs: LOGICAL of its header (Table 12-1), or its layer has EXACT = 1, or its job
is reproducible, by the job's record (R181). -/
def State.logicalFor (s : State) (r : Option CmdRun) : Bool :=
  r.elim false (fun r => r.logical ||
    (s.jobRec r.job).elim false (fun j => j.repro || Prec.exact (j.precs.getD r.layer.toNat 0)))

/-- The key of a consumer of a cell, for a command and a logical tile (R180, R181). -/
def State.drawKey (s : State) (c : CellIx) (r : Option CmdRun) (consumer tile : Nat) : Word :=
  rngKey (s.seedOf (r.elim 0 (·.job)))
    (if s.logicalFor r then sidLogical (r.elim 0 (·.layer)) tile consumer
     else sidPhysical (s.cellAddr c) consumer)

/-- The words that a physical consumer has used (R183). -/
def Cell.drawCount (x : Cell) (consumer : Nat) : Word := SMap.getD x.draws consumer 0

/-- The draws of a consumer for one logical tile from draw index `first`: in physical form they continue at the
consumer's counter, four to a word (R182, R183). -/
def State.drawsOf (s : State) (c : CellIx) (r : Option CmdRun) (consumer tile first : Nat) : Nat → Nat := fun i =>
  let key := s.drawKey c r consumer tile
  if s.logicalFor r then rngDraw key (first + i)
  else rngDraw key (4 * ((s.cell c).drawCount consumer).toNat + first + i)

/-- The physical counter after `n` draws; unused draws of the last word are discarded (R183). DESIGN CHOICE (log 11): an element
outside the operands takes its draw too, so a tile that a drain converts counts 1,024, and a run of RQ 32 to a row; R183 does
not say. -/
def State.spendDrawsOf (s : State) (c : CellIx) (r : Option CmdRun) (consumer n : Nat) : State :=
  if s.logicalFor r then s
  else s.modCell c (fun x =>
    { x with draws := SMap.put x.draws consumer (x.drawCount consumer + BitVec.ofNat 64 (ceilDiv n 4)) 0 })

/-- Draws for the command in progress. -/
def State.draws (s : State) (c : CellIx) (consumer tile first : Nat) : Nat → Nat :=
  s.drawsOf c (s.cell c).seq.cmd consumer tile first
def State.spendDraws (s : State) (c : CellIx) (consumer n : Nat) : State :=
  s.spendDrawsOf c (s.cell c).seq.cmd consumer n

end Sys2Proof.Machine
end

