-- ==== Sys2Proof/Machine/Scalar.lean ====
section
/-! DEFINITION. The scalar instructions of the cell sequencer (R437, R438, R441). A body takes the state in which its
instruction is issued; `exec…` is the command. -/

namespace Sys2Proof.Machine

open Sys2Proof

/-- A register operation: RD receives `v`, the program goes on (R437). -/
def bodyReg (c : CellIx) (i : Instr) (rd : BitVec 4) (rs : List (BitVec 4)) (v : Seq → Word) (s : State) : State :=
  s.guarded c i (rd :: rs) [] [] (fun s => s.modSeq c (fun q => (q.setReg rd (v q)).next))

def bodyLi (c : CellIx) (f : InsFields) : State → State :=
  bodyReg c (.li c f) f.rd [] (fun _ => f.sx)
def bodyLih (c : CellIx) (f : InsFields) : State → State :=
  bodyReg c (.lih c f) f.rd [] (fun q => BitVec.ofNat 64 ((q.reg f.rd).toNat % 2 ^ 44 + f.imm.toNat % 2 ^ 20 * 2 ^ 44))
def bodyAdd (c : CellIx) (f : InsFields) : State → State :=
  bodyReg c (.addI c f) f.rd [f.ra, f.rb] (fun q => q.reg f.ra + q.opX f)
def bodySub (c : CellIx) (f : InsFields) : State → State :=
  bodyReg c (.subI c f) f.rd [f.ra, f.rb] (fun q => q.reg f.ra - q.opX f)
def bodyAnd (c : CellIx) (f : InsFields) : State → State :=
  bodyReg c (.andI c f) f.rd [f.ra, f.rb] (fun q => q.reg f.ra &&& q.opX f)
def bodyOr (c : CellIx) (f : InsFields) : State → State :=
  bodyReg c (.orI c f) f.rd [f.ra, f.rb] (fun q => q.reg f.ra ||| q.opX f)
def bodyXor (c : CellIx) (f : InsFields) : State → State :=
  bodyReg c (.xorI c f) f.rd [f.ra, f.rb] (fun q => q.reg f.ra ^^^ q.opX f)
def bodyShl (c : CellIx) (f : InsFields) : State → State :=
  bodyReg c (.shl c f) f.rd [f.ra, f.rb] (fun q => q.reg f.ra <<< ((q.opX f).toNat % 64))
def bodyShr (c : CellIx) (f : InsFields) : State → State :=
  bodyReg c (.shr c f) f.rd [f.ra, f.rb] (fun q => q.reg f.ra >>> ((q.opX f).toNat % 64))
def bodySra (c : CellIx) (f : InsFields) : State → State :=
  bodyReg c (.sra c f) f.rd [f.ra, f.rb] (fun q => (q.reg f.ra).sshiftRight ((q.opX f).toNat % 64))
def bodyMul (c : CellIx) (f : InsFields) : State → State :=
  bodyReg c (.mulI c f) f.rd [f.ra, f.rb] (fun q => q.reg f.ra * q.opX f)

/-- A timestamp of a die's local time counter crosses into the fabric (Table 10-5). -/
def State.passTime (s : State) (d : Nat) : State :=
  let f := ClockFifo.pass 2 (SMap.getD s.fifo.time d {}) (s.dieTime d)
  { s with fifo := { s.fifo with time := SMap.set s.fifo.time d f } }

/-- TIME: the local time counter of the cell's die (R437). -/
def bodyTime (c : CellIx) (f : InsFields) (s : State) : State :=
  s.guarded c (.timeRd c f) [f.rd] [] [] (fun s =>
    (s.passTime (CellIx.die c)).modSeq c (fun q => (q.setReg f.rd (s.dieTime (CellIx.die c))).next))

/-- A load of `n` bytes (R298, R299, R309, R310, R437): BAD_DESC at an invalid or misaligned address; what the read of
the row meets; RC fields covered are claimed. -/
def bodyLoad (c : CellIx) (i : Instr) (f : InsFields) (n : Nat) (e : List RowFlip) (s : State) : State :=
  s.guarded c i [f.rd, f.ra] [] [] (fun s =>
    let a := ((s.cell c).seq.addrOf f).toNat
    if !s.narrowOk c a n then s.finish c ccBadDesc
    else if a < 0x200000 then
      s.guarded c i [] [(a / 128, 1)] [] (fun s =>
        let lost := s.rowLoses c (a / 128) (wordsOf a n) e
        let s := s.rowRead c (a / 128) (wordsOf a n) e
        if lost then s else s.modSeq c (fun q => (q.setReg f.rd (s.narrowRead c a n)).next))
    else
      let v := s.narrowRead c a n
      (s.claimRegs c a n).modSeq c (fun q => (q.setReg f.rd v).next))

def bodyLd1 (c : CellIx) (f : InsFields) (e : List RowFlip) : State → State := bodyLoad c (.ld1 c f e) f 1 e
def bodyLd2 (c : CellIx) (f : InsFields) (e : List RowFlip) : State → State := bodyLoad c (.ld2 c f e) f 2 e
def bodyLd4 (c : CellIx) (f : InsFields) (e : List RowFlip) : State → State := bodyLoad c (.ld4 c f e) f 4 e
def bodyLd8 (c : CellIx) (f : InsFields) (e : List RowFlip) : State → State := bodyLoad c (.ld8 c f e) f 8 e

/-- A store of the low `n` bytes of RD; one of fewer than 8 reads its word, merges and writes it back, with no access between
(R295, R298, R437). -/
def bodyStore (c : CellIx) (i : Instr) (f : InsFields) (n : Nat) (e : List RowFlip) (s : State) : State :=
  s.guarded c i [f.rd, f.ra] [] [] (fun s =>
    let q := (s.cell c).seq
    let a := (q.addrOf f).toNat
    if !s.narrowOk c a n then s.finish c ccBadDesc
    else if a < 0x200000 then
      s.guarded c i [] [] [(a / 128, 1)] (fun s =>
        let lost := s.rowLoses c (a / 128) (wordsOf a n) e
        let s := s.rowRead c (a / 128) (wordsOf a n) e
        if lost then s else (s.narrowWrite c a n (q.reg f.rd)).retire c)
    else (s.narrowWrite c a n (q.reg f.rd)).retire c)

def bodySt1 (c : CellIx) (f : InsFields) (e : List RowFlip) : State → State := bodyStore c (.st1 c f e) f 1 e
def bodySt2 (c : CellIx) (f : InsFields) (e : List RowFlip) : State → State := bodyStore c (.st2 c f e) f 2 e
def bodySt4 (c : CellIx) (f : InsFields) (e : List RowFlip) : State → State := bodyStore c (.st4 c f e) f 4 e
def bodySt8 (c : CellIx) (f : InsFields) : State → State := bodyStore c (.st8 c f) f 8 []

/-- The target of a taken branch: PC + IMM × 8 (R437). -/
def Seq.target (q : Seq) (f : InsFields) : Word := q.pc.setWidth 64 + f.sx * 8

/-- A branch on a comparison of RA with RB (R437). -/
def bodyBranch (c : CellIx) (i : Instr) (f : InsFields) (p : Word → Word → Bool) (s : State) : State :=
  s.guarded c i [f.ra, f.rb] [] [] (fun s =>
    s.modSeq c (fun q => if p (q.reg f.ra) (q.reg f.rb) then q.goto (q.target f) else q.next))

def bodyBeq (c : CellIx) (f : InsFields) : State → State := bodyBranch c (.beq c f) f (fun a b => decide (a = b))
def bodyBne (c : CellIx) (f : InsFields) : State → State := bodyBranch c (.bne c f) f (fun a b => decide (a ≠ b))
def bodyBlt (c : CellIx) (f : InsFields) : State → State := bodyBranch c (.blt c f) f (fun a b => a.slt b)
def bodyBge (c : CellIx) (f : InsFields) : State → State := bodyBranch c (.bge c f) f (fun a b => !a.slt b)
def bodyBltu (c : CellIx) (f : InsFields) : State → State := bodyBranch c (.bltu c f) f (fun a b => a.ult b)
def bodyBgeu (c : CellIx) (f : InsFields) : State → State := bodyBranch c (.bgeu c f) f (fun a b => !a.ult b)

/-- JAL: RD = PC + 8, then the jump (R437). -/
def bodyJal (c : CellIx) (f : InsFields) (s : State) : State :=
  s.guarded c (.jal c f) [f.rd] [] [] (fun s =>
    s.modSeq c (fun q => (q.setReg f.rd (q.pc.setWidth 64 + 8)).goto (q.target f)))

/-- JR: PC = RA + IMM (R437). -/
def bodyJr (c : CellIx) (f : InsFields) (s : State) : State :=
  s.guarded c (.jr c f) [f.ra] [] [] (fun s => s.modSeq c (fun q => q.goto (q.addrOf f)))

/-- RDRAND: one whole word of draw channel IMM[3:0] (R438). -/
def bodyRdrand (c : CellIx) (f : InsFields) (s : State) : State :=
  s.guarded c (.rdrand c f) [f.rd, f.rb] [] [] (fun s =>
    let x := s.cell c
    let ch := f.imm.toNat % 16
    let key := s.drawKey c x.seq.cmd (0x10 + ch) ((x.seq.reg f.rb).toNat % 2 ^ 24)
    if s.logicalFor x.seq.cmd then
      let n := SMap.getD x.seq.rand ch 0
      s.modSeq c (fun q => ({ q with rand := SMap.put q.rand ch (n + 1) 0 }.setReg f.rd (rngWord key n)).next)
    else
      (s.spendDraws c (0x10 + ch) 4).modSeq c (fun q =>
        (q.setReg f.rd (rngWord key (x.drawCount (0x10 + ch)))).next))

/-- FENCE: waits until every unit operation of the run has completed (R437); until then it stays in issue. -/
def bodyFence (c : CellIx) (s : State) : State :=
  let x := s.cell c
  if x.ops.any (fun o => decide (o.run = x.seq.run)) then s else s.retire c

/-- END: the run ends with the code IMM[7:0] (R437, R441). -/
def bodyEnd (c : CellIx) (f : InsFields) (s : State) : State :=
  s.modSeq c (fun q => { q with retired := sat32 q.retired 1 }.endWith (f.imm.setWidth 8))

/-- The opcodes of Tables 12-7 and 12-8. -/
def legalOpcode (o : Nat) : Bool :=
  decide ((1 ≤ o ∧ o ≤ 0x0B) ∨ (0x10 ≤ o ∧ o ≤ 0x17) ∨ (0x20 ≤ o ∧ o ≤ 0x29) ∨ o = 0x2E ∨ o = 0x2F ∨
    (0x40 ≤ o ∧ o ≤ 0x45) ∨ o = 0x48 ∨ o = 0x49 ∨ o = 0x4A ∨ o = 0x4C ∨ o = 0x4E ∨ o = 0x50 ∨ o = 0x54 ∨
    o = 0x55 ∨ o = 0x58 ∨ o = 0x5C ∨ o = 0x5D ∨ o = 0x60)

/-- Another opcode completes the run with BAD_DESC (R437, R439); an RQ or LFU block with a reserved operation completes
the instruction with it (R444, Table 8-2). -/
def bodyIllegal (c : CellIx) (opc : BitVec 8) (f : InsFields) (s : State) : State :=
  if !legalOpcode opc.toNat then
    s.modSeq c (fun q => { q with retired := sat32 q.retired 1 }.endWith ccBadDesc)
  else if opc = 0x4C ∨ opc = 0x50 then
    s.withBlock c f (.illegalOpcode c opc f) (if opc = 0x4C then maskRq else maskLfu) (fun b s =>
      if 10 ≤ bf b 0 3 0 then s.finish c ccBadDesc else s)
  else s

/-! ### The commands -/

abbrev Out := Host.Outcome State Fault Refusal

def execLi (c : CellIx) (f : InsFields) (s : State) : Out := .next (s.issue c 0x01 f (.li c f) (bodyLi c f))
def execLih (c : CellIx) (f : InsFields) (s : State) : Out := .next (s.issue c 0x02 f (.lih c f) (bodyLih c f))
def execAddI (c : CellIx) (f : InsFields) (s : State) : Out := .next (s.issue c 0x03 f (.addI c f) (bodyAdd c f))
def execSubI (c : CellIx) (f : InsFields) (s : State) : Out := .next (s.issue c 0x04 f (.subI c f) (bodySub c f))
def execAndI (c : CellIx) (f : InsFields) (s : State) : Out := .next (s.issue c 0x05 f (.andI c f) (bodyAnd c f))
def execOrI (c : CellIx) (f : InsFields) (s : State) : Out := .next (s.issue c 0x06 f (.orI c f) (bodyOr c f))
def execXorI (c : CellIx) (f : InsFields) (s : State) : Out := .next (s.issue c 0x07 f (.xorI c f) (bodyXor c f))
def execShl (c : CellIx) (f : InsFields) (s : State) : Out := .next (s.issue c 0x08 f (.shl c f) (bodyShl c f))
def execShr (c : CellIx) (f : InsFields) (s : State) : Out := .next (s.issue c 0x09 f (.shr c f) (bodyShr c f))
def execSra (c : CellIx) (f : InsFields) (s : State) : Out := .next (s.issue c 0x0A f (.sra c f) (bodySra c f))
def execMulI (c : CellIx) (f : InsFields) (s : State) : Out := .next (s.issue c 0x0B f (.mulI c f) (bodyMul c f))
def execLd1 (c : CellIx) (f : InsFields) (e : List RowFlip) (s : State) : Out :=
  .next (s.issue c 0x10 f (.ld1 c f e) (bodyLd1 c f e))
def execLd2 (c : CellIx) (f : InsFields) (e : List RowFlip) (s : State) : Out :=
  .next (s.issue c 0x11 f (.ld2 c f e) (bodyLd2 c f e))
def execLd4 (c : CellIx) (f : InsFields) (e : List RowFlip) (s : State) : Out :=
  .next (s.issue c 0x12 f (.ld4 c f e) (bodyLd4 c f e))
def execLd8 (c : CellIx) (f : InsFields) (e : List RowFlip) (s : State) : Out :=
  .next (s.issue c 0x13 f (.ld8 c f e) (bodyLd8 c f e))
def execSt1 (c : CellIx) (f : InsFields) (e : List RowFlip) (s : State) : Out :=
  .next (s.issue c 0x14 f (.st1 c f e) (bodySt1 c f e))
def execSt2 (c : CellIx) (f : InsFields) (e : List RowFlip) (s : State) : Out :=
  .next (s.issue c 0x15 f (.st2 c f e) (bodySt2 c f e))
def execSt4 (c : CellIx) (f : InsFields) (e : List RowFlip) (s : State) : Out :=
  .next (s.issue c 0x16 f (.st4 c f e) (bodySt4 c f e))
def execSt8 (c : CellIx) (f : InsFields) (s : State) : Out := .next (s.issue c 0x17 f (.st8 c f) (bodySt8 c f))
def execBeq (c : CellIx) (f : InsFields) (s : State) : Out := .next (s.issue c 0x20 f (.beq c f) (bodyBeq c f))
def execBne (c : CellIx) (f : InsFields) (s : State) : Out := .next (s.issue c 0x21 f (.bne c f) (bodyBne c f))
def execBlt (c : CellIx) (f : InsFields) (s : State) : Out := .next (s.issue c 0x22 f (.blt c f) (bodyBlt c f))
def execBge (c : CellIx) (f : InsFields) (s : State) : Out := .next (s.issue c 0x23 f (.bge c f) (bodyBge c f))
def execBltu (c : CellIx) (f : InsFields) (s : State) : Out := .next (s.issue c 0x24 f (.bltu c f) (bodyBltu c f))
def execBgeu (c : CellIx) (f : InsFields) (s : State) : Out := .next (s.issue c 0x25 f (.bgeu c f) (bodyBgeu c f))
def execJal (c : CellIx) (f : InsFields) (s : State) : Out := .next (s.issue c 0x26 f (.jal c f) (bodyJal c f))
def execJr (c : CellIx) (f : InsFields) (s : State) : Out := .next (s.issue c 0x27 f (.jr c f) (bodyJr c f))
def execRdrand (c : CellIx) (f : InsFields) (s : State) : Out :=
  .next (s.issue c 0x28 f (.rdrand c f) (bodyRdrand c f))
def execTimeRd (c : CellIx) (f : InsFields) (s : State) : Out :=
  .next (s.issue c 0x29 f (.timeRd c f) (bodyTime c f))
def execFenceI (c : CellIx) (f : InsFields) (s : State) : Out := .next (s.issue c 0x2E f (.fenceI c f) (bodyFence c))
def execEndRun (c : CellIx) (f : InsFields) (s : State) : Out := .next (s.issue c 0x2F f (.endRun c f) (bodyEnd c f))
def execIllegalOpcode (c : CellIx) (opc : BitVec 8) (f : InsFields) (s : State) : Out :=
  .next (s.issue c opc f (.illegalOpcode c opc f) (bodyIllegal c opc f))

end Sys2Proof.Machine
end

