-- ==== Sys2Proof/Machine/Param.lean ====
section
/-! DEFINITION. Raw access to the acting values of dictionary parameters that other parts of the module use. -/

namespace Sys2Proof.Machine

open Sys2Proof

/-- The bytes of a parameter instance, where one has been written or restored. -/
def Dict.raw (d : Dict) (k : ParamKey) : Option (List Byte) := (d.params.find? (fun p => decide (p.1 = k))).map (·.2)

/-- Store the bytes of a parameter instance. -/
def Dict.setRaw (d : Dict) (k : ParamKey) (v : List Byte) : Dict :=
  if d.params.any (fun p => decide (p.1 = k)) then
    { d with params := d.params.map (fun p => if p.1 = k then (k, v) else p) }
  else { d with params := d.params ++ [(k, v)] }

/-- The acting value of a device-level parameter, `dflt` being its default. -/
def State.devParam (s : State) (index sub dflt : Nat) : Nat :=
  (s.dict.raw ⟨0, index, sub⟩).elim dflt ofBytesLE

/-- Element `i` of `n` bytes of a device-level ARRAY or DOMAIN parameter whose default is zero. -/
def State.devElem (s : State) (index sub n i : Nat) : Nat :=
  (s.dict.raw ⟨0, index, sub⟩).elim 0 (fun v => ofBytesLE ((v.drop (n * i)).take n))

/-- SPILL_TARGETS element, WS_BASE, WS_UNITS, SERVE_GIB (Table 14-8). -/
def State.spillTarget (s : State) (i : Nat) : Nat := if i < 16 then s.devElem 0x4000 0x09 8 i else 0
def State.wsBase (s : State) : Nat := s.devParam 0x4000 0x0A 0
def State.wsUnits (s : State) : Nat := s.devParam 0x4000 0x0B 0
def State.serveGib (s : State) : Nat := s.devParam 0x4000 0x0C 128

end Sys2Proof.Machine
end

