-- ==== Sys2Proof/Machine/Carried.lean ====
section
/-! DEFINITION. The conversion of a layer on the device: the policy values and the carried record that act in it (R164, R173),
its statistics (R166, R167), what poisons its blocks (R150, R151). -/

namespace Sys2Proof.Machine

open Sys2Proof

/-- The carried-scale policy of the device (Table 5-8). -/
def State.clipLimit (s : State) : Nat := s.devParam 0x5810 0x01 64
def State.headroom (s : State) : Nat := s.devParam 0x5810 0x02 2

/-- The record at a layer's CARRY, its header word first; none for a layer that names none or that the driver does not hold. -/
def State.carriedAt (s : State) (job : BitVec 32) (layer : BitVec 16) : List Word :=
  match s.layerOf job layer with
  | some (_, l) =>
    if Layer.carryV l then
      (List.range (1 + Rec.entries (s.recWord (Layer.carry l) 0))).map (s.recWord (Layer.carry l))
    else []
  | none => []

/-- The conversion of a layer as it stands, or as it would begin now. -/
def State.convOf (s : State) (job : BitVec 32) (layer : BitVec 16) : LayerConv :=
  (s.conv.find? (fun k => decide (k.job = job ∧ k.layer = layer))).getD
    { job := job, layer := layer, clipLimit := s.clipLimit, headroom := s.headroom, carried := s.carriedAt job layer }

/-- A change of the conversion of a layer, which begins it where it has not begun. -/
def State.modConv (s : State) (job : BitVec 32) (layer : BitVec 16) (f : LayerConv → LayerConv) : State :=
  { s with conv := s.conv.filter (fun k => decide (¬ (k.job = job ∧ k.layer = layer))) ++ [f (s.convOf job layer)] }

/-- Two statistics of one entry as one. -/
def EntryStat.add (a b : EntryStat) : EntryStat :=
  { lo := min a.lo b.lo, hi := max a.hi b.hi, clipped := a.clipped + b.clipped, n := a.n + b.n }

/-- An operation that converts has ended: its statistics are the layer's (R166, R167). -/
def State.handStats (s : State) (c : CellIx) (job : BitVec 32) (layer : BitVec 16) : State :=
  let st := (s.cell c).rq.stats
  if st = [] then s
  else
    (s.modConv job layer (fun k =>
      { k with stats := st.foldl (fun m e => SMap.set m e.1 ((SMap.getD m e.1 {}).add e.2)) k.stats })).modCell c
      (fun x => { x with rq := { x.rq with stats := [] } })

/-- Channel `n` of the layer is written with a word, or an entry, that poisons its blocks (R150, R151). -/
def LayerConv.poisons (k : LayerConv) (entry : Bool) (n : Nat) : Bool :=
  k.nf.any (fun m => (m.entry || !entry) && decide (m.chan = none ∨ m.chan = some n))

end Sys2Proof.Machine
end

