-- ==== Sys2Proof/Machine/Ledger.lean ====
section
/-! DEFINITION. The error ledger: its items (R261 to R264), its stored form (R265) and the merge (R266). -/

namespace Sys2Proof.Machine

open Sys2Proof

/-- The number of items, from the flags (R261). -/
def Ledger.items (l : Ledger) : Nat := 1 + b2n l.delta + b2n l.pred + b2n l.lfu

/-- Item 0 (Table 7-5): SEGS is at least 1. -/
def Ledger.item0 (l : Ledger) : Payload :=
  BitVec.ofNat 120 (b2n l.exact + 2 * b2n l.kerfed + 4 * b2n l.midpt + 8 * b2n l.delta + 16 * b2n l.pred
    + 32 * b2n l.lfu + 64 * b2n l.poison + 128 * b2n l.special + 2 ^ 8 * l.cutPlane.toNat + 2 ^ 12 * l.items
    + 2 ^ 16 * (l.kerfBound % 2 ^ 64) + 2 ^ 80 * (max 1 l.segs % 2 ^ 16))

/-- The delta item (Table 7-6). -/
def Ledger.deltaItem (l : Ledger) : Payload :=
  BitVec.ofNat 120 (l.deltaBound16 % 2 ^ 64 + 2 ^ 64 * (l.skipped % 2 ^ 32) + 2 ^ 96 * (l.frames % 2 ^ 24))

/-- The predictor item (R263). -/
def Ledger.predItem (l : Ledger) : Payload :=
  BitVec.ofNat 120 (l.sel % 2 ^ 24 + 2 ^ 24 * (l.grd % 2 ^ 24) + 2 ^ 48 * (l.aud % 2 ^ 24)
    + 2 ^ 72 * (l.skp % 2 ^ 24) + 2 ^ 96 * (l.dis % 2 ^ 24))

/-- The LFU item (R264). -/
def Ledger.lfuItem (l : Ledger) : Payload :=
  BitVec.ofNat 120 (l.ops.toNat + 2 ^ 16 * (l.logerr % 2 ^ 32))

/-- The present items in order (R265). -/
def Ledger.present (l : Ledger) : List Payload :=
  l.item0 :: ((if l.delta then [l.deltaItem] else []) ++ (if l.pred then [l.predItem] else []) ++
    (if l.lfu then [l.lfuItem] else []))

/-- The 64 bytes of a stored ledger: slot i of 16 bytes holds item kind i, absent items as zero (R265). -/
def Ledger.stored (l : Ledger) : List Byte :=
  bytesLE 16 l.item0.toNat ++ bytesLE 16 (if l.delta then l.deltaItem.toNat else 0) ++
  bytesLE 16 (if l.pred then l.predItem.toNat else 0) ++ bytesLE 16 (if l.lfu then l.lfuItem.toNat else 0)

/-- The ledger that present items spell, in order. -/
def Ledger.ofItems (ps : List Payload) : Ledger :=
  let p := ps.getD 0 0
  let rest := ps.drop 1
  let d := p.getLsbD 3
  let q := p.getLsbD 4
  let f := p.getLsbD 5
  let di := if d then rest.getD 0 0 else 0
  let rest := if d then rest.drop 1 else rest
  let pi := if q then rest.getD 0 0 else 0
  let rest := if q then rest.drop 1 else rest
  let li := if f then rest.getD 0 0 else 0
  { exact := p.getLsbD 0, kerfed := p.getLsbD 1, midpt := p.getLsbD 2, delta := d, pred := q, lfu := f,
    poison := p.getLsbD 6, special := p.getLsbD 7, cutPlane := BitVec.ofNat 4 (fld p 11 8),
    kerfBound := fld p 79 16, segs := fld p 95 80, deltaBound16 := fld di 63 0, skipped := fld di 95 64,
    frames := fld di 119 96, sel := fld pi 23 0, grd := fld pi 47 24, aud := fld pi 71 48, skp := fld pi 95 72,
    dis := fld pi 119 96, ops := BitVec.ofNat 16 (fld li 15 0), logerr := fld li 47 16 }

def satTo (bits n : Nat) : Nat := min n (2 ^ bits - 1)

/-- The merge, field by field (R266). A ledger into which nothing has been folded takes the other's EXACT. -/
def Ledger.merge (a b : Ledger) : Ledger :=
  { exact := a.exact && b.exact, kerfed := a.kerfed || b.kerfed, midpt := a.midpt || b.midpt,
    delta := a.delta || b.delta, pred := a.pred || b.pred, lfu := a.lfu || b.lfu, poison := a.poison || b.poison,
    special := a.special || b.special, cutPlane := if a.cutPlane.toNat < b.cutPlane.toNat then b.cutPlane else a.cutPlane,
    kerfBound := satTo 64 (a.kerfBound + b.kerfBound), segs := satTo 16 (a.segs + b.segs),
    deltaBound16 := satTo 64 (a.deltaBound16 + b.deltaBound16), skipped := satTo 32 (a.skipped + b.skipped),
    frames := max a.frames b.frames, sel := max a.sel b.sel, grd := max a.grd b.grd, aud := max a.aud b.aud,
    skp := max a.skp b.skp, dis := max a.dis b.dis, ops := a.ops ||| b.ops, logerr := max a.logerr b.logerr }

end Sys2Proof.Machine
end

