-- ==== Sys2Proof/Machine/Windows.lean ====
section
/-! DEFINITION. Windows: opening, writing, landing and closing (R312 to R328). -/

namespace Sys2Proof.Machine

open Sys2Proof

/-- Window `w` of the unit of key `k`. -/
def State.win (s : State) (k w : Nat) : Win := (s.unit k).win w
def State.modWin (s : State) (k w : Nat) (f : Win → Win) : State :=
  s.modUnit k (fun u => { u with wins := SMap.set u.wins w (f (u.win w)) })

/-- Window `w` is free in every cell of unit `u`: no unit that encloses or lies within `u` owns it (R312, R313). -/
def State.winFree (s : State) (u : UnitAddr) (w : Nat) : Bool :=
  ((UA.key u :: UA.above u) ++ UA.below u).all (fun k => decide ((s.win k w).st = .closed))

/-- An OPEN of a window that is not CLOSING: its code, the new WEPOCH, and the state (R313 steps 2 to 6). -/
def State.openWin (s : State) (u : UnitAddr) (w base rows : Nat) (writers : UnitAddr) (job : BitVec 32) :
    Code × BitVec 16 × State :=
  let k := UA.key u
  let e := (s.win k w).wepoch + 1
  if !s.winFree u w then (ccBadDesc, 0, s)
  else if !UA.canonical writers then (ccBadDesc, 0, s)
  else if 16384 < base + rows then (ccBadDesc, 0, s)
  else if rows = 0 then (ccEmpty, 0, s)
  else (ccOk, e, s.modWin k w (fun x =>
    { x with st := .opened, base := BitVec.ofNat 14 base, rows := BitVec.ofNat 15 rows, wepoch := e,
             writers := writers, job := job, unlanded := [], byKill := false, deferred := false }))

/-- A window passes to CLOSED (Table 9-4): the closes that wait for it complete. -/
def State.winClosed (s : State) (k w : Nat) : State :=
  let s := s.modWin k w (fun x =>
    { x with st := .closed, base := 0, rows := 0, writers := 0, job := 0, byKill := false })
  let s := s.modUnit k (fun u =>
    { u with cmds := u.cmds.map (fun p => if p.win = some w then { p with win := none } else p) })
  { s with cells := s.cells.map (fun x =>
      (x.1, { x.2 with ops := x.2.ops.map (fun o => if o.win = some (k, w) then { o with done := true } else o) })) }

/-- The close point of a window by a CLOSE or a kill (R324, Table 9-4). -/
def State.closeWin (s : State) (k w : Nat) (byKill : Bool) : State :=
  let x := s.win k w
  match x.st with
  | .closed => s
  | .closing => if byKill then s.modWin k w (fun x => { x with byKill := true }) else s
  | .opened =>
    let s := s.modWin k w (fun x => { x with st := .closing, byKill := byKill })
    if x.unlanded = [] then s.winClosed k w else s

/-- The first write accepted by a window and not landed lands in every target cell; its REPLY follows; the last one
lets a CLOSING window pass to CLOSED (R322, R325, R328). -/
def State.landWrite (s : State) (u : UnitAddr) (w : Nat) : State :=
  let k := UA.key u
  let x := s.win k w
  match x.unlanded with
  | [] => s
  | p :: rest =>
    let s := s.modCells (UA.cells u) (fun y =>
      { y.overwritten (p.addr / 128) (ceilDiv (p.addr % 128 + p.data.length) 128) with spad := Memory.writeBytes y.spad p.addr p.data })
    let s := s.modWin k w (fun x => { x with unlanded := rest })
    let req : Msg := ⟨u, 0, 0x03, p.tag, p.src, 0, false, [p.item0]⟩
    let s := if p.ack then
        s.reply req (if x.byKill then ccKilled else ccOk)
          (replyItem (fld p.item0 19 0) (fld p.item0 94 63) (fld p.item0 61 41)) []
      else s
    if rest = [] ∧ x.st = .closing then s.winClosed k w else s

/-- The checks of Table 9-3 in their order: the outcome of a window write at its owner. -/
def State.checkWrite (s : State) (m : Msg) : Code :=
  let w := m.fld 0 3 0
  let off := m.fld 0 40 20
  let len := m.fld 0 61 41
  let x := s.win (UA.key m.dest) w
  if len = 0 then ccEmpty
  else if off % 8 ≠ 0 ∨ len % 8 ≠ 0 ∨ 524288 < len ∨ m.body.length ≠ 1 + ceilDiv len 15 ∨ m.fld 0 119 95 ≠ 0
    then ccBadDesc
  else if x.st ≠ .opened then ccWinClosed
  else if m.fld 0 19 4 ≠ x.wepoch.toNat then ccWinClosed
  else if !UA.inSubtree m.src x.writers then ccWinClosed
  else if x.rows.toNat * 128 < off + len then ccWinBounds
  else ccOk

/-- A WINDOW_WRITE that passed the epoch check (R319 to R322). -/
def State.acceptWrite (s : State) (m : Msg) : State :=
  let k := UA.key m.dest
  let w := m.fld 0 3 0
  let len := m.fld 0 61 41
  let code := s.checkWrite m
  if code = ccEmpty then
    let s := s.received m
    if (m.body.getD 0 0).getLsbD 62 then
      s.reply m ccEmpty (replyItem (m.fld 0 19 0) (m.fld 0 94 63) len) []
    else s
  else if code = ccOk then
    (s.received m).modUnit k (fun u =>
      let x := u.win w
      let p : WinWrite := { src := m.src, tag := m.tag, item0 := m.body.getD 0 0,
                            addr := x.base.toNat * 128 + m.fld 0 40 20, data := (unpackItems (m.body.drop 1)).take len,
                            ack := (m.body.getD 0 0).getLsbD 62, no := u.nextWrite }
      { u with wins := SMap.set u.wins w { x with unlanded := x.unlanded ++ [p] },
               winAccepted := sat32 u.winAccepted 1, nextWrite := u.nextWrite + 1 })
  else
    let s := s.modUnit k (fun u =>
      { u with winClosedB := if code = ccWinClosed then sat16 u.winClosedB 1 else u.winClosedB,
               winBoundsB := if code = ccWinBounds then sat16 u.winBoundsB 1 else u.winBoundsB })
    s.bounce m code

/-- WINDOW_WRITE arrives at its owner (R319, R551, R552). -/
def execWindowWrite (m : Msg) (s : State) : Out :=
  .next (onlyIf (s.requestOk m 0x03) s (fun s => s.arrival m (·.acceptWrite m)))

/-- The oldest accepted write of window `w` lands next: its sender has none accepted earlier and not landed at this owner, in
whatever window (R323). -/
def UnitState.landsNext (u : UnitState) (w : Nat) : Bool :=
  match (u.win w).unlanded with
  | [] => true
  | p :: _ => u.wins.all (fun x => x.2.unlanded.all (fun q => decide (q.src ≠ p.src ∨ p.no ≤ q.no)))

/-- WINDOW_WRITE_LANDED: the oldest accepted write of window `w` of unit `u` lands (R322, R323). -/
def execWindowWriteLanded (u : UnitAddr) (w : Fin 16) (s : State) : Out :=
  .next (onlyIf (s.local? u && UA.canonical u && s.unitUp u && (s.unit (UA.key u)).landsNext w.val) s (·.landWrite u w.val))

/-! ### The instructions -/

/-- WOPEN at this cell: RD receives the new WEPOCH when it completes (R313, Table 12-8). A CLOSING window stalls it
(R325, Table 12-9 cause 7). -/
def bodyWopen (c : CellIx) (f : InsFields) (s : State) : State :=
  s.guarded c (.wopen c f) [f.rd, f.ra] [] [] (fun s =>
    s.withBlock c f (.wopen c f) maskWopen (fun b s =>
      let u := s.cellAddr c
      let w := bf b 0 3 0
      if (s.win (UA.key u) w).st = .closing then s.stall c 7 (.wopen c f)
      else
        match s.openWin u w (bf b 0 17 4) (bf b 0 32 18) (b.getD 1 0) (s.cell c).job with
        | (code, e, s) =>
          let s := s.addOp c { id := 0, unit := .net, code := code, blocking := true,
                               regs := if code = ccOk then [(f.rd, e.setWidth 64)] else [] }
          s.waitOp c (some (6, .wopen c f))))

/-- WCLOSE: the close point of window IMM[3:0] of this cell; it completes when the window is free (R324, R325). -/
def bodyWclose (c : CellIx) (f : InsFields) (s : State) : State :=
  s.guarded c (.wclose c f) [] [] [] (fun s =>
    let k := UA.keyOf 5 c.val
    let w := f.imm.toNat % 16
    let s := s.closeWin k w false
    (s.addOp c { id := 0, unit := .net, win := some (k, w),
                 done := decide ((s.win k w).st = .closed) }).retire c)

def execWopen (c : CellIx) (f : InsFields) (s : State) : Out := .next (s.issue c 0x54 f (.wopen c f) (bodyWopen c f))
def execWclose (c : CellIx) (f : InsFields) (s : State) : Out :=
  .next (s.issue c 0x55 f (.wclose c f) (bodyWclose c f))

end Sys2Proof.Machine
end

