-- ==== Sys2Proof/Machine/Cmd.lean ====
section
/-! DEFINITION. Commands at cells and carcases (R423 to R431, R31, R36 to R38), kill, cut and scrub (R252, R327 to
R332, R352). -/

namespace Sys2Proof.Machine

open Sys2Proof

/-! ### Headers and dispatch -/

/-- The command of a header and body, for member `j` of `count` (R423, R427). -/
def cmdOf (m : Msg) (j count no : Nat) : CmdRun :=
  let h := m.body.getD 0 0
  { cmd := h.setWidth 8, divide := h.getLsbD 8, logical := h.getLsbD 9, job := (h >>> 16).setWidth 32,
    layer := (h >>> 48).setWidth 16, a := (h >>> 64).setWidth 21, b := (h >>> 85).setWidth 25, hdr := h.setWidth 64,
    reserved := decide (fld h 15 10 ≠ 0 ∨ fld h 119 110 ≠ 0), body := m.body.drop 1, len := m.body.length,
    src := m.src, dest := m.dest, tag := m.tag, j := j, count := count, no := no }

/-- The REPLY of a command (Table 10-13). -/
def State.replyCmd (s : State) (src dest : UnitAddr) (tag : BitVec 32) (cmd : BitVec 8) (job : BitVec 32)
    (code : Code) (wepoch : BitVec 16) : State :=
  s.reply ⟨dest, 0, 0x01, tag, src, 0, false, []⟩ code (replyItem cmd.toNat job.toNat wepoch.toNat) []

/-- A record of the same command: SRC, TAG and CMD are its own, and member `c` has still to complete it. -/
def Spread.of (p : Spread) (r : CmdRun) (c : Nat) : Bool :=
  decide (p.src = r.src ∧ p.tag = r.tag ∧ p.cmd = r.cmd ∧ c ∈ p.left)

/-- Member `c` strikes its share of a command off the carcase's records: off the one after the `k` of its kind that the member
has still to end, since a cell takes the commands of one SRC and TAG in the order of their arrival (R31, R426). -/
def strikeShare (r : CmdRun) (c : Nat) (code : Code) : Nat → List Spread → List Spread
  | _, [] => []
  | k, p :: t =>
    if p.of r c then
      match k with
      | 0 => { p with left := p.left.erase c, codes := p.codes ++ [code],
                      wepoch := if p.wepoch = 0 then r.wepoch else p.wepoch } :: t
      | k + 1 => p :: strikeShare r c code k t
    else p :: strikeShare r c code k t

/-- Earlier commands at the cell of the same SRC, TAG and CMD. -/
def Cell.sameBefore (x : Cell) (r : CmdRun) : Nat :=
  (x.seq.ended ++ x.seq.cmd.toList).countP (fun q => decide (q.src = r.src ∧ q.tag = r.tag ∧ q.cmd = r.cmd ∧ q.no < r.no))

/-- A cell's share of a command is complete: COMMANDS_DONE, its REPLY or its code at the carcase (R31, R429), and the
copies that routers still hold for it are discarded (R448). -/
def State.shareDone (s : State) (c : CellIx) (r : CmdRun) (code : Code) : State :=
  let s := s.modCell c (fun x => { x with cnt := { x.cnt with commandsDone := x.cnt.commandsDone + 1 } })
  let drop (j : JoinRec) : JoinRec := if j.src = r.src ∧ j.tag = r.tag then { j with left := j.left.erase c.val } else j
  let s := (UA.above (s.cellAddr c)).foldl (fun s k =>
    if (s.unit k).joins = [] then s
    else s.modUnit k (fun u => { u with joins := (u.joins.map drop).filter (fun j => decide (j.left ≠ [])) })) s
  if UA.depth r.dest = 5 then s.replyCmd r.src r.dest r.tag r.cmd r.job code r.wepoch
  else s.modUnit (UA.key r.dest) (fun u =>
    { u with cmds := strikeShare r c.val code ((s.cell c).sameBefore r) u.cmds })

/-- The packet of the head command in CMD: its header items and body items present, and whether its EOP is (R426). -/
def Queue.head (q : Queue) : List QItem × Bool :=
  let p := (splitEop q.items).1
  (p, lastEop false p)

/-- The head command may be dispatched (R426): whole, or an IMAGE whose body item 0 stands at the head. -/
def Queue.headReady (q : Queue) : Bool :=
  !q.flushing && !q.midHead && (q.head.2 || decide (2 < q.head.1.length ∧
    ((q.items.getD 2 ⟨false, 0, 0⟩).payload.setWidth 8 : BitVec 8) = 0x02))

/-- Take `n` items from the head of CMD. -/
def Cell.takeCmd (x : Cell) (n : Nat) (now : Word) : Cell :=
  let q := { x.cmdq with items := x.cmdq.items.drop n, midHead := !lastEop true (x.cmdq.items.take n),
                         timer := if x.cmdq.items.drop n = [] then none else some now }
  { x with cmdq := Queue.fill 64 now q }

/-- The packet at RPL's input, which is `l`'s first, carries another job than the one the cell executes (R347). -/
def strayPacket (job : Nat) (l : List QItem) : Bool :=
  (Msg.ofItems (splitEop l).1).elim false (fun m => decide (m.job ≠ job))

/-- Items at the router enter RPL while it has room (R343); a packet of another job is discarded at the input and counted
(R347). `n` bounds the steps. -/
def Queue.rplFill (now : Word) (job : Nat) : Nat → Queue → Queue
  | 0, q => q
  | n + 1, q =>
    match q.inflow with
    | [] => q
    | i :: t =>
      if q.flushing then q
      else if !q.partialIn && strayPacket job q.inflow then
        Queue.rplFill now job n { q with inflow := (splitEop q.inflow).2, dropped := sat16 q.dropped 1 }
      else if 64 ≤ q.items.length then q
      else Queue.rplFill now job n
        { q with items := q.items ++ [i], inflow := t, timer := if q.items = [] then some now else q.timer }

/-- RPL takes in what waits before it (R343, R347). -/
def Cell.fillRpl (x : Cell) (now : Word) : Cell :=
  { x with rplq := x.rplq.rplFill now x.job.toNat x.rplq.inflow.length }

/-- A scrub starts; what an earlier job left in RPL goes (R329, R330, R332). -/
def Cell.startScrub (x : Cell) : Cell :=
  { x with scrubbing := true, rplq := x.rplq.flush,
           seq := { x.seq with running := false, stalled := none, waiting := none } }

/-- CMD_DISPATCH (R426): a killed job's command is discarded (R352), a scrub comes first where SPD_OWNER holds another
job (R332), else the command is in progress; a CMD value outside Table 12-2 ends it with BAD_DESC (R424). -/
def State.dispatch (s : State) (c : CellIx) : State :=
  let x := s.cell c
  let p := x.cmdq.head.1
  match Msg.ofItems p with
  | none => s
  | some m =>
    let r := cmdOf m (c.val - UA.index m.dest) (UA.span (UA.depth m.dest)) x.seq.nextCmd
    let image := decide (r.cmd = 0x02)
    let n := if image then min 3 p.length else p.length
    let whole := lastEop false (p.take n)
    let take (x : Cell) (r : CmdRun) : Cell :=
      let x := x.takeCmd n s.runTime
      { x with seq := { x.seq with cmd := some r, hdr := r.hdr, nextCmd := x.seq.nextCmd + 1, image := none } }
    let r := { r with len := if image then fld (p.getD 1 ⟨false, 0, 0⟩).payload 79 64 else r.len }
    if r.job ∈ x.killed ∧ r.cmd ≠ 0x04 then
      s.modCell c (fun x =>
        let x := take x { r with started := true, ended := whole, stop := true, codes := [ccKilled] }
        { x with cmdq := { x.cmdq with dropped := sat16 x.cmdq.dropped 1 } })
    else if r.cmd ≠ 0x04 ∧ x.spdOwner ≠ 0 ∧ x.spdOwner ≠ r.job then
      if x.ops = [] ∧ x.seq.ended = [] then s.modCell c (·.startScrub) else s
    else if r.cmd = 0 ∨ 4 < r.cmd.toNat then
      s.modCell c (fun x => take x { r with started := true, ended := true, stop := true, codes := [ccBadDesc] })
    else s.modCell c (fun x => take x r)

/-- The cell takes no command now: one is in progress, a scrub runs, or a lost datum holds it. -/
def Cell.dispatches (x : Cell) : Bool := x.seq.cmd.isNone && !x.scrubbing && x.cmdq.headReady

def execCmdDispatch (c : CellIx) (s : State) : Out :=
  .next (onlyIf (s.cellUp c && (s.cell c).dispatches) s (·.dispatch c))

/-- The command dispatched at a cell and not begun. -/
def Cell.fresh (x : Cell) (cmd : BitVec 8) : Option CmdRun :=
  match x.seq.cmd with
  | some r => if r.cmd = cmd ∧ ¬ r.started ∧ ¬ r.ended then some r else none
  | none => none

/-- The command in progress ends with a code, without a run. -/
def Seq.endCmd (q : Seq) (code : Code) : Seq :=
  { q with cmd := q.cmd.map (fun r => { r with started := true, ended := true, codes := r.codes ++ [code],
                                               stop := stops code }) }

/-- The cell executes a command of a job: SPD_OWNER records it (Table 9-6), and the consumers' counters start at 0 when
the job starts on the unit (R183). DESIGN CHOICE (log 38): a job that comes back to a unit after another job's work or a SCRUB,
when SPD_OWNER is not the job, starts there anew; R183 does not say. -/
def Cell.ownJob (x : Cell) (job : BitVec 32) : Cell :=
  { x with spdOwner := job, draws := if x.spdOwner = job then x.draws else [] }

/-- The head of CMD_DISPATCH's command moves to the list of ended commands, so that the next may be dispatched while its
operations go on (R426). -/
def Seq.park (q : Seq) : Seq :=
  match q.cmd with
  | some r => if r.ended then { q with cmd := none, ended := q.ended ++ [r] } else q
  | none => q

/-- RUN (R427, R428, R38): LEN from 1 to 5; a DIVIDE with no dealt tile completes with OK_EMPTY. -/
def State.startCmdRun (s : State) (c : CellIx) (r : CmdRun) : State :=
  s.modCell c (fun x =>
    let x := x.ownJob r.job
    if r.reserved ∨ r.len = 0 ∨ 5 < r.len ∨ r.a.toNat % 8 ≠ 0 ∨ 2 ^ 24 < r.b.toNat ∨ (¬ r.divide ∧ r.b ≠ 0) then
      { x with seq := (x.seq.endCmd ccBadDesc).park }
    else if r.divide ∧ r.b.toNat ≤ r.j then { x with seq := (x.seq.endCmd ccEmpty).park }
    else { x with seq := x.seq.startRun r (if r.divide then r.j else 0) true })

def execRunCmd (c : CellIx) (s : State) : Out :=
  .next (match (s.cell c).fresh 0x01 with
    | some r => onlyIf (s.cellUp c) s (·.startCmdRun c r)
    | none => s)

/-- IMAGE (Table 12-2): the limits, then the items follow; an IMAGE that breaks them writes nothing. -/
def State.startImage (s : State) (c : CellIx) (r : CmdRun) : State :=
  let n := r.b.toNat
  let bad := r.reserved || decide (r.a.toNat % 8 ≠ 0 ∨ n % 8 ≠ 0 ∨ 983008 < n ∨ 0x200000 < r.a.toNat + n ∨
    r.len ≠ 1 + ceilDiv n 15)
  s.modCell c (fun x =>
    let x := x.ownJob r.job
    let ends := !x.cmdq.midHead
    let code := if bad then ccBadDesc else if n = 0 then ccEmpty else ccOk
    { x with seq := ({ x.seq with
      image := some (r.a.toNat, if bad then 0 else n),
      cmd := some { r with started := true, ended := ends, codes := [code], stop := bad } }).park })

def execImageCmd (c : CellIx) (s : State) : Out :=
  .next (match (s.cell c).fresh 0x02 with
    | some r => onlyIf (s.cellUp c) s (·.startImage c r)
    | none => s)

/-- The data item at the head of CMD of an IMAGE in progress: written in its place, or only taken where the IMAGE
writes nothing (R318, R426). The write waits for earlier operations on its rows (R300, R301). -/
def State.imageItem (s : State) (c : CellIx) (r : CmdRun) (i : QItem) : State :=
  let x := s.cell c
  let t := x.seq.image.getD (0, 0)
  let n := if r.stop then 0 else min 15 t.2
  if n ≠ 0 ∧ x.rowBusy true (t.1 / 128) ((t.1 + n - 1) / 128 - t.1 / 128 + 1) then s else
  s.modCell c (fun x =>
    let x := (x.takeCmd 1 s.runTime).overwritten (t.1 / 128) (if n = 0 then 0 else (t.1 + n - 1) / 128 - t.1 / 128 + 1)
    { x with spad := Memory.writeBytes x.spad t.1 ((bytesLE 15 i.payload.toNat).take n),
             seq := ({ x.seq with image := some (t.1 + n, t.2 - n),
                                  cmd := some { r with ended := i.eop } }).park })

def execImageItem (c : CellIx) (s : State) : Out :=
  .next (match (s.cell c).seq.cmd, (s.cell c).cmdq.items with
    | some r, i :: _ => onlyIf (s.cellUp c && decide (r.cmd = 0x02) && r.started && !r.ended) s (·.imageItem c r i)
    | _, _ => s)

/-- A WINDOW command that opens, at a cell or a carcase (R313). -/
def State.openByCmd (s : State) (u : UnitAddr) (item : Payload) (job : BitVec 32) : Code × BitVec 16 × State :=
  s.openWin u (fld item 3 0) (fld item 18 5) (fld item 33 19) (BitVec.ofNat 64 (fld item 97 34)) job

/-- The WINDOW command that waits at unit `u`: at a cell the one dispatched, at a carcase the head of its dispatcher
(Table 12-2). Answers the command and the WINDOW item. -/
def State.windowCmd (s : State) (u : UnitAddr) (close : Bool) : Option (CmdRun × Payload) :=
  let r? := if UA.depth u = 5 then (s.cell (cellIx (UA.index u))).fresh 0x03
    else (s.unit (UA.key u)).disp.head?.map (fun m => cmdOf m 0 1 0)
  match r? with
  | some r => let i := r.body.getD 0 0
    if i.getLsbD 4 = close then some (r, i) else none
  | none => none

/-- The WINDOW command of unit `u` is over, or waits for window `w`'s close. -/
def State.windowDone (s : State) (u : UnitAddr) (r : CmdRun) (code : Code) (wepoch : BitVec 16) (wait : Option Nat) :
    State :=
  if UA.depth u = 5 then
    let c := cellIx (UA.index u)
    let s := s.modSeq c (fun q =>
      let q := { q with cmd := q.cmd.map (fun (r : CmdRun) => { r with wepoch := wepoch }) }
      q.endCmd code)
    let s := match wait with
      | some w => s.addOp c { id := 0, unit := .net, win := some (UA.key u, w), done := false }
      | none => s
    s.modSeq c (·.park)
  else s.modUnit (UA.key u) (fun v =>
    { v with disp := v.disp.drop 1,
             cmds := v.cmds ++ [⟨r.src, r.tag, 0x03, r.job, [], [code], wepoch, wait⟩] })

/-- WINDOW_OPEN_CMD: the OPEN, or the wait for a CLOSING window (R313). -/
def State.windowOpen (s : State) (u : UnitAddr) (r : CmdRun) (item : Payload) : State :=
  let w := fld item 3 0
  let s := if UA.depth u = 5 then s.modCell (cellIx (UA.index u)) (·.ownJob r.job) else s
  if r.reserved ∨ fld item 119 98 ≠ 0 ∨ r.len ≠ 2 then s.windowDone u r ccBadDesc 0 none
  else if (s.win (UA.key u) w).st = .closing then s.modWin (UA.key u) w (fun x => { x with deferred := true })
  else
    match s.openByCmd u item r.job with
    | (code, e, s) => s.windowDone u r code e none

def execWindowOpenCmd (u : UnitAddr) (s : State) : Out :=
  .next (match s.windowCmd u false with
    | some (r, item) => onlyIf (s.local? u && UA.canonical u && s.unitUp u) s (·.windowOpen u r item)
    | none => s)

/-- WINDOW_CLOSE_CMD: the close point; the command completes when the window is free (R324, R325). -/
def State.windowClose (s : State) (u : UnitAddr) (r : CmdRun) (item : Payload) : State :=
  let w := fld item 3 0
  let s := if UA.depth u = 5 then s.modCell (cellIx (UA.index u)) (·.ownJob r.job) else s
  if r.reserved ∨ fld item 119 98 ≠ 0 ∨ r.len ≠ 2 then s.windowDone u r ccBadDesc 0 none
  else
    let s := s.closeWin (UA.key u) w false
    s.windowDone u r ccOk 0 (if (s.win (UA.key u) w).st = .closed then none else some w)

def execWindowCloseCmd (u : UnitAddr) (s : State) : Out :=
  .next (match s.windowCmd u true with
    | some (r, item) => onlyIf (s.local? u && UA.canonical u && s.unitUp u) s (·.windowClose u r item)
    | none => s)

/-- DEFERRED_WINDOW_OPEN: an OPEN that waited for window `w` of `u` acts once it is free (R313, R325): a WINDOW command,
or a stalled WOPEN. -/
def State.deferredOpen (s : State) (u : UnitAddr) (w : Nat) : State :=
  if (s.win (UA.key u) w).st ≠ .closed then s else
  match s.windowCmd u false with
  | some (r, item) =>
    if (s.win (UA.key u) w).deferred ∧ fld item 3 0 = w then
      (s.modWin (UA.key u) w (fun x => { x with deferred := false })).windowOpen u r item
    else s
  | none =>
    let c := cellIx (UA.index u)
    match UA.depth u, (s.cell c).seq.stalled with
    | 5, some (7, .wopen d f) =>
      if ((s.cell c).blockAt f).elim false (fun b => decide (bf b.2 0 3 0 = w)) then
        bodyWopen d f (s.modSeq c (fun q => { q with stalled := none }))
      else s
    | _, _ => s

def execDeferredWindowOpen (u : UnitAddr) (w : Fin 16) (s : State) : Out :=
  .next (onlyIf (s.local? u && UA.canonical u && s.unitUp u) s (·.deferredOpen u w.val))

/-! ### Completion -/

/-- Every operation of the command has completed (R429). -/
def Cell.cmdOpsDone (x : Cell) (r : CmdRun) : Bool := x.ops.all (fun o => decide (o.cmd ≠ r.no))

/-- The first ended command at the cell whose operations have all completed. -/
def Cell.completable (x : Cell) : Option CmdRun :=
  match x.seq.ended.find? (fun r => x.cmdOpsDone r) with
  | some r => some r
  | none =>
    match x.seq.cmd with
    | some r => if r.ended ∧ x.cmdOpsDone r ∧ ¬ x.scrubbing then some r else none
    | none => none

/-- COMMAND_COMPLETE (R429): the code, and the REPLY or the carcase's record. -/
def State.completeCmd (s : State) (c : CellIx) (r : CmdRun) : State :=
  let s := s.modSeq c (fun q =>
    { q with ended := q.ended.filter (fun x => decide (x.no ≠ r.no)),
             cmd := if q.cmd.elim false (fun x => decide (x.no = r.no)) then none else q.cmd,
             hdr := if q.cmd.elim false (fun x => decide (x.no = r.no)) then 0 else q.hdr })
  s.shareDone c r (combineCodes r.codes)

def execCommandComplete (c : CellIx) (s : State) : Out :=
  .next (match (s.cell c).completable with
    | some r => onlyIf (s.cellUp c) s (·.completeCmd c r)
    | none => s)

/-- CARCASE_COMMAND_COMPLETE (R31): every member has completed its share, and what the command waits for is over. -/
def State.carcaseComplete (s : State) (u : UnitAddr) (p : Spread) : State :=
  let s := s.modUnit (UA.key u) (fun v => { v with cmds := v.cmds.erase p })
  s.replyCmd p.src u p.tag p.cmd p.job (carcaseCode p.codes) p.wepoch

def execCarcaseCommandComplete (u : UnitAddr) (tag : BitVec 32) (s : State) : Out :=
  .next (match (s.unit (UA.key u)).cmds.find? (fun p => decide (p.tag = tag ∧ p.left = [] ∧ p.win = none)) with
    | some p => onlyIf (s.local? u && UA.canonical u && s.unitUp u) s (·.carcaseComplete u p)
    | none => s)

/-! ### Scrub -/

/-- SCRUB (R332, R622): the scrub of R329 starts; the record of killed jobs clears. -/
def State.startScrubCmd (s : State) (c : CellIx) (r : CmdRun) : State :=
  if (s.cell c).ops ≠ [] ∨ (s.cell c).seq.ended ≠ [] then s else
  if r.reserved then s.modSeq c (fun q => (q.endCmd ccBadDesc).park)
  else s.modCell c (fun x =>
    { x.startScrub with killed := [], scrubReply := some r })

def execScrubCmd (c : CellIx) (s : State) : Out :=
  .next (match (s.cell c).fresh 0x04 with
    | some r => onlyIf (s.cellUp c) s (·.startScrubCmd c r)
    | none => s)

/-- What a scrub zeroes in a cell (R329), CEL_RQ_STAT and the range record with zeros, not with their reset values. Role, epochs, row map, error counts, killed record, counters, queues' items,
random counters and registers that no rule names stay. -/
def Cell.scrubbed (x : Cell) : Cell :=
  { x with
    spad := [], tile0 := { ({} : Tile) with port := x.tile0.port }, tile1 := { ({} : Tile) with port := x.tile1.port },
    sab := {}, rowTab := [], colTab := [], psnRows := [], zeroCols := [],
    rq := { usedMin := 0, usedMax := 0, wiped := true }, arr := none, ops := [],
    seq := { x.seq with regs := [], retired := 0, running := false, stalled := none, waiting := none,
                        image := none, rand := [] },
    lfuSats := 0, lfuFlushes := 0, doveKremoved := 0, prevKerfed := 0, prevSkips := 0, spdCe := 0, spdOwner := 0,
    cmdq := { x.cmdq with discarded := 0, dropped := 0 }, rplq := { x.rplq with discarded := 0, dropped := 0 },
    scrubbing := false, held := none, cnt := { x.cnt with scrubs := x.cnt.scrubs + 1 } }

/-- SCRUB_END (R329 to R331): the fences and flushes are over; everything is zeroed, the cell's windows are free, the
commands that waited at the router enter CMD, and a SCRUB or kill records the cell's share as complete. -/
def State.endScrub (s : State) (c : CellIx) : State :=
  let k := UA.keyOf 5 c.val
  let r := (s.cell c).scrubReply
  let s := s.modCell c (fun x =>
    let y := { x.scrubbed with scrubReply := none }
    ({ y with cmdq := Queue.fill 64 s.runTime y.cmdq }).fillRpl s.runTime)
  let s := s.modUnit k (fun u => { u with winAccepted := 0, winClosedB := 0, winBoundsB := 0 })
  let s := match r with
    | some _ => s.modSeq c (fun q => (q.endCmd ccOk).park)
    | none => s
  { s with units := s.units.map (fun v =>
      (v.1, { v.2 with cmds := v.2.cmds.map (fun p =>
        if p.cmd = 0x06 ∧ c.val ∈ p.left then { p with left := p.left.erase c.val, codes := p.codes ++ [ccOk] }
        else p) })) }

/-- The fences before a scrub have completed: no window that the cell owns or holds is CLOSING, and no flush of its
queues is pending (R329). -/
def State.scrubFenced (s : State) (c : CellIx) : Bool :=
  let x := s.cell c
  x.scrubbing && !x.cmdq.flushing && !x.rplq.flushing &&
  (List.range 16).all (fun w =>
    (UA.keyOf 5 c.val :: UA.above (s.cellAddr c)).all (fun k => decide ((s.win k w).st ≠ .closing)))

/-- Every window that the cell itself owns reaches its close point (R329). -/
def State.freeWindows (s : State) (c : CellIx) : State :=
  (List.range 16).foldl (fun s w => s.closeWin (UA.keyOf 5 c.val) w false) s

/-- The fences are over: the cell's own windows are closed; one with a write not yet landed is a fence to wait for. -/
def State.finishScrub (s : State) (c : CellIx) : State :=
  let t := s.freeWindows c
  if t.scrubFenced c then t.endScrub c else t

def execScrubEnd (c : CellIx) (s : State) : Out :=
  .next (onlyIf (s.cellUp c && s.scrubFenced c) s (·.finishScrub c))

/-! ### Kill and cut -/

/-- The cell holds work of job J: it executes or last executed a command of it. -/
def Cell.worksOn (x : Cell) (job : BitVec 32) : Bool :=
  decide (x.spdOwner = job) || decide (x.seq.cmd.elim false (fun r => decide (r.job = job))) ||
  x.seq.ended.any (fun r => decide (r.job = job))

/-- The cell stops (R327): its program, operations and drains are over; CMD and RPL are flushed; the job is recorded as
killed; the scrub that follows the fences is due (R329, R352). -/
def Cell.stopped (x : Cell) (job : BitVec 32) : Cell :=
  { x with
    seq := { x.seq with running := false, stalled := none, waiting := none, cmd := none, ended := [], image := none },
    ops := [], arr := none, cmdq := x.cmdq.flush, rplq := x.rplq.flush, scrubbing := true, scrubReply := none,
    held := none, killed := if job ∈ x.killed then x.killed else x.killed ++ [job] }

/-- A kill of job J reaches a cell: the command in progress and those with operations left end with KILLED. -/
def State.killCell (s : State) (c : CellIx) (job : BitVec 32) : State :=
  let x := s.cell c
  if x.worksOn job then
    let killedCmds := x.seq.ended ++ (x.seq.cmd.elim [] (fun r => [r]))
    let s := s.modCell c (·.stopped job)
    let s := { s with mem := { s.mem with storeQ := s.mem.storeQ.filter (fun y => decide (y.2.1 ≠ c.val)) } }
    killedCmds.foldl (fun s r => s.shareDone c r ccKilled) s
  else s.modCell c (fun x => { x with killed := if job ∈ x.killed then x.killed else x.killed ++ [job] })

/-- The windows that a kill of job J at unit `u` closes: those owned by J at `u`, below it, and above it over a cell of
`u` (R328). -/
def State.killWindows (s : State) (u : UnitAddr) (job : BitVec 32) : State :=
  ((UA.key u :: UA.above u) ++ UA.below u).foldl (fun s k =>
    (List.range 16).foldl (fun s w =>
      if (s.win k w).st ≠ .closed ∧ (s.win k w).job = job then s.closeWin k w true else s) s) s

/-- Commands of job J that carcases at or below `u` have spread lose the members the kill reached (R31, R352). -/
def State.killSpreads (s : State) (u : UnitAddr) (job : BitVec 32) : State :=
  { s with units := s.units.map (fun v =>
      (v.1, { v.2 with
        cmds := v.2.cmds.map (fun p =>
          if p.job = job ∧ p.cmd ≠ 0x06 ∧ (p.left.any (fun i => decide (i ∈ UA.cells u))) then
            { p with left := p.left.filter (fun i => decide (i ∉ UA.cells u)), codes := p.codes ++ [ccKilled] }
          else p),
        disp := if v.1 ∈ UA.key u :: UA.below u then
            v.2.disp.filter (fun m => decide (m.job ≠ job.toNat)) else v.2.disp })) }

/-- The REPLY to a waiter or an applied sync operation (R371). -/
def State.replySync (s : State) (w : Waiter) (code : Code) (value : Word) (ovf : Bool) : State :=
  let req : Msg := ⟨s.devAddr, 0, 0x05, w.tag, w.src, 0, false, []⟩
  s.reply req code
    (replyItem (w.obj + w.op.toNat * 2 ^ 16 + w.typ.toNat * 2 ^ 20 + b2n ovf * 2 ^ 22) w.job.toNat value.toNat) []

/-- The value that a REPLY of an object carries: COUNT, GEN or SET, and OVF of a counter (R371). -/
def SyncObj.value : SyncObj → Word
  | .none => 0
  | .counter n _ => n
  | .barrier _ _ g => g.setWidth 64
  | .flag b => if b then 1 else 0
def SyncObj.ovf : SyncObj → Bool
  | .counter _ o => o
  | _ => false

def State.syncObj (s : State) (o : Nat) : SyncObj := SMap.getD s.sync o .none

/-- A kill of job J at a device releases every waiter of J with KILLED (R370). -/
def State.killWaiters (s : State) (job : BitVec 32) : State :=
  let hit := s.waiters.filter (fun w => decide (w.job = job))
  let s := { s with waiters := s.waiters.filter (fun w => decide (w.job ≠ job)) }
  hit.foldl (fun s w =>
    (s.replySync w ccKilled (s.syncObj w.obj).value (s.syncObj w.obj).ovf).modDie (w.obj / 2 ^ 15)
      (fun d => { d with waitersKilled := d.waitersKilled + 1 })) s

/-- KILL at unit `u` (R327 to R331, R352, R370, R622). It completes when every cell below has ended its scrub. -/
def State.kill (s : State) (m : Msg) : State :=
  let u := m.dest
  let job : BitVec 32 := BitVec.ofNat 32 m.job
  let s := s.received m
  if m.fld 0 15 8 ≠ 0 ∨ m.fld 0 119 64 ≠ 0 then
    s.replyCmd m.src u m.tag 0x06 job ccBadDesc 0
  else
    let s := if UA.depth u = 0 then s.killWaiters job else s
    let s := s.killWindows u job
    let s := s.killSpreads u job
    let s := (UA.cells u).foldl (fun s i => s.killCell (cellIx i) job) s
    s.modUnit (UA.key u) (fun v =>
      { v with cmds := v.cmds ++
          [⟨m.src, m.tag, 0x06, job, (UA.cells u).filter (fun i => (s.cell (cellIx i)).scrubbing), [ccOk], 0, none⟩] })

/-- KILL reaches its unit; the routers on the way act in arrival order (R425). -/
def execKillCmd (m : Msg) (s : State) : Out :=
  .next (onlyIf (s.requestOk m 0x01 && decide (m.fld 0 7 0 = 0x06)) s (fun s => s.arrival m (·.kill m)))

/-- A cut acts on a tile of its job and layer that has begun and takes lookups still; one CLOSING, DRAINING or EMPTY it leaves
alone (R252, R254). -/
def Tile.cutBy (t : Tile) (k : CutRec) : Tile :=
  if (t.st = .loading ∨ t.st = .filling) ∧ k.job = t.job ∧ (k.layer = none ∨ k.layer = some t.layer) then { t with cut := true }
  else t

/-- A cut is recorded at a cell, once (R252, R254). CUTS counts it. -/
def Cell.recordCut (x : Cell) (k : CutRec) : Cell :=
  if k ∈ x.cutRecs then x
  else { x with cutRecs := x.cutRecs ++ [k], tile0 := x.tile0.cutBy k, tile1 := x.tile1.cutBy k,
                cnt := { x.cnt with cuts := x.cnt.cuts + 1 } }

/-- Body item 0 of a command in CMD names the job, and the layer where one is asked for (Table 12-1). -/
def Queue.holdsJob (q : Queue) (job : BitVec 32) (layer : Option (BitVec 16)) : Bool :=
  let l := q.items ++ q.inflow
  (l.zip (l.drop 1)).any (fun x => decide (x.1.kind = 0x02 ∧ x.2.kind = 0x03 ∧ fld x.2.payload 47 16 = job.toNat) &&
    layer.elim true (fun k => decide (fld x.2.payload 63 48 = k.toNat)))

/-- The cell holds work of a job, or of one layer of it: a command in progress or in CMD, or a tile (R252, R254). -/
def Cell.holdsWork (x : Cell) (job : BitVec 32) (layer : Option (BitVec 16)) : Bool :=
  (x.seq.ended ++ x.seq.cmd.toList).any (fun r => decide (r.job = job) && layer.elim true (fun k => decide (r.layer = k))) ||
  x.cmdq.holdsJob job layer ||
  [x.tile0, x.tile1].any (fun t => decide (t.st ≠ .empty ∧ t.job = job) && layer.elim true (fun k => decide (t.layer = k)))

/-- A cut of a job at a unit that holds work of it, with scope JOB or LAYER: every cell of the unit records it, for its tiles
in progress and those not yet begun (R252, R254). -/
def State.cut (s : State) (u : UnitAddr) (job : BitVec 32) (layer : Option (BitVec 16)) : State :=
  if (UA.cells u).any (fun i => (s.cell (cellIx i)).holdsWork job layer) then
    s.modCells (UA.cells u) (fun x => x.recordCut ⟨job, layer⟩)
  else s

/-- CUT (R252, R254, R425): it completes with OK when every member has recorded it. -/
def State.cutCmd (s : State) (m : Msg) : State :=
  let job : BitVec 32 := BitVec.ofNat 32 m.job
  let s := s.received m
  if m.fld 0 15 8 ≠ 0 ∨ m.fld 0 119 65 ≠ 0 then s.replyCmd m.src m.dest m.tag 0x05 job ccBadDesc 0
  else
    let layer := if (m.body.getD 0 0).getLsbD 64 then some (BitVec.ofNat 16 (m.fld 0 63 48)) else none
    (s.cut m.dest job layer).replyCmd m.src m.dest m.tag 0x05 job ccOk 0

def execCutCmd (m : Msg) (s : State) : Out :=
  .next (onlyIf (s.requestOk m 0x01 && decide (m.fld 0 7 0 = 0x05)) s (fun s => s.arrival m (·.cutCmd m)))

/-! ### Arrival -/

/-- The copy of a command's packet at a member cell: at the router, then into CMD while it has room; it waits while the
cell scrubs (R331, R343). -/
def Cell.enqueueCmd (x : Cell) (now : Word) (l : List QItem) : Cell :=
  let q := { x.cmdq with inflow := x.cmdq.inflow ++ l }
  { x with cmdq := if x.scrubbing then q else Queue.fill 64 now q }

/-- A COMMAND that passed the epoch check enters CMD of its cell, waits at the dispatcher of its carcase (WINDOW), or is
spread to every member (R30, R36, R57, Table 12-2). -/
def State.acceptCommand (s : State) (m : Msg) : State :=
  let s := s.received m
  let u := m.dest
  if UA.depth u = 5 then s.modCell (cellIx (UA.index u)) (·.enqueueCmd s.runTime m.items)
  else if m.fld 0 7 0 = 0x03 then s.modUnit (UA.key u) (fun v => { v with disp := v.disp ++ [m] })
  else
    let s := s.modUnit (UA.key u) (fun v =>
      { v with cmds := v.cmds ++ [⟨m.src, m.tag, BitVec.ofNat 8 (m.fld 0 7 0), BitVec.ofNat 32 m.job, UA.cells u, [], 0, none⟩] })
    s.modCells (UA.cells u) (·.enqueueCmd s.runTime m.items)

/-- A RUN of this device's driver is sent only when its layer may run in cells (R21, R407). -/
def State.driverSends (s : State) (m : Msg) : Bool :=
  decide (m.fld 0 7 0 ≠ 0x01 ∨ m.src ≠ s.devAddr) ||
  s.sendsLayer (BitVec.ofNat 32 (m.fld 0 47 16)) (BitVec.ofNat 16 (m.fld 0 63 48))

/-- COMMAND_ARRIVAL (R57): CUT and KILL act at the routers instead (R425). -/
def execCommandArrival (m : Msg) (s : State) : Out :=
  .next (onlyIf (s.requestOk m 0x01 && decide (m.fld 0 7 0 ≠ 0x05 ∧ m.fld 0 7 0 ≠ 0x06) && s.driverSends m) s
    (fun s => s.arrival m (·.acceptCommand m)))

/-! ### Roles -/

/-- A role change at a unit and every unit below it (R53 to R55). -/
def State.setRole (s : State) (u : UnitAddr) (role : BitVec 8) : State :=
  (UA.key u :: UA.below u).foldl (fun s k =>
    s.modUnit k (fun v => { v with role := role, epoch := v.epoch + 1 })) s

/-- Links announce a change of the device's role or epoch at once (R537). -/
def Net.announce (n : Net) : Net := { n with links := n.links.map (fun l => (l.1, { l.2 with helloDue := true })) }

/-- A ROLE_SET that passed the epoch check: an invalid code is rejected with BAD_DESC (R53). DESIGN CHOICE (log 41): a body
with no item reads as zero, hence as code 0 (IDLE), and bits of item 0 above [7:0] are ignored; R53 speaks of neither. -/
def State.roleSet (s : State) (m : Msg) : State :=
  let role : BitVec 8 := BitVec.ofNat 8 (m.fld 0 7 0)
  if 4 < role.toNat then s.bounce m ccBadDesc
  else
    let s := (s.received m).setRole m.dest role
    if UA.depth m.dest = 0 then { s with net := s.net.announce } else s

def execRoleSet (m : Msg) (s : State) : Out :=
  .next (onlyIf (s.requestOk m 0x07) s (fun s => s.arrival m (·.roleSet m)))

end Sys2Proof.Machine
end

