-- ==== Sys2Proof/Machine/Groups.lean ====
section
/-! DEFINITION. Tile groups in storage: directory entries and their cache (R196 to R204), stored forms (R197 to R200),
slot form (R211, R212), SPILL messages (R515, R516). -/

namespace Sys2Proof.Machine

open Sys2Proof

/-! ### Directory entries (Table 6-2), as two words -/

def Ent2.base (lo : Word) : Nat := fld lo 39 0
def Ent2.bitmap (lo hi : Word) : Nat := fld lo 63 40 + fld hi 39 0 * 2 ^ 24
def Ent2.valid (hi : Word) : Bool := hi.getLsbD 40
def Ent2.dense (hi : Word) : Bool := hi.getLsbD 41
def Ent2.loc (hi : Word) : Nat := fld hi 43 42
def Ent2.psnAny (hi : Word) : Bool := hi.getLsbD 44
def Ent2.count (hi : Word) : Nat := fld hi 63 48

/-- The two words of an entry. -/
def Ent2.mk (base bitmap : Nat) (dense : Bool) (loc : Nat) (psn : Bool) (count : Nat) : Word × Word :=
  (BitVec.ofNat 64 (base % 2 ^ 40 + bitmap % 2 ^ 24 * 2 ^ 40),
   BitVec.ofNat 64 (bitmap / 2 ^ 24 % 2 ^ 40 + 2 ^ 40 + b2n dense * 2 ^ 41 + loc % 4 * 2 ^ 42 + b2n psn * 2 ^ 44
     + count % 2 ^ 16 * 2 ^ 48))

/-- Bits set below position `n`. -/
def popBelow (x n : Nat) : Nat := (List.range n).countP (fun i => x.testBit i)

/-- An entry that a fetch accepts, for stored width `w` (R197, R201). -/
def Ent2.ok (w : Nat) (lo hi : Word) : Bool :=
  if !Ent2.valid hi then decide (lo = 0 ∧ hi = 0)
  else decide (Ent2.loc hi ≠ 3 ∧ fld hi 47 45 = 0) &&
    decide (Ent2.count hi =
      if Ent2.dense hi then denseSize w + b2n (Ent2.psnAny hi) else popBelow (Ent2.bitmap lo hi) 64 * unitPitch w)

/-- The entry of a directory index (R506). -/
def MemSys.entry (m : MemSys) (dix : Nat) : Word × Word :=
  (Memory.readWord m.mem (m.dirAddr dix), Memory.readWord m.mem (m.dirAddr dix + 8))

/-- An access of the entry at its home die's cache: hit or miss, and the set in LRU order, latest first (R202). -/
def State.dirAccess (s : State) (dix : Nat) : State :=
  let k := dix % 2 * 131072 + dix / 2 % 131072
  let ways := SMap.getD s.mem.dirc k []
  let hit := decide (dix ∈ ways)
  let s := { s with mem := { s.mem with dirc := SMap.set s.mem.dirc k ((dix :: ways.erase dix).take 16) } }
  s.modDie (dix % 2) (fun d =>
    if hit then { d with dircHits := d.dircHits + 1 } else { d with dircMisses := d.dircMisses + 1 })

/-- The entry is replaced as one action, in the cache and in memory (R203, R204); the storage that the old entry named
waits for its release (R205, R206). -/
def State.replaceEntry (s : State) (dix : Nat) (e : Word × Word) : State :=
  let old := s.mem.entry dix
  let s := s.dirAccess dix
  let a := s.mem.dirAddr dix
  let m := Memory.writeWord (Memory.writeWord s.mem.mem a e.1) (a + 8) e.2
  { s with mem := { s.mem with
      mem := m,
      replaced := if Ent2.valid old.2 then
          s.mem.replaced ++ [(Ent2.key old.1 old.2, Ent2.count old.2, dix % 2)] else s.mem.replaced } }

/-! ### K presence (06) -/

/-- kmask(). -/
def kmask (present : Nat) : Nat :=
  (List.range 16).foldl (fun a kb => if present / 2 ^ (4 * kb) % 16 ≠ 0 then a + 2 ^ kb else a) 0

/-- dovetail_keep(). -/
def dovetailKeep (act wgt : Nat) : Nat := kmask act &&& kmask wgt

/-- Every block of the K-blocks of a mask. -/
def expandK (km : Nat) : Nat :=
  (List.range 16).foldl (fun a kb => if km.testBit kb then a + 0xF * 2 ^ (4 * kb) else a) 0

/-! ### Poison of FP32 and L16 values (R719; log 24) -/

/-- The words of quarter row `h`, 32 bytes. -/
def Cell.partWords (x : Cell) (h : Nat) : List Word := (List.range 4).map (fun i => Memory.readWord x.spad (32 * h + 8 * i))

/-- The quarter row holds values of a poisoned block: it is marked, and still holds the words that were marked. -/
def Cell.partPoison (x : Cell) (h : Nat) : Bool := decide (SMap.get? x.psnRows h = some (x.partWords h))

/-- Mark a quarter row, or take its mark away. -/
def Cell.markPart (x : Cell) (h : Nat) (psn : Bool) : Cell :=
  { x with psnRows := if psn then SMap.set x.psnRows h (x.partWords h) else SMap.erase x.psnRows h }

/-- The quarter rows that hold the block of 16 values from value `i` of the rows from `r` on. -/
def blockParts (l16 : Bool) (r i : Nat) : List Nat :=
  if l16 then [4 * r + i / 16] else [4 * r + 2 * (i / 16), 4 * r + 2 * (i / 16) + 1]

def Cell.blockPoison (x : Cell) (l16 : Bool) (r i : Nat) : Bool := (blockParts l16 r i).any x.partPoison

def Cell.markBlock (x : Cell) (l16 : Bool) (r i : Nat) (psn : Bool) : Cell :=
  (blockParts l16 r i).foldl (fun x h => x.markPart h psn) x

/-- The quarter rows of slot `i`. -/
def slotParts (g w i : Nat) : List Nat := (List.range (unitPitch w * 2)).map (slotAddr g w i / 32 + ·)

/-! ### Stored forms -/

/-- The blocks that a fetch delivers from storage whose unit `u` reads as `rd u`: the index, the poison bit and the
bytes of every stored block of the mask (R197, R200, R209). -/
def decodeBlocks (rd : Nat → List Byte × BitVec 2) (w bitmap : Nat) (dense psnAny : Bool) (mask : Nat) :
    List (Nat × Bool × List Byte) :=
  let n := blockBytes w
  let trailer := if dense ∧ psnAny then ofBytesLE ((rd (denseSize w)).1.take 8) else 0
  ((List.range 64).filter (fun i => mask.testBit i && bitmap.testBit i)).map (fun i =>
    let start := if dense then i * n else popBelow bitmap i * unitPitch w * 64
    let us := (List.range ((start + n - 1) / 64 - start / 64 + 1)).map (fun j => rd (start / 64 + j))
    (i, trailer.testBit i || us.any (fun u => u.2.getLsbD 0), ((us.flatMap (·.1)).drop (start % 64)).take n))

/-- The units that a fetch of the mask reads, in order. -/
def unitsRead (w bitmap : Nat) (dense : Bool) (mask : Nat) : List Nat :=
  let n := blockBytes w
  (((List.range 64).filter (fun i => mask.testBit i && bitmap.testBit i)).flatMap (fun i =>
    let start := if dense then i * n else popBelow bitmap i * unitPitch w * 64
    (List.range ((start + n - 1) / 64 - start / 64 + 1)).map (fun j => start / 64 + j))).dedup

/-- The HEAD tag that a unit of a group carries (R200). -/
def headTag (w : Nat) (dense : Bool) (u : Nat) : Bool := decide (if dense then u = 0 else u % unitPitch w = 0)

/-- The stored form of a group: dense or compacted (R198), and its units with their tags (R197, R199, R200). -/
def encodeGroup (w bitmap poison : Nat) (block : Nat → List Byte) : Bool × List (List Byte × BitVec 2) :=
  let n := blockBytes w
  let c := popBelow bitmap 64
  let pad (l : List Byte) (k : Nat) : List Byte := l ++ List.replicate (k - l.length) 0
  if denseSize w < c * unitPitch w then
    let bytes := (List.range 64).flatMap (fun i => if bitmap.testBit i then block i else List.replicate n 0)
    let units := (List.range (denseSize w)).map (fun u =>
      ((bytes.drop (64 * u)).take 64, (if u = 0 then 2 else 0 : BitVec 2)))
    (true, units ++ if poison = 0 then [] else [(pad (bytesLE 8 poison) 64, 0)])
  else
    (false, ((List.range 64).filter (fun i => bitmap.testBit i)).flatMap (fun i =>
      let bytes := pad (block i) (unitPitch w * 64)
      (List.range (unitPitch w)).map (fun u =>
        ((bytes.drop (64 * u)).take 64,
         BitVec.ofNat 2 (b2n (poison.testBit i) + 2 * b2n (decide (u = 0)))))))

/-- A group written into slot form: the header, every delivered block, zeros for every absent one of the mask (R211,
R212). -/
def writeGroup (m : List Host.Cell) (row w mask : Nat) (blocks : List (Nat × Bool × List Byte)) : List Host.Cell :=
  let present := blocks.foldl (fun a b => a + 2 ^ b.1) 0
  let poison := blocks.foldl (fun a b => a + b2n b.2.1 * 2 ^ b.1) 0
  let m := Memory.writeNat (Memory.writeNat m (128 * row) 8 present) (128 * row + 8) 8 poison
  let m := Memory.zero m (128 * row + 16) 112
  let z := unitPitch w * 64
  (List.range 64).foldl (fun m i =>
    if mask.testBit i then
      match blocks.find? (fun b => decide (b.1 = i)) with
      | some b => Memory.writeBytes m (slotAddr row w i) (b.2.2 ++ List.replicate (z - b.2.2.length) 0)
      | none => Memory.zero m (slotAddr row w i) z
    else m) m

/-- Blocks delivered into the scratchpads of cells, values of 16 and 32 bits with the poison of their block (R719); ABSENT_DELIVERED and FETCH_BLOCKS count (Tables 6-5, 18-1). -/
def State.deliver (s : State) (cells : List Nat) (row w mask : Nat) (blocks : List (Nat × Bool × List Byte)) : State :=
  let n := popBelow mask 64
  s.modCells cells (fun x =>
    let x := x.overwritten row (groupRows w)
    let x := { x with spad := writeGroup x.spad row w mask blocks }
    let x := if w < 16 then x
      else blocks.foldl (fun x b => (slotParts row w b.1).foldl (fun x h => x.markPart h b.2.1) x) x
    { x with cnt := { x.cnt with absentDelivered := x.cnt.absentDelivered + BitVec.ofNat 64 (n - blocks.length),
                                 fetchBlocks := x.cnt.fetchBlocks + BitVec.ofNat 64 n } })

/-! ### Units of device memory and of level 4 -/

/-- Unit `u` of device memory with its tag. -/
def MemSys.readUnit (m : MemSys) (u : Nat) : List Byte × BitVec 2 :=
  (Memory.readBytes m.mem (64 * u) 64, SMap.getD m.tags u 0)

/-- What a read of unit `u` meets, with the symbols found in error (R501, R502). -/
def MemSys.unitErr (m : MemSys) (u : Nat) (e : List UnitFlip) : ReadErr :=
  rsErr (m.readUnit u).1 (m.readUnit u).2 u e

/-- The channel of a unit: 40 × die + the physical channel that holds it (R505). -/
def MemSys.chanOf (m : MemSys) (u : Nat) : Nat :=
  let d := u / 64 % 2
  let live := (List.range 40).filter (fun c => decide (SMap.getD m.chans (40 * d + c) .full ≠ .retired))
  40 * d + live.getD ((u / 128 * 16 + u % 64 / 4) % live.length) 0

/-- A unit crosses between its channel's controller and the PHY: out on a write, in on a read, with what the read met. -/
def Fifos.passPhy (f : Fifos) (ch : Nat) (out : Bool) (e : PhyEntry) : Fifos :=
  if out then { f with phyOut := SMap.set f.phyOut ch (ClockFifo.pass 32 (SMap.getD f.phyOut ch {}) e) }
  else { f with phyIn := SMap.set f.phyIn ch (ClockFifo.pass 32 (SMap.getD f.phyIn ch {}) e) }

/-- Units from `base` up cross, as memory now holds them. -/
def State.passUnits (s : State) (out : Bool) (us : List Nat) (e : List UnitFlip) : State :=
  { s with fifo := us.foldl (fun f u =>
      let x := s.mem.readUnit u
      f.passPhy (s.mem.chanOf u) out ⟨x.1, x.2, s.mem.unitErr u e⟩) s.fifo }

def MemSys.writeUnit (m : MemSys) (u : Nat) (x : List Byte × BitVec 2) : MemSys :=
  { m with mem := Memory.writeBytes m.mem (64 * u) x.1, tags := SMap.put m.tags u x.2 0 }

/-- Units written from `u` up. -/
def MemSys.writeUnits : MemSys → Nat → List (List Byte × BitVec 2) → MemSys
  | m, _, [] => m
  | m, u, x :: t => (m.writeUnit u x).writeUnits (u + 1) t

/-- Unit `u` of level 4 with its tag (R520). -/
def State.wsUnit (s : State) (u : Nat) : List Byte × BitVec 2 :=
  (Memory.readBytes s.mem.wsMem (s.wsBase + 64 * u) 64,
   BitVec.ofNat 2 ((Memory.read s.mem.wsMem (s.wsBase + 64 * s.wsUnits + u / 4)).toNat / 2 ^ (2 * (u % 4))))

def State.writeWsUnit (s : State) (u : Nat) (x : List Byte × BitVec 2) : State :=
  let a := s.wsBase + 64 * s.wsUnits + u / 4
  let k := 2 ^ (2 * (u % 4))
  let old := (Memory.read s.mem.wsMem a).toNat
  let m := Memory.writeBytes s.mem.wsMem (s.wsBase + 64 * u) x.1
  { s with mem := { s.mem with
      wsMem := Memory.write m a (BitVec.ofNat 8 (old - old / k % 4 * k + x.2.toNat * k)) } }

def State.writeWsUnits : State → Nat → List (List Byte × BitVec 2) → State
  | s, _, [] => s
  | s, u, x :: t => (s.writeWsUnit u x).writeWsUnits (u + 1) t

/-! ### SPILL messages (Table 14-7, R516) -/

def spillItem0 (op offset size units uoff : Nat) : Payload :=
  BitVec.ofNat 120 (op % 16 + offset % 2 ^ 24 * 2 ^ 4 + size % 8 * 2 ^ 28 + units % 2 ^ 11 * 2 ^ 31 + uoff % 2 ^ 10 * 2 ^ 42)

/-- log2 of the extent size in KiB that holds `n` units (R514). -/
def sizeLog (n : Nat) : Nat := Nat.log2 (pow2Up (ceilDiv n 16))

/-- The five items of a unit. -/
def unitItems (x : List Byte × BitVec 2) : List Payload :=
  packItems 4 (x.1.take 60) ++ [BitVec.ofNat 120 (ofBytesLE (x.1.drop 60) % 2 ^ 32 + x.2.toNat * 2 ^ 32)]

/-- The units that items hold. -/
def unitsOf : List Payload → List (List Byte × BitVec 2)
  | a :: b :: c :: d :: e :: t =>
    (unpackItems [a, b, c, d] ++ bytesLE 4 (e.toNat % 2 ^ 32), BitVec.ofNat 2 (fld e 33 32)) :: unitsOf t
  | _ => []

/-- The epoch that SPILL_TARGETS holds for a device (R515). -/
def State.targetEpoch (s : State) (dev : Nat) : Nat :=
  ((List.range 16).find? (fun i => decide (s.spillTarget i % 2 ^ 16 = dev ∧ (s.spillTarget i).testBit 63))).elim 0
    (fun i => s.spillTarget i / 2 ^ 16 % 2 ^ 16)

/-- The home die sends a SPILL message; where the links do not reach the device, LINK fires and the message waits
(R515, R519). -/
def State.sendSpill (s : State) (dev : Nat) (tag : BitVec 32) (item : Payload) (more : List Payload) : State :=
  let dest := UA.mk (BitVec.ofNat 16 dev) 0
  let s := if s.unreachable dest then s.fireStatus srcLink else s
  s.sendMsg { dest := dest, epoch := BitVec.ofNat 16 (s.targetEpoch dev), cls := 0x06, tag := tag, src := s.devAddr,
              code := 0, bounced := false, body := item :: more }

end Sys2Proof.Machine
end

