-- ==== Sys2Proof/Machine/Blocks.lean ====
section
/-! DEFINITION. Group fetches, stores, frees and entry reads (R201 to R212, R218, R445 to R448, R508 to R520), the
BLOCK_FETCH message (R39, R40), and what a SPILL answer continues. -/

namespace Sys2Proof.Machine

open Sys2Proof

/-! ### Fetch -/

/-- The operand rules of a FETCH or STORE block (R201, R444, Table 11-9): the form, the index, the rows. -/
def State.groupOk (s : State) (b : List Word) : Bool :=
  let w := storedWidth (bf b 2 17 14) (bf b 2 19 18)
  formOk (bf b 2 17 14) (bf b 2 19 18) && decide (bf b 0 31 0 < s.mem.dirEntries) &&
  decide (bf b 2 13 0 + groupRows w ≤ 16384)

/-- The stored width of a FETCH or STORE block. -/
def blockWidth (b : List Word) : Nat := storedWidth (bf b 2 17 14) (bf b 2 19 18)

/-- The request mask: ANDed with that of R218 when INTERSECT is set. -/
def fetchMask (spad : List Host.Cell) (b : List Word) (bitmap : Nat) : Nat :=
  let m := (b.getD 1 0).toNat
  if bb b 0 37 then m &&& expandK (dovetailKeep (presentOf spad (bf b 2 33 20)) bitmap) else m

/-- What the read of a group's units met: the blocks to deliver, the state with its counts, and the unit that is lost
(R501, R502). The bytes of a lost unit are free values; its block is delivered poisoned once it is released
(R624). -/
def State.readGroup (s : State) (c : Option CellIx) (lo hi : Word) (w mask : Nat) (e : List UnitFlip) :
    List (Nat × Bool × List Byte) × Option Nat × State :=
  let base := Ent2.base lo
  let map := Ent2.bitmap lo hi
  let us := unitsRead w map (Ent2.dense hi) mask
  let err (u : Nat) : ReadErr := s.mem.unitErr (base + u) e
  match us.find? (fun u => decide ((s.mem.readUnit (base + u)).2.getLsbD 1 ≠ headTag w (Ent2.dense hi) u ∨
      err u = .uncorrectable)) with
  | some u =>
    let k := s.free
    let rd (v : Nat) : List Byte × BitVec 2 :=
      if v = u then ((List.range 64).map (Config.freeBytes k), 1) else s.mem.readUnit (base + v)
    let s := s.passUnits false (us.map (base + ·)) e
    (decodeBlocks rd w map (Ent2.dense hi) (Ent2.psnAny hi) mask, some (base + u), s.useFree.unitLost c (base + u))
  | none =>
    let bl := decodeBlocks (fun u => s.mem.readUnit (base + u)) w map (Ent2.dense hi) (Ent2.psnAny hi) mask
    let s := s.passUnits false (us.map (base + ·)) e
    (bl, none, (us.filter (fun u => decide (err u = .corrected))).foldl (fun s u => s.unitCorrected (base + u)) s)

/-- The code of an operation that writes blocks: OK_POISON when one is poisoned (R128). -/
def poisonCode (blocks : List (Nat × Bool × List Byte)) : Code :=
  if blocks.any (·.2.1) then ccPoison else ccOk

/-- The tag of the SPILL messages that an operation of a cell, or a unit, sends (DESIGN CHOICE, log 18). -/
def opTag (c : CellIx) (k : Nat) : BitVec 32 := BitVec.ofNat 32 (2 ^ 31 + c.val * 2 ^ 20 + k % 2 ^ 20)
def unitTag (key : Nat) : BitVec 32 := BitVec.ofNat 32 (3 * 2 ^ 30 + key / 2 ^ 24)

/-- The READ of a group at level 3 (R515, R516). -/
def State.sendRead (s : State) (tag : BitVec 32) (lo hi : Word) : State :=
  let base := Ent2.base lo
  s.sendSpill (base / 2 ^ 24) tag
    (spillItem0 4 (base % 2 ^ 24) (sizeLog (Ent2.count hi)) (Ent2.count hi) 0) []

/-- A fetch into one cell, its entry read: the operation with what it delivers or waits for (R205, R209, R212). -/
def State.startFetch (s : State) (c : CellIx) (o : UnitOp) (lo hi : Word) (mask : Nat) (e : List UnitFlip) : State :=
  let w := blockWidth o.block
  let row := bf o.block 2 13 0
  let o := { o with extents := if Ent2.valid hi then [Ent2.key lo hi] else [] }
  let wait (x : WaitFor) : UnitOp := { o with done := false, spill := some { what := x, lo := lo, hi := hi } }
  if mask &&& Ent2.bitmap lo hi = 0 ∨ Ent2.loc hi = 0 then
    match s.readGroup (some c) lo hi w mask e with
    | (bl, bad, s) =>
      let s := s.deliver [c.val] row w mask bl
      match bad with
      | some u => s.addOp c { wait (.lost u) with code := poisonCode bl }
      | none => s.addOp c { o with code := poisonCode bl }
  else if Ent2.loc hi = 1 then
    let s := s.addOp c (wait .read)
    s.sendRead (opTag c (s.lastOp c)) lo hi
  else if s.pcie.bme then
    let bl := decodeBlocks (fun u => s.wsUnit (Ent2.base lo + u)) w (Ent2.bitmap lo hi) (Ent2.dense hi)
      (Ent2.psnAny hi) mask
    (s.deliver [c.val] row w mask bl).addOp c { o with code := poisonCode bl }
  else s.addOp c (wait .bus)

/-- FETCH (R209, R218, R444 to R446). -/
def bodyFetch (c : CellIx) (f : InsFields) (e : List UnitFlip) (s : State) : State :=
  s.guarded c (.fetch c f e) [f.ra] [] [] (fun s =>
    s.withBlock c f (.fetch c f e) maskFetch (fun b s =>
      let dix := bf b 0 31 0
      let mcd := bf b 0 35 32
      let rows := (bf b 2 13 0, groupRows (blockWidth b))
      let src := if bb b 0 37 then [(bf b 2 33 20, 1)] else []
      if !s.groupOk b || (bb b 0 36 && decide (5 ≤ mcd)) then s.finish c ccBadDesc
      else if b.getD 1 0 = 0 then s.finish c ccEmpty
      else s.guarded c (.fetch c f e) [] src [rows] (fun s =>
        let o : UnitOp := { id := 0, unit := .fetch, reads := src, writes := [rows], block := b.take 4 }
        if bb b 0 36 then
          let n := (s.cell c).seq.cmd.elim 0 (fun r => SMap.getD r.joins mcd 0)
          let s := s.addOp c { o with done := false, joinDepth := mcd + 1, joinNo := n }
          (s.modSeq c (fun q => { q with cmd := q.cmd.map (fun (r : CmdRun) =>
            { r with joins := SMap.set r.joins mcd (n + 1) }) })).retire c
        else
          let s := s.dirAccess dix
          let t := s.mem.entry dix
          let mask := fetchMask (s.cell c).spad b (Ent2.bitmap t.1 t.2)
          if !Ent2.ok (blockWidth b) t.1 t.2 then s.finish c ccBadDesc
          else if mask = 0 then s.finish c ccEmpty
          else (s.startFetch c o t.1 t.2 mask e).retire c)))

/-! ### Joined fetches (R445 to R448) -/

/-- Two members' joined fetches agree (R447). -/
def sameFetch (a b : List Word) : Bool :=
  decide (bf a 0 31 0 = bf b 0 31 0 ∧ a.getD 1 0 = b.getD 1 0 ∧ bb a 0 37 = bb b 0 37 ∧ bf a 2 19 0 = bf b 2 19 0)

/-- The joined fetch of a cell that arrives next at its router. -/
def Cell.joining (x : Cell) : Option UnitOp :=
  x.ops.find? (fun o => decide (o.joinDepth ≠ 0 ∧ ¬ o.done ∧ o.spill = none))

/-- The members of a command below a router: the cells of both. -/
def joinMembers (router dest : UnitAddr) : List Nat :=
  (UA.cells router).filter (fun i => decide (i ∈ UA.cells dest))

/-- A member has its copy, or ends without one: the router holds none for it. -/
def State.leaveJoin (s : State) (c : CellIx) (key : Nat) (j : JoinRec) : State :=
  s.modUnit key (fun u =>
    let l := u.joins.map (fun (k : JoinRec) => if k = j then { k with left := k.left.erase c.val } else k)
    { u with joins := l.filter (fun k => decide (k.left ≠ [])) })

/-- A member's copy is written: its operation is complete, or waits for the release of a lost unit (R624), and the router holds
none for it. -/
def State.copyJoined (s : State) (c : CellIx) (o : UnitOp) (key : Nat) (j : JoinRec)
    (bl : List (Nat × Bool × List Byte)) : State :=
  let s := s.deliver [c.val] (bf o.block 2 13 0) (blockWidth o.block) j.mask bl
  let lost := j.lost.filter (fun u => decide (u ∈ s.mem.lost))
  let s := s.modCell c (fun x => x.modOp o.id (fun o =>
    { o with done := lost.isNone, spill := lost.map (fun u => { what := .lost u }), code := poisonCode bl }))
  s.leaveJoin c key j

/-- A member's fetch ends without a copy. -/
def State.endJoined (s : State) (c : CellIx) (o : UnitOp) (key : Nat) (j : JoinRec) (code : Code) : State :=
  (s.modCell c (fun x => x.modOp o.id (fun o => { o with done := true, spill := none, code := code }))).leaveJoin c key j

/-- The first member's n-th fetch: the router reads the entry and the blocks once (R446). An entry that R201 refuses, or a mask
that INTERSECT leaves empty (R209), ends the fetch of every member. -/
def State.firstJoined (s : State) (c : CellIx) (o : UnitOp) (r : CmdRun) (key : Nat) (router : UnitAddr) (e : List UnitFlip) :
    State :=
  let dix := bf o.block 0 31 0
  let s := s.dirAccess dix
  let t := s.mem.entry dix
  let mask := fetchMask (s.cell c).spad o.block (Ent2.bitmap t.1 t.2)
  let w := blockWidth o.block
  let j : JoinRec := ⟨r.src, r.tag, o.joinNo, o.block, mask, t.1, t.2, none, joinMembers router r.dest, none, none⟩
  let hold (s : State) (j : JoinRec) : State := s.modUnit key (fun u => { u with joins := u.joins ++ [j] })
  let give (s : State) (j : JoinRec) (bl : List (Nat × Bool × List Byte)) : State :=
    let j := { j with blocks := some bl }
    (hold s j).copyJoined c o key j bl
  let refuse (code : Code) : State :=
    let j := { j with blocks := some [], ends := some code, lo := 0, hi := 0 }
    (hold s j).endJoined c o key j code
  if !Ent2.ok w t.1 t.2 then refuse ccBadDesc
  else if mask = 0 then refuse ccEmpty
  else if mask &&& Ent2.bitmap t.1 t.2 = 0 ∨ Ent2.loc t.2 = 0 then
    match s.readGroup (some c) t.1 t.2 w mask e with
    | (bl, lost, s) => give s { j with lost := lost } bl
  else if Ent2.loc t.2 = 1 then
    let s := (hold s j).modCell c (fun x => x.modOp o.id (fun o =>
      { o with spill := some { what := .read, lo := t.1, hi := t.2 } }))
    s.sendRead (opTag c o.id) t.1 t.2
  else if s.pcie.bme then
    give s j (decodeBlocks (fun u => s.wsUnit (Ent2.base t.1 + u)) w (Ent2.bitmap t.1 t.2) (Ent2.dense t.2)
      (Ent2.psnAny t.2) mask)
  else s

/-- JOINED_FETCH_ARRIVAL: the cell's next joined fetch reaches its router (R446, R447); beyond 64 held it waits
(R448). -/
def State.joinArrive (s : State) (c : CellIx) (o : UnitOp) (r : CmdRun) (e : List UnitFlip) : State :=
  let key := UA.keyOf (o.joinDepth - 1) c.val
  let router := UA.mk s.net.devId key
  match (s.unit key).joins.find? (fun j =>
      decide (j.src = r.src ∧ j.tag = r.tag ∧ j.n = o.joinNo ∧ c.val ∈ j.left)) with
  | some j =>
    if !sameFetch j.block o.block then s.endJoined c o key j ccBadDesc
    else
      match j.ends, j.blocks with
      | some code, _ => s.endJoined c o key j code
      | none, some bl => s.copyJoined c o key j bl
      | none, none => s
  | none => if 64 ≤ (s.unit key).joins.length then s else s.firstJoined c o r key router e

/-- The command that issued an operation. -/
def Cell.cmdNo (x : Cell) (n : Nat) : Option CmdRun :=
  (x.seq.cmd.toList ++ x.seq.ended).find? (fun r => decide (r.no = n))

def execJoinedFetchArrival (c : CellIx) (e : List UnitFlip) (s : State) : Out :=
  .next (match (s.cell c).joining with
    | some o =>
      match (s.cell c).cmdNo o.cmd with
      | some r => onlyIf (s.cellUp c) s (·.joinArrive c o r e)
      | none => s
    | none => s)

/-! ### Entry read -/

/-- ENTRYRD: the entry of DIX = RA + IMM in RD and RB, under cause REPLY (R201, R210). -/
def bodyEntryrd (c : CellIx) (f : InsFields) (s : State) : State :=
  s.guarded c (.entryrd c f) [f.rd, f.ra, f.rb] [] [] (fun s =>
    let dix := ((s.cell c).seq.addrOf f).toNat
    if s.mem.dirEntries ≤ dix then s.finishBlocking c ccBadDesc
    else
      let s := s.dirAccess dix
      let t := s.mem.entry dix
      (s.addOp c { id := 0, unit := .fetch, blocking := true, regs := [(f.rd, t.1), (f.rb, t.2)] }).waitOp c
        (some (6, .entryrd c f)))

/-! ### Store -/

/-- Where row block `q` of a stored group goes: itself, or where list entry 4Q + q names (R222). -/
def rowDest (spad : List Host.Cell) (b : List Word) (q : Nat) : Nat :=
  if bb b 0 38 then Memory.readNat spad (128 * bf b 2 33 20 + 4 * (4 * bf b 3 31 0 + q)) 4 else q

/-- The four list entries name the four row blocks of one group, and lie in the scratchpad (R219, R444). -/
def rowListOk (spad : List Host.Cell) (b : List Word) : Bool :=
  if bb b 0 38 then
    decide (128 * bf b 2 33 20 + 16 * bf b 3 31 0 + 16 ≤ 2 ^ 21) &&
    (List.range 4).all (fun q => decide (rowDest spad b q < 2 ^ 24 ∧ rowDest spad b q / 4 = rowDest spad b 0 / 4)) &&
    decide (((List.range 4).map (fun q => rowDest spad b q % 4)).Nodup)
  else true

/-- The group that a STORE writes, from slot form: BITMAP, poison map, and whether it is dense, with its units. In a group of FP32
or L16 values a slot that holds values of a poisoned block is poisoned too (R719). -/
def storeForm (x : Cell) (b : List Word) : Nat × Nat × Bool × List (List Byte × BitVec 2) :=
  let spad := x.spad
  let w := blockWidth b
  let g := bf b 2 13 0
  let src (i : Nat) : Nat :=
    ((List.range 4).find? (fun q => decide (rowDest spad b q % 4 = i % 4))).elim i (fun q => i / 4 * 4 + q)
  let present := presentOf spad g
  let marked (i : Nat) : Bool := decide (bf b 2 19 18 ≠ 0) && (slotParts g w i).any x.partPoison
  let poison := (List.range 64).foldl (fun a i => if (poisonOf spad g).testBit i || marked i then a + 2 ^ i else a) 0
  let map := (List.range 64).foldl (fun a i => if present.testBit (src i) then a + 2 ^ i else a) 0
  let psn := (List.range 64).foldl
    (fun a i => if present.testBit (src i) && poison.testBit (src i) then a + 2 ^ i else a) 0
  let x := encodeGroup w map psn (fun i => Memory.readBytes spad (slotAddr g w (src i)) (blockBytes w))
  (map, psn, x.1, x.2)

/-- The extent of `n` units that level 4 offers the allocator of die `d` (R520). -/
def State.findWs (s : State) (d n : Nat) : Option Nat :=
  let z := pow2Up n
  (Area.mk s.wsUnits s.mem.spill4).find d (11 - Nat.log2 z) z

/-- The operation of number `k` is complete with a code. -/
def State.opEnds (s : State) (c : CellIx) (k : Nat) (code : Code) : State :=
  s.modCell c (fun x => x.modOp k (fun o => { o with done := true, spill := none, code := code }))

def State.opWaits (s : State) (c : CellIx) (k : Nat) (x : SpillWait) : State :=
  s.modCell c (fun y => y.modOp k (fun o => { o with done := false, spill := some x }))

/-! ### The order of the stores of a group (R207) -/

/-- The store has waited since it reached the home cache. -/
def State.storeWaited (s : State) (c : CellIx) (k : Nat) : Bool := ((s.cell c).op? k).elim false (fun o => o.spill.isSome)

/-- The waiting stores once that of `me` is applied, or, where none is named, one that has just arrived: those of its group that
arrived before it are overtaken. -/
def overtake (dix : Nat) (me : Option (Nat × Nat × Nat)) : List (Nat × Nat × Nat) → List (Nat × Nat × Nat)
  | [] => []
  | y :: t => if some y = me then t else if y.1 = dix then overtake dix me t else y :: overtake dix me t

/-- A store waits for storage: its place is that of its arrival. -/
def State.storeWaits (s : State) (c : CellIx) (k dix : Nat) (x : SpillWait) : State :=
  let s := if s.storeWaited c k then s
    else { s with mem := { s.mem with storeQ := s.mem.storeQ ++ [(dix, c.val, k)] } }
  s.opWaits c k x

/-- A store is over. -/
def State.storeEnds (s : State) (c : CellIx) (k : Nat) (code : Code) : State :=
  let s := { s with mem := { s.mem with storeQ := s.mem.storeQ.filter (fun y => decide (y.2 ≠ (c.val, k))) } }
  s.opEnds c k code

/-- A group store replaces the entry; the driver knows the groups that a job stored (R205, R394). One that a later arrival has
overtaken while it waited counts as applied before that one: the entry stays, and its own storage waits for its release
(R207). -/
def State.storeEntry (s : State) (c : CellIx) (k dix : Nat) (e : Word × Word) : State :=
  let me := (dix, c.val, k)
  let waited := s.storeWaited c k
  if waited && decide (me ∉ s.mem.storeQ) then
    let gone := if Ent2.valid e.2 then [(Ent2.key e.1 e.2, Ent2.count e.2, dix % 2)] else []
    { s with mem := { s.mem with replaced := s.mem.replaced ++ gone } }
  else
    let s := s.replaceEntry dix e
    { s with drv := { s.drv with stored := s.drv.stored ++ [((s.cell c).spdOwner, dix)] },
             mem := { s.mem with storeQ := overtake dix (if waited then some me else none) s.mem.storeQ } }

/-- Level 4, or NO_ROOM with the entry unchanged (R511, R520). -/
def State.storeLevel4 (s : State) (c : CellIx) (k : Nat) (b : List Word) : State :=
  let dix := bf b 0 31 0
  match storeForm (s.cell c) b with
  | (map, psn, dense, units) =>
    match s.findWs (dix % 2) units.length with
    | some u =>
      if !s.pcie.bme then s.storeWaits c k dix { what := .bus }
      else
        let s := s.writeWsUnits u units
        let s := { s with mem := { s.mem with spill4 := s.mem.spill4 ++ [(u, pow2Up units.length)] } }
        let s := s.modDie (dix % 2) (fun d => { d with spill4Units := d.spill4Units + BitVec.ofNat 64 units.length })
        (s.storeEntry c k dix (Ent2.mk u map dense 2 (decide (psn ≠ 0)) units.length)).storeEnds c k
          (if psn ≠ 0 then ccPoison else ccOk)
    | none => (s.modDie (dix % 2) (fun d => { d with noRoomStores := d.noRoomStores + 1 })).storeEnds c k ccNoRoom

/-- Level 3 from element `i` of SPILL_TARGETS on: an ALLOC to the next valid target, or level 4 (R511, R515). -/
def State.storeLevel3 (s : State) (c : CellIx) (k : Nat) (b : List Word) (i : Nat) : State :=
  match (List.range 16).find? (fun j => decide (i ≤ j) && (s.spillTarget j).testBit 63) with
  | some j =>
    let n := (storeForm (s.cell c) b).2.2.2.length
    (s.storeWaits c k (bf b 0 31 0) { what := .alloc, target := j }).sendSpill (s.spillTarget j % 2 ^ 16) (opTag c k)
      (spillItem0 1 0 (sizeLog n) 0 0) []
  | none => s.storeLevel4 c k b

/-- A store: the pool of the home die first (R508, R511). -/
def State.storeGroup (s : State) (c : CellIx) (k : Nat) (b : List Word) : State :=
  let dix := bf b 0 31 0
  match storeForm (s.cell c) b with
  | (map, psn, dense, units) =>
    if units = [] then (s.storeEntry c k dix (0, 0)).storeEnds c k ccOk
    else
      match s.mem.alloc (dix % 2) units.length (.group dix) with
      | some (u, m) =>
        let s := ({ s with mem := m.writeUnits u units }).passUnits true ((List.range units.length).map (u + ·)) []
        (s.storeEntry c k dix (Ent2.mk u map dense 0 (decide (psn ≠ 0)) units.length)).storeEnds c k
          (if psn ≠ 0 then ccPoison else ccOk)
      | none => s.storeLevel3 c k b 0

/-- STORE (R205, R222, R511). -/
def bodyStoreG (c : CellIx) (f : InsFields) (s : State) : State :=
  s.guarded c (.storeG c f) [f.ra] [] [] (fun s =>
    s.withBlock c f (.storeG c f) maskFetch (fun b s =>
      let a := 128 * bf b 2 33 20 + 16 * bf b 3 31 0
      let rows := (bf b 2 13 0, groupRows (blockWidth b)) ::
        (if bb b 0 38 then [(a / 128, 1)] else [])
      if !s.groupOk b then s.finish c ccBadDesc
      else s.guarded c (.storeG c f) [] rows [] (fun s =>
        if !rowListOk (s.cell c).spad b then s.finish c ccBadDesc
        else
          let s := s.addOp c { id := 0, unit := .store, reads := rows, block := b.take 4 }
          (s.storeGroup c (s.lastOp c) b).retire c)))

/-! ### Free and release -/

/-- GROUP_FREE: the all-zero entry, over whatever the entry holds; the free completes when the storage has returned, and with
BAD_DESC where the directory has no such entry (R201, R208). -/
def State.freeGroup (s : State) (dix : Nat) : State :=
  if s.mem.dirEntries ≤ dix then { s with mem := { s.mem with freed := some (dix, ccBadDesc) } }
  else
    let old := s.mem.entry dix
    let s := s.replaceEntry dix (0, 0)
    let s := { s with mem := { s.mem with storeQ := overtake dix none s.mem.storeQ } }
    if Ent2.valid old.2 then { s with mem := { s.mem with frees := s.mem.frees ++ [(dix, Ent2.key old.1 old.2)] } }
    else { s with mem := { s.mem with freed := some (dix, ccOk) } }

def execGroupFree (dix : BitVec 32) (s : State) : Out :=
  .next (onlyIf s.fabricUp s (·.freeGroup dix.toNat))

/-- The group free that waits for a storage completes (R208). -/
def MemSys.freeEnds (m : MemSys) (key : Nat) : MemSys :=
  match m.frees.find? (fun y => decide (y.2 = key)) with
  | some y => { m with frees := m.frees.erase y, freed := some (y.1, ccOk) }
  | none => m

/-- Storage that no entry names and no fetch reads returns to its level: the pool zeroed (R206, R509, R510), a FREE to
the serving device (R515), level 4. -/
def State.releaseStorage (s : State) (x : Nat × Nat × Nat) : State :=
  let s := { s with mem := ({ s.mem with replaced := s.mem.replaced.erase x }).freeEnds x.1 }
  let loc := x.1 / 2 ^ 40
  let base := x.1 % 2 ^ 40
  if loc = 0 then { s with mem := s.mem.release base }
  else if loc = 1 then
    (s.modDie x.2.2 (fun d => { d with spill3Units := d.spill3Units - BitVec.ofNat 64 x.2.1 })).sendSpill
      (base / 2 ^ 24) 0xFFFFFFFF (spillItem0 2 (base % 2 ^ 24) (sizeLog x.2.1) 0 0) []
  else
    let s := { s with mem := { s.mem with spill4 := s.mem.spill4.filter (fun e => decide (e.1 ≠ base)) } }
    s.modDie x.2.2 (fun d => { d with spill4Units := d.spill4Units - BitVec.ofNat 64 x.2.1 })

/-- STORAGE_RELEASE: `base` is LOC × 2^40 + BASE of the replaced entry. -/
def execStorageRelease (base : Nat) (s : State) : Out :=
  .next (match s.mem.replaced.find? (fun x => decide (x.1 = base)) with
    | some x => onlyIf (s.fabricUp && !s.storageRead base) s (·.releaseStorage x)
    | none => s)

/-! ### The BLOCK_FETCH message -/

/-- The marker of a BLOCK_FETCH among a unit's joined fetches. -/
def blockFetchNo : Nat := 2 ^ 32

/-- A BLOCK_FETCH that passed the epoch check (R30, R39, R40). Its body items 0 to 3 hold words 0 to 3 of a FETCH block. It
waits while a member is still busy with the rows. One whose block, entry or mask R201, R209 or R444 lets deliver nothing is
received and writes nothing: no rule gives it an answer (DESIGN CHOICE, log 19). -/
def State.blockFetch (s : State) (m : Msg) (e : List UnitFlip) : State :=
  let b : List Word := (List.range 4).map (fun i => (m.body.getD i 0).setWidth 64)
  let w := blockWidth b
  let dix := bf b 0 31 0
  let key := UA.key m.dest
  let cells := UA.cells m.dest
  if !s.groupOk b || b.getD 1 0 = 0 then s.received m
  else
    let s := (s.received m).dirAccess dix
    let t := s.mem.entry dix
    let mask := fetchMask (s.cell (cellIx (UA.index m.dest))).spad b (Ent2.bitmap t.1 t.2)
    if !Ent2.ok w t.1 t.2 ∨ mask = 0 then s
    else if mask &&& Ent2.bitmap t.1 t.2 = 0 ∨ Ent2.loc t.2 = 0 then
      match s.readGroup none t.1 t.2 w mask e with
      | (bl, _, s) => s.deliver cells (bf b 2 13 0) w mask bl
    else if Ent2.loc t.2 = 1 then
      (s.modUnit key (fun u =>
        { u with joins := u.joins ++ [⟨m.src, m.tag, blockFetchNo, b, mask, t.1, t.2, none, cells, none, none⟩] })).sendRead
          (unitTag key) t.1 t.2
    else
      s.deliver cells (bf b 2 13 0) w mask (decodeBlocks (fun u => s.wsUnit (Ent2.base t.1 + u)) w
        (Ent2.bitmap t.1 t.2) (Ent2.dense t.2) (Ent2.psnAny t.2) mask)

/-- The rows of the fetch are free in every member, no earlier one waits at the unit, and the bus is there where level
4 is read. -/
def State.blockFetchReady (s : State) (m : Msg) : Bool :=
  let b : List Word := (List.range 4).map (fun i => (m.body.getD i 0).setWidth 64)
  (UA.cells m.dest).all (fun i =>
    !(s.cell (cellIx i)).rowBusy true (bf b 2 13 0) (groupRows (blockWidth b))) &&
  !(s.unit (UA.key m.dest)).joins.any (fun j => decide (j.n = blockFetchNo)) &&
  (s.pcie.bme || decide (Ent2.loc (s.mem.entry (bf b 0 31 0)).2 ≠ 2))

def execBlockFetch (m : Msg) (e : List UnitFlip) (s : State) : Out :=
  .next (onlyIf (s.requestOk m 0x02 && (decide (m.epoch ≠ s.epochOf m.dest) || s.blockFetchReady m)) s
    (fun s => s.arrival m (·.blockFetch m e)))

/-! ### The instructions -/

def execFetch (c : CellIx) (f : InsFields) (e : List UnitFlip) (s : State) : Out :=
  .next (s.issue c 0x40 f (.fetch c f e) (bodyFetch c f e))
def execEntryrd (c : CellIx) (f : InsFields) (s : State) : Out :=
  .next (s.issue c 0x41 f (.entryrd c f) (bodyEntryrd c f))
def execStoreG (c : CellIx) (f : InsFields) (s : State) : Out :=
  .next (s.issue c 0x42 f (.storeG c f) (bodyStoreG c f))

end Sys2Proof.Machine
end

