-- ==== Sys2Proof/Machine/Dove.lean ====
section
/-! DEFINITION. The dovetail engine's gathers and the neuron predictor: GATHER (R219 to R222), SELECT and AUDIT (R225 to
R231). -/

namespace Sys2Proof.Machine

open Sys2Proof

/-! ### Gathers -/

/-- Entry `i` of a gather list at row `r` (R219). -/
def listEntry (spad : List Host.Cell) (r i : Nat) : Nat := Memory.readNat spad (128 * r + 4 * i) 4

/-- The list positions that a gather of tile T uses: 32 of a column gather, 4 of a row gather (R220, R222). -/
def gatherIdx (spad : List Host.Cell) (b : List Word) : List (Option Nat) :=
  let n := if bb b 0 0 then 4 else 32
  let t := bf b 2 23 0
  (List.range n).map (fun i =>
    if n * t + i < bf b 1 63 32 then some (listEntry spad (bf b 1 13 0) (n * t + i)) else none)

/-- Where position `x` reads in group column `gc`: the directory index and the block row of its group. -/
def gatherSrc (b : List Word) (gc x : Nat) : Nat × Nat :=
  if bb b 0 0 then (bf b 3 31 0 + x / 4 * bf b 3 63 32 + gc, x % 4)
  else (bf b 3 31 0 + x / 32 * bf b 3 63 32 + gc, x % 32 / 8)

/-- The blocks of one block row, all K-blocks. -/
def rowMask (rb : Nat) : Nat := (List.range 16).foldl (fun a kb => a + 2 ^ (4 * kb + rb)) 0

/-- The groups that a gather reads, each with the mask of the blocks it needs. -/
def gatherGroups (spad : List Host.Cell) (b : List Word) : List (Nat × Nat) :=
  let gcs := (List.range (bf b 4 63 32)).map (fun j => bf b 4 31 0 + j)
  let need := gcs.flatMap (fun gc => (gatherIdx spad b).filterMap (fun x => x.map (gatherSrc b gc)))
  let dixs := (need.map (·.1)).dedup
  dixs.map (fun d => (d, ((need.filter (fun y => decide (y.1 = d))).map (·.2)).foldl (fun a rb => a ||| rowMask rb) 0))

/-- Row `r` of a block, 16 codes of `w` bits, as one number. -/
def blockRow (bytes : List Byte) (w r : Nat) : Nat := ofBytesLE bytes / 2 ^ (16 * w * r) % 2 ^ (16 * w)

/-- The blocks of one gathered group from the blocks of its sources. `src` gives the blocks of a directory index. -/
def gatherBlocks (spad : List Host.Cell) (b : List Word) (gc : Nat)
    (src : Nat → List (Nat × Bool × List Byte)) : List (Nat × Bool × List Byte) :=
  let w := storedWidth (bf b 5 3 0) (bf b 5 5 4)
  let idx := gatherIdx spad b
  let find (x kb : Nat) : Option (Bool × List Byte) :=
    let y := gatherSrc b gc x
    ((src y.1).find? (fun k => decide (k.1 = 4 * kb + y.2))).map (·.2)
  (List.range 64).filterMap (fun i =>
    let kb := i / 4
    if bb b 0 0 then
      (idx.getD (i % 4) none).bind (fun x => (find x kb).map (fun y => (i, y.1, y.2)))
    else
      let cols := (List.range 8).map (fun r => (idx.getD (i % 4 * 8 + r) none).bind (fun x =>
        (find x kb).map (fun y => (y.1, blockRow y.2 w (x % 8)))))
      if cols.all (·.isNone) then none
      else
        let bits := cols.foldr (fun y a => y.elim 0 (·.2) + 2 ^ (16 * w) * a) 0
        some (i, cols.any (fun y => y.elim false (·.1)), bytesLE (blockBytes w) bits))

/-- The gathered blocks' rows that are zero columns, by slot address: those beyond the list, and those whose source block is
absent (R190, R220). -/
def gatherZeros (spad : List Host.Cell) (b : List Word) (gc row : Nat) (src : Nat → List (Nat × Bool × List Byte)) :
    SMap Nat :=
  let w := storedWidth (bf b 5 3 0) (bf b 5 5 4)
  let idx := gatherIdx spad b
  (List.range 64).map (fun i =>
    (slotAddr row w i, (List.range 8).foldl (fun a r =>
      match idx.getD (i % 4 * 8 + r) none with
      | some x =>
        let y := gatherSrc b gc x
        if (src y.1).any (fun k => decide (k.1 = 4 * (i / 4) + y.2)) then a else a + 2 ^ r
      | none => a + 2 ^ r) 0))

/-- The COLIDX table of a column gather (R221). -/
def colidx (spad : List Host.Cell) (b : List Word) : List Byte :=
  (gatherIdx spad b).flatMap (fun x =>
    bytesLE 2 (match x with
      | some v => if bf b 0 31 8 ≤ v ∧ v - bf b 0 31 8 ≤ 65534 then v - bf b 0 31 8 else 0xFFFF
      | none => 0xFFFF))

/-- The blocks of the groups that a gather has read, each of the blocks it needs. Answers the blocks by directory index, the lost unit, and the state (R205, R501, R502). -/
def State.gotBlocks (s : State) (c : CellIx) (w : Nat) (e : List UnitFlip) (gs : List (GotGroup × Nat)) :
    List (Nat × List (Nat × Bool × List Byte)) × Option Nat × State :=
  gs.foldl (fun (a : List (Nat × List (Nat × Bool × List Byte)) × Option Nat × State) g =>
    let map := Ent2.bitmap g.1.lo g.1.hi
    let dec (rd : Nat → List Byte × BitVec 2) := decodeBlocks rd w map (Ent2.dense g.1.hi) (Ent2.psnAny g.1.hi) g.2
    match a with
    | (l, lost, s) =>
      match g.1.units with
      | some us => (l ++ [(g.1.dix, dec (fun u => us.getD u ([], 0)))], lost, s)
      | none =>
        if Ent2.loc g.1.hi = 2 then (l ++ [(g.1.dix, dec (fun u => s.wsUnit (Ent2.base g.1.lo + u)))], lost, s)
        else
          match s.readGroup (some c) g.1.lo g.1.hi w g.2 e with
          | (bl, bad, s) => (l ++ [(g.1.dix, bl)], if lost.isSome then lost else bad, s))
    ([], none, s)

/-- A gather goes on from the entries that it read at its start: the next group that a serving device holds is asked for; once
none is missing, the operand and COLIDX are written and the operation is complete. -/
def State.gatherGo (s : State) (c : CellIx) (o : UnitOp) (e : List UnitFlip) : State :=
  let b := o.block
  let w := storedWidth (bf b 5 3 0) (bf b 5 5 4)
  let spad := (s.cell c).spad
  let need := gatherGroups spad b
  let gs := o.got.map (fun g => (g, (need.find? (fun n => decide (n.1 = g.dix))).elim 0 (·.2)))
  let from_ (loc : Nat) (g : GotGroup × Nat) : Bool :=
    decide (g.2 &&& Ent2.bitmap g.1.lo g.1.hi ≠ 0 ∧ Ent2.loc g.1.hi = loc)
  match gs.find? (fun g => from_ 1 g && g.1.units.isNone) with
  | some g =>
    (s.opWaits c o.id { what := .read, target := g.1.dix, lo := g.1.lo, hi := g.1.hi }).sendRead (opTag c o.id) g.1.lo g.1.hi
  | none =>
    if gs.any (from_ 2) && !s.pcie.bme then s.opWaits c o.id { what := .bus }
    else
      match s.gotBlocks c w e gs with
      | (got, lost, s) =>
        let src (d : Nat) := (got.find? (fun g => decide (g.1 = d))).elim [] (·.2)
        let row (j : Nat) : Nat := bf b 2 37 24 + j * groupRows w
        let ns := List.range (bf b 4 63 32)
        let out := ns.map (fun j => gatherBlocks spad b (bf b 4 31 0 + j) src)
        let asked := gs.foldl (fun a g => a + popBelow g.2 64) 0
        let found := got.foldl (fun a g => a + g.2.length) 0
        let m := ns.foldl (fun m j => writeGroup m (row j) w (2 ^ 64 - 1) (out.getD j [])) spad
        let m := if bb b 0 0 then m else Memory.writeBytes m (128 * bf b 2 51 38) (colidx spad b)
        let zs := if bb b 0 0 then [] else ns.flatMap (fun j => gatherZeros spad b (bf b 4 31 0 + j) (row j) src)
        let s := s.modCell c (fun x =>
          { x with spad := m, zeroCols := zs.foldl (fun l z => SMap.set l z.1 z.2) x.zeroCols,
                   cnt := { x.cnt with fetchBlocks := x.cnt.fetchBlocks + BitVec.ofNat 64 asked,
                                       absentDelivered := x.cnt.absentDelivered + BitVec.ofNat 64 (asked - found) } })
        let code := if out.any (fun bl => bl.any (·.2.1)) then ccPoison else ccOk
        match lost with
        | none => s.opEnds c o.id code
        | some u => (s.opEnds c o.id code).opWaits c o.id { what := .lost u }

/-- The rows that a gather reads and writes. -/
def gatherRows (b : List Word) : List (Nat × Nat) × List (Nat × Nat) :=
  let w := storedWidth (bf b 5 3 0) (bf b 5 5 4)
  ([(bf b 1 13 0, ceilDiv (4 * bf b 1 63 32) 128)],
   (bf b 2 37 24, bf b 4 63 32 * groupRows w) :: (if bb b 0 0 then [] else [(bf b 2 51 38, 1)]))

/-- A row range lies in the scratchpad. -/
def rowsIn (l : List (Nat × Nat)) : Bool := l.all (fun r => decide (r.1 + r.2 ≤ 16384))

/-- The rows of the tensor that a gather reads: those of the tensor at its DIRBASE in the graph of the job; for another device's
job a free value (R219; log 39). -/
def State.gatherLimit (s : State) (c : CellIx) (b : List Word) : Nat :=
  let x := s.cell c
  match s.layerOf x.job x.layer with
  | some (g, _) => ((g.tensors.find? (fun t => decide (Tensor.dirBase t = bf b 3 31 0))).elim 0 Tensor.rows)
  | none => Config.foreignRows x.job x.layer (bf b 3 31 0)

/-- An index of the list names no row, or no block of rows, of the tensor, or has bits above [23:0] (R219). -/
def State.gatherBad (s : State) (c : CellIx) (b : List Word) : Bool :=
  let n := s.gatherLimit c b
  (gatherIdx (s.cell c).spad b).any (fun x => x.elim false (fun v =>
    decide (2 ^ 24 ≤ v ∨ (if bb b 0 0 then ceilDiv n 8 else n) ≤ v)))

/-- A GATHER: BAD_DESC for an index that names no row or channel, a group that the directory does not have, or an entry that
R201 refuses; OK_EMPTY for an empty list (R219). It reads the entries of its groups at its start (R205). -/
def State.gather (s : State) (c : CellIx) (i : Instr) (row : Bool) (b : List Word) (e : List UnitFlip) : State :=
  if bb b 0 0 ≠ row then s
  else
    let w := storedWidth (bf b 5 3 0) (bf b 5 5 4)
    let io := gatherRows b
    if !formOk (bf b 5 3 0) (bf b 5 5 4) || !rowsIn (io.1 ++ io.2) then s.finish c ccBadDesc
    else if bf b 1 63 32 = 0 ∨ bf b 4 63 32 = 0 then s.finish c ccEmpty
    else s.guarded c i [] io.1 io.2 (fun s =>
      let gs := gatherGroups (s.cell c).spad b
      if s.gatherBad c b || gs.any (fun g => decide (s.mem.dirEntries ≤ g.1)) then s.finish c ccBadDesc
      else
        let s := gs.foldl (fun s g => s.dirAccess g.1) s
        let got : List GotGroup := gs.map (fun g => ⟨g.1, (s.mem.entry g.1).1, (s.mem.entry g.1).2, none⟩)
        if got.any (fun g => !Ent2.ok w g.lo g.hi) then s.finish c ccBadDesc
        else
          let o : UnitOp :=
            { id := 0, unit := .dove, reads := io.1, writes := io.2, block := b, got := got,
              extents := (got.filter (fun g => Ent2.valid g.hi)).map (fun g => Ent2.key g.lo g.hi) }
          let s := s.addOp c o
          ((s.gatherGo c { o with id := s.lastOp c } e).retire c))

def bodyGatherColumn (c : CellIx) (f : InsFields) (e : List UnitFlip) (s : State) : State :=
  s.guarded c (.gatherColumn c f e) [f.ra] [] [] (fun s =>
    s.withBlock c f (.gatherColumn c f e) maskGather (fun b s => s.gather c (.gatherColumn c f e) false b e))
def bodyGatherRow (c : CellIx) (f : InsFields) (e : List UnitFlip) (s : State) : State :=
  s.guarded c (.gatherRow c f e) [f.ra] [] [] (fun s =>
    s.withBlock c f (.gatherRow c f e) maskGather (fun b s => s.gather c (.gatherRow c f e) true b e))

/-! ### The predictor -/

/-- The classes of select_neuron() (R225). -/
inductive NClass where
  | selected | guarded | audited | skipped
deriving DecidableEq, Repr

/-- How the codes that SELECT or AUDIT reads stand for numbers: SYM of their record (R132), and the zero code of (row, column)
(R190, R191). -/
structure CodeSpace where
  sym : Bool
  zero : Nat → Nat → Int

/-- The codes that a layer of a graph writes: entries that the layer has made, else those of the record at SREC (R137, R720,
R721). -/
def State.outCodes (s : State) (job : BitVec 32) (g : GraphRec) (layer : Nat) (l : Desc) : CodeSpace :=
  let h := (s.tensorRec g (Layer.outT l)).getD 0
  let made := (s.convOf job (BitVec.ofNat 16 layer)).made
  let at_ := (g.tensor (Layer.outT l)).elim 0 Tensor.srec
  let at1 (m n : Nat) : Nat := if Rec.gran h = 0 then 0 else if g.isWgt (Layer.outT l) then m else n
  ⟨Rec.sym h, fun m n => Ent.zp ((SMap.get? made (at1 m n)).getD (s.recWord at_ (1 + at1 m n)))⟩

/-- The scores of SELECT are the codes of the predictor layer's output, the codes of AUDIT those of the layer's own; for another
device's job SYM and the zero codes are free values (R225, R229; log 20). -/
def State.codeSpace (s : State) (c : CellIx) (score : Bool) : CodeSpace :=
  let x := s.cell c
  match s.layerOf x.job x.layer with
  | some (g, l) =>
    let k := if score then Layer.pred l else x.layer.toNat
    s.outCodes x.job g k (g.layers.getD k [])
  | none => ⟨Config.foreignSym x.job x.layer score, fun m n => Config.foreignZero x.job x.layer score m n⟩

/-- Code (m, n) of a tensor that lies in slot-form groups from row `g`, 256 columns to a group; an absent block reads as its zero
codes (R190, R191). -/
def rowCode (z : CodeSpace) (spad : List Host.Cell) (g w m n : Nat) : Int :=
  let sw := storedWidth w 0
  (groupElem spad (g + n / 256 * groupRows sw) sw m (n % 256)).elim (z.zero m n) (codeValue w z.sym)

/-- select_neuron() (R225): `smax` over the tokens of the row tile, `d` the draw. -/
def selectNeuron (smax theta : Int) (guard k d : Nat) : NClass :=
  if theta ≤ smax then .selected
  else if theta - guard ≤ smax then .guarded
  else if k ≠ 0 ∧ d % 2 ^ k = 0 then .audited
  else .skipped

/-- The class of every neuron, in ascending n (R226). -/
def selectAll (z : CodeSpace) (spad : List Host.Cell) (b : List Word) (draw : Nat → Nat) : List NClass :=
  let rows := bf b 0 49 44
  (List.range (bf b 2 23 0)).map (fun n =>
    let smax := (List.range rows).foldl (fun a m => max a (rowCode z spad (bf b 1 13 0) (bf b 0 53 50) m n)) (-65536)
    selectNeuron smax (signed 16 (bf b 0 15 0)) (bf b 0 39 32) (bf b 0 43 40) (draw n))

/-- The neurons of a class list that satisfy a test, in ascending n. -/
def neurons (l : List NClass) (p : NClass → Bool) : List Nat :=
  (List.range l.length).filter (fun n => p (l.getD n .skipped))

/-- A predictor count stops at 2^24 - 1 (R263). -/
def predCount (n : Nat) : Nat := satTo 24 n

/-- SELECT (R225 to R227, R230, R231, R443): the gather list, its length in RD, the counts in the predictor item of the
output ledger. -/
def bodySelectN (c : CellIx) (f : InsFields) (s : State) : State :=
  s.guarded c (.selectN c f) [f.rd, f.ra] [] [] (fun s =>
    s.withBlock c f (.selectN c f) maskSelect (fun b s =>
      let n := bf b 2 23 0
      let w := bf b 0 53 50
      let k := bf b 0 43 40
      let src := (bf b 1 13 0, ceilDiv n 256 * groupRows (storedWidth w 0))
      let dst := (bf b 1 27 14, ceilDiv (4 * n) 128)
      if !formOk w 0 || decide (32 < bf b 0 49 44) || !rowsIn [src, dst] then s.finishBlocking c ccBadDesc
      else if n = 0 ∨ bf b 0 49 44 = 0 then
        (s.addOp c { id := 0, unit := .dove, code := ccEmpty, blocking := true, regs := [(f.rd, 0)] }).waitOp c none
      else s.guarded c (.selectN c f) [] [src] [dst] (fun s =>
        let x := s.cell c
        let cls := selectAll (s.codeSpace c true) x.spad b (s.draws c 0x01 (bf b 2 47 24) 0)
        let s := if k = 0 then s else s.spendDraws c 0x01 n
        let list := neurons cls (fun y => decide (y ≠ .skipped))
        let ct (y : NClass) : Nat := cls.count y
        let s := s.modCell c (fun x =>
          { x with
            spad := Memory.writeBytes x.spad (128 * bf b 1 27 14) (list.flatMap (bytesLE 4)),
            doveAudited := neurons cls (fun y => decide (y = .audited)),
            rq := { x.rq with ledger := { x.rq.ledger with
              pred := true, sel := predCount (ct .selected), grd := predCount (ct .guarded),
              aud := predCount (ct .audited), skp := predCount (ct .skipped), dis := 0 } },
            cnt := { x.cnt with predSelected := x.cnt.predSelected + BitVec.ofNat 64 (ct .selected),
                                predGuarded := x.cnt.predGuarded + BitVec.ofNat 64 (ct .guarded),
                                predAudited := x.cnt.predAudited + BitVec.ofNat 64 (ct .audited),
                                predSkipped := x.cnt.predSkipped + BitVec.ofNat 64 (ct .skipped) } })
        (s.addOp c { id := 0, unit := .dove, reads := [src], writes := [dst], blocking := true,
                     regs := [(f.rd, BitVec.ofNat 64 list.length)] }).waitOp c none)))

/-- The audited neurons with an output code at or above ACODE in the row tile (R229). -/
def disagreements (z : CodeSpace) (spad : List Host.Cell) (b : List Word) (audited : List Nat) : Nat :=
  audited.countP (fun n => (List.range (bf b 0 49 44)).any (fun m =>
    decide (signed 16 (bf b 0 31 16) ≤ rowCode z spad (bf b 1 41 28) (bf b 0 57 54) m n)))

/-- AUDIT (R229, R230, R443): the disagreements among the neurons that the cell's last SELECT audited, whatever block that SELECT
named, in RD and in the predictor item. DESIGN CHOICE (log 20): the AUDIT block names no set of audited neurons, and no rule says
where the engine keeps it. -/
def bodyAuditN (c : CellIx) (f : InsFields) (s : State) : State :=
  s.guarded c (.auditN c f) [f.rd, f.ra] [] [] (fun s =>
    s.withBlock c f (.auditN c f) maskSelect (fun b s =>
      let n := bf b 2 23 0
      let w := bf b 0 57 54
      let src := (bf b 1 41 28, ceilDiv n 256 * groupRows (storedWidth w 0))
      if !formOk w 0 || decide (32 < bf b 0 49 44) || !rowsIn [src] then s.finishBlocking c ccBadDesc
      else if n = 0 ∨ bf b 0 49 44 = 0 then
        (s.addOp c { id := 0, unit := .audit, code := ccEmpty, blocking := true, regs := [(f.rd, 0)] }).waitOp c none
      else s.guarded c (.auditN c f) [] [src] [] (fun s =>
        let x := s.cell c
        let d := disagreements (s.codeSpace c false) x.spad b x.doveAudited
        let s := s.modCell c (fun x =>
          { x with rq := { x.rq with ledger := { x.rq.ledger with pred := true, dis := predCount d } },
                   cnt := { x.cnt with predDisagree := x.cnt.predDisagree + BitVec.ofNat 64 d } })
        (s.addOp c { id := 0, unit := .audit, reads := [src], blocking := true,
                     regs := [(f.rd, BitVec.ofNat 64 d)] }).waitOp c none)))

def execGatherColumn (c : CellIx) (f : InsFields) (e : List UnitFlip) (s : State) : Out :=
  .next (s.issue c 0x43 f (.gatherColumn c f e) (bodyGatherColumn c f e))
def execGatherRow (c : CellIx) (f : InsFields) (e : List UnitFlip) (s : State) : Out :=
  .next (s.issue c 0x43 f (.gatherRow c f e) (bodyGatherRow c f e))
def execSelectN (c : CellIx) (f : InsFields) (s : State) : Out :=
  .next (s.issue c 0x44 f (.selectN c f) (bodySelectN c f))
def execAuditN (c : CellIx) (f : InsFields) (s : State) : Out :=
  .next (s.issue c 0x45 f (.auditN c f) (bodyAuditN c f))

end Sys2Proof.Machine
end

