-- ==== Sys2Proof/Machine/Spill.lean ====
section
/-! DEFINITION. Spill over links: what an answer of a serving device continues (R511, R515 to R518), and the serving side
(R514, R516, R517). -/

namespace Sys2Proof.Machine

open Sys2Proof

/-! ### Answers of serving devices -/

/-- The operation whose SPILL message carries a tag. -/
def State.spillOp (s : State) (tag : BitVec 32) : Option (CellIx × UnitOp) :=
  if tag.toNat / 2 ^ 29 = 4 then
    let c := cellIx (tag.toNat / 2 ^ 20 % 512)
    ((s.cell c).ops.find? (fun o => decide (o.id % 2 ^ 20 = tag.toNat % 2 ^ 20 ∧ o.spill ≠ none))).map (fun o => (c, o))
  else none

/-- The blocks of a level-3 group reach a fetch: its cell, or every member that waits at the router (R446, R516). -/
def State.spillRead (s : State) (c : CellIx) (o : UnitOp) (x : SpillWait) (m : Msg) : State :=
  let w := blockWidth o.block
  let units := unitsOf (m.body.drop 1)
  let mask := fetchMask (s.cell c).spad o.block (Ent2.bitmap x.lo x.hi)
  let bl := decodeBlocks (fun u => units.getD u ([], 0)) w (Ent2.bitmap x.lo x.hi) (Ent2.dense x.hi)
    (Ent2.psnAny x.hi) mask
  if o.joinDepth = 0 then (s.deliver [c.val] (bf o.block 2 13 0) w mask bl).opEnds c o.id (poisonCode bl)
  else
    let key := UA.keyOf (o.joinDepth - 1) c.val
    match (s.unit key).joins.find? (fun j => decide (j.n = o.joinNo ∧ j.blocks = none ∧ c.val ∈ j.left)) with
    | some j =>
      let k := { j with blocks := some bl }
      let s := s.modUnit key (fun u => { u with joins := u.joins.map (fun i => if i = j then k else i) })
      s.copyJoined c o key k bl
    | none => s.opEnds c o.id ccOk

/-- A REPLY to a SPILL message continues what waits for it (R511, R515 to R517). -/
def State.spillReply (s : State) (m : Msg) : State :=
  match s.spillOp m.tag with
  | some (c, o) =>
    match o.spill with
    | some x =>
      match x.what with
      | .alloc =>
        if m.code = ccOk then
          let offset := m.fld 0 79 56
          let units := (storeForm (s.cell c) o.block).2.2.2
          (s.opWaits c o.id { x with what := .write, offset := offset }).sendSpill (s.spillTarget x.target % 2 ^ 16)
            m.tag (spillItem0 3 offset (sizeLog units.length) units.length 0) (units.flatMap unitItems)
        else s.storeLevel3 c o.id o.block (x.target + 1)
      | .write =>
        if m.code = ccOk then
          match storeForm (s.cell c) o.block with
          | (map, psn, dense, units) =>
            let dix := bf o.block 0 31 0
            let s := s.modDie (dix % 2) (fun d =>
              { d with spill3Units := d.spill3Units + BitVec.ofNat 64 units.length })
            (s.storeEntry c o.id dix (Ent2.mk (s.spillTarget x.target % 2 ^ 16 * 2 ^ 24 + x.offset) map dense 1
              (decide (psn ≠ 0)) units.length)).storeEnds c o.id (if psn ≠ 0 then ccPoison else ccOk)
        else s.storeEnds c o.id m.code
      | .read =>
        if m.code ≠ ccOk then s.opEnds c o.id m.code
        else if o.unit = .dove then
          let o := { o with got := o.got.map (fun (g : GotGroup) =>
            if g.dix = x.target then { g with units := some (unitsOf (m.body.drop 1)) } else g) }
          (s.modCell c (fun y => y.modOp o.id (fun _ => o))).gatherGo c o []
        else s.spillRead c o x m
      | _ => s
    | none => s
  | none =>
    match s.units.find? (fun u => decide (unitTag u.1 = m.tag) &&
        u.2.joins.any (fun j => decide (j.n = blockFetchNo ∧ j.blocks = none))) with
    | some (key, u) =>
      match u.joins.find? (fun j => decide (j.n = blockFetchNo ∧ j.blocks = none)) with
      | some j =>
        let units := unitsOf (m.body.drop 1)
        let bl := decodeBlocks (fun u => units.getD u ([], 0)) (blockWidth j.block) (Ent2.bitmap j.lo j.hi)
          (Ent2.dense j.hi) (Ent2.psnAny j.hi) j.mask
        (s.modUnit key (fun u => { u with joins := u.joins.erase j })).deliver j.left (bf j.block 2 13 0)
          (blockWidth j.block) j.mask bl
      | none => s
    | none => s

/-- What an operation that waits for the bus does once Bus Master Enable is 1 again (R463). -/
def State.busAgain (s : State) (c : CellIx) (o : UnitOp) (x : SpillWait) : State :=
  if o.unit = .store then s.storeLevel4 c o.id o.block
  else if o.unit = .dove then s.gatherGo c o []
  else
    let w := blockWidth o.block
    let mask := fetchMask (s.cell c).spad o.block (Ent2.bitmap x.lo x.hi)
    let bl := decodeBlocks (fun u => s.wsUnit (Ent2.base x.lo + u)) w (Ent2.bitmap x.lo x.hi) (Ent2.dense x.hi)
      (Ent2.psnAny x.hi) mask
    (s.deliver [c.val] (bf o.block 2 13 0) w mask bl).opEnds c o.id (poisonCode bl)

/-! ### The serving side (R514, R516, R517) -/

/-- KiB that this device serves, to one client or in all. -/
def MemSys.servedKib (m : MemSys) (client : Option (BitVec 16)) : Nat :=
  m.served.foldl (fun a g => if client = none ∨ client = some g.client then a + g.kib else a) 0

/-- The lowest free aligned offset for a grant of `k` KiB within a client's 16 GiB. -/
def MemSys.serveOffset (m : MemSys) (client : BitVec 16) (k : Nat) : Option Nat :=
  let mine := m.served.filter (fun g => decide (g.client = client))
  let cand := 0 :: mine.map (fun g => (g.offset + g.kib + k - 1) / k * k)
  (cand.filter (fun o => decide (o + k ≤ 2 ^ 24) && mine.all (fun g => !overlaps o k g.offset g.kib))).min?

/-- The grant that an offset names. -/
def MemSys.grant (m : MemSys) (client : BitVec 16) (offset : Nat) : Option Served :=
  m.served.find? (fun g => decide (g.client = client ∧ g.offset = offset))

/-- The REPLY to a SPILL (Table 10-13). -/
def State.spillAnswer (s : State) (m : Msg) (code : Code) (value : Nat) (more : List Payload) : State :=
  s.reply m code (replyItem (m.fld 0 3 0) 0 value) more

/-- The reserved fields of a SPILL are zero (Table 14-7). -/
def spillOk (m : Msg) (op : Nat) : Bool :=
  decide (m.fld 0 119 52 = 0 ∧ m.fld 0 30 28 ≤ 6 ∧ m.fld 0 41 31 ≤ 1024) &&
  (decide (op ≠ 1) || decide (m.fld 0 27 4 = 0)) && (decide (2 < op) || decide (m.fld 0 51 31 = 0))

/-- ALLOC: NO_ROOM unless the device is CACHE or MIXED and R514 leaves room (R517). The extent comes from the pool of
the die that has room. -/
def State.serveAlloc (s : State) (m : Msg) : State :=
  let k := 2 ^ m.fld 0 30 28
  let client := UA.device m.src
  let role := (s.unit 0).role
  let s := s.received m
  if !spillOk m 1 then s.spillAnswer m ccBadDesc 0 []
  else if ¬(role = 3 ∨ role = 4) ∨ s.serveGib * 2 ^ 20 < s.mem.servedKib none + k ∨
      2 ^ 24 < s.mem.servedKib (some client) + k then
    s.spillAnswer m ccNoRoom 0 []
  else
    match s.mem.serveOffset client k,
        (s.mem.alloc 0 (16 * k) (.serve client.toNat)).orElse (fun _ => s.mem.alloc 1 (16 * k) (.serve client.toNat)) with
    | some o, some (b, mem) =>
      let g : Served := ⟨client, o, k, b⟩
      ({ s with mem := { mem with served := mem.served ++ [g] } }).spillAnswer m ccOk o []
    | _, _ => s.spillAnswer m ccNoRoom 0 []

/-- FREE zeroes the extent; WRITE and READ act on units of an existing grant (R516, R517). -/
def State.serveOther (s : State) (m : Msg) (op : Nat) : State :=
  let s := s.received m
  let units := m.fld 0 41 31
  let uoff := m.fld 0 51 42
  match s.mem.grant (UA.device m.src) (m.fld 0 27 4) with
  | none => s.spillAnswer m ccBadDesc 0 []
  | some g =>
    if !spillOk m op || decide (16 * g.kib < uoff + units ∨ g.kib ≠ 2 ^ m.fld 0 30 28 ∨
        (op = 3 ∧ m.body.length ≠ 1 + 5 * units)) then
      s.spillAnswer m ccBadDesc 0 []
    else if op = 2 then
      let r := s.mem.release g.base
      ({ s with mem := { r with served := r.served.erase g } }).spillAnswer m ccOk 0 []
    else if units = 0 then s.spillAnswer m ccEmpty 0 []
    else if op = 3 then
      let us := unitsOf (m.body.drop 1)
      let s := ({ s with mem := s.mem.writeUnits (g.base + uoff) us }).passUnits true
        ((List.range us.length).map (g.base + uoff + ·)) []
      s.spillAnswer m ccOk 0 []
    else
      (s.passUnits false ((List.range units).map (g.base + uoff + ·)) []).spillAnswer m ccOk 0 ((List.range units).flatMap (fun j => unitItems (s.mem.readUnit (g.base + uoff + j))))

/-- A SPILL arrives at the device address (R515): one of the operation named, or, under SPILL_ALLOC, one of no operation,
which completes with BAD_DESC (Table 14-7). -/
def State.spillArrives (s : State) (m : Msg) (op : Nat) (f : State → State) : State :=
  let named := m.fld 0 3 0
  onlyIf (s.requestOk m 0x06 && decide (named = op ∨ (op = 1 ∧ (named = 0 ∨ 4 < named)))) s
    (fun s => s.arrival m (fun s =>
      if UA.depth m.dest ≠ 0 then s.received m
      else if named = op then f s else (s.received m).spillAnswer m ccBadDesc 0 []))

def execSpillAlloc (m : Msg) (s : State) : Out := .next (s.spillArrives m 1 (·.serveAlloc m))
def execSpillFree (m : Msg) (s : State) : Out := .next (s.spillArrives m 2 (·.serveOther m 2))
def execSpillWrite (m : Msg) (s : State) : Out := .next (s.spillArrives m 3 (·.serveOther m 3))
def execSpillRead (m : Msg) (s : State) : Out := .next (s.spillArrives m 4 (·.serveOther m 4))

end Sys2Proof.Machine
end

