-- ==== Sys2Proof/Machine/Lookup.lean ====
section
/-! DEFINITION. Product-table arithmetic: operands of a tile (R66 to R68, R190, R241), tables and lookups (R69 to R73,
R78 to R84), essential bits (R85, R86), the delta gate (R244), positions (R74, R75, R83, R89, R214, R215),
acc_add() (R99) and the kerf bound (R257). -/

namespace Sys2Proof.Machine

open Sys2Proof

/-! ### Accumulator elements -/

/-- acc_add() (R99). -/
def accAdd (a b : Acc) : Acc :=
  if a = accNai ∨ b = accNai then accNai
  else if (a = accPinf ∧ b = accNinf) ∨ (a = accNinf ∧ b = accPinf) then accNai
  else if a = accPinf ∨ b = accPinf then accPinf
  else if a = accNinf ∨ b = accNinf then accNinf
  else
    let s := a.toInt + b.toInt
    if accMax < s then accPinf else if s < -accMax then accNinf else BitVec.ofInt 40 s

/-- res() (R598). -/
def residue (x : Int) : BitVec 3 := BitVec.ofNat 3 (x % 7).toNat

/-! ### Lookups -/

/-- Entry `idx` of the table that table_build() makes of four operands (R69). -/
def tableEntry (v : List Int) (idx : Nat) : Int :=
  (List.range 4).foldl (fun a i => if idx.testBit i then a + v.getD i 0 else a) 0

/-- lookup_step() (R73). -/
def lookupStep (v : List Int) (sp sn p : Nat) (top dual : Bool) : Int :=
  let t := if dual then tableEntry v sp - tableEntry v sn else tableEntry v sp
  let c := t * 2 ^ p
  if top then -c else c

/-- Bit `p` of an integer in two's complement. -/
def bitI (v : Int) (p : Nat) : Bool := decide (v / 2 ^ p % 2 = 1)

/-- A slice: bit i from element i. -/
def sliceOf (f : Nat → Bool) : Nat := (List.range 4).foldl (fun a i => if f i then a + 2 ^ i else a) 0

/-! ### Essential bits and the delta gate -/

/-- ess_width(): the least e from 1 to a + 1 that every value fits. -/
def essWidth (a : Nat) (l : List Int) : Nat :=
  (((List.range (a + 1)).map (· + 1)).find? (fun e =>
    l.all (fun x => decide (-((2 ^ (e - 1) : Nat) : Int) ≤ x ∧ x ≤ ((2 ^ (e - 1) : Nat) : Int) - 1)))).getD (a + 1)

/-- ess_mask(). -/
def essMask (e : Nat) (l : List Int) : Nat :=
  (List.range e).foldl (fun a p => if l.any (fun x => bitI x p) then a + 2 ^ p else a) 0

inductive Gate where
  | none | skip | compute
deriving DecidableEq, Repr

def absMax (l : List Int) : Nat := l.foldl (fun a d => max a d.natAbs) 0

/-- delta_gate() (R244). -/
def deltaGate (d : List Int) (tau : Nat) : Gate :=
  if absMax d = 0 then .none else if absMax d * 16 < tau then .skip else .compute

/-! ### The operands of a tile -/

/-- What the operand feeder reads for tile `i` of an ARRAY block `b` (Table 12-10): the tile's place in its layer, and the
blocks that the delta gate skips, and the rows of gathered weight blocks that are zero columns. -/
structure Feed where
  spad : List Host.Cell
  b : List Word
  i : Nat
  ext : TileExt
  skipped : List (Nat × Nat)
  zeroCols : SMap Nat

namespace Feed

def prec (t : Feed) : Word := t.b.getD 1 0
def delta (t : Feed) : Bool := bb t.b 0 24
/-- TAU, ignored when DELTA = 0 (R239). -/
def tau (t : Feed) : Nat := if Prec.delta t.prec then Prec.tau t.prec else 0
def aw (t : Feed) : Nat := storedWidth (Prec.abits t.prec) 0
def ww (t : Feed) : Nat := storedWidth (Prec.wbits t.prec) 0
def aRow (t : Feed) (gc : Nat) : Nat := bf t.b 2 13 0 + t.i * bf t.b 2 41 28 + gc * groupRows t.aw
def rRow (t : Feed) (gc : Nat) : Nat := bf t.b 3 43 30 + t.i * bf t.b 2 41 28 + gc * groupRows t.aw
def wRow (t : Feed) (gc : Nat) : Nat := bf t.b 2 27 14 + t.i * bf t.b 2 55 42 + gc * groupRows t.ww
def ngc (t : Feed) : Nat := bf t.b 3 15 0
/-- Element k of the reduction lies beyond K (R66). -/
def beyond (t : Feed) (k : Nat) : Bool := decide (t.ext.kEnd ≤ t.ext.k0 + k)
/-- Row m lies past the last activation row, column n past the last output channel (R67). -/
def pastM (t : Feed) (m : Nat) : Bool := decide (t.ext.mEnd ≤ t.ext.m0 + m)
def pastN (t : Feed) (n : Nat) : Bool := decide (t.ext.nEnd ≤ t.ext.n0 + n)

/-- The zero point of element k (R68, R144). -/
def zp (t : Feed) (k : Nat) : Int :=
  if Prec.azp t.prec then
    (if bb t.b 0 25 then signed 16 (Memory.readNat t.spad (128 * bf t.b 3 57 44 + 2 * k) 2) else signed 16 (bf t.b 4 15 0))
  else 0

/-- x', or d in a delta tile, before the gate (R66 to R68, R190, R241). -/
def act0 (t : Feed) (m k : Nat) : Int :=
  if t.beyond k || t.pastM m then 0
  else
    let c := groupElem t.spad (t.aRow (k / 256)) t.aw m (k % 256)
    if t.delta then
      let r := groupElem t.spad (t.rRow (k / 256)) t.aw m (k % 256)
      c.elim (t.zp k) (fun v => (v : Int)) - r.elim (t.zp k) (fun v => (v : Int))
    else c.elim 0 (fun v => (v : Int) - t.zp k)

/-- The operand of the activation side: 0 in a block that the gate skips, which is absent from the work (R245). -/
def act (t : Feed) (m k : Nat) : Int := if (m / 8, k / 16) ∈ t.skipped then 0 else t.act0 m k

/-- Column n of the block that holds (n, k) is a zero column of a gather (R190, R220). -/
def zeroCol (t : Feed) (n k : Nat) : Bool :=
  (SMap.getD t.zeroCols (slotAddr (t.wRow (k / 256)) t.ww (4 * (k % 256 / 16) + n / 8)) 0).testBit (n % 8)

/-- The stored code of a weight; none, a zero operand, where its block is absent, it is a zero column, or the element lies
outside the operands (R66, R67, R190, R220). -/
def wCode (t : Feed) (n k : Nat) : Option Nat :=
  if t.beyond k || t.pastN n || t.zeroCol n k then none else groupElem t.spad (t.wRow (k / 256)) t.ww n (k % 256)

def wgt (t : Feed) (n k : Nat) : Int := (t.wCode n k).elim 0 (weightValue (Prec.wbits t.prec))

/-- The 128 operands of activation block (r, j), as the gate sees them. -/
def actBlock (t : Feed) (r j : Nat) : List Int :=
  (List.range 128).map (fun e => t.act0 (8 * r + e / 16) (16 * j + e % 16))

/-- How block (r, j) enters the array: by PRESENT, or by the delta gate (R213, R244, R245). -/
def gate (t : Feed) (r j : Nat) : Gate :=
  if t.delta then deltaGate (t.actBlock r j) t.tau
  else if (presentOf t.spad (t.aRow (j / 16))).testBit (j % 16 * 4 + r) then .compute else .none

/-- K-block j is kept (R214, R220, R245). -/
def keeps (t : Feed) (j : Nat) : Bool :=
  (List.range 4).any (fun r => decide (t.gate r j = .compute)) &&
  decide (presentOf t.spad (t.wRow (j / 16)) / 2 ^ (4 * (j % 16)) % 16 ≠ 0)

def kept (t : Feed) : List Nat := (List.range (16 * t.ngc)).filter t.keeps

/-- A W-serial k-group of a ternary layer whose weights are all 0 (R83). -/
def emptyK (t : Feed) (j g : Nat) : Bool :=
  decide (Prec.wbits t.prec = 0xE) &&
  (List.range 32).all (fun n => (List.range 4).all (fun i => decide (t.wgt n (16 * j + 4 * g + i) = 0)))

/-- Essential width and plane mask of block (r, j) (R85, R86); an absent one has an empty mask. -/
def ess (t : Feed) (r j : Nat) : Nat × Nat :=
  if t.gate r j = .compute then
    let l := t.actBlock r j
    let e := essWidth (Prec.abits t.prec) l
    (e, essMask e l)
  else (1, 0)

/-- The positions of one K-block and plane. -/
def steps (t : Feed) (p j needs tops : Nat) : List ArrPos :=
  ((List.range 4).filter (fun g => Prec.serial t.prec || !t.emptyK j g)).map (fun g => ⟨p, j, g, needs, tops⟩)

/-- Bits r of a list. -/
def bitsOf (l : List Bool) : Nat := sliceOf (fun i => l.getD i false)

/-- The positions of a tile in order (R74, R75, R89): W-serial, every row group needs each; A-serial, those whose mask
holds the plane, from the highest plane that any row group needs. -/
def plan (t : Feed) : List ArrPos :=
  let ks := t.kept
  if Prec.serial t.prec then
    let es := ks.map (fun j => (j, (List.range 4).map (fun r => t.ess r j)))
    let all := es.foldl (fun a x => x.2.foldl (fun a y => a ||| y.2) a) 0
    if all = 0 then []
    else
      let top := Nat.log2 all
      let at_ (p : Nat) (x : Nat × List (Nat × Nat)) : List ArrPos :=
        t.steps p x.1 (bitsOf (x.2.map (fun y => y.2.testBit p))) (bitsOf (x.2.map (fun y => decide (y.1 = p + 1))))
      if Prec.order t.prec = 0 then (List.range (top + 1)).reverse.flatMap (fun p => es.flatMap (at_ p))
      else es.flatMap (fun x => (List.range (top + 1)).flatMap (fun p => at_ p x))
  else
    let n := Prec.wPlanes t.prec
    let dual := decide (Prec.wbits t.prec = 0xE ∨ Prec.wbits t.prec = 1)
    let at_ (p j : Nat) : List ArrPos := t.steps p j 0xF (if !dual ∧ p + 1 = n then 0xF else 0)
    if Prec.order t.prec = 0 then (List.range n).reverse.flatMap (fun p => ks.flatMap (at_ p))
    else ks.flatMap (fun j => (List.range n).flatMap (fun p => at_ p j))

/-- The two indices and the table operands of lookup unit (m, n) at a position (R70, R82, R84). -/
def lookup (t : Feed) (q : ArrPos) (m n : Nat) : List Int × Nat × Nat × Bool :=
  let k := 16 * q.kblk + 4 * q.g
  let xs := (List.range 4).map (fun i => t.act m (k + i))
  let wb := Prec.wbits t.prec
  if Prec.serial t.prec then
    ((List.range 4).map (fun i => t.wgt n (k + i)), sliceOf (fun i => bitI (xs.getD i 0) q.plane), 0, false)
  else if wb = 0xE then
    (xs, sliceOf (fun i => (t.wCode n (k + i)).elim false (·.testBit 0)),
      sliceOf (fun i => (t.wCode n (k + i)).elim false (·.testBit 1)), true)
  else if wb = 1 then
    (xs, sliceOf (fun i => (t.wCode n (k + i)).elim false (·.testBit 0)),
      sliceOf (fun i => (t.wCode n (k + i)).elim false (fun c => !c.testBit 0)), true)
  else (xs, sliceOf (fun i => bitI (t.wgt n (k + i)) q.plane), 0, false)

/-- What lookup unit (m, n) adds at a position, and whether an index is not 0 (R73). -/
def adds (t : Feed) (q : ArrPos) (m n : Nat) : Int × Bool :=
  match t.lookup q m n with
  | (v, sp, sn, dual) =>
    (lookupStep v sp sn q.plane (q.tops.testBit (m / 8)) dual, decide (sp ≠ 0 ∨ sn ≠ 0))

/-! ### Terms of the ledger -/

/-- The sums of |operand| by table line (R256): rows in W-serial mode, columns in A-serial mode, over every k-group that
an uncut execution builds a table for. -/
def lineSums (t : Feed) (plan : List ArrPos) : List Nat :=
  let kgs := ((plan.filter (fun q => decide (q.needs ≠ 0))).map (fun q => 16 * q.kblk + 4 * q.g)).dedup
  (List.range 32).map (fun l => kgs.foldl (fun a k => (List.range 4).foldl (fun a i =>
    a + (if Prec.serial t.prec then t.wgt l (k + i) else t.act l (k + i)).natAbs) a) 0)

/-- rsum[m] (R255). -/
def rsum (t : Feed) (plan : List ArrPos) (m : Nat) : Int :=
  let kgs := (plan.map (fun q => 16 * q.kblk + 4 * q.g)).dedup
  kgs.foldl (fun a k => (List.range 4).foldl (fun a i => a + t.act m (k + i)) a) 0

/-- The blocks that the gate skips, and those whose max |d| equals τ (R244, Table 7-8). -/
def gated (t : Feed) : List (Nat × Nat) × Nat :=
  if !t.delta then ([], 0)
  else
    let all := (List.range (16 * t.ngc)).flatMap (fun j => (List.range 4).map (fun r => (r, j)))
    (all.filter (fun x => decide (t.gate x.1 x.2 = .skip)),
     all.countP (fun x => let d := absMax (t.actBlock x.1 x.2); decide (d ≠ 0 ∧ d * 16 = t.tau)))

/-- The 128 skip sums (R246): row group r, column n at 32r + n. -/
def skipSums (t : Feed) (skipped : List (Nat × Nat)) : List Nat :=
  (List.range 128).map (fun e =>
    skipped.foldl (fun a x => if x.1 = e / 32 then
      a + Prec.tau t.prec * (List.range 16).foldl (fun a i => a + (t.wgt (e % 32) (16 * x.2 + i)).natAbs) 0 else a) 0)

/-- An operand block that the tile consumes is poisoned (R126). -/
def poisoned (t : Feed) : Bool :=
  let act (row r j : Nat) : Bool := groupPoison t.spad row (8 * r) (16 * (j % 16))
  let ks := if t.delta then List.range (16 * t.ngc) else t.kept
  ks.any (fun j => (List.range 4).any (fun r =>
    act (t.aRow (j / 16)) r j || (t.delta && act (t.rRow (j / 16)) r j))) ||
  t.kept.any (fun j => (List.range 4).any (fun r => act (t.wRow (j / 16)) r j))

end Feed

/-- kerf_bound() (R257). -/
def kerfBound (c s : Nat) (mid : Bool) : Nat :=
  let b := (2 ^ c - 1) * s
  satTo 64 (if mid then (b + 1) / 2 else b)

end Sys2Proof.Machine
end

