-- ==== Sys2Proof/Machine/Codes.lean ====
section
/-! DEFINITION. Conversion of accumulator elements into codes: rescale() (R154 to R158, R162), range records (R146),
statistics of carried scales (R166), counts (R157, R177), and output blocks (R191, R192, R211). -/

namespace Sys2Proof.Machine

open Sys2Proof

/-! ### Rescale words (Table 5-5) -/

def Rw.mult (w : Word) : Nat := fld w 30 0
def Rw.shift (w : Word) : Nat := fld w 37 32
def Rw.zout (w : Word) : Int := signed 16 (fld w 55 40)
def Rw.constCh (w : Word) : Bool := w.getLsbD 56
def Rw.mk (mult shift : Nat) (zout : Int) : Word :=
  BitVec.ofNat 64 (mult + shift * 2 ^ 32 + (zout % 65536).toNat * 2 ^ 40)
def Rw.const : Word := BitVec.ofNat 64 (2 ^ 56)

def clampI (lo hi x : Int) : Int := if x < lo then lo else if hi < x then hi else x

/-- v / 2^s rounded: ties to even, or stochastically with a 16-bit draw (R156). -/
def roundShift (v : Int) (s : Nat) (sr : Bool) (r16 : Nat) : Int :=
  let q := v / 2 ^ s
  if s = 0 then q else
  let f := (v % 2 ^ s).toNat
  if sr then
    let f16 := if 16 ≤ s then f / 2 ^ (s - 16) else f * 2 ^ (16 - s)
    if 65536 ≤ f16 + r16 then q + 1 else q
  else
    let half := 2 ^ (s - 1)
    if half < f ∨ (f = half ∧ q % 2 = 1) then q + 1 else q

/-- rescale(): the code and sat (R156). -/
def rescale (acc : Acc) (rw : Word) (cmin cmax : Int) (sr : Bool) (r16 : Nat) : Int × Bool :=
  if Rw.constCh rw then (0, false)
  else if acc = accNai then (0, true)
  else if acc = accPinf then (cmax, true)
  else if acc = accNinf then (cmin, true)
  else
    let y := roundShift (acc.toInt * Rw.mult rw) (Rw.shift rw) sr r16 + Rw.zout rw
    (clampI cmin cmax y, decide (y < cmin ∨ cmax < y))

/-- A rescale word that R155 refuses. -/
def rwBad (rw : Word) (cmin cmax : Int) : Bool :=
  decide (Rw.shift rw = 63 ∨ Rw.zout rw < cmin ∨ cmax < Rw.zout rw)

/-! ### Range records and counts -/

/-- lo[n] and hi[n] that a range record starts with: MAXN and -MAXN, or the zeros of a scrub (R146, R329). -/
def Rq.start (x : Rq) : Int := if x.wiped then 0 else accMax
def Rq.low (x : Rq) (n : Nat) : Int := SMap.getD x.lo n x.start
def Rq.high (x : Rq) (n : Nat) : Int := SMap.getD x.hi n (-x.start)

/-- lo[n] and hi[n] take in a minimum and a maximum (R146, R148). -/
def Rq.fold (x : Rq) (n : Nat) (lo hi : Int) : Rq :=
  { x with lo := SMap.put x.lo n (min (x.low n) lo) x.start, hi := SMap.put x.hi n (max (x.high n) hi) (-x.start) }

def Rq.valid (x : Rq) : Rq := { x with rangeValid := true }

/-- range_pass() (R146). -/
def Rq.rangePass (x : Rq) (n : Nat) (v : Acc) : Rq :=
  if accSpecial v then { x with special := true }
  else
    (x.fold n v.toInt v.toInt).valid

/-- A code is written: USED_MIN, USED_MAX, CODES, and CLIPS for a clamped element (Tables 5-10, 5-11, R157). -/
def Rq.wrote (x : Rq) (code : Int) (clip : Bool) : Rq :=
  { x with usedMin := if code < x.usedMin.toInt then BitVec.ofInt 16 code else x.usedMin,
           usedMax := if x.usedMax.toInt < code then BitVec.ofInt 16 code else x.usedMax,
           codes := sat32 x.codes 1, clips := if clip then sat32 x.clips 1 else x.clips }

/-- The lowest and highest code, the clipped and the converted elements of an entry (R166). -/
def Rq.stat (x : Rq) (n : Nat) (code : Int) (clip : Bool) : Rq :=
  let e := SMap.getD x.stats n {}
  let e : EntryStat := { lo := min e.lo code, hi := max e.hi code, clipped := e.clipped + b2n clip, n := e.n + 1 }
  { x with stats := SMap.set x.stats n e }

/-! ### Rows of codes -/

/-- How elements become codes: OUTBITS, SYM, SR, RANGE_REQUANT or REQUANT, the byte address of the first of 32 rescale
words, the channel of column 0 (Table 12-10), and the channels whose blocks are poisoned (R150, R151). -/
structure Conv where
  o : Nat
  sym : Bool
  sr : Bool
  range : Bool
  rwAddr : Nat
  ch0 : Nat
  nf : Nat → Bool := fun _ => false

def Conv.cmin (k : Conv) : Int := codeMin k.o k.sym
def Conv.cmax (k : Conv) : Int := codeMax k.o k.sym

/-- Stored bits of one code. -/
def Conv.width (k : Conv) : Nat := storedWidth k.o 0

/-- The rescale word of column n (R154). -/
def Conv.rw (k : Conv) (spad : List Host.Cell) (n : Nat) : Word := Memory.readWord spad (k.rwAddr + 8 * n)

/-- Some rescale word of the 32 is one that R155 refuses. -/
def Conv.bad (k : Conv) (spad : List Host.Cell) : Bool :=
  (List.range 32).any (fun n => rwBad (k.rw spad n) k.cmin k.cmax)

/-- One element joins an output block. `inside` is false for one outside the operands: zero bits (R67, R192). -/
def Conv.elem (k : Conv) (spad : List Host.Cell) (x : Rq) (b : BlockAcc) (n : Nat) (v : Acc) (psn inside : Bool)
    (draw : Nat) : Rq × BlockAcc :=
  if inside then
    let rw := k.rw spad n
    let y := rescale v rw k.cmin k.cmax k.sr draw
    let x := if k.range then (x.rangePass (k.ch0 + n) v).stat (k.ch0 + n) y.1 y.2 else x
    let zero := if Rw.constCh rw then 0 else Rw.zout rw
    (x.wrote y.1 y.2,
     { codes := b.codes ++ [codeBits k.o y.1],
       psn := b.psn || psn || y.2 || k.nf (k.ch0 + n), zero := b.zero && decide (y.1 = zero) })
  else (x, { b with codes := b.codes ++ [0] })

/-- One row of 32 elements joins the two output blocks of its row group. -/
def Conv.row (k : Conv) (spad : List Host.Cell) (x : Rq) (left right : BlockAcc) (v : Nat → Acc) (psn inside : Nat → Bool)
    (draw : Nat → Nat) : Rq × BlockAcc × BlockAcc :=
  (List.range 32).foldl (fun (a : Rq × BlockAcc × BlockAcc) n =>
    if n < 16 then
      let y := k.elem spad a.1 a.2.1 n (v n) (psn n) (inside n) (draw n)
      (y.1, y.2, a.2.2)
    else
      let y := k.elem spad a.1 a.2.2 n (v n) (psn n) (inside n) (draw n)
      (y.1, a.2.1, y.2)) (x, left, right)

/-- A formed block goes to block `i` of the group at row `g`: absent when it is not poisoned and holds zero codes only, and
always where `untouched` says so (R125, R191, R234). -/
def BlockAcc.write (b : BlockAcc) (m : List Host.Cell) (g w i : Nat) (untouched : Bool) : List Host.Cell :=
  writeBlock m g w i (!untouched && (b.psn || !b.zero)) b.psn b.codes

/-- The accumulator words of a row of elements, from word address `a` up; those outside the operands are not stored
(R67, R110). -/
def writeAccRow (m : List Host.Cell) (a : Nat) (v : Nat → Acc) (psn : Bool) (inside : Nat → Bool) : List Host.Cell :=
  (List.range 32).foldl (fun m n =>
    if inside n then Memory.writeWord m (a + 8 * n) (accWord (v n) psn true) else m) m

end Sys2Proof.Machine
end

