-- ==== Sys2Proof/Machine/Drain.lean ====
section
/-! DEFINITION. Tiles: the state machine of Table 4-3, drains to RQ, WIDE, CHAIN and SAB (R104 to R128), chain sums and
inlets (R112 to R118), the scatter buffer's banks (R119 to R123), residue checks of rows (R598 to R606). -/

namespace Sys2Proof.Machine

open Sys2Proof

def Cell.tile (x : Cell) (t : Nat) : Tile := if t = 0 then x.tile0 else x.tile1
def Cell.setTile (x : Cell) (t : Nat) (y : Tile) : Cell := if t = 0 then { x with tile0 := y } else { x with tile1 := y }
def Cell.modTile (x : Cell) (t : Nat) (f : Tile → Tile) : Cell := x.setTile t (f (x.tile t))

/-- The row ranges of a drain: rows read and rows written (R301). -/
def drainRows (b : List Word) : List (Nat × Nat) × List (Nat × Nat) :=
  let dest := bf b 0 2 1
  let rqop := bf b 0 5 4
  if dest = 1 ∨ (dest = 0 ∧ rqop = 0) then ([], [(bf b 3 13 0, 64)])
  else if dest = 0 then
    ([(bf b 3 45 32, 2)], [(bf b 3 27 14, groupRows (storedWidth (Prec.outbits (b.getD 5 0)) 0))])
  else if dest = 3 then ([(bf b 3 59 46, 1)], [])
  else ([], [])

/-- How a drain to RQ converts. -/
def drainConv (b : List Word) (ch0 : Nat) (nf : Nat → Bool) : Conv :=
  { o := Prec.outbits (b.getD 5 0), sym := bb b 4 32, sr := Prec.sr (b.getD 5 0), range := decide (bf b 0 5 4 = 2),
    rwAddr := 128 * bf b 3 45 32, ch0 := ch0, nf := nf }

/-- The operand rules of a drain block (R109, R110, R114, R135, R136, Tables 4-4 and 12-10): the code with which one that breaks
them completes, with no message sent and the tile unchanged. -/
def drainFault (spad : List Host.Cell) (b : List Word) : Option Code :=
  let dest := bf b 0 2 1
  let rqop := bf b 0 5 4
  let io := drainRows b
  let cdest := b.getD 1 0
  if !rowsIn (io.1 ++ io.2) then some ccBadDesc
  else if (dest = 1 ∨ (dest = 0 ∧ rqop = 0)) ∧ bf b 3 13 0 % 64 ≠ 0 then some ccBadDesc
  else if dest = 0 ∧ rqop = 3 then some ccBadDesc
  else if dest = 2 ∧ ¬(UA.canonical cdest ∧ UA.depth cdest = 5) then some ccBadDesc
  else if dest = 0 ∧ rqop ≠ 0 then
    let k := drainConv b 0 (fun _ => false)
    let o := Prec.outbits (b.getD 5 0)
    if ¬((1 ≤ o ∧ o ≤ 8) ∨ o = 0xF) ∨ (bb b 4 32 ∧ o = 1) then some ccBadPrec
    else if bf b 3 31 28 % 2 ≠ 0 ∨ k.bad spad then some ccBadDesc
    else none
  else none

/-! ### From CLOSING to DRAINING -/

/-- Each element becomes acc_add(inlet element, tile element); POISON and the ledgers combine (R109, R113, R118, R266). The
inlet stays held until the drain is over (R602). -/
def Tile.merged (t : Tile) (k : ChainSum) : Tile :=
  { t with elems := SMap.update (0 : Acc) (fun i v => accAdd (SMap.getD k.elems i 0) v) 1024 0 t.elems,
           res := SMap.update (0 : BitVec 3) (fun i v =>
             let a := accAdd (SMap.getD k.elems i 0) (SMap.getD t.elems i 0)
             if accSpecial a then v else residue a.toInt) 1024 0 t.res,
           poison := t.poison || k.poison, ledger := k.ledger.merge { t.ledger with segs := max 1 t.ledger.segs } }

/-- A tile whose drain has still to merge discards a sum of another chain (R117); a CLOSING one, with its token and, where it
merges, its sum, passes to DRAINING (Table 4-3). A drain of an EMPTY tile is DRAINING at once, as the table says, and where it
merges it reads no row before its sum is in the inlet (R117). -/
def Tile.settle (t : Tile) : Tile :=
  match t.drain with
  | none => t
  | some d =>
    if ¬ (t.st = .closing ∨ (t.st = .draining ∧ d.due)) then t else
    let t := match t.inlet with
      | some k => if d.due ∧ k.chain.toNat ≠ bf d.block 0 39 8 then
          { t with inlet := none, staleDiscards := sat16 t.staleDiscards 1 } else t
      | none => t
    if !t.token then t
    else if d.due then
      match t.inlet with
      | some k => { t.merged k with st := .draining, drain := some { d with due := false } }
      | none => t
    else { t with st := .draining }

/-- A drain enters its tile (Table 4-3): from EMPTY with no token outstanding. -/
def Tile.beginDrain (t : Tile) (b : List Word) (op : Nat) : Tile :=
  Tile.settle { t with
    st := if t.st = .empty then .draining else .closing, token := t.token || decide (t.st = .empty),
    drain := some { block := b, row := 0, op := op, due := bb b 0 3 } }

/-- The drain is issued: an operation in flight whose completion is the tile's (R106). `run` and `cmd` are those of the
instruction that names it. -/
def State.beginDrain (s : State) (c : CellIx) (t : Nat) (b : List Word) (run cmd : Nat) (job : BitVec 32) (layer : BitVec 16) :
    State :=
  let io := drainRows b
  s.modCell c (fun x =>
    let k := x.seq.nextOp
    let o : UnitOp := { id := k, unit := .drain, reads := io.1, writes := io.2, done := false, run := run, cmd := cmd }
    let y := x.tile t
    let y := if y.st = .empty then { y with job := job, layer := layer } else y
    { x.setTile t (y.beginDrain b k) with ops := x.ops ++ [o], seq := { x.seq with nextOp := k + 1 } })

/-- A DRAIN waits for its tile (Table 4-3): one that met LOADING, CLOSING or DRAINING stalls until EMPTY. -/
def Cell.drainWaits (x : Cell) (t : Nat) : Bool :=
  decide ((x.tile t).st ≠ .empty) && (x.seq.untilEmpty || decide ((x.tile t).st ≠ .filling))

/-- A DRAIN to destination `dest` (Table 4-3). -/
def State.drain (s : State) (c : CellIx) (f : InsFields) (i : Instr) (dest : Nat) : State :=
  s.guarded c i [f.ra] [] [] (fun s =>
    s.withBlock c f i maskDrain (fun b s =>
      if bf b 0 2 1 ≠ dest then s else
      let t := bf b 0 0 0
      let io := drainRows b
      if (s.cell c).drainWaits t then (s.stall c 1 i).modSeq c (fun q => { q with untilEmpty := true })
      else s.guarded c i [] io.1 io.2 (fun s =>
        let s := s.modSeq c (fun q => { q with untilEmpty := false })
        match drainFault (s.cell c).spad b with
        | some code => s.finish c code
        | none =>
          let q := (s.cell c).seq
          (s.beginDrain c t b q.run (q.cmd.elim 0 (·.no)) (s.cell c).job (s.cell c).layer).retire c)))

def bodyDrainRq (c : CellIx) (f : InsFields) (s : State) : State := s.drain c f (.drainRq c f) 0
def bodyDrainWide (c : CellIx) (f : InsFields) (s : State) : State := s.drain c f (.drainWide c f) 1
def bodyDrainChain (c : CellIx) (f : InsFields) (s : State) : State := s.drain c f (.drainChain c f) 2
def bodyDrainSab (c : CellIx) (f : InsFields) (s : State) : State := s.drain c f (.drainSab c f) 3

/-! ### Tokens -/

/-- The array works on tile `t` now: it has joined, and its lookups are not over. -/
def Cell.arrayOn (x : Cell) (t : Nat) : Bool :=
  x.arr.elim false (fun r => r.joined && !r.ended && decide ((bf r.block 0 0 0 + r.done) % 2 = t))

/-- TREE_EMPTY_TOKEN: the joined token of the last instruction that joined arrives at tile `t` (R107). -/
def State.tokenArrives (s : State) (c : CellIx) (t : Nat) : State :=
  s.modCell c (fun x => x.modTile t (fun y => Tile.settle { y with token := true }))

def execTreeEmptyToken (c : CellIx) (t : Fin 2) (s : State) : Out :=
  let x := s.cell c
  let y := x.tile t.val
  .next (onlyIf (s.cellUp c && !x.scrubbing && !y.token && !x.arrayOn t.val &&
    decide (y.st = .filling ∨ y.st = .closing)) s (·.tokenArrives c t.val))

/-! ### One row of a drain -/

/-- What a row's storage check finds (R598 to R600, R604): element (m, n) with `x`'s bits flipped differs in residue from
what is stored with it, and neither value is a special code. -/
def Tile.storageFails (t : Tile) (m : Nat) (x : Option Upset) : Bool :=
  match x with
  | none => false
  | some u =>
    if u.m.val ≠ m then false else
    let v := SMap.getD t.elems (32 * m + u.n.val) 0
    let y := v ^^^ u.flip
    !accSpecial v && !accSpecial y && decide (residue y.toInt ≠ SMap.getD t.res (32 * m + u.n.val) 0)

/-- Element (m, n) as the drain reads it; an upset that the check does not see stays in it (R600). -/
def Tile.readElem (t : Tile) (m : Nat) (x : Option Upset) (n : Nat) : Acc :=
  let v := SMap.getD t.elems (32 * m + n) 0
  match x with
  | some u => if u.m.val = m ∧ u.n.val = n then v ^^^ u.flip else v
  | none => v

/-- The row is zero and the next one is due (R108). -/
def Tile.rowRead (t : Tile) (m : Nat) (d : DrainRun) : Tile :=
  { t with elems := t.elems.filter (fun e => decide (e.1 / 32 ≠ m)),
           res := t.res.filter (fun e => decide (e.1 / 32 ≠ m)), drain := some { d with row := m + 1 } }

/-- The operation of the drain is over: the tile is EMPTY, its hidden copies and held rows are released (Table 4-3, R602,
R603), and the counts of a completed tile are made (Tables 7-7, 7-8, 18-1). -/
def State.endDrain (s : State) (c : CellIx) (t : Nat) (code : Code) : State :=
  s.modCell c (fun x =>
    let y := x.tile t
    match y.drain with
    | none => x
    | some d =>
      let n : Tile := { inlet := if bb d.block 0 3 then none else y.inlet, port := y.port, staleDiscards := y.staleDiscards }
      let cut := y.ledger.cutPlane
      let x := (x.setTile t n).modOp d.op (fun o => { o with done := true, code := code })
      { x with prevLastC := cut, prevKerfed := if cut = 0 then x.prevKerfed else sat16 x.prevKerfed 1,
               cnt := { x.cnt with tilesDrained := x.cnt.tilesDrained + 1,
                                   tilesKerfed := if cut = 0 then x.cnt.tilesKerfed else x.cnt.tilesKerfed + 1 } })

/-- The ledger of a tile as its drain hands it on: the class and flags of its layer by PREC, POISON and SPECIAL of the output
(Table 7-5), and in a delta tile that a LOAD began the bound and the frames of its reference (R247, Table 7-6). -/
def State.outLedger (s : State) (t : Tile) (b : List Word) (psn special : Bool) : Ledger :=
  let p := b.getD 5 0
  let k := bf b 2 63 40
  let l := t.ledger
  let l := { l with
    exact := l.exact && Prec.exact p, delta := l.delta || Prec.delta p, pred := l.pred || Prec.pred p,
    segs := max 1 l.segs, poison := l.poison || psn, special := l.special || special }
  if t.loaded && t.isDelta then
    let r := (s.refOf t.job t.layer).elim (Config.foreignRef t.job t.layer k 0, Config.foreignRef t.job t.layer k 1)
      (fun d => s.refLedger d k)
    { l with deltaBound16 := satTo 64 (l.deltaBound16 + r.1), frames := max l.frames (satTo 24 (r.2 + 1)) }
  else l

/-- The items of a CHAIN_SUM body (R115). -/
def chainItems (h : Payload) (elems : List Acc) (job : BitVec 32) (l : Ledger) : List Payload :=
  h :: (((List.range 341).map (fun i => BitVec.ofNat 120 ((elems.getD (3 * i) 0).toNat
    + (elems.getD (3 * i + 1) 0).toNat * 2 ^ 40 + (elems.getD (3 * i + 2) 0).toNat * 2 ^ 80))) ++
    BitVec.ofNat 120 ((elems.getD 1023 0).toNat + job.toNat * 2 ^ 40) :: l.present)

/-- The CHAIN_SUM of a finished drain (R112 to R115, R127). Its TAG is the tile's number (DESIGN CHOICE, log 22). -/
def State.sendChain (s : State) (c : CellIx) (t : Nat) (d : DrainRun) (elems : List Acc) : State :=
  let y := (s.cell c).tile t
  let b := d.block
  let l := s.outLedger y b y.poison (elems.any accSpecial)
  let h : Payload := BitVec.ofNat 120 (bf b 0 39 8 + bf b 2 27 16 * 2 ^ 32 + bf b 2 39 28 * 2 ^ 44
    + b2n y.poison * 2 ^ 56 + b2n l.exact * 2 ^ 57 + l.items * 2 ^ 64 + bf b 2 63 40 * 2 ^ 80)
  s.sendMsg { dest := b.getD 1 0, epoch := BitVec.ofNat 16 (bf b 2 15 0), cls := 0x04, tag := BitVec.ofNat 32 t,
              src := s.cellAddr c, code := 0, bounced := false, body := chainItems h elems y.job l }

/-- A code for an output that does or does not carry poison (R128). -/
def outCode (psn : Bool) : Code := if psn then ccPoison else ccOk

/-- WIDE and CHAIN: the row goes out (R110, R115). -/
def State.rowWide (s : State) (c : CellIx) (t m : Nat) (d : DrainRun) (v : Nat → Acc) (inside : Nat → Bool) : State :=
  let psn := ((s.cell c).tile t).poison
  s.modCell c (fun x =>
    { x.modTile t (fun y => { y.rowRead m d with
        ledger := { y.ledger with special := y.ledger.special || (List.range 32).any (fun n => inside n && accSpecial (v n)) } }) with
      spad := writeAccRow x.spad (128 * (bf d.block 3 13 0 + 2 * m)) v psn inside })

/-- A WIDE row of a DELTA layer's tile goes to the tile's reference words too (R247). -/
def State.rowRef (s : State) (y : Tile) (m : Nat) (b : List Word) (v : Nat → Acc) (inside : Nat → Bool) : State :=
  if Prec.delta (b.getD 5 0) then
    (s.refOf y.job y.layer).elim s (fun d =>
      { s with mem := { s.mem with mem := writeAccRow s.mem.mem (d.tile (bf b 2 63 40) + 256 * m) v y.poison inside } })
  else s

/-- The reference ledger of a tile that has drained to WIDE (R247): for a key tile FRAMES 0 and 16 × KERF_BOUND, for a delta
tile the frames of its ledger and DELTA_BOUND16 + 16 × KERF_BOUND. -/
def State.writeRefLedger (s : State) (y : Tile) (b : List Word) (l : Ledger) : State :=
  if Prec.delta (b.getD 5 0) then
    (s.refOf y.job y.layer).elim s (fun d =>
      let bound := satTo 64 ((if y.isDelta then l.deltaBound16 else 0) + 16 * l.kerfBound)
      let frames := if y.isDelta then l.frames else 0
      let m := Memory.writeWords s.mem.mem (d.ledger (bf b 2 63 40)) [BitVec.ofNat 64 bound, BitVec.ofNat 64 frames]
      { s with mem := { s.mem with mem := m } })
  else s

/-- RANGE: range_pass() on every element, and the words (R146). -/
def State.rowRange (s : State) (c : CellIx) (t m : Nat) (d : DrainRun) (ch0 : Nat) (v : Nat → Acc) (inside : Nat → Bool) :
    State :=
  (s.rowWide c t m d v inside).modCell c (fun x =>
    { x with rq := (List.range 32).foldl (fun q n => if inside n then q.rangePass (ch0 + n) (v n) else q) x.rq })

/-- REQUANT and RANGE_REQUANT: the row's codes; with the eighth row of a group its two blocks are written (R156, R166). -/
def State.rowCodes (s : State) (c : CellIx) (t m : Nat) (d : DrainRun) (ch0 : Nat) (v : Nat → Acc) (inside : Nat → Bool)
    (draw : Nat → Nat) : State :=
  s.modCell c (fun x =>
    let k := drainConv d.block ch0 ((s.convOf (x.tile t).job (x.tile t).layer).poisons false)
    let psn := (x.tile t).poison
    let y := k.row x.spad x.rq d.left d.right v (fun _ => psn) inside draw
    let special := (List.range 32).any (fun n => inside n && accSpecial (v n))
    let g := bf d.block 3 27 14
    let i := bf d.block 3 31 28 * 4 + m / 8
    let last := decide (m % 8 = 7)
    let d := { d with left := if last then {} else y.2.1, right := if last then {} else y.2.2,
                      psn := d.psn || y.2.1.psn || y.2.2.psn }
    let x := { x with rq := y.1 }
    let x := if last then
        { x with spad := y.2.2.write (y.2.1.write x.spad g k.width i false) g k.width (i + 4) false } else x
    x.modTile t (fun y => { y.rowRead m d with ledger := { y.ledger with special := y.ledger.special || special } }))

/-! ### Scatter items (R120 to R123) -/

def Sab.slot (b : Sab) (i : Nat) : SabSlot := SMap.getD b.slots i {}

/-- A bank applies an item (R121). -/
def Sab.apply (b : Sab) (i : ScatterItem) : Sab :=
  let z := b.slot i.slot
  { b with slots := SMap.put b.slots i.slot ⟨accAdd z.value i.value, z.poison || i.poison, true⟩ {} }

/-- The items of row m from column `n0`: the bank's first of the row is applied where nothing waits before it, a later one
enters the bank's queue, and a full queue makes the drain wait (R122). Answers the column reached, and the bank that it waits
for. -/
def Sab.scatter (b : Sab) (item : Nat → Option ScatterItem) (used : List Nat) : List Nat → Sab × Nat × Option Nat
  | [] => (b, 32, none)
  | n :: t =>
    match item n with
    | none => Sab.scatter b item used t
    | some i =>
      let k := i.slot % 16
      let q := SMap.getD b.queues k []
      if q = [] ∧ k ∉ used then Sab.scatter (b.apply i) item (k :: used) t
      else if q.length < 8 then
        Sab.scatter { b with queues := SMap.set b.queues k (q ++ [i]), conflicts := sat32 b.conflicts 1 } item used t
      else (b, n, some k)

/-- The slot of element (m, n), none where COLIDX holds 0xFFFF (R120). -/
def sabSlot (spad : List Host.Cell) (b : List Word) (m n : Nat) : Option Nat :=
  let x := Memory.readNat spad (128 * bf b 3 59 46 + 2 * n) 2
  if x = 0xFFFF then none else some ((bf b 4 15 0 + m * bf b 4 31 16 + x) % 65536)

/-- SAB: the row's items (R120, R127). -/
def State.rowSab (s : State) (c : CellIx) (t m : Nat) (d : DrainRun) (v : Nat → Acc) (inside : Nat → Bool) : State :=
  s.modCell c (fun x =>
    let y := x.tile t
    let item (n : Nat) : Option ScatterItem :=
      if inside n then (sabSlot x.spad d.block m n).map (fun i => ⟨i, v n, y.poison⟩) else none
    let r := Sab.scatter x.sab item [] ((List.range 32).drop d.col)
    let special := (List.range 32).any (fun n => (item n).isSome && accSpecial (v n))
    let x := { x with sab := r.1 }
    if r.2.1 = 32 then
      x.modTile t (fun y => { y.rowRead m { d with col := 0, bank := none } with
        ledger := { y.ledger with special := y.ledger.special || special } })
    else x.modTile t (fun y => { y with drain := some { d with col := r.2.1, bank := r.2.2 } }))

/-- The sum that a bank's adder delivers with bits of it flipped; the check compares the residue with that of slot and item, unless
one is special (R598, R599). -/
def Sab.upsetSum (b : Sab) (i : ScatterItem) (flip : Acc) : Acc := accAdd (b.slot i.slot).value i.value ^^^ flip
def Sab.addFails (b : Sab) (i : ScatterItem) (flip : Acc) : Bool :=
  let v := (b.slot i.slot).value
  let y := b.upsetSum i flip
  !accSpecial v && !accSpecial i.value && !accSpecial y &&
    decide (residue y.toInt ≠ BitVec.ofNat 3 (((residue v.toInt).toNat + (residue i.value.toInt).toNat) % 7))

/-- A bank applies the head of its conflict queue (R121); an upset that the check does not see stays in the slot (R600), and one
that it sees has the add repeated from the held slot and item (R599). -/
def Sab.applyHead (b : Sab) (k : Nat) (x : Option Acc) : Sab :=
  match SMap.getD b.queues k [] with
  | [] => b
  | i :: t =>
    let y := b.apply i
    let z := match x with
      | none => y
      | some flip =>
        if b.addFails i flip then y
        else { y with slots := SMap.put y.slots i.slot { y.slot i.slot with value := b.upsetSum i flip } {} }
    { z with queues := SMap.put b.queues k t [] }

/-- The check of the head's add fails. -/
def Sab.headFails (b : Sab) (k : Nat) (x : Option Acc) : Bool :=
  match SMap.getD b.queues k [], x with
  | i :: _, some flip => b.addFails i flip
  | _, _ => false

/-- SAB_ITEM_APPLY, with what upsets the bank's adder. -/
def State.sabItem (s : State) (c : CellIx) (k : Nat) (x : Option Acc) : State :=
  let t := s.modCell c (fun y => { y with sab := y.sab.applyHead k x })
  if (s.cell c).sab.headFails k x then t.countRepeats c 1 else t

def execSabItemApply (c : CellIx) (bank : Fin 16) (x : Option Acc) (s : State) : Out :=
  .next (onlyIf (s.cellUp c && !(s.cell c).scrubbing) s (·.sabItem c bank.val x))

/-! ### The rows -/

/-- After the last row the drain ends: a CHAIN_SUM leaves, ledgers fold, draws are spent, the code is OK or OK_POISON. -/
def State.lastRow (s : State) (c : CellIx) (t : Nat) (r : Option CmdRun) : State :=
  let y := (s.cell c).tile t
  match y.drain with
  | none => s
  | some d =>
    let dest := bf d.block 0 2 1
    let psn := y.poison || d.psn
    let l := s.outLedger y d.block psn false
    let s := if dest = 2 then s.sendChain c t d d.buf else if dest = 1 then s.writeRefLedger y d.block l else s
    let s := if dest = 0 ∧ bf d.block 0 5 4 ≠ 0 ∧ Prec.sr (d.block.getD 5 0) then s.spendDrawsOf c r 0 1024 else s
    let s := s.handStats c y.job y.layer
    let s := s.modCell c (fun x =>
      if dest = 3 then { x with sab := { x.sab with ledger := x.sab.ledger.merge l } }
      else if dest = 2 then x
      else { x with rq := { x.rq with ledger := x.rq.ledger.merge l } })
    s.endDrain c t (outCode psn)

/-- DRAIN_ROW: the next row of tile `t` is checked, read and zeroed (R108, R604). -/
def State.drainRow (s : State) (c : CellIx) (t : Nat) (d : DrainRun) (x : Option Upset) : State :=
  let y := (s.cell c).tile t
  let m := d.row
  if y.storageFails m x then s.countRecompute c true
  else
    let b := d.block
    let r := ((s.cell c).op? d.op).bind (fun o => (s.cell c).cmdNo o.cmd)
    let tile := bf b 2 63 40
    let e := s.extOf y.job y.layer tile 0
    let inside (n : Nat) : Bool := e.inside m n
    let v := y.readElem m x
    let ch0 := e.n0
    let s := s.modCell c (fun x => { x with failStreak := 0 })
    let s :=
      if bf b 0 2 1 = 1 then (s.rowWide c t m d v inside).rowRef y m b v inside
      else if bf b 0 2 1 = 2 then
        s.modCell c (fun x => x.modTile t (·.rowRead m { d with buf := d.buf ++ (List.range 32).map v }))
      else if bf b 0 2 1 = 3 then s.rowSab c t m d v inside
      else if bf b 0 5 4 = 0 then s.rowRange c t m d ch0 v inside
      else s.rowCodes c t m d ch0 v inside (s.drawsOf c r 0 tile (32 * m))
    if (((s.cell c).tile t).drain.elim 0 (·.row)) = 32 then s.lastRow c t r else s

/-- The destination accepts the row: RQ performs one operation at a time, in issue order (R175). -/
def Cell.rowAccepted (x : Cell) (d : DrainRun) : Bool :=
  decide (bf d.block 0 2 1 ≠ 0) ||
  (!x.ops.any (fun o => decide (o.unit = .rq ∧ o.id < d.op)) &&
   [x.tile0, x.tile1].all (fun t => !(t.drainsToRq && t.drain.elim false (fun e => decide (e.op < d.op)))))

def execDrainRow (c : CellIx) (t : Fin 2) (x : Option Upset) (s : State) : Out :=
  let y := (s.cell c).tile t.val
  .next (match y.drain with
    | some d => onlyIf (s.cellUp c && !(s.cell c).scrubbing && (s.cell c).held.isNone && decide (y.st = .draining) &&
        !d.due && (s.cell c).rowAccepted d) s (·.drainRow c t.val d x)
    | none => s)

/-! ### Chain sums (R115, R116) -/

/-- The sum that a CHAIN_SUM carries; its job is in item 342 (R115). -/
def chainOf (m : Msg) : ChainSum :=
  let n := m.fld 0 79 64
  let el (i : Nat) : Acc := BitVec.ofNat 40 (m.fld (1 + i / 3) (40 * (i % 3) + 39) (40 * (i % 3)))
  { src := m.src, chain := BitVec.ofNat 32 (m.fld 0 31 0), seg := BitVec.ofNat 12 (m.fld 0 43 32),
    nseg := BitVec.ofNat 12 (m.fld 0 55 44), poison := decide (m.fld 0 56 56 = 1), exact := decide (m.fld 0 57 57 = 1),
    tile := BitVec.ofNat 24 (m.fld 0 103 80), job := BitVec.ofNat 32 (m.fld 342 71 40),
    elems := (List.range 1024).foldr (fun i l => SMap.cons 0 i (el i) l) [],
    ledger := Ledger.ofItems ((m.body.drop 343).drop (m.body.length - 343 - n)) }

/-- A sum reaches the inlet of a tile, or waits at the port while the inlet is full (R116). -/
def Tile.sumArrives (t : Tile) (k : ChainSum) : Tile :=
  if t.inlet.isNone ∧ t.port = [] then Tile.settle { t with inlet := some k } else { t with port := t.port ++ [k] }

/-- A CHAIN_SUM that passed the epoch check: it reaches its cell's tile, or waits at the router while the cell's context is not
resident (R617). At another unit, which has no inlet, it is counted and goes no further (DESIGN CHOICE, log 22; R57 checks it
there, and R114 lets no drain send it). -/
def State.takeSum (s : State) (m : Msg) : State :=
  let s := s.received m
  if UA.depth m.dest = 5 then
    let k := chainOf m
    s.modCell (cellIx (UA.index m.dest)) (fun x => x.modTile (m.tag.toNat % 2) (fun t =>
      if s.destResident m then t.sumArrives k else { t with port := t.port ++ [k] }))
  else s

/-- CHAIN_SUM at its unit (R57, R114 to R117). -/
def execChainSum (m : Msg) (s : State) : Out :=
  .next (onlyIf (s.requestOk m 0x04) s (fun s => s.arrival m (·.takeSum m)))

/-- CHAIN_INLET_ACCEPT: the first sum at the port enters the empty inlet (R116). -/
def Tile.acceptSum (t : Tile) : Tile :=
  match t.inlet, t.port with
  | none, k :: l => Tile.settle { t with inlet := some k, port := l }
  | _, _ => t

def execChainInletAccept (c : CellIx) (t : Fin 2) (s : State) : Out :=
  .next (onlyIf (s.cellUp c && !(s.cell c).scrubbing) s (·.modCell c (fun x => x.modTile t.val (·.acceptSum))))

/-! ### The instructions -/

def execDrainRq (c : CellIx) (f : InsFields) (s : State) : Out :=
  .next (s.issue c 0x4A f (.drainRq c f) (bodyDrainRq c f))
def execDrainWide (c : CellIx) (f : InsFields) (s : State) : Out :=
  .next (s.issue c 0x4A f (.drainWide c f) (bodyDrainWide c f))
def execDrainChain (c : CellIx) (f : InsFields) (s : State) : Out :=
  .next (s.issue c 0x4A f (.drainChain c f) (bodyDrainChain c f))
def execDrainSab (c : CellIx) (f : InsFields) (s : State) : Out :=
  .next (s.issue c 0x4A f (.drainSab c f) (bodyDrainSab c f))

end Sys2Proof.Machine
end

