-- ==== Sys2Proof/Machine/Array.lean ====
section
/-! DEFINITION. Array instructions, their beats, cuts and checkpoints, and LOAD (R64, R70 to R97, R104, R249 to R257, R601
to R606). -/

namespace Sys2Proof.Machine

open Sys2Proof

/-! ### Issue -/

/-- The PREC fields that the array itself reads are valid (R71). -/
def arrayPrecOk (p : Word) : Bool :=
  let w := Prec.wbits p
  decide ((1 ≤ w ∧ w ≤ 8) ∨ w = 0xE) && decide (1 ≤ Prec.abits p ∧ Prec.abits p ≤ 8) && decide (Prec.order p ≤ 1)

/-- The operands of the present tile of an array instruction. -/
def Cell.feed (x : Cell) (r : ArrayRun) : Feed := ⟨x.spad, r.block, r.done, r.ext, r.skipped, x.zeroCols⟩

/-- The accumulator tile of the present tile of an array instruction (R97). -/
def ArrayRun.tile (r : ArrayRun) : Nat := (bf r.block 0 0 0 + r.done) % 2

/-- The place of the present tile in its layer: the logical tile of its AUTO drain, or a free one, and a free first group
column (log 21). -/
def State.placeOf (s : State) (c : CellIx) (r : ArrayRun) (job : BitVec 32) (layer : BitVec 16) : TileExt :=
  let t := if bb r.block 0 2 then bf (Memory.readRow (s.cell c).spad (bf r.block 3 29 16)) 2 63 40
    else Config.tileAt job layer c.val r.op r.done
  s.extOf job layer t (256 * Config.firstColumn job layer c.val r.op)

/-- A cut acts on the work of a job and layer at the cell (R252). -/
def Cell.cutFor (x : Cell) (job : BitVec 32) (layer : BitVec 16) : Bool :=
  x.cutRecs.any (fun k => decide (k.job = job ∧ (k.layer = none ∨ k.layer = some layer)))

/-- An operation joins a tile (R104, R602). -/
def Tile.join (t : Tile) (o : JoinedOp) (st : TileSt) (job : BitVec 32) (layer : BitVec 16) : Tile :=
  { t with st := st, joined := t.joined ++ [o], token := false,
           job := if t.st = .empty then job else t.job, layer := if t.st = .empty then layer else t.layer }

/-- The present tile of the array instruction joins its accumulator tile: its positions, poison, gates and removed K-blocks, and
a cut that acts on tiles not yet begun (R89, R126, R214, R244, R246, R252, Tables 6-4, 6-5, 7-7, 7-8). A key tile counts when
its first array instruction joins. -/
def Cell.joinArray (x : Cell) (r : ArrayRun) (ext : TileExt) (job : BitVec 32) (layer : BitVec 16) : Cell :=
  let r := { r with ext := ext, skipped := [] }
  let g := (x.feed r).gated
  let r := { r with skipped := g.1 }
  let f := x.feed r
  let n := r.tile
  let plan := f.plan
  let removed := 16 * f.ngc - f.kept.length
  let delta := Prec.delta f.prec
  let key := delta && !f.delta
  let first := decide ((x.tile n).st = .empty)
  let sums := if g.1 = [] then [] else f.skipSums g.1
  let cut := x.cutFor job layer
  let x := x.modTile n (fun t =>
    { t.join ⟨false, r.block, 0⟩ .filling job layer with
      poison := t.poison || f.poisoned, cut := t.cut || cut, isDelta := t.isDelta || f.delta, key := key,
      skips := if sums = [] then t.skips else (List.range 128).map (fun i => t.skips.getD i 0 + sums.getD i 0),
      ledger := { t.ledger with
        exact := t.ledger.exact && Prec.exact f.prec, delta := t.ledger.delta || delta,
        pred := t.ledger.pred || Prec.pred f.prec, skipped := satTo 32 (t.ledger.skipped + g.1.length) } })
  { x with
    arr := some { r with joined := true, ended := false, plan := plan, pos := [0, 0, 0, 0] },
    doveKremoved := sat32 x.doveKremoved removed,
    prevSkips := sat16 x.prevSkips g.1.length,
    cnt := { x.cnt with kblocksRemoved := x.cnt.kblocksRemoved + BitVec.ofNat 64 removed,
                        deltaSkipped := x.cnt.deltaSkipped + BitVec.ofNat 64 g.1.length,
                        deltaTies := x.cnt.deltaTies + BitVec.ofNat 64 g.2,
                        keyTiles := if key && first then x.cnt.keyTiles + 1 else x.cnt.keyTiles } }

/-- The present tile of an array instruction joins, for the command that issued it. -/
def State.joinTile (s : State) (c : CellIx) (r : ArrayRun) (job : BitVec 32) (layer : BitVec 16) : State :=
  let e := s.placeOf c r job layer
  s.modCell c (fun x => x.joinArray r e job layer)

/-- ARRAY (R64, R104, R450): BAD_PREC for invalid PREC fields (DESIGN CHOICE, log 36: R71 rejects a layer, and the spec names no
code for an instruction whose block breaks Table 3-3), BAD_DESC for NT > 1 without AUTO or rows that do not exist,
OK_EMPTY for a zero count; a busy array, a full tracker, busy rows or the tile's state stall it. An instruction that
finds the join record full waits for the checkpoint (R603). -/
def bodyArrayI (c : CellIx) (f : InsFields) (s : State) : State :=
  s.guarded c (.arrayI c f) [f.ra] [] [] (fun s =>
    s.withBlock c f (.arrayI c f) maskArray (fun b s =>
      let x := s.cell c
      let rows := arrayRows b
      let t := bf b 0 0 0
      if !arrayPrecOk (b.getD 1 0) then s.finish c ccBadPrec
      else if (1 < bf b 0 23 8 ∧ ¬ bb b 0 2) ∨ ¬ rowsIn rows then s.finish c ccBadDesc
      else if bf b 0 23 8 = 0 ∨ bf b 3 15 0 = 0 then s.finish c ccEmpty
      else if x.arr.isSome then s.stall c 4 (.arrayI c f)
      else if !(x.tile t).joinable (bb b 0 1) then s.stall c 1 (.arrayI c f)
      else if 16 ≤ (x.tile t).joined.length then s
      else s.guarded c (.arrayI c f) [] rows [] (fun s =>
        let s := s.addOp c { id := 0, unit := .array, reads := rows, done := false, block := b }
        let r : ArrayRun := { block := b, op := s.lastOp c }
        (s.joinTile c r (s.cell c).job (s.cell c).layer).retire c)))

/-! ### Beats -/

/-- The next position that row group `g` needs, from `x` on. -/
def nextNeeded (plan : List ArrPos) (g x : Nat) : Option Nat :=
  ((List.range plan.length).drop x).find? (fun i => (plan.getD i ⟨0, 0, 0, 0, 0⟩).needs.testBit g)

/-- The next positions of the four row groups. -/
def ArrayRun.nexts (r : ArrayRun) : List (Option Nat) :=
  (List.range 4).map (fun g => nextNeeded r.plan g (r.pos.getD g 0))

def ArrayRun.at? (r : ArrayRun) (i : Nat) : ArrPos := r.plan.getD i ⟨0, 0, 0, 0, 0⟩

/-- The top plane of the tile (R249). -/
def ArrayRun.top (r : ArrayRun) : Nat :=
  ((r.plan.find? (fun q => decide (q.needs ≠ 0))).map (·.plane)).getD 0

/-- The pass of plane `p` has begun: a row group has gone past its first position (R253). -/
def ArrayRun.begun (r : ArrayRun) (p : Nat) : Bool :=
  let first := (r.plan.findIdx? (fun q => decide (q.plane = p))).getD 0
  r.pos.any (fun x => decide (first < x))

/-- A cut ends the tile before the pass of plane `p` (R239, R250, R253, R254). -/
def cutsBefore (prec : Word) (r : ArrayRun) (p : Nat) : Bool :=
  !Prec.exact prec && decide (Prec.order prec = 0) && !r.begun p && decide (p + Prec.kerfFloor prec ≤ r.top)

/-- The row groups that take a position in a beat, and the positions (R90, R93): those at most 3 beyond the lowest needed
one, in its pass when MSB-first, and supplied. -/
def ArrayRun.takers (r : ArrayRun) (msb : Bool) (unsupplied : List Nat) (s : Nat) : List (Option Nat) :=
  r.nexts.map (fun x => x.bind (fun x =>
    if x ≤ s + 3 ∧ (¬ msb ∨ (r.at? x).plane = (r.at? s).plane) ∧ x ∉ unsupplied then some x else none))

/-- One lookup and add of element (m, n), checked by residues, with the adder upset if it is that element's: the element,
its residue, and whether the check fails, upon which the tile is recomputed and the element is what it would have
been (R73, R599 to R601, R606). -/
def lookupAdd (v : Acc) (rv : BitVec 3) (add : Int) (x : Option (BitVec 40)) : Acc × BitVec 3 × Bool :=
  let good := accAdd v (BitVec.ofInt 40 add)
  let rgood := if accSpecial v || accSpecial good then rv else residue good.toInt
  match x with
  | none => (good, rgood, false)
  | some flip =>
    let bad := good ^^^ flip
    if accSpecial v || accSpecial bad then (bad, rv, false)
    else if residue bad.toInt = BitVec.ofNat 3 ((rv.toNat + (residue add).toNat) % 7) then (bad, residue bad.toInt, false)
    else (good, rgood, true)

/-- The lookups of one row group at a position: 8 rows of 32 elements (R73). -/
def Tile.beat (t : Tile) (f : Feed) (g : Nat) (q : ArrPos) (x : Option Upset) : Tile :=
  let hit (i : Nat) : Option (BitVec 40) :=
    x.bind (fun u => if 32 * u.m.val + u.n.val = i then some u.flip else none)
  let go (i : Nat) (v : Acc) (rv : BitVec 3) := lookupAdd v rv (f.adds q (i / 32) (i % 32)).1 (hit i)
  { t with elems := SMap.update (0 : Acc) (fun i v => (go i v (SMap.getD t.res i 0)).1) 256 (256 * g) t.elems,
           res := SMap.update (0 : BitVec 3) (fun i rv => (go i (SMap.getD t.elems i 0) rv).2.1) 256 (256 * g) t.res }

/-- The residue check of a row group's lookups fails. -/
def Tile.beatFails (t : Tile) (f : Feed) (g : Nat) (q : ArrPos) (x : Option Upset) : Bool :=
  match x with
  | none => false
  | some u =>
    let i := 32 * u.m.val + u.n.val
    decide (i / 256 = g) &&
    (lookupAdd (SMap.getD t.elems i 0) (SMap.getD t.res i 0) (f.adds q u.m.val u.n.val).1 (some u.flip)).2.2

/-- Lookups of a row group at a position whose index is not 0 (Table 18-1). -/
def lookupCount (f : Feed) (g : Nat) (q : ArrPos) : Nat :=
  (List.range 256).countP (fun i => (f.adds q ((256 * g + i) / 32) (i % 32)).2)

/-! ### The end of a tile -/

/-- The compensation of a cut W-serial tile (R255). -/
def Tile.compensate (t : Tile) (f : Feed) (plan : List ArrPos) (c : Nat) : Tile :=
  let add (m : Nat) : Acc := BitVec.ofInt 40 (((2 ^ c - 1 : Nat) : Int) * f.rsum plan m / 2)
  { t with elems := SMap.update (0 : Acc) (fun i v => accAdd v (add (i / 32))) 1024 0 t.elems,
           res := SMap.update (0 : BitVec 3) (fun i rv =>
             let a := accAdd (SMap.getD t.elems i 0) (add (i / 32))
             if accSpecial a then rv else residue a.toInt) 1024 0 t.res }

/-- The tile's lookups are over with `c` planes missing: compensation, and the terms of its ledger (R246, R255 to R257,
R261, R262, R443). -/
def Tile.lookupsOver (t : Tile) (f : Feed) (r : ArrayRun) (c : Nat) : Tile :=
  let mid := Prec.midpt f.prec && !Prec.serial f.prec && decide (1 ≤ c ∧ c ≤ r.top)
  let t := if mid then t.compensate f r.plan c else t
  let ls := f.lineSums r.plan
  let lines := (List.range 32).map (fun i => t.lines.getD i 0 + ls.getD i 0)
  let l := t.ledger
  let cut := max l.cutPlane.toNat c
  { t with lines := lines,
           ledger := { l with
             kerfed := decide (cut ≠ 0), midpt := l.midpt || mid, cutPlane := BitVec.ofNat 4 cut, segs := 1,
             kerfBound := if cut = 0 then 0 else kerfBound cut (lines.foldl max 0) (l.midpt || mid),
             deltaBound16 := if t.isDelta then satTo 64 (t.skips.foldl max 0) else 0 } }

/-- The AUTO drain of a finished tile is issued (Table 12-10): none while its rows are busy. A block that its rules refuse
is an operation that completes with their code. -/
def State.autoDrain (s : State) (c : CellIx) (r : ArrayRun) (n : Nat) : Option State :=
  let x := s.cell c
  let row := bf r.block 3 29 16
  let b := Memory.readRow x.spad row
  let io := drainRows b
  let o := x.op? r.op
  let run := o.elim 0 (·.run)
  let cmd := o.elim 0 (·.cmd)
  let refuse (code : Code) : State :=
    s.modCell c (fun x =>
      { x with ops := x.ops ++ [{ id := x.seq.nextOp, unit := .drain, code := code, run := run, cmd := cmd }],
               seq := { x.seq with nextOp := x.seq.nextOp + 1 } })
  if x.rowBusy false row 1 then none
  else if !reservedOk maskDrain b then some (refuse ccBadDesc)
  else if (x.hazard [] io.1 io.2).isSome then none
  else
    match drainFault x.spad b with
    | some code => some (refuse code)
    | none => some (s.beginDrain c n b run cmd (x.tile n).job (x.tile n).layer)

/-- The array passes to the next tile of its instruction, or the instruction has issued its last lookup (R450). -/
def State.nextTile (s : State) (c : CellIx) (r : ArrayRun) (code : Code) : State :=
  s.modCell c (fun x =>
    if r.done + 1 < bf r.block 0 23 8 then
      { x with arr := some { r with done := r.done + 1, joined := false, ended := false, code := code, behind := false } }
    else { x.modOp r.op (fun o => { o with done := true, code := code }) with arr := none, failStreak := 0 })

/-- A finished tile: its AUTO drain, and on to the next (R104, Table 12-10). -/
def State.tileOver (s : State) (c : CellIx) (r : ArrayRun) : State :=
  let n := r.tile
  let y := (s.cell c).tile n
  let code := combineCodes [r.code, if y.poison then ccPoison else ccOk, if y.ledger.cutPlane ≠ 0 then ccKerfed else ccOk]
  if bb r.block 0 2 then
    match s.autoDrain c r n with
    | some s => s.nextTile c r code
    | none => s.modCell c (fun x => { x with arr := some { r with ended := true, behind := false } })
  else s.nextTile c r code

/-- The tile's lookups end with `p` + 1 planes missing under a cut, or with none. -/
def State.endLookups (s : State) (c : CellIx) (r : ArrayRun) (f : Feed) (planes : Nat) : State :=
  (s.modCell c (fun x => x.modTile r.tile (fun t => t.lookupsOver f r planes))).tileOver c r

/-- The table of one k-group in slot `slot` of a store: line l, entry e at 16l + e (03; log 15). -/
def storeTable (f : Nat → Nat → Int) (k slot : Nat) (m : SMap (BitVec 12)) : SMap (BitVec 12) :=
  SMap.update (0 : BitVec 12) (fun i _ =>
    BitVec.ofInt 12 (tableEntry ((List.range 4).map (fun j => f (i % 512 / 16) (k + j))) (i % 16))) 512 (512 * slot) m

/-- The slices of the serial operand in slot `slot`: of line l, the two indices in its first two entries (03; log 15). -/
def storeSlices (f : Nat → Nat × Nat) (slot : Nat) (m : SMap (BitVec 12)) : SMap (BitVec 12) :=
  SMap.update (0 : BitVec 12) (fun i _ =>
    let s := f (i % 512 / 16)
    if i % 16 = 0 then BitVec.ofNat 12 s.1 else if i % 16 = 1 then BitVec.ofNat 12 s.2 else 0) 512 (512 * slot) m

/-- The window takes in a position: its tables and slices enter slot (position mod 4) of the two stores (R91). -/
def Cell.enterWindow (x : Cell) (f : Feed) (r : ArrayRun) (p : Nat) : Cell :=
  let q := r.at? p
  let k := 16 * q.kblk + 4 * q.g
  let ix (m n : Nat) : Nat × Nat := ((f.lookup q m n).2.1, (f.lookup q m n).2.2.1)
  if q.needs = 0 then x
  else if Prec.serial f.prec then
    { x with colTab := storeTable f.wgt k (p % 4) x.colTab, rowTab := storeSlices (fun m => ix m 0) (p % 4) x.rowTab }
  else
    { x with rowTab := storeTable f.act k (p % 4) x.rowTab, colTab := storeSlices (fun n => ix 0 n) (p % 4) x.colTab }

/-- The positions that the window takes in when it moves from `st`: in a tile after the first its first four, which a fill has
not brought (R97), then those that come within 3 of the next lowest needed one (R90, R91). -/
def ArrayRun.entering (r : ArrayRun) (st : Nat) (r' : ArrayRun) : List Nat :=
  let first := if r.done ≠ 0 ∧ r.pos.all (fun p => decide (p = 0)) then (List.range 4).map (st + ·) else []
  match (r'.nexts.filterMap id).min? with
  | some st' => first ++ (List.range (st' - st)).map (st + 4 + ·)
  | none => first

/-- One beat of lookups at the positions the window allows (R73, R90, R93, Tables 6-4 and 18-1). -/
def State.lookupBeat (s : State) (c : CellIx) (r : ArrayRun) (f : Feed) (st : Nat) (unsupplied : List Nat) (behind : Bool)
    (x : Option Upset) : State :=
  let n := r.tile
  let take := r.takers (decide (Prec.order f.prec = 0)) unsupplied st
  let groups := (List.range 4).filterMap (fun g => (take.getD g none).map (fun p => (g, r.at? p)))
  let y := (s.cell c).tile n
  let fails := groups.any (fun g => y.beatFails f g.1 g.2 x)
  let t := groups.foldl (fun t g => t.beat f g.1 g.2 x) y
  let count := groups.foldl (fun a g => a + lookupCount f g.1 g.2) 0
  let waits := (List.range 4).any (fun g => (r.nexts.getD g none).isSome && (take.getD g none).isNone)
  let late := r.nexts.any (fun x => x.elim false (fun x => decide (x ∈ unsupplied)))
  let pos := (List.range 4).map (fun g => (take.getD g none).elim (r.pos.getD g 0) (· + 1))
  let s := s.modCell c (fun x =>
    let r' : ArrayRun := { r with pos := pos, behind := late && behind }
    let x := (r.entering st r').foldl (fun x p => x.enterWindow f r p) (x.setTile n t)
    { x with arr := some r', dutyBeat := x.dutyBeat + 1,
             cnt := { x.cnt with lookups := x.cnt.lookups + BitVec.ofNat 64 count,
                                 beatsLookup := if groups = [] then x.cnt.beatsLookup else x.cnt.beatsLookup + 1,
                                 beatsWait := if waits then x.cnt.beatsWait + 1 else x.cnt.beatsWait } })
  if fails then s.countRecompute c true else s

/-- The lowest position that a row group still needs (R90). -/
def ArrayRun.lowest (r : ArrayRun) : Option Nat := (r.nexts.filterMap id).min?

/-- What happens between beats: a finished tile drains and the next joins (Table 4-3), a tile under a cut ends at its pass
boundary (R253), and a tile with no position left ends (R92). None of it takes a beat (R97). `fuel` bounds the steps. -/
def State.arrayReady (c : CellIx) : Nat → State → State
  | 0, s => s
  | fuel + 1, s =>
    match (s.cell c).arr with
    | none => s
    | some r =>
      let y := s.cell c
      let t := y.tile r.tile
      if r.ended then
        let u := s.tileOver c r
        if (u.cell c).arr.elim false (·.ended) then u else State.arrayReady c fuel u
      else if !r.joined then
        if t.joinable (bb r.block 0 1) && decide (t.joined.length < 16) then
          let run := (y.op? r.op).bind (fun o => y.cmdNo o.cmd)
          State.arrayReady c fuel (s.joinTile c r (run.elim y.job (·.job)) (run.elim y.layer (·.layer)))
        else s
      else if 0 < r.fill then s
      else
        match r.lowest with
        | none => State.arrayReady c fuel (s.endLookups c r (y.feed r) 0)
        | some st =>
          let p := (r.at? st).plane
          if cutsBefore (r.block.getD 1 0) r p && t.cut then State.arrayReady c fuel (s.endLookups c r (y.feed r) (p + 1))
          else s

/-- The steps between two beats: at most three to a tile. -/
def ArrayRun.fuel (r : ArrayRun) : Nat := 3 * (bf r.block 0 23 8 - r.done) + 3

/-- A beat of the window's fill: the table of one of the first four positions enters (R97). -/
def State.fillBeat (s : State) (c : CellIx) (r : ArrayRun) : State :=
  s.modCell c (fun x =>
    let x := r.lowest.elim x (fun st => x.enterWindow (x.feed r) r (st + (4 - r.fill)))
    { x with arr := some { r with fill := r.fill - 1 } })

/-- A beat in which ISSUE_DUTY holds the array back: of each 16 beats the first ISSUE_DUTY × 16 issue (R684, which does not say
which ones do: DESIGN CHOICE, log 14). -/
def State.dutyWait (s : State) (c : CellIx) : Bool :=
  decide ((s.diePower (CellIx.die c)).duty ≤ (s.cell c).dutyBeat.toNat)

/-- ARRAY_BEAT: one beat of the array instruction in progress, which fills its window (R97) or looks up. `unsupplied` are the
positions that the feeder or builder has not supplied (R93), `behind` tells that the dovetail engine is why (R217), `e` are the flips
that the read of the beat's activation row meets, `x` an upset of the adder. -/
def State.arrayBeat (s : State) (c : CellIx) (r : ArrayRun) (unsupplied : List Nat) (behind : Bool) (e : List RowFlip)
    (x : Option Upset) : State :=
  let s := State.arrayReady c r.fuel s
  match (s.cell c).arr with
  | none => s
  | some r =>
    if r.ended || !r.joined then s
    else if 0 < r.fill then State.arrayReady c r.fuel (s.fillBeat c r)
    else
      match r.lowest with
      | none => s
      | some st =>
        let f := (s.cell c).feed r
        let s := s.rowRead c (f.aRow ((r.at? st).kblk / 16) + 1) (List.range 16) e
        if (s.cell c).held.isSome then s
        else
          let idle := s.dutyWait c
          let uns := if idle then List.range r.plan.length else unsupplied
          State.arrayReady c r.fuel (s.lookupBeat c r f st uns (behind && !idle) x)

def execArrayBeat (c : CellIx) (unsupplied : List Nat) (behind : Bool) (e : List RowFlip) (x : Option Upset) (s : State) : Out :=
  .next (match (s.cell c).arr with
    | some r => onlyIf (s.cellUp c && !(s.cell c).scrubbing && (s.cell c).held.isNone &&
        !(s.cell c).retireReq) s (·.arrayBeat c r unsupplied behind e x)
    | none => s)

/-! ### Checkpoint (R603) -/

/-- TILE_CHECKPOINT: a tile with a full join record and its token in is copied with its residues, and the rows held for it are
released. -/
def Tile.checkpoint (t : Tile) : Tile := { t with check := some (t.elems, t.res), joined := [] }

/-- A stored element may be found upset: where its residue shows it the tile is recomputed first, and else the upset stays
(R600, R601, R603). -/
def State.checkpointTile (s : State) (c : CellIx) (k : Nat) (x : Option Upset) : State :=
  let y := (s.cell c).tile k
  match x with
  | none => s.modCell c (fun z => z.modTile k (·.checkpoint))
  | some u =>
    let i := 32 * u.m.val + u.n.val
    let fails := y.storageFails u.m.val x
    let elems := if fails then y.elems else SMap.put y.elems i (y.readElem u.m.val x u.n.val) 0
    let s := s.modCell c (fun z => z.modTile k (fun t => Tile.checkpoint { t with elems := elems }))
    if fails then s.countRepeats c 1 else s

def execTileCheckpoint (c : CellIx) (t : Fin 2) (x : Option Upset) (s : State) : Out :=
  let z := s.cell c
  let y := z.tile t.val
  .next (onlyIf (s.cellUp c && !z.scrubbing && decide (y.st = .filling) && decide (16 ≤ y.joined.length) && y.token &&
    !z.arrayOn t.val) s (·.checkpointTile c t.val x))

/-! ### LOAD -/

/-- LOAD: tile bit 0 of register RD, first row (RA + IMM) / 128, a multiple of 64 (Table 12-8). -/
def bodyLoadT (c : CellIx) (f : InsFields) (s : State) : State :=
  s.guarded c (.loadT c f) [f.rd, f.ra] [] [] (fun s =>
    let x := s.cell c
    let t := (x.seq.reg f.rd).toNat % 2
    let a := (x.seq.addrOf f).toNat
    if a % 128 ≠ 0 ∨ a / 128 % 64 ≠ 0 ∨ 0x200000 ≤ a then s.finish c ccBadDesc
    else if (x.tile t).st ≠ .empty then s.stall c 1 (.loadT c f)
    else s.guarded c (.loadT c f) [] [(a / 128, 64)] [] (fun s =>
      let s := s.addOp c { id := 0, unit := .load, reads := [(a / 128, 64)], done := false }
      (s.modCell c (fun x => x.modTile t (fun y =>
        { y.join ⟨true, [], a / 128⟩ .loading x.job x.layer with
          load := some (a / 128, s.lastOp c), loaded := true, cut := x.cutFor x.job x.layer }))).retire c))

/-- LOAD_COMPLETE: the 1,024 words are read, their residues formed, POISON taken; the tile is FILLING (R104, R110, R111,
R126, R598). -/
def State.loadDone (s : State) (c : CellIx) (t : Nat) (row op : Nat) : State :=
  s.modCell c (fun x =>
    let w (i : Nat) : Word := Memory.readWord x.spad (128 * row + 8 * i)
    let el (i : Nat) : Acc := (w i).setWidth 40
    let psn := (List.range 1024).any (fun i => (w i).getLsbD 40)
    let x := x.modTile t (fun y =>
      { y with st := .filling, load := none, token := true, poison := y.poison || psn,
               elems := (List.range 1024).foldr (fun i l => SMap.cons 0 i (el i) l) [],
               res := (List.range 1024).foldr (fun i l =>
                 SMap.cons 0 i (if accSpecial (el i) then 0 else residue (el i).toInt) l) [] })
    x.modOp op (fun o => { o with done := true, code := if psn then ccPoison else ccOk }))

def execLoadComplete (c : CellIx) (t : Fin 2) (s : State) : Out :=
  .next (match ((s.cell c).tile t.val).load with
    | some (row, op) => onlyIf (s.cellUp c && !(s.cell c).scrubbing && (s.cell c).held.isNone) s (·.loadDone c t.val row op)
    | none => s)

def execArrayI (c : CellIx) (f : InsFields) (s : State) : Out := .next (s.issue c 0x48 f (.arrayI c f) (bodyArrayI c f))
def execLoadT (c : CellIx) (f : InsFields) (s : State) : Out := .next (s.issue c 0x49 f (.loadT c f) (bodyLoadT c f))

end Sys2Proof.Machine
end

