-- ==== Sys2Proof/Machine/Float.lean ====
section
/-! DEFINITION. FP32 arithmetic, rounded to nearest, ties to even (R14), with subnormals (R280), over exact
rationals; and the exact roundings of the LFU (R272). -/

namespace Sys2Proof.Machine

open Sys2Proof

/-- What the bits of an FP32 value stand for; a finite value is ±m × 2^e. -/
inductive FVal where
  | nan
  | inf (neg : Bool)
  | fin (neg : Bool) (m : Nat) (e : Int)
deriving DecidableEq, Repr

def F32.neg? (x : F32) : Bool := x.getLsbD 31
def F32.expBits (x : F32) : Nat := x.toNat / 2 ^ 23 % 256
def F32.frac (x : F32) : Nat := x.toNat % 2 ^ 23

def F32.val (x : F32) : FVal :=
  if F32.expBits x = 255 then (if F32.frac x = 0 then .inf (F32.neg? x) else .nan)
  else if F32.expBits x = 0 then .fin (F32.neg? x) (F32.frac x) (-149)
  else .fin (F32.neg? x) (F32.frac x + 2 ^ 23) ((F32.expBits x : Int) - 150)

def F32.isNan (x : F32) : Bool := decide (F32.val x = .nan)
def F32.isInf (x : F32) : Bool := decide (F32.val x = .inf (F32.neg? x))
def F32.isZero (x : F32) : Bool := decide (x.toNat % 2 ^ 31 = 0)
def F32.isFinite (x : F32) : Bool := decide (F32.expBits x ≠ 255)

def F32.infOf (neg : Bool) : F32 := if neg then 0xFF800000 else 0x7F800000
def F32.zeroOf (neg : Bool) : F32 := if neg then 0x80000000 else 0
def F32.one : F32 := 0x3F800000
def F32.maxFin (neg : Bool) : F32 := if neg then 0xFF7FFFFF else 0x7F7FFFFF
def F32.negate (x : F32) : F32 := x ^^^ 0x80000000

/-- The NaN that an operation returns: its sign and payload are a free value (log 12). -/
def F32.nanOut (a b : F32) : F32 :=
  let w := Config.nanBits a b
  BitVec.ofNat 32 ((if w.getLsbD 23 then 2 ^ 31 else 0) + 0x7F800000 +
    (if w.toNat % 2 ^ 23 = 0 then 2 ^ 22 else w.toNat % 2 ^ 23))

/-- floor(a × 2^-e / b) and whether the rest is below, at or above one half: the pieces of a rounding to nearest. -/
def scaledDiv (a b : Nat) (e : Int) : Nat × Nat × Nat :=
  match e with
  | .ofNat k => (a / (b * 2 ^ k), a % (b * 2 ^ k), b * 2 ^ k)
  | .negSucc k => (a * 2 ^ (k + 1) / b, a * 2 ^ (k + 1) % b, b)

/-- q + r / d to the nearest integer, ties to even. -/
def rneParts (q r d : Nat) : Nat :=
  if 2 * r > d ∨ (2 * r = d ∧ q % 2 = 1) then q + 1 else q

/-- The FP32 value nearest to ±a / b. -/
def F32.ofRat (neg : Bool) (a b : Nat) : F32 :=
  if a = 0 then F32.zeroOf neg else
  let e0 : Int := (Nat.log2 a : Int) - (Nat.log2 b : Int) - 24
  let e1 := if (scaledDiv a b e0).1 < 2 ^ 24 then e0 else e0 + 1
  let e := max e1 (-149)
  let p := scaledDiv a b e
  let bits := (e + 149).toNat * 2 ^ 23 + rneParts p.1 p.2.1 p.2.2
  if 0x7F800000 ≤ bits then F32.infOf neg else BitVec.ofNat 32 (bits + if neg then 2 ^ 31 else 0)

/-- ±m × 2^e as a pair numerator, denominator. -/
def ratOf (m : Nat) (e : Int) : Nat × Nat :=
  match e with
  | .ofNat k => (m * 2 ^ k, 1)
  | .negSucc k => (m, 2 ^ (k + 1))

/-- The FP32 value nearest to an integer. -/
def F32.ofInt (x : Int) : F32 := F32.ofRat (decide (x < 0)) x.natAbs 1

def F32.mul (a b : F32) : F32 :=
  match F32.val a, F32.val b with
  | .nan, _ => F32.nanOut a b
  | _, .nan => F32.nanOut a b
  | .inf s, .inf t => F32.infOf (s ^^ t)
  | .inf s, .fin t m _ => if m = 0 then F32.nanOut a b else F32.infOf (s ^^ t)
  | .fin s m _, .inf t => if m = 0 then F32.nanOut a b else F32.infOf (s ^^ t)
  | .fin s m e, .fin t n f => F32.ofRat (s ^^ t) (ratOf (m * n) (e + f)).1 (ratOf (m * n) (e + f)).2

def F32.div (a b : F32) : F32 :=
  match F32.val a, F32.val b with
  | .nan, _ => F32.nanOut a b
  | _, .nan => F32.nanOut a b
  | .inf _, .inf _ => F32.nanOut a b
  | .inf s, .fin t _ _ => F32.infOf (s ^^ t)
  | .fin s _ _, .inf t => F32.zeroOf (s ^^ t)
  | .fin s m e, .fin t n f =>
    if n = 0 then (if m = 0 then F32.nanOut a b else F32.infOf (s ^^ t))
    else
      let r := ratOf 1 (e - f)
      F32.ofRat (s ^^ t) (m * r.1) (n * r.2)

/-- The signed integer ±m × 2^(e - e0), for e0 ≤ e. -/
def shiftedInt (neg : Bool) (m : Nat) (k : Nat) : Int := if neg then -((m * 2 ^ k : Nat) : Int) else ((m * 2 ^ k : Nat) : Int)

def F32.add (a b : F32) : F32 :=
  match F32.val a, F32.val b with
  | .nan, _ => F32.nanOut a b
  | _, .nan => F32.nanOut a b
  | .inf s, .inf t => if s = t then F32.infOf s else F32.nanOut a b
  | .inf s, .fin _ _ _ => F32.infOf s
  | .fin _ _ _, .inf t => F32.infOf t
  | .fin s m e, .fin t n f =>
    let e0 := min e f
    let x := shiftedInt s m (e - e0).toNat + shiftedInt t n (f - e0).toNat
    if x = 0 then F32.zeroOf (s && t && decide (m = 0 ∧ n = 0))
    else F32.ofRat (decide (x < 0)) (ratOf x.natAbs e0).1 (ratOf x.natAbs e0).2

def F32.sub (a b : F32) : F32 := F32.add a (F32.negate b)

/-- A number that orders finite values and infinities as FP32 does. -/
def F32.key (x : F32) : Int := if F32.neg? x then -((x.toNat % 2 ^ 31 : Nat) : Int) else ((x.toNat % 2 ^ 31 : Nat) : Int)

def F32.lt (a b : F32) : Bool := !F32.isNan a && !F32.isNan b && decide (F32.key a < F32.key b)

/-- A zero whose sign max() or min() of two zeros of different signs leaves open, or the free result for a NaN (log 12). -/
def F32.openMaxMin (a b : F32) : F32 :=
  if F32.isNan a || F32.isNan b then Config.maxMinBits a b else F32.zeroOf ((Config.maxMinBits a b).getLsbD 31)

/-- The operands of a max() or min() that R14 does not settle. -/
def F32.openCase (a b : F32) : Bool :=
  F32.isNan a || F32.isNan b || (F32.isZero a && F32.isZero b && decide (a ≠ b))

/-- max(). -/
def F32.max (a b : F32) : F32 :=
  if F32.openCase a b then F32.openMaxMin a b else if F32.lt a b then b else a

/-- min(). -/
def F32.min (a b : F32) : F32 :=
  if F32.openCase a b then F32.openMaxMin a b else if F32.lt b a then b else a

/-- Numerically equal: the zeros of both signs are. -/
def F32.same (a b : F32) : Bool := !F32.isNan a && !F32.isNan b && decide (F32.key a = F32.key b)

/-- rne(): a finite FP32 value to the nearest integer, ties to even. -/
def F32.rne (x : F32) : Int :=
  match F32.val x with
  | .fin s m e =>
    let p := scaledDiv m 1 (-e)
    let q : Nat := rneParts p.1 p.2.1 p.2.2
    if s then -(q : Int) else (q : Int)
  | _ => 0

/-- A finite non-zero value as ±m × 2^e. -/
def F32.parts (x : F32) : Bool × Nat × Int :=
  match F32.val x with
  | .fin s m e => (s, m, e)
  | _ => (F32.neg? x, 0, 0)

/-- floor(log2(|x|)) of a finite non-zero value. -/
def F32.exponent (x : F32) : Int := (Nat.log2 (F32.parts x).2.1 : Int) + (F32.parts x).2.2

/-! ### The internal log form (R271, R272) -/

/-- q of the zero value. -/
def logZero : Int := -(2 ^ 18)

/-- A sign and q in Q8.10. -/
structure LogV where
  sgn : Bool
  q : Int
deriving DecidableEq, Repr

/-- rne(log2(m × 2^e) × 1024) for m ≥ 1: with t = floor(2048 × log2), the nearest integer is floor((t + 1) / 2). No tie
occurs but at integers, where 2048 × log2 is even (R272). -/
def rneLog2 (m : Nat) (e : Int) : Int := ((Nat.log2 (m ^ 2048) : Int) + 2048 * e + 1) / 2

/-- f32_to_log() of a finite value. -/
def f32ToLog (x : F32) : LogV :=
  if F32.isZero x then ⟨false, logZero⟩
  else ⟨F32.neg? x, rneLog2 (F32.parts x).2.1 (F32.parts x).2.2⟩

/-- The largest k below 2^(j+1) + base with k^1024 at most 2^(23 × 1024 + f), by bisection over `j` + 1 bits. -/
def rootBits (f : Nat) : Nat → Nat → Nat
  | 0, acc => if (acc + 1) ^ 1024 ≤ 2 ^ (23 * 1024 + f) then acc + 1 else acc
  | j + 1, acc =>
    if (acc + 2 ^ (j + 1)) ^ 1024 ≤ 2 ^ (23 * 1024 + f) then rootBits f j (acc + 2 ^ (j + 1)) else rootBits f j acc

/-- The significand of E2[f], in units of 2^-23: the integer nearest 2^23 × 2^(f / 1024) (R272). -/
def e2Sig (f : Nat) : Nat :=
  let k := rootBits f 22 (2 ^ 23)
  if (2 * k + 1) ^ 1024 ≤ 2 ^ (24 * 1024 + f) then k + 1 else k

/-- log_to_f32(): the value, and whether it saturates or is flushed. -/
def logToF32 (a : LogV) : F32 × Bool × Bool :=
  if a.q = logZero then (0, false, false)
  else
    let e := a.q / 1024
    let f := (a.q % 1024).toNat
    if 128 ≤ e then (F32.infOf a.sgn, true, false)
    else if e < -126 then (F32.zeroOf a.sgn, false, true)
    else (BitVec.ofNat 32 ((e + 126).toNat * 2 ^ 23 + e2Sig f + if a.sgn then 2 ^ 31 else 0), false, false)

def logMax : Int := 2 ^ 18 - 1

/-- clamp() to the internal range, and whether it acts. -/
def clampLog (q : Int) : Int × Bool :=
  if q < -logMax then (-logMax, true) else if logMax < q then (logMax, true) else (q, false)

/-- log_mul(). -/
def logMul (a b : LogV) : LogV × Bool :=
  if a.q = logZero ∨ b.q = logZero then (⟨false, logZero⟩, false)
  else (⟨a.sgn ^^ b.sgn, (clampLog (a.q + b.q)).1⟩, (clampLog (a.q + b.q)).2)

/-- floor(log2(e) × 2^256) and floor(ln 2 × 2^256). -/
def log2eScaled : Nat := 167052672916848388242985626561247531987276682633131050150846402744536260568207
def ln2Scaled : Nat := 80260960185991308862233904206310070533990667611589946606122867505419956976171

/-- exp_log(): an infinity clamps; for a finite value rne of the exact x × log2(e) × 1024. The product is irrational for x ≠ 0, and 256
fraction bits decide every rounding of a 24-bit significand in the range that the clamp leaves open. -/
def expLog (x : F32) : LogV × Bool :=
  if F32.isInf x then (⟨false, if F32.neg? x then -logMax else logMax⟩, true) else
  match F32.parts x with
  | (s, m, e) =>
    let k := e + 10 - 256
    let p := scaledDiv (m * log2eScaled) 1 (-k)
    let q : Int := (rneParts p.1 p.2.1 p.2.2 : Nat)
    let r := clampLog (if s then -q else q)
    (⟨false, r.1⟩, r.2)

/-- LOG: f32(q) × ln 2 / 1,024, one correctly rounded FP32 result. -/
def logNatural (q : Int) : F32 := F32.ofRat (decide (q < 0)) (q.natAbs * ln2Scaled) (2 ^ 266)

/-- rne(-q / 2), ties to even. -/
def halfNeg (q : Int) : Int :=
  if (-q) % 2 = 0 then (-q) / 2 else if (-q) / 2 % 2 = 0 then (-q) / 2 else (-q) / 2 + 1

end Sys2Proof.Machine
end

