-- ==== Sys2Proof/Machine/Convert.lean ====
section
/-! DEFINITION. The RQ instruction: operations 0 to 9 of the requantisation and range unit (R138, R140, R146 to R151, R156
to R177, R124, R125, R443, R444), and LEDGER. -/

namespace Sys2Proof.Machine

open Sys2Proof

/-! ### Issue -/

/-- The rows from `a` that hold `n` bytes from byte `o` on. -/
def rowSpan (a o n : Nat) : Nat × Nat := (a + o / 128, ceilDiv (o % 128 + n) 128)

/-- An RQ operation: the unit performs one at a time (R175). `io` gives the rows read and written, `check` the code with
which a block is refused, `run` its effect with its code and registers; `busy` what else it waits for. -/
def State.rqOp (s : State) (c : CellIx) (f : InsFields) (i : Instr) (op : Nat) (busy : Cell → Bool)
    (io : List Word → Cell → List (Nat × Nat) × List (Nat × Nat)) (check : List Word → Cell → Option Code)
    (run : List Word → State → Code × List (BitVec 4 × Word) × State) : State :=
  s.guarded c i [f.rd, f.ra] [] [] (fun s =>
    s.withBlock c f i maskRq (fun b s =>
      let rows := io b (s.cell c)
      if bf b 0 3 0 ≠ op then s
      else if !rowsIn (rows.1 ++ rows.2) then s.reject c i ccBadDesc
      else if (s.cell c).rqBusy || busy (s.cell c) then s.stall c 4 i
      else s.guarded c i [] rows.1 rows.2 (fun s =>
        match check b (s.cell c) with
        | some code => s.reject c i code
        | none =>
          match run b s with
          | (code, regs, s) =>
            let s := s.addOp c { id := 0, unit := .rq, reads := rows.1, writes := rows.2, code := code, regs := regs,
                                 blocking := blocks i }
            if blocks i then s.waitOp c none else s.retire c)))

/-- N = 0 (R412). -/
def emptyN (b : List Word) : Option Code := if bf b 2 31 0 = 0 then some ccEmpty else none

/-- OUTBITS and OKB of a block that writes codes (R135, R136, Table 12-10). -/
def codesFault (b : List Word) : Option Code :=
  let o := Prec.outbits (b.getD 3 0)
  if bf b 2 31 0 = 0 then some ccEmpty
  else if ¬((1 ≤ o ∧ o ≤ 8) ∨ o = 0xF) ∨ (bb b 0 4 ∧ o = 1) then some ccBadPrec
  else if bf b 2 51 48 % 2 ≠ 0 then some ccBadDesc
  else none

/-- How an RQ block converts. A scatter read-out (op 6) of a layer with carried scales converts with RANGE_REQUANT (R166, Table
5-9; log 23). -/
def rqConv (b : List Word) : Conv :=
  { o := Prec.outbits (b.getD 3 0), sym := bb b 0 4, sr := Prec.sr (b.getD 3 0),
    range := decide (bf b 0 3 0 = 2 ∨ (bf b 0 3 0 = 6 ∧ Prec.scaleMode (b.getD 3 0) = 1)),
    rwAddr := 128 * bf b 1 41 28, ch0 := bf b 4 23 0 }

/-- Row tiles of N rows. -/
def rowTiles (b : List Word) : Nat := ceilDiv (bf b 2 31 0) 32

/-! ### Codes from elements -/

/-- Where an element comes from: the row and column of it; its value, poison, and, for a slot, whether it was touched. -/
structure Source where
  v : Nat → Nat → Acc
  psn : Nat → Nat → Bool
  touched : Nat → Nat → Bool

/-- One row group of 8 rows goes through the unit: its two blocks (R125, R191). -/
def Conv.group (k : Conv) (spad : List Host.Cell) (x : Rq) (src : Source) (rows : Nat) (m : Nat)
    (inside : Nat → Nat → Bool) (draw : Nat → Nat) : Rq × BlockAcc × BlockAcc :=
  (List.range 8).foldl (fun (a : Rq × BlockAcc × BlockAcc) r =>
    k.row spad a.1 a.2.1 a.2.2 (src.v (m + r)) (src.psn (m + r))
      (fun n => decide (m + r < rows) && inside ((m + r) % 32) n) (fun n => draw ((m + r) % 32 * 32 + n))) (x, {}, {})

/-- All slots of eight rows and sixteen columns are untouched (R125). -/
def Source.quiet (src : Source) (rows m n0 : Nat) : Bool :=
  (List.range 8).all (fun r => decide (rows ≤ m + r) || (List.range 16).all (fun n => !src.touched (m + r) (n0 + n)))

/-- The logical tile of the rows 32t to 32t + 31 of a run that begins in tile `t0`: one tile row further down for each t (R182,
R408). -/
def State.tileOf (s : State) (job : BitVec 32) (layer : BitVec 16) (t0 t : Nat) : Nat :=
  t0 + t * ceilDiv (s.dims job layer).2.1 32

/-- Rows of elements become codes: row tile i goes to the group at DST + i × its rows, in the K-blocks OKB and OKB + 1
(log 23). -/
def State.convertRows (s : State) (c : CellIx) (k : Conv) (b : List Word) (src : Source) : Bool × State :=
  let rows := bf b 2 31 0
  let job := (s.cell c).job
  let layer := (s.cell c).layer
  let k := { k with nf := (s.convOf job layer).poisons false }
  let r := (List.range (ceilDiv rows 8)).foldl (fun (a : Bool × State) q =>
    let s := a.2
    let t := q / 4
    let tile := s.tileOf job layer (bf b 4 47 24) t
    let g := bf b 1 27 14 + t * groupRows k.width
    let i := bf b 2 51 48 * 4 + q % 4
    let x := s.cell c
    let y := k.group x.spad x.rq src rows (8 * q) (s.extOf job layer tile 0).inside (s.draws c 0 tile 0)
    let m := y.2.2.write (y.2.1.write x.spad g k.width i (src.quiet rows (8 * q) 0)) g k.width (i + 4)
      (src.quiet rows (8 * q) 16)
    let s := s.modCell c (fun x => { x with spad := m, rq := y.1 })
    let s := if k.sr ∧ (q % 4 = 3 ∨ q + 1 = ceilDiv rows 8) then
        s.spendDraws c 0 (32 * min 32 (rows - 32 * t)) else s
    (a.1 || y.2.1.psn || y.2.2.psn, s)) (false, s)
  (r.1, r.2.handStats c job layer)

/-- Accumulator words in scratchpad, 32 to a row of elements (R110). -/
def wordSource (spad : List Host.Cell) (row : Nat) : Source :=
  let w (m n : Nat) : Word := Memory.readWord spad (128 * row + 256 * m + 8 * n)
  { v := fun m n => (w m n).setWidth 40, psn := fun m n => (w m n).getLsbD 40, touched := fun _ _ => true }

/-- Rows that codes go to. -/
def codeRows (b : List Word) (w : Nat) : Nat × Nat := (bf b 1 27 14, rowTiles b * groupRows w)

/-- RANGE_RESET: the fields of CEL_RQ_STAT and the range record return to their reset values (R176), and the layer's conversion
begins, where no other cell has begun it: the policy and the carried record are read (R164, R172, R173). -/
def bodyRangeReset (c : CellIx) (f : InsFields) (s : State) : State :=
  s.rqOp c f (.rangeReset c f) 0 (fun _ => false) (fun _ _ => ([], [])) (fun _ _ => none) (fun _ s =>
    (ccOk, [], (s.modConv (s.cell c).job (s.cell c).layer id).modCell c (fun x =>
      { x with rq := { ({} : Rq) with clips := x.rq.clips, codes := x.rq.codes, ledger := x.rq.ledger } })))

/-- The rows of a REQUANT or RANGE_REQUANT of words. -/
def requantRows (b : List Word) (_ : Cell) : List (Nat × Nat) × List (Nat × Nat) :=
  ([(bf b 1 13 0, 2 * bf b 2 31 0), (bf b 1 41 28, 2)], [codeRows b (rqConv b).width])

/-- The refusals of a REQUANT (R136, R155). -/
def requantFault (b : List Word) (x : Cell) : Option Code :=
  (codesFault b).orElse (fun _ => if (rqConv b).bad x.spad then some ccBadDesc else none)

def requantRun (c : CellIx) (b : List Word) (s : State) : Code × List (BitVec 4 × Word) × State :=
  let r := s.convertRows c (rqConv b) b (wordSource (s.cell c).spad (bf b 1 13 0))
  (outCode r.1, [], r.2)

/-- REQUANT of accumulator words (R156, R157, R174). -/
def bodyRequant (c : CellIx) (f : InsFields) (s : State) : State :=
  s.rqOp c f (.requant c f) 1 (fun _ => false) requantRows requantFault (requantRun c)

/-- RANGE_REQUANT of accumulator words (R166). -/
def bodyRangeRequant (c : CellIx) (f : InsFields) (s : State) : State :=
  s.rqOp c f (.rangeRequant c f) 2 (fun _ => false) requantRows requantFault (requantRun c)

/-! ### Slots -/

def slotSource (b : Sab) (first : Nat) : Source :=
  let z (m n : Nat) : SabSlot := b.slot (first + 32 * m + n)
  { v := fun m n => (z m n).value, psn := fun m n => (z m n).poison, touched := fun m n => (z m n).touched }

/-- Scatter items issued earlier are not all applied (R124). -/
def Cell.scatters (x : Cell) : Bool :=
  x.sab.queues.any (fun q => decide (q.2 ≠ [])) ||
  [x.tile0, x.tile1].any (fun t => t.drain.elim false (fun d => decide (bf d.block 0 2 1 = 3)))

/-- SABOUT: slots FIRST to FIRST + 32N - 1, as words through the range record or through REQUANT, then zero (R124, R125,
R146, R443). -/
def saboutRun (c : CellIx) (b : List Word) (s : State) : Code × List (BitVec 4 × Word) × State :=
  let first := bf b 2 47 32
  let rows := bf b 2 31 0
  let src := slotSource (s.cell c).sab first
  let job := (s.cell c).job
  let layer := (s.cell c).layer
  let inside (m n : Nat) : Bool := (s.extOf job layer (s.tileOf job layer (bf b 4 47 24) (m / 32)) 0).inside (m % 32) n
  let clear (s : State) : State := s.modCell c (fun x =>
    { x with sab := { x.sab with slots := x.sab.slots.filter (fun e => decide (e.1 < first ∨ first + 32 * rows ≤ e.1)),
                                 ledger := {} },
             rq := { x.rq with ledger := x.rq.ledger.merge x.sab.ledger } })
  if bb b 0 5 then
    let r := s.convertRows c (rqConv b) b src
    (outCode r.1, [], clear r.2)
  else
    let psn := (List.range rows).any (fun m => (List.range 32).any (fun n => src.psn m n))
    let s := s.modCell c (fun x =>
      { x with
        spad := Memory.writeWords x.spad (128 * bf b 1 27 14) ((List.range (32 * rows)).map (fun i =>
          accWord (src.v 0 i) (src.psn 0 i) (src.touched 0 i))),
        rq := (List.range (32 * rows)).foldl (fun q i =>
          if inside (i / 32) (i % 32) then q.rangePass (bf b 4 23 0 + i % 32) (src.v 0 i) else q) x.rq })
    (outCode psn, [], clear s)

def bodySabout (c : CellIx) (f : InsFields) (s : State) : State :=
  s.rqOp c f (.sabout c f) 6 (·.scatters)
    (fun b _ => if bb b 0 5 then ([(bf b 1 41 28, 2)], [codeRows b (rqConv b).width])
      else ([], [(bf b 1 27 14, 2 * bf b 2 31 0)]))
    (fun b x =>
      (emptyN b).orElse (fun _ =>
        if 65536 < bf b 2 47 32 + 32 * bf b 2 31 0 then some ccBadDesc
        else if bb b 0 5 then requantFault b x else none))
    (saboutRun c)

/-! ### DEQUANT, QUANT, RANGE_F32 -/

/-- FP32 element n of a wide row (R278). -/
def f32At (spad : List Host.Cell) (row n : Nat) : F32 := BitVec.ofNat 32 (Memory.readNat spad (128 * row + 4 * n) 4)

/-- A record that no conversion can use: GRAN 0b11 or a width that is none (Table 5-3). -/
def recBad (h : Word) : Bool :=
  decide (Rec.gran h = 3 ∨ ¬((1 ≤ Rec.width h ∧ Rec.width h ≤ 8) ∨ Rec.width h = 0xE ∨ Rec.width h = 0xF))

/-- The rows of a record that serves `n` channels from channel `ch` on. -/
def recRows (aux ch n : Nat) : List (Nat × Nat) := [(aux, 1), rowSpan aux (8 + 8 * ch) (8 * n)]

/-- The channels that a DEQUANT or QUANT of `rows` rows uses: 32, or one to a row (R721). -/
def channelCount (byRow : Bool) (rows : Nat) : Nat := if byRow then rows else 32

/-- The value of a code under an entry (R138). -/
def dequantValue (e : Word) (c : Int) : F32 := if Ent.cnst e then Ent.scale e else F32.mul (F32.ofInt (c - Ent.zp e)) (Ent.scale e)

/-- The width of the record that a DEQUANT or QUANT uses. -/
def recWidth (h : Word) : Nat := storedWidth (Rec.width h) 0

/-- DEQUANT: rows of codes of the K-blocks OKB and OKB + 1 become rows of FP32 values (R138, R190, R721). -/
def dequantRun (c : CellIx) (b : List Word) (s : State) : Code × List (BitVec 4 × Word) × State :=
  let aux := bf b 1 41 28
  let ch := bf b 4 23 0
  let k0 := 16 * bf b 2 51 48
  let m0 := (s.cell c).spad
  let h := recHeader m0 aux
  let w := recWidth h
  let g (m : Nat) : Nat := bf b 1 13 0 + m / 32 * groupRows w
  let byRow := s.byRow (s.cell c).job (s.cell c).layer false
  let val (m n : Nat) : F32 :=
    let e := recEntry m0 aux (ch + if byRow then m else n)
    match groupElem m0 (g m) w (m % 32) (k0 + n) with
    | some x => dequantValue e (codeValue (Rec.width h) (Rec.sym h) x)
    | none => dequantValue e (Ent.zp e)
  let psn (m i : Nat) : Bool := groupPoison m0 (g m) (m % 32) (k0 + i)
  let rows := bf b 2 31 0
  let s := s.modCell c (fun x => (List.range rows).foldl (fun x m =>
    let row := bf b 1 27 14 + m
    let bytes := (List.range 32).flatMap (fun n => bytesLE 4 (val m n).toNat)
    let y := { x with spad := Memory.writeBytes x.spad (128 * row) bytes }
    (y.markBlock false row 0 (psn m 0)).markBlock false row 16 (psn m 16)) x)
  (outCode ((List.range rows).any (fun m => psn m 0 || psn m 16)), [], s)

def bodyDequant (c : CellIx) (f : InsFields) (s : State) : State :=
  s.rqOp c f (.dequant c f) 3 (fun _ => false)
    (fun b x => ((bf b 1 13 0, rowTiles b * groupRows (recWidth (recHeader x.spad (bf b 1 41 28)))) ::
      recRows (bf b 1 41 28) (bf b 4 23 0) (channelCount (s.byRow (s.cell c).job (s.cell c).layer false) (bf b 2 31 0)),
      [(bf b 1 27 14, bf b 2 31 0)]))
    (fun b x =>
      let h := recHeader x.spad (bf b 1 41 28)
      (emptyN b).orElse (fun _ =>
        if recBad h ∨ bf b 2 51 48 % 2 ≠ 0 then some ccBadDesc
        else if Rec.nch h = 0 then some ccEmpty else none))
    (dequantRun c)

/-- The code of an FP32 value under an entry, and whether a clamp, NaN or infinity counts (R162, R174). -/
def quantCode (e : Word) (cmin cmax : Int) (sr : Bool) (r16 : Nat) (v : F32) : Int × Bool :=
  if Ent.cnst e then (0, false) else
  let q := F32.div v (Ent.scale e)
  if F32.isNan v || F32.isNan q then (0, true)
  else if F32.isInf q then (if F32.neg? q then cmin else cmax, true)
  else
    let p := F32.parts q
    let i : Int := if p.1 then -(p.2.1 : Int) else (p.2.1 : Int)
    let y := (if 0 ≤ p.2.2 then i * 2 ^ p.2.2.toNat else roundShift i (-p.2.2).toNat sr r16) + Ent.zp e
    (clampI cmin cmax y, decide (y < cmin ∨ cmax < y))

/-- An FP32 value enters the FP32 range record (R174). -/
def Rq.rangeF32 (x : Rq) (n : Nat) (v : F32) : Rq :=
  if !F32.isFinite v then { x with special := true }
  else
    let lo := (SMap.get? x.flo n).elim v (fun a => F32.min a v)
    let hi := (SMap.get? x.fhi n).elim v (fun a => F32.max a v)
    { x with flo := SMap.set x.flo n lo, fhi := SMap.set x.fhi n hi, rangeValid := true }

/-- QUANT: rows of FP32 values become codes (R157, R162, R174, R182, R721). With a carried record it keeps the statistics of its
entries and the FP32 range as well, from which the record adapts (R166, R167; DESIGN CHOICE, log 23: Table 5-9 names the range
record for RANGE_F32 only, and no other operation then sees the values). -/
def quantRun (c : CellIx) (b : List Word) (s : State) : Code × List (BitVec 4 × Word) × State :=
  let aux := bf b 1 41 28
  let ch := bf b 4 23 0
  let m0 := s.cell c
  let h := recHeader m0.spad aux
  let o := Rec.width h
  let w := recWidth h
  let sym := Rec.sym h
  let sr := Prec.sr (b.getD 3 0)
  let rows := bf b 2 31 0
  let job := m0.job
  let layer := m0.layer
  let byRow := s.byRow job layer true
  let kv := s.convOf job layer
  let r := (List.range (ceilDiv rows 8)).foldl (fun (a : Bool × State) q =>
    let s := a.2
    let t := q / 4
    let tile := s.tileOf job layer (bf b 4 47 24) t
    let e := s.extOf job layer tile 0
    let inside (m n : Nat) : Bool := decide (m < rows) && e.inside (m % 32) n
    let draw := s.draws c 0 tile 0
    let step (n0 : Nat) (x : Rq × BlockAcc) (i : Nat) : Rq × BlockAcc :=
      let m := 8 * q + i / 16
      let n := n0 + i % 16
      if inside m n then
        let k := ch + if byRow then m else n
        let e := recEntry m0.spad aux k
        let v := f32At m0.spad (bf b 1 13 0 + m) n
        let y := quantCode e (codeMin o sym) (codeMax o sym) sr (draw (m % 32 * 32 + n)) v
        let q := if Rec.carry h then (x.1.rangeF32 k v).stat k y.1 y.2 else x.1
        (q.wrote y.1 y.2,
         { codes := x.2.codes ++ [codeBits o y.1],
           psn := x.2.psn || y.2 || m0.blockPoison false (bf b 1 13 0 + m) n || kv.poisons true k,
           zero := x.2.zero && decide (y.1 = if Ent.cnst e then 0 else Ent.zp e) })
      else (x.1, { x.2 with codes := x.2.codes ++ [0] })
    let left := (List.range 128).foldl (step 0) ((s.cell c).rq, {})
    let right := (List.range 128).foldl (step 16) (left.1, {})
    let g := bf b 1 27 14 + t * groupRows w
    let i := bf b 2 51 48 * 4 + q % 4
    let s := s.modCell c (fun x =>
      { x with rq := right.1, spad := right.2.write (left.2.write x.spad g w i false) g w (i + 4) false })
    let s := if sr ∧ (q % 4 = 3 ∨ q + 1 = ceilDiv rows 8) then s.spendDraws c 0 (32 * min 32 (rows - 32 * t)) else s
    (a.1 || left.2.psn || right.2.psn, s)) (false, s)
  (outCode r.1, [], r.2.handStats c job layer)

def bodyQuant (c : CellIx) (f : InsFields) (s : State) : State :=
  s.rqOp c f (.quant c f) 4 (fun _ => false)
    (fun b x => ((bf b 1 13 0, bf b 2 31 0) ::
      recRows (bf b 1 41 28) (bf b 4 23 0) (channelCount (s.byRow (s.cell c).job (s.cell c).layer true) (bf b 2 31 0)),
      [codeRows b (recWidth (recHeader x.spad (bf b 1 41 28)))]))
    (fun b x =>
      let h := recHeader x.spad (bf b 1 41 28)
      (emptyN b).orElse (fun _ =>
        if recBad h ∨ Rec.width h = 0xE ∨ (Rec.sym h ∧ Rec.width h = 1) ∨ bf b 2 51 48 % 2 ≠ 0 then some ccBadDesc
        else if Rec.nch h = 0 then some ccEmpty else none))
    (quantRun c)

/-- RANGE_F32 (R174), over the channels of R721. -/
def bodyRangeF32 (c : CellIx) (f : InsFields) (s : State) : State :=
  s.rqOp c f (.rangeF32 c f) 5 (fun _ => false) (fun b _ => ([(bf b 1 13 0, bf b 2 31 0)], [])) (fun b _ => emptyN b) (fun b s =>
    let job := (s.cell c).job
    let layer := (s.cell c).layer
    let byRow := s.byRow job layer true
    let inside (m n : Nat) : Bool := (s.extOf job layer (s.tileOf job layer (bf b 4 47 24) (m / 32)) 0).inside (m % 32) n
    (ccOk, [], s.modCell c (fun x =>
      { x with rq := (List.range (bf b 2 31 0)).foldl (fun q m => (List.range 32).foldl (fun q n =>
          if inside m n then q.rangeF32 (bf b 4 23 0 + if byRow then m else n) (f32At x.spad (bf b 1 13 0 + m) n)
          else q) q) x.rq })))

/-! ### Range records -/

/-- RANGEOUT: lo and hi of channels CH0 to CH0 + N - 1 as accumulator words (R444). -/
def bodyRangeout (c : CellIx) (f : InsFields) (s : State) : State :=
  s.rqOp c f (.rangeout c f) 7 (fun _ => false) (fun b _ => ([], [(bf b 1 27 14, ceilDiv (bf b 2 31 0) 8)])) (fun b _ => emptyN b)
    (fun b s => (ccOk, [], s.modCell c (fun x =>
      { x with spad := Memory.writeWords x.spad (128 * bf b 1 27 14) ((List.range (bf b 2 31 0)).flatMap (fun i =>
          [accWord (BitVec.ofInt 40 (x.rq.low (bf b 4 23 0 + i))) false false,
           accWord (BitVec.ofInt 40 (x.rq.high (bf b 4 23 0 + i))) false false])) })))

/-- RANGEMERGE: such words are folded into the cell's range record (R148). -/
def bodyRangemerge (c : CellIx) (f : InsFields) (s : State) : State :=
  s.rqOp c f (.rangemerge c f) 8 (fun _ => false) (fun b _ => ([(bf b 1 13 0, ceilDiv (bf b 2 31 0) 8)], [])) (fun b _ => emptyN b)
    (fun b s => (ccOk, [], s.modCell c (fun x =>
      { x with rq := (List.range (bf b 2 31 0)).foldl (fun (q : Rq) i =>
          let at_ (j : Nat) : Int :=
            ((Memory.readWord x.spad (128 * bf b 1 13 0 + 16 * i + 8 * j)).setWidth 40 : BitVec 40).toInt
          let n := bf b 4 23 0 + i
          { (q.fold n (at_ 0) (at_ 1)) with rangeValid := q.rangeValid || decide (at_ 0 ≤ at_ 1) }) x.rq })))

/-! ### Scales -/

/-- An entry made or repaired, and whether R150 repaired it. -/
structure Entry where
  scale : F32 := 0
  zp : Int := 0
  cnst : Bool := false
  fixed : Bool := false
deriving DecidableEq, Repr

def Entry.word (e : Entry) : Word := Ent.mk e.scale e.zp e.cnst
def Entry.ofWord (w : Word) : Entry := { scale := Ent.scale w, zp := Ent.zp w, cnst := Ent.cnst w }

/-- cmin + rne(-L) with L widened, for a repaired asymmetric entry (R150). -/
def repairZp (cmin cmax : Int) (l : F32) : Int :=
  if F32.isNan l then cmin
  else if F32.isInf l then (if F32.neg? l then cmax else cmin)
  else clampI cmin cmax (cmin + F32.rne (F32.negate l))

/-- R150: a SCALE that is zero, infinite or NaN becomes 1.0. `l` is the widened lower bound. -/
def Entry.repair (e : Entry) (sym : Bool) (cmin cmax : Int) (l : F32) : Entry :=
  if e.cnst || (F32.isFinite e.scale && !F32.isZero e.scale) then e
  else { scale := F32.one, zp := if sym then 0 else repairZp cmin cmax l, cnst := false, fixed := true }

def f32Zero : F32 := 0

/-- make_entry() (R149), with the repair of R150. -/
def makeEntry (l h : F32) (sym : Bool) (cmin cmax : Int) (early carry : Bool) (g : F32) : Entry :=
  if early && F32.same l h then { scale := l, zp := 0, cnst := true }
  else
    let l := F32.mul (F32.min l f32Zero) g
    let h := F32.mul (F32.max h f32Zero) g
    if F32.same h l then
      if carry then { scale := F32.one, zp := if sym then 0 else cmin, cnst := false }
      else { scale := f32Zero, zp := 0, cnst := true }
    else
      let e : Entry :=
        if sym then { scale := F32.div (F32.max (F32.negate l) h) (F32.ofInt cmax) }
        else
          let sc := F32.div (F32.sub h l) (F32.ofInt (cmax - cmin))
          { scale := sc, zp := cmin + F32.rne (F32.div (F32.negate l) sc) }
      e.repair sym cmin cmax l

/-- scale_from_range() (R149 to R151, R160, R161, R168) over L[n] and H[n]. -/
def scaleFromRange (lh : List (F32 × F32)) (gran : Nat) (sym : Bool) (cmin cmax : Int) (carry : Bool) (g : F32) : List Entry :=
  if gran = 0 then
    let l := (lh.drop 1).foldl (fun a x => F32.min a x.1) ((lh.getD 0 (0, 0)).1)
    let h := (lh.drop 1).foldl (fun a x => F32.max a x.2) ((lh.getD 0 (0, 0)).2)
    [makeEntry l h sym cmin cmax false carry g]
  else if gran = 2 then lh.map (fun x => makeEntry x.1 x.2 sym cmin cmax (!sym && !carry) carry g)
  else
    let low (x : F32 × F32) : F32 := F32.mul (F32.min x.1 f32Zero) g
    let sy := lh.foldl (fun a x => F32.max a (F32.div (F32.sub (F32.mul (F32.max x.2 f32Zero) g) (low x))
      (F32.ofInt (cmax - cmin)))) f32Zero
    lh.map (fun x =>
      if F32.isZero sy then makeEntry f32Zero f32Zero false cmin cmax false carry g
      else
        let e : Entry := { scale := sy, zp := cmin + F32.rne (F32.div (F32.negate (low x)) sy) }
        e.repair false cmin cmax (low x))

/-- ratio_to_word() (R151). The factor at s = 62 is that of the word's SHIFT (log 23). -/
def ratioToWord (r : F32) (zout : Int) : Word :=
  if F32.isZero r || F32.isNan r then Rw.mk 0 62 zout
  else if F32.isInf r then Rw.mk 0x7FFFFFFF 0 zout
  else
    let p := F32.parts r
    let e := F32.exponent r
    if 30 < e then Rw.mk 0x7FFFFFFF 0 zout
    else if 62 < 30 - e then
      let q := scaledDiv p.2.1 1 (-(p.2.2 + 62))
      Rw.mk (rneParts q.1 q.2.1 q.2.2) 62 zout
    else Rw.mk (p.2.1 * 2 ^ (30 - Nat.log2 p.2.1)) (30 - e).toNat zout

/-- The rescale word of a channel, and whether its ratio is not finite (R151). -/
def wordOf (sn : F32) (e : Entry) : Word × Bool :=
  if e.cnst then (Rw.const, false)
  else
    let r := F32.div sn e.scale
    (ratioToWord r e.zp, !F32.isFinite r)

/-- L[n] and H[n] of a channel: from the FP32 record where RANGE_F32 made one, else from the range record and S[n]
(R147, R149, R174). -/
def Rq.bounds (x : Rq) (n : Nat) (sn : F32) : F32 × F32 :=
  if x.flo ≠ [] then (SMap.getD x.flo n 0, SMap.getD x.fhi n 0)
  else
    let lo := x.low n
    let hi := x.high n
    if hi < lo then (0, 0) else (F32.mul (F32.ofInt lo) sn, F32.mul (F32.ofInt hi) sn)

/-- Table 5-7: an entry of the carried record adapts. -/
def adapts (st : List EntryStat) (limit : Nat) (cmin cmax : Int) : Bool :=
  let n := st.foldl (fun a e => a + e.n) 0
  let cl := st.foldl (fun a e => a + e.clipped) 0
  let lo := st.foldl (fun a e => min a e.lo) 65536
  let hi := st.foldl (fun a e => max a e.hi) (-65536)
  decide (n ≠ 0) && (decide (limit * n < cl * 2 ^ 20) || decide ((hi - lo + 1) * 4 < cmax - cmin + 1))

/-- g = 1 + h / 16 for a carried record. -/
def carryFactor (carry : Bool) (h : Nat) : F32 :=
  if carry then F32.add F32.one (F32.div (F32.ofInt h) (F32.ofInt 16)) else F32.one

/-- A carried record of `n` channels exists: its header word is not zero, and it keeps R139 (R165). -/
def recExists (r : List Word) (n : Nat) : Bool :=
  let h := r.getD 0 0
  decide (h ≠ 0) && Rec.headOk h n && (List.range (Rec.entries h)).all (fun i => Rec.entryOk h (r.getD (1 + i) 0) (r.getD 1 0))

/-- The record that stood at a layer's CARRY when its conversion began, its header word first, where it exists under R165. -/
def State.carriedRec (s : State) (job : BitVec 32) (layer : BitVec 16) (g : GraphRec) (l : Desc) : Option (List Word) :=
  let r := (s.convOf job layer).carried
  let h := r.getD 0 0
  let o := (s.tensorRec g (Layer.outT l)).getD 0
  if recExists r (g.channels (Layer.outT l)) && decide (Rec.gran h = Rec.gran o ∧ Rec.sym h = Rec.sym o ∧
      Rec.width h = Rec.width o ∧ Rec.nch h = Rec.nch o) then some r else none

/-- The carried record that a SCALE uses, its header word first, with the index of the entry of its first channel, or none where
it does not exist (R165): for a layer of this device's driver the record that stood at CARRY when the conversion began, against
the header word at the output tensor's SREC; for another's the words at SRC, against the block (log 23). -/
def State.carriedFor (s : State) (c : CellIx) (b : List Word) (n : Nat) : Option (List Word × Nat) :=
  let x := s.cell c
  match s.layerOf x.job x.layer with
  | some (g, l) => (s.carriedRec x.job x.layer g l).map (fun r => (r, bf b 4 23 0))
  | none =>
    let h := recHeader x.spad (bf b 1 13 0)
    let r := (List.range (1 + Rec.entries h)).map (fun i => Memory.readWord x.spad (128 * bf b 1 13 0 + 8 * i))
    if recExists r n && decide (Rec.gran h = bf b 0 9 8 ∧ Rec.sym h = bb b 0 4 ∧ Rec.width h = Prec.outbits (b.getD 3 0)) then
      some (r, 0)
    else none

/-- The entries of a SCALE, each with whether it adapted: made, given (R163), or carried and adapted one by one or as a whole
(R165 to R168). -/
def scaleEntries (s : State) (c : CellIx) (b : List Word) (lh : List (F32 × F32)) (n : Nat) : List (Entry × Bool) :=
  let x := s.cell c
  let carry := bb b 0 6
  let gran := bf b 0 9 8
  let sym := bb b 0 4
  let o := Prec.outbits (b.getD 3 0)
  let cmin := codeMin o sym
  let cmax := codeMax o sym
  let count := if gran = 0 then 1 else n
  let kv := s.convOf x.job x.layer
  let made := scaleFromRange lh gran sym cmin cmax carry (carryFactor carry kv.headroom)
  if bb b 0 7 then
    (List.range count).map (fun i => (Entry.ofWord (Memory.readWord x.spad (128 * bf b 1 41 28 + 8 + 8 * i)), false))
  else
    match if carry then s.carriedFor c b n else none with
    | none => made.map (fun e => (e, false))
    | some (r, base) =>
      let stat (i : Nat) : EntryStat := SMap.getD kv.stats (bf b 4 23 0 + i) {}
      let each : List Bool :=
        if gran = 0 then [adapts ((List.range n).map stat) kv.clipLimit cmin cmax]
        else (List.range n).map (fun i => adapts [stat i] kv.clipLimit cmin cmax)
      let go (i : Nat) : Bool := if gran = 2 then each.getD i false else each.any id
      (List.range count).map (fun i =>
        if go i then (made.getD i {}, true)
        else (Entry.ofWord (r.getD (1 + if gran = 0 then 0 else base + i) 0), false))

/-- The header word of the record that SCALE writes (R149). -/
def scaleHeader (b : List Word) (n : Nat) : Word :=
  BitVec.ofNat 64 (bf b 0 9 8 + 4 * b2n (bb b 0 4) + 8 * b2n (bb b 0 6) + 16 * Prec.outbits (b.getD 3 0) + 256 * (n % 2 ^ 24))

/-- SCALE: entries at DST after their header word, rescale words at AUX2, S[n] as FP32 values at AUX, or at SRC when GIVEN
takes the entries from AUX; RD receives the number of CONST channels (R149 to R151, R160 to R168; log 23). -/
def scaleRun (c : CellIx) (f : InsFields) (b : List Word) (s : State) : Code × List (BitVec 4 × Word) × State :=
  let x := s.cell c
  let n := bf b 2 31 0
  let given := bb b 0 7
  let sn (i : Nat) : F32 := f32At x.spad ((if given then bf b 1 13 0 else bf b 1 41 28) + i / 32) (i % 32)
  let lh := (List.range n).map (fun i => x.rq.bounds (bf b 4 23 0 + i) (sn i))
  let r := scaleEntries s c b lh n
  let gran := bf b 0 9 8
  let ent (i : Nat) : Entry × Bool := r.getD (if gran = 0 then 0 else i) ({}, false)
  let ws := (List.range n).map (fun i => wordOf (sn i) (ent i).1)
  let dst := 128 * bf b 1 27 14
  let ch := bf b 4 23 0
  let words := (List.range n).filter (fun i => (ws.getD i (0, false)).2 && !(ent i).2)
  let fixed := (List.range r.length).filter (fun i => (r.getD i ({}, false)).1.fixed && !(r.getD i ({}, false)).2)
  let marks : List NfMark := words.map (fun i => ⟨false, some (ch + i)⟩) ++
    fixed.map (fun i => ⟨true, if gran = 0 then none else some (ch + i)⟩)
  let s := s.modConv x.job x.layer (fun k =>
    { k with nf := k.nf ++ marks,
             made := (List.range r.length).foldl (fun m i =>
               SMap.set m (if gran = 0 then 0 else ch + i) (r.getD i ({}, false)).1.word) k.made })
  let s := s.modCell c (fun x =>
    let m := if given then x.spad
      else Memory.writeWords x.spad dst (scaleHeader b n :: r.map (fun e => e.1.word))
    { x with spad := Memory.writeWords m (128 * bf b 1 55 42) (ws.map (·.1)),
             rq := { x.rq with nonfinite := x.rq.nonfinite || (ws.any (·.2)) || (!given && r.any (·.1.fixed)) },
             cnt := { x.cnt with adapts := x.cnt.adapts + BitVec.ofNat 64 (r.countP (·.2)) } })
  (ccOk, [(f.rd, BitVec.ofNat 64 ((List.range n).countP (fun i => (ent i).1.cnst)))], s)

def bodyScaleRq (c : CellIx) (f : InsFields) (s : State) : State :=
  s.rqOp c f (.scaleRq c f) 9 (fun _ => false)
    (fun b _ =>
      let n := bf b 2 31 0
      let given := bb b 0 7
      let recN := rowSpan 0 0 (8 + 8 * (if bf b 0 9 8 = 0 then 1 else n))
      let sRows := ceilDiv n 32
      (if given then [(bf b 1 13 0, sRows), (bf b 1 41 28, recN.2)]
       else (bf b 1 41 28, sRows) :: (if bb b 0 6 then [(bf b 1 13 0, recN.2)] else []),
       (bf b 1 55 42, ceilDiv n 16) :: (if given then [] else [(bf b 1 27 14, recN.2)])))
    (fun b _ =>
      let o := Prec.outbits (b.getD 3 0)
      (emptyN b).orElse (fun _ =>
        if ¬((1 ≤ o ∧ o ≤ 8) ∨ o = 0xF) ∨ (bb b 0 4 ∧ o = 1) then some ccBadPrec
        else if bf b 0 9 8 = 3 ∨ (bf b 0 9 8 = 1 ∧ bb b 0 4) then some ccBadDesc
        else none))
    (scaleRun c f)

/-! ### LEDGER -/

/-- LEDGER: the output ledger goes to RB consecutive 64-byte slots of device memory from unit RA, and is cleared (R265,
R443, Table 12-8). RB = 0 completes with OK_EMPTY (R412); a slot beyond the device's memory gives BAD_DESC. -/
def bodyLedgerW (c : CellIx) (f : InsFields) (s : State) : State :=
  s.guarded c (.ledgerW c f) [f.ra, f.rb] [] [] (fun s =>
    let x := s.cell c
    let a := (x.seq.reg f.ra).toNat
    let n := (x.seq.reg f.rb).toNat
    if n = 0 then s.finish c ccEmpty
    else if 2 ^ 40 < a + n then s.finish c ccBadDesc
    else if x.rqBusy then s.stall c 4 (.ledgerW c f)
    else
      let bytes := x.rq.ledger.stored
      let m := (List.range n).foldl (fun (m : MemSys) i => m.writeUnit (a + i) (bytes, 0)) s.mem
      let s := { s with mem := m }
      let s := s.modCell c (fun x => { x with rq := { x.rq with ledger := {} } })
      (s.addOp c { id := 0, unit := .rq }).retire c)

/-! ### The instructions -/

def execRangeReset (c : CellIx) (f : InsFields) (s : State) : Out :=
  .next (s.issue c 0x4C f (.rangeReset c f) (bodyRangeReset c f))
def execRequant (c : CellIx) (f : InsFields) (s : State) : Out :=
  .next (s.issue c 0x4C f (.requant c f) (bodyRequant c f))
def execRangeRequant (c : CellIx) (f : InsFields) (s : State) : Out :=
  .next (s.issue c 0x4C f (.rangeRequant c f) (bodyRangeRequant c f))
def execDequant (c : CellIx) (f : InsFields) (s : State) : Out :=
  .next (s.issue c 0x4C f (.dequant c f) (bodyDequant c f))
def execQuant (c : CellIx) (f : InsFields) (s : State) : Out :=
  .next (s.issue c 0x4C f (.quant c f) (bodyQuant c f))
def execRangeF32 (c : CellIx) (f : InsFields) (s : State) : Out :=
  .next (s.issue c 0x4C f (.rangeF32 c f) (bodyRangeF32 c f))
def execSabout (c : CellIx) (f : InsFields) (s : State) : Out :=
  .next (s.issue c 0x4C f (.sabout c f) (bodySabout c f))
def execRangeout (c : CellIx) (f : InsFields) (s : State) : Out :=
  .next (s.issue c 0x4C f (.rangeout c f) (bodyRangeout c f))
def execRangemerge (c : CellIx) (f : InsFields) (s : State) : Out :=
  .next (s.issue c 0x4C f (.rangemerge c f) (bodyRangemerge c f))
def execScaleRq (c : CellIx) (f : InsFields) (s : State) : Out :=
  .next (s.issue c 0x4C f (.scaleRq c f) (bodyScaleRq c f))
def execLedgerW (c : CellIx) (f : InsFields) (s : State) : Out :=
  .next (s.issue c 0x4E f (.ledgerW c f) (bodyLedgerW c f))

end Sys2Proof.Machine
end

