-- ==== Sys2Proof/Machine/Lfu.lean ====
section
/-! DEFINITION. The log-domain function unit (R270 to R283, R718, R719). -/

namespace Sys2Proof.Machine

open Sys2Proof

/-! ### L16 (R270, R273) -/

def l16Zero : BitVec 16 := 0x4000

/-- An L16 value as a log value; 0x4000 and 0xC000 are zero. -/
def l16ToLog (x : BitVec 16) : LogV :=
  let q := signed 15 (fld x 14 0)
  if q = -16384 then ⟨false, logZero⟩ else ⟨x.getLsbD 15, q⟩

/-- What happened on the way of an element: saturations, flushes, SPECIAL, and poison of its output block (R277). -/
structure LfuEv where
  sats : Nat := 0
  flushes : Nat := 0
  special : Bool := false
  psn : Bool := false
deriving DecidableEq, Repr

def LfuEv.add (a b : LfuEv) : LfuEv := ⟨a.sats + b.sats, a.flushes + b.flushes, a.special || b.special, a.psn || b.psn⟩
def LfuEv.sat (b : Bool) : LfuEv := if b then { sats := 1, psn := true } else {}
def LfuEv.flush (b : Bool) : LfuEv := if b then { flushes := 1 } else {}

/-- The written form of a result: FP32 bits or an L16 value in 32 bits. -/
abbrev LfuOut := BitVec 32 × LfuEv

/-- A log value written as L16 (R273) or FP32 (R271). -/
def writeLog (l16 : Bool) (a : LogV) : LfuOut :=
  if l16 then
    if a.q = logZero then (l16Zero.setWidth 32, {})
    else if 16383 < a.q then (BitVec.ofNat 32 (16383 + 2 ^ 15 * b2n a.sgn), LfuEv.sat true)
    else if a.q < -16383 then (l16Zero.setWidth 32, LfuEv.flush true)
    else (BitVec.ofNat 32 ((a.q % 32768).toNat + 2 ^ 15 * b2n a.sgn), {})
  else
    match logToF32 a with
    | (v, s, f) => (v, (LfuEv.sat s).add (LfuEv.flush f))

/-- The NaN result, or in L16 the zero code in a poisoned block (R277). -/
def nanResult (l16 : Bool) : LfuOut :=
  if l16 then (l16Zero.setWidth 32, { special := true, psn := true }) else (0x7FC00000, { special := true })

/-- An FP32 result written as FP32, or through f32_to_log() as L16 (R275, R277). -/
def writeF32 (l16 : Bool) (v : F32) : LfuOut :=
  if F32.isNan v then nanResult l16
  else if !l16 then (v, {})
  else if F32.isInf v then writeLog true ⟨F32.neg? v, logMax⟩
  else writeLog true (f32ToLog v)

/-! ### Operands -/

/-- An operand in the log form; none for a NaN (R277). -/
def opLog (l16 : Bool) (x : BitVec 32) : Option (LogV × LfuEv) :=
  if l16 then some (l16ToLog (x.setWidth 16), {})
  else if F32.isNan x then none
  else if F32.isInf x then some (⟨F32.neg? x, logMax⟩, { sats := 1, special := true, psn := true })
  else some (f32ToLog x, {})

/-- An operand in FP32, an L16 one read through log_to_f32() (R718). -/
def opF32 (l16 : Bool) (x : BitVec 32) : F32 × LfuEv :=
  if l16 then
    match logToF32 (l16ToLog (x.setWidth 16)) with
    | (v, s, f) => (v, (LfuEv.sat s).add (LfuEv.flush f))
  else (x, {})

/-- The same, for operations that first compute in FP32: an infinity enters as the largest finite value (R277). -/
def opFinite (l16 : Bool) (x : BitVec 32) : F32 × LfuEv :=
  match opF32 l16 x with
  | (v, e) =>
    if F32.isInf v then (F32.maxFin (F32.neg? v), e.add { sats := 1, special := true, psn := true }) else (v, e)

/-- f32_to_log() of a value formed inside an operation: +Infinity is the largest magnitude (R277). -/
def innerLog (v : F32) : LogV := if F32.isFinite v then f32ToLog v else ⟨F32.neg? v, logMax⟩

/-! ### Elementwise operations (Table 8-2, R276, R277) -/

/-- 2 × sqrt(2 / pi) and 0.044715, each the nearest FP32 value. -/
def geluG : F32 := 0x3FCC422A
def geluC : F32 := 0x3D372713

/-- GELU and SILU of a finite x. -/
def gated (gelu : Bool) (ol : Bool) (x : F32) : LfuOut :=
  let u := if gelu then F32.mul geluG (F32.add x (F32.mul geluC (F32.mul (F32.mul x x) x))) else x
  let t := expLog (F32.negate u)
  match logToF32 t.1 with
  | (v, s, f) =>
    let p := F32.add F32.one v
    let pr := innerLog p
    let y := logMul (f32ToLog x) ⟨pr.sgn, -pr.q⟩
    let w := writeLog ol y.1
    (w.1, (((LfuEv.sat t.2).add (LfuEv.sat s)).add (LfuEv.flush f)).add ((LfuEv.sat y.2).add w.2))

/-- An elementwise operation of index `op` on operand `a`, and `b` for MUL. -/
def lfuElem (op : Nat) (il ol : Bool) (a : BitVec 32) (b : BitVec 16) : LfuOut :=
  let out (e : LfuEv) (r : LfuOut) : LfuOut := (r.1, e.add r.2)
  if op = 2 then
    match opF32 il a with
    | (x, e) =>
      if F32.isNan x then nanResult ol
      else
        let e := if F32.isInf x then e.add { sats := 1, special := true, psn := true } else e
        let t := expLog x
        out (e.add (LfuEv.sat t.2)) (writeLog ol t.1)
  else if op = 7 ∨ op = 8 then
    match opFinite il a with
    | (x, e) => if F32.isNan x then nanResult ol else out e (gated (decide (op = 7)) ol x)
  else if op = 0 ∧ il ∧ ol then (a.setWidth 16 |>.setWidth 32, {})
  else
    match opLog il a with
    | none => nanResult ol
    | some (x, e) =>
      if op = 0 then out e (writeLog ol x)
      else if op = 1 then
        let y := logMul x (l16ToLog b)
        out (e.add (LfuEv.sat y.2)) (writeLog ol y.1)
      else if op = 3 then
        if x.q = logZero then out e (writeF32 ol (F32.infOf true))
        else if x.sgn then out e (nanResult ol)
        else out e (writeF32 ol (logNatural x.q))
      else if op = 4 then
        if x.q = logZero then out (e.add (LfuEv.sat true)) (writeLog ol ⟨x.sgn, logMax⟩)
        else out e (writeLog ol ⟨x.sgn, -x.q⟩)
      else
        if x.q = logZero then out (e.add (LfuEv.sat true)) (writeLog ol ⟨x.sgn, logMax⟩)
        else if x.sgn then out e (nanResult ol)
        else out e (writeLog ol ⟨false, halfNeg x.q⟩)

/-! ### Row operations -/

/-- tree_sum() (R280), with fuel for its depth. -/
def treeSum : Nat → List F32 → F32
  | 0, _ => 0
  | _ + 1, [] => 0
  | _ + 1, [v] => v
  | k + 1, l =>
    let h := 2 ^ Nat.log2 (l.length - 1)
    F32.add (treeSum k (l.take h)) (treeSum k (l.drop h))

def sumTree (l : List F32) : F32 := treeSum 40 l

/-- The largest of a non-empty list of finite values. -/
def maxOf (l : List F32) : F32 := (l.drop 1).foldl (fun a x => if F32.lt a x then x else a) (l.getD 0 0)

def sumEv (l : List LfuEv) : LfuEv := l.foldl LfuEv.add {}

/-- The NaN that the unit writes (R277). -/
def nanF32 : F32 := 0x7FC00000

/-- A row of NaN results (R277). -/
def nanRow (ol : Bool) (n : Nat) : List LfuOut :=
  List.replicate n ((nanResult ol).1, { (nanResult ol).2 with special := true, psn := true })

/-- exp_log(x - mx) of a row, with v[i]. -/
def softTerms (xs : List F32) (mx : F32) : List (LogV × F32 × LfuEv) :=
  xs.map (fun x =>
    let t := expLog (F32.sub x mx)
    match logToF32 t.1 with
    | (v, s, f) => (t.1, v, ((LfuEv.sat t.2).add (LfuEv.sat s)).add (LfuEv.flush f)))

/-- The results of a SOFTMAX row from its terms and the sum (R276). -/
def softOut (ol : Bool) (ts : List (LogV × F32 × LfuEv)) (total : F32) : List LfuOut :=
  let r := innerLog total
  ts.map (fun t =>
    let y := logMul t.1 ⟨r.sgn, -r.q⟩
    let w := writeLog ol y.1
    (w.1, t.2.2.add ((LfuEv.sat y.2).add w.2)))

/-- d, its log value and s of each element of a NORM row about `mu` (R276). -/
def normTerms (xs : List F32) (mu : F32) : List (F32 × LogV × F32 × LfuEv) :=
  xs.map (fun x =>
    let d := F32.sub x mu
    let ld := innerLog d
    let c := if ld.q = logZero then (logZero, false) else clampLog (2 * ld.q)
    match logToF32 ⟨false, c.1⟩ with
    | (v, s, f) => (d, ld, v, ((LfuEv.sat c.2).add (LfuEv.sat s)).add (LfuEv.flush f)))

/-- The results of a NORM row from its variance, and what happened once for the row: the rsqrt of a zero variance counts as one
saturation, and poisons every block of the row (R276, R277). -/
def normOut (ol : Bool) (ts : List (F32 × LogV × F32 × LfuEv)) (var : F32) (gamma : Nat → BitVec 16) (beta : Nat → F32) :
    List LfuOut × LfuEv :=
  if F32.isNan var || (F32.neg? var && !F32.isZero var) || ts.any (fun t => F32.isNan t.1) then (nanRow ol ts.length, {})
  else
    let k := innerLog var
    let zero := decide (k.q = logZero)
    let kq := if zero then logMax else halfNeg k.q
    ((List.range ts.length).map (fun i =>
      let t := ts.getD i (0, ⟨false, logZero⟩, 0, {})
      let a := logMul t.2.1 ⟨false, kq⟩
      let b := logMul a.1 (l16ToLog (gamma i))
      match logToF32 b.1 with
      | (v, s, f) =>
        let w := writeF32 ol (F32.add v (beta i))
        (w.1, ((t.2.2.2.add (LfuEv.sat a.2)).add (LfuEv.sat b.2)).add
          (((LfuEv.sat s).add (LfuEv.flush f)).add w.2))), LfuEv.sat zero)

/-! ### Rows in scratchpad (R278) -/

/-- Element `i` of a vector of 32-bit or 16-bit values from row `r` on. -/
def lfuAt (spad : List Host.Cell) (l16 : Bool) (r i : Nat) : BitVec 32 :=
  if l16 then BitVec.ofNat 32 (Memory.readNat spad (128 * r + 2 * i) 2)
  else BitVec.ofNat 32 (Memory.readNat spad (128 * r + 4 * i) 4)

/-- Rows that `n` chunks take. -/
def chunkRows (l16 : Bool) (n : Nat) : Nat := if l16 then ceilDiv n 2 else n

/-- The fields of an LFU block (Table 12-10). -/
structure LfuBlk where
  op : Nat
  rms : Bool
  il : Bool
  ol : Bool
  phase : Nat
  exact : Bool
  src : Nat
  dst : Nat
  aux1 : Nat
  aux2 : Nat
  len : Nat
  rows : Nat
  eps : F32
  lidx : Nat
  prow : Nat

def lfuBlk (b : List Word) : LfuBlk :=
  ⟨bf b 0 3 0, bb b 0 4, bb b 0 5, bb b 0 6, bf b 0 8 7, bb b 0 9, bf b 1 13 0, bf b 1 27 14, bf b 1 41 28, bf b 1 55 42,
   bf b 2 31 0, bf b 2 63 32, BitVec.ofNat 32 (bf b 3 31 0), bf b 3 63 32, bf b 4 13 0⟩

/-- Chunks of 32 elements in one row of the operation. -/
def LfuBlk.chunks (k : LfuBlk) : Nat := ceilDiv k.len 32

/-- The operation takes whole rows. -/
def LfuBlk.rowOp (k : LfuBlk) : Bool := decide (k.op = 6 ∨ k.op = 9)

/-- Aligned blocks of 32 logical indices that the share of a row covers, or the one share of a preview row (R281, R282). -/
def LfuBlk.parts (k : LfuBlk) : Nat :=
  if k.exact then ceilDiv (k.lidx % 32 + k.len) 32 else 1

/-- Part `p` of a list of the row's elements. -/
def LfuBlk.part {α : Type} (k : LfuBlk) (l : List α) (p : Nat) : List α :=
  if k.exact then
    let lo := 32 * p - k.lidx % 32
    (l.drop lo).take (32 * (p + 1) - k.lidx % 32 - lo)
  else l

/-- Pairs that stand at PROW for each row: those this share writes, or, when finishing, those collected; how many the
block does not say (free value, log 25). -/
def LfuBlk.pairs (k : LfuBlk) (job : BitVec 32) (layer : BitVec 16) (r : Nat) : Nat :=
  if k.phase = 2 then Config.collected job layer r % 4096 else k.parts

/-- Pair `p` of row `r` at PROW: 16 pairs of FP32 values to a wide row, 256 wide rows to a row (DESIGN CHOICE, log 25). -/
def LfuBlk.pairAddr (k : LfuBlk) (r p : Nat) : Nat := 128 * (k.prow + 256 * r) + 8 * p

/-- The rows that an LFU operation reads and writes. -/
def LfuBlk.io (k : LfuBlk) : List (Nat × Nat) × List (Nat × Nat) :=
  let n := k.chunks * k.rows
  let src := (k.src, chunkRows k.il n)
  let aux := if k.op = 1 then [(k.aux1, chunkRows true n)]
    else if k.op = 9 then [(k.aux1, chunkRows true k.chunks), (k.aux2, k.chunks)] else []
  let pr := (k.prow, if k.rows = 0 then 0 else 256 * (k.rows - 1) + 1)
  let dst := (k.dst, chunkRows k.ol n)
  if k.rowOp then
    if k.phase = 1 then ([src], [pr])
    else if k.phase = 2 then (src :: pr :: aux, [dst])
    else (src :: aux, [dst])
  else (src :: aux, [dst])

/-- The bound that an operation adds to LOGERR (Table 8-2, R275, R718). -/
def LfuBlk.bound (k : LfuBlk) : Nat :=
  let f := b2n (!k.il)
  let base := match k.op with
    | 0 => f | 1 => f | 2 => 1 | 3 => f | 4 => f | 5 => 1 + f | 6 => 4 | 7 => 5 | 8 => 4 | _ => 5
  let r718 := if k.op = 2 ∨ 6 ≤ k.op then b2n k.il else 0
  let form := if !k.ol then 1 else if k.op = 3 ∨ k.op = 9 then 1 else 0
  base + r718 + (if k.op = 0 ∧ k.il ∧ k.ol then 0 else form)

/-! ### Running -/

/-- Write the results of the row that begins at chunk `c0` of the output, with the poison of its blocks of 16 (R719). -/
def Cell.lfuWrite (x : Cell) (k : LfuBlk) (c0 : Nat) (outs : List LfuOut) (psn : Nat → Bool) : Cell :=
  let w := if k.ol then 2 else 4
  let bytes := outs.flatMap (fun o => bytesLE w o.1.toNat)
  let x := { x with spad := Memory.writeBytes x.spad (128 * k.dst + 32 * w * c0) bytes }
  (List.range (ceilDiv outs.length 16)).foldl (fun x j =>
    x.markBlock k.ol k.dst (32 * c0 + 16 * j) (psn j || ((outs.drop (16 * j)).take 16).any (·.2.psn))) x

/-- The counts and flags of events (Table 8-3). -/
def Cell.lfuCount (x : Cell) (e : LfuEv) : Cell :=
  { x with lfuSpecial := x.lfuSpecial || e.special, lfuSats := sat16 x.lfuSats e.sats,
           lfuFlushes := sat16 x.lfuFlushes e.flushes }

/-- Row `r` of the operation: the operand row, its poison, and what it yields. `x0` is the cell at issue. In PHASE 1 a SOFTMAX
takes its terms about the largest of its share and of the row, a NORM about the mean of the row, and PHASE 2 knows of poison in
another share: the block carries none of the three (free values, log 25). -/
def Cell.lfuRow (x0 : Cell) (k : LfuBlk) (job : BitVec 32) (layer : BitVec 16) (x : Cell) (r : Nat) : Cell × Bool :=
  let c0 := r * k.chunks
  let blocks := List.range (ceilDiv k.len 16)
  let raw := (List.range k.len).map (fun i => lfuAt x0.spad k.il k.src (32 * c0 + i))
  let inPsn (j : Nat) : Bool := x0.blockPoison k.il k.src (32 * c0 + 16 * j)
  let finish (outs : List LfuOut) (psn : Nat → Bool) (e : LfuEv) : Cell × Bool :=
    let y := (x.lfuWrite k c0 outs psn).lfuCount (e.add (sumEv (outs.map (·.2))))
    (y, blocks.any psn || outs.any (·.2.psn))
  if !k.rowOp then
    let bAt (i : Nat) : BitVec 16 := (lfuAt x0.spad true k.aux1 (32 * c0 + i)).setWidth 16
    let outs := (List.range k.len).map (fun i => lfuElem k.op k.il k.ol (raw.getD i 0) (bAt i))
    finish outs (fun j => inPsn j || (decide (k.op = 1) && x0.blockPoison true k.aux1 (32 * c0 + 16 * j))) {}
  else
    let ins := raw.map (opFinite k.il)
    let xs := ins.map (·.1)
    let ev := sumEv (ins.map (·.2))
    let own (j : Nat) : Bool := ((ins.drop (16 * j)).take 16).any (·.2.psn)
    let auxPsn := decide (k.op = 9) && blocks.any (fun j =>
      x0.blockPoison true k.aux1 (16 * j) || x0.blockPoison false k.aux2 (16 * j))
    let pair (p : Nat) : F32 × F32 :=
      let a := k.pairAddr r p
      (BitVec.ofNat 32 (Memory.readNat x0.spad a 4), BitVec.ofNat 32 (Memory.readNat x0.spad (a + 4) 4))
    let ps := (List.range (k.pairs job layer r)).map pair
    let farPsn := decide (k.phase = 2) && (Config.rowPoison job layer r ||
      (List.range ps.length).any (fun p => x0.partPoison (k.pairAddr r p / 32)))
    let rowPsn := blocks.any inPsn || auxPsn || farPsn
    let nan := xs.any F32.isNan || (decide (k.phase = 2) && ps.any (fun p => F32.isNan p.1 || F32.isNan p.2))
    let put (l : List (F32 × F32)) : Cell × Bool :=
      let l := if nan then l.map (fun _ => (nanF32, nanF32)) else l
      let bytes := l.flatMap (fun p => bytesLE 4 p.1.toNat ++ bytesLE 4 p.2.toNat)
      let y := { x with spad := Memory.writeBytes x.spad (k.pairAddr r 0) bytes }
      let y := (List.range (ceilDiv l.length 4)).foldl (fun y h => y.markPart (k.pairAddr r 0 / 32 + h) (rowPsn || nan)) y
      (y.lfuCount ev, false)
    let join (l : List F32) : F32 :=
      if k.exact then sumTree l else (l.drop 1).foldl F32.add (l.getD 0 0)
    if k.op = 6 then
      let mx := if k.phase = 2 then maxOf (ps.map (·.1)) else if k.phase = 1 then maxOf (xs ++ [Config.rowMax job layer r]) else maxOf xs
      let ts := softTerms xs mx
      if k.phase = 1 then
        put ((List.range k.parts).map (fun p => (maxOf (k.part xs p), sumTree (k.part (ts.map (·.2.1)) p))))
      else if nan then finish (nanRow k.ol k.len) (fun _ => true) { ev with special := true }
      else
        let total := if k.phase = 2 then join (ps.map (·.2)) else sumTree (ts.map (·.2.1))
        finish (softOut k.ol ts total) (fun j => rowPsn || own j) ev
    else
      let n : Nat := if k.phase = 2 then (Config.rowTotal job layer r).toNat else k.len
      let whole := if k.phase = 2 then join (ps.map (·.1)) else sumTree xs
      let mu := if k.rms then 0 else if k.phase = 1 then Config.rowMean job layer r else F32.div whole (F32.ofInt n)
      let ts := normTerms xs mu
      if k.phase = 1 then
        put ((List.range k.parts).map (fun p => (sumTree (k.part xs p), sumTree (k.part (ts.map (·.2.2.1)) p))))
      else if nan then finish (nanRow k.ol k.len) (fun _ => true) { ev with special := true }
      else
        let ss := if k.phase = 2 then join (ps.map (·.2)) else sumTree (ts.map (·.2.2.1))
        let var := F32.add (F32.div ss (F32.ofInt n)) k.eps
        match normOut k.ol ts var (fun i => (lfuAt x0.spad true k.aux1 i).setWidth 16)
            (fun i => lfuAt x0.spad false k.aux2 i) with
        | (outs, e) => finish outs (fun j => rowPsn || own j || e.psn) (ev.add e)

/-- The LFU item of the output ledger, and its class by the block's EXACT (R261, R283, R443). PHASE 1 makes no element of a tile: the
operation adds its bound once, as it finishes. -/
def Ledger.lfuAdd (l : Ledger) (op bound : Nat) (exact : Bool) : Ledger :=
  { l with exact := l.exact && exact, lfu := true, ops := l.ops ||| BitVec.ofNat 16 (2 ^ op), logerr := satTo 32 (l.logerr + bound) }

/-- The effect of an LFU operation. -/
def State.lfuRun (s : State) (c : CellIx) (k : LfuBlk) : Code × State :=
  let x0 := s.cell c
  let r := (List.range k.rows).foldl (fun (a : Cell × Bool) r =>
    let y := x0.lfuRow k x0.job x0.layer a.1 r
    (y.1, a.2 || y.2)) (x0, false)
  let y := { r.1 with rq := { r.1.rq with ledger :=
    if k.phase = 1 then r.1.rq.ledger else r.1.rq.ledger.lfuAdd k.op k.bound k.exact } }
  (outCode r.2, s.setCell c y)

/-- An LFU instruction (R278, R279, R412, R444): a busy unit stalls it; PHASE 3 and rows that do not exist are BAD_DESC; a
zero length or count is OK_EMPTY. -/
def State.lfu (s : State) (c : CellIx) (f : InsFields) (i : Instr) (op : Nat) : State :=
  s.guarded c i [f.ra] [] [] (fun s =>
    s.withBlock c f i maskLfu (fun b s =>
      let k := lfuBlk b
      let io := k.io
      if k.op ≠ op then s
      else if k.phase = 3 ∨ ¬ rowsIn (io.1 ++ io.2) then s.finish c ccBadDesc
      else if k.len = 0 ∨ k.rows = 0 then s.finish c ccEmpty
      else if (s.cell c).unitBusy .lfu then s.stall c 4 i
      else s.guarded c i [] io.1 io.2 (fun s =>
        match s.lfuRun c k with
        | (code, s) =>
          (s.addOp c { id := 0, unit := .lfu, reads := io.1, writes := io.2, code := code }).retire c)))

def bodyCvt (c : CellIx) (f : InsFields) (s : State) : State := s.lfu c f (.cvt c f) 0
def bodyLfuMul (c : CellIx) (f : InsFields) (s : State) : State := s.lfu c f (.lfuMul c f) 1
def bodyExpF (c : CellIx) (f : InsFields) (s : State) : State := s.lfu c f (.expF c f) 2
def bodyLogF (c : CellIx) (f : InsFields) (s : State) : State := s.lfu c f (.logF c f) 3
def bodyRecip (c : CellIx) (f : InsFields) (s : State) : State := s.lfu c f (.recip c f) 4
def bodyRsqrt (c : CellIx) (f : InsFields) (s : State) : State := s.lfu c f (.rsqrt c f) 5
def bodySoftmax (c : CellIx) (f : InsFields) (s : State) : State := s.lfu c f (.softmax c f) 6
def bodyGelu (c : CellIx) (f : InsFields) (s : State) : State := s.lfu c f (.gelu c f) 7
def bodySilu (c : CellIx) (f : InsFields) (s : State) : State := s.lfu c f (.silu c f) 8
def bodyNormF (c : CellIx) (f : InsFields) (s : State) : State := s.lfu c f (.normF c f) 9

def execCvt (c : CellIx) (f : InsFields) (s : State) : Out := .next (s.issue c 0x50 f (.cvt c f) (bodyCvt c f))
def execLfuMul (c : CellIx) (f : InsFields) (s : State) : Out := .next (s.issue c 0x50 f (.lfuMul c f) (bodyLfuMul c f))
def execExpF (c : CellIx) (f : InsFields) (s : State) : Out := .next (s.issue c 0x50 f (.expF c f) (bodyExpF c f))
def execLogF (c : CellIx) (f : InsFields) (s : State) : Out := .next (s.issue c 0x50 f (.logF c f) (bodyLogF c f))
def execRecip (c : CellIx) (f : InsFields) (s : State) : Out := .next (s.issue c 0x50 f (.recip c f) (bodyRecip c f))
def execRsqrt (c : CellIx) (f : InsFields) (s : State) : Out := .next (s.issue c 0x50 f (.rsqrt c f) (bodyRsqrt c f))
def execSoftmax (c : CellIx) (f : InsFields) (s : State) : Out :=
  .next (s.issue c 0x50 f (.softmax c f) (bodySoftmax c f))
def execGelu (c : CellIx) (f : InsFields) (s : State) : Out := .next (s.issue c 0x50 f (.gelu c f) (bodyGelu c f))
def execSilu (c : CellIx) (f : InsFields) (s : State) : Out := .next (s.issue c 0x50 f (.silu c f) (bodySilu c f))
def execNormF (c : CellIx) (f : InsFields) (s : State) : Out := .next (s.issue c 0x50 f (.normF c f) (bodyNormF c f))

end Sys2Proof.Machine
end

