-- ==== Sys2Proof/Machine/Jobs.lean ====
section
/-! DEFINITION. Jobs on their way through the driver: completion entries (R413), the messages that the driver sends for a
job and what their answers do (R391, R392, R394), ends and kills (R392 to R398, R415, R416, R418). -/

namespace Sys2Proof.Machine

open Sys2Proof

/-! ### The driver's parts -/

def State.modDrv (s : State) (f : Driver → Driver) : State := { s with drv := f s.drv }

def Driver.job? (d : Driver) (id : BitVec 32) : Option JobRec := d.jobs.find? (fun j => decide (j.id = id))

/-- Replace the record of a job. -/
def State.setJob (s : State) (j : JobRec) : State :=
  s.modDrv (fun d => { d with jobs := d.jobs.map (fun i => if i.id = j.id then j else i) })

def Pcie.stream (p : Pcie) (i : Nat) : Stream := SMap.getD p.streams i { vec := BitVec.ofNat 6 i }

def State.stream (s : State) (i : Nat) : Stream := s.pcie.stream i

def State.modStream (s : State) (i : Nat) (f : Stream → Stream) : State :=
  { s with pcie := { s.pcie with streams := SMap.set s.pcie.streams i (f (s.stream i)) } }

/-! ### Completion entries (R413) -/

/-- The summary ledger of a job: one tile's ledger folded in (R418). -/
def Ledger.fold (a b : Ledger) : Ledger :=
  { exact := a.exact && b.exact, kerfed := a.kerfed || b.kerfed, midpt := a.midpt || b.midpt,
    delta := a.delta || b.delta, pred := a.pred || b.pred, lfu := a.lfu || b.lfu, poison := a.poison || b.poison,
    special := a.special || b.special, cutPlane := if a.cutPlane.toNat < b.cutPlane.toNat then b.cutPlane else a.cutPlane,
    kerfBound := max a.kerfBound b.kerfBound, segs := satTo 16 (a.segs + 1),
    deltaBound16 := max a.deltaBound16 b.deltaBound16, skipped := satTo 32 (a.skipped + b.skipped),
    frames := max a.frames b.frames, sel := satTo 24 (a.sel + b.sel), grd := satTo 24 (a.grd + b.grd),
    aud := satTo 24 (a.aud + b.aud), skp := satTo 24 (a.skp + b.skp), dis := satTo 24 (a.dis + b.dis),
    ops := a.ops ||| b.ops, logerr := max a.logerr b.logerr }

/-- The eight words of a stored ledger (R265). -/
def Ledger.words (l : Ledger) : List Word :=
  (List.range 8).map (fun i => BitVec.ofNat 64 (ofBytesLE ((l.stored.drop (8 * i)).take 8)))

/-- The 16 words of a completion entry, PHASE clear (Table 11-13). -/
def completionWords (code : Code) (kind : BitVec 8) (stream : Nat) (sigLost : Bool) (job appTag graph layer : BitVec 32)
    (elapsed : Word) (ledger : List Word) : List Word :=
  [BitVec.ofNat 64 (code.toNat + 2 ^ 8 * kind.toNat + 2 ^ 16 * stream + 2 ^ 19 * b2n sigLost),
   BitVec.ofNat 64 (job.toNat + 2 ^ 32 * appTag.toNat), BitVec.ofNat 64 (graph.toNat + 2 ^ 32 * layer.toNat), elapsed,
   0, 0, 0, 0] ++ ledger

def noLedger : List Word := List.replicate 8 0
def noLayer : BitVec 32 := 0xFFFFFFFF

/-- A completion waits to be written (R490, R492). -/
def State.post (s : State) (st : Nat) (x : Completion) : State :=
  s.modStream st (fun q => { q with ready := q.ready ++ [x] })

def Completion.kind (x : Completion) : Nat := fld (x.words.getD 0 0) 15 8
def Completion.appTag (x : Completion) : BitVec 32 := BitVec.ofNat 32 (fld (x.words.getD 1 0) 63 32)

/-- Every completion that waits to be written. -/
def Pcie.held (p : Pcie) : List Completion := p.streams.flatMap (fun x => x.2.ready)

/-- Some job, entry or completion that KILL entry `k` matched has not completed (R396). -/
def State.killOpen (s : State) (k : Nat) : Bool :=
  s.drv.jobs.any (fun j => decide (k ∈ j.killers)) || s.drv.adds.any (fun a => decide (k ∈ a.2.killers)) || s.drv.queue.any (fun q => decide (k ∈ q.killers)) ||
  s.pcie.held.any (fun x => decide (k ∈ x.killers))

/-- An accepted job that names the graph has not completed (R402). -/
def State.graphOpen (s : State) (g : BitVec 32) : Bool :=
  s.drv.jobs.any (fun j => decide (j.graph = g)) ||
  s.pcie.held.any (fun x => decide (x.kind = 1 ∧ fld (x.words.getD 1 0) 31 0 ≠ 0 ∧ fld (x.words.getD 2 0) 31 0 = g.toNat))

/-- What the entry waits for is over. -/
def State.waitOver (s : State) (w : EntryWait) : Bool :=
  if w.kind = 2 then !s.killOpen w.id else !s.graphOpen w.graph

/-- KILL and RELEASE entries whose wait is over complete with OK (R396, R402); a released graph is dropped. -/
def State.settle (s : State) : State :=
  let fin := s.drv.waits.filter s.waitOver
  let s := s.modDrv (fun d =>
    { d with waits := d.waits.filter (fun w => decide (w ∉ fin)),
             graphs := d.graphs.filter (fun g => !g.released || !fin.any (fun w => decide (w.kind = 5 ∧ w.graph = g.handle))) })
  fin.foldl (fun s w =>
    s.post w.stream { words := completionWords ccOk w.kind w.stream false 0 w.appTag w.graph noLayer 0 noLedger }) s

/-! ### Messages of the driver -/

/-- The role epoch that the driver knows of a device: its own, a partner's (R537), else a free value (log 11). -/
def State.roleEpoch (s : State) (dev : BitVec 16) : BitVec 16 × State :=
  if dev = s.net.devId then ((s.unit 0).epoch, s)
  else
    match s.net.links.findSome? (fun l => l.2.partner.bind (fun p => if p.devid = dev then some p.epoch else none)) with
    | some e => (e, s)
    | none => (s.freshWord.setWidth 16, s.useFree)

/-- A SYNC_OP of the driver for a job (R362). The tags 1, 2 and 3 of its messages, and 4 + n for stream n, are the model's (log 18). -/
def State.driverSync (s : State) (job : BitVec 32) (dev obj : BitVec 16) (op : Nat) (ack : Bool) (value : Word)
    (tag : BitVec 32) : State :=
  let e := s.roleEpoch dev
  e.2.sendMsg { dest := UA.mk dev 0, epoch := e.1, cls := 0x05, tag := tag, src := e.2.devAddr, code := 0,
                bounced := false,
                body := [replyItem (obj.toNat + op * 2 ^ 16 + b2n ack * 2 ^ 22) job.toNat value.toNat] }

/-- A KILL command of the driver to a device (Table 12-1). -/
def State.driverKill (s : State) (job : BitVec 32) (dev : BitVec 16) (tag : BitVec 32) : State :=
  let e := s.roleEpoch dev
  e.2.sendMsg { dest := UA.mk dev 0, epoch := e.1, cls := 0x01, tag := tag, src := e.2.devAddr, code := 0,
                bounced := false, body := [BitVec.ofNat 120 (6 + job.toNat * 2 ^ 16)] }

/-! ### The end of a job -/

/-- The code of a job that ends (R415, R416): a recorded failure, KILLED, or its layers' codes. -/
def JobRec.code (j : JobRec) : Code :=
  match j.fail with
  | some f => f.1
  | none => if j.killed then ccKilled else if j.codes = [] then ccEmpty else combineCodes j.codes

/-- The completion of a job. Its summary ledger states the class of its effective PREC words (R409). -/
def JobRec.completion (j : JobRec) : Completion :=
  { words := completionWords j.code 1 j.stream j.sigLost j.id j.appTag j.graph (j.fail.elim noLayer (·.2)) j.elapsed
      { j.ledger with exact := j.precs.all Prec.exact }.words,
    killers := j.killers }

/-- Nothing on the device is recorded for a job any longer: its cuts (R252) and its layers' conversions. -/
def State.forget (s : State) (job : BitVec 32) : State :=
  { s with conv := s.conv.filter (fun k => decide (k.job ≠ job)),
           cells := s.cells.map (fun x => (x.1, { x.2 with cutRecs := x.2.cutRecs.filter (fun r => decide (r.job ≠ job)) })) }

/-- The job is over: its completion waits to be written, unless none is (R486, R488). -/
def State.jobOver (s : State) (j : JobRec) : State :=
  let s := (s.forget j.id).modDrv (fun d =>
    { d with jobs := d.jobs.filter (fun i => decide (i.id ≠ j.id)), frames := d.frames.filter (fun f => decide (f.job ≠ j.id)),
             stored := d.stored.filter (fun x => decide (x.1 ≠ j.id)) })
  if j.silent then s.settle else s.post j.stream j.completion

/-- A job ends: with SIG_V it sends its ADD first, or drops it where the links do not reach the device (R392). -/
def State.endJob (s : State) (j : JobRec) : State :=
  match j.sig with
  | none => s.jobOver j
  | some (dev, obj) =>
    if s.unreachable (UA.mk dev 0) then s.jobOver { j with sigLost := true }
    else (s.setJob { j with phase := .signal }).driverSync j.id dev obj 2 true 1 2

/-- The delta references of a killed job have VALID clear, those of layers that had completed too (R247, R395). -/
def State.clearRefs (s : State) (j : JobRec) : State :=
  match s.drv.graphs.find? (fun g => decide (g.handle = j.graph)) with
  | some g =>
    let hit := (List.range g.layers.length).filter (fun k =>
      decide (k ∈ j.done ∧ Layer.op (g.layers.getD k []) = 1) && Prec.delta (j.precs.getD k 0))
    let m := hit.foldl (fun m k => Memory.writeWord m (s.deltaRef g (g.layers.getD k [])).base 0) s.mem.mem
    { s with mem := { s.mem with mem := m } }
  | none => s

/-- A kill of a job by a KILL entry or after a failure (R394, R416): one not started ends, its wait withdrawn, which at another
device stays at its home until it is released; a running one is killed at its units. One that is ending keeps its code
(R398). -/
def State.killJob (s : State) (j : JobRec) : State :=
  match j.phase with
  | .waiting =>
    let s := match j.wait with
      | some (dev, _, _) => if dev = s.net.devId then s.driverKill j.id dev 0 else s
      | none => s
    s.endJob { j with killed := j.fail.isNone }
  | .ready => s.endJob { j with killed := j.fail.isNone }
  | .running =>
    ((s.setJob { j with killed := j.fail.isNone, phase := .killing }).clearRefs j).driverKill j.id s.net.devId 3
  | .killing => s
  | .signal => s

/-- The groups that a killed job stored are freed (R208, R394). -/
def State.freeStored (s : State) (job : BitVec 32) : State :=
  ((s.drv.stored.filter (fun x => decide (x.1 = job))).map (·.2)).dedup.foldl (fun s dix => s.freeGroup dix) s

/-! ### Answers to the driver -/

/-- The REPLY to the ADD of a JOB entry that was killed before its turn: its completion waits to be written (R392). -/
def State.addReply (s : State) (m : Msg) : State :=
  match s.drv.adds.find? (fun a => decide (m.job = 0 ∧ m.tag.toNat = 4 + a.1)) with
  | some a => (s.modDrv (fun v => { v with adds := v.adds.erase a })).post a.1 a.2
  | none => s

/-- A REPLY to a message that the driver sent for a job (R391, R392, R394): a wait is released with whatever code. -/
def State.driverReply (s : State) (m : Msg) : State :=
  match s.drv.job? (BitVec.ofNat 32 m.job) with
  | none => s.addReply m
  | some j =>
    if m.tag = 1 ∧ j.phase = .waiting then s.setJob { j with phase := .ready }
    else if m.tag = 2 ∧ j.phase = .signal then s.jobOver j
    else if m.tag = 3 ∧ j.phase = .killing then
      (s.freeStored j.id).endJob { j with elapsed := s.timeHost - j.start }
    else s

/-- A message of the driver for a job comes back with STALE_ROLE: the driver reissues it under the epoch it knows now
(R417). -/
def State.driverBounce (s : State) (m : Msg) : State :=
  if m.code = ccStaleRole ∧ (m.cls = 0x05 ∨ m.cls = 0x01) ∧ ((m.tag = 1 ∨ m.tag = 2 ∨ m.tag = 3) ∧ (s.drv.job? (BitVec.ofNat 32 m.job)).isSome ∨
      m.job = 0 ∧ m.tag.toNat < 12 ∧ s.drv.adds.any (fun a => decide (m.tag.toNat = 4 + a.1))) then
    let e := s.roleEpoch (UA.device m.src)
    e.2.sendMsg { m with dest := m.src, src := e.2.devAddr, epoch := e.1, bounced := false, code := 0 }
  else s

end Sys2Proof.Machine
end

