-- ==== Sys2Proof/Machine/Unit.lean ====
section
/-! DEFINITION. SYNC, QREAD, QFLUSH and SEND, the completion of unit operations, stalls and their watchdog, replies and
bounces, and the queues that software reads (R338 to R355, R429 to R435, R440, R442, R449, R444, R57 to R61). -/

namespace Sys2Proof.Machine

open Sys2Proof

/-! ### HIQ (Table 10-3, Table 13-4) -/

/-- Items enter HIQ or wait before it (R343); source 9 fires for every EOP that enters (Table 13-4). -/
def State.hiqFill (s : State) (l : List QItem) : State :=
  let q := { s.evc.hiq with inflow := s.evc.hiq.inflow ++ l }
  let q' := Queue.fill 1024 s.runTime q
  let new := q'.items.drop q.items.length
  let s := { s with evc := { s.evc with hiq := q' } }
  (List.range (new.countP (·.eop))).foldl (fun s _ => s.fire 9) s

/-- A message for the driver enters HIQ whole (R60, R348). -/
def State.toHiq (s : State) (m : Msg) : State := s.hiqFill m.items

/-- A message of the fabric reaches the host message port over the UCIe module of its die (R45, R619). -/
def State.toHost (s : State) (m : Msg) : State :=
  ({ s with net := s.net.crossHost (UA.digit m.src 1 % 2) false (s.net.hostWay m) m.items }).toHiq m

/-! ### SYNC, QREAD, QFLUSH, SEND -/

/-- The SYNC_OP of an instruction (R362, R442, Table 12-8): ACK asks for a REPLY where the program waits for one. -/
def syncMsg (src : UnitAddr) (tag : BitVec 32) (epoch : BitVec 16) (value : Word) (job : BitVec 32) (imm : BitVec 44) : Msg :=
  { dest := UA.mk ((imm >>> 23).setWidth 16) 0, epoch := epoch, cls := 0x05, tag := tag, src := src, code := 0,
    bounced := false,
    body := [BitVec.ofNat 120 (imm.toNat % 2 ^ 23 + job.toNat * 2 ^ 24 + value.toNat * 2 ^ 56)] }

/-- SYNC: with BLOCK = 1 the REPLY completes it, under cause REPLY; with BLOCK = 0 it completes when the message is
sent (R442, Table 12-9). -/
def bodySyncOp (c : CellIx) (f : InsFields) (s : State) : State :=
  s.guarded c (.syncOp c f) [f.rd, f.ra, f.rb] [] [] (fun s =>
    let x := s.cell c
    let block := f.imm.getLsbD 22
    let tag := opTag c x.seq.nextOp
    let m := syncMsg (s.cellAddr c) tag ((x.seq.reg f.rb).setWidth 16) (x.seq.reg f.ra) x.job f.imm
    let s := s.sendMsg m
    if block then
      (s.addOp c { id := 0, unit := .net, blocking := true, done := false, tag := some tag, regs := [(f.rd, 0)] }).waitOp c
        (some (6, .syncOp c f))
    else (s.addOp c { id := 0, unit := .net }).retire c)

/-- QREAD: one read of RPL (R344). -/
def bodyQread (c : CellIx) (f : InsFields) (s : State) : State :=
  s.guarded c (.qread c f) [f.rd, f.rb] [] [] (fun s =>
    let r := Queue.pop 0 s.runTime (s.cell c).rplq
    let w := QItem.words r.1
    let s := s.modCell c (fun x => ({ x with rplq := r.2 }).fillRpl s.runTime)
    (s.addOp c { id := 0, unit := .seq, blocking := true, regs := [(f.rd, w.1), (f.rb, w.2)] }).waitOp c none)

/-- QFLUSH: a flush of RPL; the program goes on when it completes (R349 to R351). -/
def bodyQflush (c : CellIx) (f : InsFields) (s : State) : State :=
  s.guarded c (.qflush c f) [] [] [] (fun s =>
    let s := s.modCell c (fun x => { x with rplq := x.rplq.flush })
    (s.addOp c { id := 0, unit := .seq, blocking := true, done := !(s.cell c).rplq.flushing }).waitOp c none)

/-- The WINDOW_WRITE of a SEND block (R317, R318, Tables 9-2 and 12-10). -/
def sendMsgOf (src : UnitAddr) (b : List Word) (job : BitVec 32) (data : List Byte) : Msg :=
  { dest := b.getD 0 0, epoch := BitVec.ofNat 16 (bf b 1 15 0), cls := 0x03, tag := BitVec.ofNat 32 (bf b 1 47 16), src := src,
    code := 0, bounced := false,
    body := BitVec.ofNat 120 (bf b 2 62 0 + job.toNat * 2 ^ 63) :: packItems (ceilDiv data.length 15) data }

/-- SEND (Table 12-8): BAD_DESC for a DEST that is not canonical, data off an 8-byte boundary or outside the scratchpad, or
a LENGTH that no window takes. -/
def bodySendW (c : CellIx) (f : InsFields) (s : State) : State :=
  s.guarded c (.sendW c f) [f.ra] [] [] (fun s =>
    s.withBlock c f (.sendW c f) maskSend (fun b s =>
      let a := bf b 3 20 0
      let n := bf b 2 61 41
      if !UA.canonical (b.getD 0 0) || decide (a % 8 ≠ 0 ∨ 2 ^ 21 < a + n ∨ n % 8 ≠ 0 ∨ 524288 < n) then
        s.reject c (.sendW c f) ccBadDesc
      else
        let rows := if n = 0 then [] else [rowSpan 0 a n]
        s.guarded c (.sendW c f) [] rows [] (fun s =>
          let x := s.cell c
          let s := s.sendMsg (sendMsgOf (s.cellAddr c) b x.job (Memory.readBytes x.spad a n))
          (s.addOp c { id := 0, unit := .net, reads := rows, blocking := true }).waitOp c none)))

/-! ### Completion of operations (R429, R440) -/

/-- The unit checks residues beyond those of lookups and stored elements: table builds, chain merges, rescale() and the log-domain
unit's sums (R599, Table 17-1). -/
def OpUnit.checks (u : OpUnit) : Bool := decide (u = .array ∨ u = .drain ∨ u = .rq ∨ u = .lfu)

/-- UNIT_OPERATION_COMPLETE: operation `k` of the cell is over; one that waits for the bus goes on (R463). `again` names for each
check of it that failed how many times it failed before a repeat passed (R599, R606). -/
def State.opComplete (s : State) (c : CellIx) (o : UnitOp) (again : List Nat) : State :=
  match o.spill with
  | some x => if x.what = .bus ∧ s.pcie.bme then s.busAgain c o x else s
  | none =>
    if o.done then
      let s := s.modCell c (fun x => { x with ops := x.ops.filter (fun p => decide (p.id ≠ o.id)), seq := x.seq.opDone o })
      if o.unit.checks then again.foldl (fun s n => s.countRepeats c n) s else s
    else s

def execUnitOperationComplete (c : CellIx) (k : Nat) (again : List Nat) (s : State) : Out :=
  .next (match (s.cell c).op? k with
    | some o => onlyIf (s.cellUp c && !(s.cell c).scrubbing) s (fun s => s.opComplete c o again)
    | none => s)

/-! ### Stalls -/

/-- Issue an instruction again after a stall. -/
def bodyOf (i : Instr) (s : State) : State :=
  match i with
  | .li c f => bodyLi c f s
  | .lih c f => bodyLih c f s
  | .addI c f => bodyAdd c f s
  | .subI c f => bodySub c f s
  | .andI c f => bodyAnd c f s
  | .orI c f => bodyOr c f s
  | .xorI c f => bodyXor c f s
  | .shl c f => bodyShl c f s
  | .shr c f => bodyShr c f s
  | .sra c f => bodySra c f s
  | .mulI c f => bodyMul c f s
  | .ld1 c f e => bodyLd1 c f e s
  | .ld2 c f e => bodyLd2 c f e s
  | .ld4 c f e => bodyLd4 c f e s
  | .ld8 c f e => bodyLd8 c f e s
  | .st1 c f e => bodySt1 c f e s
  | .st2 c f e => bodySt2 c f e s
  | .st4 c f e => bodySt4 c f e s
  | .st8 c f => bodySt8 c f s
  | .beq c f => bodyBeq c f s
  | .bne c f => bodyBne c f s
  | .blt c f => bodyBlt c f s
  | .bge c f => bodyBge c f s
  | .bltu c f => bodyBltu c f s
  | .bgeu c f => bodyBgeu c f s
  | .jal c f => bodyJal c f s
  | .jr c f => bodyJr c f s
  | .rdrand c f => bodyRdrand c f s
  | .timeRd c f => bodyTime c f s
  | .fenceI c _ => bodyFence c s
  | .endRun c f => bodyEnd c f s
  | .illegalOpcode c opc f => bodyIllegal c opc f s
  | .fetch c f e => bodyFetch c f e s
  | .entryrd c f => bodyEntryrd c f s
  | .storeG c f => bodyStoreG c f s
  | .gatherColumn c f e => bodyGatherColumn c f e s
  | .gatherRow c f e => bodyGatherRow c f e s
  | .selectN c f => bodySelectN c f s
  | .auditN c f => bodyAuditN c f s
  | .arrayI c f => bodyArrayI c f s
  | .loadT c f => bodyLoadT c f s
  | .drainRq c f => bodyDrainRq c f s
  | .drainWide c f => bodyDrainWide c f s
  | .drainChain c f => bodyDrainChain c f s
  | .drainSab c f => bodyDrainSab c f s
  | .rangeReset c f => bodyRangeReset c f s
  | .requant c f => bodyRequant c f s
  | .rangeRequant c f => bodyRangeRequant c f s
  | .dequant c f => bodyDequant c f s
  | .quant c f => bodyQuant c f s
  | .rangeF32 c f => bodyRangeF32 c f s
  | .sabout c f => bodySabout c f s
  | .rangeout c f => bodyRangeout c f s
  | .rangemerge c f => bodyRangemerge c f s
  | .scaleRq c f => bodyScaleRq c f s
  | .ledgerW c f => bodyLedgerW c f s
  | .cvt c f => bodyCvt c f s
  | .lfuMul c f => bodyLfuMul c f s
  | .expF c f => bodyExpF c f s
  | .logF c f => bodyLogF c f s
  | .recip c f => bodyRecip c f s
  | .rsqrt c f => bodyRsqrt c f s
  | .softmax c f => bodySoftmax c f s
  | .gelu c f => bodyGelu c f s
  | .silu c f => bodySilu c f s
  | .normF c f => bodyNormF c f s
  | .wopen c f => bodyWopen c f s
  | .wclose c f => bodyWclose c f s
  | .syncOp c f => bodySyncOp c f s
  | .qread c f => bodyQread c f s
  | .qflush c f => bodyQflush c f s
  | .sendW c f => bodySendW c f s
  | _ => s

/-- The stalled instruction acts if its cause is gone (R105, R449). Another cause continues the same stall. -/
def State.reissue (s : State) (c : CellIx) (i : Instr) : State :=
  let t := bodyOf i (s.modSeq c (fun q => { q with stalled := none }))
  match (t.cell c).seq.stalled, (t.cell c).seq.waiting with
  | some (k, j), none => s.modSeq c (fun q => { q with stalled := some (k, j), untilEmpty := (t.cell c).seq.untilEmpty })
  | _, _ => t

/-- STALL_RELEASE: the instruction is issued again; one that waits for a reply goes on when its operation completes. Where the
fetch itself stalled, the word is read once its row is free, and another word there is another instruction (R301, R433). -/
def State.releaseStall (s : State) (c : CellIx) (cause : BitVec 4) (i : Instr) : State :=
  let x := s.cell c
  if cause = 6 ∧ x.seq.waiting.isSome then s
  else
    match x.seq.fetching with
    | none => s.reissue c i
    | some w =>
      if x.rowBusy false (x.seq.pc.toNat / 128) 1 then s
      else
        let s := s.modSeq c (fun q => { q with fetching := none })
        if Memory.readWord x.spad x.seq.pc.toNat = w then s.reissue c i else s.modSeq c (fun q => { q with stalled := none })

def execStallRelease (c : CellIx) (s : State) : Out :=
  .next (match (s.cell c).seq.stalled with
    | some (k, i) => onlyIf (s.cellUp c && (s.cell c).held.isNone && !(s.cell c).scrubbing) s (·.releaseStall c k i)
    | none => s)

/-- SEQ_WDOG: an instruction stalled for LIMIT µs sets WDOG and fires, once for one stall (R435). -/
def State.watchdog (s : State) (c : CellIx) : State :=
  (s.modSeq c (fun q => { q with wdog := true, stallRep := true })).fireCell 5 c

def execSeqWdog (c : CellIx) (s : State) : Out :=
  let q := (s.cell c).seq
  .next (onlyIf (s.cellUp c && q.stalled.isSome && !q.stallRep && decide (q.limit ≠ 0) &&
    decide (1000 * q.limit.toNat ≤ (s.runTime - q.stallSince).toNat)) s (·.watchdog c))

/-! ### Replies and bounces -/

/-- The packet reaches RPL's input (R343, R347). -/
def State.toRpl (s : State) (c : CellIx) (m : Msg) : State :=
  s.modCell c (fun x =>
    let y := { x with rplq := { x.rplq with inflow := x.rplq.inflow ++ m.items } }
    if x.scrubbing then y else y.fillRpl s.runTime)

/-- The operation of the cell that waits for a message's TAG. -/
def Cell.waiter (x : Cell) (tag : BitVec 32) : Option UnitOp :=
  x.ops.find? (fun o => decide (o.tag = some tag ∧ ¬ o.done))

/-- A SYNC with BLOCK = 1 has its answer: RD receives VALUE, and the code is that of the REPLY or bounce (R431, R442). -/
def Cell.answered (x : Cell) (o : UnitOp) (m : Msg) : Cell :=
  x.modOp o.id (fun o =>
    { o with done := true, code := m.code,
             regs := if m.bounced then [] else o.regs.map (fun r => (r.1, BitVec.ofNat 64 (m.fld 0 119 56))) })

/-- A REPLY reaches a cell: the instruction that waits for it, else RPL; the device address: the home die's spill that
waits for it, and HIQ (R347, R348, R442, R515). -/
def State.takeReply (s : State) (m : Msg) : State :=
  let s := s.received m
  if UA.depth m.dest = 5 then
    let c := cellIx (UA.index m.dest)
    match (s.cell c).waiter m.tag with
    | some o =>
      if m.job = (s.cell c).job.toNat then s.modCell c (·.answered o m) else s.toRpl c m
    | none => s.toRpl c m
  else if UA.depth m.dest = 0 then ((s.spillReply m).driverReply m).toHost m
  else s

/-- A message that is never checked against an epoch: of class REPLY or a bounce, for a unit of this device (Table
2-9). -/
def State.uncheckedOk (s : State) (m : Msg) : Bool :=
  s.local? m.dest && UA.canonical m.dest && s.unitUp m.dest && s.destResident m && s.mayArrive m

def execReplyArrival (m : Msg) (s : State) : Out :=
  .next (onlyIf (decide (m.cls = 0x08) && !m.bounced && s.uncheckedOk m) s (fun s => (s.takeMsg m).takeReply m))

/-- The status kind or source that a bounce fires by its code (Tables 13-5, 13-6). -/
def bounceKind (code : Code) : Option Nat :=
  if code = ccStaleRole then some 0
  else if code = ccWinClosed then some 1
  else if code = ccWinBounds then some 2
  else if code = ccBadDesc then some 3
  else none

/-- A bounced BLOCK_FETCH completes the FETCH whose TAG it carries with STALE_ROLE (R348, R431). -/
def State.fetchBounced (s : State) (c : CellIx) (m : Msg) : State :=
  match (s.cell c).ops.find? (fun o => decide (o.unit = .fetch ∧ ¬ o.done ∧ opTag c o.id = m.tag)) with
  | some o => s.opEnds c o.id m.code
  | none => s

/-- A bounce reaches its sender (R58 to R60, R321, R347, R348, R518). -/
def State.takeBounce (s : State) (m : Msg) : State :=
  let s := s.received m
  if UA.depth m.dest = 5 then
    let c := cellIx (UA.index m.dest)
    let s := match bounceKind m.code with
      | some k => s.fireCell k c
      | none => s
    if m.cls = 0x02 then s.fetchBounced c m
    else
      match (s.cell c).waiter m.tag with
      | some o => if m.cls = 0x05 ∧ m.job = (s.cell c).job.toNat then s.modCell c (·.answered o m) else s.toRpl c m
      | none => s.toRpl c m
  else if UA.depth m.dest = 0 then
    let s := match bounceKind m.code with
      | some k => s.fireStatus (srcHostStale + k)
      | none => s
    (s.driverBounce m).toHost m
  else s

def execBounceArrival (m : Msg) (s : State) : Out :=
  .next (onlyIf (m.bounced && s.uncheckedOk m) s (fun s => (s.takeMsg m).takeBounce m))

/-! ### Queues -/

/-- The unit that holds the queue works. -/
def State.queueUp (s : State) : QueueId → Bool
  | .cmd c => s.cellUp c
  | .rpl c => s.cellUp c
  | .hiq => s.hostUp

/-- QUEUE_FLUSH_COMPLETE: the EOP of the last discarded packet has been discarded (R350); a QFLUSH that waits is over. -/
def State.flushDone (s : State) (q : QueueId) : State :=
  match q with
  | .cmd c => s.modCell c (fun x => { x with cmdq := Queue.flushDone 64 s.runTime x.cmdq })
  | .rpl c => s.modCell c (fun x =>
      let y := Queue.flushDone 0 s.runTime x.rplq
      let ops := if y.flushing then x.ops
        else x.ops.map (fun o => if o.unit = .seq then { o with done := true } else o)
      ({ x with rplq := y, ops := ops }).fillRpl s.runTime)
  | .hiq =>
    let h := s.evc.hiq
    if h.flushing && h.inflow.any (·.eop) then
      let r := splitEop h.inflow
      let h := { h with inflow := r.2, discarded := sat16 h.discarded r.1.length, flushing := false }
      ({ s with evc := { s.evc with hiq := h } }).hiqFill []
    else s

def execQueueFlushComplete (q : QueueId) (s : State) : Out := .next (onlyIf (s.queueUp q) s (·.flushDone q))

/-- QUEUE_ENQUEUE_RESUME: a message that waits before a queue enters as far as there is room (R343). -/
def State.enqueueMore (s : State) (q : QueueId) : State :=
  match q with
  | .cmd c => s.modCell c (fun x => if x.scrubbing then x else { x with cmdq := Queue.fill 64 s.runTime x.cmdq })
  | .rpl c => s.modCell c (fun x => if x.scrubbing then x else x.fillRpl s.runTime)
  | .hiq => s.hiqFill []

def execQueueEnqueueResume (q : QueueId) (s : State) : Out := .next (onlyIf (s.queueUp q) s (·.enqueueMore q))

/-- The timer of a queue has reached QTMO (R353, R354). -/
def Queue.tailDue (q : Queue) (now : Word) (qtmo : Nat) : Bool :=
  decide (qtmo ≠ 0) && q.timer.elim false (fun t => decide (qtmo ≤ (now - t).toNat))

/-- TAIL is set, and the timer stays off until the next read (R354). -/
def Queue.strand (q : Queue) : Queue := { q with tail := true, timer := none }

/-- QUEUE_TAIL (R354, R355). -/
def State.queueTail (s : State) (q : QueueId) : State :=
  match q with
  | .cmd c =>
    if (s.cell c).cmdq.tailDue s.runTime (s.cell c).cmdQtmo.toNat then
      (s.modCell c (fun x => { x with cmdq := x.cmdq.strand })).fireCell 4 c else s
  | .rpl c =>
    if (s.cell c).rplq.tailDue s.runTime (s.cell c).rplQtmo.toNat then
      (s.modCell c (fun x => { x with rplq := x.rplq.strand })).fireCell 4 c else s
  | .hiq =>
    if s.evc.hiq.tailDue s.runTime s.evc.hiqQtmo.toNat then
      ({ s with evc := { s.evc with hiq := s.evc.hiq.strand } }).fireStatus srcHiqTail else s

def execQueueTail (q : QueueId) (s : State) : Out := .next (onlyIf (s.queueUp q) s (·.queueTail q))

/-! ### The instructions -/

def execSyncOp (c : CellIx) (f : InsFields) (s : State) : Out := .next (s.issue c 0x58 f (.syncOp c f) (bodySyncOp c f))
def execQread (c : CellIx) (f : InsFields) (s : State) : Out := .next (s.issue c 0x5C f (.qread c f) (bodyQread c f))
def execQflush (c : CellIx) (f : InsFields) (s : State) : Out := .next (s.issue c 0x5D f (.qflush c f) (bodyQflush c f))
def execSendW (c : CellIx) (f : InsFields) (s : State) : Out := .next (s.issue c 0x60 f (.sendW c f) (bodySendW c f))

end Sys2Proof.Machine
end

