-- ==== Sys2Proof/Machine/Sync.lean ====
section
/-! DEFINITION. Sync objects (R360 to R372). -/

namespace Sys2Proof.Machine

open Sys2Proof

/-! ### Requests (Table 10-7) -/

def Msg.obj (m : Msg) : Nat := m.fld 0 15 0
def Msg.syncOp (m : Msg) : Nat := m.fld 0 19 16
def Msg.syncType (m : Msg) : Nat := m.fld 0 21 20
def Msg.ack (m : Msg) : Bool := decide (m.fld 0 22 22 = 1)
def Msg.value (m : Msg) : Nat := m.fld 0 119 56

/-- The waiter that a request becomes (R367). -/
def Msg.waiter (m : Msg) (value : Word) : Waiter :=
  { obj := m.obj, op := BitVec.ofNat 4 m.syncOp, job := BitVec.ofNat 32 m.job, value := value, src := m.src, tag := m.tag,
    typ := BitVec.ofNat 2 m.syncType }

/-- The reserved fields of a SYNC_OP are zero (R362, R364). -/
def Msg.syncOk (m : Msg) : Bool :=
  decide (m.body.length = 1 ∧ m.fld 0 23 23 = 0) && decide (m.syncOp = 1 ∨ m.syncType = 0) && decide (m.syncOp < 0xB)

/-! ### Objects -/

/-- The object that an INIT makes (R363). -/
def SyncObj.init (typ value : Nat) : SyncObj :=
  match typ with
  | 1 => .counter (BitVec.ofNat 64 value) false
  | 2 => .barrier (BitVec.ofNat 32 value) 0 (BitVec.ofNat 32 (value / 2 ^ 32))
  | 3 => .flag (decide (value % 2 = 1))
  | _ => .none

/-- The operation is one of the object's type (R364). -/
def SyncObj.accepts (o : SyncObj) (op : Nat) : Bool :=
  match o with
  | .counter _ _ => decide (op = 2 ∨ op = 3)
  | .barrier _ _ _ => decide (op = 4 ∨ op = 5 ∨ op = 6)
  | .flag _ => decide (7 ≤ op ∧ op ≤ 0xA)
  | .none => false

/-- The condition of a waiting operation (R363, R365); `value` is the operand, or the GEN of an arrival. -/
def SyncObj.holds (o : SyncObj) (op : Nat) (value : Word) : Bool :=
  match o with
  | .counter n _ => decide (op = 3) && decide (value.toNat ≤ n.toNat)
  | .barrier n _ g => decide (op = 5 ∨ op = 6) && decide (n = 0 ∨ g ≠ value.setWidth 32)
  | .flag b => (decide (op = 9) && b) || (decide (op = 0xA) && !b)
  | .none => false

/-- The VALUE of a READ (Table 10-8). -/
def SyncObj.readValue (o : SyncObj) : Word :=
  match o with
  | .barrier _ a g => BitVec.ofNat 64 (g.toNat + a.toNat * 2 ^ 32)
  | o => o.value

/-- An arrival (R363, R365). -/
def SyncObj.arrive (o : SyncObj) : SyncObj :=
  match o with
  | .barrier n a g =>
    if n = 0 then o else if a + 1 = n then .barrier n 0 (g + 1) else .barrier n (a + 1) g
  | o => o

def State.setSync (s : State) (i : Nat) (o : SyncObj) : State := { s with sync := SMap.put s.sync i o .none }

/-- The home die of an object (R360). -/
def syncDie (i : Nat) : Nat := i / 2 ^ 15 % 2

/-! ### Replies and waiters -/

/-- A REPLY to an applied request, with a value (R371). -/
def State.syncReply (s : State) (m : Msg) (code : Code) (value : Word) : State :=
  s.replySync (m.waiter 0) code value (s.syncObj m.obj).ovf

/-- The waiters of an object whose condition now holds are released with OK, those of another type with BAD_DESC, in the
order in which they began (R366 to R368). -/
def State.releaseWaiters (s : State) (i : Nat) : State :=
  let o := s.syncObj i
  let due (w : Waiter) : Bool := decide (w.obj = i) && (!o.accepts w.op.toNat || o.holds w.op.toNat w.value)
  let go := s.waiters.filter due
  let s := { s with waiters := s.waiters.filter (fun w => !due w) }
  go.foldl (fun s w => s.replySync w (if o.accepts w.op.toNat then ccOk else ccBadDesc) o.value o.ovf) s

/-- A request begins to wait (R369). -/
def State.addWaiter (s : State) (w : Waiter) : State :=
  let d := syncDie w.obj
  let n := s.waiters.countP (fun v => decide (syncDie v.obj = d))
  let s := { s with waiters := s.waiters ++ [w] }
  if 8192 ≤ n then s.modDie d (fun x => { x with waitersSpilled := x.waitersSpilled + 1 }) else s

/-! ### The operations -/

/-- What an operation does to its object, and what follows: a REPLY at once, or a wait. -/
def State.applySync (s : State) (m : Msg) : State :=
  let i := m.obj
  let o := s.syncObj i
  let op := m.syncOp
  let v : Word := BitVec.ofNat 64 m.value
  let done (s : State) (value : Word) : State := if m.ack then s.syncReply m ccOk value else s
  if op = 0 then s.syncReply m ccOk o.readValue
  else if op = 1 then
    let s := s.setSync i (SyncObj.init m.syncType m.value)
    (done s (s.syncObj i).value).releaseWaiters i
  else if op = 2 then
    match o with
    | .counter n f =>
      let full := decide (2 ^ 64 ≤ n.toNat + m.value)
      let s := s.setSync i (.counter (if full then BitVec.ofNat 64 (2 ^ 64 - 1) else n + v) (f || full))
      let s := if full then s.modDie (syncDie i) (fun x => { x with counterOvf := x.counterOvf + 1 }) else s
      (done s (s.syncObj i).value).releaseWaiters i
    | _ => s
  else if op = 4 then
    let s := s.setSync i o.arrive
    (done s o.value).releaseWaiters i
  else if op = 5 then
    let w := m.waiter o.value
    let n := o.arrive
    let s := s.setSync i n
    if n.holds 5 o.value then (s.releaseWaiters i).replySync w ccOk n.value n.ovf else (s.addWaiter w).releaseWaiters i
  else if op = 7 then
    let s := s.setSync i (.flag true)
    (done s 1).releaseWaiters i
  else if op = 8 then
    let s := s.setSync i (.flag false)
    (done s 0).releaseWaiters i
  else if o.holds op v then s.syncReply m ccOk o.value
  else s.addWaiter (m.waiter v)

/-- An operation that waits. -/
def syncWaits (op : Nat) : Bool := decide (op = 3 ∨ op = 5 ∨ op = 6 ∨ op = 9 ∨ op = 0xA)

/-- A SYNC_OP that passed the epoch check: BAD_DESC and no change for one that R364 refuses, else its effect. -/
def State.syncOp (s : State) (m : Msg) : State :=
  let s := s.received m
  let op := m.syncOp
  if !m.syncOk || !(decide (op ≤ 1) || (s.syncObj m.obj).accepts op) then
    if m.ack || syncWaits op || decide (op = 0) then s.syncReply m ccBadDesc (s.syncObj m.obj).value else s
  else
    (s.modDie (syncDie m.obj) (fun x => { x with syncOps := x.syncOps + 1 })).applySync m

/-- A SYNC_OP of operation `op` arrives; SYNC_READ also takes those of a reserved OP (R364). One for a unit that is no device is
checked as any message (R57) and then dropped: no rule gives it an effect (DESIGN CHOICE, log 41). -/
def State.syncArrives (s : State) (m : Msg) (op : Nat) : State :=
  onlyIf (s.requestOk m 0x05 && decide (m.syncOp = op ∨ (op = 0 ∧ 0xB ≤ m.syncOp))) s
    (fun s => s.arrival m (fun s => if UA.depth m.dest = 0 then s.syncOp m else s.received m))

def execSyncRead (m : Msg) (s : State) : Out := .next (s.syncArrives m 0x0)
def execSyncInit (m : Msg) (s : State) : Out := .next (s.syncArrives m 0x1)
def execSyncAdd (m : Msg) (s : State) : Out := .next (s.syncArrives m 0x2)
def execSyncWaitGe (m : Msg) (s : State) : Out := .next (s.syncArrives m 0x3)
def execSyncArrive (m : Msg) (s : State) : Out := .next (s.syncArrives m 0x4)
def execSyncArriveWait (m : Msg) (s : State) : Out := .next (s.syncArrives m 0x5)
def execSyncWaitGen (m : Msg) (s : State) : Out := .next (s.syncArrives m 0x6)
def execSyncSet (m : Msg) (s : State) : Out := .next (s.syncArrives m 0x7)
def execSyncClear (m : Msg) (s : State) : Out := .next (s.syncArrives m 0x8)
def execSyncWaitSet (m : Msg) (s : State) : Out := .next (s.syncArrives m 0x9)
def execSyncWaitClear (m : Msg) (s : State) : Out := .next (s.syncArrives m 0xA)

end Sys2Proof.Machine
end

