-- ==== Sys2Proof/Machine/Reliability.lean ====
section
/-! DEFINITION. Failures absorbed: quiescent points (R28), remaps (R306 to R311), retirement, spare cells and hosting
(R41 to R44, R606, R607, R611 to R618), the patrol (R503), UCIe (R619) and lost units (R620, R624). -/

namespace Sys2Proof.Machine

open Sys2Proof

/-! ### Quiescent points -/

/-- The sequencer stands between two instructions: none holds the program until its completion. DESIGN CHOICE (log 26): an
instruction that stalls before it acts (Table 12-9) counts as not yet issued, so the cell stands before it; R28 does not say. -/
def Cell.between (x : Cell) : Bool := x.seq.waiting.isNone

/-- A cell at a quiescent point (R28); one that asks to be retired stops its array, and then counts as quiescent (R611). -/
def Cell.quiescent (x : Cell) : Bool :=
  x.between && (x.retireReq ||
    (x.arr.isNone && decide (x.tile0.st ≠ .draining) && decide (x.tile1.st ≠ .draining)))

/-- Every cell of a unit is at a quiescent point (R28). -/
def State.quiescent (s : State) (cells : List Nat) : Bool :=
  cells.all (fun i => (s.cell (cellIx i)).quiescent)

/-- The 16 cells of the depth-3 carcase of a cell. -/
def carcaseCells (c : CellIx) : List Nat := (List.range 16).map (fun i => c.val / 16 * 16 + i)

/-! ### Remaps (R307, R308, R311) -/

/-- CE_LIMIT_REACHED: a remap of the row becomes due, or the cell asks to be retired when no spare row is free. -/
def State.ceLimitReached (s : State) (c : CellIx) (row : Nat) : State :=
  let s := s.modCell c (fun x => { x with rows := { x.rows with due := x.rows.due ++ [row] } })
  if s.sparesFree c = 0 then s.requestRetire c else s

def execCeLimitReached (c : CellIx) (row : Fin 16384) (s : State) : Out :=
  let x := s.cell c
  .next (onlyIf (s.up && decide (x.ceLimit ≠ 0) && decide (x.ceLimit.toNat ≤ (SMap.getD x.rows.ce row.val 0).toNat) &&
    decide (row.val ∉ x.rows.due)) s (·.ceLimitReached c row.val))

/-- FIELD_REMAP: a due remap acts at the cell's quiescent point. -/
def execFieldRemap (c : CellIx) (row : Fin 16384) (s : State) : Out :=
  .next (onlyIf (s.cellUp c && decide (row.val ∈ (s.cell c).rows.due) && (s.cell c).quiescent &&
    decide (0 < s.sparesFree c)) s (·.remapRow c row.val))

/-! ### Retirement -/

/-- RETIREMENT_REQUEST (R311, R606, R607). -/
def execRetirementRequest (c : CellIx) (s : State) : Out :=
  let x := s.cell c
  .next (onlyIf (s.up && (x.retires || (decide (x.rows.due ≠ []) && decide (s.sparesFree c = 0)))) s (·.requestRetire c))

/-- The state of a retired address moves to a cell whose rows, error counts and checks are its own (R41, R611; log 26). -/
def Cell.moved (x : Cell) : Cell :=
  { x with rows := { ({} : Rows) with rebuilt := x.rows.rebuilt }, retireReq := false, recomputeTimes := [], failStreak := 0 }

/-- The retirement of the cell that served an address is recorded, saved and reported (R613, R625). -/
def State.retired (s : State) (c : CellIx) (cause : BitVec 8) : State :=
  let s := s.modCell c (·.moved)
  let s := { s with rel := { s.rel with retired :=
    if c.val ∈ s.rel.retired then s.rel.retired else s.rel.retired ++ [c.val] } }
  (s.saveRecord.relCell c cause).fireStatus srcCapacity

/-- The spare of the cell's carcase is free. -/
def State.spareFree (s : State) (c : CellIx) : Bool :=
  (SMap.get? s.rel.spareOf (c.val / 16)).isNone && decide (c.val / 16 ∉ s.rel.spareBad)

/-- SPARE_SUBSTITUTION (R41, R612): at the carcase's quiescent point the spare takes the address; of two requests the
lower linear index has it; a kill and its scrub act first; a hosted address has no use for it. -/
def execSpareSubstitution (c : CellIx) (s : State) : Out :=
  .next (onlyIf (s.cellUp c && (s.cell c).retireReq && s.spareFree c && (s.rel.hostOf c).isNone &&
      s.quiescent (carcaseCells c) && !(s.cell c).scrubbing &&
      (carcaseCells c).all (fun i => decide (c.val ≤ i) || !(s.cell (cellIx i)).retireReq)) s
    (fun s => ({ s with rel := { s.rel with spareOf := SMap.set s.rel.spareOf (c.val / 16) c.val } }).retired c 4))

/-! ### Hosting -/

/-- A cell that may host: it serves its own address and does not ask to be retired (R614). -/
def State.mayHost (s : State) (c : CellIx) (i : Nat) : Bool :=
  decide (i ≠ c.val) && (s.rel.hostOf (cellIx i)).isNone && !(s.cell (cellIx i)).retireReq

/-- Addresses that a cell hosts. -/
def Rel.guests (r : Rel) (i : Nat) : Nat := r.hosts.countP (fun h => decide (h.host = i))

/-- The one of a list that hosts fewest, the first of those (R614). -/
def Rel.fewest (r : Rel) : List Nat → Option Nat
  | [] => none
  | i :: t =>
    match Rel.fewest r t with
    | none => some i
    | some j => if r.guests j < r.guests i then some j else some i

/-- The host of a retired address: at the first of depth 3, depth 2, the die and the device that offers any (R614).
Answers the host and the depth of the unit that holds both. -/
def State.chooseHost (s : State) (c : CellIx) : Option (Nat × Nat) :=
  [3, 2, 1, 0].findSome? (fun d =>
    let l := ((List.range (UA.span d)).map (fun i => c.val / UA.span d * UA.span d + i)).filter (s.mayHost c)
    (s.rel.fewest l).map (fun h => (h, d)))

/-- Hosting begins: 42 extents hold the image; addresses that the retired cell hosted pass to its host (R614, R615,
R618; log 26). -/
def State.startHosting (s : State) (c : CellIx) (h : Nat) (mem : MemSys) : State :=
  let old := s.rel.hosts.map (fun (e : Host_) => if e.host = c.val then { e with host := h, resident := false } else e)
  let new : Host_ := ⟨h, c.val, false⟩
  let bad := if SMap.get? s.rel.spareOf (c.val / 16) = some c.val then s.rel.spareBad ++ [c.val / 16] else s.rel.spareBad
  ({ s with mem := mem, rel := { s.rel with hosts := old ++ [new], spareBad := bad } }).retired c 5

def execHostingStart (c : CellIx) (s : State) : Out :=
  .next (onlyIf (s.cellUp c && (s.cell c).retireReq && !s.spareFree c && (s.rel.hostOf c).isNone && !(s.cell c).scrubbing) s
    (fun s =>
      match s.chooseHost c with
      | none => s
      | some (h, d) =>
        let unit := (List.range (UA.span d)).map (fun i => c.val / UA.span d * UA.span d + i)
        if !s.quiescent unit then s
        else (s.mem.allocMany (h / 256) 1024 (.image c.val) 42).elim s (s.startHosting c h)))

/-- The context has a command in progress, or one at the head of CMD that is ready to dispatch (R616). -/
def Cell.ready (x : Cell) : Bool := x.seq.cmd.isSome || x.seq.running || x.cmdq.headReady

/-- A tile waits for its chain inlet: in CLOSING, or, drained empty, with the merge that its drain owes (R616, Table 4-4). -/
def Tile.waitsSum (t : Tile) : Bool :=
  t.inlet.isNone && (decide (t.st = .closing) || (decide (t.st = .draining) && t.drain.elim false (·.due)))

/-- The context waits for what another may bring: a stall under REPLY, WINDOW or NET, or a tile in CLOSING without its
inlet (R616, Table 12-9). -/
def Cell.waitsOutside (x : Cell) : Bool :=
  x.seq.stalled.elim false (fun k => decide (k.1 = 6 ∨ k.1 = 7 ∨ k.1 = 8)) ||
  x.tile0.waitsSum || x.tile1.waitsSum

/-- No unit of the context works on: its operations are complete or wait, its array has no lookup to issue (R616). -/
def Cell.unitsRest (x : Cell) : Bool :=
  x.ops.all (fun o => decide (o.unit = .net ∨ o.unit = .fetch ∨ o.unit = .array ∨ o.unit = .drain ∨ o.spill ≠ none) || o.done)
  && [x.tile0, x.tile1].all (fun t => decide (t.st ≠ .draining) || t.waitsSum) && x.arr.elim true (fun r => !r.joined)

/-- A message waits at the router for the cell: in flight, or a chain sum that its empty inlet can take (R617). -/
def State.waitsAtRouter (s : State) (c : CellIx) : Bool :=
  s.net.inFlight.any (fun m => decide (m.dest = s.cellAddr c)) ||
  [(s.cell c).tile0, (s.cell c).tile1].any (fun t => t.inlet.isNone && decide (t.port ≠ []))

/-- The context resident at a host. -/
def State.residentAt (s : State) (h : Nat) : Nat :=
  (s.rel.hosts.find? (fun e => decide (e.host = h) && e.resident)).elim h (·.guest)

/-- The host makes the context of address `c` resident. -/
def Rel.switchTo (r : Rel) (h : Nat) (c : CellIx) : Rel :=
  { r with hosts := r.hosts.map (fun (e : Host_) =>
      if e.host = h then { e with resident := decide (e.guest = c.val) } else e) }

/-- HOST_CONTEXT_SWITCH to the context of address `c` (R616). -/
def execHostContextSwitch (c : CellIx) (s : State) : Out :=
  let h := (s.rel.hostOf c).elim c.val (·.host)
  let now := s.cell (cellIx (s.residentAt h))
  let next := s.cell c
  .next (onlyIf (s.dieUp (h / 256) && !s.resident c && !now.scrubbing && now.held.isNone && now.unitsRest &&
      ((!now.ready && next.cmdq.headReady) || (now.waitsOutside && (next.ready || s.waitsAtRouter c)))) s
    (fun s => { s with rel := s.rel.switchTo h c }))

/-! ### Device memory, UCIe, lost units -/

/-- PATROL: the die's patrol reads a unit below MEM_BYTES (R503), in no freeze (R631); SCRUB_HOURS 0 stops it (Table 14-8). -/
def execPatrol (unit : Nat) (e : List UnitFlip) (s : State) : Out :=
  .next (onlyIf (s.fabricUp && decide (s.devParam 0x4000 0x0D 24 ≠ 0) && decide (64 * unit < s.mem.bytes)) s (fun s =>
    let s := s.passUnits false [unit] e
    match s.mem.unitErr unit e with
    | .clean => s
    | .corrected => s.unitCorrected unit
    | _ => s.unitLost none unit))

/-- UCIE_LANE_REPAIR: a module of the die repairs lanes, or is down, and its traffic moves to those that remain (R619, R48,
R626, Table 17-7). -/
def execUcieLaneRepair (die : Fin 2) (mod : Fin 5) (lanes : Nat) (repaired : Bool) (s : State) : Out :=
  .next (onlyIf s.pwr.on s (fun s =>
    let s := if repaired then s
      else { s with net := { s.net with modsDown := (s.net.modsDown ++ [5 * die.val + mod.val]).dedup } }
    (s.modDie die.val (fun d =>
      if repaired then { d with lanesRepaired := d.lanesRepaired + BitVec.ofNat 8 lanes, lastCause := 8 }
      else { d with modulesDown := d.modulesDown + 1, lastCause := 8 })).fireStatus (srcDieRel die.val)))

/-- The unit that an operation waits for is written to LOST_RELEASE: the operation completes with its poisoned block, and
the unit is rewritten with its POISON tag set, its bytes free values (R624; log 11). -/
def State.releaseLost (s : State) (unit : Nat) : State :=
  if unit ∉ s.mem.lost then s else
  let bytes := (List.range 64).map (fun i => Config.freeBytes s.free i)
  let tag := SMap.getD s.mem.tags unit 0 ||| 1
  let s := { s with mem := { (s.mem.writeUnit unit (bytes, tag)) with lost := s.mem.lost.erase unit }, free := s.free + 1 }
  let hit (o : UnitOp) : Bool := decide (o.spill.elim false (fun x => decide (x.what = .lost unit)))
  { s with cells := s.cells.map (fun x =>
      (x.1, { x.2 with ops := x.2.ops.map (fun (o : UnitOp) => if hit o then { o with done := true, spill := none } else o) })) }

end Sys2Proof.Machine
end

