-- ==== Sys2Proof/Machine/Contract.lean ====
section
/-! DEFINITION. The checks of the contract's descriptors (R378 to R381, R389, R399 to R405, Table 11-4), the scale
records that a job names (R139, R141 to R143, R720, R721), the application grant (R507). -/

namespace Sys2Proof.Machine

open Sys2Proof

/-- The tensor indices that a layer names by its OP, with the roles IN 0, WGT 1, OUT 2 (Table 11-11). -/
def Layer.names (l : Desc) : List (Nat × Nat) :=
  match Layer.op l with
  | 1 => [(0, Layer.inT l), (1, Layer.wgt l), (2, Layer.outT l)]
  | 2 => [(0, Layer.inT l), (2, Layer.outT l)]
  | 3 => [(0, Layer.inT l), (2, Layer.outT l)]
  | 4 => [(2, Layer.outT l)]
  | 5 => [(0, Layer.inT l)]
  | _ => []

/-! ### Checks that need only descriptors (R400, R403, R405) -/

/-- A range of `n` bytes from device address `a` lies in the application grant (R507, R725). -/
def State.granted (s : State) (a n : Nat) : Bool :=
  decide (s.mem.appBase ≤ a ∧ 64 * a + n ≤ 64 * (s.mem.appBase + s.mem.appUnits))

/-- The directory ranges of a graph's tensors (R403). -/
def rangesOk (entries : Nat) (ts : List Desc) : Bool :=
  ts.all (fun t => decide (Tensor.groups t = 0 ∨ Tensor.dirBase t + Tensor.groups t ≤ entries)) &&
  ts.all (fun t => ts.all (fun u =>
    !overlaps (Tensor.dirBase t) (Tensor.groups t) (Tensor.dirBase u) (Tensor.groups u) || Tensor.same t u))

/-- An auxiliary tensor of a given form, of one of the shapes. -/
def auxOk (t : Option Desc) (form : Nat) (shapes : List (Nat × Nat)) : Bool :=
  t.elim false (fun t => decide (Tensor.form t = form ∧ (Tensor.rows t, Tensor.klen t) ∈ shapes))

/-- Operation, indices, forms and shapes of a layer (R405, Tables 11-10 and 11-11), for a PREC word. -/
def GraphRec.shapeOk (g : GraphRec) (l : Desc) (p : Word) : Bool :=
  let i := g.tensor (Layer.inT l)
  let w := g.tensor (Layer.wgt l)
  let o := g.tensor (Layer.outT l)
  match Layer.op l, i, w, o with
  | 1, some i, some w, some o =>
    decide (Tensor.form i = 0 ∧ Tensor.form w = 0 ∧ Tensor.form o = 0 ∧ Tensor.width i = Prec.abits p ∧
      Tensor.width w = Prec.wbits p ∧ Tensor.width o = Prec.outbits p ∧ Tensor.klen w = Tensor.klen i ∧
      Tensor.rows o = Tensor.rows i ∧ Tensor.klen o = Tensor.rows w ∧ Tensor.tiles o ≤ 2 ^ 24)
  | 2, some i, _, some o =>
    let sh := (Tensor.rows i, Tensor.klen i)
    decide (Tensor.form i ≠ 0 ∧ Tensor.form o ≠ 0 ∧ sh = (Tensor.rows o, Tensor.klen o) ∧ Layer.lfuOp l ≤ 9 ∧
      Tensor.tiles o ≤ 2 ^ 24) &&
    (decide (Layer.lfuOp l ≠ 1) || auxOk (g.tensor (Layer.aux1 l)) 2 [sh, (1, Tensor.klen i), (1, 1)]) &&
    (decide (Layer.lfuOp l ≠ 9 ∨ Layer.aux1 l = 0xFFFFFFFF) || auxOk (g.tensor (Layer.aux1 l)) 2 [(1, Tensor.klen i)]) &&
    (decide (Layer.lfuOp l ≠ 9 ∨ Layer.aux2 l = 0xFFFFFFFF) || auxOk (g.tensor (Layer.aux2 l)) 1 [(1, Tensor.klen i)])
  | 3, some i, _, some o =>
    decide (((Tensor.form i = 0 ∧ Tensor.form o = 1) ∨
        (Tensor.form i = 1 ∧ Tensor.form o = 0 ∧ Tensor.width o = Prec.outbits p)) ∧
      (Tensor.rows i, Tensor.klen i) = (Tensor.rows o, Tensor.klen o) ∧ Tensor.tiles o ≤ 2 ^ 24)
  | 4, _, _, some o =>
    decide (ceilDiv (Tensor.klen o * storedWidth (Tensor.width o) (Tensor.form o)) 8 ≤ Layer.xpitch l ∧
      Tensor.tiles o ≤ 2 ^ 24)
  | 5, some i, _, _ =>
    decide (ceilDiv (Tensor.klen i * storedWidth (Tensor.width i) (Tensor.form i)) 8 ≤ Layer.xpitch l)
  | _, _, _, _ => false

/-- The predictor, carried record and delta reference that a PREC word asks for are named (R405). -/
def GraphRec.partsOk (g : GraphRec) (k : Nat) (l : Desc) (p : Word) : Bool :=
  (!Prec.pred p || (decide (Layer.pred l < k) && g.layers[Layer.pred l]?.elim false (fun q =>
    decide (Layer.op q = 1) &&
    decide ((g.tensor (Layer.outT q)).map (fun t => (Tensor.rows t, Tensor.klen t)) =
      (g.tensor (Layer.outT l)).map (fun t => (Tensor.rows t, Tensor.klen t)))))) &&
  (decide (Prec.scaleMode p ≠ 1) || Layer.carryV l) && (!Prec.delta p || Layer.drefV l)

/-- Check 6 on the word of layer `k` (R71, R136, R223, R238), `precs` being the words of all layers. -/
def GraphRec.precOk (g : GraphRec) (precs : List Word) (k : Nat) (l : Desc) : Bool :=
  let p := precs.getD k 0
  Prec.valid p && (!Prec.pred p || decide (k ≤ Layer.pred l) ||
    (let q := precs.getD (Layer.pred l) 0
     decide (g.layers.length ≤ Layer.pred l ∨ Prec.wbits q = 1 ∨ Prec.wbits q = 2 ∨ Prec.wbits q = 0xE)))

/-- The addresses of a layer lie in the grant, as far as the descriptors alone give their lengths (R400, R507). -/
def State.layerGranted (s : State) (g : GraphRec) (l : Desc) (p : Word) : Bool :=
  let t := (g.tensor (Layer.outT l)).elim 0 Tensor.tiles
  (!(g.converts l && decide (Prec.scaleMode p = 1)) || s.granted (Layer.carry l) 16) &&
  (!(decide (Layer.op l = 1) && Prec.delta p) || s.granted (Layer.dref l) (64 + 8208 * t)) &&
  (decide (Layer.op l = 5) || !Layer.ledgerV l || s.granted (Layer.ledger l) (64 * t))

/-- K_safe (R101). -/
def kSafe (p : Word) : Nat := 2 ^ (40 - Prec.abits p - Prec.wPlanes p) - 1

/-- An exact layer whose reduction is longer than K_safe (R103). -/
def GraphRec.tooLong (g : GraphRec) (l : Desc) (p : Word) : Bool :=
  decide (Layer.op l = 1) && Prec.exact p && decide (kSafe p < (g.tensor (Layer.inT l)).elim 0 Tensor.klen)

/-- The fault of layer `k` at REGISTER (R400). -/
def State.layerFault (s : State) (g : GraphRec) (k : Nat) (l : Desc) : Option Code :=
  let precs := g.layers.map Layer.prec
  match l.fault 0x20 16 false with
  | some c => some c
  | none =>
    if !g.precOk precs k l then some ccBadPrec
    else if g.tooLong l (Layer.prec l) then some ccBadDesc
    else if g.shapeOk l (Layer.prec l) && g.partsOk k l (Layer.prec l) && s.layerGranted g l (Layer.prec l) then none
    else some ccBadDesc

/-- The first of a list of tests that fails, with its index. -/
def firstFault {α β : Type} (f : Nat → α → Option β) : Nat → List α → Option (Nat × β)
  | _, [] => none
  | k, x :: t => (f k x).elim (firstFault f (k + 1) t) (fun b => some (k, b))

/-- What a REGISTER finds in a graph, its tensors and its layers: a code and the failing layer, or none (R400, R403,
R412). `room` is whether the driver has room to place it (Table 11-14). -/
def State.graphFault (s : State) (d : Desc) (ts ls : List Desc) (room : Bool) : Option (Code × BitVec 32) :=
  match d.fault 0x30 8 false with
  | some c => some (c, noLayer)
  | none =>
    if 2 ^ 20 < ts.length ∨ 2 ^ 16 < ls.length ∨ (ts = [] ∧ ls ≠ []) then some (ccBadDesc, noLayer) else
    let tensorFault (_ : Nat) (t : Desc) : Option Code :=
      (t.fault 0x10 8 false).orElse (fun _ =>
        if Tensor.ok t && (!Tensor.srecV t || s.granted (Tensor.srec t) 16) then none else some ccBadDesc)
    match firstFault tensorFault 0 ts with
    | some x => some (x.2, noLayer)
    | none =>
      if !rangesOk s.mem.dirEntries ts then some (ccBadDesc, noLayer) else
      let g : GraphRec := ⟨0, ts, ls, false⟩
      match firstFault (s.layerFault g) 0 ls with
      | some x => some (x.2, BitVec.ofNat 32 x.1)
      | none => if room then none else some (ccNoRoom, noLayer)

/-! ### Checks at acceptance (R389) -/

/-- A whole record that is read as given. -/
def State.givenOk (s : State) (a n : Nat) : Bool :=
  let h := s.recWord a 0
  Rec.headOk h n && (List.range (Rec.entries h)).all (fun i => Rec.entryOk h (s.recWord a (1 + i)) (s.recWord a 1))

/-- Check 6 as far as records decide it: R141 to R143, and OUTBITS 1 with SYM (R136). DESIGN CHOICE (log 36): R141 and R142 are
checked of every LINEAR layer, of one with HOSTLAYER = 1 too. -/
def State.recPrecOk (s : State) (g : GraphRec) (l : Desc) (p : Word) : Bool :=
  (decide (Layer.op l ≠ 1) ||
    ((s.tensorRec g (Layer.inT l)).elim false (fun h =>
        decide ((Rec.gran h = 0 ∨ Rec.gran h = 1) ∧ Rec.width h = Prec.abits p) && !Rec.sym h) &&
     (s.tensorRec g (Layer.wgt l)).elim false (fun h =>
        decide ((Rec.gran h = 0 ∨ Rec.gran h = 2) ∧ Rec.width h = Prec.wbits p) && Rec.sym h))) &&
  !(g.converts l && decide (Prec.outbits p = 1) && (s.tensorRec g (Layer.outT l)).elim false Rec.sym)

/-- The records that a layer names: given ones whole, others by their header word, an output record under R720 and R721,
each wholly in the grant (R139, R507). -/
def State.recordsOk (s : State) (g : GraphRec) (l : Desc) (p : Word) : Bool :=
  (Layer.names l).all (fun x =>
    match g.tensor x.2 with
    | none => false
    | some t =>
      if !Tensor.srecV t then true else
      let h := s.recWord (Tensor.srec t) 0
      let n := g.channels x.2
      let output := decide (x.1 = 2) && g.converts l
      let given := decide (x.1 ≠ 2) || (output && decide (Prec.scaleMode p = 2))
      (if given then s.givenOk (Tensor.srec t) n else Rec.headOk h n) &&
      s.granted (Tensor.srec t) (8 + 8 * Rec.entries h) &&
      (!output || (decide (Rec.width h = Prec.outbits p) &&
        !(decide (Layer.op l = 1) && g.isWgt x.2 && decide (Rec.gran h ≠ 0)))))

/-- Check 7 of layer `k` at acceptance (R389, R103, R405, R507). -/
def State.jobLayerOk (s : State) (g : GraphRec) (k : Nat) (l : Desc) (p : Word) : Bool :=
  let t := (g.tensor (Layer.outT l)).elim 0 Tensor.tiles
  let e (i : Nat) : Nat := (s.tensorRec g i).elim 0 Rec.entries
  g.shapeOk l p && g.partsOk k l p && s.layerGranted g l p && s.recordsOk g l p &&
  !g.tooLong l p &&
  (!(g.converts l && decide (Prec.scaleMode p = 1)) || s.granted (Layer.carry l) (8 + 8 * e (Layer.outT l))) &&
  (!(decide (Layer.op l = 1) && Prec.delta p) || s.granted (Layer.dref l) (drefHead (e (Layer.inT l)) + 8208 * t))

/-- The effective PREC words of a job (R388). -/
def GraphRec.effective (g : GraphRec) (d : Desc) (prectab : List Word) : List Word :=
  if d.getD 4 0 = 0 then g.layers.map Layer.prec else sliceD prectab 0 g.layers.length 0

/-- What the driver finds in a JOB entry: a code and the failing layer, or none (R389, R402, R410). Check 3 examines no word for an
entry of an invalid KIND (Table 11-4). -/
def State.jobFault (s : State) (d : Desc) (prectab : List Word) : Option (Code × BitVec 32) :=
  if d.f 0 15 8 ≠ 1 ∨ d.f 0 63 32 ≠ 0 then some (ccMustUnd, noLayer) else
  let g? := s.drv.graphs.find? (fun g => decide (g.handle.toNat = d.f 1 31 0) && !g.released)
  let precs := g?.elim [] (fun g => g.effective d prectab)
  match firstFault (fun _ p => if decide (d.kind = 1) && precUnknown p then some ccMustUnd else none) 0 precs with
  | some x => some (x.2, BitVec.ofNat 32 x.1)
  | none =>
    match d.fault 0x01 8 true, g? with
    | some c, _ => some (c, noLayer)
    | none, none => some (ccBadDesc, noLayer)
    | none, some g =>
      let six (k : Nat) (l : Desc) : Option Code :=
        let p := precs.getD k 0
        if g.precOk precs k l && s.recPrecOk g l p && (!d.bit 5 1 || Prec.exact p) then none else some ccBadPrec
      let seven (k : Nat) (l : Desc) : Option Code :=
        if s.jobLayerOk g k l (precs.getD k 0) then none else some ccBadDesc
      ((firstFault six 0 g.layers).orElse (fun _ => firstFault seven 0 g.layers)).map
        (fun x => (x.2, BitVec.ofNat 32 x.1))

end Sys2Proof.Machine
end

