-- ==== Sys2Proof/Machine/Transfer.lean ====
section
/-! DEFINITION. What a layer's completion moves between storage, workstation memory and the harts: IMPORT and EXPORT (R404, R463,
R724, Table 11-11) and the output of a host layer (R21, R284 to R289). No row of the table moves these data on its own, so the
row that completes the layer does (log 27). -/

namespace Sys2Proof.Machine

open Sys2Proof

/-! ### Elements of a tensor in storage -/

namespace Tensor
/-- The stored width of its elements (R724). -/
def stored (t : Desc) : Nat := storedWidth (width t) (form t)
/-- The directory index of the group that holds element (m, k) (R195). -/
def dix (t : Desc) (m k : Nat) : Nat := dirBase t + m / 32 * ceilDiv (klen t) 256 + k / 256
/-- Its groups, by directory index. -/
def dixs (t : Desc) : List Nat := (List.range (groups t)).map (dirBase t + ·)
end Tensor

/-- The block that holds element (m, k) of stored width `w`, with its poison bit, none where it is absent. The bytes of a group at
level 3 are what the serving device holds: free values here (log 11). -/
def State.blockOf (s : State) (t : Desc) (w m k : Nat) : Option (Bool × List Byte) :=
  let e := s.mem.entry (Tensor.dix t m k)
  let u0 := Ent2.base e.1
  let rd (u : Nat) : List Byte × BitVec 2 :=
    if Ent2.loc e.2 = 0 then s.mem.readUnit (u0 + u)
    else if Ent2.loc e.2 = 2 then s.wsUnit (u0 + u)
    else ((List.range 64).map (Config.farByte u0 u), 0)
  (decodeBlocks rd w (Ent2.bitmap e.1 e.2) (Ent2.dense e.2) (Ent2.psnAny e.2)
    (2 ^ (k % 256 / 16 * 4 + m % 32 / 8))).head?.map (·.2)

/-- The stored bits of element (m, k), none in an absent block, and its block's poison bit (R188). -/
def State.storedElem (s : State) (t : Desc) (w m k : Nat) : Option Nat × Bool :=
  match s.blockOf t w m k with
  | some (psn, bytes) => (some (ofBytesLE bytes / 2 ^ (w * (m % 8 * 16 + k % 16)) % 2 ^ w), psn)
  | none => (none, false)

/-- The entry that serves element (m, k) of tensor `i` of a graph (R721). -/
def State.entryOf (s : State) (g : GraphRec) (i m k : Nat) : Word :=
  let a := (g.tensor i).elim 0 Tensor.srec
  let h := s.recWord a 0
  s.recWord a (1 + if Rec.gran h = 0 then 0 else if g.isWgt i then m else k)

/-- The zero code of element (m, k) as stored bits: +0.0, 0x4000, the channel's zero code; a 1-bit tensor has none (R190, R270,
R285, Table 11-11). -/
def State.zeroBits (s : State) (g : GraphRec) (i m k : Nat) : Option Nat :=
  (g.tensor i).bind (fun t =>
    if Tensor.form t = 1 then some 0
    else if Tensor.form t = 2 then some 0x4000
    else if Tensor.width t = 1 then none
    else some (codeBits (Tensor.width t) (Ent.zp (s.entryOf g i m k))))

/-! ### Storing a tensor -/

/-- A group that the driver's work stores for a job: the pool, else level 4; none where neither has an extent, or a serving device
comes before level 4, and the layer then waits (R205, R508, R511; log 27). -/
def State.putGroup (s : State) (job : BitVec 32) (dix w map psn : Nat) (block : Nat → List Byte) : Option State :=
  let x := encodeGroup w map psn block
  let n := x.2.length
  let put (s : State) (loc u : Nat) : State :=
    let s := s.replaceEntry dix (if n = 0 then (0, 0) else Ent2.mk u map x.1 loc (decide (psn ≠ 0)) n)
    { s with drv := { s.drv with stored := s.drv.stored ++ [(job, dix)] },
             mem := { s.mem with storeQ := overtake dix none s.mem.storeQ } }
  if n = 0 then some (put s 0 0)
  else
    match s.mem.alloc (dix % 2) n (.group dix) with
    | some (u, m) => some (put (({ s with mem := m.writeUnits u x.2 }).passUnits true ((List.range n).map (u + ·)) []) 0 u)
    | none =>
      if (List.range 16).any (fun i => (s.spillTarget i).testBit 63) || !s.pcie.bme then none
      else
        (s.findWs (dix % 2) n).map (fun u =>
          let s := s.writeWsUnits u x.2
          let s := { s with mem := { s.mem with spill4 := s.mem.spill4 ++ [(u, pow2Up n)] } }
          put (s.modDie (dix % 2) (fun d => { d with spill4Units := d.spill4Units + BitVec.ofNat 64 n })) 2 u)

/-- The elements of a tensor's values: their stored bits, their poison, and the bits of the zero code. -/
structure Values where
  w : Nat
  bits : Nat → Nat → Nat
  psn : Nat → Nat → Bool
  zero : Nat → Nat → Option Nat

/-- The elements of block `i` of group `q` of a tensor: row and column, those inside the tensor. -/
def Tensor.blockElems (t : Desc) (q i : Nat) : List (Nat × Nat) :=
  let gc := ceilDiv (Tensor.klen t) 256
  (List.range 128).map (fun e => (q / gc * 32 + i % 4 * 8 + e / 16, q % gc * 256 + i / 4 * 16 + e % 16))

def Tensor.has (t : Desc) (x : Nat × Nat) : Bool := decide (x.1 < Tensor.rows t ∧ x.2 < Tensor.klen t)

/-- A tensor is stored in block form: a block is absent when it is not poisoned and every element of it inside the tensor is the
zero code (R191, R192, R285). -/
def State.putTensor (s : State) (job : BitVec 32) (t : Desc) (v : Values) : Option State :=
  (List.range (Tensor.groups t)).foldl (fun (s : Option State) q => s.bind (fun s =>
    let ins (i : Nat) : List (Nat × Nat) := (Tensor.blockElems t q i).filter (Tensor.has t)
    let psn (i : Nat) : Bool := (ins i).any (fun x => v.psn x.1 x.2)
    let stored (i : Nat) : Bool := psn i || !(ins i).all (fun x => decide (v.zero x.1 x.2 = some (v.bits x.1 x.2)))
    let bytes (i : Nat) : List Byte := bytesLE (blockBytes v.w)
      ((Tensor.blockElems t q i).foldr (fun x a => (if Tensor.has t x then v.bits x.1 x.2 % 2 ^ v.w else 0) + 2 ^ v.w * a) 0)
    let mapOf (f : Nat → Bool) : Nat := (List.range 64).foldl (fun a i => if f i then a + 2 ^ i else a) 0
    s.putGroup job (Tensor.dirBase t + q) v.w (mapOf stored) (mapOf psn) bytes)) (some s)

/-! ### IMPORT and EXPORT -/

/-- The bus address of row `r` (R724). -/
def Layer.rowAddr (l : Desc) (r : Nat) : Nat := (Layer.xaddr l + r * Layer.xpitch l) % 2 ^ 64

/-- IMPORT: rows of packed elements in workstation memory become OUT (R724). -/
def State.importLayer (s : State) (job : BitVec 32) (g : GraphRec) (l : Desc) (t : Desc) : Option State :=
  let w := Tensor.stored t
  let row (r : Nat) : Nat := ofBytesLE (Memory.readBytes s.mem.wsMem (Layer.rowAddr l r) (ceilDiv (Tensor.klen t * w) 8))
  s.putTensor job t
    { w := w, bits := fun m k => row m / 2 ^ (k * w) % 2 ^ w, psn := fun _ _ => false,
      zero := s.zeroBits g (Layer.outT l) }

/-- EXPORT: IN goes to workstation memory, packed; absent blocks as their zero codes, as bits 0 in a 1-bit tensor (R724). Answers
whether a block read was poisoned. -/
def State.exportLayer (s : State) (g : GraphRec) (l : Desc) (t : Desc) : State × Bool :=
  let w := Tensor.stored t
  let ks := List.range (Tensor.klen t)
  let bits (m k : Nat) : Nat := ((s.storedElem t w m k).1.orElse (fun _ => s.zeroBits g (Layer.inT l) m k)).getD 0
  let row (m : Nat) : List Byte := bytesLE (ceilDiv (Tensor.klen t * w) 8) (ks.foldr (fun k a => bits m k + 2 ^ w * a) 0)
  let ms := List.range (Tensor.rows t)
  let x := ms.foldl (fun x m => Memory.writeBytes x (Layer.rowAddr l m) (row m)) s.mem.wsMem
  let y := (Tensor.dixs t).foldl (fun s d => s.dirAccess d) s
  ({ y with mem := { y.mem with wsMem := x } }, ms.any (fun m => ks.any (fun k => (s.storedElem t w m k).2)))

/-! ### Host layers (R284 to R289) -/

/-- The value of element (m, k) of a tensor that a host layer reads, and the poison of its block: codes stand for values as R138
defines, an absent block for zero codes (R190, R284), which a 1-bit tensor's product takes as 0. -/
def State.hostValue (s : State) (g : GraphRec) (i m k : Nat) : F32 × Bool :=
  match g.tensor i with
  | none => (0, false)
  | some t =>
    let x := s.storedElem t (Tensor.stored t) m k
    let v : F32 := match Tensor.form t with
      | 1 => BitVec.ofNat 32 (x.1.getD 0)
      | 2 => (logToF32 (l16ToLog (BitVec.ofNat 16 (x.1.getD 0x4000)))).1
      | _ =>
        let e := s.entryOf g i m k
        let sym := (s.tensorRec g i).elim false Rec.sym
        match x.1 with
        | some c => dequantValue e (codeValue (Tensor.width t) sym c)
        | none => if Tensor.width t = 1 then 0 else dequantValue e (Ent.zp e)
    (v, x.2)

/-- Row `m` of a tensor, one of a single row serving every row (Table 11-10). -/
def State.hostRow (s : State) (g : GraphRec) (i m : Nat) : List F32 :=
  let t := (g.tensor i).getD []
  (List.range (Tensor.klen t)).map (fun k => (s.hostValue g i (if Tensor.rows t = 1 then 0 else m) k).1)

/-- Element (m, n) of a host layer's output. The order and the functions of the harts' FP32 work are the driver's: free values of
the operands, which for an exact layer depend on nothing else (R288, R289; log 11). -/
def State.hostElem (s : State) (g : GraphRec) (l : Desc) (p : Word) (m n : Nat) : F32 :=
  let key := if Prec.exact p then 0 else s.free + 1
  match Layer.op l with
  | 1 => Config.hostSum key (((s.hostRow g (Layer.inT l) m)).zip (s.hostRow g (Layer.wgt l) n))
  | 2 => Config.hostLfu key (Layer.lfuOp l, Layer.rms l, Layer.eps l)
      [s.hostRow g (Layer.inT l) m, s.hostRow g (Layer.aux1 l) m, s.hostRow g (Layer.aux2 l) m] n
  | _ => (s.hostValue g (Layer.inT l) m n).1

/-- Some block that the element derives from is poisoned. -/
def State.hostPoison (s : State) (g : GraphRec) (l : Desc) (m n : Nat) : Bool :=
  let row (i m : Nat) : Bool := (List.range ((g.tensor i).elim 0 Tensor.klen)).any (fun k => (s.hostValue g i m k).2)
  match Layer.op l with
  | 1 => row (Layer.inT l) m || row (Layer.wgt l) n
  | 2 => row (Layer.inT l) m
  | _ => (s.hostValue g (Layer.inT l) m n).2

/-- A host layer writes OUT as an FP32 tensor in block form (R285), whatever form its descriptor states (log 27). -/
def State.hostLayer (s : State) (job : BitVec 32) (g : GraphRec) (l : Desc) (p : Word) (t : Desc) : Option State :=
  (s.putTensor job t
    { w := 32, bits := fun m n => (s.hostElem g l p m n).toNat, psn := s.hostPoison g l, zero := fun _ _ => some 0 }).map
    (·.useFree)

/-! ### The data of a completing layer -/

/-- The groups of a tensor whose entries R201 accepts for a stored width. -/
def State.readable (s : State) (t : Desc) (w : Nat) : Bool :=
  (Tensor.dixs t).all (fun d => Ent2.ok w (s.mem.entry d).1 (s.mem.entry d).2)

/-- What a layer's completion moves, and whether poison came with it; none while the layer has to wait: for the bus, which holds
the requests of IMPORT and EXPORT (R463), or for storage. A LINEAR layer of KLEN 0 frees its output groups (Table 11-12). -/
def State.layerData (s : State) (j : JobRec) (g : GraphRec) (p : Word) (l : Desc) : Option (State × Bool) :=
  let o := (g.tensor (Layer.outT l)).getD []
  let i := (g.tensor (Layer.inT l)).getD []
  if Layer.op l = 4 then if s.pcie.bme then (s.importLayer j.id g l o).map (fun s => (s, false)) else none
  else if Layer.op l = 5 then
    if s.pcie.bme && s.readable i (Tensor.stored i) then some (s.exportLayer g l i) else none
  else if Layer.op l = 1 ∧ Tensor.klen i = 0 then some ((Tensor.dixs o).foldl (fun s d => s.freeGroup d) s, false)
  else if Prec.hostLayer p then
    (s.hostLayer j.id g l p o).map (fun s' => (s', (List.range (Tensor.rows o)).any (fun m =>
      (List.range (Tensor.klen o)).any (s.hostPoison g l m))))
  else some (s, false)

end Sys2Proof.Machine
end

