-- ==== Sys2Proof/Machine/Driver.lean ====
section
/-! DEFINITION. The driver: submission entries (R383 to R402), jobs from start to end (R251, R389 to R392, R415 to R419),
layers (R169, R247, R720), completion entries (R490 to R492). The driver's own work on the harts is the commands'
effect; it places a job on the cells of its own device (R723; log 27). -/

namespace Sys2Proof.Machine

open Sys2Proof

/-! ### Submission entries -/

/-- ENABLED (Table 13-11, R489). -/
def Stream.enabled (q : Stream) : Bool := decide (q.sqSize ≠ 0 ∧ q.cqSize ≠ 0)

/-- The driver reads the entry at SQ_HEAD; while Bus Master Enable is 0 its fetch returns all ones, BMOFF is set, and it
must read again (R463). -/
def State.readEntry (s : State) (st : Nat) (f : State → State) : State :=
  let q := s.stream st
  if s.hostUp && q.enabled && decide (q.sqHead ≠ q.sqTail) then
    if s.pcie.bme then
      f (s.modStream st (fun q =>
        { q with sqHead := BitVec.ofNat 16 ((q.sqHead.toNat + 1) % q.sqSize.toNat), read := q.read + 1 }))
    else { s with evc := { s.evc with bmoff := true } }
  else s

/-- A JOB, REGISTER or RELEASE entry of the stream has not completed (R383). -/
def State.streamBusy (s : State) (st : Nat) : Bool :=
  s.drv.jobs.any (fun j => decide (j.stream = st) && !j.silent) || s.drv.adds.any (fun a => decide (a.1 = st)) ||
  (s.stream st).ready.any (fun x => decide (x.kind ≠ 2 ∧ x.kind ≠ 3)) ||
  s.drv.waits.any (fun w => decide (w.stream = st ∧ w.kind = 5))

/-! ### JOB -/

/-- The completion of an entry without a job (R413). A JOB's ledger states the class of its effective PREC words (R23, R409):
those of its graph, or of its PRECTAB where the graph is not known (DESIGN CHOICE, log 27). -/
def State.noJob (s : State) (st : Nat) (d : Desc) (prectab : List Word) (code : Code) (layer : BitVec 32) (killers : List Nat)
    (sigLost : Bool) : Completion :=
  let isJob := decide (d.kind = 1)
  let g? := s.drv.graphs.find? (fun g => decide (g.handle.toNat = d.f 1 31 0) && !g.released)
  let precs := g?.elim prectab (fun g => g.effective d prectab)
  { words := completionWords code (BitVec.ofNat 8 d.kind) st sigLost 0
      (if isJob then BitVec.ofNat 32 (d.f 1 63 32) else 0) (if isJob then BitVec.ofNat 32 (d.f 1 31 0) else 0) layer 0
      (if isJob then ({ exact := precs.all Prec.exact } : Ledger).words else noLedger),
    killers := killers }

/-- The entry completes at once, without a job (R389, R413). -/
def State.rejectJob (s : State) (st : Nat) (d : Desc) (prectab : List Word) (code : Code) (layer : BitVec 32) : State :=
  s.post st (s.noJob st d prectab code layer [] false)

/-- A JOB entry that a KILL matched before its turn never starts (R394). Where it would have been accepted and has SIG_V, it ends
with its ADD like any job (R392; log 27). -/
def State.killedEntry (s : State) (st : Nat) (d : Desc) (prectab : List Word) (killers : List Nat) : State :=
  let x := s.noJob st d prectab ccKilled noLayer killers
  let dev : BitVec 16 := BitVec.ofNat 16 (d.f 7 15 0)
  if d.bit 5 4 && (s.jobFault d prectab).isNone then
    if s.unreachable (UA.mk dev 0) then s.post st (x true)
    else (s.modDrv (fun v => { v with adds := v.adds ++ [(st, x false)] })).driverSync 0 dev (BitVec.ofNat 16 (d.f 5 63 48)) 2 true 1
      (BitVec.ofNat 32 (4 + st))
  else s.post st (x false)

/-- The job that an accepted entry makes (R387, R390). -/
def jobOf (id : BitVec 32) (st : Nat) (d : Desc) (precs : List Word) (cuts : List (Option (BitVec 16))) : JobRec :=
  { id := id, stream := st, appTag := BitVec.ofNat 32 (d.f 1 63 32), graph := BitVec.ofNat 32 (d.f 1 31 0),
    seed := d.getD 2 0, budget := d.getD 3 0, precs := precs, repro := d.bit 5 0, keyAll := d.bit 5 2,
    wait := if d.bit 5 3 then some (BitVec.ofNat 16 (d.f 5 31 16), BitVec.ofNat 16 (d.f 5 47 32), d.getD 6 0) else none,
    sig := if d.bit 5 4 then some (BitVec.ofNat 16 (d.f 7 15 0), BitVec.ofNat 16 (d.f 5 63 48)) else none,
    phase := if d.bit 5 3 then .waiting else .ready, cuts := cuts }

/-- The job is accepted: its identifier, and its WAIT_GE (R390, R391). -/
def State.acceptJob (s : State) (j : JobRec) : State :=
  let s := s.modDrv (fun v =>
    { v with jobs := v.jobs ++ [j], nextJob := if v.nextJob = 0xFFFFFFFF then 1 else v.nextJob + 1 })
  match j.wait with
  | some (dev, obj, value) => s.driverSync j.id dev obj 3 false value 1
  | none => s

/-- A JOB entry acts (R389); one that a KILL has matched never starts (R394). -/
def State.beginJob (s : State) (st : Nat) (d : Desc) (prectab : List Word) (killers : List Nat)
    (cuts : List (Option (BitVec 16))) : State :=
  if killers ≠ [] then s.killedEntry st d prectab killers
  else
    match s.jobFault d prectab with
    | some x => s.rejectJob st d prectab x.1 x.2
    | none =>
      let g? := s.drv.graphs.find? (fun g => decide (g.handle.toNat = d.f 1 31 0) && !g.released)
      s.acceptJob (jobOf s.drv.nextJob st d (g?.elim [] (fun g => g.effective d prectab)) cuts)

/-! ### REGISTER and RELEASE -/

/-- A REGISTER entry acts (R400, R401). -/
def State.beginRegister (s : State) (st : Nat) (d graph : Desc) (ts ls : List Desc) (room : Bool) : State :=
  let answer (code : Code) (handle layer : BitVec 32) : Completion :=
    { words := completionWords code 4 st false 0 0 handle layer 0 noLedger }
  match d.fault 0x04 8 true with
  | some c => s.post st (answer c 0 noLayer)
  | none =>
    match s.graphFault graph ts ls room with
    | some x => s.post st (answer x.1 0 x.2)
    | none =>
      let h := s.drv.nextHandle
      let s := s.modDrv (fun v =>
        { v with graphs := v.graphs ++ [⟨h, ts, ls, false⟩], nextHandle := if h = 0xFFFFFFFF then 1 else h + 1 })
      s.post st (answer ccOk h noLayer)

/-- A RELEASE entry acts (R402). -/
def State.beginRelease (s : State) (st : Nat) (d : Desc) : State :=
  let h : BitVec 32 := BitVec.ofNat 32 (d.f 1 31 0)
  let answer (code : Code) : Completion := { words := completionWords code 5 st false 0 0 h noLayer 0 noLedger }
  match d.fault 0x05 8 true with
  | some c => s.post st (answer c)
  | none =>
    if s.drv.graphs.any (fun g => decide (g.handle = h) && !g.released) then
      let w : EntryWait := ⟨s.drv.nextWait, st, 5, 0, h⟩
      (s.modDrv (fun v =>
        { v with graphs := v.graphs.map (fun (g : GraphRec) => if g.handle = h then { g with released := true } else g),
                 waits := v.waits ++ [w], nextWait := v.nextWait + 1 })).settle
    else s.post st (answer ccEmpty)

/-! ### Order within a stream (R383) -/

/-- An entry of the driver's queue acts. -/
def State.begin (s : State) (q : QEntry) : State :=
  match q.cmd with
  | .jobEntry _ d prectab => s.beginJob q.stream d prectab q.killers q.cuts
  | .registerEntry _ d g ts ls room => s.beginRegister q.stream d g ts ls room
  | .releaseEntry _ d => s.beginRelease q.stream d
  | _ => s

/-- The first entry that waits on the stream acts once the one before it has completed. -/
def State.nextEntry (s : State) (st : Nat) : State :=
  if s.streamBusy st then s else
  match s.drv.queue.find? (fun q => decide (q.stream = st)) with
  | none => s
  | some q => (s.modDrv (fun v => { v with queue := v.queue.erase q })).begin q

/-- A JOB, REGISTER or RELEASE entry is read: it acts, or waits for those before it. -/
def State.sequential (s : State) (st : Nat) (c : Instr) : State :=
  s.readEntry st (fun s =>
    (s.modDrv (fun v => { v with queue := v.queue ++ [{ stream := st, cmd := c }] })).nextEntry st)

/-- JOB_ENTRY, and entries of an invalid KIND, which fail check 4 (R379, R380). -/
def execJobEntry (st : Fin 8) (entry : List Word) (prectab : List Word) (s : State) : Out :=
  .next (if Desc.kind entry = 2 ∨ Desc.kind entry = 3 ∨ Desc.kind entry = 4 ∨ Desc.kind entry = 5 then s
    else s.sequential st.val (.jobEntry st (entry.take 8) prectab))

/-- The lengths of the fetched arrays are those that a well-formed GRAPH descriptor states. -/
def graphLengths (g : Desc) (ts ls : List Desc) : Bool :=
  (g.fault 0x30 8 false).isSome || decide (ts.length = g.f 1 31 0 ∧ ls.length = g.f 1 63 32)

def execRegisterEntry (st : Fin 8) (entry graph : List Word) (tensors layers : List (List Word)) (room : Bool) (s : State) :
    Out :=
  .next (onlyIf (decide (Desc.kind entry = 4) && graphLengths graph tensors layers) s
    (·.sequential st.val (.registerEntry st (entry.take 8) graph tensors layers room)))

def execReleaseEntry (st : Fin 8) (entry : List Word) (s : State) : Out :=
  .next (onlyIf (decide (Desc.kind entry = 5)) s (·.sequential st.val (.releaseEntry st (entry.take 8))))

/-! ### KILL and CUT entries (R384, R393 to R398) -/

/-- The entry matches an APPTAG (Table 11-6). -/
def matchesTag (d : Desc) (tag : BitVec 32) : Bool := d.bit 1 32 || decide (tag.toNat = d.f 1 31 0)

/-- A queued JOB entry that a KILL or CUT matches. -/
def QEntry.hit (q : QEntry) (st : Nat) (d : Desc) : Bool :=
  match q.cmd with
  | .jobEntry _ e _ => decide (q.stream = st ∧ Desc.kind e = 1) && matchesTag d (BitVec.ofNat 32 (Desc.f e 1 63 32))
  | _ => false

def JobRec.hit (j : JobRec) (st : Nat) (d : Desc) : Bool := decide (j.stream = st) && !j.silent && matchesTag d j.appTag

/-- A job's completion that is not yet written. -/
def Completion.hit (x : Completion) (d : Desc) : Bool := decide (x.kind = 1) && matchesTag d x.appTag

/-- The entry matches some job of its stream that has not completed (R393). -/
def State.anyHit (s : State) (st : Nat) (d : Desc) : Bool :=
  s.drv.jobs.any (·.hit st d) || s.drv.queue.any (·.hit st d) || (s.stream st).ready.any (·.hit d) ||
  s.drv.adds.any (fun a => decide (a.1 = st) && a.2.hit d)

/-- A KILL entry (R394, R396). -/
def State.killEntry (s : State) (st : Nat) (d : Desc) : State :=
  let tag : BitVec 32 := BitVec.ofNat 32 (d.f 1 31 0)
  let answer (code : Code) : Completion := { words := completionWords code 2 st false 0 tag 0 noLayer 0 noLedger }
  match d.fault 0x02 8 true with
  | some c => s.post st (answer c)
  | none =>
    if !s.anyHit st d then s.post st (answer ccEmpty) else
    let k := s.drv.nextWait
    let hit := s.drv.jobs.filter (·.hit st d)
    let w : EntryWait := ⟨k, st, 2, tag, 0⟩
    let s := s.modDrv (fun v =>
      { v with jobs := v.jobs.map (fun (j : JobRec) => if j.hit st d then { j with killers := j.killers ++ [k] } else j),
               adds := v.adds.map (fun a =>
                 if decide (a.1 = st) && a.2.hit d then (a.1, { a.2 with killers := a.2.killers ++ [k] }) else a),
               queue := v.queue.map (fun (q : QEntry) => if q.hit st d then { q with killers := q.killers ++ [k] } else q),
               waits := v.waits ++ [w], nextWait := k + 1 })
    let s := s.modStream st (fun q =>
      { q with ready := q.ready.map (fun (x : Completion) => if x.hit d then { x with killers := x.killers ++ [k] } else x) })
    hit.foldl (fun s j => (s.drv.job? j.id).elim s s.killJob) s

def execKillEntry (st : Fin 8) (entry : List Word) (s : State) : Out :=
  .next (onlyIf (decide (Desc.kind entry = 2)) s (fun s => s.readEntry st.val (fun s => s.killEntry st.val (entry.take 8))))

/-- A cut of a running job at the device: every cell records it, so that tiles not yet begun are cut too (R252, R397). -/
def State.cutDevice (s : State) (job : BitVec 32) (scope : Option (BitVec 16)) : State :=
  s.modCells (List.range 512) (fun x => x.recordCut ⟨job, scope⟩)

/-- A CUT entry (R397). -/
def State.cutEntry (s : State) (st : Nat) (d : Desc) : State :=
  let tag : BitVec 32 := BitVec.ofNat 32 (d.f 1 31 0)
  let answer (code : Code) : Completion := { words := completionWords code 3 st false 0 tag 0 noLayer 0 noLedger }
  match d.fault 0x03 8 true with
  | some c => s.post st (answer c)
  | none =>
    if !s.anyHit st d then s.post st (answer ccEmpty) else
    let scope : Option (BitVec 16) := if d.bit 1 33 then some (BitVec.ofNat 16 (d.f 2 31 0)) else none
    let named := decide (scope = none ∨ d.f 2 31 0 < 2 ^ 16)
    let run := s.drv.jobs.filter (fun j => j.hit st d && decide (j.phase = .running))
    let s := if named then s.modDrv (fun v =>
        { v with
          jobs := v.jobs.map (fun (j : JobRec) => if j.hit st d then { j with cuts := j.cuts ++ [scope] } else j),
          queue := v.queue.map (fun (q : QEntry) => if q.hit st d then { q with cuts := q.cuts ++ [scope] } else q) })
      else s
    let s := if named then run.foldl (fun s j => s.cutDevice j.id scope) s else s
    s.post st (answer ccOk)

def execCutEntry (st : Fin 8) (entry : List Word) (s : State) : Out :=
  .next (onlyIf (decide (Desc.kind entry = 3)) s (fun s => s.readEntry st.val (fun s => s.cutEntry st.val (entry.take 8))))

/-! ### Jobs -/

/-- JOB_START: a ready job starts; its budget runs, and cuts recorded before act (R391, R397). -/
def State.startJob (s : State) (j : JobRec) : State :=
  let s := s.setJob { j with phase := .running, start := s.timeHost, startRun := s.runTime }
  j.cuts.foldl (fun s k => s.cutDevice j.id k) s

def execJobStart (job : BitVec 32) (s : State) : Out :=
  .next (match s.drv.job? job with
    | some j => onlyIf (s.hostUp && decide (j.phase = .ready)) s (·.startJob j)
    | none => s)

/-- BUDGET_EXPIRY (R251); the time leaves out what a freeze held (R631). -/
def execBudgetExpiry (job : BitVec 32) (s : State) : Out :=
  .next (match s.drv.job? job with
    | some j => onlyIf (s.hostUp && decide (j.phase = .running ∧ j.budget ≠ 0) && !j.expired &&
        decide (j.budget.toNat ≤ (s.runTime - j.startRun).toNat)) s
        (fun s => (s.setJob { j with expired := true }).cutDevice job none)
    | none => s)

def State.graphOf (s : State) (j : JobRec) : Option GraphRec := s.drv.graphs.find? (fun g => decide (g.handle = j.graph))

/-- JOB_END: every layer of a running job has completed (R392). -/
def execJobEnd (job : BitVec 32) (s : State) : Out :=
  .next (match s.drv.job? job with
    | some j => onlyIf (s.hostUp && decide (j.phase = .running) &&
        (s.graphOf j).elim false (fun g => (List.range g.layers.length).all (fun i => decide (i ∈ j.done)))) s (·.endJob j)
    | none => s)

/-- A code that stops a job (R416, R417). -/
def failureCode (code : Code) : Bool := stops code && decide (code ≠ ccKilled)

/-- JOB_FAILURE: the first failure that the driver records stands, and the job's units are killed (R416). -/
def execJobFailure (job : BitVec 32) (layer : BitVec 32) (code : BitVec 8) (s : State) : Out :=
  .next (match s.drv.job? job with
    | some j => onlyIf (s.hostUp && failureCode code && decide (j.phase = .waiting ∨ j.phase = .ready ∨ j.phase = .running)) s
        (fun s => s.killJob { j with fail := some (code, layer) })
    | none => s)

/-! ### Layers -/

/-- The layer of a running job, its graph, its effective PREC word and its descriptor, while it has not completed and every lower
layer that could tell has (R407). -/
def State.openLayer (s : State) (job : BitVec 32) (layer : BitVec 16) : Option (JobRec × GraphRec × Word × Desc) :=
  (s.drv.job? job).bind (fun j =>
    if j.phase = .running ∧ layer.toNat ∉ j.done then
      (s.graphOf j).bind (fun g =>
        if j.mayRun g layer.toNat then g.layers[layer.toNat]?.map (fun l => (j, g, j.precs.getD layer.toNat 0, l)) else none)
    else none)

/-- DELTA_CAP16 of the device (Table 7-8). -/
def State.deltaCap (s : State) : Nat := (s.cell 0).deltaCap.toNat

/-- Every tile of the frame is a key tile (R243). -/
def State.keyAll (s : State) (j : JobRec) (l : Desc) (p : Word) (d : DeltaRef) : Bool :=
  let m := s.mem.mem
  !(Memory.readWord m d.base).getLsbD 0 || Layer.keyReq l || j.keyAll || decide (Prec.keyint p = 0) ||
  (List.range (1 + d.entries)).any (fun i => decide (s.recWord d.rec_ i ≠ Memory.readWord m (d.base + 16 + 8 * i)))

/-- Tile `t` of the frame is a key tile by its reference ledger (R243). -/
def State.keyTile (s : State) (p : Word) (d : DeltaRef) (t : Nat) : Bool :=
  let lo := Memory.readWord s.mem.mem (d.ledger t)
  let frames := fld (Memory.readWord s.mem.mem (d.ledger t + 8)) 23 0
  decide (2 ^ Prec.keyint p ≤ frames + 1 ∨ s.deltaCap < lo.toNat)

/-- DELTA_LAYER_BEGIN: the header is read, the frame's tiles are decided, VALID is cleared (R243, R247). -/
def State.beginDelta (s : State) (j : JobRec) (g : GraphRec) (p : Word) (l : Desc) (layer : BitVec 16) : State :=
  let d := s.deltaRef g l
  let all := s.keyAll j l p d
  let keys := if all then [] else (List.range d.tiles).filter (s.keyTile p d)
  let f : DeltaFrame := ⟨j.id, layer, all, keys⟩
  { s with drv := { s.drv with frames := s.drv.frames ++ [f] },
           mem := { s.mem with mem := Memory.writeWord s.mem.mem d.base 0 } }

def execDeltaLayerBegin (job : BitVec 32) (layer : BitVec 16) (s : State) : Out :=
  .next (match s.openLayer job layer with
    | some (j, g, p, l) => onlyIf (s.hostUp && decide (Layer.op l = 1) && Prec.delta p &&
        !s.drv.frames.any (fun f => decide (f.job = job ∧ f.layer = layer))) s (·.beginDelta j g p l layer)
    | none => s)

/-- Words written from a device byte address up. -/
def State.writeDev (s : State) (a : Nat) (l : List Word) : State :=
  { s with mem := { s.mem with mem := Memory.writeWords s.mem.mem a l } }

/-- The header word of a record with its CARRY bit set to a value (R720). -/
def Rec.withCarry (h : Word) (b : Bool) : Word := if b then h ||| 8 else h &&& ~~~(8 : Word)

/-- What a completing layer writes of its output record and carried record: entries made for SCALE_MODE 0b00; for 0b01 the entries
used, those of the carried record as it was latched where it exists, and the carried record (R165, R169, R720). The entries that
cells of this device made or adapted (R149, R167) stand over the operands, which tell those that other units made. -/
def State.writeRecords (s : State) (job : BitVec 32) (layer : BitVec 16) (g : GraphRec) (p : Word) (l : Desc)
    (record carried : List Word) : State :=
  match g.tensor (Layer.outT l) with
  | none => s
  | some t =>
    if !g.converts l || Prec.hostLayer p then s else
    let a := Tensor.srec t
    let h := s.recWord a 0
    let made := (s.convOf job layer).made
    let merge (r : List Word) : List Word := (List.range r.length).map (fun i => (SMap.get? made i).getD (r.getD i 0))
    if Prec.scaleMode p = 0 then s.writeDev (64 * a) (Rec.withCarry h false :: merge record)
    else if Prec.scaleMode p = 1 then
      let used := (s.carriedRec job layer g l).elim (merge record) (List.drop 1)
      (s.writeDev (64 * a) (Rec.withCarry h true :: used)).writeDev (64 * Layer.carry l) (Rec.withCarry h true :: merge carried)
    else s

/-- A completed DELTA layer writes XDIRBASE and the record copy and sets VALID (R247). -/
def State.endDelta (s : State) (g : GraphRec) (l : Desc) : State :=
  let d := s.deltaRef g l
  let x := (g.tensor (Layer.inT l)).elim 0 Tensor.dirBase
  let copy := (List.range (1 + d.entries)).map (s.recWord d.rec_)
  (s.writeDev (d.base + 8) (BitVec.ofNat 64 x :: copy)).writeDev d.base [1]

/-- The tile ledgers of a layer reach its ledger area and the job's summary (R265, R408, R418, R419). -/
def State.writeLedgers (s : State) (l : Desc) (ledgers : List Ledger) : State :=
  let m := Memory.writeBytes s.mem.mem (64 * Layer.ledger l) (ledgers.flatMap (·.stored))
  if Layer.ledgerV l then { s with mem := { s.mem with mem := m } } else s

/-- The operands that the layer's tile programs leave have the lengths of its shape: one ledger to a tile, one word to an
entry. A host layer has none. -/
def State.layerFits (s : State) (g : GraphRec) (p : Word) (l : Desc) (record carried : List Word)
    (ledgers : List (List Payload)) : Bool :=
  let e := (s.tensorRec g (Layer.outT l)).elim 0 Rec.entries
  Prec.hostLayer p ||
  (decide (ledgers.length = if Layer.op l = 5 then 0 else (g.tensor (Layer.outT l)).elim 0 Tensor.tiles) &&
   (!g.converts l || decide (Prec.scaleMode p = 2 ∨ record.length = e)) &&
   (!g.converts l || decide (Prec.scaleMode p ≠ 1 ∨ carried.length = e)))

/-- The layer has nothing to do: an output without elements, or, in LINEAR, an input without (Table 11-12). -/
def GraphRec.empty (g : GraphRec) (l : Desc) : Bool :=
  let none? (t : Option Desc) : Bool := t.elim false (fun t => decide (Tensor.rows t = 0 ∨ Tensor.klen t = 0))
  (decide (Layer.op l ≠ 5) && none? (g.tensor (Layer.outT l))) || (decide (Layer.op l = 5) && none? (g.tensor (Layer.inT l))) ||
  (decide (Layer.op l = 1) && (g.tensor (Layer.inT l)).elim false (fun t => decide (Tensor.klen t = 0)))

/-- The ledgers of a layer's tiles: those of a host layer are item 0 alone (R287). -/
def GraphRec.ledgers (g : GraphRec) (p : Word) (l : Desc) (given : List (List Payload)) : List Ledger :=
  if Prec.hostLayer p then
    List.replicate (if Layer.op l = 5 then 0 else (g.tensor (Layer.outT l)).elim 0 Tensor.tiles) { exact := Prec.exact p }
  else given.map Ledger.ofItems

/-- The code of a layer: the driver's, with what its ledgers show: a cut tile, a poisoned tile (R128, R258, R415); `psn` tells that
the layer's data in storage are poisoned. -/
def layerCode (code : Code) (psn : Bool) (ls : List Ledger) : Code :=
  combineCodes ([code] ++ (if ls.any (·.kerfed) then [ccKerfed] else []) ++ (if psn || ls.any (·.poison) then [ccPoison] else []))

/-- LAYER_COMPLETE with OK, OK_EMPTY, OK_KERFED or OK_POISON (R169, R170, R247, R415, R418, R419). -/
def State.layerDone (s : State) (j : JobRec) (g : GraphRec) (p : Word) (l : Desc) (layer : BitVec 16) (code : Code)
    (psn : Bool) (record carried : List Word) (given : List (List Payload)) : State :=
  let ls := g.ledgers p l given
  let code := if g.empty l then ccEmpty else layerCode code psn ls
  let s := if code = ccEmpty then s
    else
      let s := s.writeRecords j.id layer g p l record carried
      if decide (Layer.op l = 1) && Prec.delta p then s.endDelta g l else s
  let s := s.writeLedgers l ls
  let s := { s with conv := s.conv.filter (fun k => decide (¬ (k.job = j.id ∧ k.layer = layer))) }
  let s := s.modDrv (fun v =>
    { v with frames := v.frames.filter (fun f => decide (¬ (f.job = j.id ∧ f.layer = layer))) })
  s.setJob { j with done := j.done ++ [layer.toNat], codes := j.codes ++ [code], elapsed := s.timeHost - j.start,
                    ledger := ls.foldl Ledger.fold j.ledger }

/-- The layer waits for storage, or for the bus (R463), where its data cannot move. -/
def execLayerComplete (job : BitVec 32) (layer : BitVec 16) (code : BitVec 8) (record carried : List Word)
    (ledgers : List (List Payload)) (s : State) : Out :=
  .next (match s.openLayer job layer with
    | some (j, g, p, l) =>
      onlyIf (s.hostUp && decide (code.toNat ≤ 3) && s.layerFits g p l record carried ledgers) s (fun s =>
        match s.layerData j g p l with
        | some (s, psn) => s.layerDone j g p l layer code psn record carried ledgers
        | none => s)
    | none => s)

/-! ### Completion entries (R490 to R492) -/

/-- The stream's vector is sent (R491, R494). -/
def State.signal (s : State) (st : Nat) : State :=
  (s.modStream st (fun q => { q with unsig := 0, firstAt := none })).vector (s.stream st).vec.toNat

/-- A write of CQ_PUBLISH: the entries up to the new tail are published; the vector is sent once COAL_CNT of them are not
yet signalled (R490, R491, R495). -/
def State.publish (s : State) (st : Nat) (v : BitVec 16) : State :=
  let q := s.stream st
  let n := (v.toNat + q.cqSize.toNat - q.cqTail.toNat) % q.cqSize.toNat
  let s := s.modStream st (fun q =>
    { q with cqTail := v, published := q.published + BitVec.ofNat 64 n, unsig := q.unsig + n,
             firstAt := if q.firstAt.isNone ∧ n ≠ 0 then some s.runTime else q.firstAt })
  if q.coalCnt.toNat ≤ q.unsig + n then s.signal st else s

/-- Bytes of words, least significant first. -/
def wordBytes (l : List Word) : List Byte := l.flatMap (fun w => bytesLE 8 w.toNat)

/-- The entry goes into slot CQ tail, words 1 to 15 before word 0 with PHASE, and is published; the entries and jobs that
wait for it go on. -/
def State.writeEntry (s : State) (st : Nat) (x : Completion) : State :=
  let q := s.stream st
  let a := (q.cqBase.toNat + 128 * q.cqTail.toNat) % 2 ^ 64
  let w0 := x.words.getD 0 0 + BitVec.ofNat 64 (b2n q.phase * 2 ^ 63)
  let m := Memory.writeBytes s.mem.wsMem (a + 8) (wordBytes (x.words.drop 1))
  let s := { s with mem := { s.mem with wsMem := Memory.writeBytes m a (wordBytes [w0]) } }
  let next := (q.cqTail.toNat + 1) % q.cqSize.toNat
  let s := s.modStream st (fun q =>
    { q with ready := q.ready.drop 1, phase := if next = 0 then !q.phase else q.phase, cqfull := false, roomwait := false })
  ((s.publish st (BitVec.ofNat 16 next)).settle).nextEntry st

/-- The completion queue is full (R492). -/
def Stream.full (q : Stream) : Bool := decide ((q.cqTail.toNat + 1) % q.cqSize.toNat = q.cqHead.toNat)

/-- COMPLETION_ENTRY_WRITE: the first completion that waits on the stream; with no room CQFULL and ROOMWAIT are set; while
Bus Master Enable is 0 the stores are discarded and BMOFF is set (R463). -/
def State.completionWrite (s : State) (st : Nat) (x : Completion) : State :=
  let q := s.stream st
  if q.full then
    let s' := s.modStream st (fun q => { q with cqfull := true, roomwait := true })
    if q.cqfull then s' else s'.fireStatus srcStream
  else if !s.pcie.bme then { s with evc := { s.evc with bmoff := true } }
  else s.writeEntry st x

def execCompletionEntryWrite (st : Fin 8) (s : State) : Out :=
  .next (match (s.stream st.val).ready with
    | x :: _ => onlyIf (s.hostUp && (s.stream st.val).enabled) s (·.completionWrite st.val x)
    | [] => s)

end Sys2Proof.Machine
end

