-- ==== Sys2Proof/Machine/HostDie.lean ====
section
/-! DEFINITION. The host die: its message port (R465 to R470), the event controller's registers (R471 to R484), the
workstation window (R462, R463), the streams' registers (R487 to R493) and the PCIe endpoint (R473, R486, R494). -/

namespace Sys2Proof.Machine

open Sys2Proof

def State.modHart (s : State) (h : Nat) (f : Hart → Hart) : State := s.modEvc (·.modHart h f)

/-! ### The host message port -/

/-- SENDERR is set (R466, R468, Table 13-6). -/
def State.sendErr (s : State) (h : Nat) : State := (s.modHart h (fun k => { k with sendErr := true })).fireStatus srcSend

/-- One message leaves the port over the UCIe module of the die it goes to (R45), or stands in HIQ with its header as it was
but for BOUNCED and CODE when its DEST is not canonical (R59, R465, R467). -/
def State.portSend (s : State) (m : Msg) : State :=
  let m := { m with src := s.devAddr }
  if UA.canonical m.dest then { s with net := s.net.crossHost (UA.digit m.dest 1 % 2) true (s.net.hostWay m) m.items }.sendMsg m
  else (s.fireStatus srcHostBadDesc).toHiq { m with bounced := true, code := ccBadDesc }

/-- The messages of the items, in order; where too few items remain for the next one, it stops with SENDERR (R465,
R466). -/
def State.portSendAll (s : State) (h : Nat) : Nat → List Payload → State
  | 0, _ => s
  | _ + 1, [] => s
  | fuel + 1, l =>
    let n := 2 + fld (l.getD 1 0) 79 64
    if l.length < n then s.sendErr h
    else
      match Msg.ofItems ((l.take n).map (fun p => ⟨false, 0, p⟩)) with
      | none => s.sendErr h
      | some m => (s.portSend m).portSendAll h fuel (l.drop n)

/-- The populated regions of the harts' memory map (Table 13-2, R457). -/
inductive HostRegion where
  | bootRom | events | hostIo | carveOut | devCached | devUncached | window
deriving DecidableEq, Repr

/-- The region in which a hart's address lies; none: the access faults on the hart and reaches no agent (R456). -/
def State.hostRegion (s : State) (a : Nat) : Option HostRegion :=
  if a < 0x20000 then some .bootRom
  else if 0x10000000 ≤ a ∧ a < 0x10020000 then some .events
  else if 0x10020000 ≤ a ∧ a < 0x11000000 then some .hostIo
  else if 0x1000000000 ≤ a ∧ a < 0x1000000000 + s.mem.carveGib * 2 ^ 30 then some .carveOut
  else if 0x1000000000000 ≤ a ∧ a < 0x1000000000000 + s.mem.bytes then some .devCached
  else if 0x1400000000000 ≤ a ∧ a < 0x1400000000000 + s.mem.bytes then some .devUncached
  else if 0x2000000000000 ≤ a ∧ a < 0x4000000000000 then some .window
  else none

/-- The address lies in the carve-out (R466). -/
def State.inCarveOut (s : State) (a : BitVec 50) : Bool := decide (s.hostRegion a.toNat = some .carveOut)

/-- EVC_SEND_GO by hart `h`, after a write of `addr` to EVC_SEND_ADDR, the carve-out holding the items from there (R465 to
R469). BUSY is 1 from the send to the next tick, and a GO then is ignored (R468; log 28). An address whose bits [3:0] are not zero
gives SENDERR as R466 says, though those bits are reserved and read zero (R6, R8; DESIGN CHOICE, log 28). -/
def State.sendGo (s : State) (h : Nat) (addr : BitVec 50) (count : Nat) (items : List Payload) : State :=
  let busy := (s.evc.hart h).busy
  let s := s.modHart h (fun k => { k with sendAddr := addr &&& ~~~(0xF : BitVec 50) })
  if busy then s.sendErr h
  else if count = 0 then s
  else if addr.toNat % 16 ≠ 0 ∨ ¬ s.inCarveOut addr then s.sendErr h
  else (s.modHart h (fun k => { k with busy := true })).portSendAll h (count + 1) (sliceD items 0 count 0)

/-- EVC_SEND_GO; `w1c` writes 1 to SENDERR before (R5). -/
def execEvcSendGo (h : Fin 16) (addr : BitVec 50) (count : BitVec 32) (items : List Payload) (w1c : Bool) (s : State) : Out :=
  .next (onlyIf s.hostUp s (fun s =>
    (s.modHart h.val (fun k => { k with sendErr := k.sendErr && !w1c })).sendGo h.val addr count.toNat items))

/-- EVC_HIQ_POP by hart `h`: the low half is the read's answer, the high half stands in EVC_HIQ_HI (R470); items that
waited before HIQ enter it (R343). -/
def State.hiqPop (s : State) (h : Nat) : State :=
  let r := Queue.pop 0 s.runTime s.evc.hiq
  let s := s.modEvc (fun e => { e with hiq := r.2 })
  (s.modHart h (fun k => { k with hiqHi := (QItem.words r.1).2 })).hiqFill []

def execEvcHiqPop (h : Fin 16) (s : State) : Out := .next (onlyIf s.hostUp s (·.hiqPop h.val))

/-! ### Event controller registers (Table 13-8) -/

def execEvcClaim (h : Fin 16) (s : State) : Out := .next (onlyIf s.hostUp s (·.modEvc (fun e => (e.claim h.val).2)))

/-- EVC_COMPLETE; `w1c` writes 1 to BADCOMP before (R5, Table 13-9). -/
def execEvcComplete (h : Fin 16) (id : BitVec 13) (w1c : Bool) (s : State) : Out :=
  .next (onlyIf s.hostUp s (·.modEvc (fun e =>
    (e.modHart h.val (fun k => { k with badcomp := k.badcomp && !w1c })).complete h.val id.toNat)))

/-- PRIO and TARGETS of a source or group (Table 13-10); a routing pass (R480). -/
def Evc.setSource (e : Evc) (id : Nat) (v : Word) : Evc :=
  (e.modSrc id (fun x => { x with prio := BitVec.ofNat 4 (fld v 3 0), targets := BitVec.ofNat 16 (fld v 23 8) })).pass

def execEvcSrcWrite (n : BitVec 12) (v : Word) (s : State) : Out :=
  .next (onlyIf (s.hostUp && decide (n ≠ 0)) s (·.modEvc (·.setSource n.toNat v)))

def execEvcSgrpWrite (g : Fin 64) (v : Word) (s : State) : Out :=
  .next (onlyIf s.hostUp s (·.modEvc (·.setSource (0x1000 + g.val) v)))

def execEvcThreshWrite (h : Fin 16) (v : Word) (s : State) : Out :=
  .next (onlyIf s.hostUp s (·.modEvc (fun e => (e.modHart h.val (fun k => { k with thresh := BitVec.ofNat 4 (fld v 3 0) })).pass)))

def execEvcHartCtlWrite (h : Fin 16) (v : Word) (s : State) : Out :=
  .next (onlyIf s.hostUp s (·.modEvc (fun e =>
    (e.modHart h.val (fun k => { k with online := v.getLsbD 0, machine := v.getLsbD 1 })).pass)))

/-- A write of EVC_SMASK: an already pending bit that becomes enabled fires the group (R475). -/
def Evc.setMask (e : Evc) (g : Nat) (v : Word) : Evc :=
  let new := SMap.getD e.spend g 0 &&& v &&& ~~~(SMap.getD e.smask g 0)
  let e := { e with smask := SMap.set e.smask g v }
  (if new = 0 then e else e.fire (0x1000 + g)).pass

def execEvcSmaskWrite (g : Fin 64) (v : Word) (s : State) : Out := .next (onlyIf s.hostUp s (·.modEvc (·.setMask g.val v)))

/-- A read of EVC_SPEND returns and clears the pending bits (R476). -/
def execEvcSpendRead (g : Fin 64) (s : State) : Out :=
  .next (onlyIf s.hostUp s (·.modEvc (fun e => { e with spend := SMap.set e.spend g.val 0 })))

def execEvcSwfire (v : Word) (s : State) : Out :=
  .next (onlyIf (s.hostUp && decide (64 ≤ fld v 11 0)) s (·.fire (fld v 11 0)))

def execEvcMsixSend (v : Word) (s : State) : Out :=
  .next (onlyIf (s.hostUp && decide (8 ≤ fld v 5 0)) s (·.vector (fld v 5 0)))

/-- A job-class source that never fires (Table 13-4). -/
def neverFires (id : Nat) : Bool := decide ((12 ≤ id ∧ id ≤ 15) ∨ (48 ≤ id ∧ id ≤ 63))

/-- SOURCE_FIRE: a group fires for an enabled pending member only (R475). -/
def execSourceFire (id : BitVec 13) (s : State) : Out :=
  let n := id.toNat
  .next (onlyIf (s.up && evIdOk n && !neverFires n &&
    (decide (n < 0x1000) || decide (SMap.getD s.evc.spend (n - 0x1000) 0 &&& SMap.getD s.evc.smask (n - 0x1000) 0 ≠ 0))) s
    (·.fire n))

/-- STATUS_SOURCE_FIRE: sources 3,599 and above never fire (Table 13-6). -/
def execStatusSourceFire (n : BitVec 12) (s : State) : Out :=
  .next (onlyIf (s.up && decide (n.toNat < 3599)) s (·.fireStatus n.toNat))

/-- TIMER_FIRE: `armed` is what the driver wrote to EVC_TMR_t before; the timer fires when the local time has reached it,
leaving out frozen time as R631 says by not acting in a freeze (Table 13-8). -/
def State.timerFire (s : State) (t : Nat) (armed : Option Word) : State :=
  let s := match armed with
    | some v => s.modEvc (fun e => { e with timers := SMap.put e.timers t v 0 })
    | none => s
  let v := SMap.getD s.evc.timers t 0
  if v ≠ 0 ∧ v.toNat ≤ s.timeHost.toNat then
    (s.modEvc (fun e => { e with timers := SMap.put e.timers t 0 0 })).fire (16 + t)
  else s

def execTimerFire (t : Fin 32) (armed : Option Word) (s : State) : Out :=
  .next (onlyIf (s.up && !s.frozen) s (·.timerFire t.val armed))

/-! ### The workstation window (R462, R463) -/

def State.setBase (s : State) (base : Option Word) : State :=
  match base with
  | some b => s.modEvc (fun e => { e with obBase := b })
  | none => s

/-- A hart's access to the workstation window. What a load returns is the workstation's; a store is what the device
writes. While Bus Master Enable is 0 neither reaches it, and BMOFF is set. An offset past the window names
an address outside every region: the access faults on the hart and changes nothing here (R456). -/
def State.windowAccess (s : State) (a : WsAccess) : State :=
  if s.hostRegion (0x2000000000000 + a.offset.toNat) ≠ some .window then s
  else if !s.pcie.bme then s.modEvc (fun e => { e with bmoff := true })
  else
    match a with
    | .load _ _ _ => s
    | .store offset data =>
      let m := Memory.writeBytes s.mem.wsMem (s.evc.obBase + offset).toNat data
      { s with mem := { s.mem with wsMem := m } }

/-- A write of `v` to EVC_GSTAT clears BMOFF and FLR where it writes 1 (R5, Table 13-8). -/
def Evc.clearGstat (e : Evc) (v : BitVec 2) : Evc :=
  { e with bmoff := e.bmoff && !v.getLsbD 0, flr := e.flr && !v.getLsbD 1 }

/-- WORKSTATION_WINDOW_ACCESS, after the writes that the driver made to EVC_OB_BASE and EVC_GSTAT. -/
def execWorkstationWindowAccess (h : Fin 16) (base : Option Word) (w1c : BitVec 2) (a : WsAccess) (s : State) : Out :=
  .next (onlyIf (s.hostUp && decide (h.val < 16)) s (fun s =>
    ((s.setBase base).modEvc (·.clearGstat w1c)).windowAccess a))

/-! ### Streams (R486 to R493) -/

/-- A write through a BAR: served at once, or during a full freeze with its effect at thaw (Table 18-5). -/
def State.barWrite (s : State) (i : BarOp) (f : State → State) : State :=
  if !s.up || s.pinsHeld 0 then s
  else if s.dbg.fullFrozen then { s with dbg := { s.dbg with barWait := s.dbg.barWait ++ [i] } }
  else f s

/-- A doorbell fires its source; in a freeze at thaw (R646). -/
def State.doorbell (s : State) (id : Nat) : State :=
  if s.frozen then { s with dbg := { s.dbg with doorWait := s.dbg.doorWait ++ [BitVec.ofNat 13 id] } } else s.fire id

/-- DBERR is set and STREAM fires (R489). -/
def State.doorbellError (s : State) (st : Nat) : State :=
  (s.modStream st (fun q => { q with dberr := true })).fireStatus srcStream

def State.sqTail (s : State) (st : Nat) (v : BitVec 16) : State :=
  let q := s.stream st
  if !q.enabled then s
  else if q.sqSize.toNat ≤ v.toNat then s.doorbellError st
  else (s.modStream st (fun q => { q with sqTail := v })).doorbell (1 + st)

/-- A write of `v` to bits [3:0] of a stream's register 0x048 clears DBERR and CFGERR where it writes 1 (R5, Table 13-11). -/
def State.clearStream (s : State) (st : Nat) (v : BitVec 4) : State :=
  s.modStream st (fun q => { q with dberr := q.dberr && !v.getLsbD 1, cfgerr := q.cfgerr && !v.getLsbD 2 })

/-- SQ_TAIL, after a write of `w1c` to the stream's register of flags. -/
def execSqTail (st : Fin 8) (v : BitVec 16) (w1c : BitVec 4) (s : State) : Out :=
  .next (s.barWrite (.sqTail st v w1c) (fun s => (s.clearStream st.val w1c).sqTail st.val v))

/-- CQ_HEAD: it makes room, and fires the stream's source while ROOMWAIT is 1 (R492, Table 13-4). -/
def State.cqHead (s : State) (st : Nat) (v : BitVec 16) : State :=
  let q := s.stream st
  if !q.enabled then s
  else if q.cqSize.toNat ≤ v.toNat then s.doorbellError st
  else
    let s := s.modStream st (fun q => { q with cqHead := v })
    if q.roomwait then s.doorbell (1 + st) else s

def execCqHead (st : Fin 8) (v : BitVec 16) (s : State) : Out :=
  .next (s.barWrite (.cqHead st v) (·.cqHead st.val v))

/-- Every uncompleted job of the stream ends as a KILL with ALL would, and no completion entry is written (R486, R488). -/
def State.endStream (s : State) (st : Nat) : State :=
  let hit := s.drv.jobs.filter (fun j => decide (j.stream = st))
  let s := s.modDrv (fun v =>
    { v with jobs := v.jobs.map (fun (j : JobRec) => if j.stream = st then { j with silent := true, killers := [] } else j),
             queue := v.queue.filter (fun q => decide (q.stream ≠ st)), adds := v.adds.filter (fun a => decide (a.1 ≠ st)),
             waits := v.waits.filter (fun w => decide (w.stream ≠ st)) })
  let s := s.modStream st (fun q => { q with ready := [] })
  (hit.foldl (fun s j => (s.drv.job? j.id).elim s s.killJob) s).settle

/-- A size of a ring: none, or a power of two from 2 to 65,536 (Table 13-11). -/
def ringSizeOk (n : BitVec 17) : Bool := decide (n = 0) || (decide (2 ≤ n.toNat) && decide (2 ^ Nat.log2 n.toNat = n.toNat))

/-- The registers after a RESET with the values that the application had written (R487, R488). -/
def Stream.reset (q : Stream) (w : StreamSetup) : Stream :=
  let ok := ringSizeOk w.sqSize && ringSizeOk w.cqSize
  { q with sqBaseS := w.sqBase &&& ~~~(0x3F : Word), sqSizeS := w.sqSize,
           cqBaseS := w.cqBase &&& ~~~(0x7F : Word), cqSizeS := w.cqSize,
           sqBase := w.sqBase &&& ~~~(0x3F : Word), cqBase := w.cqBase &&& ~~~(0x7F : Word),
           sqSize := if ok then w.sqSize else 0, cqSize := if ok then w.cqSize else 0,
           sqTail := 0, cqHead := 0, sqHead := 0, cqTail := 0, phase := true, cfgerr := q.cfgerr || !ok,
           roomwait := false, cqfull := false, vec := w.vec, coalCnt := w.coalCnt, coalNs := w.coalNs,
           unsig := 0, firstAt := none }

def State.streamReset (s : State) (st : Nat) (w : StreamSetup) : State :=
  let s := (s.endStream st).modStream st (fun q => q.reset w)
  if ringSizeOk w.sqSize && ringSizeOk w.cqSize then s else s.fireStatus srcStream

def execStreamReset (st : Fin 8) (w : StreamSetup) (s : State) : Out :=
  .next (s.barWrite (.streamReset st w) (·.streamReset st.val w))

/-- CQ_PUBLISH: a write of the driver (R490, R491). -/
def execCqPublish (st : Fin 8) (v : BitVec 16) (s : State) : Out :=
  .next (onlyIf (s.hostUp && (s.stream st.val).enabled && decide (v.toNat < (s.stream st.val).cqSize.toNat)) s
    (·.publish st.val v))

/-- COALESCE_TIMEOUT (R491); the timer leaves out frozen time (R631). -/
def execCoalesceTimeout (st : Fin 8) (s : State) : Out :=
  let q := s.stream st.val
  .next (onlyIf (s.up && decide (q.coalNs ≠ 0) &&
    q.firstAt.elim false (fun t => decide (q.coalNs.toNat ≤ (s.runTime - t).toNat))) s (·.signal st.val))

/-! ### The endpoint -/

/-- BUS_MASTER_ENABLE_CHANGE: held vectors go out when it returns to 1 (R463, R494); PCIE fires. Waiting bus-master requests
go on by UNIT_OPERATION_COMPLETE. -/
def State.setBme (s : State) (v : Bool) : State :=
  let p := { s.pcie with bme := v }
  ({ s with pcie := if v then p.flushVectors else p }).fireStatus srcPcie

def execBusMasterEnableChange (v : Bool) (s : State) : Out := .next (onlyIf (s.up && decide (s.pcie.bme ≠ v)) s (·.setBme v))

/-- The streams' registers and the MSI-X table at their reset values; the counts of Table 13-16 stay (R486). Bus Master
Enable is 0 after a reset of the function (PCIe; log 10). -/
def Pcie.flr (p : Pcie) : Pcie :=
  { p with streams := p.streams.map (fun x =>
             (x.1, { ({} : Stream) with vec := BitVec.ofNat 6 x.1, read := x.2.read, published := x.2.published })),
           vecs := p.vecs.map (fun x => (x.1, { ({} : Vec) with sent := x.2.sent })), bme := false }

/-- The response to a BAR4 request is discarded. -/
def DictReq.drop (r : DictReq) : DictReq := if r.path = .bar4 then { r with path := .dropped } else r

/-- A BAR4 request that the service has not yet taken is discarded, and the response of one that still acts; BUSY and DONE
read 0 (R578). -/
def Dict.flr (d : Dict) : Dict :=
  { d with queue := d.queue.filter (fun r => decide (r.path ≠ .bar4)),
           commits := d.commits.map (fun (x : PendCommit) => { x with req := x.req.drop }),
           bar4 := { d.bar4 with busy := false, done := false } }

/-- FUNCTION_LEVEL_RESET (R486, R578). -/
def State.flr (s : State) : State :=
  let s := (List.range 8).foldl (fun s st => s.endStream st) s
  ({ s with pcie := s.pcie.flr, evc := { s.evc with flr := true }, dict := s.dict.flr }).fireStatus srcPcie

/-- One that arrives during a full freeze is performed at thaw (R646). -/
def execFunctionLevelReset (s : State) : Out := .next (s.barWrite .flr (·.flr))

def State.pcieEvent (s : State) (e : PcieEvent) : State :=
  let s := match e with
    | .up r w f => { s with pcie := { s.pcie with up := true, rate := r, width := w, flit := f } }
    | .retrain r w f => if s.pcie.up then { s with pcie := { s.pcie with rate := r, width := w, flit := f } } else s
    | .aer => s
  s.fireStatus srcPcie

/-- PCIE_LINK_EVENT (R473, R485, R711): no link trains while PERST_N is low. -/
def execPcieLinkEvent (e : PcieEvent) (s : State) : Out := .next (onlyIf (s.pwr.on && s.pwr.perstN && !s.pinsHeld 0) s (·.pcieEvent e))

/-- MSIX_VECTOR_UNMASK (R494). -/
def State.unmask (s : State) (v : Nat) : State :=
  let x := SMap.getD s.pcie.vecs v {}
  let p := { s.pcie with vecs := SMap.set s.pcie.vecs v { x with masked := false } }
  { s with pcie := p.flushVectors }

def execMsixVectorUnmask (v : Fin 64) (s : State) : Out := .next (s.barWrite (.unmask v) (·.unmask v.val))

end Sys2Proof.Machine
end

