-- ==== Sys2Proof/Machine/Shake.lean ====
section
/-! DEFINITION. SHAKE256, the hash that the manual names for digests and measurement registers (R656, R666). Its rounds
are those of FIPS 202, which the manual cites and does not print (PRESUMED, log 13). The state stands as five sheets, one for
each x, of five words, one for each y; constants and offsets are computed as the standard generates them. -/

namespace Sys2Proof.Machine

open Sys2Proof

abbrev Sheets := List (List Word)

/-- The word at (x, y). -/
def Sheets.word (a : Sheets) (x y : Nat) : Word := (a.getD (x % 5) []).getD (y % 5) 0

/-- The register of the constants' generator after `n` steps, by x^8 + x^6 + x^5 + x^4 + 1. -/
def shakeGen : Nat → Nat
  | 0 => 1
  | n + 1 =>
    let r := shakeGen n
    if r < 128 then 2 * r else Nat.xor (2 * r) 0x171

/-- The constant of round `i`: bit 2^j − 1 is the generator's output at step 7 i + j. -/
def shakeConst (i : Nat) : Word :=
  BitVec.ofNat 64 (((List.range 7).map (fun j => shakeGen (7 * i + j) % 2 * 2 ^ (2 ^ j - 1))).sum)

/-- The places that take an offset, in the order in which the standard walks over them, with the offset of each. -/
def shakeWalk : Nat → Nat → Nat → Nat → List ((Nat × Nat) × Nat)
  | 0, _, _, _ => []
  | n + 1, t, x, y => ((x, y), (t + 1) * (t + 2) / 2 % 64) :: shakeWalk n (t + 1) y ((2 * x + 3 * y) % 5)

def shakeOffsets : List (List Nat) :=
  let w := shakeWalk 24 0 1 0
  (List.range 5).map (fun x => (List.range 5).map (fun y => (w.find? (fun p => decide (p.1 = (x, y)))).elim 0 (·.2)))

/-- A sheet is mixed with the parity of its neighbours. -/
def Sheets.theta (a : Sheets) : Sheets :=
  let parity := a.map (fun s => s.foldl (· ^^^ ·) 0)
  a.zipIdx.map (fun s => s.1.map (· ^^^ parity.getD ((s.2 + 4) % 5) 0 ^^^ (parity.getD ((s.2 + 1) % 5) 0).rotateLeft 1))

def Sheets.rho (a : Sheets) : Sheets := List.zipWith (List.zipWith BitVec.rotateLeft) a shakeOffsets

def Sheets.build (f : Nat → Nat → Word) : Sheets := (List.range 5).map (fun x => (List.range 5).map (f x))

def Sheets.pi (a : Sheets) : Sheets := Sheets.build (fun x y => a.word (x + 3 * y) x)

def Sheets.chi (a : Sheets) : Sheets :=
  Sheets.build (fun x y => a.word x y ^^^ (a.word (x + 2) y &&& ~~~ a.word (x + 1) y))

/-- A constant enters the word at (0, 0). -/
def Sheets.iota (a : Sheets) (c : Word) : Sheets :=
  match a with
  | (w :: s) :: t => ((w ^^^ c) :: s) :: t
  | _ => a

def Sheets.permute (a : Sheets) : Sheets :=
  (List.range 24).foldl (fun a i => (a.theta.rho.pi.chi).iota (shakeConst i)) a

/-- Bytes that the state takes in and gives out at a time. -/
def shakeRate : Nat := 136

/-- A block enters the state, word 5 y + x at (x, y). -/
def Sheets.absorb (a : Sheets) (block : List Byte) : Sheets :=
  (Sheets.build (fun x y => a.word x y ^^^ BitVec.ofNat 64 (ofBytesLE ((block.drop (40 * y + 8 * x)).take 8)))).permute

def Sheets.absorbAll : Nat → Sheets → List Byte → Sheets
  | 0, a, _ => a
  | n + 1, a, bs => (a.absorb (bs.take shakeRate)).absorbAll n (bs.drop shakeRate)

/-- What follows the message to fill its last block: the domain bits 1111, the first padding bit, and the last one. -/
def shakeTail (len : Nat) : List Byte :=
  let free := shakeRate - len % shakeRate
  bytesLE free (0x1F + 0x80 * 256 ^ (free - 1))

/-- The bytes of the state, in the order in which blocks enter. -/
def Sheets.bytes (a : Sheets) : List Byte :=
  (List.range 5).flatMap (fun y => (List.range 5).flatMap (fun x => bytesLE 8 (a.word x y).toNat))

/-- `n` bytes of SHAKE256, `n` at most 136. -/
def shake256 (bs : List Byte) (n : Nat) : List Byte :=
  let m := bs ++ shakeTail bs.length
  ((Sheets.build (fun _ _ => 0)).absorbAll (m.length / shakeRate) m).bytes.take n

/-- A digest: 32 bytes (R656). -/
def digest (bs : List Byte) : List Byte := shake256 bs 32

end Sys2Proof.Machine
end

