-- ==== Sys2Proof/Machine/Secure.lean ====
section
/-! DEFINITION. Keys, slots, measurements and quotes as values (R656 to R675): what the parameters of index 0x9000 report
and what the boot and the security engine compute. -/

namespace Sys2Proof.Machine

open Sys2Proof

/-! ### Keys and slots (R657 to R661) -/

def Sec.key (x : Sec) (k : Nat) : BitVec 4 := SMap.getD x.keys k 0

/-- A programmed, unrevoked key with the FW purpose (R660), or with the DEBUG purpose (R674). -/
def keyFw (b : BitVec 4) : Bool := bitOf b 0 && bitOf b 1 && !bitOf b 3
def keyDebug (b : BitVec 4) : Bool := bitOf b 0 && bitOf b 2 && !bitOf b 3

/-- A bootable slot (R660). -/
def Sec.bootable (x : Sec) (i : SlotImage) : Bool :=
  i.wellFormed && decide (i.seq ≠ 0) && decide (i.floor ≤ i.svn) && keyFw (x.key i.keyIdx.toNat) &&
  decide (x.svnMin ≤ i.svn) && i.sigOk

/-- The slot image where it is bootable. -/
def Sec.boots (x : Sec) (i : Option SlotImage) : Option SlotImage :=
  match i with
  | some i => if x.bootable i then some i else none
  | none => none

/-- The slot that boots: that of the higher SEQ, A when both are equal; 2 is recovery (R661). -/
def Sec.choose (x : Sec) : Nat × Option SlotImage :=
  match x.boots x.slotA, x.boots x.slotB with
  | some a, some b => if a.seq.toNat < b.seq.toNat then (1, some b) else (0, some a)
  | some a, none => (0, some a)
  | none, some b => (1, some b)
  | none, none => (2, none)

/-! ### The staged image (R659) -/

/-- Bytes [i, i + n) of the staged image as a number. -/
def Sec.staged (x : Sec) (i n : Nat) : Nat := Memory.readNat x.fwStage i n

/-- ILEN of the staged image. -/
def Sec.stagedLen (x : Sec) : Nat := 64 + x.staged 16 4 + 29792

/-- The header of the staged image is well formed (Table 19-4). -/
def Sec.headerOk (x : Sec) : Bool :=
  decide (x.staged 0 4 = 0x49505645 ∧ x.staged 4 2 = 1 ∧ x.staged 6 1 ≤ 3 ∧ x.staged 7 1 ≤ 64 ∧
    x.staged 8 1 ≤ x.staged 7 1 ∧ x.staged 9 3 = 0 ∧ x.staged 20 4 % 4 = 0 ∧ x.staged 24 40 = 0 ∧
    x.stagedLen ≤ 33554368)

/-- The slot that the staged image makes, with the SEQ of its record. -/
def Sec.stagedSlot (x : Sec) (seq : Word) : SlotImage :=
  let n := x.stagedLen
  let signed := Memory.readBytes x.fwStage 0 (n - 29792)
  let sig := Memory.readBytes x.fwStage (n - 29792) 29792
  { seq := seq, keyIdx := BitVec.ofNat 2 (x.staged 6 1), svn := x.staged 7 1, floor := x.staged 8 1,
    version := BitVec.ofNat 32 (x.staged 12 4), wellFormed := x.headerOk,
    digest := digest (signed ++ sig), sigOk := Config.slhVerify (Config.keyBytes (x.staged 6 1)) signed sig }

/-! ### Measurements (R666) -/

/-- Text as bytes. -/
def textBytes (t : String) : List Byte := t.toList.map (fun c => BitVec.ofNat 8 c.toNat)

def Sec.mr (x : Sec) (i : Nat) : List Byte := SMap.getD x.mrs i (List.replicate 64 0)

/-- Extend register `i` with digest `d`, event row `ev` of Table 19-6; past 4,096 entries the log stays and LOG_FULL is set
(R666, R668). -/
def Sec.extend (x : Sec) (i ev : Nat) (d : List Byte) : Sec :=
  let y := { x with mrs := SMap.set x.mrs i (shake256 (x.mr i ++ d) 64) }
  if x.log.length < 4096 then
    let g : LogEntry := ⟨BitVec.ofNat 8 i, BitVec.ofNat 8 ev, d⟩
    { y with log := x.log ++ [g] }
  else { y with logFull := true }

/-- A log entry as bytes (R666). -/
def LogEntry.bytes (e : LogEntry) : List Byte :=
  let t := Config.eventText e.event.toNat
  [e.reg, Config.eventCode e.event.toNat, 0, 0] ++ bytesLE 4 t.length ++ sliceD e.digest 0 32 0 ++ t

def Sec.logBytes (x : Sec) : List Byte := x.log.flatMap LogEntry.bytes

/-! ### Identity and attestation (R669 to R672) -/

/-- Seeds of the identity key and of the attestation key (R669, R670). -/
def idSeed : List Byte := shake256 (textBytes "EVP-ID" ++ Config.devSeed) 96
def Sec.akSeed (x : Sec) : List Byte := shake256 (textBytes "EVP-AK" ++ Config.devSeed ++ x.mr 0 ++ x.mr 1) 96

def idPublic : List Byte := sliceD (Config.slhPublic false idSeed) 0 64 0
def Sec.akPublic (x : Sec) : List Byte := sliceD (Config.slhPublic true x.akSeed) 0 64 0

/-- SERIAL is non-zero (R726). -/
def serial : Word := if Config.serialRaw = 0 then 1 else Config.serialRaw

/-- BASE_MAC (R726): a universally administered unicast address, and so are the 32 addresses after it. -/
def baseMac : Nat := 2 ^ 42 * (Config.baseMac.toNat / 2 ^ 42) + min (Config.baseMac.toNat % 2 ^ 40) (2 ^ 40 - 33)

/-- The SVN of the acting image. -/
def Sec.actingSvn (x : Sec) : Nat :=
  if x.bootSlot = 0 then x.slotA.elim 0 (·.svn) else if x.bootSlot = 1 then x.slotB.elim 0 (·.svn) else 0

/-- CERT_CHAIN: the certificate area, and the fourth certificate once it is signed, with the SVN_MIN of step 9 (R671). -/
def Sec.certChain (x : Sec) : List Byte :=
  if x.akCert then
    let c := Config.akCert x.akPublic x.fwVersion x.actingSvn x.certSvnMin serial
    Config.certArea ++ bytesLE 4 c.length ++ c
  else Config.certArea

/-- Bytes 0 to 607 of a quote (Table 19-7). -/
def State.quoteBody (s : State) : List Byte :=
  let x := s.sec
  bytesLE 4 0x51505645 ++ bytesLE 2 1 ++ bytesLE 1 (b2n s.dbg.authEver + 2 * b2n x.logFull) ++ bytesLE 1 x.svnMin ++
  bytesLE 8 serial.toNat ++ bytesLE 4 x.fwVersion.toNat ++ bytesLE 4 x.log.length ++ bytesLE 8 s.timeHost.toNat ++
  sliceD x.nonce 0 32 0 ++ (List.range 8).flatMap x.mr ++ digest x.logBytes

/-- The quote with its signature. -/
def State.quote (s : State) : List Byte :=
  s.quoteBody ++ sliceD (Config.slhSign true s.sec.akSeed s.quoteBody s.free) 0 49856 0

end Sys2Proof.Machine
end

