-- ==== Sys2Proof/Machine/Params.lean ====
section
/-! DEFINITION. The parameters of the object dictionary (R554 to R561, R594 to R597, Table 16-12): one row each, with its
type, access, instances and the value that its instance holds. -/

namespace Sys2Proof.Machine

open Sys2Proof

/-- Access codes (Table 0-2). -/
inductive PAcc where
  | ro | rw | wo | rwc | const
deriving DecidableEq, Repr

/-- Aggregates (R561). -/
inductive Agg where
  | sum | min | max | allEq
deriving DecidableEq, Repr

/-- Where a parameter has instances: at one depth alone; at every unit a value of its own; at one depth, with an aggregate
at the depths from `top` above it; at the cells, with an aggregate and `extra` of the carcase's own; and the merge of R131. -/
inductive Inst where
  | only (d : Nat)
  | own
  | upTo (d top : Nat) (g : Agg)
  | cells (g : Agg) (extra : State → Nat → Nat)
  | status

/-- A parameter: its subindex, its type code (Table 16-1), the bytes of an element (1 where it has none), its size in bytes
(0: that of its value), access, instances, whether it is persistent, whether a write acts at the next boot (R558), and
the value at a unit. -/
structure Param where
  sub : Nat
  typ : Nat
  elem : Nat
  bytes : Nat
  acc : PAcc
  inst : Inst
  persist : Bool
  next : Bool
  val : State → Nat → List Byte

/-! ### Rows -/

/-- The size of a scalar type (Table 16-1). -/
def typeSize : Nat → Nat
  | 2 => 2 | 3 => 4 | 4 => 8 | 6 => 2 | 7 => 4 | 8 => 8 | 9 => 4
  | _ => 1

/-- A scalar. -/
def scalarP (sub typ : Nat) (acc : PAcc) (inst : Inst) (f : State → Nat → Nat) : Param :=
  ⟨sub, typ, typeSize typ, typeSize typ, acc, inst, false, false, fun s k => bytesLE (typeSize typ) (f s k)⟩

/-- An array of `n` elements of type `typ`, at the device. -/
def arrayP (sub typ n : Nat) (acc : PAcc) (f : State → Nat → Nat) : Param :=
  ⟨sub, 0x40 + typ, typeSize typ, typeSize typ * n, acc, .only 0, false, false,
    fun s _ => (List.range n).flatMap (fun i => bytesLE (typeSize typ) (f s i))⟩

/-- Bytes, at the device; 0 for a size that varies. -/
def domainP (sub n : Nat) (acc : PAcc) (f : State → List Byte) : Param :=
  ⟨sub, 0x0C, 1, n, acc, .only 0, false, false, fun s _ => f s⟩

/-- Persistent, and persistent with effect at the next boot. -/
def Param.kept (p : Param) : Param := { p with persist := true }
def Param.later (p : Param) : Param := { p with persist := true, next := true }

/-- COMMIT of a group (0xFF). -/
def commitP (inst : Inst) : Param := scalarP 0xFF 1 .wo inst (fun _ _ => 0)

/-- A 64-bit counter, RO. -/
def countP (sub : Nat) (inst : Inst) (f : State → Nat → Nat) : Param := scalarP sub 4 .ro inst f

/-! ### Values of units -/

def cellOfKey (k : Nat) : CellIx := cellIx (UA.index (BitVec.ofNat 64 k))
def dieOfKey (k : Nat) : Nat := UA.digit (BitVec.ofNat 64 k) 1

def cellV (f : Cell → Nat) : State → Nat → Nat := fun s k => f (s.cell (cellOfKey k))
def cellS (f : State → CellIx → Nat) : State → Nat → Nat := fun s k => f s (cellOfKey k)
def dieV (f : DieCounters → Nat) : State → Nat → Nat := fun s k => f (s.mem.die (dieOfKey k))
def dieP (f : DiePower → Nat) : State → Nat → Nat := fun s k => f (s.diePower (dieOfKey k))
def unitV (f : UnitState → Nat) : State → Nat → Nat := fun s k => f (s.unit k)
def devV (f : State → Nat) : State → Nat → Nat := fun s _ => f s

/-- The carcases at and below a unit, as owners of windows. -/
def State.carcasesOf (s : State) (k : Nat) : List UnitState :=
  (s.units.filter (fun v => decide (UA.depth (BitVec.ofNat 64 v.1) < 5) &&
    UA.inSubtree (BitVec.ofNat 64 v.1) (BitVec.ofNat 64 k))).map (·.2)

/-- No value of the carcase's own. -/
def noExtra : State → Nat → Nat := fun _ _ => 0

/-- The written value of a parameter, or its default. -/
def rawV (index sub dflt : Nat) : State → Nat → Nat := fun s k => (s.dict.raw ⟨k, index, sub⟩).elim dflt ofBytesLE

/-- What the store is to hold of a parameter that acts at the next boot (R558). -/
def Dict.kept (d : Dict) (k : ParamKey) : Option (List Byte) := (d.image.find? (fun p => decide (p.1 = k))).map (·.2)
def keptV (index sub dflt : Nat) : State → Nat → Nat := fun s k => (s.dict.kept ⟨k, index, sub⟩).elim dflt ofBytesLE

/-- Element `i` of `n` bytes of a value, or a default. -/
def elemOf (v : Option (List Byte)) (n dflt i : Nat) : Nat := v.elim dflt (fun v => ofBytesLE ((v.drop (n * i)).take n))

/-! ### Device memory -/

/-- Units below `n` whose chunk belongs to die `d` (R508). -/
def unitsBelow (d n : Nat) : Nat := n / 2048 * 1024 + min (n % 2048 - d * 1024) 1024

/-- Free pool units of die `d` (Table 14-4, R725). -/
def MemSys.poolFree (m : MemSys) (d : Nat) : Nat :=
  let p := m.pool
  let below (n : Nat) : Nat := unitsBelow d (min n p.limit)
  below p.limit - (p.taken.map (fun t => below (t.1 + t.2) - below t.1)).sum

/-! ### Links -/

def linkStCode (n : Net) (l : Nat) : Nat :=
  if !n.exists? l then 3 else
  match (n.link l).st with
  | .absent => 0 | .up => 1 | .down => 2 | .off => 3

/-- PARTNER (Table 15-12). -/
def Link.partnerWord (k : Link) : Nat :=
  k.partner.elim 0 (fun p => p.devid.toNat + p.link.toNat * 2 ^ 16 + p.role.toNat * 2 ^ 24 + p.epoch.toNat * 2 ^ 32
    + 2 ^ 48 + b2n p.unnum * 2 ^ 49 + b2n k.dup * 2 ^ 50)

/-- The MAC address of the management interface (Table 16-9). -/
def mgmtMac : Nat := baseMac + 32

/-- The modified EUI-64 link-local address, network byte order (R579). -/
def linkLocal : List Byte :=
  let m := (bytesLE 6 mgmtMac).reverse
  [0xFE, 0x80, 0, 0, 0, 0, 0, 0] ++ ((m.take 3).take 1).map (· ^^^ 0x02) ++ (m.drop 1).take 2 ++ [0xFF, 0xFE] ++ m.drop 3

/-! ### Calibration (R594, R595, Table 16-11) -/

/-- A calibration value: elements, bytes of the factory type, user range, acting range, and whether it is signed. -/
structure Calib where
  n : Nat
  w : Nat
  user : Int
  lo : Int
  hi : Int
  neg : Bool

def calibOf : Nat → Option Calib
  | 0x7010 => some ⟨1, 1, 8, 0, 63, false⟩
  | 0x7020 => some ⟨1, 2, 80, -320, 320, true⟩
  | 0x7030 => some ⟨1, 2, 40, -200, 200, true⟩
  | 0x7040 => some ⟨40, 1, 4, 0, 127, false⟩
  | 0x7050 => some ⟨32, 1, 3, -16, 15, true⟩
  | _ => none

/-- An integer as `n` bytes. -/
def bytesInt (n : Nat) (x : Int) : List Byte := bytesLE n (x % 2 ^ (8 * n)).toNat

/-- The factory value, within what its type holds. -/
def Calib.factory (c : Calib) (index k i : Nat) : Int :=
  clampI (if c.neg then -(2 ^ (8 * c.w - 1)) else 0) (if c.neg then 2 ^ (8 * c.w - 1) - 1 else 2 ^ (8 * c.w) - 1)
    (Config.factory index k i)

/-- Element `i` of the offsets that act. -/
def Calib.offset (c : Calib) (v : Option (List Byte)) (i : Nat) : Int :=
  signed (8 * c.w) (elemOf v c.w 0 i)

/-- The subindex under which the offsets that a link took on leaving ABSENT stand (Table 16-11, log 30). -/
def actingSub (index : Nat) : Nat := if index = 0x7050 then 0x100 else 0x01

/-- The sum of factory value and offset, and the acting value. -/
def Calib.sum (c : Calib) (s : State) (index k i : Nat) : Int :=
  c.factory index k i + c.offset (s.dict.raw ⟨k, index + 0x400, actingSub index⟩) i
def Calib.acting (c : Calib) (s : State) (index k i : Nat) : Int := clampI c.lo c.hi (c.sum s index k i)

/-- The type code of a calibration value; OFFSET is signed. -/
def Calib.typ (c : Calib) (neg : Bool) : Nat :=
  (if c.n = 1 then 0 else 0x40) + (if c.w = 2 then (if neg then 6 else 2) else if neg then 5 else 1)

def calibInst : Nat → Inst
  | 0x7010 => .upTo 2 1 .min
  | 0x7050 => .only 0
  | _ => .only 1

/-- A calibration parameter of the group of factory index `index`. -/
def Calib.param (c : Calib) (index sub : Nat) (typ : Nat) (acc : PAcc) (f : State → Nat → Nat → Int) : Param :=
  ⟨sub, typ, c.w, c.n * c.w, acc, calibInst index, false, false,
    fun s k => (List.range c.n).flatMap (fun i => bytesInt c.w (f s k i))⟩

/-- OFFSET acts at the next boot for DELAY_MARGIN and DQ_VREF_SEED. -/
def calibLater (index : Nat) : Bool := decide (index = 0x7010 ∨ index = 0x7040)

def Calib.group (c : Calib) (index : Nat) : List Param :=
  let off := c.param index 0x01 (c.typ true) .rw (fun s k i =>
    if calibLater index then c.offset (s.dict.kept ⟨k, index + 0x400, 0x01⟩) i
    else c.offset (s.dict.raw ⟨k, index + 0x400, 0x01⟩) i)
  [if calibLater index then off.later else off.kept,
   c.param index 0x02 (c.typ c.neg) .ro (c.acting · index),
   scalarP 0x03 0x0A .ro (calibInst index) (fun s k =>
     b2n ((List.range c.n).any (fun i => decide (c.acting s index k i ≠ c.sum s index k i))))]

/-! ### Cell status registers (R131, Table 4-10) -/

/-- The narrow address of the register of a subindex. -/
def statusAddr (sub : Nat) : Nat :=
  if sub ≤ 10 then 0x200018 + 8 * sub else if sub = 11 then 0x200008 else if sub = 12 then 0x201100 else 0x201108

/-- The RC counts of a register, high and low bit, and its one-bit flags. -/
def statusFields : Nat → List (Nat × Nat) × List Nat
  | 1 | 2 => ([(63, 48)], [3, 4, 5, 6, 7])
  | 3 => ([(63, 32)], [8])
  | 4 => ([], [32, 33, 34, 35])
  | 5 => ([(31, 0), (63, 32)], [])
  | 6 => ([(47, 32), (63, 48)], [0, 1])
  | 7 => ([(63, 32)], [0, 1, 2])
  | 8 => ([(47, 32), (63, 48)], [0, 1])
  | 9 | 10 => ([(47, 32), (63, 48)], [16, 17])
  | 11 => ([(63, 32)], [0, 1, 6])
  | 12 => ([(15, 0)], [25, 26, 27])
  | _ => ([(31, 0), (47, 32), (63, 48)], [])

/-- Field [hi:lo] of a word replaced. -/
def setFld (w hi lo v : Nat) : Nat := w / 2 ^ (hi + 1) * 2 ^ (hi + 1) + v % 2 ^ (hi + 1 - lo) * 2 ^ lo + w % 2 ^ lo

def statusMerge (sub : Nat) (l : List Word) : Word :=
  let first := (l.headD 0).toNat
  let sums := (statusFields sub).1.foldl (fun w f =>
    setFld w f.1 f.2 (min ((l.map (fun x => fld x f.1 f.2)).sum) (2 ^ (f.1 + 1 - f.2) - 1))) first
  BitVec.ofNat 64 ((statusFields sub).2.foldl (fun w b => setFld w b b (b2n (l.any (fun x => bitOf x b)))) sums)

def statusP (sub : Nat) : Param :=
  scalarP sub 4 .ro .status (cellS (fun s c => ((s.narrowReg c (statusAddr sub)).getD 0).toNat))

/-! ### Shadows (R642, Table 18-3) -/

/-- The latched set of a unit: index and subindex, in ascending order. -/
def latchedSet (depth : Nat) : List (Nat × Nat) :=
  let both (l : List Nat) (i : Nat) : List (Nat × Nat) := l.map (fun s => (i, s))
  let die := decide (depth ≤ 1)
  (if die then both [0x0E, 0x0F, 0x12] 0x4000 ++ both [2, 3] 0x4010 else []) ++ both [5, 6, 8] 0x4800 ++
  both [1, 9, 0x0A] 0x6000 ++ both [1, 2, 3, 4, 5, 6, 7, 8, 9, 10] 0x8000 ++ both [1, 2, 3, 4, 5, 6, 7] 0x8040 ++
  both [1, 2, 3, 4, 5] 0x8050 ++ (if die then both [1, 3, 4, 5] 0x8060 else []) ++
  (if depth = 0 then both [1, 2, 3, 4, 5, 6, 8] 0x8070 else [])

def Shadow.bytes (h : Shadow) : List Byte :=
  bytesLE 2 h.origin.toNat ++ bytesLE 2 h.state.toNat ++ bytesLE 4 h.num.toNat ++ bytesLE 8 h.time.toNat ++
  bytesLE 4 h.vals.length ++ List.replicate 12 0 ++
  h.vals.flatMap (fun v => bytesLE 2 v.1 ++ bytesLE 1 v.2.1 ++ List.replicate 5 0 ++ bytesLE 8 v.2.2.toNat)

/-! ### The index map (Tables 16-9, 16-12 and the tables it names) -/

/-- SNAP_STATE (Table 18-1). -/
def Dbg.snapState (d : Dbg) : Nat := d.snapNum.toNat + b2n d.snapDone * 2 ^ 32 + b2n d.snapAbandoned * 2 ^ 33

/-- FREEZE_STATE (Table 18-7). -/
def Dbg.freezeState (d : Dbg) : Nat := if d.fabricFrozen then 2 else if d.fabricReq then 1 else 0

/-- Sources PENDING with no eligible hart (Table 13-16). -/
def Evc.waiting (e : Evc) : Nat :=
  e.srcs.countP (fun x => decide (x.2.st = .pending) && (List.range 16).all (fun h => !e.eligible x.1 h))

def powerParams : List Param :=
  [(scalarP 0x01 2 .rwc (.only 0) (rawV 0x2000 0x01 (if Config.variantAh then 300 else 400))).kept,
   (scalarP 0x02 2 .rwc (.only 0) (rawV 0x2000 0x02 850)).kept,
   scalarP 0x03 2 .rwc (.only 0) (rawV 0x2000 0x03 0),
   scalarP 0x04 2 .ro (.upTo 1 0 .max) (dieP (·.mv)),
   scalarP 0x05 1 .ro (.upTo 1 0 .min) (dieP (·.duty)),
   scalarP 0x06 2 .ro (.upTo 1 0 .max) (dieP (fun d => (Config.beatPs d.mv d.tj).toNat)),
   scalarP 0x07 2 .ro (.only 0) (devV (·.pwr.inputMv.toNat)),
   scalarP 0x08 2 .ro (.only 0) (devV (·.pwr.inputW)),
   countP 0x09 (.only 0) (devV (·.pwr.energy.toNat / 10)),
   countP 0x0A (.upTo 1 0 .max) (dieP (·.capNs.toNat)),
   countP 0x0B (.upTo 1 0 .sum) (dieP (·.uvEvents.toNat)),
   scalarP 0x0C 3 .ro (.only 0) (devV (·.pwr.railFaults.toNat)),
   commitP (.only 0)]

def thermalParams : List Param :=
  [scalarP 0x01 6 .ro (.upTo 1 0 .max) (dieP (·.tj.toNat)),
   (scalarP 0x02 1 .rwc (.only 0) (rawV 0x2400 0x02 95)).kept,
   scalarP 0x03 1 .const (.only 0) (fun _ _ => 100),
   scalarP 0x04 1 .const (.only 0) (fun _ _ => 110),
   countP 0x05 (.upTo 1 0 .max) (dieP (·.thermNs.toNat)),
   countP 0x06 (.upTo 1 0 .sum) (dieP (·.warnEvents.toNat)),
   scalarP 0x07 1 .ro (.only 0) (devV (·.pwr.lastShutdown.toNat)),
   commitP (.only 0)]

def identityParams : List Param :=
  [scalarP 0x01 2 .const (.only 0) (fun _ _ => Config.vendorId.toNat),
   scalarP 0x02 2 .const (.only 0) (fun _ _ => Config.deviceId.toNat),
   scalarP 0x03 2 .const (.only 0) (fun _ _ => Config.subsysVendor.toNat),
   scalarP 0x04 2 .const (.only 0) (fun _ _ => Config.subsysId.toNat),
   scalarP 0x05 4 .const (.only 0) (fun _ _ => serial.toNat),
   ⟨0x06, 0x0B, 1, 0, .const, .only 0, false, false,
     fun _ _ => textBytes (if Config.variantAh then "EVP-320-AH" else "EVP-320-LC")⟩,
   scalarP 0x07 1 .const (.only 0) (fun _ _ => b2n Config.variantAh),
   scalarP 0x08 2 .const (.only 0) (fun _ _ => Config.hwRev.toNat),
   scalarP 0x09 3 .ro (.only 0) (devV (·.sec.fwVersion.toNat)),
   scalarP 0x0A 4 .const (.only 0) (fun _ _ => baseMac),
   scalarP 0x0B 4 .const (.only 0) (fun _ _ => mgmtMac)]

def linkParams : List Param :=
  [(scalarP 0x01 2 .rw (.only 0) (keptV 0x3000 0x01 0)).later,
   (scalarP 0x02 0x0A .rw (.only 0) (keptV 0x3000 0x02 0)).later,
   (arrayP 0x03 1 8 .rw (fun s i => elemOf (s.dict.kept ⟨0, 0x3000, 0x03⟩) 1 0 i)).later,
   (arrayP 0x04 1 32 .rw (fun s i => elemOf (s.dict.raw ⟨0, 0x3000, 0x04⟩) 1 1 i)).kept,
   (arrayP 0x05 4 32 .rw (fun s i =>
     let v := elemOf (s.dict.raw ⟨0, 0x3000, 0x05⟩) 8 0 i
     if v = 0 then (s.net.link i).peerMac.toNat else v)).kept,
   (arrayP 0x06 2 32 .rw (fun s i => elemOf (s.dict.raw ⟨0, 0x3000, 0x06⟩) 2 0 i)).kept,
   arrayP 0x07 3 32 .rw (fun s i => elemOf (s.dict.raw ⟨0, 0x3000, 0x07⟩) 4 2000 i),
   scalarP 0x08 3 .rw (.only 0) (rawV 0x3000 0x08 16),
   arrayP 0x09 1 32 .ro (fun s i => linkStCode s.net i),
   arrayP 0x0A 1 32 .ro (fun s i => if s.net.exists? i then (s.net.link i).lanes else 0),
   arrayP 0x0B 4 32 .ro (fun s i => (s.net.link i).partnerWord),
   arrayP 0x0C 4 32 .ro (fun s i => (s.net.link i).partner.elim 0 (·.serial.toNat)),
   scalarP 0x0D 1 .wo (.only 0) (fun _ _ => 0),
   scalarP 0x0E 2 .wo (.only 0) (fun _ _ => 0)]

def mgmtParams : List Param :=
  [(scalarP 0x01 1 .rwc (.only 0) (rawV 0x3800 0x01 255)).kept,
   (scalarP 0x02 1 .rwc (.only 0) (rawV 0x3800 0x02 8)).kept,
   (scalarP 0x03 1 .rwc (.only 0) (rawV 0x3800 0x03 32)).kept,
   (scalarP 0x04 1 .rwc (.only 0) (rawV 0x3800 0x04 0)).kept,
   (scalarP 0x05 1 .rw (.only 0) (rawV 0x3800 0x05 1)).kept,
   domainP 0x06 16 .ro (fun _ => linkLocal),
   scalarP 0x07 1 .ro (.only 0) (devV (·.dict.dadState.toNat)),
   countP 0x08 (.only 0) (devV (·.dict.framesRx.toNat)),
   countP 0x09 (.only 0) (devV (·.dict.framesTx.toNat)),
   countP 0x0A (.only 0) (devV (·.dict.chamoisBad.toNat)),
   commitP (.only 0)]

def memoryParams : List Param :=
  [(scalarP 0x01 1 .rw (.only 0) (keptV 0x4000 0x01 16)).later,
   countP 0x02 (.only 0) (devV (·.mem.bytes)),
   scalarP 0x03 1 .ro (.upTo 1 0 .sum) (fun s k => s.mem.channels (dieOfKey k) .full),
   scalarP 0x04 1 .ro (.upTo 1 0 .sum) (fun s k => s.mem.channels (dieOfKey k) .fallback),
   scalarP 0x05 1 .ro (.upTo 1 0 .sum) (fun s k => s.mem.channels (dieOfKey k) .retired),
   scalarP 0x06 4 .rw (.only 0) (devV (·.mem.appBase)),
   scalarP 0x07 4 .rw (.only 0) (devV (·.mem.appUnits)),
   countP 0x08 (.upTo 1 0 .sum) (fun s k => s.mem.poolFree (dieOfKey k)),
   arrayP 0x09 4 16 .rw (fun s i => s.spillTarget i),
   scalarP 0x0A 4 .rwc (.only 0) (devV (·.wsBase)),
   scalarP 0x0B 4 .rwc (.only 0) (devV (·.wsUnits)),
   scalarP 0x0C 3 .rw (.only 0) (devV (·.serveGib)),
   scalarP 0x0D 2 .rw (.only 0) (rawV 0x4000 0x0D 24),
   countP 0x0E (.upTo 1 0 .sum) (dieV (·.ceTotal.toNat)),
   countP 0x0F (.upTo 1 0 .sum) (dieV (·.ueTotal.toNat)),
   countP 0x10 (.upTo 1 0 .sum) (dieV (·.spill3Units.toNat)),
   countP 0x11 (.upTo 1 0 .sum) (dieV (·.spill4Units.toNat)),
   countP 0x12 (.upTo 1 0 .sum) (dieV (·.noRoomStores.toNat)),
   commitP (.only 0)]

def directoryParams : List Param :=
  [(scalarP 0x01 3 .rw (.only 0) (keptV 0x4010 0x01 16777216)).later,
   countP 0x02 (.upTo 1 0 .sum) (dieV (·.dircHits.toNat)),
   countP 0x03 (.upTo 1 0 .sum) (dieV (·.dircMisses.toNat))]

/-- Windows owned by a unit and not free. -/
def UnitState.winOpen (u : UnitState) : Nat := u.wins.countP (fun w => decide (w.2.st ≠ .closed))

/-- The windows that the carcases at and below a unit own and that are not free, beside those of its cells (Table 9-11). -/
def carcaseWins : State → Nat → Nat := fun s k => ((s.carcasesOf k).map UnitState.winOpen).sum

def spadParams : List Param :=
  [scalarP 0x01 2 .ro (.cells .min noExtra) (cellS State.sparesFree),
   scalarP 0x02 2 .const (.cells .sum noExtra) (cellS State.rowsMappedTest),
   scalarP 0x03 2 .ro (.cells .sum noExtra) (cellV (·.rows.field)),
   scalarP 0x04 1 .rwc (.cells .allEq noExtra) (cellV (·.ceLimit.toNat)),
   countP 0x05 (.cells .sum noExtra) (cellV (·.cnt.ceTotal.toNat)),
   countP 0x06 (.cells .sum noExtra) (cellV (·.cnt.ueTotal.toNat)),
   scalarP 0x07 2 .ro (.cells .sum carcaseWins) (unitV UnitState.winOpen),
   countP 0x08 (.cells .sum noExtra) (cellV (·.cnt.scrubs.toNat)),
   commitP .own]

def precisionParams : List Param :=
  [scalarP 0x01 2 .const (.only 0) (fun _ _ => 0x41FE),
   scalarP 0x02 2 .const (.only 0) (fun _ _ => 0x01FE),
   scalarP 0x03 2 .const (.only 0) (fun _ _ => 0x81FE),
   scalarP 0x04 1 .const (.only 0) (fun _ _ => 0x03)]

def carryParams : List Param :=
  [scalarP 0x01 3 .rwc (.only 0) (devV State.clipLimit),
   scalarP 0x02 1 .rwc (.only 0) (devV State.headroom),
   countP 0x03 (.only 0) (devV (fun s => (s.cells.map (fun c => c.2.cnt.adapts.toNat)).sum)),
   commitP (.only 0)]

def deltaParams : List Param :=
  [scalarP 0x01 4 .rwc (.cells .allEq noExtra) (cellV (·.deltaCap.toNat)), commitP .own]

/-- Retired spares of the depth-3 carcases at or below a unit. -/
def State.spareLosses (s : State) (k : Nat) : Nat :=
  let u : UnitAddr := BitVec.ofNat 64 k
  if UA.depth u ≤ 3 then
    s.rel.spareBad.countP (fun j => decide (UA.index u ≤ 16 * j ∧ 16 * j < UA.index u + UA.span (UA.depth u)))
  else 0

/-- The most recent cause of a die's own, and of the dies of the device. -/
def State.dieCause (s : State) (k : Nat) : Nat :=
  match UA.depth (BitVec.ofNat 64 k) with
  | 0 => max s.mem.die0.lastCause.toNat s.mem.die1.lastCause.toNat
  | 1 => (s.mem.die (dieOfKey k)).lastCause.toNat
  | _ => 0

def reliabilityParams : List Param :=
  [countP 0x01 (.cells .sum noExtra) (cellV (·.cnt.recomputes.toNat)),
   scalarP 0x02 2 .rwc (.cells .allEq noExtra) (cellV (·.recomputeLimit.toNat)),
   scalarP 0x03 2 .ro (.upTo 3 0 .sum) (cellS (fun s c => b2n (s.spareFree c))),
   countP 0x04 (.only 3) (cellS (fun s c =>
     if c.val / 16 ∈ s.rel.spareBad then 0
     else (SMap.get? s.rel.spareOf (c.val / 16)).elim 0 (fun i => (s.cellAddr (cellIx i)).toNat))),
   scalarP 0x05 2 .ro (.cells .sum State.spareLosses) (cellS (fun s c => b2n (decide (c.val ∈ s.rel.retired)))),
   scalarP 0x06 2 .ro (.cells .sum noExtra) (cellS (fun s c => b2n (s.rel.hostOf c).isSome)),
   countP 0x07 (.only 5) (cellS (fun s c =>
     (s.rel.hosts.find? (fun h => decide (h.host = c.val))).elim 0 (fun h => (s.cellAddr (cellIx h.guest)).toNat))),
   scalarP 0x08 2 .ro (.cells .sum noExtra) (cellS (fun s c => b2n (s.rel.hostOf c).isNone)),
   countP 0x09 (.cells .sum noExtra) (cellV (·.rows.rebuilt.toNat)),
   countP 0x0A (.cells .sum noExtra) (cellV (·.cnt.lost.toNat)),
   scalarP 0x0B 1 .ro (.cells .max State.dieCause) (cellV (·.cnt.lastCause.toNat)),
   scalarP 0x0C 1 .ro (.upTo 1 0 .sum) (dieV (·.lanesRepaired.toNat)),
   scalarP 0x0D 1 .ro (.upTo 1 0 .sum) (dieV (·.modulesDown.toNat)),
   scalarP 0x0E 4 .wo (.only 0) (fun _ _ => 0),
   commitP .own]

def roleParams : List Param :=
  [scalarP 0x01 1 .ro .own (unitV (·.role.toNat)),
   scalarP 0x02 2 .ro .own (unitV (·.epoch.toNat)),
   scalarP 0x03 1 .rwc .own (rawV 0x6800 0x03 0),
   scalarP 0x04 2 .rwc .own (rawV 0x6800 0x04 0),
   countP 0x05 (.cells .sum noExtra) (unitV (·.bounces.toNat)),
   countP 0x06 (.cells .sum noExtra) (unitV (·.bouncesLost.toNat)),
   commitP .own]

/-- The counters of Table 18-1 that cells hold. -/
def cellCount (sub : Nat) (f : Counters → Word) : Param := countP sub (.cells .sum noExtra) (cellV (fun x => (f x.cnt).toNat))

def counterParams : List Param :=
  [countP 0x01 (.cells .sum (unitV (·.msgSent.toNat))) (unitV (·.msgSent.toNat)),
   countP 0x02 (.cells .sum (unitV (·.msgReceived.toNat))) (unitV (·.msgReceived.toNat)),
   cellCount 0x03 (·.beatsLookup), cellCount 0x04 (·.beatsWait), cellCount 0x05 (·.lookups),
   cellCount 0x06 (·.tilesDrained), cellCount 0x07 (·.commandsDone), cellCount 0x08 (·.fetchBlocks),
   cellCount 0x09 (·.stalls), cellCount 0x0A (·.busyNs),
   scalarP 0x70 4 .rw (.only 0) (devV (fun s => (s.dbg.snapRoot.getD s.devAddr).toNat)),
   scalarP 0x71 0x0A .rw (.only 0) (devV (fun s => b2n s.dbg.snapLinks)),
   scalarP 0x72 1 .wo (.only 0) (fun _ _ => 0),
   countP 0x73 (.only 0) (devV (·.dbg.snapState)),
   ⟨0x7F, 0x0C, 1, 0, .ro, .own, false, false, fun s k => (s.unit k).shadow.bytes⟩]

def sparsityParams : List Param :=
  [cellCount 0x01 (·.absentDelivered), cellCount 0x02 (·.kblocksRemoved), cellCount 0x03 (·.predSelected),
   cellCount 0x04 (·.predGuarded), cellCount 0x05 (·.predAudited), cellCount 0x06 (·.predSkipped),
   cellCount 0x07 (·.predDisagree)]

def previewParams : List Param :=
  [cellCount 0x01 (·.tilesKerfed), cellCount 0x02 (·.deltaSkipped), cellCount 0x03 (·.deltaTies),
   cellCount 0x04 (·.keyTiles), cellCount 0x05 (·.cuts)]

def syncParams : List Param :=
  [countP 0x01 (.upTo 1 0 .sum) (dieV (·.syncOps.toNat)),
   countP 0x02 (.upTo 1 0 .sum) (fun s k => s.waiters.countP (fun w => decide (syncDie w.obj = dieOfKey k))),
   countP 0x03 (.upTo 1 0 .sum) (dieV (·.waitersSpilled.toNat)),
   countP 0x04 (.upTo 1 0 .sum) (dieV (·.waitersKilled.toNat)),
   countP 0x05 (.upTo 1 0 .sum) (dieV (·.counterOvf.toNat))]

def linkCounters : List Param :=
  [countP 0x01 (.only 0) (devV (·.net.flitsTx.toNat)), countP 0x02 (.only 0) (devV (·.net.badFlits.toNat)),
   countP 0x03 (.only 0) (devV (·.net.replays.toNat)), countP 0x04 (.only 0) (devV (·.net.degrades.toNat)),
   countP 0x05 (.only 0) (devV (·.net.forwarded.toNat)), countP 0x06 (.only 0) (devV (·.net.aborted.toNat)),
   countP 0x07 (.only 0) (devV (·.net.heldPk.length)), countP 0x08 (.only 0) (devV (·.net.heldPurged.toNat))]

def securityParams : List Param :=
  [scalarP 0x01 1 .ro (.only 0) (devV (·.sec.bootSlot.toNat)),
   arrayP 0x02 4 2 .ro (fun s i => (s.sec.boots (if i = 0 then s.sec.slotA else s.sec.slotB)).elim 0 (·.seq.toNat)),
   scalarP 0x03 1 .ro (.only 0) (devV (·.sec.svnMin)),
   arrayP 0x04 1 4 .ro (fun s i => (s.sec.key i).toNat),
   scalarP 0x05 1 .wo (.only 0) (fun _ _ => 0),
   domainP 0x06 33554368 .wo (fun _ => []),
   scalarP 0x07 1 .wo (.only 0) (fun _ _ => 0),
   scalarP 0x08 1 .ro (.only 0) (devV (·.sec.fwState.toNat)),
   domainP 0x09 64 .ro (fun _ => idPublic),
   domainP 0x0A 64 .ro (·.sec.akPublic),
   domainP 0x0B 0 .ro (·.sec.certChain),
   domainP 0x0C 512 .ro (fun s => (List.range 8).flatMap s.sec.mr),
   domainP 0x0D 33 .wo (fun _ => []),
   domainP 0x0E 0 .ro (·.sec.logBytes),
   domainP 0x0F 32 .wo (fun _ => []),
   domainP 0x10 50464 .ro (fun s => sliceD s.sec.quote 0 50464 0),
   scalarP 0x11 1 .ro (.only 0) (devV (·.sec.quoteState.toNat)),
   domainP 0x12 32 .ro (fun s => sliceD (s.sec.challenge.getD []) 0 32 0),
   domainP 0x13 29792 .wo (fun _ => [])]

def debugParams : List Param :=
  [scalarP 0x01 1 .rw (.only 0) (devV (fun s => b2n s.dbg.fabricReq)),
   scalarP 0x02 1 .ro (.only 0) (devV (·.dbg.freezeState)),
   countP 0x03 (.only 0) (devV (·.dbg.freezeAt.toNat)),
   scalarP 0x04 0x0A .ro (.only 0) (devV (fun s => b2n s.dbg.auth)),
   scalarP 0x05 4 .rw (.only 0) (devV (·.dbg.unit.toNat)),
   scalarP 0x06 1 .rw (.only 0) (devV (·.dbg.space.toNat)),
   scalarP 0x07 3 .rw (.only 0) (devV (·.dbg.offset.toNat)),
   domainP 0x08 4096 .ro (fun _ => []),
   countP 0x09 (.only 0) (devV (·.dbg.freezes.toNat))]

def eventParams : List Param :=
  [countP 0x01 (.only 0) (devV (·.evc.claims.toNat)), countP 0x02 (.only 0) (devV (·.evc.emptyClaims.toNat)),
   countP 0x03 (.only 0) (devV (·.evc.refires.toNat)), countP 0x04 (.only 0) (devV (·.evc.withdrawals.toNat)),
   scalarP 0x05 3 .ro (.only 0) (devV (·.evc.waiting))]

def streamParams : List Param :=
  [arrayP 0x01 4 8 .ro (fun s i => (s.stream i).read.toNat),
   arrayP 0x02 4 8 .ro (fun s i => (s.stream i).published.toNat),
   arrayP 0x03 4 64 .ro (fun s i => ((SMap.getD s.pcie.vecs i {}).sent).toNat),
   scalarP 0x04 1 .ro (.only 0) (devV (·.pcie.rate.toNat)),
   scalarP 0x05 1 .ro (.only 0) (devV (·.pcie.width.toNat)),
   scalarP 0x06 0x0A .ro (.only 0) (devV (fun s => b2n s.pcie.flit))]

def queueParams : List Param :=
  [scalarP 0x01 3 .rw (.cells .allEq noExtra) (cellV (·.cmdQtmo.toNat)),
   scalarP 0x02 3 .rw (.cells .allEq noExtra) (cellV (·.rplQtmo.toNat)),
   scalarP 0x03 3 .rw (.only 0) (devV (·.evc.hiqQtmo.toNat))]

/-- SEQ of the acting copy (Table 16-9). -/
def Dict.seq (d : Dict) : Nat :=
  if d.acting = (0 : BitVec 8) then d.storeA.elim 0 (·.seq.toNat)
  else if d.acting = (1 : BitVec 8) then d.storeB.elim 0 (·.seq.toNat) else 0

def storeParams : List Param :=
  [scalarP 0x01 1 .wo (.only 0) (fun _ _ => 0),
   countP 0x02 (.only 0) (devV (·.dict.seq)),
   scalarP 0x03 1 .ro (.only 0) (devV (·.dict.acting.toNat)),
   scalarP 0x04 1 .ro (.only 0) (devV (fun s => if s.dict.saving.isSome then 2 else b2n s.dict.dirty)),
   (scalarP 0x05 3 .rw (.only 0) (rawV 0xF000 0x05 1000)).kept,
   scalarP 0x06 1 .wo (.only 0) (fun _ _ => 0),
   countP 0x07 (.only 0) (devV (·.dict.saves.toNat)),
   countP 0x08 (.only 0) (devV (·.dict.storeFails.toNat)),
   scalarP 0x09 3 .ro (.only 0) (devV (·.dict.storeSkipped.toNat))]

/-- The parameter group of an index, without its subindex 0x00 (Table 16-12). -/
def paramsOf (index : Nat) : Option (List Param) :=
  match index with
  | 0x1000 => some identityParams
  | 0x1100 => some [scalarP 0x01 1 .const (.only 0) (fun _ _ => 1), scalarP 0x02 1 .const (.only 0) (fun _ _ => 0),
      scalarP 0x03 3 .const (.only 0) (fun _ _ => 0), scalarP 0x04 1 .const (.only 0) (fun _ _ => 8)]
  | 0x2000 => some powerParams
  | 0x2400 => some thermalParams
  | 0x3000 => some linkParams
  | 0x3100 => some [⟨0x01, 0x0C, 1, 131072, .rw, .only 0, false, false, fun s _ =>
      (List.range 65536).flatMap (fun i => bytesLE 2 (s.net.entry (BitVec.ofNat 16 i)).toNat)⟩]
  | 0x3800 => some mgmtParams
  | 0x4000 => some memoryParams
  | 0x4010 => some directoryParams
  | 0x4800 => some spadParams
  | 0x5000 => some precisionParams
  | 0x5810 => some carryParams
  | 0x5820 => some deltaParams
  | 0x6000 => some reliabilityParams
  | 0x6800 => some roleParams
  | 0x8000 => some counterParams
  | 0x8010 => some ((List.range 13).map (fun i => statusP (i + 1)))
  | 0x8040 => some sparsityParams
  | 0x8050 => some previewParams
  | 0x8060 => some syncParams
  | 0x8070 => some linkCounters
  | 0x9000 => some securityParams
  | 0xA000 => some debugParams
  | 0xB000 => some eventParams
  | 0xC000 => some streamParams
  | 0xC100 => some queueParams
  | 0xF000 => some storeParams
  | _ =>
    match calibOf index with
    | some c => some [c.param index 0x01 (c.typ c.neg) .const (fun _ k i => c.factory index k i)]
    | none => (calibOf (index - 0x400)).map (fun c => c.group (index - 0x400))

/-- The highest subindex of a group: its subindex 0x00 (R554). -/
def highest (l : List Param) : Nat := l.foldl (fun a p => max a p.sub) 0

/-- Subindex 0x00, with the instances of the group's parameters. -/
def countRow (l : List Param) : Param :=
  { scalarP 0x00 1 .ro .own (fun _ _ => highest l) with inst := (l.head?).elim .own (fun p =>
      match p.inst with
      | .only d => .only d
      | .upTo d top _ => .upTo d top .max
      | _ => .own) }

def findParam (l : List Param) (sub : Nat) : Option Param :=
  if sub = 0 then some (countRow l) else l.find? (fun p => decide (p.sub = sub))

/-! ### Values and aggregates (R560, R561) -/

/-- The keys of the units of depth `d` at or below a unit. -/
def baseUnits (k d : Nat) : List Nat :=
  let u : UnitAddr := BitVec.ofNat 64 k
  (List.range (UA.span (UA.depth u) / UA.span d)).map (fun j => UA.keyOf d (UA.index u + j * UA.span d))

/-- The parameter has an instance at a unit. -/
def Param.at (p : Param) (k : Nat) : Bool :=
  let d := UA.depth (BitVec.ofNat 64 k)
  match p.inst with
  | .only e => decide (d = e)
  | .own => true
  | .upTo e top _ => decide (top ≤ d ∧ d ≤ e)
  | .cells _ _ => true
  | .status => true

/-- The number that a scalar's bytes hold, by its type. -/
def Param.num (p : Param) (v : List Byte) : Int :=
  if 5 ≤ p.typ ∧ p.typ ≤ 8 then signed (8 * p.bytes) (ofBytesLE v) else ofBytesLE v

/-- The aggregate of the values of the units below, with the carcase's own (R561), and whether they disagree. -/
def Param.aggregate (p : Param) (g : Agg) (extra : Nat) (vs : List (List Byte)) : List Byte × Bool :=
  match vs with
  | [] => (bytesLE p.bytes extra, false)
  | v :: t =>
    match g with
    | .sum => (bytesLE p.bytes (min ((vs.map ofBytesLE).sum + extra) (2 ^ (8 * p.bytes) - 1)), false)
    | .max =>
      let m := t.foldl (fun a x => max a (p.num x)) (p.num v)
      (bytesInt p.bytes (if extra = 0 then m else max m extra), false)
    | .min => (bytesInt p.bytes (t.foldl (fun a x => min a (p.num x)) (p.num v)), false)
    | .allEq => (v, t.any (fun x => decide (x ≠ v)))

/-- What a read of the whole parameter at a unit gives, and whether members disagree (R561, R131). The merge of SPD_WIN_CNT takes
in the counts that the carcases keep of their own windows, which are read through the dictionary (R336; DEDUCED, log 31). -/
def State.readParam (s : State) (p : Param) (k : Nat) : List Byte × Bool :=
  let d := UA.depth (BitVec.ofNat 64 k)
  match p.inst with
  | .only _ => (p.val s k, false)
  | .own => (p.val s k, false)
  | .upTo e _ g => if d = e then (p.val s k, false) else p.aggregate g 0 ((baseUnits k e).map (p.val s))
  | .cells g extra => if d = 5 then (p.val s k, false) else p.aggregate g (extra s k) ((baseUnits k 5).map (p.val s))
  | .status =>
    if d = 5 then (p.val s k, false)
    else
      let own := if p.sub = 0x0D then (s.carcasesOf k).map UnitState.winCnt else []
      (bytesLE 8 (statusMerge p.sub
        ((baseUnits k 5).map (fun c => BitVec.ofNat 64 (ofBytesLE (p.val s c))) ++ own)).toNat, false)

/-- TOTAL of a parameter at a unit (Table 16-3). -/
def State.total (s : State) (p : Param) (k : Nat) : Nat := if p.bytes = 0 then (s.readParam p k).1.length else p.bytes

end Sys2Proof.Machine
end

