-- ==== Sys2Proof/Machine/Dict.lean ====
section
/-! DEFINITION. The dictionary service (R560 to R578): its requests, its answers, the checks of an access, reads, writes,
commit groups, and the persistent store (R587 to R593). -/

namespace Sys2Proof.Machine

open Sys2Proof

def State.modDict (s : State) (f : Dict → Dict) : State := { s with dict := f s.dict }

/-! ### Requests (Table 16-3) -/

/-- Field of `n` bytes at byte `i` of the header. -/
def DictReq.f (r : DictReq) (i n : Nat) : Nat := ofBytesLE ((r.hdr.drop i).take n)

def DictReq.op (r : DictReq) : Nat := r.f 1 1
def DictReq.isLocal (r : DictReq) : Bool := decide (r.f 2 1 % 2 = 1)
def DictReq.unit (r : DictReq) : UnitAddr := BitVec.ofNat 64 (r.f 8 8)
def DictReq.index (r : DictReq) : Nat := r.f 16 2
def DictReq.sub (r : DictReq) : Nat := r.f 18 1
def DictReq.typ (r : DictReq) : Nat := r.f 19 1
def DictReq.offset (r : DictReq) : Nat := r.f 20 4
def DictReq.length (r : DictReq) : Nat := r.f 24 4
def DictReq.isWrite (r : DictReq) : Bool := decide (r.op = 4)

/-- The data that follow the header, LENGTH bytes. -/
def DictReq.value (r : DictReq) : List Byte := r.data.take r.length
def DictReq.num (r : DictReq) : Nat := ofBytesLE r.value

def ReqPath.isChamois : ReqPath → Bool
  | .chamois _ _ => true
  | _ => false

/-- Status codes (Table 16-4). -/
def dsOk : Nat := 0x00
def dsNoObject : Nat := 0x01
def dsNoSub : Nat := 0x02
def dsNoInstance : Nat := 0x03
def dsNoUnit : Nat := 0x04
def dsReadOnly : Nat := 0x05
def dsWriteOnly : Nat := 0x06
def dsType : Nat := 0x07
def dsRange : Nat := 0x08
def dsRejected : Nat := 0x09
def dsMixed : Nat := 0x0A
def dsDenied : Nat := 0x0B
def dsBadRequest : Nat := 0x0C

/-! ### Answers -/

/-- The response header (Table 16-3). -/
def DictReq.response (r : DictReq) (status typ total len : Nat) : List Byte :=
  bytesLE 1 1 ++ bytesLE 1 (r.op + 0x80) ++ (r.hdr.drop 2).take 1 ++ bytesLE 1 status ++ (r.hdr.drop 4).take 15 ++
  bytesLE 1 typ ++ (r.hdr.drop 20).take 4 ++ bytesLE 4 len ++ bytesLE 4 total

/-- The device sends a datagram (FRAMES_TX, Table 16-9). -/
def Dict.send (d : Dict) (g : Datagram) : Dict := { d with mgmtTx := d.mgmtTx ++ [g], framesTx := d.framesTx + 1 }

/-- The mailbox holds a response (R577). -/
def Mailbox.answered (m : Mailbox) (hdr data : List Byte) : Mailbox :=
  { m with hdr := Memory.writeBytes m.hdr 0 hdr, data := Memory.writeBytes m.data 0 data, busy := false, done := true }

/-- The answer to a request on its path: MSI-X vector 8 follows one through BAR4 (R577), a Chamois response is kept among
the 16 most recent (R582), and one that a Function Level Reset has overtaken is discarded (R578). -/
def State.answer (s : State) (r : DictReq) (status typ total : Nat) (data : List Byte) : State :=
  let h := r.response status typ total data.length
  match r.path with
  | .bar4 => (s.modDict (fun d => { d with bar4 := d.bar4.answered h data })).vector 8
  | .loc => s.modDict (fun d => { d with loc := d.loc.answered h data })
  | .dropped => s
  | .chamois a p =>
    s.modDict (fun d =>
      let g : Datagram := ⟨a, p, h ++ data⟩
      let c := d.cache ++ [(a, p, BitVec.ofNat 32 (r.f 4 4), h ++ data)]
      { d.send g with cache := c.drop (c.length - 16) })

/-- An answer with a status other than OK and MIXED: TOTAL is zero (Table 16-3). TYPE is free where no parameter is named
(log 11). -/
def State.refuse (s : State) (r : DictReq) (p : Option Param) (status : Nat) : State :=
  match p with
  | some p => s.answer r status p.typ 0 []
  | none => s.useFree.answer r status (s.freshWord.toNat % 256) 0 []

/-- A write completes with OK. -/
def State.done (s : State) (r : DictReq) (p : Param) (k : Nat) : State := s.answer r dsOk p.typ (s.total p k) []

/-! ### The checks of an access (R560, R570, R574, R575; their order: log 31) -/

/-- The service works for a path: not in a full freeze (R572), nor before Driver ready (R664); in recovery for the PCIe
mailbox alone (R679). -/
def State.dictUp (s : State) (p : ReqPath) : Bool :=
  s.pwr.on && !s.dbg.fullFrozen &&
  (decide (s.pwr.boot = .ready) || (decide (s.pwr.boot = .recovery) && decide (p = .bar4)))

/-- CHAMOIS_MODE. -/
def State.chamoisMode (s : State) : Nat := rawV 0x3800 0x05 1 s 0

/-- Table 16-2 allows the access (R570, R586, R676). -/
def State.allows (s : State) (r : DictReq) : Bool :=
  let i := r.index
  let u := r.sub
  let area := i / 0x1000
  if r.path.isChamois then
    if r.isWrite then
      (decide (s.chamoisMode = 2) && decide (area ≠ 0x9 ∧ area ≠ 0xA) &&
        !decide ((i = 0x3800 ∧ u = 0x05) ∨ (i = 0xF000 ∧ u = 0x06))) ||
      (decide (s.chamoisMode ≠ 0) && !s.net.numbered && decide (i = 0x3000 ∧ (u = 0x01 ∨ u = 0x02)))
    else decide (s.chamoisMode ≠ 0)
  else
    !r.isWrite || s.dbg.auth ||
    (decide (area ≠ 0xA) && (decide (area ≠ 0x9) || decide (i = 0x9000 ∧ u ∈ [0x06, 0x07, 0x0D, 0x0F, 0x13])))

/-- The header breaks a rule that every path keeps (BAD_REQUEST). -/
def DictReq.bad (r : DictReq) : Bool :=
  decide (r.f 0 1 ≠ 1 ∨ (r.op ≠ 3 ∧ r.op ≠ 4) ∨ 1 < r.f 2 1 ∨ r.f 3 1 ≠ 0 ∨ r.f 28 4 ≠ 0 ∨
    (if r.path.isChamois then 1024 else 61440) < r.length)

/-- OFFSET and LENGTH fit the type (R575). -/
def fits (p : Param) (total offset length : Nat) : Bool :=
  if p.typ ≤ 0x0A then decide (offset = 0 ∧ (length = p.bytes ∨ length = 0))
  else decide (offset % p.elem = 0 ∧ length % p.elem = 0 ∧ offset + length ≤ total)

/-- An access: the parameter and the unit that it reaches, or the parameter found and the status. -/
def State.access (s : State) (r : DictReq) : Except (Option Param × Nat) (Param × Nat) :=
  let k := UA.key r.unit
  if r.bad then .error (none, dsBadRequest)
  else if !UA.canonical r.unit || !(r.isLocal || (s.net.numbered && s.local? r.unit)) then .error (none, dsNoUnit)
  else if !s.allows r then .error (none, dsDenied)
  else if r.isWrite && decide (0x7000 ≤ r.index ∧ r.index < 0x7400) then .error (none, dsReadOnly)
  else if decide (s.pwr.boot = .recovery) && decide (r.index ≠ 0x1000 ∧ r.index ≠ 0x9000) then .error (none, dsNoObject)
  else match paramsOf r.index with
  | none => .error (none, dsNoObject)
  | some l => match findParam l r.sub with
    | none => .error (none, dsNoSub)
    | some p =>
      if !p.at k then .error (some p, dsNoInstance)
      else if r.isWrite && decide (p.acc = .ro ∨ p.acc = .const) then .error (some p, dsReadOnly)
      else if !r.isWrite && decide (p.acc = .wo) then .error (some p, dsWriteOnly)
      else if r.typ ≠ p.typ ∨ ¬ fits p (s.total p k) r.offset r.length then .error (some p, dsType)
      else .ok (p, k)

/-! ### Which row of the command table serves a request -/

inductive ReqKind where
  | read | challenge | dbgData | write | stage | commit | discard | save | restore | snapGo | snapStop | freeze | thaw
  | purge | retrain | routes | grant | release | linkMode | revoke | fwStage | fwCommit | fwDiscard | extend | nonce
  | response
deriving DecidableEq, Repr

/-- A write of 0 to a U8. -/
def DictReq.zero (r : DictReq) : Bool := decide (r.length ≠ 0 ∧ r.num = 0)

/-- The parameter of an index and subindex is RWC. -/
def isRwc (index sub : Nat) : Bool :=
  (paramsOf index).elim false (fun l => (findParam l sub).elim false (fun p => decide (p.acc = .rwc)))

def hasCommit (index : Nat) : Bool := (paramsOf index).elim false (fun l => l.any (fun p => decide (p.sub = 0xFF)))

def DictReq.kind (r : DictReq) : ReqKind :=
  let i := r.index
  let u := r.sub
  if !r.isWrite then
    if i = 0x9000 ∧ u = 0x12 then .challenge else if i = 0xA000 ∧ u = 0x08 then .dbgData else .read
  else if u = 0xFF ∧ hasCommit i then (if r.zero then .discard else .commit)
  else if isRwc i u then .stage
  else if i = 0xF000 ∧ u = 0x01 then .save
  else if i = 0xF000 ∧ u = 0x06 then .restore
  else if i = 0x8000 ∧ u = 0x72 then (if r.length ≠ 0 ∧ r.num = 2 then .snapStop else .snapGo)
  else if i = 0xA000 ∧ u = 0x01 then (if r.zero then .thaw else .freeze)
  else if i = 0x3000 ∧ u = 0x0E then .purge
  else if i = 0x3000 ∧ u = 0x0D then .retrain
  else if i = 0x3000 ∧ u = 0x04 then .linkMode
  else if i = 0x3100 ∧ u = 0x01 then .routes
  else if i = 0x4000 ∧ (u = 0x06 ∨ u = 0x07) then .grant
  else if i = 0x6000 ∧ u = 0x0E then .release
  else if i = 0x9000 ∧ u = 0x05 then .revoke
  else if i = 0x9000 ∧ u = 0x06 then .fwStage
  else if i = 0x9000 ∧ u = 0x07 then (if r.zero then .fwDiscard else .fwCommit)
  else if i = 0x9000 ∧ u = 0x0D then .extend
  else if i = 0x9000 ∧ u = 0x0F then .nonce
  else if i = 0x9000 ∧ u = 0x13 then .response
  else .write

/-- The request at the head of the queue, where it is of a kind and the service works for its path. -/
def State.headReq (s : State) (k : ReqKind) : Option DictReq :=
  match s.dict.queue with
  | [] => none
  | r :: _ => if s.dictUp r.path && decide (r.kind = k) then some r else none

/-- Serve the head request: the checks, then nothing more where LENGTH is 0 (R576), else `f`. -/
def State.serve (s : State) (k : ReqKind) (f : State → DictReq → Param → Nat → State) : State :=
  match s.headReq k with
  | none => s
  | some r =>
    let s := s.modDict (fun d => { d with queue := d.queue.drop 1 })
    match s.access r with
    | .error e => s.refuse r e.1 e.2
    | .ok x => if r.length = 0 then s.done r x.1 x.2 else f s r x.1 x.2

/-- A write whose new state exists completes with OK, and any other with RANGE. -/
def State.finishWrite (s : State) (r : DictReq) (p : Param) (k : Nat) (t : Option State) : State :=
  match t with
  | some t => t.done r p k
  | none => s.refuse r (some p) dsRange

/-! ### Mailboxes (R577) -/

def Dict.mailbox (d : Dict) : MbPath → Mailbox
  | .bar4 => d.bar4
  | .loc => d.loc

def Dict.setMailbox (d : Dict) (p : MbPath) (m : Mailbox) : Dict :=
  match p with
  | .bar4 => { d with bar4 := m }
  | .loc => { d with loc := m }

/-- A write of the mailbox while BUSY is 0: MB_HDR and MB_DATA take bytes within their size, GO posts, MB_STAT clears. -/
def Mailbox.write (m : Mailbox) (w : MbWrite) : Mailbox :=
  match w with
  | .hdr o b => { m with hdr := Memory.writeBytes m.hdr o (b.take (32 - o)) }
  | .data o b => { m with data := Memory.writeBytes m.data o (b.take (61440 - o)) }
  | .go => { m with busy := true }
  | .stat d g => { m with done := m.done && !d, goerr := m.goerr && !g }

/-- The request that GO posts. -/
def Mailbox.request (m : Mailbox) (p : MbPath) : DictReq :=
  let r : DictReq := ⟨(match p with | .bar4 => .bar4 | .loc => .loc), Memory.readBytes m.hdr 0 32, []⟩
  { r with data := if r.isWrite then Memory.readBytes m.data 0 (min r.length 61440) else [] }

/-- A write of a mailbox: one of GO, MB_HDR or MB_DATA while BUSY is 1 is ignored and sets GOERR (R577). GO of BAR4 fires
MAILBOX (Table 13-4). -/
def State.mailboxWrite (s : State) (p : MbPath) (w : MbWrite) : State :=
  let m := s.dict.mailbox p
  match w with
  | .stat _ _ => s.modDict (·.setMailbox p (m.write w))
  | .go =>
    if m.busy then s.modDict (·.setMailbox p { m with goerr := true })
    else
      let s := s.modDict (fun d =>
        { d.setMailbox p (m.write w) with queue := d.queue ++ [m.request p] })
      if p = .bar4 then s.fire 10 else s
  | _ => s.modDict (·.setMailbox p (if m.busy then { m with goerr := true } else m.write w))

/-- MB_GO: the local port belongs to the harts (Table 16-5); a write through BAR4 in a full freeze acts at thaw (Table
18-5); in recovery BAR4 alone is there (R679). -/
def execMbGo (p : MbPath) (w : MbWrite) (s : State) : Out :=
  .next (match p with
    | .loc => onlyIf s.hostUp s (·.mailboxWrite .loc w)
    | .bar4 =>
      if s.pwr.on && decide (s.pwr.boot = .recovery) then s.mailboxWrite .bar4 w
      else s.barWrite (.mailbox w) (·.mailboxWrite .bar4 w))

/-! ### Reads (R559, R561, R571) -/

def State.serveRead (s : State) (r : DictReq) (p : Param) (k : Nat) : State :=
  let v := s.readParam p k
  s.answer r (if v.2 then dsMixed else dsOk) p.typ (s.total p k) ((v.1.drop r.offset).take r.length)

def execDictionaryRead (s : State) : Out := .next (s.serve .read State.serveRead)

/-! ### Writes -/

/-- A value with bytes replaced from an offset. -/
def patch (old : List Byte) (o : Nat) (v : List Byte) : List Byte := old.take o ++ v ++ old.drop (o + v.length)

/-- Every element of `n` bytes of a value meets a test. -/
def allElems (n : Nat) (v : List Byte) (f : Nat → Bool) : Bool :=
  (List.range (v.length / n)).all (fun i => f (elemOf (some v) n 0 i))

/-- An OFFSET of calibration lies in its user range (R595). -/
def calibOk (index : Nat) (v : List Byte) : Bool :=
  match calibOf (index - 0x400) with
  | some c => (List.range c.n).all (fun i => decide (-c.user ≤ c.offset (some v) i ∧ c.offset (some v) i ≤ c.user))
  | none => true

/-- The new value of a RW parameter lies in its range (Tables 7-8, 10-11, 14-8, 15-12, 16-9, 16-11, 18-1, 18-7). DESIGN CHOICE
(log 31): bits of a PEER_MAC or SPILL_TARGETS element outside its fields ("in bits [47:0]", "other bits zero") make it out of range;
R8, which ignores what is written to reserved bits, speaks of registers. -/
def rwOk (index sub : Nat) (v : List Byte) : Bool :=
  let n := ofBytesLE v
  match index, sub with
  | 0x3000, 0x02 => decide (n ≤ 1)
  | 0x3000, 0x03 => allElems 1 v (fun x => decide (x ≤ 2))
  | 0x3000, 0x04 => allElems 1 v (fun x => decide (x ≤ 2))
  | 0x3000, 0x05 => allElems 8 v (fun x => decide (x < 2 ^ 48))
  | 0x3000, 0x06 => allElems 2 v (fun x => decide (x ≤ 4094))
  | 0x3800, 0x05 => decide (n ≤ 2)
  | 0x4000, 0x01 => decide (4 ≤ n ∧ n ≤ 32 ∧ n % 2 = 0)
  | 0x4000, 0x09 => allElems 8 v (fun x => decide (x / 2 ^ 32 % 2 ^ 31 = 0))
  | 0x4010, 0x01 => decide (4194304 ≤ n ∧ n ≤ 268435456 ∧ 2 ^ Nat.log2 n = n)
  | 0x8000, 0x71 => decide (n ≤ 1)
  | 0xA000, 0x06 => decide (n ≤ 5)
  | 0xA000, 0x07 => decide (n % 8 = 0)
  | _, _ => if 0x7400 ≤ index ∧ index < 0x7800 then calibOk index v else true

/-- A value of the image (R591). -/
def Dict.setImage (d : Dict) (k : ParamKey) (v : List Byte) : Dict :=
  if d.image.any (fun p => decide (p.1 = k)) then
    { d with image := d.image.map (fun p => if p.1 = k then (k, v) else p) }
  else { d with image := d.image ++ [(k, v)] }

/-- Set a parameter at a unit that holds it: in the register that it is, or as a written value; a persistent one changes
the image, and one that acts at the next boot changes nothing else (R558, R591). -/
def State.setParam (s : State) (index : Nat) (p : Param) (k : Nat) (v : List Byte) : State :=
  let n := ofBytesLE v
  let c := cellOfKey k
  match index, p.sub with
  | 0x4800, 0x04 => s.modCell c (fun x => { x with ceLimit := BitVec.ofNat 8 n })
  | 0x6000, 0x02 => s.modCell c (fun x => { x with recomputeLimit := BitVec.ofNat 16 n })
  | 0x5820, 0x01 => s.modCell c (fun x => { x with deltaCap := BitVec.ofNat 64 n })
  | 0xC100, 0x01 => s.modCell c (fun x => { x with cmdQtmo := BitVec.ofNat 32 n })
  | 0xC100, 0x02 => s.modCell c (fun x => { x with rplQtmo := BitVec.ofNat 32 n })
  | 0xC100, 0x03 => s.modEvc (fun e => { e with hiqQtmo := BitVec.ofNat 32 n })
  | 0x8000, 0x70 => { s with dbg := { s.dbg with snapRoot := some (BitVec.ofNat 64 n) } }
  | 0x8000, 0x71 => { s with dbg := { s.dbg with snapLinks := decide (n = 1) } }
  | 0xA000, 0x05 => { s with dbg := { s.dbg with unit := BitVec.ofNat 64 n } }
  | 0xA000, 0x06 => { s with dbg := { s.dbg with space := BitVec.ofNat 8 n } }
  | 0xA000, 0x07 => { s with dbg := { s.dbg with offset := BitVec.ofNat 32 n } }
  | _, _ =>
    let key : ParamKey := ⟨k, index, p.sub⟩
    let d := if p.next then s.dict else s.dict.setRaw key v
    { s with dict := if p.persist then (d.setImage key v).touch s.runTime else d }

/-- The units at which a write acts: the cells of a carcase for a parameter instanced per cell (R562). -/
def Param.targets (p : Param) (k : Nat) : List Nat :=
  match p.inst with
  | .cells _ _ => baseUnits k 5
  | .upTo d _ _ => baseUnits k d
  | _ => [k]

/-- The write of a RW parameter, unless a new value is out of range. -/
def State.writeParam (s : State) (r : DictReq) (p : Param) (k : Nat) : Option State :=
  let new (u : Nat) : List Byte := patch (p.val s u) r.offset r.value
  if (p.targets k).all (fun u => rwOk r.index p.sub (new u)) then
    some ((p.targets k).foldl (fun t u => t.setParam r.index p u (new u)) s)
  else none

def State.serveWrite (s : State) (r : DictReq) (p : Param) (k : Nat) : State := s.finishWrite r p k (s.writeParam r p k)

/-- DICTIONARY_WRITE. -/
def execDictionaryWrite (s : State) : Out := .next (s.serve .write State.serveWrite)

/-! ### Commit groups (R563 to R569) -/

/-- The RWC parameters of a group. -/
def rwcOf (index : Nat) : List Param := (paramsOf index).elim [] (fun l => l.filter (fun p => decide (p.acc = .rwc)))

/-- The units whose stage buffers an access at a unit reaches (R562, R568). -/
def groupUnits (index k : Nat) : List Nat := ((rwcOf index).head?).elim [k] (fun p => p.targets k)

def Dict.stage (d : Dict) (k index : Nat) : Option (List (Nat × List Byte)) :=
  (d.stages.find? (fun x => decide (x.1 = ⟨k, index, 0⟩))).map (·.2)

def Dict.dropStage (d : Dict) (k index : Nat) : Dict :=
  { d with stages := d.stages.filter (fun x => decide (x.1 ≠ ⟨k, index, 0⟩)) }

/-- Place a value in the stage buffer, filled with the acting values at its first write (R563). -/
def State.stageAt (s : State) (index sub k : Nat) (v : List Byte) : State :=
  let old := (s.dict.stage k index).getD ((rwcOf index).map (fun p => (p.sub, p.val s k)))
  let new := old.map (fun x => if x.1 = sub then (sub, v) else x)
  let g : ParamKey := ⟨k, index, 0⟩
  s.modDict (fun d => { d.dropStage k index with stages := (d.dropStage k index).stages ++ [(g, new)] })

def State.serveStage (s : State) (r : DictReq) (p : Param) (k : Nat) : State :=
  ((p.targets k).foldl (fun t u => t.stageAt r.index p.sub u r.value) s).done r p k

/-- RWC_STAGE_WRITE. -/
def execRwcStageWrite (s : State) : Out := .next (s.serve .stage State.serveStage)

/-- A staged value of a group keeps the ranges and rules of the group (R565, R53, R685, R688). -/
def State.rwcOk (s : State) (index k : Nat) (vals : List (Nat × List Byte)) (sub : Nat) (v : List Byte) : Bool :=
  let n := ofBytesLE v
  match index, sub with
  | 0x2000, 0x01 => decide (150 ≤ n ∧ n ≤ if Config.variantAh then 300 else 400)
  | 0x2000, 0x02 => decide (600 ≤ n ∧ n ≤ 850)
  | 0x2000, 0x03 =>
    let top := ((vals.find? (fun x => decide (x.1 = 0x02))).map (fun x => ofBytesLE x.2)).getD 850
    decide (n = 0 ∨ (600 ≤ n ∧ n ≤ top))
  | 0x2400, 0x02 => decide (70 ≤ n ∧ n ≤ 100)
  | 0x3800, 0x02 => decide (1 ≤ n)
  | 0x3800, 0x03 => decide (1 ≤ n)
  | 0x4000, 0x0A => decide (n % 64 = 0 ∧ (n = s.wsBase ∨ s.mem.spill4 = []))
  | 0x4000, 0x0B => decide (n = s.wsUnits ∨ s.mem.spill4 = [])
  | 0x5810, 0x01 => decide (n ≤ 1048576)
  | 0x5810, 0x02 => decide (n ≤ 15)
  | 0x6800, 0x03 => decide (n ≤ 4)
  | 0x6800, 0x04 => decide (n = (s.unit k).epoch.toNat)
  | _, _ => true

/-- The lowest failing subindex of a pending commit, over all members (R565, R568). -/
def State.commitBad (s : State) (x : PendCommit) : Option Nat :=
  (x.vals.flatMap (fun u => (u.2.filter (fun y => !s.rwcOk x.index u.1 u.2 y.1 y.2)).map (·.1))).min?

/-- Two commits reach a stage buffer of one group in common. -/
def PendCommit.meets (x : PendCommit) (index : Nat) (units : List Nat) : Bool :=
  decide (x.index = index) && (groupUnits index x.unit).any (fun u => decide (u ∈ units))

/-- A write of 1 to COMMIT: the buffers freeze into a pending commit, checked whole; behind another it is checked when that
has been applied (R564, R565, R567). -/
def State.serveCommit (s : State) (r : DictReq) (p : Param) (k : Nat) : State :=
  if r.num ≠ 1 then s.refuse r (some p) dsRange
  else
    let us := groupUnits r.index k
    let vals := us.filterMap (fun u => (s.dict.stage u r.index).map (fun v => (u, v)))
    let t := s.modDict (fun d => us.foldl (fun d u => d.dropStage u r.index) d)
    let x : PendCommit := ⟨k, r.index, vals, r⟩
    if vals = [] then s.done r p k
    else if s.dict.commits.any (·.meets r.index us) then t.modDict (fun d => { d with commits := d.commits ++ [x] })
    else match s.commitBad x with
    | some b => t.answer r dsRejected p.typ b []
    | none => t.modDict (fun d => { d with commits := d.commits ++ [x] })

/-- COMMIT. -/
def execCommitGroup (s : State) : Out := .next (s.serve .commit State.serveCommit)

def State.serveDiscard (s : State) (r : DictReq) (p : Param) (k : Nat) : State :=
  (s.modDict (fun d => (groupUnits r.index k).foldl (fun d u => d.dropStage u r.index) d)).done r p k

/-- COMMIT_DISCARD. -/
def execCommitDiscard (s : State) : Out := .next (s.serve .discard State.serveDiscard)

/-- The group's parameters are held in the cells, or are those of roles, and act at quiescent points (R28, R566). -/
def atQuiescence (index : Nat) : Bool := decide (index ∈ [0x4800, 0x5820, 0x6000, 0x6800])

/-- Set what a commit sets. -/
def State.setCommit (s : State) (x : PendCommit) : State :=
  x.vals.foldl (fun s u => (rwcOf x.index).foldl (fun s p =>
    match u.2.find? (fun y => decide (y.1 = p.sub)) with
    | some y => s.setParam x.index p u.1 y.2
    | none => s) s) s

/-- The commit acts: of the role parameters it is a role change (R53, R54). -/
def State.applyCommit (s : State) (x : PendCommit) : State :=
  let t := s.setCommit x
  if x.index = 0x6800 then
    let u := UA.mk s.net.devId x.unit
    let role := (x.vals.flatMap (·.2)).find? (fun y => decide (y.1 = 0x03))
    let t := t.setRole u (BitVec.ofNat 8 (role.elim 0 (fun y => ofBytesLE y.2)))
    if UA.depth u = 0 then { t with net := t.net.announce } else t
  else t

/-- The first pending commit of a unit and group, with those before it. -/
def Dict.firstCommit (d : Dict) (k index : Nat) : Option (PendCommit × List PendCommit) :=
  (d.commits.find? (fun x => decide (x.unit = k ∧ x.index = index))).map (fun x =>
    (x, d.commits.takeWhile (fun y => decide (y ≠ x))))

/-- COMMIT_APPLY: at the instance's quiescent point, and not in a freeze (R572), or between two operations of the block
that holds the parameters; no earlier commit of these buffers waits. A commit that now fails a check changes nothing. -/
def State.commitApply (s : State) (u : UnitAddr) (index : Nat) : State :=
  match s.dict.firstCommit (UA.key u) index with
  | none => s
  | some (x, before) =>
    if before.any (·.meets index (groupUnits index x.unit)) then s
    else
      let t := s.modDict (fun d => { d with commits := d.commits.erase x })
      let p := commitP .own
      match s.commitBad x with
      | some b => t.answer x.req dsRejected p.typ b []
      | none =>
        if atQuiescence index && !(s.unitUp u && s.quiescent (UA.cells u)) then s
        else (t.applyCommit x).answer x.req dsOk p.typ 1 []

def execCommitApply (u : UnitAddr) (index : BitVec 16) (s : State) : Out :=
  .next (onlyIf (s.hostUp && UA.canonical u && s.local? u) s (·.commitApply u index.toNat))

/-! ### Chamois (R579 to R586) -/

def multicastAll : BitVec 128 := 0xFF020000000000000000000000000001

def Dict.framesIn (d : Dict) : Dict := { d with framesRx := d.framesRx + 1 }
def Dict.badDatagram (d : Dict) : Dict := { d with chamoisBad := d.chamoisBad + 1 }

/-- The datagram keeps Table 16-3 and the lengths of R581 as a READ or WRITE request. -/
def chamoisOk (r : DictReq) (bytes : Nat) : Bool :=
  !r.bad && decide (bytes = if r.isWrite then 32 + r.length else 32)

/-- The datagram is an answer of another device, an ANNOUNCE or a response (Table 16-3): it breaks no rule and asks for
nothing (DEDUCED, log 31). -/
def chamoisAnswer (r : DictReq) (bytes : Nat) : Bool :=
  decide (r.f 0 1 = 1 ∧ (r.op = 2 ∨ r.op = 0x83 ∨ r.op = 0x84) ∧ r.length ≤ 1024 ∧ bytes = 32 + r.length)

/-- A Chamois request: answered again (R582), discarded and counted (R581, R583), or queued. -/
def Dict.takeDatagram (d : Dict) (g : Datagram) : Dict :=
  let r : DictReq := ⟨.chamois g.addr g.port, g.bytes.take 32, g.bytes.drop 32⟩
  if chamoisAnswer r g.bytes.length then d
  else if !chamoisOk r g.bytes.length then d.badDatagram
  else match d.cache.find? (fun c => decide (c.1 = g.addr ∧ c.2.1 = g.port ∧ c.2.2.1.toNat = r.f 4 4)) with
  | some c => d.send ⟨g.addr, g.port, c.2.2.2⟩
  | none =>
    if 32 ≤ d.queue.countP (fun q => q.path.isChamois) then d.badDatagram else { d with queue := d.queue ++ [r] }

/-- The management network is served: the device runs, and its address is in use (R580, R664, R572). -/
def State.mgmtUp (s : State) : Bool := s.hostUp && decide (s.dict.dadState = 1)

/-- A Chamois frame: source CHAMOIS fires (Table 13-4); while the address is not in use it is not answered (R580). -/
def State.chamoisFrame (s : State) (g : Datagram) : State :=
  (s.modDict (fun d => if s.dict.dadState = 1 then d.framesIn.takeDatagram g else d.framesIn)).fire 11

/-- CHAMOIS_DATAGRAM. -/
def execChamoisDatagram (g : Datagram) (s : State) : Out := .next (onlyIf s.hostUp s (·.chamoisFrame g))

/-- A SOLICIT keeps Table 16-3 and R584. -/
def solicitOk (r : DictReq) (bytes : Nat) : Bool :=
  decide (bytes = 32 ∧ r.f 0 1 = 1 ∧ r.op = 1 ∧ r.f 2 1 ≤ 1 ∧ r.f 3 1 = 0 ∧ r.f 8 8 = 0 ∧ r.index = 0 ∧ r.offset = 0 ∧
    r.f 28 4 = 0)

/-- SOLICIT: an ANNOUNCE waits for its delay (R584). -/
def State.solicit (s : State) (g : Datagram) : State :=
  (s.modDict (fun d =>
    let d := d.framesIn
    if d.dadState ≠ 1 then d
    else if !solicitOk ⟨.chamois g.addr g.port, g.bytes, []⟩ g.bytes.length then d.badDatagram
    else if s.chamoisMode = 0 then d
    else { d with announces := d.announces ++ [g] })).fire 11

def execSolicit (g : Datagram) (s : State) : Out := .next (onlyIf s.hostUp s (·.solicit g))

/-- An ANNOUNCE: what Table 16-3 has as in the request is that of the SOLICIT with the header `h`, zeros of one that none asked
for (R584, R585, Table 16-7). -/
def State.announceBytes (s : State) (h : List Byte) : List Byte :=
  bytesLE 1 1 ++ bytesLE 1 2 ++ sliceD h 2 1 0 ++ bytesLE 1 0 ++ sliceD h 4 15 0 ++ bytesLE 1 0 ++ sliceD h 20 4 0 ++
  bytesLE 4 32 ++ bytesLE 4 0 ++
  bytesLE 8 serial.toNat ++ bytesLE 2 s.net.devId.toNat ++
  bytesLE 1 (b2n s.net.numbered + 2 * b2n (decide (s.chamoisMode = 2))) ++ bytesLE 1 (b2n Config.variantAh) ++
  bytesLE 4 s.sec.fwVersion.toNat ++ bytesLE 1 (s.unit 0).role.toNat ++ bytesLE 1 0 ++
  bytesLE 2 (s.unit 0).epoch.toNat ++ List.replicate 12 0

/-- ANNOUNCE_DELAY_EXPIRY: the delay was drawn at random (R584); the oldest that waits goes out. -/
def State.announceNext (s : State) : State :=
  match s.dict.announces with
  | [] => s
  | g :: t => s.modDict (fun d =>
      ({ d with announces := t }).send ⟨g.addr, g.port, s.announceBytes g.bytes⟩)

def execAnnounceDelayExpiry (s : State) : Out := .next (onlyIf s.mgmtUp s State.announceNext)

/-- DAD_COMPLETE (R580, R585): port 52411. -/
def State.dadComplete (s : State) (duplicate : Bool) : State :=
  if duplicate then s.modDict (fun d => { d with dadState := 2 })
  else s.modDict (fun d => ({ d with dadState := 1 }).send ⟨multicastAll, 52411, s.announceBytes []⟩)

def execDadComplete (duplicate : Bool) (s : State) : Out :=
  .next (onlyIf (s.hostUp && decide (s.dict.dadState = 0)) s (·.dadComplete duplicate))

/-- NEIGHBOR_SOLICITATION for the device's address: answered with an Advertisement (R579): type 136, flags solicited and
override, the target and the link-layer address option; the checksum is left to the network layer (log 32). -/
def State.neighbor (s : State) (g : Datagram) (target : BitVec 128) : State :=
  s.modDict (fun d =>
    let d := d.framesIn
    if target.toNat = ofBytesLE linkLocal.reverse ∧ d.dadState = 1 then
      d.send ⟨g.addr, 0, [136, 0, 0, 0, 0x60, 0, 0, 0] ++ linkLocal ++ [2, 1] ++ (bytesLE 6 mgmtMac).reverse⟩
    else d)

def execNeighborSolicitation (g : Datagram) (target : BitVec 128) (s : State) : Out :=
  .next (onlyIf s.hostUp s (·.neighbor g target))

/-- ECHO_REQUEST: answered with type 129 and the request's identifier, sequence number and data (R579; log 32). -/
def State.echo (s : State) (g : Datagram) : State :=
  s.modDict (fun d =>
    let d := d.framesIn
    if d.dadState = 1 then d.send ⟨g.addr, 0, [129, 0, 0, 0] ++ g.bytes.drop 4⟩ else d)

def execEchoRequest (g : Datagram) (s : State) : Out := .next (onlyIf s.hostUp s (·.echo g))

/-! ### The persistent store (R590 to R593) -/

def State.serveSave (s : State) (r : DictReq) (p : Param) (k : Nat) : State :=
  s.finishWrite r p k (if r.num = 1 then some s.startSave else none)

/-- SAVE. -/
def execSaveStore (s : State) : Out := .next (s.serve .save State.serveSave)

/-- SAVE_DELAY_EXPIRY: SAVE_DELAY_MS of time that no freeze holds after the first unsaved change (R591, R631). -/
def State.saveDue (s : State) : Bool :=
  s.dict.dirty && s.dict.saving.isNone &&
  decide (rawV 0xF000 0x05 1000 s 0 * 1000000 ≤ (s.runTime - s.dict.dirtySince).toNat)

def execSaveDelayExpiry (s : State) : Out := .next (onlyIf (s.hostUp && s.saveDue) s State.startSave)

/-- The copy that was written and checked becomes the acting copy (R590). -/
def Dict.saved (d : Dict) (c : StoreCopy) : Dict :=
  let d := { d with saving := none, saveRetry := false, saves := d.saves + 1 }
  if d.acting = (0 : BitVec 8) then { d with storeB := some c, acting := 1 } else { d with storeA := some c, acting := 0 }

/-- STORE_SAVE_COMPLETE: the check of the copy read back passed, or failed once, or twice (R590). -/
def State.saveComplete (s : State) (ok : Bool) : State :=
  match s.dict.saving with
  | none => s
  | some c =>
    let s :=
      if ok then s.modDict (·.saved c)
      else if s.dict.saveRetry then
        s.modDict (fun d => { d with saving := none, saveRetry := false, storeFails := d.storeFails + 1, dirty := true })
      else s.modDict (fun d => { d with saveRetry := true })
    if s.dict.saving.isNone && s.dict.saveNow then s.startSave else s

def execStoreSaveComplete (ok : Bool) (s : State) : Out := .next (onlyIf s.hostUp s (·.saveComplete ok))

/-- An index of the identity, reliability and scratchpad-mapping ranges (R593). -/
def keptRange (index : Nat) : Bool := decide (index ∈ [0x1000, 0x6000, 0x4800])

def State.serveRestore (s : State) (r : DictReq) (p : Param) (k : Nat) : State :=
  s.finishWrite r p k (if r.num = 1 then
    some (s.modDict (fun d => { d with image := d.image.filter (fun x => keptRange x.1.index) })).startSave else none)

/-- RESTORE. -/
def execRestoreStore (s : State) : Out := .next (s.serve .restore State.serveRestore)

/-! ### Writes with a behaviour of their own -/

/-- HOLD_PURGE: the packets held for the device ID are discarded and counted, their storage freed (R546). -/
def State.holdPurge (s : State) (dev : Nat) : State :=
  let n := s.net.heldPk.countP (fun h => decide (h.1 = dev))
  { s with mem := s.mem.releaseUse (.hold dev),
           net := { s.net with heldPk := s.net.heldPk.filter (fun h => decide (h.1 ≠ dev)),
                               heldPurged := s.net.heldPurged + BitVec.ofNat 64 n } }

def execHoldPurge (s : State) : Out := .next (s.serve .purge (fun s r p k => (s.holdPurge r.num).done r p k))

/-- Lanes of a link under its port's split (Table 15-1). -/
def Net.fullLanes (n : Net) (l : Nat) : Nat := 4 / 2 ^ n.splitOf l

/-- RETRAIN of a link index on its full lanes: an UP link pauses (R534), and more lanes are a change of capacity (R625); an index that
names no link is out of range. -/
def State.retrain (s : State) (l : Nat) : Option State :=
  if !s.net.exists? l then none
  else
    let k := s.net.link l
    let t : State := { s with net := s.net.setLink l { k with lanes := s.net.fullLanes l, retraining := decide (k.st = .up) } }
    some (if k.lanes = s.net.fullLanes l then t else t.fireStatus srcCapacity)

def execRetrain (s : State) : Out := .next (s.serve .retrain (fun s r p k => s.finishWrite r p k (s.retrain r.num)))

/-- A route entry as written: PORT 0 to 7, 0xE or 0xF; AUTO is cleared and the reserved bits read 0 (Table 15-9). -/
def routeOk (e : Nat) : Bool := decide (e % 16 ≤ 7 ∨ e % 16 = 14 ∨ e % 16 = 15)

/-- ROUTES: whole entries, in both copies at once (R543). -/
def State.writeRoutes (s : State) (r : DictReq) : Option State :=
  let first := r.offset / 2
  let n := ceilDiv (r.offset + r.length) 2 - first
  let old := (List.range n).flatMap (fun i => bytesLE 2 (s.net.entry (BitVec.ofNat 16 (first + i))).toNat)
  let new := patch old (r.offset - 2 * first) r.value
  if allElems 2 new routeOk then
    some { s with net := { s.net with routes := (List.range n).foldl (fun m i =>
      SMap.put m (first + i) (BitVec.ofNat 16 (elemOf (some new) 2 0 i % 0x2000)) 0x000F) s.net.routes } }
  else none

def execRoutesWrite (s : State) : Out := .next (s.serve .routes (fun s r p k => s.finishWrite r p k (s.writeRoutes r)))

/-- The grant from APP_BASE to APP_BASE + APP_UNITS − 1 moves to a new range: refused where it reaches WAITA or takes in
an extent in use; storage of the old grant outside the new one is zeroed and returns to the pool (R725). -/
def MemSys.moveGrant (m : MemSys) (base units : Nat) : Option MemSys :=
  if units ≠ 0 ∧ (m.waitBase / 64 < base + units ∨ m.extents.any (fun e => overlaps base units e.base e.units)) then none
  else
    let z := m.zeroUnits m.appBase (if units = 0 then m.appUnits else min m.appUnits (base - m.appBase))
    let hi := max m.appBase (base + units)
    let z := if units = 0 then z else z.zeroUnits hi (m.appBase + m.appUnits - hi)
    some { z with appBase := base, appUnits := units }

def State.writeGrant (s : State) (r : DictReq) : Option State :=
  (if r.sub = 0x06 then s.mem.moveGrant r.num s.mem.appUnits else s.mem.moveGrant s.mem.appBase r.num).map (fun m =>
    { s with mem := m })

def execAppGrantWrite (s : State) : Out := .next (s.serve .grant (fun s r p k => s.finishWrite r p k (s.writeGrant r)))

/-- LOST_RELEASE (R624): the address of a unit that is not held changes nothing. -/
def execLostRelease (s : State) : Out :=
  .next (s.serve .release (fun s r p k =>
    (if r.num ∈ s.mem.lost then s.releaseLost r.num else s).done r p k))

/-- The ID that an unnumbered device takes (R541): its links announce it, and a duplicate whose ID now differs is one no
more (R542). -/
def State.takeDevId (s : State) (dev : BitVec 16) : State :=
  let n := { s.net with devId := dev, numbered := true }
  let m := { n with links := n.links.map (fun (l : Nat × Link) =>
    (l.1, { l.2 with dup := l.2.dup && decide (l.2.partner.elim false (fun p => decide (p.devid = dev))) })) }
  { s with net := m.announce }

/-- DEV_ID_APPLY: at the quiescent point of an unnumbered device whose DEV_ID is valid (R541). -/
def execDevIdApply (s : State) : Out :=
  .next (onlyIf (s.fabricUp && !s.net.numbered && decide (keptV 0x3000 0x02 0 s 0 = 1) && s.quiescent (List.range 512)) s
    (fun s => s.takeDevId (BitVec.ofNat 16 (keptV 0x3000 0x01 0 s 0))))

/-- Links whose LINK_MODE is now 0 leave UP (Table 15-8); one that was off is ABSENT when it is no more 0 (log 34). -/
def Net.stopOff (n : Net) (mode : Nat → Nat) : Net :=
  { n with links := n.links.map (fun (l : Nat × Link) =>
      (l.1, if mode l.1 = 0 ∧ l.2.st = .up then { l.2 with st := .down, retraining := false }
        else if mode l.1 ≠ 0 ∧ l.2.st = .off then { l.2 with st := .absent, mode := BitVec.ofNat 8 (mode l.1) }
        else l.2)) }

/-- LINK_MODE of a link. -/
def State.linkMode (s : State) (l : Nat) : Nat := elemOf (s.dict.raw ⟨0, 0x3000, 0x04⟩) 1 1 l

def State.writeLinkMode (s : State) (r : DictReq) (p : Param) (k : Nat) : Option State :=
  (s.writeParam r p k).map (fun t => { t with net := t.net.stopOff t.linkMode })

def execLinkModeWrite (s : State) : Out := .next (s.serve .linkMode (fun s r p k => s.finishWrite r p k (s.writeLinkMode r p k)))

end Sys2Proof.Machine
end

