-- ==== Sys2Proof/Machine/Freeze.lean ====
section
/-! DEFINITION. Snapshot waves (R632 to R642), freezes (R643 to R646), debug reads (R647, R652) and the TAP chain (R650 to
R654). -/

namespace Sys2Proof.Machine

open Sys2Proof

/-! ### Waves: channels -/

def indices (l : List Nat) : List Nat := List.range l.length

/-- Links over which a wave goes (R637). -/
def State.waveLinks (s : State) (k : Nat) (w : Wave) : List (Fin 32) :=
  if k = 0 ∧ w.links then (List.finRange 32).filter (fun l => s.net.exists? l.val && decide ((s.net.link l.val).st = .up))
  else []

/-- The channels that owe the node a WAVE: from above, or the host message port at the root, from the members, between the
dies when the root is the device, and over links (R635 to R637). -/
def State.waveInputs (s : State) (k : Nat) (w : Wave) (root : UnitAddr) : List Chan :=
  let u := UA.mk s.net.devId k
  [if k = UA.key root then .host else .parent] ++ (indices (UA.children u)).map Chan.child ++
  (if UA.depth u = 1 ∧ UA.depth root = 0 then [.peer] else []) ++ (s.waveLinks k w).map Chan.link

/-- What the node sends on, each to the node and channel it arrives on; a root that a wave reached over a link has it back
from the host message port. -/
def State.waveOutputs (s : State) (k : Nat) (ch : Chan) (w : Wave) (root : UnitAddr) : List (Nat × Chan × Wave) :=
  let u := UA.mk s.net.devId k
  let d := UA.depth u
  (UA.children u).map (fun c => (c, Chan.parent, w)) ++
  (if k = UA.key root then (if ch = .host then [] else [(k, Chan.host, w)])
    else [(UA.keyOf (d - 1) (UA.index u), Chan.child (UA.digit u d), w)]) ++
  (if d = 1 ∧ UA.depth root = 0 then [(UA.keyOf 1 (256 - UA.index u), Chan.peer, w)] else [])

/-- The item of a WAVE (Table 18-2). -/
def Wave.item (w : Wave) : QItem :=
  ⟨true, 0x3E, BitVec.ofNat 120 (w.origin.toNat + w.num.toNat * 2 ^ 16 + b2n w.links * 2 ^ 48 + w.root.toNat * 2 ^ 56)⟩

/-- The WAVE goes out on both virtual channels of a link (R528). -/
def State.waveOverLinks (s : State) (k : Nat) (w : Wave) : State :=
  let p : Packet := ⟨[w.item], false, none⟩
  (s.waveLinks k w).foldl (fun s l =>
    { s with net := (s.net.enqueue l.val false p).enqueue l.val true p }) s

/-! ### Latching and folding -/

/-- The node's own value of a counter: a cell's, a die's, the device's, or a carcase's own messages (R628, R642). -/
def State.ownValue (s : State) (k : Nat) (index sub : Nat) : Word :=
  let d := UA.depth (BitVec.ofNat 64 k)
  match (paramsOf index).bind (fun l => findParam l sub) with
  | none => 0
  | some p =>
    match p.inst with
    | .cells _ extra => if d = 5 then BitVec.ofNat 64 (ofBytesLE (p.val s k)) else BitVec.ofNat 64 (extra s k)
    | .upTo e _ _ => if d = e then BitVec.ofNat 64 (ofBytesLE (p.val s k)) else 0
    | _ => BitVec.ofNat 64 (ofBytesLE (p.val s k))

/-- The counters of a node at one instant (R635). -/
def State.latch (s : State) (k : Nat) : List (Nat × Nat × Word) :=
  (latchedSet (UA.depth (BitVec.ofNat 64 k))).map (fun x => (x.1, x.2, s.ownValue k x.1 x.2))

/-- The local time of a node's die (R630). -/
def State.nodeTime (s : State) (k : Nat) : Word :=
  let u : UnitAddr := BitVec.ofNat 64 k
  if UA.depth u = 0 then s.timeHost else s.dieTime (UA.digit u 1)

/-- A child's values are folded in: every latched counter aggregates by sum, which stops at its largest value (R561,
R639). -/
def foldVals (a b : List (Nat × Nat × Word)) : List (Nat × Nat × Word) :=
  a.map (fun x =>
    match b.find? (fun y => decide (y.1 = x.1 ∧ y.2.1 = x.2.1)) with
    | some y => (x.1, x.2.1, BitVec.ofNat 64 (min (x.2.2.toNat + y.2.2.toNat) (2 ^ 64 - 1)))
    | none => x)

/-- The body of a SNAPSHOT message: the wave, then one item for each value (the manual gives no layout; log 33). -/
def Shadow.body (h : Shadow) : List Payload :=
  BitVec.ofNat 120 (h.origin.toNat + h.num.toNat * 2 ^ 16) ::
  h.vals.map (fun v => BitVec.ofNat 120 (v.1 + v.2.1 * 2 ^ 16 + v.2.2.toNat * 2 ^ 24))

/-- The values that a SNAPSHOT message carries. -/
def reportVals (m : Msg) : List (Nat × Nat × Word) :=
  (m.body.drop 1).map (fun p => (fld p 15 0, fld p 23 16, BitVec.ofNat 64 (fld p 87 24)))

/-- A node is complete: it reports to its parent, or ends the wave at the root (R635, R639). -/
def State.waveCheck (s : State) (k : Nat) : State :=
  let h := (s.unit k).shadow
  let u := UA.mk s.net.devId k
  if h.state = 1 ∧ ¬ h.reported ∧ h.pending = [] ∧ (UA.children u).all (fun c => decide (c ∈ h.kids)) then
    let s := s.modUnit k (fun v => { v with shadow := { h with state := 2, reported := true } })
    if k = UA.key h.root then
      if h.origin = s.net.devId ∧ h.num = s.dbg.snapNum ∧ h.root.toNat / 2 ^ 48 = s.net.devId.toNat then
        if s.dbg.snapDone then s
        else ({ s with dbg := { s.dbg with snapDone := true } }).fireStatus srcSnapshot
      else s.fireStatus srcSnapshot
    else
      let t : BitVec 32 := s.freshWord.setWidth 32
      let up := UA.mk s.net.devId (UA.keyOf (UA.depth u - 1) (UA.index u))
      s.useFree.sendMsg { dest := up, epoch := Config.replyEpoch up t, cls := 0x09, tag := t, src := u, code := 0,
                          bounced := false, body := h.body }
  else s

/-- snapshot_wave() at a node, on its first arrival of a wave: latch and send on. -/
def State.waveFirst (s : State) (k : Nat) (ch : Chan) (w : Wave) (root : UnitAddr) : State :=
  let h : Shadow := { origin := w.origin, state := 1, num := w.num, time := s.nodeTime k, vals := s.latch k, root := root,
                      pending := s.waveInputs k w root }
  let out := s.waveOutputs k ch w root
  let s := s.waveOverLinks k w
  let s := s.modUnit k (fun v => { v with shadow := h })
  { s with net := { s.net with waves := s.net.waves ++ out, behind := s.net.behind.filter (fun b =>
      decide (¬ (UA.key b.1.dest = k ∧ b.2.1 = w.origin ∧ b.2.2 = w.num))) } }

/-- snapshot_wave(). -/
def State.waveAt (s : State) (k : Nat) (ch : Chan) (w : Wave) : State :=
  let root := s.waveRoot w
  if !s.inScope k root then s
  else
    let h := (s.unit k).shadow
    let s := if h.holds w then s else s.waveFirst k ch w root
    (s.modUnit k (fun v => { v with shadow := { v.shadow with pending := v.shadow.pending.erase ch } })).waveCheck k

/-- A message that the host message port sent before it started this wave is still on its way to the node (R633). -/
def State.waveBehind (s : State) (k : Nat) (w : Wave) : Bool :=
  decide (w.origin = s.net.devId ∧ w.num = s.dbg.snapNum) &&
  s.net.ahead.any (fun m => decide (UA.key m.dest = k ∧ m ∈ s.net.inFlight))

/-- WAVE_ARRIVAL: a WAVE on its way to the node arrives, behind what went before it; none moves in a freeze (R633, R635, R641). -/
def execWaveArrival (u : UnitAddr) (ch : Chan) (w : Wave) (s : State) : Out :=
  let e : Nat × Chan × Wave := (UA.key u, ch, w)
  .next (onlyIf (s.local? u && s.unitUp u && decide (e ∈ s.net.waves) && !s.waveBehind (UA.key u) w) s (fun s =>
    ({ s with net := { s.net with waves := s.net.waves.erase e } }).waveAt (UA.key u) ch w))

/-- SNAPSHOT_REPORT: a member's report of the wave that the node has latched is folded in; one of another wave, or of an
abandoned one at its root, is discarded (R634, R639). -/
def State.report (s : State) (m : Msg) : State :=
  let k := UA.key m.dest
  let h := (s.unit k).shadow
  let o : BitVec 16 := BitVec.ofNat 16 (m.fld 0 15 0)
  let n : BitVec 32 := BitVec.ofNat 32 (m.fld 0 47 16)
  let gone := decide (k = UA.key h.root) && s.dbg.snapAbandoned && decide (o = s.net.devId ∧ n = s.dbg.snapNum)
  if h.state ≠ 1 ∨ h.origin ≠ o ∨ h.num ≠ n ∨ gone ∨ UA.key m.src ∈ h.kids then s
  else
    (s.modUnit k (fun v => { v with shadow := { h with vals := foldVals h.vals (reportVals m), kids := h.kids ++ [UA.key m.src] } })).waveCheck k

def execSnapshotReport (m : Msg) (s : State) : Out :=
  .next (onlyIf (s.requestOk m 0x09 && decide (UA.key m.src ∈ UA.children m.dest) && s.local? m.src) s
    (fun s => ((s.takeMsg m).received m).report m))

/-- A write of 1 to SNAP_GO (R633). -/
def State.snapGo (s : State) (n : Nat) : Option State :=
  let root := s.dbg.snapRoot.getD s.devAddr
  if n ≠ 1 ∨ ¬ UA.canonical root ∨ ¬ s.local? root ∨ ¬ s.dbg.snapDone then none
  else
    let num := s.dbg.snapNum + 1
    let w : Wave := ⟨s.net.devId, num, s.dbg.snapLinks, root⟩
    some { s with dbg := { s.dbg with snapNum := num, snapDone := false, snapAbandoned := false },
                  net := { s.net with
                    waves := s.net.waves ++ [(UA.key root, .host, w)],
                    ahead := s.net.inFlight.filter (fun m => s.local? m.src && decide (UA.depth m.src = 0)) } }

def execSnapGoStart (s : State) : Out := .next (s.serve .snapGo (fun s r p k => s.finishWrite r p k (s.snapGo r.num)))

/-- A write of 2 to SNAP_GO (R634). -/
def State.snapStop (s : State) : State :=
  if s.dbg.snapDone then s else { s with dbg := { s.dbg with snapDone := true, snapAbandoned := true } }

def execSnapGoAbandon (s : State) : Out := .next (s.serve .snapStop (fun s r p k => s.snapStop.done r p k))

/-! ### Freezes -/

/-- What waited for the thaw acts: the BAR writes of a full freeze in their order, then the doorbells (R646, Table 18-5). -/
def State.barOp (s : State) : BarOp → State
  | .sqTail st v w1c => (s.clearStream st.val w1c).sqTail st.val v
  | .cqHead st v => s.cqHead st.val v
  | .streamReset st w => s.streamReset st.val w
  | .flr => s.flr
  | .unmask v => s.unmask v.val
  | .mailbox w => s.mailboxWrite .bar4 w

def State.runBarOps (s : State) : State :=
  s.dbg.barWait.foldl State.barOp { s with dbg := { s.dbg with barWait := [] } }

def State.ringDoorbells (s : State) : State :=
  s.dbg.doorWait.foldl (fun s id => s.fire id.toNat) { s with dbg := { s.dbg with doorWait := [] } }

/-- The thaw of what no freeze holds any more. -/
def State.thaw (s : State) : State :=
  let s := if s.dbg.fullFrozen then s else s.runBarOps
  if s.frozen then s else s.ringDoorbells

/-- FABRIC_FREEZE_REQUEST: a write of 1; other values are rejected (Table 18-7). -/
def execFabricFreezeRequest (s : State) : Out :=
  .next (s.serve .freeze (fun s r p k => s.finishWrite r p k
    (if r.num = 1 then some { s with dbg := { s.dbg with fabricReq := true } } else none)))

/-- FABRIC_FREEZE_END: a write of 0 (R645). -/
def State.endFabric (s : State) : State :=
  ({ s with dbg := { s.dbg with fabricReq := false, fabricFrozen := false } }).thaw

def execFabricFreezeEnd (s : State) : Out := .next (s.serve .thaw (fun s r p k => s.endFabric.done r p k))

/-- FREEZE_N has been low for 1 µs (Table 18-5), and no input of a higher rank holds (R712). -/
def State.lowLong (s : State) : Bool := s.pwr.perstN && decide (1000 ≤ (s.timeHost - s.dbg.lowAt).toNat)

/-- FREEZE_REACHED: the full freeze acts while both are requested; its debug contents are readable if DBG_AUTH is 1 now
(R644, R646, R648). -/
def State.reachFreeze (s : State) : State :=
  let now := s.timeHost
  if s.dbg.fullReq ∧ ¬ s.dbg.fullFrozen ∧ s.lowLong then
    { s with dbg := { s.dbg with fullFrozen := true, fullDebug := s.dbg.auth, freezeAt := now, freezes := s.dbg.freezes + 1 } }
  else if s.dbg.fabricReq ∧ ¬ s.dbg.fabricFrozen ∧ ¬ s.dbg.fullReq then
    { s with dbg := { s.dbg with fabricFrozen := true, freezeAt := now, freezes := s.dbg.freezes + 1 } }
  else s

def execFreezeReached (s : State) : Out := .next (onlyIf s.up s State.reachFreeze)

/-- FREEZE_N low: the module ignores it until Driver ready (R712). -/
def execFreezeNAssert (s : State) : Out :=
  .next { s with pwr := { s.pwr with freezeN := false }, dbg := { s.dbg with
    fullReq := s.dbg.fullReq || s.up, lowAt := if s.pwr.freezeN then s.timeHost else s.dbg.lowAt } }

/-- FREEZE_N high: the full freeze ends; a requested fabric freeze holds on (R645, R646). -/
def State.endFull (s : State) : State :=
  let d := { s.dbg with fullReq := false, fullFrozen := false, fullDebug := false,
                        fabricFrozen := s.dbg.fabricFrozen || (s.dbg.fullFrozen && s.dbg.fabricReq) }
  ({ s with dbg := d, pwr := { s.pwr with freezeN := true } }).thaw

def execFreezeNDeassert (s : State) : Out := .next s.endFull

/-! ### Debug spaces (Table 18-6) -/

def debugSize : Nat → Nat
  | 0 => 0x201200
  | 1 => 8192
  | 2 => 8192
  | 3 => 524288
  | 4 => 6144
  | 5 => 16384
  | _ => 0

/-- The byte of accumulator words (R110). -/
def accByte (f : Nat → Word) (i : Nat) : Byte := BitVec.ofNat 8 ((f (i / 8)).toNat / 2 ^ (8 * (i % 8)))

def Tile.word (t : Tile) (i : Nat) : Word := accWord (SMap.getD t.elems i 0) t.poison false

def inletWord (t : Tile) (i : Nat) : Word := t.inlet.elim 0 (fun k => accWord (SMap.getD k.elems i 0) k.poison false)

/-- A byte of table stores whose 12-bit entries follow one another (log 15). -/
def tableByte (m : SMap (BitVec 12)) (i : Nat) : Byte :=
  let e (j : Nat) : Nat := (SMap.getD m j 0).toNat
  let a := 8 * i / 12
  BitVec.ofNat 8 ((e a + e (a + 1) * 2 ^ 12) / 2 ^ (8 * i % 12))

/-- What the debug spaces hold of a cell: one that a kill or a SCRUB has stopped shows nothing of its job, though the scrub still
waits for its fences (R333; DEDUCED, log 38). -/
def State.debugCell (s : State) (c : CellIx) : Cell := if (s.cell c).scrubbing then (s.cell c).scrubbed else s.cell c

/-- Byte `i` of a debug space of a cell. -/
def State.debugByte (s : State) (c : CellIx) (space i : Nat) : Byte :=
  let x := s.debugCell c
  let s := s.modCell c (fun _ => x)
  match space with
  | 0 =>
    if i < 0x200000 then Memory.read x.spad i
    else BitVec.ofNat 8 (((s.narrowReg c (i / 8 * 8)).getD 0).toNat / 2 ^ (8 * (i % 8)))
  | 1 => accByte x.tile0.word i
  | 2 => accByte x.tile1.word i
  | 3 => accByte (fun n => let v := SMap.getD x.sab.slots n {}; accWord v.value v.poison v.touched) i
  | 4 => if i < 3072 then tableByte x.rowTab i else tableByte x.colTab (i - 3072)
  | 5 => if i < 8192 then accByte (inletWord x.tile0) i else accByte (inletWord x.tile1) (i - 8192)
  | _ => 0

def State.debugBytes (s : State) (c : CellIx) (space o n : Nat) : List Byte :=
  (List.range n).map (fun i => s.debugByte c space (o + i))

/-- DBG_DATA_READ (R647). -/
def State.debugRead (s : State) (r : DictReq) (p : Param) (k : Nat) : State :=
  let u := s.dbg.unit
  let o := s.dbg.offset.toNat
  let sp := s.dbg.space.toNat
  if ¬ s.dbg.fabricFrozen ∨ ¬ s.dbg.auth then s.refuse r (some p) dsDenied
  else if ¬ (UA.canonical u ∧ UA.depth u = 5 ∧ s.local? u) ∨ debugSize sp < o + 4096 then s.refuse r (some p) dsRange
  else s.answer r dsOk p.typ (s.total p k) (s.debugBytes (cellIx (UA.index u)) sp (o + r.offset) r.length)

def execDbgDataRead (s : State) : Out := .next (s.serve .dbgData State.debugRead)

/-! ### TAPs -/

def Dbg.setTap (d : Dbg) (i : Nat) (t : Tap) : Dbg :=
  if i = 0 then { d with tap0 := t } else if i = 1 then { d with tap1 := t } else { d with tap2 := t }

def State.modTap (s : State) (i : Nat) (f : Tap → Tap) : State := { s with dbg := s.dbg.setTap i (f (s.dbg.tap i)) }

/-- A TAP instruction that is not BYPASS (R651): DBG_ACCESS on a compute die only. -/
def tapKnown (i : Nat) (opc : BitVec 8) : Bool :=
  decide (opc.toNat ∈ [0x00, 0x01, 0x02, 0x04, 0x05, 0x06, 0x07, 0x10] ∨ (opc = 0x11 ∧ i ≠ 0))

/-- The pins of a TAP stop carrying traffic: PCIe at the host die, the links of its ports at a compute die, as if their
cables were pulled (R654). -/
def State.pullPins (s : State) (i : Nat) : State :=
  if i = 0 then { s with pcie := { s.pcie with up := false } }
  else { s with net := { s.net with links := s.net.links.map (fun (l : Nat × Link) =>
      (l.1, if l.1 / 16 = i - 1 then
        { l.2 with lock := false, retraining := false, st := if l.2.st = .up then .down else l.2.st } else l.2)) } }

/-- The instruction register of a TAP takes an opcode. -/
def State.selectTap (s : State) (i : Nat) (opc : BitVec 8) : State :=
  let s := s.modTap i (fun t => { t with instr := opc })
  if holdsPins opc then s.pullPins i else s

/-- TAP_RESET selects IDCODE in every TAP and does not affect the device (R650). -/
def execTapReset (s : State) : Out :=
  .next (onlyIf s.pwr.on s (fun s => (List.range 3).foldl (fun s i => s.modTap i (fun t => { t with instr := 0x01 })) s))

/-- BYPASS, and every opcode that acts as BYPASS (R651): its 1-bit register captures 0 (IEEE 1149.1, PRESUMED). -/
def execBypassTap (tap : Fin 3) (opc : BitVec 8) (s : State) : Out :=
  .next (onlyIf (s.pwr.on && !tapKnown tap.val opc) s (fun s =>
    (s.selectTap tap.val opc).modTap tap.val (fun t => { t with capture := 0 })))

/-- IDCODE: version, part number, manufacturer and, as IEEE 1149.1 has it, bit 0 set (Table 18-8). -/
def idcode (tap : Nat) : Nat :=
  Config.idVersion.toNat * 2 ^ 28 + (if tap = 0 then 0x3201 else 0x3202) * 2 ^ 12 + Config.idMaker.toNat * 2 + 1

def execIdcodeTap (tap : Fin 3) (s : State) : Out :=
  .next (onlyIf s.pwr.on s (fun s => (s.selectTap tap.val 0x01).modTap tap.val (fun t => { t with capture := idcode tap.val })))

/-- SAMPLE/PRELOAD: the boundary register is preloaded; the pins go on (IEEE 1149.1). -/
def execSamplePreload (tap : Fin 3) (boundary : List Bool) (s : State) : Out :=
  .next (onlyIf s.pwr.on s (fun s =>
    (s.selectTap tap.val 0x02).modTap tap.val (fun t => { t with boundary := boundary })))

def execExtest (tap : Fin 3) (s : State) : Out := .next (onlyIf s.pwr.on s (·.selectTap tap.val 0x00))
def execClampTap (tap : Fin 3) (s : State) : Out :=
  .next (onlyIf s.pwr.on s (fun s => (s.selectTap tap.val 0x04).modTap tap.val (fun t => { t with capture := 0 })))
def execHighzTap (tap : Fin 3) (s : State) : Out :=
  .next (onlyIf s.pwr.on s (fun s => (s.selectTap tap.val 0x05).modTap tap.val (fun t => { t with capture := 0 })))
def execExtestPulse (tap : Fin 3) (s : State) : Out := .next (onlyIf s.pwr.on s (·.selectTap tap.val 0x06))
def execExtestTrain (tap : Fin 3) (s : State) : Out := .next (onlyIf s.pwr.on s (·.selectTap tap.val 0x07))

/-- FRZ_STATUS (Table 18-8). -/
def Dbg.frzStatus (d : Dbg) : Nat := b2n d.fullFrozen + 2 * b2n d.fabricFrozen + 4 * b2n d.auth

def execFrzStatus (tap : Fin 3) (s : State) : Out :=
  .next (onlyIf s.pwr.on s (fun s =>
    (s.selectTap tap.val 0x10).modTap tap.val (fun t => { t with capture := s.dbg.frzStatus })))

/-- The captured DBG_ACCESS register (Table 18-9). -/
def Tap.access (t : Tap) : Nat := t.dbgData.toNat + b2n t.dbgDone * 2 ^ 161 + b2n t.dbgErr * 2 ^ 162

/-- An Update-DR of DBG_ACCESS, after the capture of the previous result (R652). -/
def State.dbgAccess (s : State) (tap : Nat) (dr : BitVec 168) : State :=
  let u : UnitAddr := (dr >>> 64).setWidth 64
  let sp := fld dr 135 128
  let o := 8 * fld dr 159 136
  let c := cellIx (UA.index u)
  let ok := s.dbg.fullFrozen && s.dbg.fullDebug && UA.canonical u && decide (UA.depth u = 5) && s.local? u &&
    decide (CellIx.die c = tap - 1) && decide (o + 8 ≤ debugSize sp)
  let s := (s.selectTap tap 0x11).modTap tap (fun t => { t with capture := t.access })
  if dr.getLsbD 160 then
    s.modTap tap (fun t =>
      { t with dbgDone := true, dbgErr := !ok,
               dbgData := if ok then BitVec.ofNat 64 (ofBytesLE (s.debugBytes c sp o 8)) else 0 })
  else s

/-- DBG_ACCESS; on the host die the opcode acts as BYPASS (Table 18-8). -/
def execDbgAccess (tap : Fin 3) (dr : BitVec 168) (s : State) : Out :=
  .next (onlyIf s.pwr.on s (fun s =>
    if tap.val = 0 then (s.selectTap 0 0x11).modTap 0 (fun t => { t with capture := 0 }) else s.dbgAccess tap.val dr))

end Sys2Proof.Machine
end

