-- ==== Sys2Proof/Machine/Links.lean ====
section
/-! DEFINITION. Spline links: flits and their checks (R525 to R528), retry (R529 to R534), Ethernet mode (R535, R536),
partners (R537 to R542), forwarding and arrival (R539, R540, R545 to R547), cables (R702). -/

namespace Sys2Proof.Machine

open Sys2Proof

/-! ### CRC-32C (R527) -/

/-- One bit of the reflected polynomial 0x1EDC_6F41. -/
def crcBit (c : BitVec 32) : BitVec 32 := if c.getLsbD 0 then (c >>> 1) ^^^ 0x82F63B78 else c >>> 1

def crcByte (c : BitVec 32) (b : Byte) : BitVec 32 :=
  (List.range 8).foldl (fun c _ => crcBit c) (c ^^^ b.setWidth 32)

def crc32c (bs : List Byte) : BitVec 32 := ~~~(bs.foldl crcByte 0xFFFFFFFF)

/-! ### Flits (Tables 15-3 and 10-1) -/

/-- Header bits [hi:lo] of a flit. -/
def flitFld (b : List Byte) (hi lo : Nat) : Nat := ofBytesLE (b.take 8) / 2 ^ lo % 2 ^ (hi + 1 - lo)

def flitType (b : List Byte) : Nat := flitFld b 3 0
def flitAbort (b : List Byte) : Bool := decide (flitFld b 9 9 = 1)

/-- Item slot `i`. -/
def flitItem (b : List Byte) (i : Nat) : QItem :=
  let w := ofBytesLE ((b.drop (8 + 16 * i)).take 16)
  ⟨w.testBit 126, BitVec.ofNat 6 (w / 2 ^ 120), BitVec.ofNat 120 w⟩

def flitItems (b : List Byte) : List QItem := (List.range (flitFld b 8 5)).map (flitItem b)

/-- The reserved bits of a flit are zero, and its TYPE and NITEMS are valid (Tables 15-3, 15-7). -/
def flitForm (b : List Byte) : Bool :=
  let z (i n : Nat) : Bool := decide (ofBytesLE ((b.drop i).take n) = 0)
  decide (b.length = 256) && z 252 4 && decide (flitFld b 63 56 = 0) &&
  match flitType b with
  | 1 => if flitAbort b then decide (flitFld b 8 5 = 0) else decide (flitFld b 8 5 ≠ 0)
  | 2 => decide (flitFld b 21 4 = 0)
  | 3 => decide (flitFld b 21 4 = 0) && decide (ofBytesLE ((b.drop 10).take 1) < 4) && z 28 220
  | 4 => decide (flitFld b 21 4 = 0)
  | _ => false

/-- A flit that is not a bad flit (R527). -/
def flitOk (b : List Byte) : Bool :=
  flitForm b && decide ((crc32c (b.take 248)).toNat = ofBytesLE ((b.drop 248).take 4))

/-! ### HELLO (Table 15-7) -/

/-- The lanes in use. -/
def State.helloBytes (s : State) (l : Nat) : List Byte :=
  let k := s.net.link l
  bytesLE 2 s.net.devId.toNat ++ bytesLE 1 (b2n (!s.net.numbered) + 2 * b2n k.dup) ++ bytesLE 1 l ++ bytesLE 1 k.lanes ++
  bytesLE 1 (s.unit 0).role.toNat ++ bytesLE 2 (s.unit 0).epoch.toNat ++ bytesLE 8 serial.toNat ++ bytesLE 4 k.hseq.toNat

/-- A flit of a type with what the link reports (Table 15-3) and an item area. -/
def Link.flit (k : Link) (typ : Nat) (area : List Byte) : List Byte :=
  let h := typ + k.rxSeq.toNat * 2 ^ 22 + b2n k.rxAny * 2 ^ 34 + b2n k.nakSend * 2 ^ 35 +
    min k.owe0 1023 * 2 ^ 36 + min k.owe1 1023 * 2 ^ 46
  let b := bytesLE 8 h ++ sliceD area 0 240 0
  b ++ bytesLE 4 (crc32c b).toNat ++ List.replicate 4 0

/-- The MAC address of a link (R535). -/
def linkMac (l : Nat) : Nat := baseMac + l

/-- A MAC address in transmission order. -/
def macBytes (m : Nat) : List Byte := (bytesLE 6 m).reverse

/-- The partner's MAC address: PEER_MAC as written, or as learned; 0 while neither is known (R536). -/
def State.peerMac (s : State) (l : Nat) : Nat :=
  let v := elemOf (s.dict.raw ⟨0, 0x3000, 0x05⟩) 8 0 l
  if v = 0 then (s.net.link l).peerMac.toNat else v

def State.vlan (s : State) (l : Nat) : Nat := elemOf (s.dict.raw ⟨0, 0x3000, 0x06⟩) 2 0 l

/-- A spline frame of one flit, without its FCS (Table 15-6). -/
def State.splineFrame (s : State) (l : Nat) (flit : List Byte) : List Byte :=
  let p := s.peerMac l
  macBytes (if p = 0 then 0x011B19005370 else p) ++ macBytes (linkMac l) ++
  (if s.vlan l = 0 then [] else [0x81, 0x00] ++ (bytesLE 2 (s.vlan l)).reverse) ++
  [0x88, 0xB5, 1, 0, 0, 0, 0, 0, 0, 0] ++ flit

/-! ### Links: presence and time -/

/-- The die of a link's port (Table 1-2). -/
def linkDie (l : Nat) : Nat := l / 16

/-- The link's wires carry signals: it exists, its die has power and its pins are free (R654), and a cable that CMIS
supports is in its receptacle (R702). -/
def State.linkWired (s : State) (l : Nat) : Bool :=
  s.up && s.net.exists? l && !s.pinsHeld (linkDie l + 1) &&
  (match SMap.getD s.net.cables (l / 4) .absent with
   | .copper => true
   | .active => true
   | _ => false)

def State.modLink (s : State) (l : Nat) (f : Link → Link) : State := { s with net := s.net.setLink l (f (s.net.link l)) }

def State.linkTime (s : State) (l : Nat) : Word := s.dieTime (linkDie l)

/-- DATA flits leave unless a freeze holds (R643). -/
def State.pump (s : State) (l : Nat) : State := if s.frozen then s else { s with net := s.net.pump l }

/-- Every held flit goes again, in SEQ order (R532): REPLAYS and FLITS_TX count them (Table 15-12). -/
def State.replay (s : State) (l : Nat) : State :=
  if s.frozen then s
  else
    let n := BitVec.ofNat 64 (s.net.link l).held.length
    let s := s.modLink l (fun k => { k.reported with lastAck := s.linkTime l })
    { s with net := { s.net with replays := s.net.replays + n, flitsTx := s.net.flitsTx + n } }

/-! ### A partner is gone (R539, Table 15-8) -/

/-- The packets of a queue that go elsewhere: those whose first item had not been sent. -/
def unsent (q : List Packet) (sent : Nat) : List Packet := if sent = 0 then q else q.drop 1

/-- A packet that was coming in over a link and VC is aborted. -/
def Packet.abortFrom (x : Nat × Bool) (p : Packet) : Packet :=
  if p.src = some x then { p with aborted := true, src := none } else p

def Link.mapPackets (k : Link) (f : Packet → Packet) : Link := { k with q0 := k.q0.map f, q1 := k.q1.map f }

/-- Every packet that the device holds, changed. -/
def Net.mapPackets (n : Net) (f : Packet → Packet) : Net :=
  { n with links := n.links.map (fun (l : Nat × Link) => (l.1, l.2.mapPackets f)),
           arrive0 := n.arrive0.map f, arrive1 := n.arrive1.map f,
           heldPk := n.heldPk.map (fun h => (h.1, f h.2)) }

/-- The receive buffer ends in the middle of a packet: its rest is lost. -/
def cutRx (mid : Bool) (rx : List RxFlit) : List RxFlit :=
  let open_ := match rx.getLast? with
    | none => mid
    | some f => !f.abort && !lastEop true f.items
  if open_ then rx ++ [⟨[], true⟩] else rx

/-- The link without its partner: its receive side ends what it was receiving. -/
def Link.gone (k : Link) : Link :=
  { k with st := .absent, held := [], txSeq := 0, rxSeq := 0xFFF, rxAny := false, cred0 := 0, cred1 := 0, owe0 := 0,
           owe1 := 0, nakOpen := false, nakSend := false, partner := none, dup := false, q0 := [], q1 := [], sent0 := 0,
           sent1 := 0, retraining := false, rx0 := cutRx k.mid0 k.rx0, rx1 := cutRx k.mid1 k.rx1 }

/-- A route entry whose primary is the link and whose AUTO is set returns to PORT 0xF, unless its alternate is usable. -/
def Net.dropAuto (n : Net) (l : Nat) : Net :=
  { n with routes := n.routes.filter (fun r =>
      let e := r.2
      !(bitOf e 13 && decide (4 * fld e 3 0 + fld e 5 4 = l) &&
        !(bitOf e 12 && decide (fld e 9 6 ≤ 7) && n.usable (4 * fld e 9 6 + fld e 11 10)))) }

/-- The destination device of a packet, from its HDR0 item (R547). -/
def Packet.dest (p : Packet) : BitVec 16 := UA.device ((p.items.headD ⟨false, 0, 0⟩).payload.setWidth 64)

/-- A packet of a virtual channel takes its route or is held (R545, R546); where the pool has no extent it is held without one
(log 34). -/
def State.reroute (s : State) (d : Nat) (vc : Bool) (p : Packet) : State :=
  match s.net.route p.dest, s.net.heldPk.any (fun h => decide (h.1 = p.dest.toNat)) with
  | some l, false => { s with net := s.net.enqueue l vc p }
  | _, _ =>
    match s.mem.allocHold d p.dest.toNat p.units with
    | some m => { s with mem := m, net := { s.net with heldPk := s.net.heldPk ++ [(p.dest.toNat, p)] } }
    | none => { s with net := { s.net with heldPk := s.net.heldPk ++ [(p.dest.toNat, p)] } }

/-- The partner is gone (R539): LINK fires; a pending WAVE of the link is owed no more (R637). -/
def State.partnerGone (s : State) (l : Nat) : State :=
  let k := s.net.link l
  let again0 := unsent k.q0 k.sent0
  let again1 := unsent k.q1 k.sent1
  let s := s.modLink l (·.gone)
  let s := { s with net := s.net.dropAuto l }
  let s := again1.foldl (fun s p => s.reroute (linkDie l) true p) s
  let s := again0.foldl (fun s p => s.reroute (linkDie l) false p) s
  let s := s.fireStatus srcLink
  let h := (s.unit 0).shadow
  (s.modUnit 0 (fun v => { v with shadow := { h with pending := h.pending.filter (fun c =>
    match c with
    | .link i => decide (i.val ≠ l)
    | _ => true) } })).waveCheck 0

/-! ### Flits that arrive -/

/-- A gap: NAK is sent once (R531). -/
def Link.gap (k : Link) : Link := if k.nakOpen then k else { k with nakOpen := true, nakSend := true }

/-- A bad flit (R527, R531). -/
def State.badFlit (s : State) (l : Nat) : State :=
  let s := s.modLink l (·.gap)
  { s with net := { s.net with badFlits := s.net.badFlits + 1 } }

/-- The held flits that an ACKSEQ leaves: those after it, where it names a held one (R530). -/
def afterAck (seq : Nat) (h : List HeldFlit) : List HeldFlit :=
  match h.findIdx? (fun f => decide (f.seq.toNat = seq)) with
  | some i => h.drop (i + 1)
  | none => h

/-- What every flit reports: an acknowledgement, credits, a request for replay (Table 15-3, R529 to R532). -/
def State.flitReport (s : State) (l : Nat) (b : List Byte) : State :=
  let now := s.linkTime l
  let share := s.net.rxShare l
  let s := s.modLink l (fun k =>
    let h := if flitFld b 34 34 = 1 then afterAck (flitFld b 33 22) k.held else k.held
    { k with held := h, lastAck := if h.length < k.held.length then now else k.lastAck,
             cred0 := min share (k.cred0 + flitFld b 45 36), cred1 := min share (k.cred1 + flitFld b 55 46) })
  (if flitFld b 35 35 = 1 then s.replay l else s).pump l

/-- A DATA flit: accepted in SEQ order only (R531). -/
def State.dataIn (s : State) (l : Nat) (b : List Byte) : State :=
  let k := s.net.link l
  if k.st ≠ .up ∨ k.dup ∨ k.retraining then s
  else
    let seq : BitVec 12 := BitVec.ofNat 12 (flitFld b 21 10)
    let s :=
      if seq = k.rxSeq + 1 then
        let f : RxFlit := ⟨flitItems b, flitAbort b⟩
        s.modLink l (fun k =>
          let k := { k with rxSeq := seq, rxAny := true, nakOpen := false }
          if flitFld b 4 4 = 1 then { k with rx1 := k.rx1 ++ [f] } else { k with rx0 := k.rx0 ++ [f] })
      else s.modLink l (·.gap)
    s.flitReport l b

/-- The partner that a HELLO names. -/
def helloPartner (b : List Byte) : Partner :=
  let n (i k : Nat) : Nat := ofBytesLE ((b.drop i).take k)
  { devid := BitVec.ofNat 16 (n 8 2), link := BitVec.ofNat 8 (n 11 1), role := BitVec.ofNat 8 (n 13 1),
    epoch := BitVec.ofNat 16 (n 14 2), unnum := decide (n 10 1 % 2 = 1), serial := BitVec.ofNat 64 (n 16 8) }

/-- The link leaves ABSENT: LINK_MODE and the SerDes offsets take effect (R524, Table 16-11); a mode of 0 is off. -/
def State.linkUp (s : State) (l : Nat) (p : Partner) : State :=
  let mode := s.linkMode l
  if mode = 0 then s.modLink l (fun k => { k with mode := 0, st := .off, lock := false })
  else
    let share := s.net.rxShare l
    let s := s.modLink l (fun k =>
      { k with mode := BitVec.ofNat 8 mode, st := .up, partner := some p, cred0 := share, cred1 := share,
               lastAck := s.linkTime l })
    let key : ParamKey := ⟨0, 0x7450, 0x100⟩
    let v := sliceD ((s.dict.raw ⟨0, 0x7450, 0x01⟩).getD []) l 1 0
    let s := s.modDict (fun d => d.setRaw key (patch ((d.raw key).getD (List.replicate 32 0)) l v))
    let i := p.devid.toNat
    let s := if !p.unnum ∧ (s.net.entry p.devid).toNat % 16 = 15 then
        { s with net := { s.net with routes := SMap.set s.net.routes i (BitVec.ofNat 16 (l / 4 + l % 4 * 2 ^ 4 + 2 ^ 13)) } }
      else s
    s.fireStatus srcLink

/-- A neighbour has this device's own ID (R542): DUP is set and LINK fires; it ends when the ID differs. -/
def State.checkDup (s : State) (l : Nat) (p : Partner) : State :=
  let now := s.net.numbered && !p.unnum && decide (p.devid = s.net.devId ∧ p.serial ≠ serial)
  if now && !(s.net.link l).dup then (s.modLink l (fun k => { k with dup := true })).fireStatus srcLink
  else if now then s else s.modLink l (fun k => { k with dup := false })

/-- A valid HELLO (R537, R538, Table 15-8). -/
def State.helloIn (s : State) (l : Nat) (b : List Byte) : State :=
  let p := helloPartner b
  let k := s.net.link l
  let s := s.modLink l (fun k => { k with lastHello := s.linkTime l })
  let s :=
    match k.st with
    | .off => s
    | .absent => s.linkUp l p
    | _ =>
      if k.partner.elim false (fun q => decide (q.serial = p.serial)) then
        let s := s.modLink l (fun k => { k with partner := some p })
        if k.st = LinkSt.down ∧ s.linkMode l ≠ 0 ∧ (k.lock ∨ k.mode = 2) then
          (s.modLink l (fun (k : Link) => { k with st := LinkSt.up })).replay l
        else s
      else (s.partnerGone l).linkUp l p
  let s := if (s.net.link l).st = .off then s else s.checkDup l p
  s.flitReport l b

/-- The DEGRADE flit by which the two ends agree the lanes (R533); its item area, which the manual does not lay out, is free
(log 34). -/
def State.sendDegrade (s : State) (l : Nat) : State :=
  let b := (s.net.link l).flit 4 ((List.range 240).map (Config.freeBytes s.free))
  { s.modLink l (fun k => { k.reported with out := b }) with free := s.free + 1 }

/-- A degrade: the ends exchange DEGRADE flits, stop DATA flits and retrain on half the lanes; a 1-lane link that fails goes DOWN
(R533). Fewer lanes are lost capacity (R625). -/
def State.degrade (s : State) (l : Nat) : State :=
  let k := s.net.link l
  if k.st ≠ .up ∨ k.retraining then s
  else if k.lanes ≤ 1 then s.modLink l (fun (k : Link) => { k with st := LinkSt.down, lock := false })
  else
    let s := (s.sendDegrade l).modLink l (fun (k : Link) => { k with lanes := k.lanes / 2, retraining := true })
    ({ s with net := { s.net with degrades := s.net.degrades + 1 } }).fireStatus srcCapacity

/-- A flit that arrives. -/
def State.flitIn (s : State) (l : Nat) (b : List Byte) : State :=
  if !flitOk b then s.badFlit l
  else match flitType b with
  | 1 => s.dataIn l b
  | 3 => s.helloIn l b
  | 4 => (s.degrade l).flitReport l b
  | _ => s.flitReport l b

/-- A flit comes in through the port's FIFO (Table 10-5). -/
def State.passRx (s : State) (l : Nat) (b : List Byte) : State :=
  let rx := ClockFifo.pass 128 (SMap.getD s.net.serRx (l / 4) {}) b
  { s with net := { s.net with serRx := SMap.set s.net.serRx (l / 4) rx } }

/-- A native link with flit lock (R525) takes a flit of the row's kind, or a bad flit. -/
def State.nativeFlit (s : State) (l : Nat) (b : List Byte) (kind : Bool) : State :=
  let k := s.net.link l
  if s.linkWired l && decide (k.mode = 1) && k.lock && (kind || !flitOk b) then (s.passRx l b).flitIn l b else s

def execDataFlit (l : Fin 32) (b : List Byte) (s : State) : Out :=
  .next (s.nativeFlit l.val b (decide (flitType b = 1) && !flitAbort b))
def execAbortFlit (l : Fin 32) (b : List Byte) (s : State) : Out :=
  .next (s.nativeFlit l.val b (decide (flitType b = 1) && flitAbort b))
def execIdleFlit (l : Fin 32) (b : List Byte) (s : State) : Out := .next (s.nativeFlit l.val b (decide (flitType b = 2)))
def execHelloFlit (l : Fin 32) (b : List Byte) (s : State) : Out := .next (s.nativeFlit l.val b (decide (flitType b = 3)))
def execDegradeFlit (l : Fin 32) (b : List Byte) (s : State) : Out := .next (s.nativeFlit l.val b (decide (flitType b = 4)))

/-! ### Ethernet frames (R535, R536) -/

/-- Where the EtherType of a frame stands: behind a tag, where there is one. -/
def frameAt (f : List Byte) : Nat := if (f.drop 12).take 2 = [0x81, 0x00] then 16 else 12

/-- The flits of a frame. -/
def frameFlits (f : List Byte) (n : Nat) : List (List Byte) :=
  (List.range n).map (fun i => (f.drop (frameAt f + 10 + 256 * i)).take 256)

/-- A frame for the link: PAUSE is discarded (Table 15-2); another EtherType, a bad FCS or a COUNT outside 1 to 4 make it a
bad flit; while PEER_MAC is 0 the first valid HELLO gives it; a frame from another source is ignored. -/
def State.frameIn (s : State) (l : Nat) (f : List Byte) (fcsOk : Bool) : State :=
  let at_ := frameAt f
  let typ := (f.drop at_).take 2
  let n := ofBytesLE ((f.drop (at_ + 2)).take 1)
  let src := ofBytesLE ((f.drop 6).take 6).reverse
  if fcsOk ∧ typ = [0x88, 0x08] then s
  else if ¬ fcsOk ∨ typ ≠ [0x88, 0xB5] ∨ n = 0 ∨ 4 < n ∨ f.length ≠ at_ + 10 + 256 * n ∨
      ofBytesLE ((f.drop (at_ + 3)).take 7) ≠ 0 then s.badFlit l
  else if s.peerMac l ≠ 0 ∧ s.peerMac l ≠ src then s
  else
    let fl := frameFlits f n
    let s := if s.peerMac l = 0 ∧ fl.any (fun b => flitOk b && decide (flitType b = 3)) then
        s.modLink l (fun k => { k with peerMac := BitVec.ofNat 48 src }) else s
    fl.foldl (fun s b => s.flitIn l b) s

/-- ETH_FRAME: of an Ethernet-mode link, addressed to it or to the group of links without a partner. -/
def execEthFrame (l : Fin 32) (f : List Byte) (fcsOk : Bool) (s : State) : Out :=
  let dst := ofBytesLE (f.take 6).reverse
  .next (onlyIf (s.linkWired l.val && decide ((s.net.link l.val).mode = 2) &&
    decide (dst = linkMac l.val ∨ dst = 0x011B19005370)) s (·.frameIn l.val f fcsOk))

/-! ### Retry, HELLO and lock -/

def State.retryNs (s : State) (l : Nat) : Nat := elemOf (s.dict.raw ⟨0, 0x3000, 0x07⟩) 4 2000 l

/-- REPLAY_TIMEOUT (R532): no ACKSEQ has advanced for RETRY_NS while flits are held; at 0 a NAK alone replays. -/
def execReplayTimeout (l : Fin 32) (s : State) : Out :=
  let k := s.net.link l.val
  .next (onlyIf (s.linkWired l.val && k.sends && decide (k.held ≠ []) && decide (s.retryNs l.val ≠ 0) &&
    decide (s.retryNs l.val ≤ (s.linkTime l.val - k.lastAck).toNat)) s (·.replay l.val))

/-- HELLO_SEND (R537): every 1 ms, or at once after a change of ID, role or epoch; the flit, or its frame, stands as the last
sent. -/
def State.sendHello (s : State) (l : Nat) : State :=
  let k := s.net.link l
  let b := k.flit 3 (s.helloBytes l)
  let f := if k.mode = 2 then s.splineFrame l b else b
  s.modLink l (fun k => { k.reported with hseq := k.hseq + 1, helloDue := false, helloAt := s.linkTime l, out := f })

def execHelloSend (l : Fin 32) (s : State) : Out :=
  let k := s.net.link l.val
  .next (onlyIf (s.linkWired l.val && (k.lock || decide (k.mode = 2)) && decide (k.st ≠ .off) &&
    (k.helloDue || decide (1000000 ≤ (s.linkTime l.val - k.helloAt).toNat))) s (·.sendHello l.val))

/-- HELLO_TIMEOUT: 3.5 ms since the last valid HELLO (Table 15-8), in a freeze too (R631). -/
def execHelloTimeout (l : Fin 32) (s : State) : Out :=
  let k := s.net.link l.val
  .next (onlyIf (s.up && decide (k.st = LinkSt.up ∨ k.st = LinkSt.down) &&
    decide (3500000 ≤ (s.linkTime l.val - k.lastHello).toNat)) s (·.partnerGone l.val))

/-- FLIT_LOCK_LOST (R525, Table 15-8): a retrain loses it without leaving UP. -/
def Link.lockLost (k : Link) : Link :=
  { k with lock := false, st := if k.st = .up ∧ ¬ k.retraining then .down else k.st }

def execFlitLockLost (l : Fin 32) (s : State) : Out :=
  .next (onlyIf (s.up && (s.net.link l.val).lock) s (·.modLink l.val (·.lockLost)))

/-- FLIT_LOCK_ACQUIRED (R525), of a native link whose wires carry signals. -/
def execFlitLockAcquired (l : Fin 32) (s : State) : Out :=
  let k := s.net.link l.val
  .next (onlyIf (s.linkWired l.val && decide (k.mode = 1) && decide (k.st ≠ .off) && !k.lock) s
    (·.modLink l.val (fun k => { k with lock := true })))

/-- A lane fails: it loses its alignment, or the codewords that its FEC could not correct within one second exceed DEGRADE_LIMIT,
where that is not 0 (R533, Table 15-12). -/
def State.laneFails (s : State) (errors : Option Nat) : Bool :=
  match errors with
  | none => true
  | some n =>
    let limit := elemOf (s.dict.raw ⟨0, 0x3000, 0x08⟩) 4 16 0
    decide (limit ≠ 0 ∧ limit < n)

/-- LANE_DEGRADE: a lane of a native link in use on `lanes` lanes has lost its alignment, or has had `errors` uncorrectable
codewords within one second (R533). -/
def execLaneDegrade (l : Fin 32) (lanes : Nat) (errors : Option Nat) (s : State) : Out :=
  let k := s.net.link l.val
  .next (onlyIf (s.linkWired l.val && decide (k.mode = 1 ∧ k.lanes = lanes) && s.laneFails errors) s (·.degrade l.val))

/-- LINK_RETRAIN_COMPLETE: the link resumes with a replay and LINK fires, or goes DOWN (R534, Tables 15-5, 15-8). -/
def State.retrained (s : State) (l : Nat) (ok : Bool) : State :=
  if ok then
    ((((s.modLink l (fun k => { k with retraining := false, lock := true })).replay l).pump l)).fireStatus srcLink
  else s.modLink l (fun (k : Link) => { k with retraining := false, lock := false, st := LinkSt.down })

def execLinkRetrainComplete (l : Fin 32) (ok : Bool) (s : State) : Out :=
  .next (onlyIf (s.linkWired l.val && (s.net.link l.val).retraining) s (·.retrained l.val ok))

/-! ### Forwarding (R540, R545 to R547) -/

def Net.arrive (n : Net) (d : Nat) : List Packet := if d = 0 then n.arrive0 else n.arrive1
def Net.setArrive (n : Net) (d : Nat) (l : List Packet) : Net := if d = 0 then { n with arrive0 := l } else { n with arrive1 := l }

/-- Items that an arrival buffer holds: 4 MiB of 16 bytes each (R540). -/
def arriveRoom : Nat := 262144

/-- More of a packet that is coming in over a link and VC: an item, its end, or its abort. -/
def Packet.more (x : Nat × Bool) (i : Option QItem) (p : Packet) : Packet :=
  if p.src = some x then
    match i with
    | some i => { p with items := p.items ++ [i], src := if i.eop then none else p.src }
    | none => { p with aborted := true, src := none }
  else p

/-- The packet coming in over a link and VC waits in the arrival buffer, in a queue, or held. -/
def Net.findOpen (n : Net) (x : Nat × Bool) : Bool :=
  let f (p : Packet) : Bool := decide (p.src = some x)
  n.arrive0.any f || n.arrive1.any f || n.heldPk.any (fun h => f h.2) ||
  n.links.any (fun l => l.2.q0.any f || l.2.q1.any f)

/-- The link on whose queue the packet coming in over a link and VC waits, and the packet. -/
def Net.openOn (n : Net) (x : Nat × Bool) : Option (Nat × Packet) :=
  n.links.findSome? (fun l => ((l.2.q0 ++ l.2.q1).find? (fun p => decide (p.src = some x))).map (fun p => (l.1, p)))

/-- One more item of a packet in transit between ports of different dies crosses on its module; the first does so with the
second, which names SRC (R547). -/
def Net.transitItem (n : Net) (x : Nat × Bool) (i : QItem) : Net :=
  match n.openOn x with
  | none => n
  | some (l, p) =>
    n.transit (linkDie x.1) (linkDie l) (p.items ++ [i]) (if p.items.length = 1 then p.items ++ [i] else [i])

/-- The first item of a packet takes its way: into the arrival buffer, onto a link, or held; none where it must wait. -/
def State.openPacket (s : State) (x : Nat × Bool) (i : QItem) : Option State :=
  let p : Packet := ⟨[i], false, if i.eop then none else some x⟩
  let d := linkDie x.1
  if p.dest = s.net.devId then
    if arriveRoom ≤ ((s.net.arrive d).map (fun p => p.items.length)).sum then none
    else some { s with net := s.net.setArrive d (s.net.arrive d ++ [p]) }
  else
    let s := { s with net := { s.net with forwarded := s.net.forwarded + 1 } }
    match s.net.route p.dest, s.net.heldPk.any (fun h => decide (h.1 = p.dest.toNat)) with
    | some l, false => some { s with net := s.net.enqueue l x.2 p }
    | _, _ => (s.mem.allocHold d p.dest.toNat 1).map (fun m =>
        { s with mem := m, net := { s.net with heldPk := s.net.heldPk ++ [(p.dest.toNat, p)] } })

/-- A WAVE comes over a link on one VC; when both copies are there it goes on to the device's node (R528, R637). -/
def State.waveOver (s : State) (l : Fin 32) (vc : Bool) (i : QItem) : State :=
  let p := i.payload
  let w : Wave := ⟨p.setWidth 16, (p >>> 16).setWidth 32, p.getLsbD 48, (p >>> 56).setWidth 64⟩
  let e := (l.val, w)
  let other := if vc then s.net.wave0 else s.net.wave1
  if e ∈ other then
    let n := if vc then { s.net with wave0 := s.net.wave0.erase e } else { s.net with wave1 := s.net.wave1.erase e }
    { s with net := { n with waves := n.waves ++ [(0, .link l, w)] } }
  else
    { s with net := if vc then { s.net with wave1 := s.net.wave1 ++ [e] } else { s.net with wave0 := s.net.wave0 ++ [e] } }

def Link.mid (k : Link) (vc : Bool) : Bool := if vc then k.mid1 else k.mid0
def Link.setMid (k : Link) (vc m : Bool) : Link := if vc then { k with mid1 := m } else { k with mid0 := m }

/-- One item leaves a receive buffer; none where it must wait. More of a packet whose way on is gone is dropped (R539). -/
def State.forwardItem (s : State) (l : Fin 32) (vc : Bool) (i : QItem) : Option State :=
  let x := (l.val, vc)
  if i.kind = 0x3E then some (s.waveOver l vc i)
  else if (s.net.link l.val).mid vc then
    let s := s.modLink l.val (·.setMid vc (!i.eop))
    some { s with net := (s.net.transitItem x i).mapPackets (Packet.more x (some i)) }
  else (s.openPacket x i).map (fun s => s.modLink l.val (·.setMid vc (!i.eop)))

/-- The items of a flit leave in order, until one must wait. -/
def State.forwardItems (s : State) (l : Fin 32) (vc : Bool) : List QItem → State × List QItem
  | [] => (s, [])
  | i :: t =>
    match s.forwardItem l vc i with
    | none => (s, i :: t)
    | some s => s.forwardItems l vc t

/-- The oldest flit of a receive buffer: its items leave, and with the last its credit is owed (R529); an ABORT ends the
packet in progress (R539). -/
def State.forwardFlit (s : State) (l : Fin 32) (vc : Bool) : State :=
  let k := s.net.link l.val
  match (if vc then k.rx1 else k.rx0) with
  | [] => s
  | f :: rest =>
    let r := s.forwardItems l vc f.items
    let s := r.1
    let set (s : State) (rx : List RxFlit) (credit : Nat) : State :=
      s.modLink l.val (fun k => if vc then { k with rx1 := rx, owe1 := k.owe1 + credit }
        else { k with rx0 := rx, owe0 := k.owe0 + credit })
    if r.2 ≠ [] then set s ({ f with items := r.2 } :: rest) 0
    else
      let s := if f.abort then
          let s := s.modLink l.val (·.setMid vc false)
          { s with net := s.net.mapPackets (Packet.more (l.val, vc) none) }
        else s
      set s rest 1

/-- Every link sends what it may. -/
def State.pumpAll (s : State) : State := (s.net.links.map (·.1)).foldl State.pump s

/-- PACKET_FORWARD: the oldest flit of a link's virtual channel moves on (R528, R540, R545 to R547); an unnumbered device
delivers and forwards nothing (R541). -/
def execPacketForward (l : Fin 32) (vc : Fin 2) (s : State) : Out :=
  .next (onlyIf (s.dieUp (linkDie l.val) && s.net.numbered) s (fun s =>
    (s.forwardFlit l (decide (vc.val = 1))).pumpAll))

/-- HELD_PACKET_RELEASE: the packets held for a device leave in arrival order once its entry gives a usable link, and their
storage returns to the pool (R546). -/
def State.releaseHeld (s : State) (dest : BitVec 16) : State :=
  match s.net.route dest with
  | none => s
  | some l =>
    let mine := s.net.heldPk.filter (fun h => decide (h.1 = dest.toNat))
    let n := { s.net with heldPk := s.net.heldPk.filter (fun h => decide (h.1 ≠ dest.toNat)) }
    { s with mem := s.mem.releaseUse (.hold dest.toNat), net := mine.foldl (fun n h => n.enqueue l h.2.vc1 h.2) n }

/-- A message of this device that has waited for room to leave takes its way, if it finds room (R546). -/
def State.retryOut (s : State) (m : Msg) : Option State :=
  let t := { s with net := { s.net with inFlight := s.net.inFlight.erase m } }
  t.routePacket (UA.digit m.src 1 % 2) (UA.device m.dest) ⟨m.items, false, none⟩

/-- Those that wait go in order, up to the first that finds no room (R47). -/
def State.retryAll (dest : BitVec 16) : List Msg → State → State
  | [], s => s
  | m :: t, s =>
    if UA.device m.dest = dest then
      match s.retryOut m with
      | some s => State.retryAll dest t s
      | none => s
    else State.retryAll dest t s

def State.heldRelease (s : State) (dest : BitVec 16) : State :=
  let s := s.releaseHeld dest
  if dest = s.net.devId then s else State.retryAll dest s.net.inFlight s

def execHeldPacketRelease (dest : BitVec 16) (s : State) : Out := .next (onlyIf s.fabricUp s (·.heldRelease dest))

/-- ARRIVAL_BUFFER_DELIVER: the oldest packet that has arrived whole goes to the die crossbar; one ended by ABORT is
discarded and counted (R540). -/
def State.deliverArrived (s : State) (d : Nat) : State :=
  match (s.net.arrive d).find? (fun p => decide (p.src = none)) with
  | none => s
  | some p =>
    let s := { s with net := s.net.setArrive d ((s.net.arrive d).erase p) }
    if p.aborted then { s with net := { s.net with aborted := s.net.aborted + 1 } }
    else match Msg.ofItems p.items with
    | some m =>
      let n := if UA.depth m.dest = 0 then s.net else s.net.transit d (UA.digit m.dest 1 % 2) p.items p.items
      { s with net := n }.fly m
    | none => s

def execArrivalBufferDeliver (die : Fin 2) (s : State) : Out :=
  .next (onlyIf (s.dieUp die.val && s.net.numbered) s (·.deliverArrived die.val))

/-! ### Cables (R702) -/

/-- CABLE_CHANGE: what a receptacle holds; its native links lose their flit lock. -/
def State.cableChange (s : State) (port : Nat) (c : Cable) : State :=
  let s := { s with net := { s.net with cables := SMap.set s.net.cables port c } }
  { s with net := { s.net with links := s.net.links.map (fun (l : Nat × Link) =>
      (l.1, if l.1 / 4 = port then l.2.lockLost else l.2)) } }

def execCableChange (port : Fin 8) (c : Cable) (s : State) : Out := .next (s.cableChange port.val c)

end Sys2Proof.Machine
end

