-- ==== Sys2Proof/Machine/Power.lean ====
section
/-! DEFINITION. Supply, pins and resets (R681 to R694, R708 to R712), the power controller and the thermal sensors. -/

namespace Sys2Proof.Machine

open Sys2Proof

/-! ### Resets (R709, R712) -/

/-- The copies of the store that a reset leaves: one that a save was writing is not valid (R590). -/
def Dict.wholeCopies (d : Dict) : Option StoreCopy × Option StoreCopy :=
  if d.saving.isNone then (d.storeA, d.storeB)
  else if d.acting = (0 : BitVec 8) then (d.storeA, none) else (none, d.storeB)

/-- Every die and the endpoint in their power-on state. What stays: fuses, flash (the copies of the store that are whole, the
slots that are whole), cables, pins, the regulators' fault log, what the workstation holds, and the commands that wait. -/
def State.coldReset (s : State) : State :=
  let z := State.reset
  let p : Power := { on := s.pwr.on, pg := s.pwr.pg, inputOk := s.pwr.inputOk, latch := s.pwr.latch,
                     thermtripN := s.pwr.thermtripN, pwrEn := s.pwr.pwrEn, modResetN := s.pwr.modResetN,
                     perstN := s.pwr.perstN, freezeN := s.pwr.freezeN, boot := .off, shutdownNext := s.pwr.shutdownNext,
                     railFaults := s.pwr.railFaults, inputMv := s.pwr.inputMv }
  { z with pending := s.pending, free := s.free, pwr := p,
           mem := { z.mem with wsMem := s.mem.wsMem },
           net := { z.net with cables := s.net.cables },
           dict := { z.dict with storeA := s.dict.wholeCopies.1, storeB := s.dict.wholeCopies.2 },
           sec := { z.sec with keys := s.sec.keys, svnMin := s.sec.svnMin, slotA := s.sec.slotA, slotB := s.sec.slotB } }

/-- The rails go off and PG falls; the fault log keeps a cause other than 0 (R694, R712). -/
def State.powerOff (s : State) (cause : BitVec 8) : State :=
  if s.pwr.on then
    let s := s.coldReset
    { s with pwr := { s.pwr with on := false, pg := false,
                                 shutdownNext := if cause = 0 then s.pwr.shutdownNext else cause } }
  else s

/-- The rails ramp and PG is released, where the input is in range, nothing latches the module off and PWR_EN is high; the
dies stand at 0.75 V and the internal reset holds (R708, R686). -/
def State.powerUp (s : State) : State :=
  if !s.pwr.on && s.pwr.inputOk && decide (s.pwr.latch = .clear) && s.pwr.pwrEn then
    let s := s.coldReset
    { s with pwr := { s.pwr with on := true, pg := true, railFaults := 0 } }
  else s

def State.modPwr (s : State) (f : Power → Power) : State := { s with pwr := f s.pwr }

/-- INPUT_UNDER_VOLTAGE: 12 V below 11.0 V for 100 µs (R712). -/
def execInputUnderVoltage (s : State) : Out := .next ((s.modPwr (fun p => { p with inputOk := false })).powerOff 2)

/-- INPUT_OVER_VOLTAGE: the module stays off until the input is removed and restored (R712). -/
def execInputOverVoltage (s : State) : Out :=
  .next ((s.modPwr (fun p => { p with inputOk := false, latch := .over })).powerOff 4)

/-- INPUT_RESTORED: the latches clear, THERMTRIP_N is released, and with PWR_EN high the module restarts (R694, R712). -/
def execInputRestored (s : State) : Out :=
  .next (onlyIf (!s.pwr.inputOk || decide (s.pwr.latch ≠ .clear)) s (fun s =>
    (s.modPwr (fun p => { p with inputOk := true, latch := .clear, thermtripN := true })).powerUp))

/-- THERMAL_TRIP: every rail off, THERMTRIP_N low until the input is removed (R694, R712). -/
def execThermalTrip (die : Fin 2) (s : State) : Out :=
  .next (onlyIf (s.pwr.on && decide (die.val < 2)) s (fun s =>
    (s.modPwr (fun p => { p with latch := .trip, thermtripN := false })).powerOff 1))

/-- PWR_EN_HIGH (R708) and PWR_EN_LOW (R712). -/
def execPwrEnHigh (s : State) : Out := .next (s.modPwr (fun p => { p with pwrEn := true })).powerUp
def execPwrEnLow (s : State) : Out := .next ((s.modPwr (fun p => { p with pwrEn := false })).powerOff 0)

/-- RAIL_FAULT: a rail of Table 20-2 leaves regulation: its bit, POWER, and the shutdown (R696). -/
def execRailFault (rail : Fin 8) (s : State) : Out :=
  .next (onlyIf s.pwr.on s (fun s =>
    ((s.modPwr (fun p => { p with railFaults := p.railFaults ||| BitVec.ofNat 32 (2 ^ rail.val) })).fireStatus srcPower).powerOff 3))

/-- MOD_RESET_ASSERT: MOD_RESET_N low for 10 µs or more (R712). -/
def execModResetAssert (s : State) : Out :=
  let s := s.modPwr (fun p => { p with modResetN := false })
  .next (if s.pwr.on then s.coldReset else s)

/-- INTERNAL_RESET_RELEASE: with PG released, MOD_RESET_N high and REFCLK present the reset ends: the straps are sampled and
the boot may start (R700, R709). -/
def execInternalResetRelease (recoveryN sris t1sTerm : Bool) (s : State) : Out :=
  .next (onlyIf (s.pwr.on && s.pwr.pg && decide (s.pwr.boot = .off)) s (·.modPwr (fun p =>
    { p with modResetN := true, strapRecoveryN := recoveryN, strapSris := sris, strapT1s := t1sTerm, boot := .released })))

/-- PERST_ASSERT: the link goes down and the endpoint acts as in a Function Level Reset, at thaw in a full freeze (R646,
R712). -/
def State.perst (s : State) : State :=
  let s := { s with pcie := { s.pcie with up := false } }
  if s.up then
    if s.dbg.fullFrozen then { s with dbg := { s.dbg with barWait := s.dbg.barWait ++ [.flr] } } else s.flr
  else s

def execPerstAssert (s : State) : Out := .next (s.modPwr (fun p => { p with perstN := false })).perst

/-- PERST_DEASSERT: link training starts (R711); PCIE_LINK_EVENT tells that the link is up. -/
def execPerstDeassert (s : State) : Out := .next (s.modPwr (fun p => { p with perstN := true }))

/-! ### The power controller (R683 to R688) -/

def State.powerCap (s : State) : Nat := s.devParam 0x2000 0x01 (if Config.variantAh then 300 else 400)
def State.vcoreMax (s : State) : Nat := s.devParam 0x2000 0x02 850
def State.fixedMv (s : State) : Nat := s.devParam 0x2000 0x03 0

/-- The targets of a die after a step (Table 20-3), from its VCORE, the average input power and its Tj. -/
def DiePower.targets (d : DiePower) (w cap top : Nat) : DiePower :=
  let tj := d.tj.toInt
  { d with
    capMv := if cap < w then d.mv - 10 else if w + 5 ≤ cap then min (d.mv + 5) top else d.capMv,
    thermMv := if 1600 ≤ tj then d.mv - 10 else if tj < 1520 then top else d.thermMv }

/-- VCORE and ISSUE_DUTY of a die from its targets (R681, R683 to R685). -/
def DiePower.settle (d : DiePower) (w cap top fixed : Nat) : DiePower :=
  let down := { d with duty := max 1 (d.duty - 1) }
  let rise := { d with duty := d.duty + 1, mv := max 600 (min d.mv (min (min d.capMv d.thermMv) top)) }
  let more := { d with duty := d.duty + 1 }
  if fixed = 0 then
    let t := min d.capMv d.thermMv
    if d.mv ≤ 600 ∧ t < 600 then { down with mv := 600 }
    else if d.duty < 16 ∧ 600 ≤ t then rise
    else { d with mv := max 600 (min t top) }
  else
    let v := max 600 (min fixed d.thermMv)
    let e : DiePower :=
      if cap < w ∨ (d.mv ≤ 600 ∧ d.thermMv < 600) then down
      else if w + 5 ≤ cap ∧ d.duty < 16 then more
      else d
    { e with mv := v }

/-- The time with a target below VCORE_MAX (Tables 20-6, 20-7): a step is 100 µs. -/
def DiePower.count (d : DiePower) (top : Nat) : DiePower :=
  { d with capNs := if d.capMv < top then d.capNs + 100000 else d.capNs,
           thermNs := if d.thermMv < top then d.thermNs + 100000 else d.thermNs }

/-- POWER_CONTROL_STEP with the input power averaged over the last 1 ms (R683). -/
def State.controlStep (s : State) (w : Nat) : State :=
  let step (d : DiePower) : DiePower :=
    ((d.targets w s.powerCap s.vcoreMax).count s.vcoreMax).settle w s.powerCap s.vcoreMax s.fixedMv
  s.modPwr (fun p => { p with die0 := step p.die0, die1 := step p.die1, inputW := w,
                              energy := p.energy + BitVec.ofNat 64 w })

/-- The controller starts at Driver ready and holds in a full freeze (R686). -/
def execPowerControlStep (w : Nat) (s : State) : Out := .next (onlyIf s.hostUp s (·.controlStep w))

/-- ALERT_N: low while a die is at or above TJ_LIMIT or its duty is below 16 (Table 21-4). -/
def State.alertN (s : State) : Bool :=
  decide (s.pwr.die0.tj.toInt < 1600 ∧ s.pwr.die1.tj.toInt < 1600 ∧ s.pwr.die0.duty = 16 ∧ s.pwr.die1.duty = 16)

/-! ### Sensors (R687, R691, R692) -/

def State.tjWarn (s : State) : Int := 16 * (s.devParam 0x2400 0x02 95 : Nat)

/-- THERMAL_SAMPLE: the hottest sensor, with TSENSE_OFFSET applied (R691); THERMAL fires as Tj rises to TJ_WARN and not
again before it has fallen 5 °C below (R692). -/
def State.sample (s : State) (die : Nat) (raw : BitVec 16) : State :=
  let k := UA.keyOf 1 (256 * die)
  let off := (calibOf 0x7020).elim 0 (fun c => c.acting s 0x7020 k 0)
  let tj := raw.toInt + off
  let d := s.diePower die
  let hot := decide (s.tjWarn ≤ tj)
  let s := s.modDiePower die (fun d =>
    { d with tj := BitVec.ofInt 16 tj,
             warnArmed := if hot then false else d.warnArmed || decide (tj ≤ s.tjWarn - 80),
             warnEvents := if hot && d.warnArmed then d.warnEvents + 1 else d.warnEvents })
  if hot && d.warnArmed then s.fireStatus srcThermal else s

def execThermalSample (die : Fin 2) (tj : BitVec 16) (s : State) : Out :=
  .next (onlyIf (s.pwr.on && decide (s.pwr.boot ≠ .off)) s (·.sample die.val tj))

/-- VCORE_UNDER_VOLTAGE: VCORE below 0.57 V stops the die's handshakes (R687). -/
def execVcoreUnderVoltage (die : Fin 2) (s : State) : Out :=
  .next (onlyIf (s.pwr.on && !(s.diePower die.val).uv) s (fun s =>
    (s.modDiePower die.val (fun d => { d with uv := true, uvEvents := d.uvEvents + 1 })).fireStatus srcPower))

/-- VCORE_RECOVERY: above 0.59 V they resume, with nothing lost (R687). -/
def execVcoreRecovery (die : Fin 2) (s : State) : Out :=
  .next (onlyIf s.pwr.on s (·.modDiePower die.val (fun d => { d with uv := false })))

end Sys2Proof.Machine
end

