-- ==== Sys2Proof/Machine/Boot.lean ====
section
/-! DEFINITION. Boot (R657 to R665), firmware updates (R677 to R679), measurements (R667), quotes (R672, R673), keys and
the debug unlock (R674). -/

namespace Sys2Proof.Machine

open Sys2Proof

def State.modSec (s : State) (f : Sec → Sec) : State := { s with sec := f s.sec }

/-! ### Keys and firmware slots -/

/-- The keys with key `k` revoked, unless no unrevoked FW key would remain (Table 19-8). -/
def Sec.revoke (x : Sec) (k : Nat) : Option Sec :=
  let y := { x with keys := SMap.set x.keys k (x.key k ||| 0b1000) }
  if decide (k ≤ 3) && (List.range 4).any (fun i => keyFw (y.key i)) then some y else none

/-- KEY_REVOKE. -/
def execKeyRevoke (s : State) : Out :=
  .next (s.serve .revoke (fun s r p k => s.finishWrite r p k ((s.sec.revoke r.num).map (fun x => { s with sec := x }))))

/-- A piece of the image is staged at its OFFSET; not while a slot is being written (R677, R678). -/
def Sec.stagePiece (x : Sec) (o : Nat) (v : List Byte) : Option Sec :=
  if x.fwState = 2 then none else some { x with fwStage := Memory.writeBytes x.fwStage o v, fwState := 1 }

/-- FW_STAGE. -/
def execFwStage (s : State) : Out :=
  .next (s.serve .fwStage (fun s r p k =>
    s.finishWrite r p k ((s.sec.stagePiece r.offset r.value).map (fun x => { s with sec := x }))))

/-- The slot whose image an update leaves alone: the acting one, in recovery the one that would boot, if any (log 35). -/
def Sec.keeps (x : Sec) : Nat × Option SlotImage :=
  if x.bootSlot = 0 then (0, x.slotA) else if x.bootSlot = 1 then (1, x.slotB) else x.choose

/-- A commit: the staged image is checked as if its slot record, one above the acting SEQ, were written; when the check
passes the other slot is rewritten, and has no whole record meanwhile (R677, R678). -/
def Sec.commit (x : Sec) : Sec :=
  let seq := x.keeps.2.elim 0 (·.seq) + 1
  let i := x.stagedSlot seq
  if x.bootable i then
    let y := { x with fwState := 2, fwNext := some i, fwStage := [] }
    if x.keeps.1 = 0 then { y with slotB := none } else { y with slotA := none }
  else { x with fwState := 4, fwStage := [] }

/-- FW_COMMIT: a value other than 1, and a write while FW_STATE is 2, are out of range. A check that fails shows in FW_STATE
(log 35). -/
def execFwCommit (s : State) : Out :=
  .next (s.serve .fwCommit (fun s r p k =>
    s.finishWrite r p k (if r.num = 1 ∧ s.sec.fwState ≠ 2 then some (s.modSec (·.commit)) else none)))

/-- FW_DISCARD. -/
def execFwDiscard (s : State) : Out :=
  .next (s.serve .fwDiscard (fun s r p k =>
    s.finishWrite r p k (if s.sec.fwState ≠ 2 then some (s.modSec (fun x => { x with fwStage := [], fwState := 0 })) else none)))

/-- The slot is written and read back: whole, or not (R677). -/
def Sec.slotWritten (x : Sec) (i : SlotImage) (ok : Bool) : Sec :=
  let y := { x with fwNext := none, fwState := if ok then 3 else 4 }
  if x.keeps.1 = 0 then { y with slotB := if ok then some i else none } else { y with slotA := if ok then some i else none }

/-- The boot starts again, with the straps as sampled (R679). -/
def State.restartBoot (s : State) : State :=
  s.coldReset.modPwr (fun p => { p with strapRecoveryN := s.pwr.strapRecoveryN, strapSris := s.pwr.strapSris,
                                        strapT1s := s.pwr.strapT1s, boot := .released })

/-- FW_SLOT_WRITE_COMPLETE; in recovery a commit that passes restarts the boot (R677, R679). -/
def State.slotWritten (s : State) (i : SlotImage) (ok : Bool) : State :=
  let t := s.modSec (·.slotWritten i ok)
  if ok && decide (s.pwr.boot = .recovery) then t.restartBoot else t

def execFwSlotWriteComplete (readback : Bool) (s : State) : Out :=
  .next (onlyIf (s.pwr.on && decide (s.pwr.boot = .ready ∨ s.pwr.boot = .recovery) && !s.dbg.fullFrozen) s (fun s =>
    match s.sec.fwNext with
    | some i => if s.sec.fwState = 2 then s.slotWritten i readback else s
    | none => s))

/-! ### Measurements and quotes -/

/-- A write of the whole value; any other is answered with TYPE (log 31). -/
def State.whole (s : State) (r : DictReq) (p : Param) (k n : Nat) (t : Option State) : State :=
  if r.offset = 0 ∧ r.length = n then s.finishWrite r p k t else s.refuse r (some p) dsType

/-- MR_EXTEND: register 4 to 6 (R667). -/
def State.mrExtend (s : State) (v : List Byte) : Option State :=
  let i := ofBytesLE (v.take 1)
  if 4 ≤ i ∧ i ≤ 6 then some (s.modSec (·.extend i 4 (v.drop 1))) else none

def execMrExtend (s : State) : Out :=
  .next (s.serve .extend (fun s r p k => s.whole r p k 33 (s.mrExtend r.value)))

/-- A nonce: signing starts, or waits for the certificate, or for the quote being signed (R672, R673). -/
def Sec.takeNonce (x : Sec) (v : List Byte) : Sec :=
  if !x.akCert then { x with nonce := v, quoteState := 3 }
  else if x.quoteState = 1 then { x with held := some v }
  else { x with nonce := v, quoteState := 1 }

/-- QUOTE_NONCE. -/
def execQuoteNonce (s : State) : Out :=
  .next (s.serve .nonce (fun s r p k => s.whole r p k 32 (some (s.modSec (·.takeNonce r.value)))))

/-- QUOTE_SIGNED: the quote is complete, and the nonce held last is signed next (R673). -/
def State.quoteSigned (s : State) : State :=
  let q := s.quote
  let s := s.useFree
  s.modSec (fun x =>
    match x.held with
    | some v => { x with quote := q, nonce := v, held := none, quoteState := 1 }
    | none => { x with quote := q, quoteState := 2 })

def execQuoteSigned (s : State) : Out := .next (onlyIf (s.hostUp && decide (s.sec.quoteState = 1)) s State.quoteSigned)

/-- AK_CERT_SIGNED (R671, R672). -/
def execAkCertSigned (s : State) : Out :=
  .next (onlyIf (s.hostUp && !s.sec.akCert) s (·.modSec (fun x =>
    { x with akCert := true, quoteState := if x.quoteState = 3 then 1 else x.quoteState })))

/-! ### Debug unlock (R674) -/

/-- DBG_CHALLENGE: a fresh random challenge takes the place of the one before it. -/
def State.challenge (s : State) (r : DictReq) (p : Param) : State :=
  let c := (List.range 32).map (fun i => Config.freeBytes s.free i)
  (s.useFree.modSec (fun x => { x with challenge := some c })).answer r dsOk p.typ 32 ((c.drop r.offset).take r.length)

def execDbgChallenge (s : State) : Out := .next (s.serve .challenge (fun s r p _ => s.challenge r p))

/-- The signature over the challenge and SERIAL verifies with some programmed, unrevoked key of DEBUG purpose. -/
def Sec.unlocks (x : Sec) (sig : List Byte) : Bool :=
  x.challenge.elim false (fun c => (List.range 4).any (fun i =>
    keyDebug (x.key i) && Config.slhVerify (Config.keyBytes i) (c ++ bytesLE 8 serial.toNat) sig))

/-- DBG_RESPONSE: the challenge is consumed either way. -/
def State.response (s : State) (r : DictReq) (p : Param) (k : Nat) : State :=
  let x := s.sec
  let t := s.modSec (fun x => { x with challenge := none })
  if x.unlocks r.value then
    ({ (t.modSec (·.extend 7 5 (digest (x.challenge.getD [])))) with
      dbg := { s.dbg with auth := true, authEver := true } }).done r p k
  else t.refuse r (some p) dsRange

def execDbgResponse (s : State) : Out :=
  .next (s.serve .response (fun s r p k =>
    if r.offset = 0 ∧ r.length = 29792 then s.response r p k else s.refuse r (some p) dsType))

/-! ### Boot: the store (R587 to R589) -/

/-- The bytes of a record (R587); UNIT holds the low 48 bits of the address (log 29). -/
def recordBytes (x : ParamKey × List Byte) : List Byte :=
  let t := ((paramsOf x.1.index).bind (fun l => findParam l x.1.sub)).elim 0 (·.typ)
  bytesLE 8 x.1.unit ++ bytesLE 2 x.1.index ++ bytesLE 1 x.1.sub ++ bytesLE 1 t ++ bytesLE 4 x.2.length ++ x.2 ++
  List.replicate ((8 - x.2.length % 8) % 8) 0

/-- The DIGEST field of a copy (Table 16-10). -/
def StoreCopy.digest (c : StoreCopy) : List Byte :=
  let l := c.recs.map recordBytes ++ Config.relRecords c.maps c.retired c.spareBad
  let b := l.flatten
  shake256 (bytesLE 4 0x53505645 ++ bytesLE 2 1 ++ bytesLE 2 0 ++ bytesLE 8 c.seq.toNat ++ bytesLE 4 b.length ++
    bytesLE 4 l.length ++ List.replicate 40 0 ++ b) 32

/-- The acting copy: the valid one of the higher SEQ, A when both are equal; 2 when none is valid (R588). -/
def Dict.chooseCopy (d : Dict) : BitVec 8 × Option StoreCopy :=
  let ok (c : Option StoreCopy) : Option StoreCopy := c.bind (fun x => if x.seq = 0 then none else some x)
  match ok d.storeA, ok d.storeB with
  | some a, some b => if a.seq.toNat < b.seq.toNat then (1, some b) else (0, some a)
  | some a, none => (0, some a)
  | none, some b => (1, some b)
  | none, none => (2, none)

/-- A record that boot does not skip (R589): its instance exists, its length is that of the parameter, which is persistent,
and its value lies in range. -/
def State.recordOk (s : State) (x : ParamKey × List Byte) : Bool :=
  match (paramsOf x.1.index).bind (fun l => findParam l x.1.sub) with
  | none => false
  | some p =>
    UA.canonical (UA.mk 0 x.1.unit) && decide (x.1.unit < 2 ^ 48) && p.at x.1.unit && p.persist && decide (x.2.length = p.bytes) &&
    (if p.acc = .rwc then s.rwcOk x.1.index x.1.unit [(x.1.sub, x.2)] x.1.sub x.2 else rwOk x.1.index x.1.sub x.2)

/-- The store's values act, those that wait for a boot included (R558, R588, R589). -/
def State.bootStore (s : State) : State :=
  let a := s.dict.chooseCopy
  let recs := a.2.elim [] (·.recs)
  let good := recs.filter s.recordOk
  s.modDict (fun d => { d with acting := a.1, params := good, image := good,
                               storeSkipped := BitVec.ofNat 32 (recs.length - good.length) })

/-! ### Boot: measurements by the boot ROM and the firmware (Table 19-6) -/

/-- The fuse record: KEY0 to KEY3, KEYPURPOSE and KEYREVOKED in one byte each, and SVN_MIN (Table 19-2; log 35). -/
def Sec.fuses (x : Sec) : List Byte :=
  (List.range 4).flatMap (fun i => sliceD (Config.keyBytes i) 0 64 0) ++
  bytesLE 1 ((List.range 4).map (fun i => (x.key i).toNat / 2 % 4 * 4 ^ i)).sum ++
  bytesLE 1 ((List.range 4).map (fun i => (x.key i).toNat / 8 * 2 ^ i)).sum ++ bytesLE 8 (2 ^ x.svnMin - 1)

/-- The acting calibration values, in index order, each at its units in ascending order. -/
def State.calibration (s : State) : List Byte :=
  [(0x7010, 2), (0x7020, 1), (0x7030, 1), (0x7040, 1), (0x7050, 0)].flatMap (fun (x : Nat × Nat) =>
    (calibOf x.1).elim [] (fun c =>
      (baseUnits 0 x.2).flatMap (fun k => (List.range c.n).flatMap (fun i => bytesInt c.w (c.acting s x.1 k i)))))

/-- Steps 2 to 5: the acting store, MR1, MR2, training, the carve-out and the directory (R497, R504, R506, R665). The MR2
digest is that of the DIGEST field (log 35). -/
def State.bootRom (s : State) (b : BootInput) : State :=
  let f := s.sec.fuses
  let g := s.dict.chooseCopy.2.elim (List.replicate 32 0) (·.digest)
  let s := (s.modSec (fun x => (x.extend 1 1 (digest f)).extend 2 2 (digest g))).bootStore
  let ch (d : Nat) (l : List ChanState) : SMap ChanState := (l.take 40).zipIdx.map (fun x => (40 * d + x.2, x.1))
  let chans := (ch 0 b.chans0 ++ ch 1 b.chans1).filter (fun x => decide (x.2 ≠ .full))
  let m : MemSys := { chans := chans, wsMem := s.mem.wsMem, carveGib := keptV 0x4000 0x01 16 s 0,
                      dirEntries := keptV 0x4010 0x01 16777216 s 0 }
  let s := { s with mem := m, cells := [] }
  if chans.any (fun x => decide (x.2 = .retired)) then s.fireStatus srcCapacity else s

/-! ### Boot: the firmware's steps 7 to 10 -/

/-- A recorded remap acts before the cell takes work (R308). -/
def State.bootRows (s : State) (c : CellIx) (m : SMap Nat) : State :=
  let n := (m.map (fun x => x.2 + 1)).foldl max 0
  s.modCell c (fun x => { x with rows := { x.rows with map := m, field := n - (16384 + s.rowsMappedTest c) } })

/-- A retired address is served by its carcase's spare where that is free, else by a host, which waits for its extents
(R613, R614, R615). -/
def State.placeRetired (s : State) (i : Nat) : State :=
  let c := cellIx i
  let t := s.modCell c (fun x => { x with retireReq := false })
  if s.spareFree c then { t with rel := { t.rel with spareOf := SMap.set t.rel.spareOf (i / 16) i } }
  else match s.chooseHost c with
  | none => s
  | some (h, _) =>
    (s.mem.allocMany (h / 256) 1024 (.image i) 42).elim s (fun m =>
      let new : Host_ := ⟨h, i, false⟩
      { t with mem := m, rel := { t.rel with hosts := t.rel.hosts ++ [new] } })

/-- A list without its repeats, in order. -/
def firstOnly (l : List Nat) : List Nat := l.foldl (fun a x => if x ∈ a then a else a ++ [x]) []

/-- Step 7: the recorded remaps act on the cells that served their addresses when they were recorded (R308); the recorded
retirements and those of cells and spares that fail the test (R613); a new one is recorded, saved
and fires CAPACITY (R591, R625). -/
def State.bootRetire (s : State) (b : BootInput) (c : Option StoreCopy) : State :=
  let old := c.elim [] (·.retired)
  let oldBad := c.elim [] (·.spareBad)
  let all := firstOnly (old ++ b.failCells.map (·.val))
  let bad := firstOnly (oldBad ++ b.failSpares.map (·.val))
  let s := { s with rel := { retired := all, spareBad := bad } }
  let s := s.modCells all (fun x => { x with retireReq := true })
  let s := all.foldl (fun s i => s.placeRetired i) s
  let same (i : Nat) : Bool := decide (i ∉ all ∨ (i ∈ old ∧ (i / 16 ∈ oldBad ∨ i / 16 ∉ bad)))
  let s := ((c.elim [] (·.maps)).filter (fun x => same x.1)).foldl (fun s x => s.bootRows (cellIx x.1) x.2) s
  if all.length = old.length && bad.length = oldBad.length then s else (s.fireStatus srcCapacity).saveRecord

/-- Step 8: the links of each port's split in their modes on all lanes (R523, R524), and the device ID (R541). -/
def State.bootLinks (s : State) : State :=
  let split := (List.range 8).map (fun i => (i, elemOf (s.dict.kept ⟨0, 0x3000, 0x03⟩) 1 0 i))
  let n := { s.net with split := split.filter (fun x => decide (x.2 ≠ 0)) }
  let new (l : Nat) : Link :=
    { mode := BitVec.ofNat 8 (s.linkMode l), lanes := n.fullLanes l, st := if s.linkMode l = 0 then .off else .absent,
      helloDue := true }
  let num := decide (keptV 0x3000 0x02 0 s 0 = 1)
  { s with net := { n with links := ((List.range 32).filter n.exists?).map (fun l => (l, new l)), numbered := num,
                           devId := if num then BitVec.ofNat 16 (keptV 0x3000 0x01 0 s 0) else 0 } }

/-- Step 10, Driver ready (R662, R686, R712). -/
def State.driverReady (s : State) (i : SlotImage) : State :=
  { (s.modSec (fun x => { x with svnMin := max x.svnMin i.floor })) with
    pwr := { s.pwr with boot := .ready }, dbg := { s.dbg with fullReq := !s.pwr.freezeN } }

/-- The steps from the choice of the image on (R661, R663). -/
def State.bootImage (s : State) (b : BootInput) (c : Option StoreCopy) (slot : Nat) (i : SlotImage) : State :=
  let s := s.modSec (fun x => { x.extend 0 0 i.digest with bootSlot := BitVec.ofNat 8 slot, fwVersion := i.version, certSvnMin := x.svnMin })
  let s := s.modSec (fun x => x.extend 3 3 (digest s.calibration))
  (((s.bootRetire b c).bootLinks)).driverReady i

/-- Recovery: no slot is bootable, or the strap asks for it (R661, R679, Table 21-5). -/
def State.bootRecovery (s : State) : State :=
  { (s.modSec (fun x => { x with bootSlot := 2 })) with pwr := { s.pwr with boot := .recovery } }

/-- BOOT: the sequence of Table 19-5, from the release of the internal reset to Driver ready or to recovery. LAST_SHUTDOWN
takes the cause that the fault log holds (R694). -/
def State.boot (s : State) (b : BootInput) : State :=
  let c := s.dict.chooseCopy.2
  let s := s.bootRom b
  let s := s.modPwr (fun p => { p with lastShutdown := p.shutdownNext, shutdownNext := 0 })
  match s.sec.choose with
  | (k, some i) => if s.pwr.strapRecoveryN then s.bootImage b c k i else s.bootRecovery
  | (_, none) => s.bootRecovery

def execBootRun (b : BootInput) (s : State) : Out :=
  .next (onlyIf (s.pwr.on && decide (s.pwr.boot = .released)) s (·.boot b))

end Sys2Proof.Machine
end

