-- ==== Sys2Proof/Machine/Dispatch.lean ====
section
/-! DEFINITION. The dispatch: one arm per command, each a direct call of its meaning. -/

namespace Sys2Proof.Machine

open Sys2Proof

/-- The effect of a command on everything but the queue. -/
def exec (i : Instr) (s : State) : Host.Outcome State Fault Refusal :=
  match i with
  | .runCmd c => Sys2Proof.Machine.execRunCmd c s
  | .imageCmd c => Sys2Proof.Machine.execImageCmd c s
  | .imageItem c => Sys2Proof.Machine.execImageItem c s
  | .windowOpenCmd u => Sys2Proof.Machine.execWindowOpenCmd u s
  | .windowCloseCmd u => Sys2Proof.Machine.execWindowCloseCmd u s
  | .scrubCmd c => Sys2Proof.Machine.execScrubCmd c s
  | .cutCmd m => Sys2Proof.Machine.execCutCmd m s
  | .killCmd m => Sys2Proof.Machine.execKillCmd m s
  | .cmdDispatch c => Sys2Proof.Machine.execCmdDispatch c s
  | .commandComplete c => Sys2Proof.Machine.execCommandComplete c s
  | .carcaseCommandComplete u tag => Sys2Proof.Machine.execCarcaseCommandComplete u tag s
  | .scrubEnd c => Sys2Proof.Machine.execScrubEnd c s
  | .li c f => Sys2Proof.Machine.execLi c f s
  | .lih c f => Sys2Proof.Machine.execLih c f s
  | .addI c f => Sys2Proof.Machine.execAddI c f s
  | .subI c f => Sys2Proof.Machine.execSubI c f s
  | .andI c f => Sys2Proof.Machine.execAndI c f s
  | .orI c f => Sys2Proof.Machine.execOrI c f s
  | .xorI c f => Sys2Proof.Machine.execXorI c f s
  | .shl c f => Sys2Proof.Machine.execShl c f s
  | .shr c f => Sys2Proof.Machine.execShr c f s
  | .sra c f => Sys2Proof.Machine.execSra c f s
  | .mulI c f => Sys2Proof.Machine.execMulI c f s
  | .ld1 c f e => Sys2Proof.Machine.execLd1 c f e s
  | .ld2 c f e => Sys2Proof.Machine.execLd2 c f e s
  | .ld4 c f e => Sys2Proof.Machine.execLd4 c f e s
  | .ld8 c f e => Sys2Proof.Machine.execLd8 c f e s
  | .st1 c f e => Sys2Proof.Machine.execSt1 c f e s
  | .st2 c f e => Sys2Proof.Machine.execSt2 c f e s
  | .st4 c f e => Sys2Proof.Machine.execSt4 c f e s
  | .st8 c f => Sys2Proof.Machine.execSt8 c f s
  | .beq c f => Sys2Proof.Machine.execBeq c f s
  | .bne c f => Sys2Proof.Machine.execBne c f s
  | .blt c f => Sys2Proof.Machine.execBlt c f s
  | .bge c f => Sys2Proof.Machine.execBge c f s
  | .bltu c f => Sys2Proof.Machine.execBltu c f s
  | .bgeu c f => Sys2Proof.Machine.execBgeu c f s
  | .jal c f => Sys2Proof.Machine.execJal c f s
  | .jr c f => Sys2Proof.Machine.execJr c f s
  | .rdrand c f => Sys2Proof.Machine.execRdrand c f s
  | .timeRd c f => Sys2Proof.Machine.execTimeRd c f s
  | .fenceI c f => Sys2Proof.Machine.execFenceI c f s
  | .endRun c f => Sys2Proof.Machine.execEndRun c f s
  | .illegalOpcode c opc f => Sys2Proof.Machine.execIllegalOpcode c opc f s
  | .fetch c f e => Sys2Proof.Machine.execFetch c f e s
  | .joinedFetchArrival c e => Sys2Proof.Machine.execJoinedFetchArrival c e s
  | .entryrd c f => Sys2Proof.Machine.execEntryrd c f s
  | .storeG c f => Sys2Proof.Machine.execStoreG c f s
  | .groupFree dix => Sys2Proof.Machine.execGroupFree dix s
  | .storageRelease base => Sys2Proof.Machine.execStorageRelease base s
  | .gatherColumn c f e => Sys2Proof.Machine.execGatherColumn c f e s
  | .gatherRow c f e => Sys2Proof.Machine.execGatherRow c f e s
  | .selectN c f => Sys2Proof.Machine.execSelectN c f s
  | .auditN c f => Sys2Proof.Machine.execAuditN c f s
  | .arrayI c f => Sys2Proof.Machine.execArrayI c f s
  | .arrayBeat c unsupplied behind e x => Sys2Proof.Machine.execArrayBeat c unsupplied behind e x s
  | .treeEmptyToken c t => Sys2Proof.Machine.execTreeEmptyToken c t s
  | .tileCheckpoint c t x => Sys2Proof.Machine.execTileCheckpoint c t x s
  | .loadT c f => Sys2Proof.Machine.execLoadT c f s
  | .loadComplete c t => Sys2Proof.Machine.execLoadComplete c t s
  | .drainRq c f => Sys2Proof.Machine.execDrainRq c f s
  | .drainWide c f => Sys2Proof.Machine.execDrainWide c f s
  | .drainChain c f => Sys2Proof.Machine.execDrainChain c f s
  | .drainSab c f => Sys2Proof.Machine.execDrainSab c f s
  | .drainRow c t x => Sys2Proof.Machine.execDrainRow c t x s
  | .sabItemApply c bank x => Sys2Proof.Machine.execSabItemApply c bank x s
  | .rangeReset c f => Sys2Proof.Machine.execRangeReset c f s
  | .requant c f => Sys2Proof.Machine.execRequant c f s
  | .rangeRequant c f => Sys2Proof.Machine.execRangeRequant c f s
  | .dequant c f => Sys2Proof.Machine.execDequant c f s
  | .quant c f => Sys2Proof.Machine.execQuant c f s
  | .rangeF32 c f => Sys2Proof.Machine.execRangeF32 c f s
  | .sabout c f => Sys2Proof.Machine.execSabout c f s
  | .rangeout c f => Sys2Proof.Machine.execRangeout c f s
  | .rangemerge c f => Sys2Proof.Machine.execRangemerge c f s
  | .scaleRq c f => Sys2Proof.Machine.execScaleRq c f s
  | .ledgerW c f => Sys2Proof.Machine.execLedgerW c f s
  | .cvt c f => Sys2Proof.Machine.execCvt c f s
  | .lfuMul c f => Sys2Proof.Machine.execLfuMul c f s
  | .expF c f => Sys2Proof.Machine.execExpF c f s
  | .logF c f => Sys2Proof.Machine.execLogF c f s
  | .recip c f => Sys2Proof.Machine.execRecip c f s
  | .rsqrt c f => Sys2Proof.Machine.execRsqrt c f s
  | .softmax c f => Sys2Proof.Machine.execSoftmax c f s
  | .gelu c f => Sys2Proof.Machine.execGelu c f s
  | .silu c f => Sys2Proof.Machine.execSilu c f s
  | .normF c f => Sys2Proof.Machine.execNormF c f s
  | .wopen c f => Sys2Proof.Machine.execWopen c f s
  | .deferredWindowOpen u w => Sys2Proof.Machine.execDeferredWindowOpen u w s
  | .wclose c f => Sys2Proof.Machine.execWclose c f s
  | .syncOp c f => Sys2Proof.Machine.execSyncOp c f s
  | .qread c f => Sys2Proof.Machine.execQread c f s
  | .qflush c f => Sys2Proof.Machine.execQflush c f s
  | .queueFlushComplete q => Sys2Proof.Machine.execQueueFlushComplete q s
  | .sendW c f => Sys2Proof.Machine.execSendW c f s
  | .unitOperationComplete c k again => Sys2Proof.Machine.execUnitOperationComplete c k again s
  | .stallRelease c => Sys2Proof.Machine.execStallRelease c s
  | .seqWdog c => Sys2Proof.Machine.execSeqWdog c s
  | .commandArrival m => Sys2Proof.Machine.execCommandArrival m s
  | .roleSet m => Sys2Proof.Machine.execRoleSet m s
  | .windowWrite m => Sys2Proof.Machine.execWindowWrite m s
  | .windowWriteLanded u w => Sys2Proof.Machine.execWindowWriteLanded u w s
  | .chainSum m => Sys2Proof.Machine.execChainSum m s
  | .chainInletAccept c t => Sys2Proof.Machine.execChainInletAccept c t s
  | .blockFetch m e => Sys2Proof.Machine.execBlockFetch m e s
  | .replyArrival m => Sys2Proof.Machine.execReplyArrival m s
  | .bounceArrival m => Sys2Proof.Machine.execBounceArrival m s
  | .queueEnqueueResume q => Sys2Proof.Machine.execQueueEnqueueResume q s
  | .queueTail q => Sys2Proof.Machine.execQueueTail q s
  | .syncRead m => Sys2Proof.Machine.execSyncRead m s
  | .syncInit m => Sys2Proof.Machine.execSyncInit m s
  | .syncAdd m => Sys2Proof.Machine.execSyncAdd m s
  | .syncWaitGe m => Sys2Proof.Machine.execSyncWaitGe m s
  | .syncArrive m => Sys2Proof.Machine.execSyncArrive m s
  | .syncArriveWait m => Sys2Proof.Machine.execSyncArriveWait m s
  | .syncWaitGen m => Sys2Proof.Machine.execSyncWaitGen m s
  | .syncSet m => Sys2Proof.Machine.execSyncSet m s
  | .syncClear m => Sys2Proof.Machine.execSyncClear m s
  | .syncWaitSet m => Sys2Proof.Machine.execSyncWaitSet m s
  | .syncWaitClear m => Sys2Proof.Machine.execSyncWaitClear m s
  | .spillAlloc m => Sys2Proof.Machine.execSpillAlloc m s
  | .spillFree m => Sys2Proof.Machine.execSpillFree m s
  | .spillWrite m => Sys2Proof.Machine.execSpillWrite m s
  | .spillRead m => Sys2Proof.Machine.execSpillRead m s
  | .spareSubstitution c => Sys2Proof.Machine.execSpareSubstitution c s
  | .retirementRequest c => Sys2Proof.Machine.execRetirementRequest c s
  | .hostingStart c => Sys2Proof.Machine.execHostingStart c s
  | .hostContextSwitch c => Sys2Proof.Machine.execHostContextSwitch c s
  | .ceLimitReached c row => Sys2Proof.Machine.execCeLimitReached c row s
  | .fieldRemap c row => Sys2Proof.Machine.execFieldRemap c row s
  | .patrol unit e => Sys2Proof.Machine.execPatrol unit e s
  | .ucieLaneRepair die mod lanes repaired => Sys2Proof.Machine.execUcieLaneRepair die mod lanes repaired s
  | .jobEntry st entry prectab => Sys2Proof.Machine.execJobEntry st entry prectab s
  | .jobStart job => Sys2Proof.Machine.execJobStart job s
  | .budgetExpiry job => Sys2Proof.Machine.execBudgetExpiry job s
  | .jobEnd job => Sys2Proof.Machine.execJobEnd job s
  | .jobFailure job layer code => Sys2Proof.Machine.execJobFailure job layer code s
  | .completionEntryWrite st => Sys2Proof.Machine.execCompletionEntryWrite st s
  | .killEntry st entry => Sys2Proof.Machine.execKillEntry st entry s
  | .cutEntry st entry => Sys2Proof.Machine.execCutEntry st entry s
  | .registerEntry st entry graph tensors layers room => Sys2Proof.Machine.execRegisterEntry st entry graph tensors layers room s
  | .releaseEntry st entry => Sys2Proof.Machine.execReleaseEntry st entry s
  | .deltaLayerBegin job layer => Sys2Proof.Machine.execDeltaLayerBegin job layer s
  | .layerComplete job layer code record carried ledgers => Sys2Proof.Machine.execLayerComplete job layer code record carried ledgers s
  | .evcSendGo h addr count items w1c => Sys2Proof.Machine.execEvcSendGo h addr count items w1c s
  | .evcHiqPop h => Sys2Proof.Machine.execEvcHiqPop h s
  | .evcClaim h => Sys2Proof.Machine.execEvcClaim h s
  | .evcComplete h id w1c => Sys2Proof.Machine.execEvcComplete h id w1c s
  | .evcSrcWrite n v => Sys2Proof.Machine.execEvcSrcWrite n v s
  | .evcSgrpWrite g v => Sys2Proof.Machine.execEvcSgrpWrite g v s
  | .evcThreshWrite h v => Sys2Proof.Machine.execEvcThreshWrite h v s
  | .evcHartCtlWrite h v => Sys2Proof.Machine.execEvcHartCtlWrite h v s
  | .evcSmaskWrite g v => Sys2Proof.Machine.execEvcSmaskWrite g v s
  | .evcSpendRead g => Sys2Proof.Machine.execEvcSpendRead g s
  | .evcSwfire v => Sys2Proof.Machine.execEvcSwfire v s
  | .evcMsixSend v => Sys2Proof.Machine.execEvcMsixSend v s
  | .sourceFire id => Sys2Proof.Machine.execSourceFire id s
  | .statusSourceFire n => Sys2Proof.Machine.execStatusSourceFire n s
  | .timerFire t armed => Sys2Proof.Machine.execTimerFire t armed s
  | .workstationWindowAccess h base w1c a => Sys2Proof.Machine.execWorkstationWindowAccess h base w1c a s
  | .sqTail st v w1c => Sys2Proof.Machine.execSqTail st v w1c s
  | .cqHead st v => Sys2Proof.Machine.execCqHead st v s
  | .streamReset st w => Sys2Proof.Machine.execStreamReset st w s
  | .cqPublish st v => Sys2Proof.Machine.execCqPublish st v s
  | .coalesceTimeout st => Sys2Proof.Machine.execCoalesceTimeout st s
  | .busMasterEnableChange v => Sys2Proof.Machine.execBusMasterEnableChange v s
  | .functionLevelReset => Sys2Proof.Machine.execFunctionLevelReset s
  | .mbGo p w => Sys2Proof.Machine.execMbGo p w s
  | .dictionaryRead => Sys2Proof.Machine.execDictionaryRead s
  | .dictionaryWrite => Sys2Proof.Machine.execDictionaryWrite s
  | .rwcStageWrite => Sys2Proof.Machine.execRwcStageWrite s
  | .commitGroup => Sys2Proof.Machine.execCommitGroup s
  | .commitDiscard => Sys2Proof.Machine.execCommitDiscard s
  | .commitApply u index => Sys2Proof.Machine.execCommitApply u index s
  | .chamoisDatagram d => Sys2Proof.Machine.execChamoisDatagram d s
  | .solicit d => Sys2Proof.Machine.execSolicit d s
  | .announceDelayExpiry => Sys2Proof.Machine.execAnnounceDelayExpiry s
  | .dadComplete duplicate => Sys2Proof.Machine.execDadComplete duplicate s
  | .neighborSolicitation d target => Sys2Proof.Machine.execNeighborSolicitation d target s
  | .echoRequest d => Sys2Proof.Machine.execEchoRequest d s
  | .saveStore => Sys2Proof.Machine.execSaveStore s
  | .saveDelayExpiry => Sys2Proof.Machine.execSaveDelayExpiry s
  | .storeSaveComplete ok => Sys2Proof.Machine.execStoreSaveComplete ok s
  | .restoreStore => Sys2Proof.Machine.execRestoreStore s
  | .snapGoStart => Sys2Proof.Machine.execSnapGoStart s
  | .snapGoAbandon => Sys2Proof.Machine.execSnapGoAbandon s
  | .waveArrival u ch w => Sys2Proof.Machine.execWaveArrival u ch w s
  | .snapshotReport m => Sys2Proof.Machine.execSnapshotReport m s
  | .fabricFreezeRequest => Sys2Proof.Machine.execFabricFreezeRequest s
  | .fabricFreezeEnd => Sys2Proof.Machine.execFabricFreezeEnd s
  | .freezeReached => Sys2Proof.Machine.execFreezeReached s
  | .dbgDataRead => Sys2Proof.Machine.execDbgDataRead s
  | .holdPurge => Sys2Proof.Machine.execHoldPurge s
  | .retrain => Sys2Proof.Machine.execRetrain s
  | .routesWrite => Sys2Proof.Machine.execRoutesWrite s
  | .appGrantWrite => Sys2Proof.Machine.execAppGrantWrite s
  | .lostRelease => Sys2Proof.Machine.execLostRelease s
  | .devIdApply => Sys2Proof.Machine.execDevIdApply s
  | .keyRevoke => Sys2Proof.Machine.execKeyRevoke s
  | .fwStage => Sys2Proof.Machine.execFwStage s
  | .fwCommit => Sys2Proof.Machine.execFwCommit s
  | .fwDiscard => Sys2Proof.Machine.execFwDiscard s
  | .mrExtend => Sys2Proof.Machine.execMrExtend s
  | .quoteNonce => Sys2Proof.Machine.execQuoteNonce s
  | .quoteSigned => Sys2Proof.Machine.execQuoteSigned s
  | .akCertSigned => Sys2Proof.Machine.execAkCertSigned s
  | .dbgChallenge => Sys2Proof.Machine.execDbgChallenge s
  | .dbgResponse => Sys2Proof.Machine.execDbgResponse s
  | .dataFlit l bytes => Sys2Proof.Machine.execDataFlit l bytes s
  | .abortFlit l bytes => Sys2Proof.Machine.execAbortFlit l bytes s
  | .idleFlit l bytes => Sys2Proof.Machine.execIdleFlit l bytes s
  | .helloFlit l bytes => Sys2Proof.Machine.execHelloFlit l bytes s
  | .degradeFlit l bytes => Sys2Proof.Machine.execDegradeFlit l bytes s
  | .ethFrame l frame fcsOk => Sys2Proof.Machine.execEthFrame l frame fcsOk s
  | .replayTimeout l => Sys2Proof.Machine.execReplayTimeout l s
  | .helloSend l => Sys2Proof.Machine.execHelloSend l s
  | .helloTimeout l => Sys2Proof.Machine.execHelloTimeout l s
  | .flitLockLost l => Sys2Proof.Machine.execFlitLockLost l s
  | .flitLockAcquired l => Sys2Proof.Machine.execFlitLockAcquired l s
  | .laneDegrade l lanes errors => Sys2Proof.Machine.execLaneDegrade l lanes errors s
  | .linkRetrainComplete l ok => Sys2Proof.Machine.execLinkRetrainComplete l ok s
  | .packetForward l vc => Sys2Proof.Machine.execPacketForward l vc s
  | .heldPacketRelease dest => Sys2Proof.Machine.execHeldPacketRelease dest s
  | .arrivalBufferDeliver die => Sys2Proof.Machine.execArrivalBufferDeliver die s
  | .cableChange port cable => Sys2Proof.Machine.execCableChange port cable s
  | .powerControlStep inputW => Sys2Proof.Machine.execPowerControlStep inputW s
  | .thermalSample die tj => Sys2Proof.Machine.execThermalSample die tj s
  | .thermalTrip die => Sys2Proof.Machine.execThermalTrip die s
  | .vcoreUnderVoltage die => Sys2Proof.Machine.execVcoreUnderVoltage die s
  | .vcoreRecovery die => Sys2Proof.Machine.execVcoreRecovery die s
  | .inputUnderVoltage => Sys2Proof.Machine.execInputUnderVoltage s
  | .inputOverVoltage => Sys2Proof.Machine.execInputOverVoltage s
  | .pwrEnHigh => Sys2Proof.Machine.execPwrEnHigh s
  | .pwrEnLow => Sys2Proof.Machine.execPwrEnLow s
  | .modResetAssert => Sys2Proof.Machine.execModResetAssert s
  | .internalResetRelease recoveryN sris t1sTerm => Sys2Proof.Machine.execInternalResetRelease recoveryN sris t1sTerm s
  | .bootRun b => Sys2Proof.Machine.execBootRun b s
  | .perstAssert => Sys2Proof.Machine.execPerstAssert s
  | .perstDeassert => Sys2Proof.Machine.execPerstDeassert s
  | .freezeNAssert => Sys2Proof.Machine.execFreezeNAssert s
  | .freezeNDeassert => Sys2Proof.Machine.execFreezeNDeassert s
  | .tapReset => Sys2Proof.Machine.execTapReset s
  | .bypassTap tap opc => Sys2Proof.Machine.execBypassTap tap opc s
  | .idcodeTap tap => Sys2Proof.Machine.execIdcodeTap tap s
  | .samplePreload tap boundary => Sys2Proof.Machine.execSamplePreload tap boundary s
  | .extest tap => Sys2Proof.Machine.execExtest tap s
  | .clampTap tap => Sys2Proof.Machine.execClampTap tap s
  | .highzTap tap => Sys2Proof.Machine.execHighzTap tap s
  | .extestPulse tap => Sys2Proof.Machine.execExtestPulse tap s
  | .extestTrain tap => Sys2Proof.Machine.execExtestTrain tap s
  | .frzStatus tap => Sys2Proof.Machine.execFrzStatus tap s
  | .dbgAccess tap dr => Sys2Proof.Machine.execDbgAccess tap dr s
  | .inputRestored => Sys2Proof.Machine.execInputRestored s
  | .railFault rail => Sys2Proof.Machine.execRailFault rail s
  | .pcieLinkEvent e => Sys2Proof.Machine.execPcieLinkEvent e s
  | .msixVectorUnmask v => Sys2Proof.Machine.execMsixVectorUnmask v s
  | .linkModeWrite => Sys2Proof.Machine.execLinkModeWrite s
  | .fwSlotWriteComplete readback => Sys2Proof.Machine.execFwSlotWriteComplete readback s

end Sys2Proof.Machine
end

