-- ==== Sys2Proof/Machine/Tick.lean ====
section
/-! DEFINITION. What passes while no command waits: 1 ns of local time. -/

namespace Sys2Proof.Machine

open Sys2Proof

/-- BUSY_NS counts while a run is in progress (Table 18-1). -/
def Cell.tick (x : Cell) : Cell :=
  if x.seq.running then { x with cnt := { x.cnt with busyNs := x.cnt.busyNs + 1 } } else x

/-- The sends of the harts are over: BUSY reads 0 (log 28). -/
def Evc.tick (e : Evc) : Evc := { e with harts := e.harts.map (fun (h : Nat × Hart) => (h.1, { h.2 with busy := false })) }

/-- The three local time counters advance by 1 ns, in a freeze too (R630, R631); the time that no freeze holds
advances unless one does. While the power is off there is no time (DESIGN CHOICE, log 2). -/
def tick (s : State) : State :=
  if s.pwr.on then
    { s with timeHost := s.timeHost + 1, timeDie0 := s.timeDie0 + 1, timeDie1 := s.timeDie1 + 1,
             runTime := if s.frozen then s.runTime else s.runTime + 1,
             cells := s.cells.map (fun (c : Nat × Cell) => (c.1, c.2.tick)), evc := s.evc.tick }
  else s

end Sys2Proof.Machine
end

