-- ==== Sys2Proof/Safety.lean ====
section
/-! DEFINITION. What counts as a safe run, and the words in which the statements speak. -/

namespace Sys2Proof.Safety

open Sys2Proof Sys2Proof.Machine

/-- The step from a state answers a next state. -/
def Proceeds (s : State) : Prop := ∃ t, step s = .next t

/-- Every command that waits, run in turn, answers a next state: no run of `n` steps stops. -/
def SafeFor : Nat → State → Prop
  | 0, _ => True
  | n + 1, s => ∃ t, step s = .next t ∧ SafeFor n t

end Sys2Proof.Safety

namespace Sys2Proof.Claims

open Sys2Proof Sys2Proof.Machine

/-- The sequencer of cell `c` issues the word of `opc` and `f` at SEQ_PC: the cell works, a run is in progress and nothing
holds it, no operation in flight writes the word's row (R301), and none will write one of the registers `rs` (R440). -/
def Issues (s : State) (c : CellIx) (opc : BitVec 8) (f : InsFields) (rs : List (BitVec 4)) : Prop :=
  s.cellUp c = true ∧ (s.cell c).issues = true ∧ (s.cell c).fetched opc f = true ∧
    (s.cell c).rowBusy false ((s.cell c).seq.pc.toNat / 128) 1 = false ∧ (s.cell c).regBusy rs = false

/-- The next instruction word lies in the scratchpad (R433). -/
def NextInside (s : State) (c : CellIx) : Prop :=
  (s.cell c).seq.pc.toNat + 8 < 0x200000 ∧ (s.cell c).seq.pc.toNat % 8 = 0

/-- Everything but cell `c` is as before. -/
def OnlyCell (s : State) (c : CellIx) (t : State) : Prop := t = s.setCell c (t.cell c)

/-- Everything but cell `c` and what is recorded of the conversions in progress is as before. -/
def OnlyConversion (s : State) (c : CellIx) (t : State) : Prop := t = { s.setCell c (t.cell c) with conv := t.conv }

/-- Everything but the sequencer of cell `c` is as before. -/
def OnlySeq (s : State) (c : CellIx) (t : State) : Prop :=
  t = s.setCell c { s.cell c with seq := (t.cell c).seq }

/-- Of the sequencer only the registers, SEQ_PC and RETIRED changed. -/
def OnlyRegsPc (q p : Seq) : Prop := p = { q with regs := p.regs, pc := p.pc, retired := p.retired }

/-- RD of cell `c` holds `v` (s0 holds zero), every other register, every other part of the cell and everything outside it are
as before, the program goes on at the next word and one more instruction has retired. -/
def RegResult (s : State) (c : CellIx) (rd : BitVec 4) (v : Word) (t : State) : Prop :=
  OnlySeq s c t ∧ OnlyRegsPc (s.cell c).seq (t.cell c).seq ∧
    (∀ r, (t.cell c).seq.reg r = if r = 0 then 0 else if r = rd then v else (s.cell c).seq.reg r) ∧
    (t.cell c).seq.pc = (s.cell c).seq.pc + 8 ∧ (t.cell c).seq.retired = sat32 (s.cell c).seq.retired 1

/-- A store of `n` bytes of `v` at byte `a` of the scratchpad of cell `c`: those bytes hold `v`, least significant first,
every other byte, every other part of the cell and everything outside it are as before, but that what was recorded of absent
columns in the row is dropped. -/
def StoreResult (s : State) (c : CellIx) (a n : Nat) (v : Word) (t : State) : Prop :=
  (∀ i, i < n → Memory.read (t.cell c).spad (a + i) = BitVec.extractLsb' (8 * i) 8 v) ∧
    (∀ b, b < a ∨ a + n ≤ b → Memory.read (t.cell c).spad b = Memory.read (s.cell c).spad b) ∧
    (t.cell c).seq.pc = (s.cell c).seq.pc + 8 ∧
    t = s.setCell c { (s.cell c).overwritten (a / 128) 1 with spad := (t.cell c).spad, seq := { (s.cell c).seq with
      pc := (s.cell c).seq.pc + 8, retired := sat32 (s.cell c).seq.retired 1 } }

/-- The instruction in issue completes with BAD_DESC: the command takes the code, its program stops, one more instruction has
retired, and nothing else changes. -/
def BadDesc (s : State) (c : CellIx) (t : State) : Prop :=
  ∃ r, (s.cell c).seq.cmd = some r ∧
    t = s.setCell c { s.cell c with seq := { (s.cell c).seq with
      running := false, retired := sat32 (s.cell c).seq.retired 1,
      cmd := some { r with codes := r.codes ++ [ccBadDesc], ended := true, stop := true } } }

/-- The program goes on at `pc`, with no register changed and one more instruction retired. -/
def JumpResult (s : State) (c : CellIx) (pc : Word) (t : State) : Prop :=
  pc.toNat < 0x200000 ∧ t = s.setCell c { s.cell c with seq := { (s.cell c).seq with
    pc := pc.setWidth 21, retired := sat32 (s.cell c).seq.retired 1 } }

/-- The sequencer of cell `c` issues the word of `opc` and `f`, whose block at RA + IMM is `b`, with no bit set outside `mask`
and its row not being written (R439, R444). -/
def IssuesBlock (s : State) (c : CellIx) (opc : BitVec 8) (f : InsFields) (rs : List (BitVec 4)) (mask : List Nat)
    (b : List Word) : Prop :=
  Issues s c opc f rs ∧ reservedOk mask b = true ∧
    ∃ row, (s.cell c).blockAt f = some (row, b) ∧ (s.cell c).rowBusy false row 1 = false

/-- The rows of an operation lie in the scratchpad and meet no stall (R301, R302). -/
def RowsFree (x : Cell) (reads writes : List (Nat × Nat)) : Prop :=
  rowsIn (reads ++ writes) = true ∧ x.hazard [] reads writes = none

/-- Cell `x` when an operation that writes `rows` starts: what was recorded of the absent columns of those rows is dropped. -/
def overwrites (rows : List (Nat × Nat)) (x : Cell) : Cell := rows.foldl (fun x w => x.overwritten w.1 w.2) x

/-- `u` with the operation `o` in flight as the last one of the run of cell `c`, and the program gone on at the next word. -/
def IssuedOn (s u : State) (c : CellIx) (o : UnitOp) (t : State) : Prop :=
  let q := (s.cell c).seq
  t = u.setCell c { overwrites o.writes (u.cell c) with
    ops := (s.cell c).ops ++ [{ o with id := q.nextOp, run := q.run, cmd := q.cmd.elim 0 (·.no) }]
    seq := { q with nextOp := q.nextOp + 1, pc := q.pc + 8, retired := sat32 q.retired 1 } }

/-- `u` with the blocking operation `o` in flight and the program of cell `c` held by it, under a stall cause or none. -/
def HeldOn (s u : State) (c : CellIx) (o : UnitOp) (cause : Option (BitVec 4 × Instr)) (t : State) : Prop :=
  let q := (s.cell c).seq
  t = u.setCell c { overwrites o.writes (u.cell c) with
    ops := (s.cell c).ops ++ [{ o with id := q.nextOp, run := q.run, cmd := q.cmd.elim 0 (·.no) }]
    seq := { q with nextOp := q.nextOp + 1, waiting := some q.nextOp, stalled := cause, stallSince := (if cause.isSome then s.runTime else q.stallSince), stallRep := false } }

/-- Of `s` only what a read of storage leaves changed: the counters and the directory caches of the home dies, and the FIFOs at
clock boundaries that the units crossed. -/
def OnlyReads (s t : State) : Prop :=
  t = { s with fifo := t.fifo, mem := { s.mem with dirc := t.mem.dirc, die0 := t.mem.die0, die1 := t.mem.die1 } }

/-- Of cell `x` only the scratchpad with what is recorded of its blocks, the counters, the operations in flight and the sequencer
changed. -/
def OnlyDelivered (x y : Cell) : Prop :=
  y = { x with spad := y.spad, psnRows := y.psnRows, zeroCols := y.zeroCols, cnt := y.cnt, ops := y.ops, seq := y.seq }

/-- The blocks of `mask` that the group of entry `ent` stores, in device memory or at level 4 (R197 to R200, R520). -/
def storedBlocks (s : State) (ent : Word × Word) (w mask : Nat) : List (Nat × Bool × List Byte) :=
  decodeBlocks (fun u => if Ent2.loc ent.2 = 2 then s.wsUnit (Ent2.base ent.1 + u) else s.mem.readUnit (Ent2.base ent.1 + u)) w
    (Ent2.bitmap ent.1 ent.2) (Ent2.dense ent.2) (Ent2.psnAny ent.2) mask

/-- The blocks of `mask` are at hand: none is stored, or they lie in device memory, or at level 4 with the bus there; and of the
units read in device memory each has the HEAD tag of R200 and none is lost (R501). -/
def AtHand (s : State) (ent : Word × Word) (w mask : Nat) (e : List UnitFlip) : Prop :=
  (mask &&& Ent2.bitmap ent.1 ent.2 = 0 ∨ Ent2.loc ent.2 = 0 ∨ (Ent2.loc ent.2 = 2 ∧ s.pcie.bme = true)) ∧
    (Ent2.loc ent.2 ≠ 2 → ∀ u ∈ unitsRead w (Ent2.bitmap ent.1 ent.2) (Ent2.dense ent.2) mask,
      (s.mem.readUnit (Ent2.base ent.1 + u)).2.getLsbD 1 = headTag w (Ent2.dense ent.2) u ∧
        s.mem.unitErr (Ent2.base ent.1 + u) e ≠ .uncorrectable)

/-- The operation `o` as the sequencer `q` numbers it. -/
def numbered (q : Seq) (o : UnitOp) : UnitOp := { o with id := q.nextOp, run := q.run, cmd := q.cmd.elim 0 (·.no) }

/-- The sequencer `q` once it has issued an operation and gone on at the next word. -/
def wentOn (q : Seq) : Seq := { q with nextOp := q.nextOp + 1, pc := q.pc + 8, retired := sat32 q.retired 1 }

/-- No operation in flight has the number that the next one gets. -/
def NextOpFree (x : Cell) : Prop := ∀ o ∈ x.ops, o.id ≠ x.seq.nextOp

/-- The joined fetches `l` that a router holds once cell `c` has left the one of `j`. -/
def leftBy (c : CellIx) (j : JoinRec) (l : List JoinRec) : List JoinRec :=
  (l.map (fun (k : JoinRec) => if k = j then { k with left := k.left.erase c.val } else k)).filter (fun k => decide (k.left ≠ []))

/-- The driver can read the next entry of stream `st`: it runs, the stream is enabled and not empty, and DMA is on (R463, R489). -/
def CanRead (s : State) (st : Nat) : Prop :=
  s.hostUp = true ∧ (s.stream st).enabled = true ∧ (s.stream st).sqHead ≠ (s.stream st).sqTail ∧ s.pcie.bme = true

/-- `s` with the entry at SQ_HEAD of stream `st` read. -/
def entryRead (s : State) (st : Nat) : State :=
  s.modStream st (fun q => { q with sqHead := BitVec.ofNat 16 ((q.sqHead.toNat + 1) % q.sqSize.toNat), read := q.read + 1 })

/-- Of `s` with the next entry of its stream read, only the driver's records changed, and one completion waits to be written. -/
def Posts (s : State) (st : Nat) (x : Completion) (t : State) : Prop :=
  t = { (entryRead s st).modStream st (fun q => { q with ready := q.ready ++ [x] }) with drv := t.drv }


/-- Of `s` only the event controller changed. -/
def OnlyEvc (s t : State) : Prop := t = { s with evc := t.evc }

/-- Source `id` after a firing (Table 13-7). -/
def fired (st : SrcSt) : SrcSt :=
  match st with
  | .idle => .pending
  | .pending => .pending
  | .active => .activePending
  | .activePending => .activePending


/-- In `t` no cell holds a recorded cut of the job (R252), and every cell is else as in `s`. -/
def Forgets (s : State) (job : BitVec 32) (t : State) : Prop :=
  ∀ c : CellIx, t.cell c = { s.cell c with cutRecs := (s.cell c).cutRecs.filter (fun r => decide (r.job ≠ job)) }

/-- Of every cell only the recorded cuts differ between `s` and `t`. -/
def ExceptCuts (s t : State) : Prop := ∀ c : CellIx, t.cell c = { s.cell c with cutRecs := (t.cell c).cutRecs }

/-- Byte `a` lies in the first word, with VALID, of the reference of a layer of a registered graph (R247). -/
def RefWord (s : State) (a : Nat) : Prop :=
  ∃ g ∈ s.drv.graphs, ∃ l ∈ g.layers, Layer.op l = 1 ∧ 64 * Layer.dref l ≤ a ∧ a < 64 * Layer.dref l + 8

/-- Of device memory only the first words of references differ between `s` and `t`. -/
def ExceptRefs (s t : State) : Prop := ∀ a, ¬ RefWord s a → Memory.read t.mem.mem a = Memory.read s.mem.mem a

/-- Every packet that begins in `l` is of job `job`; `mid`: `l` begins inside a packet (R347). -/
def ownPackets (job : Nat) : Bool → List QItem → Bool
  | _, [] => true
  | mid, i :: t => (mid || !strayPacket job (i :: t)) && ownPackets job (!i.eop) t

/-- `s` with the request at the head of the dictionary's queue taken. -/
def taken (s : State) : State := s.modDict (fun d => { d with queue := d.queue.drop 1 })

/-- The commit groups whose one parameter each cell holds: its index, its subindex and the cell with it set (Tables 7-8, 9-11, 17-7). -/
def cellGroups : List (Nat × Nat × (Nat → Cell → Cell)) :=
  [(0x4800, 0x04, fun n x => { x with ceLimit := BitVec.ofNat 8 n }), (0x5820, 0x01, fun n x => { x with deltaCap := BitVec.ofNat 64 n }),
   (0x6000, 0x02, fun n x => { x with recomputeLimit := BitVec.ofNat 16 n })]

/-- The head request `r` is of kind `k`, the service works for its path, and its access reaches parameter `p` at unit `n` with
data (R572, R574 to R576). -/
def Asks (s : State) (k : ReqKind) (r : DictReq) (p : Param) (n : Nat) : Prop :=
  s.headReq k = some r ∧ (taken s).access r = .ok (p, n) ∧ r.length ≠ 0

/-- `t` is `u` with the request answered with status `st`: of `u` only the answers of the three paths and vector 8 changed. -/
def Answers (u : State) (r : DictReq) (st : Nat) (t : State) : Prop :=
  (∃ ty total data, t = u.answer r st ty total data) ∧
    t = { u with dict := { u.dict with bar4 := t.dict.bar4, loc := t.dict.loc, mgmtTx := t.dict.mgmtTx, framesTx := t.dict.framesTx, cache := t.dict.cache }, pcie := { u.pcie with vecs := t.pcie.vecs } }

/-- Of `s` only the sending sides of the links changed: flits held for replay, queues, credits, what the next flit reports, and
the FIFOs to the ports. -/
def OnlySends (s t : State) : Prop :=
  t = { s with net := { s.net with links := t.net.links, flitsTx := t.net.flitsTx, replays := t.net.replays, serTx := t.net.serTx } } ∧
    ∀ j, t.net.link j = { s.net.link j with txSeq := (t.net.link j).txSeq, held := (t.net.link j).held, cred0 := (t.net.link j).cred0, cred1 := (t.net.link j).cred1, owe0 := (t.net.link j).owe0, owe1 := (t.net.link j).owe1, nakSend := (t.net.link j).nakSend, lastAck := (t.net.link j).lastAck, q0 := (t.net.link j).q0, q1 := (t.net.link j).q1, sent0 := (t.net.link j).sent0, sent1 := (t.net.link j).sent1 }

/-- `c` is the arrival of flit `b` on a native link `l`, of the kind that its type names. -/
def FlitOf (l : Fin 32) (b : List Byte) (c : Instr) : Prop :=
  (c = .dataFlit l b ∧ flitType b = 1 ∧ flitAbort b = false) ∨ (c = .abortFlit l b ∧ flitType b = 1 ∧ flitAbort b = true) ∨
    (c = .idleFlit l b ∧ flitType b = 2) ∨ (c = .helloFlit l b ∧ flitType b = 3) ∨ (c = .degradeFlit l b ∧ flitType b = 4)

/-- Fuses, flash, cables, what the workstation holds and the commands that wait are in `t` as in `s`; of the store both copies,
or the acting one where a save into the other was cut short (R590). -/
def KeepsFlash (s t : State) : Prop :=
  t.sec.keys = s.sec.keys ∧ t.sec.svnMin = s.sec.svnMin ∧ t.sec.slotA = s.sec.slotA ∧ t.sec.slotB = s.sec.slotB ∧
    (s.dict.saving = none → t.dict.storeA = s.dict.storeA ∧ t.dict.storeB = s.dict.storeB) ∧
    (if s.dict.acting = 0 then t.dict.storeA = s.dict.storeA else t.dict.storeB = s.dict.storeB) ∧ t.net.cables = s.net.cables ∧ t.mem.wsMem = s.mem.wsMem ∧
    t.pending = s.pending

/-- `t` is `s` with its rails gone off and every die back in its power-on state; fuses, flash and pins stay, `cause` is recorded. -/
def GoesOff (s t : State) (cause : BitVec 8) : Prop :=
  KeepsFlash s t ∧ t.pwr.on = false ∧ t.pwr.pg = false ∧ t.cells = [] ∧ t.units = [] ∧ t.mem.mem = [] ∧ t.net.inFlight = [] ∧
    t.pwr.boot = .off ∧ t.pwr.shutdownNext = cause

/-- Every memory of the machine is in its canonical form: the pool, what the device wrote to the workstation, every scratchpad. -/
def MemoriesCanonical (s : State) : Prop :=
  Memory.wf s.mem.mem ∧ Memory.wf s.mem.wsMem ∧ ∀ x ∈ s.cells, Memory.wf x.2.spad

/-- What every step keeps: the memories are in their canonical form, and the measurement log holds at most 4,096 entries (R668). -/
def MachineInvariant (s : State) : Prop := MemoriesCanonical s ∧ s.sec.log.length ≤ 4096

end Sys2Proof.Claims
end

