-- ==== Sys2Proof/Certificates/Slice0/Obligations.lean ====
section
/-! DEFINITION. The statements for the provers. -/

section

open Sys2Proof Sys2Proof.Machine Sys2Proof.Claims

/-- The eleven register instructions LI to MUL of Table 12-7 (R437). TIME reads the time counter of the cell's own die through
its clock-boundary FIFO (R356), RDRAND the word that the count of channel IMM[3:0] names (R437, R438). The words of RDRAND are
free values (log 11). -/
def Obligations.RegisterTimeAndRandomWords : Prop :=
  (∀ (s : State) (c : CellIx) (f : InsFields), NextInside s c →
     let a := (s.cell c).seq.reg f.ra
     let x := (s.cell c).seq.reg f.rb + f.imm.signExtend 64
     (Issues s c 0x01 f [f.rd] → ∃ t, exec (.li c f) s = .next t ∧ RegResult s c f.rd (f.imm.signExtend 64) t) ∧
     (Issues s c 0x02 f [f.rd] → ∃ t, exec (.lih c f) s = .next t ∧
       RegResult s c f.rd (BitVec.extractLsb' 0 20 f.imm ++ BitVec.extractLsb' 0 44 ((s.cell c).seq.reg f.rd)) t) ∧
     (Issues s c 0x03 f [f.rd, f.ra, f.rb] → ∃ t, exec (.addI c f) s = .next t ∧ RegResult s c f.rd (a + x) t) ∧
     (Issues s c 0x04 f [f.rd, f.ra, f.rb] → ∃ t, exec (.subI c f) s = .next t ∧ RegResult s c f.rd (a - x) t) ∧
     (Issues s c 0x05 f [f.rd, f.ra, f.rb] → ∃ t, exec (.andI c f) s = .next t ∧ RegResult s c f.rd (a &&& x) t) ∧
     (Issues s c 0x06 f [f.rd, f.ra, f.rb] → ∃ t, exec (.orI c f) s = .next t ∧ RegResult s c f.rd (a ||| x) t) ∧
     (Issues s c 0x07 f [f.rd, f.ra, f.rb] → ∃ t, exec (.xorI c f) s = .next t ∧ RegResult s c f.rd (a ^^^ x) t) ∧
     (Issues s c 0x08 f [f.rd, f.ra, f.rb] → ∃ t, exec (.shl c f) s = .next t ∧ RegResult s c f.rd (a <<< (x % 64)) t) ∧
     (Issues s c 0x09 f [f.rd, f.ra, f.rb] → ∃ t, exec (.shr c f) s = .next t ∧ RegResult s c f.rd (a >>> (x % 64)) t) ∧
     (Issues s c 0x0A f [f.rd, f.ra, f.rb] → ∃ t, exec (.sra c f) s = .next t ∧
       RegResult s c f.rd (a.sshiftRight (x % 64).toNat) t) ∧
     (Issues s c 0x0B f [f.rd, f.ra, f.rb] → ∃ t, exec (.mulI c f) s = .next t ∧ RegResult s c f.rd (a * x) t)) ∧
  (∀ (s : State) (c : CellIx) (f : InsFields), NextInside s c →
     (Issues s c 0x29 f [f.rd] → ∃ t, exec (.timeRd c f) s = .next t ∧
       RegResult (s.passTime (CellIx.die c)) c f.rd (if c.val < 256 then s.timeDie0 else s.timeDie1) t) ∧
     (Issues s c 0x28 f [f.rd, f.rb] → s.logicalFor (s.cell c).seq.cmd = false →
       ∃ t, exec (.rdrand c f) s = .next t ∧
         let n := 0x10 + f.imm.toNat % 16
         (∀ r, (t.cell c).seq.reg r = if r = 0 then 0 else if r = f.rd then
           rngWord (rngKey (s.seedOf (s.cell c).job) (sidPhysical (s.cellAddr c) n)) (SMap.getD (s.cell c).draws n 0)
           else (s.cell c).seq.reg r) ∧
         (t.cell c).draws = SMap.put (s.cell c).draws n (SMap.getD (s.cell c).draws n 0 + 1) 0 ∧
         (t.cell c).seq.pc = (s.cell c).seq.pc + 8 ∧
         t = s.setCell c { s.cell c with seq := (t.cell c).seq, draws := (t.cell c).draws } ∧
         OnlyRegsPc (s.cell c).seq (t.cell c).seq) ∧
     (Issues s c 0x28 f [f.rd, f.rb] → ∀ r, (s.cell c).seq.cmd = some r → s.logicalFor (some r) = true →
       ∃ t, exec (.rdrand c f) s = .next t ∧
         let ch := f.imm.toNat % 16
         (∀ i, (t.cell c).seq.reg i = if i = 0 then 0 else if i = f.rd then
           rngWord (rngKey (s.seedOf r.job) (sidLogical r.layer (((s.cell c).seq.reg f.rb).toNat % 2 ^ 24) (0x10 + ch)))
             (SMap.getD (s.cell c).seq.rand ch 0)
           else (s.cell c).seq.reg i) ∧
         (t.cell c).seq.rand = SMap.put (s.cell c).seq.rand ch (SMap.getD (s.cell c).seq.rand ch 0 + 1) 0 ∧
         (t.cell c).seq.pc = (s.cell c).seq.pc + 8 ∧ OnlySeq s c t))

/-- LD1 to LD8 read 1, 2, 4 or 8 scratchpad bytes, least significant first and zero-extended (R437, R293). ST1 to ST8 write the
low 1, 2, 4 or 8 bytes of RD (R437, R295). -/
def Obligations.LoadsAndStores : Prop :=
  (∀ (s : State) (c : CellIx) (f : InsFields), NextInside s c →
     let a := ((s.cell c).seq.reg f.ra + f.imm.signExtend 64).toNat
     let bytes (n : Nat) : Word := BitVec.ofNat 64 (ofBytesLE ((List.range n).map (fun i => Memory.read (s.cell c).spad (a + i))))
     a < 0x200000 → (s.cell c).hazard [] [(a / 128, 1)] [] = none →
     (Issues s c 0x10 f [f.rd, f.ra] → ∃ t, exec (.ld1 c f []) s = .next t ∧ RegResult s c f.rd (bytes 1) t) ∧
     (Issues s c 0x11 f [f.rd, f.ra] → a % 2 = 0 →
       ∃ t, exec (.ld2 c f []) s = .next t ∧ RegResult s c f.rd (bytes 2) t) ∧
     (Issues s c 0x12 f [f.rd, f.ra] → a % 4 = 0 →
       ∃ t, exec (.ld4 c f []) s = .next t ∧ RegResult s c f.rd (bytes 4) t) ∧
     (Issues s c 0x13 f [f.rd, f.ra] → a % 8 = 0 →
       ∃ t, exec (.ld8 c f []) s = .next t ∧ RegResult s c f.rd (bytes 8) t)) ∧
  (∀ (s : State) (c : CellIx) (f : InsFields), NextInside s c →
     let a := ((s.cell c).seq.reg f.ra + f.imm.signExtend 64).toNat
     let v := (s.cell c).seq.reg f.rd
     a < 0x200000 → (s.cell c).hazard [] [] [(a / 128, 1)] = none →
     (Issues s c 0x14 f [f.rd, f.ra] → ∃ t, exec (.st1 c f []) s = .next t ∧ StoreResult s c a 1 v t) ∧
     (Issues s c 0x15 f [f.rd, f.ra] → a % 2 = 0 → ∃ t, exec (.st2 c f []) s = .next t ∧ StoreResult s c a 2 v t) ∧
     (Issues s c 0x16 f [f.rd, f.ra] → a % 4 = 0 → ∃ t, exec (.st4 c f []) s = .next t ∧ StoreResult s c a 4 v t) ∧
     (Issues s c 0x17 f [f.rd, f.ra] → a % 8 = 0 → ∃ t, exec (.st8 c f) s = .next t ∧ StoreResult s c a 8 v t))

/-- A load or store at an address that is misaligned, or that is neither in the scratchpad nor a register's, completes its
instruction with BAD_DESC and reads or writes nothing (R298). -/
def Obligations.BadNarrowAccess : Prop :=
  ∀ (s : State) (c : CellIx) (f : InsFields) (e : List RowFlip) (i : Instr) (n : Nat) (opc : BitVec 8),
    (i, n, opc) ∈ [(Instr.ld1 c f e, 1, (0x10 : BitVec 8)), (.ld2 c f e, 2, 0x11), (.ld4 c f e, 4, 0x12), (.ld8 c f e, 8, 0x13),
      (.st1 c f e, 1, 0x14), (.st2 c f e, 2, 0x15), (.st4 c f e, 4, 0x16), (.st8 c f, 8, 0x17)] →
    let a := ((s.cell c).seq.reg f.ra + f.imm.signExtend 64).toNat
    Issues s c opc f [f.rd, f.ra] → (s.cell c).seq.cmd ≠ none →
    (a % n ≠ 0 ∨ (0x200000 ≤ a ∧ s.narrowReg c (a / 8 * 8) = none)) →
    ∃ t, exec i s = .next t ∧ BadDesc s c t

/-- A narrow read of a register answers the bytes it names, and claims the counts of RQ_CNT (clips [31:0], codes [63:32]) when
it covers all their bytes (R299, R177): LD8 claims both, LD4 one of them, LD2 neither. What a load or a store meets on its row,
by the bits that are flipped there (log 5): one flipped bit of the word read is corrected, delivered and counted; a word with
two is rebuilt from the hidden codeword and delivered, with UE set; where another codeword has two as well the row is lost,
reads as zero, and holds the reader, which changes nothing. A store of less than a word reads its word first: it writes unless
the row is lost (R294, R295, R309, R310, R608 to R610, R22). Which words of the row are in error is an operand of the command
(log 5). -/
def Obligations.NarrowReads : Prop :=
  (∀ (s : State) (c : CellIx) (f : InsFields) (e : List RowFlip), NextInside s c →
     let x := s.cell c
     let a := x.seq.reg f.ra + f.imm.signExtend 64
     (Issues s c 0x13 f [f.rd, f.ra] → a = 0x200040 → ∃ t, exec (.ld8 c f e) s = .next t ∧
       (t.cell c).seq.reg f.rd = (if f.rd = 0 then 0 else x.rq.codes ++ x.rq.clips) ∧
       (t.cell c).rq = { x.rq with clips := 0, codes := 0 } ∧ (t.cell c).seq.pc = x.seq.pc + 8) ∧
     (Issues s c 0x12 f [f.rd, f.ra] → a = 0x200044 → ∃ t, exec (.ld4 c f e) s = .next t ∧
       (t.cell c).seq.reg f.rd = (if f.rd = 0 then 0 else x.rq.codes.setWidth 64) ∧
       (t.cell c).rq = { x.rq with codes := 0 } ∧ (t.cell c).seq.pc = x.seq.pc + 8) ∧
     (Issues s c 0x11 f [f.rd, f.ra] → a = 0x200042 → ∃ t, exec (.ld2 c f e) s = .next t ∧
       (t.cell c).seq.reg f.rd = (if f.rd = 0 then 0 else BitVec.setWidth 64 (BitVec.extractLsb' 16 16 x.rq.clips)) ∧
       (t.cell c).rq = x.rq ∧ (t.cell c).seq.pc = x.seq.pc + 8)) ∧
  (∀ (s : State) (c : CellIx) (f : InsFields), NextInside s c →
     let x := s.cell c
     let a := (x.seq.reg f.ra + f.imm.signExtend 64).toNat
     let v := if f.rd = 0 then 0 else Memory.readWord x.spad a
     a < 0x200000 →
     (a % 8 = 0 → x.hazard [] [(a / 128, 1)] [] = none → Issues s c 0x13 f [f.rd, f.ra] →
       ∀ (k l : Fin 17) (b b' d d' : Fin 72), k.val = a % 128 / 8 → l ≠ k → b ≠ b' → d ≠ d' →
       (∃ t, exec (.ld8 c f [⟨k, b⟩]) s = .next t ∧ (t.cell c).seq.reg f.rd = v ∧ (t.cell c).seq.pc = x.seq.pc + 8 ∧
         (t.cell c).spdCe.toNat = min (x.spdCe.toNat + 1) 0xFFFF ∧ (t.cell c).spdUe = x.spdUe ∧ (t.cell c).spad = x.spad) ∧
       (∃ t, exec (.ld8 c f [⟨k, b⟩, ⟨k, b'⟩]) s = .next t ∧ (t.cell c).seq.reg f.rd = v ∧
         (t.cell c).seq.pc = x.seq.pc + 8 ∧ (t.cell c).spdUe = true ∧ (t.cell c).spad = x.spad) ∧
       (∃ t, exec (.ld8 c f [⟨k, b⟩, ⟨k, b'⟩, ⟨l, d⟩, ⟨l, d'⟩]) s = .next t ∧ (t.cell c).seq = x.seq ∧
         (t.cell c).held = some (a / 128) ∧ (t.cell c).spdUe = true ∧
         (t.cell c).spad = Memory.zero x.spad (128 * (a / 128)) 128)) ∧
     (x.hazard [] [] [(a / 128, 1)] = none → Issues s c 0x14 f [f.rd, f.ra] → ∀ (e : List RowFlip),
       let lost := (rowErr x.spad (a / 128) (wordsOf a 1) e).2 = .lost
       ∃ t, exec (.st1 c f e) s = .next t ∧
         (¬lost → (t.cell c).spad = Memory.writeNat x.spad a 1 (x.seq.reg f.rd).toNat ∧
           (t.cell c).seq.regs = x.seq.regs ∧ (t.cell c).seq.pc = x.seq.pc + 8) ∧
         (lost → (t.cell c).seq = x.seq ∧ (t.cell c).held = some (a / 128) ∧
           (t.cell c).spad = Memory.zero x.spad (128 * (a / 128)) 128)))

/-- The six branches compare RA with RB, signed or (U forms) unsigned, and go to PC + IMM × 8 when the comparison holds (R437).
The target lies in the scratchpad. JAL saves PC + 8 in RD and goes to PC + IMM × 8; JR goes to RA + IMM (R437), for targets in
the scratchpad. -/
def Obligations.BranchesAndJumps : Prop :=
  (∀ (s : State) (c : CellIx) (f : InsFields), NextInside s c →
     let a := (s.cell c).seq.reg f.ra
     let b := (s.cell c).seq.reg f.rb
     let pc : Word := (s.cell c).seq.pc.setWidth 64
     let dest (p : Prop) [Decidable p] : Word := if p then pc + f.imm.signExtend 64 * 8 else pc + 8
     (pc + f.imm.signExtend 64 * 8).toNat < 0x200000 →
     (Issues s c 0x20 f [f.ra, f.rb] → ∃ t, exec (.beq c f) s = .next t ∧ JumpResult s c (dest (a = b)) t) ∧
     (Issues s c 0x21 f [f.ra, f.rb] → ∃ t, exec (.bne c f) s = .next t ∧ JumpResult s c (dest (a ≠ b)) t) ∧
     (Issues s c 0x22 f [f.ra, f.rb] → ∃ t, exec (.blt c f) s = .next t ∧ JumpResult s c (dest (a.toInt < b.toInt)) t) ∧
     (Issues s c 0x23 f [f.ra, f.rb] → ∃ t, exec (.bge c f) s = .next t ∧ JumpResult s c (dest (b.toInt ≤ a.toInt)) t) ∧
     (Issues s c 0x24 f [f.ra, f.rb] → ∃ t, exec (.bltu c f) s = .next t ∧ JumpResult s c (dest (a.toNat < b.toNat)) t) ∧
     (Issues s c 0x25 f [f.ra, f.rb] → ∃ t, exec (.bgeu c f) s = .next t ∧ JumpResult s c (dest (b.toNat ≤ a.toNat)) t)) ∧
  (∀ (s : State) (c : CellIx) (f : InsFields), NextInside s c →
     let pc : Word := (s.cell c).seq.pc.setWidth 64
     let jal := pc + f.imm.signExtend 64 * 8
     let jr := (s.cell c).seq.reg f.ra + f.imm.signExtend 64
     (Issues s c 0x26 f [f.rd] → jal.toNat < 0x200000 → ∃ t, exec (.jal c f) s = .next t ∧
       OnlySeq s c t ∧ OnlyRegsPc (s.cell c).seq (t.cell c).seq ∧ (t.cell c).seq.pc = jal.setWidth 21 ∧
       (∀ r, (t.cell c).seq.reg r = if r = 0 then 0 else if r = f.rd then pc + 8 else (s.cell c).seq.reg r)) ∧
     (Issues s c 0x27 f [f.ra] → jr.toNat < 0x200000 → jr.toNat % 8 = 0 →
       ∃ t, exec (.jr c f) s = .next t ∧ JumpResult s c jr t))

/-- A jump, a taken branch or a fall-through to an address outside the scratchpad completes the run with BAD_DESC (R433); so
does JR to an address that is no multiple of 8 (the model's reading, log 36). -/
def Obligations.ProgramCounterLeavesTheScratchpad : Prop :=
  ∀ (s : State) (c : CellIx) (f : InsFields), (s.cell c).seq.cmd ≠ none → (s.cell c).seq.pc.toNat % 8 = 0 →
    let pc : Word := (s.cell c).seq.pc.setWidth 64
    let jr := (s.cell c).seq.reg f.ra + f.imm.signExtend 64
    (Issues s c 0x27 f [f.ra] → (0x200000 ≤ jr.toNat ∨ jr.toNat % 8 ≠ 0) →
      ∃ t, exec (.jr c f) s = .next t ∧ BadDesc s c t) ∧
    (Issues s c 0x20 f [f.ra, f.rb] → (s.cell c).seq.reg f.ra = (s.cell c).seq.reg f.rb →
      0x200000 ≤ (pc + f.imm.signExtend 64 * 8).toNat → ∃ t, exec (.beq c f) s = .next t ∧ BadDesc s c t) ∧
    (Issues s c 0x21 f [f.ra, f.rb] → (s.cell c).seq.reg f.ra = (s.cell c).seq.reg f.rb →
      (s.cell c).seq.pc = 0x1FFFF8 → ∃ t, exec (.bne c f) s = .next t ∧ BadDesc s c t)

/-- FENCE lets the program go on when no unit operation of the run is left, and holds it otherwise; END ends the run with
IMM[7:0] without waiting; an opcode of neither table completes the run with BAD_DESC (R437, R441). -/
def Obligations.FenceEndAndIllegalOpcodes : Prop :=
  ∀ (s : State) (c : CellIx) (f : InsFields),
    let x := s.cell c
    (Issues s c 0x2E f [] → NextInside s c → (∀ o ∈ x.ops, o.run ≠ x.seq.run) →
      ∃ t, exec (.fenceI c f) s = .next t ∧ JumpResult s c (x.seq.pc.setWidth 64 + 8) t) ∧
    (Issues s c 0x2E f [] → (∃ o ∈ x.ops, o.run = x.seq.run) → exec (.fenceI c f) s = .next s) ∧
    (Issues s c 0x2F f [] → ∀ r, x.seq.cmd = some r → r.divide = false → ∃ t, exec (.endRun c f) s = .next t ∧
      t = s.setCell c { x with seq := { x.seq with
        running := false, retired := sat32 x.seq.retired 1,
        cmd := some { r with codes := r.codes ++ [f.imm.setWidth 8], ended := true, stop := r.stop || stops (f.imm.setWidth 8) } } }) ∧
    (Issues s c 0x0C f [] → x.seq.cmd ≠ none → ∃ t, exec (.illegalOpcode c 0x0C f) s = .next t ∧ BadDesc s c t) ∧
    (Issues s c 0x7F f [] → x.seq.cmd ≠ none → ∃ t, exec (.illegalOpcode c 0x7F f) s = .next t ∧ BadDesc s c t)

/-- RANGE_RESET, RANGE_F32, RANGEOUT, RANGEMERGE and LEDGER (R174, R176, R177, R148, R443, R444): the range record is reset,
extended from FP32 rows, written out as pairs of words and merged from such pairs; the ledger goes to its slots and starts anew.
The unit operations take their effect on the data at issue (the model's choice, log 3). -/
def Obligations.RangeRecordsAndLedgers : Prop :=
  ∀ (s : State) (c : CellIx) (f : InsFields) (b : List Word), NextInside s c →
    let x := s.cell c
    let n := bf b 2 31 0
    let ch := bf b 4 23 0
    let ready (op : Nat) (reads writes : List (Nat × Nat)) : Prop :=
      IssuesBlock s c 0x4C f [f.rd, f.ra] maskRq b ∧ bf b 0 3 0 = op ∧ x.rqBusy = false ∧ RowsFree x reads writes
    let pairs : List Word := (List.range n).flatMap (fun i =>
      [accWord (BitVec.ofInt 40 (x.rq.low (ch + i))) false false, accWord (BitVec.ofInt 40 (x.rq.high (ch + i))) false false])
    let o (reads writes : List (Nat × Nat)) : UnitOp := { id := 0, unit := .rq, reads := reads, writes := writes }
    (ready 0 [] [] → ∃ t, exec (.rangeReset c f) s = .next t ∧
      IssuedOn s ((s.modConv x.job x.layer id).modCell c (fun x => { x with rq := { ({} : Rq) with
        clips := x.rq.clips, codes := x.rq.codes, ledger := x.rq.ledger } })) c (o [] []) t) ∧
    (n ≠ 0 → ready 5 [(bf b 1 13 0, n)] [] → ∃ t q, exec (.rangeF32 c f) s = .next t ∧
      q = (List.range n).foldl (fun q m => (List.range 32).foldl (fun q k =>
        if (s.extOf x.job x.layer (s.tileOf x.job x.layer (bf b 4 47 24) (m / 32)) 0).inside (m % 32) k then
          q.rangeF32 (ch + if s.byRow x.job x.layer true then m else k) (f32At x.spad (bf b 1 13 0 + m) k)
        else q) q) x.rq ∧
      IssuedOn s (s.modCell c (fun x => { x with rq := q })) c (o [(bf b 1 13 0, n)] []) t) ∧
    (n ≠ 0 → ready 7 [] [(bf b 1 27 14, ceilDiv n 8)] → ∃ t, exec (.rangeout c f) s = .next t ∧
      IssuedOn s (s.modCell c (fun x => { x with spad := Memory.writeWords x.spad (128 * bf b 1 27 14) pairs })) c
        (o [] [(bf b 1 27 14, ceilDiv n 8)]) t) ∧
    (n ≠ 0 → ready 8 [(bf b 1 13 0, ceilDiv n 8)] [] →
      let merged (x : Cell) : Rq := (List.range n).foldl (fun (q : Rq) i =>
        let at_ (j : Nat) : Int :=
          ((Memory.readWord x.spad (128 * bf b 1 13 0 + 16 * i + 8 * j)).setWidth 40 : BitVec 40).toInt
        { (q.fold (ch + i) (at_ 0) (at_ 1)) with rangeValid := q.rangeValid || decide (at_ 0 ≤ at_ 1) }) x.rq
      ∃ t, exec (.rangemerge c f) s = .next t ∧
        IssuedOn s (s.modCell c (fun x => { x with rq := merged x })) c (o [(bf b 1 13 0, ceilDiv n 8)] []) t) ∧
    (let a := (x.seq.reg f.ra).toNat
     let k := (x.seq.reg f.rb).toNat
     Issues s c 0x4E f [f.ra, f.rb] → k ≠ 0 → a + k ≤ 2 ^ 40 → x.rqBusy = false →
      ∃ t m, exec (.ledgerW c f) s = .next t ∧
        m = (List.range k).foldl (fun (m : MemSys) i => m.writeUnit (a + i) (x.rq.ledger.stored, 0)) s.mem ∧
        IssuedOn s (({ s with mem := m }).modCell c (fun x => { x with rq := { x.rq with ledger := {} } })) c
          { id := 0, unit := .rq } t)

/-- REQUANT, RANGE_REQUANT, DEQUANT, QUANT and SABOUT that no rule of their block refuses: the codes or values that the unit
computes are written, the operation is in flight with its rows and its code, the program goes on, and outside the cell only what
is recorded of the layer's conversion changes; SCALE holds the program until it is complete (R138, R156, R166, R174, R124,
R149). The ten LFU operations that no rule of their block refuses: the rows that the unit computes are written, the operation is
in flight with its rows and its code, the program goes on, and nothing outside the cell changes (R274, R276, R279, R444). The
unit operations take their effect on the data at issue (the model's choice, log 3). -/
def Obligations.ConversionsAndLfuOperations : Prop :=
  (∀ (s : State) (c : CellIx) (f : InsFields) (b : List Word), NextInside s c →
     let x := s.cell c
     let n := bf b 2 31 0
     let h := recHeader x.spad (bf b 1 41 28)
     let ready (op : Nat) (io : List (Nat × Nat) × List (Nat × Nat)) : Prop :=
       IssuesBlock s c 0x4C f [f.rd, f.ra] maskRq b ∧ bf b 0 3 0 = op ∧ x.rqBusy = false ∧ RowsFree x io.1 io.2
     let runs (i : Instr) (io : List (Nat × Nat) × List (Nat × Nat)) (r : Code × List (BitVec 4 × Word) × State) : Prop :=
       ∃ t, exec i s = .next t ∧ OnlyConversion s c t ∧
         IssuedOn s r.2.2 c { id := 0, unit := .rq, reads := io.1, writes := io.2, code := r.1, regs := r.2.1 } t
     (ready 1 (requantRows b x) → requantFault b x = none → runs (.requant c f) (requantRows b x) (requantRun c b s)) ∧
     (ready 2 (requantRows b x) → requantFault b x = none → runs (.rangeRequant c f) (requantRows b x) (requantRun c b s)) ∧
     (let io := ((bf b 1 13 0, rowTiles b * groupRows (recWidth h)) :: recRows (bf b 1 41 28) (bf b 4 23 0) (channelCount (s.byRow x.job x.layer false) n),
       [(bf b 1 27 14, n)])
      ready 3 io → n ≠ 0 → recBad h = false → bf b 2 51 48 % 2 = 0 → Rec.nch h ≠ 0 →
       runs (.dequant c f) io (dequantRun c b s)) ∧
     (let io := ((bf b 1 13 0, n) :: recRows (bf b 1 41 28) (bf b 4 23 0) (channelCount (s.byRow x.job x.layer true) n),
       [codeRows b (recWidth h)])
      ready 4 io → n ≠ 0 → recBad h = false → Rec.width h ≠ 0xE → ¬(Rec.sym h = true ∧ Rec.width h = 1) →
       bf b 2 51 48 % 2 = 0 → Rec.nch h ≠ 0 → runs (.quant c f) io (quantRun c b s)) ∧
     (let io := if bb b 0 5 then ([(bf b 1 41 28, 2)], [codeRows b (rqConv b).width]) else ([], [(bf b 1 27 14, 2 * n)])
      ready 6 io → x.scatters = false → n ≠ 0 → bf b 2 47 32 + 32 * n ≤ 65536 → (bb b 0 5 = true → requantFault b x = none) →
       runs (.sabout c f) io (saboutRun c b s)) ∧
     (let given := bb b 0 7
      let r := scaleRun c f b s
      let recN := rowSpan 0 0 (8 + 8 * (if bf b 0 9 8 = 0 then 1 else n))
      let io := (if given then [(bf b 1 13 0, ceilDiv n 32), (bf b 1 41 28, recN.2)]
          else (bf b 1 41 28, ceilDiv n 32) :: (if bb b 0 6 then [(bf b 1 13 0, recN.2)] else []),
        (bf b 1 55 42, ceilDiv n 16) :: (if given then [] else [(bf b 1 27 14, recN.2)]))
      let w := Prec.outbits (b.getD 3 0)
      ready 9 io → n ≠ 0 → ((1 ≤ w ∧ w ≤ 8) ∨ w = 0xF) → ¬(bb b 0 4 = true ∧ w = 1) → bf b 0 9 8 ≠ 3 →
       ¬(bf b 0 9 8 = 1 ∧ bb b 0 4 = true) → ∃ t, exec (.scaleRq c f) s = .next t ∧ OnlyConversion s c t ∧
         HeldOn s r.2.2 c
           { id := 0, unit := .rq, reads := io.1, writes := io.2, code := r.1, regs := r.2.1, blocking := true } none t)) ∧
  (∀ (s : State) (c : CellIx) (f : InsFields) (b : List Word) (i : Instr) (op : Nat), NextInside s c →
     (i, op) ∈ [(Instr.cvt c f, 0), (.lfuMul c f, 1), (.expF c f, 2), (.logF c f, 3), (.recip c f, 4), (.rsqrt c f, 5),
       (.softmax c f, 6), (.gelu c f, 7), (.silu c f, 8), (.normF c f, 9)] →
     let k := lfuBlk b
     IssuesBlock s c 0x50 f [f.ra] maskLfu b → k.op = op → k.phase ≠ 3 → k.len ≠ 0 → k.rows ≠ 0 →
     (s.cell c).unitBusy .lfu = false → RowsFree (s.cell c) k.io.1 k.io.2 →
     ∃ t, exec i s = .next t ∧ OnlyCell s c t ∧
       IssuedOn s (s.lfuRun c k).2 c
         { id := 0, unit := .lfu, reads := k.io.1, writes := k.io.2, code := (s.lfuRun c k).1 } t)

/-- ARRAY joins its tile, LOAD begins to fill an empty tile and a DRAIN takes hold of its tile, each with an operation in
flight, while the program goes on (R104 to R106, R109, R110, R114, R120, Table 4-3): a drain of an empty tile that merges
nothing is at once under way, one of a tile whose additions are outstanding is CLOSING. The unit operations take their effect on
the data at issue (the model's choice, log 3). -/
def Obligations.TileInstructions : Prop :=
  ∀ (s : State) (c : CellIx) (f : InsFields) (b : List Word), NextInside s c →
    let x := s.cell c
    let q := x.seq
    let k := bf b 0 0 0
    let op (u : OpUnit) (reads writes : List (Nat × Nat)) (block : List Word) : UnitOp :=
      { id := q.nextOp, unit := u, reads := reads, writes := writes, done := false, run := q.run, cmd := q.cmd.elim 0 (·.no), block := block }
    let goesOn (t : State) (o : UnitOp) : Prop := OnlyCell s c t ∧ (t.cell c).ops = x.ops ++ [o] ∧
      (t.cell c).seq = { q with nextOp := q.nextOp + 1, pc := q.pc + 8, retired := sat32 q.retired 1 }
    (IssuesBlock s c 0x48 f [f.ra] maskArray b → arrayPrecOk (b.getD 1 0) = true → bf b 0 23 8 ≠ 0 → bf b 3 15 0 ≠ 0 →
      (bf b 0 23 8 = 1 ∨ bb b 0 2 = true) → RowsFree x (arrayRows b) [] → x.arr = none → (x.tile k).joined.length < 16 →
      (x.tile k).joinable (bb b 0 1) = true →
      ∃ t, exec (.arrayI c f) s = .next t ∧ goesOn t (op .array (arrayRows b) [] b) ∧ ((t.cell c).tile k).st = .filling ∧
        (t.cell c).spad = x.spad ∧ ∃ r, (t.cell c).arr = some r ∧ r.block = b ∧ r.op = q.nextOp ∧ r.done = 0 ∧ r.fill = 4) ∧
    (let d := (q.reg f.rd).toNat % 2
     let a := (q.reg f.ra + f.imm.signExtend 64).toNat
     Issues s c 0x49 f [f.rd, f.ra] → a % 8192 = 0 → a < 0x200000 → (x.tile d).st = .empty →
      x.hazard [] [(a / 128, 64)] [] = none →
      ∃ t, exec (.loadT c f) s = .next t ∧ goesOn t (op .load [(a / 128, 64)] [] []) ∧ (t.cell c).spad = x.spad ∧
        ((t.cell c).tile d).st = .loading ∧ ((t.cell c).tile d).load = some (a / 128, q.nextOp)) ∧
    (∀ (i : Instr) (dest : Nat),
      (i, dest) ∈ [(Instr.drainRq c f, 0), (.drainWide c f, 1), (.drainChain c f, 2), (.drainSab c f, 3)] →
      IssuesBlock s c 0x4A f [f.ra] maskDrain b → bf b 0 2 1 = dest → drainFault x.spad b = none → bb b 0 3 = false →
      ((x.tile k).st = .empty ∨ ((x.tile k).st = .filling ∧ q.untilEmpty = false)) →
      x.hazard [] (drainRows b).1 (drainRows b).2 = none →
      ∃ t, exec i s = .next t ∧ OnlyCell s c t ∧ (t.cell c).ops = x.ops ++ [op .drain (drainRows b).1 (drainRows b).2 []] ∧
        (t.cell c).seq = { q with nextOp := q.nextOp + 1, pc := q.pc + 8, retired := sat32 q.retired 1, untilEmpty := false } ∧
        (t.cell c).spad = x.spad ∧ ((t.cell c).tile k).drain = some { block := b, row := 0, op := q.nextOp } ∧
        ((t.cell c).tile k).elems = (x.tile k).elems ∧
        ((t.cell c).tile k).st = if (x.tile k).st = .empty ∨ (x.tile k).token then .draining else .closing)

/-- What happens to a tile later: TREE_EMPTY_TOKEN lets a CLOSING tile drain (R107), TILE_CHECKPOINT copies its elements and
their residues and drops its join record, one that its residue shows upset being recomputed first (R600, R603), LOAD_COMPLETE
fills it from its 1,024 words (R104, R110), CHAIN_INLET_ACCEPT moves the first sum from the port into the empty inlet (R116),
SAB_ITEM_APPLY adds the head of a bank's queue to its slot, repeated where the check of the add fails (R121, R599). DRAIN_ROW of
a drain to WIDE before its last row, of a layer that is no DELTA layer: row m of 32 accumulators goes to its two scratchpad
rows, is zero in the tile, and row m + 1 is due (R108, R110). ARRAY_BEAT fills the window with the table of one of its first
four positions (R97); afterwards each row group that takes a position adds the products of that position to its 8 × 32 elements,
and no other element changes (R73, R90, R93). The beat function is an open value (log 14). -/
def Obligations.TileEventsDrainsAndBeats : Prop :=
  (∀ (s : State) (c : CellIx) (k : Fin 2), s.cellUp c = true → (s.cell c).scrubbing = false →
     let x := s.cell c
     let y := x.tile k.val
     (y.token = false → x.arrayOn k.val = false → y.st = .closing → ∀ d, y.drain = some d → d.due = false →
       ∃ t, exec (.treeEmptyToken c k) s = .next t ∧ OnlyCell s c t ∧
         (t.cell c).tile k.val = { y with token := true, st := .draining }) ∧
     (y.token = true → x.arrayOn k.val = false → y.st = .filling → 16 ≤ y.joined.length →
       (∃ t, exec (.tileCheckpoint c k none) s = .next t ∧ OnlyCell s c t ∧
         (t.cell c).tile k.val = { y with check := some (y.elems, y.res), joined := [] }) ∧
       ∀ u : Upset, y.storageFails u.m.val (some u) = true → ∃ t, exec (.tileCheckpoint c k (some u)) s = .next t ∧
         (t.cell c).tile k.val = { y with check := some (y.elems, y.res), joined := [] }) ∧
     (x.held = none → ∀ row op, y.load = some (row, op) →
       ∃ t, exec (.loadComplete c k) s = .next t ∧ OnlyCell s c t ∧ ((t.cell c).tile k.val).st = .filling ∧
         ((t.cell c).tile k.val).load = none ∧ ((t.cell c).tile k.val).elems =
           (List.range 1024).foldr (fun i l => SMap.cons 0 i ((Memory.readWord x.spad (128 * row + 8 * i)).setWidth 40) l) [] ∧
         (t.cell c).spad = x.spad) ∧
     (y.inlet = none → ∀ m l, y.port = m :: l → y.drain = none →
       ∃ t, exec (.chainInletAccept c k) s = .next t ∧ OnlyCell s c t ∧
         (t.cell c).tile k.val = { y with inlet := some m, port := l }) ∧
     (∀ (bank : Fin 16) i l, SMap.getD x.sab.queues bank.val [] = i :: l →
       ∀ flip : Option Acc, flip.elim true (x.sab.addFails i) = true → ∃ t, exec (.sabItemApply c bank flip) s = .next t ∧
         (flip = none → OnlyCell s c t) ∧ (t.cell c).sab.slot i.slot =
           ⟨accAdd (x.sab.slot i.slot).value i.value, (x.sab.slot i.slot).poison || i.poison, true⟩ ∧
         SMap.getD (t.cell c).sab.queues bank.val [] = l ∧ (t.cell c).spad = x.spad)) ∧
  (∀ (s : State) (c : CellIx) (k : Fin 2), s.cellUp c = true → (s.cell c).scrubbing = false → (s.cell c).held = none →
     let x := s.cell c
     let y := x.tile k.val
     (∀ d, y.st = .draining → y.drain = some d → d.due = false → bf d.block 0 2 1 = 1 → d.row < 31 →
       Prec.delta (d.block.getD 5 0) = false →
       ∃ t, exec (.drainRow c k none) s = .next t ∧ OnlyCell s c t ∧
         (t.cell c).spad = writeAccRow x.spad (128 * (bf d.block 3 13 0 + 2 * d.row))
           (fun n => SMap.getD y.elems (32 * d.row + n) 0) y.poison
           (fun n => (s.extOf y.job y.layer (bf d.block 2 63 40) 0).inside d.row n) ∧
         ((t.cell c).tile k.val).elems = y.elems.filter (fun e => decide (e.1 / 32 ≠ d.row)) ∧
         ((t.cell c).tile k.val).drain = some { d with row := d.row + 1 } ∧ ((t.cell c).tile k.val).st = .draining) ∧
     (∀ r uns behind e u, x.retireReq = false → x.arr = some r → r.ended = false → r.joined = true → 1 < r.fill →
       ∃ t, exec (.arrayBeat c uns behind e u) s = .next t ∧ t = s.setCell c
         { r.lowest.elim x (fun st => x.enterWindow (x.feed r) r (st + (4 - r.fill))) with
           arr := some { r with fill := r.fill - 1 } }) ∧
     (∀ (r : ArrayRun) uns behind st st', x.retireReq = false → x.arr = some r → r.ended = false → r.joined = true → r.fill = 0 →
       r.lowest = some st → (x.tile r.tile).cut = false → s.dutyWait c = false →
       let f := x.feed r
       let take := r.takers (decide (Prec.order f.prec = 0)) uns st
       let pos := (List.range 4).map (fun g => (take.getD g none).elim (r.pos.getD g 0) (· + 1))
       let groups := (List.range 4).filterMap (fun g => (take.getD g none).map (fun p => (g, r.at? p)))
       ArrayRun.lowest { r with pos := pos } = some st' →
       ∃ t, exec (.arrayBeat c uns behind [] none) s = .next t ∧ OnlyCell s c t ∧ (t.cell c).seq = x.seq ∧
         (t.cell c).spad = x.spad ∧ (∃ r', (t.cell c).arr = some r' ∧ r'.pos = pos ∧ r'.done = r.done ∧ r'.op = r.op) ∧
         ((t.cell c).tile r.tile).elems = groups.foldl (fun e g => SMap.update (0 : Acc) (fun i v =>
           accAdd v (BitVec.ofInt 40 (f.adds g.2 (i / 32) (i % 32)).1)) 256 (256 * g.1) e) (x.tile r.tile).elems))

/-- FETCH. Outside a joined fetch, with the request mask ANDed as R218 says where INTERSECT is set: a zero mask completes with
OK_EMPTY and delivers nothing (R209); where the blocks are at hand, the stored ones of the mask and zeros for its absent ones
are written in slot form at the destination rows, the operation is in flight with its code, and the program goes on (R211, R212,
R128); blocks at level 3 are asked for, those at level 4 wait where the bus is not there, and the operation is in flight (R515,
R520). A joined fetch is in flight until its router answers (R445, R446). GATHER of columns or rows that R219 does not refuse.
Where the blocks of its groups are at hand, each group of the gathered operand is written in slot form from the source blocks
that the list names, with COLIDX for columns; the operation is in flight and done, the program goes on (R220 to R222). A group
at level 3 is asked for first and the operation waits (R515). An empty list is OK_EMPTY. BLOCK_FETCH writes its blocks into
every cell of its unit and no other (R39); from level 3 it asks for them first. The first joined fetch of a command at a router
reads the blocks once and the router holds them for the other members (R446); each later member gets its copy, BAD_DESC where
its operands differ (R447), or the code that ended the fetch; it waits while the blocks are on their way, and at a router that
holds 64 already (R448). The unit operations take their effect on the data at issue (the model's choice, log 3). -/
def Obligations.GroupAndSharedFetches : Prop :=
  (∀ (s : State) (c : CellIx) (f : InsFields) (b : List Word) (e : List UnitFlip), NextInside s c →
     let x := s.cell c
     let w := blockWidth b
     let row := bf b 2 13 0
     let dix := bf b 0 31 0
     let mcd := bf b 0 35 32
     let ent := s.mem.entry dix
     let mask := fetchMask x.spad b (Ent2.bitmap ent.1 ent.2)
     let src := if bb b 0 37 then [(bf b 2 33 20, 1)] else []
     let o : UnitOp := { id := 0, unit := .fetch, reads := src, writes := [(row, groupRows w)], block := b.take 4 }
     let p : UnitOp := { o with extents := if Ent2.valid ent.2 then [Ent2.key ent.1 ent.2] else [] }
     let bl := storedBlocks s ent w mask
     let waits : SpillWait → UnitOp := fun y => { p with done := false, spill := some y }
     IssuesBlock s c 0x40 f [f.ra] maskFetch b → s.groupOk b = true →
     (bb b 0 36 = false → b.getD 1 0 = 0 → exec (.fetch c f e) s = .next (s.finish c ccEmpty)) ∧
     (bb b 0 36 = false → b.getD 1 0 ≠ 0 → x.hazard [] src [(row, groupRows w)] = none → Ent2.ok w ent.1 ent.2 = true →
       (mask = 0 → exec (.fetch c f e) s = .next ((s.dirAccess dix).finish c ccEmpty)) ∧
       (mask ≠ 0 → AtHand s ent w mask e →
         ∃ t, exec (.fetch c f e) s = .next t ∧ OnlyReads (s.setCell c (t.cell c)) t ∧ OnlyDelivered x (t.cell c) ∧
           (t.cell c).spad = writeGroup x.spad row w mask bl ∧
           (t.cell c).ops = x.ops ++ [numbered x.seq { p with code := if bl.any (·.2.1) then ccPoison else ccOk }] ∧
           (t.cell c).seq = wentOn x.seq) ∧
       (mask &&& Ent2.bitmap ent.1 ent.2 ≠ 0 → Ent2.loc ent.2 = 1 →
         ∃ t u, exec (.fetch c f e) s = .next t ∧ OnlyReads (s.setCell c (u.cell c)) u ∧
           t = (u.sendRead (opTag c x.seq.nextOp) ent.1 ent.2).retire c ∧ (t.cell c).spad = x.spad ∧
           (t.cell c).ops = x.ops ++ [numbered x.seq (waits { what := .read, lo := ent.1, hi := ent.2 })] ∧
           (t.cell c).seq = wentOn x.seq) ∧
       (mask &&& Ent2.bitmap ent.1 ent.2 ≠ 0 → Ent2.loc ent.2 = 2 → s.pcie.bme = false →
         ∃ t, exec (.fetch c f e) s = .next t ∧ OnlyReads (s.setCell c (t.cell c)) t ∧ (t.cell c).spad = x.spad ∧
           (t.cell c).ops = x.ops ++ [numbered x.seq (waits { what := .bus, lo := ent.1, hi := ent.2 })] ∧
           (t.cell c).seq = wentOn x.seq)) ∧
     (bb b 0 36 = true → mcd < 5 → b.getD 1 0 ≠ 0 → x.hazard [] src [(row, groupRows w)] = none →
       let n := x.seq.cmd.elim 0 (fun r => SMap.getD r.joins mcd 0)
       ∃ t, exec (.fetch c f e) s = .next t ∧ OnlyCell s c t ∧ (t.cell c).spad = x.spad ∧
         (t.cell c).ops = x.ops ++ [numbered x.seq { o with done := false, joinDepth := mcd + 1, joinNo := n }] ∧
         (t.cell c).seq = { wentOn x.seq with
           cmd := x.seq.cmd.map (fun (r : CmdRun) => { r with joins := SMap.set r.joins mcd (n + 1) }) })) ∧
  (∀ (s : State) (c : CellIx) (f : InsFields) (b : List Word) (e : List UnitFlip),
     let x := s.cell c
     let io := gatherRows b
     let w := storedWidth (bf b 5 3 0) (bf b 5 5 4)
     let gs := gatherGroups x.spad b
     let src := fun d => (gs.find? (fun g => decide (g.1 = d))).elim [] (fun g => storedBlocks s (s.mem.entry g.1) w g.2)
     let got : List GotGroup := gs.map (fun g => ⟨g.1, (s.mem.entry g.1).1, (s.mem.entry g.1).2, none⟩)
     let ns := List.range (bf b 4 63 32)
     let out := ns.map (fun j => gatherBlocks x.spad b (bf b 4 31 0 + j) src)
     let o : UnitOp :=
       { id := 0, unit := .dove, reads := io.1, writes := io.2, block := b, got := got,
         extents := (got.filter (fun g => Ent2.valid g.hi)).map (fun g => Ent2.key g.lo g.hi) }
     (∀ (i : Instr) (row : Bool), (i, row) ∈ [(Instr.gatherColumn c f e, false), (.gatherRow c f e, true)] →
       NextInside s c → IssuesBlock s c 0x43 f [f.ra] maskGather b → bb b 0 0 = row → formOk (bf b 5 3 0) (bf b 5 5 4) = true →
       rowsIn (io.1 ++ io.2) = true →
       (bf b 1 63 32 = 0 ∨ bf b 4 63 32 = 0 → exec i s = .next (s.finish c ccEmpty)) ∧
       (bf b 1 63 32 ≠ 0 → bf b 4 63 32 ≠ 0 → x.hazard [] io.1 io.2 = none → NextOpFree x → s.gatherBad c b = false →
         (∀ g ∈ gs, g.1 < s.mem.dirEntries ∧ Ent2.ok w (s.mem.entry g.1).1 (s.mem.entry g.1).2 = true) →
         ((∀ g ∈ gs, AtHand s (s.mem.entry g.1) w g.2 e) →
           ∃ t, exec i s = .next t ∧ OnlyReads (s.setCell c (t.cell c)) t ∧ OnlyDelivered x (t.cell c) ∧
             (t.cell c).spad = (let m := ns.foldl (fun m j =>
                 writeGroup m (bf b 2 37 24 + j * groupRows w) w (2 ^ 64 - 1) (out.getD j [])) x.spad
               if row then m else Memory.writeBytes m (128 * bf b 2 51 38) (colidx x.spad b)) ∧
             (t.cell c).ops = x.ops ++ [numbered x.seq { o with
               code := if out.any (fun bl => bl.any (·.2.1)) then ccPoison else ccOk }] ∧
             (t.cell c).seq = wentOn x.seq) ∧
         (∀ g, gs.find? (fun g => decide (g.2 &&& Ent2.bitmap (s.mem.entry g.1).1 (s.mem.entry g.1).2 ≠ 0 ∧
             Ent2.loc (s.mem.entry g.1).2 = 1)) = some g →
           ∃ t u, exec i s = .next t ∧ OnlyReads (s.setCell c (u.cell c)) u ∧
             t = (u.sendRead (opTag c x.seq.nextOp) (s.mem.entry g.1).1 (s.mem.entry g.1).2).retire c ∧ (t.cell c).spad = x.spad ∧
             (t.cell c).ops = x.ops ++ [numbered x.seq { o with
               done := false, spill := some ⟨.read, g.1, 0, (s.mem.entry g.1).1, (s.mem.entry g.1).2⟩ }] ∧
             (t.cell c).seq = wentOn x.seq))) ∧
     (∀ m : Msg, s.requestOk m 0x02 = true → m.epoch = s.epochOf m.dest → s.blockFetchReady m = true →
       let b : List Word := (List.range 4).map (fun i => (m.body.getD i 0).setWidth 64)
       let w := blockWidth b
       let dix := bf b 0 31 0
       let ent := s.mem.entry dix
       let mask := fetchMask (s.cell (cellIx (UA.index m.dest))).spad b (Ent2.bitmap ent.1 ent.2)
       s.groupOk b = true → b.getD 1 0 ≠ 0 → Ent2.ok w ent.1 ent.2 = true → mask ≠ 0 →
       (AtHand s ent w mask e → ∃ t, exec (.blockFetch m e) s = .next t ∧
         (∀ k ∈ UA.cells m.dest, (t.cell (cellIx k)).spad =
           writeGroup (s.cell (cellIx k)).spad (bf b 2 13 0) w mask (storedBlocks s ent w mask)) ∧
         (∀ d : CellIx, (∀ k ∈ UA.cells m.dest, cellIx k ≠ d) → t.cell d = s.cell d) ∧
         t.net = (s.takeMsg m).net ∧ t.units = (s.received m).units ∧ t.mem.mem = s.mem.mem ∧ t.mem.tags = s.mem.tags) ∧
       (mask &&& Ent2.bitmap ent.1 ent.2 ≠ 0 → Ent2.loc ent.2 = 1 → ∃ t, exec (.blockFetch m e) s = .next t ∧
         t = ((((s.takeMsg m).received m).dirAccess dix).modUnit (UA.key m.dest) (fun u => { u with joins := u.joins ++
           [⟨m.src, m.tag, blockFetchNo, b, mask, ent.1, ent.2, none, UA.cells m.dest, none, none⟩] })).sendRead
             (unitTag (UA.key m.dest)) ent.1 ent.2 ∧ t.cells = s.cells)) ∧
     (∀ o r, x.joining = some o → x.cmdNo o.cmd = some r → s.cellUp c = true →
       let key := UA.keyOf (o.joinDepth - 1) c.val
       let js := (s.unit key).joins
       let row := bf o.block 2 13 0
       let w := blockWidth o.block
       let mine := js.find? (fun j => decide (j.src = r.src ∧ j.tag = r.tag ∧ j.n = o.joinNo ∧ c.val ∈ j.left))
       let ends := fun (code : Code) (lost : Option Nat) (t : State) =>
         (t.cell c).ops = x.ops.map (fun p => if p.id = o.id then { p with
             done := lost.isNone, spill := lost.map (fun u => { what := .lost u }), code := code } else p) ∧
           (t.cell c).seq = x.seq ∧ OnlyDelivered x (t.cell c) ∧ OnlyReads ((s.setCell c (t.cell c)).modUnit key (fun _ => t.unit key)) t
       (∀ j, mine = some j →
         (sameFetch j.block o.block = false → ∃ t, exec (.joinedFetchArrival c e) s = .next t ∧ ends ccBadDesc none t ∧
           (t.cell c).spad = x.spad ∧ (t.unit key).joins = leftBy c j js) ∧
         (sameFetch j.block o.block = true →
           (∀ code, j.ends = some code → ∃ t, exec (.joinedFetchArrival c e) s = .next t ∧ ends code none t ∧
             (t.cell c).spad = x.spad ∧ (t.unit key).joins = leftBy c j js) ∧
           (∀ bl, j.ends = none → j.blocks = some bl → ∃ t, exec (.joinedFetchArrival c e) s = .next t ∧
             ends (if bl.any (·.2.1) then ccPoison else ccOk) (j.lost.filter (fun u => decide (u ∈ s.mem.lost))) t ∧
             (t.cell c).spad = writeGroup x.spad row w j.mask bl ∧ (t.unit key).joins = leftBy c j js) ∧
           (j.ends = none → j.blocks = none → exec (.joinedFetchArrival c e) s = .next s))) ∧
       (mine = none → 64 ≤ js.length → exec (.joinedFetchArrival c e) s = .next s) ∧
       (mine = none → js.length < 64 →
         let ent := s.mem.entry (bf o.block 0 31 0)
         let mask := fetchMask x.spad o.block (Ent2.bitmap ent.1 ent.2)
         let bl := storedBlocks s ent w mask
         let j : JoinRec := ⟨r.src, r.tag, o.joinNo, o.block, mask, ent.1, ent.2, some bl,
           joinMembers (UA.mk s.net.devId key) r.dest, none, none⟩
         Ent2.ok w ent.1 ent.2 = true → mask ≠ 0 → AtHand s ent w mask e →
           ∃ t, exec (.joinedFetchArrival c e) s = .next t ∧ ends (if bl.any (·.2.1) then ccPoison else ccOk) none t ∧
             (t.cell c).spad = writeGroup x.spad row w mask bl ∧ (t.unit key).joins = leftBy c j (js ++ [j]))))

/-- ENTRYRD holds the program under cause REPLY while the entry of DIX = RA + IMM is on its way to RD and RB (R210, Table 12-8);
SELECT and AUDIT hold it until the list, its length and the counts are made (R225 to R231, R443). The unit operations take their
effect on the data at issue (the model's choice, log 3). -/
def Obligations.EntryReadSelectAudit : Prop :=
  ∀ (s : State) (c : CellIx) (f : InsFields) (b : List Word),
    let x := s.cell c
    let n := bf b 2 23 0
    (let dix := (x.seq.reg f.ra + f.imm.signExtend 64).toNat
     Issues s c 0x41 f [f.rd, f.ra, f.rb] → dix < s.mem.dirEntries →
      ∃ t, exec (.entryrd c f) s = .next t ∧
        HeldOn s (s.dirAccess dix) c
          { id := 0, unit := .fetch, blocking := true,
            regs := [(f.rd, Memory.readWord s.mem.mem (s.mem.dirAddr dix)), (f.rb, Memory.readWord s.mem.mem (s.mem.dirAddr dix + 8))] }
          (some (6, .entryrd c f)) t) ∧
    (let w := bf b 0 53 50
     let src := (bf b 1 13 0, ceilDiv n 256 * groupRows (storedWidth w 0))
     let dst := (bf b 1 27 14, ceilDiv (4 * n) 128)
     let cls := selectAll (s.codeSpace c true) x.spad b (s.draws c 0x01 (bf b 2 47 24) 0)
     let list := neurons cls (fun y => decide (y ≠ .skipped))
     IssuesBlock s c 0x44 f [f.rd, f.ra] maskSelect b → formOk w 0 = true → bf b 0 49 44 ≤ 32 → bf b 0 49 44 ≠ 0 → n ≠ 0 →
      RowsFree x [src] [dst] →
      ∃ t u, exec (.selectN c f) s = .next t ∧ OnlyConversion s c t ∧
        (u.cell c).spad = Memory.writeBytes x.spad (128 * bf b 1 27 14) (list.flatMap (bytesLE 4)) ∧
        (u.cell c).doveAudited = neurons cls (fun y => decide (y = .audited)) ∧
        (u.cell c).cnt.predSelected = x.cnt.predSelected + BitVec.ofNat 64 (cls.count .selected) ∧
        (u.cell c).cnt.predSkipped = x.cnt.predSkipped + BitVec.ofNat 64 (cls.count .skipped) ∧
        HeldOn s u c
          { id := 0, unit := .dove, reads := [src], writes := [dst], blocking := true, regs := [(f.rd, BitVec.ofNat 64 list.length)] }
          none t) ∧
    (let w := bf b 0 57 54
     let src := (bf b 1 41 28, ceilDiv n 256 * groupRows (storedWidth w 0))
     let d := disagreements (s.codeSpace c false) x.spad b x.doveAudited
     IssuesBlock s c 0x45 f [f.rd, f.ra] maskSelect b → formOk w 0 = true → bf b 0 49 44 ≤ 32 → bf b 0 49 44 ≠ 0 → n ≠ 0 →
      RowsFree x [src] [] →
      ∃ t u, exec (.auditN c f) s = .next t ∧ OnlyCell s c t ∧ (u.cell c).spad = x.spad ∧
        (u.cell c).cnt.predDisagree = x.cnt.predDisagree + BitVec.ofNat 64 d ∧
        HeldOn s u c
          { id := 0, unit := .audit, reads := [src], blocking := true, regs := [(f.rd, BitVec.ofNat 64 d)] } none t)

/-- STORE of a group that finds room in the pool of its home die writes the entry of the index; a group without a stored block
gets the all-zero entry; GROUP_FREE writes the all-zero entry and lists the storage that the old one named; STORAGE_RELEASE
returns such storage of device memory to the pool (R205, R206, R208, R510). The unit operations take their effect on the data at
issue (the model's choice, log 3). -/
def Obligations.GroupStoreAndFree : Prop :=
  ∀ (s : State) (c : CellIx) (f : InsFields) (b : List Word),
    let x := s.cell c
    let dix := bf b 0 31 0
    let z := storeForm x b
    (NextInside s c → IssuesBlock s c 0x42 f [f.ra] maskFetch b → s.groupOk b = true → bb b 0 38 = false →
      x.hazard [] [(bf b 2 13 0, groupRows (blockWidth b))] [] = none → NextOpFree x →
      let done := fun (code : Code) (t : State) =>
        (∃ z, t.cell c = { x with zeroCols := z, seq := wentOn x.seq, ops := x.ops ++ [numbered x.seq
          { id := 0, unit := .store, reads := [(bf b 2 13 0, groupRows (blockWidth b))], block := b.take 4, code := code }] }) ∧
        ∀ d, d ≠ c → t.cell d = s.cell d
      (z.2.2.2 = [] → ∃ t, exec (.storeG c f) s = .next t ∧ t.mem.entry dix = (0, 0) ∧ done ccOk t) ∧
      (z.2.2.2 ≠ [] → ∀ u m, s.mem.alloc (dix % 2) z.2.2.2.length (.group dix) = some (u, m) →
        ∃ t, exec (.storeG c f) s = .next t ∧
          t.mem.entry dix = Ent2.mk u z.1 z.2.2.1 0 (decide (z.2.1 ≠ 0)) z.2.2.2.length ∧
          t.mem.extents = m.extents ∧ done (if z.2.1 ≠ 0 then ccPoison else ccOk) t)) ∧
    (∀ d : BitVec 32, s.fabricUp = true → d.toNat < s.mem.dirEntries →
      ∃ t, exec (.groupFree d) s = .next t ∧ t.mem.entry d.toNat = (0, 0) ∧
        t.mem.replaced = (if Ent2.valid (s.mem.entry d.toNat).2 then s.mem.replaced ++
          [(Ent2.key (s.mem.entry d.toNat).1 (s.mem.entry d.toNat).2, Ent2.count (s.mem.entry d.toNat).2, d.toNat % 2)]
          else s.mem.replaced) ∧
        t.mem.extents = s.mem.extents ∧ t.cells = s.cells) ∧
    (∀ r ∈ s.mem.replaced, s.mem.replaced.find? (fun y => decide (y.1 = r.1)) = some r → s.fabricUp = true →
      s.storageRead r.1 = false → r.1 < 2 ^ 40 →
      ∃ t, exec (.storageRelease r.1) s = .next t ∧
        t.mem = (({ s.mem with replaced := s.mem.replaced.erase r } : MemSys).freeEnds r.1).release r.1 ∧ t.cells = s.cells)

/-- WOPEN of a window that is free in the cell and in every unit that encloses it opens it over the rows of its block for the
writers and the job, with the next WEPOCH, and the program waits under cause REPLY for RD to take that WEPOCH (R312, R313, Table
12-8); of a window that is CLOSING it stalls under cause 7 (R325, Table 12-9). WCLOSE of a window with writes not yet landed
makes it CLOSING, of one without frees it, and the program goes on (R324, R325). -/
def Obligations.WindowInstructions : Prop :=
  ∀ (s : State) (c : CellIx) (f : InsFields) (b : List Word),
    let x := s.cell c
    let u := s.cellAddr c
    (let w := bf b 0 3 0
     let v := s.win (UA.key u) w
     IssuesBlock s c 0x54 f [f.rd, f.ra] maskWopen b →
      (v.st = .closing → exec (.wopen c f) s = .next (s.stall c 7 (.wopen c f))) ∧
      (s.winFree u w = true → UA.canonical (b.getD 1 0) = true → bf b 0 17 4 + bf b 0 32 18 ≤ 16384 → bf b 0 32 18 ≠ 0 →
        ∃ t, exec (.wopen c f) s = .next t ∧
          HeldOn s (s.modWin (UA.key u) w (fun _ =>
              { st := .opened, base := BitVec.ofNat 14 (bf b 0 17 4), rows := BitVec.ofNat 15 (bf b 0 32 18),
                wepoch := v.wepoch + 1, writers := b.getD 1 0, job := x.job })) c
            { id := 0, unit := .net, blocking := true, regs := [(f.rd, (v.wepoch + 1).setWidth 64)] }
            (some (6, .wopen c f)) t)) ∧
    (let w := f.imm.toNat % 16
     let k := UA.keyOf 5 c.val
     let v := s.win k w
     NextInside s c → Issues s c 0x55 f [] →
      (v.st = .opened → v.unlanded ≠ [] → ∃ t, exec (.wclose c f) s = .next t ∧
        IssuedOn s (s.modWin k w (fun v => { v with st := .closing, byKill := false })) c
          { id := 0, unit := .net, win := some (k, w), done := false } t) ∧
      (v.st = .opened → v.unlanded = [] → ∃ t, exec (.wclose c f) s = .next t ∧ (t.win k w).st = .closed ∧
        (t.win k w).wepoch = v.wepoch ∧ (t.win k w).rows = 0 ∧ (∃ o ∈ (t.cell c).ops, o.id = x.seq.nextOp ∧ o.done = true) ∧
        (t.cell c).seq.pc = x.seq.pc + 8 ∧ (t.cell c).seq.regs = x.seq.regs ∧ (t.cell c).spad = x.spad) ∧
      (v.st = .closed → ∃ t, exec (.wclose c f) s = .next t ∧
        IssuedOn s s c { id := 0, unit := .net, win := some (k, w), done := true } t))

/-- SYNC sends its message: with BLOCK the program waits under cause REPLY, without it goes on (R442). QREAD waits for RD and RB
to take the head item of RPL, zeros where there is none, and RPL takes in what waits before it (R339, R343, R344); QFLUSH
empties RPL and holds the program while the rest of a packet has to be discarded (R349, R351). SEND sends a WINDOW_WRITE with
its data and holds the program until that has left (R317, R318). -/
def Obligations.SyncQueueAndSendInstructions : Prop :=
  ∀ (s : State) (c : CellIx) (f : InsFields) (b : List Word),
    let x := s.cell c
    let tag := opTag c x.seq.nextOp
    let m := syncMsg (s.cellAddr c) tag ((x.seq.reg f.rb).setWidth 16) (x.seq.reg f.ra) x.job f.imm
    (Issues s c 0x58 f [f.rd, f.ra, f.rb] →
      (f.imm.getLsbD 22 = true → ∃ t, exec (.syncOp c f) s = .next t ∧
        HeldOn s (s.sendMsg m) c
          { id := 0, unit := .net, blocking := true, done := false, tag := some tag, regs := [(f.rd, 0)] }
          (some (6, .syncOp c f)) t) ∧
      (f.imm.getLsbD 22 = false → NextInside s c → ∃ t, exec (.syncOp c f) s = .next t ∧
        IssuedOn s (s.sendMsg m) c { id := 0, unit := .net } t)) ∧
    (Issues s c 0x5C f [f.rd, f.rb] →
      ((x.rplq.flushing = true ∨ x.rplq.items = []) → ∃ t, exec (.qread c f) s = .next t ∧
        HeldOn s (s.modCell c (·.fillRpl s.runTime)) c
          { id := 0, unit := .seq, blocking := true, regs := [(f.rd, 0), (f.rb, 0)] } none t) ∧
      (∀ i l, x.rplq.flushing = false → x.rplq.items = i :: l → ∃ t, exec (.qread c f) s = .next t ∧
        HeldOn s (s.modCell c (fun x => ({ x with rplq := { x.rplq with
            items := l, midHead := !i.eop, timer := if l = [] then none else some s.runTime } }).fillRpl s.runTime)) c
          { id := 0, unit := .seq, blocking := true,
            regs := [(f.rd, BitVec.ofNat 64 i.payload.toNat),
              (f.rb, BitVec.ofNat 64 (i.payload.toNat / 2 ^ 64 + i.kind.toNat * 2 ^ 56 + b2n i.eop * 2 ^ 62 + 2 ^ 63))] } none t)) ∧
    (Issues s c 0x5D f [] → x.rplq.flushing = false → ∃ t, exec (.qflush c f) s = .next t ∧
      HeldOn s (s.modCell c (fun x => { x with rplq := { x.rplq with
          items := [], discarded := sat16 x.rplq.discarded x.rplq.items.length, flushing := x.rplq.partialIn,
          midHead := false, timer := none } })) c
        { id := 0, unit := .seq, blocking := true, done := !x.rplq.partialIn } none t) ∧
    (let a := bf b 3 20 0
     let n := bf b 2 61 41
     IssuesBlock s c 0x60 f [f.ra] maskSend b → UA.canonical (b.getD 0 0) = true → a % 8 = 0 → n % 8 = 0 → a + n ≤ 2 ^ 21 →
      n ≤ 524288 → n ≠ 0 → x.hazard [] [rowSpan 0 a n] [] = none →
      ∃ t, exec (.sendW c f) s = .next t ∧
        HeldOn s (s.sendMsg (sendMsgOf (s.cellAddr c) b x.job (Memory.readBytes x.spad a n))) c
          { id := 0, unit := .net, reads := [rowSpan 0 a n], blocking := true } none t)

/-- A unit operation completes: it leaves the list, its registers are written, and a blocking one lets the program go on with
LASTCODE at its code (R429, R431, R440); of an operation of a checked engine the steps it repeated are counted (R604). A stalled
ADD whose registers are free has its effect (R440, R449). SEQ_WDOG sets WDOG once for one stall (R435). -/
def Obligations.CompletionStallsAndWatchdog : Prop :=
  ∀ (s : State) (c : CellIx), s.cellUp c = true →
    let x := s.cell c
    (∀ k o, x.op? k = some o → x.scrubbing = false → o.spill = none → o.done = true →
      ∀ again, ∃ t u, exec (.unitOperationComplete c k again) s = .next t ∧ (t.cell c).seq = (u.cell c).seq ∧
        (u = s.setCell c { x with ops := x.ops.filter (fun p => decide (p.id ≠ o.id)), seq := (u.cell c).seq }) ∧
        (t = if o.unit.checks then again.foldl (fun v n => v.countRepeats c n) u else u) ∧
        (∀ rd v, o.regs = [(rd, v)] → (t.cell c).seq.reg rd = if rd = 0 then 0 else v) ∧
        (o.blocking = true → x.seq.waiting = some o.id →
          (t.cell c).seq.lastCode = o.code ∧ (t.cell c).seq.waiting = none ∧ (t.cell c).seq.stalled = none) ∧
        (o.blocking = false → ∀ r, x.seq.cmd = some r → r.no = o.cmd → absorbed o.code = false → stops o.code = false →
          (t.cell c).seq.cmd = some { r with codes := r.codes ++ [o.code] })) ∧
    (∀ k f, x.seq.stalled = some (k, .addI c f) → x.seq.waiting = none →
      x.seq.fetching.elim true (fun w => !x.rowBusy false (x.seq.pc.toNat / 128) 1 && decide (Memory.readWord x.spad x.seq.pc.toNat = w)) = true → x.held = none → x.scrubbing = false →
      x.regBusy [f.rd, f.ra, f.rb] = false → NextInside s c →
      ∃ t, exec (.stallRelease c) s = .next t ∧
        RegResult (s.modSeq c (fun q => { q with stalled := none, fetching := none })) c f.rd
          (x.seq.reg f.ra + (x.seq.reg f.rb + f.imm.signExtend 64)) t) ∧
    (x.seq.stalled.isSome = true → x.seq.stallRep = false → x.seq.limit ≠ 0 →
      1000 * x.seq.limit.toNat ≤ (s.runTime - x.seq.stallSince).toNat →
      ∃ t, exec (.seqWdog c) s = .next t ∧ t.cell c = { x with seq := { x.seq with wdog := true, stallRep := true } } ∧
        (∀ d, d ≠ c → t.cell d = s.cell d) ∧ (SMap.getD t.evc.spend ((2560 + c.val) / 64) 0).getLsbD ((2560 + c.val) % 64) = true)

/-- The queues of a cell: when the EOP of a discarded packet has come, the flush is over and what follows enters (R350); items
at the router enter as far as there is room, at RPL those of the job that the cell executes (R343, R347); QUEUE_TAIL sets TAIL
and stops the timer once QTMO has passed (R353, R354). HIQ takes items the same way and strands the same way (R343, R355). -/
def Obligations.QueueEvents : Prop :=
  ∀ (s : State) (c : CellIx), s.cellUp c = true →
    let x := s.cell c
    let now := s.runTime
    (∀ p e l, x.cmdq.flushing = true → x.cmdq.items = [] → x.cmdq.inflow = p ++ e :: l → (∀ i ∈ p, i.eop = false) → e.eop = true →
      ∃ t, exec (.queueFlushComplete (.cmd c)) s = .next t ∧ OnlyCell s c t ∧ (t.cell c).cmdq.flushing = false ∧
        (t.cell c).cmdq.items = l.take 64 ∧ (t.cell c).cmdq.inflow = l.drop 64 ∧
        (t.cell c).cmdq.discarded = sat16 x.cmdq.discarded (p.length + 1)) ∧
    (x.scrubbing = false → x.cmdq.flushing = false →
      ∃ t, exec (.queueEnqueueResume (.cmd c)) s = .next t ∧ OnlyCell s c t ∧
        (t.cell c).cmdq.items = x.cmdq.items ++ x.cmdq.inflow.take (64 - x.cmdq.items.length) ∧
        (t.cell c).cmdq.inflow = x.cmdq.inflow.drop (64 - x.cmdq.items.length)) ∧
    (x.scrubbing = false → x.rplq.flushing = false → ownPackets x.job.toNat x.rplq.partialIn x.rplq.inflow = true →
      ∃ t, exec (.queueEnqueueResume (.rpl c)) s = .next t ∧ OnlyCell s c t ∧
        (t.cell c).rplq.items = x.rplq.items ++ x.rplq.inflow.take (64 - x.rplq.items.length) ∧
        (t.cell c).rplq.inflow = x.rplq.inflow.drop (64 - x.rplq.items.length)) ∧
    (∀ since, x.cmdq.timer = some since → x.cmdQtmo ≠ 0 → x.cmdQtmo.toNat ≤ (now - since).toNat →
      ∃ t, exec (.queueTail (.cmd c)) s = .next t ∧
        t.cell c = { x with cmdq := { x.cmdq with tail := true, timer := none } } ∧ (∀ d, d ≠ c → t.cell d = s.cell d)) ∧
    (∀ since, s.evc.hiq.timer = some since → s.evc.hiqQtmo ≠ 0 → s.evc.hiqQtmo.toNat ≤ (now - since).toNat → s.hostUp = true →
      ∃ t, exec (.queueTail .hiq) s = .next t ∧ t.cells = s.cells ∧ t.evc.hiq = { s.evc.hiq with tail := true, timer := none })

/-- At the start of a RUN, s1 to s4 hold its arguments, s13 the member count, s15 the member index, s14 zero or the first dealt
tile, and every other register zero; the program stands at A (R427, R428). CMD_DISPATCH of a RUN, WINDOW or SCRUB of a job that
is not killed puts the command in progress with its header, its member index and count, and takes its packet from CMD; a killed
job's command ends with KILLED; before a command of another job the cell starts to scrub (R332, R352, R426). SCRUB starts the
scrub of R329 and clears the record of killed jobs (R332, R622). -/
def Obligations.RunStartAndDispatch : Prop :=
  (∀ (s : State) (c : CellIx) (r : CmdRun), s.cellUp c = true → (s.cell c).fresh 0x01 = some r → r.reserved = false → r.len ≠ 0 →
     r.len ≤ 5 → r.a.toNat % 8 = 0 → r.b.toNat ≤ 2 ^ 24 → (r.divide = false → r.b = 0) → (r.divide = true → r.j < r.b.toNat) →
     ∃ t, exec (.runCmd c) s = .next t ∧ OnlyCell s c t ∧ (t.cell c).seq.running = true ∧ (t.cell c).seq.pc = r.a ∧
       (t.cell c).spad = (s.cell c).spad ∧ (t.cell c).spdOwner = r.job ∧
       ∀ i : BitVec 4, (t.cell c).seq.reg i =
         if 1 ≤ i.toNat ∧ i.toNat ≤ 4 then (r.body.getD (i.toNat - 1) 0).setWidth 64
         else if i = 13 then BitVec.ofNat 64 r.count
         else if i = 14 then (if r.divide then BitVec.ofNat 64 r.j else 0)
         else if i = 15 then BitVec.ofNat 64 r.j else 0) ∧
  (∀ (s : State) (c : CellIx), s.cellUp c = true →
     let x := s.cell c
     (∀ m, x.dispatches = true → x.cmdq.head.2 = true → Msg.ofItems x.cmdq.head.1 = some m →
       let r := cmdOf m (c.val - UA.index m.dest) (UA.span (UA.depth m.dest)) x.seq.nextCmd
       (r.cmd = 0x01 ∨ r.cmd = 0x03 ∨ r.cmd = 0x04) → (r.job ∉ x.killed ∨ r.cmd = 0x04) →
       (r.cmd = 0x04 ∨ x.spdOwner = 0 ∨ x.spdOwner = r.job →
         ∃ t, exec (.cmdDispatch c) s = .next t ∧ OnlyCell s c t ∧
           (t.cell c).seq = { x.seq with cmd := some r, hdr := r.hdr, nextCmd := x.seq.nextCmd + 1, image := none } ∧
           (t.cell c).spad = x.spad ∧ (t.cell c).cmdq.items =
             x.cmdq.items.drop x.cmdq.head.1.length ++
               x.cmdq.inflow.take (64 - (x.cmdq.items.drop x.cmdq.head.1.length).length)) ∧
       (r.cmd ≠ 0x04 → x.spdOwner ≠ 0 → x.spdOwner ≠ r.job → x.ops = [] → x.seq.ended = [] →
         ∃ t, exec (.cmdDispatch c) s = .next t ∧ OnlyCell s c t ∧ (t.cell c).scrubbing = true ∧ (t.cell c).cmdq = x.cmdq)) ∧
     (∀ r, x.fresh 0x04 = some r → x.ops = [] → x.seq.ended = [] → r.reserved = false →
       ∃ t, exec (.scrubCmd c) s = .next t ∧ OnlyCell s c t ∧ (t.cell c).scrubbing = true ∧ (t.cell c).killed = [] ∧
         (t.cell c).scrubReply = some r ∧ (t.cell c).seq.running = false))

/-- IMAGE within its limits takes its place and length and records its job; each IMAGE_ITEM writes up to 15 bytes at the place
and moves it on (R318, R426, Table 12-2). A command whose runs have ended and whose operations are over completes with the
combined code: a REPLY with its TAG goes to its SRC (R429); at a carcase when every member has completed its share (R31). -/
def Obligations.ImagesAndCompletions : Prop :=
  (∀ (s : State) (c : CellIx) (r : CmdRun), s.cellUp c = true →
     let x := s.cell c
     (x.fresh 0x02 = some r → r.reserved = false → r.a.toNat % 8 = 0 → r.b.toNat % 8 = 0 → r.b.toNat ≤ 983008 →
       r.a.toNat + r.b.toNat ≤ 0x200000 → r.len = 1 + ceilDiv r.b.toNat 15 → r.b.toNat ≠ 0 → x.cmdq.midHead = true →
       ∃ t, exec (.imageCmd c) s = .next t ∧ OnlyCell s c t ∧ (t.cell c).seq.image = some (r.a.toNat, r.b.toNat) ∧
         (t.cell c).seq.cmd = some { r with started := true, ended := false, codes := [ccOk], stop := false } ∧
         (t.cell c).spdOwner = r.job ∧ (t.cell c).spad = x.spad) ∧
     (∀ i l a n, x.seq.cmd = some r → x.cmdq.items = i :: l → r.cmd = 0x02 → r.started = true → r.ended = false →
       r.stop = false → x.seq.image = some (a, n) → n ≠ 0 →
       x.rowBusy true (a / 128) ((a + min 15 n - 1) / 128 - a / 128 + 1) = false →
       ∃ t, exec (.imageItem c) s = .next t ∧ OnlyCell s c t ∧
         (∀ k, k < min 15 n → Memory.read (t.cell c).spad (a + k) = BitVec.ofNat 8 (i.payload.toNat / 256 ^ k)) ∧
         (∀ p, p < a ∨ a + min 15 n ≤ p → Memory.read (t.cell c).spad p = Memory.read x.spad p) ∧
         (t.cell c).seq.image = some (a + min 15 n, n - min 15 n) ∧ (t.cell c).seq.regs = x.seq.regs)) ∧
  (∀ (s : State),
     (∀ (c : CellIx) (r : CmdRun), s.cellUp c = true → s.local? r.src = true → s.local? r.dest = true → UA.depth r.dest = 5 →
       (s.cell c).seq.ended = [] → (s.cell c).seq.cmd = some r → r.ended = true → (s.cell c).scrubbing = false →
       (∀ o ∈ (s.cell c).ops, o.cmd ≠ r.no) →
       ∃ t, exec (.commandComplete c) s = .next t ∧ (t.cell c).seq = { (s.cell c).seq with cmd := none, hdr := 0 } ∧
         (t.cell c).spad = (s.cell c).spad ∧ (t.cell c).cnt.commandsDone = (s.cell c).cnt.commandsDone + 1 ∧
         (∀ d, d ≠ c → t.cell d = s.cell d) ∧
         ∃ m, t.net.inFlight = s.net.inFlight ++ [m] ∧ m.dest = r.src ∧ m.src = r.dest ∧ m.cls = 0x08 ∧ m.tag = r.tag ∧
           m.code = combineCodes r.codes ∧ m.bounced = false) ∧
     (∀ (u : UnitAddr) (tag : BitVec 32) (p : Spread), s.local? u = true → UA.canonical u = true → s.unitUp u = true →
       s.local? p.src = true → p.tag = tag → p.left = [] → p.win = none →
       (s.unit (UA.key u)).cmds.find? (fun p => decide (p.tag = tag ∧ p.left = [] ∧ p.win = none)) = some p →
       ∃ t, exec (.carcaseCommandComplete u tag) s = .next t ∧ t.cells = s.cells ∧
         (t.unit (UA.key u)).cmds = (s.unit (UA.key u)).cmds.erase p ∧
         ∃ m, t.net.inFlight = s.net.inFlight ++ [m] ∧ m.dest = p.src ∧ m.src = u ∧ m.cls = 0x08 ∧ m.tag = tag ∧
           m.code = (if ccKilled ∈ p.codes then ccKilled else combineCodes p.codes)))

/-- A WINDOW command at a carcase: an OPEN of a free window opens it for the job of the command and completes with the next
WEPOCH; a CLOSE is the close point and waits until the window is free (R313, R324, R325). An OPEN that waited acts once the
window is free (R313). A window write that passes the checks of Table 9-3 is accepted by its window and counted, and no cell
changes yet; one that fails check 3 is bounced with WINDOW_CLOSED and counted (R319 to R321). The oldest accepted write lands in
every cell of the owner and in no other (R322), when no write that its sender sent earlier to another window waits (R323). -/
def Obligations.WindowCommandsAndWrites : Prop :=
  (∀ (s : State) (u : UnitAddr) (r : CmdRun) (item : Payload), s.local? u = true → UA.canonical u = true → s.unitUp u = true →
     UA.depth u ≠ 5 → r.reserved = false → fld item 119 98 = 0 → r.len = 2 →
     let w := fld item 3 0
     let v := s.win (UA.key u) w
     let n := s.unit (UA.key u)
     let opens (i : Instr) : Prop :=
       ∃ t, exec i s = .next t ∧ (t.win (UA.key u) w).st = .opened ∧ (t.win (UA.key u) w).wepoch = v.wepoch + 1 ∧
         (t.win (UA.key u) w).base = BitVec.ofNat 14 (fld item 18 5) ∧ (t.win (UA.key u) w).rows = BitVec.ofNat 15 (fld item 33 19) ∧
         (t.win (UA.key u) w).job = r.job ∧ (t.unit (UA.key u)).disp = n.disp.drop 1 ∧
         (t.unit (UA.key u)).cmds = n.cmds ++ [⟨r.src, r.tag, 0x03, r.job, [], [ccOk], v.wepoch + 1, none⟩] ∧
         (∀ k, k ≠ UA.key u → t.unit k = s.unit k) ∧ t.cells = s.cells
     (s.windowCmd u false = some (r, item) → s.winFree u w = true → UA.canonical (BitVec.ofNat 64 (fld item 97 34)) = true →
       fld item 18 5 + fld item 33 19 ≤ 16384 → fld item 33 19 ≠ 0 →
       opens (.windowOpenCmd u) ∧ (v.deferred = true → ∀ h : w < 16, opens (.deferredWindowOpen u ⟨w, h⟩))) ∧
     (s.windowCmd u true = some (r, item) → v.st = .opened → v.unlanded ≠ [] →
       ∃ t, exec (.windowCloseCmd u) s = .next t ∧ t.win (UA.key u) w = { v with st := .closing, byKill := false } ∧
         (t.unit (UA.key u)).cmds = n.cmds ++ [⟨r.src, r.tag, 0x03, r.job, [], [ccOk], 0, some w⟩] ∧
         (∀ k, k ≠ UA.key u → t.unit k = s.unit k) ∧ t.cells = s.cells)) ∧
  (∀ (s : State),
     (∀ m : Msg, s.requestOk m 0x03 = true → m.epoch = s.epochOf m.dest →
       let k := UA.key m.dest
       let w := m.fld 0 3 0
       let v := s.win k w
       (s.checkWrite m = ccOk → ∃ t, exec (.windowWrite m) s = .next t ∧ t.cells = s.cells ∧
         t.win k w = { v with unlanded := v.unlanded ++ [⟨(s.unit k).nextWrite, m.src, m.tag, m.body.getD 0 0, v.base.toNat * 128 + m.fld 0 40 20,
           (unpackItems (m.body.drop 1)).take (m.fld 0 61 41), (m.body.getD 0 0).getLsbD 62⟩] } ∧
         (t.unit k).winAccepted = sat32 (s.unit k).winAccepted 1 ∧ (∀ j, j ≠ k → t.unit j = s.unit j) ∧
         t.net.inFlight = s.net.inFlight.erase m) ∧
       (s.checkWrite m = ccWinClosed → s.local? m.src = true → ∃ t, exec (.windowWrite m) s = .next t ∧ t.cells = s.cells ∧
         (t.unit k).wins = (s.unit k).wins ∧ (t.unit k).winClosedB = sat16 (s.unit k).winClosedB 1 ∧
         t.net.inFlight = s.net.inFlight.erase m ++
           [{ m with dest := m.src, src := m.dest, bounced := true, code := ccWinClosed }])) ∧
     (∀ (u : UnitAddr) (w : Fin 16) (p : WinWrite) (l : List WinWrite), s.local? u = true → UA.canonical u = true → s.unitUp u = true →
       (s.unit (UA.key u)).landsNext w.val = true →
       let v := s.win (UA.key u) w.val
       v.unlanded = p :: l → v.st = .opened →
       ∃ t, exec (.windowWriteLanded u w) s = .next t ∧ t.win (UA.key u) w.val = { v with unlanded := l } ∧
         (∀ i ∈ UA.cells u, t.cell (cellIx i) =
           { (s.cell (cellIx i)).overwritten (p.addr / 128) (ceilDiv (p.addr % 128 + p.data.length) 128) with spad := Memory.writeBytes (s.cell (cellIx i)).spad p.addr p.data }) ∧
         (∀ c : CellIx, (∀ i ∈ UA.cells u, cellIx i ≠ c) → t.cell c = s.cell c) ∧ (p.ack = false → t.net = s.net)))

/-- What a scrub leaves when it ends: the scratchpad, tiles, inlets, scatter buffer, table stores, range record and sequencer
registers are zero and SPD_OWNER is 0; the role, the epochs, the row map, the correctable-error counts and the record of killed
jobs are as before, and the cell's windows are free (R329). -/
def Obligations.ScrubLeavesNothing : Prop :=
  ∀ (s : State) (c : CellIx), s.cellUp c = true → s.scrubFenced c = true →
    (∀ w, w < 16 → (s.win (UA.keyOf 5 c.val) w).unlanded = []) →
    let k := UA.keyOf 5 c.val
    ∃ t, exec (.scrubEnd c) s = .next t ∧ (t.cell c).spad = [] ∧ (∀ r, (t.cell c).seq.reg r = 0) ∧
      (t.cell c).tile0.elems = [] ∧ (t.cell c).tile1.elems = [] ∧ (t.cell c).tile0.inlet = none ∧ (t.cell c).tile1.inlet = none ∧
      (t.cell c).sab = {} ∧ (t.cell c).rowTab = [] ∧ (t.cell c).colTab = [] ∧ (t.cell c).rq = { usedMin := 0, usedMax := 0, wiped := true } ∧ (t.cell c).spdOwner = 0 ∧
      (t.cell c).scrubbing = false ∧ (t.cell c).killed = (s.cell c).killed ∧ (t.cell c).rows = (s.cell c).rows ∧
      (t.unit k).role = (s.unit k).role ∧ (t.unit k).epoch = (s.unit k).epoch ∧
      ∀ w, w < 16 → (t.win k w).st = .closed ∧ (t.win k w).wepoch = (s.win k w).wepoch

/-- A KILL stops every cell of its unit that works on the job, records the job as killed at every one and starts their scrubs
(R327, R352); a CUT of a job or of one of its layers, where a cell of its unit has work of it, is recorded at every cell of the
unit (R252, R254). Which cells a KILL and a CUT act at is the model's reading (log 36, log 27). -/
def Obligations.KillAndCut : Prop :=
  ∀ (s : State) (m : Msg), s.requestOk m 0x01 = true → m.epoch = s.epochOf m.dest → m.fld 0 15 8 = 0 →
    let job : BitVec 32 := BitVec.ofNat 32 m.job
    (m.fld 0 7 0 = 0x06 → m.fld 0 119 64 = 0 →
      ∃ t, exec (.killCmd m) s = .next t ∧ ∀ i ∈ UA.cells m.dest,
        job ∈ (t.cell (cellIx i)).killed ∧ (t.cell (cellIx i)).spad = (s.cell (cellIx i)).spad ∧
        ((s.cell (cellIx i)).worksOn job = true →
          (t.cell (cellIx i)).seq.running = false ∧ (t.cell (cellIx i)).ops = [] ∧ (t.cell (cellIx i)).scrubbing = true)) ∧
    (m.fld 0 7 0 = 0x05 → m.fld 0 119 65 = 0 →
      let layer := if (m.body.getD 0 0).getLsbD 64 then some (BitVec.ofNat 16 (m.fld 0 63 48)) else none
      (∃ i ∈ UA.cells m.dest, (s.cell (cellIx i)).holdsWork job layer = true) →
      ∃ t, exec (.cutCmd m) s = .next t ∧ ∀ i ∈ UA.cells m.dest,
        (t.cell (cellIx i)).spad = (s.cell (cellIx i)).spad ∧ (t.cell (cellIx i)).seq = (s.cell (cellIx i)).seq ∧
        ⟨job, layer⟩ ∈ (t.cell (cellIx i)).cutRecs)

/-- A role change at a unit gives the same role to it and to every unit below it, adds one to the epoch of each, from 0xFFFF to
0x0000 (R55), and leaves every other unit as it was. -/
def Obligations.RoleChanges : Prop :=
  ∀ (s : State) (m : Msg), s.requestOk m 0x07 = true → m.epoch = s.epochOf m.dest → m.fld 0 7 0 ≤ 4 →
    ∃ t, exec (.roleSet m) s = .next t ∧ t.cells = s.cells ∧
      (∀ k ∈ UA.key m.dest :: UA.below m.dest,
        (t.unit k).role = BitVec.ofNat 8 (m.fld 0 7 0) ∧ (t.unit k).epoch = (s.unit k).epoch + 1 ∧
        ((s.unit k).epoch = 0xFFFF → (t.unit k).epoch = 0)) ∧
      ∀ k, k ∉ UA.key m.dest :: UA.below m.dest → t.unit k = s.unit k

/-- A command that passes the epoch check goes into CMD of its cell, or of every member of its carcase, as far as there is room;
one with another epoch comes back to its sender bounced with STALE_ROLE and no cell changes (R30, R57, R58, R343). -/
def Obligations.CommandArrival : Prop :=
  ∀ (s : State) (m : Msg), s.requestOk m 0x01 = true → m.fld 0 7 0 ≠ 0x05 → m.fld 0 7 0 ≠ 0x06 → s.driverSends m = true →
    (m.epoch = s.epochOf m.dest → (UA.depth m.dest = 5 ∨ m.fld 0 7 0 ≠ 0x03) →
      ∃ t, exec (.commandArrival m) s = .next t ∧ t.net.inFlight = s.net.inFlight.erase m ∧
        (∀ i ∈ UA.cells m.dest, let x := s.cell (cellIx i)
          t.cell (cellIx i) = { x with cmdq := (t.cell (cellIx i)).cmdq } ∧
          (x.scrubbing = false → x.cmdq.flushing = false →
            (t.cell (cellIx i)).cmdq.items = x.cmdq.items ++ (x.cmdq.inflow ++ m.items).take (64 - x.cmdq.items.length))) ∧
        ∀ c : CellIx, (∀ i ∈ UA.cells m.dest, cellIx i ≠ c) → t.cell c = s.cell c) ∧
    (m.epoch ≠ s.epochOf m.dest → s.local? m.src = true →
      ∃ t, exec (.commandArrival m) s = .next t ∧ t.cells = s.cells ∧
        t.net.inFlight = s.net.inFlight.erase m ++
          [{ m with dest := m.src, src := m.dest, bounced := true, code := ccStaleRole }])

/-- The operations on sync objects (Table 10-8): what each does to its object when the object has the type it names, with every
other object and every cell as before; an operation whose condition does not hold waits (R360 to R365). -/
def Obligations.SyncOperations : Prop :=
  ∀ (s : State) (m : Msg), s.requestOk m 0x05 = true → UA.depth m.dest = 0 → m.epoch = s.epochOf m.dest → m.syncOk = true →
    let o := s.syncObj m.obj
    let v : Word := BitVec.ofNat 64 m.value
    let sets (i : Instr) (n : SyncObj) : Prop :=
      ∃ t, exec i s = .next t ∧ t.syncObj m.obj = n ∧ (∀ j, j ≠ m.obj → t.syncObj j = s.syncObj j) ∧ t.cells = s.cells
    let waits (i : Instr) : Prop :=
      ∃ t, exec i s = .next t ∧ t.sync = s.sync ∧ t.waiters = s.waiters ++ [m.waiter v] ∧ t.net.inFlight = s.net.inFlight.erase m
    let answers (i : Instr) (value : Word) : Prop :=
      ∃ t, exec i s = .next t ∧ t.sync = s.sync ∧ t.waiters = s.waiters ∧ (s.local? m.src = true →
        ∃ r, t.net.inFlight = s.net.inFlight.erase m ++ [r] ∧ r.dest = m.src ∧ r.cls = 0x08 ∧ r.tag = m.tag ∧ r.code = ccOk ∧
          r.value = value.toNat)
    (m.syncOp = 0x0 → answers (.syncRead m) (match o with
      | .none => 0
      | .counter n _ => n
      | .barrier _ a g => BitVec.ofNat 64 (g.toNat + a.toNat * 2 ^ 32)
      | .flag b => if b then 1 else 0)) ∧
    (m.syncOp = 0x1 → sets (.syncInit m) (if m.syncType = 1 then .counter v false
      else if m.syncType = 2 then .barrier (BitVec.ofNat 32 m.value) 0 (BitVec.ofNat 32 (m.value / 2 ^ 32))
      else if m.syncType = 3 then .flag (decide (m.value % 2 = 1)) else .none)) ∧
    (∀ n f, o = .counter n f →
      (m.syncOp = 0x2 → sets (.syncAdd m) (if 2 ^ 64 ≤ n.toNat + m.value then .counter (BitVec.ofNat 64 (2 ^ 64 - 1)) true else .counter (n + v) f)) ∧
      (m.syncOp = 0x3 → (v.toNat ≤ n.toNat → answers (.syncWaitGe m) n) ∧ (n.toNat < v.toNat → waits (.syncWaitGe m)))) ∧
    (∀ n a g, o = .barrier n a g →
      let arrived : SyncObj := if n = 0 then o else if a + 1 = n then .barrier n 0 (g + 1) else .barrier n (a + 1) g
      (m.syncOp = 0x4 → sets (.syncArrive m) arrived) ∧ (m.syncOp = 0x5 → sets (.syncArriveWait m) arrived) ∧
      (m.syncOp = 0x6 → (n = 0 ∨ g ≠ v.setWidth 32 → answers (.syncWaitGen m) (g.setWidth 64)) ∧
        (n ≠ 0 → g = v.setWidth 32 → waits (.syncWaitGen m)))) ∧
    (∀ b, o = .flag b →
      (m.syncOp = 0x7 → sets (.syncSet m) (.flag true)) ∧ (m.syncOp = 0x8 → sets (.syncClear m) (.flag false)) ∧
      (m.syncOp = 0x9 → (b = true → answers (.syncWaitSet m) 1) ∧ (b = false → waits (.syncWaitSet m))) ∧
      (m.syncOp = 0xA → (b = false → answers (.syncWaitClear m) 0) ∧ (b = true → waits (.syncWaitClear m))))

/-- An INIT, ADD, ARRIVE, SET or CLEAR leaves no waiter of its object whose condition holds or whose operation is not of the
object's type, and keeps every other waiter in its place (R366 to R368); an operation that the type does not take changes no
object and no waiter (R364). -/
def Obligations.SyncReleasesItsWaiters : Prop :=
  ∀ (s : State) (m : Msg) (i : Instr) (op : Nat),
    (i, op) ∈ [(Instr.syncInit m, 0x1), (.syncAdd m, 0x2), (.syncArrive m, 0x4), (.syncArriveWait m, 0x5), (.syncSet m, 0x7),
      (.syncClear m, 0x8)] →
    s.requestOk m 0x05 = true → UA.depth m.dest = 0 → m.epoch = s.epochOf m.dest → m.syncOp = op →
    (m.syncOk = true → (op = 0x1 ∨ (s.syncObj m.obj).accepts op = true) →
      ∃ t, exec i s = .next t ∧
        (∀ w ∈ t.waiters, w.obj = m.obj → (t.syncObj m.obj).accepts w.op.toNat = true ∧ (t.syncObj m.obj).holds w.op.toNat w.value = false) ∧
        t.waiters.filter (fun w => decide (w.obj ≠ m.obj)) = s.waiters.filter (fun w => decide (w.obj ≠ m.obj)) ∧
        (∀ w ∈ s.waiters, w.obj = m.obj → (t.syncObj m.obj).accepts w.op.toNat = true →
          (t.syncObj m.obj).holds w.op.toNat w.value = false → w ∈ t.waiters)) ∧
    (op ≠ 0x1 → (s.syncObj m.obj).accepts op = false →
      ∃ t, exec i s = .next t ∧ t.sync = s.sync ∧ t.waiters = s.waiters ∧ t.cells = s.cells)

/-- A device of role CACHE or MIXED serves SPILL: WRITE to an existing grant stores the units of its body at the grant, READ
answers with units, FREE gives the extent back to the pool, ALLOC makes a grant and answers its offset (R514, R516, R517). The
tags of the replies are the model's choice (log 18). -/
def Obligations.SpillServing : Prop :=
  ∀ (s : State) (m : Msg) (g : Served), s.requestOk m 0x06 = true → UA.depth m.dest = 0 → m.epoch = s.epochOf m.dest →
    let client := UA.device m.src
    let n := m.fld 0 41 31
    let off := m.fld 0 51 42
    let k := 2 ^ m.fld 0 30 28
    let clear (t : State) : Prop := t.cells = s.cells ∧ t.sync = s.sync
    let leaves : Prop := s.local? m.src = true ∨
      ((s.net.route client).isSome = true ∧ s.net.heldPk.any (fun h => decide (h.1 = client.toNat)) = false)
    (m.fld 0 3 0 = 1 → spillOk m 1 = true → ((s.unit 0).role = 3 ∨ (s.unit 0).role = 4) →
      s.mem.servedKib none + k ≤ s.serveGib * 2 ^ 20 → s.mem.servedKib (some client) + k ≤ 2 ^ 24 →
      ∀ o b mm, s.mem.serveOffset client k = some o → s.mem.alloc 0 (16 * k) (.serve client.toNat) = some (b, mm) →
      ∃ t, exec (.spillAlloc m) s = .next t ∧ clear t ∧ (leaves →
        t.mem = { mm with served := s.mem.served ++ [⟨client, o, k, b⟩] })) ∧
    (s.mem.grant client (m.fld 0 27 4) = some g → off + n ≤ 16 * g.kib → g.kib = k →
      (m.fld 0 3 0 = 2 → spillOk m 2 = true → ∃ t, exec (.spillFree m) s = .next t ∧ clear t ∧ (leaves →
        t.mem = { s.mem.release g.base with served := (s.mem.release g.base).served.erase g })) ∧
      (m.fld 0 3 0 = 3 → spillOk m 3 = true → n ≠ 0 → m.body.length = 1 + 5 * n →
        ∃ t, exec (.spillWrite m) s = .next t ∧ clear t ∧ (leaves →
          t.mem = s.mem.writeUnits (g.base + off) (unitsOf (m.body.drop 1)))) ∧
      (m.fld 0 3 0 = 4 → spillOk m 4 = true → n ≠ 0 → ∃ t, exec (.spillRead m) s = .next t ∧ clear t ∧ (leaves → t.mem = s.mem) ∧
        (s.local? m.src = true → ∃ r, t.net.inFlight = s.net.inFlight.erase m ++ [r] ∧ r.dest = m.src ∧
          r.tag = m.tag ∧ r.code = ccOk ∧
          r.body.drop 1 = (List.range n).flatMap (fun j => unitItems (s.mem.readUnit (g.base + off + j))))))

/-- A chain sum fills the empty inlet of its tile, or waits at the port of a full one or of a cell whose context is not resident
(R116, R617). A REPLY completes the blocking SYNC that waits for its TAG, and any other enters RPL of its cell when it is of the
cell's job (R347, R442); at the device address it enters HIQ (R348). A bounce for a cell enters RPL (R60, R348). -/
def Obligations.SumsRepliesAndBounces : Prop :=
  ∀ (s : State) (m : Msg),
    let c := cellIx (UA.index m.dest)
    let x := s.cell c
    let y := x.tile (m.tag.toNat % 2)
    (s.requestOk m 0x04 = true → m.epoch = s.epochOf m.dest → UA.depth m.dest = 5 → y.drain = none →
      (s.destResident m = true → y.inlet = none → y.port = [] → ∃ t, exec (.chainSum m) s = .next t ∧
        (t.cell c).tile (m.tag.toNat % 2) = { y with inlet := some (chainOf m) } ∧ (t.cell c).spad = x.spad ∧ (t.cell c).seq = x.seq) ∧
      (y.inlet.isSome = true ∨ s.destResident m = false → ∃ t, exec (.chainSum m) s = .next t ∧
        (t.cell c).tile (m.tag.toNat % 2) = { y with port := y.port ++ [chainOf m] } ∧ (t.cell c).spad = x.spad)) ∧
    (s.uncheckedOk m = true → UA.depth m.dest = 5 → m.job = x.job.toNat →
      (∀ o, m.cls = 0x08 → m.bounced = false → x.waiter m.tag = some o →
        ∃ t, exec (.replyArrival m) s = .next t ∧ (∀ d, d ≠ c → t.cell d = s.cell d) ∧ t.mem = s.mem ∧
          (t.cell c).seq = x.seq ∧ (t.cell c).ops = x.ops.map (fun p => if p.id = o.id then { p with
            done := true, code := m.code, regs := p.regs.map (fun r => (r.1, BitVec.ofNat 64 (m.fld 0 119 56))) } else p)) ∧
      (x.waiter m.tag = none → x.scrubbing = false → x.rplq.flushing = false →
        ownPackets x.job.toNat x.rplq.partialIn (x.rplq.inflow ++ m.items) = true →
        (m.cls = 0x08 → m.bounced = false → ∃ t, exec (.replyArrival m) s = .next t ∧ (t.cell c).ops = x.ops ∧
          (t.cell c).rplq.items = x.rplq.items ++ (x.rplq.inflow ++ m.items).take (64 - x.rplq.items.length)) ∧
        (m.cls ≠ 0x02 → m.bounced = true → ∃ t, exec (.bounceArrival m) s = .next t ∧ (t.cell c).ops = x.ops ∧
          (t.cell c).rplq.items = x.rplq.items ++ (x.rplq.inflow ++ m.items).take (64 - x.rplq.items.length)))) ∧
    (s.uncheckedOk m = true → UA.depth m.dest = 0 → m.cls = 0x08 → m.bounced = false → s.spillOp m.tag = none →
      s.units.find? (fun u => decide (unitTag u.1 = m.tag) && u.2.joins.any (fun j => decide (j.n = blockFetchNo ∧ j.blocks = none))) = none →
      s.drv.job? (BitVec.ofNat 32 m.job) = none → s.evc.hiq.flushing = false →
      ∃ t, exec (.replyArrival m) s = .next t ∧ t.cells = s.cells ∧
        t.evc.hiq.items = s.evc.hiq.items ++ (s.evc.hiq.inflow ++ m.items).take (1024 - s.evc.hiq.items.length))

/-- A row whose count reaches CE_LIMIT comes due for a remap, and the cell asks to be retired when no spare row is free (R307,
R311). A due remap points the map at the next spare row, starts its count at 0, leaves every byte as it was and starts a save of
the record (R307, R308). A cell over the limits of R606 and R607 requests retirement. No other cell changes. The patrol corrects
and counts an error of its unit, or finds the unit lost, by what the code makes of the flipped bits `e` of the unit (R500 to
R503, R620). A lane repair counts at its die with cause 8 and fires its source; a module with no lane left is down, and the
messages between the dies then take other modules (R48, R619). A remap is one action (log 26). -/
def Obligations.RowsRetirementAndRepair : Prop :=
  (∀ (s : State) (c : CellIx) (row : Fin 16384),
     let x := s.cell c
     (s.up = true → x.ceLimit ≠ 0 → x.ceLimit.toNat ≤ (SMap.getD x.rows.ce row.val 0).toNat → row.val ∉ x.rows.due →
       ∃ t, exec (.ceLimitReached c row) s = .next t ∧ (∀ d, d ≠ c → t.cell d = s.cell d) ∧
         t.cell c = { x with rows := { x.rows with due := x.rows.due ++ [row.val] }, cnt := (t.cell c).cnt, retireReq := x.retireReq || decide (s.sparesFree c = 0) }) ∧
     (s.cellUp c = true → row.val ∈ x.rows.due → x.quiescent = true → 0 < s.sparesFree c →
       ∃ t, exec (.fieldRemap c row) s = .next t ∧ (∀ d, d ≠ c → t.cell d = s.cell d) ∧
         t.cell c = { x with rows := (t.cell c).rows, cnt := (t.cell c).cnt } ∧
         SMap.get? (t.cell c).rows.map row.val = some (16384 + s.rowsMappedTest c + x.rows.field) ∧
         SMap.getD (t.cell c).rows.ce row.val 0 = 0 ∧ (t.cell c).rows.due = x.rows.due.erase row.val ∧
         (t.cell c).rows.field = x.rows.field + 1 ∧ (t.cell c).cnt.lastCause = 2 ∧ t.dict.saving.isSome = true) ∧
     (s.up = true → x.retires = true → ∃ t, exec (.retirementRequest c) s = .next t ∧ (∀ d, d ≠ c → t.cell d = s.cell d) ∧
         t.cell c = { x with retireReq := true, cnt := (t.cell c).cnt } ∧ t.mem = s.mem)) ∧
  ((∀ (s : State) (u : Nat) (e : List UnitFlip), s.fabricUp = true → s.devParam 0x4000 0x0D 24 ≠ 0 → 64 * u < s.mem.bytes →
     let d := u / 64 % 2
     let r := s.mem.unitErr u e
     ∃ t, exec (.patrol u e) s = .next t ∧ t.cells = s.cells ∧ t.mem.mem = s.mem.mem ∧ t.mem.die (1 - d) = s.mem.die (1 - d) ∧
       (r = .clean → t = { s with fifo := t.fifo }) ∧
       (r = .corrected → t.mem.die d = { s.mem.die d with ceTotal := (s.mem.die d).ceTotal + 1 } ∧ t.mem.lost = s.mem.lost) ∧
       (r = .uncorrectable ∨ r = .lost → t.mem.die d = { s.mem.die d with ueTotal := (s.mem.die d).ueTotal + 1, lastCause := 7 } ∧
         u ∈ t.mem.lost ∧ t.evc = s.evc.fireStatus (srcDieRel d))) ∧
   (∀ (s : State) (die : Fin 2) (mod : Fin 5) (n : Nat) (ok : Bool), s.pwr.on = true →
     let d := s.mem.die die.val
     let k := 5 * die.val + mod.val
     ∃ t, exec (.ucieLaneRepair die mod n ok) s = .next t ∧ t.cells = s.cells ∧ t.net = { s.net with modsDown := t.net.modsDown } ∧
       (∀ j, j ∈ t.net.modsDown ↔ j ∈ s.net.modsDown ∨ (ok = false ∧ j = k)) ∧
       t.evc = s.evc.fireStatus (srcDieRel die.val) ∧ t.mem.die (1 - die.val) = s.mem.die (1 - die.val) ∧
       t.mem.die die.val = if ok then { d with lanesRepaired := d.lanesRepaired + BitVec.ofNat 8 n, lastCause := 8 }
         else { d with modulesDown := d.modulesDown + 1, lastCause := 8 }))

/-- The spare of the carcase takes the address of the retired cell, with its scratchpad, sequencer, tiles, queues, windows, role
and epoch (R41, R611, R613). With no spare free, the host of R614 takes it, with 42 extents of its die's pool for the image
(R615). A context switch makes the context resident at its host, and no other context of that host (R616). Which host is a
candidate, and that the row map starts anew, is the model's choice (log 26). -/
def Obligations.SparesAndHosts : Prop :=
  ∀ (s : State) (c : CellIx),
    let x := s.cell c
    let moved := fun t : State => (t.cell c) = { x with rows := { ({} : Rows) with rebuilt := x.rows.rebuilt }, retireReq := false, recomputeTimes := [], failStreak := 0, cnt := (t.cell c).cnt }
    (s.cellUp c = true → x.retireReq = true → s.spareFree c = true → s.rel.hostOf c = none → s.quiescent (carcaseCells c) = true →
      x.scrubbing = false → (∀ i ∈ carcaseCells c, i < c.val → (s.cell (cellIx i)).retireReq = false) →
      ∃ t, exec (.spareSubstitution c) s = .next t ∧ (∀ d, d ≠ c → t.cell d = s.cell d) ∧ moved t ∧ t.units = s.units ∧
        SMap.get? t.rel.spareOf (c.val / 16) = some c.val ∧ c.val ∈ t.rel.retired ∧ t.dict.saving.isSome = true) ∧
    (∀ h d m, s.cellUp c = true → x.retireReq = true → s.spareFree c = false → s.rel.hostOf c = none → x.scrubbing = false →
      s.chooseHost c = some (h, d) → s.mem.allocMany (h / 256) 1024 (.image c.val) 42 = some m →
      s.quiescent ((List.range (UA.span d)).map (fun i => c.val / UA.span d * UA.span d + i)) = true →
      ∃ t, exec (.hostingStart c) s = .next t ∧ (∀ d, d ≠ c → t.cell d = s.cell d) ∧ moved t ∧ t.units = s.units ∧
        (⟨h, c.val, false⟩ : Host_) ∈ t.rel.hosts ∧ c.val ∈ t.rel.retired ∧ t.mem = m ∧ t.dict.saving.isSome = true) ∧
    (let h := (s.rel.hostOf c).elim c.val (·.host)
      let now := s.cell (cellIx (s.residentAt h))
      s.dieUp (h / 256) = true → s.resident c = false → now.scrubbing = false → now.held = none → now.unitsRest = true →
      (now.ready = false ∧ x.cmdq.headReady = true ∨ now.waitsOutside = true ∧ (x.ready = true ∨ s.waitsAtRouter c = true)) →
      ∃ t, exec (.hostContextSwitch c) s = .next t ∧ t = { s with rel := { s.rel with hosts := t.rel.hosts } } ∧
        t.resident c = true ∧ (∀ d : CellIx, d ≠ c → (s.rel.hostOf d).elim d.val (·.host) = h → t.resident d = false) ∧
        (∀ d : CellIx, (s.rel.hostOf d).elim d.val (·.host) ≠ h → t.resident d = s.resident d))

/-- A JOB, REGISTER or RELEASE entry acts once it is read and no earlier one of its stream is open (R383). A job or graph that
fails a check completes with the code and the layer of the failing check, and a job that passes is accepted under the next
identifier (R389, R390); a graph that passes has the next handle (R400, R401); a RELEASE of a handle that is not registered
completes with OK_EMPTY, and no registered handle survives one (R402). The order in which the checks are reported is the model's
(log 27). -/
def Obligations.SubmissionEntries : Prop :=
  ∀ (s : State) (st : Fin 8), CanRead s st.val → s.streamBusy st.val = false → (∀ q ∈ s.drv.queue, q.stream ≠ st.val) →
    (∀ e tab, Desc.kind e ≠ 2 → Desc.kind e ≠ 3 → Desc.kind e ≠ 4 → Desc.kind e ≠ 5 → let d : Desc := e.take 8
      (∀ x, s.jobFault d tab = some x → Desc.kind e = 1 → ∃ t, exec (.jobEntry st e tab) s = .next t ∧ t.drv = s.drv ∧
        Posts s st.val ⟨completionWords x.1 1 st.val false 0 (BitVec.ofNat 32 (d.f 1 63 32)) (BitVec.ofNat 32 (d.f 1 31 0)) x.2 0
          ({ exact := ((s.drv.graphs.find? (fun g => decide (g.handle.toNat = d.f 1 31 0) && !g.released)).elim tab
            (fun g => g.effective d tab)).all Prec.exact } : Ledger).words, []⟩ t) ∧
      (∀ g, s.drv.graphs.find? (fun g => decide (g.handle.toNat = d.f 1 31 0) && !g.released) = some g →
        s.jobFault d tab = none → d.bit 5 3 = false → ∃ t, exec (.jobEntry st e tab) s = .next t ∧
          t = { entryRead s st.val with drv := { s.drv with jobs := s.drv.jobs ++ [jobOf s.drv.nextJob st.val d (g.effective d tab) []], nextJob := if s.drv.nextJob = 0xFFFFFFFF then 1 else s.drv.nextJob + 1 } })) ∧
    (∀ e d ts ls room, Desc.kind e = 4 → Desc.fault (e.take 8) 0x04 8 true = none → graphLengths d ts ls = true →
      (∀ x, s.graphFault d ts ls room = some x → ∃ t, exec (.registerEntry st e d ts ls room) s = .next t ∧ t.drv = s.drv ∧
        Posts s st.val ⟨completionWords x.1 4 st.val false 0 0 0 x.2 0 noLedger, []⟩ t) ∧
      (s.graphFault d ts ls room = none → ∃ t, exec (.registerEntry st e d ts ls room) s = .next t ∧
        t.drv = { s.drv with graphs := s.drv.graphs ++ [⟨s.drv.nextHandle, ts, ls, false⟩], nextHandle := if s.drv.nextHandle = 0xFFFFFFFF then 1 else s.drv.nextHandle + 1 } ∧
        Posts s st.val ⟨completionWords ccOk 4 st.val false 0 0 s.drv.nextHandle noLayer 0 noLedger, []⟩ t)) ∧
    (∀ e, Desc.kind e = 5 → Desc.fault (e.take 8) 0x05 8 true = none → let h : BitVec 32 := BitVec.ofNat 32 (Desc.f (e.take 8) 1 31 0)
      ((∀ g ∈ s.drv.graphs, g.handle = h → g.released = true) → ∃ t, exec (.releaseEntry st e) s = .next t ∧ t.drv = s.drv ∧
        Posts s st.val ⟨completionWords ccEmpty 5 st.val false 0 0 h noLayer 0 noLedger, []⟩ t) ∧
      (∀ g ∈ s.drv.graphs, g.handle = h → g.released = false → ∃ t, exec (.releaseEntry st e) s = .next t ∧
        (∀ g' ∈ t.drv.graphs, g'.handle = h → g'.released = true) ∧ t.drv.jobs = s.drv.jobs ∧ t.cells = s.cells ∧ t.mem = s.mem))

/-- A KILL or CUT entry that matches no job completes with OK_EMPTY (R396, R397). A KILL of the one matching job ends it with
KILLED if it has not started and carries no signal, and begins its kill if it runs, its completed DELTA layers losing VALID of
their references (R394, R395). A CUT is recorded with each matching job, and at every cell for the running ones, and completes
with OK (R252, R397). The driver acts on its own device only (the model's choice, log 27). -/
def Obligations.KillAndCutEntries : Prop :=
  ∀ (s : State) (st : Fin 8) (e : List Word), CanRead s st.val → let d : Desc := e.take 8
    let tag : BitVec 32 := BitVec.ofNat 32 (d.f 1 31 0)
    (Desc.kind e = 2 → d.fault 0x02 8 true = none →
      (s.anyHit st.val d = false → ∃ t, exec (.killEntry st e) s = .next t ∧ t.drv = s.drv ∧
        Posts s st.val ⟨completionWords ccEmpty 2 st.val false 0 tag 0 noLayer 0 noLedger, []⟩ t) ∧
      (∀ j, s.drv.jobs.filter (·.hit st.val d) = [j] → s.drv.job? j.id = some j → let k := s.drv.nextWait
        (j.phase = .ready → j.sig = none → j.fail = none → ∃ t, exec (.killEntry st e) s = .next t ∧
          Forgets s j.id t ∧ t.mem = s.mem ∧ t.net = s.net ∧ t.drv.jobs = s.drv.jobs.filter (fun i => decide (i.id ≠ j.id)) ∧
          t.drv.waits = s.drv.waits ++ [⟨k, st.val, 2, tag, 0⟩] ∧
          (t.stream st.val).ready.getLast? = some ({ j with killed := true, killers := j.killers ++ [k] } : JobRec).completion) ∧
        (j.phase = .running → ∃ t, exec (.killEntry st e) s = .next t ∧ t.cells = s.cells ∧ t.mem = (s.clearRefs j).mem ∧
          (j.done = [] → t.mem = s.mem) ∧ t.drv.waits = s.drv.waits ++ [⟨k, st.val, 2, tag, 0⟩] ∧
          t.drv.job? j.id = some { j with killed := j.fail.isNone, phase := .killing, killers := j.killers ++ [k] } ∧
          ∃ m, t.net.inFlight = s.net.inFlight ++ [m] ∧ m.cls = 0x01 ∧ m.dest = UA.mk s.net.devId 0 ∧
            m.body = [BitVec.ofNat 120 (6 + j.id.toNat * 2 ^ 16)]))) ∧
    (Desc.kind e = 3 → d.fault 0x03 8 true = none →
      (s.anyHit st.val d = false → ∃ t, exec (.cutEntry st e) s = .next t ∧ t.drv = s.drv ∧
        Posts s st.val ⟨completionWords ccEmpty 3 st.val false 0 tag 0 noLayer 0 noLedger, []⟩ t) ∧
      (s.anyHit st.val d = true → (d.bit 1 33 = false ∨ d.f 2 31 0 < 2 ^ 16) →
        let scope : Option (BitVec 16) := if d.bit 1 33 then some (BitVec.ofNat 16 (d.f 2 31 0)) else none
        ∃ t, exec (.cutEntry st e) s = .next t ∧ t.mem = s.mem ∧ t.net = s.net ∧
          t.drv.jobs = s.drv.jobs.map (fun (j : JobRec) => if j.hit st.val d then { j with cuts := j.cuts ++ [scope] } else j) ∧
          (∀ j ∈ s.drv.jobs, j.hit st.val d = true → j.phase = .running → ∀ c : CellIx, (⟨j.id, scope⟩ : CutRec) ∈ (t.cell c).cutRecs) ∧
          (t.stream st.val).ready = (s.stream st.val).ready ++ [⟨completionWords ccOk 3 st.val false 0 tag 0 noLayer 0 noLedger, []⟩]))

/-- A ready job starts, its budget running from then (R391); when the budget expires every cell records a cut of it (R251,
R252); a job whose layers are complete ends, with a signal or its completion (R392, R413); a failure is recorded with its layer
and the running job's units are killed (R416). Log 27 names what the model fixes here. -/
def Obligations.JobsFromStartToEnd : Prop :=
  ∀ (s : State) (job : BitVec 32) (j : JobRec), s.hostUp = true → s.drv.job? job = some j →
    (j.phase = .ready → ∃ t, exec (.jobStart job) s = .next t ∧ t.mem = s.mem ∧ t.net = s.net ∧
      t.drv.job? job = some { j with phase := .running, start := s.timeHost, startRun := s.runTime } ∧
      (∀ i, i ≠ job → t.drv.job? i = s.drv.job? i) ∧ (j.cuts = [] → t.cells = s.cells) ∧
      (∀ k ∈ j.cuts, ∀ c : CellIx, (⟨job, k⟩ : CutRec) ∈ (t.cell c).cutRecs)) ∧
    (j.phase = .running → j.budget ≠ 0 → j.expired = false → j.budget.toNat ≤ (s.runTime - j.startRun).toNat →
      ∃ t, exec (.budgetExpiry job) s = .next t ∧ t.mem = s.mem ∧ t.net = s.net ∧
        t.drv.job? job = some { j with expired := true } ∧ (∀ i, i ≠ job → t.drv.job? i = s.drv.job? i) ∧
        (∀ c : CellIx, t.cell c = (s.cell c).recordCut ⟨job, none⟩ ∧ (⟨job, none⟩ : CutRec) ∈ (t.cell c).cutRecs)) ∧
    (∀ g, s.graphOf j = some g → j.phase = .running → (∀ i, i < g.layers.length → i ∈ j.done) →
      (j.sig = none → j.silent = false → ∃ t, exec (.jobEnd job) s = .next t ∧ Forgets s job t ∧ t.mem = s.mem ∧
        t.drv.job? job = none ∧ (t.stream j.stream).ready = (s.stream j.stream).ready ++ [j.completion]) ∧
      (∀ dev obj, j.sig = some (dev, obj) → s.unreachable (UA.mk dev 0) = false → ∃ t, exec (.jobEnd job) s = .next t ∧
        t.cells = s.cells ∧ t.drv.job? job = some { j with phase := .signal })) ∧
    (∀ layer code, failureCode code = true → j.phase = .running → ∃ t, exec (.jobFailure job layer code) s = .next t ∧
      t.cells = s.cells ∧ t.mem = (s.clearRefs j).mem ∧ (∀ i, i ≠ job → t.drv.job? i = s.drv.job? i) ∧
      t.drv.job? job = some { j with fail := some (code, layer), killed := false, phase := .killing })

/-- A DELTA layer clears VALID of its reference when it begins (R247). A layer that completes has moved the data that an IMPORT,
an EXPORT or a layer on the harts moves (R23, R404), counts as done with its code, to which a cut tile and a poisoned one add
theirs (R258, R411), folds its tile ledgers into the job's summary (R418) and writes them to its ledger area (R419). A
completion entry waits while its queue is full (R492), is discarded to BMOFF while DMA is off (R463), and else is written with
PHASE and published (R490). What a layer's completion reports is an operand (log 27). -/
def Obligations.LayersAndCompletionEntries : Prop :=
  ∀ (s : State), s.hostUp = true →
    (∀ job layer j g p l, s.openLayer job layer = some (j, g, p, l) → Layer.op l = 1 → Prec.delta p = true →
      (∀ f ∈ s.drv.frames, ¬ (f.job = job ∧ f.layer = layer)) →
      ∃ t f, exec (.deltaLayerBegin job layer) s = .next t ∧ f.job = job ∧ f.layer = layer ∧
        t.drv = { s.drv with frames := s.drv.frames ++ [f] } ∧ t.cells = s.cells ∧
        Memory.readWord t.mem.mem (64 * Layer.dref l) = 0 ∧
        (∀ b, b < 64 * Layer.dref l ∨ 64 * Layer.dref l + 8 ≤ b → Memory.read t.mem.mem b = Memory.read s.mem.mem b)) ∧
    (∀ job layer code record carried ledgers j g p l s' psn, s.openLayer job layer = some (j, g, p, l) → code.toNat ≤ 3 →
      s.layerFits g p l record carried ledgers = true → s.layerData j g p l = some (s', psn) →
      let ls := g.ledgers p l ledgers
      let c : Code := if g.empty l then ccEmpty else layerCode code psn ls
      (Layer.op l ≠ 4 → Layer.op l ≠ 5 → Prec.hostLayer p = false → (Layer.op l = 1 → (g.tensor (Layer.inT l)).elim 0 Tensor.klen ≠ 0) →
        s' = s ∧ psn = false) ∧
      ∃ t j', exec (.layerComplete job layer code record carried ledgers) s = .next t ∧ t.cells = s'.cells ∧ t.net = s'.net ∧
        (s'.drv.jobs = s.drv.jobs → t.drv.job? job = some j') ∧ j'.done = j.done ++ [layer.toNat] ∧ j'.codes = j.codes ++ [c] ∧
        j'.ledger = ls.foldl Ledger.fold j.ledger ∧
        (∀ f ∈ t.drv.frames, ¬ (f.job = job ∧ f.layer = layer)) ∧
        (c = ccEmpty → Layer.ledgerV l = false → t.mem = s'.mem) ∧
        (Layer.ledgerV l = true → ∀ i b, (ls.flatMap (·.stored))[i]? = some b → Memory.read t.mem.mem (64 * Layer.ledger l + i) = b)) ∧
    (∀ (st : Fin 8) x l, let q := s.stream st.val
      q.ready = x :: l → q.enabled = true →
      (q.full = true → ∃ t, exec (.completionEntryWrite st) s = .next t ∧ t.mem = s.mem ∧
        t.stream st.val = { q with cqfull := true, roomwait := true }) ∧
      (q.full = false → s.pcie.bme = false → ∃ t, exec (.completionEntryWrite st) s = .next t ∧
        t = { s with evc := { s.evc with bmoff := true } }) ∧
      (q.full = false → s.pcie.bme = true →
        let a := (q.cqBase.toNat + 128 * q.cqTail.toNat) % 2 ^ 64
        ∃ t, exec (.completionEntryWrite st) s = .next t ∧ t.cells = s.cells ∧ t.mem.mem = s.mem.mem ∧
          (t.stream st.val).cqTail = BitVec.ofNat 16 ((q.cqTail.toNat + 1) % q.cqSize.toNat) ∧
          Memory.readBytes t.mem.wsMem a 8 = bytesLE 8 (x.words.getD 0 0 + BitVec.ofNat 64 (b2n q.phase * 2 ^ 63)).toNat ∧
          (∀ i b, (wordBytes (x.words.drop 1))[i]? = some b → Memory.read t.mem.wsMem (a + 8 + i) = b)))

/-- The event controller's registers take what the driver writes and nothing else of the module changes; a claim makes the
presented source ACTIVE, a complete by its hart makes it IDLE or PENDING again and any other sets BADCOMP (Table 13-7, R474,
R475), as BADCOMP clears where a 1 is written to it (R5); a read of EVC_SPEND clears it (R476); a firing moves its source by
Table 13-7, and a timer fires at its time. -/
def Obligations.EventController : Prop :=
  ∀ (s : State), s.hostUp = true → let e := s.evc
    (∀ h : Fin 16, let id := (e.hart h.val).slot.toNat
      ∃ t, exec (.evcClaim h) s = .next t ∧ OnlyEvc s t ∧ t.evc.spend = e.spend ∧ t.evc.smask = e.smask ∧
        (id = 0 → t.evc = { e with emptyClaims := e.emptyClaims + 1 }) ∧
        (id ≠ 0 → (t.evc.src id).st = .active ∧ t.evc.claims = e.claims + 1 ∧
          ∀ i, i ≠ id → (t.evc.src i).st = (e.src i).st)) ∧
    (∀ (h : Fin 16) (id : BitVec 13) (w1c : Bool), let x := e.src id.toNat
      ∃ t, exec (.evcComplete h id w1c) s = .next t ∧ OnlyEvc s t ∧ (∀ i, i ≠ id.toNat → (t.evc.src i).st = (e.src i).st) ∧
        (evIdOk id.toNat = true → x.hart.toNat = h.val → id.toNat < 0x1000 →
          (x.st = .active → (t.evc.src id.toNat).st = .idle) ∧ (x.st = .activePending → (t.evc.src id.toNat).st = .pending) ∧
          (x.st = .active ∨ x.st = .activePending → (t.evc.hart h.val).badcomp = ((e.hart h.val).badcomp && !w1c))) ∧
        (x.st ≠ .active → x.st ≠ .activePending → t.evc = e.modHart h.val (fun k => { k with badcomp := true }))) ∧
    (∀ (n : BitVec 12) (v : Word), n ≠ 0 → ∃ t, exec (.evcSrcWrite n v) s = .next t ∧ OnlyEvc s t ∧
      (t.evc.src n.toNat).prio = BitVec.ofNat 4 (fld v 3 0) ∧ (t.evc.src n.toNat).targets = BitVec.ofNat 16 (fld v 23 8) ∧
      ∀ i, (t.evc.src i).st = (e.src i).st) ∧
    (∀ (g : Fin 64) (v : Word), ∃ t, exec (.evcSgrpWrite g v) s = .next t ∧ OnlyEvc s t ∧
      (t.evc.src (0x1000 + g.val)).prio = BitVec.ofNat 4 (fld v 3 0) ∧
      (t.evc.src (0x1000 + g.val)).targets = BitVec.ofNat 16 (fld v 23 8) ∧ ∀ i, (t.evc.src i).st = (e.src i).st) ∧
    (∀ (h : Fin 16) (v : Word), ∃ t, exec (.evcThreshWrite h v) s = .next t ∧ OnlyEvc s t ∧
      (t.evc.hart h.val).thresh = BitVec.ofNat 4 (fld v 3 0) ∧ ∀ i, (t.evc.src i).st = (e.src i).st) ∧
    (∀ (h : Fin 16) (v : Word), ∃ t, exec (.evcHartCtlWrite h v) s = .next t ∧ OnlyEvc s t ∧
      (t.evc.hart h.val).online = v.getLsbD 0 ∧ (t.evc.hart h.val).machine = v.getLsbD 1 ∧ ∀ i, (t.evc.src i).st = (e.src i).st) ∧
    (∀ (g : Fin 64) (v : Word), ∃ t, exec (.evcSmaskWrite g v) s = .next t ∧ OnlyEvc s t ∧
      SMap.getD t.evc.smask g.val 0 = v ∧ t.evc.spend = e.spend ∧
      (SMap.getD e.spend g.val 0 &&& v &&& ~~~(SMap.getD e.smask g.val 0) ≠ 0 →
        (t.evc.src (0x1000 + g.val)).st = fired (e.src (0x1000 + g.val)).st)) ∧
    (∀ g : Fin 64, ∃ t, exec (.evcSpendRead g) s = .next t ∧ t = { s with evc := { e with spend := t.evc.spend } } ∧
      SMap.getD t.evc.spend g.val 0 = 0 ∧ ∀ i, i ≠ g.val → SMap.getD t.evc.spend i 0 = SMap.getD e.spend i 0) ∧
    (∀ v : Word, 64 ≤ fld v 11 0 → ∃ t, exec (.evcSwfire v) s = .next t ∧ OnlyEvc s t ∧
      (t.evc.src (fld v 11 0)).st = fired (e.src (fld v 11 0)).st ∧ t.evc.spend = e.spend) ∧
    (∀ id : BitVec 13, evIdOk id.toNat = true → neverFires id.toNat = false → id.toNat < 0x1000 →
      ∃ t, exec (.sourceFire id) s = .next t ∧ OnlyEvc s t ∧ (t.evc.src id.toNat).st = fired (e.src id.toNat).st ∧
        ∀ i, i ≠ id.toNat → (t.evc.src i).st = (e.src i).st) ∧
    (∀ n : BitVec 12, n.toNat < 3599 → ∃ t, exec (.statusSourceFire n) s = .next t ∧ OnlyEvc s t ∧
      (SMap.getD t.evc.spend (n.toNat / 64) 0).getLsbD (n.toNat % 64) = true ∧ t.evc.smask = e.smask ∧
      ((SMap.getD e.spend (n.toNat / 64) 0).getLsbD (n.toNat % 64) = true → t = s)) ∧
    (∀ (tm : Fin 32) (v : Word), s.frozen = false → v ≠ 0 → ∃ t, exec (.timerFire tm (some v)) s = .next t ∧ OnlyEvc s t ∧
      (v.toNat ≤ s.timeHost.toNat → SMap.getD t.evc.timers tm.val 0 = 0 ∧
        (t.evc.src (16 + tm.val)).st = fired (e.src (16 + tm.val)).st) ∧
      (s.timeHost.toNat < v.toNat → SMap.getD t.evc.timers tm.val 0 = v ∧ t.evc.srcs = e.srcs))

/-- The host port sends a message from the carve-out with SRC the device, and is BUSY until the next tick (R465); a COUNT of 0
sends nothing, a bad address or a GO while BUSY sets SENDERR (R466, R468, R469), a DEST that is not canonical comes back in HIQ
with BAD_DESC, its header else as it was (R467). A pop of HIQ takes its head item (R470). A store through the workstation window
reaches the bus address of R462, an offset past the window faults at the hart and changes nothing (R456), and while DMA is off
no access reaches the workstation and BMOFF is set (R463). A send is under way until the next tick (the model's choice, log 28).
-/
def Obligations.HostPortAndWindow : Prop :=
  ∀ (s : State) (h : Fin 16), s.hostUp = true →
    (∀ (addr : BitVec 50) (n : BitVec 32) (items : List Payload) (w1c : Bool), let go := exec (.evcSendGo h addr n items w1c) s
      let adr := addr &&& ~~~(0xF : BitVec 50)
      ((s.evc.hart h.val).busy = true ∨ (n ≠ 0 ∧ (addr.toNat % 16 ≠ 0 ∨ s.inCarveOut addr = false)) →
        ∃ t, go = .next t ∧ OnlyEvc s t ∧ (t.evc.hart h.val).sendErr = true) ∧
      ((s.evc.hart h.val).busy = false →
        (n = 0 → ∃ t, go = .next t ∧ OnlyEvc s t ∧
          t.evc = s.evc.modHart h.val (fun k => { k with sendAddr := adr, sendErr := k.sendErr && !w1c })) ∧
        (∀ m, n ≠ 0 → addr.toNat % 16 = 0 → s.inCarveOut addr = true → let l := sliceD items 0 n.toNat 0
          n.toNat = 2 + fld (l.getD 1 0) 79 64 → Msg.ofItems (l.map (fun p => ⟨false, 0, p⟩)) = some m →
          (UA.canonical m.dest = true → s.local? m.dest = true → ∃ t, go = .next t ∧
            t.net.inFlight = s.net.inFlight ++ [{ m with src := s.devAddr }] ∧ t.cells = s.cells ∧ t.mem = s.mem ∧
            t.evc = s.evc.modHart h.val (fun k => { k with sendAddr := adr, sendErr := k.sendErr && !w1c, busy := true })) ∧
          (UA.canonical m.dest = false → s.evc.hiq.flushing = false → ∃ t, go = .next t ∧
            t.net = s.net ∧ t.cells = s.cells ∧ t.evc.hiq.items = s.evc.hiq.items ++ (s.evc.hiq.inflow ++
              ({ m with src := s.devAddr, bounced := true, code := ccBadDesc } : Msg).items).take (1024 - s.evc.hiq.items.length))))) ∧
    (∀ i l, s.evc.hiq.items = i :: l → s.evc.hiq.flushing = false → ∃ t, exec (.evcHiqPop h) s = .next t ∧ OnlyEvc s t ∧
      t.evc.hiq.items = l ++ s.evc.hiq.inflow.take (1024 - l.length) ∧
      (t.evc.hart h.val).hiqHi = (QItem.words (some i)).2) ∧
    (∀ (base : Option Word) (w1c : BitVec 2) (a : WsAccess), let b := base.elim s.evc.obBase id
      let e : Evc := ({ s.evc with obBase := b } : Evc).clearGstat w1c
      let at? := s.hostRegion (0x2000000000000 + a.offset.toNat)
      (at? ≠ some .window → ∃ t, exec (.workstationWindowAccess h base w1c a) s = .next t ∧ t = { s with evc := e }) ∧
      (at? = some .window →
        (s.pcie.bme = false → ∃ t, exec (.workstationWindowAccess h base w1c a) s = .next t ∧ t = { s with evc := { e with bmoff := true } }) ∧
        (s.pcie.bme = true → (∀ o n w, a = .load o n w → ∃ t, exec (.workstationWindowAccess h base w1c a) s = .next t ∧
            t = { s with evc := e }) ∧
          (∀ o d, a = .store o d → ∃ t, exec (.workstationWindowAccess h base w1c a) s = .next t ∧ t.cells = s.cells ∧ t.evc = e ∧
            t.mem = { s.mem with wsMem := Memory.writeBytes s.mem.wsMem (b + o).toNat d }))))

/-- Doorbells move their indices, a value at or above the ring's size sets DBERR, and while the stream is disabled they change
nothing (R489), and the bits of DBERR and CFGERR that are written 1 clear (R5); a published tail counts, and is signalled by
COAL_CNT or by COAL_NS (R490, R491). A RESET of a stream makes the staged fields act and zeroes its indices, and its jobs write
no completion entry (R488); of a cell only the jobs' recorded cuts go (R252), and of memory only VALID of the references of
their layers (R395). A Function Level Reset does so for all streams, sets FLR and leaves the compute dies and device memory as
they are (R486). A vector that is masked or meets Bus Master Enable 0 sets its PBA bit and goes out later (R494). MSI-X masks
and Bus Master Enable after FLR are presumed (log 10). -/
def Obligations.StreamsAndEndpoint : Prop :=
  ∀ (s : State), s.hostUp = true → s.pinsHeld 0 = false →
    (∀ (st : Fin 8) (v : BitVec 16) (w1c : BitVec 4), let q := s.stream st.val
      let clear (q : Stream) : Stream := { q with dberr := q.dberr && !w1c.getLsbD 1, cfgerr := q.cfgerr && !w1c.getLsbD 2 }
      (q.enabled = false → exec (.sqTail st v w1c) s = .next (s.modStream st.val clear) ∧ exec (.cqHead st v) s = .next s) ∧
      (q.enabled = true → v.toNat < q.sqSize.toNat → s.frozen = false → ∃ t, exec (.sqTail st v w1c) s = .next t ∧
        t.stream st.val = { clear q with sqTail := v } ∧ t.cells = s.cells ∧ t.drv = s.drv ∧
        (t.evc.src (1 + st.val)).st = fired (s.evc.src (1 + st.val)).st) ∧
      (q.enabled = true → q.sqSize.toNat ≤ v.toNat → ∃ t, exec (.sqTail st v w1c) s = .next t ∧
        t.stream st.val = { clear q with dberr := true } ∧ t.evc = s.evc.fireStatus srcStream) ∧
      (q.enabled = true → v.toNat < q.cqSize.toNat → s.frozen = false → ∃ t, exec (.cqHead st v) s = .next t ∧
        t.stream st.val = { q with cqHead := v } ∧ t.cells = s.cells ∧ t.drv = s.drv ∧ (q.roomwait = false → t.evc = s.evc) ∧
        (q.roomwait = true → (t.evc.src (1 + st.val)).st = fired (s.evc.src (1 + st.val)).st)) ∧
      (q.enabled = true → v.toNat < q.cqSize.toNat → ∃ t, exec (.cqPublish st v) s = .next t ∧ t.cells = s.cells ∧
        t.drv = s.drv ∧ t.evc = s.evc ∧ (t.stream st.val).cqTail = v ∧
        (t.stream st.val).published = q.published + BitVec.ofNat 64 ((v.toNat + q.cqSize.toNat - q.cqTail.toNat) % q.cqSize.toNat)) ∧
      (∀ f, q.coalNs ≠ 0 → q.firstAt = some f → q.coalNs.toNat ≤ (s.runTime - f).toNat →
        ∃ t, exec (.coalesceTimeout st) s = .next t ∧ t.stream st.val = { q with unsig := 0, firstAt := none } ∧
          SMap.getD t.pcie.vecs q.vec.toNat {} = SMap.getD (s.pcie.vector q.vec.toNat).vecs q.vec.toNat {} ∧ t.evc = s.evc)) ∧
    (∀ (st : Fin 8) (w : StreamSetup), let ok := ringSizeOk w.sqSize && ringSizeOk w.cqSize
      ∃ t, exec (.streamReset st w) s = .next t ∧ ExceptCuts s t ∧ ExceptRefs s t ∧ t.mem.wsMem = s.mem.wsMem ∧
        (∀ j ∈ t.drv.jobs, j.stream = st.val → j.silent = true) ∧ (∀ x ∈ t.drv.queue, x.stream ≠ st.val) ∧
        let q := t.stream st.val
        q.sqBase = w.sqBase &&& ~~~(0x3F : Word) ∧ q.cqBase = w.cqBase &&& ~~~(0x7F : Word) ∧
        q.sqSize = (if ok then w.sqSize else 0) ∧ q.cqSize = (if ok then w.cqSize else 0) ∧ (ok = false → q.cfgerr = true) ∧
        q.sqTail = 0 ∧ q.cqHead = 0 ∧ q.sqHead = 0 ∧ q.cqTail = 0 ∧ q.phase = true ∧ q.unsig = 0 ∧ q.firstAt = none) ∧
    (∃ t, exec .functionLevelReset s = .next t ∧ ExceptCuts s t ∧ ExceptRefs s t ∧ t.mem.wsMem = s.mem.wsMem ∧ t.evc.flr = true ∧
      t.pcie.bme = false ∧ (∀ st : Fin 8, (t.stream st.val).enabled = false ∧ (t.stream st.val).vec = BitVec.ofNat 6 st.val) ∧
      (∀ j ∈ t.drv.jobs, j.stream < 8 → j.silent = true)) ∧
    (∀ v : Word, 8 ≤ fld v 5 0 → let x := SMap.getD s.pcie.vecs (fld v 5 0) {}
      ∃ t, exec (.evcMsixSend v) s = .next t ∧ t = { s with pcie := { s.pcie with vecs := t.pcie.vecs } } ∧
        SMap.getD t.pcie.vecs (fld v 5 0) {} = if x.masked || !s.pcie.bme then { x with pba := true } else { x with sent := x.sent + 1, pba := false }) ∧
    (∀ v : Fin 64, let x := SMap.getD s.pcie.vecs v.val {}
      ∃ t, exec (.msixVectorUnmask v) s = .next t ∧ t = { s with pcie := { s.pcie with vecs := t.pcie.vecs } } ∧
        (SMap.getD t.pcie.vecs v.val {}).masked = false ∧
        (s.pcie.bme = true → x.pba = true → (SMap.getD t.pcie.vecs v.val {}).sent = x.sent + 1) ∧
        (s.pcie.bme = false → SMap.getD t.pcie.vecs v.val {} = { x with masked := false })) ∧
    (∀ v : Bool, s.pcie.bme ≠ v → ∃ t, exec (.busMasterEnableChange v) s = .next t ∧ t.pcie.bme = v ∧
      t.pcie.streams = s.pcie.streams ∧ t.cells = s.cells ∧ t.evc = s.evc.fireStatus srcPcie ∧
      (v = true → ∀ x ∈ t.pcie.vecs, x.2.masked = false → x.2.pba = false)) ∧
    (∀ (r w : BitVec 8) (f : Bool), s.pwr.perstN = true → ∃ t, exec (.pcieLinkEvent (.up r w f)) s = .next t ∧
      t.pcie = { s.pcie with up := true, rate := r, width := w, flit := f } ∧ t.cells = s.cells ∧
      t.evc = s.evc.fireStatus srcPcie)

/-- A GO posts the mailbox's request, and one while BUSY is 1 only sets GOERR (R577). A read is answered with the value's bytes
and changes nothing (R571); one that fails a check is answered with the status of the check. A write replaces bytes of the value
and is answered OK, or changes nothing and is answered RANGE (R575). The order of the access checks is the model's (log 31). -/
def Obligations.DictionaryService : Prop :=
  ∀ (s : State),
    (s.hostUp = true →
      (s.dict.loc.busy = true → ∃ t, exec (.mbGo .loc .go) s = .next t ∧
        t = { s with dict := { s.dict with loc := { s.dict.loc with goerr := true } } }) ∧
      (s.dict.loc.busy = false → ∃ t, exec (.mbGo .loc .go) s = .next t ∧
        t = { s with dict := { s.dict with loc := { s.dict.loc with busy := true }, queue := s.dict.queue ++ [s.dict.loc.request .loc] } }) ∧
      (∀ o b, s.dict.loc.busy = true → ∃ t, exec (.mbGo .loc (.hdr o b)) s = .next t ∧
        t = { s with dict := { s.dict with loc := { s.dict.loc with goerr := true } } })) ∧
    (∀ r p n, Asks s .read r p n → let v := (taken s).readParam p n
      ∃ t, exec .dictionaryRead s = .next t ∧ Answers (taken s) r (if v.2 then dsMixed else dsOk) t ∧
        (r.path = .loc → t.dict.loc.busy = false ∧ t.dict.loc.done = true ∧
          ∀ i b, ((v.1.drop r.offset).take r.length)[i]? = some b → Memory.read t.dict.loc.data i = b)) ∧
    (∀ r p st, s.headReq .read = some r → (taken s).access r = .error (some p, st) →
      ∃ t, exec .dictionaryRead s = .next t ∧ Answers (taken s) r st t) ∧
    (∀ r p n, Asks s .write r p n →
      (∀ u, (taken s).writeParam r p n = some u → ∃ t, exec .dictionaryWrite s = .next t ∧ Answers u r dsOk t ∧
        (p.targets n = [n] → r.index ∉ [0x4800, 0x6000, 0x5820, 0xC100, 0x8000, 0xA000] → p.next = false →
          t.dict.raw ⟨n, r.index, p.sub⟩ = some (patch (p.val (taken s) n) r.offset r.value))) ∧
      ((taken s).writeParam r p n = none → ∃ t, exec .dictionaryWrite s = .next t ∧ Answers (taken s) r dsRange t))

/-- A staged value waits in its unit's stage buffer, which the first one fills with the acting values, while those stay (R563).
A COMMIT of 1 freezes the buffers of its units into one pending commit and leaves them empty (R564, R568); checked whole, one
that fails is answered COMMIT_REJECTED with its lowest failing subindex and changes nothing (R565), and one behind another waits
unchecked (R567). With nothing staged it is answered OK, any other value but 0 RANGE, and a 0 empties the buffers (R564). A
pending commit is applied at the instance's quiescent point and not before: then the staged values act, and a role takes a new
epoch (R55, R566). -/
def Obligations.CommitGroups : Prop :=
  ∀ (s : State),
    let stagesOnly (u : State) : Prop := u = { taken s with dict := { s.dict with queue := s.dict.queue.drop 1, stages := u.dict.stages } }
    (∀ r p n, Asks s .stage r p n → let asked (x : Nat × List Byte) := if x.1 = p.sub then (p.sub, r.value) else x
      ∃ t u, exec .rwcStageWrite s = .next t ∧ Answers u r dsOk t ∧ stagesOnly u ∧
        (∀ k ∈ p.targets n, ∃ l, t.dict.stage k r.index = some l ∧
          (∀ old, s.dict.stage k r.index = some old → l = old.map asked) ∧
          (s.dict.stage k r.index = none → (p.sub, r.value) ∈ l ∧ (∀ x ∈ l, x.1 = p.sub → x.2 = r.value) ∧
            (p.targets n = [n] → l = (rwcOf r.index).map (fun q => asked (q.sub, q.val (taken s) n))))) ∧
        ∀ k i, (i ≠ r.index ∨ k ∉ p.targets n) → t.dict.stage k i = s.dict.stage k i) ∧
    (∀ r p n, Asks s .commit r p n →
      let us := groupUnits r.index n
      let vals := us.filterMap (fun u => (s.dict.stage u r.index).map (fun v => (u, v)))
      let x : PendCommit := ⟨n, r.index, vals, r⟩
      let behind : Prop := ∃ c ∈ s.dict.commits, c.meets r.index us = true
      (r.num ≠ 1 → ∃ t, exec .commitGroup s = .next t ∧ Answers (taken s) r dsRange t) ∧
      (r.num = 1 → vals = [] → ∃ t, exec .commitGroup s = .next t ∧ Answers (taken s) r dsOk t) ∧
      (r.num = 1 → vals ≠ [] → ∃ t, exec .commitGroup s = .next t ∧ t.dict.params = s.dict.params ∧ t.cells = s.cells ∧
        (∀ u ∈ us, t.dict.stage u r.index = none) ∧
        (s.commitBad x = none ∨ behind → t.dict.commits = s.dict.commits ++ [x] ∧ t = { taken s with dict := t.dict }) ∧
        (∀ b, s.commitBad x = some b → ¬ behind → t.dict.commits = s.dict.commits ∧
          (∃ u ty, Answers u r dsRejected t ∧ stagesOnly u ∧ t = u.answer r dsRejected ty b []) ∧
          (∃ e ∈ vals, ∃ y ∈ e.2, y.1 = b ∧ s.rwcOk r.index e.1 e.2 y.1 y.2 = false) ∧
          ∀ e ∈ vals, ∀ y ∈ e.2, s.rwcOk r.index e.1 e.2 y.1 y.2 = false → b ≤ y.1))) ∧
    (∀ r p n, Asks s .discard r p n → ∃ t u, exec .commitDiscard s = .next t ∧ Answers u r dsOk t ∧ stagesOnly u ∧
      (∀ k ∈ groupUnits r.index n, t.dict.stage k r.index = none) ∧
      ∀ k i, (i ≠ r.index ∨ k ∉ groupUnits r.index n) → t.dict.stage k i = s.dict.stage k i) ∧
    (∀ (u : UnitAddr) (index : BitVec 16) x before, s.hostUp = true → UA.canonical u = true → s.local? u = true →
      s.dict.firstCommit (UA.key u) index.toNat = some (x, before) →
      (∀ c ∈ before, c.meets index.toNat (groupUnits index.toNat x.unit) = false) →
      let t0 := s.modDict (fun d => { d with commits := d.commits.erase x })
      let atRest : Prop := s.unitUp u = true ∧ s.quiescent (UA.cells u) = true
      (∀ b, s.commitBad x = some b → ∃ t, exec (.commitApply u index) s = .next t ∧ Answers t0 x.req dsRejected t) ∧
      (s.commitBad x = none → atQuiescence index.toNat = true → ¬ atRest → exec (.commitApply u index) s = .next s) ∧
      (s.commitBad x = none → (atQuiescence index.toNat = true → atRest) →
        ∃ t, exec (.commitApply u index) s = .next t ∧ Answers (t0.applyCommit x) x.req dsOk t ∧
          (x.index ∈ [0x2000, 0x2400, 0x3800, 0x4000, 0x5810] → t.cells = s.cells ∧ t.mem = s.mem ∧
            ∀ k l, x.vals = [(k, l)] → ∀ q ∈ rwcOf x.index, ∀ y, l.find? (fun y => decide (y.1 = q.sub)) = some y →
              t.dict.raw ⟨k, x.index, q.sub⟩ = some y.2) ∧
          (∀ sub set, (x.index, sub, set) ∈ cellGroups → (x.vals.map (fun e => cellOfKey e.1)).Nodup →
            (∀ e ∈ x.vals, ∀ y, e.2.find? (fun y => decide (y.1 = sub)) = some y →
              t.cell (cellOfKey e.1) = set (ofBytesLE y.2) (s.cell (cellOfKey e.1))) ∧
            ∀ c : CellIx, c ∉ x.vals.map (fun e => cellOfKey e.1) → t.cell c = s.cell c) ∧
          (x.index = 0x6800 → ∀ k l y, x.vals = [(k, l)] → l.find? (fun y => decide (y.1 = 0x03)) = some y →
            let w := UA.mk s.net.devId x.unit
            (∀ j ∈ UA.key w :: UA.below w, (t.unit j).role = BitVec.ofNat 8 (ofBytesLE y.2) ∧ (t.unit j).epoch = (s.unit j).epoch + 1) ∧
            ∀ j, j ∉ UA.key w :: UA.below w → t.unit j = s.unit j)))

/-- A Chamois request joins the service's queue, one answered before is answered again (R582), a malformed one counts, and an
answer or an ANNOUNCE of another device is no request (R581). A SOLICIT waits for its delay and its ANNOUNCE goes out (R584);
the end of address detection announces the device (R585); neighbour solicitations and echo requests are answered (R579). Nothing
but the network's part of the dictionary changes. The ICMPv6 messages above their checksum are presumed (log 32). -/
def Obligations.ManagementNetwork : Prop :=
  ∀ (s : State), s.hostUp = true →
    (∀ g : Datagram, let r : DictReq := ⟨.chamois g.addr g.port, g.bytes.take 32, g.bytes.drop 32⟩
      let d := s.dict
      d.dadState = 1 → ∃ t, exec (.chamoisDatagram g) s = .next t ∧ t = { s with dict := t.dict, evc := s.evc.fire 11 } ∧
        (chamoisAnswer r g.bytes.length = true → t.dict = { d with framesRx := d.framesRx + 1 }) ∧
        (chamoisAnswer r g.bytes.length = false → chamoisOk r g.bytes.length = false → t.dict = { d with framesRx := d.framesRx + 1, chamoisBad := d.chamoisBad + 1 }) ∧
        (∀ c, chamoisAnswer r g.bytes.length = false → chamoisOk r g.bytes.length = true →
          d.cache.find? (fun c => decide (c.1 = g.addr ∧ c.2.1 = g.port ∧ c.2.2.1.toNat = r.f 4 4)) = some c →
          t.dict = { d with framesRx := d.framesRx + 1, mgmtTx := d.mgmtTx ++ [⟨g.addr, g.port, c.2.2.2⟩], framesTx := d.framesTx + 1 }) ∧
        (chamoisAnswer r g.bytes.length = false → chamoisOk r g.bytes.length = true →
          d.cache.find? (fun c => decide (c.1 = g.addr ∧ c.2.1 = g.port ∧ c.2.2.1.toNat = r.f 4 4)) = none →
          d.queue.countP (fun q => q.path.isChamois) < 32 →
          t.dict = { d with framesRx := d.framesRx + 1, queue := d.queue ++ [r] })) ∧
    (∀ g : Datagram, s.dict.dadState = 1 → solicitOk ⟨.chamois g.addr g.port, g.bytes, []⟩ g.bytes.length = true → s.chamoisMode ≠ 0 →
      ∃ t, exec (.solicit g) s = .next t ∧ t = { s with dict := { s.dict with framesRx := s.dict.framesRx + 1, announces := s.dict.announces ++ [g] }, evc := s.evc.fire 11 }) ∧
    (∀ g l, s.dict.dadState = 1 → s.dict.announces = g :: l → ∃ t, exec .announceDelayExpiry s = .next t ∧
      t = { s with dict := { s.dict with announces := l, framesTx := s.dict.framesTx + 1, mgmtTx := s.dict.mgmtTx ++ [⟨g.addr, g.port, s.announceBytes g.bytes⟩] } }) ∧
    (s.dict.dadState = 0 →
      (∃ t, exec (.dadComplete true) s = .next t ∧ t = { s with dict := { s.dict with dadState := 2 } }) ∧
      (∃ t, exec (.dadComplete false) s = .next t ∧ t = { s with dict := { s.dict with dadState := 1, framesTx := s.dict.framesTx + 1, mgmtTx := s.dict.mgmtTx ++ [⟨multicastAll, 52411, s.announceBytes []⟩] } })) ∧
    (∀ (g : Datagram) (target : BitVec 128), target.toNat = ofBytesLE linkLocal.reverse → s.dict.dadState = 1 →
      ∃ t d, exec (.neighborSolicitation g target) s = .next t ∧ d.addr = g.addr ∧ d.bytes.take 1 = [136] ∧
        t = { s with dict := { s.dict with framesRx := s.dict.framesRx + 1, framesTx := s.dict.framesTx + 1, mgmtTx := s.dict.mgmtTx ++ [d] } }) ∧
    (∀ g : Datagram, s.dict.dadState = 1 → ∃ t, exec (.echoRequest g) s = .next t ∧
      t = { s with dict := { s.dict with framesRx := s.dict.framesRx + 1, framesTx := s.dict.framesTx + 1, mgmtTx := s.dict.mgmtTx ++ [⟨g.addr, 0, [129, 0, 0, 0] ++ g.bytes.drop 4⟩] } })

/-- A save writes the copy that is not acting, which acts once it is checked (R590, R591); RESTORE empties the image but for the
three ranges of R593. RETRAIN, ROUTES (R543), the grant (R725), LOST_RELEASE (R624), LINK_MODE and HOLD_PURGE (R546) act as they
are written, and an unnumbered device takes a valid DEV_ID (R541). Logs 29 and 31 name what the model fixes here. -/
def Obligations.StoreAndOwnWrites : Prop :=
  ∀ (s : State),
    (∀ r p n, Asks s .save r p n → r.num = 1 → ∃ t, exec .saveStore s = .next t ∧ Answers (taken s).startSave r dsOk t ∧
      t.dict.saving.isSome = true) ∧
    (s.hostUp = true → s.saveDue = true → ∃ t, exec .saveDelayExpiry s = .next t ∧ t.dict.saving = some s.storeCopy ∧
      t.dict.dirty = false ∧ t = { s with dict := t.dict }) ∧
    (∀ c, s.hostUp = true → s.dict.saving = some c → s.dict.saveNow = false →
      (∃ t, exec (.storeSaveComplete true) s = .next t ∧ t = { s with dict := t.dict } ∧ t.dict.saving = none ∧
        t.dict.saves = s.dict.saves + 1 ∧ (s.dict.acting = 0 → t.dict.storeB = some c ∧ t.dict.acting = 1 ∧ t.dict.storeA = s.dict.storeA) ∧
        (s.dict.acting ≠ 0 → t.dict.storeA = some c ∧ t.dict.acting = 0 ∧ t.dict.storeB = s.dict.storeB)) ∧
      (s.dict.saveRetry = true → ∃ t, exec (.storeSaveComplete false) s = .next t ∧
        t = { s with dict := { s.dict with saving := none, saveRetry := false, storeFails := s.dict.storeFails + 1, dirty := true } }) ∧
      (s.dict.saveRetry = false → ∃ t, exec (.storeSaveComplete false) s = .next t ∧
        t = { s with dict := { s.dict with saveRetry := true } })) ∧
    (∀ r p n, Asks s .restore r p n → r.num = 1 → ∃ t, exec .restoreStore s = .next t ∧ t.dict.params = s.dict.params ∧
      t.dict.image = s.dict.image.filter (fun x => keptRange x.1.index) ∧ t.dict.saving.isSome = true ∧ t.cells = s.cells) ∧
    (∀ r p n, Asks s .retrain r p n → s.net.exists? r.num = true → ∃ t, exec .retrain s = .next t ∧
      (t.net.link r.num).lanes = s.net.fullLanes r.num ∧ (t.net.link r.num).retraining = decide ((s.net.link r.num).st = .up) ∧
      (t.net.link r.num).st = (s.net.link r.num).st ∧ t.cells = s.cells ∧
      ((s.net.link r.num).lanes = s.net.fullLanes r.num → t.evc = s.evc) ∧
      ((s.net.link r.num).lanes ≠ s.net.fullLanes r.num → t.evc = s.evc.fireStatus srcCapacity)) ∧
    (∀ r p n, Asks s .routes r p n →
      (∀ u, (taken s).writeRoutes r = some u → ∃ t, exec .routesWrite s = .next t ∧ Answers u r dsOk t ∧ t.cells = s.cells) ∧
      ((taken s).writeRoutes r = none → ∃ t, exec .routesWrite s = .next t ∧ Answers (taken s) r dsRange t)) ∧
    (∀ r p n, Asks s .grant r p n → r.sub = 0x06 →
      (∀ m, s.mem.moveGrant r.num s.mem.appUnits = some m → ∃ t, exec .appGrantWrite s = .next t ∧
        Answers { taken s with mem := m } r dsOk t ∧ t.mem.appBase = r.num ∧ t.mem.appUnits = s.mem.appUnits) ∧
      (s.mem.moveGrant r.num s.mem.appUnits = none → ∃ t, exec .appGrantWrite s = .next t ∧ Answers (taken s) r dsRange t)) ∧
    (∀ r p n, Asks s .release r p n → ∃ t, exec .lostRelease s = .next t ∧
      (r.num ∉ s.mem.lost → Answers (taken s) r dsOk t) ∧
      (r.num ∈ s.mem.lost → t.mem.lost = s.mem.lost.erase r.num ∧ (SMap.getD t.mem.tags r.num 0).getLsbD 0 = true)) ∧
    (s.fabricUp = true → s.net.numbered = false → keptV 0x3000 0x02 0 s 0 = 1 → s.quiescent (List.range 512) = true →
      ∃ t, exec .devIdApply s = .next t ∧ t.net.numbered = true ∧ t.net.devId = BitVec.ofNat 16 (keptV 0x3000 0x01 0 s 0) ∧
        t.cells = s.cells ∧ t.mem = s.mem) ∧
    (∀ r p n, Asks s .linkMode r p n →
      (∀ u, (taken s).writeLinkMode r p n = some u → ∃ t, exec .linkModeWrite s = .next t ∧ Answers u r dsOk t) ∧
      ((taken s).writeLinkMode r p n = none → ∃ t, exec .linkModeWrite s = .next t ∧ Answers (taken s) r dsRange t)) ∧
    (∀ r p n, Asks s .purge r p n → ∃ t, exec .holdPurge s = .next t ∧
      t.net.heldPk = s.net.heldPk.filter (fun h => decide (h.1 ≠ r.num)) ∧
      t.net.heldPurged = s.net.heldPurged + BitVec.ofNat 64 (s.net.heldPk.countP (fun h => decide (h.1 = r.num))) ∧ t.cells = s.cells)

/-- A key is revoked unless no FW key would remain (R660); an image is staged, checked and written to the slot that is not
acting (R677); MR_EXTEND extends its register with SHAKE256 and the log (R666, R667); nonces are signed one at a time (R672,
R673); a challenge is fresh, and a signature that verifies sets DBG_AUTH while any consumes the challenge (R674). SHAKE256 is
presumed from its standard and SLH-DSA is open (log 13). -/
def Obligations.SecurityCommands : Prop :=
  ∀ (s : State),
    (∀ r p n, Asks s .revoke r p n →
      (∀ x, s.sec.revoke r.num = some x → ∃ t, exec .keyRevoke s = .next t ∧ Answers { taken s with sec := x } r dsOk t ∧
        (t.sec.key r.num).getLsbD 3 = true ∧ ∀ k, k ≠ r.num → t.sec.key k = s.sec.key k) ∧
      (s.sec.revoke r.num = none → ∃ t, exec .keyRevoke s = .next t ∧ Answers (taken s) r dsRange t)) ∧
    (∀ r p n, Asks s .fwStage r p n →
      (s.sec.fwState ≠ 2 → ∃ t, exec .fwStage s = .next t ∧ Answers { taken s with sec := { s.sec with fwStage := Memory.writeBytes s.sec.fwStage r.offset r.value, fwState := 1 } } r dsOk t) ∧
      (s.sec.fwState = 2 → ∃ t, exec .fwStage s = .next t ∧ Answers (taken s) r dsRange t)) ∧
    (∀ r p n, Asks s .fwCommit r p n → r.num = 1 → s.sec.fwState ≠ 2 →
      let i := s.sec.stagedSlot (s.sec.keeps.2.elim 0 (·.seq) + 1)
      ∃ t, exec .fwCommit s = .next t ∧ t.sec.fwStage = [] ∧ t.cells = s.cells ∧
        (s.sec.bootable i = true → t.sec.fwState = 2 ∧ t.sec.fwNext = some i ∧
          (s.sec.keeps.1 = 0 → t.sec.slotA = s.sec.slotA) ∧ (s.sec.keeps.1 ≠ 0 → t.sec.slotB = s.sec.slotB)) ∧
        (s.sec.bootable i = false → t.sec.fwState = 4 ∧ t.sec.slotA = s.sec.slotA ∧ t.sec.slotB = s.sec.slotB)) ∧
    (∀ r p n, Asks s .fwDiscard r p n → s.sec.fwState ≠ 2 → ∃ t, exec .fwDiscard s = .next t ∧
      Answers { taken s with sec := { s.sec with fwStage := [], fwState := 0 } } r dsOk t) ∧
    (∀ i, s.pwr.on = true → s.pwr.boot = .ready → s.dbg.fullFrozen = false → s.sec.fwNext = some i → s.sec.fwState = 2 →
      (∃ t, exec (.fwSlotWriteComplete true) s = .next t ∧ t = { s with sec := t.sec } ∧ t.sec.fwState = 3 ∧
        t.sec.bootSlot = s.sec.bootSlot ∧ (s.sec.keeps.1 = 0 → t.sec.slotB = some i ∧ t.sec.slotA = s.sec.slotA) ∧
        (s.sec.keeps.1 ≠ 0 → t.sec.slotA = some i ∧ t.sec.slotB = s.sec.slotB)) ∧
      (∃ t, exec (.fwSlotWriteComplete false) s = .next t ∧ t = { s with sec := t.sec } ∧ t.sec.fwState = 4)) ∧
    (∀ r p n, Asks s .extend r p n → r.offset = 0 → r.length = 33 → let i := ofBytesLE (r.value.take 1)
      (4 ≤ i → i ≤ 6 → ∃ t, exec .mrExtend s = .next t ∧ t.sec.mr i = shake256 (s.sec.mr i ++ r.value.drop 1) 64 ∧
        (∀ k, k ≠ i → t.sec.mr k = s.sec.mr k) ∧ t.cells = s.cells ∧
        (s.sec.log.length < 4096 → t.sec.log = s.sec.log ++ [⟨BitVec.ofNat 8 i, 4, r.value.drop 1⟩]) ∧
        (4096 ≤ s.sec.log.length → t.sec.log = s.sec.log ∧ t.sec.logFull = true)) ∧
      (i < 4 ∨ 6 < i → ∃ t, exec .mrExtend s = .next t ∧ Answers (taken s) r dsRange t)) ∧
    (∀ r p n, Asks s .nonce r p n → r.offset = 0 → r.length = 32 → ∃ t, exec .quoteNonce s = .next t ∧
      Answers { taken s with sec := t.sec } r dsOk t ∧
      (s.sec.akCert = true → s.sec.quoteState = 1 → t.sec = { s.sec with held := some r.value }) ∧
      (s.sec.akCert = true → s.sec.quoteState ≠ 1 → t.sec = { s.sec with nonce := r.value, quoteState := 1 }) ∧
      (s.sec.akCert = false → t.sec = { s.sec with nonce := r.value, quoteState := 3 })) ∧
    (s.hostUp = true → s.sec.quoteState = 1 → ∃ t, exec .quoteSigned s = .next t ∧ t.sec.quote = s.quote ∧ t.cells = s.cells ∧
      (s.sec.held = none → t.sec.quoteState = 2) ∧
      (∀ v, s.sec.held = some v → t.sec.quoteState = 1 ∧ t.sec.nonce = v ∧ t.sec.held = none)) ∧
    (s.hostUp = true → s.sec.akCert = false → ∃ t, exec .akCertSigned s = .next t ∧
      t = { s with sec := { s.sec with akCert := true, quoteState := if s.sec.quoteState = 3 then 1 else s.sec.quoteState } }) ∧
    (∀ r p n, Asks s .challenge r p n → ∃ t c, exec .dbgChallenge s = .next t ∧ t.sec = { s.sec with challenge := some c } ∧
      c.length = 32 ∧ t.dbg = s.dbg ∧ t.cells = s.cells) ∧
    (∀ r p n, Asks s .response r p n → r.offset = 0 → r.length = 29792 → ∃ t, exec .dbgResponse s = .next t ∧
      t.sec.challenge = none ∧ t.cells = s.cells ∧
      (s.sec.unlocks r.value = true → t.dbg = { s.dbg with auth := true, authEver := true } ∧
        t.sec.mr 7 = shake256 (s.sec.mr 7 ++ digest (s.sec.challenge.getD [])) 64) ∧
      (s.sec.unlocks r.value = false → t.dbg = s.dbg ∧ t.sec = { s.sec with challenge := none }))

/-- A write of 1 to SNAP_GO starts a wave at a free root of this device and is RANGE otherwise (R633); a write of 2 abandons it
(R634). The first arrival of a wave at a node latches its counters and its time, a later one only ends what its channel owes
(R635, R636). A child's report of the wave that the node has latched is folded in once, and any other is discarded (R639). Log
33 names what the model fixes here. -/
def Obligations.Snapshots : Prop :=
  ∀ (s : State),
    (∀ r p n, Asks s .snapGo r p n → let root := s.dbg.snapRoot.getD s.devAddr
      (r.num = 1 → UA.canonical root = true → s.local? root = true → s.dbg.snapDone = true →
        ∃ t, exec .snapGoStart s = .next t ∧ t.cells = s.cells ∧ t.units = s.units ∧
          t.dbg = { s.dbg with snapNum := s.dbg.snapNum + 1, snapDone := false, snapAbandoned := false } ∧
          t.net.waves = s.net.waves ++ [(UA.key root, .host, ⟨s.net.devId, s.dbg.snapNum + 1, s.dbg.snapLinks, root⟩)] ∧
          (∀ m, m ∈ t.net.ahead ↔ m ∈ s.net.inFlight ∧ s.local? m.src = true ∧ UA.depth m.src = 0)) ∧
      ((UA.canonical root && s.local? root && s.dbg.snapDone) = false →
        ∃ t, exec .snapGoStart s = .next t ∧ Answers (taken s) r dsRange t)) ∧
    (∀ r p n, Asks s .snapStop r p n → ∃ t, exec .snapGoAbandon s = .next t ∧ t.cells = s.cells ∧ t.units = s.units ∧
      (s.dbg.snapDone = false → t.dbg = { s.dbg with snapDone := true, snapAbandoned := true }) ∧
      (s.dbg.snapDone = true → t.dbg = s.dbg)) ∧
    (∀ (u : UnitAddr) (ch : Chan) (w : Wave), s.local? u = true → s.unitUp u = true → (UA.key u, ch, w) ∈ s.net.waves →
      let k := UA.key u
      let h := (s.unit k).shadow
      let s1 : State := { s with net := { s.net with waves := s.net.waves.erase (k, ch, w) } }
      (s.waveBehind k w = true → ∃ t, exec (.waveArrival u ch w) s = .next t ∧ t = s) ∧ (s.waveBehind k w = false →
      (s.inScope k (s.waveRoot w) = false → ∃ t, exec (.waveArrival u ch w) s = .next t ∧ t = s1) ∧
      (s.inScope k (s.waveRoot w) = true → ¬ (h.state ≠ 0 ∧ h.origin = w.origin ∧ h.num = w.num) →
        ∃ t, exec (.waveArrival u ch w) s = .next t ∧ t.cells = s.cells ∧ t.mem.mem = s.mem.mem ∧
          (t.unit k).shadow.origin = w.origin ∧ (t.unit k).shadow.num = w.num ∧ (t.unit k).shadow.vals = s1.latch k ∧
          (t.unit k).shadow.time = s.nodeTime k ∧ (t.unit k).shadow.root = s.waveRoot w ∧
          (t.unit k).shadow.pending = (s1.waveInputs k w (s.waveRoot w)).erase ch ∧
          ((t.unit k).shadow.state = 1 ∨ (t.unit k).shadow.state = 2)) ∧
      (s.inScope k (s.waveRoot w) = true → h.state ≠ 0 → h.origin = w.origin → h.num = w.num →
        ∃ t, exec (.waveArrival u ch w) s = .next t ∧ t.cells = s.cells ∧ (t.unit k).shadow.vals = h.vals ∧
          (t.unit k).shadow.time = h.time ∧ (t.unit k).shadow.pending = h.pending.erase ch))) ∧
    (∀ (m : Msg), s.requestOk m 0x09 = true → UA.key m.src ∈ UA.children m.dest → s.local? m.src = true →
      let k := UA.key m.dest
      let h := (s.unit k).shadow
      (h.state = 1 → h.origin.toNat = m.fld 0 15 0 → h.num.toNat = m.fld 0 47 16 → UA.key m.src ∉ h.kids →
        (UA.key h.root ≠ k ∨ s.dbg.snapAbandoned = false) →
        ∃ t, exec (.snapshotReport m) s = .next t ∧ t.cells = s.cells ∧ (t.unit k).shadow.vals = foldVals h.vals (reportVals m) ∧
          (t.unit k).shadow.kids = h.kids ++ [UA.key m.src]) ∧
      (h.state ≠ 1 ∨ h.origin.toNat ≠ m.fld 0 15 0 ∨ h.num.toNat ≠ m.fld 0 47 16 ∨ UA.key m.src ∈ h.kids →
        ∃ t, exec (.snapshotReport m) s = .next t ∧ t.cells = s.cells ∧ (t.unit k).shadow = h))

/-- A fabric freeze is asked for by a write of 1 and ends by a write of 0, a full freeze by FREEZE_N (R643, R645). The freeze
that is reached is the full one where both are asked for, and after it the fabric freeze stands (R646). A debug read returns the
bytes of its cell, DENIED outside a fabric freeze or without DBG_AUTH, and RANGE past the end of its space (R647). -/
def Obligations.Freezes : Prop :=
  ∀ (s : State),
    (∀ r p n, Asks s .freeze r p n →
      (r.num = 1 → ∃ t, exec .fabricFreezeRequest s = .next t ∧ Answers { taken s with dbg := { s.dbg with fabricReq := true } } r dsOk t) ∧
      (r.num ≠ 1 → ∃ t, exec .fabricFreezeRequest s = .next t ∧ Answers (taken s) r dsRange t)) ∧
    (∀ r p n, Asks s .thaw r p n → s.dbg.fullFrozen = false → s.dbg.doorWait = [] → s.dbg.barWait = [] →
      ∃ t, exec .fabricFreezeEnd s = .next t ∧
        Answers { taken s with dbg := { s.dbg with fabricReq := false, fabricFrozen := false } } r dsOk t) ∧
    (s.up = true →
      (s.dbg.fullReq = true → s.dbg.fullFrozen = false → s.lowLong = true → ∃ t, exec .freezeReached s = .next t ∧
        t = { s with dbg := { s.dbg with fullFrozen := true, fullDebug := s.dbg.auth, freezeAt := s.timeHost, freezes := s.dbg.freezes + 1 } }) ∧
      (s.dbg.fullReq = false → s.dbg.fabricReq = true → s.dbg.fabricFrozen = false → ∃ t, exec .freezeReached s = .next t ∧
        t = { s with dbg := { s.dbg with fabricFrozen := true, freezeAt := s.timeHost, freezes := s.dbg.freezes + 1 } })) ∧
    (∃ t, exec .freezeNAssert s = .next t ∧
      t = { s with pwr := { s.pwr with freezeN := false }, dbg := { s.dbg with
        fullReq := s.dbg.fullReq || s.up, lowAt := if s.pwr.freezeN then s.timeHost else s.dbg.lowAt } }) ∧
    (s.dbg.doorWait = [] → s.dbg.barWait = [] → ∃ t, exec .freezeNDeassert s = .next t ∧
      t = { s with pwr := { s.pwr with freezeN := true }, dbg := { s.dbg with fullReq := false, fullFrozen := false, fullDebug := false, fabricFrozen := s.dbg.fabricFrozen || (s.dbg.fullFrozen && s.dbg.fabricReq) } }) ∧
    (∀ r p n, Asks s .dbgData r p n → let u := s.dbg.unit
      ((s.dbg.fabricFrozen && s.dbg.auth) = false → ∃ t, exec .dbgDataRead s = .next t ∧ Answers (taken s) r dsDenied t) ∧
      (s.dbg.fabricFrozen = true → s.dbg.auth = true →
        (¬ (UA.canonical u = true ∧ UA.depth u = 5 ∧ s.local? u = true) ∨ debugSize s.dbg.space.toNat < s.dbg.offset.toNat + 4096 →
          ∃ t, exec .dbgDataRead s = .next t ∧ Answers (taken s) r dsRange t) ∧
        (UA.canonical u = true → UA.depth u = 5 → s.local? u = true → s.dbg.offset.toNat + 4096 ≤ debugSize s.dbg.space.toNat →
          ∃ t, exec .dbgDataRead s = .next t ∧ Answers (taken s) r dsOk t ∧
            (r.path = .loc → ∀ i, i < r.length → Memory.read t.dict.loc.data i =
              s.debugByte (cellIx (UA.index u)) s.dbg.space.toNat (s.dbg.offset.toNat + r.offset + i)))))

/-- A TAP takes its instruction and captures what Table 18-8 gives: IDCODE, FRZ_STATUS, the bypass bit (R650, R651). EXTEST,
CLAMP and HIGHZ hold the pins, and the links of the die drop as if their cables were pulled (R654). DBG_ACCESS reads eight bytes
of a cell of its die while a full freeze that began with DBG_AUTH holds, and reports ERR otherwise (R652). What IEEE 1149.1
fixes is presumed (log 37). -/
def Obligations.TestAccessPorts : Prop :=
  ∀ (s : State), s.pwr.on = true →
    (∃ t, exec .tapReset s = .next t ∧ (∀ i : Fin 3, (t.dbg.tap i.val).instr = 0x01) ∧
      t = { s with dbg := { s.dbg with tap0 := t.dbg.tap0, tap1 := t.dbg.tap1, tap2 := t.dbg.tap2 } }) ∧
    (∀ (i : Fin 3) (opc : BitVec 8), tapKnown i.val opc = false → ∃ t, exec (.bypassTap i opc) s = .next t ∧
      t = s.modTap i.val (fun t => { t with instr := opc, capture := 0 })) ∧
    (∀ (i : Fin 3), ∃ t, exec (.idcodeTap i) s = .next t ∧ t = s.modTap i.val (fun t => { t with instr := 0x01, capture := idcode i.val })) ∧
    (∀ (i : Fin 3), ∃ t, exec (.frzStatus i) s = .next t ∧
      t = s.modTap i.val (fun t => { t with instr := 0x10, capture := s.dbg.frzStatus })) ∧
    (∀ (i : Fin 3) (b : List Bool), ∃ t, exec (.samplePreload i b) s = .next t ∧
      t = s.modTap i.val (fun t => { t with instr := 0x02, boundary := b })) ∧
    (∀ (i : Fin 3) (c : Instr) (opc : BitVec 8),
      (c, opc) ∈ [(Instr.extest i, (0x00 : BitVec 8)), (.clampTap i, 0x04), (.highzTap i, 0x05), (.extestPulse i, 0x06), (.extestTrain i, 0x07)] →
      ∃ t, exec c s = .next t ∧ (t.dbg.tap i.val).instr = opc ∧ (opc = 0x04 ∨ opc = 0x05 → (t.dbg.tap i.val).capture = 0) ∧
        t.cells = s.cells ∧ t.dict = s.dict ∧
        (i.val = 0 → t.pcie = { s.pcie with up := false } ∧ t.net = s.net) ∧
        (i.val ≠ 0 → t.pcie = s.pcie ∧ ∀ l ∈ t.net.links, l.1 / 16 = i.val - 1 → l.2.st ≠ .up ∧ l.2.lock = false)) ∧
    (∀ (i : Fin 3) (dr : BitVec 168), i.val ≠ 0 → let u : UnitAddr := (dr >>> 64).setWidth 64
      let c := cellIx (UA.index u)
      let o := 8 * fld dr 159 136
      (dr.getLsbD 160 = false → ∃ t, exec (.dbgAccess i dr) s = .next t ∧
        t = s.modTap i.val (fun t => { t with instr := 0x11, capture := t.access })) ∧
      (dr.getLsbD 160 = true → (s.dbg.fullFrozen && s.dbg.fullDebug) = false → ∃ t, exec (.dbgAccess i dr) s = .next t ∧
        t = s.modTap i.val (fun t => { t with instr := 0x11, capture := t.access, dbgDone := true, dbgErr := true, dbgData := 0 })) ∧
      (dr.getLsbD 160 = true → s.dbg.fullFrozen = true → s.dbg.fullDebug = true → UA.canonical u = true → UA.depth u = 5 →
        s.local? u = true → CellIx.die c = i.val - 1 → o + 8 ≤ debugSize (fld dr 135 128) →
        ∃ t, exec (.dbgAccess i dr) s = .next t ∧
          t = s.modTap i.val (fun t => { t with instr := 0x11, capture := t.access, dbgDone := true, dbgErr := false, dbgData := BitVec.ofNat 64 (ofBytesLE (s.debugBytes c (fld dr 135 128) o 8)) })))

/-- A bad flit is counted and asks for a replay once (R527, R531). A DATA flit or ABORT is taken in SEQ order only, and leaves a
gap otherwise (R531); IDLE only reports; the first HELLO brings the link UP with its partner, and with an AUTO route where none
is written (R538, R543); DEGRADE halves the lanes, or takes a 1-lane link down (R533). A frame of Ethernet mode counts as one
bad flit when it is malformed, and gives its flits otherwise (R536). Logs 17 and 34 name what the model fixes here. -/
def Obligations.FlitsThatArrive : Prop :=
  ∀ (s : State) (l : Fin 32), s.linkWired l.val = true → let k := s.net.link l.val
    let bad : State := { s with net := { s.net.setLink l.val (if k.nakOpen then k else { k with nakOpen := true, nakSend := true }) with badFlits := s.net.badFlits + 1 } }
    (∀ b, k.mode = 1 → k.lock = true → let s1 := s.passRx l.val b
      let bad : State := { bad with net := { bad.net with serRx := s1.net.serRx } }
      (flitOk b = false → ∀ c ∈ [Instr.dataFlit l b, .abortFlit l b, .idleFlit l b, .helloFlit l b, .degradeFlit l b],
        ∃ t, exec c s = .next t ∧ t = bad) ∧
      (∀ c, FlitOf l b c → flitOk b = true →
        let seq : BitVec 12 := BitVec.ofNat 12 (flitFld b 21 10)
        let f : RxFlit := ⟨flitItems b, flitAbort b⟩
        (flitType b = 1 → k.st = .up → k.dup = false → k.retraining = false → seq = k.rxSeq + 1 →
          ∃ t, exec c s = .next t ∧ OnlySends (s1.modLink l.val (fun k => { k with rxSeq := seq, rxAny := true, nakOpen := false, rx0 := (if flitFld b 4 4 = 1 then k.rx0 else k.rx0 ++ [f]), rx1 := (if flitFld b 4 4 = 1 then k.rx1 ++ [f] else k.rx1) })) t) ∧
        (flitType b = 1 → k.st = .up → k.dup = false → k.retraining = false → seq ≠ k.rxSeq + 1 →
          ∃ t, exec c s = .next t ∧ OnlySends (s1.modLink l.val (fun k => { k with nakOpen := true })) t) ∧
        (flitType b = 1 → (k.st ≠ .up ∨ k.dup = true ∨ k.retraining = true) → ∃ t, exec c s = .next t ∧ t = s1) ∧
        (flitType b = 2 → ∃ t, exec c s = .next t ∧ OnlySends s1 t) ∧
        (flitType b = 3 → k.st = .absent → s.linkMode l.val ≠ 0 → ∃ t, exec c s = .next t ∧
          (t.net.link l.val).st = .up ∧ (t.net.link l.val).partner = some (helloPartner b) ∧
          (t.net.link l.val).mode = BitVec.ofNat 8 (s.linkMode l.val) ∧ (t.net.link l.val).lastHello = s.linkTime l.val ∧
          t.cells = s.cells ∧ t.mem = s.mem ∧
          ((helloPartner b).unnum = false → (s.net.entry (helloPartner b).devid).toNat % 16 = 15 →
            t.net.entry (helloPartner b).devid = BitVec.ofNat 16 (l.val / 4 + l.val % 4 * 16 + 0x2000))) ∧
        (flitType b = 3 → k.st = .up → k.partner.elim false (fun q => decide (q.serial = (helloPartner b).serial)) = true →
          ∃ t, exec c s = .next t ∧ (t.net.link l.val).st = .up ∧ (t.net.link l.val).partner = some (helloPartner b) ∧
            (t.net.link l.val).lastHello = s.linkTime l.val ∧ t.cells = s.cells ∧ t.mem = s.mem ∧ t.net.routes = s.net.routes) ∧
        (flitType b = 4 → k.st = .up → k.retraining = false → 1 < k.lanes → ∃ t, exec c s = .next t ∧
          (t.net.link l.val).lanes = k.lanes / 2 ∧ (t.net.link l.val).retraining = true ∧ (t.net.link l.val).st = .up ∧
          t.net.degrades = s.net.degrades + 1 ∧ t.evc = s.evc.fireStatus srcCapacity ∧ t.cells = s.cells) ∧
        (flitType b = 4 → k.st = .up → k.retraining = false → k.lanes ≤ 1 → ∃ t, exec c s = .next t ∧
          (t.net.link l.val).st = .down ∧ (t.net.link l.val).lock = false ∧ t.cells = s.cells))) ∧
    (∀ (f : List Byte), k.mode = 2 → ofBytesLE (f.take 6).reverse = linkMac l.val →
      (∃ t, exec (.ethFrame l f false) s = .next t ∧ t = bad) ∧
      (∀ n b, s.peerMac l.val = ofBytesLE ((f.drop 6).take 6).reverse → s.peerMac l.val ≠ 0 → (f.drop 12).take 2 = [0x88, 0xB5] →
        ofBytesLE ((f.drop 14).take 1) = 1 → ofBytesLE ((f.drop 15).take 7) = 0 → f.length = 278 → b = (f.drop 22).take 256 → n = 1 →
        ∃ t, exec (.ethFrame l f true) s = .next t ∧ (flitOk b = false → t = bad) ∧
          (flitOk b = true → flitType b = 2 → OnlySends s t)))

/-- Held flits go again when no acknowledgement comes (R532). A HELLO carries its number and is due again in 1 ms (R537);
without one for 3.5 ms the partner is gone (R539). A lost flit lock takes the link down except in a retrain (R525); lanes that
fail halve it (R533); a retrain ends with a replay or DOWN (R534); a cable change loses the lock of its port's links (R702).
Logs 17 and 34 name what the model fixes here. -/
def Obligations.LinkEvents : Prop :=
  ∀ (s : State) (l : Fin 32), let k := s.net.link l.val
    (s.linkWired l.val = true → k.sends = true → k.held ≠ [] → s.retryNs l.val ≠ 0 → s.retryNs l.val ≤ (s.linkTime l.val - k.lastAck).toNat →
      s.frozen = false → ∃ t, exec (.replayTimeout l) s = .next t ∧ OnlySends s t ∧ (t.net.link l.val).held = k.held ∧
        (t.net.link l.val).lastAck = s.linkTime l.val ∧ t.net.replays = s.net.replays + BitVec.ofNat 64 k.held.length ∧
        t.net.flitsTx = s.net.flitsTx + BitVec.ofNat 64 k.held.length) ∧
    (s.linkWired l.val = true → k.lock = true → k.mode = 1 → k.st ≠ .off → (k.helloDue = true ∨ 1000000 ≤ (s.linkTime l.val - k.helloAt).toNat) →
      ∃ t, exec (.helloSend l) s = .next t ∧ (t.net.link l.val).hseq = k.hseq + 1 ∧ (t.net.link l.val).helloDue = false ∧
        (t.net.link l.val).helloAt = s.linkTime l.val ∧ (t.net.link l.val).out = k.flit 3 (s.helloBytes l.val) ∧
        (t.net.link l.val).held = k.held ∧ t.cells = s.cells) ∧
    (s.up = true → (k.st = .up ∨ k.st = .down) → 3500000 ≤ (s.linkTime l.val - k.lastHello).toNat →
      ∃ t, exec (.helloTimeout l) s = .next t ∧ (t.net.link l.val).st = .absent ∧ (t.net.link l.val).partner = none ∧
        (t.net.link l.val).held = [] ∧ (t.net.link l.val).q0 = [] ∧ (t.net.link l.val).q1 = [] ∧ t.cells = s.cells ∧ t.sync = s.sync) ∧
    (s.up = true → k.lock = true → ∃ t, exec (.flitLockLost l) s = .next t ∧
      t = s.modLink l.val (fun k => { k with lock := false, st := if k.st = .up ∧ k.retraining = false then .down else k.st })) ∧
    (s.linkWired l.val = true → k.mode = 1 → k.st ≠ .off → k.lock = false → ∃ t, exec (.flitLockAcquired l) s = .next t ∧
      t = s.modLink l.val (fun k => { k with lock := true })) ∧
    (∀ n, s.linkWired l.val = true → k.mode = 1 → k.st = .up → k.retraining = false → s.laneFails n = true →
      (1 < k.lanes → ∃ t, exec (.laneDegrade l k.lanes n) s = .next t ∧ (t.net.link l.val).lanes = k.lanes / 2 ∧
        (t.net.link l.val).retraining = true ∧ t.net.degrades = s.net.degrades + 1 ∧ t.evc = s.evc.fireStatus srcCapacity) ∧
      (k.lanes ≤ 1 → ∃ t, exec (.laneDegrade l k.lanes n) s = .next t ∧ (t.net.link l.val).st = .down ∧ (t.net.link l.val).lock = false)) ∧
    (s.linkWired l.val = true → k.retraining = true →
      (∃ t, exec (.linkRetrainComplete l true) s = .next t ∧ t.evc = s.evc.fireStatus srcLink ∧ (t.net.link l.val).retraining = false ∧
        (t.net.link l.val).lock = true ∧ (t.net.link l.val).st = k.st ∧ t.cells = s.cells ∧ t.mem = s.mem) ∧
      (∃ t, exec (.linkRetrainComplete l false) s = .next t ∧
        t = s.modLink l.val (fun k => { k with retraining := false, lock := false, st := .down }))) ∧
    (∀ (p : Fin 8) (c : Cable), ∃ t, exec (.cableChange p c) s = .next t ∧ SMap.getD t.net.cables p.val .absent = c ∧
      t.net.links = s.net.links.map (fun x => (x.1, if x.1 / 4 = p.val then { x.2 with lock := false, st := if x.2.st = .up ∧ x.2.retraining = false then .down else x.2.st } else x.2)) ∧
      t.cells = s.cells)

/-- The oldest flit of a receive buffer moves on: the first item of a packet into the arrival buffer of its die, onto the link
of its route or into held storage, or it waits for room (R540, R545, R546); more of a packet joins what stands before it; an
ABORT ends it (R539); a WAVE goes on with its second copy (R637). A packet that has arrived whole becomes a message, and one
that was aborted is discarded and counted (R540). Packets that are held for a device leave in order once its entry gives a
usable link (R546). Logs 16 and 34 name what the model fixes here. -/
def Obligations.PacketsOnTheirWay : Prop :=
  ∀ (s : State),
    (∀ (l : Fin 32) (vc : Fin 2), s.dieUp (linkDie l.val) = true → s.net.numbered = true →
      let v := decide (vc.val = 1)
      let d := linkDie l.val
      let k := s.net.link l.val
      let rx (n : Net) (v : Bool) : List RxFlit := if v then (n.link l.val).rx1 else (n.link l.val).rx0
      let leaves (t : State) (r : List RxFlit) : Prop := exec (.packetForward l vc) s = .next t ∧ rx t.net v = r ∧
        rx t.net (!v) = rx s.net (!v) ∧ t.cells = s.cells ∧ t.net.inFlight = s.net.inFlight
      let adds (t : State) (i : Option QItem) : Prop := (∀ e, t.net.arrive e = (s.net.arrive e).map (Packet.more (l.val, v) i)) ∧
        t.net.heldPk = s.net.heldPk.map (fun h => (h.1, Packet.more (l.val, v) i h.2)) ∧ t.net.forwarded = s.net.forwarded ∧ t.mem = s.mem
      (rx s.net v = [] → ∃ t, exec (.packetForward l vc) s = .next t ∧ OnlySends s t) ∧
      (∀ f rest, rx s.net v = f :: rest →
        (f.items = [] → f.abort = true → ∃ t, leaves t rest ∧ adds t none ∧ (t.net.link l.val).mid v = false) ∧
        (∀ i, f.items = [i] → f.abort = false →
          let p : Packet := ⟨[i], false, if i.eop then none else some (l.val, v)⟩
          let w : Wave := ⟨i.payload.setWidth 16, (i.payload >>> 16).setWidth 32, i.payload.getLsbD 48, (i.payload >>> 56).setWidth 64⟩
          (i.kind = 0x3E → ∃ t, leaves t rest ∧ t.mem = s.mem ∧ t.net.heldPk = s.net.heldPk ∧
            ((l.val, w) ∈ (if v then s.net.wave0 else s.net.wave1) → t.net.waves = s.net.waves ++ [(0, .link l, w)]) ∧
            ((l.val, w) ∉ (if v then s.net.wave0 else s.net.wave1) → t.net.waves = s.net.waves ∧
              (if v then t.net.wave1 else t.net.wave0) = (if v then s.net.wave1 else s.net.wave0) ++ [(l.val, w)])) ∧
          (i.kind ≠ 0x3E → k.mid v = true → ∃ t, leaves t rest ∧ adds t (some i) ∧ (t.net.link l.val).mid v = !i.eop) ∧
          (i.kind ≠ 0x3E → k.mid v = false → p.dest = s.net.devId →
            (((s.net.arrive d).map (fun p => p.items.length)).sum < arriveRoom → ∃ t, leaves t rest ∧
              t.net.arrive d = s.net.arrive d ++ [p] ∧ t.net.forwarded = s.net.forwarded ∧ t.mem = s.mem ∧ (t.net.link l.val).mid v = !i.eop) ∧
            (arriveRoom ≤ ((s.net.arrive d).map (fun p => p.items.length)).sum → ∃ t, leaves t (f :: rest) ∧
              t.net.arrive d = s.net.arrive d ∧ t.mem = s.mem)) ∧
          (i.kind ≠ 0x3E → k.mid v = false → p.dest ≠ s.net.devId →
            (∀ j, s.net.route p.dest = some j → (∀ h ∈ s.net.heldPk, h.1 ≠ p.dest.toNat) → ∃ t, leaves t rest ∧
              t.net.forwarded = s.net.forwarded + 1 ∧ t.net.heldPk = s.net.heldPk ∧ t.mem = s.mem ∧
              ((s.net.link j).sends = false → (if v then (t.net.link j).q1 else (t.net.link j).q0) = (if v then (s.net.link j).q1 else (s.net.link j).q0) ++ [p])) ∧
            (s.net.route p.dest = none ∨ (∃ h ∈ s.net.heldPk, h.1 = p.dest.toNat) →
              (∀ m, s.mem.allocHold d p.dest.toNat 1 = some m → ∃ t, leaves t rest ∧ t.net.forwarded = s.net.forwarded + 1 ∧
                t.net.heldPk = s.net.heldPk ++ [(p.dest.toNat, p)] ∧ t.mem = m) ∧
              (s.mem.allocHold d p.dest.toNat 1 = none → ∃ t, leaves t (f :: rest) ∧ t.net.heldPk = s.net.heldPk ∧ t.mem = s.mem)))))) ∧
    (∀ (d : Fin 2), s.dieUp d.val = true → s.net.numbered = true →
      ((s.net.arrive d.val).find? (fun p => decide (p.src = none)) = none → ∃ t, exec (.arrivalBufferDeliver d) s = .next t ∧ t = s) ∧
      (∀ p, (s.net.arrive d.val).find? (fun p => decide (p.src = none)) = some p →
        (p.aborted = true → ∃ t, exec (.arrivalBufferDeliver d) s = .next t ∧
          t = { s with net := { s.net.setArrive d.val ((s.net.arrive d.val).erase p) with aborted := s.net.aborted + 1 } }) ∧
        (∀ m, p.aborted = false → Msg.ofItems p.items = some m → ∃ t, exec (.arrivalBufferDeliver d) s = .next t ∧
          t.net.arrive d.val = (s.net.arrive d.val).erase p ∧ t.net.inFlight = s.net.inFlight ++ [m] ∧ t.net.aborted = s.net.aborted ∧
          t.net.links = s.net.links ∧ t.cells = s.cells ∧ t.units = s.units ∧ t.mem = s.mem))) ∧
    (∀ (dest : BitVec 16), s.fabricUp = true →
      let mine := s.net.inFlight.filter (fun m => decide (UA.device m.dest = dest))
      let gone := s.net.heldPk.filter (fun h => decide (h.1 = dest.toNat))
      (s.net.route dest = none → (mine = [] ∨ dest = s.net.devId) → ∃ t, exec (.heldPacketRelease dest) s = .next t ∧ t = s) ∧
      (∀ j, s.net.route dest = some j → dest ≠ s.net.devId → ∃ t, exec (.heldPacketRelease dest) s = .next t ∧
        t.net.heldPk = s.net.heldPk.filter (fun h => decide (h.1 ≠ dest.toNat)) ∧ t.mem = s.mem.releaseUse (.hold dest.toNat) ∧
        t.net.inFlight = s.net.inFlight.filter (fun m => decide (UA.device m.dest ≠ dest)) ∧
        t.cells = s.cells ∧ (∀ i, i ≠ j → t.net.link i = s.net.link i) ∧
        ((s.net.link j).sends = false → let ps := gone.map (fun h => h.2) ++ mine.map (fun m => ⟨m.items, false, none⟩)
          (t.net.link j).q0 = (s.net.link j).q0 ++ ps.filter (fun p => !p.vc1) ∧
          (t.net.link j).q1 = (s.net.link j).q1 ++ ps.filter (fun p => p.vc1))))

/-- Every shutdown of Table 21-4 takes the rails off and records its cause, and a trip or over-voltage latches the module off
until the input is restored (R694, R708, R712). The rails ramp only with the input in range, no latch and PWR_EN high. A module
reset brings every die to its power-on state and keeps fuses and flash (R709, R712); memory then lists nothing and reads as log
8 says. Log 35 names what the model fixes here. -/
def Obligations.SupplyAndResets : Prop :=
  ∀ (s : State),
    (s.pwr.on = true →
      (∃ t, exec .inputUnderVoltage s = .next t ∧ GoesOff s t 2 ∧ t.pwr.inputOk = false ∧ t.pwr.latch = s.pwr.latch) ∧
      (∃ t, exec .inputOverVoltage s = .next t ∧ GoesOff s t 4 ∧ t.pwr.inputOk = false ∧ t.pwr.latch = .over) ∧
      (∀ d : Fin 2, ∃ t, exec (.thermalTrip d) s = .next t ∧ GoesOff s t 1 ∧ t.pwr.latch = .trip ∧ t.pwr.thermtripN = false) ∧
      (∃ t, exec .pwrEnLow s = .next t ∧ GoesOff s t s.pwr.shutdownNext ∧ t.pwr.pwrEn = false) ∧
      (∀ r : Fin 8, ∃ t, exec (.railFault r) s = .next t ∧ GoesOff s t 3 ∧
        t.pwr.railFaults = s.pwr.railFaults ||| BitVec.ofNat 32 (2 ^ r.val)) ∧
      (∃ t, exec .modResetAssert s = .next t ∧ KeepsFlash s t ∧ t.pwr.on = true ∧ t.pwr.boot = .off ∧ t.pwr.modResetN = false ∧
        t.cells = [] ∧ t.units = [] ∧ t.mem.mem = [] ∧ t.dict.params = [] ∧ t.sec.log = []) ∧
      (∀ a b c, s.pwr.pg = true → s.pwr.boot = .off → ∃ t, exec (.internalResetRelease a b c) s = .next t ∧
        t = { s with pwr := { s.pwr with modResetN := true, strapRecoveryN := a, strapSris := b, strapT1s := c, boot := .released } })) ∧
    (s.pwr.on = false →
      (∃ t, exec .inputUnderVoltage s = .next t ∧ t = { s with pwr := { s.pwr with inputOk := false } }) ∧
      (∃ t, exec .inputOverVoltage s = .next t ∧ t = { s with pwr := { s.pwr with inputOk := false, latch := .over } }) ∧
      (∃ t, exec .pwrEnLow s = .next t ∧ t = { s with pwr := { s.pwr with pwrEn := false } }) ∧
      ((s.pwr.inputOk = false ∨ s.pwr.latch ≠ .clear) → ∃ t, exec .inputRestored s = .next t ∧ KeepsFlash s t ∧
        t.pwr.inputOk = true ∧ t.pwr.latch = .clear ∧ t.pwr.thermtripN = true ∧ t.pwr.on = s.pwr.pwrEn) ∧
      ((s.pwr.inputOk = false ∨ s.pwr.latch ≠ .clear) → ∃ t, exec .pwrEnHigh s = .next t ∧
        t = { s with pwr := { s.pwr with pwrEn := true } }) ∧
      (s.pwr.inputOk = true → s.pwr.latch = .clear → ∃ t, exec .pwrEnHigh s = .next t ∧ KeepsFlash s t ∧ t.pwr.on = true ∧
        t.pwr.pg = true ∧ t.pwr.boot = .off ∧ t.pwr.railFaults = 0 ∧ t.pwr.die0.mv = 750 ∧ t.pwr.die1.mv = 750))

/-- A control step moves the two targets of each die as Table 20-3 says and its VCORE to the lower one, never below 600 mV nor
above VCORE_MAX, the duty falling by one a step at 600 mV (R681, R683 to R685). A sensor sample gives Tj, and THERMAL fires once
as Tj comes to TJ_WARN (R692). An under-voltage of VCORE stops its die and fires POWER (R687). PERST is a reset of the endpoint
(R712). Log 35 names what the model fixes here. -/
def Obligations.PowerAndHeat : Prop :=
  ∀ (s : State),
    (∀ w, s.hostUp = true → s.fixedMv = 0 → let top := s.vcoreMax
      ∃ t, exec (.powerControlStep w) s = .next t ∧ t = { s with pwr := { s.pwr with die0 := t.pwr.die0, die1 := t.pwr.die1, inputW := w, energy := s.pwr.energy + BitVec.ofNat 64 w } } ∧
      ∀ i : Fin 2, let d := s.diePower i.val
        let e := t.diePower i.val
        e.capMv = (if s.powerCap < w then d.mv - 10 else if w + 5 ≤ s.powerCap then min (d.mv + 5) top else d.capMv) ∧
        e.thermMv = (if 1600 ≤ d.tj.toInt then d.mv - 10 else if d.tj.toInt < 1520 then top else d.thermMv) ∧
        (d.mv ≤ 600 → min e.capMv e.thermMv < 600 → e.mv = 600 ∧ e.duty = max 1 (d.duty - 1)) ∧
        (600 ≤ min e.capMv e.thermMv → d.duty < 16 →
          e.mv = max 600 (min d.mv (min (min e.capMv e.thermMv) top)) ∧ e.duty = d.duty + 1) ∧
        ((600 < d.mv ∨ 600 ≤ min e.capMv e.thermMv) → 16 ≤ d.duty →
          e.mv = max 600 (min (min e.capMv e.thermMv) top) ∧ e.duty = d.duty)) ∧
    (∀ (i : Fin 2) (raw : BitVec 16), s.pwr.on = true → s.pwr.boot ≠ .off →
      ∃ t, exec (.thermalSample i raw) s = .next t ∧
        (t.diePower i.val).tj = BitVec.ofInt 16 (raw.toInt + (calibOf 0x7020).elim 0 (fun c => c.acting s 0x7020 (UA.keyOf 1 (256 * i.val)) 0)) ∧
        t.cells = s.cells ∧ t.dict = s.dict ∧
        ((s.tjWarn ≤ raw.toInt + (calibOf 0x7020).elim 0 (fun c => c.acting s 0x7020 (UA.keyOf 1 (256 * i.val)) 0) ∧ (s.diePower i.val).warnArmed = true →
          t.evc = s.evc.fireStatus srcThermal ∧ (t.diePower i.val).warnEvents = (s.diePower i.val).warnEvents + 1 ∧ (t.diePower i.val).warnArmed = false) ∧
        (raw.toInt + (calibOf 0x7020).elim 0 (fun c => c.acting s 0x7020 (UA.keyOf 1 (256 * i.val)) 0) < s.tjWarn ∨ (s.diePower i.val).warnArmed = false →
          t.evc = s.evc ∧ (t.diePower i.val).warnEvents = (s.diePower i.val).warnEvents))) ∧
    (∀ (i : Fin 2), s.pwr.on = true →
      ((s.diePower i.val).uv = false → ∃ t, exec (.vcoreUnderVoltage i) s = .next t ∧ (t.diePower i.val).uv = true ∧
        (t.diePower i.val).uvEvents = (s.diePower i.val).uvEvents + 1 ∧ t.evc = s.evc.fireStatus srcPower ∧ t.cells = s.cells) ∧
      (∃ t, exec (.vcoreRecovery i) s = .next t ∧ (t.diePower i.val).uv = false ∧ t.cells = s.cells ∧ t.evc = s.evc)) ∧
    (s.up = true → s.dbg.fullFrozen = true → ∃ t, exec .perstAssert s = .next t ∧
      t = { s with pwr := { s.pwr with perstN := false }, pcie := { s.pcie with up := false }, dbg := { s.dbg with barWait := s.dbg.barWait ++ [.flr] } }) ∧
    (s.up = true → s.dbg.fullFrozen = false → ∃ t, exec .perstAssert s = .next t ∧
      t = ({ s with pwr := { s.pwr with perstN := false }, pcie := { s.pcie with up := false } } : State).flr) ∧
    (s.up = false → ∃ t, exec .perstAssert s = .next t ∧ t = { s with pwr := { s.pwr with perstN := false }, pcie := { s.pcie with up := false } }) ∧
    (∃ t, exec .perstDeassert s = .next t ∧ t = { s with pwr := { s.pwr with perstN := true } })

/-- A boot runs the bootable image of the higher SEQ to Driver ready, its floor burned into SVN_MIN (R657, R661, R662), and goes
to recovery where there is none or the strap asks for it (R661, R679). Either way the fuses and the store are measured first
(R665, Table 19-6), the store's acting copy is taken (R588), and LAST_SHUTDOWN takes the recorded cause (R694). A boot is one
action (the model's choice, log 35). -/
def Obligations.BootSequence : Prop :=
  ∀ (s : State) (b : BootInput), s.pwr.on = true → s.pwr.boot = .released →
    ∃ t, exec (.bootRun b) s = .next t ∧ t.dict.acting = s.dict.chooseCopy.1 ∧ t.pwr.lastShutdown = s.pwr.shutdownNext ∧
      t.pwr.shutdownNext = 0 ∧ t.sec.keys = s.sec.keys ∧ t.sec.slotA = s.sec.slotA ∧ t.sec.slotB = s.sec.slotB ∧
      t.sec.mr 1 = shake256 (s.sec.mr 1 ++ digest s.sec.fuses) 64 ∧
      (∀ k i, s.sec.choose = (k, some i) → s.pwr.strapRecoveryN = true →
        t.pwr.boot = .ready ∧ t.sec.bootSlot = BitVec.ofNat 8 k ∧ t.sec.fwVersion = i.version ∧ t.sec.svnMin = max s.sec.svnMin i.floor ∧
        t.sec.mr 0 = shake256 (s.sec.mr 0 ++ i.digest) 64 ∧ t.dbg.fullReq = !s.pwr.freezeN) ∧
      (s.sec.choose.2 = none ∨ s.pwr.strapRecoveryN = false →
        t.pwr.boot = .recovery ∧ t.sec.bootSlot = 2 ∧ t.sec.svnMin = s.sec.svnMin ∧ t.sec.mr 0 = s.sec.mr 0)

/-- A step takes the command at the front of the queue and runs it with the queue's rest. On an empty queue 1 ns of local time
passes while the power is on, and a send that was under way ends (the model's choice, logs 2 and 28). A send that was under way
ends with the tick (log 28). -/
def Obligations.StepRunsTheFrontCommand : Prop :=
  (∀ (s : State) (c : Instr) (rest : List Instr), step { s with pending := c :: rest } = exec c { s with pending := rest }) ∧
  (∀ (s : State), s.pending = [] → ∃ t, step s = .next t ∧ t.pending = [] ∧ t.mem = s.mem ∧ t.units = s.units ∧ t.net = s.net ∧
    (s.pwr.on = true → t.timeHost = s.timeHost + 1 ∧ t.evc = { s.evc with harts := t.evc.harts } ∧
      ∀ i, t.evc.hart i = { s.evc.hart i with busy := false }) ∧ (s.pwr.on = false → t = s))

/-- No command changes the queue of the commands that wait: what another has queued runs in its order. The queue is the model's
own (log 1). -/
def Obligations.CommandsLeaveTheQueue : Prop :=
  ∀ (c : Instr) (s t : State), exec c s = .next t → t.pending = s.pending

/-- No run stops: from every state, every step of a run of any length answers a next state. A command without its occasion
changes nothing (the model's choice, log 1). -/
def Obligations.RunsNeverStop : Prop :=
  ∀ (n : Nat) (s : State), Sys2Proof.Safety.SafeFor n s

/-- Every step keeps every memory of the machine in its canonical form, so that equal memories are equal data, and the
measurement log at no more than 4,096 entries (R668). The canonical form of the memories is the model's own representation (log
8). -/
def Obligations.InvariantIsKept : Prop :=
  ∀ (s t : State), MachineInvariant s → step s = .next t → MachineInvariant t

/-- Every memory of the machine is in its canonical form at reset, and the measurement log is within its bound (R668, log 8). -/
def Obligations.InvariantAtReset : Prop :=
  MachineInvariant State.reset

/-- Fuses change only from unblown to blown: no step clears a purpose or revocation bit of a key, nor lowers SVN_MIN (R657). -/
def Obligations.FusesOnlyBlow : Prop :=
  ∀ (s t : State), step s = .next t → s.sec.svnMin ≤ t.sec.svnMin ∧
    ∀ k i, (s.sec.key k).getLsbD i = true → (t.sec.key k).getLsbD i = true

/-- DBG_AUTH stays 1 until the next reset, and a freeze does not clear it (R675): a step either keeps it or leaves every unit
and every sync object at reset and the local time at zero. It comes to 1 only where the front command is the response to the
challenge and its signature verifies, which consumes the challenge. -/
def Obligations.DebugAuthStaysUntilReset : Prop :=
  ∀ (s t : State), step s = .next t →
    (s.dbg.auth = true → t.dbg.auth = true ∨ (t.units = [] ∧ t.sync = [] ∧ t.timeHost = 0)) ∧
    (s.dbg.auth = false → t.dbg.auth = true → s.pending.head? = some .dbgResponse ∧
      ∃ r, s.dict.queue.head? = some r ∧ s.sec.unlocks r.value = true ∧ t.sec.challenge = none)

/-- Reset and every module reset leave each unit IDLE with epoch 0, each sync object NONE, queues empty, sources idle, harts
offline, local time zero and debug locked (R51, R359, R361, R630, R648, R712). -/
def Obligations.ResetValues : Prop :=
  ∀ t, (t = State.reset ∨ ∃ s, s.pwr.on = true ∧ exec .modResetAssert s = .next t) →
    (∀ k, (t.unit k).role = 0 ∧ (t.unit k).epoch = 0) ∧ (∀ o, t.syncObj o = .none) ∧ t.waiters = [] ∧ t.evc.hiq.items = [] ∧
    (∀ c : CellIx, (t.cell c).ops = [] ∧ (t.cell c).seq.running = false) ∧
    (∀ id, (t.evc.src id).st = .idle) ∧ (∀ h, (t.evc.hart h).online = false) ∧
    t.timeHost = 0 ∧ t.timeDie0 = 0 ∧ t.timeDie1 = 0 ∧ t.dbg.auth = false ∧ t.dict.params = [] ∧ t.drv.jobs = []

end
end

