-- ==== Sys2Proof/Laws/Kept.lean ====
section
/-! SUPPORT. What an operation leaves alone: one lemma per operation that touches neither the queue, nor the security engine, nor
the debug authorisation. -/

namespace Sys2Proof.Machine
open Sys2Proof
/-- What most commands leave alone: the queue, the security engine, DBG_AUTH and whether it has been 1. -/
def State.kept (s : State) : List Instr × Sec × Bool × Bool := (s.pending, s.sec, s.dbg.auth, s.dbg.authEver)
@[simp ↓] theorem State.kept_mk (a b c d e f g h i j k l m n o p q r t u v w) :
    State.kept ⟨a, b, c, d, e, f, g, h, i, j, k, l, m, n, o, p, q, r, t, u, v, w⟩ = (a, m, l.auth, l.authEver) := Eq.trans rfl rfl
@[simp] theorem State.kept_fold (s : State) : (s.pending, s.sec, s.dbg.auth, s.dbg.authEver) = s.kept := Eq.trans rfl rfl
@[simp] theorem ite_kept (p : Prop) [Decidable p] (a b : State) : (if p then a else b).kept = if p then a.kept else b.kept := by
  split <;> rfl
@[simp] theorem foldl_kept {α : Type} (f : State → α → State) (h : ∀ s a, (f s a).kept = s.kept) (l : List α) (s : State) :
    (l.foldl f s).kept = s.kept := by
  induction l generalizing s with
  | nil => rfl
  | cons a l ih => exact (ih (f s a)).trans (h s a)
@[simp] theorem foldl2_kept {α β : Type} (f : β × State → α → β × State) (h : ∀ s a, (f s a).2.kept = s.2.kept) (l : List α)
    (s : β × State) : (l.foldl f s).2.kept = s.2.kept := by
  induction l generalizing s with
  | nil => rfl
  | cons a l ih => exact (ih (f s a)).trans (h s a)
@[simp] theorem elim_kept {α : Type} (o : Option α) (s t : State) (f : α → State) (hs : s.kept = t.kept)
    (h : ∀ x, (f x).kept = t.kept) : (o.elim s f).kept = t.kept := by cases o <;> simp [*]
theorem pair2_kept {α β : Type} {x : α × β × State} {s : State} {a : α} {b : β} {t : State} (h : x = (a, b, t))
    (hk : x.2.2.kept = s.kept) : t.kept = s.kept := by
  rw [h] at hk; exact hk
@[simp] theorem State.setCell_kept (s : State) (c : CellIx) (x : Cell) : (State.setCell s c x).kept = s.kept := by simp [State.setCell]
@[simp] theorem State.modCell_kept (s : State) (c : CellIx) (f : Cell → Cell) : (State.modCell s c f).kept = s.kept := by simp [State.modCell]
@[simp] theorem State.modCells_kept (s : State) (l : List ℕ) (f : Cell → Cell) : (State.modCells s l f).kept = s.kept := by simp [State.modCells]
@[simp] theorem State.modUnit_kept (s : State) (k : ℕ) (f : UnitState → UnitState) : (State.modUnit s k f).kept = s.kept := by simp [State.modUnit]
@[simp] theorem State.modDie_kept (s : State) (d : ℕ) (f : DieCounters → DieCounters) : (State.modDie s d f).kept = s.kept := by simp [State.modDie]
@[simp] theorem State.modDiePower_kept (s : State) (d : ℕ) (f : DiePower → DiePower) : (State.modDiePower s d f).kept = s.kept := by simp [State.modDiePower]
@[simp] theorem State.useFree_kept (s : State) : (State.useFree s).kept = s.kept := by simp [State.useFree]
@[simp] theorem onlyIf_kept (b : Bool) (s : State) (f : State → State) (h : (f s).kept = s.kept) : (onlyIf b s f).kept = s.kept := by
  unfold onlyIf; split <;> simp [h]
@[simp] theorem State.startSave_kept (s : State) : (State.startSave s).kept = s.kept := by simp [State.startSave]
@[simp] theorem State.saveRecord_kept (s : State) : (State.saveRecord s).kept = s.kept := by simp [State.saveRecord]
theorem State.routePacket_kept (s : State) (d : ℕ) (dest : BitVec 16) (p : Packet) : ∀ t, State.routePacket s d dest p = some t → t.kept = s.kept := by
  unfold State.routePacket; intro t h; split at h
  · cases h; simp
  · simp only [Option.map_eq_some_iff] at h; obtain ⟨_, _, rfl⟩ := h; simp
@[simp] theorem State.fly_kept (s : State) (m : Msg) : (State.fly s m).kept = s.kept := by simp [State.fly]
@[simp] theorem State.sendMsg_kept (s : State) (m : Msg) : (State.sendMsg s m).kept = s.kept := by
  unfold State.sendMsg
  extract_lets t here
  have ht : t.kept = s.kept := by simp only [t]; split <;> simp
  have hh : here.kept = s.kept := by simp only [here]; simpa using ht
  split
  · exact hh
  · cases hr : t.routePacket (UA.digit m.src 1 % 2) (UA.device m.dest) ⟨m.items, false, none⟩ with
    | none => exact hh
    | some u => exact (State.routePacket_kept _ _ _ _ _ hr).trans ht
@[simp] theorem State.reply_kept (s : State) (req : Msg) (code : BitVec 8) (item : Payload) (more : List Payload) : (State.reply s req code item more).kept = s.kept := by simp [State.reply]
@[simp] theorem State.bounce_kept (s : State) (m : Msg) (code : BitVec 8) : (State.bounce s m code).kept = s.kept := by simp [State.bounce]
@[simp] theorem State.takeMsg_kept (s : State) (m : Msg) : (State.takeMsg s m).kept = s.kept := by simp [State.takeMsg]
@[simp] theorem State.received_kept (s : State) (m : Msg) : (State.received s m).kept = s.kept := by simp [State.received]
@[simp] theorem State.arrival_kept (s : State) (m : Msg) (f : State → State) (h : (f (s.takeMsg m)).kept = (s.takeMsg m).kept) :
    (State.arrival s m f).kept = s.kept := by
  unfold State.arrival; simp only []; split <;> simp [h]
@[simp] theorem State.modEvc_kept (s : State) (f : Evc → Evc) : (State.modEvc s f).kept = s.kept := by simp [State.modEvc]
@[simp] theorem State.fire_kept (s : State) (id : ℕ) : (State.fire s id).kept = s.kept := by simp [State.fire]
@[simp] theorem State.fireStatus_kept (s : State) (n : ℕ) : (State.fireStatus s n).kept = s.kept := by simp [State.fireStatus]
@[simp] theorem State.fireCell_kept (s : State) (k : ℕ) (c : CellIx) : (State.fireCell s k c).kept = s.kept := by simp [State.fireCell]
@[simp] theorem State.relCell_kept (s : State) (c : CellIx) (cause : BitVec 8) : (State.relCell s c cause).kept = s.kept := by simp [State.relCell]
@[simp] theorem State.vector_kept (s : State) (v : ℕ) : (State.vector s v).kept = s.kept := by simp [State.vector]
@[simp] theorem State.requestRetire_kept (s : State) (c : CellIx) : (State.requestRetire s c).kept = s.kept := by simp [State.requestRetire]
@[simp] theorem State.remapRow_kept (s : State) (c : CellIx) (row : ℕ) : (State.remapRow s c row).kept = s.kept := by simp [State.remapRow]
@[simp] theorem State.rowCorrected_kept (s : State) (c : CellIx) (row : ℕ) : (State.rowCorrected s c row).kept = s.kept := by simp [State.rowCorrected]
@[simp] theorem State.rowRebuilt_kept (s : State) (c : CellIx) (row : ℕ) : (State.rowRebuilt s c row).kept = s.kept := by simp [State.rowRebuilt]
@[simp] theorem State.rowLost_kept (s : State) (c : CellIx) (row : ℕ) : (State.rowLost s c row).kept = s.kept := by simp [State.rowLost]
@[simp] theorem State.rowRead_kept (s : State) (c : CellIx) (row : ℕ) (ws : List ℕ) (e : List RowFlip) : (State.rowRead s c row ws e).kept = s.kept := by simp only [State.rowRead]; split <;> simp
@[simp] theorem State.countRecompute_kept (s : State) (c : CellIx) (again : Bool) : (State.countRecompute s c again).kept = s.kept := by simp [State.countRecompute]
@[simp] theorem State.countRepeats_kept (s : State) (c : CellIx) (n : ℕ) : (State.countRepeats s c n).kept = s.kept := by simp [State.countRepeats]
@[simp] theorem State.unitLost_kept (s : State) (c : Option CellIx) (unit : ℕ) : (State.unitLost s c unit).kept = s.kept := by simp only [State.unitLost]; split <;> simp
@[simp] theorem State.unitCorrected_kept (s : State) (unit : ℕ) : (State.unitCorrected s unit).kept = s.kept := by simp [State.unitCorrected]
@[simp] theorem State.claimRegs_kept (s : State) (c : CellIx) (a : ℕ) (n : ℕ) : (State.claimRegs s c a n).kept = s.kept := by simp only [State.claimRegs]; split <;> simp
@[simp] theorem State.regWrite_kept (s : State) (c : CellIx) (a : ℕ) (n : ℕ) (v : Word) : (State.regWrite s c a n v).kept = s.kept := by simp only [State.regWrite]; split <;> simp
@[simp] theorem State.narrowWrite_kept (s : State) (c : CellIx) (a : ℕ) (n : ℕ) (v : Word) : (State.narrowWrite s c a n v).kept = s.kept := by simp [State.narrowWrite]
@[simp] theorem State.modSeq_kept (s : State) (c : CellIx) (f : Seq → Seq) : (State.modSeq s c f).kept = s.kept := by simp [State.modSeq]
@[simp] theorem State.finish_kept (s : State) (c : CellIx) (code : Code) : (State.finish s c code).kept = s.kept := by simp [State.finish]
@[simp] theorem State.finishBlocking_kept (s : State) (c : CellIx) (code : Code) : (State.finishBlocking s c code).kept = s.kept := by simp [State.finishBlocking]
@[simp] theorem State.stall_kept (s : State) (c : CellIx) (cause : BitVec 4) (i : Instr) : (State.stall s c cause i).kept = s.kept := by simp [State.stall]
@[simp] theorem State.guarded_kept (s : State) (c : CellIx) (i : Instr) (rs : List (BitVec 4)) (reads writes : List (Nat × Nat))
    (body : State → State) (h : (body s).kept = s.kept) : (State.guarded s c i rs reads writes body).kept = s.kept := by
  unfold State.guarded; split <;> simp [h]
@[simp] theorem State.issue_kept (s : State) (c : CellIx) (opc : BitVec 8) (f : InsFields) (i : Instr) (body : State → State)
    (h : (body s).kept = s.kept) : (State.issue s c opc f i body).kept = s.kept := by
  unfold State.issue; simp only []; (repeat' split) <;> simp [h]
@[simp] theorem State.reject_kept (s : State) (c : CellIx) (i : Instr) (code : Code) : (State.reject s c i code).kept = s.kept := by simp [State.reject]
@[simp] theorem State.withBlock_kept (s : State) (c : CellIx) (f : InsFields) (i : Instr) (mask : List Nat)
    (body : List Word → State → State) (h : ∀ b, (body b s).kept = s.kept) : (State.withBlock s c f i mask body).kept = s.kept := by
  unfold State.withBlock; (repeat' split) <;> simp [h]
@[simp] theorem State.addOp_kept (s : State) (c : CellIx) (o : UnitOp) : (State.addOp s c o).kept = s.kept := by simp [State.addOp]
@[simp] theorem State.retire_kept (s : State) (c : CellIx) : (State.retire s c).kept = s.kept := by simp [State.retire]
@[simp] theorem State.waitOp_kept (s : State) (c : CellIx) (cause : Option (BitVec 4 × Instr)) : (State.waitOp s c cause).kept = s.kept := by simp [State.waitOp]
@[simp] theorem State.spendDrawsOf_kept (s : State) (c : CellIx) (r : Option CmdRun) (consumer : ℕ) (n : ℕ) : (State.spendDrawsOf s c r consumer n).kept = s.kept := by simp [State.spendDrawsOf]
@[simp] theorem State.spendDraws_kept (s : State) (c : CellIx) (consumer : ℕ) (n : ℕ) : (State.spendDraws s c consumer n).kept = s.kept := by simp [State.spendDraws]
@[simp] theorem bodyReg_kept (c : CellIx) (i : Instr) (rd : BitVec 4) (rs : List (BitVec 4)) (v : Seq → Word) (s : State) : (bodyReg c i rd rs v s).kept = s.kept := by simp [bodyReg]
@[simp] theorem bodyLi_kept (c : CellIx) (f : InsFields) (s : State) : (bodyLi c f s).kept = s.kept := by simp [bodyLi]
@[simp] theorem bodyLih_kept (c : CellIx) (f : InsFields) (s : State) : (bodyLih c f s).kept = s.kept := by simp [bodyLih]
@[simp] theorem bodyAdd_kept (c : CellIx) (f : InsFields) (s : State) : (bodyAdd c f s).kept = s.kept := by simp [bodyAdd]
@[simp] theorem bodySub_kept (c : CellIx) (f : InsFields) (s : State) : (bodySub c f s).kept = s.kept := by simp [bodySub]
@[simp] theorem bodyAnd_kept (c : CellIx) (f : InsFields) (s : State) : (bodyAnd c f s).kept = s.kept := by simp [bodyAnd]
@[simp] theorem bodyOr_kept (c : CellIx) (f : InsFields) (s : State) : (bodyOr c f s).kept = s.kept := by simp [bodyOr]
@[simp] theorem bodyXor_kept (c : CellIx) (f : InsFields) (s : State) : (bodyXor c f s).kept = s.kept := by simp [bodyXor]
@[simp] theorem bodyShl_kept (c : CellIx) (f : InsFields) (s : State) : (bodyShl c f s).kept = s.kept := by simp [bodyShl]
@[simp] theorem bodyShr_kept (c : CellIx) (f : InsFields) (s : State) : (bodyShr c f s).kept = s.kept := by simp [bodyShr]
@[simp] theorem bodySra_kept (c : CellIx) (f : InsFields) (s : State) : (bodySra c f s).kept = s.kept := by simp [bodySra]
@[simp] theorem bodyMul_kept (c : CellIx) (f : InsFields) (s : State) : (bodyMul c f s).kept = s.kept := by simp [bodyMul]
@[simp] theorem State.passTime_kept (s : State) (d : ℕ) : (State.passTime s d).kept = s.kept := by simp [State.passTime]
@[simp] theorem bodyTime_kept (c : CellIx) (f : InsFields) (s : State) : (bodyTime c f s).kept = s.kept := by simp [bodyTime]
@[simp] theorem bodyLoad_kept (c : CellIx) (i : Instr) (f : InsFields) (n : ℕ) (e : List RowFlip) (s : State) : (bodyLoad c i f n e s).kept = s.kept := by simp [bodyLoad]
@[simp] theorem bodyLd1_kept (c : CellIx) (f : InsFields) (e : List RowFlip) (s : State) : (bodyLd1 c f e s).kept = s.kept := by simp [bodyLd1]
@[simp] theorem bodyLd2_kept (c : CellIx) (f : InsFields) (e : List RowFlip) (s : State) : (bodyLd2 c f e s).kept = s.kept := by simp [bodyLd2]
@[simp] theorem bodyLd4_kept (c : CellIx) (f : InsFields) (e : List RowFlip) (s : State) : (bodyLd4 c f e s).kept = s.kept := by simp [bodyLd4]
@[simp] theorem bodyLd8_kept (c : CellIx) (f : InsFields) (e : List RowFlip) (s : State) : (bodyLd8 c f e s).kept = s.kept := by simp [bodyLd8]
@[simp] theorem bodyStore_kept (c : CellIx) (i : Instr) (f : InsFields) (n : ℕ) (e : List RowFlip) (s : State) : (bodyStore c i f n e s).kept = s.kept := by simp [bodyStore]
@[simp] theorem bodySt1_kept (c : CellIx) (f : InsFields) (e : List RowFlip) (s : State) : (bodySt1 c f e s).kept = s.kept := by simp [bodySt1]
@[simp] theorem bodySt2_kept (c : CellIx) (f : InsFields) (e : List RowFlip) (s : State) : (bodySt2 c f e s).kept = s.kept := by simp [bodySt2]
@[simp] theorem bodySt4_kept (c : CellIx) (f : InsFields) (e : List RowFlip) (s : State) : (bodySt4 c f e s).kept = s.kept := by simp [bodySt4]
@[simp] theorem bodySt8_kept (c : CellIx) (f : InsFields) (s : State) : (bodySt8 c f s).kept = s.kept := by simp [bodySt8]
@[simp] theorem bodyBranch_kept (c : CellIx) (i : Instr) (f : InsFields) (p : Word → Word → Bool) (s : State) : (bodyBranch c i f p s).kept = s.kept := by simp [bodyBranch]
@[simp] theorem bodyBeq_kept (c : CellIx) (f : InsFields) (s : State) : (bodyBeq c f s).kept = s.kept := by simp [bodyBeq]
@[simp] theorem bodyBne_kept (c : CellIx) (f : InsFields) (s : State) : (bodyBne c f s).kept = s.kept := by simp [bodyBne]
@[simp] theorem bodyBlt_kept (c : CellIx) (f : InsFields) (s : State) : (bodyBlt c f s).kept = s.kept := by simp [bodyBlt]
@[simp] theorem bodyBge_kept (c : CellIx) (f : InsFields) (s : State) : (bodyBge c f s).kept = s.kept := by simp [bodyBge]
@[simp] theorem bodyBltu_kept (c : CellIx) (f : InsFields) (s : State) : (bodyBltu c f s).kept = s.kept := by simp [bodyBltu]
@[simp] theorem bodyBgeu_kept (c : CellIx) (f : InsFields) (s : State) : (bodyBgeu c f s).kept = s.kept := by simp [bodyBgeu]
@[simp] theorem bodyJal_kept (c : CellIx) (f : InsFields) (s : State) : (bodyJal c f s).kept = s.kept := by simp [bodyJal]
@[simp] theorem bodyJr_kept (c : CellIx) (f : InsFields) (s : State) : (bodyJr c f s).kept = s.kept := by simp [bodyJr]
@[simp] theorem bodyRdrand_kept (c : CellIx) (f : InsFields) (s : State) : (bodyRdrand c f s).kept = s.kept := by simp [bodyRdrand]
@[simp] theorem bodyFence_kept (c : CellIx) (s : State) : (bodyFence c s).kept = s.kept := by simp [bodyFence]
@[simp] theorem bodyEnd_kept (c : CellIx) (f : InsFields) (s : State) : (bodyEnd c f s).kept = s.kept := by simp [bodyEnd]
@[simp] theorem bodyIllegal_kept (c : CellIx) (opc : BitVec 8) (f : InsFields) (s : State) : (bodyIllegal c opc f s).kept = s.kept := by simp [bodyIllegal]
@[simp] theorem State.modConv_kept (s : State) (job : BitVec 32) (layer : BitVec 16) (f : LayerConv → LayerConv) : (State.modConv s job layer f).kept = s.kept := by simp [State.modConv]
@[simp] theorem State.handStats_kept (s : State) (c : CellIx) (job : BitVec 32) (layer : BitVec 16) : (State.handStats s c job layer).kept = s.kept := by simp [State.handStats]
@[simp] theorem State.modWin_kept (s : State) (k : ℕ) (w : ℕ) (f : Win → Win) : (State.modWin s k w f).kept = s.kept := by simp [State.modWin]
@[simp] theorem State.openWin_kept (s : State) (u : UnitAddr) (w : ℕ) (base : ℕ) (rows : ℕ) (writers : UnitAddr) (job : BitVec 32) : (State.openWin s u w base rows writers job).2.2.kept = s.kept := by simp only [State.openWin]; (repeat' split) <;> simp
@[simp] theorem State.winClosed_kept (s : State) (k : ℕ) (w : ℕ) : (State.winClosed s k w).kept = s.kept := by simp [State.winClosed]
@[simp] theorem State.closeWin_kept (s : State) (k : ℕ) (w : ℕ) (byKill : Bool) : (State.closeWin s k w byKill).kept = s.kept := by simp only [State.closeWin]; split <;> simp
@[simp] theorem State.landWrite_kept (s : State) (u : UnitAddr) (w : ℕ) : (State.landWrite s u w).kept = s.kept := by simp only [State.landWrite]; split <;> simp
@[simp] theorem State.acceptWrite_kept (s : State) (m : Msg) : (State.acceptWrite s m).kept = s.kept := by simp [State.acceptWrite]
@[simp] theorem bodyWopen_kept (c : CellIx) (f : InsFields) (s : State) : (bodyWopen c f s).kept = s.kept := by simp [bodyWopen]
@[simp] theorem bodyWclose_kept (c : CellIx) (f : InsFields) (s : State) : (bodyWclose c f s).kept = s.kept := by simp [bodyWclose]
@[simp] theorem State.replyCmd_kept (s : State) (src : UnitAddr) (dest : UnitAddr) (tag : BitVec 32) (cmd : BitVec 8) (job : BitVec 32) (code : Code) (wepoch : BitVec 16) : (State.replyCmd s src dest tag cmd job code wepoch).kept = s.kept := by simp [State.replyCmd]
@[simp] theorem State.shareDone_kept (s : State) (c : CellIx) (r : CmdRun) (code : Code) : (State.shareDone s c r code).kept = s.kept := by simp [State.shareDone]
@[simp] theorem State.dispatch_kept (s : State) (c : CellIx) : (State.dispatch s c).kept = s.kept := by simp only [State.dispatch]; split <;> simp
@[simp] theorem State.startCmdRun_kept (s : State) (c : CellIx) (r : CmdRun) : (State.startCmdRun s c r).kept = s.kept := by simp [State.startCmdRun]
@[simp] theorem State.startImage_kept (s : State) (c : CellIx) (r : CmdRun) : (State.startImage s c r).kept = s.kept := by simp [State.startImage]
@[simp] theorem State.imageItem_kept (s : State) (c : CellIx) (r : CmdRun) (i : QItem) : (State.imageItem s c r i).kept = s.kept := by simp [State.imageItem]
@[simp] theorem State.openByCmd_kept (s : State) (u : UnitAddr) (item : Payload) (job : BitVec 32) : (State.openByCmd s u item job).2.2.kept = s.kept := by simp [State.openByCmd]
@[simp] theorem State.windowDone_kept (s : State) (u : UnitAddr) (r : CmdRun) (code : Code) (wepoch : BitVec 16) (wait : Option ℕ) : (State.windowDone s u r code wepoch wait).kept = s.kept := by simp only [State.windowDone]; (repeat' split) <;> simp
@[simp] theorem State.windowOpen_kept (s : State) (u : UnitAddr) (r : CmdRun) (item : Payload) : (State.windowOpen s u r item).kept = s.kept := by simp [State.windowOpen]
@[simp] theorem State.windowClose_kept (s : State) (u : UnitAddr) (r : CmdRun) (item : Payload) : (State.windowClose s u r item).kept = s.kept := by simp [State.windowClose]
@[simp] theorem State.deferredOpen_kept (s : State) (u : UnitAddr) (w : ℕ) : (State.deferredOpen s u w).kept = s.kept := by simp only [State.deferredOpen]; (repeat' split) <;> simp
@[simp] theorem State.completeCmd_kept (s : State) (c : CellIx) (r : CmdRun) : (State.completeCmd s c r).kept = s.kept := by simp [State.completeCmd]
@[simp] theorem State.carcaseComplete_kept (s : State) (u : UnitAddr) (p : Spread) : (State.carcaseComplete s u p).kept = s.kept := by simp [State.carcaseComplete]
@[simp] theorem State.startScrubCmd_kept (s : State) (c : CellIx) (r : CmdRun) : (State.startScrubCmd s c r).kept = s.kept := by simp [State.startScrubCmd]
@[simp] theorem State.endScrub_kept (s : State) (c : CellIx) : (State.endScrub s c).kept = s.kept := by simp only [State.endScrub]; split <;> simp
@[simp] theorem State.freeWindows_kept (s : State) (c : CellIx) : (State.freeWindows s c).kept = s.kept := by simp [State.freeWindows]
@[simp] theorem State.finishScrub_kept (s : State) (c : CellIx) : (State.finishScrub s c).kept = s.kept := by simp [State.finishScrub]
@[simp] theorem State.killCell_kept (s : State) (c : CellIx) (job : BitVec 32) : (State.killCell s c job).kept = s.kept := by simp [State.killCell]
@[simp] theorem State.killWindows_kept (s : State) (u : UnitAddr) (job : BitVec 32) : (State.killWindows s u job).kept = s.kept := by simp [State.killWindows]
@[simp] theorem State.killSpreads_kept (s : State) (u : UnitAddr) (job : BitVec 32) : (State.killSpreads s u job).kept = s.kept := by simp [State.killSpreads]
@[simp] theorem State.replySync_kept (s : State) (w : Waiter) (code : Code) (value : Word) (ovf : Bool) : (State.replySync s w code value ovf).kept = s.kept := by simp [State.replySync]
@[simp] theorem State.killWaiters_kept (s : State) (job : BitVec 32) : (State.killWaiters s job).kept = s.kept := by simp [State.killWaiters]
@[simp] theorem State.kill_kept (s : State) (m : Msg) : (State.kill s m).kept = s.kept := by simp [State.kill]
@[simp] theorem State.cut_kept (s : State) (u : UnitAddr) (job : BitVec 32) (layer : Option (BitVec 16)) : (State.cut s u job layer).kept = s.kept := by simp only [State.cut]; (repeat' split) <;> simp
@[simp] theorem State.cutCmd_kept (s : State) (m : Msg) : (State.cutCmd s m).kept = s.kept := by simp [State.cutCmd]
@[simp] theorem State.acceptCommand_kept (s : State) (m : Msg) : (State.acceptCommand s m).kept = s.kept := by simp [State.acceptCommand]
@[simp] theorem State.setRole_kept (s : State) (u : UnitAddr) (role : BitVec 8) : (State.setRole s u role).kept = s.kept := by simp [State.setRole]
@[simp] theorem State.roleSet_kept (s : State) (m : Msg) : (State.roleSet s m).kept = s.kept := by simp [State.roleSet]
@[simp] theorem State.dirAccess_kept (s : State) (dix : ℕ) : (State.dirAccess s dix).kept = s.kept := by simp [State.dirAccess]
@[simp] theorem State.replaceEntry_kept (s : State) (dix : ℕ) (e : Word × Word) : (State.replaceEntry s dix e).kept = s.kept := by simp [State.replaceEntry]
@[simp] theorem State.deliver_kept (s : State) (cells : List ℕ) (row : ℕ) (w : ℕ) (mask : ℕ) (blocks : List (ℕ × Bool × List Byte)) : (State.deliver s cells row w mask blocks).kept = s.kept := by simp [State.deliver]
@[simp] theorem State.passUnits_kept (s : State) (out : Bool) (us : List ℕ) (e : List UnitFlip) : (State.passUnits s out us e).kept = s.kept := by simp [State.passUnits]
@[simp] theorem State.writeWsUnit_kept (s : State) (u : ℕ) (x : List Byte × BitVec 2) : (State.writeWsUnit s u x).kept = s.kept := by simp [State.writeWsUnit]
@[simp] theorem State.writeWsUnits_kept (s : State) (u : ℕ) (l : List (List Byte × BitVec 2)) : (State.writeWsUnits s u l).kept = s.kept := by
  induction l generalizing s u with
  | nil => simp [State.writeWsUnits]
  | cons a l ih => simp [State.writeWsUnits, ih]
@[simp] theorem State.sendSpill_kept (s : State) (dev : ℕ) (tag : BitVec 32) (item : Payload) (more : List Payload) : (State.sendSpill s dev tag item more).kept = s.kept := by simp [State.sendSpill]
@[simp] theorem State.readGroup_kept (s : State) (c : Option CellIx) (lo : Word) (hi : Word) (w : ℕ) (mask : ℕ) (e : List UnitFlip) : (State.readGroup s c lo hi w mask e).2.2.kept = s.kept := by
  unfold State.readGroup; simp only []; (repeat' split) <;> simp
@[simp] theorem State.sendRead_kept (s : State) (tag : BitVec 32) (lo : Word) (hi : Word) : (State.sendRead s tag lo hi).kept = s.kept := by simp [State.sendRead]
@[simp] theorem State.startFetch_kept (s : State) (c : CellIx) (o : UnitOp) (lo : Word) (hi : Word) (mask : ℕ) (e : List UnitFlip) : (State.startFetch s c o lo hi mask e).kept = s.kept := by
  unfold State.startFetch; simp only []; (repeat' split) <;> simp
@[simp] theorem bodyFetch_kept (c : CellIx) (f : InsFields) (e : List UnitFlip) (s : State) : (bodyFetch c f e s).kept = s.kept := by
  unfold bodyFetch; apply State.guarded_kept; apply State.withBlock_kept; intro b; simp only []; split
  · simp
  · split
    · simp
    · apply State.guarded_kept; (repeat' split) <;> simp
@[simp] theorem State.leaveJoin_kept (s : State) (c : CellIx) (key : ℕ) (j : JoinRec) : (State.leaveJoin s c key j).kept = s.kept := by simp [State.leaveJoin]
@[simp] theorem State.copyJoined_kept (s : State) (c : CellIx) (o : UnitOp) (key : ℕ) (j : JoinRec) (bl : List (ℕ × Bool × List Byte)) : (State.copyJoined s c o key j bl).kept = s.kept := by simp [State.copyJoined]
@[simp] theorem State.endJoined_kept (s : State) (c : CellIx) (o : UnitOp) (key : ℕ) (j : JoinRec) (code : Code) : (State.endJoined s c o key j code).kept = s.kept := by simp [State.endJoined]
@[simp] theorem State.firstJoined_kept (s : State) (c : CellIx) (o : UnitOp) (r : CmdRun) (key : ℕ) (router : UnitAddr) (e : List UnitFlip) : (State.firstJoined s c o r key router e).kept = s.kept := by
  unfold State.firstJoined; simp only []; (repeat' split) <;> simp
@[simp] theorem State.joinArrive_kept (s : State) (c : CellIx) (o : UnitOp) (r : CmdRun) (e : List UnitFlip) : (State.joinArrive s c o r e).kept = s.kept := by
  unfold State.joinArrive; simp only []; (repeat' split) <;> simp
@[simp] theorem bodyEntryrd_kept (c : CellIx) (f : InsFields) (s : State) : (bodyEntryrd c f s).kept = s.kept := by simp [bodyEntryrd]
@[simp] theorem State.opEnds_kept (s : State) (c : CellIx) (k : ℕ) (code : Code) : (State.opEnds s c k code).kept = s.kept := by simp [State.opEnds]
@[simp] theorem State.opWaits_kept (s : State) (c : CellIx) (k : ℕ) (x : SpillWait) : (State.opWaits s c k x).kept = s.kept := by simp [State.opWaits]
@[simp] theorem State.storeWaits_kept (s : State) (c : CellIx) (k : ℕ) (dix : ℕ) (x : SpillWait) : (State.storeWaits s c k dix x).kept = s.kept := by simp [State.storeWaits]
@[simp] theorem State.storeEnds_kept (s : State) (c : CellIx) (k : ℕ) (code : Code) : (State.storeEnds s c k code).kept = s.kept := by simp [State.storeEnds]
@[simp] theorem State.storeEntry_kept (s : State) (c : CellIx) (k : ℕ) (dix : ℕ) (e : Word × Word) : (State.storeEntry s c k dix e).kept = s.kept := by simp [State.storeEntry]
@[simp] theorem State.storeLevel4_kept (s : State) (c : CellIx) (k : ℕ) (b : List Word) : (State.storeLevel4 s c k b).kept = s.kept := by simp only [State.storeLevel4]; split <;> simp
@[simp] theorem State.storeLevel3_kept (s : State) (c : CellIx) (k : ℕ) (b : List Word) (i : ℕ) : (State.storeLevel3 s c k b i).kept = s.kept := by simp only [State.storeLevel3]; split <;> simp
@[simp] theorem State.storeGroup_kept (s : State) (c : CellIx) (k : ℕ) (b : List Word) : (State.storeGroup s c k b).kept = s.kept := by simp only [State.storeGroup]; (repeat' split) <;> simp
@[simp] theorem bodyStoreG_kept (c : CellIx) (f : InsFields) (s : State) : (bodyStoreG c f s).kept = s.kept := by
  unfold bodyStoreG; apply State.guarded_kept; apply State.withBlock_kept; intro b; simp only []; split
  · simp
  · apply State.guarded_kept; split <;> simp
@[simp] theorem State.freeGroup_kept (s : State) (dix : ℕ) : (State.freeGroup s dix).kept = s.kept := by simp [State.freeGroup]
@[simp] theorem State.releaseStorage_kept (s : State) (x : ℕ × ℕ × ℕ) : (State.releaseStorage s x).kept = s.kept := by simp [State.releaseStorage]
@[simp] theorem State.blockFetch_kept (s : State) (m : Msg) (e : List UnitFlip) : (State.blockFetch s m e).kept = s.kept := by
  unfold State.blockFetch; simp only []; (repeat' split) <;> simp
@[simp] theorem State.gotBlocks_kept (s : State) (c : CellIx) (w : ℕ) (e : List UnitFlip) (gs : List (GotGroup × ℕ)) : (State.gotBlocks s c w e gs).2.2.kept = s.kept := by
  unfold State.gotBlocks
  suffices h : ∀ a : List (Nat × List (Nat × Bool × List Byte)) × Option Nat × State, a.2.2.kept = s.kept → (gs.foldl _ a).2.2.kept = s.kept from h _ rfl
  induction gs with
  | nil => intro a h; exact h
  | cons g gs ih =>
    intro a h; refine ih _ ?_
    obtain ⟨l, lost, t⟩ := a
    simp only []; (repeat' split) <;> simp_all
@[simp] theorem State.gatherGo_kept (s : State) (c : CellIx) (o : UnitOp) (e : List UnitFlip) : (State.gatherGo s c o e).kept = s.kept := by simp only [State.gatherGo]; (repeat' split) <;> simp
@[simp] theorem State.gather_kept (s : State) (c : CellIx) (i : Instr) (row : Bool) (b : List Word) (e : List UnitFlip) : (State.gather s c i row b e).kept = s.kept := by simp [State.gather]
@[simp] theorem bodyGatherColumn_kept (c : CellIx) (f : InsFields) (e : List UnitFlip) (s : State) : (bodyGatherColumn c f e s).kept = s.kept := by simp [bodyGatherColumn]
@[simp] theorem bodyGatherRow_kept (c : CellIx) (f : InsFields) (e : List UnitFlip) (s : State) : (bodyGatherRow c f e s).kept = s.kept := by simp [bodyGatherRow]
@[simp] theorem bodySelectN_kept (c : CellIx) (f : InsFields) (s : State) : (bodySelectN c f s).kept = s.kept := by
  unfold bodySelectN; apply State.guarded_kept; apply State.withBlock_kept; intro b; simp only []; split
  · simp
  · split
    · simp
    · apply State.guarded_kept; rw [State.waitOp_kept, State.addOp_kept, State.modCell_kept]; split <;> simp
@[simp] theorem bodyAuditN_kept (c : CellIx) (f : InsFields) (s : State) : (bodyAuditN c f s).kept = s.kept := by
  unfold bodyAuditN; apply State.guarded_kept; apply State.withBlock_kept; intro b; simp only []; split
  · simp
  · split
    · simp
    · apply State.guarded_kept; rw [State.waitOp_kept, State.addOp_kept, State.modCell_kept]
@[simp] theorem State.spillRead_kept (s : State) (c : CellIx) (o : UnitOp) (x : SpillWait) (m : Msg) : (State.spillRead s c o x m).kept = s.kept := by simp only [State.spillRead]; (repeat' split) <;> simp
@[simp] theorem State.spillReply_kept (s : State) (m : Msg) : (State.spillReply s m).kept = s.kept := by simp only [State.spillReply]; (repeat' split) <;> simp
@[simp] theorem State.busAgain_kept (s : State) (c : CellIx) (o : UnitOp) (x : SpillWait) : (State.busAgain s c o x).kept = s.kept := by simp [State.busAgain]
@[simp] theorem State.spillAnswer_kept (s : State) (m : Msg) (code : Code) (value : ℕ) (more : List Payload) : (State.spillAnswer s m code value more).kept = s.kept := by simp [State.spillAnswer]
@[simp] theorem State.serveAlloc_kept (s : State) (m : Msg) : (State.serveAlloc s m).kept = s.kept := by simp only [State.serveAlloc]; (repeat' split) <;> simp
@[simp] theorem State.serveOther_kept (s : State) (m : Msg) (op : ℕ) : (State.serveOther s m op).kept = s.kept := by simp only [State.serveOther]; split <;> simp
@[simp] theorem State.spillArrives_kept (s : State) (m : Msg) (op : Nat) (f : State → State)
    (h : ∀ s, (f s).kept = s.kept) : (State.spillArrives s m op f).kept = s.kept := by
  unfold State.spillArrives; simp only []; apply onlyIf_kept; apply State.arrival_kept; split <;> simp [h]
@[simp] theorem State.beginDrain_kept (s : State) (c : CellIx) (t : ℕ) (b : List Word) (run : ℕ) (cmd : ℕ) (job : BitVec 32) (layer : BitVec 16) : (State.beginDrain s c t b run cmd job layer).kept = s.kept := by simp [State.beginDrain]
@[simp] theorem State.drain_kept (s : State) (c : CellIx) (f : InsFields) (i : Instr) (dest : ℕ) : (State.drain s c f i dest).kept = s.kept := by
  unfold State.drain; apply State.guarded_kept; apply State.withBlock_kept; intro b; simp only []; (repeat' split)
  · rfl
  · simp
  · apply State.guarded_kept; split <;> simp
@[simp] theorem bodyDrainRq_kept (c : CellIx) (f : InsFields) (s : State) : (bodyDrainRq c f s).kept = s.kept := by simp [bodyDrainRq]
@[simp] theorem bodyDrainWide_kept (c : CellIx) (f : InsFields) (s : State) : (bodyDrainWide c f s).kept = s.kept := by simp [bodyDrainWide]
@[simp] theorem bodyDrainChain_kept (c : CellIx) (f : InsFields) (s : State) : (bodyDrainChain c f s).kept = s.kept := by simp [bodyDrainChain]
@[simp] theorem bodyDrainSab_kept (c : CellIx) (f : InsFields) (s : State) : (bodyDrainSab c f s).kept = s.kept := by simp [bodyDrainSab]
@[simp] theorem State.tokenArrives_kept (s : State) (c : CellIx) (t : ℕ) : (State.tokenArrives s c t).kept = s.kept := by simp [State.tokenArrives]
@[simp] theorem State.endDrain_kept (s : State) (c : CellIx) (t : ℕ) (code : Code) : (State.endDrain s c t code).kept = s.kept := by simp [State.endDrain]
@[simp] theorem State.sendChain_kept (s : State) (c : CellIx) (t : ℕ) (d : DrainRun) (elems : List Acc) : (State.sendChain s c t d elems).kept = s.kept := by simp [State.sendChain]
@[simp] theorem State.rowWide_kept (s : State) (c : CellIx) (t : ℕ) (m : ℕ) (d : DrainRun) (v : ℕ → Acc) (inside : ℕ → Bool) : (State.rowWide s c t m d v inside).kept = s.kept := by simp [State.rowWide]
@[simp] theorem State.rowRef_kept (s : State) (y : Tile) (m : ℕ) (b : List Word) (v : ℕ → Acc) (inside : ℕ → Bool) : (State.rowRef s y m b v inside).kept = s.kept := by
  unfold State.rowRef; split
  · apply elim_kept <;> simp
  · rfl
@[simp] theorem State.writeRefLedger_kept (s : State) (y : Tile) (b : List Word) (l : Ledger) : (State.writeRefLedger s y b l).kept = s.kept := by
  unfold State.writeRefLedger; split
  · apply elim_kept <;> simp
  · rfl
@[simp] theorem State.rowRange_kept (s : State) (c : CellIx) (t : ℕ) (m : ℕ) (d : DrainRun) (ch0 : ℕ) (v : ℕ → Acc) (inside : ℕ → Bool) : (State.rowRange s c t m d ch0 v inside).kept = s.kept := by simp [State.rowRange]
@[simp] theorem State.rowCodes_kept (s : State) (c : CellIx) (t : ℕ) (m : ℕ) (d : DrainRun) (ch0 : ℕ) (v : ℕ → Acc) (inside : ℕ → Bool) (draw : ℕ → ℕ) : (State.rowCodes s c t m d ch0 v inside draw).kept = s.kept := by simp [State.rowCodes]
@[simp] theorem State.rowSab_kept (s : State) (c : CellIx) (t : ℕ) (m : ℕ) (d : DrainRun) (v : ℕ → Acc) (inside : ℕ → Bool) : (State.rowSab s c t m d v inside).kept = s.kept := by simp [State.rowSab]
@[simp] theorem State.sabItem_kept (s : State) (c : CellIx) (k : ℕ) (x : Option Acc) : (State.sabItem s c k x).kept = s.kept := by simp [State.sabItem]
@[simp] theorem State.lastRow_kept (s : State) (c : CellIx) (t : ℕ) (r : Option CmdRun) : (State.lastRow s c t r).kept = s.kept := by simp only [State.lastRow]; split <;> simp
@[simp] theorem State.drainRow_kept (s : State) (c : CellIx) (t : ℕ) (d : DrainRun) (x : Option Upset) : (State.drainRow s c t d x).kept = s.kept := by simp [State.drainRow]
@[simp] theorem State.takeSum_kept (s : State) (m : Msg) : (State.takeSum s m).kept = s.kept := by simp [State.takeSum]
@[simp] theorem State.joinTile_kept (s : State) (c : CellIx) (r : ArrayRun) (job : BitVec 32) (layer : BitVec 16) : (State.joinTile s c r job layer).kept = s.kept := by simp [State.joinTile]
@[simp] theorem bodyArrayI_kept (c : CellIx) (f : InsFields) (s : State) : (bodyArrayI c f s).kept = s.kept := by
  unfold bodyArrayI; apply State.guarded_kept; apply State.withBlock_kept; intro b; simp only []; (repeat' split)
  all_goals first | (simp; done) | (apply State.guarded_kept; simp)
theorem State.autoDrain_kept (s : State) (c : CellIx) (r : ArrayRun) (n : ℕ) : ∀ t, (State.autoDrain s c r n) = some t → t.kept = s.kept := by simp only [State.autoDrain]; (repeat' split) <;> simp
@[simp] theorem State.nextTile_kept (s : State) (c : CellIx) (r : ArrayRun) (code : Code) : (State.nextTile s c r code).kept = s.kept := by simp [State.nextTile]
@[simp] theorem State.tileOver_kept (s : State) (c : CellIx) (r : ArrayRun) : (State.tileOver s c r).kept = s.kept := by
  unfold State.tileOver; simp only []; split
  · split
    · rw [State.nextTile_kept]; exact State.autoDrain_kept _ _ _ _ _ (by assumption)
    · simp
  · simp
@[simp] theorem State.endLookups_kept (s : State) (c : CellIx) (r : ArrayRun) (f : Feed) (planes : ℕ) : (State.endLookups s c r f planes).kept = s.kept := by simp [State.endLookups]
@[simp] theorem State.lookupBeat_kept (s : State) (c : CellIx) (r : ArrayRun) (f : Feed) (st : ℕ) (unsupplied : List ℕ) (behind : Bool) (x : Option Upset) : (State.lookupBeat s c r f st unsupplied behind x).kept = s.kept := by simp [State.lookupBeat]
@[simp] theorem State.arrayReady_kept (c : CellIx) (n : ℕ) (s : State) : (State.arrayReady c n s).kept = s.kept := by
  induction n generalizing s with
  | zero => rfl
  | succ n ih => unfold State.arrayReady; simp only []; (repeat' split) <;> simp [ih]
@[simp] theorem State.fillBeat_kept (s : State) (c : CellIx) (r : ArrayRun) : (State.fillBeat s c r).kept = s.kept := by simp [State.fillBeat]
@[simp] theorem State.arrayBeat_kept (s : State) (c : CellIx) (r : ArrayRun) (unsupplied : List ℕ) (behind : Bool) (e : List RowFlip) (x : Option Upset) : (State.arrayBeat s c r unsupplied behind e x).kept = s.kept := by simp only [State.arrayBeat]; (repeat' split) <;> simp
@[simp] theorem State.checkpointTile_kept (s : State) (c : CellIx) (k : ℕ) (x : Option Upset) : (State.checkpointTile s c k x).kept = s.kept := by simp only [State.checkpointTile]; split <;> simp
@[simp] theorem bodyLoadT_kept (c : CellIx) (f : InsFields) (s : State) : (bodyLoadT c f s).kept = s.kept := by simp [bodyLoadT]
@[simp] theorem State.loadDone_kept (s : State) (c : CellIx) (t : ℕ) (row : ℕ) (op : ℕ) : (State.loadDone s c t row op).kept = s.kept := by
  unfold State.loadDone; exact State.modCell_kept _ _ _
@[simp] theorem State.rqOp_kept (s : State) (c : CellIx) (f : InsFields) (i : Instr) (op : Nat) (busy : Cell → Bool)
    (io : List Word → Cell → List (Nat × Nat) × List (Nat × Nat)) (check : List Word → Cell → Option Code)
    (run : List Word → State → Code × List (BitVec 4 × Word) × State) (h : ∀ b s, (run b s).2.2.kept = s.kept) :
    (State.rqOp s c f i op busy io check run).kept = s.kept := by
  unfold State.rqOp; apply State.guarded_kept; apply State.withBlock_kept; intro b; simp only []; (repeat' split)
  all_goals try (simp; done)
  all_goals (apply State.guarded_kept; split)
  all_goals first | (simp; done) | simp [h]
@[simp] theorem State.convertRows_kept (s : State) (c : CellIx) (k : Conv) (b : List Word) (src : Source) : (State.convertRows s c k b src).2.kept = s.kept := by simp [State.convertRows]
@[simp] theorem bodyRangeReset_kept (c : CellIx) (f : InsFields) (s : State) : (bodyRangeReset c f s).kept = s.kept := by simp [bodyRangeReset]
@[simp] theorem requantRun_kept (c : CellIx) (b : List Word) (s : State) : (requantRun c b s).2.2.kept = s.kept := by
  unfold requantRun; simp
@[simp] theorem bodyRequant_kept (c : CellIx) (f : InsFields) (s : State) : (bodyRequant c f s).kept = s.kept := by simp [bodyRequant]
@[simp] theorem bodyRangeRequant_kept (c : CellIx) (f : InsFields) (s : State) : (bodyRangeRequant c f s).kept = s.kept := by simp [bodyRangeRequant]
@[simp] theorem saboutRun_kept (c : CellIx) (b : List Word) (s : State) : (saboutRun c b s).2.2.kept = s.kept := by
  unfold saboutRun; simp only []; split <;> simp
@[simp] theorem bodySabout_kept (c : CellIx) (f : InsFields) (s : State) : (bodySabout c f s).kept = s.kept := by simp [bodySabout]
@[simp] theorem dequantRun_kept (c : CellIx) (b : List Word) (s : State) : (dequantRun c b s).2.2.kept = s.kept := by
  unfold dequantRun; exact State.modCell_kept _ _ _
@[simp] theorem bodyDequant_kept (c : CellIx) (f : InsFields) (s : State) : (bodyDequant c f s).kept = s.kept := by simp [bodyDequant]
@[simp] theorem quantRun_kept (c : CellIx) (b : List Word) (s : State) : (quantRun c b s).2.2.kept = s.kept := by
  unfold quantRun; simp
@[simp] theorem bodyQuant_kept (c : CellIx) (f : InsFields) (s : State) : (bodyQuant c f s).kept = s.kept := by simp [bodyQuant]
@[simp] theorem bodyRangeF32_kept (c : CellIx) (f : InsFields) (s : State) : (bodyRangeF32 c f s).kept = s.kept := by simp [bodyRangeF32]
@[simp] theorem bodyRangeout_kept (c : CellIx) (f : InsFields) (s : State) : (bodyRangeout c f s).kept = s.kept := by simp [bodyRangeout]
@[simp] theorem bodyRangemerge_kept (c : CellIx) (f : InsFields) (s : State) : (bodyRangemerge c f s).kept = s.kept := by
  unfold bodyRangemerge; apply State.rqOp_kept; intro b s; exact State.modCell_kept _ _ _
@[simp] theorem scaleRun_kept (c : CellIx) (f : InsFields) (b : List Word) (s : State) : (scaleRun c f b s).2.2.kept = s.kept := by
  unfold scaleRun; exact State.modCell_kept _ _ _
@[simp] theorem bodyScaleRq_kept (c : CellIx) (f : InsFields) (s : State) : (bodyScaleRq c f s).kept = s.kept := by simp [bodyScaleRq]
@[simp] theorem bodyLedgerW_kept (c : CellIx) (f : InsFields) (s : State) : (bodyLedgerW c f s).kept = s.kept := by simp [bodyLedgerW]
@[simp] theorem State.lfuRun_kept (s : State) (c : CellIx) (k : LfuBlk) : (State.lfuRun s c k).2.kept = s.kept := by simp [State.lfuRun]
@[simp] theorem State.lfu_kept (s : State) (c : CellIx) (f : InsFields) (i : Instr) (op : ℕ) : (State.lfu s c f i op).kept = s.kept := by
  unfold State.lfu; apply State.guarded_kept; apply State.withBlock_kept; intro b; simp only []; (repeat' split)
  all_goals first | (simp; done) | (apply State.guarded_kept; simp)
@[simp] theorem bodyCvt_kept (c : CellIx) (f : InsFields) (s : State) : (bodyCvt c f s).kept = s.kept := by simp [bodyCvt]
@[simp] theorem bodyLfuMul_kept (c : CellIx) (f : InsFields) (s : State) : (bodyLfuMul c f s).kept = s.kept := by simp [bodyLfuMul]
@[simp] theorem bodyExpF_kept (c : CellIx) (f : InsFields) (s : State) : (bodyExpF c f s).kept = s.kept := by simp [bodyExpF]
@[simp] theorem bodyLogF_kept (c : CellIx) (f : InsFields) (s : State) : (bodyLogF c f s).kept = s.kept := by simp [bodyLogF]
@[simp] theorem bodyRecip_kept (c : CellIx) (f : InsFields) (s : State) : (bodyRecip c f s).kept = s.kept := by simp [bodyRecip]
@[simp] theorem bodyRsqrt_kept (c : CellIx) (f : InsFields) (s : State) : (bodyRsqrt c f s).kept = s.kept := by simp [bodyRsqrt]
@[simp] theorem bodySoftmax_kept (c : CellIx) (f : InsFields) (s : State) : (bodySoftmax c f s).kept = s.kept := by simp [bodySoftmax]
@[simp] theorem bodyGelu_kept (c : CellIx) (f : InsFields) (s : State) : (bodyGelu c f s).kept = s.kept := by simp [bodyGelu]
@[simp] theorem bodySilu_kept (c : CellIx) (f : InsFields) (s : State) : (bodySilu c f s).kept = s.kept := by simp [bodySilu]
@[simp] theorem bodyNormF_kept (c : CellIx) (f : InsFields) (s : State) : (bodyNormF c f s).kept = s.kept := by simp [bodyNormF]
@[simp] theorem State.modDrv_kept (s : State) (f : Driver → Driver) : (State.modDrv s f).kept = s.kept := by simp [State.modDrv]
@[simp] theorem State.setJob_kept (s : State) (j : JobRec) : (State.setJob s j).kept = s.kept := by simp [State.setJob]
@[simp] theorem State.modStream_kept (s : State) (i : ℕ) (f : Stream → Stream) : (State.modStream s i f).kept = s.kept := by simp [State.modStream]
@[simp] theorem State.post_kept (s : State) (st : ℕ) (x : Completion) : (State.post s st x).kept = s.kept := by simp [State.post]
@[simp] theorem State.settle_kept (s : State) : (State.settle s).kept = s.kept := by simp [State.settle]
@[simp] theorem State.roleEpoch_kept (s : State) (dev : BitVec 16) : (State.roleEpoch s dev).2.kept = s.kept := by simp only [State.roleEpoch]; (repeat' split) <;> simp
@[simp] theorem State.driverSync_kept (s : State) (job : BitVec 32) (dev : BitVec 16) (obj : BitVec 16) (op : ℕ) (ack : Bool) (value : Word) (tag : BitVec 32) : (State.driverSync s job dev obj op ack value tag).kept = s.kept := by simp [State.driverSync]
@[simp] theorem State.driverKill_kept (s : State) (job : BitVec 32) (dev : BitVec 16) (tag : BitVec 32) : (State.driverKill s job dev tag).kept = s.kept := by simp [State.driverKill]
@[simp] theorem State.forget_kept (s : State) (job : BitVec 32) : (State.forget s job).kept = s.kept := by simp [State.forget]
@[simp] theorem State.jobOver_kept (s : State) (j : JobRec) : (State.jobOver s j).kept = s.kept := by simp [State.jobOver]
@[simp] theorem State.endJob_kept (s : State) (j : JobRec) : (State.endJob s j).kept = s.kept := by simp only [State.endJob]; split <;> simp
@[simp] theorem State.clearRefs_kept (s : State) (j : JobRec) : (State.clearRefs s j).kept = s.kept := by simp only [State.clearRefs]; split <;> simp
@[simp] theorem State.killJob_kept (s : State) (j : JobRec) : (State.killJob s j).kept = s.kept := by simp only [State.killJob]; (repeat' split) <;> simp
@[simp] theorem State.freeStored_kept (s : State) (job : BitVec 32) : (State.freeStored s job).kept = s.kept := by simp [State.freeStored]
@[simp] theorem State.addReply_kept (s : State) (m : Msg) : (State.addReply s m).kept = s.kept := by simp only [State.addReply]; split <;> simp
@[simp] theorem State.driverReply_kept (s : State) (m : Msg) : (State.driverReply s m).kept = s.kept := by simp only [State.driverReply]; split <;> simp
@[simp] theorem State.driverBounce_kept (s : State) (m : Msg) : (State.driverBounce s m).kept = s.kept := by simp [State.driverBounce]
@[simp] theorem State.hiqFill_kept (s : State) (l : List QItem) : (State.hiqFill s l).kept = s.kept := by simp [State.hiqFill]
@[simp] theorem State.toHiq_kept (s : State) (m : Msg) : (State.toHiq s m).kept = s.kept := by simp [State.toHiq]
@[simp] theorem State.toHost_kept (s : State) (m : Msg) : (State.toHost s m).kept = s.kept := by simp [State.toHost]
@[simp] theorem bodySyncOp_kept (c : CellIx) (f : InsFields) (s : State) : (bodySyncOp c f s).kept = s.kept := by simp [bodySyncOp]
@[simp] theorem bodyQread_kept (c : CellIx) (f : InsFields) (s : State) : (bodyQread c f s).kept = s.kept := by simp [bodyQread]
@[simp] theorem bodyQflush_kept (c : CellIx) (f : InsFields) (s : State) : (bodyQflush c f s).kept = s.kept := by simp [bodyQflush]
@[simp] theorem bodySendW_kept (c : CellIx) (f : InsFields) (s : State) : (bodySendW c f s).kept = s.kept := by
  unfold bodySendW; apply State.guarded_kept; apply State.withBlock_kept; intro b; simp only []; split
  · simp
  · apply State.guarded_kept; simp
@[simp] theorem State.opComplete_kept (s : State) (c : CellIx) (o : UnitOp) (again : List ℕ) : (State.opComplete s c o again).kept = s.kept := by simp only [State.opComplete]; split <;> simp
@[simp] theorem bodyOf_kept (i : Instr) (s : State) : (bodyOf i s).kept = s.kept := by simp only [bodyOf]; split <;> simp
@[simp] theorem State.reissue_kept (s : State) (c : CellIx) (i : Instr) : (State.reissue s c i).kept = s.kept := by simp only [State.reissue]; split <;> simp
@[simp] theorem State.releaseStall_kept (s : State) (c : CellIx) (cause : BitVec 4) (i : Instr) : (State.releaseStall s c cause i).kept = s.kept := by simp only [State.releaseStall]; (repeat' split) <;> simp
@[simp] theorem State.watchdog_kept (s : State) (c : CellIx) : (State.watchdog s c).kept = s.kept := by simp [State.watchdog]
@[simp] theorem State.toRpl_kept (s : State) (c : CellIx) (m : Msg) : (State.toRpl s c m).kept = s.kept := by simp [State.toRpl]
@[simp] theorem State.takeReply_kept (s : State) (m : Msg) : (State.takeReply s m).kept = s.kept := by simp only [State.takeReply]; (repeat' split) <;> simp
@[simp] theorem State.fetchBounced_kept (s : State) (c : CellIx) (m : Msg) : (State.fetchBounced s c m).kept = s.kept := by simp only [State.fetchBounced]; split <;> simp
@[simp] theorem State.takeBounce_kept (s : State) (m : Msg) : (State.takeBounce s m).kept = s.kept := by simp only [State.takeBounce]; (repeat' split) <;> simp
@[simp] theorem State.flushDone_kept (s : State) (q : QueueId) : (State.flushDone s q).kept = s.kept := by simp only [State.flushDone]; split <;> simp
@[simp] theorem State.enqueueMore_kept (s : State) (q : QueueId) : (State.enqueueMore s q).kept = s.kept := by simp only [State.enqueueMore]; split <;> simp
@[simp] theorem State.queueTail_kept (s : State) (q : QueueId) : (State.queueTail s q).kept = s.kept := by simp only [State.queueTail]; split <;> simp
@[simp] theorem State.setSync_kept (s : State) (i : ℕ) (o : SyncObj) : (State.setSync s i o).kept = s.kept := by simp [State.setSync]
@[simp] theorem State.syncReply_kept (s : State) (m : Msg) (code : Code) (value : Word) : (State.syncReply s m code value).kept = s.kept := by simp [State.syncReply]
@[simp] theorem State.releaseWaiters_kept (s : State) (i : ℕ) : (State.releaseWaiters s i).kept = s.kept := by simp [State.releaseWaiters]
@[simp] theorem State.addWaiter_kept (s : State) (w : Waiter) : (State.addWaiter s w).kept = s.kept := by simp [State.addWaiter]
@[simp] theorem State.applySync_kept (s : State) (m : Msg) : (State.applySync s m).kept = s.kept := by simp only [State.applySync]; (repeat' split) <;> simp
@[simp] theorem State.syncOp_kept (s : State) (m : Msg) : (State.syncOp s m).kept = s.kept := by simp [State.syncOp]
@[simp] theorem State.syncArrives_kept (s : State) (m : Msg) (op : ℕ) : (State.syncArrives s m op).kept = s.kept := by
  unfold State.syncArrives; apply onlyIf_kept; apply State.arrival_kept; simp
@[simp] theorem State.ceLimitReached_kept (s : State) (c : CellIx) (row : ℕ) : (State.ceLimitReached s c row).kept = s.kept := by simp [State.ceLimitReached]
@[simp] theorem State.retired_kept (s : State) (c : CellIx) (cause : BitVec 8) : (State.retired s c cause).kept = s.kept := by simp [State.retired]
@[simp] theorem State.startHosting_kept (s : State) (c : CellIx) (h : ℕ) (mem : MemSys) : (State.startHosting s c h mem).kept = s.kept := by simp [State.startHosting]
@[simp] theorem State.releaseLost_kept (s : State) (unit : ℕ) : (State.releaseLost s unit).kept = s.kept := by simp [State.releaseLost]
theorem State.putGroup_kept (s : State) (job : BitVec 32) (dix : ℕ) (w : ℕ) (map : ℕ) (psn : ℕ) (block : ℕ → List Byte) : ∀ t, (State.putGroup s job dix w map psn block) = some t → t.kept = s.kept := by simp only [State.putGroup]; (repeat' split) <;> simp
theorem State.putTensor_kept (s : State) (job : BitVec 32) (t : Desc) (v : Values) : ∀ u, (State.putTensor s job t v) = some u → u.kept = s.kept := by
  unfold State.putTensor
  suffices h : ∀ (l : List Nat) (a : Option State), (∀ u, a = some u → u.kept = s.kept) → ∀ u, l.foldl _ a = some u → u.kept = s.kept from h _ _ (by simp)
  intro l; induction l with
  | nil => intro a h; exact h
  | cons q l ih =>
    intro a h; refine ih _ ?_
    intro u hu; cases a with
    | none => simp at hu
    | some x => simp only [Option.bind_some] at hu; exact (State.putGroup_kept _ _ _ _ _ _ _ _ hu).trans (h x rfl)
theorem State.importLayer_kept (s : State) (job : BitVec 32) (g : GraphRec) (l : Desc) (t : Desc) : ∀ u, (State.importLayer s job g l t) = some u → u.kept = s.kept := by
  unfold State.importLayer; exact State.putTensor_kept _ _ _ _
@[simp] theorem State.exportLayer_kept (s : State) (g : GraphRec) (l : Desc) (t : Desc) : (State.exportLayer s g l t).1.kept = s.kept := by simp [State.exportLayer]
theorem State.hostLayer_kept (s : State) (job : BitVec 32) (g : GraphRec) (l : Desc) (p : Word) (t : Desc) : ∀ u, (State.hostLayer s job g l p t) = some u → u.kept = s.kept := by
  unfold State.hostLayer; intro u h; simp only [Option.map_eq_some_iff] at h; obtain ⟨v, hv, rfl⟩ := h
  simpa using State.putTensor_kept _ _ _ _ _ hv
theorem State.layerData_kept (s : State) (j : JobRec) (g : GraphRec) (p : Word) (l : Desc) : ∀ u, (State.layerData s j g p l) = some u → u.1.kept = s.kept := by
  unfold State.layerData; simp only []; intro u h; (repeat' split at h)
  · simp only [Option.map_eq_some_iff] at h; obtain ⟨v, hv, rfl⟩ := h; exact State.importLayer_kept _ _ _ _ _ _ hv
  · cases h
  · simp only [Option.some.injEq] at h; rw [← h]; simp
  · cases h
  · simp only [Option.some.injEq] at h; rw [← h]; simp
  · simp only [Option.map_eq_some_iff] at h; obtain ⟨v, hv, rfl⟩ := h; exact State.hostLayer_kept _ _ _ _ _ _ _ hv
  · cases h; rfl
@[simp] theorem State.readEntry_kept (s : State) (st : Nat) (f : State → State) (h : ∀ s, (f s).kept = s.kept) :
    (State.readEntry s st f).kept = s.kept := by
  unfold State.readEntry; simp only []; (repeat' split) <;> simp [h]
@[simp] theorem State.rejectJob_kept (s : State) (st : ℕ) (d : Desc) (prectab : List Word) (code : Code) (layer : BitVec 32) : (State.rejectJob s st d prectab code layer).kept = s.kept := by simp [State.rejectJob]
@[simp] theorem State.killedEntry_kept (s : State) (st : ℕ) (d : Desc) (prectab : List Word) (killers : List ℕ) : (State.killedEntry s st d prectab killers).kept = s.kept := by simp [State.killedEntry]
@[simp] theorem State.acceptJob_kept (s : State) (j : JobRec) : (State.acceptJob s j).kept = s.kept := by simp only [State.acceptJob]; split <;> simp
@[simp] theorem State.beginJob_kept (s : State) (st : ℕ) (d : Desc) (prectab : List Word) (killers : List ℕ) (cuts : List (Option (BitVec 16))) : (State.beginJob s st d prectab killers cuts).kept = s.kept := by simp only [State.beginJob]; (repeat' split) <;> simp
@[simp] theorem State.beginRegister_kept (s : State) (st : ℕ) (d : Desc) (graph : Desc) (ts : List Desc) (ls : List Desc) (room : Bool) : (State.beginRegister s st d graph ts ls room).kept = s.kept := by simp only [State.beginRegister]; (repeat' split) <;> simp
@[simp] theorem State.beginRelease_kept (s : State) (st : ℕ) (d : Desc) : (State.beginRelease s st d).kept = s.kept := by simp only [State.beginRelease]; split <;> simp
@[simp] theorem State.begin_kept (s : State) (q : QEntry) : (State.begin s q).kept = s.kept := by simp only [State.begin]; split <;> simp
@[simp] theorem State.nextEntry_kept (s : State) (st : ℕ) : (State.nextEntry s st).kept = s.kept := by simp only [State.nextEntry]; (repeat' split) <;> simp
@[simp] theorem State.sequential_kept (s : State) (st : ℕ) (c : Instr) : (State.sequential s st c).kept = s.kept := by simp [State.sequential]
@[simp] theorem State.killEntry_kept (s : State) (st : ℕ) (d : Desc) : (State.killEntry s st d).kept = s.kept := by
  unfold State.killEntry; simp only []; split
  · simp
  · split
    · simp
    · rw [foldl_kept]; · simp
      · intro s a; apply elim_kept <;> simp
@[simp] theorem State.cutDevice_kept (s : State) (job : BitVec 32) (scope : Option (BitVec 16)) : (State.cutDevice s job scope).kept = s.kept := by simp [State.cutDevice]
@[simp] theorem State.cutEntry_kept (s : State) (st : ℕ) (d : Desc) : (State.cutEntry s st d).kept = s.kept := by simp only [State.cutEntry]; split <;> simp
@[simp] theorem State.startJob_kept (s : State) (j : JobRec) : (State.startJob s j).kept = s.kept := by simp [State.startJob]
@[simp] theorem State.beginDelta_kept (s : State) (j : JobRec) (g : GraphRec) (p : Word) (l : Desc) (layer : BitVec 16) : (State.beginDelta s j g p l layer).kept = s.kept := by simp [State.beginDelta]
@[simp] theorem State.writeDev_kept (s : State) (a : ℕ) (l : List Word) : (State.writeDev s a l).kept = s.kept := by simp [State.writeDev]
@[simp] theorem State.writeRecords_kept (s : State) (job : BitVec 32) (layer : BitVec 16) (g : GraphRec) (p : Word) (l : Desc) (record : List Word) (carried : List Word) : (State.writeRecords s job layer g p l record carried).kept = s.kept := by simp only [State.writeRecords]; split <;> simp
@[simp] theorem State.endDelta_kept (s : State) (g : GraphRec) (l : Desc) : (State.endDelta s g l).kept = s.kept := by simp [State.endDelta]
@[simp] theorem State.writeLedgers_kept (s : State) (l : Desc) (ledgers : List Ledger) : (State.writeLedgers s l ledgers).kept = s.kept := by simp [State.writeLedgers]
@[simp] theorem State.layerDone_kept (s : State) (j : JobRec) (g : GraphRec) (p : Word) (l : Desc) (layer : BitVec 16) (code : Code) (psn : Bool) (record : List Word) (carried : List Word) (given : List (List Payload)) : (State.layerDone s j g p l layer code psn record carried given).kept = s.kept := by simp [State.layerDone]
@[simp] theorem State.signal_kept (s : State) (st : ℕ) : (State.signal s st).kept = s.kept := by simp [State.signal]
@[simp] theorem State.publish_kept (s : State) (st : ℕ) (v : BitVec 16) : (State.publish s st v).kept = s.kept := by simp [State.publish]
@[simp] theorem State.writeEntry_kept (s : State) (st : ℕ) (x : Completion) : (State.writeEntry s st x).kept = s.kept := by
  unfold State.writeEntry; simp
@[simp] theorem State.completionWrite_kept (s : State) (st : ℕ) (x : Completion) : (State.completionWrite s st x).kept = s.kept := by simp [State.completionWrite]
@[simp] theorem State.modHart_kept (s : State) (h : ℕ) (f : Hart → Hart) : (State.modHart s h f).kept = s.kept := by simp [State.modHart]
@[simp] theorem State.sendErr_kept (s : State) (h : ℕ) : (State.sendErr s h).kept = s.kept := by simp [State.sendErr]
@[simp] theorem State.portSend_kept (s : State) (m : Msg) : (State.portSend s m).kept = s.kept := by simp [State.portSend]
@[simp] theorem State.portSendAll_kept (s : State) (h : ℕ) (n : ℕ) (l : List Payload) : (State.portSendAll s h n l).kept = s.kept := by
  induction n generalizing s l with
  | zero => simp [State.portSendAll]
  | succ n ih =>
    cases l with
    | nil => simp [State.portSendAll]
    | cons a l => simp only [State.portSendAll]; (repeat' split) <;> simp [ih]
@[simp] theorem State.sendGo_kept (s : State) (h : ℕ) (addr : BitVec 50) (count : ℕ) (items : List Payload) : (State.sendGo s h addr count items).kept = s.kept := by simp [State.sendGo]
@[simp] theorem State.hiqPop_kept (s : State) (h : ℕ) : (State.hiqPop s h).kept = s.kept := by simp [State.hiqPop]
@[simp] theorem State.timerFire_kept (s : State) (t : ℕ) (armed : Option Word) : (State.timerFire s t armed).kept = s.kept := by simp only [State.timerFire]; split <;> simp
@[simp] theorem State.setBase_kept (s : State) (base : Option Word) : (State.setBase s base).kept = s.kept := by simp only [State.setBase]; split <;> simp
@[simp] theorem State.windowAccess_kept (s : State) (a : WsAccess) : (State.windowAccess s a).kept = s.kept := by simp only [State.windowAccess]; (repeat' split) <;> simp
@[simp] theorem State.barWrite_kept (s : State) (i : BarOp) (f : State → State) (h : (f s).kept = s.kept) :
    (State.barWrite s i f).kept = s.kept := by
  unfold State.barWrite; (repeat' split) <;> simp [h]
@[simp] theorem State.doorbell_kept (s : State) (id : ℕ) : (State.doorbell s id).kept = s.kept := by simp [State.doorbell]
@[simp] theorem State.doorbellError_kept (s : State) (st : ℕ) : (State.doorbellError s st).kept = s.kept := by simp [State.doorbellError]
@[simp] theorem State.sqTail_kept (s : State) (st : ℕ) (v : BitVec 16) : (State.sqTail s st v).kept = s.kept := by simp [State.sqTail]
@[simp] theorem State.clearStream_kept (s : State) (st : ℕ) (v : BitVec 4) : (State.clearStream s st v).kept = s.kept := by simp [State.clearStream]
@[simp] theorem State.cqHead_kept (s : State) (st : ℕ) (v : BitVec 16) : (State.cqHead s st v).kept = s.kept := by simp [State.cqHead]
@[simp] theorem State.endStream_kept (s : State) (st : ℕ) : (State.endStream s st).kept = s.kept := by
  unfold State.endStream; simp only [State.settle_kept]; rw [foldl_kept]; · simp
  · intro s a; apply elim_kept <;> simp
@[simp] theorem State.streamReset_kept (s : State) (st : ℕ) (w : StreamSetup) : (State.streamReset s st w).kept = s.kept := by simp [State.streamReset]
@[simp] theorem State.setBme_kept (s : State) (v : Bool) : (State.setBme s v).kept = s.kept := by simp [State.setBme]
@[simp] theorem State.flr_kept (s : State) : (State.flr s).kept = s.kept := by simp [State.flr]
@[simp] theorem State.pcieEvent_kept (s : State) (e : PcieEvent) : (State.pcieEvent s e).kept = s.kept := by simp only [State.pcieEvent]; split <;> simp
@[simp] theorem State.unmask_kept (s : State) (v : ℕ) : (State.unmask s v).kept = s.kept := by simp [State.unmask]
@[simp] theorem State.modDict_kept (s : State) (f : Dict → Dict) : (State.modDict s f).kept = s.kept := by simp [State.modDict]
@[simp] theorem State.answer_kept (s : State) (r : DictReq) (status : ℕ) (typ : ℕ) (total : ℕ) (data : List Byte) : (State.answer s r status typ total data).kept = s.kept := by simp only [State.answer]; split <;> simp
@[simp] theorem State.refuse_kept (s : State) (r : DictReq) (p : Option Param) (status : ℕ) : (State.refuse s r p status).kept = s.kept := by simp only [State.refuse]; split <;> simp
@[simp] theorem State.done_kept (s : State) (r : DictReq) (p : Param) (k : ℕ) : (State.done s r p k).kept = s.kept := by simp [State.done]
@[simp] theorem State.serve_kept (s : State) (k : ReqKind) (f : State → DictReq → Param → Nat → State)
    (h : ∀ s r p k, (f s r p k).kept = s.kept) : (State.serve s k f).kept = s.kept := by
  unfold State.serve; split
  · rfl
  · simp only []; split
    · simp
    · split <;> simp [h]
@[simp] theorem State.finishWrite_kept (s : State) (r : DictReq) (p : Param) (k : Nat) (t : Option State)
    (h : ∀ u, t = some u → u.kept = s.kept) : (State.finishWrite s r p k t).kept = s.kept := by
  unfold State.finishWrite; cases t <;> simp [h]
@[simp] theorem State.mailboxWrite_kept (s : State) (p : MbPath) (w : MbWrite) : (State.mailboxWrite s p w).kept = s.kept := by simp only [State.mailboxWrite]; split <;> simp
@[simp] theorem State.serveRead_kept (s : State) (r : DictReq) (p : Param) (k : ℕ) : (State.serveRead s r p k).kept = s.kept := by simp [State.serveRead]
@[simp] theorem State.setParam_kept (s : State) (index : ℕ) (p : Param) (k : ℕ) (v : List Byte) : (State.setParam s index p k v).kept = s.kept := by simp only [State.setParam]; split <;> simp
theorem State.writeParam_kept (s : State) (r : DictReq) (p : Param) (k : ℕ) : ∀ t, (State.writeParam s r p k) = some t → t.kept = s.kept := by simp [State.writeParam]
@[simp] theorem State.serveWrite_kept (s : State) (r : DictReq) (p : Param) (k : ℕ) : (State.serveWrite s r p k).kept = s.kept := by
  unfold State.serveWrite; exact State.finishWrite_kept _ _ _ _ _ (State.writeParam_kept s r p k)
@[simp] theorem State.stageAt_kept (s : State) (index : ℕ) (sub : ℕ) (k : ℕ) (v : List Byte) : (State.stageAt s index sub k v).kept = s.kept := by simp [State.stageAt]
@[simp] theorem State.serveStage_kept (s : State) (r : DictReq) (p : Param) (k : ℕ) : (State.serveStage s r p k).kept = s.kept := by simp [State.serveStage]
@[simp] theorem State.serveCommit_kept (s : State) (r : DictReq) (p : Param) (k : ℕ) : (State.serveCommit s r p k).kept = s.kept := by simp only [State.serveCommit]; (repeat' split) <;> simp
@[simp] theorem State.serveDiscard_kept (s : State) (r : DictReq) (p : Param) (k : ℕ) : (State.serveDiscard s r p k).kept = s.kept := by simp [State.serveDiscard]
@[simp] theorem State.setCommit_kept (s : State) (x : PendCommit) : (State.setCommit s x).kept = s.kept := by
  unfold State.setCommit; apply foldl_kept; intro s a; apply foldl_kept; intro s b; split <;> simp
@[simp] theorem State.applyCommit_kept (s : State) (x : PendCommit) : (State.applyCommit s x).kept = s.kept := by
  unfold State.applyCommit; extract_lets t u role t2
  have h : t2.kept = s.kept := (State.setRole_kept _ _ _).trans (State.setCommit_kept _ _)
  split
  · split
    · simpa using h
    · exact h
  · exact State.setCommit_kept _ _
@[simp] theorem State.commitApply_kept (s : State) (u : UnitAddr) (index : ℕ) : (State.commitApply s u index).kept = s.kept := by simp only [State.commitApply]; (repeat' split) <;> simp
@[simp] theorem State.chamoisFrame_kept (s : State) (g : Datagram) : (State.chamoisFrame s g).kept = s.kept := by simp [State.chamoisFrame]
@[simp] theorem State.solicit_kept (s : State) (g : Datagram) : (State.solicit s g).kept = s.kept := by simp [State.solicit]
@[simp] theorem State.announceNext_kept (s : State) : (State.announceNext s).kept = s.kept := by simp only [State.announceNext]; split <;> simp
@[simp] theorem State.dadComplete_kept (s : State) (duplicate : Bool) : (State.dadComplete s duplicate).kept = s.kept := by simp [State.dadComplete]
@[simp] theorem State.neighbor_kept (s : State) (g : Datagram) (target : BitVec 128) : (State.neighbor s g target).kept = s.kept := by simp [State.neighbor]
@[simp] theorem State.echo_kept (s : State) (g : Datagram) : (State.echo s g).kept = s.kept := by simp [State.echo]
@[simp] theorem State.serveSave_kept (s : State) (r : DictReq) (p : Param) (k : ℕ) : (State.serveSave s r p k).kept = s.kept := by simp [State.serveSave]
@[simp] theorem State.saveComplete_kept (s : State) (ok : Bool) : (State.saveComplete s ok).kept = s.kept := by simp only [State.saveComplete]; split <;> simp
@[simp] theorem State.serveRestore_kept (s : State) (r : DictReq) (p : Param) (k : ℕ) : (State.serveRestore s r p k).kept = s.kept := by simp [State.serveRestore]
@[simp] theorem State.holdPurge_kept (s : State) (dev : ℕ) : (State.holdPurge s dev).kept = s.kept := by simp [State.holdPurge]
theorem State.retrain_kept (s : State) (l : ℕ) : ∀ t, (State.retrain s l) = some t → t.kept = s.kept := by simp [State.retrain]
theorem State.writeRoutes_kept (s : State) (r : DictReq) : ∀ t, (State.writeRoutes s r) = some t → t.kept = s.kept := by simp [State.writeRoutes]
theorem State.writeGrant_kept (s : State) (r : DictReq) : ∀ t, (State.writeGrant s r) = some t → t.kept = s.kept := by simp [State.writeGrant]
@[simp] theorem State.takeDevId_kept (s : State) (dev : BitVec 16) : (State.takeDevId s dev).kept = s.kept := by simp [State.takeDevId]
theorem State.writeLinkMode_kept (s : State) (r : DictReq) (p : Param) (k : ℕ) : ∀ t, (State.writeLinkMode s r p k) = some t → t.kept = s.kept := by
  unfold State.writeLinkMode; intro t h; simp only [Option.map_eq_some_iff] at h; obtain ⟨u, hu, rfl⟩ := h
  simpa using State.writeParam_kept s r p k u hu
@[simp] theorem State.waveOverLinks_kept (s : State) (k : ℕ) (w : Wave) : (State.waveOverLinks s k w).kept = s.kept := by
  unfold State.waveOverLinks; simp only []; apply foldl_kept; simp
@[simp] theorem State.waveCheck_kept (s : State) (k : ℕ) : (State.waveCheck s k).kept = s.kept := by simp [State.waveCheck]
@[simp] theorem State.waveFirst_kept (s : State) (k : ℕ) (ch : Chan) (w : Wave) (root : UnitAddr) : (State.waveFirst s k ch w root).kept = s.kept := by simp [State.waveFirst]
@[simp] theorem State.waveAt_kept (s : State) (k : ℕ) (ch : Chan) (w : Wave) : (State.waveAt s k ch w).kept = s.kept := by simp [State.waveAt]
@[simp] theorem State.report_kept (s : State) (m : Msg) : (State.report s m).kept = s.kept := by simp [State.report]
theorem State.snapGo_kept (s : State) (n : ℕ) : ∀ t, (State.snapGo s n) = some t → t.kept = s.kept := by simp only [State.snapGo]; split <;> simp
@[simp] theorem State.snapStop_kept (s : State) : (State.snapStop s).kept = s.kept := by simp [State.snapStop]
@[simp] theorem State.barOp_kept (s : State) (a : BarOp) : (State.barOp s a).kept = s.kept := by simp only [State.barOp]; split <;> simp
@[simp] theorem State.runBarOps_kept (s : State) : (State.runBarOps s).kept = s.kept := by simp [State.runBarOps]
@[simp] theorem State.ringDoorbells_kept (s : State) : (State.ringDoorbells s).kept = s.kept := by simp [State.ringDoorbells]
@[simp] theorem State.thaw_kept (s : State) : (State.thaw s).kept = s.kept := by simp [State.thaw]
@[simp] theorem State.endFabric_kept (s : State) : (State.endFabric s).kept = s.kept := by simp [State.endFabric]
@[simp] theorem State.reachFreeze_kept (s : State) : (State.reachFreeze s).kept = s.kept := by simp [State.reachFreeze]
@[simp] theorem State.endFull_kept (s : State) : (State.endFull s).kept = s.kept := by simp [State.endFull]
@[simp] theorem State.debugRead_kept (s : State) (r : DictReq) (p : Param) (k : ℕ) : (State.debugRead s r p k).kept = s.kept := by simp [State.debugRead]
@[simp] theorem State.modTap_kept (s : State) (i : ℕ) (f : Tap → Tap) : (State.modTap s i f).kept = s.kept := by
  unfold State.modTap; simp only [State.kept_mk, Dbg.setTap]; (repeat' split) <;> rfl
@[simp] theorem State.pullPins_kept (s : State) (i : ℕ) : (State.pullPins s i).kept = s.kept := by simp [State.pullPins]
@[simp] theorem State.selectTap_kept (s : State) (i : ℕ) (opc : BitVec 8) : (State.selectTap s i opc).kept = s.kept := by simp [State.selectTap]
@[simp] theorem State.dbgAccess_kept (s : State) (tap : ℕ) (dr : BitVec 168) : (State.dbgAccess s tap dr).kept = s.kept := by simp [State.dbgAccess]
@[simp] theorem State.modLink_kept (s : State) (l : ℕ) (f : Link → Link) : (State.modLink s l f).kept = s.kept := by simp [State.modLink]
@[simp] theorem State.pump_kept (s : State) (l : ℕ) : (State.pump s l).kept = s.kept := by simp [State.pump]
@[simp] theorem State.replay_kept (s : State) (l : ℕ) : (State.replay s l).kept = s.kept := by simp [State.replay]
@[simp] theorem State.reroute_kept (s : State) (d : ℕ) (vc : Bool) (p : Packet) : (State.reroute s d vc p).kept = s.kept := by simp only [State.reroute]; (repeat' split) <;> simp
@[simp] theorem State.partnerGone_kept (s : State) (l : ℕ) : (State.partnerGone s l).kept = s.kept := by simp [State.partnerGone]
@[simp] theorem State.badFlit_kept (s : State) (l : ℕ) : (State.badFlit s l).kept = s.kept := by simp [State.badFlit]
@[simp] theorem State.flitReport_kept (s : State) (l : ℕ) (b : List Byte) : (State.flitReport s l b).kept = s.kept := by simp [State.flitReport]
@[simp] theorem State.dataIn_kept (s : State) (l : ℕ) (b : List Byte) : (State.dataIn s l b).kept = s.kept := by simp [State.dataIn]
@[simp] theorem State.linkUp_kept (s : State) (l : ℕ) (p : Partner) : (State.linkUp s l p).kept = s.kept := by simp [State.linkUp]
@[simp] theorem State.checkDup_kept (s : State) (l : ℕ) (p : Partner) : (State.checkDup s l p).kept = s.kept := by simp [State.checkDup]
@[simp] theorem State.helloIn_kept (s : State) (l : ℕ) (b : List Byte) : (State.helloIn s l b).kept = s.kept := by simp only [State.helloIn]; split <;> simp
@[simp] theorem State.sendDegrade_kept (s : State) (l : ℕ) : (State.sendDegrade s l).kept = s.kept := by simp [State.sendDegrade]
@[simp] theorem State.degrade_kept (s : State) (l : ℕ) : (State.degrade s l).kept = s.kept := by simp [State.degrade]
@[simp] theorem State.flitIn_kept (s : State) (l : ℕ) (b : List Byte) : (State.flitIn s l b).kept = s.kept := by simp only [State.flitIn]; (repeat' split) <;> simp
@[simp] theorem State.passRx_kept (s : State) (l : ℕ) (b : List Byte) : (State.passRx s l b).kept = s.kept := by simp [State.passRx]
@[simp] theorem State.nativeFlit_kept (s : State) (l : ℕ) (b : List Byte) (kind : Bool) : (State.nativeFlit s l b kind).kept = s.kept := by simp [State.nativeFlit]
@[simp] theorem State.frameIn_kept (s : State) (l : ℕ) (f : List Byte) (fcsOk : Bool) : (State.frameIn s l f fcsOk).kept = s.kept := by simp [State.frameIn]
@[simp] theorem State.sendHello_kept (s : State) (l : ℕ) : (State.sendHello s l).kept = s.kept := by simp [State.sendHello]
@[simp] theorem State.retrained_kept (s : State) (l : ℕ) (ok : Bool) : (State.retrained s l ok).kept = s.kept := by simp [State.retrained]
theorem State.openPacket_kept (s : State) (x : ℕ × Bool) (i : QItem) : ∀ t, (State.openPacket s x i) = some t → t.kept = s.kept := by simp only [State.openPacket]; (repeat' split) <;> simp
@[simp] theorem State.waveOver_kept (s : State) (l : Fin 32) (vc : Bool) (i : QItem) : (State.waveOver s l vc i).kept = s.kept := by simp [State.waveOver]
theorem State.forwardItem_kept (s : State) (l : Fin 32) (vc : Bool) (i : QItem) : ∀ t, (State.forwardItem s l vc i) = some t → t.kept = s.kept := by
  unfold State.forwardItem; intro t h; simp only [] at h; (repeat' split at h)
  · cases h; simp
  · cases h; simp
  · simp only [Option.map_eq_some_iff] at h; obtain ⟨u, hu, rfl⟩ := h; simpa using State.openPacket_kept _ _ _ _ hu
@[simp] theorem State.forwardItems_kept (s : State) (l : Fin 32) (vc : Bool) (q : List QItem) : (State.forwardItems s l vc q).1.kept = s.kept := by
  induction q generalizing s with
  | nil => simp [State.forwardItems]
  | cons i t ih =>
    simp only [State.forwardItems]; split
    · rfl
    · rw [ih]; exact State.forwardItem_kept _ _ _ _ _ (by assumption)
@[simp] theorem State.forwardFlit_kept (s : State) (l : Fin 32) (vc : Bool) : (State.forwardFlit s l vc).kept = s.kept := by simp only [State.forwardFlit]; (repeat' split) <;> simp
@[simp] theorem State.pumpAll_kept (s : State) : (State.pumpAll s).kept = s.kept := by simp [State.pumpAll]
@[simp] theorem State.releaseHeld_kept (s : State) (dest : BitVec 16) : (State.releaseHeld s dest).kept = s.kept := by simp only [State.releaseHeld]; (repeat' split) <;> simp
theorem State.retryOut_kept (s : State) (m : Msg) : ∀ t, (State.retryOut s m) = some t → t.kept = s.kept := by
  intro t h; unfold State.retryOut at h; rw [State.routePacket_kept _ _ _ _ _ h]; rfl
@[simp] theorem State.retryAll_kept (dest : BitVec 16) (l : List Msg) (s : State) : (State.retryAll dest l s).kept = s.kept := by
  induction l generalizing s with
  | nil => rfl
  | cons m l ih =>
    unfold State.retryAll; split
    · split
      · rw [ih]; exact State.retryOut_kept _ _ _ (by assumption)
      · rfl
    · exact ih s
@[simp] theorem State.heldRelease_kept (s : State) (dest : BitVec 16) : (State.heldRelease s dest).kept = s.kept := by simp [State.heldRelease]
@[simp] theorem State.deliverArrived_kept (s : State) (d : ℕ) : (State.deliverArrived s d).kept = s.kept := by simp only [State.deliverArrived]; (repeat' split) <;> simp
@[simp] theorem State.cableChange_kept (s : State) (port : ℕ) (c : Cable) : (State.cableChange s port c).kept = s.kept := by simp [State.cableChange]
@[simp] theorem State.modPwr_kept (s : State) (f : Power → Power) : (State.modPwr s f).kept = s.kept := by simp [State.modPwr]
@[simp] theorem State.perst_kept (s : State) : (State.perst s).kept = s.kept := by simp [State.perst]
@[simp] theorem State.controlStep_kept (s : State) (w : ℕ) : (State.controlStep s w).kept = s.kept := by simp [State.controlStep]
@[simp] theorem State.sample_kept (s : State) (die : ℕ) (raw : BitVec 16) : (State.sample s die raw).kept = s.kept := by simp [State.sample]
@[simp] theorem State.whole_kept (s : State) (r : DictReq) (p : Param) (k n : Nat) (t : Option State)
    (h : ∀ u, t = some u → u.kept = s.kept) : (State.whole s r p k n t).kept = s.kept := by
  unfold State.whole; split
  · exact State.finishWrite_kept _ _ _ _ _ h
  · simp
@[simp] theorem State.bootStore_kept (s : State) : (State.bootStore s).kept = s.kept := by simp [State.bootStore]
@[simp] theorem State.bootRows_kept (s : State) (c : CellIx) (m : SMap ℕ) : (State.bootRows s c m).kept = s.kept := by simp [State.bootRows]
@[simp] theorem State.placeRetired_kept (s : State) (i : ℕ) : (State.placeRetired s i).kept = s.kept := by
  unfold State.placeRetired; simp only []; split
  · simp
  · split
    · rfl
    · apply elim_kept <;> simp
@[simp] theorem State.bootRetire_kept (s : State) (b : BootInput) (c : Option StoreCopy) : (State.bootRetire s b c).kept = s.kept := by simp [State.bootRetire]
@[simp] theorem State.bootLinks_kept (s : State) : (State.bootLinks s).kept = s.kept := by simp [State.bootLinks]
@[simp] theorem tick_kept (s : State) : (tick s).kept = s.kept := by simp [tick]
end Sys2Proof.Machine
end

