-- ==== Sys2Proof/Laws/KeptExec.lean ====
section
/-! SUPPORT. One lemma per command that touches neither the queue, nor the security engine, nor the debug authorisation. -/

namespace Sys2Proof.Machine
open Sys2Proof
theorem execLi_kept (c : CellIx) (f : InsFields) (s : State) (s' : State) (h : execLi c f s = .next s') : s'.kept = s.kept := by
  unfold execLi at h; cases h; simp
theorem execLih_kept (c : CellIx) (f : InsFields) (s : State) (s' : State) (h : execLih c f s = .next s') : s'.kept = s.kept := by
  unfold execLih at h; cases h; simp
theorem execAddI_kept (c : CellIx) (f : InsFields) (s : State) (s' : State) (h : execAddI c f s = .next s') : s'.kept = s.kept := by
  unfold execAddI at h; cases h; simp
theorem execSubI_kept (c : CellIx) (f : InsFields) (s : State) (s' : State) (h : execSubI c f s = .next s') : s'.kept = s.kept := by
  unfold execSubI at h; cases h; simp
theorem execAndI_kept (c : CellIx) (f : InsFields) (s : State) (s' : State) (h : execAndI c f s = .next s') : s'.kept = s.kept := by
  unfold execAndI at h; cases h; simp
theorem execOrI_kept (c : CellIx) (f : InsFields) (s : State) (s' : State) (h : execOrI c f s = .next s') : s'.kept = s.kept := by
  unfold execOrI at h; cases h; simp
theorem execXorI_kept (c : CellIx) (f : InsFields) (s : State) (s' : State) (h : execXorI c f s = .next s') : s'.kept = s.kept := by
  unfold execXorI at h; cases h; simp
theorem execShl_kept (c : CellIx) (f : InsFields) (s : State) (s' : State) (h : execShl c f s = .next s') : s'.kept = s.kept := by
  unfold execShl at h; cases h; simp
theorem execShr_kept (c : CellIx) (f : InsFields) (s : State) (s' : State) (h : execShr c f s = .next s') : s'.kept = s.kept := by
  unfold execShr at h; cases h; simp
theorem execSra_kept (c : CellIx) (f : InsFields) (s : State) (s' : State) (h : execSra c f s = .next s') : s'.kept = s.kept := by
  unfold execSra at h; cases h; simp
theorem execMulI_kept (c : CellIx) (f : InsFields) (s : State) (s' : State) (h : execMulI c f s = .next s') : s'.kept = s.kept := by
  unfold execMulI at h; cases h; simp
theorem execLd1_kept (c : CellIx) (f : InsFields) (e : List RowFlip) (s : State) (s' : State) (h : execLd1 c f e s = .next s') : s'.kept = s.kept := by
  unfold execLd1 at h; cases h; simp
theorem execLd2_kept (c : CellIx) (f : InsFields) (e : List RowFlip) (s : State) (s' : State) (h : execLd2 c f e s = .next s') : s'.kept = s.kept := by
  unfold execLd2 at h; cases h; simp
theorem execLd4_kept (c : CellIx) (f : InsFields) (e : List RowFlip) (s : State) (s' : State) (h : execLd4 c f e s = .next s') : s'.kept = s.kept := by
  unfold execLd4 at h; cases h; simp
theorem execLd8_kept (c : CellIx) (f : InsFields) (e : List RowFlip) (s : State) (s' : State) (h : execLd8 c f e s = .next s') : s'.kept = s.kept := by
  unfold execLd8 at h; cases h; simp
theorem execSt1_kept (c : CellIx) (f : InsFields) (e : List RowFlip) (s : State) (s' : State) (h : execSt1 c f e s = .next s') : s'.kept = s.kept := by
  unfold execSt1 at h; cases h; simp
theorem execSt2_kept (c : CellIx) (f : InsFields) (e : List RowFlip) (s : State) (s' : State) (h : execSt2 c f e s = .next s') : s'.kept = s.kept := by
  unfold execSt2 at h; cases h; simp
theorem execSt4_kept (c : CellIx) (f : InsFields) (e : List RowFlip) (s : State) (s' : State) (h : execSt4 c f e s = .next s') : s'.kept = s.kept := by
  unfold execSt4 at h; cases h; simp
theorem execSt8_kept (c : CellIx) (f : InsFields) (s : State) (s' : State) (h : execSt8 c f s = .next s') : s'.kept = s.kept := by
  unfold execSt8 at h; cases h; simp
theorem execBeq_kept (c : CellIx) (f : InsFields) (s : State) (s' : State) (h : execBeq c f s = .next s') : s'.kept = s.kept := by
  unfold execBeq at h; cases h; simp
theorem execBne_kept (c : CellIx) (f : InsFields) (s : State) (s' : State) (h : execBne c f s = .next s') : s'.kept = s.kept := by
  unfold execBne at h; cases h; simp
theorem execBlt_kept (c : CellIx) (f : InsFields) (s : State) (s' : State) (h : execBlt c f s = .next s') : s'.kept = s.kept := by
  unfold execBlt at h; cases h; simp
theorem execBge_kept (c : CellIx) (f : InsFields) (s : State) (s' : State) (h : execBge c f s = .next s') : s'.kept = s.kept := by
  unfold execBge at h; cases h; simp
theorem execBltu_kept (c : CellIx) (f : InsFields) (s : State) (s' : State) (h : execBltu c f s = .next s') : s'.kept = s.kept := by
  unfold execBltu at h; cases h; simp
theorem execBgeu_kept (c : CellIx) (f : InsFields) (s : State) (s' : State) (h : execBgeu c f s = .next s') : s'.kept = s.kept := by
  unfold execBgeu at h; cases h; simp
theorem execJal_kept (c : CellIx) (f : InsFields) (s : State) (s' : State) (h : execJal c f s = .next s') : s'.kept = s.kept := by
  unfold execJal at h; cases h; simp
theorem execJr_kept (c : CellIx) (f : InsFields) (s : State) (s' : State) (h : execJr c f s = .next s') : s'.kept = s.kept := by
  unfold execJr at h; cases h; simp
theorem execRdrand_kept (c : CellIx) (f : InsFields) (s : State) (s' : State) (h : execRdrand c f s = .next s') : s'.kept = s.kept := by
  unfold execRdrand at h; cases h; simp
theorem execTimeRd_kept (c : CellIx) (f : InsFields) (s : State) (s' : State) (h : execTimeRd c f s = .next s') : s'.kept = s.kept := by
  unfold execTimeRd at h; cases h; simp
theorem execFenceI_kept (c : CellIx) (f : InsFields) (s : State) (s' : State) (h : execFenceI c f s = .next s') : s'.kept = s.kept := by
  unfold execFenceI at h; cases h; simp
theorem execEndRun_kept (c : CellIx) (f : InsFields) (s : State) (s' : State) (h : execEndRun c f s = .next s') : s'.kept = s.kept := by
  unfold execEndRun at h; cases h; simp
theorem execIllegalOpcode_kept (c : CellIx) (opc : BitVec 8) (f : InsFields) (s : State) (s' : State) (h : execIllegalOpcode c opc f s = .next s') : s'.kept = s.kept := by
  unfold execIllegalOpcode at h; cases h; simp
theorem execWindowWrite_kept (m : Msg) (s : State) (s' : State) (h : execWindowWrite m s = .next s') : s'.kept = s.kept := by
  unfold execWindowWrite at h; cases h; simp
theorem execWindowWriteLanded_kept (u : UnitAddr) (w : Fin 16) (s : State) (s' : State) (h : execWindowWriteLanded u w s = .next s') : s'.kept = s.kept := by
  unfold execWindowWriteLanded at h; cases h; simp
theorem execWopen_kept (c : CellIx) (f : InsFields) (s : State) (s' : State) (h : execWopen c f s = .next s') : s'.kept = s.kept := by
  unfold execWopen at h; cases h; simp
theorem execWclose_kept (c : CellIx) (f : InsFields) (s : State) (s' : State) (h : execWclose c f s = .next s') : s'.kept = s.kept := by
  unfold execWclose at h; cases h; simp
theorem execCmdDispatch_kept (c : CellIx) (s : State) (s' : State) (h : execCmdDispatch c s = .next s') : s'.kept = s.kept := by
  unfold execCmdDispatch at h; cases h; simp
theorem execRunCmd_kept (c : CellIx) (s : State) (s' : State) (h : execRunCmd c s = .next s') : s'.kept = s.kept := by
  unfold execRunCmd at h; (repeat' split at h) <;> cases h <;> simp
theorem execImageCmd_kept (c : CellIx) (s : State) (s' : State) (h : execImageCmd c s = .next s') : s'.kept = s.kept := by
  unfold execImageCmd at h; (repeat' split at h) <;> cases h <;> simp
theorem execImageItem_kept (c : CellIx) (s : State) (s' : State) (h : execImageItem c s = .next s') : s'.kept = s.kept := by
  unfold execImageItem at h; (repeat' split at h) <;> cases h <;> simp
theorem execWindowOpenCmd_kept (u : UnitAddr) (s : State) (s' : State) (h : execWindowOpenCmd u s = .next s') : s'.kept = s.kept := by
  unfold execWindowOpenCmd at h; (repeat' split at h) <;> cases h <;> simp
theorem execWindowCloseCmd_kept (u : UnitAddr) (s : State) (s' : State) (h : execWindowCloseCmd u s = .next s') : s'.kept = s.kept := by
  unfold execWindowCloseCmd at h; (repeat' split at h) <;> cases h <;> simp
theorem execDeferredWindowOpen_kept (u : UnitAddr) (w : Fin 16) (s : State) (s' : State) (h : execDeferredWindowOpen u w s = .next s') : s'.kept = s.kept := by
  unfold execDeferredWindowOpen at h; cases h; simp
theorem execCommandComplete_kept (c : CellIx) (s : State) (s' : State) (h : execCommandComplete c s = .next s') : s'.kept = s.kept := by
  unfold execCommandComplete at h; (repeat' split at h) <;> cases h <;> simp
theorem execCarcaseCommandComplete_kept (u : UnitAddr) (tag : BitVec 32) (s : State) (s' : State) (h : execCarcaseCommandComplete u tag s = .next s') : s'.kept = s.kept := by
  unfold execCarcaseCommandComplete at h; (repeat' split at h) <;> cases h <;> simp
theorem execScrubCmd_kept (c : CellIx) (s : State) (s' : State) (h : execScrubCmd c s = .next s') : s'.kept = s.kept := by
  unfold execScrubCmd at h; (repeat' split at h) <;> cases h <;> simp
theorem execScrubEnd_kept (c : CellIx) (s : State) (s' : State) (h : execScrubEnd c s = .next s') : s'.kept = s.kept := by
  unfold execScrubEnd at h; cases h; simp
theorem execKillCmd_kept (m : Msg) (s : State) (s' : State) (h : execKillCmd m s = .next s') : s'.kept = s.kept := by
  unfold execKillCmd at h; cases h; simp
theorem execCutCmd_kept (m : Msg) (s : State) (s' : State) (h : execCutCmd m s = .next s') : s'.kept = s.kept := by
  unfold execCutCmd at h; cases h; simp
theorem execCommandArrival_kept (m : Msg) (s : State) (s' : State) (h : execCommandArrival m s = .next s') : s'.kept = s.kept := by
  unfold execCommandArrival at h; cases h; simp
theorem execRoleSet_kept (m : Msg) (s : State) (s' : State) (h : execRoleSet m s = .next s') : s'.kept = s.kept := by
  unfold execRoleSet at h; cases h; simp
theorem execJoinedFetchArrival_kept (c : CellIx) (e : List UnitFlip) (s : State) (s' : State) (h : execJoinedFetchArrival c e s = .next s') : s'.kept = s.kept := by
  unfold execJoinedFetchArrival at h; (repeat' split at h) <;> cases h <;> simp
theorem execGroupFree_kept (dix : BitVec 32) (s : State) (s' : State) (h : execGroupFree dix s = .next s') : s'.kept = s.kept := by
  unfold execGroupFree at h; cases h; simp
theorem execStorageRelease_kept (base : ℕ) (s : State) (s' : State) (h : execStorageRelease base s = .next s') : s'.kept = s.kept := by
  unfold execStorageRelease at h; (repeat' split at h) <;> cases h <;> simp
theorem execBlockFetch_kept (m : Msg) (e : List UnitFlip) (s : State) (s' : State) (h : execBlockFetch m e s = .next s') : s'.kept = s.kept := by
  unfold execBlockFetch at h; cases h; simp
theorem execFetch_kept (c : CellIx) (f : InsFields) (e : List UnitFlip) (s : State) (s' : State) (h : execFetch c f e s = .next s') : s'.kept = s.kept := by
  unfold execFetch at h; cases h; simp
theorem execEntryrd_kept (c : CellIx) (f : InsFields) (s : State) (s' : State) (h : execEntryrd c f s = .next s') : s'.kept = s.kept := by
  unfold execEntryrd at h; cases h; simp
theorem execStoreG_kept (c : CellIx) (f : InsFields) (s : State) (s' : State) (h : execStoreG c f s = .next s') : s'.kept = s.kept := by
  unfold execStoreG at h; cases h; simp
theorem execGatherColumn_kept (c : CellIx) (f : InsFields) (e : List UnitFlip) (s : State) (s' : State) (h : execGatherColumn c f e s = .next s') : s'.kept = s.kept := by
  unfold execGatherColumn at h; cases h; simp
theorem execGatherRow_kept (c : CellIx) (f : InsFields) (e : List UnitFlip) (s : State) (s' : State) (h : execGatherRow c f e s = .next s') : s'.kept = s.kept := by
  unfold execGatherRow at h; cases h; simp
theorem execSelectN_kept (c : CellIx) (f : InsFields) (s : State) (s' : State) (h : execSelectN c f s = .next s') : s'.kept = s.kept := by
  unfold execSelectN at h; cases h; simp
theorem execAuditN_kept (c : CellIx) (f : InsFields) (s : State) (s' : State) (h : execAuditN c f s = .next s') : s'.kept = s.kept := by
  unfold execAuditN at h; cases h; simp
theorem execSpillAlloc_kept (m : Msg) (s : State) (s' : State) (h : execSpillAlloc m s = .next s') : s'.kept = s.kept := by
  unfold execSpillAlloc at h; cases h; simp
theorem execSpillFree_kept (m : Msg) (s : State) (s' : State) (h : execSpillFree m s = .next s') : s'.kept = s.kept := by
  unfold execSpillFree at h; cases h; simp
theorem execSpillWrite_kept (m : Msg) (s : State) (s' : State) (h : execSpillWrite m s = .next s') : s'.kept = s.kept := by
  unfold execSpillWrite at h; cases h; simp
theorem execSpillRead_kept (m : Msg) (s : State) (s' : State) (h : execSpillRead m s = .next s') : s'.kept = s.kept := by
  unfold execSpillRead at h; cases h; simp
theorem execTreeEmptyToken_kept (c : CellIx) (t : Fin 2) (s : State) (s' : State) (h : execTreeEmptyToken c t s = .next s') : s'.kept = s.kept := by
  unfold execTreeEmptyToken at h; cases h; simp
theorem execSabItemApply_kept (c : CellIx) (bank : Fin 16) (x : Option Acc) (s : State) (s' : State) (h : execSabItemApply c bank x s = .next s') : s'.kept = s.kept := by
  unfold execSabItemApply at h; cases h; simp
theorem execDrainRow_kept (c : CellIx) (t : Fin 2) (x : Option Upset) (s : State) (s' : State) (h : execDrainRow c t x s = .next s') : s'.kept = s.kept := by
  unfold execDrainRow at h; simp only [] at h; (repeat' split at h) <;> cases h <;> simp
theorem execChainSum_kept (m : Msg) (s : State) (s' : State) (h : execChainSum m s = .next s') : s'.kept = s.kept := by
  unfold execChainSum at h; cases h; simp
theorem execChainInletAccept_kept (c : CellIx) (t : Fin 2) (s : State) (s' : State) (h : execChainInletAccept c t s = .next s') : s'.kept = s.kept := by
  unfold execChainInletAccept at h; cases h; simp
theorem execDrainRq_kept (c : CellIx) (f : InsFields) (s : State) (s' : State) (h : execDrainRq c f s = .next s') : s'.kept = s.kept := by
  unfold execDrainRq at h; cases h; simp
theorem execDrainWide_kept (c : CellIx) (f : InsFields) (s : State) (s' : State) (h : execDrainWide c f s = .next s') : s'.kept = s.kept := by
  unfold execDrainWide at h; cases h; simp
theorem execDrainChain_kept (c : CellIx) (f : InsFields) (s : State) (s' : State) (h : execDrainChain c f s = .next s') : s'.kept = s.kept := by
  unfold execDrainChain at h; cases h; simp
theorem execDrainSab_kept (c : CellIx) (f : InsFields) (s : State) (s' : State) (h : execDrainSab c f s = .next s') : s'.kept = s.kept := by
  unfold execDrainSab at h; cases h; simp
theorem execArrayBeat_kept (c : CellIx) (unsupplied : List ℕ) (behind : Bool) (e : List RowFlip) (x : Option Upset) (s : State) (s' : State) (h : execArrayBeat c unsupplied behind e x s = .next s') : s'.kept = s.kept := by
  unfold execArrayBeat at h; (repeat' split at h) <;> cases h <;> simp
theorem execTileCheckpoint_kept (c : CellIx) (t : Fin 2) (x : Option Upset) (s : State) (s' : State) (h : execTileCheckpoint c t x s = .next s') : s'.kept = s.kept := by
  unfold execTileCheckpoint at h; cases h; simp
theorem execLoadComplete_kept (c : CellIx) (t : Fin 2) (s : State) (s' : State) (h : execLoadComplete c t s = .next s') : s'.kept = s.kept := by
  unfold execLoadComplete at h; (repeat' split at h) <;> cases h <;> simp
theorem execArrayI_kept (c : CellIx) (f : InsFields) (s : State) (s' : State) (h : execArrayI c f s = .next s') : s'.kept = s.kept := by
  unfold execArrayI at h; cases h; simp
theorem execLoadT_kept (c : CellIx) (f : InsFields) (s : State) (s' : State) (h : execLoadT c f s = .next s') : s'.kept = s.kept := by
  unfold execLoadT at h; cases h; simp
theorem execRangeReset_kept (c : CellIx) (f : InsFields) (s : State) (s' : State) (h : execRangeReset c f s = .next s') : s'.kept = s.kept := by
  unfold execRangeReset at h; cases h; simp
theorem execRequant_kept (c : CellIx) (f : InsFields) (s : State) (s' : State) (h : execRequant c f s = .next s') : s'.kept = s.kept := by
  unfold execRequant at h; cases h; simp
theorem execRangeRequant_kept (c : CellIx) (f : InsFields) (s : State) (s' : State) (h : execRangeRequant c f s = .next s') : s'.kept = s.kept := by
  unfold execRangeRequant at h; cases h; simp
theorem execDequant_kept (c : CellIx) (f : InsFields) (s : State) (s' : State) (h : execDequant c f s = .next s') : s'.kept = s.kept := by
  unfold execDequant at h; cases h; simp
theorem execQuant_kept (c : CellIx) (f : InsFields) (s : State) (s' : State) (h : execQuant c f s = .next s') : s'.kept = s.kept := by
  unfold execQuant at h; cases h; simp
theorem execRangeF32_kept (c : CellIx) (f : InsFields) (s : State) (s' : State) (h : execRangeF32 c f s = .next s') : s'.kept = s.kept := by
  unfold execRangeF32 at h; cases h; simp
theorem execSabout_kept (c : CellIx) (f : InsFields) (s : State) (s' : State) (h : execSabout c f s = .next s') : s'.kept = s.kept := by
  unfold execSabout at h; cases h; simp
theorem execRangeout_kept (c : CellIx) (f : InsFields) (s : State) (s' : State) (h : execRangeout c f s = .next s') : s'.kept = s.kept := by
  unfold execRangeout at h; cases h; simp
theorem execRangemerge_kept (c : CellIx) (f : InsFields) (s : State) (s' : State) (h : execRangemerge c f s = .next s') : s'.kept = s.kept := by
  unfold execRangemerge at h; cases h; simp
theorem execScaleRq_kept (c : CellIx) (f : InsFields) (s : State) (s' : State) (h : execScaleRq c f s = .next s') : s'.kept = s.kept := by
  unfold execScaleRq at h; cases h; simp
theorem execLedgerW_kept (c : CellIx) (f : InsFields) (s : State) (s' : State) (h : execLedgerW c f s = .next s') : s'.kept = s.kept := by
  unfold execLedgerW at h; cases h; simp
theorem execCvt_kept (c : CellIx) (f : InsFields) (s : State) (s' : State) (h : execCvt c f s = .next s') : s'.kept = s.kept := by
  unfold execCvt at h; cases h; simp
theorem execLfuMul_kept (c : CellIx) (f : InsFields) (s : State) (s' : State) (h : execLfuMul c f s = .next s') : s'.kept = s.kept := by
  unfold execLfuMul at h; cases h; simp
theorem execExpF_kept (c : CellIx) (f : InsFields) (s : State) (s' : State) (h : execExpF c f s = .next s') : s'.kept = s.kept := by
  unfold execExpF at h; cases h; simp
theorem execLogF_kept (c : CellIx) (f : InsFields) (s : State) (s' : State) (h : execLogF c f s = .next s') : s'.kept = s.kept := by
  unfold execLogF at h; cases h; simp
theorem execRecip_kept (c : CellIx) (f : InsFields) (s : State) (s' : State) (h : execRecip c f s = .next s') : s'.kept = s.kept := by
  unfold execRecip at h; cases h; simp
theorem execRsqrt_kept (c : CellIx) (f : InsFields) (s : State) (s' : State) (h : execRsqrt c f s = .next s') : s'.kept = s.kept := by
  unfold execRsqrt at h; cases h; simp
theorem execSoftmax_kept (c : CellIx) (f : InsFields) (s : State) (s' : State) (h : execSoftmax c f s = .next s') : s'.kept = s.kept := by
  unfold execSoftmax at h; cases h; simp
theorem execGelu_kept (c : CellIx) (f : InsFields) (s : State) (s' : State) (h : execGelu c f s = .next s') : s'.kept = s.kept := by
  unfold execGelu at h; cases h; simp
theorem execSilu_kept (c : CellIx) (f : InsFields) (s : State) (s' : State) (h : execSilu c f s = .next s') : s'.kept = s.kept := by
  unfold execSilu at h; cases h; simp
theorem execNormF_kept (c : CellIx) (f : InsFields) (s : State) (s' : State) (h : execNormF c f s = .next s') : s'.kept = s.kept := by
  unfold execNormF at h; cases h; simp
theorem execUnitOperationComplete_kept (c : CellIx) (k : ℕ) (again : List ℕ) (s : State) (s' : State) (h : execUnitOperationComplete c k again s = .next s') : s'.kept = s.kept := by
  unfold execUnitOperationComplete at h; (repeat' split at h) <;> cases h <;> simp
theorem execStallRelease_kept (c : CellIx) (s : State) (s' : State) (h : execStallRelease c s = .next s') : s'.kept = s.kept := by
  unfold execStallRelease at h; (repeat' split at h) <;> cases h <;> simp
theorem execSeqWdog_kept (c : CellIx) (s : State) (s' : State) (h : execSeqWdog c s = .next s') : s'.kept = s.kept := by
  unfold execSeqWdog at h; cases h; simp
theorem execReplyArrival_kept (m : Msg) (s : State) (s' : State) (h : execReplyArrival m s = .next s') : s'.kept = s.kept := by
  unfold execReplyArrival at h; cases h; simp
theorem execBounceArrival_kept (m : Msg) (s : State) (s' : State) (h : execBounceArrival m s = .next s') : s'.kept = s.kept := by
  unfold execBounceArrival at h; cases h; simp
theorem execQueueFlushComplete_kept (q : QueueId) (s : State) (s' : State) (h : execQueueFlushComplete q s = .next s') : s'.kept = s.kept := by
  unfold execQueueFlushComplete at h; cases h; simp
theorem execQueueEnqueueResume_kept (q : QueueId) (s : State) (s' : State) (h : execQueueEnqueueResume q s = .next s') : s'.kept = s.kept := by
  unfold execQueueEnqueueResume at h; cases h; simp
theorem execQueueTail_kept (q : QueueId) (s : State) (s' : State) (h : execQueueTail q s = .next s') : s'.kept = s.kept := by
  unfold execQueueTail at h; cases h; simp
theorem execSyncOp_kept (c : CellIx) (f : InsFields) (s : State) (s' : State) (h : execSyncOp c f s = .next s') : s'.kept = s.kept := by
  unfold execSyncOp at h; cases h; simp
theorem execQread_kept (c : CellIx) (f : InsFields) (s : State) (s' : State) (h : execQread c f s = .next s') : s'.kept = s.kept := by
  unfold execQread at h; cases h; simp
theorem execQflush_kept (c : CellIx) (f : InsFields) (s : State) (s' : State) (h : execQflush c f s = .next s') : s'.kept = s.kept := by
  unfold execQflush at h; cases h; simp
theorem execSendW_kept (c : CellIx) (f : InsFields) (s : State) (s' : State) (h : execSendW c f s = .next s') : s'.kept = s.kept := by
  unfold execSendW at h; cases h; simp
theorem execSyncRead_kept (m : Msg) (s : State) (s' : State) (h : execSyncRead m s = .next s') : s'.kept = s.kept := by
  unfold execSyncRead at h; cases h; simp
theorem execSyncInit_kept (m : Msg) (s : State) (s' : State) (h : execSyncInit m s = .next s') : s'.kept = s.kept := by
  unfold execSyncInit at h; cases h; simp
theorem execSyncAdd_kept (m : Msg) (s : State) (s' : State) (h : execSyncAdd m s = .next s') : s'.kept = s.kept := by
  unfold execSyncAdd at h; cases h; simp
theorem execSyncWaitGe_kept (m : Msg) (s : State) (s' : State) (h : execSyncWaitGe m s = .next s') : s'.kept = s.kept := by
  unfold execSyncWaitGe at h; cases h; simp
theorem execSyncArrive_kept (m : Msg) (s : State) (s' : State) (h : execSyncArrive m s = .next s') : s'.kept = s.kept := by
  unfold execSyncArrive at h; cases h; simp
theorem execSyncArriveWait_kept (m : Msg) (s : State) (s' : State) (h : execSyncArriveWait m s = .next s') : s'.kept = s.kept := by
  unfold execSyncArriveWait at h; cases h; simp
theorem execSyncWaitGen_kept (m : Msg) (s : State) (s' : State) (h : execSyncWaitGen m s = .next s') : s'.kept = s.kept := by
  unfold execSyncWaitGen at h; cases h; simp
theorem execSyncSet_kept (m : Msg) (s : State) (s' : State) (h : execSyncSet m s = .next s') : s'.kept = s.kept := by
  unfold execSyncSet at h; cases h; simp
theorem execSyncClear_kept (m : Msg) (s : State) (s' : State) (h : execSyncClear m s = .next s') : s'.kept = s.kept := by
  unfold execSyncClear at h; cases h; simp
theorem execSyncWaitSet_kept (m : Msg) (s : State) (s' : State) (h : execSyncWaitSet m s = .next s') : s'.kept = s.kept := by
  unfold execSyncWaitSet at h; cases h; simp
theorem execSyncWaitClear_kept (m : Msg) (s : State) (s' : State) (h : execSyncWaitClear m s = .next s') : s'.kept = s.kept := by
  unfold execSyncWaitClear at h; cases h; simp
theorem execCeLimitReached_kept (c : CellIx) (row : Fin 16384) (s : State) (s' : State) (h : execCeLimitReached c row s = .next s') : s'.kept = s.kept := by
  unfold execCeLimitReached at h; cases h; simp
theorem execFieldRemap_kept (c : CellIx) (row : Fin 16384) (s : State) (s' : State) (h : execFieldRemap c row s = .next s') : s'.kept = s.kept := by
  unfold execFieldRemap at h; cases h; simp
theorem execRetirementRequest_kept (c : CellIx) (s : State) (s' : State) (h : execRetirementRequest c s = .next s') : s'.kept = s.kept := by
  unfold execRetirementRequest at h; cases h; simp
theorem execSpareSubstitution_kept (c : CellIx) (s : State) (s' : State) (h : execSpareSubstitution c s = .next s') : s'.kept = s.kept := by
  unfold execSpareSubstitution at h; cases h; simp
theorem execHostingStart_kept (c : CellIx) (s : State) (s' : State) (h : execHostingStart c s = .next s') : s'.kept = s.kept := by
  unfold execHostingStart at h; cases h; apply onlyIf_kept; split
  · rfl
  · simp only []; split
    · rfl
    · apply elim_kept <;> simp
theorem execHostContextSwitch_kept (c : CellIx) (s : State) (s' : State) (h : execHostContextSwitch c s = .next s') : s'.kept = s.kept := by
  unfold execHostContextSwitch at h; cases h; simp
theorem execPatrol_kept (unit : ℕ) (e : List UnitFlip) (s : State) (s' : State) (h : execPatrol unit e s = .next s') : s'.kept = s.kept := by
  unfold execPatrol at h; cases h; apply onlyIf_kept; simp only []; (repeat' split) <;> simp
theorem execUcieLaneRepair_kept (die : Fin 2) (mod : Fin 5) (lanes : ℕ) (repaired : Bool) (s : State) (s' : State) (h : execUcieLaneRepair die mod lanes repaired s = .next s') : s'.kept = s.kept := by
  unfold execUcieLaneRepair at h; cases h; simp
theorem execJobEntry_kept (st : Fin 8) (entry : List Word) (prectab : List Word) (s : State) (s' : State) (h : execJobEntry st entry prectab s = .next s') : s'.kept = s.kept := by
  unfold execJobEntry at h; cases h; simp
theorem execRegisterEntry_kept (st : Fin 8) (entry : List Word) (graph : List Word) (tensors : List (List Word)) (layers : List (List Word)) (room : Bool) (s : State) (s' : State) (h : execRegisterEntry st entry graph tensors layers room s = .next s') : s'.kept = s.kept := by
  unfold execRegisterEntry at h; cases h; simp
theorem execReleaseEntry_kept (st : Fin 8) (entry : List Word) (s : State) (s' : State) (h : execReleaseEntry st entry s = .next s') : s'.kept = s.kept := by
  unfold execReleaseEntry at h; cases h; simp
theorem execKillEntry_kept (st : Fin 8) (entry : List Word) (s : State) (s' : State) (h : execKillEntry st entry s = .next s') : s'.kept = s.kept := by
  unfold execKillEntry at h; cases h; simp
theorem execCutEntry_kept (st : Fin 8) (entry : List Word) (s : State) (s' : State) (h : execCutEntry st entry s = .next s') : s'.kept = s.kept := by
  unfold execCutEntry at h; cases h; simp
theorem execJobStart_kept (job : BitVec 32) (s : State) (s' : State) (h : execJobStart job s = .next s') : s'.kept = s.kept := by
  unfold execJobStart at h; (repeat' split at h) <;> cases h <;> simp
theorem execBudgetExpiry_kept (job : BitVec 32) (s : State) (s' : State) (h : execBudgetExpiry job s = .next s') : s'.kept = s.kept := by
  unfold execBudgetExpiry at h; (repeat' split at h) <;> cases h <;> simp
theorem execJobEnd_kept (job : BitVec 32) (s : State) (s' : State) (h : execJobEnd job s = .next s') : s'.kept = s.kept := by
  unfold execJobEnd at h; (repeat' split at h) <;> cases h <;> simp
theorem execJobFailure_kept (job : BitVec 32) (layer : BitVec 32) (code : BitVec 8) (s : State) (s' : State) (h : execJobFailure job layer code s = .next s') : s'.kept = s.kept := by
  unfold execJobFailure at h; (repeat' split at h) <;> cases h <;> simp
theorem execDeltaLayerBegin_kept (job : BitVec 32) (layer : BitVec 16) (s : State) (s' : State) (h : execDeltaLayerBegin job layer s = .next s') : s'.kept = s.kept := by
  unfold execDeltaLayerBegin at h; (repeat' split at h) <;> cases h <;> simp
theorem execLayerComplete_kept (job : BitVec 32) (layer : BitVec 16) (code : BitVec 8) (record : List Word) (carried : List Word) (ledgers : List (List Payload)) (s : State) (s' : State) (h : execLayerComplete job layer code record carried ledgers s = .next s') : s'.kept = s.kept := by
  unfold execLayerComplete at h; cases h; split
  · apply onlyIf_kept; split
    · simpa using State.layerData_kept _ _ _ _ _ _ (by assumption)
    · rfl
  · rfl
theorem execCompletionEntryWrite_kept (st : Fin 8) (s : State) (s' : State) (h : execCompletionEntryWrite st s = .next s') : s'.kept = s.kept := by
  unfold execCompletionEntryWrite at h; (repeat' split at h) <;> cases h <;> simp
theorem execEvcSendGo_kept (h : Fin 16) (addr : BitVec 50) (count : BitVec 32) (items : List Payload) (w1c : Bool) (s : State) (s' : State) (h : execEvcSendGo h addr count items w1c s = .next s') : s'.kept = s.kept := by
  unfold execEvcSendGo at h; cases h; simp
theorem execEvcHiqPop_kept (h : Fin 16) (s : State) (s' : State) (h : execEvcHiqPop h s = .next s') : s'.kept = s.kept := by
  unfold execEvcHiqPop at h; cases h; simp
theorem execEvcClaim_kept (h : Fin 16) (s : State) (s' : State) (h : execEvcClaim h s = .next s') : s'.kept = s.kept := by
  unfold execEvcClaim at h; cases h; simp
theorem execEvcComplete_kept (h : Fin 16) (id : BitVec 13) (w1c : Bool) (s : State) (s' : State) (h : execEvcComplete h id w1c s = .next s') : s'.kept = s.kept := by
  unfold execEvcComplete at h; cases h; simp
theorem execEvcSrcWrite_kept (n : BitVec 12) (v : Word) (s : State) (s' : State) (h : execEvcSrcWrite n v s = .next s') : s'.kept = s.kept := by
  unfold execEvcSrcWrite at h; cases h; simp
theorem execEvcSgrpWrite_kept (g : Fin 64) (v : Word) (s : State) (s' : State) (h : execEvcSgrpWrite g v s = .next s') : s'.kept = s.kept := by
  unfold execEvcSgrpWrite at h; cases h; simp
theorem execEvcThreshWrite_kept (h : Fin 16) (v : Word) (s : State) (s' : State) (h : execEvcThreshWrite h v s = .next s') : s'.kept = s.kept := by
  unfold execEvcThreshWrite at h; cases h; simp
theorem execEvcHartCtlWrite_kept (h : Fin 16) (v : Word) (s : State) (s' : State) (h : execEvcHartCtlWrite h v s = .next s') : s'.kept = s.kept := by
  unfold execEvcHartCtlWrite at h; cases h; simp
theorem execEvcSmaskWrite_kept (g : Fin 64) (v : Word) (s : State) (s' : State) (h : execEvcSmaskWrite g v s = .next s') : s'.kept = s.kept := by
  unfold execEvcSmaskWrite at h; cases h; simp
theorem execEvcSpendRead_kept (g : Fin 64) (s : State) (s' : State) (h : execEvcSpendRead g s = .next s') : s'.kept = s.kept := by
  unfold execEvcSpendRead at h; cases h; simp
theorem execEvcSwfire_kept (v : Word) (s : State) (s' : State) (h : execEvcSwfire v s = .next s') : s'.kept = s.kept := by
  unfold execEvcSwfire at h; cases h; simp
theorem execEvcMsixSend_kept (v : Word) (s : State) (s' : State) (h : execEvcMsixSend v s = .next s') : s'.kept = s.kept := by
  unfold execEvcMsixSend at h; cases h; simp
theorem execSourceFire_kept (id : BitVec 13) (s : State) (s' : State) (h : execSourceFire id s = .next s') : s'.kept = s.kept := by
  unfold execSourceFire at h; cases h; simp
theorem execStatusSourceFire_kept (n : BitVec 12) (s : State) (s' : State) (h : execStatusSourceFire n s = .next s') : s'.kept = s.kept := by
  unfold execStatusSourceFire at h; cases h; simp
theorem execTimerFire_kept (t : Fin 32) (armed : Option Word) (s : State) (s' : State) (h : execTimerFire t armed s = .next s') : s'.kept = s.kept := by
  unfold execTimerFire at h; cases h; simp
theorem execWorkstationWindowAccess_kept (h : Fin 16) (base : Option Word) (w1c : BitVec 2) (a : WsAccess) (s : State) (s' : State) (h : execWorkstationWindowAccess h base w1c a s = .next s') : s'.kept = s.kept := by
  unfold execWorkstationWindowAccess at h; cases h; simp
theorem execSqTail_kept (st : Fin 8) (v : BitVec 16) (w1c : BitVec 4) (s : State) (s' : State) (h : execSqTail st v w1c s = .next s') : s'.kept = s.kept := by
  unfold execSqTail at h; cases h; simp
theorem execCqHead_kept (st : Fin 8) (v : BitVec 16) (s : State) (s' : State) (h : execCqHead st v s = .next s') : s'.kept = s.kept := by
  unfold execCqHead at h; cases h; simp
theorem execStreamReset_kept (st : Fin 8) (w : StreamSetup) (s : State) (s' : State) (h : execStreamReset st w s = .next s') : s'.kept = s.kept := by
  unfold execStreamReset at h; cases h; simp
theorem execCqPublish_kept (st : Fin 8) (v : BitVec 16) (s : State) (s' : State) (h : execCqPublish st v s = .next s') : s'.kept = s.kept := by
  unfold execCqPublish at h; cases h; simp
theorem execCoalesceTimeout_kept (st : Fin 8) (s : State) (s' : State) (h : execCoalesceTimeout st s = .next s') : s'.kept = s.kept := by
  unfold execCoalesceTimeout at h; cases h; simp
theorem execBusMasterEnableChange_kept (v : Bool) (s : State) (s' : State) (h : execBusMasterEnableChange v s = .next s') : s'.kept = s.kept := by
  unfold execBusMasterEnableChange at h; cases h; simp
theorem execFunctionLevelReset_kept (s : State) (s' : State) (h : execFunctionLevelReset s = .next s') : s'.kept = s.kept := by
  unfold execFunctionLevelReset at h; cases h; simp
theorem execPcieLinkEvent_kept (e : PcieEvent) (s : State) (s' : State) (h : execPcieLinkEvent e s = .next s') : s'.kept = s.kept := by
  unfold execPcieLinkEvent at h; cases h; simp
theorem execMsixVectorUnmask_kept (v : Fin 64) (s : State) (s' : State) (h : execMsixVectorUnmask v s = .next s') : s'.kept = s.kept := by
  unfold execMsixVectorUnmask at h; cases h; simp
theorem execMbGo_kept (p : MbPath) (w : MbWrite) (s : State) (s' : State) (h : execMbGo p w s = .next s') : s'.kept = s.kept := by
  unfold execMbGo at h; (repeat' split at h) <;> cases h <;> simp
theorem execDictionaryRead_kept (s : State) (s' : State) (h : execDictionaryRead s = .next s') : s'.kept = s.kept := by
  unfold execDictionaryRead at h; cases h; simp
theorem execDictionaryWrite_kept (s : State) (s' : State) (h : execDictionaryWrite s = .next s') : s'.kept = s.kept := by
  unfold execDictionaryWrite at h; cases h; simp
theorem execRwcStageWrite_kept (s : State) (s' : State) (h : execRwcStageWrite s = .next s') : s'.kept = s.kept := by
  unfold execRwcStageWrite at h; cases h; simp
theorem execCommitGroup_kept (s : State) (s' : State) (h : execCommitGroup s = .next s') : s'.kept = s.kept := by
  unfold execCommitGroup at h; cases h; simp
theorem execCommitDiscard_kept (s : State) (s' : State) (h : execCommitDiscard s = .next s') : s'.kept = s.kept := by
  unfold execCommitDiscard at h; cases h; simp
theorem execCommitApply_kept (u : UnitAddr) (index : BitVec 16) (s : State) (s' : State) (h : execCommitApply u index s = .next s') : s'.kept = s.kept := by
  unfold execCommitApply at h; cases h; simp
theorem execChamoisDatagram_kept (g : Datagram) (s : State) (s' : State) (h : execChamoisDatagram g s = .next s') : s'.kept = s.kept := by
  unfold execChamoisDatagram at h; cases h; simp
theorem execSolicit_kept (g : Datagram) (s : State) (s' : State) (h : execSolicit g s = .next s') : s'.kept = s.kept := by
  unfold execSolicit at h; cases h; simp
theorem execAnnounceDelayExpiry_kept (s : State) (s' : State) (h : execAnnounceDelayExpiry s = .next s') : s'.kept = s.kept := by
  unfold execAnnounceDelayExpiry at h; cases h; simp
theorem execDadComplete_kept (duplicate : Bool) (s : State) (s' : State) (h : execDadComplete duplicate s = .next s') : s'.kept = s.kept := by
  unfold execDadComplete at h; cases h; simp
theorem execNeighborSolicitation_kept (g : Datagram) (target : BitVec 128) (s : State) (s' : State) (h : execNeighborSolicitation g target s = .next s') : s'.kept = s.kept := by
  unfold execNeighborSolicitation at h; cases h; simp
theorem execEchoRequest_kept (g : Datagram) (s : State) (s' : State) (h : execEchoRequest g s = .next s') : s'.kept = s.kept := by
  unfold execEchoRequest at h; cases h; simp
theorem execSaveStore_kept (s : State) (s' : State) (h : execSaveStore s = .next s') : s'.kept = s.kept := by
  unfold execSaveStore at h; cases h; simp
theorem execSaveDelayExpiry_kept (s : State) (s' : State) (h : execSaveDelayExpiry s = .next s') : s'.kept = s.kept := by
  unfold execSaveDelayExpiry at h; cases h; simp
theorem execStoreSaveComplete_kept (ok : Bool) (s : State) (s' : State) (h : execStoreSaveComplete ok s = .next s') : s'.kept = s.kept := by
  unfold execStoreSaveComplete at h; cases h; simp
theorem execRestoreStore_kept (s : State) (s' : State) (h : execRestoreStore s = .next s') : s'.kept = s.kept := by
  unfold execRestoreStore at h; cases h; simp
theorem execHoldPurge_kept (s : State) (s' : State) (h : execHoldPurge s = .next s') : s'.kept = s.kept := by
  unfold execHoldPurge at h; cases h; simp
theorem execRetrain_kept (s : State) (s' : State) (h : execRetrain s = .next s') : s'.kept = s.kept := by
  unfold execRetrain at h; cases h; apply State.serve_kept; intro s r p k
  exact State.finishWrite_kept _ _ _ _ _ (State.retrain_kept _ _)
theorem execRoutesWrite_kept (s : State) (s' : State) (h : execRoutesWrite s = .next s') : s'.kept = s.kept := by
  unfold execRoutesWrite at h; cases h; apply State.serve_kept; intro s r p k
  exact State.finishWrite_kept _ _ _ _ _ (State.writeRoutes_kept _ _)
theorem execAppGrantWrite_kept (s : State) (s' : State) (h : execAppGrantWrite s = .next s') : s'.kept = s.kept := by
  unfold execAppGrantWrite at h; cases h; apply State.serve_kept; intro s r p k
  apply State.finishWrite_kept; intro u hu; simp only [State.writeGrant, Option.map_eq_some_iff] at hu
  obtain ⟨m, _, rfl⟩ := hu; simp
theorem execLostRelease_kept (s : State) (s' : State) (h : execLostRelease s = .next s') : s'.kept = s.kept := by
  unfold execLostRelease at h; cases h; simp
theorem execDevIdApply_kept (s : State) (s' : State) (h : execDevIdApply s = .next s') : s'.kept = s.kept := by
  unfold execDevIdApply at h; cases h; simp
theorem execLinkModeWrite_kept (s : State) (s' : State) (h : execLinkModeWrite s = .next s') : s'.kept = s.kept := by
  unfold execLinkModeWrite at h; cases h; apply State.serve_kept; intro s r p k
  exact State.finishWrite_kept _ _ _ _ _ (State.writeLinkMode_kept _ _ _ _)
theorem execWaveArrival_kept (u : UnitAddr) (ch : Chan) (w : Wave) (s : State) (s' : State) (h : execWaveArrival u ch w s = .next s') : s'.kept = s.kept := by
  unfold execWaveArrival at h; cases h; simp
theorem execSnapshotReport_kept (m : Msg) (s : State) (s' : State) (h : execSnapshotReport m s = .next s') : s'.kept = s.kept := by
  unfold execSnapshotReport at h; cases h; simp
theorem execSnapGoStart_kept (s : State) (s' : State) (h : execSnapGoStart s = .next s') : s'.kept = s.kept := by
  unfold execSnapGoStart at h; cases h; apply State.serve_kept; intro s r p k
  exact State.finishWrite_kept _ _ _ _ _ (State.snapGo_kept _ _)
theorem execSnapGoAbandon_kept (s : State) (s' : State) (h : execSnapGoAbandon s = .next s') : s'.kept = s.kept := by
  unfold execSnapGoAbandon at h; cases h; simp
theorem execFabricFreezeRequest_kept (s : State) (s' : State) (h : execFabricFreezeRequest s = .next s') : s'.kept = s.kept := by
  unfold execFabricFreezeRequest at h; cases h; simp
theorem execFabricFreezeEnd_kept (s : State) (s' : State) (h : execFabricFreezeEnd s = .next s') : s'.kept = s.kept := by
  unfold execFabricFreezeEnd at h; cases h; simp
theorem execFreezeReached_kept (s : State) (s' : State) (h : execFreezeReached s = .next s') : s'.kept = s.kept := by
  unfold execFreezeReached at h; cases h; simp
theorem execFreezeNAssert_kept (s : State) (s' : State) (h : execFreezeNAssert s = .next s') : s'.kept = s.kept := by
  unfold execFreezeNAssert at h; cases h; simp
theorem execFreezeNDeassert_kept (s : State) (s' : State) (h : execFreezeNDeassert s = .next s') : s'.kept = s.kept := by
  unfold execFreezeNDeassert at h; cases h; simp
theorem execDbgDataRead_kept (s : State) (s' : State) (h : execDbgDataRead s = .next s') : s'.kept = s.kept := by
  unfold execDbgDataRead at h; cases h; simp
theorem execTapReset_kept (s : State) (s' : State) (h : execTapReset s = .next s') : s'.kept = s.kept := by
  unfold execTapReset at h; cases h; simp
theorem execBypassTap_kept (tap : Fin 3) (opc : BitVec 8) (s : State) (s' : State) (h : execBypassTap tap opc s = .next s') : s'.kept = s.kept := by
  unfold execBypassTap at h; cases h; simp
theorem execIdcodeTap_kept (tap : Fin 3) (s : State) (s' : State) (h : execIdcodeTap tap s = .next s') : s'.kept = s.kept := by
  unfold execIdcodeTap at h; cases h; simp
theorem execSamplePreload_kept (tap : Fin 3) (boundary : List Bool) (s : State) (s' : State) (h : execSamplePreload tap boundary s = .next s') : s'.kept = s.kept := by
  unfold execSamplePreload at h; cases h; simp
theorem execExtest_kept (tap : Fin 3) (s : State) (s' : State) (h : execExtest tap s = .next s') : s'.kept = s.kept := by
  unfold execExtest at h; cases h; simp
theorem execClampTap_kept (tap : Fin 3) (s : State) (s' : State) (h : execClampTap tap s = .next s') : s'.kept = s.kept := by
  unfold execClampTap at h; cases h; simp
theorem execHighzTap_kept (tap : Fin 3) (s : State) (s' : State) (h : execHighzTap tap s = .next s') : s'.kept = s.kept := by
  unfold execHighzTap at h; cases h; simp
theorem execExtestPulse_kept (tap : Fin 3) (s : State) (s' : State) (h : execExtestPulse tap s = .next s') : s'.kept = s.kept := by
  unfold execExtestPulse at h; cases h; simp
theorem execExtestTrain_kept (tap : Fin 3) (s : State) (s' : State) (h : execExtestTrain tap s = .next s') : s'.kept = s.kept := by
  unfold execExtestTrain at h; cases h; simp
theorem execFrzStatus_kept (tap : Fin 3) (s : State) (s' : State) (h : execFrzStatus tap s = .next s') : s'.kept = s.kept := by
  unfold execFrzStatus at h; cases h; simp
theorem execDbgAccess_kept (tap : Fin 3) (dr : BitVec 168) (s : State) (s' : State) (h : execDbgAccess tap dr s = .next s') : s'.kept = s.kept := by
  unfold execDbgAccess at h; cases h; simp
theorem execDataFlit_kept (l : Fin 32) (b : List Byte) (s : State) (s' : State) (h : execDataFlit l b s = .next s') : s'.kept = s.kept := by
  unfold execDataFlit at h; cases h; simp
theorem execAbortFlit_kept (l : Fin 32) (b : List Byte) (s : State) (s' : State) (h : execAbortFlit l b s = .next s') : s'.kept = s.kept := by
  unfold execAbortFlit at h; cases h; simp
theorem execIdleFlit_kept (l : Fin 32) (b : List Byte) (s : State) (s' : State) (h : execIdleFlit l b s = .next s') : s'.kept = s.kept := by
  unfold execIdleFlit at h; cases h; simp
theorem execHelloFlit_kept (l : Fin 32) (b : List Byte) (s : State) (s' : State) (h : execHelloFlit l b s = .next s') : s'.kept = s.kept := by
  unfold execHelloFlit at h; cases h; simp
theorem execDegradeFlit_kept (l : Fin 32) (b : List Byte) (s : State) (s' : State) (h : execDegradeFlit l b s = .next s') : s'.kept = s.kept := by
  unfold execDegradeFlit at h; cases h; simp
theorem execEthFrame_kept (l : Fin 32) (f : List Byte) (fcsOk : Bool) (s : State) (s' : State) (h : execEthFrame l f fcsOk s = .next s') : s'.kept = s.kept := by
  unfold execEthFrame at h; cases h; simp
theorem execReplayTimeout_kept (l : Fin 32) (s : State) (s' : State) (h : execReplayTimeout l s = .next s') : s'.kept = s.kept := by
  unfold execReplayTimeout at h; cases h; simp
theorem execHelloSend_kept (l : Fin 32) (s : State) (s' : State) (h : execHelloSend l s = .next s') : s'.kept = s.kept := by
  unfold execHelloSend at h; cases h; simp
theorem execHelloTimeout_kept (l : Fin 32) (s : State) (s' : State) (h : execHelloTimeout l s = .next s') : s'.kept = s.kept := by
  unfold execHelloTimeout at h; cases h; simp
theorem execFlitLockLost_kept (l : Fin 32) (s : State) (s' : State) (h : execFlitLockLost l s = .next s') : s'.kept = s.kept := by
  unfold execFlitLockLost at h; cases h; simp
theorem execFlitLockAcquired_kept (l : Fin 32) (s : State) (s' : State) (h : execFlitLockAcquired l s = .next s') : s'.kept = s.kept := by
  unfold execFlitLockAcquired at h; cases h; simp
theorem execLaneDegrade_kept (l : Fin 32) (lanes : ℕ) (errors : Option ℕ) (s : State) (s' : State) (h : execLaneDegrade l lanes errors s = .next s') : s'.kept = s.kept := by
  unfold execLaneDegrade at h; cases h; simp
theorem execLinkRetrainComplete_kept (l : Fin 32) (ok : Bool) (s : State) (s' : State) (h : execLinkRetrainComplete l ok s = .next s') : s'.kept = s.kept := by
  unfold execLinkRetrainComplete at h; cases h; simp
theorem execPacketForward_kept (l : Fin 32) (vc : Fin 2) (s : State) (s' : State) (h : execPacketForward l vc s = .next s') : s'.kept = s.kept := by
  unfold execPacketForward at h; cases h; simp
theorem execHeldPacketRelease_kept (dest : BitVec 16) (s : State) (s' : State) (h : execHeldPacketRelease dest s = .next s') : s'.kept = s.kept := by
  unfold execHeldPacketRelease at h; cases h; simp
theorem execArrivalBufferDeliver_kept (die : Fin 2) (s : State) (s' : State) (h : execArrivalBufferDeliver die s = .next s') : s'.kept = s.kept := by
  unfold execArrivalBufferDeliver at h; cases h; simp
theorem execCableChange_kept (port : Fin 8) (c : Cable) (s : State) (s' : State) (h : execCableChange port c s = .next s') : s'.kept = s.kept := by
  unfold execCableChange at h; cases h; simp
theorem execInternalResetRelease_kept (recoveryN : Bool) (sris : Bool) (t1sTerm : Bool) (s : State) (s' : State) (h : execInternalResetRelease recoveryN sris t1sTerm s = .next s') : s'.kept = s.kept := by
  unfold execInternalResetRelease at h; cases h; simp
theorem execPerstAssert_kept (s : State) (s' : State) (h : execPerstAssert s = .next s') : s'.kept = s.kept := by
  unfold execPerstAssert at h; cases h; simp
theorem execPerstDeassert_kept (s : State) (s' : State) (h : execPerstDeassert s = .next s') : s'.kept = s.kept := by
  unfold execPerstDeassert at h; cases h; simp
theorem execPowerControlStep_kept (w : ℕ) (s : State) (s' : State) (h : execPowerControlStep w s = .next s') : s'.kept = s.kept := by
  unfold execPowerControlStep at h; cases h; simp
theorem execThermalSample_kept (die : Fin 2) (tj : BitVec 16) (s : State) (s' : State) (h : execThermalSample die tj s = .next s') : s'.kept = s.kept := by
  unfold execThermalSample at h; cases h; simp
theorem execVcoreUnderVoltage_kept (die : Fin 2) (s : State) (s' : State) (h : execVcoreUnderVoltage die s = .next s') : s'.kept = s.kept := by
  unfold execVcoreUnderVoltage at h; cases h; simp
theorem execVcoreRecovery_kept (die : Fin 2) (s : State) (s' : State) (h : execVcoreRecovery die s = .next s') : s'.kept = s.kept := by
  unfold execVcoreRecovery at h; cases h; simp
end Sys2Proof.Machine
end

