-- ==== Sys2Proof/Laws/Memory.lean ====
section
/-! SUPPORT. Tables and memories: what a read gives after a write, and that every memory operation keeps the canonical
form. -/

namespace Sys2Proof.Machine

open Sys2Proof

/-! ### Tables -/

@[simp] theorem SMap.get?_nil {α : Type} (i : Nat) : SMap.get? ([] : SMap α) i = none := rfl

theorem SMap.get?_set {α : Type} (m : SMap α) (i j : Nat) (v : α) :
    SMap.get? (SMap.set m i v) j = if i = j then some v else SMap.get? m j := by
  induction m with
  | nil => simp only [SMap.set, SMap.get?]
  | cons p t ih =>
    obtain ⟨k, w⟩ := p
    simp only [SMap.set]
    split_ifs <;> simp only [SMap.get?, ih] <;> split_ifs <;> first | rfl | omega

theorem SMap.get?_erase_ne {α : Type} (m : SMap α) (i j : Nat) (h : i ≠ j) : SMap.get? (SMap.erase m i) j = SMap.get? m j := by
  induction m with
  | nil => rfl
  | cons p t ih =>
    obtain ⟨k, w⟩ := p
    simp only [SMap.erase]
    split_ifs <;> simp only [SMap.get?, ih] <;> split_ifs <;> first | rfl | omega

theorem SMap.getD_set {α : Type} (m : SMap α) (i j : Nat) (v d : α) :
    SMap.getD (SMap.set m i v) j d = if i = j then v else SMap.getD m j d := by
  simp only [SMap.getD, SMap.get?_set]; split_ifs <;> rfl

@[simp] theorem SMap.getD_set_self {α : Type} (m : SMap α) (i : Nat) (v d : α) : SMap.getD (SMap.set m i v) i d = v := by
  simp [SMap.getD_set]

theorem SMap.getD_put_ne {α : Type} [DecidableEq α] (m : SMap α) (i j : Nat) (v d : α) (h : i ≠ j) :
    SMap.getD (SMap.put m i v d) j d = SMap.getD m j d := by
  unfold SMap.put; split_ifs
  · simp only [SMap.getD, SMap.get?_erase_ne _ _ _ h]
  · rw [SMap.getD_set, if_neg h]

/-- Keys rise. -/
abbrev SMap.sorted {α : Type} (m : SMap α) : Prop := m.Pairwise (fun a b => a.1 < b.1)

theorem SMap.get?_erase_self {α : Type} (m : SMap α) (i : Nat) : SMap.get? (SMap.erase m i) i = none := by
  induction m with
  | nil => rfl
  | cons p t ih =>
    obtain ⟨k, w⟩ := p
    simp only [SMap.erase]; split_ifs with ha
    · exact ih
    · simp only [SMap.get?]; rw [if_neg (fun e => ha e.symm)]; exact ih

/-- What a table whose unlisted keys read as `d` reads after a write. -/
theorem SMap.getD_put {α : Type} [DecidableEq α] (m : SMap α) (i j : Nat) (v d : α) :
    SMap.getD (SMap.put m i v d) j d = if i = j then v else SMap.getD m j d := by
  by_cases h : i = j
  · subst h; rw [if_pos rfl]; unfold SMap.put; split_ifs with hv
    · simp only [SMap.getD, SMap.get?_erase_self]; exact hv.symm
    · exact SMap.getD_set_self _ _ _ _
  · rw [if_neg h, SMap.getD_put_ne _ _ _ _ _ h]

theorem SMap.get?_mem {α : Type} (m : SMap α) (i : Nat) (v : α) (h : SMap.get? m i = some v) : (i, v) ∈ m := by
  induction m with
  | nil => cases h
  | cons p t ih =>
    obtain ⟨k, w⟩ := p
    simp only [SMap.get?] at h; split_ifs at h with hk
    · cases h; subst hk; simp
    · exact List.mem_cons_of_mem _ (ih h)

theorem SMap.mem_set {α : Type} (m : SMap α) (i : Nat) (v : α) (p : Nat × α) (h : p ∈ SMap.set m i v) : p = (i, v) ∨ p ∈ m := by
  induction m with
  | nil => simpa [SMap.set] using h
  | cons q t ih =>
    obtain ⟨k, w⟩ := q
    simp only [SMap.set] at h; split_ifs at h <;> simp only [List.mem_cons] at h ⊢ <;> tauto

theorem SMap.mem_erase {α : Type} (m : SMap α) (i : Nat) (p : Nat × α) (h : p ∈ SMap.erase m i) : p ∈ m := by
  induction m with
  | nil => simp [SMap.erase] at h
  | cons q t ih =>
    obtain ⟨k, w⟩ := q
    simp only [SMap.erase] at h; split_ifs at h <;> simp only [List.mem_cons] at h ⊢ <;> tauto

theorem SMap.sorted_set {α : Type} (m : SMap α) (i : Nat) (v : α) (hs : SMap.sorted m) : SMap.sorted (SMap.set m i v) := by
  induction m with
  | nil => simp [SMap.set]
  | cons q t ih =>
    obtain ⟨k, w⟩ := q
    obtain ⟨h1, h2⟩ := List.pairwise_cons.mp hs
    simp only [SMap.set]; split_ifs with ha hb
    · refine List.pairwise_cons.mpr ⟨fun p hp => ?_, hs⟩
      rcases List.mem_cons.mp hp with rfl | hp
      · exact ha
      · exact lt_trans ha (h1 p hp)
    · subst hb; exact List.pairwise_cons.mpr ⟨h1, h2⟩
    · refine List.pairwise_cons.mpr ⟨fun p hp => ?_, ih h2⟩
      rcases SMap.mem_set _ _ _ _ hp with rfl | hp
      · exact lt_of_le_of_ne (Nat.le_of_not_lt ha) (fun e => hb e.symm)
      · exact h1 p hp

theorem SMap.sorted_erase {α : Type} (m : SMap α) (i : Nat) (hs : SMap.sorted m) : SMap.sorted (SMap.erase m i) := by
  induction m with
  | nil => simp [SMap.erase]
  | cons q t ih =>
    obtain ⟨k, w⟩ := q
    obtain ⟨h1, h2⟩ := List.pairwise_cons.mp hs
    simp only [SMap.erase]; split_ifs
    · exact ih h2
    · exact List.pairwise_cons.mpr ⟨fun p hp => h1 p (SMap.mem_erase _ _ _ hp), ih h2⟩

/-! ### Memory -/

theorem Memory.wf_nil : Memory.wf [] := ⟨List.Pairwise.nil, by simp⟩

/-- A byte write keeps the canonical form. -/
theorem Memory.wf_write (m : List Host.Cell) (a : Nat) (b : Byte) (h : Memory.wf m) : Memory.wf (Memory.write m a b) := by
  unfold Memory.write SMap.put; split_ifs with hb
  · exact ⟨SMap.sorted_erase _ _ h.1, fun c hc => h.2 c (SMap.mem_erase _ _ _ hc)⟩
  · refine ⟨SMap.sorted_set _ _ _ h.1, fun c hc => ?_⟩
    rcases SMap.mem_set _ _ _ _ hc with rfl | hc
    · exact hb
    · exact h.2 c hc

/-- A read after a write to the same address gives the byte written. -/
theorem Memory.read_write_self (m : List Host.Cell) (a : Nat) (b : Byte) : Memory.read (Memory.write m a b) a = b := by
  unfold Memory.read Memory.write; rw [SMap.getD_put, if_pos rfl]

/-- A write leaves every other address alone. -/
theorem Memory.read_write_ne (m : List Host.Cell) (a x : Nat) (b : Byte) (h : a ≠ x) :
    Memory.read (Memory.write m a b) x = Memory.read m x :=
  SMap.getD_put_ne _ _ _ _ _ h

theorem Memory.wf_writeBytes (m : List Host.Cell) (a : Nat) (l : List Byte) (h : Memory.wf m) :
    Memory.wf (Memory.writeBytes m a l) := by
  induction l generalizing m a with
  | nil => exact h
  | cons b t ih => exact ih _ _ (Memory.wf_write _ _ _ h)

theorem Memory.read_writeBytes_ne (m : List Host.Cell) (a x : Nat) (l : List Byte) (h : x < a ∨ a + l.length ≤ x) :
    Memory.read (Memory.writeBytes m a l) x = Memory.read m x := by
  induction l generalizing m a with
  | nil => rfl
  | cons b t ih =>
    simp only [List.length_cons] at h
    simp only [Memory.writeBytes]
    rw [ih _ _ (by omega), Memory.read_write_ne _ _ _ _ (by omega)]

theorem Memory.wf_writeNat (m : List Host.Cell) (a n x : Nat) (h : Memory.wf m) : Memory.wf (Memory.writeNat m a n x) :=
  Memory.wf_writeBytes _ _ _ h

theorem Memory.wf_writeWord (m : List Host.Cell) (a : Nat) (w : Word) (h : Memory.wf m) : Memory.wf (Memory.writeWord m a w) :=
  Memory.wf_writeBytes _ _ _ h

theorem Memory.wf_writeWords (m : List Host.Cell) (a : Nat) (l : List Word) (h : Memory.wf m) :
    Memory.wf (Memory.writeWords m a l) := by
  induction l generalizing m a with
  | nil => exact h
  | cons b t ih => exact ih _ _ (Memory.wf_writeWord _ _ _ h)

theorem Memory.wf_zero (m : List Host.Cell) (a n : Nat) (h : Memory.wf m) : Memory.wf (Memory.zero m a n) :=
  ⟨List.Pairwise.filter _ h.1, fun c hc => h.2 c (List.mem_filter.mp hc).1⟩

/-- A fold of operations that each keep the canonical form keeps it. -/
theorem Memory.wf_foldl {α : Type} (f : List Host.Cell → α → List Host.Cell) (hf : ∀ m a, Memory.wf m → Memory.wf (f m a))
    (l : List α) (m : List Host.Cell) (h : Memory.wf m) : Memory.wf (l.foldl f m) := by
  induction l generalizing m with
  | nil => exact h
  | cons a t ih => exact ih _ (hf _ _ h)

theorem wf_writeBlock (m : List Host.Cell) (g w i : Nat) (p q : Bool) (codes : List Nat) (h : Memory.wf m) :
    Memory.wf (writeBlock m g w i p q codes) := by
  unfold writeBlock; repeat (first | assumption | apply Memory.wf_writeBytes | apply Memory.wf_writeNat | apply Memory.wf_zero | split)

theorem wf_blockAcc (b : BlockAcc) (m : List Host.Cell) (g w i : Nat) (u : Bool) (h : Memory.wf m) :
    Memory.wf (b.write m g w i u) := wf_writeBlock _ _ _ _ _ _ _ h

theorem wf_writeAccRow (m : List Host.Cell) (a : Nat) (v : Nat → Acc) (p : Bool) (ins : Nat → Bool) (h : Memory.wf m) :
    Memory.wf (writeAccRow m a v p ins) := by
  unfold writeAccRow; refine Memory.wf_foldl _ (fun m n hm => ?_) _ _ h
  split_ifs
  · exact Memory.wf_writeWord _ _ _ hm
  · exact hm

theorem wf_writeGroup (m : List Host.Cell) (row w mask : Nat) (bl : List (Nat × Bool × List Byte)) (h : Memory.wf m) :
    Memory.wf (writeGroup m row w mask bl) := by
  unfold writeGroup
  refine Memory.wf_foldl _ (fun m n hm => ?_) _ _ (Memory.wf_zero _ _ _ (Memory.wf_writeNat _ _ _ _ (Memory.wf_writeNat _ _ _ _ h)))
  split_ifs
  · split
    · exact Memory.wf_writeBytes _ _ _ hm
    · exact Memory.wf_zero _ _ _ hm
  · exact hm

end Sys2Proof.Machine
end

