-- ==== Sys2Proof/Laws/MemOk.lean ====
section
/-! SUPPORT. Every operation keeps the canonical form of device memory, workstation memory and the scratchpads: one lemma per
operation. -/

namespace Sys2Proof.Machine
open Sys2Proof
/-- The canonical form, as a name that does not unfold. -/
def Memory.canon (m : List Host.Cell) : Prop := Memory.wf m
/-- The scratchpad of a cell is canonical. -/
def Cell.memOk (x : Cell) : Prop := Memory.canon x.spad
/-- Device and workstation memory are canonical. -/
def MemSys.memOk (m : MemSys) : Prop := Memory.canon m.mem ∧ Memory.canon m.wsMem
/-- Every scratchpad is canonical. -/
def cellsOk (l : SMap Cell) : Prop := ∀ x ∈ l, x.2.memOk
/-- Every memory of the state is canonical. -/
def State.memOk (s : State) : Prop := s.mem.memOk ∧ cellsOk s.cells
theorem Cell.memOk_iff (x : Cell) : x.memOk ↔ Memory.canon x.spad := Iff.rfl
@[simp] theorem Cell.memOk_default : Cell.memOk {} := Memory.wf_nil
@[simp] theorem State.memOk_cell (s : State) (c : CellIx) (h : s.memOk) : (s.cell c).memOk := by
  unfold State.cell SMap.getD
  cases hg : SMap.get? s.cells c.val with
  | none => exact Memory.wf_nil
  | some x => exact h.2 _ (SMap.get?_mem _ _ _ hg)
@[simp] theorem State.memOk_modCell (s : State) (c : CellIx) (f : Cell → Cell) (h : s.memOk) (hf : ∀ x, x.memOk → (f x).memOk) :
    (s.modCell c f).memOk := by
  refine ⟨h.1, fun p hp => ?_⟩
  rcases SMap.mem_set _ _ _ _ hp with rfl | hp
  · exact hf _ (State.memOk_cell _ _ h)
  · exact h.2 _ hp
@[simp ↓] theorem State.memOk_mk (a b c d e f g h i j k l m n o p q r t u v w) :
    State.memOk ⟨a, b, c, d, e, f, g, h, i, j, k, l, m, n, o, p, q, r, t, u, v, w⟩ ↔ (MemSys.memOk d ∧ cellsOk b) := Iff.trans Iff.rfl Iff.rfl
@[simp] theorem foldl_memOk {α : Type} (f : State → α → State) (h : ∀ s a, s.memOk → (f s a).memOk) (l : List α) (s : State)
    (hs : s.memOk) : (l.foldl f s).memOk := by
  induction l generalizing s with
  | nil => exact hs
  | cons a l ih => exact ih _ (h _ _ hs)
@[simp ↓] theorem MemSys.memOk_mk (a b c d e f g h i j k l m n o p q r t u) :
    MemSys.memOk ⟨a, b, c, d, e, f, g, h, i, j, k, l, m, n, o, p, q, r, t, u⟩ ↔ Memory.canon a ∧ Memory.canon c := Iff.trans Iff.rfl Iff.rfl
@[simp] theorem State.memOk_mem (s : State) (h : s.memOk) : s.mem.memOk := h.1
@[simp] theorem State.memOk_cells (s : State) (h : s.memOk) : cellsOk s.cells := h.2
@[simp] theorem cellsOk_nil : cellsOk [] := fun _ h => nomatch h
@[simp] theorem cellsOk_map (l : SMap Cell) (g : Nat × Cell → Nat × Cell) (h : cellsOk l) (hg : ∀ x, x.2.memOk → (g x).2.memOk) : cellsOk (l.map g) := by
  intro x hx; obtain ⟨y, hy, rfl⟩ := List.mem_map.mp hx; exact hg _ (h y hy)

@[simp] theorem MemSys.memOk_wf (m : MemSys) (h : m.memOk) : Memory.canon m.mem := h.1
@[simp] theorem MemSys.memOk_ws (m : MemSys) (h : m.memOk) : Memory.canon m.wsMem := h.2
@[simp] theorem Cell.memOk_wf (x : Cell) (h : x.memOk) : Memory.canon x.spad := h
@[simp] theorem foldl2_memOk {α β : Type} (f : β × State → α → β × State) (h : ∀ s a, s.2.memOk → (f s a).2.memOk) (l : List α)
    (s : β × State) (hs : s.2.memOk) : (l.foldl f s).2.memOk := by
  induction l generalizing s with
  | nil => exact hs
  | cons a l ih => exact ih _ (h _ _ hs)
@[simp] theorem Memory.canon_nil : Memory.canon [] := Memory.wf_nil
@[simp] theorem Memory.canon_write (m a b) (h : Memory.canon m) : Memory.canon (Memory.write m a b) := Memory.wf_write _ _ _ h
@[simp] theorem Memory.canon_writeBytes (m a l) (h : Memory.canon m) : Memory.canon (Memory.writeBytes m a l) := Memory.wf_writeBytes _ _ _ h
@[simp] theorem Memory.canon_writeNat (m a n x) (h : Memory.canon m) : Memory.canon (Memory.writeNat m a n x) := Memory.wf_writeNat _ _ _ _ h
@[simp] theorem Memory.canon_writeWord (m a l) (h : Memory.canon m) : Memory.canon (Memory.writeWord m a l) := Memory.wf_writeWord _ _ _ h
@[simp] theorem Memory.canon_writeWords (m a l) (h : Memory.canon m) : Memory.canon (Memory.writeWords m a l) := Memory.wf_writeWords _ _ _ h
@[simp] theorem Memory.canon_zero (m a n) (h : Memory.canon m) : Memory.canon (Memory.zero m a n) := Memory.wf_zero _ _ _ h
@[simp] theorem canon_writeBlock (m g w i p q codes) (h : Memory.canon m) : Memory.canon (writeBlock m g w i p q codes) := wf_writeBlock _ _ _ _ _ _ _ h
@[simp] theorem canon_blockAcc (b : BlockAcc) (m g w i u) (h : Memory.canon m) : Memory.canon (b.write m g w i u) := wf_blockAcc _ _ _ _ _ _ h
@[simp] theorem canon_writeAccRow (m a v p ins) (h : Memory.canon m) : Memory.canon (writeAccRow m a v p ins) := wf_writeAccRow _ _ _ _ _ h
@[simp] theorem canon_writeGroup (m row w mask bl) (h : Memory.canon m) : Memory.canon (writeGroup m row w mask bl) := wf_writeGroup _ _ _ _ _ h
@[simp] theorem canon_foldl {α : Type} (f : List Host.Cell → α → List Host.Cell) (hf : ∀ m a, Memory.canon m → Memory.canon (f m a))
    (l : List α) (m : List Host.Cell) (h : Memory.canon m) : Memory.canon (l.foldl f m) := Memory.wf_foldl f hf l m h
@[simp ↓] theorem Cell.memOk_mk (a0 a1 a2 a3 a4 a5 a6 a7 a8 a9 a10 a11 a12 a13 a14 a15 a16 a17 a18 a19 a20 a21 a22 a23 a24 a25 a26 a27 a28 a29 a30 a31 a32 a33 a34 a35 a36 a37 a38 a39 a40 a41) :
    Cell.memOk ⟨a0, a1, a2, a3, a4, a5, a6, a7, a8, a9, a10, a11, a12, a13, a14, a15, a16, a17, a18, a19, a20, a21, a22, a23, a24, a25, a26, a27, a28, a29, a30, a31, a32, a33, a34, a35, a36, a37, a38, a39, a40, a41⟩ ↔ Memory.canon a20 := Iff.trans Iff.rfl Iff.rfl
@[simp] theorem ite_memOk (p : Prop) [Decidable p] (a b : State) (ha : a.memOk) (hb : b.memOk) : (if p then a else b).memOk := by
  split <;> assumption
@[simp] theorem ite_cellOk (p : Prop) [Decidable p] (a b : Cell) (ha : a.memOk) (hb : b.memOk) : (if p then a else b).memOk := by
  split <;> assumption
@[simp] theorem ite_wf (p : Prop) [Decidable p] (a b : List Host.Cell) (ha : Memory.canon a) (hb : Memory.canon b) : Memory.canon (if p then a else b) := by
  split <;> assumption
@[simp] theorem elim_memOk {α : Type} (o : Option α) (s : State) (f : α → State) (hs : s.memOk)
    (h : ∀ x, (f x).memOk) : (o.elim s f).memOk := by cases o <;> simp [*]
@[simp] theorem foldl_cellOk {α : Type} (f : Cell → α → Cell) (h : ∀ s a, s.memOk → (f s a).memOk) (l : List α) (s : Cell)
    (hs : s.memOk) : (l.foldl f s).memOk := by
  induction l generalizing s with
  | nil => exact hs
  | cons a l ih => exact ih _ (h _ _ hs)
@[simp] theorem foldl_memSysOk {α : Type} (f : MemSys → α → MemSys) (h : ∀ s a, s.memOk → (f s a).memOk) (l : List α) (s : MemSys)
    (hs : s.memOk) : (l.foldl f s).memOk := by
  induction l generalizing s with
  | nil => exact hs
  | cons a l ih => exact ih _ (h _ _ hs)
@[simp] theorem Cell.overwritten_memOk (s : Cell) (r : ℕ) (n : ℕ) (hs : s.memOk) : (Cell.overwritten s r n).memOk := by simp (maxDischargeDepth := 60) (contextual := true) [Cell.overwritten, *]
@[simp] theorem State.setCell_memOk (s : State) (c : CellIx) (x : Cell) (hs : s.memOk) (hx : x.memOk) : (s.setCell c x).memOk := by
  refine ⟨hs.1, fun p hp => ?_⟩
  rcases SMap.mem_set _ _ _ _ hp with rfl | hp
  · exact hx
  · exact hs.2 _ hp
@[simp] theorem State.modCell_memOk (s : State) (c : CellIx) (f : Cell → Cell) (hs : s.memOk) (hf : ∀ x, x.memOk → (f x).memOk) :
    (s.modCell c f).memOk := State.setCell_memOk _ _ _ hs (hf _ (State.memOk_cell _ _ hs))
@[simp] theorem State.modCells_memOk (s : State) (l : List ℕ) (f : Cell → Cell) (hs : s.memOk) (hf : ∀ x, x.memOk → (f x).memOk) :
    (s.modCells l f).memOk := foldl_memOk _ (fun s i h => State.modCell_memOk _ _ _ h hf) _ _ hs
@[simp] theorem State.modUnit_memOk (s : State) (k : ℕ) (f : UnitState → UnitState) (hs : s.memOk) : (State.modUnit s k f).memOk := by simp (maxDischargeDepth := 60) (contextual := true) [State.modUnit, *]
@[simp] theorem State.modDie_memOk (s : State) (d : ℕ) (f : DieCounters → DieCounters) (hs : s.memOk) : (State.modDie s d f).memOk := by simp (maxDischargeDepth := 60) (contextual := true) [State.modDie, *]
@[simp] theorem State.modDiePower_memOk (s : State) (d : ℕ) (f : DiePower → DiePower) (hs : s.memOk) : (State.modDiePower s d f).memOk := by simp (maxDischargeDepth := 60) (contextual := true) [State.modDiePower, *]
@[simp] theorem State.useFree_memOk (s : State) (hs : s.memOk) : (State.useFree s).memOk := by simp (maxDischargeDepth := 60) (contextual := true) [State.useFree, *]
@[simp] theorem onlyIf_memOk (b : Bool) (s : State) (f : State → State) (hs : s.memOk) (h : s.memOk → (f s).memOk) : (onlyIf b s f).memOk := by
  unfold onlyIf; split
  · exact h hs
  · exact hs
@[simp] theorem State.startSave_memOk (s : State) (hs : s.memOk) : (State.startSave s).memOk := by simp (maxDischargeDepth := 60) (contextual := true) [State.startSave, *]
@[simp] theorem State.saveRecord_memOk (s : State) (hs : s.memOk) : (State.saveRecord s).memOk := by simp (maxDischargeDepth := 60) (contextual := true) [State.saveRecord, *]
theorem MemSys.alloc_memOk (s : MemSys) (d n : ℕ) (use : ExtUse) (hs : s.memOk) : ∀ t, s.alloc d n use = some t → t.2.memOk := by
  unfold MemSys.alloc; intro t h; simp only [Option.map_eq_some_iff] at h; obtain ⟨b, _, rfl⟩ := h
  exact hs
theorem MemSys.allocMany_memOk (s : MemSys) (d n : ℕ) (use : ExtUse) (k : ℕ) (hs : s.memOk) : ∀ t, s.allocMany d n use k = some t → t.memOk := by
  induction k generalizing s with
  | zero => intro t h; cases h; exact hs
  | succ k ih =>
    intro t h; simp only [MemSys.allocMany] at h; split at h
    · cases h
    · exact ih _ (MemSys.alloc_memOk _ _ _ _ hs _ (by assumption)) _ h
@[simp] theorem MemSys.zeroUnits_memOk (s : MemSys) (b : ℕ) (n : ℕ) (hs : s.memOk) : (MemSys.zeroUnits s b n).memOk := by simp (maxDischargeDepth := 60) (contextual := true) [MemSys.zeroUnits, *]
@[simp] theorem MemSys.release_memOk (s : MemSys) (b : ℕ) (hs : s.memOk) : (MemSys.release s b).memOk := by simp only [MemSys.release]; (repeat' split) <;> simp (maxDischargeDepth := 60) (contextual := true) [*]
@[simp] theorem MemSys.releaseUse_memOk (s : MemSys) (use : ExtUse) (hs : s.memOk) : (s.releaseUse use).memOk := by
  unfold MemSys.releaseUse
  generalize (s.extents.filter (fun e => decide (e.use = use))) = l
  induction l generalizing s with
  | nil => exact hs
  | cons a l ih => exact ih _ (MemSys.release_memOk _ _ hs)
theorem MemSys.allocHold_memOk (s : MemSys) (d dest n : ℕ) (hs : s.memOk) : ∀ t, s.allocHold d dest n = some t → t.memOk := by
  unfold MemSys.allocHold; intro t h; simp only [Option.bind_eq_some_iff] at h; obtain ⟨m, hm, h⟩ := h
  have hm := MemSys.allocMany_memOk _ _ _ _ _ hs _ hm
  split at h
  · cases h; exact hm
  · simp only [Option.map_eq_some_iff] at h; obtain ⟨x, hx, rfl⟩ := h; exact MemSys.alloc_memOk _ _ _ _ hm _ hx
theorem State.routePacket_memOk (s : State) (d : ℕ) (dest : BitVec 16) (p : Packet) (hs : s.memOk) : ∀ t, State.routePacket s d dest p = some t → t.memOk := by
  unfold State.routePacket; intro t h; split at h
  · cases h; exact hs
  · simp only [Option.map_eq_some_iff] at h; obtain ⟨m, hm, rfl⟩ := h; exact ⟨MemSys.allocHold_memOk _ _ _ _ hs.1 _ hm, hs.2⟩
@[simp] theorem State.fly_memOk (s : State) (m : Msg) (hs : s.memOk) : (State.fly s m).memOk := by simp (maxDischargeDepth := 60) (contextual := true) [State.fly, *]
@[simp] theorem State.sendMsg_memOk (s : State) (m : Msg) (hs : s.memOk) : (State.sendMsg s m).memOk := by
  unfold State.sendMsg
  extract_lets t here
  have ht : t.memOk := by simp only [t]; split <;> exact hs
  have hh : here.memOk := State.fly_memOk _ _ ht
  split
  · exact hh
  · cases hr : t.routePacket (UA.digit m.src 1 % 2) (UA.device m.dest) ⟨m.items, false, none⟩ with
    | none => exact hh
    | some u => exact State.routePacket_memOk _ _ _ _ ht _ hr
@[simp] theorem State.reply_memOk (s : State) (req : Msg) (code : BitVec 8) (item : Payload) (more : List Payload) (hs : s.memOk) : (State.reply s req code item more).memOk := by simp (maxDischargeDepth := 60) (contextual := true) [State.reply, *]
@[simp] theorem State.bounce_memOk (s : State) (m : Msg) (code : BitVec 8) (hs : s.memOk) : (State.bounce s m code).memOk := by simp (maxDischargeDepth := 60) (contextual := true) [State.bounce, *]
@[simp] theorem State.takeMsg_memOk (s : State) (m : Msg) (hs : s.memOk) : (State.takeMsg s m).memOk := by simp (maxDischargeDepth := 60) (contextual := true) [State.takeMsg, *]
@[simp] theorem State.received_memOk (s : State) (m : Msg) (hs : s.memOk) : (State.received s m).memOk := by simp (maxDischargeDepth := 60) (contextual := true) [State.received, *]
@[simp] theorem State.arrival_memOk (s : State) (m : Msg) (f : State → State) (hs : s.memOk) (h : (s.takeMsg m).memOk → (f (s.takeMsg m)).memOk) :
    (State.arrival s m f).memOk := by
  unfold State.arrival; simp only []; split
  · exact h hs
  · exact State.bounce_memOk _ _ _ hs
@[simp] theorem State.modEvc_memOk (s : State) (f : Evc → Evc) (hs : s.memOk) : (State.modEvc s f).memOk := by simp (maxDischargeDepth := 60) (contextual := true) [State.modEvc, *]
@[simp] theorem State.fire_memOk (s : State) (id : ℕ) (hs : s.memOk) : (State.fire s id).memOk := by simp (maxDischargeDepth := 60) (contextual := true) [State.fire, *]
@[simp] theorem State.fireStatus_memOk (s : State) (n : ℕ) (hs : s.memOk) : (State.fireStatus s n).memOk := by simp (maxDischargeDepth := 60) (contextual := true) [State.fireStatus, *]
@[simp] theorem State.fireCell_memOk (s : State) (k : ℕ) (c : CellIx) (hs : s.memOk) : (State.fireCell s k c).memOk := by simp (maxDischargeDepth := 60) (contextual := true) [State.fireCell, *]
@[simp] theorem State.relCell_memOk (s : State) (c : CellIx) (cause : BitVec 8) (hs : s.memOk) : (State.relCell s c cause).memOk := by simp (maxDischargeDepth := 60) (contextual := true) [State.relCell, *]
@[simp] theorem State.vector_memOk (s : State) (v : ℕ) (hs : s.memOk) : (State.vector s v).memOk := by simp (maxDischargeDepth := 60) (contextual := true) [State.vector, *]
@[simp] theorem State.requestRetire_memOk (s : State) (c : CellIx) (hs : s.memOk) : (State.requestRetire s c).memOk := by simp (maxDischargeDepth := 60) (contextual := true) [State.requestRetire, *]
@[simp] theorem State.remapRow_memOk (s : State) (c : CellIx) (row : ℕ) (hs : s.memOk) : (State.remapRow s c row).memOk := by simp (maxDischargeDepth := 60) (contextual := true) [State.remapRow, *]
@[simp] theorem State.rowCorrected_memOk (s : State) (c : CellIx) (row : ℕ) (hs : s.memOk) : (State.rowCorrected s c row).memOk := by simp (maxDischargeDepth := 60) (contextual := true) [State.rowCorrected, *]
@[simp] theorem State.rowRebuilt_memOk (s : State) (c : CellIx) (row : ℕ) (hs : s.memOk) : (State.rowRebuilt s c row).memOk := by simp (maxDischargeDepth := 60) (contextual := true) [State.rowRebuilt, *]
@[simp] theorem State.rowLost_memOk (s : State) (c : CellIx) (row : ℕ) (hs : s.memOk) : (State.rowLost s c row).memOk := by simp (maxDischargeDepth := 60) (contextual := true) [State.rowLost, *]
@[simp] theorem State.rowRead_memOk (s : State) (c : CellIx) (row : ℕ) (ws : List ℕ) (e : List RowFlip) (hs : s.memOk) : (State.rowRead s c row ws e).memOk := by simp only [State.rowRead]; (repeat' split) <;> simp (maxDischargeDepth := 60) (contextual := true) [*]
@[simp] theorem State.countRecompute_memOk (s : State) (c : CellIx) (again : Bool) (hs : s.memOk) : (State.countRecompute s c again).memOk := by simp (maxDischargeDepth := 60) (contextual := true) [State.countRecompute, *]
@[simp] theorem State.countRepeats_memOk (s : State) (c : CellIx) (n : ℕ) (hs : s.memOk) : (State.countRepeats s c n).memOk := by simp (maxDischargeDepth := 60) (contextual := true) [State.countRepeats, *]
@[simp] theorem State.unitLost_memOk (s : State) (c : Option CellIx) (unit : ℕ) (hs : s.memOk) : (State.unitLost s c unit).memOk := by simp only [State.unitLost]; (repeat' split) <;> simp (maxDischargeDepth := 60) (contextual := true) [*]
@[simp] theorem State.unitCorrected_memOk (s : State) (unit : ℕ) (hs : s.memOk) : (State.unitCorrected s unit).memOk := by simp (maxDischargeDepth := 60) (contextual := true) [State.unitCorrected, *]
@[simp] theorem State.claimRegs_memOk (s : State) (c : CellIx) (a : ℕ) (n : ℕ) (hs : s.memOk) : (State.claimRegs s c a n).memOk := by simp only [State.claimRegs]; (repeat' split) <;> simp (maxDischargeDepth := 60) (contextual := true) [*]
@[simp] theorem State.regWrite_memOk (s : State) (c : CellIx) (a : ℕ) (n : ℕ) (v : Word) (hs : s.memOk) : (State.regWrite s c a n v).memOk := by simp only [State.regWrite]; (repeat' split) <;> simp (maxDischargeDepth := 60) (contextual := true) [*]
@[simp] theorem State.narrowWrite_memOk (s : State) (c : CellIx) (a : ℕ) (n : ℕ) (v : Word) (hs : s.memOk) : (State.narrowWrite s c a n v).memOk := by simp (maxDischargeDepth := 60) (contextual := true) [State.narrowWrite, *]
@[simp] theorem State.modSeq_memOk (s : State) (c : CellIx) (f : Seq → Seq) (hs : s.memOk) : (State.modSeq s c f).memOk := by simp (maxDischargeDepth := 60) (contextual := true) [State.modSeq, *]
@[simp] theorem State.finish_memOk (s : State) (c : CellIx) (code : Code) (hs : s.memOk) : (State.finish s c code).memOk := by simp (maxDischargeDepth := 60) (contextual := true) [State.finish, *]
@[simp] theorem State.finishBlocking_memOk (s : State) (c : CellIx) (code : Code) (hs : s.memOk) : (State.finishBlocking s c code).memOk := by simp (maxDischargeDepth := 60) (contextual := true) [State.finishBlocking, *]
@[simp] theorem State.stall_memOk (s : State) (c : CellIx) (cause : BitVec 4) (i : Instr) (hs : s.memOk) : (State.stall s c cause i).memOk := by simp (maxDischargeDepth := 60) (contextual := true) [State.stall, *]
@[simp] theorem State.guarded_memOk (s : State) (c : CellIx) (i : Instr) (rs : List (BitVec 4)) (reads writes : List (Nat × Nat))
    (body : State → State) (hs : s.memOk) (h : s.memOk → (body s).memOk) : (State.guarded s c i rs reads writes body).memOk := by
  unfold State.guarded; split
  · exact State.stall_memOk _ _ _ _ hs
  · exact h hs
@[simp] theorem State.issue_memOk (s : State) (c : CellIx) (opc : BitVec 8) (f : InsFields) (i : Instr) (body : State → State)
    (hs : s.memOk) (h : s.memOk → (body s).memOk) : (State.issue s c opc f i body).memOk := by
  unfold State.issue; simp only []; split
  · split
    · exact State.modSeq_memOk _ _ _ (State.stall_memOk _ _ _ _ hs)
    · exact h hs
  · exact hs
@[simp] theorem State.reject_memOk (s : State) (c : CellIx) (i : Instr) (code : Code) (hs : s.memOk) : (State.reject s c i code).memOk := by simp (maxDischargeDepth := 60) (contextual := true) [State.reject, *]
@[simp] theorem State.withBlock_memOk (s : State) (c : CellIx) (f : InsFields) (i : Instr) (mask : List Nat)
    (body : List Word → State → State) (hs : s.memOk) (h : ∀ b, s.memOk → (body b s).memOk) : (State.withBlock s c f i mask body).memOk := by
  unfold State.withBlock; split
  · exact State.reject_memOk _ _ _ _ hs
  · split
    · exact State.stall_memOk _ _ _ _ hs
    · split
      · exact State.reject_memOk _ _ _ _ hs
      · exact h _ hs
@[simp] theorem State.addOp_memOk (s : State) (c : CellIx) (o : UnitOp) (hs : s.memOk) : (State.addOp s c o).memOk := by simp (maxDischargeDepth := 60) (contextual := true) [State.addOp, *]
@[simp] theorem State.retire_memOk (s : State) (c : CellIx) (hs : s.memOk) : (State.retire s c).memOk := by simp (maxDischargeDepth := 60) (contextual := true) [State.retire, *]
@[simp] theorem State.waitOp_memOk (s : State) (c : CellIx) (cause : Option (BitVec 4 × Instr)) (hs : s.memOk) : (State.waitOp s c cause).memOk := by simp (maxDischargeDepth := 60) (contextual := true) [State.waitOp, *]
@[simp] theorem Cell.modOp_memOk (s : Cell) (k : ℕ) (f : UnitOp → UnitOp) (hs : s.memOk) : (Cell.modOp s k f).memOk := by simp (maxDischargeDepth := 60) (contextual := true) [Cell.modOp, *]
@[simp] theorem State.spendDrawsOf_memOk (s : State) (c : CellIx) (r : Option CmdRun) (consumer : ℕ) (n : ℕ) (hs : s.memOk) : (State.spendDrawsOf s c r consumer n).memOk := by simp (maxDischargeDepth := 60) (contextual := true) [State.spendDrawsOf, *]
@[simp] theorem State.spendDraws_memOk (s : State) (c : CellIx) (consumer : ℕ) (n : ℕ) (hs : s.memOk) : (State.spendDraws s c consumer n).memOk := by simp (maxDischargeDepth := 60) (contextual := true) [State.spendDraws, *]
@[simp] theorem bodyReg_memOk (c : CellIx) (i : Instr) (rd : BitVec 4) (rs : List (BitVec 4)) (v : Seq → Word) (s : State) (hs : s.memOk) : (bodyReg c i rd rs v s).memOk := by simp (maxDischargeDepth := 60) (contextual := true) [bodyReg, *]
@[simp] theorem bodyLi_memOk (c : CellIx) (f : InsFields) (s : State) (hs : s.memOk) : (bodyLi c f s).memOk := by simp (maxDischargeDepth := 60) (contextual := true) [bodyLi, *]
@[simp] theorem bodyLih_memOk (c : CellIx) (f : InsFields) (s : State) (hs : s.memOk) : (bodyLih c f s).memOk := by simp (maxDischargeDepth := 60) (contextual := true) [bodyLih, *]
@[simp] theorem bodyAdd_memOk (c : CellIx) (f : InsFields) (s : State) (hs : s.memOk) : (bodyAdd c f s).memOk := by simp (maxDischargeDepth := 60) (contextual := true) [bodyAdd, *]
@[simp] theorem bodySub_memOk (c : CellIx) (f : InsFields) (s : State) (hs : s.memOk) : (bodySub c f s).memOk := by simp (maxDischargeDepth := 60) (contextual := true) [bodySub, *]
@[simp] theorem bodyAnd_memOk (c : CellIx) (f : InsFields) (s : State) (hs : s.memOk) : (bodyAnd c f s).memOk := by simp (maxDischargeDepth := 60) (contextual := true) [bodyAnd, *]
@[simp] theorem bodyOr_memOk (c : CellIx) (f : InsFields) (s : State) (hs : s.memOk) : (bodyOr c f s).memOk := by simp (maxDischargeDepth := 60) (contextual := true) [bodyOr, *]
@[simp] theorem bodyXor_memOk (c : CellIx) (f : InsFields) (s : State) (hs : s.memOk) : (bodyXor c f s).memOk := by simp (maxDischargeDepth := 60) (contextual := true) [bodyXor, *]
@[simp] theorem bodyShl_memOk (c : CellIx) (f : InsFields) (s : State) (hs : s.memOk) : (bodyShl c f s).memOk := by simp (maxDischargeDepth := 60) (contextual := true) [bodyShl, *]
@[simp] theorem bodyShr_memOk (c : CellIx) (f : InsFields) (s : State) (hs : s.memOk) : (bodyShr c f s).memOk := by simp (maxDischargeDepth := 60) (contextual := true) [bodyShr, *]
@[simp] theorem bodySra_memOk (c : CellIx) (f : InsFields) (s : State) (hs : s.memOk) : (bodySra c f s).memOk := by simp (maxDischargeDepth := 60) (contextual := true) [bodySra, *]
@[simp] theorem bodyMul_memOk (c : CellIx) (f : InsFields) (s : State) (hs : s.memOk) : (bodyMul c f s).memOk := by simp (maxDischargeDepth := 60) (contextual := true) [bodyMul, *]
@[simp] theorem State.passTime_memOk (s : State) (d : ℕ) (hs : s.memOk) : (State.passTime s d).memOk := by simp (maxDischargeDepth := 60) (contextual := true) [State.passTime, *]
@[simp] theorem bodyTime_memOk (c : CellIx) (f : InsFields) (s : State) (hs : s.memOk) : (bodyTime c f s).memOk := by simp (maxDischargeDepth := 60) (contextual := true) [bodyTime, *]
@[simp] theorem bodyLoad_memOk (c : CellIx) (i : Instr) (f : InsFields) (n : ℕ) (e : List RowFlip) (s : State) (hs : s.memOk) : (bodyLoad c i f n e s).memOk := by simp (maxDischargeDepth := 60) (contextual := true) [bodyLoad, *]
@[simp] theorem bodyLd1_memOk (c : CellIx) (f : InsFields) (e : List RowFlip) (s : State) (hs : s.memOk) : (bodyLd1 c f e s).memOk := by simp (maxDischargeDepth := 60) (contextual := true) [bodyLd1, *]
@[simp] theorem bodyLd2_memOk (c : CellIx) (f : InsFields) (e : List RowFlip) (s : State) (hs : s.memOk) : (bodyLd2 c f e s).memOk := by simp (maxDischargeDepth := 60) (contextual := true) [bodyLd2, *]
@[simp] theorem bodyLd4_memOk (c : CellIx) (f : InsFields) (e : List RowFlip) (s : State) (hs : s.memOk) : (bodyLd4 c f e s).memOk := by simp (maxDischargeDepth := 60) (contextual := true) [bodyLd4, *]
@[simp] theorem bodyLd8_memOk (c : CellIx) (f : InsFields) (e : List RowFlip) (s : State) (hs : s.memOk) : (bodyLd8 c f e s).memOk := by simp (maxDischargeDepth := 60) (contextual := true) [bodyLd8, *]
@[simp] theorem bodyStore_memOk (c : CellIx) (i : Instr) (f : InsFields) (n : ℕ) (e : List RowFlip) (s : State) (hs : s.memOk) : (bodyStore c i f n e s).memOk := by simp (maxDischargeDepth := 60) (contextual := true) [bodyStore, *]
@[simp] theorem bodySt1_memOk (c : CellIx) (f : InsFields) (e : List RowFlip) (s : State) (hs : s.memOk) : (bodySt1 c f e s).memOk := by simp (maxDischargeDepth := 60) (contextual := true) [bodySt1, *]
@[simp] theorem bodySt2_memOk (c : CellIx) (f : InsFields) (e : List RowFlip) (s : State) (hs : s.memOk) : (bodySt2 c f e s).memOk := by simp (maxDischargeDepth := 60) (contextual := true) [bodySt2, *]
@[simp] theorem bodySt4_memOk (c : CellIx) (f : InsFields) (e : List RowFlip) (s : State) (hs : s.memOk) : (bodySt4 c f e s).memOk := by simp (maxDischargeDepth := 60) (contextual := true) [bodySt4, *]
@[simp] theorem bodySt8_memOk (c : CellIx) (f : InsFields) (s : State) (hs : s.memOk) : (bodySt8 c f s).memOk := by simp (maxDischargeDepth := 60) (contextual := true) [bodySt8, *]
@[simp] theorem bodyBranch_memOk (c : CellIx) (i : Instr) (f : InsFields) (p : Word → Word → Bool) (s : State) (hs : s.memOk) : (bodyBranch c i f p s).memOk := by simp (maxDischargeDepth := 60) (contextual := true) [bodyBranch, *]
@[simp] theorem bodyBeq_memOk (c : CellIx) (f : InsFields) (s : State) (hs : s.memOk) : (bodyBeq c f s).memOk := by simp (maxDischargeDepth := 60) (contextual := true) [bodyBeq, *]
@[simp] theorem bodyBne_memOk (c : CellIx) (f : InsFields) (s : State) (hs : s.memOk) : (bodyBne c f s).memOk := by simp (maxDischargeDepth := 60) (contextual := true) [bodyBne, *]
@[simp] theorem bodyBlt_memOk (c : CellIx) (f : InsFields) (s : State) (hs : s.memOk) : (bodyBlt c f s).memOk := by simp (maxDischargeDepth := 60) (contextual := true) [bodyBlt, *]
@[simp] theorem bodyBge_memOk (c : CellIx) (f : InsFields) (s : State) (hs : s.memOk) : (bodyBge c f s).memOk := by simp (maxDischargeDepth := 60) (contextual := true) [bodyBge, *]
@[simp] theorem bodyBltu_memOk (c : CellIx) (f : InsFields) (s : State) (hs : s.memOk) : (bodyBltu c f s).memOk := by simp (maxDischargeDepth := 60) (contextual := true) [bodyBltu, *]
@[simp] theorem bodyBgeu_memOk (c : CellIx) (f : InsFields) (s : State) (hs : s.memOk) : (bodyBgeu c f s).memOk := by simp (maxDischargeDepth := 60) (contextual := true) [bodyBgeu, *]
@[simp] theorem bodyJal_memOk (c : CellIx) (f : InsFields) (s : State) (hs : s.memOk) : (bodyJal c f s).memOk := by simp (maxDischargeDepth := 60) (contextual := true) [bodyJal, *]
@[simp] theorem bodyJr_memOk (c : CellIx) (f : InsFields) (s : State) (hs : s.memOk) : (bodyJr c f s).memOk := by simp (maxDischargeDepth := 60) (contextual := true) [bodyJr, *]
@[simp] theorem bodyRdrand_memOk (c : CellIx) (f : InsFields) (s : State) (hs : s.memOk) : (bodyRdrand c f s).memOk := by simp (maxDischargeDepth := 60) (contextual := true) [bodyRdrand, *]
@[simp] theorem bodyFence_memOk (c : CellIx) (s : State) (hs : s.memOk) : (bodyFence c s).memOk := by simp (maxDischargeDepth := 60) (contextual := true) [bodyFence, *]
@[simp] theorem bodyEnd_memOk (c : CellIx) (f : InsFields) (s : State) (hs : s.memOk) : (bodyEnd c f s).memOk := by simp (maxDischargeDepth := 60) (contextual := true) [bodyEnd, *]
@[simp] theorem bodyIllegal_memOk (c : CellIx) (opc : BitVec 8) (f : InsFields) (s : State) (hs : s.memOk) : (bodyIllegal c opc f s).memOk := by simp (maxDischargeDepth := 60) (contextual := true) [bodyIllegal, *]
@[simp] theorem State.modConv_memOk (s : State) (job : BitVec 32) (layer : BitVec 16) (f : LayerConv → LayerConv) (hs : s.memOk) : (State.modConv s job layer f).memOk := by simp (maxDischargeDepth := 60) (contextual := true) [State.modConv, *]
@[simp] theorem State.handStats_memOk (s : State) (c : CellIx) (job : BitVec 32) (layer : BitVec 16) (hs : s.memOk) : (State.handStats s c job layer).memOk := by simp (maxDischargeDepth := 60) (contextual := true) [State.handStats, *]
@[simp] theorem State.modWin_memOk (s : State) (k : ℕ) (w : ℕ) (f : Win → Win) (hs : s.memOk) : (State.modWin s k w f).memOk := by simp (maxDischargeDepth := 60) (contextual := true) [State.modWin, *]
@[simp] theorem State.openWin_memOk (s : State) (u : UnitAddr) (w : ℕ) (base : ℕ) (rows : ℕ) (writers : UnitAddr) (job : BitVec 32) (hs : s.memOk) : (State.openWin s u w base rows writers job).2.2.memOk := by simp only [State.openWin]; (repeat' split) <;> simp (maxDischargeDepth := 60) (contextual := true) [*]
@[simp] theorem State.winClosed_memOk (s : State) (k : ℕ) (w : ℕ) (hs : s.memOk) : (State.winClosed s k w).memOk := by simp (maxDischargeDepth := 60) (contextual := true) [State.winClosed, *]
@[simp] theorem State.closeWin_memOk (s : State) (k : ℕ) (w : ℕ) (byKill : Bool) (hs : s.memOk) : (State.closeWin s k w byKill).memOk := by simp only [State.closeWin]; (repeat' split) <;> simp (maxDischargeDepth := 60) (contextual := true) [*]
@[simp] theorem State.landWrite_memOk (s : State) (u : UnitAddr) (w : ℕ) (hs : s.memOk) : (State.landWrite s u w).memOk := by simp only [State.landWrite]; (repeat' split) <;> simp (maxDischargeDepth := 60) (contextual := true) [*]
@[simp] theorem State.acceptWrite_memOk (s : State) (m : Msg) (hs : s.memOk) : (State.acceptWrite s m).memOk := by simp only [State.acceptWrite]; (repeat' split) <;> simp (maxDischargeDepth := 60) (contextual := true) [*]
@[simp] theorem bodyWopen_memOk (c : CellIx) (f : InsFields) (s : State) (hs : s.memOk) : (bodyWopen c f s).memOk := by simp (maxDischargeDepth := 60) (contextual := true) [bodyWopen, *]
@[simp] theorem bodyWclose_memOk (c : CellIx) (f : InsFields) (s : State) (hs : s.memOk) : (bodyWclose c f s).memOk := by simp (maxDischargeDepth := 60) (contextual := true) [bodyWclose, *]
@[simp] theorem State.replyCmd_memOk (s : State) (src : UnitAddr) (dest : UnitAddr) (tag : BitVec 32) (cmd : BitVec 8) (job : BitVec 32) (code : Code) (wepoch : BitVec 16) (hs : s.memOk) : (State.replyCmd s src dest tag cmd job code wepoch).memOk := by simp (maxDischargeDepth := 60) (contextual := true) [State.replyCmd, *]
@[simp] theorem State.shareDone_memOk (s : State) (c : CellIx) (r : CmdRun) (code : Code) (hs : s.memOk) : (State.shareDone s c r code).memOk := by simp (maxDischargeDepth := 60) (contextual := true) [State.shareDone, *]
@[simp] theorem Cell.takeCmd_memOk (s : Cell) (n : ℕ) (now : Word) (hs : s.memOk) : (Cell.takeCmd s n now).memOk := by simp (maxDischargeDepth := 60) (contextual := true) [Cell.takeCmd, *]
@[simp] theorem Cell.fillRpl_memOk (s : Cell) (now : Word) (hs : s.memOk) : (Cell.fillRpl s now).memOk := by simp (maxDischargeDepth := 60) (contextual := true) [Cell.fillRpl, *]
@[simp] theorem Cell.startScrub_memOk (s : Cell) (hs : s.memOk) : (Cell.startScrub s).memOk := by simp (maxDischargeDepth := 60) (contextual := true) [Cell.startScrub, *]
@[simp] theorem State.dispatch_memOk (s : State) (c : CellIx) (hs : s.memOk) : (State.dispatch s c).memOk := by simp only [State.dispatch]; (repeat' split) <;> simp (maxDischargeDepth := 60) (contextual := true) [*]
@[simp] theorem Cell.ownJob_memOk (s : Cell) (job : BitVec 32) (hs : s.memOk) : (Cell.ownJob s job).memOk := by simp (maxDischargeDepth := 60) (contextual := true) [Cell.ownJob, *]
@[simp] theorem State.startCmdRun_memOk (s : State) (c : CellIx) (r : CmdRun) (hs : s.memOk) : (State.startCmdRun s c r).memOk := by simp (maxDischargeDepth := 60) (contextual := true) [State.startCmdRun, *]
@[simp] theorem State.startImage_memOk (s : State) (c : CellIx) (r : CmdRun) (hs : s.memOk) : (State.startImage s c r).memOk := by simp (maxDischargeDepth := 60) (contextual := true) [State.startImage, *]
@[simp] theorem State.imageItem_memOk (s : State) (c : CellIx) (r : CmdRun) (i : QItem) (hs : s.memOk) : (State.imageItem s c r i).memOk := by simp (maxDischargeDepth := 60) (contextual := true) [State.imageItem, *]
@[simp] theorem State.openByCmd_memOk (s : State) (u : UnitAddr) (item : Payload) (job : BitVec 32) (hs : s.memOk) : (State.openByCmd s u item job).2.2.memOk := by simp (maxDischargeDepth := 60) (contextual := true) [State.openByCmd, *]
@[simp] theorem State.windowDone_memOk (s : State) (u : UnitAddr) (r : CmdRun) (code : Code) (wepoch : BitVec 16) (wait : Option ℕ) (hs : s.memOk) : (State.windowDone s u r code wepoch wait).memOk := by simp only [State.windowDone]; (repeat' split) <;> simp (maxDischargeDepth := 60) (contextual := true) [*]
@[simp] theorem State.windowOpen_memOk (s : State) (u : UnitAddr) (r : CmdRun) (item : Payload) (hs : s.memOk) : (State.windowOpen s u r item).memOk := by simp (maxDischargeDepth := 60) (contextual := true) [State.windowOpen, *]
@[simp] theorem State.windowClose_memOk (s : State) (u : UnitAddr) (r : CmdRun) (item : Payload) (hs : s.memOk) : (State.windowClose s u r item).memOk := by simp (maxDischargeDepth := 60) (contextual := true) [State.windowClose, *]
@[simp] theorem State.deferredOpen_memOk (s : State) (u : UnitAddr) (w : ℕ) (hs : s.memOk) : (State.deferredOpen s u w).memOk := by simp only [State.deferredOpen]; (repeat' split) <;> simp (maxDischargeDepth := 60) (contextual := true) [*]
@[simp] theorem State.completeCmd_memOk (s : State) (c : CellIx) (r : CmdRun) (hs : s.memOk) : (State.completeCmd s c r).memOk := by simp (maxDischargeDepth := 60) (contextual := true) [State.completeCmd, *]
@[simp] theorem State.carcaseComplete_memOk (s : State) (u : UnitAddr) (p : Spread) (hs : s.memOk) : (State.carcaseComplete s u p).memOk := by simp (maxDischargeDepth := 60) (contextual := true) [State.carcaseComplete, *]
@[simp] theorem State.startScrubCmd_memOk (s : State) (c : CellIx) (r : CmdRun) (hs : s.memOk) : (State.startScrubCmd s c r).memOk := by simp (maxDischargeDepth := 60) (contextual := true) [State.startScrubCmd, *]
@[simp] theorem Cell.scrubbed_memOk (s : Cell) (hs : s.memOk) : (Cell.scrubbed s).memOk := by simp (maxDischargeDepth := 60) (contextual := true) [Cell.scrubbed, *]
@[simp] theorem State.endScrub_memOk (s : State) (c : CellIx) (hs : s.memOk) : (State.endScrub s c).memOk := by simp only [State.endScrub]; (repeat' split) <;> simp (maxDischargeDepth := 60) (contextual := true) [*]
@[simp] theorem State.freeWindows_memOk (s : State) (c : CellIx) (hs : s.memOk) : (State.freeWindows s c).memOk := by simp (maxDischargeDepth := 60) (contextual := true) [State.freeWindows, *]
@[simp] theorem State.finishScrub_memOk (s : State) (c : CellIx) (hs : s.memOk) : (State.finishScrub s c).memOk := by simp (maxDischargeDepth := 60) (contextual := true) [State.finishScrub, *]
@[simp] theorem Cell.stopped_memOk (s : Cell) (job : BitVec 32) (hs : s.memOk) : (Cell.stopped s job).memOk := by simp (maxDischargeDepth := 60) (contextual := true) [Cell.stopped, *]
@[simp] theorem State.killCell_memOk (s : State) (c : CellIx) (job : BitVec 32) (hs : s.memOk) : (State.killCell s c job).memOk := by simp (maxDischargeDepth := 60) (contextual := true) [State.killCell, *]
@[simp] theorem State.killWindows_memOk (s : State) (u : UnitAddr) (job : BitVec 32) (hs : s.memOk) : (State.killWindows s u job).memOk := by simp (maxDischargeDepth := 60) (contextual := true) [State.killWindows, *]
@[simp] theorem State.killSpreads_memOk (s : State) (u : UnitAddr) (job : BitVec 32) (hs : s.memOk) : (State.killSpreads s u job).memOk := by simp (maxDischargeDepth := 60) (contextual := true) [State.killSpreads, *]
@[simp] theorem State.replySync_memOk (s : State) (w : Waiter) (code : Code) (value : Word) (ovf : Bool) (hs : s.memOk) : (State.replySync s w code value ovf).memOk := by simp (maxDischargeDepth := 60) (contextual := true) [State.replySync, *]
@[simp] theorem State.killWaiters_memOk (s : State) (job : BitVec 32) (hs : s.memOk) : (State.killWaiters s job).memOk := by simp (maxDischargeDepth := 60) (contextual := true) [State.killWaiters, *]
@[simp] theorem State.kill_memOk (s : State) (m : Msg) (hs : s.memOk) : (State.kill s m).memOk := by simp (maxDischargeDepth := 60) (contextual := true) [State.kill, *]
@[simp] theorem Cell.recordCut_memOk (s : Cell) (k : CutRec) (hs : s.memOk) : (Cell.recordCut s k).memOk := by simp (maxDischargeDepth := 60) (contextual := true) [Cell.recordCut, *]
@[simp] theorem State.cut_memOk (s : State) (u : UnitAddr) (job : BitVec 32) (layer : Option (BitVec 16)) (hs : s.memOk) : (State.cut s u job layer).memOk := by simp only [State.cut]; (repeat' split) <;> simp (maxDischargeDepth := 60) (contextual := true) [*]
@[simp] theorem State.cutCmd_memOk (s : State) (m : Msg) (hs : s.memOk) : (State.cutCmd s m).memOk := by simp only [State.cutCmd]; (repeat' split) <;> simp (maxDischargeDepth := 60) (contextual := true) [*]
@[simp] theorem Cell.enqueueCmd_memOk (s : Cell) (now : Word) (l : List QItem) (hs : s.memOk) : (Cell.enqueueCmd s now l).memOk := by simp (maxDischargeDepth := 60) (contextual := true) [Cell.enqueueCmd, *]
@[simp] theorem State.acceptCommand_memOk (s : State) (m : Msg) (hs : s.memOk) : (State.acceptCommand s m).memOk := by simp (maxDischargeDepth := 60) (contextual := true) [State.acceptCommand, *]
@[simp] theorem State.setRole_memOk (s : State) (u : UnitAddr) (role : BitVec 8) (hs : s.memOk) : (State.setRole s u role).memOk := by simp (maxDischargeDepth := 60) (contextual := true) [State.setRole, *]
@[simp] theorem State.roleSet_memOk (s : State) (m : Msg) (hs : s.memOk) : (State.roleSet s m).memOk := by simp (maxDischargeDepth := 60) (contextual := true) [State.roleSet, *]
@[simp] theorem State.dirAccess_memOk (s : State) (dix : ℕ) (hs : s.memOk) : (State.dirAccess s dix).memOk := by simp (maxDischargeDepth := 60) (contextual := true) [State.dirAccess, *]
@[simp] theorem State.replaceEntry_memOk (s : State) (dix : ℕ) (e : Word × Word) (hs : s.memOk) : (State.replaceEntry s dix e).memOk := by simp (maxDischargeDepth := 60) (contextual := true) [State.replaceEntry, *]
@[simp] theorem Cell.markPart_memOk (s : Cell) (h_ : ℕ) (psn : Bool) (hs : s.memOk) : (Cell.markPart s h_ psn).memOk := by simp (maxDischargeDepth := 60) (contextual := true) [Cell.markPart, *]
@[simp] theorem Cell.markBlock_memOk (s : Cell) (l16 : Bool) (r : ℕ) (i : ℕ) (psn : Bool) (hs : s.memOk) : (Cell.markBlock s l16 r i psn).memOk := by simp (maxDischargeDepth := 60) (contextual := true) [Cell.markBlock, *]
@[simp] theorem State.deliver_memOk (s : State) (cells : List ℕ) (row : ℕ) (w : ℕ) (mask : ℕ) (blocks : List (ℕ × Bool × List Byte)) (hs : s.memOk) : (State.deliver s cells row w mask blocks).memOk := by simp (maxDischargeDepth := 60) (contextual := true) [State.deliver, *]
@[simp] theorem State.passUnits_memOk (s : State) (out : Bool) (us : List ℕ) (e : List UnitFlip) (hs : s.memOk) : (State.passUnits s out us e).memOk := by simp (maxDischargeDepth := 60) (contextual := true) [State.passUnits, *]
@[simp] theorem MemSys.writeUnit_memOk (s : MemSys) (u : ℕ) (x : List Byte × BitVec 2) (hs : s.memOk) : (MemSys.writeUnit s u x).memOk := by simp (maxDischargeDepth := 60) (contextual := true) [MemSys.writeUnit, *]
@[simp] theorem MemSys.writeUnits_memOk (s : MemSys) (u : ℕ) (l : List (List Byte × BitVec 2)) (hs : s.memOk) : (s.writeUnits u l).memOk := by
  induction l generalizing s u with
  | nil => exact hs
  | cons a l ih => exact ih _ _ (MemSys.writeUnit_memOk _ _ _ hs)
@[simp] theorem State.writeWsUnit_memOk (s : State) (u : ℕ) (x : List Byte × BitVec 2) (hs : s.memOk) : (State.writeWsUnit s u x).memOk := by simp (maxDischargeDepth := 60) (contextual := true) [State.writeWsUnit, *]
@[simp] theorem State.writeWsUnits_memOk (s : State) (u : ℕ) (l : List (List Byte × BitVec 2)) (hs : s.memOk) : (State.writeWsUnits s u l).memOk := by
  induction l generalizing s u with
  | nil => exact hs
  | cons a l ih => exact ih _ _ (State.writeWsUnit_memOk _ _ _ hs)
@[simp] theorem State.sendSpill_memOk (s : State) (dev : ℕ) (tag : BitVec 32) (item : Payload) (more : List Payload) (hs : s.memOk) : (State.sendSpill s dev tag item more).memOk := by simp (maxDischargeDepth := 60) (contextual := true) [State.sendSpill, *]
@[simp] theorem State.readGroup_memOk (s : State) (c : Option CellIx) (lo : Word) (hi : Word) (w : ℕ) (mask : ℕ) (e : List UnitFlip) (hs : s.memOk) : (State.readGroup s c lo hi w mask e).2.2.memOk := by simp only [State.readGroup]; (repeat' split) <;> simp (maxDischargeDepth := 60) (contextual := true) [*]
@[simp] theorem State.sendRead_memOk (s : State) (tag : BitVec 32) (lo : Word) (hi : Word) (hs : s.memOk) : (State.sendRead s tag lo hi).memOk := by simp (maxDischargeDepth := 60) (contextual := true) [State.sendRead, *]
@[simp] theorem State.startFetch_memOk (s : State) (c : CellIx) (o : UnitOp) (lo : Word) (hi : Word) (mask : ℕ) (e : List UnitFlip) (hs : s.memOk) : (State.startFetch s c o lo hi mask e).memOk := by simp only [State.startFetch]; (repeat' split) <;> simp (maxDischargeDepth := 60) (contextual := true) [*]
@[simp] theorem bodyFetch_memOk (c : CellIx) (f : InsFields) (e : List UnitFlip) (s : State) (hs : s.memOk) : (bodyFetch c f e s).memOk := by simp (maxDischargeDepth := 60) (contextual := true) [bodyFetch, *]
@[simp] theorem State.leaveJoin_memOk (s : State) (c : CellIx) (key : ℕ) (j : JoinRec) (hs : s.memOk) : (State.leaveJoin s c key j).memOk := by simp (maxDischargeDepth := 60) (contextual := true) [State.leaveJoin, *]
@[simp] theorem State.copyJoined_memOk (s : State) (c : CellIx) (o : UnitOp) (key : ℕ) (j : JoinRec) (bl : List (ℕ × Bool × List Byte)) (hs : s.memOk) : (State.copyJoined s c o key j bl).memOk := by simp (maxDischargeDepth := 60) (contextual := true) [State.copyJoined, *]
@[simp] theorem State.endJoined_memOk (s : State) (c : CellIx) (o : UnitOp) (key : ℕ) (j : JoinRec) (code : Code) (hs : s.memOk) : (State.endJoined s c o key j code).memOk := by simp (maxDischargeDepth := 60) (contextual := true) [State.endJoined, *]
@[simp] theorem State.firstJoined_memOk (s : State) (c : CellIx) (o : UnitOp) (r : CmdRun) (key : ℕ) (router : UnitAddr) (e : List UnitFlip) (hs : s.memOk) : (State.firstJoined s c o r key router e).memOk := by simp (maxDischargeDepth := 60) (contextual := true) [State.firstJoined, *]
@[simp] theorem State.joinArrive_memOk (s : State) (c : CellIx) (o : UnitOp) (r : CmdRun) (e : List UnitFlip) (hs : s.memOk) : (State.joinArrive s c o r e).memOk := by simp only [State.joinArrive]; (repeat' split) <;> simp (maxDischargeDepth := 60) (contextual := true) [*]
@[simp] theorem bodyEntryrd_memOk (c : CellIx) (f : InsFields) (s : State) (hs : s.memOk) : (bodyEntryrd c f s).memOk := by simp (maxDischargeDepth := 60) (contextual := true) [bodyEntryrd, *]
@[simp] theorem State.opEnds_memOk (s : State) (c : CellIx) (k : ℕ) (code : Code) (hs : s.memOk) : (State.opEnds s c k code).memOk := by simp (maxDischargeDepth := 60) (contextual := true) [State.opEnds, *]
@[simp] theorem State.opWaits_memOk (s : State) (c : CellIx) (k : ℕ) (x : SpillWait) (hs : s.memOk) : (State.opWaits s c k x).memOk := by simp (maxDischargeDepth := 60) (contextual := true) [State.opWaits, *]
@[simp] theorem State.storeWaits_memOk (s : State) (c : CellIx) (k : ℕ) (dix : ℕ) (x : SpillWait) (hs : s.memOk) : (State.storeWaits s c k dix x).memOk := by simp (maxDischargeDepth := 60) (contextual := true) [State.storeWaits, *]
@[simp] theorem State.storeEnds_memOk (s : State) (c : CellIx) (k : ℕ) (code : Code) (hs : s.memOk) : (State.storeEnds s c k code).memOk := by simp (maxDischargeDepth := 60) (contextual := true) [State.storeEnds, *]
@[simp] theorem State.storeEntry_memOk (s : State) (c : CellIx) (k : ℕ) (dix : ℕ) (e : Word × Word) (hs : s.memOk) : (State.storeEntry s c k dix e).memOk := by simp (maxDischargeDepth := 60) (contextual := true) [State.storeEntry, *]
@[simp] theorem State.storeLevel4_memOk (s : State) (c : CellIx) (k : ℕ) (b : List Word) (hs : s.memOk) : (State.storeLevel4 s c k b).memOk := by simp only [State.storeLevel4]; (repeat' split) <;> simp (maxDischargeDepth := 60) (contextual := true) [*]
@[simp] theorem State.storeLevel3_memOk (s : State) (c : CellIx) (k : ℕ) (b : List Word) (i : ℕ) (hs : s.memOk) : (State.storeLevel3 s c k b i).memOk := by simp only [State.storeLevel3]; (repeat' split) <;> simp (maxDischargeDepth := 60) (contextual := true) [*]
@[simp] theorem State.storeGroup_memOk (s : State) (c : CellIx) (k : ℕ) (b : List Word) (hs : s.memOk) : (s.storeGroup c k b).memOk := by
  unfold State.storeGroup; simp only []; split
  · simp (maxDischargeDepth := 60) [hs]
  · split
    · rename_i u m hm
      have := MemSys.writeUnits_memOk _ u (storeForm (s.cell c) b).2.2.2 (MemSys.alloc_memOk _ _ _ _ hs.1 _ hm)
      refine State.storeEnds_memOk _ _ _ _ (State.storeEntry_memOk _ _ _ _ _ (State.passUnits_memOk _ _ _ _ ⟨this, hs.2⟩))
    · exact State.storeLevel3_memOk _ _ _ _ _ hs
@[simp] theorem bodyStoreG_memOk (c : CellIx) (f : InsFields) (s : State) (hs : s.memOk) : (bodyStoreG c f s).memOk := by simp (maxDischargeDepth := 60) (contextual := true) [bodyStoreG, *]
@[simp] theorem State.freeGroup_memOk (s : State) (dix : ℕ) (hs : s.memOk) : (State.freeGroup s dix).memOk := by simp (maxDischargeDepth := 60) (contextual := true) [State.freeGroup, *]
@[simp] theorem MemSys.freeEnds_memOk (s : MemSys) (key : ℕ) (hs : s.memOk) : (MemSys.freeEnds s key).memOk := by simp only [MemSys.freeEnds]; (repeat' split) <;> simp (maxDischargeDepth := 60) (contextual := true) [*]
@[simp] theorem State.releaseStorage_memOk (s : State) (x : ℕ × ℕ × ℕ) (hs : s.memOk) : (State.releaseStorage s x).memOk := by simp (maxDischargeDepth := 60) (contextual := true) [State.releaseStorage, *]
@[simp] theorem State.blockFetch_memOk (s : State) (m : Msg) (e : List UnitFlip) (hs : s.memOk) : (State.blockFetch s m e).memOk := by simp (maxDischargeDepth := 60) (contextual := true) [State.blockFetch, *]
@[simp] theorem State.gotBlocks_memOk (s : State) (c : CellIx) (w : ℕ) (e : List UnitFlip) (gs : List (GotGroup × ℕ)) (hs : s.memOk) : (State.gotBlocks s c w e gs).2.2.memOk := by
  unfold State.gotBlocks
  suffices h : ∀ a : List (Nat × List (Nat × Bool × List Byte)) × Option Nat × State, a.2.2.memOk → (gs.foldl _ a).2.2.memOk from h _ hs
  induction gs with
  | nil => intro a h; exact h
  | cons g gs ih =>
    intro a h; refine ih _ ?_
    obtain ⟨l, lost, t⟩ := a
    simp only []; (repeat' split)
    all_goals first | exact h | exact State.readGroup_memOk _ _ _ _ _ _ _ h
@[simp] theorem State.gatherGo_memOk (s : State) (c : CellIx) (o : UnitOp) (e : List UnitFlip) (hs : s.memOk) : (State.gatherGo s c o e).memOk := by simp only [State.gatherGo]; (repeat' split) <;> simp (maxDischargeDepth := 60) (contextual := true) [*]
@[simp] theorem State.gather_memOk (s : State) (c : CellIx) (i : Instr) (row : Bool) (b : List Word) (e : List UnitFlip) (hs : s.memOk) : (State.gather s c i row b e).memOk := by simp (maxDischargeDepth := 60) (contextual := true) [State.gather, *]
@[simp] theorem bodyGatherColumn_memOk (c : CellIx) (f : InsFields) (e : List UnitFlip) (s : State) (hs : s.memOk) : (bodyGatherColumn c f e s).memOk := by simp (maxDischargeDepth := 60) (contextual := true) [bodyGatherColumn, *]
@[simp] theorem bodyGatherRow_memOk (c : CellIx) (f : InsFields) (e : List UnitFlip) (s : State) (hs : s.memOk) : (bodyGatherRow c f e s).memOk := by simp (maxDischargeDepth := 60) (contextual := true) [bodyGatherRow, *]
@[simp] theorem bodySelectN_memOk (c : CellIx) (f : InsFields) (s : State) (hs : s.memOk) : (bodySelectN c f s).memOk := by simp (maxDischargeDepth := 60) (contextual := true) [bodySelectN, *]
@[simp] theorem bodyAuditN_memOk (c : CellIx) (f : InsFields) (s : State) (hs : s.memOk) : (bodyAuditN c f s).memOk := by simp (maxDischargeDepth := 60) (contextual := true) [bodyAuditN, *]
@[simp] theorem State.spillRead_memOk (s : State) (c : CellIx) (o : UnitOp) (x : SpillWait) (m : Msg) (hs : s.memOk) : (State.spillRead s c o x m).memOk := by simp only [State.spillRead]; (repeat' split) <;> simp (maxDischargeDepth := 60) (contextual := true) [*]
@[simp] theorem State.spillReply_memOk (s : State) (m : Msg) (hs : s.memOk) : (State.spillReply s m).memOk := by simp only [State.spillReply]; (repeat' split) <;> simp (maxDischargeDepth := 60) (contextual := true) [*]
@[simp] theorem State.busAgain_memOk (s : State) (c : CellIx) (o : UnitOp) (x : SpillWait) (hs : s.memOk) : (State.busAgain s c o x).memOk := by simp (maxDischargeDepth := 60) (contextual := true) [State.busAgain, *]
@[simp] theorem State.spillAnswer_memOk (s : State) (m : Msg) (code : Code) (value : ℕ) (more : List Payload) (hs : s.memOk) : (State.spillAnswer s m code value more).memOk := by simp (maxDischargeDepth := 60) (contextual := true) [State.spillAnswer, *]
@[simp] theorem State.serveAlloc_memOk (s : State) (m : Msg) (hs : s.memOk) : (s.serveAlloc m).memOk := by
  have h1 := State.received_memOk s m hs
  unfold State.serveAlloc; simp only []; split
  · exact State.spillAnswer_memOk _ _ _ _ _ h1
  · split
    · exact State.spillAnswer_memOk _ _ _ _ _ h1
    · split
      · rename_i o b mem _ hm
        have : mem.memOk := by
          unfold Option.orElse at hm; split at hm
          · rename_i x hx; rw [hm] at hx; exact MemSys.alloc_memOk _ _ _ _ h1.1 _ hx
          · exact MemSys.alloc_memOk _ _ _ _ h1.1 _ hm
        exact State.spillAnswer_memOk _ _ _ _ _ ⟨this, h1.2⟩
      · exact State.spillAnswer_memOk _ _ _ _ _ h1
@[simp] theorem State.serveOther_memOk (s : State) (m : Msg) (op : ℕ) (hs : s.memOk) : (State.serveOther s m op).memOk := by simp only [State.serveOther]; (repeat' split) <;> simp (maxDischargeDepth := 60) (contextual := true) [*]
@[simp] theorem State.spillArrives_memOk (s : State) (m : Msg) (op : Nat) (f : State → State)
    (hs : s.memOk) (h : ∀ s, s.memOk → (f s).memOk) : (State.spillArrives s m op f).memOk := by
  unfold State.spillArrives; simp only []; refine onlyIf_memOk _ _ _ hs (fun hs => State.arrival_memOk _ _ _ hs (fun hs => ?_))
  split
  · exact State.received_memOk _ _ hs
  · split
    · exact h _ hs
    · exact State.spillAnswer_memOk _ _ _ _ _ (State.received_memOk _ _ hs)
@[simp] theorem Cell.setTile_memOk (s : Cell) (t : ℕ) (y : Tile) (hs : s.memOk) : (Cell.setTile s t y).memOk := by simp (maxDischargeDepth := 60) (contextual := true) [Cell.setTile, *]
@[simp] theorem Cell.modTile_memOk (s : Cell) (t : ℕ) (f : Tile → Tile) (hs : s.memOk) : (Cell.modTile s t f).memOk := by simp (maxDischargeDepth := 60) (contextual := true) [Cell.modTile, *]
@[simp] theorem State.beginDrain_memOk (s : State) (c : CellIx) (t : ℕ) (b : List Word) (run : ℕ) (cmd : ℕ) (job : BitVec 32) (layer : BitVec 16) (hs : s.memOk) : (State.beginDrain s c t b run cmd job layer).memOk := by simp (maxDischargeDepth := 60) (contextual := true) [State.beginDrain, *]
@[simp] theorem State.drain_memOk (s : State) (c : CellIx) (f : InsFields) (i : Instr) (dest : ℕ) (hs : s.memOk) : (s.drain c f i dest).memOk := by
  unfold State.drain; refine State.guarded_memOk _ _ _ _ _ _ _ hs (fun hs => State.withBlock_memOk _ _ _ _ _ _ hs (fun b hs => ?_))
  simp only []; split
  · exact hs
  · split
    · exact State.modSeq_memOk _ _ _ (State.stall_memOk _ _ _ _ hs)
    · refine State.guarded_memOk _ _ _ _ _ _ _ hs (fun hs => ?_)
      split <;> simp (maxDischargeDepth := 60) [hs]
@[simp] theorem bodyDrainRq_memOk (c : CellIx) (f : InsFields) (s : State) (hs : s.memOk) : (bodyDrainRq c f s).memOk := by simp (maxDischargeDepth := 60) (contextual := true) [bodyDrainRq, *]
@[simp] theorem bodyDrainWide_memOk (c : CellIx) (f : InsFields) (s : State) (hs : s.memOk) : (bodyDrainWide c f s).memOk := by simp (maxDischargeDepth := 60) (contextual := true) [bodyDrainWide, *]
@[simp] theorem bodyDrainChain_memOk (c : CellIx) (f : InsFields) (s : State) (hs : s.memOk) : (bodyDrainChain c f s).memOk := by simp (maxDischargeDepth := 60) (contextual := true) [bodyDrainChain, *]
@[simp] theorem bodyDrainSab_memOk (c : CellIx) (f : InsFields) (s : State) (hs : s.memOk) : (bodyDrainSab c f s).memOk := by simp (maxDischargeDepth := 60) (contextual := true) [bodyDrainSab, *]
@[simp] theorem State.tokenArrives_memOk (s : State) (c : CellIx) (t : ℕ) (hs : s.memOk) : (State.tokenArrives s c t).memOk := by simp (maxDischargeDepth := 60) (contextual := true) [State.tokenArrives, *]
@[simp] theorem State.endDrain_memOk (s : State) (c : CellIx) (t : ℕ) (code : Code) (hs : s.memOk) : (s.endDrain c t code).memOk := by
  unfold State.endDrain; refine State.modCell_memOk _ _ _ hs (fun x hx => ?_)
  simp only []; split
  · exact hx
  · simp (maxDischargeDepth := 60) [hx]
@[simp] theorem State.sendChain_memOk (s : State) (c : CellIx) (t : ℕ) (d : DrainRun) (elems : List Acc) (hs : s.memOk) : (State.sendChain s c t d elems).memOk := by simp (maxDischargeDepth := 60) (contextual := true) [State.sendChain, *]
@[simp] theorem State.rowWide_memOk (s : State) (c : CellIx) (t : ℕ) (m : ℕ) (d : DrainRun) (v : ℕ → Acc) (inside : ℕ → Bool) (hs : s.memOk) : (State.rowWide s c t m d v inside).memOk := by simp (maxDischargeDepth := 60) (contextual := true) [State.rowWide, *]
@[simp] theorem State.rowRef_memOk (s : State) (y : Tile) (m : ℕ) (b : List Word) (v : ℕ → Acc) (inside : ℕ → Bool) (hs : s.memOk) : (State.rowRef s y m b v inside).memOk := by simp (maxDischargeDepth := 60) (contextual := true) [State.rowRef, *]
@[simp] theorem State.writeRefLedger_memOk (s : State) (y : Tile) (b : List Word) (l : Ledger) (hs : s.memOk) : (State.writeRefLedger s y b l).memOk := by simp (maxDischargeDepth := 60) (contextual := true) [State.writeRefLedger, *]
@[simp] theorem State.rowRange_memOk (s : State) (c : CellIx) (t : ℕ) (m : ℕ) (d : DrainRun) (ch0 : ℕ) (v : ℕ → Acc) (inside : ℕ → Bool) (hs : s.memOk) : (State.rowRange s c t m d ch0 v inside).memOk := by simp (maxDischargeDepth := 60) (contextual := true) [State.rowRange, *]
@[simp] theorem State.rowCodes_memOk (s : State) (c : CellIx) (t : ℕ) (m : ℕ) (d : DrainRun) (ch0 : ℕ) (v : ℕ → Acc) (inside : ℕ → Bool) (draw : ℕ → ℕ) (hs : s.memOk) : (State.rowCodes s c t m d ch0 v inside draw).memOk := by simp (maxDischargeDepth := 60) (contextual := true) [State.rowCodes, *]
@[simp] theorem State.rowSab_memOk (s : State) (c : CellIx) (t : ℕ) (m : ℕ) (d : DrainRun) (v : ℕ → Acc) (inside : ℕ → Bool) (hs : s.memOk) : (State.rowSab s c t m d v inside).memOk := by simp (maxDischargeDepth := 60) (contextual := true) [State.rowSab, *]
@[simp] theorem State.sabItem_memOk (s : State) (c : CellIx) (k : ℕ) (x : Option Acc) (hs : s.memOk) : (State.sabItem s c k x).memOk := by simp (maxDischargeDepth := 60) (contextual := true) [State.sabItem, *]
@[simp] theorem State.lastRow_memOk (s : State) (c : CellIx) (t : ℕ) (r : Option CmdRun) (hs : s.memOk) : (State.lastRow s c t r).memOk := by simp only [State.lastRow]; (repeat' split) <;> simp (maxDischargeDepth := 60) (contextual := true) [*]
@[simp] theorem State.drainRow_memOk (s : State) (c : CellIx) (t : ℕ) (d : DrainRun) (x : Option Upset) (hs : s.memOk) : (State.drainRow s c t d x).memOk := by simp (maxDischargeDepth := 60) (contextual := true) [State.drainRow, *]
@[simp] theorem State.takeSum_memOk (s : State) (m : Msg) (hs : s.memOk) : (State.takeSum s m).memOk := by simp (maxDischargeDepth := 60) (contextual := true) [State.takeSum, *]
@[simp] theorem Cell.joinArray_memOk (s : Cell) (r : ArrayRun) (ext : TileExt) (job : BitVec 32) (layer : BitVec 16) (hs : s.memOk) : (Cell.joinArray s r ext job layer).memOk := by simp (maxDischargeDepth := 60) (contextual := true) [Cell.joinArray, *]
@[simp] theorem State.joinTile_memOk (s : State) (c : CellIx) (r : ArrayRun) (job : BitVec 32) (layer : BitVec 16) (hs : s.memOk) : (State.joinTile s c r job layer).memOk := by simp (maxDischargeDepth := 60) (contextual := true) [State.joinTile, *]
@[simp] theorem bodyArrayI_memOk (c : CellIx) (f : InsFields) (s : State) (hs : s.memOk) : (bodyArrayI c f s).memOk := by simp (maxDischargeDepth := 60) (contextual := true) [bodyArrayI, *]
theorem State.autoDrain_memOk (s : State) (c : CellIx) (r : ArrayRun) (n : ℕ) (hs : s.memOk) : ∀ t, (State.autoDrain s c r n) = some t → t.memOk := by simp only [State.autoDrain]; (repeat' split) <;> simp (maxDischargeDepth := 60) (contextual := true) [*]
@[simp] theorem State.nextTile_memOk (s : State) (c : CellIx) (r : ArrayRun) (code : Code) (hs : s.memOk) : (State.nextTile s c r code).memOk := by simp (maxDischargeDepth := 60) (contextual := true) [State.nextTile, *]
@[simp] theorem State.tileOver_memOk (s : State) (c : CellIx) (r : ArrayRun) (hs : s.memOk) : (s.tileOver c r).memOk := by
  unfold State.tileOver; simp only []; split
  · split
    · exact State.nextTile_memOk _ _ _ _ (State.autoDrain_memOk _ _ _ _ hs _ (by assumption))
    · exact State.modCell_memOk _ _ _ hs (fun x hx => hx)
  · exact State.nextTile_memOk _ _ _ _ hs
@[simp] theorem State.endLookups_memOk (s : State) (c : CellIx) (r : ArrayRun) (f : Feed) (planes : ℕ) (hs : s.memOk) : (State.endLookups s c r f planes).memOk := by simp (maxDischargeDepth := 60) (contextual := true) [State.endLookups, *]
@[simp] theorem Cell.enterWindow_memOk (s : Cell) (f : Feed) (r : ArrayRun) (p : ℕ) (hs : s.memOk) : (Cell.enterWindow s f r p).memOk := by simp (maxDischargeDepth := 60) (contextual := true) [Cell.enterWindow, *]
@[simp] theorem State.lookupBeat_memOk (s : State) (c : CellIx) (r : ArrayRun) (f : Feed) (st : ℕ) (unsupplied : List ℕ) (behind : Bool) (x : Option Upset) (hs : s.memOk) : (State.lookupBeat s c r f st unsupplied behind x).memOk := by simp (maxDischargeDepth := 60) (contextual := true) [State.lookupBeat, *]
@[simp] theorem State.arrayReady_memOk (c : CellIx) (n : ℕ) (s : State) (hs : s.memOk) : (State.arrayReady c n s).memOk := by
  induction n generalizing s with
  | zero => exact hs
  | succ n ih =>
    unfold State.arrayReady; simp only []; (repeat' split)
    all_goals first | exact hs | exact State.tileOver_memOk _ _ _ hs | exact ih _ (State.tileOver_memOk _ _ _ hs) | exact ih _ (State.joinTile_memOk _ _ _ _ _ hs) | exact ih _ (State.endLookups_memOk _ _ _ _ _ hs)
@[simp] theorem State.fillBeat_memOk (s : State) (c : CellIx) (r : ArrayRun) (hs : s.memOk) : (State.fillBeat s c r).memOk := by
  unfold State.fillBeat; refine State.modCell_memOk _ _ _ hs (fun x hx => ?_)
  show Memory.canon _
  cases r.lowest with
  | none => exact hx
  | some st => exact Cell.enterWindow_memOk _ _ _ _ hx
@[simp] theorem State.arrayBeat_memOk (s : State) (c : CellIx) (r : ArrayRun) (unsupplied : List ℕ) (behind : Bool) (e : List RowFlip) (x : Option Upset) (hs : s.memOk) : (State.arrayBeat s c r unsupplied behind e x).memOk := by simp only [State.arrayBeat]; (repeat' split) <;> simp (maxDischargeDepth := 60) (contextual := true) [*]
@[simp] theorem State.checkpointTile_memOk (s : State) (c : CellIx) (k : ℕ) (x : Option Upset) (hs : s.memOk) : (State.checkpointTile s c k x).memOk := by simp only [State.checkpointTile]; (repeat' split) <;> simp (maxDischargeDepth := 60) (contextual := true) [*]
@[simp] theorem bodyLoadT_memOk (c : CellIx) (f : InsFields) (s : State) (hs : s.memOk) : (bodyLoadT c f s).memOk := by simp (maxDischargeDepth := 60) (contextual := true) [bodyLoadT, *]
@[simp] theorem State.loadDone_memOk (s : State) (c : CellIx) (t : ℕ) (row : ℕ) (op : ℕ) (hs : s.memOk) : (s.loadDone c t row op).memOk := by
  unfold State.loadDone; refine State.modCell_memOk _ _ _ hs (fun x hx => ?_)
  exact Cell.modOp_memOk _ _ _ (Cell.modTile_memOk _ _ _ hx)
@[simp] theorem State.rqOp_memOk (s : State) (c : CellIx) (f : InsFields) (i : Instr) (op : Nat) (busy : Cell → Bool)
    (io : List Word → Cell → List (Nat × Nat) × List (Nat × Nat)) (check : List Word → Cell → Option Code)
    (run : List Word → State → Code × List (BitVec 4 × Word) × State) (hs : s.memOk) (h : ∀ b s, s.memOk → (run b s).2.2.memOk) :
    (s.rqOp c f i op busy io check run).memOk := by
  unfold State.rqOp; refine State.guarded_memOk _ _ _ _ _ _ _ hs (fun hs => State.withBlock_memOk _ _ _ _ _ _ hs (fun b hs => ?_))
  simp only []; split
  · exact hs
  · split
    · exact State.reject_memOk _ _ _ _ hs
    · split
      · exact State.stall_memOk _ _ _ _ hs
      · refine State.guarded_memOk _ _ _ _ _ _ _ hs (fun hs => ?_)
        split
        · exact State.reject_memOk _ _ _ _ hs
        · have := h b s hs
          split <;> simp (maxDischargeDepth := 60) [this]
@[simp] theorem State.convertRows_memOk (s : State) (c : CellIx) (k : Conv) (b : List Word) (src : Source) (hs : s.memOk) : (State.convertRows s c k b src).2.memOk := by simp (maxDischargeDepth := 60) (contextual := true) [State.convertRows, *]
@[simp] theorem bodyRangeReset_memOk (c : CellIx) (f : InsFields) (s : State) (hs : s.memOk) : (bodyRangeReset c f s).memOk := by simp (maxDischargeDepth := 60) (contextual := true) [bodyRangeReset, *]
@[simp] theorem requantRun_memOk (c : CellIx) (b : List Word) (s : State) (hs : s.memOk) : (requantRun c b s).2.2.memOk := by simp (maxDischargeDepth := 60) (contextual := true) [requantRun, *]
@[simp] theorem bodyRequant_memOk (c : CellIx) (f : InsFields) (s : State) (hs : s.memOk) : (bodyRequant c f s).memOk := by simp (maxDischargeDepth := 60) (contextual := true) [bodyRequant, *]
@[simp] theorem bodyRangeRequant_memOk (c : CellIx) (f : InsFields) (s : State) (hs : s.memOk) : (bodyRangeRequant c f s).memOk := by simp (maxDischargeDepth := 60) (contextual := true) [bodyRangeRequant, *]
@[simp] theorem saboutRun_memOk (c : CellIx) (b : List Word) (s : State) (hs : s.memOk) : (saboutRun c b s).2.2.memOk := by simp only [saboutRun]; (repeat' split) <;> simp (maxDischargeDepth := 60) (contextual := true) [*]
@[simp] theorem bodySabout_memOk (c : CellIx) (f : InsFields) (s : State) (hs : s.memOk) : (bodySabout c f s).memOk := by simp (maxDischargeDepth := 60) (contextual := true) [bodySabout, *]
@[simp] theorem dequantRun_memOk (c : CellIx) (b : List Word) (s : State) (hs : s.memOk) : (dequantRun c b s).2.2.memOk := by simp (maxDischargeDepth := 60) (contextual := true) [dequantRun, *]
@[simp] theorem bodyDequant_memOk (c : CellIx) (f : InsFields) (s : State) (hs : s.memOk) : (bodyDequant c f s).memOk := by simp (maxDischargeDepth := 60) (contextual := true) [bodyDequant, *]
@[simp] theorem quantRun_memOk (c : CellIx) (b : List Word) (s : State) (hs : s.memOk) : (quantRun c b s).2.2.memOk := by simp (maxDischargeDepth := 60) (contextual := true) [quantRun, *]
@[simp] theorem bodyQuant_memOk (c : CellIx) (f : InsFields) (s : State) (hs : s.memOk) : (bodyQuant c f s).memOk := by simp (maxDischargeDepth := 60) (contextual := true) [bodyQuant, *]
@[simp] theorem bodyRangeF32_memOk (c : CellIx) (f : InsFields) (s : State) (hs : s.memOk) : (bodyRangeF32 c f s).memOk := by simp (maxDischargeDepth := 60) (contextual := true) [bodyRangeF32, *]
@[simp] theorem bodyRangeout_memOk (c : CellIx) (f : InsFields) (s : State) (hs : s.memOk) : (bodyRangeout c f s).memOk := by simp (maxDischargeDepth := 60) (contextual := true) [bodyRangeout, *]
@[simp] theorem bodyRangemerge_memOk (c : CellIx) (f : InsFields) (s : State) (hs : s.memOk) : (bodyRangemerge c f s).memOk := by
  unfold bodyRangemerge; exact State.rqOp_memOk _ _ _ _ _ _ _ _ _ hs (fun b s hs => State.modCell_memOk _ _ _ hs (fun x hx => hx))
@[simp] theorem scaleRun_memOk (c : CellIx) (f : InsFields) (b : List Word) (s : State) (hs : s.memOk) : (scaleRun c f b s).2.2.memOk := by simp (maxDischargeDepth := 60) (contextual := true) [scaleRun, *]
@[simp] theorem bodyScaleRq_memOk (c : CellIx) (f : InsFields) (s : State) (hs : s.memOk) : (bodyScaleRq c f s).memOk := by simp (maxDischargeDepth := 60) (contextual := true) [bodyScaleRq, *]
@[simp] theorem bodyLedgerW_memOk (c : CellIx) (f : InsFields) (s : State) (hs : s.memOk) : (bodyLedgerW c f s).memOk := by simp (maxDischargeDepth := 60) (contextual := true) [bodyLedgerW, *]
@[simp] theorem Cell.lfuWrite_memOk (s : Cell) (k : LfuBlk) (c0 : ℕ) (outs : List LfuOut) (psn : ℕ → Bool) (hs : s.memOk) : (Cell.lfuWrite s k c0 outs psn).memOk := by simp (maxDischargeDepth := 60) (contextual := true) [Cell.lfuWrite, *]
@[simp] theorem Cell.lfuCount_memOk (s : Cell) (e : LfuEv) (hs : s.memOk) : (Cell.lfuCount s e).memOk := by simp (maxDischargeDepth := 60) (contextual := true) [Cell.lfuCount, *]
@[simp] theorem Cell.lfuRow_memOk (x0 : Cell) (k : LfuBlk) (job : BitVec 32) (layer : BitVec 16) (x : Cell) (r : ℕ) (hx : x.memOk) : (Cell.lfuRow x0 k job layer x r).1.memOk := by
  have hput : ∀ (y : Cell) (l : List Nat) (f : Nat → Nat) (g : Nat → Bool), y.memOk → (l.foldl (fun y h => y.markPart (f h) (g h)) y).memOk :=
    fun y l f g h => foldl_cellOk _ (fun y a h => Cell.markPart_memOk _ _ _ h) _ _ h
  unfold Cell.lfuRow; extract_lets
  (repeat' split)
  all_goals first
    | exact Cell.lfuCount_memOk _ _ (Cell.lfuWrite_memOk _ _ _ _ _ hx)
    | (refine Cell.lfuCount_memOk _ _ (foldl_cellOk _ (fun y a h => Cell.markPart_memOk _ _ _ h) _ _ ?_); exact Memory.canon_writeBytes _ _ _ hx)
@[simp] theorem State.lfuRun_memOk (s : State) (c : CellIx) (k : LfuBlk) (hs : s.memOk) : (s.lfuRun c k).2.memOk := by
  unfold State.lfuRun; refine State.setCell_memOk _ _ _ hs ?_
  have h0 := State.memOk_cell s c hs
  show Memory.canon _
  have key : ∀ (l : List ℕ) (a : Cell × Bool), a.1.memOk → (l.foldl (fun (a : Cell × Bool) r =>
      ((((s.cell c).lfuRow k (s.cell c).job (s.cell c).layer a.1 r).1, a.2 || ((s.cell c).lfuRow k (s.cell c).job (s.cell c).layer a.1 r).2) : Cell × Bool)) a).1.memOk := by
    intro l; induction l with
    | nil => intro a ha; exact ha
    | cons r t ih => intro a ha; exact ih _ (Cell.lfuRow_memOk _ _ _ _ _ _ ha)
  exact key _ _ h0
@[simp] theorem State.lfu_memOk (s : State) (c : CellIx) (f : InsFields) (i : Instr) (op : ℕ) (hs : s.memOk) : (State.lfu s c f i op).memOk := by simp (maxDischargeDepth := 60) (contextual := true) [State.lfu, *]
@[simp] theorem bodyCvt_memOk (c : CellIx) (f : InsFields) (s : State) (hs : s.memOk) : (bodyCvt c f s).memOk := by simp (maxDischargeDepth := 60) (contextual := true) [bodyCvt, *]
@[simp] theorem bodyLfuMul_memOk (c : CellIx) (f : InsFields) (s : State) (hs : s.memOk) : (bodyLfuMul c f s).memOk := by simp (maxDischargeDepth := 60) (contextual := true) [bodyLfuMul, *]
@[simp] theorem bodyExpF_memOk (c : CellIx) (f : InsFields) (s : State) (hs : s.memOk) : (bodyExpF c f s).memOk := by simp (maxDischargeDepth := 60) (contextual := true) [bodyExpF, *]
@[simp] theorem bodyLogF_memOk (c : CellIx) (f : InsFields) (s : State) (hs : s.memOk) : (bodyLogF c f s).memOk := by simp (maxDischargeDepth := 60) (contextual := true) [bodyLogF, *]
@[simp] theorem bodyRecip_memOk (c : CellIx) (f : InsFields) (s : State) (hs : s.memOk) : (bodyRecip c f s).memOk := by simp (maxDischargeDepth := 60) (contextual := true) [bodyRecip, *]
@[simp] theorem bodyRsqrt_memOk (c : CellIx) (f : InsFields) (s : State) (hs : s.memOk) : (bodyRsqrt c f s).memOk := by simp (maxDischargeDepth := 60) (contextual := true) [bodyRsqrt, *]
@[simp] theorem bodySoftmax_memOk (c : CellIx) (f : InsFields) (s : State) (hs : s.memOk) : (bodySoftmax c f s).memOk := by simp (maxDischargeDepth := 60) (contextual := true) [bodySoftmax, *]
@[simp] theorem bodyGelu_memOk (c : CellIx) (f : InsFields) (s : State) (hs : s.memOk) : (bodyGelu c f s).memOk := by simp (maxDischargeDepth := 60) (contextual := true) [bodyGelu, *]
@[simp] theorem bodySilu_memOk (c : CellIx) (f : InsFields) (s : State) (hs : s.memOk) : (bodySilu c f s).memOk := by simp (maxDischargeDepth := 60) (contextual := true) [bodySilu, *]
@[simp] theorem bodyNormF_memOk (c : CellIx) (f : InsFields) (s : State) (hs : s.memOk) : (bodyNormF c f s).memOk := by simp (maxDischargeDepth := 60) (contextual := true) [bodyNormF, *]
@[simp] theorem State.modDrv_memOk (s : State) (f : Driver → Driver) (hs : s.memOk) : (State.modDrv s f).memOk := by simp (maxDischargeDepth := 60) (contextual := true) [State.modDrv, *]
@[simp] theorem State.setJob_memOk (s : State) (j : JobRec) (hs : s.memOk) : (State.setJob s j).memOk := by simp (maxDischargeDepth := 60) (contextual := true) [State.setJob, *]
@[simp] theorem State.modStream_memOk (s : State) (i : ℕ) (f : Stream → Stream) (hs : s.memOk) : (State.modStream s i f).memOk := by simp (maxDischargeDepth := 60) (contextual := true) [State.modStream, *]
@[simp] theorem State.post_memOk (s : State) (st : ℕ) (x : Completion) (hs : s.memOk) : (State.post s st x).memOk := by simp (maxDischargeDepth := 60) (contextual := true) [State.post, *]
@[simp] theorem State.settle_memOk (s : State) (hs : s.memOk) : (State.settle s).memOk := by simp (maxDischargeDepth := 60) (contextual := true) [State.settle, *]
@[simp] theorem State.roleEpoch_memOk (s : State) (dev : BitVec 16) (hs : s.memOk) : (State.roleEpoch s dev).2.memOk := by simp only [State.roleEpoch]; (repeat' split) <;> simp (maxDischargeDepth := 60) (contextual := true) [*]
@[simp] theorem State.driverSync_memOk (s : State) (job : BitVec 32) (dev : BitVec 16) (obj : BitVec 16) (op : ℕ) (ack : Bool) (value : Word) (tag : BitVec 32) (hs : s.memOk) : (State.driverSync s job dev obj op ack value tag).memOk := by simp (maxDischargeDepth := 60) (contextual := true) [State.driverSync, *]
@[simp] theorem State.driverKill_memOk (s : State) (job : BitVec 32) (dev : BitVec 16) (tag : BitVec 32) (hs : s.memOk) : (State.driverKill s job dev tag).memOk := by simp (maxDischargeDepth := 60) (contextual := true) [State.driverKill, *]
@[simp] theorem State.forget_memOk (s : State) (job : BitVec 32) (hs : s.memOk) : (State.forget s job).memOk := by simp (maxDischargeDepth := 60) (contextual := true) [State.forget, *]
@[simp] theorem State.jobOver_memOk (s : State) (j : JobRec) (hs : s.memOk) : (State.jobOver s j).memOk := by simp (maxDischargeDepth := 60) (contextual := true) [State.jobOver, *]
@[simp] theorem State.endJob_memOk (s : State) (j : JobRec) (hs : s.memOk) : (State.endJob s j).memOk := by simp only [State.endJob]; (repeat' split) <;> simp (maxDischargeDepth := 60) (contextual := true) [*]
@[simp] theorem State.clearRefs_memOk (s : State) (j : JobRec) (hs : s.memOk) : (State.clearRefs s j).memOk := by simp only [State.clearRefs]; (repeat' split) <;> simp (maxDischargeDepth := 60) (contextual := true) [*]
@[simp] theorem State.killJob_memOk (s : State) (j : JobRec) (hs : s.memOk) : (State.killJob s j).memOk := by simp only [State.killJob]; (repeat' split) <;> simp (maxDischargeDepth := 60) (contextual := true) [*]
@[simp] theorem State.freeStored_memOk (s : State) (job : BitVec 32) (hs : s.memOk) : (State.freeStored s job).memOk := by simp (maxDischargeDepth := 60) (contextual := true) [State.freeStored, *]
@[simp] theorem State.addReply_memOk (s : State) (m : Msg) (hs : s.memOk) : (State.addReply s m).memOk := by simp only [State.addReply]; (repeat' split) <;> simp (maxDischargeDepth := 60) (contextual := true) [*]
@[simp] theorem State.driverReply_memOk (s : State) (m : Msg) (hs : s.memOk) : (State.driverReply s m).memOk := by simp only [State.driverReply]; (repeat' split) <;> simp (maxDischargeDepth := 60) (contextual := true) [*]
@[simp] theorem State.driverBounce_memOk (s : State) (m : Msg) (hs : s.memOk) : (State.driverBounce s m).memOk := by simp (maxDischargeDepth := 60) (contextual := true) [State.driverBounce, *]
@[simp] theorem State.hiqFill_memOk (s : State) (l : List QItem) (hs : s.memOk) : (State.hiqFill s l).memOk := by simp (maxDischargeDepth := 60) (contextual := true) [State.hiqFill, *]
@[simp] theorem State.toHiq_memOk (s : State) (m : Msg) (hs : s.memOk) : (State.toHiq s m).memOk := by simp (maxDischargeDepth := 60) (contextual := true) [State.toHiq, *]
@[simp] theorem State.toHost_memOk (s : State) (m : Msg) (hs : s.memOk) : (State.toHost s m).memOk := by simp (maxDischargeDepth := 60) (contextual := true) [State.toHost, *]
@[simp] theorem bodySyncOp_memOk (c : CellIx) (f : InsFields) (s : State) (hs : s.memOk) : (bodySyncOp c f s).memOk := by simp only [bodySyncOp]; (repeat' split) <;> simp (maxDischargeDepth := 60) (contextual := true) [*]
@[simp] theorem bodyQread_memOk (c : CellIx) (f : InsFields) (s : State) (hs : s.memOk) : (bodyQread c f s).memOk := by simp (maxDischargeDepth := 60) (contextual := true) [bodyQread, *]
@[simp] theorem bodyQflush_memOk (c : CellIx) (f : InsFields) (s : State) (hs : s.memOk) : (bodyQflush c f s).memOk := by simp (maxDischargeDepth := 60) (contextual := true) [bodyQflush, *]
@[simp] theorem bodySendW_memOk (c : CellIx) (f : InsFields) (s : State) (hs : s.memOk) : (bodySendW c f s).memOk := by simp (maxDischargeDepth := 60) (contextual := true) [bodySendW, *]
@[simp] theorem State.opComplete_memOk (s : State) (c : CellIx) (o : UnitOp) (again : List ℕ) (hs : s.memOk) : (State.opComplete s c o again).memOk := by simp only [State.opComplete]; (repeat' split) <;> simp (maxDischargeDepth := 60) (contextual := true) [*]
@[simp] theorem bodyOf_memOk (i : Instr) (s : State) (hs : s.memOk) : (bodyOf i s).memOk := by simp only [bodyOf]; (repeat' split) <;> simp (maxDischargeDepth := 60) (contextual := true) [*]
@[simp] theorem State.reissue_memOk (s : State) (c : CellIx) (i : Instr) (hs : s.memOk) : (State.reissue s c i).memOk := by simp only [State.reissue]; (repeat' split) <;> simp (maxDischargeDepth := 60) (contextual := true) [*]
@[simp] theorem State.releaseStall_memOk (s : State) (c : CellIx) (cause : BitVec 4) (i : Instr) (hs : s.memOk) : (State.releaseStall s c cause i).memOk := by simp only [State.releaseStall]; (repeat' split) <;> simp (maxDischargeDepth := 60) (contextual := true) [*]
@[simp] theorem State.watchdog_memOk (s : State) (c : CellIx) (hs : s.memOk) : (State.watchdog s c).memOk := by simp (maxDischargeDepth := 60) (contextual := true) [State.watchdog, *]
@[simp] theorem State.toRpl_memOk (s : State) (c : CellIx) (m : Msg) (hs : s.memOk) : (State.toRpl s c m).memOk := by simp (maxDischargeDepth := 60) (contextual := true) [State.toRpl, *]
@[simp] theorem Cell.answered_memOk (s : Cell) (o : UnitOp) (m : Msg) (hs : s.memOk) : (Cell.answered s o m).memOk := by simp (maxDischargeDepth := 60) (contextual := true) [Cell.answered, *]
@[simp] theorem State.takeReply_memOk (s : State) (m : Msg) (hs : s.memOk) : (State.takeReply s m).memOk := by simp only [State.takeReply]; (repeat' split) <;> simp (maxDischargeDepth := 60) (contextual := true) [*]
@[simp] theorem State.fetchBounced_memOk (s : State) (c : CellIx) (m : Msg) (hs : s.memOk) : (State.fetchBounced s c m).memOk := by simp only [State.fetchBounced]; (repeat' split) <;> simp (maxDischargeDepth := 60) (contextual := true) [*]
@[simp] theorem State.takeBounce_memOk (s : State) (m : Msg) (hs : s.memOk) : (State.takeBounce s m).memOk := by simp only [State.takeBounce]; (repeat' split) <;> simp (maxDischargeDepth := 60) (contextual := true) [*]
@[simp] theorem State.flushDone_memOk (s : State) (q : QueueId) (hs : s.memOk) : (State.flushDone s q).memOk := by simp only [State.flushDone]; (repeat' split) <;> simp (maxDischargeDepth := 60) (contextual := true) [*]
@[simp] theorem State.enqueueMore_memOk (s : State) (q : QueueId) (hs : s.memOk) : (State.enqueueMore s q).memOk := by simp only [State.enqueueMore]; (repeat' split) <;> simp (maxDischargeDepth := 60) (contextual := true) [*]
@[simp] theorem State.queueTail_memOk (s : State) (q : QueueId) (hs : s.memOk) : (State.queueTail s q).memOk := by simp only [State.queueTail]; (repeat' split) <;> simp (maxDischargeDepth := 60) (contextual := true) [*]
@[simp] theorem State.setSync_memOk (s : State) (i : ℕ) (o : SyncObj) (hs : s.memOk) : (State.setSync s i o).memOk := by simp (maxDischargeDepth := 60) (contextual := true) [State.setSync, *]
@[simp] theorem State.syncReply_memOk (s : State) (m : Msg) (code : Code) (value : Word) (hs : s.memOk) : (State.syncReply s m code value).memOk := by simp (maxDischargeDepth := 60) (contextual := true) [State.syncReply, *]
@[simp] theorem State.releaseWaiters_memOk (s : State) (i : ℕ) (hs : s.memOk) : (State.releaseWaiters s i).memOk := by simp (maxDischargeDepth := 60) (contextual := true) [State.releaseWaiters, *]
@[simp] theorem State.addWaiter_memOk (s : State) (w : Waiter) (hs : s.memOk) : (State.addWaiter s w).memOk := by simp (maxDischargeDepth := 60) (contextual := true) [State.addWaiter, *]
@[simp] theorem State.applySync_memOk (s : State) (m : Msg) (hs : s.memOk) : (State.applySync s m).memOk := by simp only [State.applySync]; (repeat' split) <;> simp (maxDischargeDepth := 60) (contextual := true) [*]
@[simp] theorem State.syncOp_memOk (s : State) (m : Msg) (hs : s.memOk) : (State.syncOp s m).memOk := by simp (maxDischargeDepth := 60) (contextual := true) [State.syncOp, *]
@[simp] theorem State.syncArrives_memOk (s : State) (m : Msg) (op : ℕ) (hs : s.memOk) : (State.syncArrives s m op).memOk := by simp (maxDischargeDepth := 60) (contextual := true) [State.syncArrives, *]
@[simp] theorem State.ceLimitReached_memOk (s : State) (c : CellIx) (row : ℕ) (hs : s.memOk) : (State.ceLimitReached s c row).memOk := by simp (maxDischargeDepth := 60) (contextual := true) [State.ceLimitReached, *]
@[simp] theorem Cell.moved_memOk (s : Cell) (hs : s.memOk) : (Cell.moved s).memOk := by simp (maxDischargeDepth := 60) (contextual := true) [Cell.moved, *]
@[simp] theorem State.retired_memOk (s : State) (c : CellIx) (cause : BitVec 8) (hs : s.memOk) : (State.retired s c cause).memOk := by simp (maxDischargeDepth := 60) (contextual := true) [State.retired, *]
@[simp] theorem State.startHosting_memOk (s : State) (c : CellIx) (h_ : ℕ) (mem : MemSys) (hs : s.memOk) (h3 : mem.memOk): (State.startHosting s c h_ mem).memOk := by simp (maxDischargeDepth := 60) (contextual := true) [State.startHosting, *]
@[simp] theorem State.releaseLost_memOk (s : State) (unit : ℕ) (hs : s.memOk) : (State.releaseLost s unit).memOk := by simp (maxDischargeDepth := 60) (contextual := true) [State.releaseLost, *]
@[simp] theorem State.putGroup_memOk (s : State) (job : BitVec 32) (dix w map psn : ℕ) (block : ℕ → List Byte) (hs : s.memOk) : ∀ t, (State.putGroup s job dix w map psn block) = some t → t.memOk := by
  have hput : ∀ (s : State) (p : Word × Word) (f : Driver → Driver) (g : List (Nat × Nat × Nat)), s.memOk →
      ({ s.replaceEntry dix p with drv := f (s.replaceEntry dix p).drv, mem := { (s.replaceEntry dix p).mem with storeQ := g } } : State).memOk := by
    intro s p f g h
    have h2 := State.replaceEntry_memOk s dix p h
    exact ⟨⟨h2.1.1, h2.1.2⟩, h2.2⟩
  unfold State.putGroup; extract_lets x n put; intro t h; split at h
  · cases h; exact hput _ _ (fun d => { d with stored := d.stored ++ [(job, dix)] }) _ hs
  · split at h
    · rename_i u m hm
      cases h
      have := MemSys.writeUnits_memOk _ u x.2 (MemSys.alloc_memOk _ _ _ _ hs.1 _ hm)
      exact hput _ _ (fun d => { d with stored := d.stored ++ [(job, dix)] }) _ (State.passUnits_memOk _ _ _ _ ⟨this, hs.2⟩)
    · split at h
      · cases h
      · simp only [Option.map_eq_some_iff] at h; obtain ⟨u, hu, rfl⟩ := h
        have h1 := State.writeWsUnits_memOk s u x.2 hs
        exact hput _ _ (fun d => { d with stored := d.stored ++ [(job, dix)] }) _ (State.modDie_memOk _ _ _ ⟨⟨h1.1.1, h1.1.2⟩, h1.2⟩)
theorem State.putTensor_memOk (s : State) (job : BitVec 32) (t : Desc) (v : Values) (hs : s.memOk) : ∀ u, (State.putTensor s job t v) = some u → u.memOk := by
  unfold State.putTensor
  suffices h : ∀ (l : List Nat) (a : Option State), (∀ u, a = some u → u.memOk) → ∀ u, l.foldl _ a = some u → u.memOk from
    h _ _ (by intro u h; cases h; exact hs)
  intro l; induction l with
  | nil => intro a h; exact h
  | cons q l ih =>
    intro a h; refine ih _ ?_
    intro u hu; cases a with
    | none => simp at hu
    | some x => simp only [Option.bind_some] at hu; exact State.putGroup_memOk _ _ _ _ _ _ _ (h x rfl) _ hu
theorem State.importLayer_memOk (s : State) (job : BitVec 32) (g : GraphRec) (l : Desc) (t : Desc) (hs : s.memOk) : ∀ u, (State.importLayer s job g l t) = some u → u.memOk := by
  unfold State.importLayer; exact State.putTensor_memOk _ _ _ _ hs
@[simp] theorem State.exportLayer_memOk (s : State) (g : GraphRec) (l : Desc) (t : Desc) (hs : s.memOk) : (State.exportLayer s g l t).1.memOk := by simp (maxDischargeDepth := 60) (contextual := true) [State.exportLayer, *]
theorem State.hostLayer_memOk (s : State) (job : BitVec 32) (g : GraphRec) (l : Desc) (p : Word) (t : Desc) (hs : s.memOk) : ∀ u, (State.hostLayer s job g l p t) = some u → u.memOk := by
  unfold State.hostLayer; intro u h; simp only [Option.map_eq_some_iff] at h; obtain ⟨v, hv, rfl⟩ := h
  exact State.useFree_memOk _ (State.putTensor_memOk _ _ _ _ hs v hv)
theorem State.layerData_memOk (s : State) (j : JobRec) (g : GraphRec) (p : Word) (l : Desc) (hs : s.memOk) : ∀ u, (State.layerData s j g p l) = some u → u.1.memOk := by
  unfold State.layerData; simp only []; intro u h; (repeat' split at h)
  · simp only [Option.map_eq_some_iff] at h; obtain ⟨v, hv, rfl⟩ := h; exact State.importLayer_memOk _ _ _ _ _ hs _ hv
  · cases h
  · simp only [Option.some.injEq] at h; rw [← h]; exact State.exportLayer_memOk _ _ _ _ hs
  · cases h
  · simp only [Option.some.injEq] at h; rw [← h]; exact foldl_memOk _ (fun s a hs => State.freeGroup_memOk _ _ hs) _ _ hs
  · simp only [Option.map_eq_some_iff] at h; obtain ⟨v, hv, rfl⟩ := h; exact State.hostLayer_memOk _ _ _ _ _ _ hs _ hv
  · cases h; exact hs
@[simp] theorem State.readEntry_memOk (s : State) (st : Nat) (f : State → State) (hs : s.memOk) (h : ∀ s, s.memOk → (f s).memOk) :
    (State.readEntry s st f).memOk := by
  unfold State.readEntry; simp only []; split
  · split
    · exact h _ hs
    · exact hs
  · exact hs
@[simp] theorem State.rejectJob_memOk (s : State) (st : ℕ) (d : Desc) (prectab : List Word) (code : Code) (layer : BitVec 32) (hs : s.memOk) : (State.rejectJob s st d prectab code layer).memOk := by simp (maxDischargeDepth := 60) (contextual := true) [State.rejectJob, *]
@[simp] theorem State.killedEntry_memOk (s : State) (st : ℕ) (d : Desc) (prectab : List Word) (killers : List ℕ) (hs : s.memOk) : (State.killedEntry s st d prectab killers).memOk := by simp (maxDischargeDepth := 60) (contextual := true) [State.killedEntry, *]
@[simp] theorem State.acceptJob_memOk (s : State) (j : JobRec) (hs : s.memOk) : (State.acceptJob s j).memOk := by simp only [State.acceptJob]; (repeat' split) <;> simp (maxDischargeDepth := 60) (contextual := true) [*]
@[simp] theorem State.beginJob_memOk (s : State) (st : ℕ) (d : Desc) (prectab : List Word) (killers : List ℕ) (cuts : List (Option (BitVec 16))) (hs : s.memOk) : (State.beginJob s st d prectab killers cuts).memOk := by simp only [State.beginJob]; (repeat' split) <;> simp (maxDischargeDepth := 60) (contextual := true) [*]
@[simp] theorem State.beginRegister_memOk (s : State) (st : ℕ) (d : Desc) (graph : Desc) (ts : List Desc) (ls : List Desc) (room : Bool) (hs : s.memOk) : (State.beginRegister s st d graph ts ls room).memOk := by simp only [State.beginRegister]; (repeat' split) <;> simp (maxDischargeDepth := 60) (contextual := true) [*]
@[simp] theorem State.beginRelease_memOk (s : State) (st : ℕ) (d : Desc) (hs : s.memOk) : (State.beginRelease s st d).memOk := by simp only [State.beginRelease]; (repeat' split) <;> simp (maxDischargeDepth := 60) (contextual := true) [*]
@[simp] theorem State.begin_memOk (s : State) (q : QEntry) (hs : s.memOk) : (State.begin s q).memOk := by simp only [State.begin]; (repeat' split) <;> simp (maxDischargeDepth := 60) (contextual := true) [*]
@[simp] theorem State.nextEntry_memOk (s : State) (st : ℕ) (hs : s.memOk) : (State.nextEntry s st).memOk := by simp only [State.nextEntry]; (repeat' split) <;> simp (maxDischargeDepth := 60) (contextual := true) [*]
@[simp] theorem State.sequential_memOk (s : State) (st : ℕ) (c : Instr) (hs : s.memOk) : (State.sequential s st c).memOk := by simp (maxDischargeDepth := 60) (contextual := true) [State.sequential, *]
@[simp] theorem State.killEntry_memOk (s : State) (st : ℕ) (d : Desc) (hs : s.memOk) : (State.killEntry s st d).memOk := by simp only [State.killEntry]; (repeat' split) <;> simp (maxDischargeDepth := 60) (contextual := true) [*]
@[simp] theorem State.cutDevice_memOk (s : State) (job : BitVec 32) (scope : Option (BitVec 16)) (hs : s.memOk) : (State.cutDevice s job scope).memOk := by simp (maxDischargeDepth := 60) (contextual := true) [State.cutDevice, *]
@[simp] theorem State.cutEntry_memOk (s : State) (st : ℕ) (d : Desc) (hs : s.memOk) : (State.cutEntry s st d).memOk := by simp only [State.cutEntry]; (repeat' split) <;> simp (maxDischargeDepth := 60) (contextual := true) [*]
@[simp] theorem State.startJob_memOk (s : State) (j : JobRec) (hs : s.memOk) : (State.startJob s j).memOk := by simp (maxDischargeDepth := 60) (contextual := true) [State.startJob, *]
@[simp] theorem State.beginDelta_memOk (s : State) (j : JobRec) (g : GraphRec) (p : Word) (l : Desc) (layer : BitVec 16) (hs : s.memOk) : (State.beginDelta s j g p l layer).memOk := by simp (maxDischargeDepth := 60) (contextual := true) [State.beginDelta, *]
@[simp] theorem State.writeDev_memOk (s : State) (a : ℕ) (l : List Word) (hs : s.memOk) : (State.writeDev s a l).memOk := by simp (maxDischargeDepth := 60) (contextual := true) [State.writeDev, *]
@[simp] theorem State.writeRecords_memOk (s : State) (job : BitVec 32) (layer : BitVec 16) (g : GraphRec) (p : Word) (l : Desc) (record : List Word) (carried : List Word) (hs : s.memOk) : (State.writeRecords s job layer g p l record carried).memOk := by simp only [State.writeRecords]; (repeat' split) <;> simp (maxDischargeDepth := 60) (contextual := true) [*]
@[simp] theorem State.endDelta_memOk (s : State) (g : GraphRec) (l : Desc) (hs : s.memOk) : (State.endDelta s g l).memOk := by simp (maxDischargeDepth := 60) (contextual := true) [State.endDelta, *]
@[simp] theorem State.writeLedgers_memOk (s : State) (l : Desc) (ledgers : List Ledger) (hs : s.memOk) : (State.writeLedgers s l ledgers).memOk := by simp (maxDischargeDepth := 60) (contextual := true) [State.writeLedgers, *]
@[simp] theorem State.layerDone_memOk (s : State) (j : JobRec) (g : GraphRec) (p : Word) (l : Desc) (layer : BitVec 16) (code : Code) (psn : Bool) (record : List Word) (carried : List Word) (given : List (List Payload)) (hs : s.memOk) : (State.layerDone s j g p l layer code psn record carried given).memOk := by simp (maxDischargeDepth := 60) (contextual := true) [State.layerDone, *]
@[simp] theorem State.signal_memOk (s : State) (st : ℕ) (hs : s.memOk) : (State.signal s st).memOk := by simp (maxDischargeDepth := 60) (contextual := true) [State.signal, *]
@[simp] theorem State.publish_memOk (s : State) (st : ℕ) (v : BitVec 16) (hs : s.memOk) : (State.publish s st v).memOk := by simp (maxDischargeDepth := 60) (contextual := true) [State.publish, *]
@[simp] theorem State.writeEntry_memOk (s : State) (st : ℕ) (x : Completion) (hs : s.memOk) : (State.writeEntry s st x).memOk := by simp (maxDischargeDepth := 60) (contextual := true) [State.writeEntry, *]
@[simp] theorem State.completionWrite_memOk (s : State) (st : ℕ) (x : Completion) (hs : s.memOk) : (State.completionWrite s st x).memOk := by simp (maxDischargeDepth := 60) (contextual := true) [State.completionWrite, *]
@[simp] theorem State.modHart_memOk (s : State) (h_ : ℕ) (f : Hart → Hart) (hs : s.memOk) : (State.modHart s h_ f).memOk := by simp (maxDischargeDepth := 60) (contextual := true) [State.modHart, *]
@[simp] theorem State.sendErr_memOk (s : State) (h_ : ℕ) (hs : s.memOk) : (State.sendErr s h_).memOk := by simp (maxDischargeDepth := 60) (contextual := true) [State.sendErr, *]
@[simp] theorem State.portSend_memOk (s : State) (m : Msg) (hs : s.memOk) : (State.portSend s m).memOk := by simp (maxDischargeDepth := 60) (contextual := true) [State.portSend, *]
@[simp] theorem State.portSendAll_memOk (s : State) (h : ℕ) (n : ℕ) (l : List Payload) (hs : s.memOk) : (State.portSendAll s h n l).memOk := by
  induction n generalizing s l with
  | zero => exact hs
  | succ n ih =>
    cases l with
    | nil => exact hs
    | cons a l =>
      simp only [State.portSendAll]; split
      · exact State.sendErr_memOk _ _ hs
      · split
        · exact State.sendErr_memOk _ _ hs
        · exact ih _ _ (State.portSend_memOk _ _ hs)
@[simp] theorem State.sendGo_memOk (s : State) (h_ : ℕ) (addr : BitVec 50) (count : ℕ) (items : List Payload) (hs : s.memOk) : (State.sendGo s h_ addr count items).memOk := by simp (maxDischargeDepth := 60) (contextual := true) [State.sendGo, *]
@[simp] theorem State.hiqPop_memOk (s : State) (h_ : ℕ) (hs : s.memOk) : (State.hiqPop s h_).memOk := by simp (maxDischargeDepth := 60) (contextual := true) [State.hiqPop, *]
@[simp] theorem State.timerFire_memOk (s : State) (t : ℕ) (armed : Option Word) (hs : s.memOk) : (State.timerFire s t armed).memOk := by simp only [State.timerFire]; (repeat' split) <;> simp (maxDischargeDepth := 60) (contextual := true) [*]
@[simp] theorem State.setBase_memOk (s : State) (base : Option Word) (hs : s.memOk) : (State.setBase s base).memOk := by simp only [State.setBase]; (repeat' split) <;> simp (maxDischargeDepth := 60) (contextual := true) [*]
@[simp] theorem State.windowAccess_memOk (s : State) (a : WsAccess) (hs : s.memOk) : (State.windowAccess s a).memOk := by simp only [State.windowAccess]; (repeat' split) <;> simp (maxDischargeDepth := 60) (contextual := true) [*]
@[simp] theorem State.barWrite_memOk (s : State) (i : BarOp) (f : State → State) (hs : s.memOk) (h : s.memOk → (f s).memOk) :
    (State.barWrite s i f).memOk := by
  unfold State.barWrite; split
  · exact hs
  · split
    · exact hs
    · exact h hs
@[simp] theorem State.doorbell_memOk (s : State) (id : ℕ) (hs : s.memOk) : (State.doorbell s id).memOk := by simp (maxDischargeDepth := 60) (contextual := true) [State.doorbell, *]
@[simp] theorem State.doorbellError_memOk (s : State) (st : ℕ) (hs : s.memOk) : (State.doorbellError s st).memOk := by simp (maxDischargeDepth := 60) (contextual := true) [State.doorbellError, *]
@[simp] theorem State.sqTail_memOk (s : State) (st : ℕ) (v : BitVec 16) (hs : s.memOk) : (State.sqTail s st v).memOk := by simp (maxDischargeDepth := 60) (contextual := true) [State.sqTail, *]
@[simp] theorem State.clearStream_memOk (s : State) (st : ℕ) (v : BitVec 4) (hs : s.memOk) : (State.clearStream s st v).memOk := by simp (maxDischargeDepth := 60) (contextual := true) [State.clearStream, *]
@[simp] theorem State.cqHead_memOk (s : State) (st : ℕ) (v : BitVec 16) (hs : s.memOk) : (State.cqHead s st v).memOk := by simp (maxDischargeDepth := 60) (contextual := true) [State.cqHead, *]
@[simp] theorem State.endStream_memOk (s : State) (st : ℕ) (hs : s.memOk) : (State.endStream s st).memOk := by simp (maxDischargeDepth := 60) (contextual := true) [State.endStream, *]
@[simp] theorem State.streamReset_memOk (s : State) (st : ℕ) (w : StreamSetup) (hs : s.memOk) : (State.streamReset s st w).memOk := by simp (maxDischargeDepth := 60) (contextual := true) [State.streamReset, *]
@[simp] theorem State.setBme_memOk (s : State) (v : Bool) (hs : s.memOk) : (State.setBme s v).memOk := by simp (maxDischargeDepth := 60) (contextual := true) [State.setBme, *]
@[simp] theorem State.flr_memOk (s : State) (hs : s.memOk) : (State.flr s).memOk := by simp (maxDischargeDepth := 60) (contextual := true) [State.flr, *]
@[simp] theorem State.pcieEvent_memOk (s : State) (e : PcieEvent) (hs : s.memOk) : (State.pcieEvent s e).memOk := by simp only [State.pcieEvent]; (repeat' split) <;> simp (maxDischargeDepth := 60) (contextual := true) [*]
@[simp] theorem State.unmask_memOk (s : State) (v : ℕ) (hs : s.memOk) : (State.unmask s v).memOk := by simp (maxDischargeDepth := 60) (contextual := true) [State.unmask, *]
@[simp] theorem State.modDict_memOk (s : State) (f : Dict → Dict) (hs : s.memOk) : (State.modDict s f).memOk := by simp (maxDischargeDepth := 60) (contextual := true) [State.modDict, *]
@[simp] theorem State.answer_memOk (s : State) (r : DictReq) (status : ℕ) (typ : ℕ) (total : ℕ) (data : List Byte) (hs : s.memOk) : (State.answer s r status typ total data).memOk := by simp only [State.answer]; (repeat' split) <;> simp (maxDischargeDepth := 60) (contextual := true) [*]
@[simp] theorem State.refuse_memOk (s : State) (r : DictReq) (p : Option Param) (status : ℕ) (hs : s.memOk) : (State.refuse s r p status).memOk := by simp only [State.refuse]; (repeat' split) <;> simp (maxDischargeDepth := 60) (contextual := true) [*]
@[simp] theorem State.done_memOk (s : State) (r : DictReq) (p : Param) (k : ℕ) (hs : s.memOk) : (State.done s r p k).memOk := by simp (maxDischargeDepth := 60) (contextual := true) [State.done, *]
@[simp] theorem State.serve_memOk (s : State) (k : ReqKind) (f : State → DictReq → Param → Nat → State)
    (hs : s.memOk) (h : ∀ s r p k, s.memOk → (f s r p k).memOk) : (State.serve s k f).memOk := by
  unfold State.serve; split
  · exact hs
  · simp only []; split
    · exact State.refuse_memOk _ _ _ _ hs
    · split
      · exact State.done_memOk _ _ _ _ hs
      · exact h _ _ _ _ hs
@[simp] theorem State.finishWrite_memOk (s : State) (r : DictReq) (p : Param) (k : Nat) (t : Option State)
    (hs : s.memOk) (h : ∀ u, t = some u → u.memOk) : (State.finishWrite s r p k t).memOk := by
  unfold State.finishWrite; cases t with
  | none => exact State.refuse_memOk _ _ _ _ hs
  | some u => exact State.done_memOk _ _ _ _ (h u rfl)
@[simp] theorem State.mailboxWrite_memOk (s : State) (p : MbPath) (w : MbWrite) (hs : s.memOk) : (State.mailboxWrite s p w).memOk := by simp only [State.mailboxWrite]; (repeat' split) <;> simp (maxDischargeDepth := 60) (contextual := true) [*]
@[simp] theorem State.serveRead_memOk (s : State) (r : DictReq) (p : Param) (k : ℕ) (hs : s.memOk) : (State.serveRead s r p k).memOk := by simp (maxDischargeDepth := 60) (contextual := true) [State.serveRead, *]
@[simp] theorem State.setParam_memOk (s : State) (index : ℕ) (p : Param) (k : ℕ) (v : List Byte) (hs : s.memOk) : (State.setParam s index p k v).memOk := by simp only [State.setParam]; (repeat' split) <;> simp (maxDischargeDepth := 60) (contextual := true) [*]
theorem State.writeParam_memOk (s : State) (r : DictReq) (p : Param) (k : ℕ) (hs : s.memOk) : ∀ t, (State.writeParam s r p k) = some t → t.memOk := by simp (maxDischargeDepth := 60) (contextual := true) [State.writeParam, *]
@[simp] theorem State.serveWrite_memOk (s : State) (r : DictReq) (p : Param) (k : ℕ) (hs : s.memOk) : (s.serveWrite r p k).memOk := by
  unfold State.serveWrite; exact State.finishWrite_memOk _ _ _ _ _ hs (State.writeParam_memOk s r p k hs)
@[simp] theorem State.stageAt_memOk (s : State) (index : ℕ) (sub : ℕ) (k : ℕ) (v : List Byte) (hs : s.memOk) : (State.stageAt s index sub k v).memOk := by simp (maxDischargeDepth := 60) (contextual := true) [State.stageAt, *]
@[simp] theorem State.serveStage_memOk (s : State) (r : DictReq) (p : Param) (k : ℕ) (hs : s.memOk) : (State.serveStage s r p k).memOk := by simp (maxDischargeDepth := 60) (contextual := true) [State.serveStage, *]
@[simp] theorem State.serveCommit_memOk (s : State) (r : DictReq) (p : Param) (k : ℕ) (hs : s.memOk) : (State.serveCommit s r p k).memOk := by simp only [State.serveCommit]; (repeat' split) <;> simp (maxDischargeDepth := 60) (contextual := true) [*]
@[simp] theorem State.serveDiscard_memOk (s : State) (r : DictReq) (p : Param) (k : ℕ) (hs : s.memOk) : (State.serveDiscard s r p k).memOk := by simp (maxDischargeDepth := 60) (contextual := true) [State.serveDiscard, *]
@[simp] theorem State.setCommit_memOk (s : State) (x : PendCommit) (hs : s.memOk) : (s.setCommit x).memOk := by
  unfold State.setCommit; refine foldl_memOk _ (fun s a hs => foldl_memOk _ (fun s b hs => ?_) _ _ hs) _ _ hs
  split
  · exact State.setParam_memOk _ _ _ _ _ hs
  · exact hs
@[simp] theorem State.applyCommit_memOk (s : State) (x : PendCommit) (hs : s.memOk) : (State.applyCommit s x).memOk := by simp (maxDischargeDepth := 60) (contextual := true) [State.applyCommit, *]
@[simp] theorem State.commitApply_memOk (s : State) (u : UnitAddr) (index : ℕ) (hs : s.memOk) : (State.commitApply s u index).memOk := by simp only [State.commitApply]; (repeat' split) <;> simp (maxDischargeDepth := 60) (contextual := true) [*]
@[simp] theorem State.chamoisFrame_memOk (s : State) (g : Datagram) (hs : s.memOk) : (State.chamoisFrame s g).memOk := by simp (maxDischargeDepth := 60) (contextual := true) [State.chamoisFrame, *]
@[simp] theorem State.solicit_memOk (s : State) (g : Datagram) (hs : s.memOk) : (State.solicit s g).memOk := by simp (maxDischargeDepth := 60) (contextual := true) [State.solicit, *]
@[simp] theorem State.announceNext_memOk (s : State) (hs : s.memOk) : (State.announceNext s).memOk := by simp only [State.announceNext]; (repeat' split) <;> simp (maxDischargeDepth := 60) (contextual := true) [*]
@[simp] theorem State.dadComplete_memOk (s : State) (duplicate : Bool) (hs : s.memOk) : (State.dadComplete s duplicate).memOk := by simp (maxDischargeDepth := 60) (contextual := true) [State.dadComplete, *]
@[simp] theorem State.neighbor_memOk (s : State) (g : Datagram) (target : BitVec 128) (hs : s.memOk) : (State.neighbor s g target).memOk := by simp (maxDischargeDepth := 60) (contextual := true) [State.neighbor, *]
@[simp] theorem State.echo_memOk (s : State) (g : Datagram) (hs : s.memOk) : (State.echo s g).memOk := by simp (maxDischargeDepth := 60) (contextual := true) [State.echo, *]
@[simp] theorem State.serveSave_memOk (s : State) (r : DictReq) (p : Param) (k : ℕ) (hs : s.memOk) : (State.serveSave s r p k).memOk := by simp (maxDischargeDepth := 60) (contextual := true) [State.serveSave, *]
@[simp] theorem State.saveComplete_memOk (s : State) (ok : Bool) (hs : s.memOk) : (State.saveComplete s ok).memOk := by simp only [State.saveComplete]; (repeat' split) <;> simp (maxDischargeDepth := 60) (contextual := true) [*]
@[simp] theorem State.serveRestore_memOk (s : State) (r : DictReq) (p : Param) (k : ℕ) (hs : s.memOk) : (State.serveRestore s r p k).memOk := by simp (maxDischargeDepth := 60) (contextual := true) [State.serveRestore, *]
@[simp] theorem State.holdPurge_memOk (s : State) (dev : ℕ) (hs : s.memOk) : (State.holdPurge s dev).memOk := by simp (maxDischargeDepth := 60) (contextual := true) [State.holdPurge, *]
theorem State.retrain_memOk (s : State) (l : ℕ) (hs : s.memOk) : ∀ t, (State.retrain s l) = some t → t.memOk := by simp (maxDischargeDepth := 60) (contextual := true) [State.retrain, *]
theorem State.writeRoutes_memOk (s : State) (r : DictReq) (hs : s.memOk) : ∀ t, (State.writeRoutes s r) = some t → t.memOk := by simp (maxDischargeDepth := 60) (contextual := true) [State.writeRoutes, *]
theorem MemSys.moveGrant_memOk (s : MemSys) (base : ℕ) (units : ℕ) (hs : s.memOk) : ∀ t, (MemSys.moveGrant s base units) = some t → t.memOk := by simp only [MemSys.moveGrant]; (repeat' split) <;> simp (maxDischargeDepth := 60) (contextual := true) [*]
theorem State.writeGrant_memOk (s : State) (r : DictReq) (hs : s.memOk) : ∀ t, s.writeGrant r = some t → t.memOk := by
  unfold State.writeGrant; intro t h; simp only [Option.map_eq_some_iff] at h; obtain ⟨m, hm, rfl⟩ := h
  refine ⟨?_, hs.2⟩
  split at hm <;> exact MemSys.moveGrant_memOk _ _ _ hs.1 _ hm
@[simp] theorem State.takeDevId_memOk (s : State) (dev : BitVec 16) (hs : s.memOk) : (State.takeDevId s dev).memOk := by simp (maxDischargeDepth := 60) (contextual := true) [State.takeDevId, *]
theorem State.writeLinkMode_memOk (s : State) (r : DictReq) (p : Param) (k : ℕ) (hs : s.memOk) : ∀ t, s.writeLinkMode r p k = some t → t.memOk := by
  unfold State.writeLinkMode; intro t h; simp only [Option.map_eq_some_iff] at h; obtain ⟨u, hu, rfl⟩ := h
  exact State.writeParam_memOk s r p k hs u hu
@[simp] theorem State.waveOverLinks_memOk (s : State) (k : ℕ) (w : Wave) (hs : s.memOk) : (State.waveOverLinks s k w).memOk := by simp (maxDischargeDepth := 60) (contextual := true) [State.waveOverLinks, *]
@[simp] theorem State.waveCheck_memOk (s : State) (k : ℕ) (hs : s.memOk) : (s.waveCheck k).memOk := by
  have h1 : ∀ f, (s.modUnit k f).memOk := fun f => hs
  unfold State.waveCheck; extract_lets h u s1 t up
  have h2 : s1.memOk := h1 _
  split
  · split
    · split
      · split
        · exact h2
        · exact State.fireStatus_memOk _ _ h2
      · exact State.fireStatus_memOk _ _ h2
    · exact State.sendMsg_memOk _ _ h2
  · exact hs
@[simp] theorem State.waveFirst_memOk (s : State) (k : ℕ) (ch : Chan) (w : Wave) (root : UnitAddr) (hs : s.memOk) : (State.waveFirst s k ch w root).memOk := by simp (maxDischargeDepth := 60) (contextual := true) [State.waveFirst, *]
@[simp] theorem State.waveAt_memOk (s : State) (k : ℕ) (ch : Chan) (w : Wave) (hs : s.memOk) : (State.waveAt s k ch w).memOk := by simp (maxDischargeDepth := 60) (contextual := true) [State.waveAt, *]
@[simp] theorem State.report_memOk (s : State) (m : Msg) (hs : s.memOk) : (State.report s m).memOk := by simp (maxDischargeDepth := 60) (contextual := true) [State.report, *]
theorem State.snapGo_memOk (s : State) (n : ℕ) (hs : s.memOk) : ∀ t, (State.snapGo s n) = some t → t.memOk := by simp only [State.snapGo]; (repeat' split) <;> simp (maxDischargeDepth := 60) (contextual := true) [*]
@[simp] theorem State.snapStop_memOk (s : State) (hs : s.memOk) : (State.snapStop s).memOk := by simp (maxDischargeDepth := 60) (contextual := true) [State.snapStop, *]
@[simp] theorem State.barOp_memOk (s : State) (a : BarOp) (hs : s.memOk) : (State.barOp s a).memOk := by simp only [State.barOp]; (repeat' split) <;> simp (maxDischargeDepth := 60) (contextual := true) [*]
@[simp] theorem State.runBarOps_memOk (s : State) (hs : s.memOk) : (State.runBarOps s).memOk := by simp (maxDischargeDepth := 60) (contextual := true) [State.runBarOps, *]
@[simp] theorem State.ringDoorbells_memOk (s : State) (hs : s.memOk) : (State.ringDoorbells s).memOk := by simp (maxDischargeDepth := 60) (contextual := true) [State.ringDoorbells, *]
@[simp] theorem State.thaw_memOk (s : State) (hs : s.memOk) : (State.thaw s).memOk := by simp (maxDischargeDepth := 60) (contextual := true) [State.thaw, *]
@[simp] theorem State.endFabric_memOk (s : State) (hs : s.memOk) : (State.endFabric s).memOk := by simp (maxDischargeDepth := 60) (contextual := true) [State.endFabric, *]
@[simp] theorem State.reachFreeze_memOk (s : State) (hs : s.memOk) : (State.reachFreeze s).memOk := by simp (maxDischargeDepth := 60) (contextual := true) [State.reachFreeze, *]
@[simp] theorem State.endFull_memOk (s : State) (hs : s.memOk) : (State.endFull s).memOk := by simp (maxDischargeDepth := 60) (contextual := true) [State.endFull, *]
@[simp] theorem State.debugRead_memOk (s : State) (r : DictReq) (p : Param) (k : ℕ) (hs : s.memOk) : (State.debugRead s r p k).memOk := by simp (maxDischargeDepth := 60) (contextual := true) [State.debugRead, *]
@[simp] theorem State.modTap_memOk (s : State) (i : ℕ) (f : Tap → Tap) (hs : s.memOk) : (State.modTap s i f).memOk := by simp (maxDischargeDepth := 60) (contextual := true) [State.modTap, *]
@[simp] theorem State.pullPins_memOk (s : State) (i : ℕ) (hs : s.memOk) : (State.pullPins s i).memOk := by simp (maxDischargeDepth := 60) (contextual := true) [State.pullPins, *]
@[simp] theorem State.selectTap_memOk (s : State) (i : ℕ) (opc : BitVec 8) (hs : s.memOk) : (State.selectTap s i opc).memOk := by simp (maxDischargeDepth := 60) (contextual := true) [State.selectTap, *]
@[simp] theorem State.dbgAccess_memOk (s : State) (tap : ℕ) (dr : BitVec 168) (hs : s.memOk) : (State.dbgAccess s tap dr).memOk := by simp only [State.dbgAccess]; (repeat' split) <;> simp (maxDischargeDepth := 60) (contextual := true) [*]
@[simp] theorem State.modLink_memOk (s : State) (l : ℕ) (f : Link → Link) (hs : s.memOk) : (State.modLink s l f).memOk := by simp (maxDischargeDepth := 60) (contextual := true) [State.modLink, *]
@[simp] theorem State.pump_memOk (s : State) (l : ℕ) (hs : s.memOk) : (State.pump s l).memOk := by simp (maxDischargeDepth := 60) (contextual := true) [State.pump, *]
@[simp] theorem State.replay_memOk (s : State) (l : ℕ) (hs : s.memOk) : (State.replay s l).memOk := by simp (maxDischargeDepth := 60) (contextual := true) [State.replay, *]
@[simp] theorem State.reroute_memOk (s : State) (d : ℕ) (vc : Bool) (p : Packet) (hs : s.memOk) : (s.reroute d vc p).memOk := by
  unfold State.reroute; split
  · exact hs
  · split
    · rename_i m hm; exact ⟨MemSys.allocHold_memOk _ _ _ _ hs.1 _ hm, hs.2⟩
    · exact hs
@[simp] theorem State.partnerGone_memOk (s : State) (l : ℕ) (hs : s.memOk) : (State.partnerGone s l).memOk := by simp (maxDischargeDepth := 60) (contextual := true) [State.partnerGone, *]
@[simp] theorem State.badFlit_memOk (s : State) (l : ℕ) (hs : s.memOk) : (State.badFlit s l).memOk := by simp (maxDischargeDepth := 60) (contextual := true) [State.badFlit, *]
@[simp] theorem State.flitReport_memOk (s : State) (l : ℕ) (b : List Byte) (hs : s.memOk) : (State.flitReport s l b).memOk := by simp (maxDischargeDepth := 60) (contextual := true) [State.flitReport, *]
@[simp] theorem State.dataIn_memOk (s : State) (l : ℕ) (b : List Byte) (hs : s.memOk) : (State.dataIn s l b).memOk := by simp (maxDischargeDepth := 60) (contextual := true) [State.dataIn, *]
@[simp] theorem State.linkUp_memOk (s : State) (l : ℕ) (p : Partner) (hs : s.memOk) : (State.linkUp s l p).memOk := by simp (maxDischargeDepth := 60) (contextual := true) [State.linkUp, *]
@[simp] theorem State.checkDup_memOk (s : State) (l : ℕ) (p : Partner) (hs : s.memOk) : (State.checkDup s l p).memOk := by simp (maxDischargeDepth := 60) (contextual := true) [State.checkDup, *]
@[simp] theorem State.helloIn_memOk (s : State) (l : ℕ) (b : List Byte) (hs : s.memOk) : (State.helloIn s l b).memOk := by simp only [State.helloIn]; (repeat' split) <;> simp (maxDischargeDepth := 60) (contextual := true) [*]
@[simp] theorem State.sendDegrade_memOk (s : State) (l : ℕ) (hs : s.memOk) : (State.sendDegrade s l).memOk := by simp (maxDischargeDepth := 60) (contextual := true) [State.sendDegrade, *]
@[simp] theorem State.degrade_memOk (s : State) (l : ℕ) (hs : s.memOk) : (State.degrade s l).memOk := by simp (maxDischargeDepth := 60) (contextual := true) [State.degrade, *]
@[simp] theorem State.flitIn_memOk (s : State) (l : ℕ) (b : List Byte) (hs : s.memOk) : (State.flitIn s l b).memOk := by simp only [State.flitIn]; (repeat' split) <;> simp (maxDischargeDepth := 60) (contextual := true) [*]
@[simp] theorem State.passRx_memOk (s : State) (l : ℕ) (b : List Byte) (hs : s.memOk) : (State.passRx s l b).memOk := by simp (maxDischargeDepth := 60) (contextual := true) [State.passRx, *]
@[simp] theorem State.nativeFlit_memOk (s : State) (l : ℕ) (b : List Byte) (kind : Bool) (hs : s.memOk) : (State.nativeFlit s l b kind).memOk := by simp (maxDischargeDepth := 60) (contextual := true) [State.nativeFlit, *]
@[simp] theorem State.frameIn_memOk (s : State) (l : ℕ) (f : List Byte) (fcsOk : Bool) (hs : s.memOk) : (State.frameIn s l f fcsOk).memOk := by simp (maxDischargeDepth := 60) (contextual := true) [State.frameIn, *]
@[simp] theorem State.sendHello_memOk (s : State) (l : ℕ) (hs : s.memOk) : (State.sendHello s l).memOk := by simp (maxDischargeDepth := 60) (contextual := true) [State.sendHello, *]
@[simp] theorem State.retrained_memOk (s : State) (l : ℕ) (ok : Bool) (hs : s.memOk) : (State.retrained s l ok).memOk := by simp (maxDischargeDepth := 60) (contextual := true) [State.retrained, *]
theorem State.openPacket_memOk (s : State) (x : ℕ × Bool) (i : QItem) (hs : s.memOk) : ∀ t, s.openPacket x i = some t → t.memOk := by
  intro t h; unfold State.openPacket at h; generalize (⟨[i], false, if i.eop then none else some x⟩ : Packet) = p at h
  simp only [] at h; split at h
  · split at h
    · cases h
    · cases h; exact hs
  · split at h
    · cases h; exact hs
    · simp only [Option.map_eq_some_iff] at h; obtain ⟨m, hm, rfl⟩ := h; exact ⟨MemSys.allocHold_memOk _ _ _ _ hs.1 _ hm, hs.2⟩
@[simp] theorem State.waveOver_memOk (s : State) (l : Fin 32) (vc : Bool) (i : QItem) (hs : s.memOk) : (State.waveOver s l vc i).memOk := by simp (maxDischargeDepth := 60) (contextual := true) [State.waveOver, *]
theorem State.forwardItem_memOk (s : State) (l : Fin 32) (vc : Bool) (i : QItem) (hs : s.memOk) : ∀ t, s.forwardItem l vc i = some t → t.memOk := by
  unfold State.forwardItem; intro t h; simp only [] at h; (repeat' split at h)
  · cases h; exact State.waveOver_memOk _ _ _ _ hs
  · cases h; exact hs
  · simp only [Option.map_eq_some_iff] at h; obtain ⟨u, hu, rfl⟩ := h; have hu := State.openPacket_memOk _ _ _ hs _ hu; exact hu
@[simp] theorem State.forwardItems_memOk (s : State) (l : Fin 32) (vc : Bool) (q : List QItem) (hs : s.memOk) : (s.forwardItems l vc q).1.memOk := by
  induction q generalizing s with
  | nil => exact hs
  | cons i t ih =>
    simp only [State.forwardItems]; split
    · exact hs
    · exact ih _ (State.forwardItem_memOk _ _ _ _ hs _ (by assumption))
@[simp] theorem State.forwardFlit_memOk (s : State) (l : Fin 32) (vc : Bool) (hs : s.memOk) : (State.forwardFlit s l vc).memOk := by simp only [State.forwardFlit]; (repeat' split) <;> simp (maxDischargeDepth := 60) (contextual := true) [*]
@[simp] theorem State.pumpAll_memOk (s : State) (hs : s.memOk) : (State.pumpAll s).memOk := by simp (maxDischargeDepth := 60) (contextual := true) [State.pumpAll, *]
@[simp] theorem State.releaseHeld_memOk (s : State) (dest : BitVec 16) (hs : s.memOk) : (State.releaseHeld s dest).memOk := by simp only [State.releaseHeld]; (repeat' split) <;> simp (maxDischargeDepth := 60) (contextual := true) [*]
theorem State.retryOut_memOk (s : State) (m : Msg) (hs : s.memOk) : ∀ t, (State.retryOut s m) = some t → t.memOk := by
  intro t h; unfold State.retryOut at h
  exact State.routePacket_memOk _ _ _ _ (show State.memOk { s with net := { s.net with inFlight := s.net.inFlight.erase m } } from hs) _ h
@[simp] theorem State.retryAll_memOk (dest : BitVec 16) (l : List Msg) (s : State) (hs : s.memOk) : (State.retryAll dest l s).memOk := by
  induction l generalizing s with
  | nil => exact hs
  | cons m l ih =>
    unfold State.retryAll; split
    · split
      · exact ih _ (State.retryOut_memOk _ _ hs _ (by assumption))
      · exact hs
    · exact ih s hs
@[simp] theorem State.heldRelease_memOk (s : State) (dest : BitVec 16) (hs : s.memOk) : (State.heldRelease s dest).memOk := by
  unfold State.heldRelease; simp only []; split <;> simp [hs]
@[simp] theorem State.deliverArrived_memOk (s : State) (d : ℕ) (hs : s.memOk) : (State.deliverArrived s d).memOk := by simp only [State.deliverArrived]; (repeat' split) <;> simp (maxDischargeDepth := 60) (contextual := true) [*]
@[simp] theorem State.cableChange_memOk (s : State) (port : ℕ) (c : Cable) (hs : s.memOk) : (State.cableChange s port c).memOk := by simp (maxDischargeDepth := 60) (contextual := true) [State.cableChange, *]
@[simp] theorem State.coldReset_memOk (s : State) (hs : s.memOk) : s.coldReset.memOk := by
  unfold State.coldReset; exact ⟨⟨Memory.wf_nil, hs.1.2⟩, fun _ h => nomatch h⟩
@[simp] theorem State.powerOff_memOk (s : State) (cause : BitVec 8) (hs : s.memOk) : (State.powerOff s cause).memOk := by simp (maxDischargeDepth := 60) (contextual := true) [State.powerOff, *]
@[simp] theorem State.powerUp_memOk (s : State) (hs : s.memOk) : (State.powerUp s).memOk := by simp (maxDischargeDepth := 60) (contextual := true) [State.powerUp, *]
@[simp] theorem State.modPwr_memOk (s : State) (f : Power → Power) (hs : s.memOk) : (State.modPwr s f).memOk := by simp (maxDischargeDepth := 60) (contextual := true) [State.modPwr, *]
@[simp] theorem State.perst_memOk (s : State) (hs : s.memOk) : (State.perst s).memOk := by simp (maxDischargeDepth := 60) (contextual := true) [State.perst, *]
@[simp] theorem State.controlStep_memOk (s : State) (w : ℕ) (hs : s.memOk) : (State.controlStep s w).memOk := by simp (maxDischargeDepth := 60) (contextual := true) [State.controlStep, *]
@[simp] theorem State.sample_memOk (s : State) (die : ℕ) (raw : BitVec 16) (hs : s.memOk) : (State.sample s die raw).memOk := by simp (maxDischargeDepth := 60) (contextual := true) [State.sample, *]
@[simp] theorem State.modSec_memOk (s : State) (f : Sec → Sec) (hs : s.memOk) : (State.modSec s f).memOk := by simp (maxDischargeDepth := 60) (contextual := true) [State.modSec, *]
@[simp] theorem State.restartBoot_memOk (s : State) (hs : s.memOk) : (State.restartBoot s).memOk := by simp (maxDischargeDepth := 60) (contextual := true) [State.restartBoot, *]
@[simp] theorem State.slotWritten_memOk (s : State) (i : SlotImage) (ok : Bool) (hs : s.memOk) : (State.slotWritten s i ok).memOk := by simp (maxDischargeDepth := 60) (contextual := true) [State.slotWritten, *]
@[simp] theorem State.whole_memOk (s : State) (r : DictReq) (p : Param) (k n : Nat) (t : Option State)
    (hs : s.memOk) (h : ∀ u, t = some u → u.memOk) : (State.whole s r p k n t).memOk := by
  unfold State.whole; split
  · exact State.finishWrite_memOk _ _ _ _ _ hs h
  · exact State.refuse_memOk _ _ _ _ hs
theorem State.mrExtend_memOk (s : State) (v : List Byte) (hs : s.memOk) : ∀ t, (State.mrExtend s v) = some t → t.memOk := by simp (maxDischargeDepth := 60) (contextual := true) [State.mrExtend, *]
@[simp] theorem State.quoteSigned_memOk (s : State) (hs : s.memOk) : (State.quoteSigned s).memOk := by simp (maxDischargeDepth := 60) (contextual := true) [State.quoteSigned, *]
@[simp] theorem State.challenge_memOk (s : State) (r : DictReq) (p : Param) (hs : s.memOk) : (State.challenge s r p).memOk := by simp (maxDischargeDepth := 60) (contextual := true) [State.challenge, *]
@[simp] theorem State.response_memOk (s : State) (r : DictReq) (p : Param) (k : ℕ) (hs : s.memOk) : (State.response s r p k).memOk := by simp (maxDischargeDepth := 60) (contextual := true) [State.response, *]
@[simp] theorem State.bootStore_memOk (s : State) (hs : s.memOk) : (State.bootStore s).memOk := by simp (maxDischargeDepth := 60) (contextual := true) [State.bootStore, *]
@[simp] theorem State.bootRom_memOk (s : State) (b : BootInput) (hs : s.memOk) : (State.bootRom s b).memOk := by simp (maxDischargeDepth := 60) (contextual := true) [State.bootRom, *]
@[simp] theorem State.bootRows_memOk (s : State) (c : CellIx) (m : SMap ℕ) (hs : s.memOk) : (State.bootRows s c m).memOk := by simp (maxDischargeDepth := 60) (contextual := true) [State.bootRows, *]
@[simp] theorem State.placeRetired_memOk (s : State) (i : ℕ) (hs : s.memOk) : (s.placeRetired i).memOk := by
  have ht : (s.modCell (cellIx i) (fun x => { x with retireReq := false })).memOk := State.modCell_memOk _ _ _ hs (fun x hx => hx)
  unfold State.placeRetired; simp only []; split
  · exact ht
  · split
    · exact hs
    · rename_i h _ _
      cases hm : s.mem.allocMany (h / 256) 1024 (.image i) 42 with
      | none => exact hs
      | some m => exact ⟨MemSys.allocMany_memOk _ _ _ _ _ hs.1 _ hm, ht.2⟩
@[simp] theorem State.bootRetire_memOk (s : State) (b : BootInput) (c : Option StoreCopy) (hs : s.memOk) : (State.bootRetire s b c).memOk := by simp (maxDischargeDepth := 60) (contextual := true) [State.bootRetire, *]
@[simp] theorem State.bootLinks_memOk (s : State) (hs : s.memOk) : (State.bootLinks s).memOk := by simp (maxDischargeDepth := 60) (contextual := true) [State.bootLinks, *]
@[simp] theorem State.driverReady_memOk (s : State) (i : SlotImage) (hs : s.memOk) : (State.driverReady s i).memOk := by simp (maxDischargeDepth := 60) (contextual := true) [State.driverReady, *]
@[simp] theorem State.bootImage_memOk (s : State) (b : BootInput) (c : Option StoreCopy) (slot : ℕ) (i : SlotImage) (hs : s.memOk) : (State.bootImage s b c slot i).memOk := by simp (maxDischargeDepth := 60) (contextual := true) [State.bootImage, *]
@[simp] theorem State.bootRecovery_memOk (s : State) (hs : s.memOk) : (State.bootRecovery s).memOk := by simp (maxDischargeDepth := 60) (contextual := true) [State.bootRecovery, *]
@[simp] theorem State.boot_memOk (s : State) (b : BootInput) (hs : s.memOk) : (State.boot s b).memOk := by simp only [State.boot]; (repeat' split) <;> simp (maxDischargeDepth := 60) (contextual := true) [*]
@[simp] theorem Cell.tick_memOk (s : Cell) (hs : s.memOk) : (Cell.tick s).memOk := by simp (maxDischargeDepth := 60) (contextual := true) [Cell.tick, *]
@[simp] theorem tick_memOk (s : State) (hs : s.memOk) : (tick s).memOk := by simp (maxDischargeDepth := 60) (contextual := true) [tick, *]
end Sys2Proof.Machine
end

