-- ==== Sys2Proof/Laws/MemOkExec.lean ====
section
/-! SUPPORT. Every command keeps the canonical form of the memories: one lemma per command. -/

namespace Sys2Proof.Machine
open Sys2Proof
theorem execLi_memOk (c : CellIx) (f : InsFields) (s : State) (hs : s.memOk) (s' : State) (h : execLi c f s = .next s') : s'.memOk := by
  unfold execLi at h; cases h; simp (maxDischargeDepth := 60) (contextual := true) [hs]
theorem execLih_memOk (c : CellIx) (f : InsFields) (s : State) (hs : s.memOk) (s' : State) (h : execLih c f s = .next s') : s'.memOk := by
  unfold execLih at h; cases h; simp (maxDischargeDepth := 60) (contextual := true) [hs]
theorem execAddI_memOk (c : CellIx) (f : InsFields) (s : State) (hs : s.memOk) (s' : State) (h : execAddI c f s = .next s') : s'.memOk := by
  unfold execAddI at h; cases h; simp (maxDischargeDepth := 60) (contextual := true) [hs]
theorem execSubI_memOk (c : CellIx) (f : InsFields) (s : State) (hs : s.memOk) (s' : State) (h : execSubI c f s = .next s') : s'.memOk := by
  unfold execSubI at h; cases h; simp (maxDischargeDepth := 60) (contextual := true) [hs]
theorem execAndI_memOk (c : CellIx) (f : InsFields) (s : State) (hs : s.memOk) (s' : State) (h : execAndI c f s = .next s') : s'.memOk := by
  unfold execAndI at h; cases h; simp (maxDischargeDepth := 60) (contextual := true) [hs]
theorem execOrI_memOk (c : CellIx) (f : InsFields) (s : State) (hs : s.memOk) (s' : State) (h : execOrI c f s = .next s') : s'.memOk := by
  unfold execOrI at h; cases h; simp (maxDischargeDepth := 60) (contextual := true) [hs]
theorem execXorI_memOk (c : CellIx) (f : InsFields) (s : State) (hs : s.memOk) (s' : State) (h : execXorI c f s = .next s') : s'.memOk := by
  unfold execXorI at h; cases h; simp (maxDischargeDepth := 60) (contextual := true) [hs]
theorem execShl_memOk (c : CellIx) (f : InsFields) (s : State) (hs : s.memOk) (s' : State) (h : execShl c f s = .next s') : s'.memOk := by
  unfold execShl at h; cases h; simp (maxDischargeDepth := 60) (contextual := true) [hs]
theorem execShr_memOk (c : CellIx) (f : InsFields) (s : State) (hs : s.memOk) (s' : State) (h : execShr c f s = .next s') : s'.memOk := by
  unfold execShr at h; cases h; simp (maxDischargeDepth := 60) (contextual := true) [hs]
theorem execSra_memOk (c : CellIx) (f : InsFields) (s : State) (hs : s.memOk) (s' : State) (h : execSra c f s = .next s') : s'.memOk := by
  unfold execSra at h; cases h; simp (maxDischargeDepth := 60) (contextual := true) [hs]
theorem execMulI_memOk (c : CellIx) (f : InsFields) (s : State) (hs : s.memOk) (s' : State) (h : execMulI c f s = .next s') : s'.memOk := by
  unfold execMulI at h; cases h; simp (maxDischargeDepth := 60) (contextual := true) [hs]
theorem execLd1_memOk (c : CellIx) (f : InsFields) (e : List RowFlip) (s : State) (hs : s.memOk) (s' : State) (h : execLd1 c f e s = .next s') : s'.memOk := by
  unfold execLd1 at h; cases h; simp (maxDischargeDepth := 60) (contextual := true) [hs]
theorem execLd2_memOk (c : CellIx) (f : InsFields) (e : List RowFlip) (s : State) (hs : s.memOk) (s' : State) (h : execLd2 c f e s = .next s') : s'.memOk := by
  unfold execLd2 at h; cases h; simp (maxDischargeDepth := 60) (contextual := true) [hs]
theorem execLd4_memOk (c : CellIx) (f : InsFields) (e : List RowFlip) (s : State) (hs : s.memOk) (s' : State) (h : execLd4 c f e s = .next s') : s'.memOk := by
  unfold execLd4 at h; cases h; simp (maxDischargeDepth := 60) (contextual := true) [hs]
theorem execLd8_memOk (c : CellIx) (f : InsFields) (e : List RowFlip) (s : State) (hs : s.memOk) (s' : State) (h : execLd8 c f e s = .next s') : s'.memOk := by
  unfold execLd8 at h; cases h; simp (maxDischargeDepth := 60) (contextual := true) [hs]
theorem execSt1_memOk (c : CellIx) (f : InsFields) (e : List RowFlip) (s : State) (hs : s.memOk) (s' : State) (h : execSt1 c f e s = .next s') : s'.memOk := by
  unfold execSt1 at h; cases h; simp (maxDischargeDepth := 60) (contextual := true) [hs]
theorem execSt2_memOk (c : CellIx) (f : InsFields) (e : List RowFlip) (s : State) (hs : s.memOk) (s' : State) (h : execSt2 c f e s = .next s') : s'.memOk := by
  unfold execSt2 at h; cases h; simp (maxDischargeDepth := 60) (contextual := true) [hs]
theorem execSt4_memOk (c : CellIx) (f : InsFields) (e : List RowFlip) (s : State) (hs : s.memOk) (s' : State) (h : execSt4 c f e s = .next s') : s'.memOk := by
  unfold execSt4 at h; cases h; simp (maxDischargeDepth := 60) (contextual := true) [hs]
theorem execSt8_memOk (c : CellIx) (f : InsFields) (s : State) (hs : s.memOk) (s' : State) (h : execSt8 c f s = .next s') : s'.memOk := by
  unfold execSt8 at h; cases h; simp (maxDischargeDepth := 60) (contextual := true) [hs]
theorem execBeq_memOk (c : CellIx) (f : InsFields) (s : State) (hs : s.memOk) (s' : State) (h : execBeq c f s = .next s') : s'.memOk := by
  unfold execBeq at h; cases h; simp (maxDischargeDepth := 60) (contextual := true) [hs]
theorem execBne_memOk (c : CellIx) (f : InsFields) (s : State) (hs : s.memOk) (s' : State) (h : execBne c f s = .next s') : s'.memOk := by
  unfold execBne at h; cases h; simp (maxDischargeDepth := 60) (contextual := true) [hs]
theorem execBlt_memOk (c : CellIx) (f : InsFields) (s : State) (hs : s.memOk) (s' : State) (h : execBlt c f s = .next s') : s'.memOk := by
  unfold execBlt at h; cases h; simp (maxDischargeDepth := 60) (contextual := true) [hs]
theorem execBge_memOk (c : CellIx) (f : InsFields) (s : State) (hs : s.memOk) (s' : State) (h : execBge c f s = .next s') : s'.memOk := by
  unfold execBge at h; cases h; simp (maxDischargeDepth := 60) (contextual := true) [hs]
theorem execBltu_memOk (c : CellIx) (f : InsFields) (s : State) (hs : s.memOk) (s' : State) (h : execBltu c f s = .next s') : s'.memOk := by
  unfold execBltu at h; cases h; simp (maxDischargeDepth := 60) (contextual := true) [hs]
theorem execBgeu_memOk (c : CellIx) (f : InsFields) (s : State) (hs : s.memOk) (s' : State) (h : execBgeu c f s = .next s') : s'.memOk := by
  unfold execBgeu at h; cases h; simp (maxDischargeDepth := 60) (contextual := true) [hs]
theorem execJal_memOk (c : CellIx) (f : InsFields) (s : State) (hs : s.memOk) (s' : State) (h : execJal c f s = .next s') : s'.memOk := by
  unfold execJal at h; cases h; simp (maxDischargeDepth := 60) (contextual := true) [hs]
theorem execJr_memOk (c : CellIx) (f : InsFields) (s : State) (hs : s.memOk) (s' : State) (h : execJr c f s = .next s') : s'.memOk := by
  unfold execJr at h; cases h; simp (maxDischargeDepth := 60) (contextual := true) [hs]
theorem execRdrand_memOk (c : CellIx) (f : InsFields) (s : State) (hs : s.memOk) (s' : State) (h : execRdrand c f s = .next s') : s'.memOk := by
  unfold execRdrand at h; cases h; simp (maxDischargeDepth := 60) (contextual := true) [hs]
theorem execTimeRd_memOk (c : CellIx) (f : InsFields) (s : State) (hs : s.memOk) (s' : State) (h : execTimeRd c f s = .next s') : s'.memOk := by
  unfold execTimeRd at h; cases h; simp (maxDischargeDepth := 60) (contextual := true) [hs]
theorem execFenceI_memOk (c : CellIx) (f : InsFields) (s : State) (hs : s.memOk) (s' : State) (h : execFenceI c f s = .next s') : s'.memOk := by
  unfold execFenceI at h; cases h; simp (maxDischargeDepth := 60) (contextual := true) [hs]
theorem execEndRun_memOk (c : CellIx) (f : InsFields) (s : State) (hs : s.memOk) (s' : State) (h : execEndRun c f s = .next s') : s'.memOk := by
  unfold execEndRun at h; cases h; simp (maxDischargeDepth := 60) (contextual := true) [hs]
theorem execIllegalOpcode_memOk (c : CellIx) (opc : BitVec 8) (f : InsFields) (s : State) (hs : s.memOk) (s' : State) (h : execIllegalOpcode c opc f s = .next s') : s'.memOk := by
  unfold execIllegalOpcode at h; cases h; simp (maxDischargeDepth := 60) (contextual := true) [hs]
theorem execWindowWrite_memOk (m : Msg) (s : State) (hs : s.memOk) (s' : State) (h : execWindowWrite m s = .next s') : s'.memOk := by
  unfold execWindowWrite at h; cases h; simp (maxDischargeDepth := 60) (contextual := true) [hs]
theorem execWindowWriteLanded_memOk (u : UnitAddr) (w : Fin 16) (s : State) (hs : s.memOk) (s' : State) (h : execWindowWriteLanded u w s = .next s') : s'.memOk := by
  unfold execWindowWriteLanded at h; cases h; simp (maxDischargeDepth := 60) (contextual := true) [hs]
theorem execWopen_memOk (c : CellIx) (f : InsFields) (s : State) (hs : s.memOk) (s' : State) (h : execWopen c f s = .next s') : s'.memOk := by
  unfold execWopen at h; cases h; simp (maxDischargeDepth := 60) (contextual := true) [hs]
theorem execWclose_memOk (c : CellIx) (f : InsFields) (s : State) (hs : s.memOk) (s' : State) (h : execWclose c f s = .next s') : s'.memOk := by
  unfold execWclose at h; cases h; simp (maxDischargeDepth := 60) (contextual := true) [hs]
theorem execCmdDispatch_memOk (c : CellIx) (s : State) (hs : s.memOk) (s' : State) (h : execCmdDispatch c s = .next s') : s'.memOk := by
  unfold execCmdDispatch at h; cases h; simp (maxDischargeDepth := 60) (contextual := true) [hs]
theorem execRunCmd_memOk (c : CellIx) (s : State) (hs : s.memOk) (s' : State) (h : execRunCmd c s = .next s') : s'.memOk := by
  unfold execRunCmd at h; (repeat' split at h) <;> cases h <;> simp (maxDischargeDepth := 60) (contextual := true) [hs]
theorem execImageCmd_memOk (c : CellIx) (s : State) (hs : s.memOk) (s' : State) (h : execImageCmd c s = .next s') : s'.memOk := by
  unfold execImageCmd at h; (repeat' split at h) <;> cases h <;> simp (maxDischargeDepth := 60) (contextual := true) [hs]
theorem execImageItem_memOk (c : CellIx) (s : State) (hs : s.memOk) (s' : State) (h : execImageItem c s = .next s') : s'.memOk := by
  unfold execImageItem at h; (repeat' split at h) <;> cases h <;> simp (maxDischargeDepth := 60) (contextual := true) [hs]
theorem execWindowOpenCmd_memOk (u : UnitAddr) (s : State) (hs : s.memOk) (s' : State) (h : execWindowOpenCmd u s = .next s') : s'.memOk := by
  unfold execWindowOpenCmd at h; (repeat' split at h) <;> cases h <;> simp (maxDischargeDepth := 60) (contextual := true) [hs]
theorem execWindowCloseCmd_memOk (u : UnitAddr) (s : State) (hs : s.memOk) (s' : State) (h : execWindowCloseCmd u s = .next s') : s'.memOk := by
  unfold execWindowCloseCmd at h; (repeat' split at h) <;> cases h <;> simp (maxDischargeDepth := 60) (contextual := true) [hs]
theorem execDeferredWindowOpen_memOk (u : UnitAddr) (w : Fin 16) (s : State) (hs : s.memOk) (s' : State) (h : execDeferredWindowOpen u w s = .next s') : s'.memOk := by
  unfold execDeferredWindowOpen at h; cases h; simp (maxDischargeDepth := 60) (contextual := true) [hs]
theorem execCommandComplete_memOk (c : CellIx) (s : State) (hs : s.memOk) (s' : State) (h : execCommandComplete c s = .next s') : s'.memOk := by
  unfold execCommandComplete at h; (repeat' split at h) <;> cases h <;> simp (maxDischargeDepth := 60) (contextual := true) [hs]
theorem execCarcaseCommandComplete_memOk (u : UnitAddr) (tag : BitVec 32) (s : State) (hs : s.memOk) (s' : State) (h : execCarcaseCommandComplete u tag s = .next s') : s'.memOk := by
  unfold execCarcaseCommandComplete at h; (repeat' split at h) <;> cases h <;> simp (maxDischargeDepth := 60) (contextual := true) [hs]
theorem execScrubCmd_memOk (c : CellIx) (s : State) (hs : s.memOk) (s' : State) (h : execScrubCmd c s = .next s') : s'.memOk := by
  unfold execScrubCmd at h; (repeat' split at h) <;> cases h <;> simp (maxDischargeDepth := 60) (contextual := true) [hs]
theorem execScrubEnd_memOk (c : CellIx) (s : State) (hs : s.memOk) (s' : State) (h : execScrubEnd c s = .next s') : s'.memOk := by
  unfold execScrubEnd at h; cases h; simp (maxDischargeDepth := 60) (contextual := true) [hs]
theorem execKillCmd_memOk (m : Msg) (s : State) (hs : s.memOk) (s' : State) (h : execKillCmd m s = .next s') : s'.memOk := by
  unfold execKillCmd at h; cases h; simp (maxDischargeDepth := 60) (contextual := true) [hs]
theorem execCutCmd_memOk (m : Msg) (s : State) (hs : s.memOk) (s' : State) (h : execCutCmd m s = .next s') : s'.memOk := by
  unfold execCutCmd at h; cases h; simp (maxDischargeDepth := 60) (contextual := true) [hs]
theorem execCommandArrival_memOk (m : Msg) (s : State) (hs : s.memOk) (s' : State) (h : execCommandArrival m s = .next s') : s'.memOk := by
  unfold execCommandArrival at h; cases h; simp (maxDischargeDepth := 60) (contextual := true) [hs]
theorem execRoleSet_memOk (m : Msg) (s : State) (hs : s.memOk) (s' : State) (h : execRoleSet m s = .next s') : s'.memOk := by
  unfold execRoleSet at h; cases h; simp (maxDischargeDepth := 60) (contextual := true) [hs]
theorem execJoinedFetchArrival_memOk (c : CellIx) (e : List UnitFlip) (s : State) (hs : s.memOk) (s' : State) (h : execJoinedFetchArrival c e s = .next s') : s'.memOk := by
  unfold execJoinedFetchArrival at h; (repeat' split at h) <;> cases h <;> simp (maxDischargeDepth := 60) (contextual := true) [hs]
theorem execGroupFree_memOk (dix : BitVec 32) (s : State) (hs : s.memOk) (s' : State) (h : execGroupFree dix s = .next s') : s'.memOk := by
  unfold execGroupFree at h; cases h; simp (maxDischargeDepth := 60) (contextual := true) [hs]
theorem execStorageRelease_memOk (base : ℕ) (s : State) (hs : s.memOk) (s' : State) (h : execStorageRelease base s = .next s') : s'.memOk := by
  unfold execStorageRelease at h; (repeat' split at h) <;> cases h <;> simp (maxDischargeDepth := 60) (contextual := true) [hs]
theorem execBlockFetch_memOk (m : Msg) (e : List UnitFlip) (s : State) (hs : s.memOk) (s' : State) (h : execBlockFetch m e s = .next s') : s'.memOk := by
  unfold execBlockFetch at h; cases h; simp (maxDischargeDepth := 60) (contextual := true) [hs]
theorem execFetch_memOk (c : CellIx) (f : InsFields) (e : List UnitFlip) (s : State) (hs : s.memOk) (s' : State) (h : execFetch c f e s = .next s') : s'.memOk := by
  unfold execFetch at h; cases h; simp (maxDischargeDepth := 60) (contextual := true) [hs]
theorem execEntryrd_memOk (c : CellIx) (f : InsFields) (s : State) (hs : s.memOk) (s' : State) (h : execEntryrd c f s = .next s') : s'.memOk := by
  unfold execEntryrd at h; cases h; simp (maxDischargeDepth := 60) (contextual := true) [hs]
theorem execStoreG_memOk (c : CellIx) (f : InsFields) (s : State) (hs : s.memOk) (s' : State) (h : execStoreG c f s = .next s') : s'.memOk := by
  unfold execStoreG at h; cases h; simp (maxDischargeDepth := 60) (contextual := true) [hs]
theorem execGatherColumn_memOk (c : CellIx) (f : InsFields) (e : List UnitFlip) (s : State) (hs : s.memOk) (s' : State) (h : execGatherColumn c f e s = .next s') : s'.memOk := by
  unfold execGatherColumn at h; cases h; simp (maxDischargeDepth := 60) (contextual := true) [hs]
theorem execGatherRow_memOk (c : CellIx) (f : InsFields) (e : List UnitFlip) (s : State) (hs : s.memOk) (s' : State) (h : execGatherRow c f e s = .next s') : s'.memOk := by
  unfold execGatherRow at h; cases h; simp (maxDischargeDepth := 60) (contextual := true) [hs]
theorem execSelectN_memOk (c : CellIx) (f : InsFields) (s : State) (hs : s.memOk) (s' : State) (h : execSelectN c f s = .next s') : s'.memOk := by
  unfold execSelectN at h; cases h; simp (maxDischargeDepth := 60) (contextual := true) [hs]
theorem execAuditN_memOk (c : CellIx) (f : InsFields) (s : State) (hs : s.memOk) (s' : State) (h : execAuditN c f s = .next s') : s'.memOk := by
  unfold execAuditN at h; cases h; simp (maxDischargeDepth := 60) (contextual := true) [hs]
theorem execSpillAlloc_memOk (m : Msg) (s : State) (hs : s.memOk) (s' : State) (h : execSpillAlloc m s = .next s') : s'.memOk := by
  unfold execSpillAlloc at h; cases h; simp (maxDischargeDepth := 60) (contextual := true) [hs]
theorem execSpillFree_memOk (m : Msg) (s : State) (hs : s.memOk) (s' : State) (h : execSpillFree m s = .next s') : s'.memOk := by
  unfold execSpillFree at h; cases h; simp (maxDischargeDepth := 60) (contextual := true) [hs]
theorem execSpillWrite_memOk (m : Msg) (s : State) (hs : s.memOk) (s' : State) (h : execSpillWrite m s = .next s') : s'.memOk := by
  unfold execSpillWrite at h; cases h; simp (maxDischargeDepth := 60) (contextual := true) [hs]
theorem execSpillRead_memOk (m : Msg) (s : State) (hs : s.memOk) (s' : State) (h : execSpillRead m s = .next s') : s'.memOk := by
  unfold execSpillRead at h; cases h; simp (maxDischargeDepth := 60) (contextual := true) [hs]
theorem execTreeEmptyToken_memOk (c : CellIx) (t_ : Fin 2) (s : State) (hs : s.memOk) (s' : State) (h : execTreeEmptyToken c t_ s = .next s') : s'.memOk := by
  unfold execTreeEmptyToken at h; cases h; simp (maxDischargeDepth := 60) (contextual := true) [hs]
theorem execSabItemApply_memOk (c : CellIx) (bank : Fin 16) (x : Option Acc) (s : State) (hs : s.memOk) (s' : State) (h : execSabItemApply c bank x s = .next s') : s'.memOk := by
  unfold execSabItemApply at h; cases h; simp (maxDischargeDepth := 60) (contextual := true) [hs]
theorem execDrainRow_memOk (c : CellIx) (t_ : Fin 2) (x : Option Upset) (s : State) (hs : s.memOk) (s' : State) (h : execDrainRow c t_ x s = .next s') : s'.memOk := by
  unfold execDrainRow at h; simp only [] at h; (repeat' split at h) <;> cases h <;> simp (maxDischargeDepth := 60) (contextual := true) [hs]
theorem execChainSum_memOk (m : Msg) (s : State) (hs : s.memOk) (s' : State) (h : execChainSum m s = .next s') : s'.memOk := by
  unfold execChainSum at h; cases h; simp (maxDischargeDepth := 60) (contextual := true) [hs]
theorem execChainInletAccept_memOk (c : CellIx) (t_ : Fin 2) (s : State) (hs : s.memOk) (s' : State) (h : execChainInletAccept c t_ s = .next s') : s'.memOk := by
  unfold execChainInletAccept at h; cases h; simp (maxDischargeDepth := 60) (contextual := true) [hs]
theorem execDrainRq_memOk (c : CellIx) (f : InsFields) (s : State) (hs : s.memOk) (s' : State) (h : execDrainRq c f s = .next s') : s'.memOk := by
  unfold execDrainRq at h; cases h; simp (maxDischargeDepth := 60) (contextual := true) [hs]
theorem execDrainWide_memOk (c : CellIx) (f : InsFields) (s : State) (hs : s.memOk) (s' : State) (h : execDrainWide c f s = .next s') : s'.memOk := by
  unfold execDrainWide at h; cases h; simp (maxDischargeDepth := 60) (contextual := true) [hs]
theorem execDrainChain_memOk (c : CellIx) (f : InsFields) (s : State) (hs : s.memOk) (s' : State) (h : execDrainChain c f s = .next s') : s'.memOk := by
  unfold execDrainChain at h; cases h; simp (maxDischargeDepth := 60) (contextual := true) [hs]
theorem execDrainSab_memOk (c : CellIx) (f : InsFields) (s : State) (hs : s.memOk) (s' : State) (h : execDrainSab c f s = .next s') : s'.memOk := by
  unfold execDrainSab at h; cases h; simp (maxDischargeDepth := 60) (contextual := true) [hs]
theorem execArrayBeat_memOk (c : CellIx) (unsupplied : List ℕ) (behind : Bool) (e : List RowFlip) (x : Option Upset) (s : State) (hs : s.memOk) (s' : State) (h : execArrayBeat c unsupplied behind e x s = .next s') : s'.memOk := by
  unfold execArrayBeat at h; (repeat' split at h) <;> cases h <;> simp (maxDischargeDepth := 60) (contextual := true) [hs]
theorem execTileCheckpoint_memOk (c : CellIx) (t_ : Fin 2) (x : Option Upset) (s : State) (hs : s.memOk) (s' : State) (h : execTileCheckpoint c t_ x s = .next s') : s'.memOk := by
  unfold execTileCheckpoint at h; cases h; simp (maxDischargeDepth := 60) (contextual := true) [hs]
theorem execLoadComplete_memOk (c : CellIx) (t_ : Fin 2) (s : State) (hs : s.memOk) (s' : State) (h : execLoadComplete c t_ s = .next s') : s'.memOk := by
  unfold execLoadComplete at h; (repeat' split at h) <;> cases h <;> simp (maxDischargeDepth := 60) (contextual := true) [hs]
theorem execArrayI_memOk (c : CellIx) (f : InsFields) (s : State) (hs : s.memOk) (s' : State) (h : execArrayI c f s = .next s') : s'.memOk := by
  unfold execArrayI at h; cases h; simp (maxDischargeDepth := 60) (contextual := true) [hs]
theorem execLoadT_memOk (c : CellIx) (f : InsFields) (s : State) (hs : s.memOk) (s' : State) (h : execLoadT c f s = .next s') : s'.memOk := by
  unfold execLoadT at h; cases h; simp (maxDischargeDepth := 60) (contextual := true) [hs]
theorem execRangeReset_memOk (c : CellIx) (f : InsFields) (s : State) (hs : s.memOk) (s' : State) (h : execRangeReset c f s = .next s') : s'.memOk := by
  unfold execRangeReset at h; cases h; simp (maxDischargeDepth := 60) (contextual := true) [hs]
theorem execRequant_memOk (c : CellIx) (f : InsFields) (s : State) (hs : s.memOk) (s' : State) (h : execRequant c f s = .next s') : s'.memOk := by
  unfold execRequant at h; cases h; simp (maxDischargeDepth := 60) (contextual := true) [hs]
theorem execRangeRequant_memOk (c : CellIx) (f : InsFields) (s : State) (hs : s.memOk) (s' : State) (h : execRangeRequant c f s = .next s') : s'.memOk := by
  unfold execRangeRequant at h; cases h; simp (maxDischargeDepth := 60) (contextual := true) [hs]
theorem execDequant_memOk (c : CellIx) (f : InsFields) (s : State) (hs : s.memOk) (s' : State) (h : execDequant c f s = .next s') : s'.memOk := by
  unfold execDequant at h; cases h; simp (maxDischargeDepth := 60) (contextual := true) [hs]
theorem execQuant_memOk (c : CellIx) (f : InsFields) (s : State) (hs : s.memOk) (s' : State) (h : execQuant c f s = .next s') : s'.memOk := by
  unfold execQuant at h; cases h; simp (maxDischargeDepth := 60) (contextual := true) [hs]
theorem execRangeF32_memOk (c : CellIx) (f : InsFields) (s : State) (hs : s.memOk) (s' : State) (h : execRangeF32 c f s = .next s') : s'.memOk := by
  unfold execRangeF32 at h; cases h; simp (maxDischargeDepth := 60) (contextual := true) [hs]
theorem execSabout_memOk (c : CellIx) (f : InsFields) (s : State) (hs : s.memOk) (s' : State) (h : execSabout c f s = .next s') : s'.memOk := by
  unfold execSabout at h; cases h; simp (maxDischargeDepth := 60) (contextual := true) [hs]
theorem execRangeout_memOk (c : CellIx) (f : InsFields) (s : State) (hs : s.memOk) (s' : State) (h : execRangeout c f s = .next s') : s'.memOk := by
  unfold execRangeout at h; cases h; simp (maxDischargeDepth := 60) (contextual := true) [hs]
theorem execRangemerge_memOk (c : CellIx) (f : InsFields) (s : State) (hs : s.memOk) (s' : State) (h : execRangemerge c f s = .next s') : s'.memOk := by
  unfold execRangemerge at h; cases h; simp (maxDischargeDepth := 60) (contextual := true) [hs]
theorem execScaleRq_memOk (c : CellIx) (f : InsFields) (s : State) (hs : s.memOk) (s' : State) (h : execScaleRq c f s = .next s') : s'.memOk := by
  unfold execScaleRq at h; cases h; simp (maxDischargeDepth := 60) (contextual := true) [hs]
theorem execLedgerW_memOk (c : CellIx) (f : InsFields) (s : State) (hs : s.memOk) (s' : State) (h : execLedgerW c f s = .next s') : s'.memOk := by
  unfold execLedgerW at h; cases h; simp (maxDischargeDepth := 60) (contextual := true) [hs]
theorem execCvt_memOk (c : CellIx) (f : InsFields) (s : State) (hs : s.memOk) (s' : State) (h : execCvt c f s = .next s') : s'.memOk := by
  unfold execCvt at h; cases h; simp (maxDischargeDepth := 60) (contextual := true) [hs]
theorem execLfuMul_memOk (c : CellIx) (f : InsFields) (s : State) (hs : s.memOk) (s' : State) (h : execLfuMul c f s = .next s') : s'.memOk := by
  unfold execLfuMul at h; cases h; simp (maxDischargeDepth := 60) (contextual := true) [hs]
theorem execExpF_memOk (c : CellIx) (f : InsFields) (s : State) (hs : s.memOk) (s' : State) (h : execExpF c f s = .next s') : s'.memOk := by
  unfold execExpF at h; cases h; simp (maxDischargeDepth := 60) (contextual := true) [hs]
theorem execLogF_memOk (c : CellIx) (f : InsFields) (s : State) (hs : s.memOk) (s' : State) (h : execLogF c f s = .next s') : s'.memOk := by
  unfold execLogF at h; cases h; simp (maxDischargeDepth := 60) (contextual := true) [hs]
theorem execRecip_memOk (c : CellIx) (f : InsFields) (s : State) (hs : s.memOk) (s' : State) (h : execRecip c f s = .next s') : s'.memOk := by
  unfold execRecip at h; cases h; simp (maxDischargeDepth := 60) (contextual := true) [hs]
theorem execRsqrt_memOk (c : CellIx) (f : InsFields) (s : State) (hs : s.memOk) (s' : State) (h : execRsqrt c f s = .next s') : s'.memOk := by
  unfold execRsqrt at h; cases h; simp (maxDischargeDepth := 60) (contextual := true) [hs]
theorem execSoftmax_memOk (c : CellIx) (f : InsFields) (s : State) (hs : s.memOk) (s' : State) (h : execSoftmax c f s = .next s') : s'.memOk := by
  unfold execSoftmax at h; cases h; simp (maxDischargeDepth := 60) (contextual := true) [hs]
theorem execGelu_memOk (c : CellIx) (f : InsFields) (s : State) (hs : s.memOk) (s' : State) (h : execGelu c f s = .next s') : s'.memOk := by
  unfold execGelu at h; cases h; simp (maxDischargeDepth := 60) (contextual := true) [hs]
theorem execSilu_memOk (c : CellIx) (f : InsFields) (s : State) (hs : s.memOk) (s' : State) (h : execSilu c f s = .next s') : s'.memOk := by
  unfold execSilu at h; cases h; simp (maxDischargeDepth := 60) (contextual := true) [hs]
theorem execNormF_memOk (c : CellIx) (f : InsFields) (s : State) (hs : s.memOk) (s' : State) (h : execNormF c f s = .next s') : s'.memOk := by
  unfold execNormF at h; cases h; simp (maxDischargeDepth := 60) (contextual := true) [hs]
theorem execUnitOperationComplete_memOk (c : CellIx) (k : ℕ) (again : List ℕ) (s : State) (hs : s.memOk) (s' : State) (h : execUnitOperationComplete c k again s = .next s') : s'.memOk := by
  unfold execUnitOperationComplete at h; (repeat' split at h) <;> cases h <;> simp (maxDischargeDepth := 60) (contextual := true) [hs]
theorem execStallRelease_memOk (c : CellIx) (s : State) (hs : s.memOk) (s' : State) (h : execStallRelease c s = .next s') : s'.memOk := by
  unfold execStallRelease at h; (repeat' split at h) <;> cases h <;> simp (maxDischargeDepth := 60) (contextual := true) [hs]
theorem execSeqWdog_memOk (c : CellIx) (s : State) (hs : s.memOk) (s' : State) (h : execSeqWdog c s = .next s') : s'.memOk := by
  unfold execSeqWdog at h; cases h; simp (maxDischargeDepth := 60) (contextual := true) [hs]
theorem execReplyArrival_memOk (m : Msg) (s : State) (hs : s.memOk) (s' : State) (h : execReplyArrival m s = .next s') : s'.memOk := by
  unfold execReplyArrival at h; cases h; simp (maxDischargeDepth := 60) (contextual := true) [hs]
theorem execBounceArrival_memOk (m : Msg) (s : State) (hs : s.memOk) (s' : State) (h : execBounceArrival m s = .next s') : s'.memOk := by
  unfold execBounceArrival at h; cases h; simp (maxDischargeDepth := 60) (contextual := true) [hs]
theorem execQueueFlushComplete_memOk (q : QueueId) (s : State) (hs : s.memOk) (s' : State) (h : execQueueFlushComplete q s = .next s') : s'.memOk := by
  unfold execQueueFlushComplete at h; cases h; simp (maxDischargeDepth := 60) (contextual := true) [hs]
theorem execQueueEnqueueResume_memOk (q : QueueId) (s : State) (hs : s.memOk) (s' : State) (h : execQueueEnqueueResume q s = .next s') : s'.memOk := by
  unfold execQueueEnqueueResume at h; cases h; simp (maxDischargeDepth := 60) (contextual := true) [hs]
theorem execQueueTail_memOk (q : QueueId) (s : State) (hs : s.memOk) (s' : State) (h : execQueueTail q s = .next s') : s'.memOk := by
  unfold execQueueTail at h; cases h; simp (maxDischargeDepth := 60) (contextual := true) [hs]
theorem execSyncOp_memOk (c : CellIx) (f : InsFields) (s : State) (hs : s.memOk) (s' : State) (h : execSyncOp c f s = .next s') : s'.memOk := by
  unfold execSyncOp at h; cases h; simp (maxDischargeDepth := 60) (contextual := true) [hs]
theorem execQread_memOk (c : CellIx) (f : InsFields) (s : State) (hs : s.memOk) (s' : State) (h : execQread c f s = .next s') : s'.memOk := by
  unfold execQread at h; cases h; simp (maxDischargeDepth := 60) (contextual := true) [hs]
theorem execQflush_memOk (c : CellIx) (f : InsFields) (s : State) (hs : s.memOk) (s' : State) (h : execQflush c f s = .next s') : s'.memOk := by
  unfold execQflush at h; cases h; simp (maxDischargeDepth := 60) (contextual := true) [hs]
theorem execSendW_memOk (c : CellIx) (f : InsFields) (s : State) (hs : s.memOk) (s' : State) (h : execSendW c f s = .next s') : s'.memOk := by
  unfold execSendW at h; cases h; simp (maxDischargeDepth := 60) (contextual := true) [hs]
theorem execSyncRead_memOk (m : Msg) (s : State) (hs : s.memOk) (s' : State) (h : execSyncRead m s = .next s') : s'.memOk := by
  unfold execSyncRead at h; cases h; simp (maxDischargeDepth := 60) (contextual := true) [hs]
theorem execSyncInit_memOk (m : Msg) (s : State) (hs : s.memOk) (s' : State) (h : execSyncInit m s = .next s') : s'.memOk := by
  unfold execSyncInit at h; cases h; simp (maxDischargeDepth := 60) (contextual := true) [hs]
theorem execSyncAdd_memOk (m : Msg) (s : State) (hs : s.memOk) (s' : State) (h : execSyncAdd m s = .next s') : s'.memOk := by
  unfold execSyncAdd at h; cases h; simp (maxDischargeDepth := 60) (contextual := true) [hs]
theorem execSyncWaitGe_memOk (m : Msg) (s : State) (hs : s.memOk) (s' : State) (h : execSyncWaitGe m s = .next s') : s'.memOk := by
  unfold execSyncWaitGe at h; cases h; simp (maxDischargeDepth := 60) (contextual := true) [hs]
theorem execSyncArrive_memOk (m : Msg) (s : State) (hs : s.memOk) (s' : State) (h : execSyncArrive m s = .next s') : s'.memOk := by
  unfold execSyncArrive at h; cases h; simp (maxDischargeDepth := 60) (contextual := true) [hs]
theorem execSyncArriveWait_memOk (m : Msg) (s : State) (hs : s.memOk) (s' : State) (h : execSyncArriveWait m s = .next s') : s'.memOk := by
  unfold execSyncArriveWait at h; cases h; simp (maxDischargeDepth := 60) (contextual := true) [hs]
theorem execSyncWaitGen_memOk (m : Msg) (s : State) (hs : s.memOk) (s' : State) (h : execSyncWaitGen m s = .next s') : s'.memOk := by
  unfold execSyncWaitGen at h; cases h; simp (maxDischargeDepth := 60) (contextual := true) [hs]
theorem execSyncSet_memOk (m : Msg) (s : State) (hs : s.memOk) (s' : State) (h : execSyncSet m s = .next s') : s'.memOk := by
  unfold execSyncSet at h; cases h; simp (maxDischargeDepth := 60) (contextual := true) [hs]
theorem execSyncClear_memOk (m : Msg) (s : State) (hs : s.memOk) (s' : State) (h : execSyncClear m s = .next s') : s'.memOk := by
  unfold execSyncClear at h; cases h; simp (maxDischargeDepth := 60) (contextual := true) [hs]
theorem execSyncWaitSet_memOk (m : Msg) (s : State) (hs : s.memOk) (s' : State) (h : execSyncWaitSet m s = .next s') : s'.memOk := by
  unfold execSyncWaitSet at h; cases h; simp (maxDischargeDepth := 60) (contextual := true) [hs]
theorem execSyncWaitClear_memOk (m : Msg) (s : State) (hs : s.memOk) (s' : State) (h : execSyncWaitClear m s = .next s') : s'.memOk := by
  unfold execSyncWaitClear at h; cases h; simp (maxDischargeDepth := 60) (contextual := true) [hs]
theorem execCeLimitReached_memOk (c : CellIx) (row : Fin 16384) (s : State) (hs : s.memOk) (s' : State) (h : execCeLimitReached c row s = .next s') : s'.memOk := by
  unfold execCeLimitReached at h; cases h; simp (maxDischargeDepth := 60) (contextual := true) [hs]
theorem execFieldRemap_memOk (c : CellIx) (row : Fin 16384) (s : State) (hs : s.memOk) (s' : State) (h : execFieldRemap c row s = .next s') : s'.memOk := by
  unfold execFieldRemap at h; cases h; simp (maxDischargeDepth := 60) (contextual := true) [hs]
theorem execRetirementRequest_memOk (c : CellIx) (s : State) (hs : s.memOk) (s' : State) (h : execRetirementRequest c s = .next s') : s'.memOk := by
  unfold execRetirementRequest at h; cases h; simp (maxDischargeDepth := 60) (contextual := true) [hs]
theorem execSpareSubstitution_memOk (c : CellIx) (s : State) (hs : s.memOk) (s' : State) (h : execSpareSubstitution c s = .next s') : s'.memOk := by
  unfold execSpareSubstitution at h; cases h; simp (maxDischargeDepth := 60) (contextual := true) [hs]
theorem execHostingStart_memOk (c : CellIx) (s : State) (hs : s.memOk) (s' : State) (h : execHostingStart c s = .next s') : s'.memOk := by
  unfold execHostingStart at h; cases h; refine onlyIf_memOk _ _ _ hs (fun hs => ?_); split
  · exact hs
  · rename_i h d _
    simp only []; split
    · exact hs
    · cases hm : s.mem.allocMany (h / 256) 1024 (.image c.val) 42 with
      | none => exact hs
      | some m =>
        unfold Option.elim; simp only []; unfold State.startHosting
        exact State.retired_memOk _ _ _ ⟨MemSys.allocMany_memOk _ _ _ _ _ hs.1 _ hm, hs.2⟩
theorem execHostContextSwitch_memOk (c : CellIx) (s : State) (hs : s.memOk) (s' : State) (h : execHostContextSwitch c s = .next s') : s'.memOk := by
  unfold execHostContextSwitch at h; cases h; simp (maxDischargeDepth := 60) (contextual := true) [hs]
theorem execPatrol_memOk (unit : ℕ) (e : List UnitFlip) (s : State) (hs : s.memOk) (s' : State) (h : execPatrol unit e s = .next s') : s'.memOk := by
  unfold execPatrol at h; cases h; refine onlyIf_memOk _ _ _ hs (fun hs => ?_); simp only []
  split <;> simp (maxDischargeDepth := 60) [hs]
theorem execUcieLaneRepair_memOk (die : Fin 2) (mod : Fin 5) (lanes : ℕ) (repaired : Bool) (s : State) (hs : s.memOk) (s' : State) (h : execUcieLaneRepair die mod lanes repaired s = .next s') : s'.memOk := by
  unfold execUcieLaneRepair at h; cases h; simp (maxDischargeDepth := 60) (contextual := true) [hs]
theorem execJobEntry_memOk (st : Fin 8) (entry : List Word) (prectab : List Word) (s : State) (hs : s.memOk) (s' : State) (h : execJobEntry st entry prectab s = .next s') : s'.memOk := by
  unfold execJobEntry at h; cases h; simp (maxDischargeDepth := 60) (contextual := true) [hs]
theorem execRegisterEntry_memOk (st : Fin 8) (entry : List Word) (graph : List Word) (tensors : List (List Word)) (layers : List (List Word)) (room : Bool) (s : State) (hs : s.memOk) (s' : State) (h : execRegisterEntry st entry graph tensors layers room s = .next s') : s'.memOk := by
  unfold execRegisterEntry at h; cases h; simp (maxDischargeDepth := 60) (contextual := true) [hs]
theorem execReleaseEntry_memOk (st : Fin 8) (entry : List Word) (s : State) (hs : s.memOk) (s' : State) (h : execReleaseEntry st entry s = .next s') : s'.memOk := by
  unfold execReleaseEntry at h; cases h; simp (maxDischargeDepth := 60) (contextual := true) [hs]
theorem execKillEntry_memOk (st : Fin 8) (entry : List Word) (s : State) (hs : s.memOk) (s' : State) (h : execKillEntry st entry s = .next s') : s'.memOk := by
  unfold execKillEntry at h; cases h; simp (maxDischargeDepth := 60) (contextual := true) [hs]
theorem execCutEntry_memOk (st : Fin 8) (entry : List Word) (s : State) (hs : s.memOk) (s' : State) (h : execCutEntry st entry s = .next s') : s'.memOk := by
  unfold execCutEntry at h; cases h; simp (maxDischargeDepth := 60) (contextual := true) [hs]
theorem execJobStart_memOk (job : BitVec 32) (s : State) (hs : s.memOk) (s' : State) (h : execJobStart job s = .next s') : s'.memOk := by
  unfold execJobStart at h; (repeat' split at h) <;> cases h <;> simp (maxDischargeDepth := 60) (contextual := true) [hs]
theorem execBudgetExpiry_memOk (job : BitVec 32) (s : State) (hs : s.memOk) (s' : State) (h : execBudgetExpiry job s = .next s') : s'.memOk := by
  unfold execBudgetExpiry at h; (repeat' split at h) <;> cases h <;> simp (maxDischargeDepth := 60) (contextual := true) [hs]
theorem execJobEnd_memOk (job : BitVec 32) (s : State) (hs : s.memOk) (s' : State) (h : execJobEnd job s = .next s') : s'.memOk := by
  unfold execJobEnd at h; (repeat' split at h) <;> cases h <;> simp (maxDischargeDepth := 60) (contextual := true) [hs]
theorem execJobFailure_memOk (job : BitVec 32) (layer : BitVec 32) (code : BitVec 8) (s : State) (hs : s.memOk) (s' : State) (h : execJobFailure job layer code s = .next s') : s'.memOk := by
  unfold execJobFailure at h; (repeat' split at h) <;> cases h <;> simp (maxDischargeDepth := 60) (contextual := true) [hs]
theorem execDeltaLayerBegin_memOk (job : BitVec 32) (layer : BitVec 16) (s : State) (hs : s.memOk) (s' : State) (h : execDeltaLayerBegin job layer s = .next s') : s'.memOk := by
  unfold execDeltaLayerBegin at h; (repeat' split at h) <;> cases h <;> simp (maxDischargeDepth := 60) (contextual := true) [hs]
theorem execLayerComplete_memOk (job : BitVec 32) (layer : BitVec 16) (code : BitVec 8) (record : List Word) (carried : List Word) (ledgers : List (List Payload)) (s : State) (hs : s.memOk) (s' : State) (h : execLayerComplete job layer code record carried ledgers s = .next s') : s'.memOk := by
  unfold execLayerComplete at h; cases h; split
  · refine onlyIf_memOk _ _ _ hs (fun hs => ?_); split
    · exact State.layerDone_memOk _ _ _ _ _ _ _ _ _ _ _ (State.layerData_memOk _ _ _ _ _ hs _ (by assumption))
    · exact hs
  · exact hs
theorem execCompletionEntryWrite_memOk (st : Fin 8) (s : State) (hs : s.memOk) (s' : State) (h : execCompletionEntryWrite st s = .next s') : s'.memOk := by
  unfold execCompletionEntryWrite at h; (repeat' split at h) <;> cases h <;> simp (maxDischargeDepth := 60) (contextual := true) [hs]
theorem execEvcSendGo_memOk (h_ : Fin 16) (addr : BitVec 50) (count : BitVec 32) (items : List Payload) (w1c : Bool) (s : State) (hs : s.memOk) (s' : State) (h : execEvcSendGo h_ addr count items w1c s = .next s') : s'.memOk := by
  unfold execEvcSendGo at h; cases h; simp (maxDischargeDepth := 60) (contextual := true) [hs]
theorem execEvcHiqPop_memOk (h_ : Fin 16) (s : State) (hs : s.memOk) (s' : State) (h : execEvcHiqPop h_ s = .next s') : s'.memOk := by
  unfold execEvcHiqPop at h; cases h; simp (maxDischargeDepth := 60) (contextual := true) [hs]
theorem execEvcClaim_memOk (h_ : Fin 16) (s : State) (hs : s.memOk) (s' : State) (h : execEvcClaim h_ s = .next s') : s'.memOk := by
  unfold execEvcClaim at h; cases h; simp (maxDischargeDepth := 60) (contextual := true) [hs]
theorem execEvcComplete_memOk (h_ : Fin 16) (id : BitVec 13) (w1c : Bool) (s : State) (hs : s.memOk) (s' : State) (h : execEvcComplete h_ id w1c s = .next s') : s'.memOk := by
  unfold execEvcComplete at h; cases h; simp (maxDischargeDepth := 60) (contextual := true) [hs]
theorem execEvcSrcWrite_memOk (n : BitVec 12) (v : Word) (s : State) (hs : s.memOk) (s' : State) (h : execEvcSrcWrite n v s = .next s') : s'.memOk := by
  unfold execEvcSrcWrite at h; cases h; simp (maxDischargeDepth := 60) (contextual := true) [hs]
theorem execEvcSgrpWrite_memOk (g : Fin 64) (v : Word) (s : State) (hs : s.memOk) (s' : State) (h : execEvcSgrpWrite g v s = .next s') : s'.memOk := by
  unfold execEvcSgrpWrite at h; cases h; simp (maxDischargeDepth := 60) (contextual := true) [hs]
theorem execEvcThreshWrite_memOk (h_ : Fin 16) (v : Word) (s : State) (hs : s.memOk) (s' : State) (h : execEvcThreshWrite h_ v s = .next s') : s'.memOk := by
  unfold execEvcThreshWrite at h; cases h; simp (maxDischargeDepth := 60) (contextual := true) [hs]
theorem execEvcHartCtlWrite_memOk (h_ : Fin 16) (v : Word) (s : State) (hs : s.memOk) (s' : State) (h : execEvcHartCtlWrite h_ v s = .next s') : s'.memOk := by
  unfold execEvcHartCtlWrite at h; cases h; simp (maxDischargeDepth := 60) (contextual := true) [hs]
theorem execEvcSmaskWrite_memOk (g : Fin 64) (v : Word) (s : State) (hs : s.memOk) (s' : State) (h : execEvcSmaskWrite g v s = .next s') : s'.memOk := by
  unfold execEvcSmaskWrite at h; cases h; simp (maxDischargeDepth := 60) (contextual := true) [hs]
theorem execEvcSpendRead_memOk (g : Fin 64) (s : State) (hs : s.memOk) (s' : State) (h : execEvcSpendRead g s = .next s') : s'.memOk := by
  unfold execEvcSpendRead at h; cases h; simp (maxDischargeDepth := 60) (contextual := true) [hs]
theorem execEvcSwfire_memOk (v : Word) (s : State) (hs : s.memOk) (s' : State) (h : execEvcSwfire v s = .next s') : s'.memOk := by
  unfold execEvcSwfire at h; cases h; simp (maxDischargeDepth := 60) (contextual := true) [hs]
theorem execEvcMsixSend_memOk (v : Word) (s : State) (hs : s.memOk) (s' : State) (h : execEvcMsixSend v s = .next s') : s'.memOk := by
  unfold execEvcMsixSend at h; cases h; simp (maxDischargeDepth := 60) (contextual := true) [hs]
theorem execSourceFire_memOk (id : BitVec 13) (s : State) (hs : s.memOk) (s' : State) (h : execSourceFire id s = .next s') : s'.memOk := by
  unfold execSourceFire at h; cases h; simp (maxDischargeDepth := 60) (contextual := true) [hs]
theorem execStatusSourceFire_memOk (n : BitVec 12) (s : State) (hs : s.memOk) (s' : State) (h : execStatusSourceFire n s = .next s') : s'.memOk := by
  unfold execStatusSourceFire at h; cases h; simp (maxDischargeDepth := 60) (contextual := true) [hs]
theorem execTimerFire_memOk (t_ : Fin 32) (armed : Option Word) (s : State) (hs : s.memOk) (s' : State) (h : execTimerFire t_ armed s = .next s') : s'.memOk := by
  unfold execTimerFire at h; cases h; simp (maxDischargeDepth := 60) (contextual := true) [hs]
theorem execWorkstationWindowAccess_memOk (h_ : Fin 16) (base : Option Word) (w1c : BitVec 2) (a : WsAccess) (s : State) (hs : s.memOk) (s' : State) (h : execWorkstationWindowAccess h_ base w1c a s = .next s') : s'.memOk := by
  unfold execWorkstationWindowAccess at h; cases h; simp (maxDischargeDepth := 60) (contextual := true) [hs]
theorem execSqTail_memOk (st : Fin 8) (v : BitVec 16) (w1c : BitVec 4) (s : State) (hs : s.memOk) (s' : State) (h : execSqTail st v w1c s = .next s') : s'.memOk := by
  unfold execSqTail at h; cases h; simp (maxDischargeDepth := 60) (contextual := true) [hs]
theorem execCqHead_memOk (st : Fin 8) (v : BitVec 16) (s : State) (hs : s.memOk) (s' : State) (h : execCqHead st v s = .next s') : s'.memOk := by
  unfold execCqHead at h; cases h; simp (maxDischargeDepth := 60) (contextual := true) [hs]
theorem execStreamReset_memOk (st : Fin 8) (w : StreamSetup) (s : State) (hs : s.memOk) (s' : State) (h : execStreamReset st w s = .next s') : s'.memOk := by
  unfold execStreamReset at h; cases h; simp (maxDischargeDepth := 60) (contextual := true) [hs]
theorem execCqPublish_memOk (st : Fin 8) (v : BitVec 16) (s : State) (hs : s.memOk) (s' : State) (h : execCqPublish st v s = .next s') : s'.memOk := by
  unfold execCqPublish at h; cases h; simp (maxDischargeDepth := 60) (contextual := true) [hs]
theorem execCoalesceTimeout_memOk (st : Fin 8) (s : State) (hs : s.memOk) (s' : State) (h : execCoalesceTimeout st s = .next s') : s'.memOk := by
  unfold execCoalesceTimeout at h; cases h; simp (maxDischargeDepth := 60) (contextual := true) [hs]
theorem execBusMasterEnableChange_memOk (v : Bool) (s : State) (hs : s.memOk) (s' : State) (h : execBusMasterEnableChange v s = .next s') : s'.memOk := by
  unfold execBusMasterEnableChange at h; cases h; simp (maxDischargeDepth := 60) (contextual := true) [hs]
theorem execFunctionLevelReset_memOk (s : State) (hs : s.memOk) (s' : State) (h : execFunctionLevelReset s = .next s') : s'.memOk := by
  unfold execFunctionLevelReset at h; cases h; simp (maxDischargeDepth := 60) (contextual := true) [hs]
theorem execPcieLinkEvent_memOk (e : PcieEvent) (s : State) (hs : s.memOk) (s' : State) (h : execPcieLinkEvent e s = .next s') : s'.memOk := by
  unfold execPcieLinkEvent at h; cases h; simp (maxDischargeDepth := 60) (contextual := true) [hs]
theorem execMsixVectorUnmask_memOk (v : Fin 64) (s : State) (hs : s.memOk) (s' : State) (h : execMsixVectorUnmask v s = .next s') : s'.memOk := by
  unfold execMsixVectorUnmask at h; cases h; simp (maxDischargeDepth := 60) (contextual := true) [hs]
theorem execMbGo_memOk (p : MbPath) (w : MbWrite) (s : State) (hs : s.memOk) (s' : State) (h : execMbGo p w s = .next s') : s'.memOk := by
  unfold execMbGo at h; (repeat' split at h) <;> cases h <;> simp (maxDischargeDepth := 60) (contextual := true) [hs]
theorem execDictionaryRead_memOk (s : State) (hs : s.memOk) (s' : State) (h : execDictionaryRead s = .next s') : s'.memOk := by
  unfold execDictionaryRead at h; cases h; simp (maxDischargeDepth := 60) (contextual := true) [hs]
theorem execDictionaryWrite_memOk (s : State) (hs : s.memOk) (s' : State) (h : execDictionaryWrite s = .next s') : s'.memOk := by
  unfold execDictionaryWrite at h; cases h; simp (maxDischargeDepth := 60) (contextual := true) [hs]
theorem execRwcStageWrite_memOk (s : State) (hs : s.memOk) (s' : State) (h : execRwcStageWrite s = .next s') : s'.memOk := by
  unfold execRwcStageWrite at h; cases h; simp (maxDischargeDepth := 60) (contextual := true) [hs]
theorem execCommitGroup_memOk (s : State) (hs : s.memOk) (s' : State) (h : execCommitGroup s = .next s') : s'.memOk := by
  unfold execCommitGroup at h; cases h; simp (maxDischargeDepth := 60) (contextual := true) [hs]
theorem execCommitDiscard_memOk (s : State) (hs : s.memOk) (s' : State) (h : execCommitDiscard s = .next s') : s'.memOk := by
  unfold execCommitDiscard at h; cases h; simp (maxDischargeDepth := 60) (contextual := true) [hs]
theorem execCommitApply_memOk (u : UnitAddr) (index : BitVec 16) (s : State) (hs : s.memOk) (s' : State) (h : execCommitApply u index s = .next s') : s'.memOk := by
  unfold execCommitApply at h; cases h; simp (maxDischargeDepth := 60) (contextual := true) [hs]
theorem execChamoisDatagram_memOk (g : Datagram) (s : State) (hs : s.memOk) (s' : State) (h : execChamoisDatagram g s = .next s') : s'.memOk := by
  unfold execChamoisDatagram at h; cases h; simp (maxDischargeDepth := 60) (contextual := true) [hs]
theorem execSolicit_memOk (g : Datagram) (s : State) (hs : s.memOk) (s' : State) (h : execSolicit g s = .next s') : s'.memOk := by
  unfold execSolicit at h; cases h; simp (maxDischargeDepth := 60) (contextual := true) [hs]
theorem execAnnounceDelayExpiry_memOk (s : State) (hs : s.memOk) (s' : State) (h : execAnnounceDelayExpiry s = .next s') : s'.memOk := by
  unfold execAnnounceDelayExpiry at h; cases h; simp (maxDischargeDepth := 60) (contextual := true) [hs]
theorem execDadComplete_memOk (duplicate : Bool) (s : State) (hs : s.memOk) (s' : State) (h : execDadComplete duplicate s = .next s') : s'.memOk := by
  unfold execDadComplete at h; cases h; simp (maxDischargeDepth := 60) (contextual := true) [hs]
theorem execNeighborSolicitation_memOk (g : Datagram) (target : BitVec 128) (s : State) (hs : s.memOk) (s' : State) (h : execNeighborSolicitation g target s = .next s') : s'.memOk := by
  unfold execNeighborSolicitation at h; cases h; simp (maxDischargeDepth := 60) (contextual := true) [hs]
theorem execEchoRequest_memOk (g : Datagram) (s : State) (hs : s.memOk) (s' : State) (h : execEchoRequest g s = .next s') : s'.memOk := by
  unfold execEchoRequest at h; cases h; simp (maxDischargeDepth := 60) (contextual := true) [hs]
theorem execSaveStore_memOk (s : State) (hs : s.memOk) (s' : State) (h : execSaveStore s = .next s') : s'.memOk := by
  unfold execSaveStore at h; cases h; simp (maxDischargeDepth := 60) (contextual := true) [hs]
theorem execSaveDelayExpiry_memOk (s : State) (hs : s.memOk) (s' : State) (h : execSaveDelayExpiry s = .next s') : s'.memOk := by
  unfold execSaveDelayExpiry at h; cases h; simp (maxDischargeDepth := 60) (contextual := true) [hs]
theorem execStoreSaveComplete_memOk (ok : Bool) (s : State) (hs : s.memOk) (s' : State) (h : execStoreSaveComplete ok s = .next s') : s'.memOk := by
  unfold execStoreSaveComplete at h; cases h; simp (maxDischargeDepth := 60) (contextual := true) [hs]
theorem execRestoreStore_memOk (s : State) (hs : s.memOk) (s' : State) (h : execRestoreStore s = .next s') : s'.memOk := by
  unfold execRestoreStore at h; cases h; simp (maxDischargeDepth := 60) (contextual := true) [hs]
theorem execHoldPurge_memOk (s : State) (hs : s.memOk) (s' : State) (h : execHoldPurge s = .next s') : s'.memOk := by
  unfold execHoldPurge at h; cases h; simp (maxDischargeDepth := 60) (contextual := true) [hs]
theorem execRetrain_memOk (s : State) (hs : s.memOk) (s' : State) (h : execRetrain s = .next s') : s'.memOk := by
  unfold execRetrain at h; cases h; refine State.serve_memOk _ _ _ hs (fun s r p k hs => ?_)
  exact State.finishWrite_memOk _ _ _ _ _ hs (State.retrain_memOk _ _ hs)
theorem execRoutesWrite_memOk (s : State) (hs : s.memOk) (s' : State) (h : execRoutesWrite s = .next s') : s'.memOk := by
  unfold execRoutesWrite at h; cases h; refine State.serve_memOk _ _ _ hs (fun s r p k hs => ?_)
  exact State.finishWrite_memOk _ _ _ _ _ hs (State.writeRoutes_memOk _ _ hs)
theorem execAppGrantWrite_memOk (s : State) (hs : s.memOk) (s' : State) (h : execAppGrantWrite s = .next s') : s'.memOk := by
  unfold execAppGrantWrite at h; cases h; refine State.serve_memOk _ _ _ hs (fun s r p k hs => ?_)
  exact State.finishWrite_memOk _ _ _ _ _ hs (State.writeGrant_memOk _ _ hs)
theorem execLostRelease_memOk (s : State) (hs : s.memOk) (s' : State) (h : execLostRelease s = .next s') : s'.memOk := by
  unfold execLostRelease at h; cases h; simp (maxDischargeDepth := 60) (contextual := true) [hs]
theorem execDevIdApply_memOk (s : State) (hs : s.memOk) (s' : State) (h : execDevIdApply s = .next s') : s'.memOk := by
  unfold execDevIdApply at h; cases h; simp (maxDischargeDepth := 60) (contextual := true) [hs]
theorem execLinkModeWrite_memOk (s : State) (hs : s.memOk) (s' : State) (h : execLinkModeWrite s = .next s') : s'.memOk := by
  unfold execLinkModeWrite at h; cases h; refine State.serve_memOk _ _ _ hs (fun s r p k hs => ?_)
  exact State.finishWrite_memOk _ _ _ _ _ hs (State.writeLinkMode_memOk _ _ _ _ hs)
theorem execWaveArrival_memOk (u : UnitAddr) (ch : Chan) (w : Wave) (s : State) (hs : s.memOk) (s' : State) (h : execWaveArrival u ch w s = .next s') : s'.memOk := by
  unfold execWaveArrival at h; cases h; simp (maxDischargeDepth := 60) (contextual := true) [hs]
theorem execSnapshotReport_memOk (m : Msg) (s : State) (hs : s.memOk) (s' : State) (h : execSnapshotReport m s = .next s') : s'.memOk := by
  unfold execSnapshotReport at h; cases h; simp (maxDischargeDepth := 60) (contextual := true) [hs]
theorem execSnapGoStart_memOk (s : State) (hs : s.memOk) (s' : State) (h : execSnapGoStart s = .next s') : s'.memOk := by
  unfold execSnapGoStart at h; cases h; refine State.serve_memOk _ _ _ hs (fun s r p k hs => ?_)
  exact State.finishWrite_memOk _ _ _ _ _ hs (State.snapGo_memOk _ _ hs)
theorem execSnapGoAbandon_memOk (s : State) (hs : s.memOk) (s' : State) (h : execSnapGoAbandon s = .next s') : s'.memOk := by
  unfold execSnapGoAbandon at h; cases h; simp (maxDischargeDepth := 60) (contextual := true) [hs]
theorem execFabricFreezeRequest_memOk (s : State) (hs : s.memOk) (s' : State) (h : execFabricFreezeRequest s = .next s') : s'.memOk := by
  unfold execFabricFreezeRequest at h; cases h; simp (maxDischargeDepth := 60) (contextual := true) [hs]
theorem execFabricFreezeEnd_memOk (s : State) (hs : s.memOk) (s' : State) (h : execFabricFreezeEnd s = .next s') : s'.memOk := by
  unfold execFabricFreezeEnd at h; cases h; simp (maxDischargeDepth := 60) (contextual := true) [hs]
theorem execFreezeReached_memOk (s : State) (hs : s.memOk) (s' : State) (h : execFreezeReached s = .next s') : s'.memOk := by
  unfold execFreezeReached at h; cases h; simp (maxDischargeDepth := 60) (contextual := true) [hs]
theorem execFreezeNAssert_memOk (s : State) (hs : s.memOk) (s' : State) (h : execFreezeNAssert s = .next s') : s'.memOk := by
  unfold execFreezeNAssert at h; cases h; simp (maxDischargeDepth := 60) (contextual := true) [hs]
theorem execFreezeNDeassert_memOk (s : State) (hs : s.memOk) (s' : State) (h : execFreezeNDeassert s = .next s') : s'.memOk := by
  unfold execFreezeNDeassert at h; cases h; simp (maxDischargeDepth := 60) (contextual := true) [hs]
theorem execDbgDataRead_memOk (s : State) (hs : s.memOk) (s' : State) (h : execDbgDataRead s = .next s') : s'.memOk := by
  unfold execDbgDataRead at h; cases h; simp (maxDischargeDepth := 60) (contextual := true) [hs]
theorem execTapReset_memOk (s : State) (hs : s.memOk) (s' : State) (h : execTapReset s = .next s') : s'.memOk := by
  unfold execTapReset at h; cases h; simp (maxDischargeDepth := 60) (contextual := true) [hs]
theorem execBypassTap_memOk (tap : Fin 3) (opc : BitVec 8) (s : State) (hs : s.memOk) (s' : State) (h : execBypassTap tap opc s = .next s') : s'.memOk := by
  unfold execBypassTap at h; cases h; simp (maxDischargeDepth := 60) (contextual := true) [hs]
theorem execIdcodeTap_memOk (tap : Fin 3) (s : State) (hs : s.memOk) (s' : State) (h : execIdcodeTap tap s = .next s') : s'.memOk := by
  unfold execIdcodeTap at h; cases h; simp (maxDischargeDepth := 60) (contextual := true) [hs]
theorem execSamplePreload_memOk (tap : Fin 3) (boundary : List Bool) (s : State) (hs : s.memOk) (s' : State) (h : execSamplePreload tap boundary s = .next s') : s'.memOk := by
  unfold execSamplePreload at h; cases h; simp (maxDischargeDepth := 60) (contextual := true) [hs]
theorem execExtest_memOk (tap : Fin 3) (s : State) (hs : s.memOk) (s' : State) (h : execExtest tap s = .next s') : s'.memOk := by
  unfold execExtest at h; cases h; simp (maxDischargeDepth := 60) (contextual := true) [hs]
theorem execClampTap_memOk (tap : Fin 3) (s : State) (hs : s.memOk) (s' : State) (h : execClampTap tap s = .next s') : s'.memOk := by
  unfold execClampTap at h; cases h; simp (maxDischargeDepth := 60) (contextual := true) [hs]
theorem execHighzTap_memOk (tap : Fin 3) (s : State) (hs : s.memOk) (s' : State) (h : execHighzTap tap s = .next s') : s'.memOk := by
  unfold execHighzTap at h; cases h; simp (maxDischargeDepth := 60) (contextual := true) [hs]
theorem execExtestPulse_memOk (tap : Fin 3) (s : State) (hs : s.memOk) (s' : State) (h : execExtestPulse tap s = .next s') : s'.memOk := by
  unfold execExtestPulse at h; cases h; simp (maxDischargeDepth := 60) (contextual := true) [hs]
theorem execExtestTrain_memOk (tap : Fin 3) (s : State) (hs : s.memOk) (s' : State) (h : execExtestTrain tap s = .next s') : s'.memOk := by
  unfold execExtestTrain at h; cases h; simp (maxDischargeDepth := 60) (contextual := true) [hs]
theorem execFrzStatus_memOk (tap : Fin 3) (s : State) (hs : s.memOk) (s' : State) (h : execFrzStatus tap s = .next s') : s'.memOk := by
  unfold execFrzStatus at h; cases h; simp (maxDischargeDepth := 60) (contextual := true) [hs]
theorem execDbgAccess_memOk (tap : Fin 3) (dr : BitVec 168) (s : State) (hs : s.memOk) (s' : State) (h : execDbgAccess tap dr s = .next s') : s'.memOk := by
  unfold execDbgAccess at h; cases h; simp (maxDischargeDepth := 60) (contextual := true) [hs]
theorem execDataFlit_memOk (l : Fin 32) (b : List Byte) (s : State) (hs : s.memOk) (s' : State) (h : execDataFlit l b s = .next s') : s'.memOk := by
  unfold execDataFlit at h; cases h; simp (maxDischargeDepth := 60) (contextual := true) [hs]
theorem execAbortFlit_memOk (l : Fin 32) (b : List Byte) (s : State) (hs : s.memOk) (s' : State) (h : execAbortFlit l b s = .next s') : s'.memOk := by
  unfold execAbortFlit at h; cases h; simp (maxDischargeDepth := 60) (contextual := true) [hs]
theorem execIdleFlit_memOk (l : Fin 32) (b : List Byte) (s : State) (hs : s.memOk) (s' : State) (h : execIdleFlit l b s = .next s') : s'.memOk := by
  unfold execIdleFlit at h; cases h; simp (maxDischargeDepth := 60) (contextual := true) [hs]
theorem execHelloFlit_memOk (l : Fin 32) (b : List Byte) (s : State) (hs : s.memOk) (s' : State) (h : execHelloFlit l b s = .next s') : s'.memOk := by
  unfold execHelloFlit at h; cases h; simp (maxDischargeDepth := 60) (contextual := true) [hs]
theorem execDegradeFlit_memOk (l : Fin 32) (b : List Byte) (s : State) (hs : s.memOk) (s' : State) (h : execDegradeFlit l b s = .next s') : s'.memOk := by
  unfold execDegradeFlit at h; cases h; simp (maxDischargeDepth := 60) (contextual := true) [hs]
theorem execEthFrame_memOk (l : Fin 32) (f : List Byte) (fcsOk : Bool) (s : State) (hs : s.memOk) (s' : State) (h : execEthFrame l f fcsOk s = .next s') : s'.memOk := by
  unfold execEthFrame at h; cases h; simp (maxDischargeDepth := 60) (contextual := true) [hs]
theorem execReplayTimeout_memOk (l : Fin 32) (s : State) (hs : s.memOk) (s' : State) (h : execReplayTimeout l s = .next s') : s'.memOk := by
  unfold execReplayTimeout at h; cases h; simp (maxDischargeDepth := 60) (contextual := true) [hs]
theorem execHelloSend_memOk (l : Fin 32) (s : State) (hs : s.memOk) (s' : State) (h : execHelloSend l s = .next s') : s'.memOk := by
  unfold execHelloSend at h; cases h; simp (maxDischargeDepth := 60) (contextual := true) [hs]
theorem execHelloTimeout_memOk (l : Fin 32) (s : State) (hs : s.memOk) (s' : State) (h : execHelloTimeout l s = .next s') : s'.memOk := by
  unfold execHelloTimeout at h; cases h; simp (maxDischargeDepth := 60) (contextual := true) [hs]
theorem execFlitLockLost_memOk (l : Fin 32) (s : State) (hs : s.memOk) (s' : State) (h : execFlitLockLost l s = .next s') : s'.memOk := by
  unfold execFlitLockLost at h; cases h; simp (maxDischargeDepth := 60) (contextual := true) [hs]
theorem execFlitLockAcquired_memOk (l : Fin 32) (s : State) (hs : s.memOk) (s' : State) (h : execFlitLockAcquired l s = .next s') : s'.memOk := by
  unfold execFlitLockAcquired at h; cases h; simp (maxDischargeDepth := 60) (contextual := true) [hs]
theorem execLaneDegrade_memOk (l : Fin 32) (lanes : ℕ) (errors : Option ℕ) (s : State) (hs : s.memOk) (s' : State) (h : execLaneDegrade l lanes errors s = .next s') : s'.memOk := by
  unfold execLaneDegrade at h; cases h; simp (maxDischargeDepth := 60) (contextual := true) [hs]
theorem execLinkRetrainComplete_memOk (l : Fin 32) (ok : Bool) (s : State) (hs : s.memOk) (s' : State) (h : execLinkRetrainComplete l ok s = .next s') : s'.memOk := by
  unfold execLinkRetrainComplete at h; cases h; simp (maxDischargeDepth := 60) (contextual := true) [hs]
theorem execPacketForward_memOk (l : Fin 32) (vc : Fin 2) (s : State) (hs : s.memOk) (s' : State) (h : execPacketForward l vc s = .next s') : s'.memOk := by
  unfold execPacketForward at h; cases h; simp (maxDischargeDepth := 60) (contextual := true) [hs]
theorem execHeldPacketRelease_memOk (dest : BitVec 16) (s : State) (hs : s.memOk) (s' : State) (h : execHeldPacketRelease dest s = .next s') : s'.memOk := by
  unfold execHeldPacketRelease at h; cases h; simp (maxDischargeDepth := 60) (contextual := true) [hs]
theorem execArrivalBufferDeliver_memOk (die : Fin 2) (s : State) (hs : s.memOk) (s' : State) (h : execArrivalBufferDeliver die s = .next s') : s'.memOk := by
  unfold execArrivalBufferDeliver at h; cases h; simp (maxDischargeDepth := 60) (contextual := true) [hs]
theorem execCableChange_memOk (port : Fin 8) (c : Cable) (s : State) (hs : s.memOk) (s' : State) (h : execCableChange port c s = .next s') : s'.memOk := by
  unfold execCableChange at h; cases h; simp (maxDischargeDepth := 60) (contextual := true) [hs]
theorem execInputUnderVoltage_memOk (s : State) (hs : s.memOk) (s' : State) (h : execInputUnderVoltage s = .next s') : s'.memOk := by
  unfold execInputUnderVoltage at h; cases h; simp (maxDischargeDepth := 60) (contextual := true) [hs]
theorem execInputOverVoltage_memOk (s : State) (hs : s.memOk) (s' : State) (h : execInputOverVoltage s = .next s') : s'.memOk := by
  unfold execInputOverVoltage at h; cases h; simp (maxDischargeDepth := 60) (contextual := true) [hs]
theorem execInputRestored_memOk (s : State) (hs : s.memOk) (s' : State) (h : execInputRestored s = .next s') : s'.memOk := by
  unfold execInputRestored at h; cases h; simp (maxDischargeDepth := 60) (contextual := true) [hs]
theorem execThermalTrip_memOk (die : Fin 2) (s : State) (hs : s.memOk) (s' : State) (h : execThermalTrip die s = .next s') : s'.memOk := by
  unfold execThermalTrip at h; cases h; simp (maxDischargeDepth := 60) (contextual := true) [hs]
theorem execPwrEnHigh_memOk (s : State) (hs : s.memOk) (s' : State) (h : execPwrEnHigh s = .next s') : s'.memOk := by
  unfold execPwrEnHigh at h; cases h; simp (maxDischargeDepth := 60) (contextual := true) [hs]
theorem execPwrEnLow_memOk (s : State) (hs : s.memOk) (s' : State) (h : execPwrEnLow s = .next s') : s'.memOk := by
  unfold execPwrEnLow at h; cases h; simp (maxDischargeDepth := 60) (contextual := true) [hs]
theorem execRailFault_memOk (rail : Fin 8) (s : State) (hs : s.memOk) (s' : State) (h : execRailFault rail s = .next s') : s'.memOk := by
  unfold execRailFault at h; cases h; simp (maxDischargeDepth := 60) (contextual := true) [hs]
theorem execModResetAssert_memOk (s : State) (hs : s.memOk) (s' : State) (h : execModResetAssert s = .next s') : s'.memOk := by
  unfold execModResetAssert at h; cases h; simp (maxDischargeDepth := 60) (contextual := true) [hs]
theorem execInternalResetRelease_memOk (recoveryN : Bool) (sris : Bool) (t1sTerm : Bool) (s : State) (hs : s.memOk) (s' : State) (h : execInternalResetRelease recoveryN sris t1sTerm s = .next s') : s'.memOk := by
  unfold execInternalResetRelease at h; cases h; simp (maxDischargeDepth := 60) (contextual := true) [hs]
theorem execPerstAssert_memOk (s : State) (hs : s.memOk) (s' : State) (h : execPerstAssert s = .next s') : s'.memOk := by
  unfold execPerstAssert at h; cases h; simp (maxDischargeDepth := 60) (contextual := true) [hs]
theorem execPerstDeassert_memOk (s : State) (hs : s.memOk) (s' : State) (h : execPerstDeassert s = .next s') : s'.memOk := by
  unfold execPerstDeassert at h; cases h; simp (maxDischargeDepth := 60) (contextual := true) [hs]
theorem execPowerControlStep_memOk (w : ℕ) (s : State) (hs : s.memOk) (s' : State) (h : execPowerControlStep w s = .next s') : s'.memOk := by
  unfold execPowerControlStep at h; cases h; simp (maxDischargeDepth := 60) (contextual := true) [hs]
theorem execThermalSample_memOk (die : Fin 2) (tj : BitVec 16) (s : State) (hs : s.memOk) (s' : State) (h : execThermalSample die tj s = .next s') : s'.memOk := by
  unfold execThermalSample at h; cases h; simp (maxDischargeDepth := 60) (contextual := true) [hs]
theorem execVcoreUnderVoltage_memOk (die : Fin 2) (s : State) (hs : s.memOk) (s' : State) (h : execVcoreUnderVoltage die s = .next s') : s'.memOk := by
  unfold execVcoreUnderVoltage at h; cases h; simp (maxDischargeDepth := 60) (contextual := true) [hs]
theorem execVcoreRecovery_memOk (die : Fin 2) (s : State) (hs : s.memOk) (s' : State) (h : execVcoreRecovery die s = .next s') : s'.memOk := by
  unfold execVcoreRecovery at h; cases h; simp (maxDischargeDepth := 60) (contextual := true) [hs]
theorem execKeyRevoke_memOk (s : State) (hs : s.memOk) (s' : State) (h : execKeyRevoke s = .next s') : s'.memOk := by
  unfold execKeyRevoke at h; cases h; simp (maxDischargeDepth := 60) (contextual := true) [hs]
theorem execFwStage_memOk (s : State) (hs : s.memOk) (s' : State) (h : execFwStage s = .next s') : s'.memOk := by
  unfold execFwStage at h; cases h; simp (maxDischargeDepth := 60) (contextual := true) [hs]
theorem execFwCommit_memOk (s : State) (hs : s.memOk) (s' : State) (h : execFwCommit s = .next s') : s'.memOk := by
  unfold execFwCommit at h; cases h; simp (maxDischargeDepth := 60) (contextual := true) [hs]
theorem execFwDiscard_memOk (s : State) (hs : s.memOk) (s' : State) (h : execFwDiscard s = .next s') : s'.memOk := by
  unfold execFwDiscard at h; cases h; simp (maxDischargeDepth := 60) (contextual := true) [hs]
theorem execFwSlotWriteComplete_memOk (readback : Bool) (s : State) (hs : s.memOk) (s' : State) (h : execFwSlotWriteComplete readback s = .next s') : s'.memOk := by
  unfold execFwSlotWriteComplete at h; cases h; refine onlyIf_memOk _ _ _ hs (fun hs => ?_); (repeat' split) <;> simp (maxDischargeDepth := 60) (contextual := true) [hs]
theorem execMrExtend_memOk (s : State) (hs : s.memOk) (s' : State) (h : execMrExtend s = .next s') : s'.memOk := by
  unfold execMrExtend at h; cases h; refine State.serve_memOk _ _ _ hs (fun s r p k hs => ?_)
  exact State.whole_memOk _ _ _ _ _ _ hs (State.mrExtend_memOk _ _ hs)
theorem execQuoteNonce_memOk (s : State) (hs : s.memOk) (s' : State) (h : execQuoteNonce s = .next s') : s'.memOk := by
  unfold execQuoteNonce at h; cases h; simp (maxDischargeDepth := 60) (contextual := true) [hs]
theorem execQuoteSigned_memOk (s : State) (hs : s.memOk) (s' : State) (h : execQuoteSigned s = .next s') : s'.memOk := by
  unfold execQuoteSigned at h; cases h; simp (maxDischargeDepth := 60) (contextual := true) [hs]
theorem execAkCertSigned_memOk (s : State) (hs : s.memOk) (s' : State) (h : execAkCertSigned s = .next s') : s'.memOk := by
  unfold execAkCertSigned at h; cases h; simp (maxDischargeDepth := 60) (contextual := true) [hs]
theorem execDbgChallenge_memOk (s : State) (hs : s.memOk) (s' : State) (h : execDbgChallenge s = .next s') : s'.memOk := by
  unfold execDbgChallenge at h; cases h; simp (maxDischargeDepth := 60) (contextual := true) [hs]
theorem execDbgResponse_memOk (s : State) (hs : s.memOk) (s' : State) (h : execDbgResponse s = .next s') : s'.memOk := by
  unfold execDbgResponse at h; cases h; simp (maxDischargeDepth := 60) (contextual := true) [hs]
theorem execBootRun_memOk (b : BootInput) (s : State) (hs : s.memOk) (s' : State) (h : execBootRun b s = .next s') : s'.memOk := by
  unfold execBootRun at h; cases h; simp (maxDischargeDepth := 60) (contextual := true) [hs]
end Sys2Proof.Machine
end

