-- ==== Sys2Proof/Laws/State.lean ====
section
/-! SUPPORT. One lemma per field of State per named update, and what reading a part gives after a change of it. -/

namespace Sys2Proof.Machine

open Sys2Proof

@[simp] theorem State.setCell_pending (s : State) (c : CellIx) (x : Cell) : (s.setCell c x).pending = s.pending := rfl
@[simp] theorem State.setCell_cells (s : State) (c : CellIx) (x : Cell) : (s.setCell c x).cells = SMap.set s.cells c.val x := rfl
@[simp] theorem State.setCell_units (s : State) (c : CellIx) (x : Cell) : (s.setCell c x).units = s.units := rfl
@[simp] theorem State.setCell_mem (s : State) (c : CellIx) (x : Cell) : (s.setCell c x).mem = s.mem := rfl
@[simp] theorem State.setCell_sync (s : State) (c : CellIx) (x : Cell) : (s.setCell c x).sync = s.sync := rfl
@[simp] theorem State.setCell_waiters (s : State) (c : CellIx) (x : Cell) : (s.setCell c x).waiters = s.waiters := rfl
@[simp] theorem State.setCell_evc (s : State) (c : CellIx) (x : Cell) : (s.setCell c x).evc = s.evc := rfl
@[simp] theorem State.setCell_pcie (s : State) (c : CellIx) (x : Cell) : (s.setCell c x).pcie = s.pcie := rfl
@[simp] theorem State.setCell_drv (s : State) (c : CellIx) (x : Cell) : (s.setCell c x).drv = s.drv := rfl
@[simp] theorem State.setCell_net (s : State) (c : CellIx) (x : Cell) : (s.setCell c x).net = s.net := rfl
@[simp] theorem State.setCell_dict (s : State) (c : CellIx) (x : Cell) : (s.setCell c x).dict = s.dict := rfl
@[simp] theorem State.setCell_dbg (s : State) (c : CellIx) (x : Cell) : (s.setCell c x).dbg = s.dbg := rfl
@[simp] theorem State.setCell_sec (s : State) (c : CellIx) (x : Cell) : (s.setCell c x).sec = s.sec := rfl
@[simp] theorem State.setCell_pwr (s : State) (c : CellIx) (x : Cell) : (s.setCell c x).pwr = s.pwr := rfl
@[simp] theorem State.setCell_rel (s : State) (c : CellIx) (x : Cell) : (s.setCell c x).rel = s.rel := rfl
@[simp] theorem State.setCell_conv (s : State) (c : CellIx) (x : Cell) : (s.setCell c x).conv = s.conv := rfl
@[simp] theorem State.setCell_timeHost (s : State) (c : CellIx) (x : Cell) : (s.setCell c x).timeHost = s.timeHost := rfl
@[simp] theorem State.setCell_timeDie0 (s : State) (c : CellIx) (x : Cell) : (s.setCell c x).timeDie0 = s.timeDie0 := rfl
@[simp] theorem State.setCell_timeDie1 (s : State) (c : CellIx) (x : Cell) : (s.setCell c x).timeDie1 = s.timeDie1 := rfl
@[simp] theorem State.setCell_runTime (s : State) (c : CellIx) (x : Cell) : (s.setCell c x).runTime = s.runTime := rfl
@[simp] theorem State.setCell_fifo (s : State) (c : CellIx) (x : Cell) : (s.setCell c x).fifo = s.fifo := rfl
@[simp] theorem State.setCell_free (s : State) (c : CellIx) (x : Cell) : (s.setCell c x).free = s.free := rfl

@[simp] theorem State.modCell_pending (s : State) (c : CellIx) (f : Cell → Cell) : (s.modCell c f).pending = s.pending := rfl
@[simp] theorem State.modCell_cells (s : State) (c : CellIx) (f : Cell → Cell) : (s.modCell c f).cells = SMap.set s.cells c.val (f (s.cell c)) := rfl
@[simp] theorem State.modCell_units (s : State) (c : CellIx) (f : Cell → Cell) : (s.modCell c f).units = s.units := rfl
@[simp] theorem State.modCell_mem (s : State) (c : CellIx) (f : Cell → Cell) : (s.modCell c f).mem = s.mem := rfl
@[simp] theorem State.modCell_sync (s : State) (c : CellIx) (f : Cell → Cell) : (s.modCell c f).sync = s.sync := rfl
@[simp] theorem State.modCell_waiters (s : State) (c : CellIx) (f : Cell → Cell) : (s.modCell c f).waiters = s.waiters := rfl
@[simp] theorem State.modCell_evc (s : State) (c : CellIx) (f : Cell → Cell) : (s.modCell c f).evc = s.evc := rfl
@[simp] theorem State.modCell_pcie (s : State) (c : CellIx) (f : Cell → Cell) : (s.modCell c f).pcie = s.pcie := rfl
@[simp] theorem State.modCell_drv (s : State) (c : CellIx) (f : Cell → Cell) : (s.modCell c f).drv = s.drv := rfl
@[simp] theorem State.modCell_net (s : State) (c : CellIx) (f : Cell → Cell) : (s.modCell c f).net = s.net := rfl
@[simp] theorem State.modCell_dict (s : State) (c : CellIx) (f : Cell → Cell) : (s.modCell c f).dict = s.dict := rfl
@[simp] theorem State.modCell_dbg (s : State) (c : CellIx) (f : Cell → Cell) : (s.modCell c f).dbg = s.dbg := rfl
@[simp] theorem State.modCell_sec (s : State) (c : CellIx) (f : Cell → Cell) : (s.modCell c f).sec = s.sec := rfl
@[simp] theorem State.modCell_pwr (s : State) (c : CellIx) (f : Cell → Cell) : (s.modCell c f).pwr = s.pwr := rfl
@[simp] theorem State.modCell_rel (s : State) (c : CellIx) (f : Cell → Cell) : (s.modCell c f).rel = s.rel := rfl
@[simp] theorem State.modCell_conv (s : State) (c : CellIx) (f : Cell → Cell) : (s.modCell c f).conv = s.conv := rfl
@[simp] theorem State.modCell_timeHost (s : State) (c : CellIx) (f : Cell → Cell) : (s.modCell c f).timeHost = s.timeHost := rfl
@[simp] theorem State.modCell_timeDie0 (s : State) (c : CellIx) (f : Cell → Cell) : (s.modCell c f).timeDie0 = s.timeDie0 := rfl
@[simp] theorem State.modCell_timeDie1 (s : State) (c : CellIx) (f : Cell → Cell) : (s.modCell c f).timeDie1 = s.timeDie1 := rfl
@[simp] theorem State.modCell_runTime (s : State) (c : CellIx) (f : Cell → Cell) : (s.modCell c f).runTime = s.runTime := rfl
@[simp] theorem State.modCell_fifo (s : State) (c : CellIx) (f : Cell → Cell) : (s.modCell c f).fifo = s.fifo := rfl
@[simp] theorem State.modCell_free (s : State) (c : CellIx) (f : Cell → Cell) : (s.modCell c f).free = s.free := rfl

@[simp] theorem State.modSeq_pending (s : State) (c : CellIx) (f : Seq → Seq) : (s.modSeq c f).pending = s.pending := rfl
@[simp] theorem State.modSeq_units (s : State) (c : CellIx) (f : Seq → Seq) : (s.modSeq c f).units = s.units := rfl
@[simp] theorem State.modSeq_mem (s : State) (c : CellIx) (f : Seq → Seq) : (s.modSeq c f).mem = s.mem := rfl
@[simp] theorem State.modSeq_sync (s : State) (c : CellIx) (f : Seq → Seq) : (s.modSeq c f).sync = s.sync := rfl
@[simp] theorem State.modSeq_waiters (s : State) (c : CellIx) (f : Seq → Seq) : (s.modSeq c f).waiters = s.waiters := rfl
@[simp] theorem State.modSeq_evc (s : State) (c : CellIx) (f : Seq → Seq) : (s.modSeq c f).evc = s.evc := rfl
@[simp] theorem State.modSeq_pcie (s : State) (c : CellIx) (f : Seq → Seq) : (s.modSeq c f).pcie = s.pcie := rfl
@[simp] theorem State.modSeq_drv (s : State) (c : CellIx) (f : Seq → Seq) : (s.modSeq c f).drv = s.drv := rfl
@[simp] theorem State.modSeq_net (s : State) (c : CellIx) (f : Seq → Seq) : (s.modSeq c f).net = s.net := rfl
@[simp] theorem State.modSeq_dict (s : State) (c : CellIx) (f : Seq → Seq) : (s.modSeq c f).dict = s.dict := rfl
@[simp] theorem State.modSeq_dbg (s : State) (c : CellIx) (f : Seq → Seq) : (s.modSeq c f).dbg = s.dbg := rfl
@[simp] theorem State.modSeq_sec (s : State) (c : CellIx) (f : Seq → Seq) : (s.modSeq c f).sec = s.sec := rfl
@[simp] theorem State.modSeq_pwr (s : State) (c : CellIx) (f : Seq → Seq) : (s.modSeq c f).pwr = s.pwr := rfl
@[simp] theorem State.modSeq_rel (s : State) (c : CellIx) (f : Seq → Seq) : (s.modSeq c f).rel = s.rel := rfl
@[simp] theorem State.modSeq_conv (s : State) (c : CellIx) (f : Seq → Seq) : (s.modSeq c f).conv = s.conv := rfl
@[simp] theorem State.modSeq_timeHost (s : State) (c : CellIx) (f : Seq → Seq) : (s.modSeq c f).timeHost = s.timeHost := rfl
@[simp] theorem State.modSeq_timeDie0 (s : State) (c : CellIx) (f : Seq → Seq) : (s.modSeq c f).timeDie0 = s.timeDie0 := rfl
@[simp] theorem State.modSeq_timeDie1 (s : State) (c : CellIx) (f : Seq → Seq) : (s.modSeq c f).timeDie1 = s.timeDie1 := rfl
@[simp] theorem State.modSeq_runTime (s : State) (c : CellIx) (f : Seq → Seq) : (s.modSeq c f).runTime = s.runTime := rfl
@[simp] theorem State.modSeq_fifo (s : State) (c : CellIx) (f : Seq → Seq) : (s.modSeq c f).fifo = s.fifo := rfl
@[simp] theorem State.modSeq_free (s : State) (c : CellIx) (f : Seq → Seq) : (s.modSeq c f).free = s.free := rfl

@[simp] theorem State.modUnit_pending (s : State) (k : Nat) (f : UnitState → UnitState) : (s.modUnit k f).pending = s.pending := rfl
@[simp] theorem State.modUnit_cells (s : State) (k : Nat) (f : UnitState → UnitState) : (s.modUnit k f).cells = s.cells := rfl
@[simp] theorem State.modUnit_units (s : State) (k : Nat) (f : UnitState → UnitState) : (s.modUnit k f).units = SMap.set s.units k (f (s.unit k)) := rfl
@[simp] theorem State.modUnit_mem (s : State) (k : Nat) (f : UnitState → UnitState) : (s.modUnit k f).mem = s.mem := rfl
@[simp] theorem State.modUnit_sync (s : State) (k : Nat) (f : UnitState → UnitState) : (s.modUnit k f).sync = s.sync := rfl
@[simp] theorem State.modUnit_waiters (s : State) (k : Nat) (f : UnitState → UnitState) : (s.modUnit k f).waiters = s.waiters := rfl
@[simp] theorem State.modUnit_evc (s : State) (k : Nat) (f : UnitState → UnitState) : (s.modUnit k f).evc = s.evc := rfl
@[simp] theorem State.modUnit_pcie (s : State) (k : Nat) (f : UnitState → UnitState) : (s.modUnit k f).pcie = s.pcie := rfl
@[simp] theorem State.modUnit_drv (s : State) (k : Nat) (f : UnitState → UnitState) : (s.modUnit k f).drv = s.drv := rfl
@[simp] theorem State.modUnit_net (s : State) (k : Nat) (f : UnitState → UnitState) : (s.modUnit k f).net = s.net := rfl
@[simp] theorem State.modUnit_dict (s : State) (k : Nat) (f : UnitState → UnitState) : (s.modUnit k f).dict = s.dict := rfl
@[simp] theorem State.modUnit_dbg (s : State) (k : Nat) (f : UnitState → UnitState) : (s.modUnit k f).dbg = s.dbg := rfl
@[simp] theorem State.modUnit_sec (s : State) (k : Nat) (f : UnitState → UnitState) : (s.modUnit k f).sec = s.sec := rfl
@[simp] theorem State.modUnit_pwr (s : State) (k : Nat) (f : UnitState → UnitState) : (s.modUnit k f).pwr = s.pwr := rfl
@[simp] theorem State.modUnit_rel (s : State) (k : Nat) (f : UnitState → UnitState) : (s.modUnit k f).rel = s.rel := rfl
@[simp] theorem State.modUnit_conv (s : State) (k : Nat) (f : UnitState → UnitState) : (s.modUnit k f).conv = s.conv := rfl
@[simp] theorem State.modUnit_timeHost (s : State) (k : Nat) (f : UnitState → UnitState) : (s.modUnit k f).timeHost = s.timeHost := rfl
@[simp] theorem State.modUnit_timeDie0 (s : State) (k : Nat) (f : UnitState → UnitState) : (s.modUnit k f).timeDie0 = s.timeDie0 := rfl
@[simp] theorem State.modUnit_timeDie1 (s : State) (k : Nat) (f : UnitState → UnitState) : (s.modUnit k f).timeDie1 = s.timeDie1 := rfl
@[simp] theorem State.modUnit_runTime (s : State) (k : Nat) (f : UnitState → UnitState) : (s.modUnit k f).runTime = s.runTime := rfl
@[simp] theorem State.modUnit_fifo (s : State) (k : Nat) (f : UnitState → UnitState) : (s.modUnit k f).fifo = s.fifo := rfl
@[simp] theorem State.modUnit_free (s : State) (k : Nat) (f : UnitState → UnitState) : (s.modUnit k f).free = s.free := rfl

@[simp] theorem State.modDie_pending (s : State) (d : Nat) (f : DieCounters → DieCounters) : (s.modDie d f).pending = s.pending := by unfold State.modDie; split <;> rfl
@[simp] theorem State.modDie_cells (s : State) (d : Nat) (f : DieCounters → DieCounters) : (s.modDie d f).cells = s.cells := by unfold State.modDie; split <;> rfl
@[simp] theorem State.modDie_units (s : State) (d : Nat) (f : DieCounters → DieCounters) : (s.modDie d f).units = s.units := by unfold State.modDie; split <;> rfl
@[simp] theorem State.modDie_sync (s : State) (d : Nat) (f : DieCounters → DieCounters) : (s.modDie d f).sync = s.sync := by unfold State.modDie; split <;> rfl
@[simp] theorem State.modDie_waiters (s : State) (d : Nat) (f : DieCounters → DieCounters) : (s.modDie d f).waiters = s.waiters := by unfold State.modDie; split <;> rfl
@[simp] theorem State.modDie_evc (s : State) (d : Nat) (f : DieCounters → DieCounters) : (s.modDie d f).evc = s.evc := by unfold State.modDie; split <;> rfl
@[simp] theorem State.modDie_pcie (s : State) (d : Nat) (f : DieCounters → DieCounters) : (s.modDie d f).pcie = s.pcie := by unfold State.modDie; split <;> rfl
@[simp] theorem State.modDie_drv (s : State) (d : Nat) (f : DieCounters → DieCounters) : (s.modDie d f).drv = s.drv := by unfold State.modDie; split <;> rfl
@[simp] theorem State.modDie_net (s : State) (d : Nat) (f : DieCounters → DieCounters) : (s.modDie d f).net = s.net := by unfold State.modDie; split <;> rfl
@[simp] theorem State.modDie_dict (s : State) (d : Nat) (f : DieCounters → DieCounters) : (s.modDie d f).dict = s.dict := by unfold State.modDie; split <;> rfl
@[simp] theorem State.modDie_dbg (s : State) (d : Nat) (f : DieCounters → DieCounters) : (s.modDie d f).dbg = s.dbg := by unfold State.modDie; split <;> rfl
@[simp] theorem State.modDie_sec (s : State) (d : Nat) (f : DieCounters → DieCounters) : (s.modDie d f).sec = s.sec := by unfold State.modDie; split <;> rfl
@[simp] theorem State.modDie_pwr (s : State) (d : Nat) (f : DieCounters → DieCounters) : (s.modDie d f).pwr = s.pwr := by unfold State.modDie; split <;> rfl
@[simp] theorem State.modDie_rel (s : State) (d : Nat) (f : DieCounters → DieCounters) : (s.modDie d f).rel = s.rel := by unfold State.modDie; split <;> rfl
@[simp] theorem State.modDie_conv (s : State) (d : Nat) (f : DieCounters → DieCounters) : (s.modDie d f).conv = s.conv := by unfold State.modDie; split <;> rfl
@[simp] theorem State.modDie_timeHost (s : State) (d : Nat) (f : DieCounters → DieCounters) : (s.modDie d f).timeHost = s.timeHost := by unfold State.modDie; split <;> rfl
@[simp] theorem State.modDie_timeDie0 (s : State) (d : Nat) (f : DieCounters → DieCounters) : (s.modDie d f).timeDie0 = s.timeDie0 := by unfold State.modDie; split <;> rfl
@[simp] theorem State.modDie_timeDie1 (s : State) (d : Nat) (f : DieCounters → DieCounters) : (s.modDie d f).timeDie1 = s.timeDie1 := by unfold State.modDie; split <;> rfl
@[simp] theorem State.modDie_runTime (s : State) (d : Nat) (f : DieCounters → DieCounters) : (s.modDie d f).runTime = s.runTime := by unfold State.modDie; split <;> rfl
@[simp] theorem State.modDie_fifo (s : State) (d : Nat) (f : DieCounters → DieCounters) : (s.modDie d f).fifo = s.fifo := by unfold State.modDie; split <;> rfl
@[simp] theorem State.modDie_free (s : State) (d : Nat) (f : DieCounters → DieCounters) : (s.modDie d f).free = s.free := by unfold State.modDie; split <;> rfl

@[simp] theorem State.modDiePower_pending (s : State) (d : Nat) (f : DiePower → DiePower) : (s.modDiePower d f).pending = s.pending := by unfold State.modDiePower; split <;> rfl
@[simp] theorem State.modDiePower_cells (s : State) (d : Nat) (f : DiePower → DiePower) : (s.modDiePower d f).cells = s.cells := by unfold State.modDiePower; split <;> rfl
@[simp] theorem State.modDiePower_units (s : State) (d : Nat) (f : DiePower → DiePower) : (s.modDiePower d f).units = s.units := by unfold State.modDiePower; split <;> rfl
@[simp] theorem State.modDiePower_mem (s : State) (d : Nat) (f : DiePower → DiePower) : (s.modDiePower d f).mem = s.mem := by unfold State.modDiePower; split <;> rfl
@[simp] theorem State.modDiePower_sync (s : State) (d : Nat) (f : DiePower → DiePower) : (s.modDiePower d f).sync = s.sync := by unfold State.modDiePower; split <;> rfl
@[simp] theorem State.modDiePower_waiters (s : State) (d : Nat) (f : DiePower → DiePower) : (s.modDiePower d f).waiters = s.waiters := by unfold State.modDiePower; split <;> rfl
@[simp] theorem State.modDiePower_evc (s : State) (d : Nat) (f : DiePower → DiePower) : (s.modDiePower d f).evc = s.evc := by unfold State.modDiePower; split <;> rfl
@[simp] theorem State.modDiePower_pcie (s : State) (d : Nat) (f : DiePower → DiePower) : (s.modDiePower d f).pcie = s.pcie := by unfold State.modDiePower; split <;> rfl
@[simp] theorem State.modDiePower_drv (s : State) (d : Nat) (f : DiePower → DiePower) : (s.modDiePower d f).drv = s.drv := by unfold State.modDiePower; split <;> rfl
@[simp] theorem State.modDiePower_net (s : State) (d : Nat) (f : DiePower → DiePower) : (s.modDiePower d f).net = s.net := by unfold State.modDiePower; split <;> rfl
@[simp] theorem State.modDiePower_dict (s : State) (d : Nat) (f : DiePower → DiePower) : (s.modDiePower d f).dict = s.dict := by unfold State.modDiePower; split <;> rfl
@[simp] theorem State.modDiePower_dbg (s : State) (d : Nat) (f : DiePower → DiePower) : (s.modDiePower d f).dbg = s.dbg := by unfold State.modDiePower; split <;> rfl
@[simp] theorem State.modDiePower_sec (s : State) (d : Nat) (f : DiePower → DiePower) : (s.modDiePower d f).sec = s.sec := by unfold State.modDiePower; split <;> rfl
@[simp] theorem State.modDiePower_rel (s : State) (d : Nat) (f : DiePower → DiePower) : (s.modDiePower d f).rel = s.rel := by unfold State.modDiePower; split <;> rfl
@[simp] theorem State.modDiePower_conv (s : State) (d : Nat) (f : DiePower → DiePower) : (s.modDiePower d f).conv = s.conv := by unfold State.modDiePower; split <;> rfl
@[simp] theorem State.modDiePower_timeHost (s : State) (d : Nat) (f : DiePower → DiePower) : (s.modDiePower d f).timeHost = s.timeHost := by unfold State.modDiePower; split <;> rfl
@[simp] theorem State.modDiePower_timeDie0 (s : State) (d : Nat) (f : DiePower → DiePower) : (s.modDiePower d f).timeDie0 = s.timeDie0 := by unfold State.modDiePower; split <;> rfl
@[simp] theorem State.modDiePower_timeDie1 (s : State) (d : Nat) (f : DiePower → DiePower) : (s.modDiePower d f).timeDie1 = s.timeDie1 := by unfold State.modDiePower; split <;> rfl
@[simp] theorem State.modDiePower_runTime (s : State) (d : Nat) (f : DiePower → DiePower) : (s.modDiePower d f).runTime = s.runTime := by unfold State.modDiePower; split <;> rfl
@[simp] theorem State.modDiePower_fifo (s : State) (d : Nat) (f : DiePower → DiePower) : (s.modDiePower d f).fifo = s.fifo := by unfold State.modDiePower; split <;> rfl
@[simp] theorem State.modDiePower_free (s : State) (d : Nat) (f : DiePower → DiePower) : (s.modDiePower d f).free = s.free := by unfold State.modDiePower; split <;> rfl

@[simp] theorem State.useFree_pending (s : State) : s.useFree.pending = s.pending := rfl
@[simp] theorem State.useFree_cells (s : State) : s.useFree.cells = s.cells := rfl
@[simp] theorem State.useFree_units (s : State) : s.useFree.units = s.units := rfl
@[simp] theorem State.useFree_mem (s : State) : s.useFree.mem = s.mem := rfl
@[simp] theorem State.useFree_sync (s : State) : s.useFree.sync = s.sync := rfl
@[simp] theorem State.useFree_waiters (s : State) : s.useFree.waiters = s.waiters := rfl
@[simp] theorem State.useFree_evc (s : State) : s.useFree.evc = s.evc := rfl
@[simp] theorem State.useFree_pcie (s : State) : s.useFree.pcie = s.pcie := rfl
@[simp] theorem State.useFree_drv (s : State) : s.useFree.drv = s.drv := rfl
@[simp] theorem State.useFree_net (s : State) : s.useFree.net = s.net := rfl
@[simp] theorem State.useFree_dict (s : State) : s.useFree.dict = s.dict := rfl
@[simp] theorem State.useFree_dbg (s : State) : s.useFree.dbg = s.dbg := rfl
@[simp] theorem State.useFree_sec (s : State) : s.useFree.sec = s.sec := rfl
@[simp] theorem State.useFree_pwr (s : State) : s.useFree.pwr = s.pwr := rfl
@[simp] theorem State.useFree_rel (s : State) : s.useFree.rel = s.rel := rfl
@[simp] theorem State.useFree_conv (s : State) : s.useFree.conv = s.conv := rfl
@[simp] theorem State.useFree_timeHost (s : State) : s.useFree.timeHost = s.timeHost := rfl
@[simp] theorem State.useFree_timeDie0 (s : State) : s.useFree.timeDie0 = s.timeDie0 := rfl
@[simp] theorem State.useFree_timeDie1 (s : State) : s.useFree.timeDie1 = s.timeDie1 := rfl
@[simp] theorem State.useFree_runTime (s : State) : s.useFree.runTime = s.runTime := rfl
@[simp] theorem State.useFree_fifo (s : State) : s.useFree.fifo = s.fifo := rfl
@[simp] theorem State.useFree_free (s : State) : s.useFree.free = s.free + 1 := rfl

@[simp] theorem State.modEvc_pending (s : State) (f : Evc → Evc) : (s.modEvc f).pending = s.pending := rfl
@[simp] theorem State.modEvc_cells (s : State) (f : Evc → Evc) : (s.modEvc f).cells = s.cells := rfl
@[simp] theorem State.modEvc_units (s : State) (f : Evc → Evc) : (s.modEvc f).units = s.units := rfl
@[simp] theorem State.modEvc_mem (s : State) (f : Evc → Evc) : (s.modEvc f).mem = s.mem := rfl
@[simp] theorem State.modEvc_sync (s : State) (f : Evc → Evc) : (s.modEvc f).sync = s.sync := rfl
@[simp] theorem State.modEvc_waiters (s : State) (f : Evc → Evc) : (s.modEvc f).waiters = s.waiters := rfl
@[simp] theorem State.modEvc_evc (s : State) (f : Evc → Evc) : (s.modEvc f).evc = f s.evc := rfl
@[simp] theorem State.modEvc_pcie (s : State) (f : Evc → Evc) : (s.modEvc f).pcie = s.pcie := rfl
@[simp] theorem State.modEvc_drv (s : State) (f : Evc → Evc) : (s.modEvc f).drv = s.drv := rfl
@[simp] theorem State.modEvc_net (s : State) (f : Evc → Evc) : (s.modEvc f).net = s.net := rfl
@[simp] theorem State.modEvc_dict (s : State) (f : Evc → Evc) : (s.modEvc f).dict = s.dict := rfl
@[simp] theorem State.modEvc_dbg (s : State) (f : Evc → Evc) : (s.modEvc f).dbg = s.dbg := rfl
@[simp] theorem State.modEvc_sec (s : State) (f : Evc → Evc) : (s.modEvc f).sec = s.sec := rfl
@[simp] theorem State.modEvc_pwr (s : State) (f : Evc → Evc) : (s.modEvc f).pwr = s.pwr := rfl
@[simp] theorem State.modEvc_rel (s : State) (f : Evc → Evc) : (s.modEvc f).rel = s.rel := rfl
@[simp] theorem State.modEvc_conv (s : State) (f : Evc → Evc) : (s.modEvc f).conv = s.conv := rfl
@[simp] theorem State.modEvc_timeHost (s : State) (f : Evc → Evc) : (s.modEvc f).timeHost = s.timeHost := rfl
@[simp] theorem State.modEvc_timeDie0 (s : State) (f : Evc → Evc) : (s.modEvc f).timeDie0 = s.timeDie0 := rfl
@[simp] theorem State.modEvc_timeDie1 (s : State) (f : Evc → Evc) : (s.modEvc f).timeDie1 = s.timeDie1 := rfl
@[simp] theorem State.modEvc_runTime (s : State) (f : Evc → Evc) : (s.modEvc f).runTime = s.runTime := rfl
@[simp] theorem State.modEvc_fifo (s : State) (f : Evc → Evc) : (s.modEvc f).fifo = s.fifo := rfl
@[simp] theorem State.modEvc_free (s : State) (f : Evc → Evc) : (s.modEvc f).free = s.free := rfl

@[simp] theorem State.modHart_pending (s : State) (h : Nat) (f : Hart → Hart) : (s.modHart h f).pending = s.pending := rfl
@[simp] theorem State.modHart_cells (s : State) (h : Nat) (f : Hart → Hart) : (s.modHart h f).cells = s.cells := rfl
@[simp] theorem State.modHart_units (s : State) (h : Nat) (f : Hart → Hart) : (s.modHart h f).units = s.units := rfl
@[simp] theorem State.modHart_mem (s : State) (h : Nat) (f : Hart → Hart) : (s.modHart h f).mem = s.mem := rfl
@[simp] theorem State.modHart_sync (s : State) (h : Nat) (f : Hart → Hart) : (s.modHart h f).sync = s.sync := rfl
@[simp] theorem State.modHart_waiters (s : State) (h : Nat) (f : Hart → Hart) : (s.modHart h f).waiters = s.waiters := rfl
@[simp] theorem State.modHart_evc (s : State) (h : Nat) (f : Hart → Hart) : (s.modHart h f).evc = s.evc.modHart h f := rfl
@[simp] theorem State.modHart_pcie (s : State) (h : Nat) (f : Hart → Hart) : (s.modHart h f).pcie = s.pcie := rfl
@[simp] theorem State.modHart_drv (s : State) (h : Nat) (f : Hart → Hart) : (s.modHart h f).drv = s.drv := rfl
@[simp] theorem State.modHart_net (s : State) (h : Nat) (f : Hart → Hart) : (s.modHart h f).net = s.net := rfl
@[simp] theorem State.modHart_dict (s : State) (h : Nat) (f : Hart → Hart) : (s.modHart h f).dict = s.dict := rfl
@[simp] theorem State.modHart_dbg (s : State) (h : Nat) (f : Hart → Hart) : (s.modHart h f).dbg = s.dbg := rfl
@[simp] theorem State.modHart_sec (s : State) (h : Nat) (f : Hart → Hart) : (s.modHart h f).sec = s.sec := rfl
@[simp] theorem State.modHart_pwr (s : State) (h : Nat) (f : Hart → Hart) : (s.modHart h f).pwr = s.pwr := rfl
@[simp] theorem State.modHart_rel (s : State) (h : Nat) (f : Hart → Hart) : (s.modHart h f).rel = s.rel := rfl
@[simp] theorem State.modHart_conv (s : State) (h : Nat) (f : Hart → Hart) : (s.modHart h f).conv = s.conv := rfl
@[simp] theorem State.modHart_timeHost (s : State) (h : Nat) (f : Hart → Hart) : (s.modHart h f).timeHost = s.timeHost := rfl
@[simp] theorem State.modHart_timeDie0 (s : State) (h : Nat) (f : Hart → Hart) : (s.modHart h f).timeDie0 = s.timeDie0 := rfl
@[simp] theorem State.modHart_timeDie1 (s : State) (h : Nat) (f : Hart → Hart) : (s.modHart h f).timeDie1 = s.timeDie1 := rfl
@[simp] theorem State.modHart_runTime (s : State) (h : Nat) (f : Hart → Hart) : (s.modHart h f).runTime = s.runTime := rfl
@[simp] theorem State.modHart_fifo (s : State) (h : Nat) (f : Hart → Hart) : (s.modHart h f).fifo = s.fifo := rfl
@[simp] theorem State.modHart_free (s : State) (h : Nat) (f : Hart → Hart) : (s.modHart h f).free = s.free := rfl

@[simp] theorem State.modDrv_pending (s : State) (f : Driver → Driver) : (s.modDrv f).pending = s.pending := rfl
@[simp] theorem State.modDrv_cells (s : State) (f : Driver → Driver) : (s.modDrv f).cells = s.cells := rfl
@[simp] theorem State.modDrv_units (s : State) (f : Driver → Driver) : (s.modDrv f).units = s.units := rfl
@[simp] theorem State.modDrv_mem (s : State) (f : Driver → Driver) : (s.modDrv f).mem = s.mem := rfl
@[simp] theorem State.modDrv_sync (s : State) (f : Driver → Driver) : (s.modDrv f).sync = s.sync := rfl
@[simp] theorem State.modDrv_waiters (s : State) (f : Driver → Driver) : (s.modDrv f).waiters = s.waiters := rfl
@[simp] theorem State.modDrv_evc (s : State) (f : Driver → Driver) : (s.modDrv f).evc = s.evc := rfl
@[simp] theorem State.modDrv_pcie (s : State) (f : Driver → Driver) : (s.modDrv f).pcie = s.pcie := rfl
@[simp] theorem State.modDrv_drv (s : State) (f : Driver → Driver) : (s.modDrv f).drv = f s.drv := rfl
@[simp] theorem State.modDrv_net (s : State) (f : Driver → Driver) : (s.modDrv f).net = s.net := rfl
@[simp] theorem State.modDrv_dict (s : State) (f : Driver → Driver) : (s.modDrv f).dict = s.dict := rfl
@[simp] theorem State.modDrv_dbg (s : State) (f : Driver → Driver) : (s.modDrv f).dbg = s.dbg := rfl
@[simp] theorem State.modDrv_sec (s : State) (f : Driver → Driver) : (s.modDrv f).sec = s.sec := rfl
@[simp] theorem State.modDrv_pwr (s : State) (f : Driver → Driver) : (s.modDrv f).pwr = s.pwr := rfl
@[simp] theorem State.modDrv_rel (s : State) (f : Driver → Driver) : (s.modDrv f).rel = s.rel := rfl
@[simp] theorem State.modDrv_conv (s : State) (f : Driver → Driver) : (s.modDrv f).conv = s.conv := rfl
@[simp] theorem State.modDrv_timeHost (s : State) (f : Driver → Driver) : (s.modDrv f).timeHost = s.timeHost := rfl
@[simp] theorem State.modDrv_timeDie0 (s : State) (f : Driver → Driver) : (s.modDrv f).timeDie0 = s.timeDie0 := rfl
@[simp] theorem State.modDrv_timeDie1 (s : State) (f : Driver → Driver) : (s.modDrv f).timeDie1 = s.timeDie1 := rfl
@[simp] theorem State.modDrv_runTime (s : State) (f : Driver → Driver) : (s.modDrv f).runTime = s.runTime := rfl
@[simp] theorem State.modDrv_fifo (s : State) (f : Driver → Driver) : (s.modDrv f).fifo = s.fifo := rfl
@[simp] theorem State.modDrv_free (s : State) (f : Driver → Driver) : (s.modDrv f).free = s.free := rfl

@[simp] theorem State.setJob_pending (s : State) (j : JobRec) : (s.setJob j).pending = s.pending := rfl
@[simp] theorem State.setJob_cells (s : State) (j : JobRec) : (s.setJob j).cells = s.cells := rfl
@[simp] theorem State.setJob_units (s : State) (j : JobRec) : (s.setJob j).units = s.units := rfl
@[simp] theorem State.setJob_mem (s : State) (j : JobRec) : (s.setJob j).mem = s.mem := rfl
@[simp] theorem State.setJob_sync (s : State) (j : JobRec) : (s.setJob j).sync = s.sync := rfl
@[simp] theorem State.setJob_waiters (s : State) (j : JobRec) : (s.setJob j).waiters = s.waiters := rfl
@[simp] theorem State.setJob_evc (s : State) (j : JobRec) : (s.setJob j).evc = s.evc := rfl
@[simp] theorem State.setJob_pcie (s : State) (j : JobRec) : (s.setJob j).pcie = s.pcie := rfl
@[simp] theorem State.setJob_net (s : State) (j : JobRec) : (s.setJob j).net = s.net := rfl
@[simp] theorem State.setJob_dict (s : State) (j : JobRec) : (s.setJob j).dict = s.dict := rfl
@[simp] theorem State.setJob_dbg (s : State) (j : JobRec) : (s.setJob j).dbg = s.dbg := rfl
@[simp] theorem State.setJob_sec (s : State) (j : JobRec) : (s.setJob j).sec = s.sec := rfl
@[simp] theorem State.setJob_pwr (s : State) (j : JobRec) : (s.setJob j).pwr = s.pwr := rfl
@[simp] theorem State.setJob_rel (s : State) (j : JobRec) : (s.setJob j).rel = s.rel := rfl
@[simp] theorem State.setJob_conv (s : State) (j : JobRec) : (s.setJob j).conv = s.conv := rfl
@[simp] theorem State.setJob_timeHost (s : State) (j : JobRec) : (s.setJob j).timeHost = s.timeHost := rfl
@[simp] theorem State.setJob_timeDie0 (s : State) (j : JobRec) : (s.setJob j).timeDie0 = s.timeDie0 := rfl
@[simp] theorem State.setJob_timeDie1 (s : State) (j : JobRec) : (s.setJob j).timeDie1 = s.timeDie1 := rfl
@[simp] theorem State.setJob_runTime (s : State) (j : JobRec) : (s.setJob j).runTime = s.runTime := rfl
@[simp] theorem State.setJob_fifo (s : State) (j : JobRec) : (s.setJob j).fifo = s.fifo := rfl
@[simp] theorem State.setJob_free (s : State) (j : JobRec) : (s.setJob j).free = s.free := rfl

@[simp] theorem State.modStream_pending (s : State) (i : Nat) (f : Stream → Stream) : (s.modStream i f).pending = s.pending := rfl
@[simp] theorem State.modStream_cells (s : State) (i : Nat) (f : Stream → Stream) : (s.modStream i f).cells = s.cells := rfl
@[simp] theorem State.modStream_units (s : State) (i : Nat) (f : Stream → Stream) : (s.modStream i f).units = s.units := rfl
@[simp] theorem State.modStream_mem (s : State) (i : Nat) (f : Stream → Stream) : (s.modStream i f).mem = s.mem := rfl
@[simp] theorem State.modStream_sync (s : State) (i : Nat) (f : Stream → Stream) : (s.modStream i f).sync = s.sync := rfl
@[simp] theorem State.modStream_waiters (s : State) (i : Nat) (f : Stream → Stream) : (s.modStream i f).waiters = s.waiters := rfl
@[simp] theorem State.modStream_evc (s : State) (i : Nat) (f : Stream → Stream) : (s.modStream i f).evc = s.evc := rfl
@[simp] theorem State.modStream_drv (s : State) (i : Nat) (f : Stream → Stream) : (s.modStream i f).drv = s.drv := rfl
@[simp] theorem State.modStream_net (s : State) (i : Nat) (f : Stream → Stream) : (s.modStream i f).net = s.net := rfl
@[simp] theorem State.modStream_dict (s : State) (i : Nat) (f : Stream → Stream) : (s.modStream i f).dict = s.dict := rfl
@[simp] theorem State.modStream_dbg (s : State) (i : Nat) (f : Stream → Stream) : (s.modStream i f).dbg = s.dbg := rfl
@[simp] theorem State.modStream_sec (s : State) (i : Nat) (f : Stream → Stream) : (s.modStream i f).sec = s.sec := rfl
@[simp] theorem State.modStream_pwr (s : State) (i : Nat) (f : Stream → Stream) : (s.modStream i f).pwr = s.pwr := rfl
@[simp] theorem State.modStream_rel (s : State) (i : Nat) (f : Stream → Stream) : (s.modStream i f).rel = s.rel := rfl
@[simp] theorem State.modStream_conv (s : State) (i : Nat) (f : Stream → Stream) : (s.modStream i f).conv = s.conv := rfl
@[simp] theorem State.modStream_timeHost (s : State) (i : Nat) (f : Stream → Stream) : (s.modStream i f).timeHost = s.timeHost := rfl
@[simp] theorem State.modStream_timeDie0 (s : State) (i : Nat) (f : Stream → Stream) : (s.modStream i f).timeDie0 = s.timeDie0 := rfl
@[simp] theorem State.modStream_timeDie1 (s : State) (i : Nat) (f : Stream → Stream) : (s.modStream i f).timeDie1 = s.timeDie1 := rfl
@[simp] theorem State.modStream_runTime (s : State) (i : Nat) (f : Stream → Stream) : (s.modStream i f).runTime = s.runTime := rfl
@[simp] theorem State.modStream_fifo (s : State) (i : Nat) (f : Stream → Stream) : (s.modStream i f).fifo = s.fifo := rfl
@[simp] theorem State.modStream_free (s : State) (i : Nat) (f : Stream → Stream) : (s.modStream i f).free = s.free := rfl

@[simp] theorem State.modDict_pending (s : State) (f : Dict → Dict) : (s.modDict f).pending = s.pending := rfl
@[simp] theorem State.modDict_cells (s : State) (f : Dict → Dict) : (s.modDict f).cells = s.cells := rfl
@[simp] theorem State.modDict_units (s : State) (f : Dict → Dict) : (s.modDict f).units = s.units := rfl
@[simp] theorem State.modDict_mem (s : State) (f : Dict → Dict) : (s.modDict f).mem = s.mem := rfl
@[simp] theorem State.modDict_sync (s : State) (f : Dict → Dict) : (s.modDict f).sync = s.sync := rfl
@[simp] theorem State.modDict_waiters (s : State) (f : Dict → Dict) : (s.modDict f).waiters = s.waiters := rfl
@[simp] theorem State.modDict_evc (s : State) (f : Dict → Dict) : (s.modDict f).evc = s.evc := rfl
@[simp] theorem State.modDict_pcie (s : State) (f : Dict → Dict) : (s.modDict f).pcie = s.pcie := rfl
@[simp] theorem State.modDict_drv (s : State) (f : Dict → Dict) : (s.modDict f).drv = s.drv := rfl
@[simp] theorem State.modDict_net (s : State) (f : Dict → Dict) : (s.modDict f).net = s.net := rfl
@[simp] theorem State.modDict_dict (s : State) (f : Dict → Dict) : (s.modDict f).dict = f s.dict := rfl
@[simp] theorem State.modDict_dbg (s : State) (f : Dict → Dict) : (s.modDict f).dbg = s.dbg := rfl
@[simp] theorem State.modDict_sec (s : State) (f : Dict → Dict) : (s.modDict f).sec = s.sec := rfl
@[simp] theorem State.modDict_pwr (s : State) (f : Dict → Dict) : (s.modDict f).pwr = s.pwr := rfl
@[simp] theorem State.modDict_rel (s : State) (f : Dict → Dict) : (s.modDict f).rel = s.rel := rfl
@[simp] theorem State.modDict_conv (s : State) (f : Dict → Dict) : (s.modDict f).conv = s.conv := rfl
@[simp] theorem State.modDict_timeHost (s : State) (f : Dict → Dict) : (s.modDict f).timeHost = s.timeHost := rfl
@[simp] theorem State.modDict_timeDie0 (s : State) (f : Dict → Dict) : (s.modDict f).timeDie0 = s.timeDie0 := rfl
@[simp] theorem State.modDict_timeDie1 (s : State) (f : Dict → Dict) : (s.modDict f).timeDie1 = s.timeDie1 := rfl
@[simp] theorem State.modDict_runTime (s : State) (f : Dict → Dict) : (s.modDict f).runTime = s.runTime := rfl
@[simp] theorem State.modDict_fifo (s : State) (f : Dict → Dict) : (s.modDict f).fifo = s.fifo := rfl
@[simp] theorem State.modDict_free (s : State) (f : Dict → Dict) : (s.modDict f).free = s.free := rfl

@[simp] theorem State.modTap_pending (s : State) (i : Nat) (f : Tap → Tap) : (s.modTap i f).pending = s.pending := rfl
@[simp] theorem State.modTap_cells (s : State) (i : Nat) (f : Tap → Tap) : (s.modTap i f).cells = s.cells := rfl
@[simp] theorem State.modTap_units (s : State) (i : Nat) (f : Tap → Tap) : (s.modTap i f).units = s.units := rfl
@[simp] theorem State.modTap_mem (s : State) (i : Nat) (f : Tap → Tap) : (s.modTap i f).mem = s.mem := rfl
@[simp] theorem State.modTap_sync (s : State) (i : Nat) (f : Tap → Tap) : (s.modTap i f).sync = s.sync := rfl
@[simp] theorem State.modTap_waiters (s : State) (i : Nat) (f : Tap → Tap) : (s.modTap i f).waiters = s.waiters := rfl
@[simp] theorem State.modTap_evc (s : State) (i : Nat) (f : Tap → Tap) : (s.modTap i f).evc = s.evc := rfl
@[simp] theorem State.modTap_pcie (s : State) (i : Nat) (f : Tap → Tap) : (s.modTap i f).pcie = s.pcie := rfl
@[simp] theorem State.modTap_drv (s : State) (i : Nat) (f : Tap → Tap) : (s.modTap i f).drv = s.drv := rfl
@[simp] theorem State.modTap_net (s : State) (i : Nat) (f : Tap → Tap) : (s.modTap i f).net = s.net := rfl
@[simp] theorem State.modTap_dict (s : State) (i : Nat) (f : Tap → Tap) : (s.modTap i f).dict = s.dict := rfl
@[simp] theorem State.modTap_sec (s : State) (i : Nat) (f : Tap → Tap) : (s.modTap i f).sec = s.sec := rfl
@[simp] theorem State.modTap_pwr (s : State) (i : Nat) (f : Tap → Tap) : (s.modTap i f).pwr = s.pwr := rfl
@[simp] theorem State.modTap_rel (s : State) (i : Nat) (f : Tap → Tap) : (s.modTap i f).rel = s.rel := rfl
@[simp] theorem State.modTap_conv (s : State) (i : Nat) (f : Tap → Tap) : (s.modTap i f).conv = s.conv := rfl
@[simp] theorem State.modTap_timeHost (s : State) (i : Nat) (f : Tap → Tap) : (s.modTap i f).timeHost = s.timeHost := rfl
@[simp] theorem State.modTap_timeDie0 (s : State) (i : Nat) (f : Tap → Tap) : (s.modTap i f).timeDie0 = s.timeDie0 := rfl
@[simp] theorem State.modTap_timeDie1 (s : State) (i : Nat) (f : Tap → Tap) : (s.modTap i f).timeDie1 = s.timeDie1 := rfl
@[simp] theorem State.modTap_runTime (s : State) (i : Nat) (f : Tap → Tap) : (s.modTap i f).runTime = s.runTime := rfl
@[simp] theorem State.modTap_fifo (s : State) (i : Nat) (f : Tap → Tap) : (s.modTap i f).fifo = s.fifo := rfl
@[simp] theorem State.modTap_free (s : State) (i : Nat) (f : Tap → Tap) : (s.modTap i f).free = s.free := rfl

@[simp] theorem State.modLink_pending (s : State) (l : Nat) (f : Link → Link) : (s.modLink l f).pending = s.pending := rfl
@[simp] theorem State.modLink_cells (s : State) (l : Nat) (f : Link → Link) : (s.modLink l f).cells = s.cells := rfl
@[simp] theorem State.modLink_units (s : State) (l : Nat) (f : Link → Link) : (s.modLink l f).units = s.units := rfl
@[simp] theorem State.modLink_mem (s : State) (l : Nat) (f : Link → Link) : (s.modLink l f).mem = s.mem := rfl
@[simp] theorem State.modLink_sync (s : State) (l : Nat) (f : Link → Link) : (s.modLink l f).sync = s.sync := rfl
@[simp] theorem State.modLink_waiters (s : State) (l : Nat) (f : Link → Link) : (s.modLink l f).waiters = s.waiters := rfl
@[simp] theorem State.modLink_evc (s : State) (l : Nat) (f : Link → Link) : (s.modLink l f).evc = s.evc := rfl
@[simp] theorem State.modLink_pcie (s : State) (l : Nat) (f : Link → Link) : (s.modLink l f).pcie = s.pcie := rfl
@[simp] theorem State.modLink_drv (s : State) (l : Nat) (f : Link → Link) : (s.modLink l f).drv = s.drv := rfl
@[simp] theorem State.modLink_net (s : State) (l : Nat) (f : Link → Link) : (s.modLink l f).net = s.net.setLink l (f (s.net.link l)) := rfl
@[simp] theorem State.modLink_dict (s : State) (l : Nat) (f : Link → Link) : (s.modLink l f).dict = s.dict := rfl
@[simp] theorem State.modLink_dbg (s : State) (l : Nat) (f : Link → Link) : (s.modLink l f).dbg = s.dbg := rfl
@[simp] theorem State.modLink_sec (s : State) (l : Nat) (f : Link → Link) : (s.modLink l f).sec = s.sec := rfl
@[simp] theorem State.modLink_pwr (s : State) (l : Nat) (f : Link → Link) : (s.modLink l f).pwr = s.pwr := rfl
@[simp] theorem State.modLink_rel (s : State) (l : Nat) (f : Link → Link) : (s.modLink l f).rel = s.rel := rfl
@[simp] theorem State.modLink_conv (s : State) (l : Nat) (f : Link → Link) : (s.modLink l f).conv = s.conv := rfl
@[simp] theorem State.modLink_timeHost (s : State) (l : Nat) (f : Link → Link) : (s.modLink l f).timeHost = s.timeHost := rfl
@[simp] theorem State.modLink_timeDie0 (s : State) (l : Nat) (f : Link → Link) : (s.modLink l f).timeDie0 = s.timeDie0 := rfl
@[simp] theorem State.modLink_timeDie1 (s : State) (l : Nat) (f : Link → Link) : (s.modLink l f).timeDie1 = s.timeDie1 := rfl
@[simp] theorem State.modLink_runTime (s : State) (l : Nat) (f : Link → Link) : (s.modLink l f).runTime = s.runTime := rfl
@[simp] theorem State.modLink_fifo (s : State) (l : Nat) (f : Link → Link) : (s.modLink l f).fifo = s.fifo := rfl
@[simp] theorem State.modLink_free (s : State) (l : Nat) (f : Link → Link) : (s.modLink l f).free = s.free := rfl

@[simp] theorem State.modPwr_pending (s : State) (f : Power → Power) : (s.modPwr f).pending = s.pending := rfl
@[simp] theorem State.modPwr_cells (s : State) (f : Power → Power) : (s.modPwr f).cells = s.cells := rfl
@[simp] theorem State.modPwr_units (s : State) (f : Power → Power) : (s.modPwr f).units = s.units := rfl
@[simp] theorem State.modPwr_mem (s : State) (f : Power → Power) : (s.modPwr f).mem = s.mem := rfl
@[simp] theorem State.modPwr_sync (s : State) (f : Power → Power) : (s.modPwr f).sync = s.sync := rfl
@[simp] theorem State.modPwr_waiters (s : State) (f : Power → Power) : (s.modPwr f).waiters = s.waiters := rfl
@[simp] theorem State.modPwr_evc (s : State) (f : Power → Power) : (s.modPwr f).evc = s.evc := rfl
@[simp] theorem State.modPwr_pcie (s : State) (f : Power → Power) : (s.modPwr f).pcie = s.pcie := rfl
@[simp] theorem State.modPwr_drv (s : State) (f : Power → Power) : (s.modPwr f).drv = s.drv := rfl
@[simp] theorem State.modPwr_net (s : State) (f : Power → Power) : (s.modPwr f).net = s.net := rfl
@[simp] theorem State.modPwr_dict (s : State) (f : Power → Power) : (s.modPwr f).dict = s.dict := rfl
@[simp] theorem State.modPwr_dbg (s : State) (f : Power → Power) : (s.modPwr f).dbg = s.dbg := rfl
@[simp] theorem State.modPwr_sec (s : State) (f : Power → Power) : (s.modPwr f).sec = s.sec := rfl
@[simp] theorem State.modPwr_pwr (s : State) (f : Power → Power) : (s.modPwr f).pwr = f s.pwr := rfl
@[simp] theorem State.modPwr_rel (s : State) (f : Power → Power) : (s.modPwr f).rel = s.rel := rfl
@[simp] theorem State.modPwr_conv (s : State) (f : Power → Power) : (s.modPwr f).conv = s.conv := rfl
@[simp] theorem State.modPwr_timeHost (s : State) (f : Power → Power) : (s.modPwr f).timeHost = s.timeHost := rfl
@[simp] theorem State.modPwr_timeDie0 (s : State) (f : Power → Power) : (s.modPwr f).timeDie0 = s.timeDie0 := rfl
@[simp] theorem State.modPwr_timeDie1 (s : State) (f : Power → Power) : (s.modPwr f).timeDie1 = s.timeDie1 := rfl
@[simp] theorem State.modPwr_runTime (s : State) (f : Power → Power) : (s.modPwr f).runTime = s.runTime := rfl
@[simp] theorem State.modPwr_fifo (s : State) (f : Power → Power) : (s.modPwr f).fifo = s.fifo := rfl
@[simp] theorem State.modPwr_free (s : State) (f : Power → Power) : (s.modPwr f).free = s.free := rfl

@[simp] theorem State.modSec_pending (s : State) (f : Sec → Sec) : (s.modSec f).pending = s.pending := rfl
@[simp] theorem State.modSec_cells (s : State) (f : Sec → Sec) : (s.modSec f).cells = s.cells := rfl
@[simp] theorem State.modSec_units (s : State) (f : Sec → Sec) : (s.modSec f).units = s.units := rfl
@[simp] theorem State.modSec_mem (s : State) (f : Sec → Sec) : (s.modSec f).mem = s.mem := rfl
@[simp] theorem State.modSec_sync (s : State) (f : Sec → Sec) : (s.modSec f).sync = s.sync := rfl
@[simp] theorem State.modSec_waiters (s : State) (f : Sec → Sec) : (s.modSec f).waiters = s.waiters := rfl
@[simp] theorem State.modSec_evc (s : State) (f : Sec → Sec) : (s.modSec f).evc = s.evc := rfl
@[simp] theorem State.modSec_pcie (s : State) (f : Sec → Sec) : (s.modSec f).pcie = s.pcie := rfl
@[simp] theorem State.modSec_drv (s : State) (f : Sec → Sec) : (s.modSec f).drv = s.drv := rfl
@[simp] theorem State.modSec_net (s : State) (f : Sec → Sec) : (s.modSec f).net = s.net := rfl
@[simp] theorem State.modSec_dict (s : State) (f : Sec → Sec) : (s.modSec f).dict = s.dict := rfl
@[simp] theorem State.modSec_dbg (s : State) (f : Sec → Sec) : (s.modSec f).dbg = s.dbg := rfl
@[simp] theorem State.modSec_sec (s : State) (f : Sec → Sec) : (s.modSec f).sec = f s.sec := rfl
@[simp] theorem State.modSec_pwr (s : State) (f : Sec → Sec) : (s.modSec f).pwr = s.pwr := rfl
@[simp] theorem State.modSec_rel (s : State) (f : Sec → Sec) : (s.modSec f).rel = s.rel := rfl
@[simp] theorem State.modSec_conv (s : State) (f : Sec → Sec) : (s.modSec f).conv = s.conv := rfl
@[simp] theorem State.modSec_timeHost (s : State) (f : Sec → Sec) : (s.modSec f).timeHost = s.timeHost := rfl
@[simp] theorem State.modSec_timeDie0 (s : State) (f : Sec → Sec) : (s.modSec f).timeDie0 = s.timeDie0 := rfl
@[simp] theorem State.modSec_timeDie1 (s : State) (f : Sec → Sec) : (s.modSec f).timeDie1 = s.timeDie1 := rfl
@[simp] theorem State.modSec_runTime (s : State) (f : Sec → Sec) : (s.modSec f).runTime = s.runTime := rfl
@[simp] theorem State.modSec_fifo (s : State) (f : Sec → Sec) : (s.modSec f).fifo = s.fifo := rfl
@[simp] theorem State.modSec_free (s : State) (f : Sec → Sec) : (s.modSec f).free = s.free := rfl

/-! ### Reading a part after a change of it -/

@[simp] theorem State.cell_setCell (s : State) (c : CellIx) (x : Cell) : (s.setCell c x).cell c = x := by
  simp [State.cell, State.setCell]
theorem State.cell_setCell_ne (s : State) (c d : CellIx) (x : Cell) (h : d ≠ c) : (s.setCell c x).cell d = s.cell d := by
  have h' : d.val ≠ c.val := fun e => h (Fin.ext e)
  simp [State.cell, State.setCell, SMap.getD_set, Ne.symm h', h']
@[simp] theorem State.cell_modCell (s : State) (c : CellIx) (f : Cell → Cell) : (s.modCell c f).cell c = f (s.cell c) := by
  simp [State.modCell]
theorem State.cell_modCell_ne (s : State) (c d : CellIx) (f : Cell → Cell) (h : d ≠ c) : (s.modCell c f).cell d = s.cell d :=
  State.cell_setCell_ne s c d _ h
@[simp] theorem State.cell_modSeq (s : State) (c : CellIx) (f : Seq → Seq) :
    (s.modSeq c f).cell c = { s.cell c with seq := f (s.cell c).seq } := by simp [State.modSeq]
theorem State.cell_modSeq_ne (s : State) (c d : CellIx) (f : Seq → Seq) (h : d ≠ c) : (s.modSeq c f).cell d = s.cell d :=
  State.cell_modCell_ne s c d _ h
@[simp] theorem State.unit_modUnit (s : State) (k : Nat) (f : UnitState → UnitState) : (s.modUnit k f).unit k = f (s.unit k) := by
  simp [State.unit, State.modUnit]
theorem State.unit_modUnit_ne (s : State) (k j : Nat) (f : UnitState → UnitState) (h : j ≠ k) :
    (s.modUnit k f).unit j = s.unit j := by
  simp [State.unit, State.modUnit, SMap.getD_set, Ne.symm h, h]
@[simp] theorem State.stream_modStream (s : State) (i : Nat) (f : Stream → Stream) :
    (s.modStream i f).stream i = f (s.stream i) := by
  simp [State.stream, State.modStream, Pcie.stream]

end Sys2Proof.Machine
end

