-- ==== Sys2Proof/Laws/Issue.lean ====
section
/-! SUPPORT. What issuing an instruction, starting an operation, sending a message and answering a command change. -/

namespace Sys2Proof.Machine

open Sys2Proof Sys2Proof.Claims

theorem SMap.set_set {α : Type} (m : SMap α) (i : Nat) (v w : α) : SMap.set (SMap.set m i v) i w = SMap.set m i w := by
  induction m with
  | nil => simp [SMap.set]
  | cons p t ih =>
    obtain ⟨k, u⟩ := p
    simp only [SMap.set]
    split_ifs <;> simp_all [SMap.set]

@[simp] theorem State.setCell_setCell (s : State) (c : CellIx) (x y : Cell) : (s.setCell c x).setCell c y = s.setCell c y := by
  simp [State.setCell, SMap.set_set]

@[simp] theorem State.modUnit_modUnit (s : State) (k : Nat) (f g : UnitState → UnitState) :
    (s.modUnit k f).modUnit k g = s.modUnit k (fun u => g (f u)) := by
  simp [State.modUnit, SMap.set_set, State.unit]

theorem Seq.reg_setReg (q : Seq) (rd r : BitVec 4) (v : Word) :
    (q.setReg rd v).reg r = if r = 0 then 0 else if r = rd then v else q.reg r := by
  unfold Seq.reg Seq.setReg
  by_cases h0 : r = 0
  · simp [h0]
  · by_cases hd : rd = 0
    · subst hd; rw [if_pos rfl, if_neg h0, if_neg h0, if_neg h0]
    · have : (rd.toNat = r.toNat) ↔ (r = rd) := ⟨fun e => (BitVec.eq_of_toNat_eq e).symm, fun e => by rw [e]⟩
      simp only [h0, hd, if_false, SMap.getD_put, this]

theorem Seq.setReg_pc (q : Seq) (rd : BitVec 4) (v : Word) : (q.setReg rd v).pc = q.pc := by unfold Seq.setReg; split <;> rfl
theorem Seq.setReg_eq (q : Seq) (rd : BitVec 4) (v : Word) : q.setReg rd v = { q with regs := (q.setReg rd v).regs } := by
  unfold Seq.setReg; split <;> rfl

theorem Seq.next_inside {q : Seq} (h1 : q.pc.toNat + 8 < 0x200000 ∧ q.pc.toNat % 8 = 0) :
    q.next = { q with pc := q.pc + 8, retired := sat32 q.retired 1 } := by
  have e : (q.pc.setWidth 64 + 8 : Word).toNat = q.pc.toNat + 8 := by
    rw [BitVec.toNat_add]; simp; omega
  have e2 : (BitVec.ofNat 21 (q.pc.toNat + 8)) = q.pc + 8 := by
    apply BitVec.eq_of_toNat_eq; simp [BitVec.toNat_add]
  simp only [Seq.next, Seq.goto, e]
  rw [if_pos (by omega)]
  simp [e2]

theorem Seq.setReg_next {q : Seq} (h : q.pc.toNat + 8 < 0x200000 ∧ q.pc.toNat % 8 = 0) (rd : BitVec 4) (v : Word) :
    (q.setReg rd v).next = { q with regs := (q.setReg rd v).regs, pc := q.pc + 8, retired := sat32 q.retired 1 } := by
  rw [Seq.next_inside (by rw [Seq.setReg_pc]; exact h), Seq.setReg_eq]

theorem State.issue_at {s : State} {c : CellIx} {opc f rs} (i : Instr) (body : State → State) (h : Issues s c opc f rs) :
    s.issue c opc f i body = body s := by
  obtain ⟨h1, h2, h3, h4, -⟩ := h
  simp [State.issue, h1, h2, h3, h4]

theorem State.guarded_regs {s : State} {c : CellIx} {rs} (i : Instr) (body : State → State) (h : (s.cell c).regBusy rs = false) :
    s.guarded c i rs [] [] body = body s := by
  simp [State.guarded, Cell.hazard, h]
theorem reg_result' {s : State} {c : CellIx} {rd} {w : Word} (hn : NextInside s c) :
    RegResult s c rd w (s.modSeq c (fun q => (q.setReg rd w).next)) := by
  refine ⟨?_, ?_, ?_, ?_, ?_⟩
  · simp [OnlySeq, State.modSeq, State.modCell]
  · simp only [State.cell_modSeq, Seq.setReg_next hn, OnlyRegsPc]
  · intro r; simp only [State.cell_modSeq, Seq.setReg_next hn]; exact Seq.reg_setReg _ _ _ _
  · simp only [State.cell_modSeq, Seq.setReg_next hn]
  · simp only [State.cell_modSeq, Seq.setReg_next hn]

theorem State.guarded_none {s : State} {c : CellIx} {rs rd wr} (i : Instr) (body : State → State) (h : (s.cell c).hazard rs rd wr = none) :
    s.guarded c i rs rd wr body = body s := by
  simp [State.guarded, h]

theorem read_writeBytes_in (m : List Host.Cell) (a : Nat) (l : List Byte) (i : Nat) (h : i < l.length) :
    Memory.read (Memory.writeBytes m a l) (a + i) = l[i] := by
  induction l generalizing m a i with
  | nil => cases h
  | cons b t ih =>
    cases i with
    | zero =>
      simp only [Memory.writeBytes]
      rw [Memory.read_writeBytes_ne _ _ _ _ (by left; omega)]
      exact Memory.read_write_self _ _ _
    | succ i =>
      simp only [Memory.writeBytes]
      have := ih (Memory.write m a b) (a + 1) i (by simpa using h)
      rw [show a + (i + 1) = a + 1 + i by omega, this]; rfl

theorem bytesLE_length (n x : Nat) : (bytesLE n x).length = n := by
  induction n generalizing x with
  | zero => rfl
  | succ n ih => simp [bytesLE, ih]

theorem bytesLE_get (n x i : Nat) (h : i < n) : (bytesLE n x)[i]'(by rw [bytesLE_length]; exact h) = BitVec.ofNat 8 (x / 256 ^ i) := by
  induction n generalizing x i with
  | zero => omega
  | succ n ih =>
    cases i with
    | zero => simp [bytesLE]
    | succ i => simp only [bytesLE, List.getElem_cons_succ]; rw [ih _ _ (by omega), Nat.div_div_eq_div_mul, Nat.pow_succ, Nat.mul_comm]

theorem read_writeNat_in (m : List Host.Cell) (a n x i : Nat) (h : i < n) :
    Memory.read (Memory.writeNat m a n x) (a + i) = BitVec.ofNat 8 (x / 256 ^ i) := by
  unfold Memory.writeNat
  rw [read_writeBytes_in _ _ _ _ (by rw [bytesLE_length]; exact h), bytesLE_get _ _ _ h]

theorem ofBytesLE_bytesLE (n x : Nat) : ofBytesLE (bytesLE n x) = x % 256 ^ n := by
  induction n generalizing x with
  | zero => simp [bytesLE, ofBytesLE, Nat.mod_one]
  | succ n ih =>
    simp only [bytesLE, ofBytesLE, ih, BitVec.toNat_ofNat]
    have h : x % (256 * 256 ^ n) = x % 256 + 256 * (x / 256 % 256 ^ n) := Nat.mod_mul
    rw [show 256 ^ (n + 1) = 256 * 256 ^ n by rw [Nat.pow_succ, Nat.mul_comm]]
    omega

theorem Memory.readBytes_writeNat (m : List Host.Cell) (a n x : Nat) : Memory.readBytes (Memory.writeNat m a n x) a n = bytesLE n x := by
  apply List.ext_getElem
  · simp [Memory.readBytes, bytesLE_length]
  · intro i h1 h2
    simp only [Memory.readBytes, List.getElem_map, List.getElem_range]
    rw [bytesLE_length] at h2
    rw [read_writeNat_in _ _ _ _ _ h2, bytesLE_get _ _ _ h2]

theorem Memory.readWord_writeWord (m : List Host.Cell) (a : Nat) (w : Word) : Memory.readWord (Memory.writeWord m a w) a = w := by
  unfold Memory.readWord Memory.writeWord Memory.readNat
  rw [Memory.readBytes_writeNat, ofBytesLE_bytesLE]
  apply BitVec.eq_of_toNat_eq
  have := w.isLt
  simp; omega

theorem Memory.readBytes_writeNat_ne (m : List Host.Cell) (a n b k x : Nat) (h : b + k ≤ a ∨ a + n ≤ b) :
    Memory.readBytes (Memory.writeNat m a n x) b k = Memory.readBytes m b k := by
  unfold Memory.readBytes
  apply List.map_congr_left
  intro i hi
  have := List.mem_range.mp hi
  unfold Memory.writeNat
  rw [Memory.read_writeBytes_ne _ _ _ _ (by rw [bytesLE_length]; omega)]

theorem Memory.readWord_writeWord_ne (m : List Host.Cell) (a b : Nat) (w : Word) (h : b + 8 ≤ a ∨ a + 8 ≤ b) :
    Memory.readWord (Memory.writeWord m a w) b = Memory.readWord m b := by
  unfold Memory.readWord Memory.writeWord Memory.readNat
  rw [Memory.readBytes_writeNat_ne _ _ _ _ _ _ h]

theorem bad_desc {s : State} {c : CellIx} (h : (s.cell c).seq.cmd ≠ none) : BadDesc s c (s.finish c ccBadDesc) := by
  obtain ⟨r, hr⟩ := Option.ne_none_iff_exists'.mp h
  refine ⟨r, hr, ?_⟩
  simp only [State.finish, State.modSeq, State.modCell, Seq.complete, hr]
  rfl

@[simp] theorem fireStatus_cells (s : State) (n : Nat) : (s.fireStatus n).cells = s.cells := by
  rfl
@[simp] theorem startSave_cells (s : State) : s.startSave.cells = s.cells := by
  unfold State.startSave; split <;> rfl
@[simp] theorem saveRecord_cells (s : State) : s.saveRecord.cells = s.cells := by simp [State.saveRecord]
theorem relCell_cells (s : State) (c : CellIx) (n) : (s.relCell c n).cells = (s.modCell c (fun x => { x with cnt := { x.cnt with lastCause := n } })).cells := by
  unfold State.relCell State.fireCell; simp

theorem relCell_cell (s : State) (c : CellIx) (n) : ∃ g : Counters, (s.relCell c n).cell c = { s.cell c with cnt := g } := by
  refine ⟨{ (s.cell c).cnt with lastCause := n }, ?_⟩
  have : (s.relCell c n).cell c = (s.modCell c (fun x => { x with cnt := { x.cnt with lastCause := n } })).cell c := by
    unfold State.cell; rw [relCell_cells]
  rw [this, State.cell_modCell]

theorem goto_in {q : Seq} {p : Word} (h : p.toNat < 0x200000) (h8 : p.toNat % 8 = 0) :
    q.goto p = { q with pc := p.setWidth 21, retired := sat32 q.retired 1 } := by
  have : BitVec.ofNat 21 p.toNat = p.setWidth 21 := by apply BitVec.eq_of_toNat_eq; simp
  simp [Seq.goto, h, h8, this]

theorem goto_out {q : Seq} {p : Word} {r : CmdRun} (h : 0x200000 ≤ p.toNat ∨ p.toNat % 8 ≠ 0) (hr : q.cmd = some r) :
    q.goto p = { q with running := false, retired := sat32 q.retired 1, cmd := some { r with codes := r.codes ++ [ccBadDesc], ended := true, stop := true } } := by
  have h' : ¬ (p.toNat < 0x200000 ∧ p.toNat % 8 = 0) := by omega
  have : stops ccBadDesc = true := by decide
  simp [Seq.goto, h', Seq.endWith, hr, this]

def issuedCell (x : Cell) (o : UnitOp) : Cell :=
  { x with ops := x.ops ++ [{ o with id := x.seq.nextOp, run := x.seq.run, cmd := x.seq.cmd.elim 0 (·.no) }], seq := { x.seq with nextOp := x.seq.nextOp + 1 } }

theorem mod_retire {s : State} {c : CellIx} (hn : NextInside s c) (y : Cell) (h1 : y.seq = { (s.cell c).seq with nextOp := (s.cell c).seq.nextOp + 1 }) :
    ((s.setCell c y).retire c) = s.setCell c { y with seq := { (s.cell c).seq with nextOp := (s.cell c).seq.nextOp + 1, pc := (s.cell c).seq.pc + 8, retired := sat32 (s.cell c).seq.retired 1 } } := by
  obtain ⟨a1, a2⟩ := hn
  have e : ((s.cell c).seq.pc.setWidth 64 + 8 : Word).toNat = (s.cell c).seq.pc.toNat + 8 := by
    rw [BitVec.toNat_add]; simp; omega
  simp only [State.retire, State.modSeq, State.modCell, State.cell_setCell, State.setCell_setCell, Seq.next, h1]
  rw [goto_in (by simp only [e]; omega) (by simp only [e]; omega)]
  have e2 : (((s.cell c).seq.pc.setWidth 64 + 8 : Word)).setWidth 21 = (s.cell c).seq.pc + 8 := by
    apply BitVec.eq_of_toNat_eq; simp [BitVec.toNat_add]
  simp only [e2]

theorem State.withBlock_at {s : State} {c : CellIx} {opc f rs mask b} (i : Instr) (body : List Word → State → State)
    (h : IssuesBlock s c opc f rs mask b) : s.withBlock c f i mask body = body b s := by
  obtain ⟨-, h2, row, h3, h4⟩ := h
  simp [State.withBlock, h3, h4, h2]

@[simp] theorem overwrites_seq (l : List (Nat × Nat)) (x : Cell) : (overwrites l x).seq = x.seq := by
  unfold overwrites; induction l generalizing x with
  | nil => rfl
  | cons w l ih => exact ih _
@[simp] theorem overwrites_ops (l : List (Nat × Nat)) (x : Cell) : (overwrites l x).ops = x.ops := by
  unfold overwrites; induction l generalizing x with
  | nil => rfl
  | cons w l ih => exact ih _
@[simp] theorem overwrites_nil (x : Cell) : overwrites [] x = x := rfl
@[simp] theorem overwrites_spad (l : List (Nat × Nat)) (x : Cell) : (overwrites l x).spad = x.spad := by
  unfold overwrites; induction l generalizing x with
  | nil => rfl
  | cons w l ih => exact ih _
theorem overwrites_fold (l : List (Nat × Nat)) (x : Cell) : l.foldl (fun x w => x.overwritten w.1 w.2) x = overwrites l x := rfl

theorem State.addOp_retire {s u : State} {c : CellIx} (o : UnitOp) (hn : NextInside s c) (hs : (u.cell c).seq = (s.cell c).seq)
    (ho : (u.cell c).ops = (s.cell c).ops) : IssuedOn s u c o ((u.addOp c o).retire c) := by
  obtain ⟨h1, h2⟩ := hn
  rw [← hs] at h1 h2
  simp only [IssuedOn, State.addOp, overwrites_fold, overwrites_seq, overwrites_ops, State.retire, State.modSeq, State.modCell, State.cell_setCell, State.setCell_setCell, Seq.next, ← hs, ← ho]
  have e : ((u.cell c).seq.pc.setWidth 64 + 8 : Word).toNat = (u.cell c).seq.pc.toNat + 8 := by
    rw [BitVec.toNat_add]; simp; omega
  rw [goto_in (by simp only [e]; omega) (by simp only [e]; omega)]
  have e2 : (((u.cell c).seq.pc.setWidth 64 + 8 : Word)).setWidth 21 = (u.cell c).seq.pc + 8 := by
    apply BitVec.eq_of_toNat_eq; simp [BitVec.toNat_add]
  simp only [e2]

theorem State.addOp_wait {s u : State} {c : CellIx} (o : UnitOp) (cause) (hs : (u.cell c).seq = (s.cell c).seq)
    (ho : (u.cell c).ops = (s.cell c).ops) (hr : u.runTime = s.runTime) : HeldOn s u c o cause ((u.addOp c o).waitOp c cause) := by
  simp only [HeldOn, State.addOp, overwrites_fold, overwrites_seq, overwrites_ops, State.waitOp, State.modSeq, State.modCell, State.cell_setCell, State.setCell_setCell, ← hs, ← ho, ← hr]
  rfl

theorem State.OnlyCell_of_set {s u : State} {c : CellIx} (x : Cell) (h : OnlyCell s c u) : OnlyCell s c (u.setCell c x) := by
  unfold OnlyCell at *
  rw [h]; simp
theorem OnlyCell.refl (s : State) (c : CellIx) (h : OnlyCell s c s) : OnlyCell s c s := h
theorem OnlyCell_modCell (s : State) (c : CellIx) (g : Cell → Cell) : OnlyCell s c (s.modCell c g) := by
  simp [OnlyCell, State.modCell]
theorem OnlyCell_trans {s u t : State} {c : CellIx} (h : OnlyCell s c u) (h2 : OnlyCell u c t) : OnlyCell s c t := by
  unfold OnlyCell at *
  rw [h2, h]; simp
def noCell : Cell := {}
def noConv (s : State) : State := { s with conv := [] }
def tameOf (c : CellIx) (s : State) : State × Seq × List UnitOp :=
  (noConv (s.setCell c noCell), (s.cell c).seq, (s.cell c).ops)
@[simp] theorem tame_set (c : CellIx) (s : State) (x : Cell) :
    tameOf c (s.setCell c x) = (noConv (s.setCell c noCell), x.seq, x.ops) := by simp [tameOf]
@[simp] theorem tame_mod (c : CellIx) (s : State) (g : Cell → Cell) :
    tameOf c (s.modCell c g) = (noConv (s.setCell c noCell), (g (s.cell c)).seq, (g (s.cell c)).ops) := by
  simp [tameOf, State.modCell]
@[simp] theorem tame_fold (c : CellIx) (s : State) :
    (noConv (s.setCell c noCell), (s.cell c).seq, (s.cell c).ops) = tameOf c s := rfl
@[simp] theorem tame_conv (c : CellIx) (s : State) (job layer f) : tameOf c (s.modConv job layer f) = tameOf c s := rfl
@[simp] theorem tame_ite (c : CellIx) (p : Prop) [Decidable p] (a b : State) :
    tameOf c (if p then a else b) = if p then tameOf c a else tameOf c b := by split <;> rfl
@[simp] theorem tame_spend (c : CellIx) (s : State) (r n m) : tameOf c (s.spendDrawsOf c r n m) = tameOf c s := by
  unfold State.spendDrawsOf; split
  · rfl
  · rw [tame_mod]; rfl
@[simp] theorem tame_spend' (c : CellIx) (s : State) (n m) : tameOf c (s.spendDraws c n m) = tameOf c s := by simp [State.spendDraws]
theorem tame_foldl2 {α β : Type} (c : CellIx) (f : β × State → α → β × State) (h : ∀ s a, tameOf c (f s a).2 = tameOf c s.2) (l : List α)
    (s : β × State) : tameOf c (l.foldl f s).2 = tameOf c s.2 := by
  induction l generalizing s with
  | nil => rfl
  | cons a l ih => exact (ih (f s a)).trans (h s a)
theorem tame_foldl {α : Type} (c : CellIx) (f : State → α → State) (h : ∀ s a, tameOf c (f s a) = tameOf c s) (l : List α)
    (s : State) : tameOf c (l.foldl f s) = tameOf c s := by
  induction l generalizing s with
  | nil => rfl
  | cons a l ih => exact (ih (f s a)).trans (h s a)

theorem tame_only {s u : State} {c : CellIx} (h : tameOf c u = tameOf c s) (x : Cell) : OnlyConversion s c (u.setCell c x) := by
  simp only [tameOf, Prod.mk.injEq] at h
  have k : ({ u.setCell c noCell with conv := [] } : State) = { s.setCell c noCell with conv := [] } := h.1
  have e : ∀ v : State, ({ v.setCell c x with conv := u.conv } : State) =
      { ({ v.setCell c noCell with conv := [] } : State).setCell c x with conv := u.conv } := fun v => by
    have : v.setCell c x = (v.setCell c noCell).setCell c x := by simp
    rw [this]; rfl
  unfold OnlyConversion
  rw [State.cell_setCell]
  calc u.setCell c x = { u.setCell c x with conv := u.conv } := rfl
    _ = _ := e u
    _ = { ({ s.setCell c noCell with conv := [] } : State).setCell c x with conv := u.conv } := by rw [k]
    _ = _ := (e s).symm

theorem OnlyConversion.cell {s t : State} {c : CellIx} (h : OnlyConversion s c t) (hc : t.conv = s.conv) : OnlyCell s c t := by
  unfold OnlyConversion at h; unfold OnlyCell
  have : ({ s.setCell c (t.cell c) with conv := t.conv } : State) = s.setCell c (t.cell c) := by rw [hc]; rfl
  rw [this] at h; exact h

theorem tame_issued {s u : State} {c : CellIx} (o : UnitOp) (h : tameOf c u = tameOf c s) (hn : NextInside s c) :
    OnlyConversion s c ((u.addOp c o).retire c) ∧ IssuedOn s u c o ((u.addOp c o).retire c) := by
  have h' := h
  simp only [tameOf, Prod.mk.injEq] at h'
  have k := State.addOp_retire o hn h'.2.1 h'.2.2
  refine ⟨?_, k⟩
  simp only [IssuedOn] at k
  rw [k]; exact tame_only h _
theorem tame_held {s u : State} {c : CellIx} (o : UnitOp) (cause) (h : tameOf c u = tameOf c s) :
    OnlyConversion s c ((u.addOp c o).waitOp c cause) ∧ HeldOn s u c o cause ((u.addOp c o).waitOp c cause) := by
  have h' := h
  simp only [tameOf, Prod.mk.injEq] at h'
  have hr : u.runTime = s.runTime := by have := congrArg State.runTime h'.1; exact this
  have k := State.addOp_wait (s := s) o cause h'.2.1 h'.2.2 hr
  refine ⟨?_, k⟩
  simp only [HeldOn] at k
  rw [k]; exact tame_only h _

def tameC (x : Cell) : Seq × List UnitOp := (x.seq, x.ops)
theorem tameC_foldl {α : Type} (f : Cell → α → Cell) (h : ∀ s a, tameC (f s a) = tameC s) (l : List α)
    (s : Cell) : tameC (l.foldl f s) = tameC s := by
  induction l generalizing s with
  | nil => rfl
  | cons a l ih => exact (ih (f s a)).trans (h s a)
theorem tame_modC (c : CellIx) (s : State) (g : Cell → Cell) (h : tameC (g (s.cell c)) = tameC (s.cell c)) : tameOf c (s.modCell c g) = tameOf c s := by
  simp only [tameC, Prod.mk.injEq] at h
  rw [tame_mod, h.1, h.2, tame_fold]

theorem Seq.next_pc {q : Seq} {p : BitVec 21} (h : q.pc = p) (hn : p.toNat + 8 < 0x200000 ∧ p.toNat % 8 = 0) : q.next.pc = p + 8 := by
  subst h; rw [Seq.next_inside hn]
theorem Seq.next_regs {q : Seq} {p : BitVec 21} (h : q.pc = p) (hn : p.toNat + 8 < 0x200000 ∧ p.toNat % 8 = 0) : q.next.regs = q.regs := by
  subst h; rw [Seq.next_inside hn]
theorem cellIx_val (c : CellIx) : cellIx c.val = c := by
  unfold cellIx; apply Fin.ext; simp [Fin.ofNat]
theorem issued_facts {s u : State} {c : CellIx} {o : UnitOp} {t : State} (h : IssuedOn s u c o t) : (t.cell c).spad = (u.cell c).spad ∧ (t.cell c).ops = (s.cell c).ops ++ [{ o with id := (s.cell c).seq.nextOp, run := (s.cell c).seq.run, cmd := (s.cell c).seq.cmd.elim 0 (·.no) }] ∧
   (t.cell c).seq.pc = (s.cell c).seq.pc + 8 ∧ (t.cell c).seq.regs = (s.cell c).seq.regs ∧ t.mem = u.mem := by
  simp only [IssuedOn] at h
  rw [h]; simp
theorem routePacket_cells (s : State) (d) (dest) (p) : ∀ t, s.routePacket d dest p = some t → t.cells = s.cells ∧ t.runTime = s.runTime ∧ t.units = s.units := by
  intro t h
  unfold State.routePacket at h
  split at h
  · cases h; exact ⟨rfl, rfl, rfl⟩
  · rw [Option.map_eq_some_iff] at h
    obtain ⟨m, -, rfl⟩ := h
    exact ⟨rfl, rfl, rfl⟩
theorem sendMsg_cells (s : State) (m : Msg) : (s.sendMsg m).cells = s.cells ∧ (s.sendMsg m).runTime = s.runTime := by
  unfold State.sendMsg
  extract_lets t here
  have ht : t.cells = s.cells ∧ t.runTime = s.runTime := by simp only [t]; split <;> exact ⟨rfl, rfl⟩
  have hh : here.cells = s.cells ∧ here.runTime = s.runTime := ht
  split
  · exact hh
  · rcases h : t.routePacket (UA.digit m.src 1 % 2) (UA.device m.dest) ⟨m.items, false, Option.none⟩ with _ | y
    · exact hh
    · have := routePacket_cells _ _ _ _ _ h
      exact ⟨this.1.trans ht.1, this.2.1.trans ht.2⟩
theorem sendMsg_cell (s : State) (m : Msg) (c : CellIx) : (s.sendMsg m).cell c = s.cell c := by simp [State.cell, sendMsg_cells]

theorem unit_modUnit' (s : State) (k : Nat) (f) : (s.modUnit k f).unit k = f (s.unit k) := by simp
theorem win_modWin (s : State) (k w : Nat) (f) : (s.modWin k w f).win k w = f (s.win k w) := by
  simp only [State.win, State.modWin, unit_modUnit']
  simp [UnitState.win]
theorem modWin_cells (s : State) (k w : Nat) (f) : (s.modWin k w f).cells = s.cells := rfl
theorem modWin_cell (s : State) (k w : Nat) (f) (c : CellIx) : (s.modWin k w f).cell c = s.cell c := rfl


theorem map_getD {α : Type} (l : SMap α) (g : α → α) (d : α) (hd : g d = d) (i : Nat) :
    SMap.getD (l.map (fun x => (x.1, g x.2))) i d = g (SMap.getD l i d) := by
  induction l with
  | nil => exact hd.symm
  | cons p t ih =>
    obtain ⟨a, b⟩ := p
    simp only [SMap.getD, SMap.get?, List.map_cons] at *
    split
    · rfl
    · exact ih
theorem winClosed_win (s : State) (k w : Nat) : (s.winClosed k w).win k w =
    { s.win k w with st := .closed, base := 0, rows := 0, writers := 0, job := 0, byKill := false } := by
  unfold State.winClosed
  simp only [State.win, State.modWin, State.unit_modUnit, State.modUnit_modUnit]
  have e : ∀ (z : State) (cs : SMap Cell), ({ z with cells := cs } : State).unit k = z.unit k := fun _ _ => rfl
  rw [e, State.unit_modUnit]
  simp [UnitState.win]
theorem winClosed_cell (s : State) (k w : Nat) (c : CellIx) : (s.winClosed k w).cell c =
    { s.cell c with ops := (s.cell c).ops.map (fun o => if o.win = some (k, w) then { o with done := true } else o) } := by
  unfold State.winClosed
  exact map_getD s.cells (fun y => { y with ops := y.ops.map (fun o => if o.win = some (k, w) then { o with done := true } else o) }) {} rfl c.val
theorem closeWin_closed (s : State) (k w : Nat) (h : (s.win k w).st = .closed) (b) : s.closeWin k w b = s := by
  unfold State.closeWin; simp only [h]
theorem closeWin_closing (s : State) (k w : Nat) (h : (s.win k w).st = .opened) (h2 : (s.win k w).unlanded ≠ []) (b) :
    s.closeWin k w b = s.modWin k w (fun v => { v with st := .closing, byKill := b }) := by
  unfold State.closeWin; simp only [h, h2, if_false]
theorem closeWin_open (s : State) (k w : Nat) (h : (s.win k w).st = .opened) (h2 : (s.win k w).unlanded = []) (b) :
    s.closeWin k w b = (s.modWin k w (fun v => { v with st := .closing, byKill := b })).winClosed k w := by
  unfold State.closeWin; simp only [h, h2, if_true]
theorem openWin_ok (s : State) (u : UnitAddr) (w base rows : Nat) (wr : UnitAddr) (job : BitVec 32) (h1 : s.winFree u w = true)
   (h2 : UA.canonical wr = true) (h3 : ¬ 16384 < base + rows) (h4 : rows ≠ 0) :
   s.openWin u w base rows wr job = (ccOk, (s.win (UA.key u) w).wepoch + 1, s.modWin (UA.key u) w (fun _ =>
              { st := .opened, base := BitVec.ofNat 14 base, rows := BitVec.ofNat 15 rows,
                wepoch := (s.win (UA.key u) w).wepoch + 1, writers := wr, job := job })) := by
  unfold State.openWin
  simp only [h1, h2, Bool.not_true, Bool.false_eq_true, if_false, h3, h4]
theorem winFree_closed (s : State) (u : UnitAddr) (w : Nat) (h1 : s.winFree u w = true) : (s.win (UA.key u) w).st = .closed := by
  have : UA.key u ∈ (UA.key u :: UA.above u) ++ UA.below u := by simp
  have := List.all_eq_true.mp h1 _ this
  exact of_decide_eq_true this

theorem evc_fire_hiq (e : Evc) (id : Nat) : (e.fire id).hiq = e.hiq := by
  have r : ∀ n l (e : Evc), (Evc.routeList n l e).hiq = e.hiq := by
    intro n
    induction n with
    | zero => intro l e; rfl
    | succ n ih =>
      intro l e
      cases l with
      | nil => rfl
      | cons i t =>
        simp only [Evc.routeList]
        split
        · exact ih _ _
        · split
          · rw [ih]; rfl
          · rw [ih]; rfl
  have p : ∀ (e : Evc), e.pass.hiq = e.hiq := by
    intro e
    unfold Evc.pass
    rw [r]
    generalize List.range 16 = l
    induction l generalizing e with
    | nil => rfl
    | cons a l ih => rw [List.foldl_cons, ih]; dsimp only; split <;> rfl
  unfold Evc.fire
  split
  · rw [p]; rfl
  · rfl
  · rfl
  · rfl
theorem evc_fireStatus_hiq (e : Evc) (n : Nat) : (e.fireStatus n).hiq = e.hiq := by
  unfold Evc.fireStatus
  extract_lets g p e'
  split
  · rfl
  · split
    · rw [evc_fire_hiq]
    · rfl
theorem evc_fire_spend (e : Evc) (id : Nat) : (e.fire id).spend = e.spend := by
  have r : ∀ n l (e : Evc), (Evc.routeList n l e).spend = e.spend := by
    intro n
    induction n with
    | zero => intro l e; rfl
    | succ n ih =>
      intro l e
      cases l with
      | nil => rfl
      | cons i t =>
        simp only [Evc.routeList]
        split
        · exact ih _ _
        · split
          · rw [ih]; rfl
          · rw [ih]; rfl
  have p : ∀ (e : Evc), e.pass.spend = e.spend := by
    intro e
    unfold Evc.pass
    rw [r]
    generalize List.range 16 = l
    induction l generalizing e with
    | nil => rfl
    | cons a l ih => rw [List.foldl_cons, ih]; dsimp only; split <;> rfl
  unfold Evc.fire
  split
  · rw [p]; rfl
  · rfl
  · rfl
  · rfl
theorem fireStatus_pending (s : State) (n : Nat) : (SMap.getD (s.fireStatus n).evc.spend (n / 64) 0).getLsbD (n % 64) = true := by
  have hb : ∀ w : Word, (w ||| BitVec.ofNat 64 (2 ^ (n % 64))).getLsbD (n % 64) = true := by
    intro w
    have : n % 64 < 64 := Nat.mod_lt _ (by decide)
    rw [BitVec.getLsbD_or, BitVec.getLsbD_ofNat, Nat.testBit_two_pow_self]
    simp [this]
  show (SMap.getD (s.evc.fireStatus n).spend (n / 64) 0).getLsbD (n % 64) = true
  unfold Evc.fireStatus
  extract_lets g p e'
  by_cases h : p.getLsbD (n % 64) = true
  · rw [if_pos h]; exact h
  · rw [if_neg h]
    have : (SMap.getD e'.spend (n / 64) 0).getLsbD (n % 64) = true := by
      simp only [e', g]; rw [SMap.getD_set_self]; exact hb _
    split
    · rw [evc_fire_spend]; exact this
    · exact this

theorem onlyIf_true (b : Bool) (s : State) (f) (h : b = true) : onlyIf b s f = f s := by simp [onlyIf, h]



/-! changes of many cells -/
theorem modCells_other (l : List Nat) (f : Cell → Cell) (c : CellIx) (h : ∀ i ∈ l, cellIx i ≠ c) (s : State) : (s.modCells l f).cell c = s.cell c := by
  unfold State.modCells
  induction l generalizing s with
  | nil => rfl
  | cons a l ih =>
    rw [List.foldl_cons, ih (fun i hi => h i (by simp [hi]))]
    exact State.cell_modCell_ne _ _ _ _ (Ne.symm (h a (by simp)))
theorem modCells_mem (l : List Nat) (f : Cell → Cell) (hn : (l.map cellIx).Nodup) (i : Nat) (hi : i ∈ l) (s : State) :
    (s.modCells l f).cell (cellIx i) = f (s.cell (cellIx i)) := by
  induction l generalizing s with
  | nil => cases hi
  | cons a l ih =>
    rw [List.map_cons, List.nodup_cons] at hn
    show ((s.modCell (cellIx a) f).modCells l f).cell _ = _
    by_cases h : i ∈ l
    · rw [ih hn.2 h]
      rw [State.cell_modCell_ne]
      intro e; exact hn.1 (e ▸ List.mem_map_of_mem h)
    · have : i = a := by simpa [h] using hi
      subst this
      rw [modCells_other]
      · simp
      · intro j hj e; exact hn.1 (e ▸ List.mem_map_of_mem hj)
theorem span_le (d : Nat) : UA.span d ≤ 512 := by
  unfold UA.span; split <;> decide
theorem cells_nodup (u : UnitAddr) : ((UA.cells u).map cellIx).Nodup := by
  unfold UA.cells
  rw [List.map_map, List.nodup_map_iff_inj_on List.nodup_range]
  intro x hx y hy e
  have hx := List.mem_range.mp hx
  have hy := List.mem_range.mp hy
  have hs := span_le (UA.depth u)
  have : (UA.index u + x) % 512 = (UA.index u + y) % 512 := congrArg Fin.val e
  omega
theorem modCells_frame (l : List Nat) (f : Cell → Cell) (s : State) : s.modCells l f = { s with cells := (s.modCells l f).cells } := by
  unfold State.modCells
  induction l generalizing s with
  | nil => rfl
  | cons a l ih => rw [List.foldl_cons, ih]; rfl
theorem sendMsg_local (s : State) (m : Msg) (h : s.local? m.dest = true) : (s.sendMsg m).net = (s.fly m).net := by
  unfold State.sendMsg
  extract_lets t here
  have hl : t.local? m.dest = true := by simp only [t]; split <;> exact h
  have hn : t.net = s.net := by simp only [t]; split <;> rfl
  rw [if_pos (by rw [hl]; rfl)]
  have hu : ∀ k, (t.unit k).shadow = (s.unit k).shadow := by
    intro k; simp only [t]; split
    · by_cases e : k = UA.key m.src
      · subst e; rw [State.unit_modUnit]
      · rw [State.unit_modUnit_ne _ _ _ _ e]
    · rfl
  show (t.fly m).net = _
  have hw : t.wavesAhead m = s.wavesAhead m := by
    simp only [State.wavesAhead, State.local?, State.waveRoot, State.devAddr, State.inScope, hu, hn]
    rfl
  simp only [State.fly, hn, hw]
theorem sendMsg_inFlight (s : State) (m : Msg) (h : s.local? m.dest = true) : (s.sendMsg m).net.inFlight = s.net.inFlight ++ [m] := by
  rw [sendMsg_local s m h]; rfl
theorem transit_net (n : Net) (a b head items) : ∃ x, n.transit a b head items = { n with ucie := x } := by
  unfold Net.transit
  split
  · exact ⟨_, rfl⟩
  · rcases (Msg.ofItems head).bind (fun m => n.d2dOf m.src m.dest) with _ | k
    · exact ⟨_, rfl⟩
    · exact ⟨_, rfl⟩
theorem takeMsg_net (s : State) (m : Msg) : ∃ x, (s.takeMsg m).net = { s.net with inFlight := s.net.inFlight.erase m, ucie := x } := by
  unfold State.takeMsg
  split
  · obtain ⟨x, h⟩ := transit_net s.net (UA.digit m.src 1 % 2) (UA.digit m.dest 1 % 2) m.items m.items
    rw [h]; exact ⟨x, rfl⟩
  · exact ⟨_, rfl⟩
theorem takeMsg_rest (s : State) (m : Msg) : (s.takeMsg m).net.inFlight = s.net.inFlight.erase m ∧ (s.takeMsg m).net.devId = s.net.devId := by
  obtain ⟨x, h⟩ := takeMsg_net s m
  rw [h]; exact ⟨rfl, rfl⟩
theorem takeMsg_local (s : State) (m : Msg) (u) : (s.takeMsg m).local? u = s.local? u := by
  unfold State.local?; rw [(takeMsg_rest s m).2]
theorem lastEop_append (d : Bool) (l : List QItem) (i : QItem) : lastEop d (l ++ [i]) = i.eop := by
  induction l generalizing d with
  | nil => rfl
  | cons a l ih =>
    rcases l with _ | ⟨b, l⟩
    · rfl
    · exact ih d
theorem rplFill_same (now : Word) (job n : Nat) (q : Queue) (hf : q.flushing = false) (h : ownPackets job q.partialIn q.inflow = true) (hn : q.inflow.length ≤ n) :
    (Queue.rplFill now job n q).items = q.items ++ q.inflow.take (64 - q.items.length) ∧ (Queue.rplFill now job n q).inflow = q.inflow.drop (64 - q.items.length) := by
  induction n generalizing q with
  | zero =>
    have : q.inflow = [] := List.length_eq_zero_iff.mp (Nat.le_zero.mp hn)
    simp [Queue.rplFill, this]
  | succ n ih =>
    unfold Queue.rplFill
    rcases hq : q.inflow with _ | ⟨i, t⟩
    · simp
      exact hq
    · rw [hq] at h
      unfold ownPackets at h
      rw [Bool.and_eq_true] at h
      have hs : (!q.partialIn && strayPacket job (i :: t)) = false := by
        have := h.1
        revert this; cases q.partialIn <;> cases strayPacket job (i :: t) <;> decide
      have c1 : ¬ (q.flushing = true) := by rw [hf]; exact Bool.false_ne_true
      dsimp only
      rw [if_neg c1, hs]
      simp only [Bool.false_eq_true, if_false]
      by_cases h64 : 64 ≤ q.items.length
      · simp only [h64, if_true]
        have : 64 - q.items.length = 0 := by omega
        simp [this, hq]
      · simp only [h64, if_false]
        have I := ih { q with items := q.items ++ [i], inflow := t, timer := if q.items = [] then some now else q.timer } hf
          (by
            have hp : Queue.partialIn { q with items := q.items ++ [i], inflow := t, timer := if q.items = [] then some now else q.timer } = !i.eop := by
              unfold Queue.partialIn; rw [lastEop_append]
            rw [hp]; exact h.2) (by rw [hq] at hn; simpa using hn)
        have e : 64 - q.items.length = (64 - (q.items ++ [i]).length) + 1 := by simp; omega
        rw [I.1, I.2, e]
        simp
theorem sendMsg_unit (s : State) (m : Msg) (k : Nat) : ∃ w : Word, (s.sendMsg m).unit k = { s.unit k with msgSent := w } := by
  have : (s.sendMsg m).units = s.units ∨ (s.sendMsg m).units = (s.modUnit (UA.key m.src) (fun u => { u with msgSent := u.msgSent + 1 })).units := by
    unfold State.sendMsg
    extract_lets t here
    have ht : t.units = s.units ∨ t.units = (s.modUnit (UA.key m.src) (fun u => { u with msgSent := u.msgSent + 1 })).units := by
      simp only [t]; split
      · exact .inr rfl
      · exact .inl rfl
    split
    · exact ht
    · rcases h : t.routePacket (UA.digit m.src 1 % 2) (UA.device m.dest) ⟨m.items, false, Option.none⟩ with _ | y
      · exact ht
      · have := (routePacket_cells _ _ _ _ _ h).2.2
        simp only [Option.getD]; rw [this]; exact ht
  rcases this with h | h
  · exact ⟨(s.unit k).msgSent, by unfold State.unit; rw [h]⟩
  · by_cases e : k = UA.key m.src
    · subst e
      exact ⟨(s.unit (UA.key m.src)).msgSent + 1, by
        have : (s.sendMsg m).unit (UA.key m.src) = (s.modUnit (UA.key m.src) (fun u => { u with msgSent := u.msgSent + 1 })).unit (UA.key m.src) := by unfold State.unit; rw [h]
        rw [this, State.unit_modUnit]⟩
    · exact ⟨(s.unit k).msgSent, by
        have : (s.sendMsg m).unit k = (s.modUnit (UA.key m.src) (fun u => { u with msgSent := u.msgSent + 1 })).unit k := by unfold State.unit; rw [h]
        rw [this, State.unit_modUnit_ne _ _ _ _ e]⟩


theorem foldl_pres {α β : Type} (p : State → β) (f : State → α → State) (h : ∀ s a, p (f s a) = p s) (l : List α) (s : State) : p (l.foldl f s) = p s := by
  induction l generalizing s with
  | nil => rfl
  | cons a l ih => exact (ih (f s a)).trans (h s a)
theorem cell_of_cells {z w : State} (h : z.cells = w.cells) (d : CellIx) : z.cell d = w.cell d := by unfold State.cell; rw [h]
theorem unit_of_units {z w : State} (h : z.units = w.units) (d : Nat) : z.unit d = w.unit d := by unfold State.unit; rw [h]

theorem fill_items (n : Nat) (now : Word) (q : Queue) (h : q.flushing = false) : (Queue.fill n now q).items = q.items ++ q.inflow.take (n - q.items.length) := by
  unfold Queue.fill
  simp only [h, Bool.false_eq_true, if_false]
  split <;> rfl

theorem modWin_other (s : State) (k w k' w' : Nat) (f) (h : ¬ (k' = k ∧ w' = w)) : (s.modWin k w f).win k' w' = s.win k' w' := by
  unfold State.win State.modWin
  by_cases hk : k' = k
  · subst hk
    rw [State.unit_modUnit]
    have hw : ¬ w = w' := fun e => h ⟨rfl, e.symm⟩
    simp [UnitState.win, SMap.getD_set, hw]
  · rw [State.unit_modUnit_ne _ _ _ _ hk]
theorem arrival_ok (s : State) (m : Msg) (f : State → State) (h : m.epoch = s.epochOf m.dest) : s.arrival m f = f (s.takeMsg m) := by
  unfold State.arrival
  exact if_pos h
theorem reg_of_regs {q q' : Seq} (h : q.regs = q'.regs) (r) : q.reg r = q'.reg r := by unfold Seq.reg; rw [h]

theorem answers_self (u : State) (r : DictReq) (st ty tot data) : Answers u r st (u.answer r st ty tot data) := by
  refine ⟨⟨ty, tot, data, rfl⟩, ?_⟩
  unfold State.answer; simp only []
  split <;> rfl
theorem answers_done (u : State) (r : DictReq) (p n) : Answers u r dsOk (u.done r p n) := answers_self _ _ _ _ _ _
theorem answers_refuse (u : State) (r : DictReq) (p st) : Answers u r st (u.refuse r (some p) st) := answers_self _ _ _ _ _ _
theorem ans_rest {u r st t} (h : Answers u r st t) : t.cells = u.cells ∧ t.mem = u.mem ∧ t.net = u.net ∧ t.sec = u.sec ∧ t.dbg = u.dbg ∧
    t.dict.params = u.dict.params ∧ t.dict.commits = u.dict.commits ∧ t.dict.stages = u.dict.stages ∧ t.dict.image = u.dict.image ∧ t.dict.saving = u.dict.saving := by
  rw [h.2]; exact ⟨rfl, rfl, rfl, rfl, rfl, rfl, rfl, rfl, rfl, rfl⟩
theorem serve_at {s : State} {k r p n} (f : State → DictReq → Param → Nat → State) (h : Asks s k r p n) : s.serve k f = f (taken s) r p n := by
  obtain ⟨h1, h2, h3⟩ := h
  unfold State.serve; rw [h1]; simp only []
  have h2' : (s.modDict (fun d => { d with queue := d.queue.drop 1 })).access r = .ok (p, n) := h2
  rw [h2']; simp only []; rw [if_neg h3]; rfl
theorem serve_err {s : State} {k r p st} (f : State → DictReq → Param → Nat → State) (h1 : s.headReq k = some r) (h2 : (taken s).access r = .error (some p, st)) :
    s.serve k f = (taken s).refuse r (some p) st := by
  unfold State.serve; rw [h1]; simp only []
  have h2' : (s.modDict (fun d => { d with queue := d.queue.drop 1 })).access r = .error (some p, st) := h2
  rw [h2']; simp only []; rfl
theorem find_map_key {β : Type} (l : List (ParamKey × β)) (k k' : ParamKey) (v : β) :
    (l.map (fun p => if p.1 = k then (k, v) else p)).find? (fun p => decide (p.1 = k')) =
    if k = k' then (l.find? (fun p => decide (p.1 = k))).map (fun _ => (k, v)) else l.find? (fun p => decide (p.1 = k')) := by
  induction l with
  | nil => split <;> rfl
  | cons a l ih =>
    rw [List.map_cons, List.find?_cons, ih]
    by_cases h : k = k'
    · subst h
      by_cases q : a.1 = k
      · simp [q]
      · simp [q]
    · rw [if_neg h, if_neg h]
      by_cases q : a.1 = k
      · simp [q, h]
      · simp [q, List.find?_cons]
theorem raw_setRaw (d : Dict) (k : ParamKey) (v : List Byte) : (d.setRaw k v).raw k = some v := by
  unfold Dict.setRaw
  split
  · rename_i h
    unfold Dict.raw; simp only []
    rw [find_map_key, if_pos rfl]
    rw [List.any_eq_true] at h
    obtain ⟨x, hx, hk⟩ := h
    rcases hf : d.params.find? (fun p => decide (p.1 = k)) with _ | y
    · rw [List.find?_eq_none] at hf; exact absurd hk (hf x hx)
    · rw [hf]; rfl
  · rename_i h
    unfold Dict.raw; simp only []
    rw [List.find?_append]
    have : d.params.find? (fun p => decide (p.1 = k)) = none := by
      rw [List.find?_eq_none]; intro x hx hk; exact h (List.any_eq_true.mpr ⟨x, hx, hk⟩)
    rw [this]; simp
theorem setParam_raw (s : State) (index : Nat) (p : Param) (k : Nat) (v : List Byte)
    (hi : index ∉ [0x4800, 0x6000, 0x5820, 0xC100, 0x8000, 0xA000]) (hn : p.next = false) :
    (s.setParam index p k v).dict.raw ⟨k, index, p.sub⟩ = some v := by
  unfold State.setParam; simp only []
  simp only [List.mem_cons, List.not_mem_nil, or_false, not_or] at hi
  split
  all_goals try (exfalso; omega)
  simp only [hn, Bool.false_eq_true, if_false]
  split
  · have : ∀ (d : Dict) key w t, ((d.setImage key w).touch t).raw key = d.raw key := by
      intro d key w t
      unfold Dict.touch Dict.setImage
      split <;> split <;> rfl
    rw [this]; exact raw_setRaw _ _ _
  · exact raw_setRaw _ _ _
theorem mbRead (m : Mailbox) (h d : List Byte) (i b) (hb : d[i]? = some b) : Memory.read (m.answered h d).data i = b := by
  unfold Mailbox.answered; simp only []
  have h3 : i < d.length := by
    by_contra q; rw [List.getElem?_eq_none (by omega)] at hb; cases hb
  have := read_writeBytes_in m.data 0 d i h3
  rw [Nat.zero_add] at this; rw [this]
  rw [List.getElem?_eq_getElem h3] at hb; simpa using hb

theorem keyOf_depth (d i : Nat) : UA.keyOf d i / 2 ^ 44 = d := by
  unfold UA.keyOf; simp only []; generalize i / UA.span d * UA.span d = i'; omega
theorem keyOf_dec (d i : Nat) : UA.keyOf d i / 2 ^ 40 % 16 * 256 + UA.keyOf d i / 2 ^ 36 % 16 * 64 + UA.keyOf d i / 2 ^ 32 % 16 * 16 + UA.keyOf d i / 2 ^ 28 % 16 * 4 +
    UA.keyOf d i / 2 ^ 24 % 16 = i / UA.span d * UA.span d % 512 := by
  unfold UA.keyOf; simp only []; generalize i / UA.span d * UA.span d = i'
  have e : i' / 256 % 2 * 256 + i' / 64 % 4 * 64 + i' / 16 % 4 * 16 + i' / 4 % 4 * 4 + i' % 4 = i' % 512 := by omega
  have h1 : i' / 256 % 2 < 2 := Nat.mod_lt _ (by decide)
  have h2 : i' / 64 % 4 < 4 := Nat.mod_lt _ (by decide)
  have h3 : i' / 16 % 4 < 4 := Nat.mod_lt _ (by decide)
  have h4 : i' / 4 % 4 < 4 := Nat.mod_lt _ (by decide)
  have h5 : i' % 4 < 4 := Nat.mod_lt _ (by decide)
  rw [← e]
  clear e
  generalize i' / 256 % 2 = a1 at *
  generalize i' / 64 % 4 = a2 at *
  generalize i' / 16 % 4 = a3 at *
  generalize i' / 4 % 4 = a4 at *
  generalize i' % 4 = a5 at *
  have q1 : (d * 2 ^ 44 + a1 * 2 ^ 40 + a2 * 2 ^ 36 + a3 * 2 ^ 32 + a4 * 2 ^ 28 + a5 * 2 ^ 24) / 2 ^ 40 = d * 16 + a1 := by omega
  have q2 : (d * 2 ^ 44 + a1 * 2 ^ 40 + a2 * 2 ^ 36 + a3 * 2 ^ 32 + a4 * 2 ^ 28 + a5 * 2 ^ 24) / 2 ^ 36 = d * 256 + a1 * 16 + a2 := by omega
  have q3 : (d * 2 ^ 44 + a1 * 2 ^ 40 + a2 * 2 ^ 36 + a3 * 2 ^ 32 + a4 * 2 ^ 28 + a5 * 2 ^ 24) / 2 ^ 32 = d * 4096 + a1 * 256 + a2 * 16 + a3 := by omega
  have q4 : (d * 2 ^ 44 + a1 * 2 ^ 40 + a2 * 2 ^ 36 + a3 * 2 ^ 32 + a4 * 2 ^ 28 + a5 * 2 ^ 24) / 2 ^ 28 = d * 65536 + a1 * 4096 + a2 * 256 + a3 * 16 + a4 := by omega
  have q5 : (d * 2 ^ 44 + a1 * 2 ^ 40 + a2 * 2 ^ 36 + a3 * 2 ^ 32 + a4 * 2 ^ 28 + a5 * 2 ^ 24) / 2 ^ 24 = d * 1048576 + a1 * 65536 + a2 * 4096 + a3 * 256 + a4 * 16 + a5 := by omega
  rw [q1, q2, q3, q4, q5]
  omega
theorem span_pos (d : Nat) : 0 < UA.span d := by unfold UA.span; split <;> decide
theorem below_nodup (u : UnitAddr) : (UA.below u).Nodup := by
  unfold UA.below
  rw [List.nodup_flatMap]
  refine ⟨?_, ?_⟩
  · intro d hd
    split
    · apply List.Nodup.map_on _ List.nodup_range
      intro x hx y hy e
      have hx := List.mem_range.mp hx
      have hy := List.mem_range.mp hy
      have e1 := keyOf_dec d (UA.index u + x * UA.span d)
      have e2 := keyOf_dec d (UA.index u + y * UA.span d)
      rw [e, e2] at e1
      rw [Nat.add_mul_div_right _ _ (span_pos d), Nat.add_mul_div_right _ _ (span_pos d), Nat.add_mul, Nat.add_mul] at e1
      have bx : x * UA.span d + UA.span d ≤ 512 := by
        have := Nat.div_mul_le_self (UA.span (UA.depth u)) (UA.span d)
        have h2 : (x + 1) * UA.span d ≤ UA.span (UA.depth u) / UA.span d * UA.span d := Nat.mul_le_mul_right _ hx
        have := span_le (UA.depth u)
        rw [Nat.add_mul] at h2; omega
      have by' : y * UA.span d + UA.span d ≤ 512 := by
        have := Nat.div_mul_le_self (UA.span (UA.depth u)) (UA.span d)
        have h2 : (y + 1) * UA.span d ≤ UA.span (UA.depth u) / UA.span d * UA.span d := Nat.mul_le_mul_right _ hy
        have := span_le (UA.depth u)
        rw [Nat.add_mul] at h2; omega
      have hp := span_pos d
      have : x * UA.span d = y * UA.span d := by omega
      exact Nat.eq_of_mul_eq_mul_right hp this
    · exact List.nodup_nil
  · apply List.Pairwise.imp _ (List.nodup_range (n := 6))
    intro a b hab k hka hkb
    simp only at hka hkb
    split at hka
    · split at hkb
      · obtain ⟨x, -, hx⟩ := List.mem_map.mp hka
        obtain ⟨y, -, hy⟩ := List.mem_map.mp hkb
        apply hab
        rw [← keyOf_depth a, hx, ← hy, keyOf_depth]
      · cases hkb
    · cases hka
theorem key_notin_below (u : UnitAddr) : UA.key u ∉ UA.below u := by
  unfold UA.below
  intro h
  rw [List.mem_flatMap] at h
  obtain ⟨d, -, h⟩ := h
  split at h
  · rename_i hlt
    obtain ⟨y, -, hy⟩ := List.mem_map.mp h
    have e := keyOf_depth d (UA.index u + y * UA.span d)
    rw [hy] at e
    have : UA.depth u = UA.key u / 2 ^ 44 := by
      unfold UA.depth fld UA.key; omega
    omega
  · cases h
theorem setRole_fold (l : List Nat) (hn : l.Nodup) (role : BitVec 8) (s : State) :
    let t := l.foldl (fun s k => s.modUnit k (fun v => { v with role := role, epoch := v.epoch + 1 })) s
    t.cells = s.cells ∧ (∀ k ∈ l, (t.unit k).role = role ∧ (t.unit k).epoch = (s.unit k).epoch + 1) ∧ ∀ k, k ∉ l → t.unit k = s.unit k := by
  induction l generalizing s with
  | nil => exact ⟨rfl, fun _ h => (by cases h), fun _ _ => rfl⟩
  | cons a l ih =>
    rw [List.nodup_cons] at hn
    obtain ⟨h1, h2, h3⟩ := ih hn.2 (s.modUnit a (fun v => { v with role := role, epoch := v.epoch + 1 }))
    rw [List.foldl_cons]
    refine ⟨h1, ?_, ?_⟩
    · intro k hk
      by_cases hkl : k ∈ l
      · have : k ≠ a := fun e => hn.1 (e ▸ hkl)
        have h := h2 k hkl
        rw [State.unit_modUnit_ne _ _ _ _ this] at h
        exact h
      · have e : k = a := by simpa [hkl] using hk
        subst e
        rw [h3 k hkl, State.unit_modUnit]; exact ⟨rfl, rfl⟩
    · intro k hk
      have h := h3 k (fun e => hk (by simp [e]))
      rw [State.unit_modUnit_ne _ _ _ _ (fun e => hk (by simp [e]))] at h
      exact h

end Sys2Proof.Machine
end

