-- ==== Sys2Proof/Laws/CommandLaws.lean ====
section
/-! SUPPORT. Lemmas about commands, images, windows, scrubs and roles. -/

namespace Sys2Proof.Laws.CommandLaws

set_option linter.all false

open Sys2Proof Sys2Proof.Machine Sys2Proof.Claims

theorem reg_empty (q : Seq) (r : BitVec 4) : ({ q with regs := [] } : Seq).reg r = 0 := by
  unfold Seq.reg; split <;> rfl

theorem getElem_take_bytes (x n k : Nat) (h : k < min 15 n) : ((bytesLE 15 x).take (min 15 n))[k]? = some (BitVec.ofNat 8 (x / 256 ^ k)) := by
  rw [List.getElem?_take_of_lt h]
  have h15 : k < 15 := by omega
  rw [List.getElem?_eq_getElem (by rw [bytesLE_length]; exact h15), bytesLE_get _ _ _ h15]

theorem openWin_st (s : State) (k w : Nat) (f : Win → Win) (hf : ∀ x, (f x).st = x.st) (k' : Nat) : ((s.modWin k w f).win k' w).st = (s.win k' w).st := by
  by_cases e : k' = k
  · subst e; rw [win_modWin, hf]
  · unfold State.modWin State.win; rw [State.unit_modUnit_ne _ _ _ _ e]

theorem shareDone_cells (s : State) (c : CellIx) (r : CmdRun) (code : Code) : (s.shareDone c r code).cells = (s.modCell c (fun x => { x with cnt := { x.cnt with commandsDone := x.cnt.commandsDone + 1 } })).cells := by
  unfold State.shareDone
  simp only []
  have h := fun (f : State → Nat → State) h l s => foldl_pres State.cells f h l s
  split
  · unfold State.replyCmd State.reply; rw [(sendMsg_cells _ _).1, h]
    intro s a; split <;> rfl
  · rw [State.modUnit_cells, h]
    intro s a; split <;> rfl

theorem shareDone_local (s : State) (c : CellIx) (r : CmdRun) (code : Code) (h5 : UA.depth r.dest = 5) (hl : s.local? r.src = true) :
    ∃ m, (s.shareDone c r code).net.inFlight = s.net.inFlight ++ [m] ∧ m.dest = r.src ∧ m.src = r.dest ∧ m.cls = 0x08 ∧ m.tag = r.tag ∧
          m.code = code ∧ m.bounced = false := by
  refine ⟨replyMsg ⟨r.dest, 0, 0x01, r.tag, r.src, 0, false, []⟩ code (replyItem r.cmd.toNat r.job.toNat r.wepoch.toNat) [], ?_, rfl, rfl, rfl, rfl, rfl, rfl⟩
  unfold State.shareDone
  simp only []
  have h := fun (f : State → Nat → State) h l s => foldl_pres State.net f h l s
  rw [if_pos h5]
  unfold State.replyCmd State.reply
  rw [sendMsg_inFlight]
  · rw [h, State.modCell_net]
    intro s a; split <;> rfl
  · unfold State.local?
    rw [h, State.modCell_net]
    · exact hl
    · intro s a; split <;> rfl

theorem winClosed_other (s : State) (k w k' w' : Nat) (h : ¬ (k' = k ∧ w' = w)) : (s.winClosed k w).win k' w' = s.win k' w' := by
  unfold State.winClosed
  have e : ∀ (z : State) (cs : SMap Cell), ({ z with cells := cs } : State).unit k' = z.unit k' := fun _ _ => rfl
  simp only [State.win, State.modWin, State.modUnit_modUnit]
  rw [e]
  by_cases hk : k' = k
  · subst hk
    rw [State.unit_modUnit]
    have hw : ¬ w = w' := fun e => h ⟨rfl, e.symm⟩
    simp [UnitState.win, SMap.getD_set, hw]
  · rw [State.unit_modUnit_ne _ _ _ _ hk]

/-- What closing a window with nothing unlanded does. -/
theorem closeWin_flat (s : State) (k w : Nat) (hu : (s.win k w).unlanded = []) (hc : (s.win k w).st ≠ .closing) :
    let t := s.closeWin k w false
    (t.win k w).st = .closed ∧ (t.win k w).wepoch = (s.win k w).wepoch ∧ (t.win k w).unlanded = [] ∧
    (∀ k' w', ¬ (k' = k ∧ w' = w) → t.win k' w' = s.win k' w') ∧
    (∀ c : CellIx, ∃ ops, t.cell c = { s.cell c with ops := ops }) ∧ t.pwr = s.pwr ∧ t.dbg = s.dbg ∧ t.rel = s.rel ∧ t.net = s.net ∧
    (∀ j, (t.unit j).role = (s.unit j).role ∧ (t.unit j).epoch = (s.unit j).epoch) := by
  intro t
  rcases h : (s.win k w).st with _ | _ | _
  · have : t = s := closeWin_closed s k w h false
    rw [this]
    exact ⟨h, rfl, hu, fun _ _ _ => rfl, fun c => ⟨_, rfl⟩, rfl, rfl, rfl, rfl, fun _ => ⟨rfl, rfl⟩⟩
  · have : t = _ := closeWin_open s k w h hu false
    rw [this]
    refine ⟨?_, ?_, ?_, ?_, ?_, rfl, rfl, rfl, rfl, ?_⟩
    · rw [winClosed_win]
    · rw [winClosed_win, win_modWin]
    · rw [winClosed_win, win_modWin]; exact hu
    · intro k' w' hn
      rw [winClosed_other _ _ _ _ _ hn, modWin_other _ _ _ _ _ _ hn]
    · intro c; rw [winClosed_cell]; exact ⟨_, rfl⟩
    · intro j
      unfold State.winClosed State.modWin
      have e : ∀ (z : State) (cs : SMap Cell), ({ z with cells := cs } : State).unit j = z.unit j := fun _ _ => rfl
      simp only [State.modUnit_modUnit]
      rw [e]
      by_cases hj : j = k
      · subst hj; rw [State.unit_modUnit]; exact ⟨rfl, rfl⟩
      · rw [State.unit_modUnit_ne _ _ _ _ hj]; exact ⟨rfl, rfl⟩
  · exact absurd h hc

theorem closeAll (k : Nat) (l : List Nat) (s : State) (hu : ∀ w ∈ l, (s.win k w).unlanded = [] ∧ (s.win k w).st ≠ .closing) (t : State) (ht : t = l.foldl (fun s w => s.closeWin k w false) s) :
    (∀ w ∈ l, (t.win k w).st = .closed ∧ (t.win k w).wepoch = (s.win k w).wepoch) ∧
    (∀ k' w', (t.win k' w').wepoch = (s.win k' w').wepoch ∧ ((t.win k' w').st = .closed ∨ t.win k' w' = s.win k' w')) ∧
    (∀ c : CellIx, ∃ ops, t.cell c = { s.cell c with ops := ops }) ∧ t.net = s.net ∧
    (∀ j, (t.unit j).role = (s.unit j).role ∧ (t.unit j).epoch = (s.unit j).epoch) := by
  subst ht
  induction l generalizing s with
  | nil => exact ⟨fun _ h => absurd h (by simp), fun _ _ => ⟨rfl, .inr rfl⟩, fun c => ⟨_, rfl⟩, rfl, fun _ => ⟨rfl, rfl⟩⟩
  | cons a l ih =>
    obtain ⟨b1, b2, b3, b4, b5, -, -, -, b6, b7⟩ := closeWin_flat s k a (hu a (by simp)).1 (hu a (by simp)).2
    have hu' : ∀ w ∈ l, ((s.closeWin k a false).win k w).unlanded = [] ∧ ((s.closeWin k a false).win k w).st ≠ .closing := by
      intro w hw
      by_cases e : w = a
      · subst e; exact ⟨b3, by rw [b1]; decide⟩
      · rw [b4 k w (by rintro ⟨-, h⟩; exact e h)]
        exact hu w (by simp [hw])
    obtain ⟨c1, c2, c3, c4, c5⟩ := ih (s.closeWin k a false) hu'
    rw [List.foldl_cons]
    refine ⟨?_, ?_, ?_, c4.trans b6, fun j => ⟨(c5 j).1.trans (b7 j).1, (c5 j).2.trans (b7 j).2⟩⟩
    · intro w hw
      by_cases hwl : w ∈ l
      · refine ⟨(c1 w hwl).1, (c1 w hwl).2.trans ?_⟩
        by_cases e : w = a
        · subst e; exact b2
        · rw [b4 k w (by rintro ⟨-, h⟩; exact e h)]
      · have e : w = a := by simpa [hwl] using hw
        subst e
        obtain ⟨d1, d2⟩ := c2 k w
        refine ⟨?_, d1.trans b2⟩
        rcases d2 with d2 | d2
        · exact d2
        · rw [d2]; exact b1
    · intro k' w'
      obtain ⟨h1, h⟩ := c2 k' w'
      by_cases e : k' = k ∧ w' = a
      · rw [e.1, e.2] at h1 h ⊢
        refine ⟨h1.trans b2, .inl ?_⟩
        rcases h with h | h
        · exact h
        · rw [h]; exact b1
      · refine ⟨h1.trans (by rw [b4 _ _ e]), ?_⟩
        rcases h with h | h
        · exact .inl h
        · exact .inr (h.trans (b4 _ _ e))
    · intro c
      obtain ⟨o1, e1⟩ := c3 c
      obtain ⟨o2, e2⟩ := b5 c
      exact ⟨o1, by rw [e1, e2]⟩

def scrubCell (now : Word) (x : Cell) : Cell :=
  let y := { x.scrubbed with scrubReply := none }
  ({ y with cmdq := Queue.fill 64 now y.cmdq }).fillRpl now

def scrubUnit (u : UnitState) : UnitState := { u with winAccepted := 0, winClosedB := 0, winBoundsB := 0 }

def scrubCmds (c : CellIx) (v : UnitState) : UnitState := { v with cmds := v.cmds.map (fun p =>
        if p.cmd = 0x06 ∧ c.val ∈ p.left then { p with left := p.left.erase c.val, codes := p.codes ++ [ccOk] }
        else p) }

theorem endScrub_eq (z : State) (c : CellIx) : z.endScrub c =
   let s := (z.modCell c (scrubCell z.runTime)).modUnit (UA.keyOf 5 c.val) scrubUnit
   let t := match (z.cell c).scrubReply with
    | some _ => s.modSeq c (fun q => (q.endCmd ccOk).park)
    | none => s
   { t with units := t.units.map (fun v => (v.1, scrubCmds c v.2)) } := rfl

theorem park_regs (q : Seq) : q.park.regs = q.regs := by
  unfold Seq.park; split
  · split <;> rfl
  · rfl

theorem endScrub_cell (z : State) (c : CellIx) : ∃ q : Seq, ∃ cq rq : Queue, (z.endScrub c).cell c = { (z.cell c).scrubbed with scrubReply := none, cmdq := cq, rplq := rq, seq := q } ∧ q.regs = [] := by
  have g : ∀ (w : State) us, ({ w with units := us } : State).cell c = w.cell c := fun _ _ => rfl
  have g2 : ∀ (w : State) j f, (w.modUnit j f).cell c = w.cell c := fun _ _ _ => rfl
  have k1 : ∀ x : Cell, (scrubCell z.runTime x).seq.regs = [] := fun _ => rfl
  rw [endScrub_eq]
  rcases (z.cell c).scrubReply with _ | v
  · refine ⟨(scrubCell z.runTime (z.cell c)).seq, (scrubCell z.runTime (z.cell c)).cmdq, (scrubCell z.runTime (z.cell c)).rplq, ?_, k1 _⟩
    simp only
    rw [g, g2, State.cell_modCell]; rfl
  · refine ⟨((scrubCell z.runTime (z.cell c)).seq.endCmd ccOk).park, (scrubCell z.runTime (z.cell c)).cmdq, (scrubCell z.runTime (z.cell c)).rplq, ?_, (park_regs _).trans (k1 (z.cell c))⟩
    simp only
    rw [g, State.cell_modSeq, g2, State.cell_modCell]; rfl

theorem endScrub_unit (z : State) (c : CellIx) (j : Nat) : ((z.endScrub c).unit j).role = (z.unit j).role ∧ ((z.endScrub c).unit j).epoch = (z.unit j).epoch ∧ ((z.endScrub c).unit j).wins = (z.unit j).wins := by
  have g1 : ∀ (w : State), ({ w with units := w.units.map (fun v => (v.1, scrubCmds c v.2)) } : State).unit j = scrubCmds c (w.unit j) :=
    fun w => map_getD w.units (scrubCmds c) {} rfl j
  have g3 : ∀ (w : State) f, (w.modSeq c f).unit j = w.unit j := fun _ _ => rfl
  have g4 : ∀ (w : State) f, (w.modCell c f).unit j = w.unit j := fun _ _ => rfl
  have g5 : ∀ w : State, ((w.modUnit (UA.keyOf 5 c.val) scrubUnit).unit j).role = (w.unit j).role ∧ ((w.modUnit (UA.keyOf 5 c.val) scrubUnit).unit j).epoch = (w.unit j).epoch ∧ ((w.modUnit (UA.keyOf 5 c.val) scrubUnit).unit j).wins = (w.unit j).wins := by
    intro w
    by_cases hj : j = UA.keyOf 5 c.val
    · rw [hj, State.unit_modUnit]; exact ⟨rfl, rfl, rfl⟩
    · rw [State.unit_modUnit_ne _ _ _ _ hj]; exact ⟨rfl, rfl, rfl⟩
  have g6 : ∀ v : UnitState, (scrubCmds c v).role = v.role ∧ (scrubCmds c v).epoch = v.epoch ∧ (scrubCmds c v).wins = v.wins := fun _ => ⟨rfl, rfl, rfl⟩
  rw [endScrub_eq]
  simp only
  rw [g1]
  rcases (z.cell c).scrubReply with _ | v
  · simp only [g6, g5, g4, and_self]
  · simp only [g3, g6, g5, g4, and_self]

def EqOps (s z : State) : Prop := ∀ c : CellIx, ∃ ops, z.cell c = { s.cell c with ops := ops }

theorem EqOps.refl (s : State) : EqOps s s := fun c => ⟨_, rfl⟩

theorem EqOps.trans {a b c : State} (h : EqOps a b) (h2 : EqOps b c) : EqOps a c := by
  intro d
  obtain ⟨o1, e1⟩ := h d
  obtain ⟨o2, e2⟩ := h2 d
  exact ⟨o2, by rw [e2, e1]⟩

theorem EqOps.of_cells {s z : State} (h : z.cells = s.cells) : EqOps s z := fun c => ⟨(s.cell c).ops, by rw [cell_of_cells h]⟩

theorem eqOps_foldl {α : Type} (f : State → α → State) (h : ∀ s a, EqOps s (f s a)) (l : List α) (s : State) : EqOps s (l.foldl f s) := by
  induction l generalizing s with
  | nil => exact EqOps.refl s
  | cons a l ih => exact (h s a).trans (ih _)

theorem eqOps_closeWin (s : State) (k w : Nat) (b : Bool) : EqOps s (s.closeWin k w b) := by
  unfold State.closeWin
  extract_lets x
  split
  · exact EqOps.refl s
  · split
    · exact EqOps.of_cells rfl
    · exact EqOps.refl s
  · split
    · intro c; rw [winClosed_cell]; exact ⟨_, rfl⟩
    · exact EqOps.of_cells rfl

theorem eqOps_killWindows (s : State) (u : UnitAddr) (job) : EqOps s (s.killWindows u job) := by
  unfold State.killWindows
  apply eqOps_foldl
  intro s k
  apply eqOps_foldl
  intro s w
  split
  · exact eqOps_closeWin _ _ _ _
  · exact EqOps.refl s

theorem killSpreads_cells (s : State) (u job) : (s.killSpreads u job).cells = s.cells := rfl

theorem killWaiters_cells (s : State) (job) : (s.killWaiters job).cells = s.cells := by
  unfold State.killWaiters
  extract_lets hit s1
  refine (foldl_pres State.cells _ ?_ _ _).trans rfl
  intro s w
  rw [State.modDie_cells]
  exact (sendMsg_cells _ _).1

theorem stopped_facts (x : Cell) (job : BitVec 32) : job ∈ (x.stopped job).killed ∧ (x.stopped job).spad = x.spad ∧ (x.stopped job).seq.running = false ∧ (x.stopped job).ops = [] ∧ (x.stopped job).scrubbing = true := by
  unfold Cell.stopped
  refine ⟨?_, rfl, rfl, rfl, rfl⟩
  show job ∈ (if job ∈ x.killed then x.killed else x.killed ++ [job])
  split
  · assumption
  · simp

theorem shareFold_cell (l : List CmdRun) (s : State) (c d : CellIx) (code : Code) : ∃ n : Counters, (l.foldl (fun s r => s.shareDone c r code) s).cell d = { s.cell d with cnt := n } := by
  induction l generalizing s with
  | nil => exact ⟨_, rfl⟩
  | cons a l ih =>
    obtain ⟨n, h⟩ := ih (s.shareDone c a code)
    rw [List.foldl_cons, h, cell_of_cells (shareDone_cells s c a code) d]
    by_cases e : d = c
    · subst e; rw [State.cell_modCell]; exact ⟨n, rfl⟩
    · rw [State.cell_modCell_ne _ _ _ _ e]; exact ⟨n, rfl⟩

/-- what a kill has done to a cell that was `x` -/
def killedFrom (job : BitVec 32) (x y : Cell) : Prop :=
  job ∈ y.killed ∧ y.spad = x.spad ∧ (x.worksOn job = true → y.seq.running = false ∧ y.ops = [] ∧ y.scrubbing = true)

/-- untouched up to its operations and counters -/
def sameFrom (x y : Cell) : Prop := ∃ o n, y = { x with ops := o, cnt := n }

theorem killCell_self (s : State) (c : CellIx) (job : BitVec 32) (x : Cell) (h : sameFrom x (s.cell c) ∨ killedFrom job x (s.cell c)) :
    killedFrom job x ((s.killCell c job).cell c) := by
  have hk : ∀ y : Cell, job ∈ (if job ∈ y.killed then y.killed else y.killed ++ [job]) := by
    intro y; split
    · assumption
    · simp
  have hsp : (s.cell c).spad = x.spad := by
    rcases h with ⟨o, n, h⟩ | h
    · rw [h]
    · exact h.2.1
  unfold State.killCell
  extract_lets y kc s1 mm s2
  split
  · obtain ⟨n, hn⟩ := shareFold_cell kc s2 c c ccKilled
    rw [hn]
    have e1 : s2.cell c = (s.cell c).stopped job := by
      show s1.cell c = _
      exact State.cell_modCell _ _ _
    rw [e1]
    obtain ⟨a1, a2, a3, a4, a5⟩ := stopped_facts (s.cell c) job
    exact ⟨a1, a2.trans hsp, fun _ => ⟨a3, a4, a5⟩⟩
  · rename_i hw
    rw [State.cell_modCell]
    refine ⟨hk _, hsp, ?_⟩
    intro hx
    rcases h with ⟨o, n, h⟩ | h
    · exfalso; apply hw
      show (s.cell c).worksOn job = true
      rw [h]; exact hx
    · exact h.2.2 hx

theorem killCell_other (s : State) (c d : CellIx) (job : BitVec 32) (hd : d ≠ c) : ∃ n : Counters, (s.killCell c job).cell d = { s.cell d with cnt := n } := by
  unfold State.killCell
  extract_lets y kc s1 mm s2
  split
  · obtain ⟨n, hn⟩ := shareFold_cell kc s2 c d ccKilled
    refine ⟨n, ?_⟩
    rw [hn]
    have e1 : s2.cell d = s.cell d := by
      show s1.cell d = _
      exact State.cell_modCell_ne _ _ _ _ hd
    rw [e1]
  · rw [State.cell_modCell_ne _ _ _ _ hd]; exact ⟨_, rfl⟩

theorem killFold (l : List Nat) (job : BitVec 32) (s : State) (c : CellIx) (x : Cell) :
    (sameFrom x (s.cell c) ∧ c ∈ l.map cellIx ∨ killedFrom job x (s.cell c)) → killedFrom job x ((l.foldl (fun s i => s.killCell (cellIx i) job) s).cell c) := by
  induction l generalizing s with
  | nil => rintro (⟨-, h⟩ | h)
           · cases h
           · exact h
  | cons a l ih =>
    intro h
    rw [List.foldl_cons]
    apply ih
    by_cases e : c = cellIx a
    · right
      subst e
      apply killCell_self
      rcases h with h | h
      · exact .inl h.1
      · exact .inr h
    · obtain ⟨n, hn⟩ := killCell_other s (cellIx a) c job e
      rcases h with ⟨⟨o, n', h⟩, hm⟩ | h
      · left
        refine ⟨⟨o, n, ?_⟩, ?_⟩
        · rw [hn, h]
        · rw [List.map_cons, List.mem_cons] at hm
          exact hm.resolve_left e
      · right
        rw [hn]; exact h

theorem recordCut_facts (x : Cell) (k : CutRec) : k ∈ (x.recordCut k).cutRecs ∧ (x.recordCut k).spad = x.spad ∧ (x.recordCut k).seq = x.seq := by
  unfold Cell.recordCut
  split
  · exact ⟨by assumption, rfl, rfl⟩
  · exact ⟨by simp, rfl, rfl⟩

end Sys2Proof.Laws.CommandLaws
end

