-- ==== Sys2Proof/Laws/ControlLaws.lean ====
section
/-! SUPPORT. Lemmas about branches, jumps and what ends a program. -/

namespace Sys2Proof.Laws.ControlLaws

set_option linter.all false

open Sys2Proof Sys2Proof.Machine Sys2Proof.Claims

theorem tgt8 (pc : BitVec 21) (sx : Word) (h : pc.toNat % 8 = 0) : (pc.setWidth 64 + sx * 8 : Word).toNat % 8 = 0 := by
  rw [BitVec.toNat_add, BitVec.toNat_mul]; simp; omega

theorem branch_result {s : State} {c : CellIx} {opc f} (i : Instr) (p : Word → Word → Bool) (P : Prop) [Decidable P] (hn : NextInside s c)
    (hi : Issues s c opc f [f.ra, f.rb]) (ht : ((s.cell c).seq.pc.setWidth 64 + f.sx * 8).toNat < 0x200000)
    (hp : p ((s.cell c).seq.reg f.ra) ((s.cell c).seq.reg f.rb) = decide P) :
    JumpResult s c (if P then (s.cell c).seq.pc.setWidth 64 + f.sx * 8 else (s.cell c).seq.pc.setWidth 64 + 8)
      (s.issue c opc f i (bodyBranch c i f p)) := by
  rw [State.issue_at _ _ hi]; unfold bodyBranch; rw [State.guarded_regs _ _ hi.2.2.2.2]
  obtain ⟨h1, h2⟩ := hn
  have e : ((s.cell c).seq.pc.setWidth 64 + 8 : Word).toNat = (s.cell c).seq.pc.toNat + 8 := by
    rw [BitVec.toNat_add]; simp; omega
  simp only [JumpResult, State.modSeq, State.modCell, hp, decide_eq_true_eq]
  by_cases hP : P
  · simp only [if_pos hP]
    exact ⟨ht, by rw [Seq.target, goto_in ht (tgt8 _ _ h2)]⟩
  · simp only [if_neg hP]
    exact ⟨by omega, by rw [Seq.next, goto_in (by omega) (by omega)]⟩

end Sys2Proof.Laws.ControlLaws
end

