-- ==== Sys2Proof/Laws/DriverLaws.lean ====
section
/-! SUPPORT. Lemmas about jobs, submissions and the driver. -/

namespace Sys2Proof.Laws.DriverLaws

set_option linter.all false

open Sys2Proof Sys2Proof.Machine Sys2Proof.Claims

theorem stream_mod (s : State) (i : Nat) (f) : (s.modStream i f).stream i = f (s.stream i) := by
  unfold State.modStream State.stream Pcie.stream; simp

theorem stream_of_pcie {s t : State} (h : t.pcie = s.pcie) (i) : t.stream i = s.stream i := by unfold State.stream; rw [h]

theorem readEntry_can {s : State} {st : Nat} (f) (h : CanRead s st) : s.readEntry st f = f (entryRead s st) := by
  obtain ⟨a, b, c, d⟩ := h
  unfold State.readEntry; simp only []; rw [if_pos (by simp [a, b]; exact c), if_pos d]; rfl

theorem entryRead_ready (s : State) (st) : ((entryRead s st).stream st).ready = (s.stream st).ready := by
  unfold entryRead; rw [stream_mod]

theorem entryRead_drv (s : State) (st) : (entryRead s st).drv = s.drv := rfl

theorem entryRead_busy (s : State) (st) : (entryRead s st).streamBusy st = s.streamBusy st := by
  unfold State.streamBusy; rw [entryRead_ready]; rfl

theorem modDrv_back (u : State) (q : QEntry) (h : (u.drv.queue ++ [q]).erase q = u.drv.queue) :
    (u.modDrv (fun v => { v with queue := v.queue ++ [q] })).modDrv (fun v => { v with queue := v.queue.erase q }) = u := by
  unfold State.modDrv; simp only [h]

theorem seq_at {s : State} {st : Nat} {c : Instr} (h : CanRead s st) (hb : s.streamBusy st = false) (hq : ∀ q ∈ s.drv.queue, q.stream ≠ st) :
    s.sequential st c = (entryRead s st).begin { stream := st, cmd := c } := by
  unfold State.sequential; rw [readEntry_can _ h]
  unfold State.nextEntry
  have e1 : ((entryRead s st).modDrv (fun v => { v with queue := v.queue ++ [{ stream := st, cmd := c }] })).streamBusy st = false := by
    have := entryRead_busy s st
    rw [hb] at this; rw [← this]; rfl
  rw [if_neg (by rw [e1]; simp)]
  have e2 : ((entryRead s st).modDrv (fun v => { v with queue := v.queue ++ [{ stream := st, cmd := c }] })).drv.queue.find? (fun q => decide (q.stream = st)) = some { stream := st, cmd := c } := by
    show (s.drv.queue ++ [_]).find? _ = _
    rw [List.find?_append, List.find?_eq_none.mpr (by simpa using hq)]; simp
  rw [e2]
  simp only []
  congr 1
  have e3 : ((entryRead s st).drv.queue ++ [({ stream := st, cmd := c } : QEntry)]).erase { stream := st, cmd := c } = (entryRead s st).drv.queue := by
    show (s.drv.queue ++ [_]).erase _ = s.drv.queue
    rw [List.erase_append_right _ (by intro hm; exact hq _ hm rfl)]; simp
  exact modDrv_back _ _ e3

theorem kind_take (e : List Word) : Desc.kind (e.take 8) = Desc.kind e := by
  unfold Desc.kind Desc.f; congr 1; cases e <;> rfl

theorem posts_post (s : State) (st : Nat) (x : Completion) : Posts s st x ((entryRead s st).post st x) := rfl

def restOf (s : State) : Driver × SMap Cell × MemSys × Net × Evc × SMap UnitState := (s.drv, s.cells, s.mem, s.net, s.evc, s.units)

theorem post_rest (s : State) (st) (x) : restOf (s.post st x) = restOf s := rfl

theorem settle_rest (s : State) : restOf s.settle = restOf (s.modDrv (fun d =>
    { d with waits := d.waits.filter (fun w => decide (w ∉ s.drv.waits.filter s.waitOver)),
             graphs := d.graphs.filter (fun g => !g.released || !(s.drv.waits.filter s.waitOver).any (fun w => decide (w.kind = 5 ∧ w.graph = g.handle))) })) := by
  unfold State.settle; simp only []
  rw [foldl_pres restOf _ (fun _ _ => post_rest _ _ _)]

theorem settle_facts (s : State) : (∀ g ∈ s.settle.drv.graphs, g ∈ s.drv.graphs) ∧ s.settle.drv.jobs = s.drv.jobs ∧ s.settle.cells = s.cells ∧ s.settle.mem = s.mem := by
  have h := settle_rest s
  simp only [restOf, Prod.mk.injEq] at h
  obtain ⟨a, b, c, d⟩ := h
  rw [a, b, c]
  exact ⟨fun g hg => (List.mem_filter.mp hg).1, rfl, rfl, rfl⟩

theorem find_map_id (l : List JobRec) (f : JobRec → JobRec) (hf : ∀ i, (f i).id = i.id) (id : BitVec 32) :
    (l.map f).find? (fun j => decide (j.id = id)) = (l.find? (fun j => decide (j.id = id))).map f := by
  rw [List.find?_map]; congr 2; funext j; simp [Function.comp, hf]

theorem job_setJob (s : State) (j j' : JobRec) (id : BitVec 32) (h : s.drv.job? id = some j) (h' : j'.id = id) : (s.setJob j').drv.job? id = some j' := by
  have hid : j.id = id := by simpa using List.find?_some h
  show (List.map (fun i : JobRec => if i.id = j'.id then j' else i) s.drv.jobs).find? (fun j => decide (j.id = id)) = _
  rw [find_map_id _ _ (by intro i; by_cases q : i.id = j'.id <;> simp [q])]
  unfold Driver.job? at h; rw [h]; simp [hid, h']

theorem job_setJob_ne (s : State) (j' : JobRec) (id : BitVec 32) (h : id ≠ j'.id) : (s.setJob j').drv.job? id = s.drv.job? id := by
  show (List.map (fun i : JobRec => if i.id = j'.id then j' else i) s.drv.jobs).find? (fun j => decide (j.id = id)) = s.drv.jobs.find? _
  rw [find_map_id _ _ (by intro i; by_cases q : i.id = j'.id <;> simp [q])]
  rcases hc : s.drv.jobs.find? (fun j => decide (j.id = id)) with _ | i
  · rw [hc]; rfl
  · have : i.id = id := by simpa using List.find?_some hc
    rw [hc]; simp only [Option.map_some]; rw [if_neg (by rw [this]; exact h)]

theorem local_dev (s : State) : s.local? (UA.mk s.net.devId 0) = true := by
  unfold State.local? UA.device UA.mk
  simp only [decide_eq_true_eq]
  apply BitVec.eq_of_toNat_eq
  simp only [BitVec.toNat_setWidth, BitVec.toNat_ushiftRight, BitVec.toNat_ofNat, Nat.shiftRight_eq_div_pow]
  have := s.net.devId.isLt
  omega

def sendPart (s : State) := (s.drv, s.pcie, s.evc, s.dict, s.sync, s.waiters, s.rel, s.sec, s.pwr, s.dbg)

theorem routePacket_part (s : State) (d) (dest) (p) : ∀ t, s.routePacket d dest p = some t → sendPart t = sendPart s := by
  intro t h
  unfold State.routePacket at h
  split at h
  · cases h; rfl
  · rw [Option.map_eq_some_iff] at h
    obtain ⟨m, -, rfl⟩ := h
    rfl

theorem sendMsg_part (s : State) (m : Msg) : sendPart (s.sendMsg m) = sendPart s := by
  unfold State.sendMsg
  extract_lets t here
  have ht : sendPart t = sendPart s := by simp only [t]; split <;> rfl
  have hh : sendPart here = sendPart s := (show sendPart (t.fly m) = sendPart t from rfl).trans ht
  split
  · exact hh
  · rcases h : t.routePacket (UA.digit m.src 1 % 2) (UA.device m.dest) ⟨m.items, false, Option.none⟩ with _ | y
    · exact hh
    · exact (routePacket_part _ _ _ _ _ h).trans ht

theorem sendMsg_local_eq (s : State) (m : Msg) (h : s.local? m.dest = true) : s.sendMsg m = { s with net := (s.sendMsg m).net, units := (s.sendMsg m).units } := by
  unfold State.sendMsg
  simp only []
  by_cases q : s.local? m.src = true
  · simp only [if_pos q]; rw [if_pos (by rw [Bool.or_eq_true]; exact Or.inl h)]; rfl
  · simp only [if_neg q]; rw [if_pos (by rw [Bool.or_eq_true]; exact Or.inl h)]; rfl

theorem anyHit_read (s : State) (st : Nat) (d) : (entryRead s st).anyHit st d = s.anyHit st d := by
  unfold State.anyHit; rw [entryRead_ready]; rfl

theorem mark_other {s : State} {j : JobRec} {st : Nat} {d : Desc} (h : s.drv.jobs.filter (·.hit st d) = [j]) (i) (hi : i ∈ s.drv.jobs) (hn : i.id ≠ j.id) : i.hit st d = false := by
  by_contra q
  have : i ∈ s.drv.jobs.filter (·.hit st d) := List.mem_filter.mpr ⟨hi, by simpa using q⟩
  rw [h] at this; simp at this; exact hn (by rw [this])

theorem driverKill_eq (s : State) (job : BitVec 32) (tag) : ∃ m : Msg, s.driverKill job s.net.devId tag = s.sendMsg m ∧ m.cls = 0x01 ∧ m.dest = UA.mk s.net.devId 0 ∧ m.body = [BitVec.ofNat 120 (6 + job.toNat * 2 ^ 16)] := by
  unfold State.driverKill
  have : s.roleEpoch s.net.devId = ((s.unit 0).epoch, s) := by unfold State.roleEpoch; rw [if_pos rfl]
  rw [this]
  exact ⟨_, rfl, rfl, rfl, rfl⟩

theorem driverKill_own (s : State) (job : BitVec 32) (tag) : ∃ m, (s.driverKill job s.net.devId tag).net.inFlight = s.net.inFlight ++ [m] ∧ m.cls = 0x01 ∧ m.dest = UA.mk s.net.devId 0 ∧ m.body = [BitVec.ofNat 120 (6 + job.toNat * 2 ^ 16)] := by
  obtain ⟨m, h, a, b, c⟩ := driverKill_eq s job tag
  refine ⟨m, ?_, a, b, c⟩
  rw [h, sendMsg_inFlight s m (by rw [b]; exact local_dev s)]

theorem driverKill_own_rest (s : State) (job : BitVec 32) (tag) : (s.driverKill job s.net.devId tag).drv = s.drv ∧ (s.driverKill job s.net.devId tag).mem = s.mem ∧ (s.driverKill job s.net.devId tag).cells = s.cells := by
  obtain ⟨m, h, a, b, c⟩ := driverKill_eq s job tag
  rw [h, sendMsg_local_eq s m (by rw [b]; exact local_dev s)]
  exact ⟨rfl, rfl, rfl⟩

theorem cut_mono (x : Cell) (k r : CutRec) (h : r ∈ x.cutRecs) : r ∈ (x.recordCut k).cutRecs := by
  unfold Cell.recordCut; split
  · exact h
  · simp [h]

theorem cut_in (x : Cell) (k : CutRec) : k ∈ (x.recordCut k).cutRecs := by
  unfold Cell.recordCut; split
  · assumption
  · simp

theorem modCells_range (n : Nat) (hn : n ≤ 512) (f : Cell → Cell) (s : State) (c : CellIx) (h : c.val < n) : (s.modCells (List.range n) f).cell c = f (s.cell c) := by
  have := modCells_mem (List.range n) f (by
    rw [List.nodup_map_iff_inj_on List.nodup_range]
    intro a ha b hb h
    have ha := List.mem_range.mp ha
    have hb := List.mem_range.mp hb
    have : a % 512 = b % 512 := congrArg Fin.val h
    omega) c.val (List.mem_range.mpr h) s
  rw [cellIx_val] at this; exact this

theorem modCells_512 (s : State) (f) (c : CellIx) : (s.modCells (List.range 512) f).cell c = f (s.cell c) := by
  apply modCells_range
  · exact Nat.le_refl _
  · exact c.isLt

theorem cutDevice_cell (s : State) (job sc) (c : CellIx) : (s.cutDevice job sc).cell c = (s.cell c).recordCut ⟨job, sc⟩ := by
  unfold State.cutDevice
  rw [modCells_512]

theorem cutDevice_frame (s : State) (job sc) : s.cutDevice job sc = { s with cells := (s.cutDevice job sc).cells } := modCells_frame _ _ _

def notCells (s : State) := (s.mem, s.net, s.drv, s.pcie, s.evc)

theorem notCells_set (s : State) (x : SMap Cell) : notCells { s with cells := x } = notCells s := rfl

theorem cutDevice_rest (s : State) (job sc) : notCells (s.cutDevice job sc) = notCells s := Eq.trans (congrArg notCells (cutDevice_frame s job sc)) (notCells_set _ _)

theorem cuts_fold (c : CellIx) (l : List (BitVec 32 × Option (BitVec 16))) : ∀ (s : State) r, r ∈ (s.cell c).cutRecs ∨ (r.job, r.layer) ∈ l →
    r ∈ ((l.foldl (fun s k => s.cutDevice k.1 k.2) s).cell c).cutRecs := by
  induction l with
  | nil => intro s r h; simpa using h
  | cons a t ih =>
    intro s r h
    rw [List.foldl_cons]
    apply ih
    rw [cutDevice_cell]
    rcases h with h | h
    · exact Or.inl (cut_mono _ _ _ h)
    · rcases List.mem_cons.mp h with h | h
      · left; rw [← h]; exact cut_in _ _
      · exact Or.inr h

theorem forget_cell (s : State) (job : BitVec 32) (c : CellIx) :
    (s.forget job).cell c = { s.cell c with cutRecs := (s.cell c).cutRecs.filter (fun r => decide (r.job ≠ job)) } := by
  unfold State.forget State.cell
  have : ∀ l : SMap Cell, SMap.getD (l.map (fun x => (x.1, { x.2 with cutRecs := x.2.cutRecs.filter (fun r => decide (r.job ≠ job)) }))) c.val ({} : Cell) =
      { SMap.getD l c.val ({} : Cell) with cutRecs := (SMap.getD l c.val ({} : Cell)).cutRecs.filter (fun r => decide (r.job ≠ job)) } := by
    intro l
    unfold SMap.getD
    have g : SMap.get? (l.map (fun x => (x.1, { x.2 with cutRecs := x.2.cutRecs.filter (fun r => decide (r.job ≠ job)) }))) c.val =
        (SMap.get? l c.val).map (fun (x : Cell) => { x with cutRecs := x.cutRecs.filter (fun r => decide (r.job ≠ job)) }) := by
      induction l with
      | nil => rfl
      | cons a t ih => simp only [List.map_cons, SMap.get?]; split <;> first | rfl | exact ih
    rw [g]; cases SMap.get? l c.val <;> rfl
  exact this s.cells

theorem clearRefs_rest (s : State) (j : JobRec) : (s.clearRefs j).drv = s.drv ∧ (s.clearRefs j).cells = s.cells ∧ (s.clearRefs j).net = s.net := by
  unfold State.clearRefs; split <;> exact ⟨rfl, rfl, rfl⟩

theorem clearRefs_mem (s t : State) (i j : JobRec) (h1 : s.mem = t.mem) (h2 : s.drv.graphs = t.drv.graphs) (h3 : i.graph = j.graph) (h4 : i.done = j.done) (h5 : i.precs = j.precs) :
    (s.clearRefs i).mem = (t.clearRefs j).mem := by
  unfold State.clearRefs
  rw [h2, h3]
  split
  · simp only [h1, h4, h5]; rfl
  · exact h1

theorem clearRefs_none (s : State) (j : JobRec) (h : j.done = []) : (s.clearRefs j).mem = s.mem := by
  unfold State.clearRefs
  split
  · simp only [h]; simp
  · rfl

theorem starts_fold (c : CellIx) (job : BitVec 32) (l : List (Option (BitVec 16))) (s : State) (k) (h : k ∈ l) :
    (⟨job, k⟩ : CutRec) ∈ ((l.foldl (fun s k => s.cutDevice job k) s).cell c).cutRecs := by
  have := cuts_fold c (l.map (fun k => (job, k))) s ⟨job, k⟩ (Or.inr (List.mem_map.mpr ⟨k, h, rfl⟩))
  rw [List.foldl_map] at this; exact this

theorem roleEpoch_rest (s : State) (dev) : (s.roleEpoch dev).2.drv = s.drv ∧ (s.roleEpoch dev).2.cells = s.cells := by
  unfold State.roleEpoch; split
  · exact ⟨rfl, rfl⟩
  · split <;> exact ⟨rfl, rfl⟩

theorem driverSync_eq (s : State) (job dev obj op ack v tag) : ∃ m, s.driverSync job dev obj op ack v tag = (s.roleEpoch dev).2.sendMsg m := by
  unfold State.driverSync; exact ⟨_, rfl⟩

theorem driverSync_rest (s : State) (job dev obj op ack v tag) : (s.driverSync job dev obj op ack v tag).drv = s.drv ∧ (s.driverSync job dev obj op ack v tag).cells = s.cells := by
  obtain ⟨m, h⟩ := driverSync_eq s job dev obj op ack v tag
  rw [h]
  have h2 := sendMsg_part (s.roleEpoch dev).2 m
  simp only [sendPart, Prod.mk.injEq] at h2
  exact ⟨h2.1.trans (roleEpoch_rest s dev).1, (sendMsg_cells _ _).1.trans (roleEpoch_rest s dev).2⟩

theorem killRunning (s : State) (j : JobRec) (hp : j.phase = .running) : ∃ m : Msg, s.killJob j = ((s.setJob { j with killed := j.fail.isNone, phase := .killing }).clearRefs j).sendMsg m ∧ m.dest = UA.mk s.net.devId 0 := by
  unfold State.killJob; simp only [hp]
  obtain ⟨m, h, -, d, -⟩ := driverKill_eq ((s.setJob { j with killed := j.fail.isNone, phase := .killing }).clearRefs j) j.id 3
  have c3 : ((s.setJob { j with killed := j.fail.isNone, phase := .killing }).clearRefs j).net = s.net := (clearRefs_rest (s.setJob { j with killed := j.fail.isNone, phase := .killing }) j).2.2
  rw [c3] at h d
  exact ⟨m, h, d⟩

theorem killRunning_rest (s : State) (j : JobRec) (hp : j.phase = .running) : (s.killJob j).cells = s.cells ∧ (s.killJob j).mem = (s.clearRefs j).mem ∧ (s.killJob j).drv = (s.setJob { j with killed := j.fail.isNone, phase := .killing }).drv := by
  obtain ⟨m, h, d⟩ := killRunning s j hp
  obtain ⟨c1, c2, c3⟩ := clearRefs_rest (s.setJob { j with killed := j.fail.isNone, phase := .killing }) j
  rw [h, sendMsg_local_eq _ m (by rw [d]; unfold State.local?; rw [c3]; exact local_dev s)]
  exact ⟨c2, clearRefs_mem (s.setJob { j with killed := j.fail.isNone, phase := .killing }) s j j rfl rfl rfl rfl rfl, c1⟩

def twoMem (m : MemSys) := (m.mem, m.wsMem)

theorem alloc_two (m : MemSys) (d n use) : ∀ t, m.alloc d n use = some t → twoMem t.2 = twoMem m := by
  intro t h; unfold MemSys.alloc at h; simp only [Option.map_eq_some_iff] at h; obtain ⟨b, -, rfl⟩ := h; rfl

theorem allocMany_two (d n use) : ∀ (k : Nat) (m : MemSys) t, m.allocMany d n use k = some t → twoMem t = twoMem m := by
  intro k; induction k with
  | zero => intro m t h; unfold MemSys.allocMany at h; cases h; rfl
  | succ k ih =>
    intro m t h; unfold MemSys.allocMany at h
    split at h
    · cases h
    · rename_i x hx; exact (ih _ _ h).trans (alloc_two _ _ _ _ _ hx)

theorem allocHold_two (m : MemSys) (d dest n) : ∀ t, m.allocHold d dest n = some t → twoMem t = twoMem m := by
  intro t h; unfold MemSys.allocHold at h; simp only [Option.bind_eq_some_iff] at h; obtain ⟨x, hx, h⟩ := h
  split at h
  · cases h; exact allocMany_two _ _ _ _ _ _ hx
  · simp only [Option.map_eq_some_iff] at h; obtain ⟨y, hy, rfl⟩ := h
    exact (alloc_two _ _ _ _ _ hy).trans (allocMany_two _ _ _ _ _ _ hx)

theorem routePacket_two (s : State) (d) (dest) (p) : ∀ t, s.routePacket d dest p = some t → twoMem t.mem = twoMem s.mem := by
  intro t h
  unfold State.routePacket at h
  split at h
  · cases h; rfl
  · rw [Option.map_eq_some_iff] at h
    obtain ⟨m, hm, rfl⟩ := h
    exact allocHold_two _ _ _ _ _ hm

theorem sendMsg_two (s : State) (m : Msg) : twoMem (s.sendMsg m).mem = twoMem s.mem := by
  unfold State.sendMsg
  extract_lets t n here
  have ht : twoMem t.mem = twoMem s.mem := by simp only [t]; split <;> rfl
  split
  · exact ht
  · rcases h : t.routePacket (UA.digit m.src 1 % 2) (UA.device m.dest) ⟨m.items, false, Option.none⟩ with _ | y
    · exact ht
    · exact (routePacket_two _ _ _ _ _ h).trans ht

def wePart (st : Nat) (s : State) := (s.cells, twoMem s.mem, (s.stream st).cqTail)

theorem modStream_we (st i : Nat) (s : State) (f : Stream → Stream) (h : ∀ q, (f q).cqTail = q.cqTail) : wePart st (s.modStream i f) = wePart st s := by
  have : ((s.modStream i f).stream st).cqTail = (s.stream st).cqTail := by
    unfold State.stream State.modStream Pcie.stream
    simp only [SMap.getD_set]
    split
    · rename_i e; cases e; rw [h]; rfl
    · rfl
  show (_, _, _) = _
  rw [this]; rfl

theorem we_of (st : Nat) (s t : State) (h1 : t.cells = s.cells) (h2 : twoMem t.mem = twoMem s.mem) (h3 : t.pcie = s.pcie) : wePart st t = wePart st s := by
  unfold wePart; rw [h1, h2, stream_of_pcie h3]

theorem post_we (st i : Nat) (s : State) (x) : wePart st (s.post i x) = wePart st s := modStream_we _ _ _ _ (fun _ => rfl)

theorem settle_we (st : Nat) (s : State) : wePart st s.settle = wePart st s := by
  unfold State.settle; simp only []
  rw [foldl_pres (wePart st) _ (fun _ _ => post_we _ _ _ _)]
  rfl

theorem driverSync_we (st : Nat) (s : State) (job dev obj op ack v tag) : wePart st (s.driverSync job dev obj op ack v tag) = wePart st s := by
  obtain ⟨m, h⟩ := driverSync_eq s job dev obj op ack v tag
  rw [h]
  have hp := sendMsg_part (s.roleEpoch dev).2 m
  simp only [sendPart, Prod.mk.injEq] at hp
  have : wePart st (s.roleEpoch dev).2 = wePart st s := by
    unfold State.roleEpoch; split
    · rfl
    · split <;> rfl
  rw [← this]
  exact we_of _ _ _ (sendMsg_cells _ _).1 (sendMsg_two _ _) hp.2.1

theorem begin_we (st : Nat) (s : State) (q : QEntry) : wePart st (s.begin q) = wePart st s := by
  unfold State.begin; split
  · unfold State.beginJob; split
    · unfold State.killedEntry; simp only []; split
      · split
        · exact post_we _ _ _ _
        · exact (driverSync_we _ _ _ _ _ _ _ _ _).trans rfl
      · exact post_we _ _ _ _
    · split
      · exact post_we _ _ _ _
      · unfold State.acceptJob; simp only []; split
        · exact (driverSync_we _ _ _ _ _ _ _ _ _).trans rfl
        · rfl
  · unfold State.beginRegister; simp only []; split
    · exact post_we _ _ _ _
    · split
      · exact post_we _ _ _ _
      · exact (post_we _ _ _ _).trans rfl
  · unfold State.beginRelease; simp only []; split
    · exact post_we _ _ _ _
    · split
      · exact (settle_we _ _).trans rfl
      · exact post_we _ _ _ _
  · rfl

theorem nextEntry_we (st i : Nat) (s : State) : wePart st (s.nextEntry i) = wePart st s := by
  unfold State.nextEntry; split
  · rfl
  · split
    · rfl
    · exact (begin_we _ _ _).trans rfl

theorem vector_we (st : Nat) (s : State) (v) : wePart st (s.vector v) = wePart st s := rfl

theorem publish_we (st : Nat) (s : State) (v) : wePart st (s.publish st v) = (s.cells, twoMem s.mem, v) := by
  unfold State.publish; simp only []
  split
  · unfold State.signal
    rw [vector_we]; refine Eq.trans (modStream_we _ _ _ _ ?_) ?_
    · intro q; rfl
    unfold wePart; rw [stream_mod]; rfl
  · unfold wePart; rw [stream_mod]; rfl

def layPart (s : State) := (s.drv, s.cells, s.net, s.timeHost)

theorem writeDev_lay (s : State) (a l) : layPart (s.writeDev a l) = layPart s := rfl

theorem writeRecords_lay (s : State) (job layer g p l r c) : layPart (s.writeRecords job layer g p l r c) = layPart s := by
  unfold State.writeRecords; split
  · rfl
  · simp only []; split
    · rfl
    · split
      · exact writeDev_lay _ _ _
      · split
        · exact (writeDev_lay _ _ _).trans (writeDev_lay _ _ _)
        · rfl

theorem endDelta_lay (s : State) (g l) : layPart (s.endDelta g l) = layPart s := by
  unfold State.endDelta; simp only []; exact (writeDev_lay _ _ _).trans (writeDev_lay _ _ _)

theorem writeLedgers_lay (s : State) (l x) : layPart (s.writeLedgers l x) = layPart s := by
  unfold State.writeLedgers; simp only []; split <;> rfl

theorem openLayer_some {s : State} {job layer j g p l} (h : s.openLayer job layer = some (j, g, p, l)) : s.drv.job? job = some j ∧ j.id = job := by
  unfold State.openLayer at h
  rw [Option.bind_eq_some_iff] at h
  obtain ⟨j', hj, h⟩ := h
  split at h
  · rw [Option.bind_eq_some_iff] at h
    obtain ⟨g', hg, h⟩ := h
    split at h
    · rw [Option.map_eq_some_iff] at h
      obtain ⟨l', hl, h⟩ := h
      cases h
      exact ⟨hj, by simpa using List.find?_some hj⟩
    · cases h
  · cases h

theorem wordBytes_get (l : List Word) : (wordBytes l).length = 8 * l.length := by
  induction l with
  | nil => rfl
  | cons a t ih => unfold wordBytes at *; rw [List.flatMap_cons, List.length_append, ih, bytesLE_length]; simp; omega

theorem two_first (m : List Host.Cell) (a : Nat) (l : List Byte) (w : Word) :
    Memory.readBytes (Memory.writeBytes (Memory.writeBytes m (a + 8) l) a (wordBytes [w])) a 8 = bytesLE 8 w.toNat := by
  apply List.ext_getElem
  · simp [Memory.readBytes, bytesLE_length]
  · intro i h1 h2
    simp only [Memory.readBytes, List.getElem_map, List.getElem_range]
    have h3 : i < (wordBytes [w]).length := by
      rw [wordBytes_get]; rw [bytesLE_length] at h2; simpa using h2
    rw [read_writeBytes_in _ _ _ _ h3]
    unfold wordBytes; simp

theorem two_rest (m : List Host.Cell) (a : Nat) (l : List Byte) (w : Word) (i b) (hb : l[i]? = some b) :
    Memory.read (Memory.writeBytes (Memory.writeBytes m (a + 8) l) a (wordBytes [w])) (a + 8 + i) = b := by
  rw [Memory.read_writeBytes_ne _ _ _ _ (by right; rw [wordBytes_get]; simp)]
  have h3 : i < l.length := by
    by_contra q; rw [List.getElem?_eq_none (by omega)] at hb; cases hb
  rw [read_writeBytes_in _ _ _ _ h3]
  rw [List.getElem?_eq_getElem h3] at hb; simpa using hb

def entryMem (s : State) (st : Nat) (x : Completion) : List Host.Cell :=
  let q := s.stream st
  let a := (q.cqBase.toNat + 128 * q.cqTail.toNat) % 2 ^ 64
  Memory.writeBytes (Memory.writeBytes s.mem.wsMem (a + 8) (wordBytes (x.words.drop 1))) a (wordBytes [x.words.getD 0 0 + BitVec.ofNat 64 (b2n q.phase * 2 ^ 63)])

theorem modStream_two (s : State) (i f) : (s.modStream i f).cells = s.cells ∧ twoMem (s.modStream i f).mem = twoMem s.mem := ⟨rfl, rfl⟩

theorem entryMem_first (s : State) (st : Nat) (x : Completion) : Memory.readBytes (entryMem s st x) (((s.stream st).cqBase.toNat + 128 * (s.stream st).cqTail.toNat) % 2 ^ 64) 8 = bytesLE 8 (x.words.getD 0 0 + BitVec.ofNat 64 (b2n (s.stream st).phase * 2 ^ 63)).toNat := by
  unfold entryMem; extract_lets q a; rw [two_first]

theorem entryMem_rest (s : State) (st : Nat) (x : Completion) (i b) (h : (wordBytes (x.words.drop 1))[i]? = some b) : Memory.read (entryMem s st x) (((s.stream st).cqBase.toNat + 128 * (s.stream st).cqTail.toNat) % 2 ^ 64 + 8 + i) = b := by
  unfold entryMem; extract_lets q a; rw [two_rest _ _ _ _ _ _ h]

theorem setMem_cells (s : State) (m : MemSys) (i f) : (({ s with mem := m } : State).modStream i f).cells = s.cells := rfl

theorem setMem_mem (s : State) (m : MemSys) (i f) : (({ s with mem := m } : State).modStream i f).mem = m := rfl

theorem writeEntry_eq (s : State) (st : Nat) (x : Completion) : ∃ (m : MemSys) (f : Stream → Stream), s.writeEntry st x = (((({ s with mem := m } : State).modStream st f).publish st (BitVec.ofNat 16 (((s.stream st).cqTail.toNat + 1) % (s.stream st).cqSize.toNat))).settle).nextEntry st ∧
    m.mem = s.mem.mem ∧ m.wsMem = entryMem s st x := by
  unfold State.writeEntry entryMem
  exact ⟨_, _, rfl, rfl, rfl⟩

theorem writeEntry_we (s : State) (st : Nat) (x : Completion) : wePart st (s.writeEntry st x) = (s.cells, (s.mem.mem, entryMem s st x), BitVec.ofNat 16 (((s.stream st).cqTail.toNat + 1) % (s.stream st).cqSize.toNat)) := by
  obtain ⟨m, f, h, h2, h3⟩ := writeEntry_eq s st x
  rw [h, nextEntry_we, settle_we, publish_we, setMem_cells, setMem_mem]
  unfold twoMem; rw [h2, h3]

end Sys2Proof.Laws.DriverLaws
end

