-- ==== Sys2Proof/Laws/FreezeLaws.lean ====
section
/-! SUPPORT. Lemmas about snapshots, freezes and test access ports. -/

namespace Sys2Proof.Laws.FreezeLaws

set_option linter.all false

open Sys2Proof Sys2Proof.Machine Sys2Proof.Claims

theorem modTap_modTap (s : State) (i : Nat) (f g : Tap → Tap) : (s.modTap i f).modTap i g = s.modTap i (fun t => g (f t)) := by
  unfold State.modTap Dbg.setTap Dbg.tap
  by_cases h0 : i = 0
  · subst h0; rfl
  · by_cases h1 : i = 1
    · subst h1; rfl
    · simp only [if_neg h0, if_neg h1]

theorem tap_modTap (s : State) (i : Nat) (f : Tap → Tap) : (s.modTap i f).dbg.tap i = f (s.dbg.tap i) := by
  unfold State.modTap Dbg.setTap Dbg.tap
  by_cases h0 : i = 0
  · subst h0; rfl
  · by_cases h1 : i = 1
    · subst h1; rfl
    · simp only [if_neg h0, if_neg h1]

theorem selectTap_free (s : State) (i : Nat) (opc : BitVec 8) (h : holdsPins opc = false) : s.selectTap i opc = s.modTap i (fun t => { t with instr := opc }) := by
  unfold State.selectTap; simp only []; rw [if_neg (by rw [h]; simp)]

theorem known_free (i) (opc : BitVec 8) (h : tapKnown i opc = false) : holdsPins opc = false := by
  unfold tapKnown at h; unfold holdsPins
  rw [decide_eq_false_iff_not] at h ⊢
  intro q; apply h; left
  simp only [List.mem_cons, List.not_mem_nil, or_false] at q ⊢
  omega

theorem select_hold (s : State) (i : Nat) (opc : BitVec 8) (h : holdsPins opc = true) (hi : i < 3) :
    ((s.selectTap i opc).dbg.tap i).instr = opc ∧ (s.selectTap i opc).cells = s.cells ∧ (s.selectTap i opc).dict = s.dict ∧
        (i = 0 → (s.selectTap i opc).pcie = { s.pcie with up := false } ∧ (s.selectTap i opc).net = s.net) ∧
        (i ≠ 0 → (s.selectTap i opc).pcie = s.pcie ∧ ∀ l ∈ (s.selectTap i opc).net.links, l.1 / 16 = i - 1 → l.2.st ≠ .up ∧ l.2.lock = false) := by
  unfold State.selectTap; simp only []; rw [if_pos h]
  unfold State.pullPins
  split
  · rename_i h0
    refine ⟨congrArg Tap.instr (tap_modTap s i (fun t => { t with instr := opc })), rfl, rfl, fun _ => ⟨rfl, rfl⟩, fun q => absurd h0 q⟩
  · rename_i h0
    refine ⟨congrArg Tap.instr (tap_modTap s i (fun t => { t with instr := opc })), rfl, rfl, fun q => absurd q h0, fun _ => ⟨rfl, ?_⟩⟩
    intro l hl hk
    obtain ⟨y, hy, rfl⟩ := List.mem_map.mp hl
    simp only [] at hk ⊢
    rw [if_pos hk]
    refine ⟨?_, rfl⟩
    simp only []
    split
    · simp
    · assumption

theorem fullOff (s : State) (h : s.dbg.fullFrozen = false) (h1 : s.dbg.doorWait = []) (h2 : s.dbg.barWait = []) : s.thaw = s := by
  have hb : s.runBarOps = s := by
    unfold State.runBarOps; rw [h2]
    have : ({ s.dbg with barWait := [] } : Dbg) = s.dbg := by
      have e : s.dbg.barWait = [] := h2
      rcases hd : s.dbg with ⟨⟩
      rw [hd] at e; simp only at e; subst e; rfl
    rw [this]; rfl
  have hr : s.ringDoorbells = s := by
    unfold State.ringDoorbells; rw [h1]
    have : ({ s.dbg with doorWait := [] } : Dbg) = s.dbg := by
      have e : s.dbg.doorWait = [] := h1
      rcases hd : s.dbg with ⟨⟩
      rw [hd] at e; simp only at e; subst e; rfl
    rw [this]; rfl
  unfold State.thaw; simp only []
  have e1 : (if s.dbg.fullFrozen = true then s else s.runBarOps) = s := by rw [h, hb]; simp
  rw [e1]; split
  · rfl
  · exact hr

theorem debugBytes_get (s : State) (c) (sp o n i : Nat) (h : i < n) : (s.debugBytes c sp o n)[i]? = some (s.debugByte c sp (o + i)) := by
  unfold State.debugBytes; rw [List.getElem?_map, List.getElem?_range h]; rfl

theorem ans_loc (u : State) (r : DictReq) (st ty tot data) (h : r.path = .loc) (i b) (hb : data[i]? = some b) : Memory.read (u.answer r st ty tot data).dict.loc.data i = b := by
  unfold State.answer; simp only [h]
  exact mbRead _ _ _ i b hb

theorem finish_some (s : State) (r p k) (t) : s.finishWrite r p k (some t) = t.done r p k := rfl

theorem sendMsg_local_eq (s : State) (m : Msg) (h : s.local? m.dest = true) : s.sendMsg m = { s with net := (s.sendMsg m).net, units := (s.sendMsg m).units } := by
  unfold State.sendMsg
  simp only []
  by_cases q : s.local? m.src = true
  · simp only [if_pos q]; rw [if_pos (by rw [Bool.or_eq_true]; exact Or.inl h)]; rfl
  · simp only [if_neg q]; rw [if_pos (by rw [Bool.or_eq_true]; exact Or.inl h)]; rfl

theorem local_mk (s : State) (k : Nat) (hk : k < 2 ^ 48) : s.local? (UA.mk s.net.devId k) = true := by
  unfold State.local? UA.device UA.mk
  simp only [decide_eq_true_eq]
  apply BitVec.eq_of_toNat_eq
  simp only [BitVec.toNat_setWidth, BitVec.toNat_ushiftRight, BitVec.toNat_ofNat, Nat.shiftRight_eq_div_pow]
  have := s.net.devId.isLt
  omega

theorem depth_lt (u : UnitAddr) : UA.depth u ≤ 15 := by
  unfold UA.depth fld
  omega

theorem keyOf_lt (d i : Nat) (h : d ≤ 14) : UA.keyOf d i < 2 ^ 48 := by
  unfold UA.keyOf; simp only []
  generalize i / UA.span d * UA.span d = j
  omega

theorem modUnit_shadow (s : State) (k : Nat) (f : UnitState → UnitState) (hf : ∀ u, (f u).shadow = u.shadow) (j) : ((s.modUnit k f).unit j).shadow = (s.unit j).shadow := by
  by_cases h : j = k
  · subst h; rw [State.unit_modUnit, hf]
  · rw [State.unit_modUnit_ne _ _ _ _ h]

theorem sendMsg_shadow (s : State) (m : Msg) (h : s.local? m.dest = true) (j) : ((s.sendMsg m).unit j).shadow = (s.unit j).shadow := by
  unfold State.sendMsg
  simp only []
  by_cases q : s.local? m.src = true
  · simp only [if_pos q]; rw [if_pos (by rw [Bool.or_eq_true]; exact Or.inl h)]
    exact modUnit_shadow s (UA.key m.src) (fun u => { u with msgSent := u.msgSent + 1 }) (fun _ => rfl) j
  · simp only [if_neg q]; rw [if_pos (by rw [Bool.or_eq_true]; exact Or.inl h)]; rfl

theorem sendLocal (s : State) (m : Msg) (h : s.local? m.dest = true) : (s.sendMsg m).cells = s.cells ∧ (s.sendMsg m).mem = s.mem ∧ ∀ j, ((s.sendMsg m).unit j).shadow = (s.unit j).shadow := by
  refine ⟨?_, ?_, fun j => sendMsg_shadow s m h j⟩ <;> rw [sendMsg_local_eq s m h]

theorem waveCheck_facts (s : State) (k : Nat) : (s.waveCheck k).cells = s.cells ∧ (s.waveCheck k).mem = s.mem ∧
    ∃ st rp, ((s.waveCheck k).unit k).shadow = { (s.unit k).shadow with state := st, reported := rp } ∧ (st = (s.unit k).shadow.state ∨ st = 2) := by
  unfold State.waveCheck
  extract_lets h u y d0 t up
  have hy : y.cells = s.cells ∧ y.mem = s.mem ∧ (y.unit k).shadow = { (s.unit k).shadow with state := 2, reported := true } := by
    refine ⟨rfl, rfl, ?_⟩
    show ((s.modUnit k _).unit k).shadow = _
    rw [State.unit_modUnit]
  split
  · split
    · split
      · split
        · exact ⟨hy.1, hy.2.1, 2, true, hy.2.2, Or.inr rfl⟩
        · exact ⟨hy.1, hy.2.1, 2, true, hy.2.2, Or.inr rfl⟩
      · exact ⟨hy.1, hy.2.1, 2, true, hy.2.2, Or.inr rfl⟩
    · have hl : y.useFree.local? up = true := by
        have : y.useFree.net.devId = y.net.devId := rfl
        show decide (UA.device up = y.net.devId) = true
        exact local_mk y _ (keyOf_lt _ _ (by have := depth_lt u; omega))
      generalize hm : ({ dest := up, epoch := Config.replyEpoch up t, cls := 0x09, tag := t, src := u, code := 0, bounced := false, body := h.body } : Msg) = m
      have hl' : y.useFree.local? m.dest = true := by rw [← hm]; exact hl
      obtain ⟨a, b, c⟩ := sendLocal y.useFree m hl'
      exact ⟨a.trans hy.1, b.trans hy.2.1, 2, true, (c k).trans hy.2.2, Or.inr rfl⟩
  · exact ⟨rfl, rfl, (s.unit k).shadow.state, (s.unit k).shadow.reported, rfl, Or.inl rfl⟩

theorem waveFirst_facts (s : State) (k : Nat) (ch w root) : (s.waveFirst k ch w root).cells = s.cells ∧ (s.waveFirst k ch w root).mem = s.mem ∧
    ((s.waveFirst k ch w root).unit k).shadow = { origin := w.origin, state := 1, num := w.num, time := s.nodeTime k, vals := s.latch k, root := root, pending := s.waveInputs k w root } := by
  have L : ∀ (l : List (Fin 32)) (p : Packet) (z : State), let y := l.foldl (fun s l => { s with net := (s.net.enqueue l.val false p).enqueue l.val true p }) z; y.cells = z.cells ∧ y.mem = z.mem := by
    intro l p; induction l with
    | nil => intro z; exact ⟨rfl, rfl⟩
    | cons a l ih => intro z; exact ih _
  unfold State.waveFirst; simp only []
  have K := L (s.waveLinks k w) ⟨[w.item], false, none⟩ s
  refine ⟨K.1, K.2, ?_⟩
  exact congrArg UnitState.shadow (State.unit_modUnit (s.waveOverLinks k w) k (fun v => { v with shadow := { origin := w.origin, state := 1, num := w.num, time := s.nodeTime k, vals := s.latch k, root := root, pending := s.waveInputs k w root } }))

end Sys2Proof.Laws.FreezeLaws
end

