-- ==== Sys2Proof/Laws/GroupLaws.lean ====
section
/-! SUPPORT. Lemmas about the group unit. -/

namespace Sys2Proof.Laws.GroupLaws

set_option linter.all false

open Sys2Proof Sys2Proof.Machine Sys2Proof.Claims

@[simp] theorem modDie_cells (s : State) (d f) : (s.modDie d f).cells = s.cells := by simp

theorem reads_refl (s : State) : OnlyReads s s := rfl

theorem reads_trans {s u t : State} (h : OnlyReads s u) (k : OnlyReads u t) : OnlyReads s t := by
  unfold OnlyReads at *; rw [k, h]

theorem reads_set {s u : State} (h : OnlyReads s u) (c : CellIx) (y : Cell) : OnlyReads (s.setCell c y) (u.setCell c y) := by
  unfold OnlyReads at *; rw [h]; rfl

theorem reads_modDie (s : State) (d f) : OnlyReads s (s.modDie d f) := by
  unfold State.modDie; split <;> rfl

theorem reads_dir (s : State) (d) : OnlyReads s (s.dirAccess d) := by
  unfold State.dirAccess; extract_lets k w h m u
  exact reads_trans (u := u) rfl (reads_modDie _ _ _)

theorem reads_fold {α : Type} (f : State → α → State) (h : ∀ s a, OnlyReads s (f s a)) (l : List α) (s : State) : OnlyReads s (l.foldl f s) := by
  induction l generalizing s with
  | nil => rfl
  | cons a l ih => exact reads_trans (h s a) (ih _)

structure Same (s u : State) : Prop where
  cells : u.cells = s.cells
  units : u.units = s.units
  net : u.net = s.net
  pcie : u.pcie = s.pcie
  mem : u.mem.mem = s.mem.mem
  tags : u.mem.tags = s.mem.tags
  lost : u.mem.lost = s.mem.lost
  q : u.mem.storeQ = s.mem.storeQ
  replaced : u.mem.replaced = s.mem.replaced
  extents : u.mem.extents = s.mem.extents
  chans : u.mem.chans = s.mem.chans
  entry : ∀ d, u.mem.entry d = s.mem.entry d
  unit : ∀ d, u.mem.readUnit d = s.mem.readUnit d
  ws : ∀ d, u.wsUnit d = s.wsUnit d
  dir : u.mem.dirEntries = s.mem.dirEntries
  run : u.runTime = s.runTime

theorem reads_same {s u : State} (h : OnlyReads s u) : Same s u := by
  unfold OnlyReads at h; rw [h]
  constructor <;> intros <;> rfl

theorem Same.cell {s u : State} (h : Same s u) (c : CellIx) : u.cell c = s.cell c := by simp [State.cell, h.cells]

theorem noneSet {m map : Nat} (h : m &&& map = 0) : (List.range 64).filter (fun i => m.testBit i && map.testBit i) = [] := by
  rw [List.filter_eq_nil_iff]; intro i _
  rw [← Nat.testBit_and, h]; simp

theorem decode_none {rd w map d p m} (h : m &&& map = 0) : decodeBlocks rd w map d p m = [] := by
  simp [decodeBlocks, noneSet h]

theorem units_none {w map d m} (h : m &&& map = 0) : unitsRead w map d m = [] := by
  simp [unitsRead, noneSet h]

theorem readGroup_clean (s : State) (c lo hi w mask) (e : List UnitFlip)
    (h : ∀ u ∈ unitsRead w (Ent2.bitmap lo hi) (Ent2.dense hi) mask, (s.mem.readUnit (Ent2.base lo + u)).2.getLsbD 1 = headTag w (Ent2.dense hi) u ∧
        s.mem.unitErr (Ent2.base lo + u) e ≠ .uncorrectable) :
    ∃ t, s.readGroup c lo hi w mask e = (decodeBlocks (fun u => s.mem.readUnit (Ent2.base lo + u)) w (Ent2.bitmap lo hi) (Ent2.dense hi)
      (Ent2.psnAny hi) mask, none, t) ∧ OnlyReads s t := by
  have : (unitsRead w (Ent2.bitmap lo hi) (Ent2.dense hi) mask).find? (fun u =>
      decide ((s.mem.readUnit (Ent2.base lo + u)).2.getLsbD 1 ≠ headTag w (Ent2.dense hi) u ∨ s.mem.unitErr (Ent2.base lo + u) e = .uncorrectable)) = none := by
    rw [List.find?_eq_none]; intro u hu; have := h u hu; rw [this.1]; simp [this.2]
  unfold State.readGroup
  simp only [this]
  refine ⟨_, rfl, ?_⟩
  refine reads_trans ?_ (reads_fold _ (fun s a => reads_modDie _ _ _) _ _)
  exact rfl

/-- What a fetch of blocks at hand does with them. -/
theorem at_hand {s u : State} {ent w mask e} (h : AtHand s ent w mask e) (k : OnlyReads s u) (c) :
    ((mask &&& Ent2.bitmap ent.1 ent.2 = 0 ∨ Ent2.loc ent.2 = 0) ∧
      ∃ t, u.readGroup c ent.1 ent.2 w mask e = (storedBlocks s ent w mask, none, t) ∧ OnlyReads s t) ∨
    (¬ (mask &&& Ent2.bitmap ent.1 ent.2 = 0 ∨ Ent2.loc ent.2 = 0) ∧ Ent2.loc ent.2 = 2 ∧ u.pcie.bme = true ∧
      decodeBlocks (fun v => u.wsUnit (Ent2.base ent.1 + v)) w (Ent2.bitmap ent.1 ent.2) (Ent2.dense ent.2)
        (Ent2.psnAny ent.2) mask = storedBlocks s ent w mask) := by
  have S := reads_same k
  by_cases h0 : mask &&& Ent2.bitmap ent.1 ent.2 = 0 ∨ Ent2.loc ent.2 = 0
  · refine .inl ⟨h0, ?_⟩
    obtain ⟨t, e1, e2⟩ := readGroup_clean u c ent.1 ent.2 w mask e (by
      intro v hv
      have ue : ∀ a, u.mem.unitErr a e = s.mem.unitErr a e := fun a => by simp only [MemSys.unitErr, S.unit]
      rw [S.unit, ue]
      by_cases h2 : Ent2.loc ent.2 = 2
      · rcases h0 with h0 | h0
        · rw [units_none h0] at hv; cases hv
        · omega
      · exact h.2 h2 v hv)
    refine ⟨t, ?_, reads_trans k e2⟩
    rw [e1]
    by_cases h2 : Ent2.loc ent.2 = 2
    · rcases h0 with h0 | h0
      · simp only [storedBlocks, decode_none h0]
      · omega
    · simp only [storedBlocks, if_neg h2, S.unit]
  · refine .inr ⟨h0, ?_⟩
    rcases h.1 with a | a | a
    · exact absurd (.inl a) h0
    · exact absurd (.inr a) h0
    · exact ⟨a.1, by rw [S.pcie]; exact a.2, by simp only [storedBlocks, if_pos a.1, S.ws]⟩

/-- A cell once blocks are delivered into it. -/
def delivered (row w mask : Nat) (blocks : List (Nat × Bool × List Byte)) (x : Cell) : Cell :=
  let n := popBelow mask 64
  let x := x.overwritten row (groupRows w)
  let x := { x with spad := writeGroup x.spad row w mask blocks }
  let x := if w < 16 then x
    else blocks.foldl (fun x b => (slotParts row w b.1).foldl (fun x h => x.markPart h b.2.1) x) x
  { x with cnt := { x.cnt with absentDelivered := x.cnt.absentDelivered + BitVec.ofNat 64 (n - blocks.length),
                               fetchBlocks := x.cnt.fetchBlocks + BitVec.ofNat 64 n } }

theorem deliver_eq (s : State) (l row w mask bl) : s.deliver l row w mask bl = s.modCells l (delivered row w mask bl) := rfl

theorem deliver_one (s : State) (c : CellIx) (row w mask bl) : s.deliver [c.val] row w mask bl = s.modCell c (delivered row w mask bl) := by
  simp [deliver_eq, State.modCells, cellIx_val]

theorem marks_psn {α β : Type} (l : List α) (g : α → List β) (k : β → α → Nat) (p : α → Bool) (x : Cell) :
    ∃ q, l.foldl (fun x b => (g b).foldl (fun (x : Cell) h => x.markPart (k h b) (p b)) x) x = { x with psnRows := q } := by
  induction l generalizing x with
  | nil => exact ⟨_, rfl⟩
  | cons a l ih =>
    have h : ∀ (m : List β) (y : Cell), ∃ q, m.foldl (fun (x : Cell) h => x.markPart (k h a) (p a)) y = { y with psnRows := q } := by
      intro m; induction m with
      | nil => exact fun y => ⟨_, rfl⟩
      | cons b m ih => intro y; obtain ⟨q, hq⟩ := ih (y.markPart (k b a) (p a)); exact ⟨q, hq⟩
    obtain ⟨q, hq⟩ := h (g a) x
    obtain ⟨q2, hq2⟩ := ih { x with psnRows := q }
    refine ⟨q2, ?_⟩
    simp only [List.foldl_cons, hq]; exact hq2

theorem delivered_eq (row w mask bl) (x : Cell) : ∃ q z n, delivered row w mask bl x = { x with spad := writeGroup x.spad row w mask bl, psnRows := q, zeroCols := z, cnt := n } := by
  unfold delivered; extract_lets n y z v
  have : ∃ q, v = { z with psnRows := q } := by
    simp only [v]; split
    · exact ⟨_, rfl⟩
    · exact marks_psn bl (fun b => slotParts row w b.1) (fun h _ => h) (fun b => b.2.1) z
  obtain ⟨q, hq⟩ := this
  exact ⟨q, y.zeroCols, _, by rw [hq]; rfl⟩

theorem delivered_only (row w mask bl) (x : Cell) : OnlyDelivered x (delivered row w mask bl x) ∧ (delivered row w mask bl x).spad = writeGroup x.spad row w mask bl ∧
    (delivered row w mask bl x).seq = x.seq ∧ (delivered row w mask bl x).ops = x.ops := by
  obtain ⟨q, z, n, h⟩ := delivered_eq row w mask bl x
  rw [h]; exact ⟨rfl, rfl, rfl, rfl⟩

theorem overwrites_only (l : List (Nat × Nat)) (x : Cell) : ∃ z, overwrites l x = { x with zeroCols := z } := by
  unfold overwrites; induction l generalizing x with
  | nil => exact ⟨_, rfl⟩
  | cons w l ih => obtain ⟨z, h⟩ := ih (x.overwritten w.1 w.2); exact ⟨z, h⟩

theorem issued_cell {s u : State} {c : CellIx} {o : UnitOp} {t : State} (h : IssuedOn s u c o t) :
    ∃ z, t.cell c = { u.cell c with zeroCols := z, ops := (s.cell c).ops ++ [numbered (s.cell c).seq o], seq := wentOn (s.cell c).seq } := by
  simp only [IssuedOn] at h
  obtain ⟨z, hz⟩ := overwrites_only o.writes (u.cell c)
  refine ⟨z, ?_⟩
  rw [h, State.cell_setCell, hz]
  rfl

theorem issued_delivered {s u : State} {c : CellIx} {o : UnitOp} {t : State} (h : IssuedOn s u c o t) (h2 : OnlyDelivered (s.cell c) (u.cell c)) :
    OnlyDelivered (s.cell c) (t.cell c) ∧ (t.cell c).spad = (u.cell c).spad ∧ (t.cell c).ops = (s.cell c).ops ++ [numbered (s.cell c).seq o] ∧
      (t.cell c).seq = wentOn (s.cell c).seq := by
  obtain ⟨z, hz⟩ := issued_cell h
  refine ⟨?_, ?_, ?_, ?_⟩ <;> rw [hz]
  unfold OnlyDelivered at *
  generalize u.cell c = y at *
  rw [h2]

theorem issued_reads {s u : State} {c : CellIx} {o : UnitOp} {t v : State} (h : IssuedOn s u c o t) (h2 : OnlyReads s v)
    (h3 : ∀ y, u.setCell c y = v.setCell c y) : OnlyReads (s.setCell c (t.cell c)) t := by
  simp only [IssuedOn] at h
  rw [h, State.cell_setCell, h3]
  exact reads_set h2 _ _

theorem addOp_cell (s : State) (c : CellIx) (o : UnitOp) : ∃ z, (s.addOp c o) = s.setCell c { s.cell c with
    zeroCols := z, ops := (s.cell c).ops ++ [numbered (s.cell c).seq o], seq := { (s.cell c).seq with nextOp := (s.cell c).seq.nextOp + 1 } } := by
  unfold State.addOp State.modCell
  obtain ⟨z, hz⟩ := overwrites_only o.writes (s.cell c)
  simp only [overwrites_fold, hz]
  exact ⟨z, rfl⟩

theorem retire_cell {s : State} {c : CellIx} (q : Seq) (hq : (s.cell c).seq = { q with nextOp := q.nextOp + 1 })
    (hn : q.pc.toNat + 8 < 0x200000 ∧ q.pc.toNat % 8 = 0) : s.retire c = s.setCell c { s.cell c with seq := wentOn q } := by
  unfold State.retire State.modSeq State.modCell
  show s.setCell c { s.cell c with seq := (s.cell c).seq.next } = _
  rw [hq, Seq.next_inside (q := { q with nextOp := q.nextOp + 1 }) hn]; rfl

theorem entry_replace (s : State) (dix) (e : Word × Word) : (s.replaceEntry dix e).mem.entry dix = e ∧ (s.replaceEntry dix e).cells = s.cells ∧
    (s.replaceEntry dix e).mem.extents = s.mem.extents ∧ (s.replaceEntry dix e).mem.replaced = (if Ent2.valid (s.mem.entry dix).2 then
          s.mem.replaced ++ [(Ent2.key (s.mem.entry dix).1 (s.mem.entry dix).2, Ent2.count (s.mem.entry dix).2, dix % 2)] else s.mem.replaced) := by
  have S := reads_same (reads_dir s dix)
  unfold State.replaceEntry
  extract_lets old t a m
  refine ⟨?_, S.cells, S.extents, ?_⟩
  · show (Memory.readWord m a, Memory.readWord m (a + 8)) = e
    simp only [m]
    rw [Memory.readWord_writeWord, Memory.readWord_writeWord_ne _ _ _ _ (by left; omega), Memory.readWord_writeWord]
  · show (if Ent2.valid old.2 then t.mem.replaced ++ _ else t.mem.replaced) = _
    rw [S.replaced]

def memCfg (m : MemSys) := (m.chans, m.carveGib, m.dirEntries)

theorem entry_eq (a b : MemSys) (h0 : a.mem = b.mem) (h : memCfg a = memCfg b) (d) : a.entry d = b.entry d := by
  simp only [memCfg, Prod.mk.injEq] at h
  simp [MemSys.entry, MemSys.dirAddr, MemSys.dirBase, MemSys.bytes, MemSys.channels, h, h0]

theorem opEnds_cell {u : State} {c : CellIx} {x : Cell} {o : UnitOp} (code : Code) (hf : NextOpFree x)
    (h : (u.cell c).ops = x.ops ++ [numbered x.seq o]) : u.opEnds c x.seq.nextOp code = u.setCell c { u.cell c with
      ops := x.ops ++ [numbered x.seq { o with done := true, spill := none, code := code }] } := by
  have e : (u.cell c).ops.map (fun o => if o.id = x.seq.nextOp then { o with done := true, spill := none, code := code } else o) =
      x.ops ++ [numbered x.seq { o with done := true, spill := none, code := code }] := by
    rw [h, List.map_append]
    congr 1
    · rw [List.map_congr_left (g := id)]
      · simp
      · intro y hy; rw [if_neg (hf y hy)]; rfl
    · simp [numbered]
  show u.setCell c { u.cell c with ops := (u.cell c).ops.map _ } = _
  rw [e]

theorem op_new {u : State} {c : CellIx} {x : Cell} {o : UnitOp} (hf : NextOpFree x) (h : (u.cell c).ops = x.ops ++ [numbered x.seq o]) :
    (u.cell c).op? x.seq.nextOp = some (numbered x.seq o) := by
  unfold Cell.op?
  rw [h, List.find?_append, List.find?_eq_none.mpr (fun y hy => by simp [hf y hy])]
  simp [numbered]

theorem find_key (l : List (Nat × Nat)) (h : (l.map (·.1)).Nodup) {g : Nat × Nat} (hg : g ∈ l) : l.find? (fun n => decide (n.1 = g.1)) = some g := by
  induction l with
  | nil => cases hg
  | cons a l ih =>
    rw [List.map_cons, List.nodup_cons] at h
    rcases List.mem_cons.mp hg with rfl | hg
    · simp
    · have : a.1 ≠ g.1 := fun e => h.1 (by rw [e]; exact List.mem_map_of_mem hg)
      rw [List.find?_cons_of_neg (by simp [this])]; exact ih h.2 hg

theorem groups_nodup (spad b) : ((gatherGroups spad b).map (·.1)).Nodup := by
  unfold gatherGroups; extract_lets gcs need dixs
  rw [List.map_map]
  have : (Prod.fst ∘ fun d => (d, ((need.filter (fun y => decide (y.1 = d))).map (·.2)).foldl (fun a rb => a ||| rowMask rb) 0)) = id := rfl
  erw [this]; rw [List.map_id]; exact List.nodup_dedup _

theorem opWaits_cell {u : State} {c : CellIx} {x : Cell} {o : UnitOp} (y : SpillWait) (hf : NextOpFree x)
    (h : (u.cell c).ops = x.ops ++ [numbered x.seq o]) : u.opWaits c x.seq.nextOp y = u.setCell c { u.cell c with
      ops := x.ops ++ [numbered x.seq { o with done := false, spill := some y }] } := by
  have e : (u.cell c).ops.map (fun o => if o.id = x.seq.nextOp then { o with done := false, spill := some y } else o) =
      x.ops ++ [numbered x.seq { o with done := false, spill := some y }] := by
    rw [h, List.map_append]
    congr 1
    · rw [List.map_congr_left (g := id)]
      · simp
      · intro y hy; rw [if_neg (hf y hy)]; rfl
    · simp [numbered]
  show u.setCell c { u.cell c with ops := (u.cell c).ops.map _ } = _
  rw [e]

def gotOf (s : State) (g : Nat × Nat) : GotGroup := ⟨g.1, (s.mem.entry g.1).1, (s.mem.entry g.1).2, none⟩

theorem gotBlocks_hand {s : State} (c : CellIx) (w e) (gs : List (Nat × Nat)) (h : ∀ g ∈ gs, AtHand s (s.mem.entry g.1) w g.2 e) :
    ∀ u, OnlyReads s u → ∃ t, u.gotBlocks c w e (gs.map (fun g => (gotOf s g, g.2))) =
      (gs.map (fun g => (g.1, storedBlocks s (s.mem.entry g.1) w g.2)), none, t) ∧ OnlyReads s t := by
  have go : ∀ (gs : List (Nat × Nat)), (∀ g ∈ gs, AtHand s (s.mem.entry g.1) w g.2 e) → ∀ u l, OnlyReads s u →
      ∃ t, (gs.map (fun g => (gotOf s g, g.2))).foldl (fun (a : List (Nat × List (Nat × Bool × List Byte)) × Option Nat × State) g =>
    let map := Ent2.bitmap g.1.lo g.1.hi
    let dec (rd : Nat → List Byte × BitVec 2) := decodeBlocks rd w map (Ent2.dense g.1.hi) (Ent2.psnAny g.1.hi) g.2
    match a with
    | (l, lost, s) =>
      match g.1.units with
      | some us => (l ++ [(g.1.dix, dec (fun u => us.getD u ([], 0)))], lost, s)
      | none =>
        if Ent2.loc g.1.hi = 2 then (l ++ [(g.1.dix, dec (fun u => s.wsUnit (Ent2.base g.1.lo + u)))], lost, s)
        else
          match s.readGroup (some c) g.1.lo g.1.hi w g.2 e with
          | (bl, bad, s) => (l ++ [(g.1.dix, bl)], if lost.isSome then lost else bad, s)) (l, none, u) =
        (l ++ gs.map (fun g => (g.1, storedBlocks s (s.mem.entry g.1) w g.2)), none, t) ∧ OnlyReads s t := by
    intro gs
    induction gs with
    | nil => intro _ u l hu; exact ⟨u, by simp, hu⟩
    | cons g gs ih =>
      intro h u l hu
      have hg := h g (List.mem_cons_self ..)
      have S := reads_same hu
      rw [List.map_cons, List.foldl_cons]
      by_cases h2 : Ent2.loc (s.mem.entry g.1).2 = 2
      · obtain ⟨t, ht, k⟩ := ih (fun g hg => h g (List.mem_cons_of_mem _ hg)) u (l ++ [(g.1, storedBlocks s (s.mem.entry g.1) w g.2)]) hu
        refine ⟨t, ?_, k⟩
        rw [List.append_assoc] at ht
        refine Eq.trans ?_ ht
        congr 1
        simp only [gotOf, h2, if_true, storedBlocks, S.ws]
      · obtain ⟨v, hv, kv⟩ := readGroup_clean u (some c) (s.mem.entry g.1).1 (s.mem.entry g.1).2 w g.2 e (by
          intro n hn
          have ue : ∀ a, u.mem.unitErr a e = s.mem.unitErr a e := fun a => by simp only [MemSys.unitErr, S.unit]
          rw [S.unit, ue]; exact hg.2 h2 n hn)
        obtain ⟨t, ht, k⟩ := ih (fun g hg => h g (List.mem_cons_of_mem _ hg)) v (l ++ [(g.1, storedBlocks s (s.mem.entry g.1) w g.2)]) (reads_trans hu kv)
        refine ⟨t, ?_, k⟩
        rw [List.append_assoc] at ht
        refine Eq.trans ?_ ht
        congr 1
        simp only [gotOf, h2, if_false, hv, storedBlocks, S.unit]
        rfl
  intro u hu
  obtain ⟨t, ht, k⟩ := go gs h u [] hu
  exact ⟨t, by rw [List.nil_append] at ht; exact ht, k⟩

theorem sendSpill_cells (u : State) (dev tag item more) : (u.sendSpill dev tag item more).cells = u.cells := by
  simp only [State.sendSpill, (sendMsg_cells _ _).1]
  split
  · exact fireStatus_cells _ _
  · rfl

theorem sendRead_cells (u : State) (tag lo hi) : (u.sendRead tag lo hi).cells = u.cells := by
  unfold State.sendRead; exact sendSpill_cells _ _ _ _ _

theorem sendRead_cell (u : State) (tag lo hi) (c : CellIx) : (u.sendRead tag lo hi).cell c = u.cell c := cell_of_cells (sendRead_cells _ _ _ _) c

theorem atHand_set {s : State} {c : CellIx} {y : Cell} {ent w mask e} (h : AtHand s ent w mask e) : AtHand (s.setCell c y) ent w mask e := h

theorem got_find (s : State) (gs : List (Nat × Nat)) (w d : Nat) :
    ((gs.map (fun g => (g.1, storedBlocks s (s.mem.entry g.1) w g.2))).find? (fun g => decide (g.1 = d))).elim [] (·.2) =
    (gs.find? (fun g => decide (g.1 = d))).elim [] (fun g => storedBlocks s (s.mem.entry g.1) w g.2) := by
  rw [List.find?_map]
  have : ((fun g : Nat × List (Nat × Bool × List Byte) => decide (g.1 = d)) ∘ fun g : Nat × Nat => (g.1, storedBlocks s (s.mem.entry g.1) w g.2)) = fun g => decide (g.1 = d) := rfl
  rw [this]
  cases gs.find? (fun g => decide (g.1 = d)) <;> rfl

theorem pGatherOne (s : State) (c : CellIx) (f : InsFields) (b : List Word) (e : List UnitFlip) (i : Instr) (row : Bool)
    (E0 : exec i s = .next (s.issue c 0x43 f i (fun s => s.guarded c i [f.ra] [] [] (fun s => s.withBlock c f i maskGather (fun b s => s.gather c i row b e)))))
    (hn : NextInside s c) (hb : IssuesBlock s c 0x43 f [f.ra] maskGather b) (h0 : bb b 0 0 = row) (hf : formOk (bf b 5 3 0) (bf b 5 5 4) = true)
    (hr : rowsIn ((gatherRows b).1 ++ (gatherRows b).2) = true) :
    let x := s.cell c
    let io := gatherRows b
    let w := storedWidth (bf b 5 3 0) (bf b 5 5 4)
    let gs := gatherGroups x.spad b
    let src := fun d => (gs.find? (fun g => decide (g.1 = d))).elim [] (fun g => storedBlocks s (s.mem.entry g.1) w g.2)
    let got : List GotGroup := gs.map (fun g => ⟨g.1, (s.mem.entry g.1).1, (s.mem.entry g.1).2, none⟩)
    let ns := List.range (bf b 4 63 32)
    let out := ns.map (fun j => gatherBlocks x.spad b (bf b 4 31 0 + j) src)
    let o : UnitOp :=
      { id := 0, unit := .dove, reads := io.1, writes := io.2, block := b, got := got,
        extents := (got.filter (fun g => Ent2.valid g.hi)).map (fun g => Ent2.key g.lo g.hi) }
    (bf b 1 63 32 = 0 ∨ bf b 4 63 32 = 0 → exec i s = .next (s.finish c ccEmpty)) ∧
      (bf b 1 63 32 ≠ 0 → bf b 4 63 32 ≠ 0 → x.hazard [] io.1 io.2 = none → NextOpFree x → s.gatherBad c b = false →
        (∀ g ∈ gs, g.1 < s.mem.dirEntries ∧ Ent2.ok w (s.mem.entry g.1).1 (s.mem.entry g.1).2 = true) →
        ((∀ g ∈ gs, AtHand s (s.mem.entry g.1) w g.2 e) →
          ∃ t, exec i s = .next t ∧ OnlyReads (s.setCell c (t.cell c)) t ∧ OnlyDelivered x (t.cell c) ∧
            (t.cell c).spad = (let m := ns.foldl (fun m j =>
                writeGroup m (bf b 2 37 24 + j * groupRows w) w (2 ^ 64 - 1) (out.getD j [])) x.spad
              if row then m else Memory.writeBytes m (128 * bf b 2 51 38) (colidx x.spad b)) ∧
            (t.cell c).ops = x.ops ++ [numbered x.seq { o with
              code := if out.any (fun bl => bl.any (·.2.1)) then ccPoison else ccOk }] ∧
            (t.cell c).seq = wentOn x.seq) ∧
        (∀ g, gs.find? (fun g => decide (g.2 &&& Ent2.bitmap (s.mem.entry g.1).1 (s.mem.entry g.1).2 ≠ 0 ∧
            Ent2.loc (s.mem.entry g.1).2 = 1)) = some g →
          ∃ t u, exec i s = .next t ∧ OnlyReads (s.setCell c (u.cell c)) u ∧
            t = (u.sendRead (opTag c x.seq.nextOp) (s.mem.entry g.1).1 (s.mem.entry g.1).2).retire c ∧ (t.cell c).spad = x.spad ∧
            (t.cell c).ops = x.ops ++ [numbered x.seq { o with
              done := false, spill := some ⟨.read, g.1, 0, (s.mem.entry g.1).1, (s.mem.entry g.1).2⟩ }] ∧
            (t.cell c).seq = wentOn x.seq)) := by
  intro x io w gs src got ns out o
  have E := E0
  rw [State.issue_at _ _ hb.1, State.guarded_regs _ _ hb.1.2.2.2.2, State.withBlock_at _ _ hb] at E
  unfold State.gather at E
  simp only [h0, ne_eq, not_true, if_false, hf, hr, Bool.not_true, Bool.or_self, Bool.false_eq_true] at E
  refine ⟨?_, ?_⟩
  · intro h; rw [if_pos h] at E; exact E
  · intro h1 h2 hz hfr hbad hg
    have h12 : ¬ (bf b 1 63 32 = 0 ∨ bf b 4 63 32 = 0) := by rintro (a | a); exact h1 a; exact h2 a
    rw [if_neg h12, State.guarded_none _ _ hz] at E
    have c2 : gs.any (fun g => decide (s.mem.dirEntries ≤ g.1)) = false := by
      rw [List.any_eq_false]; intro g hgg; simp; exact (hg g hgg).1
    have eg : gatherGroups (s.cell c).spad b = gs := rfl
    simp only [eg, hbad, c2, Bool.or_self, Bool.false_eq_true, if_false] at E
    obtain ⟨s1, hs1⟩ : ∃ s1, s1 = gs.foldl (fun s g => s.dirAccess g.1) s := ⟨_, rfl⟩
    have R1 : OnlyReads s s1 := by rw [hs1]; exact reads_fold (fun (s : State) (g : Nat × Nat) => s.dirAccess g.1) (fun s g => reads_dir s g.1) gs s
    have S1 := reads_same R1
    rw [← hs1] at E
    have eg2 : gs.map (fun g => (⟨g.1, (s1.mem.entry g.1).1, (s1.mem.entry g.1).2, none⟩ : GotGroup)) = got := by
      simp only [S1.entry]; rfl
    rw [eg2] at E
    have c3 : got.any (fun g => !Ent2.ok (storedWidth (bf b 5 3 0) (bf b 5 5 4)) g.lo g.hi) = false := by
      rw [List.any_eq_false]; intro g hgg
      obtain ⟨k, hk, rfl⟩ := List.mem_map.mp hgg
      simp; exact (hg k hk).2
    simp only [c3, Bool.false_eq_true, if_false] at E
    obtain ⟨z, hzc⟩ := addOp_cell s1 c o
    rw [S1.cell] at hzc
    have lo : (s1.addOp c o).lastOp c = x.seq.nextOp := by rw [hzc]; simp [State.lastOp, x]
    have E : exec i s = .next (((s1.addOp c o).gatherGo c { o with id := (s1.addOp c o).lastOp c } e).retire c) := E
    rw [lo] at E
    obtain ⟨s2, hs2⟩ : ∃ s2, s2 = s1.addOp c o := ⟨_, rfl⟩
    rw [← hs2] at E hzc
    have R2 : OnlyReads (s.setCell c (s2.cell c)) s2 := by rw [hzc, State.cell_setCell]; exact reads_set R1 _ _
    have c2' : s2.cell c = { s.cell c with zeroCols := z, ops := (s.cell c).ops ++ [numbered (s.cell c).seq o], seq := { (s.cell c).seq with nextOp := (s.cell c).seq.nextOp + 1 } } := by
      rw [hzc, State.cell_setCell]
    have sp : (s2.cell c).spad = x.spad := by rw [c2']
    have b2 : s2.pcie.bme = s.pcie.bme := by rw [(reads_same R2).pcie]; rfl
    have eg' : gatherGroups x.spad b = gs := rfl
    have ob : o.block = b := rfl
    have og : o.got = got := rfl
    have egs : got.map (fun g => (g, (gs.find? (fun n => decide (n.1 = g.dix))).elim 0 (·.2))) = gs.map (fun g => (gotOf s g, g.2)) := by
      rw [List.map_map]
      refine List.map_congr_left (fun g hgg => ?_)
      simp only [Function.comp, gotOf]
      rw [find_key gs (groups_nodup _ _) hgg]; rfl
    have fin : ∀ (t : State) ops', (∃ v : State, OnlyReads (s.setCell c (s2.cell c)) v ∧ ∃ y, OnlyDelivered (s2.cell c) y ∧ y.seq = (s2.cell c).seq ∧ y.ops = ops' ∧ t = (v.setCell c y).retire c) →
        OnlyReads (s.setCell c (t.cell c)) t ∧ OnlyDelivered x (t.cell c) ∧ (∀ y v, t = (State.setCell v c y).retire c → (t.cell c).spad = y.spad) ∧ (t.cell c).ops = ops' ∧ (t.cell c).seq = wentOn x.seq := by
      rintro t ops' ⟨v, hv, y, hy, hys, hyo, rfl⟩
      have rc := retire_cell (s := v.setCell c y) (c := c) x.seq (by rw [State.cell_setCell, hys, c2']) hn
      rw [State.cell_setCell, State.setCell_setCell] at rc
      refine ⟨?_, ?_, ?_, ?_, ?_⟩
      · rw [rc, State.cell_setCell]
        have := reads_set hv c { y with seq := wentOn x.seq }
        rw [State.setCell_setCell] at this; exact this
      · rw [rc, State.cell_setCell]
        unfold OnlyDelivered at *
        rw [hy, c2']
      · intro y' v' h
        rw [h]
        show (((v'.setCell c y').modSeq c Seq.next).cell c).spad = _
        simp [State.modSeq]
      · rw [rc, State.cell_setCell]; exact hyo
      · rw [rc, State.cell_setCell]
    refine ⟨?_, ?_⟩
    · intro ha
      unfold State.gatherGo at E
      have f1 : (gs.map (fun g => (gotOf s g, g.2))).find? (fun g => decide (g.2 &&& Ent2.bitmap g.1.lo g.1.hi ≠ 0 ∧ Ent2.loc g.1.hi = 1) && g.1.units.isNone) = none := by
        rw [List.find?_eq_none]; intro g hgg
        obtain ⟨k, hk, rfl⟩ := List.mem_map.mp hgg
        have := (ha k hk).1
        simp only [gotOf, Option.isNone_none, Bool.and_true]
        intro h; obtain ⟨h1, h2⟩ := of_decide_eq_true h
        rcases this with a | a | a
        · exact h1 a
        · omega
        · omega
      have f2 : ((gs.map (fun g => (gotOf s g, g.2))).any (fun g => decide (g.2 &&& Ent2.bitmap g.1.lo g.1.hi ≠ 0 ∧ Ent2.loc g.1.hi = 2)) && !s2.pcie.bme) = false := by
        rw [b2, Bool.and_eq_false_iff]
        by_cases hbm : s.pcie.bme = true
        · right; simp [hbm]
        · left
          rw [List.any_eq_false]; intro g hgg
          obtain ⟨k, hk, rfl⟩ := List.mem_map.mp hgg
          have := (ha k hk).1
          simp only [gotOf]
          intro h; obtain ⟨a1, a2⟩ := of_decide_eq_true h
          rcases this with a | a | a
          · exact a1 a
          · omega
          · exact hbm a.2
      obtain ⟨t1, ht1, kt⟩ := gotBlocks_hand (s := s.setCell c (s2.cell c)) c w e gs (fun g hg => atHand_set (ha g hg)) s2 R2
      have ht1' : s2.gotBlocks c (storedWidth (bf b 5 3 0) (bf b 5 5 4)) e (gs.map (fun g => (gotOf s g, g.2))) =
        (gs.map (fun g => (g.1, storedBlocks s (s.mem.entry g.1) w g.2)), none, t1) := ht1
      simp only [ob, og, sp, eg', egs, f1, f2, Bool.false_eq_true, if_false, ht1', h0] at E
      have gf : ∀ d, ((gs.map (fun g => (g.1, storedBlocks s (s.mem.entry g.1) w g.2))).find? (fun g => decide (g.1 = d))).elim [] (·.2) = src d := got_find s gs w
      simp only [gf] at E
      have t1c : t1.cell c = s2.cell c := by rw [(reads_same kt).cell, State.cell_setCell]
      refine ⟨_, E, ?_⟩
      have core : ∀ (m : List Host.Cell) (zs : SMap Nat → SMap Nat) (cn : Counters → Counters) code,
          let t := (((t1.modCell c (fun x => { x with spad := m, zeroCols := zs x.zeroCols, cnt := cn x.cnt })).opEnds c x.seq.nextOp code).retire c)
          OnlyReads (s.setCell c (t.cell c)) t ∧ OnlyDelivered x (t.cell c) ∧ (t.cell c).spad = m ∧
            (t.cell c).ops = x.ops ++ [numbered x.seq { o with code := code }] ∧ (t.cell c).seq = wentOn x.seq := by
        intro m zs cn code t
        have oe := opEnds_cell (u := t1.modCell c (fun x => { x with spad := m, zeroCols := zs x.zeroCols, cnt := cn x.cnt })) (c := c) (x := x) (o := o) code hfr
          (by rw [State.cell_modCell, t1c, c2'])
        rw [State.cell_modCell] at oe
        have oe2 : (t1.modCell c (fun x => { x with spad := m, zeroCols := zs x.zeroCols, cnt := cn x.cnt })).opEnds c x.seq.nextOp code = t1.setCell c { s2.cell c with
            spad := m, zeroCols := zs (s2.cell c).zeroCols, cnt := cn (s2.cell c).cnt, ops := x.ops ++ [numbered x.seq { o with code := code }] } := by
          rw [oe]; simp only [State.modCell, State.setCell_setCell, t1c]; rfl
        have F := fin t (x.ops ++ [numbered x.seq { o with code := code }]) ⟨t1, kt, _, ?_, ?_, ?_, congrArg (fun u => State.retire u c) oe2⟩
        · exact ⟨F.1, F.2.1, F.2.2.1 _ t1 (congrArg (fun u => State.retire u c) oe2), F.2.2.2⟩
        · rfl
        · rfl
        · rfl
      exact core _ (fun l => List.foldl _ l _) (fun n => { n with fetchBlocks := n.fetchBlocks + _, absentDelivered := n.absentDelivered + _ }) _
    · intro g hgf
      have hgm := List.mem_of_find?_eq_some hgf
      unfold State.gatherGo at E
      have f1 : (gs.map (fun g => (gotOf s g, g.2))).find? (fun g => decide (g.2 &&& Ent2.bitmap g.1.lo g.1.hi ≠ 0 ∧ Ent2.loc g.1.hi = 1) && g.1.units.isNone) = some (gotOf s g, g.2) := by
        rw [List.find?_map]
        have : ((fun g : GotGroup × Nat => decide (g.2 &&& Ent2.bitmap g.1.lo g.1.hi ≠ 0 ∧ Ent2.loc g.1.hi = 1) && g.1.units.isNone) ∘ fun g : Nat × Nat => (gotOf s g, g.2)) =
          fun g => decide (g.2 &&& Ent2.bitmap (s.mem.entry g.1).1 (s.mem.entry g.1).2 ≠ 0 ∧ Ent2.loc (s.mem.entry g.1).2 = 1) := by
          funext g; simp [gotOf]
        rw [this, hgf]; rfl
      simp only [ob, og, sp, eg', egs, f1] at E
      have E : exec i s = .next (((s2.opWaits c x.seq.nextOp ⟨.read, g.1, 0, (s.mem.entry g.1).1, (s.mem.entry g.1).2⟩).sendRead (opTag c x.seq.nextOp) (s.mem.entry g.1).1 (s.mem.entry g.1).2).retire c) := E
      have ow := opWaits_cell (u := s2) (c := c) (x := x) (o := o) ⟨.read, g.1, 0, (s.mem.entry g.1).1, (s.mem.entry g.1).2⟩ hfr (by rw [c2'])
      obtain ⟨u, hu⟩ : ∃ u, u = s2.opWaits c x.seq.nextOp ⟨.read, g.1, 0, (s.mem.entry g.1).1, (s.mem.entry g.1).2⟩ := ⟨_, rfl⟩
      rw [← hu] at E ow
      have uc : u.cell c = { s2.cell c with ops := x.ops ++ [numbered x.seq { o with
              done := false, spill := some ⟨.read, g.1, 0, (s.mem.entry g.1).1, (s.mem.entry g.1).2⟩ }] } := by rw [ow, State.cell_setCell]
      refine ⟨_, u, E, ?_, rfl, ?_⟩
      · have := reads_set R2 c (u.cell c)
        rw [State.setCell_setCell] at this
        rw [uc] at this ⊢; rw [ow]; exact this
      · have cc : ((u.sendRead (opTag c x.seq.nextOp) (s.mem.entry g.1).1 (s.mem.entry g.1).2)).cell c = u.cell c := sendRead_cell _ _ _ _ _
        have rc := retire_cell (s := u.sendRead (opTag c x.seq.nextOp) (s.mem.entry g.1).1 (s.mem.entry g.1).2) (c := c) x.seq (by rw [cc, uc, c2']) hn
        rw [rc, State.cell_setCell, cc, uc, c2']
        exact ⟨rfl, rfl, rfl⟩

theorem modOp_unchanged (x : Cell) (k : Nat) (f : UnitOp → UnitOp) : OnlyDelivered x (x.modOp k f) := rfl

/-- What a copy at a router does to its member and to what the router holds. -/
theorem joined_end {s u : State} {c : CellIx} {o : UnitOp} {key : Nat} {j : JoinRec} {js : List JoinRec} (row w mask bl) (lost : Option Nat) (code : Code) (t : State)
    (y : Cell) (hy : y = s.cell c ∨ y = delivered row w mask bl (s.cell c))
    (us : UnitState) (hu : OnlyReads (s.modUnit key (fun _ => us)) u ∨ (OnlyReads s u ∧ us = s.unit key)) (hj : us.joins = js)
    (ht : t = ((u.setCell c (y.modOp o.id (fun o => { o with done := lost.isNone, spill := lost.map (fun u => { what := .lost u }), code := code }))).leaveJoin c key j)) :
    ((t.cell c).ops = (s.cell c).ops.map (fun p => if p.id = o.id then { p with
            done := lost.isNone, spill := lost.map (fun u => { what := .lost u }), code := code } else p) ∧
          (t.cell c).seq = (s.cell c).seq ∧ OnlyDelivered (s.cell c) (t.cell c) ∧ OnlyReads ((s.setCell c (t.cell c)).modUnit key (fun _ => t.unit key)) t) ∧
      (t.cell c).spad = y.spad ∧ (t.unit key).joins = leftBy c j js := by
  have tc : t.cell c = y.modOp o.id (fun o => { o with done := lost.isNone, spill := lost.map (fun u => { what := .lost u }), code := code }) := by
    rw [ht]
    show (State.setCell u c _).cell c = _
    rw [State.cell_setCell]
  have D : OnlyDelivered (s.cell c) y ∧ y.seq = (s.cell c).seq ∧ y.ops = (s.cell c).ops := by
    rcases hy with h | h
    · rw [h]; exact ⟨rfl, rfl, rfl⟩
    · rw [h]; have := delivered_only row w mask bl (s.cell c); exact ⟨this.1, this.2.2⟩
  have uu : u.unit key = us := by
    rcases hu with h | ⟨h, h2⟩
    · have := (reads_same h).units
      rw [State.unit, this]; exact unit_modUnit' _ _ _
    · rw [h2]; simp [State.unit, (reads_same h).units]
  have tu : t.unit key = { us with joins := leftBy c j us.joins } := by
    rw [ht]
    unfold State.leaveJoin
    rw [unit_modUnit']
    show _ = _
    rw [show (State.setCell u c (y.modOp o.id (fun o => { o with done := lost.isNone, spill := lost.map (fun u => { what := .lost u }), code := code }))).unit key = u.unit key from rfl, uu]
    rfl
  refine ⟨⟨?_, ?_, ?_, ?_⟩, ?_, ?_⟩
  · rw [tc, ← D.2.2]; rfl
  · rw [tc]; exact D.2.1
  · rw [tc]
    have : OnlyDelivered (s.cell c) y := D.1
    unfold OnlyDelivered at *
    generalize s.cell c = x at *
    rw [this]; rfl
  · have e2 : t = (u.setCell c (t.cell c)).modUnit key (fun _ => t.unit key) := by
      have : t = (u.setCell c (t.cell c)).leaveJoin c key j := by rw [tc]; exact ht
      refine this.trans ?_
      unfold State.leaveJoin State.modUnit
      rw [tu]
      show _ = _
      rw [show (u.setCell c (t.cell c)).unit key = u.unit key from rfl, uu]
      rfl
    generalize t.cell c = y0 at e2 ⊢
    generalize t.unit key = v at e2 ⊢
    rw [e2]
    rcases hu with h | ⟨h, -⟩
    · unfold OnlyReads at h
      rw [h]
      simp only [State.modUnit, State.setCell, SMap.set_set, OnlyReads]
    · unfold OnlyReads at h
      rw [h]
      simp only [State.modUnit, State.setCell, OnlyReads]
  · rw [tc]; rfl
  · rw [tu, hj]

end Sys2Proof.Laws.GroupLaws
end

