-- ==== Sys2Proof/Laws/HostDieLaws.lean ====
section
/-! SUPPORT. Lemmas about the event controller, the host port and the streams. -/

namespace Sys2Proof.Laws.HostDieLaws

set_option linter.all false

open Sys2Proof Sys2Proof.Machine Sys2Proof.Claims

theorem stream_mod (s : State) (i : Nat) (f) : (s.modStream i f).stream i = f (s.stream i) := by
  unfold State.modStream State.stream Pcie.stream; simp

theorem stream_of_pcie {s t : State} (h : t.pcie = s.pcie) (i) : t.stream i = s.stream i := by unfold State.stream; rw [h]

def restOf (s : State) : Driver × SMap Cell × MemSys × Net × Evc × SMap UnitState := (s.drv, s.cells, s.mem, s.net, s.evc, s.units)

theorem post_rest (s : State) (st) (x) : restOf (s.post st x) = restOf s := rfl

theorem settle_rest (s : State) : restOf s.settle = restOf (s.modDrv (fun d =>
    { d with waits := d.waits.filter (fun w => decide (w ∉ s.drv.waits.filter s.waitOver)),
             graphs := d.graphs.filter (fun g => !g.released || !(s.drv.waits.filter s.waitOver).any (fun w => decide (w.kind = 5 ∧ w.graph = g.handle))) })) := by
  unfold State.settle; simp only []
  rw [foldl_pres restOf _ (fun _ _ => post_rest _ _ _)]

theorem settle_facts (s : State) : (∀ g ∈ s.settle.drv.graphs, g ∈ s.drv.graphs) ∧ s.settle.drv.jobs = s.drv.jobs ∧ s.settle.cells = s.cells ∧ s.settle.mem = s.mem := by
  have h := settle_rest s
  simp only [restOf, Prod.mk.injEq] at h
  obtain ⟨a, b, c, d⟩ := h
  rw [a, b, c]
  exact ⟨fun g hg => (List.mem_filter.mp hg).1, rfl, rfl, rfl⟩

def twoMem (m : MemSys) := (m.mem, m.wsMem)

theorem alloc_two (m : MemSys) (d n use) : ∀ t, m.alloc d n use = some t → twoMem t.2 = twoMem m := by
  intro t h; unfold MemSys.alloc at h; simp only [Option.map_eq_some_iff] at h; obtain ⟨b, -, rfl⟩ := h; rfl

theorem allocMany_two (d n use) : ∀ (k : Nat) (m : MemSys) t, m.allocMany d n use k = some t → twoMem t = twoMem m := by
  intro k; induction k with
  | zero => intro m t h; unfold MemSys.allocMany at h; cases h; rfl
  | succ k ih =>
    intro m t h; unfold MemSys.allocMany at h
    split at h
    · cases h
    · rename_i x hx; exact (ih _ _ h).trans (alloc_two _ _ _ _ _ hx)

theorem allocHold_two (m : MemSys) (d dest n) : ∀ t, m.allocHold d dest n = some t → twoMem t = twoMem m := by
  intro t h; unfold MemSys.allocHold at h; simp only [Option.bind_eq_some_iff] at h; obtain ⟨x, hx, h⟩ := h
  split at h
  · cases h; exact allocMany_two _ _ _ _ _ _ hx
  · simp only [Option.map_eq_some_iff] at h; obtain ⟨y, hy, rfl⟩ := h
    exact (alloc_two _ _ _ _ _ hy).trans (allocMany_two _ _ _ _ _ _ hx)

theorem routePacket_two (s : State) (d) (dest) (p) : ∀ t, s.routePacket d dest p = some t → twoMem t.mem = twoMem s.mem := by
  intro t h
  unfold State.routePacket at h
  split at h
  · cases h; rfl
  · rw [Option.map_eq_some_iff] at h
    obtain ⟨m, hm, rfl⟩ := h
    exact allocHold_two _ _ _ _ _ hm

theorem sendMsg_two (s : State) (m : Msg) : twoMem (s.sendMsg m).mem = twoMem s.mem := by
  unfold State.sendMsg
  extract_lets t n here
  have ht : twoMem t.mem = twoMem s.mem := by simp only [t]; split <;> rfl
  split
  · exact ht
  · rcases h : t.routePacket (UA.digit m.src 1 % 2) (UA.device m.dest) ⟨m.items, false, Option.none⟩ with _ | y
    · exact ht
    · exact (routePacket_two _ _ _ _ _ h).trans ht

theorem roleEpoch_rest (s : State) (dev) : (s.roleEpoch dev).2.drv = s.drv ∧ (s.roleEpoch dev).2.cells = s.cells := by
  unfold State.roleEpoch; split
  · exact ⟨rfl, rfl⟩
  · split <;> exact ⟨rfl, rfl⟩

theorem driverSync_eq (s : State) (job dev obj op ack v tag) : ∃ m, s.driverSync job dev obj op ack v tag = (s.roleEpoch dev).2.sendMsg m := by
  unfold State.driverSync; exact ⟨_, rfl⟩

def passPart (e : Evc) := ((e.spend, e.smask, e.hiq, e.timers, e.obBase, e.bmoff, e.flr), (e.claims, e.emptyClaims, e.refires),
  (fun i => ((e.src i).st, (e.src i).prio, (e.src i).targets)), (fun h => ((e.hart h).thresh, (e.hart h).online, (e.hart h).machine, (e.hart h).badcomp, (e.hart h).hiqHi, (e.hart h).sendAddr, (e.hart h).sendErr)))

theorem hart_modHart (e : Evc) (h : Nat) (f) (g : Nat) : (e.modHart h f).hart g = if h = g then f (e.hart h) else e.hart g := by
  unfold Evc.modHart Evc.hart; simp only [SMap.getD_set]

theorem modHart_modHart (e : Evc) (h : Nat) (f g) : (e.modHart h f).modHart h g = e.modHart h (fun k => g (f k)) := by
  unfold Evc.modHart Evc.hart; simp only [SMap.set_set, SMap.getD_set, if_true]

theorem src_modSrc (e : Evc) (h : Nat) (f) (g : Nat) : (e.modSrc h f).src g = if h = g then f (e.src h) else e.src g := by
  unfold Evc.modSrc Evc.src; simp only [SMap.getD_set]

theorem pass_slot (e : Evc) (h : Nat) (v) : passPart (e.modHart h (fun k => { k with slot := v })) = passPart e := by
  unfold passPart
  have : (fun g => (((e.modHart h (fun k => { k with slot := v })).hart g).thresh, ((e.modHart h (fun k => { k with slot := v })).hart g).online, ((e.modHart h (fun k => { k with slot := v })).hart g).machine, ((e.modHart h (fun k => { k with slot := v })).hart g).badcomp, ((e.modHart h (fun k => { k with slot := v })).hart g).hiqHi, ((e.modHart h (fun k => { k with slot := v })).hart g).sendAddr, ((e.modHart h (fun k => { k with slot := v })).hart g).sendErr)) = (fun g => ((e.hart g).thresh, (e.hart g).online, (e.hart g).machine, (e.hart g).badcomp, (e.hart g).hiqHi, (e.hart g).sendAddr, (e.hart g).sendErr)) := by
    funext g; rw [hart_modHart]; split
    · rename_i q; rw [q]
    · rfl
  rw [this]; rfl

theorem pass_hart (e : Evc) (h : Nat) (v) : passPart (e.modSrc h (fun k => { k with hart := v })) = passPart e := by
  unfold passPart
  have : (fun g => (((e.modSrc h (fun k => { k with hart := v })).src g).st, ((e.modSrc h (fun k => { k with hart := v })).src g).prio, ((e.modSrc h (fun k => { k with hart := v })).src g).targets)) = (fun g => ((e.src g).st, (e.src g).prio, (e.src g).targets)) := by
    funext g; rw [src_modSrc]; split
    · rename_i q; rw [q]
    · rfl
  rw [this]; rfl

theorem routeList_part : ∀ (n : Nat) (l : List Nat) (e : Evc), passPart (Evc.routeList n l e) = passPart e := by
  intro n
  induction n with
  | zero => intro l e; unfold Evc.routeList; rfl
  | succ n ih =>
    intro l e
    cases l with
    | nil => unfold Evc.routeList; rfl
    | cons id t =>
      unfold Evc.routeList
      split
      · exact ih _ _
      · simp only []
        have h2 : ∀ h, passPart ((({ e.modHart h (fun k => { k with slot := BitVec.ofNat 13 id }) with last := BitVec.ofNat 4 h } : Evc)).modSrc id (fun x => { x with hart := BitVec.ofNat 4 h })) = passPart e := by
          intro h
          exact (pass_hart _ _ _).trans (Eq.trans rfl (pass_slot e h _))
        split
        · exact (ih _ _).trans (h2 _)
        · exact (ih _ _).trans (Eq.trans rfl (h2 _))

theorem pass_part (e : Evc) : passPart e.pass = passPart e := by
  unfold Evc.pass
  simp only []
  rw [routeList_part]
  have : ∀ (l : List Nat) (e : Evc), passPart (l.foldl (fun (e : Evc) h =>
    let id := (e.hart h).slot.toNat
    if id ≠ 0 ∧ ¬ e.eligible id h then
      { e.modHart h (fun k => { k with slot := 0 }) with withdrawals := e.withdrawals + 1 }
    else e) e) = passPart e := by
    intro l
    induction l with
    | nil => intro e; rfl
    | cons a l ih =>
      intro e; rw [List.foldl_cons, ih]; simp only []
      split
      · exact Eq.trans rfl (pass_slot e a 0)
      · rfl
  exact this _ _

theorem pass_facts (e : Evc) : e.pass.spend = e.spend ∧ e.pass.smask = e.smask ∧ e.pass.hiq = e.hiq ∧ e.pass.timers = e.timers ∧ e.pass.claims = e.claims ∧
    (∀ i, (e.pass.src i).st = (e.src i).st ∧ (e.pass.src i).prio = (e.src i).prio ∧ (e.pass.src i).targets = (e.src i).targets) ∧
    (∀ h, (e.pass.hart h).thresh = (e.hart h).thresh ∧ (e.pass.hart h).online = (e.hart h).online ∧ (e.pass.hart h).machine = (e.hart h).machine) := by
  have h := pass_part e
  simp only [passPart, Prod.mk.injEq] at h
  obtain ⟨⟨a, b, c, d, -, -, -⟩, ⟨f, -, -⟩, g, i⟩ := h
  refine ⟨a, b, c, d, f, fun k => ?_, fun k => ?_⟩
  · have := congrFun g k; simp only [Prod.mk.injEq] at this; exact this
  · have := congrFun i k; simp only [Prod.mk.injEq] at this; exact ⟨this.1, this.2.1, this.2.2.1⟩

theorem fire_facts (e : Evc) (id : Nat) : ((e.fire id).src id).st = fired (e.src id).st ∧ (∀ i, i ≠ id → ((e.fire id).src i).st = (e.src i).st) ∧ (e.fire id).spend = e.spend ∧ (e.fire id).smask = e.smask ∧ (e.fire id).timers = e.timers := by
  unfold Evc.fire
  rcases h : (e.src id).st with _ | _ | _ | _ <;> simp only []
  · obtain ⟨a, b, c, d, f, g, -⟩ := pass_facts (e.modSrc id (fun x => { x with st := .pending }))
    refine ⟨?_, fun i hi => ?_, a, b, d⟩
    · rw [(g id).1, src_modSrc, if_pos rfl]; rfl
    · rw [(g i).1, src_modSrc, if_neg (Ne.symm hi)]
  · exact ⟨h, fun _ _ => trivial, trivial, trivial, trivial⟩
  · refine ⟨?_, fun i hi => ?_, rfl, rfl, rfl⟩
    · exact Eq.trans (congrArg EvSrc.st ((src_modSrc e id (fun x => { x with st := .activePending }) id).trans (if_pos rfl))) rfl
    · exact congrArg EvSrc.st ((src_modSrc e id (fun x => { x with st := .activePending }) i).trans (if_neg (Ne.symm hi)))
  · exact ⟨h, fun _ _ => trivial, trivial, trivial, trivial⟩

def claimed (e : Evc) (h id : Nat) : Evc :=
  let e := e.modHart h (fun k => { k with slot := 0 })
  let e := e.modSrc id (fun x => { x with st := .active, hart := BitVec.ofNat 4 h })
  { e with claims := e.claims + 1 }

theorem claimed_rest (e : Evc) (h id : Nat) : (claimed e h id).spend = e.spend ∧ (claimed e h id).smask = e.smask ∧ (claimed e h id).claims = e.claims + 1 := ⟨rfl, rfl, rfl⟩

theorem claim_src (e : Evc) (h id i : Nat) : (claimed e h id).src i = ((e.modHart h (fun k => { k with slot := 0 })).modSrc id (fun x => { x with st := .active, hart := BitVec.ofNat 4 h })).src i := rfl

theorem claim_self (e : Evc) (h id : Nat) : ((claimed e h id).pass.src id).st = .active := by
  rw [((pass_facts _).2.2.2.2.2.1 _).1, claim_src, src_modSrc, if_pos rfl]

theorem claim_other (e : Evc) (h id i : Nat) (hi : id ≠ i) : ((claimed e h id).pass.src i).st = (e.src i).st := by
  rw [((pass_facts _).2.2.2.2.2.1 _).1, claim_src, src_modSrc, if_neg hi]; rfl

theorem claim_eq (e : Evc) (h : Nat) (q : (e.hart h).slot.toNat ≠ 0) : (e.claim h).2 = (claimed e h (e.hart h).slot.toNat).pass := by
  unfold Evc.claim claimed; simp only []; rw [if_neg q]

theorem claim_zero (e : Evc) (h : Nat) (q : (e.hart h).slot.toNat = 0) : (e.claim h).2 = { e with emptyClaims := e.emptyClaims + 1 } := by
  unfold Evc.claim; simp only []; rw [if_pos q]

theorem up_of_host {s : State} (h : s.hostUp = true) : s.up = true ∧ s.dbg.fullFrozen = false := by
  unfold State.hostUp at h; simpa using h

theorem evcEx {s : State} {i : Instr} {f : Evc → Evc} (h : exec i s = .next (s.modEvc f)) (P : Evc → Prop) (hp : P (f s.evc)) :
    ∃ t, exec i s = .next t ∧ OnlyEvc s t ∧ P t.evc := ⟨_, h, rfl, hp⟩

def sendPart (s : State) := (s.drv, s.pcie, s.evc, s.dict, s.sync, s.waiters, s.rel, s.sec, s.pwr, s.dbg)

theorem routePacket_part (s : State) (d) (dest) (p) : ∀ t, s.routePacket d dest p = some t → sendPart t = sendPart s := by
  intro t h
  unfold State.routePacket at h
  split at h
  · cases h; rfl
  · rw [Option.map_eq_some_iff] at h
    obtain ⟨m, -, rfl⟩ := h
    rfl

theorem sendMsg_part (s : State) (m : Msg) : sendPart (s.sendMsg m) = sendPart s := by
  unfold State.sendMsg
  extract_lets t here
  have ht : sendPart t = sendPart s := by simp only [t]; split <;> rfl
  have hh : sendPart here = sendPart s := (show sendPart (t.fly m) = sendPart t from rfl).trans ht
  split
  · exact hh
  · rcases h : t.routePacket (UA.digit m.src 1 % 2) (UA.device m.dest) ⟨m.items, false, Option.none⟩ with _ | y
    · exact hh
    · exact (routePacket_part _ _ _ _ _ h).trans ht

theorem sendMsg_local_eq (s : State) (m : Msg) (h : s.local? m.dest = true) : s.sendMsg m = { s with net := (s.sendMsg m).net, units := (s.sendMsg m).units } := by
  unfold State.sendMsg
  simp only []
  by_cases q : s.local? m.src = true
  · simp only [if_pos q]; rw [if_pos (by rw [Bool.or_eq_true]; exact Or.inl h)]; rfl
  · simp only [if_neg q]; rw [if_pos (by rw [Bool.or_eq_true]; exact Or.inl h)]; rfl

theorem hiqFill_facts (s : State) (l : List QItem) (h : s.evc.hiq.flushing = false) : (s.hiqFill l).cells = s.cells ∧
   (s.hiqFill l).evc.hiq.items = s.evc.hiq.items ++ (s.evc.hiq.inflow ++ l).take (1024 - s.evc.hiq.items.length) := by
  have f : ∀ (n : Nat) (z : State), (((List.range n).foldl (fun s _ => s.fire 9) z).cells = z.cells ∧ ((List.range n).foldl (fun s _ => s.fire 9) z).evc.hiq = z.evc.hiq) := by
    intro n z
    generalize List.range n = l
    induction l generalizing z with
    | nil => exact ⟨rfl, rfl⟩
    | cons a l ih =>
      rw [List.foldl_cons]
      refine ⟨(ih _).1.trans rfl, (ih _).2.trans ?_⟩
      show (Evc.fire z.evc 9).hiq = _
      exact evc_fire_hiq _ _
  unfold State.hiqFill
  simp only []
  rw [(f _ _).1, (f _ _).2]
  exact ⟨rfl, fill_items 1024 s.runTime { s.evc.hiq with inflow := s.evc.hiq.inflow ++ l } h⟩

def hiqRest (s : State) := (s.cells, s.mem, s.net, s.pcie, s.drv)

theorem fires_only (n : Nat) (k : Nat) (z : State) : ∃ e, (List.range n).foldl (fun s _ => s.fire k) z = { z with evc := e } := by
  generalize List.range n = l
  induction l generalizing z with
  | nil => exact ⟨z.evc, rfl⟩
  | cons a l ih =>
    rw [List.foldl_cons]
    obtain ⟨e, h⟩ := ih (z.fire k)
    exact ⟨e, h.trans rfl⟩

theorem hiqFill_only (s : State) (l) : OnlyEvc s (s.hiqFill l) := by
  unfold State.hiqFill; simp only []
  obtain ⟨e, h⟩ := fires_only (((Queue.fill 1024 s.runTime { s.evc.hiq with inflow := s.evc.hiq.inflow ++ l }).items.drop s.evc.hiq.items.length).countP (·.eop)) 9 { s with evc := { s.evc with hiq := Queue.fill 1024 s.runTime { s.evc.hiq with inflow := s.evc.hiq.inflow ++ l } } }
  unfold OnlyEvc
  rw [h]

theorem hartPart_fires (n : Nat) (k : Nat) (z : State) (h : Nat) : ((((List.range n).foldl (fun s _ => s.fire k) z).evc.hart h).hiqHi) = (z.evc.hart h).hiqHi := by
  have F : ∀ (e : Evc) id, ((e.fire id).hart h).hiqHi = (e.hart h).hiqHi := by
    intro e id
    unfold Evc.fire
    split
    · have := pass_part (e.modSrc id (fun x => { x with st := .pending }))
      simp only [passPart, Prod.mk.injEq] at this
      have := congrFun this.2.2.2 h
      simp only [Prod.mk.injEq] at this
      exact this.2.2.2.2.1.trans rfl
    · rfl
    · rfl
    · rfl
  exact foldl_pres (fun s : State => (s.evc.hart h).hiqHi) _ (fun s _ => F s.evc k) _ z

theorem hiqFill_hart (s : State) (l) (h : Nat) : ((s.hiqFill l).evc.hart h).hiqHi = (s.evc.hart h).hiqHi := by
  unfold State.hiqFill; simp only []
  rw [hartPart_fires]; rfl

theorem toHiq_rest (s : State) (m) : hiqRest (s.toHiq m) = hiqRest s := by
  have := hiqFill_only s m.items
  unfold OnlyEvc at this
  unfold State.toHiq
  rw [this]; rfl

theorem portSendAll_one {s : State} {h n} {l : List Payload} {m : Msg} (hl : l.length = 2 + fld (l.getD 1 0) 79 64)
    (hm : Msg.ofItems (l.map (fun p => ⟨false, 0, p⟩)) = some m) : s.portSendAll h (n + 2) l = s.portSend m := by
  cases l with
  | nil => exfalso; simp only [List.length_nil] at hl; omega
  | cons a t =>
    rw [show n + 2 = (n + 1) + 1 from rfl]
    unfold State.portSendAll; simp only []
    rw [← hl, if_neg (Nat.lt_irrefl _), List.take_length, hm]
    simp only []
    rw [List.drop_length]
    unfold State.portSendAll; rfl

theorem sliceD_len (items : List Payload) (n : Nat) : (sliceD items 0 n 0).length = n := by
  unfold sliceD; simp; omega

theorem passUcie_rest (n : Net) (a b c d) : (n.passUcie a b c d).inFlight = n.inFlight ∧ (n.passUcie a b c d).devId = n.devId := by
  unfold Net.passUcie; exact ⟨rfl, rfl⟩

theorem crossDies_rest (n : Net) (a b c) : (n.crossDies a b c).inFlight = n.inFlight ∧ (n.crossDies a b c).devId = n.devId := by
  unfold Net.crossDies; exact ⟨rfl, rfl⟩

theorem crossHost_rest (n : Net) (d : Nat) (into : Bool) (k : Nat) (items) : ∃ x, n.crossHost d into k items = x ∧ x.inFlight = n.inFlight ∧ x.devId = n.devId := by
  refine ⟨_, rfl, ?_⟩
  unfold Net.crossHost
  split
  · exact passUcie_rest _ _ _ _ _
  · split
    · exact ⟨(crossDies_rest _ _ _ _).1.trans (passUcie_rest _ _ _ _ _).1, (crossDies_rest _ _ _ _).2.trans (passUcie_rest _ _ _ _ _).2⟩
    · exact ⟨(passUcie_rest _ _ _ _ _).1.trans (crossDies_rest _ _ _ _).1, (passUcie_rest _ _ _ _ _).2.trans (crossDies_rest _ _ _ _).2⟩

theorem forget_cell (s : State) (job : BitVec 32) (c : CellIx) :
    (s.forget job).cell c = { s.cell c with cutRecs := (s.cell c).cutRecs.filter (fun r => decide (r.job ≠ job)) } := by
  unfold State.forget State.cell
  have : ∀ l : SMap Cell, SMap.getD (l.map (fun x => (x.1, { x.2 with cutRecs := x.2.cutRecs.filter (fun r => decide (r.job ≠ job)) }))) c.val ({} : Cell) =
      { SMap.getD l c.val ({} : Cell) with cutRecs := (SMap.getD l c.val ({} : Cell)).cutRecs.filter (fun r => decide (r.job ≠ job)) } := by
    intro l
    unfold SMap.getD
    have g : SMap.get? (l.map (fun x => (x.1, { x.2 with cutRecs := x.2.cutRecs.filter (fun r => decide (r.job ≠ job)) }))) c.val =
        (SMap.get? l c.val).map (fun (x : Cell) => { x with cutRecs := x.cutRecs.filter (fun r => decide (r.job ≠ job)) }) := by
      induction l with
      | nil => rfl
      | cons a t ih => simp only [List.map_cons, SMap.get?]; split <;> first | rfl | exact ih
    rw [g]; cases SMap.get? l c.val <;> rfl
  exact this s.cells

theorem clearRefs_rest (s : State) (j : JobRec) : (s.clearRefs j).drv = s.drv ∧ (s.clearRefs j).cells = s.cells ∧ (s.clearRefs j).net = s.net := by
  unfold State.clearRefs; split <;> exact ⟨rfl, rfl, rfl⟩
structure Rel1 (s t : State) : Prop where
  cells : ExceptCuts s t
  refs : ExceptRefs s t
  ws : t.mem.wsMem = s.mem.wsMem
  graphs : ∀ g ∈ t.drv.graphs, g ∈ s.drv.graphs
  queue : t.drv.queue = s.drv.queue
  jobs : ∀ p : Nat → Bool → Prop, (∀ j ∈ s.drv.jobs, p j.stream j.silent) → ∀ j ∈ t.drv.jobs, p j.stream j.silent

theorem cuts_of {s t : State} (h : t.cells = s.cells) : ExceptCuts s t := by
  intro c; have : t.cell c = s.cell c := by unfold State.cell; rw [h]
  rw [this]

theorem Rel1.refl (s : State) : Rel1 s s := ⟨cuts_of rfl, fun _ _ => rfl, rfl, fun _ h => h, rfl, fun _ h => h⟩

theorem refWord_sub {s t : State} (h : ∀ g ∈ t.drv.graphs, g ∈ s.drv.graphs) {a} (k : RefWord t a) : RefWord s a := by
  obtain ⟨g, hg, r⟩ := k; exact ⟨g, h g hg, r⟩

theorem cuts_trans {s t u : State} (h : ExceptCuts s t) (k : ExceptCuts t u) : ExceptCuts s u := by
  intro c; have a := h c; have b := k c; rw [b, a]

theorem Rel1.trans {s t u : State} (h : Rel1 s t) (k : Rel1 t u) : Rel1 s u :=
  ⟨cuts_trans h.cells k.cells, fun a ha => (k.refs a (fun q => ha (refWord_sub h.graphs q))).trans (h.refs a ha), k.ws.trans h.ws,
    fun g hg => h.graphs g (k.graphs g hg), k.queue.trans h.queue, fun p hp => k.jobs p (h.jobs p hp)⟩

theorem Rel1.of {s t : State} (h1 : t.cells = s.cells) (h2 : twoMem t.mem = twoMem s.mem) (h3 : t.drv = s.drv) : Rel1 s t :=
  ⟨cuts_of h1, fun _ _ => by rw [show t.mem.mem = s.mem.mem from congrArg Prod.fst h2], congrArg Prod.snd h2, by rw [h3]; exact fun _ h => h, by rw [h3], fun p hp => by rw [h3]; exact hp⟩

theorem rel_clearRefs (s : State) (j : JobRec) : Rel1 s (s.clearRefs j) := by
  have hd := (clearRefs_rest s j).1
  refine ⟨cuts_of (clearRefs_rest s j).2.1, ?_, ?_, by rw [hd]; exact fun _ h => h, by rw [hd], fun p hp => by rw [hd]; exact hp⟩
  · intro a ha
    unfold State.clearRefs
    split
    case h_2 => rfl
    case h_1 g hg =>
      have gm := List.mem_of_find?_eq_some hg
      have F : ∀ (l : List Nat) (m : List Host.Cell), (∀ k ∈ l, k < g.layers.length ∧ Layer.op (g.layers.getD k []) = 1) →
          Memory.read (l.foldl (fun m k => Memory.writeWord m (s.deltaRef g (g.layers.getD k [])).base 0) m) a = Memory.read m a := by
        intro l
        induction l with
        | nil => intro m _; rfl
        | cons k l ih =>
          intro m h
          rw [List.foldl_cons, ih _ (fun i hi => h i (List.mem_cons_of_mem _ hi))]
          have hk := h k (by simp)
          unfold Memory.writeWord Memory.writeNat
          rw [Memory.read_writeBytes_ne]
          rw [bytesLE_length]
          show a < 64 * Layer.dref (g.layers.getD k []) ∨ 64 * Layer.dref (g.layers.getD k []) + 8 ≤ a
          by_contra q
          apply ha
          refine ⟨g, gm, g.layers.getD k [], ?_, hk.2, by omega, by omega⟩
          rw [List.getD_eq_getElem _ _ hk.1]; exact List.getElem_mem _
      apply F
      intro k hk
      have hk := List.mem_filter.mp hk
      refine ⟨List.mem_range.mp hk.1, ?_⟩
      have := hk.2
      simp only [Bool.and_eq_true, decide_eq_true_eq] at this
      exact this.1.2
  · unfold State.clearRefs; split <;> rfl

theorem rel_forget (s : State) (job) : Rel1 s (s.forget job) := by
  refine ⟨fun c => ?_, fun _ _ => rfl, rfl, fun _ h => h, rfl, fun _ h => h⟩
  rw [forget_cell]

theorem rel_sendMsg (s : State) (m) : Rel1 s (s.sendMsg m) := by
  have h2 := sendMsg_part s m
  simp only [sendPart, Prod.mk.injEq] at h2
  exact Rel1.of (sendMsg_cells _ _).1 (sendMsg_two _ _) h2.1

theorem rel_roleEpoch (s : State) (dev) : Rel1 s (s.roleEpoch dev).2 := by
  unfold State.roleEpoch; split
  · exact Rel1.refl s
  · split
    · exact Rel1.refl s
    · exact Rel1.of rfl rfl rfl

theorem rel_driverSync (s : State) (job dev obj op ack v tag) : Rel1 s (s.driverSync job dev obj op ack v tag) := by
  obtain ⟨m, h⟩ := driverSync_eq s job dev obj op ack v tag
  rw [h]; exact (rel_roleEpoch s dev).trans (rel_sendMsg _ _)

theorem rel_driverKill (s : State) (job dev tag) : Rel1 s (s.driverKill job dev tag) := by
  have : ∃ m, s.driverKill job dev tag = (s.roleEpoch dev).2.sendMsg m := by unfold State.driverKill; exact ⟨_, rfl⟩
  obtain ⟨m, h⟩ := this
  rw [h]; exact (rel_roleEpoch s dev).trans (rel_sendMsg _ _)

theorem rel_settle (s : State) : Rel1 s s.settle := by
  have h := settle_rest s
  simp only [restOf, Prod.mk.injEq] at h
  obtain ⟨a, b, c, d⟩ := h
  exact ⟨cuts_of b, fun _ _ => by rw [c]; rfl, by rw [c]; rfl, fun g hg => by rw [a] at hg; exact (List.mem_filter.mp hg).1, by rw [a]; rfl, fun p hp => by rw [a]; exact hp⟩

theorem rel_setJob (s : State) (j : JobRec) (h : ∃ i ∈ s.drv.jobs, i.stream = j.stream ∧ i.silent = j.silent) : Rel1 s (s.setJob j) := by
  refine ⟨cuts_of rfl, fun _ _ => rfl, rfl, fun _ h => h, rfl, fun p hp k hk => ?_⟩
  have hk : k ∈ s.drv.jobs.map (fun i => if i.id = j.id then j else i) := hk
  obtain ⟨i, hi, rfl⟩ := List.mem_map.mp hk
  split
  · obtain ⟨i', hi', a, b⟩ := h
    rw [← a, ← b]; exact hp i' hi'
  · exact hp i hi

theorem rel_filter (s : State) (id : BitVec 32) : Rel1 s (s.modDrv (fun d =>
    { d with jobs := d.jobs.filter (fun i => decide (i.id ≠ id)), frames := d.frames.filter (fun f => decide (f.job ≠ id)),
             stored := d.stored.filter (fun x => decide (x.1 ≠ id)) })) :=
  ⟨cuts_of rfl, fun _ _ => rfl, rfl, fun _ h => h, rfl, fun p hp k hk => hp k (List.mem_filter.mp hk).1⟩

theorem rel_jobOver (s : State) (j : JobRec) : Rel1 s (s.jobOver j) := by
  unfold State.jobOver; simp only []; split
  · exact (rel_forget s j.id).trans ((rel_filter (s.forget j.id) j.id).trans (rel_settle _))
  · exact (rel_forget s j.id).trans ((rel_filter (s.forget j.id) j.id).trans (Rel1.of rfl rfl rfl))

theorem rel_endJob (s : State) (j : JobRec) (h : ∃ i ∈ s.drv.jobs, i.stream = j.stream ∧ i.silent = j.silent) : Rel1 s (s.endJob j) := by
  unfold State.endJob; split
  · exact rel_jobOver _ _
  · split
    · exact rel_jobOver _ _
    · exact (rel_setJob s { j with phase := .signal } h).trans (rel_driverSync _ _ _ _ _ _ _ _)

theorem rel_killJob (s : State) (j : JobRec) (h : ∃ i ∈ s.drv.jobs, i.stream = j.stream ∧ i.silent = j.silent) : Rel1 s (s.killJob j) := by
  unfold State.killJob; split
  · simp only []; split
    · have hd : ∀ dev, (s.driverKill j.id dev 0).drv = s.drv := by
        intro dev
        have : ∃ m, s.driverKill j.id dev 0 = (s.roleEpoch dev).2.sendMsg m := by unfold State.driverKill; exact ⟨_, rfl⟩
        obtain ⟨m, hm⟩ := this
        rw [hm]
        have h2 := sendMsg_part (s.roleEpoch dev).2 m
        simp only [sendPart, Prod.mk.injEq] at h2
        exact h2.1.trans (roleEpoch_rest s dev).1
      split
      · refine (rel_driverKill s j.id _ 0).trans (rel_endJob _ _ ?_)
        rw [hd]; exact h
      · exact rel_endJob _ _ h
    · exact rel_endJob _ _ h
  · exact rel_endJob _ _ h
  · exact (rel_setJob s { j with killed := j.fail.isNone, phase := .killing } h).trans ((rel_clearRefs _ j).trans (rel_driverKill _ _ _ _))
  · exact Rel1.refl s
  · exact Rel1.refl s

theorem rel_kills (l : List JobRec) : ∀ s : State, Rel1 s (l.foldl (fun s j => (s.drv.job? j.id).elim s s.killJob) s) := by
  induction l with
  | nil => intro s; exact Rel1.refl s
  | cons a l ih =>
    intro s; rw [List.foldl_cons]
    refine Rel1.trans ?_ (ih _)
    rcases hc : s.drv.job? a.id with _ | j
    · exact Rel1.refl s
    · exact rel_killJob s j ⟨j, List.mem_of_find?_eq_some hc, rfl, rfl⟩

def silenced (s : State) (st : Nat) : State := (s.modDrv (fun v =>
    { v with jobs := v.jobs.map (fun (j : JobRec) => if j.stream = st then { j with silent := true, killers := [] } else j),
             queue := v.queue.filter (fun q => decide (q.stream ≠ st)), adds := v.adds.filter (fun a => decide (a.1 ≠ st)),
             waits := v.waits.filter (fun w => decide (w.stream ≠ st)) })).modStream st (fun q => { q with ready := [] })

theorem endStream_rel (s : State) (st : Nat) : Rel1 (silenced s st) (s.endStream st) := by
  unfold State.endStream; simp only []
  exact (rel_kills (s.drv.jobs.filter (fun j => decide (j.stream = st))) (silenced s st)).trans (rel_settle _)

theorem endStream_facts (s : State) (st : Nat) : ExceptCuts s (s.endStream st) ∧ ExceptRefs s (s.endStream st) ∧ (s.endStream st).mem.wsMem = s.mem.wsMem ∧ (∀ g ∈ (s.endStream st).drv.graphs, g ∈ s.drv.graphs) ∧
    (∀ x ∈ (s.endStream st).drv.queue, x.stream ≠ st) ∧ (∀ j ∈ (s.endStream st).drv.jobs, j.stream = st → j.silent = true) ∧
    (∀ k, (∀ j ∈ s.drv.jobs, j.stream = k → j.silent = true) → ∀ j ∈ (s.endStream st).drv.jobs, j.stream = k → j.silent = true) := by
  obtain ⟨a, b, b', gr, c, d⟩ := endStream_rel s st
  refine ⟨a, b, b', gr, ?_, ?_, ?_⟩
  · intro x hx; rw [c] at hx; simpa using (List.mem_filter.mp hx).2
  · apply d (fun k b => k = st → b = true)
    intro j hj e
    obtain ⟨i, hi, rfl⟩ := List.mem_map.mp (show j ∈ s.drv.jobs.map _ from hj)
    split at e
    · rename_i q; rw [if_pos q]
    · rename_i q; exact absurd e q
  · intro k hk
    apply d (fun m b => m = k → b = true)
    intro j hj e
    obtain ⟨i, hi, rfl⟩ := List.mem_map.mp (show j ∈ s.drv.jobs.map _ from hj)
    by_cases q : i.stream = st
    · rw [if_pos q]
    · rw [if_neg q] at e ⊢; exact hk i hi e

theorem endStreams (l : List Nat) : ∀ s : State, let t := l.foldl (fun s st => s.endStream st) s
    ExceptCuts s t ∧ ExceptRefs s t ∧ t.mem.wsMem = s.mem.wsMem ∧ (∀ k, (k ∈ l ∨ ∀ j ∈ s.drv.jobs, j.stream = k → j.silent = true) → ∀ j ∈ t.drv.jobs, j.stream = k → j.silent = true) := by
  induction l with
  | nil => intro s; exact ⟨cuts_of rfl, fun _ _ => rfl, rfl, fun k h => by simpa using h⟩
  | cons a l ih =>
    intro s
    obtain ⟨x, y, y', z⟩ := ih (s.endStream a)
    obtain ⟨p, q, q', gr, r, u, v⟩ := endStream_facts s a
    refine ⟨cuts_trans p x, fun b hb => (y b (fun k => hb (refWord_sub gr k))).trans (q b hb), y'.trans q', fun k hk => z k ?_⟩
    rcases hk with hk | hk
    · rcases List.mem_cons.mp hk with rfl | hk
      · exact Or.inr u
      · exact Or.inl hk
    · exact Or.inr (v k hk)

theorem barWrite_at {s : State} (h : s.hostUp = true) (hp : s.pinsHeld 0 = false) (i) (f : State → State) : s.barWrite i f = f s := by
  obtain ⟨a, b⟩ := up_of_host h
  unfold State.barWrite; rw [a, hp, b]; rfl

theorem modStream_modStream (s : State) (i : Nat) (f g : Stream → Stream) : (s.modStream i f).modStream i g = s.modStream i (fun q => g (f q)) := by
  unfold State.modStream State.stream Pcie.stream; simp [SMap.set_set]

theorem doorbell_src (s : State) (h : s.frozen = false) (id : Nat) : s.doorbell id = s.fire id := by
  unfold State.doorbell; rw [h]; rfl

theorem map_vecs (l : SMap Vec) (g : Vec → Vec) (hg : g {} = {}) (i : Nat) : SMap.getD (l.map (fun x => (x.1, g x.2))) i {} = g (SMap.getD l i {}) := map_getD l g {} hg i

theorem map_getK {α β : Type} (l : SMap α) (g : Nat → α → β) (i : Nat) :
    SMap.get? (l.map (fun x => (x.1, g x.1 x.2))) i = (SMap.get? l i).map (g i) := by
  induction l with
  | nil => rfl
  | cons p t ih =>
    obtain ⟨a, b⟩ := p
    simp only [SMap.get?, List.map_cons] at *
    split
    · rename_i h; subst h; rfl
    · exact ih

theorem flush_vec (p : Pcie) (i : Nat) (h : p.bme = true) : SMap.getD p.flushVectors.vecs i {} =
    (fun v : Vec => if v.pba && !v.masked then { v with pba := false, sent := v.sent + 1 } else v) (SMap.getD p.vecs i {}) := by
  unfold Pcie.flushVectors; rw [if_pos h]
  have : (p.vecs.map (fun x => if x.2.pba && !x.2.masked then (x.1, { x.2 with pba := false, sent := x.2.sent + 1 }) else x)) =
      p.vecs.map (fun x => (x.1, (fun v : Vec => if v.pba && !v.masked then { v with pba := false, sent := v.sent + 1 } else v) x.2)) := by
    apply List.map_congr_left; intro x _; simp only []; split <;> rfl
  show SMap.getD (p.vecs.map _) i ({} : Vec) = _
  rw [this]; exact map_vecs p.vecs (fun v : Vec => if v.pba && !v.masked then { v with pba := false, sent := v.sent + 1 } else v) rfl i

theorem flush_rest (p : Pcie) : p.flushVectors = { p with vecs := p.flushVectors.vecs } := by
  unfold Pcie.flushVectors; split <;> rfl

theorem stream_vector (s : State) (v st : Nat) : (s.vector v).stream st = s.stream st := rfl

theorem publish_stream (s : State) (st : Nat) (v) : ((s.publish st v).stream st).cqTail = v ∧
    ((s.publish st v).stream st).published = (s.stream st).published + BitVec.ofNat 64 ((v.toNat + (s.stream st).cqSize.toNat - (s.stream st).cqTail.toNat) % (s.stream st).cqSize.toNat) := by
  unfold State.publish; simp only []; split
  · unfold State.signal
    constructor
    · rw [stream_vector, stream_mod, stream_mod]
    · rw [stream_vector, stream_mod, stream_mod]
  · constructor <;> rw [stream_mod]

theorem publish_rest (s : State) (st : Nat) (v) : (s.publish st v).cells = s.cells ∧ (s.publish st v).drv = s.drv ∧ (s.publish st v).evc = s.evc := by
  unfold State.publish; simp only []; split <;> exact ⟨rfl, rfl, rfl⟩

end Sys2Proof.Laws.HostDieLaws
end

