-- ==== Sys2Proof/Laws/LinkLaws.lean ====
section
/-! SUPPORT. Lemmas about links, flits and packets. -/

namespace Sys2Proof.Laws.LinkLaws

set_option linter.all false

open Sys2Proof Sys2Proof.Machine Sys2Proof.Claims

theorem links_self (n : Net) (l : Nat) (k : Link) : (n.setLink l k).link l = k := SMap.getD_set_self _ _ _ _

theorem links_ne (n : Net) (l j : Nat) (k : Link) (h : j ≠ l) : (n.setLink l k).link j = n.link j := by
  unfold Net.link Net.setLink; simp only []
  rw [SMap.getD_set, if_neg (fun e => h e.symm)]

theorem links_at (n : Net) (l j : Nat) (k : Link) : (n.setLink l k).link j = if j = l then k else n.link j := by
  by_cases h : j = l
  · subst h; rw [links_self, if_pos rfl]
  · rw [links_ne _ _ _ _ h, if_neg h]

/-- The receiving side of a link. -/
def rxSide (k : Link) : Link := { k with txSeq := 0, held := [], cred0 := 0, cred1 := 0, owe0 := 0, owe1 := 0, nakSend := false, lastAck := 0, q0 := [], q1 := [], sent0 := 0, sent1 := 0 }

theorem rx_iff (k k' : Link) : rxSide k' = rxSide k ↔ k' = { k with txSeq := k'.txSeq, held := k'.held, cred0 := k'.cred0, cred1 := k'.cred1, owe0 := k'.owe0, owe1 := k'.owe1, nakSend := k'.nakSend, lastAck := k'.lastAck, q0 := k'.q0, q1 := k'.q1, sent0 := k'.sent0, sent1 := k'.sent1 } := by
  constructor
  · intro h
    rcases k with ⟨⟩; rcases k' with ⟨⟩
    unfold rxSide at h; simp only [Link.mk.injEq] at h ⊢
    simp only [h, and_self, true_and, and_true]
  · intro h; rw [h]; rfl

theorem rx_sendFlit (sh : Nat) (k : Link) (v) (k') (h : k.sendFlit sh v = some k') : rxSide k' = rxSide k := by
  unfold Link.sendFlit at h; simp only [] at h
  rcases v with _ | _
  all_goals
    simp only [Bool.false_eq_true, if_false, if_true] at h
    split at h
    · cases h
    · split at h
      · cases h
      · split at h
        · cases h
        · simp only [Option.some.injEq] at h
          subst h
          rfl

theorem rx_pump (sh : Nat) : ∀ (n : Nat) (k : Link), rxSide (Link.pump sh n k).2 = rxSide k := by
  intro n; induction n with
  | zero => intro k; rfl
  | succ n ih =>
    intro k; unfold Link.pump
    split
    · rfl
    · rename_i k' h
      show rxSide (Link.pump sh n k').2 = _
      rw [ih]
      rcases h1 : k.sendFlit sh true with _ | y
      · rw [h1] at h; simp only [Option.orElse_none] at h; exact rx_sendFlit _ _ _ _ h
      · rw [h1] at h; simp only [Option.orElse_some, Option.some.injEq] at h; subst h; exact rx_sendFlit _ _ _ _ h1

theorem rx_reported (k : Link) : rxSide k.reported = rxSide k := by simp only [rxSide, Link.reported]

theorem rx_reported' (k : Link) (a : Word) : rxSide { k.reported with lastAck := a } = rxSide k := by simp only [rxSide, Link.reported]

theorem rx_report (k : Link) (a b c d) : rxSide { k with held := a, lastAck := b, cred0 := c, cred1 := d } = rxSide k := rfl

theorem npump_rx (n : Net) (l j : Nat) : rxSide ((n.pump l).link j) = rxSide (n.link j) := by
  unfold Net.pump; simp only []
  show rxSide ((n.setLink l _).link j) = _
  rw [links_at]
  split
  · rename_i h; subst h
    split
    · exact rx_pump _ _ _
    · rw [rx_reported]; exact rx_pump _ _ _
  · rfl

theorem npump_rest (n : Net) (l : Nat) : n.pump l = { n with links := (n.pump l).links, flitsTx := (n.pump l).flitsTx, serTx := (n.pump l).serTx } := rfl

theorem npump_ne (n : Net) (l j : Nat) (h : j ≠ l) : (n.pump l).link j = n.link j := by
  unfold Net.pump; simp only []
  exact links_ne _ _ _ _ h

theorem sends_iff (s t : State) : OnlySends s t ↔ (t = { s with net := { s.net with links := t.net.links, flitsTx := t.net.flitsTx, replays := t.net.replays, serTx := t.net.serTx } } ∧ ∀ j, rxSide (t.net.link j) = rxSide (s.net.link j)) := by
  unfold OnlySends
  constructor
  · rintro ⟨a, b⟩; exact ⟨a, fun j => (rx_iff _ _).mpr (b j)⟩
  · rintro ⟨a, b⟩; exact ⟨a, fun j => (rx_iff _ _).mp (b j)⟩

theorem sends_refl (s : State) : OnlySends s s := (sends_iff _ _).mpr ⟨rfl, fun _ => rfl⟩

theorem sends_trans {s t u : State} (h1 : OnlySends s t) (h2 : OnlySends t u) : OnlySends s u := by
  rw [sends_iff] at *
  refine ⟨?_, fun j => (h2.2 j).trans (h1.2 j)⟩
  rw [h2.1, h1.1]

theorem sends_net (s : State) (n : Net) (h1 : n = { s.net with links := n.links, flitsTx := n.flitsTx, replays := n.replays, serTx := n.serTx }) (h2 : ∀ j, rxSide (n.link j) = rxSide (s.net.link j)) : OnlySends s { s with net := n } := by
  rw [sends_iff]
  refine ⟨?_, h2⟩
  rw [h1]

theorem sends_pump (s : State) (l) : OnlySends s (s.pump l) := by
  unfold State.pump
  split
  · exact sends_refl s
  · exact sends_net s _ (npump_rest _ _) (fun j => npump_rx _ _ j)

theorem sends_modLink (s : State) (l) (f : Link → Link) (h : ∀ k, rxSide (f k) = rxSide k) : OnlySends s (s.modLink l f) := by
  refine sends_net s _ rfl (fun j => ?_)
  rw [links_at]; split
  · rename_i q; subst q; exact h _
  · rfl

theorem sends_replay (s : State) (l) : OnlySends s (s.replay l) := by
  unfold State.replay
  split
  · exact sends_refl s
  · simp only []
    refine sends_trans (sends_modLink s l (fun k => { k.reported with lastAck := s.linkTime l }) (fun k => rx_reported' k _)) ?_
    exact sends_net _ _ rfl (fun _ => rfl)

theorem sends_report (s : State) (l b) : OnlySends s (s.flitReport l b) := by
  unfold State.flitReport
  extract_lets now share y
  have hy : OnlySends s y := sends_modLink s l _ (fun k => rx_report k (if flitFld b 34 34 = 1 then afterAck (flitFld b 33 22) k.held else k.held) (if (if flitFld b 34 34 = 1 then afterAck (flitFld b 33 22) k.held else k.held).length < k.held.length then now else k.lastAck) (min share (k.cred0 + flitFld b 45 36)) (min share (k.cred1 + flitFld b 55 46)))
  refine sends_trans hy ?_
  split
  · exact sends_trans (sends_replay _ _) (sends_pump _ _)
  · exact sends_pump _ _

theorem sends_mod {s t : State} (h : OnlySends s t) : t.cells = s.cells ∧ t.mem = s.mem ∧ t.evc = s.evc ∧ t.dict = s.dict ∧ t.sync = s.sync ∧ t.units = s.units ∧
   t.net.routes = s.net.routes ∧ t.net.degrades = s.net.degrades ∧ t.net.badFlits = s.net.badFlits ∧ t.net.arrive0 = s.net.arrive0 ∧ t.net.arrive1 = s.net.arrive1 ∧ t.net.heldPk = s.net.heldPk ∧ t.net.forwarded = s.net.forwarded := by
  rw [h.1]; exact ⟨rfl, rfl, rfl, rfl, rfl, rfl, rfl, rfl, rfl, rfl, rfl, rfl, rfl⟩

theorem sends_link {s t : State} (h : OnlySends s t) (j) : (t.net.link j).st = (s.net.link j).st ∧ (t.net.link j).partner = (s.net.link j).partner ∧ (t.net.link j).mode = (s.net.link j).mode ∧
   (t.net.link j).lastHello = (s.net.link j).lastHello ∧ (t.net.link j).lanes = (s.net.link j).lanes ∧ (t.net.link j).retraining = (s.net.link j).retraining ∧ (t.net.link j).lock = (s.net.link j).lock ∧
   (t.net.link j).rx0 = (s.net.link j).rx0 ∧ (t.net.link j).rx1 = (s.net.link j).rx1 := by
  rw [h.2 j]; exact ⟨rfl, rfl, rfl, rfl, rfl, rfl, rfl, rfl, rfl⟩

theorem mod_link (s : State) (l j) (f : Link → Link) : (s.modLink l f).net.link j = if j = l then f (s.net.link j) else s.net.link j := by
  unfold State.modLink
  show (s.net.setLink l _).link j = _
  rw [links_at]
  split
  · rename_i h; subst h; rfl
  · rfl

theorem mod_self (s : State) (l) (f : Link → Link) : (s.modLink l f).net.link l = f (s.net.link l) := by rw [mod_link, if_pos rfl]

theorem mod_congr (s : State) (l) (f g : Link → Link) (h : f (s.net.link l) = g (s.net.link l)) : s.modLink l f = s.modLink l g := by unfold State.modLink; rw [h]

theorem wired_up {s : State} {l} (h : s.linkWired l = true) : s.up = true := by
  unfold State.linkWired at h; simp only [Bool.and_eq_true] at h; exact h.1.1.1

theorem badFlit_eq (s : State) (l) : s.badFlit l = { s with net := { s.net.setLink l (if (s.net.link l).nakOpen then s.net.link l else { s.net.link l with nakOpen := true, nakSend := true }) with badFlits := s.net.badFlits + 1 } } := rfl

theorem native_in (s : State) (l b) (kind : Bool) (hw : s.linkWired l = true) (hm : (s.net.link l).mode = 1) (hl : (s.net.link l).lock = true) (hk : (kind || !flitOk b) = true) :
   s.nativeFlit l b kind = (s.passRx l b).flitIn l b := by
  unfold State.nativeFlit; simp only []
  rw [hw, hl, hk, hm]; rfl

def linkMain (k : Link) := (k.st, k.partner, k.mode, k.lastHello, k.lanes, k.retraining, k.lock)

theorem checkDup_facts (s : State) (l p) : (s.checkDup l p).cells = s.cells ∧ (s.checkDup l p).mem = s.mem ∧ (s.checkDup l p).net.routes = s.net.routes ∧
   ∀ j, linkMain ((s.checkDup l p).net.link j) = linkMain (s.net.link j) := by
  have M : ∀ d j, linkMain ((s.modLink l (fun k => { k with dup := d })).net.link j) = linkMain (s.net.link j) := by
    intro d j; rw [mod_link]; split
    · rename_i h; subst h; rfl
    · rfl
  unfold State.checkDup; simp only []
  split
  · exact ⟨rfl, rfl, rfl, fun j => M true j⟩
  · split
    · exact ⟨rfl, rfl, rfl, fun j => rfl⟩
    · exact ⟨rfl, rfl, rfl, fun j => M false j⟩

theorem main_of {k k' : Link} (h : linkMain k = linkMain k') : k.st = k'.st ∧ k.partner = k'.partner ∧ k.mode = k'.mode ∧ k.lastHello = k'.lastHello := by
  unfold linkMain at h; simp only [Prod.mk.injEq] at h; exact ⟨h.1, h.2.1, h.2.2.1, h.2.2.2.1⟩

theorem linkUp_facts (s : State) (l p) (hm : s.linkMode l ≠ 0) : (s.linkUp l p).cells = s.cells ∧ (s.linkUp l p).mem = s.mem ∧
   ((s.linkUp l p).net.link l).st = .up ∧ ((s.linkUp l p).net.link l).partner = some p ∧ ((s.linkUp l p).net.link l).mode = BitVec.ofNat 8 (s.linkMode l) ∧
   ((s.linkUp l p).net.link l).lastHello = (s.net.link l).lastHello ∧
   (p.unnum = false → (s.net.entry p.devid).toNat % 16 = 15 → (s.linkUp l p).net.routes = SMap.set s.net.routes p.devid.toNat (BitVec.ofNat 16 (l / 4 + l % 4 * 2 ^ 4 + 2 ^ 13))) := by
  unfold State.linkUp; simp only []
  rw [if_neg hm]
  generalize hz : s.modLink l (fun k => { k with mode := BitVec.ofNat 8 (s.linkMode l), st := .up, partner := some p, cred0 := s.net.rxShare l, cred1 := s.net.rxShare l, lastAck := s.linkTime l }) = z
  have zl : z.net.link l = { s.net.link l with mode := BitVec.ofNat 8 (s.linkMode l), st := .up, partner := some p, cred0 := s.net.rxShare l, cred1 := s.net.rxShare l, lastAck := s.linkTime l } := by
    rw [← hz]; exact mod_self s l _
  have zr : z.cells = s.cells ∧ z.mem = s.mem ∧ z.net.routes = s.net.routes := by rw [← hz]; exact ⟨rfl, rfl, rfl⟩
  clear hz
  generalize hy : z.modDict _ = y
  have yr : y.cells = s.cells ∧ y.mem = s.mem ∧ y.net = z.net := by rw [← hy]; exact ⟨zr.1, zr.2.1, rfl⟩
  clear hy
  have en : y.net.entry p.devid = s.net.entry p.devid := by unfold Net.entry; rw [yr.2.2, zr.2.2]
  rw [en]
  split
  · rename_i q
    refine ⟨yr.1, yr.2.1, ?_, ?_, ?_, ?_, fun _ _ => ?_⟩
    · show (y.net.link l).st = _; rw [yr.2.2, zl]
    · show (y.net.link l).partner = _; rw [yr.2.2, zl]
    · show (y.net.link l).mode = _; rw [yr.2.2, zl]
    · show (y.net.link l).lastHello = _; rw [yr.2.2, zl]
    · show SMap.set y.net.routes _ _ = _; rw [yr.2.2, zr.2.2]
  · rename_i q
    refine ⟨yr.1, yr.2.1, ?_, ?_, ?_, ?_, fun h1 h2 => absurd ⟨by rw [h1]; simp, h2⟩ q⟩
    · show (y.net.link l).st = _; rw [yr.2.2, zl]
    · show (y.net.link l).partner = _; rw [yr.2.2, zl]
    · show (y.net.link l).mode = _; rw [yr.2.2, zl]
    · show (y.net.link l).lastHello = _; rw [yr.2.2, zl]

theorem exec_flit (s : State) (l : Fin 32) (b c) (hw : s.linkWired l.val = true) (hm : (s.net.link l.val).mode = 1) (hl : (s.net.link l.val).lock = true) (hc : FlitOf l b c) :
    exec c s = .next ((s.passRx l.val b).flitIn l.val b) := by
  rcases hc with ⟨rfl, h1, h2⟩ | ⟨rfl, h1, h2⟩ | ⟨rfl, h1⟩ | ⟨rfl, h1⟩ | ⟨rfl, h1⟩
  · show execDataFlit l b s = _
    unfold execDataFlit; rw [native_in _ _ _ _ hw hm hl (by rw [h1, h2]; rfl)]
  · show execAbortFlit l b s = _
    unfold execAbortFlit; rw [native_in _ _ _ _ hw hm hl (by rw [h1, h2]; rfl)]
  · show execIdleFlit l b s = _
    unfold execIdleFlit; rw [native_in _ _ _ _ hw hm hl (by rw [h1]; rfl)]
  · show execHelloFlit l b s = _
    unfold execHelloFlit; rw [native_in _ _ _ _ hw hm hl (by rw [h1]; rfl)]
  · show execDegradeFlit l b s = _
    unfold execDegradeFlit; rw [native_in _ _ _ _ hw hm hl (by rw [h1]; rfl)]

theorem flit_bad (s : State) (l b) (h : flitOk b = false) : s.flitIn l b = s.badFlit l := by
  unfold State.flitIn; rw [h, if_pos (by rfl)]

theorem flit_good (s : State) (l b) (h : flitOk b = true) : s.flitIn l b = (match flitType b with
  | 1 => s.dataIn l b
  | 3 => s.helloIn l b
  | 4 => (s.degrade l).flitReport l b
  | _ => s.flitReport l b) := by
  unfold State.flitIn; rw [h, if_neg (by simp)] <;> rfl

theorem degrade_more (s : State) (l) (h1 : (s.net.link l).st = .up) (h2 : (s.net.link l).retraining = false) (h3 : 1 < (s.net.link l).lanes) :
   ((s.degrade l).net.link l).lanes = (s.net.link l).lanes / 2 ∧ ((s.degrade l).net.link l).retraining = true ∧ ((s.degrade l).net.link l).st = .up ∧
          (s.degrade l).net.degrades = s.net.degrades + 1 ∧ (s.degrade l).evc = s.evc.fireStatus srcCapacity ∧ (s.degrade l).cells = s.cells := by
  unfold State.degrade; simp only []
  rw [if_neg (by rw [h1, h2]; simp), if_neg (by omega)]
  obtain ⟨z, hz, z1, z2, z3, z4⟩ : ∃ z, z = s.sendDegrade l ∧ ((z.net.link l).lanes = (s.net.link l).lanes ∧ (z.net.link l).st = (s.net.link l).st) ∧ z.net.degrades = s.net.degrades ∧ z.evc = s.evc ∧ z.cells = s.cells := by
    refine ⟨_, rfl, ?_, rfl, rfl, rfl⟩
    obtain ⟨f, hf, f1⟩ : ∃ f : Link → Link, (s.sendDegrade l).net = (s.modLink l f).net ∧ (f (s.net.link l)).lanes = (s.net.link l).lanes ∧ (f (s.net.link l)).st = (s.net.link l).st :=
      ⟨fun k => { k.reported with out := (s.net.link l).flit 4 ((List.range 240).map (Config.freeBytes s.free)) }, rfl, by simp only [Link.reported, and_self]⟩
    rw [hf, mod_self]; exact f1
  rw [← hz]
  have K := mod_self z l (fun (k : Link) => { k with lanes := k.lanes / 2, retraining := true })
  generalize hy : z.modLink l (fun (k : Link) => { k with lanes := k.lanes / 2, retraining := true }) = y at K
  have y1 : y.net.degrades = z.net.degrades ∧ y.evc = z.evc ∧ y.cells = z.cells := by rw [← hy]; exact ⟨rfl, rfl, rfl⟩
  refine ⟨?_, ?_, ?_, ?_, ?_, ?_⟩
  · exact (congrArg Link.lanes K).trans (congrArg (fun k => k / 2) z1.1)
  · show (y.net.link l).retraining = _; rw [K]
  · exact (congrArg Link.st K).trans (z1.2.trans h1)
  · show y.net.degrades + 1 = _; rw [y1.1, z2]
  · show y.evc.fireStatus srcCapacity = _; rw [y1.2.1, z3]
  · show y.cells = _; rw [y1.2.2, z4]

theorem degrade_last (s : State) (l) (h1 : (s.net.link l).st = .up) (h2 : (s.net.link l).retraining = false) (h3 : (s.net.link l).lanes ≤ 1) :
   ((s.degrade l).net.link l).st = .down ∧ ((s.degrade l).net.link l).lock = false ∧ (s.degrade l).cells = s.cells := by
  unfold State.degrade; simp only []
  rw [if_neg (by rw [h1, h2]; simp), if_pos h3, mod_self]
  exact ⟨rfl, rfl, rfl⟩

theorem helloIn_absent (s : State) (l b) (h : (s.net.link l).st = .absent) (hm : s.linkMode l ≠ 0) :
  ∃ z, z = (s.modLink l (fun k => { k with lastHello := s.linkTime l })).linkUp l (helloPartner b) ∧ s.helloIn l b = (z.checkDup l (helloPartner b)).flitReport l b := by
  refine ⟨_, rfl, ?_⟩
  unfold State.helloIn; simp only [h]
  have K := linkUp_facts (s.modLink l (fun k => { k with lastHello := s.linkTime l })) l (helloPartner b) hm
  rw [if_neg (by rw [K.2.2.1]; simp)]

theorem helloIn_up (s : State) (l b) (h : (s.net.link l).st = .up) (hp : (s.net.link l).partner.elim false (fun q => decide (q.serial = (helloPartner b).serial)) = true) :
  ∃ z, z = (s.modLink l (fun k => { k with lastHello := s.linkTime l })).modLink l (fun k => { k with partner := some (helloPartner b) }) ∧ s.helloIn l b = (z.checkDup l (helloPartner b)).flitReport l b := by
  refine ⟨_, rfl, ?_⟩
  unfold State.helloIn; simp only [h]
  simp only [hp, if_true, reduceCtorEq, false_and, if_false]
  have K : (((s.modLink l (fun k => { k with lastHello := s.linkTime l })).modLink l (fun k => { k with partner := some (helloPartner b) })).net.link l).st = .up := by
    rw [mod_self, mod_self]; exact h
  rw [if_neg (by rw [K]; simp)]

theorem dataIn_ok (s : State) (l : Nat) (b) (h1 : (s.net.link l).st = .up) (h2 : (s.net.link l).dup = false) (h3 : (s.net.link l).retraining = false)
    (h4 : BitVec.ofNat 12 (flitFld b 21 10) = (s.net.link l).rxSeq + 1) :
    OnlySends (s.modLink l (fun k => { k with rxSeq := BitVec.ofNat 12 (flitFld b 21 10), rxAny := true, nakOpen := false, rx0 := (if flitFld b 4 4 = 1 then k.rx0 else k.rx0 ++ [⟨flitItems b, flitAbort b⟩]), rx1 := (if flitFld b 4 4 = 1 then k.rx1 ++ [⟨flitItems b, flitAbort b⟩] else k.rx1) })) (s.dataIn l b) := by
  unfold State.dataIn; simp only []
  rw [if_neg (by rw [h1, h2, h3]; simp), if_pos h4]
  by_cases q : flitFld b 4 4 = 1
  · simp only [if_pos q]; exact sends_report _ _ _
  · simp only [if_neg q]; exact sends_report _ _ _

theorem sends_gap (s : State) (l : Nat) : OnlySends (s.modLink l (fun k => { k with nakOpen := true })) (s.modLink l (·.gap)) := by
  rw [sends_iff]
  refine ⟨rfl, fun j => ?_⟩
  rw [mod_link, mod_link]
  split
  · unfold Link.gap; split
    · rename_i q
      generalize s.net.link j = x at q
      rcases x with ⟨⟩; simp only at q; subst q; rfl
    · rfl
  · rfl

theorem dataIn_gap (s : State) (l : Nat) (b) (h1 : (s.net.link l).st = .up) (h2 : (s.net.link l).dup = false) (h3 : (s.net.link l).retraining = false)
    (h4 : BitVec.ofNat 12 (flitFld b 21 10) ≠ (s.net.link l).rxSeq + 1) :
    OnlySends (s.modLink l (fun k => { k with nakOpen := true })) (s.dataIn l b) := by
  unfold State.dataIn; simp only []
  rw [if_neg (by rw [h1, h2, h3]; simp), if_neg h4]
  exact sends_trans (sends_gap s l) (sends_report _ _ _)

theorem dataIn_off (s : State) (l : Nat) (b) (h1 : (s.net.link l).st ≠ .up ∨ (s.net.link l).dup = true ∨ (s.net.link l).retraining = true) : s.dataIn l b = s := by
  unfold State.dataIn; simp only []
  rw [if_pos (by rcases h1 with h | h | h
                 · exact Or.inl h
                 · right; left; exact h
                 · right; right; exact h)]

theorem helloIn_first (s : State) (l : Nat) (b) (h1 : (s.net.link l).st = .absent) (h2 : s.linkMode l ≠ 0) (t) (ht : t = s.helloIn l b) :
          (t.net.link l).st = .up ∧ (t.net.link l).partner = some (helloPartner b) ∧
          (t.net.link l).mode = BitVec.ofNat 8 (s.linkMode l) ∧ (t.net.link l).lastHello = s.linkTime l ∧
          t.cells = s.cells ∧ t.mem = s.mem ∧
          ((helloPartner b).unnum = false → (s.net.entry (helloPartner b).devid).toNat % 16 = 15 →
            t.net.entry (helloPartner b).devid = BitVec.ofNat 16 (l / 4 + l % 4 * 16 + 0x2000)) := by
  obtain ⟨z, hz, hq⟩ := helloIn_absent s l b h1 h2
  rw [hq] at ht
  have U := linkUp_facts (s.modLink l (fun k => { k with lastHello := s.linkTime l })) l (helloPartner b) h2
  rw [← hz, mod_self] at U
  have D := checkDup_facts z l (helloPartner b)
  have R := sends_report (z.checkDup l (helloPartner b)) l b
  rw [← ht] at R
  have M := main_of (D.2.2.2 l)
  have L := sends_link R l
  have Q := sends_mod R
  refine ⟨?_, ?_, ?_, ?_, ?_, ?_, ?_⟩
  · rw [L.1, M.1, U.2.2.1]
  · rw [L.2.1, M.2.1, U.2.2.2.1]
  · rw [L.2.2.1, M.2.2.1, U.2.2.2.2.1]; rfl
  · rw [L.2.2.2.1, M.2.2.2, U.2.2.2.2.2.1]
  · exact Q.1.trans (D.1.trans U.1)
  · exact Q.2.1.trans (D.2.1.trans U.2.1)
  · intro g1 g2
    unfold Net.entry
    rw [Q.2.2.2.2.2.2.1, D.2.2.1, U.2.2.2.2.2.2 g1 g2]
    exact SMap.getD_set_self _ _ _ _

theorem helloIn_again (s : State) (l : Nat) (b) (h1 : (s.net.link l).st = .up) (h2 : (s.net.link l).partner.elim false (fun q => decide (q.serial = (helloPartner b).serial)) = true) (t) (ht : t = s.helloIn l b) :
    (t.net.link l).st = .up ∧ (t.net.link l).partner = some (helloPartner b) ∧
            (t.net.link l).lastHello = s.linkTime l ∧ t.cells = s.cells ∧ t.mem = s.mem ∧ t.net.routes = s.net.routes := by
  obtain ⟨z, hz, hq⟩ := helloIn_up s l b h1 h2
  rw [hq] at ht
  have zl : z.net.link l = { s.net.link l with lastHello := s.linkTime l, partner := some (helloPartner b) } := by rw [hz, mod_self, mod_self]
  have zr : z.cells = s.cells ∧ z.mem = s.mem ∧ z.net.routes = s.net.routes := by rw [hz]; exact ⟨rfl, rfl, rfl⟩
  have D := checkDup_facts z l (helloPartner b)
  have R := sends_report (z.checkDup l (helloPartner b)) l b
  rw [← ht] at R
  have M := main_of (D.2.2.2 l)
  have L := sends_link R l
  have Q := sends_mod R
  refine ⟨?_, ?_, ?_, Q.1.trans (D.1.trans zr.1), Q.2.1.trans (D.2.1.trans zr.2.1), Q.2.2.2.2.2.2.1.trans (D.2.2.1.trans zr.2.2)⟩
  · rw [L.1, M.1, zl]; exact h1
  · rw [L.2.1, M.2.1, zl]
  · rw [L.2.2.2.1, M.2.2.2, zl]

theorem frame_bad (s : State) (l : Fin 32) (f : List Byte) (hw : s.linkWired l.val = true) (hm : (s.net.link l.val).mode = 2) (hd : ofBytesLE (f.take 6).reverse = linkMac l.val) :
    exec (.ethFrame l f false) s = .next (s.badFlit l.val) := by
  show execEthFrame l f false s = _
  unfold execEthFrame; simp only []; rw [onlyIf_true _ _ _ (by rw [hw, hm, hd]; simp)]
  unfold State.frameIn; simp only []
  rw [if_neg (by simp), if_pos (by left; simp)]

theorem frame_one (s : State) (l : Fin 32) (f : List Byte) (n b) (hw : s.linkWired l.val = true) (hm : (s.net.link l.val).mode = 2) (hd : ofBytesLE (f.take 6).reverse = linkMac l.val)
    (hp : s.peerMac l.val = ofBytesLE ((f.drop 6).take 6).reverse) (h0 : s.peerMac l.val ≠ 0) (h1 : (f.drop 12).take 2 = [0x88, 0xB5])
    (h2 : ofBytesLE ((f.drop 14).take 1) = 1) (h3 : ofBytesLE ((f.drop 15).take 7) = 0) (h4 : f.length = 278) (hb : b = (f.drop 22).take 256) (hn : n = 1) :
    ∃ t, exec (.ethFrame l f true) s = .next t ∧ (flitOk b = false → t = s.badFlit l.val) ∧ (flitOk b = true → flitType b = 2 → OnlySends s t) := by
  have E : exec (.ethFrame l f true) s = .next (s.frameIn l.val f true) := by
    show execEthFrame l f true s = _
    unfold execEthFrame; simp only []; rw [onlyIf_true _ _ _ (by
      rw [hw, hm, hd]; simp)]
  have ha : frameAt f = 12 := by unfold frameAt; rw [h1, if_neg (by decide)]
  unfold State.frameIn at E; simp only [ha] at E
  have ht1 : (f.drop 12).take 2 ≠ [0x88, 0x08] := by rw [h1]; decide
  rw [if_neg (by intro q; exact ht1 q.2), if_neg (by
    rintro (q | q | q | q | q | q)
    · exact q trivial
    · exact q h1
    · have h2' : ofBytesLE ((f.drop (12 + 2)).take 1) = 1 := h2
      rw [h2'] at q; cases q
    · have h2' : ofBytesLE ((f.drop (12 + 2)).take 1) = 1 := h2
      rw [h2'] at q; omega
    · have h2' : ofBytesLE ((f.drop (12 + 2)).take 1) = 1 := h2
      rw [h2', h4] at q; exact q rfl
    · exact q h3), if_neg (by rw [← hp]; simp)] at E
  have h2' : ofBytesLE ((f.drop (12 + 2)).take 1) = 1 := h2
  rw [if_neg (by intro q; exact h0 q.1), h2'] at E
  have hfl : frameFlits f 1 = [b] := by
    unfold frameFlits; rw [ha, hb]; rfl
  rw [hfl] at E
  refine ⟨_, E, fun q => ?_, fun q qt => ?_⟩
  · show s.flitIn l.val b = _
    rw [flit_bad _ _ _ q]
  · show OnlySends s (s.flitIn l.val b)
    rw [flit_good _ _ _ q, qt]
    exact sends_report _ _ _

theorem reroute_link (s : State) (d vc p l) (h : s.net.link l = { s.net.link l with st := .absent }) : ((s.reroute d vc p).net.link l) = s.net.link l ∧ (s.reroute d vc p).cells = s.cells ∧ (s.reroute d vc p).sync = s.sync ∧ (s.reroute d vc p).net.devId = s.net.devId := by
  have ha : (s.net.link l).st = .absent := by rw [h]
  unfold State.reroute
  split
  · rename_i j hr _
    refine ⟨?_, rfl, rfl, rfl⟩
    have hj : j ≠ l := by
      intro e; subst e
      unfold Net.route at hr; simp only [] at hr
      have hu : s.net.usable j = false := by
        unfold Net.usable; rw [ha]; simp
      split at hr
      · rename_i q; simp only [Option.some.injEq] at hr; rw [hr, hu] at q; simp at q
      · split at hr
        · rename_i q; simp only [Option.some.injEq] at hr; rw [hr, hu] at q; simp at q
        · cases hr
    show (s.net.enqueue j vc p).link l = _
    unfold Net.enqueue; simp only []
    rw [npump_ne _ _ _ (Ne.symm hj), links_ne _ _ _ _ (Ne.symm hj)]
  · split
    · exact ⟨rfl, rfl, rfl, rfl⟩
    · exact ⟨rfl, rfl, rfl, rfl⟩

theorem reroutes_link (d : Nat) (vc : Bool) (l : Nat) (L : Link) (hL : L.st = .absent) : ∀ (ps : List Packet) (s : State), s.net.link l = L →
    ((ps.foldl (fun s p => s.reroute d vc p) s).net.link l) = L ∧ (ps.foldl (fun s p => s.reroute d vc p) s).cells = s.cells ∧ (ps.foldl (fun s p => s.reroute d vc p) s).sync = s.sync ∧ (ps.foldl (fun s p => s.reroute d vc p) s).net.devId = s.net.devId := by
  intro ps; induction ps with
  | nil => intro s h; exact ⟨h, rfl, rfl, rfl⟩
  | cons p ps ih =>
    intro s h
    have K := reroute_link s d vc p l (by rw [h]; rcases L with ⟨⟩; simp only at hL; subst hL; rfl)
    have I := ih (s.reroute d vc p) (K.1.trans h)
    exact ⟨I.1, I.2.1.trans K.2.1, I.2.2.1.trans K.2.2.1, I.2.2.2.trans K.2.2.2⟩

theorem sendMsg_local_eq (s : State) (m : Msg) (h : s.local? m.dest = true) : s.sendMsg m = { s with net := (s.sendMsg m).net, units := (s.sendMsg m).units } := by
  unfold State.sendMsg
  simp only []
  by_cases q : s.local? m.src = true
  · simp only [if_pos q]; rw [if_pos (by rw [Bool.or_eq_true]; exact Or.inl h)]; rfl
  · simp only [if_neg q]; rw [if_pos (by rw [Bool.or_eq_true]; exact Or.inl h)]; rfl

theorem sendMsg_links (s : State) (m : Msg) (h : s.local? m.dest = true) : (s.sendMsg m).net.links = s.net.links := by
  unfold State.sendMsg
  simp only []
  by_cases q : s.local? m.src = true
  · simp only [if_pos q]; rw [if_pos (by rw [Bool.or_eq_true]; exact Or.inl h)]; rfl
  · simp only [if_neg q]; rw [if_pos (by rw [Bool.or_eq_true]; exact Or.inl h)]; rfl

theorem local_mk (s : State) (k : Nat) (hk : k < 2 ^ 48) : s.local? (UA.mk s.net.devId k) = true := by
  unfold State.local? UA.device UA.mk
  simp only [decide_eq_true_eq]
  apply BitVec.eq_of_toNat_eq
  simp only [BitVec.toNat_setWidth, BitVec.toNat_ushiftRight, BitVec.toNat_ofNat, Nat.shiftRight_eq_div_pow]
  have := s.net.devId.isLt
  omega

theorem depth_lt (u : UnitAddr) : UA.depth u ≤ 15 := by
  unfold UA.depth fld
  omega

theorem keyOf_lt (d i : Nat) (h : d ≤ 14) : UA.keyOf d i < 2 ^ 48 := by
  unfold UA.keyOf; simp only []
  generalize i / UA.span d * UA.span d = j
  omega

theorem sendLocal_net (s : State) (m : Msg) (h : s.local? m.dest = true) : (s.sendMsg m).cells = s.cells ∧ (s.sendMsg m).sync = s.sync ∧ (s.sendMsg m).net.links = s.net.links := by
  refine ⟨?_, ?_, sendMsg_links s m h⟩ <;> rw [sendMsg_local_eq s m h]

theorem waveCheck_net (s : State) (k : Nat) : (s.waveCheck k).cells = s.cells ∧ (s.waveCheck k).sync = s.sync ∧ (s.waveCheck k).net.links = s.net.links := by
  unfold State.waveCheck
  extract_lets h u y d0 t up
  have hy : y.cells = s.cells ∧ y.sync = s.sync ∧ y.net.links = s.net.links := ⟨rfl, rfl, rfl⟩
  split
  · split
    · split
      · split
        · exact hy
        · exact hy
      · exact hy
    · have hl : y.useFree.local? up = true := by
        show decide (UA.device up = y.net.devId) = true
        exact local_mk y _ (keyOf_lt _ _ (by have := depth_lt u; omega))
      generalize hm : ({ dest := up, epoch := Config.replyEpoch up t, cls := 0x09, tag := t, src := u, code := 0, bounced := false, body := h.body } : Msg) = m
      have hl' : y.useFree.local? m.dest = true := by rw [← hm]; exact hl
      obtain ⟨a, b, c⟩ := sendLocal_net y.useFree m hl'
      exact ⟨a.trans hy.1, b.trans hy.2.1, c.trans hy.2.2⟩
  · exact ⟨rfl, rfl, rfl⟩

theorem link_of_links {n n' : Net} (h : n.links = n'.links) (j) : n.link j = n'.link j := by unfold Net.link; rw [h]

theorem partnerGone_facts (s : State) (l : Nat) : ((s.partnerGone l).net.link l) = (s.net.link l).gone ∧ (s.partnerGone l).cells = s.cells ∧ (s.partnerGone l).sync = s.sync := by
  unfold State.partnerGone
  extract_lets k again0 again1 s1 s2 s3 s4 s5 h
  have h1 : s1.net.link l = (s.net.link l).gone := mod_self s l _
  have h2 : s2.net.link l = (s.net.link l).gone := h1
  have hg : (s.net.link l).gone.st = .absent := rfl
  have R3 := reroutes_link (linkDie l) true l _ hg again1 s2 h2
  have R4 := reroutes_link (linkDie l) false l _ hg again0 s3 R3.1
  have W := waveCheck_net (s5.modUnit 0 (fun v => { v with shadow := { h with pending := h.pending.filter (fun c =>
    match c with
    | .link i => decide (i.val ≠ l)
    | _ => true) } })) 0
  refine ⟨(link_of_links W.2.2 l).trans R4.1, W.1.trans (R4.2.1.trans R3.2.1), W.2.1.trans (R4.2.2.1.trans R3.2.2.1)⟩

theorem lockLost_eq (k : Link) : k.lockLost = { k with lock := false, st := if k.st = .up ∧ k.retraining = false then .down else k.st } := by
  unfold Link.lockLost
  rcases k.retraining <;> simp

theorem pumps (ls : List Nat) : ∀ s : State, OnlySends s (ls.foldl State.pump s) := by
  induction ls with
  | nil => intro s; exact sends_refl s
  | cons a l ih => intro s; exact sends_trans (sends_pump s a) (ih _)

theorem sends_arrive {s t : State} (h : OnlySends s t) (d) : t.net.arrive d = s.net.arrive d := by
  have Q := sends_mod h
  unfold Net.arrive; rw [Q.2.2.2.2.2.2.2.2.2.1, Q.2.2.2.2.2.2.2.2.2.2.1]

theorem sends_more {s t : State} (h : OnlySends s t) : t.net.inFlight = s.net.inFlight ∧ t.net.waves = s.net.waves ∧ t.net.wave0 = s.net.wave0 ∧ t.net.wave1 = s.net.wave1 := by
  rw [h.1]; exact ⟨rfl, rfl, rfl, rfl⟩

theorem sends_mid {s t : State} (h : OnlySends s t) (j v) : (t.net.link j).mid v = (s.net.link j).mid v := by
  rw [h.2 j]; rfl

theorem setArrive_self (n : Net) (d l) : (n.setArrive d l).arrive d = l := by
  unfold Net.setArrive Net.arrive; split <;> rfl

theorem setArrive_rest (n : Net) (d l) : (n.setArrive d l).links = n.links ∧ (n.setArrive d l).forwarded = n.forwarded ∧ (n.setArrive d l).inFlight = n.inFlight ∧
    (n.setArrive d l).heldPk = n.heldPk ∧ (n.setArrive d l).aborted = n.aborted := by
  unfold Net.setArrive; split <;> exact ⟨rfl, rfl, rfl, rfl, rfl⟩

theorem link_pump0 (sh : Nat) (k : Link) (h : k.sends = false) : ∀ n, Link.pump sh n k = (0, k) := by
  intro n; induction n with
  | zero => rfl
  | succ n _ =>
    have S : ∀ v, k.sendFlit sh v = none := by
      intro v; unfold Link.sendFlit; simp only [h]
      split
      · rfl
      · simp
    unfold Link.pump; rw [S, S]; rfl

theorem npump_still (n : Net) (l j : Nat) (h : (n.link j).sends = false) : (n.pump l).link j = n.link j := by
  by_cases e : j = l
  · subst e
    unfold Net.pump; simp only []
    rw [link_pump0 _ _ h]
    exact links_self _ _ _
  · exact npump_ne n l j e

theorem pumps_still (ls : List Nat) : ∀ (s : State) (j), (s.net.link j).sends = false → (ls.foldl State.pump s).net.link j = s.net.link j := by
  induction ls with
  | nil => intro s j _; rfl
  | cons a l ih =>
    intro s j h
    have A : (s.pump a).net.link j = s.net.link j := by
      unfold State.pump; split
      · rfl
      · exact npump_still _ _ _ h
    rw [List.foldl_cons, ih _ _ (by rw [A]; exact h), A]

theorem get_map (f : Link → Link) (j : Nat) : ∀ ls : SMap Link, SMap.get? (ls.map (fun l => (l.1, f l.2))) j = (SMap.get? ls j).map f := by
  intro ls; induction ls with
  | nil => rfl
  | cons a t ih =>
    obtain ⟨k, v⟩ := a
    simp only [List.map_cons, SMap.get?]
    split
    · rfl
    · exact ih

theorem map_link (n : Net) (f : Packet → Packet) (j) : (n.mapPackets f).link j = (n.link j).mapPackets f := by
  unfold Net.mapPackets Net.link SMap.getD; simp only []
  rw [get_map (fun k => k.mapPackets f)]
  rcases SMap.get? n.links j with _ | k <;> rfl

theorem passUcie_rest (n : Net) (d k i its) : n.passUcie d k i its = { n with ucie := (n.passUcie d k i its).ucie } := rfl

theorem transit_rest (n : Net) (a b h i) : n.transit a b h i = { n with ucie := (n.transit a b h i).ucie } := by
  unfold Net.transit
  split
  · rfl
  · rcases ((Msg.ofItems h).bind (fun m => n.d2dOf m.src m.dest)) with _ | k <;> rfl

theorem transitItem_rest (n : Net) (x i) : n.transitItem x i = { n with ucie := (n.transitItem x i).ucie } := by
  unfold Net.transitItem
  split
  · rfl
  · exact transit_rest _ _ _ _ _

/-- What the oldest flit leaves behind it. -/
def setRx (v : Bool) (r : List RxFlit) (c : Nat) (k : Link) : Link :=
  if v then { k with rx1 := r, owe1 := k.owe1 + c } else { k with rx0 := r, owe0 := k.owe0 + c }

theorem fwd_one (s : State) (l : Fin 32) (v : Bool) (f : RxFlit) (rest i) (h1 : (if v then (s.net.link l.val).rx1 else (s.net.link l.val).rx0) = f :: rest) (h2 : f.items = [i]) (h3 : f.abort = false)
    (z) (hz : s.forwardItem l v i = some z) : s.forwardFlit l v = z.modLink l.val (setRx v rest 1) := by
  unfold State.forwardFlit; simp only []
  rw [h1]; simp only [h2]
  have G : s.forwardItems l v [i] = (z, []) := by
    unfold State.forwardItems; rw [hz]; rfl
  rw [G]; simp only []
  rw [if_neg (by simp), if_neg (by rw [h3]; simp)]
  rfl

theorem fwd_wait (s : State) (l : Fin 32) (v : Bool) (f : RxFlit) (rest i) (h1 : (if v then (s.net.link l.val).rx1 else (s.net.link l.val).rx0) = f :: rest) (h2 : f.items = [i])
    (hz : s.forwardItem l v i = none) : s.forwardFlit l v = s.modLink l.val (setRx v (f :: rest) 0) := by
  unfold State.forwardFlit; simp only []
  rw [h1]; simp only [h2]
  have G : s.forwardItems l v [i] = (s, [i]) := by
    unfold State.forwardItems; rw [hz]
  rw [G]; simp only []
  rw [if_pos (by simp), ← h2]
  rfl

theorem fwd_abort (s : State) (l : Fin 32) (v : Bool) (f : RxFlit) (rest) (h1 : (if v then (s.net.link l.val).rx1 else (s.net.link l.val).rx0) = f :: rest) (h2 : f.items = []) (h3 : f.abort = true) :
    ∃ z, z = s.modLink l.val (·.setMid v false) ∧ s.forwardFlit l v = ({ z with net := z.net.mapPackets (Packet.more (l.val, v) none) } : State).modLink l.val (setRx v rest 1) := by
  refine ⟨_, rfl, ?_⟩
  unfold State.forwardFlit; simp only []
  rw [h1]; simp only [h2]
  have G : s.forwardItems l v [] = (s, []) := rfl
  rw [G]; simp only []
  rw [if_neg (by simp), if_pos h3]
  rfl

/-- What the oldest flit of a receive buffer leaves, once every link has sent. -/
theorem leaves_of (s z : State) (l : Fin 32) (vc : Fin 2) (r : List RxFlit) (c : Nat) (hd : s.dieUp (linkDie l.val) = true) (hn : s.net.numbered = true)
    (hz : s.forwardFlit l (decide (vc.val = 1)) = z.modLink l.val (setRx (decide (vc.val = 1)) r c))
    (z1 : (if !(decide (vc.val = 1)) then (z.net.link l.val).rx1 else (z.net.link l.val).rx0) = (if !(decide (vc.val = 1)) then (s.net.link l.val).rx1 else (s.net.link l.val).rx0))
    (z2 : z.cells = s.cells) (z3 : z.net.inFlight = s.net.inFlight) : ∃ t, exec (.packetForward l vc) s = .next t ∧
      (if decide (vc.val = 1) then (t.net.link l.val).rx1 else (t.net.link l.val).rx0) = r ∧
      (if !(decide (vc.val = 1)) then (t.net.link l.val).rx1 else (t.net.link l.val).rx0) = (if !(decide (vc.val = 1)) then (s.net.link l.val).rx1 else (s.net.link l.val).rx0) ∧
      t.cells = s.cells ∧ t.net.inFlight = s.net.inFlight ∧ OnlySends (z.modLink l.val (setRx (decide (vc.val = 1)) r c)) t ∧
      (∀ j, (z.net.link j).sends = false → (if decide (vc.val = 1) then (t.net.link j).q1 else (t.net.link j).q0) = (if decide (vc.val = 1) then (z.net.link j).q1 else (z.net.link j).q0)) := by
  have E : exec (.packetForward l vc) s = .next (s.forwardFlit l (decide (vc.val = 1))).pumpAll := by
    show execPacketForward l vc s = _
    unfold execPacketForward; rw [onlyIf_true _ _ _ (by rw [hd, hn]; rfl)]
  rw [hz] at E
  have R := pumps ((z.modLink l.val (setRx (decide (vc.val = 1)) r c)).net.links.map (·.1)) (z.modLink l.val (setRx (decide (vc.val = 1)) r c))
  have Q := sends_mod R
  have L := sends_link R l.val
  rw [mod_self] at L
  refine ⟨_, E, ?_, ?_, Q.1.trans z2, (sends_more R).1.trans z3, R, fun j hj => ?_⟩
  · rw [show (((z.modLink l.val (setRx (decide (vc.val = 1)) r c)).pumpAll).net.link l.val).rx0 = _ from L.2.2.2.2.2.2.2.1, show (((z.modLink l.val (setRx (decide (vc.val = 1)) r c)).pumpAll).net.link l.val).rx1 = _ from L.2.2.2.2.2.2.2.2]
    unfold setRx; rcases decide (vc.val = 1) <;> rfl
  · rw [← z1, show (((z.modLink l.val (setRx (decide (vc.val = 1)) r c)).pumpAll).net.link l.val).rx0 = _ from L.2.2.2.2.2.2.2.1, show (((z.modLink l.val (setRx (decide (vc.val = 1)) r c)).pumpAll).net.link l.val).rx1 = _ from L.2.2.2.2.2.2.2.2]
    unfold setRx; rcases decide (vc.val = 1) <;> rfl
  · have hj' : ((z.modLink l.val (setRx (decide (vc.val = 1)) r c)).net.link j).sends = false := by
      rw [mod_link]; split
      · unfold setRx; rcases decide (vc.val = 1) <;> exact hj
      · exact hj
    have hq : ((if j = l.val then setRx (decide (vc.val = 1)) r c (z.net.link j) else z.net.link j)).q1 = (z.net.link j).q1 ∧ ((if j = l.val then setRx (decide (vc.val = 1)) r c (z.net.link j) else z.net.link j)).q0 = (z.net.link j).q0 := by
      split
      · unfold setRx; rcases decide (vc.val = 1) <;> exact ⟨rfl, rfl⟩
      · exact ⟨rfl, rfl⟩
    rw [show ((z.modLink l.val (setRx (decide (vc.val = 1)) r c)).pumpAll).net.link j = _ from pumps_still _ _ _ hj', mod_link, hq.1, hq.2]

theorem mid_setRx (v r c k w) : (setRx v r c k).mid w = k.mid w := by unfold setRx Link.mid; rcases v <;> rfl

theorem mid_after {z t : State} {l v r c} (h : OnlySends (z.modLink l (setRx v r c)) t) : (t.net.link l).mid v = (z.net.link l).mid v := by
  rw [sends_mid h, mod_self, mid_setRx]

theorem setMid_mid (k : Link) (v m) : (k.setMid v m).mid v = m := by unfold Link.setMid Link.mid; rcases v <;> rfl

theorem setMid_rx (k : Link) (v m) : (k.setMid v m).rx0 = k.rx0 ∧ (k.setMid v m).rx1 = k.rx1 := by unfold Link.setMid; rcases v <;> exact ⟨rfl, rfl⟩

theorem map_arrive (n : Net) (f : Packet → Packet) (e) : (n.mapPackets f).arrive e = (n.arrive e).map f := by
  unfold Net.mapPackets Net.arrive; split <;> rfl

theorem waveOver_facts (s : State) (l : Fin 32) (v : Bool) (i : QItem) (w : Wave) (hw : w = ⟨i.payload.setWidth 16, (i.payload >>> 16).setWidth 32, i.payload.getLsbD 48, (i.payload >>> 56).setWidth 64⟩) :
    (s.waveOver l v i).net.links = s.net.links ∧ (s.waveOver l v i).cells = s.cells ∧ (s.waveOver l v i).net.inFlight = s.net.inFlight ∧ (s.waveOver l v i).mem = s.mem ∧ (s.waveOver l v i).net.heldPk = s.net.heldPk ∧
      ((l.val, w) ∈ (if v then s.net.wave0 else s.net.wave1) → (s.waveOver l v i).net.waves = s.net.waves ++ [(0, .link l, w)]) ∧
      ((l.val, w) ∉ (if v then s.net.wave0 else s.net.wave1) → (s.waveOver l v i).net.waves = s.net.waves ∧
              (if v then (s.waveOver l v i).net.wave1 else (s.waveOver l v i).net.wave0) = (if v then s.net.wave1 else s.net.wave0) ++ [(l.val, w)]) := by
  unfold State.waveOver; simp only []
  rw [← hw]
  by_cases q : (l.val, w) ∈ (if v then s.net.wave0 else s.net.wave1)
  · rw [if_pos q]
    rcases v with _ | _ <;> exact ⟨rfl, rfl, rfl, rfl, rfl, fun _ => rfl, fun h => absurd q h⟩
  · rw [if_neg q]
    rcases v with _ | _ <;> exact ⟨rfl, rfl, rfl, rfl, rfl, fun h => absurd h q, fun _ => ⟨rfl, rfl⟩⟩

theorem enqueue_rx (n : Net) (l v p j) : rxSide ((n.enqueue l v p).link j) = rxSide (n.link j) := by
  unfold Net.enqueue; simp only []
  rw [npump_rx, links_at]
  split
  · rename_i h; subst h; rcases v <;> rfl
  · rfl

theorem enqueue_still (n : Net) (l v p) (h : (n.link l).sends = false) : (n.enqueue l v p).link l = (if v then { n.link l with q1 := (n.link l).q1 ++ [p] } else { n.link l with q0 := (n.link l).q0 ++ [p] }) := by
  unfold Net.enqueue; simp only []
  rw [npump_still _ _ _ (by rw [links_self]; rcases v <;> exact h), links_self]

theorem enqueue_rest (n : Net) (l v p) : (n.enqueue l v p).heldPk = n.heldPk ∧ (n.enqueue l v p).inFlight = n.inFlight ∧ (n.enqueue l v p).forwarded = n.forwarded ∧ (n.enqueue l v p).numbered = n.numbered ∧
    (n.enqueue l v p).routes = n.routes ∧ (n.enqueue l v p).split = n.split ∧ ∀ j, j ≠ l → (n.enqueue l v p).link j = n.link j := by
  refine ⟨rfl, rfl, rfl, rfl, rfl, rfl, fun j hj => ?_⟩
  unfold Net.enqueue; simp only []
  rw [npump_ne _ _ _ hj, links_ne _ _ _ _ hj]

theorem rx_st {k k' : Link} (h : rxSide k = rxSide k') : k.st = k'.st ∧ k.rx0 = k'.rx0 ∧ k.rx1 = k'.rx1 ∧ k.mid0 = k'.mid0 ∧ k.mid1 = k'.mid1 := by
  unfold rxSide at h; simp only [Link.mk.injEq] at h
  simp only [h, and_self]

theorem enqueue_route (n : Net) (l v p dev) : (n.enqueue l v p).route dev = n.route dev := by
  have U : ∀ j, (n.enqueue l v p).usable j = n.usable j := by
    intro j; unfold Net.usable; rw [(rx_st (enqueue_rx n l v p j)).1]; rfl
  unfold Net.route; simp only [U]; rfl

theorem any_false {l : List (Nat × Packet)} {d : Nat} (h : ∀ x ∈ l, x.1 ≠ d) : l.any (fun h => decide (h.1 = d)) = false := by
  rw [List.any_eq_false]; intro x hx; simpa using h x hx

theorem any_true {l : List (Nat × Packet)} {d : Nat} (h : ∃ x ∈ l, x.1 = d) : l.any (fun h => decide (h.1 = d)) = true := by
  obtain ⟨x, hx, he⟩ := h; rw [List.any_eq_true]; exact ⟨x, hx, by simpa using he⟩

theorem leave_out (s : State) (m : Msg) (j) (hr : s.net.route (UA.device m.dest) = some j) (hh : ∀ h ∈ s.net.heldPk, h.1 ≠ (UA.device m.dest).toNat) :
    s.retryOut m = some { s with net := ({ s.net with inFlight := s.net.inFlight.erase m } : Net).enqueue j (⟨m.items, false, none⟩ : Packet).vc1 ⟨m.items, false, none⟩ } := by
  unfold State.retryOut State.routePacket; simp only []
  have hr' : ({ s.net with inFlight := s.net.inFlight.erase m } : Net).route (UA.device m.dest) = some j := hr
  rw [hr', any_false hh]

theorem retry_facts (dest : BitVec 16) (j : Nat) : ∀ (L : List Msg) (A : List Msg) (s : State), s.net.route dest = some j → (∀ h ∈ s.net.heldPk, h.1 ≠ dest.toNat) →
    (∀ m ∈ A, UA.device m.dest ≠ dest) → s.net.inFlight = A ++ L → ∃ t, t = State.retryAll dest L s ∧
      t.net.inFlight = A ++ L.filter (fun m => decide (UA.device m.dest ≠ dest)) ∧ t.net.heldPk = s.net.heldPk ∧ t.mem = s.mem ∧ t.cells = s.cells ∧
      (∀ i, i ≠ j → t.net.link i = s.net.link i) ∧
      ((s.net.link j).sends = false → let ps := (L.filter (fun m => decide (UA.device m.dest = dest))).map (fun m => (⟨m.items, false, none⟩ : Packet))
        (t.net.link j).q0 = (s.net.link j).q0 ++ ps.filter (fun p => !p.vc1) ∧ (t.net.link j).q1 = (s.net.link j).q1 ++ ps.filter (fun p => p.vc1)) := by
  intro L; induction L with
  | nil => intro A s hr hh ha hi; exact ⟨s, rfl, by simpa using hi, rfl, rfl, rfl, fun _ _ => rfl, fun _ => by simp⟩
  | cons m L ih =>
    intro A s hr hh ha hi
    unfold State.retryAll
    by_cases hm : UA.device m.dest = dest
    · rw [if_pos hm, leave_out s m j (by rw [hm]; exact hr) (by rw [hm]; exact hh)]
      simp only []
      generalize hp : (⟨m.items, false, none⟩ : Packet) = p
      obtain ⟨n, hn⟩ : ∃ n, n = ({ s.net with inFlight := s.net.inFlight.erase m } : Net).enqueue j p.vc1 p := ⟨_, rfl⟩
      rw [← hn]
      have R := enqueue_rest ({ s.net with inFlight := s.net.inFlight.erase m } : Net) j p.vc1 p
      have Z := enqueue_route ({ s.net with inFlight := s.net.inFlight.erase m } : Net) j p.vc1 p dest
      rw [← hn] at R Z
      have er : s.net.inFlight.erase m = A ++ L := by
        rw [hi, List.erase_append_right _ (fun q => ha m q hm), List.erase_cons_head]
      obtain ⟨t, ht, t1, t2, t3, t4, t5, t6⟩ := ih A { s with net := n } (Z.trans hr) (by show ∀ h ∈ n.heldPk, _; rw [R.1]; exact hh) ha (R.2.1.trans er)
      refine ⟨t, ht, ?_, t2.trans R.1, t3, t4, fun i hij => (t5 i hij).trans (R.2.2.2.2.2.2 i hij), fun hs => ?_⟩
      · rw [t1, List.filter_cons_of_neg (by simpa using hm)]
      · have K := enqueue_still ({ s.net with inFlight := s.net.inFlight.erase m } : Net) j p.vc1 p hs
        rw [← hn] at K
        have T := t6 (by show (n.link j).sends = false; rw [K]; rcases p.vc1 <;> exact hs)
        simp only [] at T ⊢
        have K' : ({ s with net := n } : State).net.link j = _ := K
        rw [K'] at T
        rw [List.filter_cons_of_pos (by simpa using hm), List.map_cons, hp]
        rw [T.1, T.2]
        have F : ({ s.net with inFlight := s.net.inFlight.erase m } : Net).link j = s.net.link j := rfl
        rw [F]
        rcases hv : p.vc1 with _ | _
        · rw [List.filter_cons_of_pos (by rw [hv]; rfl), List.filter_cons_of_neg (by rw [hv]; simp)]
          simp
        · rw [List.filter_cons_of_neg (by rw [hv]; simp), List.filter_cons_of_pos (by rw [hv])]
          simp
    · rw [if_neg hm]
      obtain ⟨t, ht, t1, t2, t3, t4, t5, t6⟩ := ih (A ++ [m]) s hr hh (by
        intro x hx; rcases List.mem_append.mp hx with h | h
        · exact ha x h
        · rw [List.mem_singleton.mp h]; exact hm) (by rw [hi]; simp)
      refine ⟨t, ht, ?_, t2, t3, t4, t5, fun hs => ?_⟩
      · rw [t1, List.filter_cons_of_pos (by simpa using hm)]; simp
      · rw [List.filter_cons_of_neg (by simpa using hm)]; exact t6 hs

theorem retry_none (dest : BitVec 16) (ms : List Msg) (h : ms.filter (fun m => decide (UA.device m.dest = dest)) = []) (s : State) : State.retryAll dest ms s = s := by
  induction ms with
  | nil => rfl
  | cons a ms ih =>
    have ha : ¬ UA.device a.dest = dest := by
      intro q; rw [List.filter_cons_of_pos (by simpa using q)] at h; cases h
    rw [List.filter_cons_of_neg (by simpa using ha)] at h
    unfold State.retryAll; rw [if_neg ha]; exact ih h

theorem enq_foldl (l : Nat) (dev : BitVec 16) (ps : List (Nat × Packet)) : ∀ n : Net, ∃ t, t = ps.foldl (fun n h => n.enqueue l h.2.vc1 h.2) n ∧ t.heldPk = n.heldPk ∧ t.inFlight = n.inFlight ∧ t.route dev = n.route dev ∧
    (∀ j, j ≠ l → t.link j = n.link j) ∧ ((n.link l).sends = false → (t.link l).sends = false ∧ (t.link l).q0 = (n.link l).q0 ++ (ps.map (fun h => h.2)).filter (fun p => !p.vc1) ∧ (t.link l).q1 = (n.link l).q1 ++ (ps.map (fun h => h.2)).filter (fun p => p.vc1)) := by
  induction ps with
  | nil => intro n; exact ⟨n, rfl, rfl, rfl, rfl, fun _ _ => rfl, fun h => ⟨h, by simp, by simp⟩⟩
  | cons a ps ih =>
    intro n
    have R := enqueue_rest n l a.2.vc1 a.2
    obtain ⟨t, ht, t1, t2, t3, t4, t5⟩ := ih (n.enqueue l a.2.vc1 a.2)
    refine ⟨t, ht, t1.trans R.1, t2.trans R.2.1, t3.trans (enqueue_route _ _ _ _ _), fun j hj => (t4 j hj).trans (R.2.2.2.2.2.2 j hj), fun hs => ?_⟩
    have K := enqueue_still n l a.2.vc1 a.2 hs
    have T := t5 (by rw [K]; rcases a.2.vc1 <;> exact hs)
    rw [K] at T
    refine ⟨T.1, ?_⟩
    rw [T.2.1, T.2.2, List.map_cons]
    rcases hv : a.2.vc1 with _ | _
    · rw [List.filter_cons_of_pos (by rw [hv]; rfl), List.filter_cons_of_neg (by rw [hv]; simp)]
      simp
    · rw [List.filter_cons_of_neg (by rw [hv]; simp), List.filter_cons_of_pos (by rw [hv])]
      simp

theorem item_open (s : State) (l : Fin 32) (v i) (h5 : i.kind ≠ 0x3E) (h6 : (s.net.link l.val).mid v = false) :
    s.forwardItem l v i = (s.openPacket (l.val, v) i).map (fun s => s.modLink l.val (·.setMid v (!i.eop))) := by
  unfold State.forwardItem; simp only []
  rw [if_neg h5, h6, if_neg (by simp)]

theorem mod_ne (s : State) (l j) (f : Link → Link) (h : j ≠ l) : (s.modLink l f).net.link j = s.net.link j := by rw [mod_link, if_neg h]

/-- The link of a packet that opened, once its VC is marked. -/
theorem opened_rx (s z : State) (l : Nat) (v m : Bool) (h : rxSide (z.net.link l) = rxSide (s.net.link l)) :
    (if !v then ((z.modLink l (·.setMid v m)).net.link l).rx1 else ((z.modLink l (·.setMid v m)).net.link l).rx0) = (if !v then (s.net.link l).rx1 else (s.net.link l).rx0) := by
  have K := rx_st h
  rw [mod_self, (setMid_rx _ _ _).1, (setMid_rx _ _ _).2, K.2.1, K.2.2.1]

end Sys2Proof.Laws.LinkLaws
end

