-- ==== Sys2Proof/Laws/LoadStoreLaws.lean ====
section
/-! SUPPORT. Lemmas about the loads and stores of the scratchpad and of the register space. -/

namespace Sys2Proof.Laws.LoadStoreLaws

set_option linter.all false

open Sys2Proof Sys2Proof.Machine Sys2Proof.Claims

theorem rowRead_nil (s : State) (c : CellIx) (row ws) : s.rowRead c row ws [] = s := rfl

theorem rowLoses_nil (s : State) (c : CellIx) (row ws) : s.rowLoses c row ws [] = false := rfl

theorem load_result {s : State} {c : CellIx} {opc f} (i : Instr) (n : Nat) (hn : NextInside s c)
    (hi : Issues s c opc f [f.rd, f.ra]) (ha : ((s.cell c).seq.addrOf f).toNat < 0x200000)
    (hz : (s.cell c).hazard [] [(((s.cell c).seq.addrOf f).toNat / 128, 1)] [] = none)
    (hm : ((s.cell c).seq.addrOf f).toNat % n = 0) :
    RegResult s c f.rd (BitVec.ofNat 64 (Memory.readNat (s.cell c).spad ((s.cell c).seq.addrOf f).toNat n))
      (s.issue c opc f i (bodyLoad c i f n [])) := by
  rw [State.issue_at _ _ hi]
  unfold bodyLoad
  rw [State.guarded_regs _ _ hi.2.2.2.2]
  have ok : s.narrowOk c ((s.cell c).seq.addrOf f).toNat n = true := by simp [State.narrowOk, hm, ha]
  simp only [ok, ha, Bool.not_true, Bool.false_eq_true, if_false, if_true]
  rw [State.guarded_none _ _ hz]
  simp only [rowRead_nil, rowLoses_nil, Bool.false_eq_true, if_false]
  simp only [State.narrowRead, ha, if_true]
  exact reg_result' hn

theorem store_result {s : State} {c : CellIx} {opc f} (i : Instr) (n : Nat) (hn : NextInside s c)
    (hi : Issues s c opc f [f.rd, f.ra]) (ha : ((s.cell c).seq.addrOf f).toNat < 0x200000)
    (hz : (s.cell c).hazard [] [] [(((s.cell c).seq.addrOf f).toNat / 128, 1)] = none)
    (hm : ((s.cell c).seq.addrOf f).toNat % n = 0) :
    StoreResult s c ((s.cell c).seq.addrOf f).toNat n ((s.cell c).seq.reg f.rd)
      (s.issue c opc f i (bodyStore c i f n [])) := by
  rw [State.issue_at _ _ hi]
  unfold bodyStore
  rw [State.guarded_regs _ _ hi.2.2.2.2]
  have ok : s.narrowOk c ((s.cell c).seq.addrOf f).toNat n = true := by simp [State.narrowOk, hm, ha]
  simp only [ok, ha, Bool.not_true, Bool.false_eq_true, if_false, if_true]
  rw [State.guarded_none _ _ hz]
  simp only [rowRead_nil, rowLoses_nil, Bool.false_eq_true, if_false, State.narrowWrite, ha, if_true, State.retire]
  refine ⟨?_, ?_, ?_, ?_⟩
  · intro j hj
    simp only [State.cell_modSeq, State.cell_modCell]
    rw [read_writeNat_in _ _ _ _ _ hj]
    apply BitVec.eq_of_toNat_eq
    simp [BitVec.extractLsb'_toNat, Nat.shiftRight_eq_div_pow, Nat.pow_mul]
  · intro b hb
    simp only [State.cell_modSeq, State.cell_modCell, Memory.writeNat]
    rw [Memory.read_writeBytes_ne _ _ _ _ (by rw [bytesLE_length]; exact hb)]
  · simp only [State.cell_modSeq, State.cell_modCell, Cell.overwritten, Seq.next_inside hn]
  · simp only [State.modSeq, State.modCell, State.cell_setCell, State.setCell_setCell, Cell.overwritten, Seq.next_inside hn]

theorem not_ok {s : State} {c : CellIx} {a n : Nat} (h : a % n ≠ 0 ∨ (0x200000 ≤ a ∧ s.narrowReg c (a / 8 * 8) = none)) :
    s.narrowOk c a n = false := by
  unfold State.narrowOk
  rcases h with h | ⟨h, h2⟩
  · simp [h]
  · have : ¬ a < 0x200000 := by omega
    simp [this, h2]

theorem reg40 (s : State) (c : CellIx) : s.narrowReg c 0x200040 =
    some (BitVec.ofNat 64 ((s.cell c).rq.clips.toNat + 2 ^ 32 * (s.cell c).rq.codes.toNat)) := by
  simp [State.narrowReg]

theorem claim40 (s : State) (c : CellIx) (a n : Nat) (h : a / 8 * 8 = 0x200040) : s.claimRegs c a n = s.modCell c (fun x =>
      { x with rq := { x.rq with clips := if covers (a % 8) n 31 0 then 0 else x.rq.clips,
                                 codes := if covers (a % 8) n 63 32 then 0 else x.rq.codes } }) := by
  unfold State.claimRegs; rw [h]; rfl

theorem load_reg {s : State} {c : CellIx} {opc f} (i : Instr) (n A : Nat) (e : List RowFlip)
    (hi : Issues s c opc f [f.rd, f.ra]) (ha : ((s.cell c).seq.addrOf f).toNat = A) (hA : A / 8 * 8 = 0x200040)
    (hm : A % n = 0) :
    s.issue c opc f i (bodyLoad c i f n e) =
      (s.claimRegs c A n).modSeq c (fun q => (q.setReg f.rd (s.narrowRead c A n)).next) := by
  rw [State.issue_at _ _ hi]; unfold bodyLoad; rw [State.guarded_regs _ _ hi.2.2.2.2]
  have ok : s.narrowOk c A n = true := by simp [State.narrowOk, hm, hA, reg40]
  have : ¬ A < 0x200000 := by omega
  simp only [ha, ok, this, Bool.not_true, Bool.false_eq_true, if_false]

theorem saveRecord_cell (t : State) (c : CellIx) : (State.saveRecord t).cell c = t.cell c := by simp [State.cell]

theorem onBits_one (b : Fin 72) : onBits (BitVec.ofNat 72 (2 ^ b.val)).toNat 72 = 1 := by
  revert b; decide +kernel

theorem count_two (b b' : Nat) (h : b ≠ b') (l : List Nat) :
    l.countP (fun i => decide (b = i) ^^ decide (b' = i)) = l.count b + l.count b' := by
  induction l with
  | nil => rfl
  | cons a l ih =>
    rw [List.countP_cons, List.count_cons, List.count_cons, ih]
    by_cases h1 : b = a
    · subst h1; simp [h, h.symm]; omega
    · by_cases h2 : b' = a
      · subst h2; simp [h, h.symm]; omega
      · simp [h1, h2, Ne.symm h1, Ne.symm h2]

theorem onBits_two (b b' : Fin 72) (h : b ≠ b') :
    onBits (BitVec.ofNat 72 (2 ^ b.val) ^^^ BitVec.ofNat 72 (2 ^ b'.val)).toNat 72 = 2 := by
  have e (i : Nat) (hi : i ∈ List.range 72) : (BitVec.ofNat 72 (2 ^ b.val) ^^^ BitVec.ofNat 72 (2 ^ b'.val)).toNat.testBit i =
      (decide (b.val = i) ^^ decide (b'.val = i)) := by
    have hi := List.mem_range.mp hi
    rw [BitVec.toNat_xor, Nat.testBit_xor, BitVec.toNat_ofNat, BitVec.toNat_ofNat, Nat.testBit_mod_two_pow, Nat.testBit_mod_two_pow,
      Nat.testBit_two_pow, Nat.testBit_two_pow, decide_eq_true hi, Bool.true_and, Bool.true_and]
  have c (x : Fin 72) : (List.range 72).count x.val = 1 := List.count_eq_one_of_mem List.nodup_range (List.mem_range.mpr x.isLt)
  unfold onBits
  rw [List.countP_congr (fun i hi => by rw [e i hi]), count_two _ _ (fun q => h (Fin.ext q)), c, c]

theorem secded_clean (y : BitVec 72) : secdedErr y y = .clean := by
  unfold secdedErr; rw [BitVec.xor_self]; rfl

theorem secded_one (y : BitVec 72) (b : Fin 72) : secdedErr y (y ^^^ BitVec.ofNat 72 (2 ^ b.val)) = .corrected := by
  unfold secdedErr; rw [← BitVec.xor_assoc, BitVec.xor_self, BitVec.zero_xor, onBits_one]; rfl

theorem secded_two (y : BitVec 72) (b b' : Fin 72) (h : b ≠ b') :
    secdedErr y (y ^^^ BitVec.ofNat 72 (2 ^ b.val) ^^^ BitVec.ofNat 72 (2 ^ b'.val)) = .uncorrectable := by
  unfold secdedErr; rw [BitVec.xor_assoc, ← BitVec.xor_assoc, BitVec.xor_self, BitVec.zero_xor, onBits_two _ _ h]; rfl

theorem rowCodewords_length (m : List Host.Cell) (row : Nat) : (rowCodewords m row).length = 17 := by simp [rowCodewords]

theorem rowErrs_eq (m : List Host.Cell) (row : Nat) (e : List RowFlip) :
    (rowCodewords m row).zipIdx.map (fun x => secdedErr x.1 (RowFlip.apply e x.2 x.1)) =
      (List.range 17).map (fun i => secdedErr ((rowCodewords m row).getD i 0) (RowFlip.apply e i ((rowCodewords m row).getD i 0))) := by
  have h := rowCodewords_length m row
  apply List.ext_getElem
  · simp [h]
  · intro i h1 h2
    have hi : i < (rowCodewords m row).length := by simpa using h1
    simp [List.getD, List.getElem?_eq_getElem hi]

theorem apply_one (k : Fin 17) (b : Fin 72) (i : Nat) (y : BitVec 72) :
    secdedErr y (RowFlip.apply [⟨k, b⟩] i y) = if k.val = i then .corrected else .clean := by
  unfold RowFlip.apply; simp only [List.foldl]; split
  · exact secded_one _ _
  · exact secded_clean _

theorem apply_two (k : Fin 17) (b b' : Fin 72) (h : b ≠ b') (i : Nat) (y : BitVec 72) :
    secdedErr y (RowFlip.apply [⟨k, b⟩, ⟨k, b'⟩] i y) = if k.val = i then .uncorrectable else .clean := by
  unfold RowFlip.apply; simp only [List.foldl]; split
  · exact secded_two _ _ _ h
  · exact secded_clean _

theorem apply_four (k l : Fin 17) (b b' d d' : Fin 72) (hk : l ≠ k) (h : b ≠ b') (h' : d ≠ d') (i : Nat) (y : BitVec 72) :
    secdedErr y (RowFlip.apply [⟨k, b⟩, ⟨k, b'⟩, ⟨l, d⟩, ⟨l, d'⟩] i y) =
      if k.val = i then .uncorrectable else if l.val = i then .uncorrectable else .clean := by
  unfold RowFlip.apply; simp only [List.foldl]
  by_cases e : k.val = i
  · have : ¬ l.val = i := fun e2 => hk (Fin.ext (e2.trans e.symm))
    simp only [e, this, if_true, if_false]; exact secded_two _ _ _ h
  · simp only [e, if_false]; split
    · exact secded_two _ _ _ h'
    · exact secded_clean _

theorem rowErr_one (m : List Host.Cell) (row : Nat) (k : Fin 17) (b : Fin 72) :
    rowErr m row [k.val] [⟨k, b⟩] = (1, .corrected) := by
  unfold rowErr
  rw [rowErrs_eq]; simp only [List.isEmpty_cons, Bool.false_eq_true, if_false, apply_one]
  revert k; decide +kernel

theorem rowErr_two (m : List Host.Cell) (row : Nat) (k : Fin 17) (b b' : Fin 72) (h : b ≠ b') :
    rowErr m row [k.val] [⟨k, b⟩, ⟨k, b'⟩] = (0, .uncorrectable) := by
  unfold rowErr
  rw [rowErrs_eq]; simp only [List.isEmpty_cons, Bool.false_eq_true, if_false, apply_two _ _ _ h]
  revert k; decide +kernel

theorem rowErr_four (m : List Host.Cell) (row : Nat) (k l : Fin 17) (b b' d d' : Fin 72) (hk : l ≠ k) (h : b ≠ b') (h' : d ≠ d') :
    rowErr m row [k.val] [⟨k, b⟩, ⟨k, b'⟩, ⟨l, d⟩, ⟨l, d'⟩] = (0, .lost) := by
  unfold rowErr
  rw [rowErrs_eq]; simp only [List.isEmpty_cons, Bool.false_eq_true, if_false, apply_four _ _ _ _ _ _ hk h h']
  revert k l; decide +kernel

theorem wordsOf_8 (a : Nat) (h8 : a % 8 = 0) : wordsOf a 8 = [a % 128 / 8] := by
  have h : ∀ w, w < 16 → (List.range 16).filter (fun i => decide (8 * w < 8 * i + 8 ∧ 8 * i < 8 * w + 8)) = [w] := by decide +kernel
  have e : a % 128 = 8 * (a % 128 / 8) := by omega
  unfold wordsOf
  rw [e, show 8 * (a % 128 / 8) / 8 = a % 128 / 8 by omega]
  exact h _ (by omega)

def SameData (x y : Cell) : Prop := x.seq = y.seq ∧ x.spad = y.spad ∧ x.spdUe = y.spdUe ∧ x.held = y.held

theorem relCell_same (s : State) (c : CellIx) (n) : SameData ((s.relCell c n).cell c) (s.cell c) := by
  obtain ⟨g, h⟩ := relCell_cell s c n
  rw [h]; exact ⟨rfl, rfl, rfl, rfl⟩

theorem SameData.trans {x y z : Cell} (h : SameData x y) (g : SameData y z) : SameData x z :=
  ⟨h.1.trans g.1, h.2.1.trans g.2.1, h.2.2.1.trans g.2.2.1, h.2.2.2.trans g.2.2.2⟩

theorem remap_cell (s : State) (c : CellIx) (row) : SameData ((s.remapRow c row).cell c) (s.cell c) := by
  unfold State.remapRow
  extract_lets t
  refine (relCell_same t.saveRecord c 2).trans ?_
  rw [saveRecord_cell]; simp only [t, State.cell_modCell]; exact ⟨rfl, rfl, rfl, rfl⟩

theorem retire_cell (s : State) (c : CellIx) : SameData ((s.requestRetire c).cell c) (s.cell c) := by
  unfold State.requestRetire
  split
  · exact ⟨rfl, rfl, rfl, rfl⟩
  · refine (relCell_same _ c 3).trans ?_
    rw [State.cell_modCell]; exact ⟨rfl, rfl, rfl, rfl⟩

theorem spare_cell (u : State) (c : CellIx) (row : Nat) :
    SameData (((if 0 < u.sparesFree c then u.remapRow c row else u.requestRetire c)).cell c) (u.cell c) := by
  split
  · exact remap_cell u c row
  · exact retire_cell u c

theorem rebuilt_cell (s : State) (c : CellIx) (row) : ((s.rowRebuilt c row).cell c).seq = (s.cell c).seq ∧
    ((s.rowRebuilt c row).cell c).spad = (s.cell c).spad ∧ ((s.rowRebuilt c row).cell c).spdUe = true := by
  unfold State.rowRebuilt
  extract_lets t u
  have h := (relCell_same u c 1).trans (spare_cell t c row)
  have ht : (t.cell c).seq = (s.cell c).seq ∧ (t.cell c).spad = (s.cell c).spad ∧ (t.cell c).spdUe = true := by
    simp [t]
  exact ⟨h.1.trans ht.1, h.2.1.trans ht.2.1, h.2.2.1.trans ht.2.2⟩

theorem lost_cell (s : State) (c : CellIx) (row) : ((s.rowLost c row).cell c).seq = (s.cell c).seq ∧
    ((s.rowLost c row).cell c).spad = Memory.zero (s.cell c).spad (128 * row) 128 ∧ ((s.rowLost c row).cell c).spdUe = true ∧
    ((s.rowLost c row).cell c).held = some row := by
  unfold State.rowLost
  extract_lets t u
  have h := (relCell_same u c 6).trans (spare_cell t c row)
  have ht : (t.cell c).seq = (s.cell c).seq ∧ (t.cell c).spad = Memory.zero (s.cell c).spad (128 * row) 128 ∧
      (t.cell c).spdUe = true ∧ (t.cell c).held = some row := by simp [t]
  exact ⟨h.1.trans ht.1, h.2.1.trans ht.2.1, h.2.2.1.trans ht.2.2.1, h.2.2.2.trans ht.2.2.2⟩

theorem corrections_cell (n : Nat) (s : State) (c : CellIx) (row) :
    ((((List.range n).foldl (fun s _ => s.rowCorrected c row) s)).cell c).seq = (s.cell c).seq ∧
    ((((List.range n).foldl (fun s _ => s.rowCorrected c row) s)).cell c).spad = (s.cell c).spad := by
  generalize List.range n = l
  induction l generalizing s with
  | nil => exact ⟨rfl, rfl⟩
  | cons a l ih =>
    refine ⟨(ih _).1.trans ?_, (ih _).2.trans ?_⟩ <;> simp [State.rowCorrected]

theorem rowRead_cell (s : State) (c : CellIx) (row ws e) :
    ((s.rowRead c row ws e).cell c).seq = (s.cell c).seq ∧
    ((rowErr (s.cell c).spad row ws e).2 ≠ .lost → ((s.rowRead c row ws e).cell c).spad = (s.cell c).spad) ∧
    ((rowErr (s.cell c).spad row ws e).2 = .lost → ((s.rowRead c row ws e).cell c).spad = Memory.zero (s.cell c).spad (128 * row) 128 ∧
      ((s.rowRead c row ws e).cell c).spdUe = true ∧ ((s.rowRead c row ws e).cell c).held = some row) := by
  unfold State.rowRead
  rcases rowErr (s.cell c).spad row ws e with ⟨n, err⟩
  obtain ⟨h1, h2⟩ := corrections_cell n s c row
  cases err
  · exact ⟨h1, fun _ => h2, fun h => by cases h⟩
  · exact ⟨h1, fun _ => h2, fun h => by cases h⟩
  · obtain ⟨g1, g2, g3⟩ := rebuilt_cell ((List.range n).foldl (fun s _ => s.rowCorrected c row) s) c row
    exact ⟨g1.trans h1, fun _ => g2.trans h2, fun h => by cases h⟩
  · obtain ⟨g1, g2, g3, g4⟩ := lost_cell ((List.range n).foldl (fun s _ => s.rowCorrected c row) s) c row
    exact ⟨g1.trans h1, fun h => absurd rfl h, fun _ => ⟨by rw [g2, h2], g3, g4⟩⟩

theorem load_err {s : State} {c : CellIx} {opc f} (i : Instr) (n : Nat) (e : List RowFlip)
    (hi : Issues s c opc f [f.rd, f.ra]) (ha : ((s.cell c).seq.addrOf f).toNat < 0x200000)
    (hz : (s.cell c).hazard [] [(((s.cell c).seq.addrOf f).toNat / 128, 1)] [] = none)
    (hm : ((s.cell c).seq.addrOf f).toNat % n = 0) :
    s.issue c opc f i (bodyLoad c i f n e) =
      let a := ((s.cell c).seq.addrOf f).toNat
      let t := s.rowRead c (a / 128) (wordsOf a n) e
      if s.rowLoses c (a / 128) (wordsOf a n) e then t else t.modSeq c (fun q => (q.setReg f.rd (t.narrowRead c a n)).next) := by
  rw [State.issue_at _ _ hi]
  unfold bodyLoad
  rw [State.guarded_regs _ _ hi.2.2.2.2]
  have ok : s.narrowOk c ((s.cell c).seq.addrOf f).toNat n = true := by simp [State.narrowOk, hm, ha]
  simp only [ok, ha, Bool.not_true, Bool.false_eq_true, if_false, if_true]
  rw [State.guarded_none _ _ hz]

end Sys2Proof.Laws.LoadStoreLaws
end

