-- ==== Sys2Proof/Laws/PowerLaws.lean ====
section
/-! SUPPORT. Lemmas about supply, resets, heat and the boot. -/

namespace Sys2Proof.Laws.PowerLaws

set_option linter.all false

open Sys2Proof Sys2Proof.Machine Sys2Proof.Claims

theorem whole_keep (d : Dict) : (d.saving = none → d.wholeCopies.1 = d.storeA ∧ d.wholeCopies.2 = d.storeB) ∧ (if d.acting = 0 then d.wholeCopies.1 = d.storeA else d.wholeCopies.2 = d.storeB) := by
  unfold Dict.wholeCopies
  rcases h : d.saving with _ | x
  · exact ⟨fun _ => ⟨rfl, rfl⟩, by simp only [Option.isNone_none, if_true]; split <;> trivial⟩
  · refine ⟨fun q => (by cases q), ?_⟩
    by_cases e : d.acting = 0
    · rw [if_pos e]; simp only [Option.isNone_some, Bool.false_eq_true, if_false]; rw [if_pos e]
    · rw [if_neg e]; simp only [Option.isNone_some, Bool.false_eq_true, if_false]; rw [if_neg e]

theorem coldReset_facts (s : State) : KeepsFlash s s.coldReset ∧ s.coldReset.pwr.on = s.pwr.on ∧ s.coldReset.pwr.boot = .off ∧ s.coldReset.cells = [] ∧ s.coldReset.units = [] ∧ s.coldReset.mem.mem = [] ∧ s.coldReset.net.inFlight = [] ∧
   s.coldReset.dict.params = [] ∧ s.coldReset.sec.log = [] ∧ s.coldReset.pwr.shutdownNext = s.pwr.shutdownNext ∧ s.coldReset.pwr.inputOk = s.pwr.inputOk ∧ s.coldReset.pwr.latch = s.pwr.latch ∧ s.coldReset.pwr.thermtripN = s.pwr.thermtripN ∧
   s.coldReset.pwr.pwrEn = s.pwr.pwrEn ∧ s.coldReset.pwr.railFaults = s.pwr.railFaults ∧ s.coldReset.pwr.modResetN = s.pwr.modResetN ∧ s.coldReset.pwr.die0.mv = 750 ∧ s.coldReset.pwr.die1.mv = 750 :=
  ⟨⟨rfl, rfl, rfl, rfl, (whole_keep s.dict).1, (whole_keep s.dict).2, rfl, rfl, rfl⟩, rfl, rfl, rfl, rfl, rfl, rfl, rfl, rfl, rfl, rfl, rfl, rfl, rfl, rfl, rfl, rfl, rfl⟩

theorem powerOff_facts (s : State) (c : BitVec 8) (h : s.pwr.on = true) : GoesOff s (s.powerOff c) (if c = 0 then s.pwr.shutdownNext else c) ∧ (s.powerOff c).pwr.inputOk = s.pwr.inputOk ∧
   (s.powerOff c).pwr.latch = s.pwr.latch ∧ (s.powerOff c).pwr.thermtripN = s.pwr.thermtripN ∧ (s.powerOff c).pwr.pwrEn = s.pwr.pwrEn ∧ (s.powerOff c).pwr.railFaults = s.pwr.railFaults := by
  unfold State.powerOff; rw [if_pos h]
  exact ⟨⟨⟨rfl, rfl, rfl, rfl, (whole_keep s.dict).1, (whole_keep s.dict).2, rfl, rfl, rfl⟩, rfl, rfl, rfl, rfl, rfl, rfl, rfl, rfl⟩, rfl, rfl, rfl, rfl, rfl⟩

theorem powerOff_off (s : State) (c : BitVec 8) (h : s.pwr.on = false) : s.powerOff c = s := by
  unfold State.powerOff; rw [h, if_neg (by simp)]

theorem powerUp_no (s : State) (h : (!s.pwr.on && s.pwr.inputOk && decide (s.pwr.latch = .clear) && s.pwr.pwrEn) = false) : s.powerUp = s := by
  unfold State.powerUp; rw [h, if_neg (by simp)]

theorem powerUp_yes (s : State) (h : (!s.pwr.on && s.pwr.inputOk && decide (s.pwr.latch = .clear) && s.pwr.pwrEn) = true) : KeepsFlash s s.powerUp ∧ s.powerUp.pwr.on = true ∧ s.powerUp.pwr.pg = true ∧ s.powerUp.pwr.boot = .off ∧ s.powerUp.pwr.railFaults = 0 ∧
   s.powerUp.pwr.die0.mv = 750 ∧ s.powerUp.pwr.die1.mv = 750 ∧ s.powerUp.pwr.inputOk = s.pwr.inputOk ∧ s.powerUp.pwr.latch = s.pwr.latch ∧ s.powerUp.pwr.thermtripN = s.pwr.thermtripN := by
  unfold State.powerUp; rw [if_pos h]
  exact ⟨⟨rfl, rfl, rfl, rfl, (whole_keep s.dict).1, (whole_keep s.dict).2, rfl, rfl, rfl⟩, rfl, rfl, rfl, rfl, rfl, rfl, rfl, rfl, rfl⟩

theorem goes_mod {s : State} {f t c} (h : GoesOff (s.modPwr f) t c) : GoesOff s t c := h

theorem settle_facts (d : DiePower) (w cap top : Nat) : let e := d.settle w cap top 0
    e.capMv = d.capMv ∧ e.thermMv = d.thermMv ∧ (d.mv ≤ 600 → min d.capMv d.thermMv < 600 → e.mv = 600 ∧ e.duty = max 1 (d.duty - 1)) ∧
    (600 ≤ min d.capMv d.thermMv → d.duty < 16 → e.mv = max 600 (min d.mv (min (min d.capMv d.thermMv) top)) ∧ e.duty = d.duty + 1) ∧
    ((600 < d.mv ∨ 600 ≤ min d.capMv d.thermMv) → 16 ≤ d.duty → e.mv = max 600 (min (min d.capMv d.thermMv) top) ∧ e.duty = d.duty) := by
  unfold DiePower.settle; simp only [if_true]
  by_cases h1 : d.mv ≤ 600 ∧ min d.capMv d.thermMv < 600
  · rw [if_pos h1]
    refine ⟨rfl, rfl, fun _ _ => ⟨rfl, rfl⟩, fun q _ => ?_, fun q _ => ?_⟩
    · omega
    · omega
  · rw [if_neg h1]
    by_cases h2 : d.duty < 16 ∧ 600 ≤ min d.capMv d.thermMv
    · rw [if_pos h2]
      exact ⟨rfl, rfl, fun a b => absurd ⟨a, b⟩ h1, fun _ _ => ⟨rfl, rfl⟩, fun _ q => absurd h2.1 (by omega)⟩
    · rw [if_neg h2]
      exact ⟨rfl, rfl, fun a b => absurd ⟨a, b⟩ h1, fun a b => absurd ⟨b, a⟩ h2, fun _ _ => ⟨rfl, rfl⟩⟩

theorem step_facts (d : DiePower) (w cap top : Nat) : let e := ((d.targets w cap top).count top).settle w cap top 0
    e.capMv = (if cap < w then d.mv - 10 else if w + 5 ≤ cap then min (d.mv + 5) top else d.capMv) ∧
    e.thermMv = (if 1600 ≤ d.tj.toInt then d.mv - 10 else if d.tj.toInt < 1520 then top else d.thermMv) ∧
    (d.mv ≤ 600 → min e.capMv e.thermMv < 600 → e.mv = 600 ∧ e.duty = max 1 (d.duty - 1)) ∧
    (600 ≤ min e.capMv e.thermMv → d.duty < 16 → e.mv = max 600 (min d.mv (min (min e.capMv e.thermMv) top)) ∧ e.duty = d.duty + 1) ∧
    ((600 < d.mv ∨ 600 ≤ min e.capMv e.thermMv) → 16 ≤ d.duty → e.mv = max 600 (min (min e.capMv e.thermMv) top) ∧ e.duty = d.duty) := by
  intro e
  have S := settle_facts ((d.targets w cap top).count top) w cap top
  have h1 : e.capMv = (if cap < w then d.mv - 10 else if w + 5 ≤ cap then min (d.mv + 5) top else d.capMv) := S.1
  have h2 : e.thermMv = (if 1600 ≤ d.tj.toInt then d.mv - 10 else if d.tj.toInt < 1520 then top else d.thermMv) := S.2.1
  refine ⟨h1, h2, ?_, ?_, ?_⟩
  · rw [h1, h2]; exact S.2.2.1
  · rw [h1, h2]; exact S.2.2.2.1
  · rw [h1, h2]; exact S.2.2.2.2

theorem die_mod (s : State) (i : Fin 2) (f) : (s.modDiePower i.val f).diePower i.val = f (s.diePower i.val) := by
  fin_cases i <;> rfl

theorem die_mod_rest (s : State) (i : Nat) (f) : (s.modDiePower i f).cells = s.cells ∧ (s.modDiePower i f).dict = s.dict ∧ (s.modDiePower i f).evc = s.evc := by
  unfold State.modDiePower; split <;> exact ⟨rfl, rfl, rfl⟩

def bootPart (s : State) := (s.sec, s.pwr, s.dict.acting, s.dbg)

theorem startSave_boot (s : State) : bootPart s.startSave = bootPart s := by
  unfold State.startSave; split
  · rfl
  · simp only []; split <;> rfl

theorem saveRecord_boot (s : State) : bootPart s.saveRecord = bootPart s := by
  unfold State.saveRecord
  rw [startSave_boot]
  unfold bootPart Dict.touch
  simp only []; split <;> rfl

theorem foldl_boot {α : Type} (g : State → α → State) (h : ∀ s a, bootPart (g s a) = bootPart s) : ∀ (l : List α) (s : State), bootPart (l.foldl g s) = bootPart s := by
  intro l; induction l with
  | nil => intro s; rfl
  | cons a l ih => intro s; exact (ih _).trans (h _ _)

theorem modCells_boot (s : State) (l f) : bootPart (s.modCells l f) = bootPart s := foldl_boot (fun (s : State) i => s.modCell (cellIx i) f) (fun _ _ => rfl) l s

theorem place_boot (s : State) (i : Nat) : bootPart (s.placeRetired i) = bootPart s := by
  unfold State.placeRetired; simp only []
  split
  · rfl
  · split
    · rfl
    · rename_i h _ _
      rcases s.mem.allocMany (h / 256) 1024 (.image i) 42 with _ | m <;> rfl

theorem rows_boot (s : State) (c m) : bootPart (s.bootRows c m) = bootPart s := rfl

theorem retire_boot (s : State) (b c) : bootPart (s.bootRetire b c) = bootPart s := by
  unfold State.bootRetire; simp only []
  have H : ∀ (z : State) (l1 l2 l3) f, bootPart (List.foldl (fun s (x : Nat × SMap Nat) => s.bootRows (cellIx x.1) x.2) (List.foldl (fun s i => s.placeRetired i) (z.modCells l1 f) l2) l3) = bootPart z := fun z l1 l2 l3 f =>
    (foldl_boot (fun s (x : Nat × SMap Nat) => s.bootRows (cellIx x.1) x.2) (fun s a => rows_boot s _ _) l3 _).trans ((foldl_boot (fun s i => s.placeRetired i) (fun s a => place_boot s a) l2 _).trans (modCells_boot z l1 f))
  split
  · exact H _ _ _ _ _
  · exact (saveRecord_boot _).trans (H _ _ _ _ _)

theorem links_boot (s : State) : bootPart s.bootLinks = bootPart s := rfl

theorem ext_keep (x : Sec) (i ev d) : (x.extend i ev d).keys = x.keys ∧ (x.extend i ev d).svnMin = x.svnMin ∧ (x.extend i ev d).slotA = x.slotA ∧ (x.extend i ev d).slotB = x.slotB := by
  unfold Sec.extend; simp only []; split <;> exact ⟨rfl, rfl, rfl, rfl⟩

theorem ext_boot (x : Sec) (i ev d) : (x.extend i ev d).bootSlot = x.bootSlot ∧ (x.extend i ev d).fwVersion = x.fwVersion := by
  unfold Sec.extend; simp only []; split <;> exact ⟨rfl, rfl⟩

theorem choose_of {x y : Sec} (h : x.keys = y.keys ∧ x.svnMin = y.svnMin ∧ x.slotA = y.slotA ∧ x.slotB = y.slotB) : x.choose = y.choose := by
  have hb : ∀ i, x.bootable i = y.bootable i := by
    intro i; unfold Sec.bootable Sec.key; rw [h.1, h.2.1]
  have hs : ∀ i, x.boots i = y.boots i := by
    intro i; unfold Sec.boots; rcases i with _ | i
    · rfl
    · simp only [hb]
  unfold Sec.choose; rw [h.2.2.1, h.2.2.2, hs, hs]

theorem ext_mr (x : Sec) (i ev d) : (x.extend i ev d).mr i = shake256 (x.mr i ++ d) 64 ∧ (∀ k, k ≠ i → (x.extend i ev d).mr k = x.mr k) := by
  unfold Sec.extend Sec.mr; simp only []
  constructor
  · split <;> exact SMap.getD_set_self _ _ _ _
  · intro k hk; split <;> (rw [SMap.getD_set, if_neg (Ne.symm hk)])

theorem bootRom_facts (s : State) (b) : (s.bootRom b).dict.acting = s.dict.chooseCopy.1 ∧ (s.bootRom b).pwr = s.pwr ∧ (s.bootRom b).dbg = s.dbg ∧ ∃ g, (s.bootRom b).sec = (s.sec.extend 1 1 (digest s.sec.fuses)).extend 2 2 g := by
  unfold State.bootRom
  extract_lets f g s1 ch chans m s2
  have h2 : s2.dict.acting = s.dict.chooseCopy.1 ∧ s2.pwr = s.pwr ∧ s2.dbg = s.dbg ∧ s2.sec = (s.sec.extend 1 1 (digest s.sec.fuses)).extend 2 2 (digest g) := ⟨rfl, rfl, rfl, rfl⟩
  split
  · exact ⟨h2.1, h2.2.1, h2.2.2.1, _, h2.2.2.2⟩
  · exact ⟨h2.1, h2.2.1, h2.2.2.1, _, h2.2.2.2⟩

theorem boot_parts {s t : State} (h : bootPart s = bootPart t) : s.sec = t.sec ∧ s.pwr = t.pwr ∧ s.dict.acting = t.dict.acting ∧ s.dbg = t.dbg := by
  unfold bootPart at h; simp only [Prod.mk.injEq] at h; exact h

theorem bootImage_facts (s : State) (b c k i) : ∃ d, let x := ({ s.sec.extend 0 0 i.digest with bootSlot := BitVec.ofNat 8 k, fwVersion := i.version, certSvnMin := s.sec.svnMin } : Sec).extend 3 3 d
    (s.bootImage b c k i).sec = { x with svnMin := max x.svnMin i.floor } ∧ (s.bootImage b c k i).pwr = { s.pwr with boot := .ready } ∧ (s.bootImage b c k i).dict.acting = s.dict.acting ∧ (s.bootImage b c k i).dbg.fullReq = !s.pwr.freezeN := by
  unfold State.bootImage
  extract_lets q1 s1 s2 q3
  refine ⟨digest s1.calibration, ?_⟩
  intro x
  have hb := boot_parts ((links_boot (s2.bootRetire b c)).trans (retire_boot s2 b c))
  generalize (s2.bootRetire b c).bootLinks = z at hb
  have hx : s2.sec = x := rfl
  refine ⟨?_, ?_, ?_, ?_⟩
  · show ({ z.sec with svnMin := max z.sec.svnMin i.floor } : Sec) = _
    rw [hb.1, hx]
  · show ({ z.pwr with boot := .ready } : Power) = _
    rw [hb.2.1]; rfl
  · exact hb.2.2.1
  · show (!z.pwr.freezeN) = _
    rw [hb.2.1]; rfl

end Sys2Proof.Laws.PowerLaws
end

