-- ==== Sys2Proof/Laws/RecordLaws.lean ====
section
/-! SUPPORT. Lemmas about range records, ledgers, code conversions and LFU operations. -/

namespace Sys2Proof.Laws.RecordLaws

set_option linter.all false

open Sys2Proof Sys2Proof.Machine Sys2Proof.Claims

theorem rq_issue {s : State} {c : CellIx} {f : InsFields} {b : List Word} (i : Instr) (op : Nat) (busy io check run)
    (hb : IssuesBlock s c 0x4C f [f.rd, f.ra] maskRq b) (hop : bf b 0 3 0 = op) (hq : (s.cell c).rqBusy = false) (hq' : busy (s.cell c) = false)
    (hr : RowsFree (s.cell c) (io b (s.cell c)).1 (io b (s.cell c)).2) (hc : check b (s.cell c) = none) :
    s.issue c 0x4C f i (fun s => s.rqOp c f i op busy io check run) =
      let u := (run b s).2.2.addOp c { id := 0, unit := .rq, reads := (io b (s.cell c)).1, writes := (io b (s.cell c)).2, code := (run b s).1, regs := (run b s).2.1, blocking := blocks i }
      if blocks i then u.waitOp c none else u.retire c := by
  rw [State.issue_at _ _ hb.1]
  unfold State.rqOp
  rw [State.guarded_regs _ _ hb.1.2.2.2.2, State.withBlock_at _ _ hb]
  simp only [hop, ne_eq, not_true, if_false, hr.1, Bool.not_true, Bool.false_eq_true, hq, hq', Bool.or_self]
  rw [State.guarded_none _ _ hr.2]
  simp only [hc]

theorem hand_tame (s : State) (c : CellIx) (job layer) : tameOf c (s.handStats c job layer) = tameOf c s := by
  unfold State.handStats; extract_lets st; split
  · rfl
  · rw [tame_modC _ _ _ rfl]; rfl

theorem convert_tame (s : State) (c : CellIx) (k b src) : tameOf c (s.convertRows c k b src).2 = tameOf c s := by
  unfold State.convertRows
  extract_lets rows job layer k r
  exact (hand_tame _ _ _ _).trans (tame_foldl2 c _ (fun s a => by simp) _ _)

theorem requant_tame (s : State) (c : CellIx) (b) : tameOf c (requantRun c b s).2.2 = tameOf c s := by
  simp only [requantRun]; exact convert_tame _ _ _ _ _

theorem sabout_tame (s : State) (c : CellIx) (b) : tameOf c (saboutRun c b s).2.2 = tameOf c s := by
  unfold saboutRun
  extract_lets first rows src job layer inside clear r
  have hc : ∀ u, tameOf c (clear u) = tameOf c u := fun u => tame_modC _ _ _ rfl
  split
  · exact (hc _).trans (convert_tame _ _ _ _ _)
  · refine (hc _).trans (tame_modC _ _ _ ?_); first | rfl | (refine tameC_foldl _ (fun x a => ?_) _ _; first | rfl | exact tameC_foldl _ (fun x a => rfl) _ _)

theorem dequant_tame (s : State) (c : CellIx) (b) : tameOf c (dequantRun c b s).2.2 = tameOf c s := by
  unfold dequantRun; extract_lets
  refine tame_modC _ _ _ (tameC_foldl _ (fun x a => ?_) _ _)
  first | rfl | exact tameC_foldl _ (fun x a => rfl) _ _

theorem quant_tame (s : State) (c : CellIx) (b) : tameOf c (quantRun c b s).2.2 = tameOf c s := by
  unfold quantRun; extract_lets; exact (hand_tame _ _ _ _).trans (tame_foldl2 c _ (fun s a => by simp) _ _)

theorem scale_tame (s : State) (c : CellIx) (f b) : tameOf c (scaleRun c f b s).2.2 = tameOf c s := by
  unfold scaleRun; extract_lets; exact (tame_modC _ _ _ rfl).trans (tame_conv _ _ _ _ _)

@[simp] theorem tameC_count (x : Cell) (e) : tameC (x.lfuCount e) = tameC x := rfl
@[simp] theorem tameC_part (x : Cell) (h p) : tameC (x.markPart h p) = tameC x := by
  unfold Cell.markPart; (try split) <;> rfl
@[simp] theorem tameC_block (x : Cell) (lf row e p) : tameC (x.markBlock lf row e p) = tameC x := by
  unfold Cell.markBlock; first | exact (tameC_foldl _ (fun s a => by simp) _ _) | (split <;> simp) | simp
@[simp] theorem tameC_write (x : Cell) (k c0 outs psn) : tameC (x.lfuWrite k c0 outs psn) = tameC x := by
  unfold Cell.lfuWrite; extract_lets w b y
  exact (tameC_foldl _ (fun s a => by simp) _ _).trans rfl
theorem tameC_row (x0 : Cell) (k job layer) (y : Cell) (r) : tameC (x0.lfuRow k job layer y r).1 = tameC y := by
  unfold Cell.lfuRow; extract_lets
  (repeat' split)
  all_goals first
    | exact (tameC_count _ _).trans (tameC_write _ _ _ _ _)
    | exact (tameC_count _ _).trans ((tameC_foldl _ (fun s a => tameC_part _ _ _) _ _).trans rfl)

theorem lfu_tame (s : State) (c : CellIx) (k) : tameOf c (s.lfuRun c k).2 = tameOf c s := by
  have key : ∀ (x0 : Cell) (l : List Nat) (a : Cell × Bool), tameC (l.foldl (fun (a : Cell × Bool) r =>
      let y := x0.lfuRow k x0.job x0.layer a.1 r
      (y.1, a.2 || y.2)) a).1 = tameC a.1 := by
    intro x0 l; induction l with
    | nil => intro a; rfl
    | cons q l ih => intro a; exact (ih _).trans (tameC_row _ _ _ _ _ _)
  have := key (s.cell c) (List.range k.rows) (s.cell c, false)
  have h1 := congrArg Prod.fst this
  have h2 := congrArg Prod.snd this
  unfold State.lfuRun
  rw [tame_set]
  exact Prod.ext rfl (Prod.ext h1 h2)

end Sys2Proof.Laws.RecordLaws
end

