-- ==== Sys2Proof/Laws/RegisterLaws.lean ====
section
/-! SUPPORT. Lemmas about the register instructions. -/

namespace Sys2Proof.Laws.RegisterLaws

set_option linter.all false

open Sys2Proof Sys2Proof.Machine Sys2Proof.Claims

theorem reg_result {s : State} {c : CellIx} {opc f rd rs} (i : Instr) (v : Seq → Word) (w : Word) (hn : NextInside s c)
    (h : Issues s c opc f (rd :: rs)) (hv : v (s.cell c).seq = w) :
    RegResult s c rd w (s.issue c opc f i (bodyReg c i rd rs v)) := by
  rw [State.issue_at _ _ h]
  unfold bodyReg
  rw [State.guarded_regs _ _ h.2.2.2.2]
  have hx : ((s.cell c).seq.setReg rd w).next = { (s.cell c).seq with regs := ((s.cell c).seq.setReg rd w).regs, pc := (s.cell c).seq.pc + 8, retired := sat32 (s.cell c).seq.retired 1 } := by
    exact Seq.setReg_next hn _ _
  refine ⟨?_, ?_, ?_, ?_, ?_⟩
  · simp [OnlySeq, State.modSeq, State.modCell]
  · simp only [State.cell_modSeq, hv, hx, OnlyRegsPc]
  · intro r; simp only [State.cell_modSeq, hv, hx]; exact Seq.reg_setReg _ _ _ _
  · simp only [State.cell_modSeq, hv, hx]
  · simp only [State.cell_modSeq, hv, hx]

end Sys2Proof.Laws.RegisterLaws
end

