-- ==== Sys2Proof/Laws/ReliabilityLaws.lean ====
section
/-! SUPPORT. Lemmas about rows, retirement, spares, hosting and the patrol. -/

namespace Sys2Proof.Laws.ReliabilityLaws

set_option linter.all false

open Sys2Proof Sys2Proof.Machine Sys2Proof.Claims

theorem startSave_saving (s : State) : s.startSave.dict.saving.isSome = true := by
  unfold State.startSave; split
  · assumption
  · simp only []; split <;> rfl

theorem startSave_rest (s : State) : (s.startSave.cells, s.startSave.units, s.startSave.mem, s.startSave.rel, s.startSave.evc) = (s.cells, s.units, s.mem, s.rel, s.evc) := by
  unfold State.startSave; split
  · rfl
  · simp only []

theorem saveRecord_rest (s : State) : (s.saveRecord.cells, s.saveRecord.units, s.saveRecord.mem, s.saveRecord.rel, s.saveRecord.evc) = (s.cells, s.units, s.mem, s.rel, s.evc) := by
  unfold State.saveRecord; exact startSave_rest _

theorem saveRecord_cell (s : State) (c) : s.saveRecord.cell c = s.cell c := by
  have := saveRecord_rest s; simp only [Prod.mk.injEq] at this; exact cell_of_cells this.1 c

theorem saveRecord_saving (s : State) : s.saveRecord.dict.saving.isSome = true := by unfold State.saveRecord; exact startSave_saving _

theorem relCell_cell' (s : State) (c : CellIx) (n) : (s.relCell c n).cell c = { s.cell c with cnt := { (s.cell c).cnt with lastCause := n } } := by
  rw [cell_of_cells (relCell_cells s c n) c, State.cell_modCell]

theorem relCell_other (s : State) (c d : CellIx) (h : d ≠ c) (n) : (s.relCell c n).cell d = s.cell d := by
  rw [cell_of_cells (relCell_cells s c n) d, State.cell_modCell_ne _ _ _ _ h]

theorem requestRetire_cell (s : State) (c : CellIx) : ∃ k, (s.requestRetire c).cell c = { s.cell c with retireReq := true, cnt := k } := by
  unfold State.requestRetire; split
  · rename_i h; exact ⟨(s.cell c).cnt, by rw [← h]⟩
  · rw [relCell_cell', State.cell_modCell]; exact ⟨_, rfl⟩

theorem requestRetire_other (s : State) (c d : CellIx) (h : d ≠ c) : (s.requestRetire c).cell d = s.cell d := by
  unfold State.requestRetire; split
  · rfl
  · rw [relCell_other _ _ _ h, State.cell_modCell_ne _ _ _ _ h]

theorem requestRetire_mem (s : State) (c : CellIx) : (s.requestRetire c).mem = s.mem := by
  unfold State.requestRetire; split <;> rfl

theorem get_mk {α} (m : SMap α) (i : Nat) (v : α) : SMap.get? (SMap.set m i v) i = some v := by rw [SMap.get?_set]; simp

theorem retired_facts (s : State) (c : CellIx) (n) : let t := s.retired c n
    (∀ d, d ≠ c → t.cell d = s.cell d) ∧
    (t.cell c) = { s.cell c with rows := { ({} : Rows) with rebuilt := (s.cell c).rows.rebuilt }, retireReq := false, recomputeTimes := [], failStreak := 0, cnt := (t.cell c).cnt } ∧
    t.units = s.units ∧ t.rel.spareOf = s.rel.spareOf ∧ t.rel.hosts = s.rel.hosts ∧ c.val ∈ t.rel.retired ∧ t.dict.saving.isSome = true ∧ t.mem = s.mem := by
  intro t
  let u := s.modCell c (·.moved)
  let v : State := { u with rel := { u.rel with retired := if c.val ∈ u.rel.retired then u.rel.retired else u.rel.retired ++ [c.val] } }
  have e : t = (v.saveRecord.relCell c n).fireStatus srcCapacity := rfl
  have ec : ∀ d, t.cell d = (v.saveRecord.relCell c n).cell d := fun d => rfl
  have hv := saveRecord_rest v
  simp only [Prod.mk.injEq] at hv
  have hw : v.saveRecord.cells = u.cells := hv.1
  have h1 : ∀ d, v.saveRecord.cell d = u.cell d := fun d => cell_of_cells hw d
  refine ⟨fun d hd => by rw [ec, relCell_other _ _ _ hd, h1]; exact State.cell_modCell_ne _ _ _ _ hd, ?_, ?_, ?_, ?_, ?_, ?_, ?_⟩
  · rw [ec, relCell_cell', h1]; show _ = _; rw [State.cell_modCell]; rfl
  · exact hv.2.1
  · have : t.rel = v.saveRecord.rel := rfl
    rw [this, hv.2.2.2.1]; rfl
  · have : t.rel = v.saveRecord.rel := rfl
    rw [this, hv.2.2.2.1]; rfl
  · have : t.rel = v.saveRecord.rel := rfl
    rw [this, hv.2.2.2.1]
    show c.val ∈ (if _ then _ else _)
    split
    · assumption
    · simp
  · exact saveRecord_saving v
  · exact hv.2.2.1

end Sys2Proof.Laws.ReliabilityLaws
end

