-- ==== Sys2Proof/Laws/ServiceLaws.lean ====
section
/-! SUPPORT. Lemmas about the dictionary, the store, the commit groups and the security engine. -/

namespace Sys2Proof.Laws.ServiceLaws

set_option linter.all false

open Sys2Proof Sys2Proof.Machine Sys2Proof.Claims

theorem drop_rest (l : List Nat) (idx : Nat) : ∀ d : Dict, let e := l.foldl (fun d u => d.dropStage u idx) d
    e.params = d.params ∧ e.commits = d.commits ∧ e.image = d.image ∧ e.stages = d.stages.filter (fun x => decide (∀ u ∈ l, x.1 ≠ ⟨u, idx, 0⟩)) := by
  induction l with
  | nil => intro d; exact ⟨rfl, rfl, rfl, by simp⟩
  | cons a l ih =>
    intro d
    obtain ⟨x, y, z, w⟩ := ih (d.dropStage a idx)
    refine ⟨x.trans rfl, y.trans rfl, z.trans rfl, w.trans ?_⟩
    show List.filter _ (List.filter _ _) = _
    rw [List.filter_filter]
    congr 1; funext x; simp [Bool.and_comm]

theorem stage_dropped (l : List Nat) (idx : Nat) (d : Dict) (u : Nat) (hu : u ∈ l) : (l.foldl (fun d u => d.dropStage u idx) d).stage u idx = none := by
  have := (drop_rest l idx d).2.2.2
  unfold Dict.stage; simp only [this]
  rw [Option.map_eq_none_iff, List.find?_eq_none]
  intro x hx
  have := (List.mem_filter.mp hx).2
  simp only [decide_eq_true_eq] at this ⊢
  exact this u hu

theorem stage_of {d e : Dict} (h : d.stages = e.stages) (u idx) : d.stage u idx = e.stage u idx := by unfold Dict.stage; rw [h]

theorem stageAt_rest (s : State) (i sub k v) : let t := s.stageAt i sub k v
    t.dict.params = s.dict.params ∧ t.cells = s.cells ∧ t.dict.commits = s.dict.commits := ⟨rfl, rfl, rfl⟩

theorem stageAts_rest (l : List Nat) (i sub v) : ∀ s : State, let t := l.foldl (fun t u => t.stageAt i sub u v) s
    t.dict.params = s.dict.params ∧ t.cells = s.cells ∧ t.dict.commits = s.dict.commits := by
  induction l with
  | nil => intro s; exact ⟨rfl, rfl, rfl⟩
  | cons a l ih => intro s; obtain ⟨x, y, z⟩ := ih (s.stageAt i sub a v); exact ⟨x, y, z⟩

theorem stageAt_dict (s : State) (idx sub k v) : (s.stageAt idx sub k v).dict = { s.dict with stages := (s.stageAt idx sub k v).dict.stages } ∧ s.stageAt idx sub k v = { s with dict := (s.stageAt idx sub k v).dict } := ⟨rfl, rfl⟩

theorem drops_only (l : List Nat) (idx : Nat) : ∀ d : Dict, l.foldl (fun d u => d.dropStage u idx) d = { d with stages := (l.foldl (fun d u => d.dropStage u idx) d).stages } := by
  induction l with
  | nil => intro d; rfl
  | cons a l ih => intro d; simp only [List.foldl_cons]; exact (ih (d.dropStage a idx)).trans rfl

theorem stageAts_only (l : List Nat) (idx sub v) : ∀ s : State, let t := l.foldl (fun t u => t.stageAt idx sub u v) s
    t = { s with dict := { s.dict with stages := t.dict.stages } } := by
  induction l with
  | nil => intro s; rfl
  | cons a l ih =>
    intro s
    have := ih (s.stageAt idx sub a v)
    simp only [List.foldl_cons] at this ⊢
    exact this.trans rfl

theorem stageAt_self (s : State) (idx sub k v) : (s.stageAt idx sub k v).dict.stage k idx =
    some (((s.dict.stage k idx).getD ((rwcOf idx).map (fun p => (p.sub, p.val s k)))).map (fun x => if x.1 = sub then (sub, v) else x)) := by
  show ((List.filter _ _ ++ [(_, _)]).find? _).map _ = _
  rw [List.find?_append]
  have : (List.filter (fun x : ParamKey × List (Nat × List Byte) => decide (x.1 ≠ ⟨k, idx, 0⟩)) s.dict.stages).find? (fun x => decide (x.1 = ⟨k, idx, 0⟩)) = none := by
    rw [List.find?_eq_none]; intro x hx; have := (List.mem_filter.mp hx).2; simpa using this
  rw [this]; simp

theorem find_filter_ne {β : Type} (l : List (ParamKey × β)) (k k' : ParamKey) (h : k' ≠ k) :
    (l.filter (fun x => decide (x.1 ≠ k))).find? (fun x => decide (x.1 = k')) = l.find? (fun x => decide (x.1 = k')) := by
  induction l with
  | nil => rfl
  | cons a l ih =>
    by_cases q : a.1 = k
    · rw [List.filter_cons_of_neg (by simp [q]), List.find?_cons_of_neg (by simp [q, Ne.symm h]), ih]
    · rw [List.filter_cons_of_pos (by simp [q])]
      by_cases r : a.1 = k'
      · rw [List.find?_cons_of_pos (by simp [r]), List.find?_cons_of_pos (by simp [r])]
      · rw [List.find?_cons_of_neg (by simp [r]), List.find?_cons_of_neg (by simp [r]), ih]

theorem key_ne {k idx k' i : Nat} (h : i ≠ idx ∨ k' ≠ k) : (⟨k', i, 0⟩ : ParamKey) ≠ ⟨k, idx, 0⟩ := by
  intro e; cases e; rcases h with h | h <;> exact h rfl

theorem stageAt_other (s : State) (idx sub k v) (k' i : Nat) (h : i ≠ idx ∨ k' ≠ k) : (s.stageAt idx sub k v).dict.stage k' i = s.dict.stage k' i := by
  show ((List.filter _ _ ++ [(_, _)]).find? _).map _ = _
  rw [List.find?_append, find_filter_ne _ _ _ (key_ne h)]
  have : ([((⟨k, idx, 0⟩ : ParamKey), ((s.dict.stage k idx).getD ((rwcOf idx).map (fun p => (p.sub, p.val s k)))).map (fun x => if x.1 = sub then (sub, v) else x))].find? (fun x => decide (x.1 = ⟨k', i, 0⟩))) = none := by
    rw [List.find?_eq_none]; intro x hx; rw [List.mem_singleton] at hx; subst hx; simpa using (key_ne h).symm
  rw [this]; simp only [Option.or_none]; rfl

theorem dropStage_other (d : Dict) (idx k k' i : Nat) (h : i ≠ idx ∨ k' ≠ k) : (d.dropStage k idx).stage k' i = d.stage k' i := by
  unfold Dict.stage Dict.dropStage; simp only []
  rw [find_filter_ne _ _ _ (key_ne h)]

theorem drops_other (l : List Nat) (idx k' i : Nat) (h : i ≠ idx ∨ k' ∉ l) : ∀ d : Dict, (l.foldl (fun d u => d.dropStage u idx) d).stage k' i = d.stage k' i := by
  induction l with
  | nil => intro d; rfl
  | cons a l ih =>
    intro d
    rw [List.foldl_cons, ih (by rcases h with h | h; exact Or.inl h; exact Or.inr (fun e => h (by simp [e])))]
    exact dropStage_other _ _ _ _ _ (by rcases h with h | h; exact Or.inl h; exact Or.inr (fun e => h (by simp [e])))

theorem stageAts_other (l : List Nat) (idx sub v) (k' i : Nat) (h : i ≠ idx ∨ k' ∉ l) : ∀ s : State,
    (l.foldl (fun t u => t.stageAt idx sub u v) s).dict.stage k' i = s.dict.stage k' i := by
  induction l with
  | nil => intro s; rfl
  | cons a l ih =>
    intro s
    rw [List.foldl_cons, ih (by rcases h with h | h; exact Or.inl h; exact Or.inr (fun e => h (by simp [e])))]
    exact stageAt_other _ _ _ _ _ _ _ (by rcases h with h | h; exact Or.inl h; exact Or.inr (fun e => h (by simp [e])))

/-- what the buffer of a target holds after the fold -/
theorem stageAts_in (l : List Nat) (idx sub v) (k : Nat) : ∀ s : State, k ∈ l → ∃ m,
    (l.foldl (fun t u => t.stageAt idx sub u v) s).dict.stage k idx = some m ∧
    (∀ old, s.dict.stage k idx = some old → m = old.map (fun x => if x.1 = sub then (sub, v) else x)) ∧
    (s.dict.stage k idx = none → m.map (·.1) = (rwcOf idx).map (·.sub) ∧ (∀ x ∈ m, x.1 = sub → x.2 = v) ∧
      (l = [k] → m = (rwcOf idx).map (fun q => if q.sub = sub then (sub, v) else (q.sub, q.val s k)))) := by
  have idem : ∀ o : List (Nat × List Byte), (o.map (fun x => if x.1 = sub then (sub, v) else x)).map (fun x => if x.1 = sub then (sub, v) else x) = o.map (fun x => if x.1 = sub then (sub, v) else x) := by
    intro o; rw [List.map_map]; apply List.map_congr_left; intro x _; simp only [Function.comp]; split <;> simp_all
  induction l with
  | nil => intro s h; cases h
  | cons a l ih =>
    intro s h
    rw [List.foldl_cons]
    have base : ∀ m0 : List (Nat × List Byte), m0 = ((s.dict.stage k idx).getD ((rwcOf idx).map (fun p => (p.sub, p.val s k)))).map (fun x => if x.1 = sub then (sub, v) else x) →
        (∀ old, s.dict.stage k idx = some old → m0 = old.map (fun x => if x.1 = sub then (sub, v) else x)) ∧
        (s.dict.stage k idx = none → m0.map (·.1) = (rwcOf idx).map (·.sub) ∧ (∀ x ∈ m0, x.1 = sub → x.2 = v) ∧ m0 = (rwcOf idx).map (fun q => if q.sub = sub then (sub, v) else (q.sub, q.val s k))) := by
      intro m0 hm
      refine ⟨fun old ho => by rw [hm, ho]; rfl, fun hn => ?_⟩
      rw [hn] at hm
      simp only [Option.getD_none, List.map_map] at hm
      refine ⟨?_, ?_, ?_⟩
      · rw [hm, List.map_map]; apply List.map_congr_left; intro x _; simp only [Function.comp]; split <;> simp_all
      · intro x hx hs
        rw [hm] at hx
        obtain ⟨q, -, rfl⟩ := List.mem_map.mp hx
        simp only [Function.comp] at hs ⊢
        split at hs
        · rename_i z; rw [if_pos z]
        · rename_i z; exact absurd hs z
      · rw [hm]; rfl
    by_cases ka : k = a
    · subst ka
      have S := stageAt_self s idx sub k v
      by_cases kl : k ∈ l
      · obtain ⟨m, h1, h2, -⟩ := ih (s.stageAt idx sub k v) kl
        have e := h2 _ S
        rw [idem] at e
        refine ⟨m, h1, (base m e).1, fun hn => ⟨((base m e).2 hn).1, ((base m e).2 hn).2.1, fun _ => ((base m e).2 hn).2.2⟩⟩
      · rw [stageAts_other l idx sub v k idx (Or.inr kl)]
        refine ⟨_, S, (base _ rfl).1, fun hn => ⟨((base _ rfl).2 hn).1, ((base _ rfl).2 hn).2.1, fun _ => ((base _ rfl).2 hn).2.2⟩⟩
    · have kl : k ∈ l := by rcases List.mem_cons.mp h with h | h; exact absurd h ka; exact h
      have S := stageAt_other s idx sub a v k idx (Or.inr ka)
      obtain ⟨m, h1, h2, h3⟩ := ih (s.stageAt idx sub a v) kl
      rw [S] at h2 h3
      refine ⟨m, h1, h2, fun hn => ⟨(h3 hn).1, (h3 hn).2.1, fun he => ?_⟩⟩
      exact absurd (by simpa using congrArg (·.head?) he : a = k) (Ne.symm ka)

theorem find_of_findParam {l : List Param} {sub : Nat} {p : Param} (h : findParam l sub = some p) (ha : p.acc = .rwc) : p ∈ l ∧ p.sub = sub := by
  unfold findParam at h
  split at h
  · cases h; cases ha
  · exact ⟨List.mem_of_find?_eq_some h, by simpa using List.find?_some h⟩

theorem access_param {s : State} {r : DictReq} {p : Param} {n : Nat} (h : s.access r = .ok (p, n)) :
    ∃ l, paramsOf r.index = some l ∧ findParam l r.sub = some p := by
  unfold State.access at h
  simp only [] at h
  split at h; · cases h
  split at h; · cases h
  split at h; · cases h
  split at h; · cases h
  split at h; · cases h
  split at h
  · cases h
  · rename_i l hl
    split at h
    · cases h
    · rename_i q hq
      split at h; · cases h
      split at h; · cases h
      split at h; · cases h
      split at h; · cases h
      cases h
      exact ⟨l, hl, hq⟩

theorem kind_stage {r : DictReq} (h : r.kind = .stage) : isRwc r.index r.sub = true := by
  unfold DictReq.kind at h
  simp only [] at h
  by_cases c1 : (!r.isWrite) = true
  · rw [if_pos c1] at h; split at h
    · cases h
    · split at h <;> cases h
  · rw [if_neg c1] at h
    by_cases c2 : r.sub = 0xFF ∧ hasCommit r.index = true
    · rw [if_pos c2] at h; split at h <;> cases h
    · rw [if_neg c2] at h
      by_contra q
      rw [if_neg q] at h
      revert h
      simp only [apply_ite (fun k => k = ReqKind.stage)]
      simp

theorem staged_param {s : State} {r p n} (h : Asks s .stage r p n) : p ∈ rwcOf r.index ∧ p.sub = r.sub := by
  obtain ⟨h1, h2, -⟩ := h
  have hk : r.kind = .stage := by
    unfold State.headReq at h1
    split at h1
    · cases h1
    · split at h1
      · rename_i q; cases h1; simp only [Bool.and_eq_true, decide_eq_true_eq] at q; exact q.2
      · cases h1
  have hr := kind_stage hk
  obtain ⟨l, hl, hf⟩ := access_param h2
  unfold isRwc at hr
  rw [hl] at hr
  simp only [Option.elim, hf, decide_eq_true_eq] at hr
  obtain ⟨a, b⟩ := find_of_findParam hf hr
  refine ⟨?_, b⟩
  unfold rwcOf; rw [hl]
  exact List.mem_filter.mpr ⟨a, by simp [hr]⟩

-- MARK

theorem modCells_set (set : Nat → Cell → Cell) (sub : Nat) (l : List (Nat × List (Nat × List Byte))) : ∀ (s : State),
    (l.map (fun e => cellOfKey e.1)).Nodup →
    let t := l.foldl (fun s u => match u.2.find? (fun y => decide (y.1 = sub)) with
      | some y => s.modCell (cellOfKey u.1) (set (ofBytesLE y.2))
      | none => s) s
    (∀ e ∈ l, ∀ y, e.2.find? (fun y => decide (y.1 = sub)) = some y → t.cell (cellOfKey e.1) = set (ofBytesLE y.2) (s.cell (cellOfKey e.1))) ∧
    ∀ c : CellIx, c ∉ l.map (fun e => cellOfKey e.1) → t.cell c = s.cell c := by
  induction l with
  | nil => intro s _; exact ⟨fun _ h => (by cases h), fun _ _ => rfl⟩
  | cons a l ih =>
    intro s hn
    rw [List.map_cons, List.nodup_cons] at hn
    let s1 : State := match a.2.find? (fun y => decide (y.1 = sub)) with
      | some y => s.modCell (cellOfKey a.1) (set (ofBytesLE y.2))
      | none => s
    obtain ⟨h1, h2⟩ := ih s1 hn.2
    have other : ∀ c : CellIx, c ≠ cellOfKey a.1 → s1.cell c = s.cell c := by
      intro c hc; simp only [s1]; split
      · exact State.cell_modCell_ne _ _ _ _ hc
      · rfl
    simp only [List.foldl_cons]
    refine ⟨fun e he y hy => ?_, fun c hc => ?_⟩
    · rcases List.mem_cons.mp he with rfl | he
      · refine (h2 _ hn.1).trans ?_
        simp only [s1, hy]
        exact State.cell_modCell _ _ _
      · refine (h1 e he y hy).trans ?_
        rw [other]
        intro q; exact hn.1 (q ▸ List.mem_map.mpr ⟨e, he, rfl⟩)
    · rw [List.map_cons, List.mem_cons, not_or] at hc
      exact (h2 c hc.2).trans (other c hc.1)

theorem rwc_cell : rwcOf 0x4800 = [scalarP 0x04 1 .rwc (.cells .allEq noExtra) (cellV (·.ceLimit.toNat))] ∧
    rwcOf 0x5820 = [scalarP 0x01 4 .rwc (.cells .allEq noExtra) (cellV (·.deltaCap.toNat))] ∧
    rwcOf 0x6000 = [scalarP 0x02 2 .rwc (.cells .allEq noExtra) (cellV (·.recomputeLimit.toNat))] := ⟨rfl, rfl, rfl⟩

theorem commit_cells (s : State) (x : PendCommit) (sub set) (h : (x.index, sub, set) ∈ cellGroups) :
    s.setCommit x = x.vals.foldl (fun s u => match u.2.find? (fun y => decide (y.1 = sub)) with
      | some y => s.modCell (cellOfKey u.1) (set (ofBytesLE y.2))
      | none => s) s := by
  unfold State.setCommit
  unfold cellGroups at h
  simp only [List.mem_cons, List.not_mem_nil, or_false, Prod.mk.injEq] at h
  rcases h with ⟨h1, rfl, rfl⟩ | ⟨h1, rfl, rfl⟩ | ⟨h1, rfl, rfl⟩
  · rw [h1, rwc_cell.1]; rfl
  · rw [h1, rwc_cell.2.1]; rfl
  · rw [h1, rwc_cell.2.2]; rfl

theorem setRaw_other (d : Dict) (k : ParamKey) (v : List Byte) (key : ParamKey) (hk : key ≠ k) : (d.setRaw k v).raw key = d.raw key := by
  unfold Dict.setRaw Dict.raw
  split
  · congr 1
    show (d.params.map _).find? _ = _
    induction d.params with
    | nil => rfl
    | cons a l ih =>
      rw [List.map_cons]
      by_cases q : a.1 = k
      · rw [if_pos q, List.find?_cons_of_neg (by simpa using hk.symm), List.find?_cons_of_neg (by rw [q]; simpa using hk.symm), ih]
      · rw [if_neg q]
        by_cases r : a.1 = key
        · rw [List.find?_cons_of_pos (by simp [r]), List.find?_cons_of_pos (by simp [r])]
        · rw [List.find?_cons_of_neg (by simp [r]), List.find?_cons_of_neg (by simp [r]), ih]
  · show ((d.params ++ [_]).find? _).map _ = _
    rw [List.find?_append]
    have : ([(k, v)].find? (fun p => decide (p.1 = key))) = none := by
      rw [List.find?_eq_none]; intro x hx; rw [List.mem_singleton] at hx; subst hx; simpa using hk.symm
    rw [this]; simp only [Option.or_none]

theorem image_raw (d : Dict) (k : ParamKey) (w t) (key : ParamKey) : ((d.setImage k w).touch t).raw key = d.raw key := by
  unfold Dict.touch Dict.setImage
  split <;> split <;> rfl

theorem setParam_other (s : State) (index : Nat) (p : Param) (k : Nat) (v : List Byte) (key : ParamKey)
    (hi : index ∉ [0x4800, 0x6000, 0x5820, 0xC100, 0x8000, 0xA000]) (hk : key ≠ ⟨k, index, p.sub⟩) :
    (s.setParam index p k v).dict.raw key = s.dict.raw key := by
  unfold State.setParam; simp only []
  simp only [List.mem_cons, List.not_mem_nil, or_false, not_or] at hi
  split
  all_goals try (exfalso; omega)
  simp only []
  split
  · rw [image_raw]; split
    · rfl
    · exact setRaw_other _ _ _ _ hk
  · split
    · rfl
    · exact setRaw_other _ _ _ _ hk

theorem setParam_only (s : State) (index : Nat) (p : Param) (k : Nat) (v : List Byte)
    (hi : index ∉ [0x4800, 0x6000, 0x5820, 0xC100, 0x8000, 0xA000]) : ∃ d, s.setParam index p k v = { s with dict := d } := by
  unfold State.setParam; simp only []
  simp only [List.mem_cons, List.not_mem_nil, or_false, not_or] at hi
  split
  all_goals try (exfalso; omega)
  exact ⟨_, rfl⟩

theorem commit_params (index k : Nat) (l : List (Nat × List Byte)) (hi : index ∉ [0x4800, 0x6000, 0x5820, 0xC100, 0x8000, 0xA000]) (ps : List Param) :
    ∀ s : State, (ps.map (·.sub)).Nodup → (∀ q ∈ ps, q.next = false) →
    let t := ps.foldl (fun s p => match l.find? (fun y => decide (y.1 = p.sub)) with
      | some y => s.setParam index p k y.2
      | none => s) s
    (∃ d, t = { s with dict := d }) ∧ (∀ q ∈ ps, ∀ y, l.find? (fun y => decide (y.1 = q.sub)) = some y → t.dict.raw ⟨k, index, q.sub⟩ = some y.2) ∧
    ∀ key : ParamKey, key.sub ∉ ps.map (·.sub) → t.dict.raw key = s.dict.raw key := by
  induction ps with
  | nil => intro s _ _; exact ⟨⟨s.dict, rfl⟩, fun _ h => (by cases h), fun _ _ => rfl⟩
  | cons a ps ih =>
    intro s hn hx
    rw [List.map_cons, List.nodup_cons] at hn
    let s1 : State := match l.find? (fun y => decide (y.1 = a.sub)) with
      | some y => s.setParam index a k y.2
      | none => s
    obtain ⟨⟨d1, h1⟩, h2, h3⟩ := ih s1 hn.2 (fun q hq => hx q (List.mem_cons_of_mem _ hq))
    have e1 : ∃ d, s1 = { s with dict := d } := by
      simp only [s1]; split
      · exact setParam_only _ _ _ _ _ hi
      · exact ⟨s.dict, rfl⟩
    obtain ⟨d0, e1⟩ := e1
    simp only [List.foldl_cons]
    refine ⟨⟨d1, ?_⟩, fun q hq y hy => ?_, fun key hk => ?_⟩
    · exact h1.trans (by rw [e1])
    · rcases List.mem_cons.mp hq with rfl | hq
      · refine (h3 ⟨k, index, q.sub⟩ hn.1).trans ?_
        simp only [s1, hy]
        exact setParam_raw _ _ _ _ _ hi (hx q (by simp))
      · exact h2 q hq y hy
    · rw [List.map_cons, List.mem_cons, not_or] at hk
      refine (h3 key hk.2).trans ?_
      simp only [s1]; split
      · exact setParam_other _ _ _ _ _ _ hi (by intro e; rw [e] at hk; exact hk.1 rfl)
      · rfl

theorem rwc_facts (i : Nat) (h : i ∈ [0x2000, 0x2400, 0x3800, 0x4000, 0x5810, 0x6800]) : ((rwcOf i).map (·.sub)).Nodup ∧ ∀ q ∈ rwcOf i, q.next = false := by
  have key : ∀ l : List Param, ∀ subs : List Nat, l.map (·.sub) = subs → l.map (·.next) = List.replicate l.length false → subs.Nodup → (l.map (·.sub)).Nodup ∧ ∀ q ∈ l, q.next = false := by
    intro l subs h1 h2 h3
    refine ⟨h1 ▸ h3, fun q hq => ?_⟩
    have : q.next ∈ l.map (·.next) := List.mem_map.mpr ⟨q, hq, rfl⟩
    rw [h2] at this; exact (List.mem_replicate.mp this).2
  simp only [List.mem_cons, List.not_mem_nil, or_false] at h
  rcases h with rfl | rfl | rfl | rfl | rfl | rfl
  · exact key _ [1, 2, 3] rfl rfl (by decide)
  · exact key _ [2] rfl rfl (by decide)
  · exact key _ [1, 2, 3, 4] rfl rfl (by decide)
  · exact key _ [10, 11] rfl rfl (by decide)
  · exact key _ [1, 2] rfl rfl (by decide)
  · exact key _ [3, 4] rfl rfl (by decide)

theorem commit_any (s : State) (x : PendCommit) (hi : x.index ∈ [0x2000, 0x2400, 0x3800, 0x4000, 0x5810, 0x6800]) : ∃ d, s.setCommit x = { s with dict := d } := by
  have hi' : x.index ∉ [0x4800, 0x6000, 0x5820, 0xC100, 0x8000, 0xA000] := by
    simp only [List.mem_cons, List.not_mem_nil, or_false, not_or] at hi ⊢; omega
  obtain ⟨n1, n2⟩ := rwc_facts x.index hi
  unfold State.setCommit
  have : ∀ (l : List (Nat × List (Nat × List Byte))) (s : State), ∃ d, l.foldl (fun s u => (rwcOf x.index).foldl (fun s p =>
    match u.2.find? (fun y => decide (y.1 = p.sub)) with
    | some y => s.setParam x.index p u.1 y.2
    | none => s) s) s = { s with dict := d } := by
    intro l
    induction l with
    | nil => intro s; exact ⟨s.dict, rfl⟩
    | cons a l ih =>
      intro s
      obtain ⟨⟨d, h⟩, -⟩ := commit_params x.index a.1 a.2 hi' (rwcOf x.index) s n1 n2
      rw [List.foldl_cons]
      obtain ⟨d', h'⟩ := ih ({ s with dict := d })
      refine ⟨d', Eq.trans ?_ h'⟩
      exact congrArg (fun z => List.foldl _ z l) h
  exact this x.vals s

theorem setRole_eq (s : State) (w role) : s.setRole w role = (UA.key w :: UA.below w).foldl (fun s k => s.modUnit k (fun v => { v with role := role, epoch := v.epoch + 1 })) s := rfl

theorem announce_units (q : State) (w : UnitAddr) : (if UA.depth w = 0 then { q with net := q.net.announce } else q).units = q.units := by
  split <;> rfl

theorem commit_at (t0 : State) (x : PendCommit) (o : Option (Nat × List Byte)) (hi : x.index = 0x6800) (ho : (x.vals.flatMap (·.2)).find? (fun y => decide (y.1 = 0x03)) = o) :
    ∃ q : State, q = (t0.setCommit x).setRole (UA.mk t0.net.devId x.unit) (BitVec.ofNat 8 (o.elim 0 (fun y => ofBytesLE y.2))) ∧
      t0.applyCommit x = if UA.depth (UA.mk t0.net.devId x.unit) = 0 then { q with net := q.net.announce } else q := by
  subst ho
  exact ⟨_, rfl, if_pos hi⟩

theorem commit_role (t0 : State) (x : PendCommit) (y : Nat × List Byte) (hi : x.index = 0x6800) (hy : (x.vals.flatMap (·.2)).find? (fun y => decide (y.1 = 0x03)) = some y) :
    ∃ q : State, q = (t0.setCommit x).setRole (UA.mk t0.net.devId x.unit) (BitVec.ofNat 8 (ofBytesLE y.2)) ∧ (t0.applyCommit x).units = q.units := by
  obtain ⟨q, h1, h2⟩ := commit_at t0 x (some y) hi hy
  exact ⟨q, h1, by rw [h2]; exact announce_units q _⟩

theorem finish_some (s : State) (r p k) (t) : s.finishWrite r p k (some t) = t.done r p k := rfl

theorem finish_none (s : State) (r p k) : s.finishWrite r p k none = s.refuse r (some p) dsRange := rfl

theorem rel_mem (s : State) (n : Nat) (h : n ∈ s.mem.lost) : (s.releaseLost n).mem.lost = s.mem.lost.erase n ∧
    (SMap.getD (s.releaseLost n).mem.tags n 0).getLsbD 0 = true := by
  unfold State.releaseLost
  rw [if_neg (by simpa using h)]
  refine ⟨rfl, ?_⟩
  show (SMap.getD (SMap.put s.mem.tags n (SMap.getD s.mem.tags n 0 ||| 1) 0) n 0).getLsbD 0 = true
  rw [SMap.getD_put, if_pos rfl]
  simp

theorem startSave_rest (s : State) : s.startSave.cells = s.cells ∧ s.startSave.dict.params = s.dict.params ∧ s.startSave.dict.image = s.dict.image ∧
    s.startSave.dict.saving.isSome = true := by
  unfold State.startSave
  split
  · rename_i h; exact ⟨rfl, rfl, rfl, h⟩
  · simp only []; split <;> (refine ⟨?_, ?_, ?_, ?_⟩ <;> first | rfl | trivial)

theorem moveGrant_app (m : MemSys) (b u m') (h : m.moveGrant b u = some m') : m'.appBase = b ∧ m'.appUnits = u := by
  unfold MemSys.moveGrant at h
  split at h
  · cases h
  · simp only [Option.some.injEq] at h; subst h; exact ⟨rfl, rfl⟩

theorem takenq (s : State) : (taken s).saveDue = s.saveDue := rfl

theorem links_self (n : Net) (l : Nat) (k : Link) : (n.setLink l k).link l = k := SMap.getD_set_self _ _ _ _

theorem whole_eq (s : State) (r p k n t) (h0 : r.offset = 0) (hl : r.length = n) : s.whole r p k n t = s.finishWrite r p k t := by
  unfold State.whole; rw [if_pos ⟨h0, hl⟩]

theorem bitOr (b : BitVec 4) : (b ||| 0b1000).getLsbD 3 = true := by
  rw [BitVec.getLsbD_or, show (0b1000 : BitVec 4).getLsbD 3 = true from rfl, Bool.or_true]

theorem extend_mr (x : Sec) (i ev d) : (x.extend i ev d).mr i = shake256 (x.mr i ++ d) 64 ∧ (∀ k, k ≠ i → (x.extend i ev d).mr k = x.mr k) := by
  unfold Sec.extend Sec.mr; simp only []
  constructor
  · split <;> exact SMap.getD_set_self _ _ _ _
  · intro k hk; split <;> (rw [SMap.getD_set, if_neg (Ne.symm hk)])

theorem extend_log (x : Sec) (i ev d) : (x.log.length < 4096 → (x.extend i ev d).log = x.log ++ [⟨BitVec.ofNat 8 i, BitVec.ofNat 8 ev, d⟩]) ∧
    (4096 ≤ x.log.length → (x.extend i ev d).log = x.log ∧ (x.extend i ev d).logFull = true) := by
  unfold Sec.extend; simp only []
  refine ⟨fun h => ?_, fun h => ?_⟩
  · rw [if_pos h]
  · rw [if_neg (by omega)]; exact ⟨rfl, rfl⟩

theorem keepA (x : Sec) (i : SlotImage) (ok) : (x.slotWritten i ok).fwState = (if ok then 3 else 4) ∧ (x.slotWritten i ok).bootSlot = x.bootSlot ∧
   (x.keeps.1 = 0 → (x.slotWritten i ok).slotB = (if ok then some i else none) ∧ (x.slotWritten i ok).slotA = x.slotA) ∧
   (x.keeps.1 ≠ 0 → (x.slotWritten i ok).slotA = (if ok then some i else none) ∧ (x.slotWritten i ok).slotB = x.slotB) := by
  unfold Sec.slotWritten; simp only []
  by_cases h : x.keeps.1 = 0
  · rw [if_pos h]; exact ⟨rfl, rfl, fun _ => ⟨rfl, rfl⟩, fun q => absurd h q⟩
  · rw [if_neg h]; exact ⟨rfl, rfl, fun q => absurd q h, fun _ => ⟨rfl, rfl⟩⟩

theorem key_set (x : Sec) (k : Nat) (v) : (∀ j, j ≠ k → SMap.getD (SMap.set x.keys k v) j 0 = x.key j) ∧ SMap.getD (SMap.set x.keys k v) k 0 = v := by
  refine ⟨fun j h => ?_, SMap.getD_set_self _ _ _ _⟩
  rw [SMap.getD_set, if_neg (Ne.symm h)]; rfl

end Sys2Proof.Laws.ServiceLaws
end

