-- ==== Sys2Proof/Laws/StepLaws.lean ====
section
/-! SUPPORT. Lemmas about a whole step. -/

namespace Sys2Proof.Laws.StepLaws

set_option linter.all false

open Sys2Proof Sys2Proof.Machine Sys2Proof.Claims

set_option maxHeartbeats 4000000 in
theorem x_kept (C : Instr) (S T : State) (H : exec C S = .next T) : T.kept = S.kept ∨ C ∈ [.keyRevoke, .fwStage, .fwCommit, .fwDiscard, .mrExtend, .quoteNonce, .quoteSigned, .akCertSigned, .dbgChallenge, .dbgResponse, .inputUnderVoltage, .inputOverVoltage, .pwrEnHigh, .pwrEnLow, .modResetAssert, .inputRestored] ∨ (∃ i, C = .thermalTrip i) ∨ (∃ i, C = .railFault i) ∨ (∃ b, C = .fwSlotWriteComplete b) ∨ (∃ b, C = .bootRun b) := by
  cases C with
  | runCmd c => exact Or.inl (execRunCmd_kept c S T H)
  | imageCmd c => exact Or.inl (execImageCmd_kept c S T H)
  | imageItem c => exact Or.inl (execImageItem_kept c S T H)
  | windowOpenCmd u => exact Or.inl (execWindowOpenCmd_kept u S T H)
  | windowCloseCmd u => exact Or.inl (execWindowCloseCmd_kept u S T H)
  | scrubCmd c => exact Or.inl (execScrubCmd_kept c S T H)
  | cutCmd m => exact Or.inl (execCutCmd_kept m S T H)
  | killCmd m => exact Or.inl (execKillCmd_kept m S T H)
  | cmdDispatch c => exact Or.inl (execCmdDispatch_kept c S T H)
  | commandComplete c => exact Or.inl (execCommandComplete_kept c S T H)
  | carcaseCommandComplete u tag => exact Or.inl (execCarcaseCommandComplete_kept u tag S T H)
  | scrubEnd c => exact Or.inl (execScrubEnd_kept c S T H)
  | li c f => exact Or.inl (execLi_kept c f S T H)
  | lih c f => exact Or.inl (execLih_kept c f S T H)
  | addI c f => exact Or.inl (execAddI_kept c f S T H)
  | subI c f => exact Or.inl (execSubI_kept c f S T H)
  | andI c f => exact Or.inl (execAndI_kept c f S T H)
  | orI c f => exact Or.inl (execOrI_kept c f S T H)
  | xorI c f => exact Or.inl (execXorI_kept c f S T H)
  | shl c f => exact Or.inl (execShl_kept c f S T H)
  | shr c f => exact Or.inl (execShr_kept c f S T H)
  | sra c f => exact Or.inl (execSra_kept c f S T H)
  | mulI c f => exact Or.inl (execMulI_kept c f S T H)
  | ld1 c f e => exact Or.inl (execLd1_kept c f e S T H)
  | ld2 c f e => exact Or.inl (execLd2_kept c f e S T H)
  | ld4 c f e => exact Or.inl (execLd4_kept c f e S T H)
  | ld8 c f e => exact Or.inl (execLd8_kept c f e S T H)
  | st1 c f e => exact Or.inl (execSt1_kept c f e S T H)
  | st2 c f e => exact Or.inl (execSt2_kept c f e S T H)
  | st4 c f e => exact Or.inl (execSt4_kept c f e S T H)
  | st8 c f => exact Or.inl (execSt8_kept c f S T H)
  | beq c f => exact Or.inl (execBeq_kept c f S T H)
  | bne c f => exact Or.inl (execBne_kept c f S T H)
  | blt c f => exact Or.inl (execBlt_kept c f S T H)
  | bge c f => exact Or.inl (execBge_kept c f S T H)
  | bltu c f => exact Or.inl (execBltu_kept c f S T H)
  | bgeu c f => exact Or.inl (execBgeu_kept c f S T H)
  | jal c f => exact Or.inl (execJal_kept c f S T H)
  | jr c f => exact Or.inl (execJr_kept c f S T H)
  | rdrand c f => exact Or.inl (execRdrand_kept c f S T H)
  | timeRd c f => exact Or.inl (execTimeRd_kept c f S T H)
  | fenceI c f => exact Or.inl (execFenceI_kept c f S T H)
  | endRun c f => exact Or.inl (execEndRun_kept c f S T H)
  | illegalOpcode c opc f => exact Or.inl (execIllegalOpcode_kept c opc f S T H)
  | fetch c f e => exact Or.inl (execFetch_kept c f e S T H)
  | joinedFetchArrival c e => exact Or.inl (execJoinedFetchArrival_kept c e S T H)
  | entryrd c f => exact Or.inl (execEntryrd_kept c f S T H)
  | storeG c f => exact Or.inl (execStoreG_kept c f S T H)
  | groupFree dix => exact Or.inl (execGroupFree_kept dix S T H)
  | storageRelease base => exact Or.inl (execStorageRelease_kept base S T H)
  | gatherColumn c f e => exact Or.inl (execGatherColumn_kept c f e S T H)
  | gatherRow c f e => exact Or.inl (execGatherRow_kept c f e S T H)
  | selectN c f => exact Or.inl (execSelectN_kept c f S T H)
  | auditN c f => exact Or.inl (execAuditN_kept c f S T H)
  | arrayI c f => exact Or.inl (execArrayI_kept c f S T H)
  | arrayBeat c unsupplied behind e x => exact Or.inl (execArrayBeat_kept c unsupplied behind e x S T H)
  | treeEmptyToken c t => exact Or.inl (execTreeEmptyToken_kept c t S T H)
  | tileCheckpoint c t x => exact Or.inl (execTileCheckpoint_kept c t x S T H)
  | loadT c f => exact Or.inl (execLoadT_kept c f S T H)
  | loadComplete c t => exact Or.inl (execLoadComplete_kept c t S T H)
  | drainRq c f => exact Or.inl (execDrainRq_kept c f S T H)
  | drainWide c f => exact Or.inl (execDrainWide_kept c f S T H)
  | drainChain c f => exact Or.inl (execDrainChain_kept c f S T H)
  | drainSab c f => exact Or.inl (execDrainSab_kept c f S T H)
  | drainRow c t x => exact Or.inl (execDrainRow_kept c t x S T H)
  | sabItemApply c bank x => exact Or.inl (execSabItemApply_kept c bank x S T H)
  | rangeReset c f => exact Or.inl (execRangeReset_kept c f S T H)
  | requant c f => exact Or.inl (execRequant_kept c f S T H)
  | rangeRequant c f => exact Or.inl (execRangeRequant_kept c f S T H)
  | dequant c f => exact Or.inl (execDequant_kept c f S T H)
  | quant c f => exact Or.inl (execQuant_kept c f S T H)
  | rangeF32 c f => exact Or.inl (execRangeF32_kept c f S T H)
  | sabout c f => exact Or.inl (execSabout_kept c f S T H)
  | rangeout c f => exact Or.inl (execRangeout_kept c f S T H)
  | rangemerge c f => exact Or.inl (execRangemerge_kept c f S T H)
  | scaleRq c f => exact Or.inl (execScaleRq_kept c f S T H)
  | ledgerW c f => exact Or.inl (execLedgerW_kept c f S T H)
  | cvt c f => exact Or.inl (execCvt_kept c f S T H)
  | lfuMul c f => exact Or.inl (execLfuMul_kept c f S T H)
  | expF c f => exact Or.inl (execExpF_kept c f S T H)
  | logF c f => exact Or.inl (execLogF_kept c f S T H)
  | recip c f => exact Or.inl (execRecip_kept c f S T H)
  | rsqrt c f => exact Or.inl (execRsqrt_kept c f S T H)
  | softmax c f => exact Or.inl (execSoftmax_kept c f S T H)
  | gelu c f => exact Or.inl (execGelu_kept c f S T H)
  | silu c f => exact Or.inl (execSilu_kept c f S T H)
  | normF c f => exact Or.inl (execNormF_kept c f S T H)
  | wopen c f => exact Or.inl (execWopen_kept c f S T H)
  | deferredWindowOpen u w => exact Or.inl (execDeferredWindowOpen_kept u w S T H)
  | wclose c f => exact Or.inl (execWclose_kept c f S T H)
  | syncOp c f => exact Or.inl (execSyncOp_kept c f S T H)
  | qread c f => exact Or.inl (execQread_kept c f S T H)
  | qflush c f => exact Or.inl (execQflush_kept c f S T H)
  | queueFlushComplete q => exact Or.inl (execQueueFlushComplete_kept q S T H)
  | sendW c f => exact Or.inl (execSendW_kept c f S T H)
  | unitOperationComplete c k again => exact Or.inl (execUnitOperationComplete_kept c k again S T H)
  | stallRelease c => exact Or.inl (execStallRelease_kept c S T H)
  | seqWdog c => exact Or.inl (execSeqWdog_kept c S T H)
  | commandArrival m => exact Or.inl (execCommandArrival_kept m S T H)
  | roleSet m => exact Or.inl (execRoleSet_kept m S T H)
  | windowWrite m => exact Or.inl (execWindowWrite_kept m S T H)
  | windowWriteLanded u w => exact Or.inl (execWindowWriteLanded_kept u w S T H)
  | chainSum m => exact Or.inl (execChainSum_kept m S T H)
  | chainInletAccept c t => exact Or.inl (execChainInletAccept_kept c t S T H)
  | blockFetch m e => exact Or.inl (execBlockFetch_kept m e S T H)
  | replyArrival m => exact Or.inl (execReplyArrival_kept m S T H)
  | bounceArrival m => exact Or.inl (execBounceArrival_kept m S T H)
  | queueEnqueueResume q => exact Or.inl (execQueueEnqueueResume_kept q S T H)
  | queueTail q => exact Or.inl (execQueueTail_kept q S T H)
  | syncRead m => exact Or.inl (execSyncRead_kept m S T H)
  | syncInit m => exact Or.inl (execSyncInit_kept m S T H)
  | syncAdd m => exact Or.inl (execSyncAdd_kept m S T H)
  | syncWaitGe m => exact Or.inl (execSyncWaitGe_kept m S T H)
  | syncArrive m => exact Or.inl (execSyncArrive_kept m S T H)
  | syncArriveWait m => exact Or.inl (execSyncArriveWait_kept m S T H)
  | syncWaitGen m => exact Or.inl (execSyncWaitGen_kept m S T H)
  | syncSet m => exact Or.inl (execSyncSet_kept m S T H)
  | syncClear m => exact Or.inl (execSyncClear_kept m S T H)
  | syncWaitSet m => exact Or.inl (execSyncWaitSet_kept m S T H)
  | syncWaitClear m => exact Or.inl (execSyncWaitClear_kept m S T H)
  | spillAlloc m => exact Or.inl (execSpillAlloc_kept m S T H)
  | spillFree m => exact Or.inl (execSpillFree_kept m S T H)
  | spillWrite m => exact Or.inl (execSpillWrite_kept m S T H)
  | spillRead m => exact Or.inl (execSpillRead_kept m S T H)
  | spareSubstitution c => exact Or.inl (execSpareSubstitution_kept c S T H)
  | retirementRequest c => exact Or.inl (execRetirementRequest_kept c S T H)
  | hostingStart c => exact Or.inl (execHostingStart_kept c S T H)
  | hostContextSwitch c => exact Or.inl (execHostContextSwitch_kept c S T H)
  | ceLimitReached c row => exact Or.inl (execCeLimitReached_kept c row S T H)
  | fieldRemap c row => exact Or.inl (execFieldRemap_kept c row S T H)
  | patrol unit e => exact Or.inl (execPatrol_kept unit e S T H)
  | ucieLaneRepair die mod lanes repaired => exact Or.inl (execUcieLaneRepair_kept die mod lanes repaired S T H)
  | jobEntry st entry prectab => exact Or.inl (execJobEntry_kept st entry prectab S T H)
  | jobStart job => exact Or.inl (execJobStart_kept job S T H)
  | budgetExpiry job => exact Or.inl (execBudgetExpiry_kept job S T H)
  | jobEnd job => exact Or.inl (execJobEnd_kept job S T H)
  | jobFailure job layer code => exact Or.inl (execJobFailure_kept job layer code S T H)
  | completionEntryWrite st => exact Or.inl (execCompletionEntryWrite_kept st S T H)
  | killEntry st entry => exact Or.inl (execKillEntry_kept st entry S T H)
  | cutEntry st entry => exact Or.inl (execCutEntry_kept st entry S T H)
  | registerEntry st entry graph tensors layers room => exact Or.inl (execRegisterEntry_kept st entry graph tensors layers room S T H)
  | releaseEntry st entry => exact Or.inl (execReleaseEntry_kept st entry S T H)
  | deltaLayerBegin job layer => exact Or.inl (execDeltaLayerBegin_kept job layer S T H)
  | layerComplete job layer code record carried ledgers => exact Or.inl (execLayerComplete_kept job layer code record carried ledgers S T H)
  | evcSendGo h addr count items w1c => exact Or.inl (execEvcSendGo_kept h addr count items w1c S T H)
  | evcHiqPop h => exact Or.inl (execEvcHiqPop_kept h S T H)
  | evcClaim h => exact Or.inl (execEvcClaim_kept h S T H)
  | evcComplete h id w1c => exact Or.inl (execEvcComplete_kept h id w1c S T H)
  | evcSrcWrite n v => exact Or.inl (execEvcSrcWrite_kept n v S T H)
  | evcSgrpWrite g v => exact Or.inl (execEvcSgrpWrite_kept g v S T H)
  | evcThreshWrite h v => exact Or.inl (execEvcThreshWrite_kept h v S T H)
  | evcHartCtlWrite h v => exact Or.inl (execEvcHartCtlWrite_kept h v S T H)
  | evcSmaskWrite g v => exact Or.inl (execEvcSmaskWrite_kept g v S T H)
  | evcSpendRead g => exact Or.inl (execEvcSpendRead_kept g S T H)
  | evcSwfire v => exact Or.inl (execEvcSwfire_kept v S T H)
  | evcMsixSend v => exact Or.inl (execEvcMsixSend_kept v S T H)
  | sourceFire id => exact Or.inl (execSourceFire_kept id S T H)
  | statusSourceFire n => exact Or.inl (execStatusSourceFire_kept n S T H)
  | timerFire t armed => exact Or.inl (execTimerFire_kept t armed S T H)
  | workstationWindowAccess h base w1c a => exact Or.inl (execWorkstationWindowAccess_kept h base w1c a S T H)
  | sqTail st v w1c => exact Or.inl (execSqTail_kept st v w1c S T H)
  | cqHead st v => exact Or.inl (execCqHead_kept st v S T H)
  | streamReset st w => exact Or.inl (execStreamReset_kept st w S T H)
  | cqPublish st v => exact Or.inl (execCqPublish_kept st v S T H)
  | coalesceTimeout st => exact Or.inl (execCoalesceTimeout_kept st S T H)
  | busMasterEnableChange v => exact Or.inl (execBusMasterEnableChange_kept v S T H)
  | functionLevelReset => exact Or.inl (execFunctionLevelReset_kept S T H)
  | mbGo p w => exact Or.inl (execMbGo_kept p w S T H)
  | dictionaryRead => exact Or.inl (execDictionaryRead_kept S T H)
  | dictionaryWrite => exact Or.inl (execDictionaryWrite_kept S T H)
  | rwcStageWrite => exact Or.inl (execRwcStageWrite_kept S T H)
  | commitGroup => exact Or.inl (execCommitGroup_kept S T H)
  | commitDiscard => exact Or.inl (execCommitDiscard_kept S T H)
  | commitApply u index => exact Or.inl (execCommitApply_kept u index S T H)
  | chamoisDatagram d => exact Or.inl (execChamoisDatagram_kept d S T H)
  | solicit d => exact Or.inl (execSolicit_kept d S T H)
  | announceDelayExpiry => exact Or.inl (execAnnounceDelayExpiry_kept S T H)
  | dadComplete duplicate => exact Or.inl (execDadComplete_kept duplicate S T H)
  | neighborSolicitation d target => exact Or.inl (execNeighborSolicitation_kept d target S T H)
  | echoRequest d => exact Or.inl (execEchoRequest_kept d S T H)
  | saveStore => exact Or.inl (execSaveStore_kept S T H)
  | saveDelayExpiry => exact Or.inl (execSaveDelayExpiry_kept S T H)
  | storeSaveComplete ok => exact Or.inl (execStoreSaveComplete_kept ok S T H)
  | restoreStore => exact Or.inl (execRestoreStore_kept S T H)
  | snapGoStart => exact Or.inl (execSnapGoStart_kept S T H)
  | snapGoAbandon => exact Or.inl (execSnapGoAbandon_kept S T H)
  | waveArrival u ch w => exact Or.inl (execWaveArrival_kept u ch w S T H)
  | snapshotReport m => exact Or.inl (execSnapshotReport_kept m S T H)
  | fabricFreezeRequest => exact Or.inl (execFabricFreezeRequest_kept S T H)
  | fabricFreezeEnd => exact Or.inl (execFabricFreezeEnd_kept S T H)
  | freezeReached => exact Or.inl (execFreezeReached_kept S T H)
  | dbgDataRead => exact Or.inl (execDbgDataRead_kept S T H)
  | holdPurge => exact Or.inl (execHoldPurge_kept S T H)
  | retrain => exact Or.inl (execRetrain_kept S T H)
  | routesWrite => exact Or.inl (execRoutesWrite_kept S T H)
  | appGrantWrite => exact Or.inl (execAppGrantWrite_kept S T H)
  | lostRelease => exact Or.inl (execLostRelease_kept S T H)
  | devIdApply => exact Or.inl (execDevIdApply_kept S T H)
  | keyRevoke => right; left; simp
  | fwStage => right; left; simp
  | fwCommit => right; left; simp
  | fwDiscard => right; left; simp
  | mrExtend => right; left; simp
  | quoteNonce => right; left; simp
  | quoteSigned => right; left; simp
  | akCertSigned => right; left; simp
  | dbgChallenge => right; left; simp
  | dbgResponse => right; left; simp
  | dataFlit l bytes => exact Or.inl (execDataFlit_kept l bytes S T H)
  | abortFlit l bytes => exact Or.inl (execAbortFlit_kept l bytes S T H)
  | idleFlit l bytes => exact Or.inl (execIdleFlit_kept l bytes S T H)
  | helloFlit l bytes => exact Or.inl (execHelloFlit_kept l bytes S T H)
  | degradeFlit l bytes => exact Or.inl (execDegradeFlit_kept l bytes S T H)
  | ethFrame l frame fcsOk => exact Or.inl (execEthFrame_kept l frame fcsOk S T H)
  | replayTimeout l => exact Or.inl (execReplayTimeout_kept l S T H)
  | helloSend l => exact Or.inl (execHelloSend_kept l S T H)
  | helloTimeout l => exact Or.inl (execHelloTimeout_kept l S T H)
  | flitLockLost l => exact Or.inl (execFlitLockLost_kept l S T H)
  | flitLockAcquired l => exact Or.inl (execFlitLockAcquired_kept l S T H)
  | laneDegrade l lanes errors => exact Or.inl (execLaneDegrade_kept l lanes errors S T H)
  | linkRetrainComplete l ok => exact Or.inl (execLinkRetrainComplete_kept l ok S T H)
  | packetForward l vc => exact Or.inl (execPacketForward_kept l vc S T H)
  | heldPacketRelease dest => exact Or.inl (execHeldPacketRelease_kept dest S T H)
  | arrivalBufferDeliver die => exact Or.inl (execArrivalBufferDeliver_kept die S T H)
  | cableChange port cable => exact Or.inl (execCableChange_kept port cable S T H)
  | powerControlStep inputW => exact Or.inl (execPowerControlStep_kept inputW S T H)
  | thermalSample die tj => exact Or.inl (execThermalSample_kept die tj S T H)
  | thermalTrip die => right; right; simp
  | vcoreUnderVoltage die => exact Or.inl (execVcoreUnderVoltage_kept die S T H)
  | vcoreRecovery die => exact Or.inl (execVcoreRecovery_kept die S T H)
  | inputUnderVoltage => right; left; simp
  | inputOverVoltage => right; left; simp
  | pwrEnHigh => right; left; simp
  | pwrEnLow => right; left; simp
  | modResetAssert => right; left; simp
  | internalResetRelease recoveryN sris t1sTerm => exact Or.inl (execInternalResetRelease_kept recoveryN sris t1sTerm S T H)
  | bootRun b => right; right; simp
  | perstAssert => exact Or.inl (execPerstAssert_kept S T H)
  | perstDeassert => exact Or.inl (execPerstDeassert_kept S T H)
  | freezeNAssert => exact Or.inl (execFreezeNAssert_kept S T H)
  | freezeNDeassert => exact Or.inl (execFreezeNDeassert_kept S T H)
  | tapReset => exact Or.inl (execTapReset_kept S T H)
  | bypassTap tap opc => exact Or.inl (execBypassTap_kept tap opc S T H)
  | idcodeTap tap => exact Or.inl (execIdcodeTap_kept tap S T H)
  | samplePreload tap boundary => exact Or.inl (execSamplePreload_kept tap boundary S T H)
  | extest tap => exact Or.inl (execExtest_kept tap S T H)
  | clampTap tap => exact Or.inl (execClampTap_kept tap S T H)
  | highzTap tap => exact Or.inl (execHighzTap_kept tap S T H)
  | extestPulse tap => exact Or.inl (execExtestPulse_kept tap S T H)
  | extestTrain tap => exact Or.inl (execExtestTrain_kept tap S T H)
  | frzStatus tap => exact Or.inl (execFrzStatus_kept tap S T H)
  | dbgAccess tap dr => exact Or.inl (execDbgAccess_kept tap dr S T H)
  | inputRestored => right; left; simp
  | railFault rail => right; right; simp
  | pcieLinkEvent e => exact Or.inl (execPcieLinkEvent_kept e S T H)
  | msixVectorUnmask v => exact Or.inl (execMsixVectorUnmask_kept v S T H)
  | linkModeWrite => exact Or.inl (execLinkModeWrite_kept S T H)
  | fwSlotWriteComplete readback => right; right; simp

theorem never (c : Instr) (s : State) : ∃ t, exec c s = .next t := by
  cases c <;> exact ⟨_, rfl⟩

theorem kept_parts {s t : State} (h : t.kept = s.kept) : t.pending = s.pending ∧ t.sec = s.sec ∧ t.dbg.auth = s.dbg.auth := by
  unfold State.kept at h; simp only [Prod.mk.injEq] at h; exact ⟨h.1, h.2.1, h.2.2.1⟩

/-- What one of the other commands may do to fuses, log and debug authorisation. -/
def Sound (s t : State) : Prop :=
  t.pending = s.pending ∧ s.sec.svnMin ≤ t.sec.svnMin ∧ (∀ k i, (s.sec.key k).getLsbD i = true → (t.sec.key k).getLsbD i = true) ∧
  (s.sec.log.length ≤ 4096 → t.sec.log.length ≤ 4096) ∧
  ((s.dbg.auth = true → t.dbg.auth = true) ∨ (t.units = [] ∧ t.sync = [] ∧ t.timeHost = 0))

theorem sound_refl (s : State) : Sound s s := ⟨rfl, le_refl _, fun _ _ h => h, fun h => h, Or.inl id⟩

theorem sound_same {s t : State} (h1 : t.pending = s.pending) (h2 : t.sec = s.sec) (h3 : t.dbg.auth = s.dbg.auth) : Sound s t := by
  refine ⟨h1, ?_, ?_, ?_, ?_⟩
  · rw [h2]
  · rw [h2]; exact fun _ _ h => h
  · rw [h2]; exact id
  · rw [h3]; exact Or.inl id

theorem sound_sec {s t : State} (h1 : t.pending = s.pending) (h2 : s.sec.svnMin = t.sec.svnMin) (h3 : t.sec.keys = s.sec.keys) (h4 : s.sec.log.length ≤ 4096 → t.sec.log.length ≤ 4096) (h5 : s.dbg.auth = true → t.dbg.auth = true) : Sound s t := by
  refine ⟨h1, h2 ▸ le_refl _, ?_, h4, Or.inl h5⟩
  intro k i h; unfold Sec.key at h ⊢; rw [h3]; exact h

theorem sound_cold (s : State) : Sound s s.coldReset := ⟨rfl, le_refl _, fun _ _ h => h, fun _ => (by show 0 ≤ 4096; omega), Or.inr ⟨rfl, rfl, rfl⟩⟩

theorem sound_cold' {s t : State} (f : Power → Power) (h : t = s.coldReset.modPwr f) : Sound s t := by
  subst h; exact ⟨rfl, le_refl _, fun _ _ h => h, fun _ => (by show 0 ≤ 4096; omega), Or.inr ⟨rfl, rfl, rfl⟩⟩

theorem sound_off (s z : State) (c) (hp : z.pending = s.pending) (hs : z.sec = s.sec) (hd : z.dbg = s.dbg) : Sound s (z.powerOff c) := by
  unfold State.powerOff; split
  · exact ⟨hp, le_of_eq (by rw [← hs]; rfl), fun k i h => by rw [← hs] at h; exact h, fun _ => (by show 0 ≤ 4096; omega), Or.inr ⟨rfl, rfl, rfl⟩⟩
  · exact sound_same hp hs (by rw [hd])

theorem sound_up (s z : State) (hp : z.pending = s.pending) (hs : z.sec = s.sec) (hd : z.dbg = s.dbg) : Sound s z.powerUp := by
  unfold State.powerUp; split
  · exact ⟨hp, le_of_eq (by rw [← hs]; rfl), fun k i h => by rw [← hs] at h; exact h, fun _ => (by show 0 ≤ 4096; omega), Or.inr ⟨rfl, rfl, rfl⟩⟩
  · exact sound_same hp hs (by rw [hd])

theorem ans_same (u : State) (r st ty tot data) : (u.answer r st ty tot data).pending = u.pending ∧ (u.answer r st ty tot data).sec = u.sec ∧ (u.answer r st ty tot data).dbg = u.dbg := by
  rw [(answers_self u r st ty tot data).2]; exact ⟨rfl, rfl, rfl⟩

theorem refuse_same (u : State) (r p st) : (u.refuse r p st).pending = u.pending ∧ (u.refuse r p st).sec = u.sec ∧ (u.refuse r p st).dbg = u.dbg := by
  unfold State.refuse; split
  · exact ans_same _ _ _ _ _ _
  · have := ans_same u.useFree r st (u.freshWord.toNat % 256) 0 []
    exact ⟨this.1, this.2.1, this.2.2⟩

theorem sound_to {s u v : State} (h : Sound s u) (h1 : v.pending = u.pending) (h2 : v.sec = u.sec) (h3 : v.dbg = u.dbg) (h4 : v.timeHost = u.timeHost) (h5 : v.units = u.units) (h6 : v.mem = u.mem) (h7 : v.sync = u.sync) : Sound s v := by
  unfold Sound at *
  rw [h1, h2, h3, h4, h5, h7]; exact h

theorem sound_ans {s u : State} (h : Sound s u) (r st ty tot data) : Sound s (u.answer r st ty tot data) := by
  rw [(answers_self u r st ty tot data).2]; exact h

theorem sound_done {s u : State} (h : Sound s u) (r p n) : Sound s (u.done r p n) := sound_ans h _ _ _ _ _

theorem sound_refuse {s u : State} (h : Sound s u) (r p st) : Sound s (u.refuse r p st) := by
  unfold State.refuse; split
  · exact sound_ans h _ _ _ _ _
  · exact sound_ans (by exact h) _ _ _ _ _

theorem sound_serve (s : State) (k : ReqKind) (f) (h : ∀ r p n, s.dict.queue.head? = some r → Sound s (f (taken s) r p n)) : Sound s (s.serve k f) := by
  unfold State.serve
  rcases hq : s.headReq k with _ | r
  · exact sound_refl s
  · have hh : s.dict.queue.head? = some r := by
      unfold State.headReq at hq
      split at hq
      · cases hq
      · rename_i x y hxy
        split at hq
        · cases hq; rw [hxy]; rfl
        · cases hq
    have tk : Sound s (taken s) := sound_same rfl rfl rfl
    simp only []
    split
    · exact sound_refuse tk _ _ _
    · split
      · exact sound_done tk _ _ _
      · exact h _ _ _ hh

theorem sound_finish {s u : State} (t : Option State) (hu : Sound s u) (h : ∀ x, t = some x → Sound s x) (r p k) : Sound s (u.finishWrite r p k t) := by
  unfold State.finishWrite; split
  · exact sound_done (h _ rfl) _ _ _
  · exact sound_refuse hu _ _ _

theorem sound_whole {s u : State} (t : Option State) (hu : Sound s u) (h : ∀ x, t = some x → Sound s x) (r p k n) : Sound s (u.whole r p k n t) := by
  unfold State.whole; split
  · exact sound_finish t hu h _ _ _
  · exact sound_refuse hu _ _ _

theorem tk (s : State) : Sound s (taken s) := sound_same rfl rfl rfl

theorem ext_len (x : Sec) (i ev d) (h : x.log.length ≤ 4096) : (x.extend i ev d).log.length ≤ 4096 := by
  unfold Sec.extend; simp only []; split
  · rename_i q; show (x.log ++ _).length ≤ _; rw [List.length_append]; simp; omega
  · exact h

theorem ext_fuse (x : Sec) (i ev d) : (x.extend i ev d).keys = x.keys ∧ (x.extend i ev d).svnMin = x.svnMin := by
  unfold Sec.extend; simp only []; split <;> exact ⟨rfl, rfl⟩

theorem or_bit (a b : BitVec 4) (i) (h : a.getLsbD i = true) : (a ||| b).getLsbD i = true := by rw [BitVec.getLsbD_or, h, Bool.true_or]

theorem s_keyRevoke (s t : State) (h : execKeyRevoke s = .next t) : Sound s t := by
  unfold execKeyRevoke at h; cases h
  refine sound_serve s _ _ (fun r p n _ => sound_finish _ (tk s) (fun x hx => ?_) _ _ _)
  rw [Option.map_eq_some_iff] at hx
  obtain ⟨y, hy, rfl⟩ := hx
  unfold Sec.revoke at hy; simp only [] at hy
  split at hy
  · cases hy
    refine ⟨rfl, le_refl _, ?_, id, Or.inl id⟩
    intro k i hk
    show (SMap.getD (SMap.set s.sec.keys r.num (s.sec.key r.num ||| 0b1000)) k 0).getLsbD i = true
    rw [SMap.getD_set]; split
    · rename_i q; subst q; exact or_bit _ _ _ hk
    · exact hk
  · cases hy

theorem s_fwStage (s t : State) (h : execFwStage s = .next t) : Sound s t := by
  unfold execFwStage at h; cases h
  refine sound_serve s _ _ (fun r p n _ => sound_finish _ (tk s) (fun x hx => ?_) _ _ _)
  rw [Option.map_eq_some_iff] at hx
  obtain ⟨y, hy, rfl⟩ := hx
  unfold Sec.stagePiece at hy
  split at hy
  · cases hy
  · cases hy; exact sound_sec rfl rfl rfl id id

theorem commit_same (x : Sec) : x.commit.keys = x.keys ∧ x.commit.svnMin = x.svnMin ∧ x.commit.log = x.log := by
  unfold Sec.commit; simp only []; split
  · split <;> exact ⟨rfl, rfl, rfl⟩
  · exact ⟨rfl, rfl, rfl⟩

theorem s_fwCommit (s t : State) (h : execFwCommit s = .next t) : Sound s t := by
  unfold execFwCommit at h; cases h
  refine sound_serve s _ _ (fun r p n _ => sound_finish _ (tk s) (fun x hx => ?_) _ _ _)
  split at hx
  · cases hx
    have C := commit_same s.sec
    refine sound_sec rfl C.2.1.symm C.1 (fun q => ?_) id
    show s.sec.commit.log.length ≤ 4096
    rw [C.2.2]; exact q
  · cases hx

theorem s_fwDiscard (s t : State) (h : execFwDiscard s = .next t) : Sound s t := by
  unfold execFwDiscard at h; cases h
  refine sound_serve s _ _ (fun r p n _ => sound_finish _ (tk s) (fun x hx => ?_) _ _ _)
  split at hx
  · cases hx; exact sound_sec rfl rfl rfl id id
  · cases hx

theorem s_mrExtend (s t : State) (h : execMrExtend s = .next t) : Sound s t := by
  unfold execMrExtend at h; cases h
  refine sound_serve s _ _ (fun r p n _ => sound_whole _ (tk s) (fun x hx => ?_) _ _ _ _)
  unfold State.mrExtend at hx; simp only [] at hx
  split at hx
  · cases hx
    have F := ext_fuse s.sec (ofBytesLE (r.value.take 1)) 4 (r.value.drop 1)
    exact sound_sec rfl F.2.symm F.1 (ext_len s.sec _ _ _) id
  · cases hx

theorem nonce_same (x : Sec) (v) : (x.takeNonce v).keys = x.keys ∧ (x.takeNonce v).svnMin = x.svnMin ∧ (x.takeNonce v).log = x.log := by
  unfold Sec.takeNonce; split
  · exact ⟨rfl, rfl, rfl⟩
  · split <;> exact ⟨rfl, rfl, rfl⟩

theorem s_quoteNonce (s t : State) (h : execQuoteNonce s = .next t) : Sound s t := by
  unfold execQuoteNonce at h; cases h
  refine sound_serve s _ _ (fun r p n _ => sound_whole _ (tk s) (fun x hx => ?_) _ _ _ _)
  cases hx
  have C := nonce_same s.sec r.value
  refine sound_sec rfl C.2.1.symm C.1 (fun q => ?_) id
  show (s.sec.takeNonce r.value).log.length ≤ 4096
  rw [C.2.2]; exact q

theorem s_quoteSigned (s t : State) (h : execQuoteSigned s = .next t) : Sound s t := by
  unfold execQuoteSigned at h; cases h
  unfold onlyIf; split
  · unfold State.quoteSigned; simp only []
    refine sound_sec rfl ?_ ?_ ?_ id
    · show s.sec.svnMin = (match s.sec.held with
        | some v => ({ s.sec with quote := s.quote, nonce := v, held := none, quoteState := 1 } : Sec)
        | none => { s.sec with quote := s.quote, quoteState := 2 }).svnMin
      split <;> rfl
    · show (match s.sec.held with
        | some v => ({ s.sec with quote := s.quote, nonce := v, held := none, quoteState := 1 } : Sec)
        | none => { s.sec with quote := s.quote, quoteState := 2 }).keys = _
      split <;> rfl
    · intro q
      show (match s.sec.held with
        | some v => ({ s.sec with quote := s.quote, nonce := v, held := none, quoteState := 1 } : Sec)
        | none => { s.sec with quote := s.quote, quoteState := 2 }).log.length ≤ 4096
      split <;> exact q
  · exact sound_refl s

theorem s_akCertSigned (s t : State) (h : execAkCertSigned s = .next t) : Sound s t := by
  unfold execAkCertSigned at h; cases h
  unfold onlyIf; split
  · exact sound_sec rfl rfl rfl id id
  · exact sound_refl s

theorem s_dbgChallenge (s t : State) (h : execDbgChallenge s = .next t) : Sound s t := by
  unfold execDbgChallenge at h; cases h
  refine sound_serve s _ _ (fun r p n _ => ?_)
  unfold State.challenge; simp only []
  exact sound_ans (sound_sec rfl rfl rfl id id) _ _ _ _ _

theorem sound_unlock (s u : State) (d) (h : u = ({ ((taken s).modSec (fun x => { x with challenge := none })).modSec (·.extend 7 5 d) with dbg := { s.dbg with auth := true, authEver := true } } : State)) : Sound s u := by
  have h1 : u.pending = s.pending ∧ u.sec = ({ s.sec with challenge := none } : Sec).extend 7 5 d ∧ u.dbg.auth = true := by rw [h]; exact ⟨rfl, rfl, rfl⟩
  have F := ext_fuse ({ s.sec with challenge := none } : Sec) 7 5 d
  refine sound_sec h1.1 ?_ ?_ (fun q => ?_) (fun _ => h1.2.2)
  · rw [h1.2.1, F.2]
  · rw [h1.2.1, F.1]
  · rw [h1.2.1]; exact ext_len _ _ _ _ q

theorem s_dbgResponse (s t : State) (h : execDbgResponse s = .next t) : Sound s t := by
  unfold execDbgResponse at h; cases h
  refine sound_serve s _ _ (fun r p n _ => ?_)
  split
  · unfold State.response; simp only []
    split
    · exact sound_done (sound_unlock s _ _ rfl) _ _ _
    · exact sound_refuse (sound_sec rfl rfl rfl id id) _ _ _
  · exact sound_refuse (tk s) _ _ _

theorem s_thermalTrip (d) (s t : State) (h : execThermalTrip d s = .next t) : Sound s t := by
  unfold execThermalTrip at h; cases h
  unfold onlyIf; split
  · exact sound_off s _ 1 rfl rfl rfl
  · exact sound_refl s

theorem s_inputUnderVoltage (s t : State) (h : execInputUnderVoltage s = .next t) : Sound s t := by
  unfold execInputUnderVoltage at h; cases h; exact sound_off s _ 2 rfl rfl rfl

theorem s_inputOverVoltage (s t : State) (h : execInputOverVoltage s = .next t) : Sound s t := by
  unfold execInputOverVoltage at h; cases h; exact sound_off s _ 4 rfl rfl rfl

theorem s_pwrEnLow (s t : State) (h : execPwrEnLow s = .next t) : Sound s t := by
  unfold execPwrEnLow at h; cases h; exact sound_off s _ 0 rfl rfl rfl

theorem s_pwrEnHigh (s t : State) (h : execPwrEnHigh s = .next t) : Sound s t := by
  unfold execPwrEnHigh at h; cases h; exact sound_up s _ rfl rfl rfl

theorem s_inputRestored (s t : State) (h : execInputRestored s = .next t) : Sound s t := by
  unfold execInputRestored at h; cases h
  unfold onlyIf; split
  · exact sound_up s _ rfl rfl rfl
  · exact sound_refl s

theorem s_railFault (r) (s t : State) (h : execRailFault r s = .next t) : Sound s t := by
  unfold execRailFault at h; cases h
  unfold onlyIf; split
  · exact sound_off s _ 3 rfl rfl rfl
  · exact sound_refl s

theorem s_modReset (s t : State) (h : execModResetAssert s = .next t) : Sound s t := by
  unfold execModResetAssert at h; cases h
  split
  · exact sound_cold (s.modPwr (fun p => { p with modResetN := false }))
  · exact sound_same rfl rfl rfl

theorem slot_same (x : Sec) (i ok) : (x.slotWritten i ok).keys = x.keys ∧ (x.slotWritten i ok).svnMin = x.svnMin ∧ (x.slotWritten i ok).log = x.log := by
  unfold Sec.slotWritten; simp only []; split <;> exact ⟨rfl, rfl, rfl⟩

theorem s_slot (b) (s t : State) (h : execFwSlotWriteComplete b s = .next t) : Sound s t := by
  unfold execFwSlotWriteComplete at h; cases h
  unfold onlyIf; split
  · simp only []
    split
    · rename_i i _
      split
      · have C := slot_same s.sec i b
        unfold State.slotWritten; simp only []; split
        · refine ⟨rfl, ?_, ?_, fun _ => (by show 0 ≤ 4096; omega), Or.inr ⟨rfl, rfl, rfl⟩⟩
          · show s.sec.svnMin ≤ (s.sec.slotWritten i b).svnMin
            rw [C.2.1]
          · intro k j hk
            show (SMap.getD (s.sec.slotWritten i b).keys k 0).getLsbD j = true
            rw [C.1]; exact hk
        · refine sound_sec rfl C.2.1.symm C.1 (fun q => ?_) id
          show (s.sec.slotWritten i b).log.length ≤ 4096
          rw [C.2.2]; exact q
      · exact sound_refl s
    · exact sound_refl s
  · exact sound_refl s

def pPart (s : State) := (s.pending, s.sec, s.dbg)

theorem p_startSave (s : State) : pPart s.startSave = pPart s := by
  unfold State.startSave; split
  · rfl
  · simp only []; split <;> rfl

theorem p_saveRecord (s : State) : pPart s.saveRecord = pPart s := by
  unfold State.saveRecord
  rw [p_startSave]; rfl

theorem p_foldl {α : Type} (g : State → α → State) (h : ∀ s a, pPart (g s a) = pPart s) : ∀ (l : List α) (s : State), pPart (l.foldl g s) = pPart s := by
  intro l; induction l with
  | nil => intro s; rfl
  | cons a l ih => intro s; exact (ih _).trans (h _ _)

theorem p_modCells (s : State) (l f) : pPart (s.modCells l f) = pPart s := p_foldl (fun (s : State) i => s.modCell (cellIx i) f) (fun _ _ => rfl) l s

theorem p_place (s : State) (i : Nat) : pPart (s.placeRetired i) = pPart s := by
  unfold State.placeRetired; simp only []
  split
  · rfl
  · split
    · rfl
    · rename_i h _ _
      rcases s.mem.allocMany (h / 256) 1024 (.image i) 42 with _ | m <;> rfl

theorem p_retire (s : State) (b c) : pPart (s.bootRetire b c) = pPart s := by
  unfold State.bootRetire; simp only []
  have H : ∀ (z : State) (l1 l2 l3) f, pPart (List.foldl (fun s (x : Nat × SMap Nat) => s.bootRows (cellIx x.1) x.2) (List.foldl (fun s i => s.placeRetired i) (z.modCells l1 f) l2) l3) = pPart z := fun z l1 l2 l3 f =>
    (p_foldl (fun s (x : Nat × SMap Nat) => s.bootRows (cellIx x.1) x.2) (fun s a => rfl) l3 _).trans ((p_foldl (fun s i => s.placeRetired i) (fun s a => p_place s a) l2 _).trans (p_modCells z l1 f))
  split
  · exact H _ _ _ _ _
  · exact (p_saveRecord _).trans (H _ _ _ _ _)

theorem p_links (s : State) : pPart s.bootLinks = pPart s := rfl

theorem p_of {s t : State} (h : pPart s = pPart t) : s.pending = t.pending ∧ s.sec = t.sec ∧ s.dbg = t.dbg := by
  unfold pPart at h; simp only [Prod.mk.injEq] at h; exact h

theorem sound_trans {s t u : State} (h1 : Sound s t) (h2 : Sound t u) (ha : t.dbg.auth = s.dbg.auth) : Sound s u := by
  refine ⟨h2.1.trans h1.1, h1.2.1.trans h2.2.1, fun k i h => h2.2.2.1 k i (h1.2.2.1 k i h), fun h => h2.2.2.2.1 (h1.2.2.2.1 h), ?_⟩
  rcases h2.2.2.2.2 with h | h
  · left; rw [← ha]; exact h
  · right; exact h

theorem s_rom (s : State) (b) : Sound s (s.bootRom b) ∧ (s.bootRom b).dbg.auth = s.dbg.auth := by
  unfold State.bootRom
  extract_lets f g s1 ch chans m s2
  have K1 := ext_fuse s.sec 1 1 (digest f)
  have K2 := ext_fuse (s.sec.extend 1 1 (digest f)) 2 2 (digest g)
  have h2 : s2.pending = s.pending ∧ s2.sec = (s.sec.extend 1 1 (digest f)).extend 2 2 (digest g) ∧ s2.dbg = s.dbg := ⟨rfl, rfl, rfl⟩
  have S : Sound s s2 := by
    refine sound_sec h2.1 ?_ ?_ (fun q => ?_) (by rw [h2.2.2]; exact id)
    · rw [h2.2.1, K2.2, K1.2]
    · rw [h2.2.1, K2.1, K1.1]
    · rw [h2.2.1]; exact ext_len _ _ _ _ (ext_len _ _ _ _ q)
  split
  · exact ⟨S, rfl⟩
  · exact ⟨S, rfl⟩

theorem s_image' (s s2 : State) (b c k i) (hx : s2.pending = s.pending ∧ s2.dbg = s.dbg ∧ ∃ d, s2.sec = ({ s.sec.extend 0 0 i.digest with bootSlot := BitVec.ofNat 8 k, fwVersion := i.version, certSvnMin := s.sec.svnMin } : Sec).extend 3 3 d) :
    Sound s (((s2.bootRetire b c).bootLinks).driverReady i) ∧ (((s2.bootRetire b c).bootLinks).driverReady i).dbg.auth = s.dbg.auth := by
  have hb := p_of ((p_links (s2.bootRetire b c)).trans (p_retire s2 b c))
  generalize (s2.bootRetire b c).bootLinks = z at hb
  obtain ⟨d, hd⟩ := hx.2.2
  have K1 := ext_fuse s.sec 0 0 i.digest
  have K2 := ext_fuse ({ s.sec.extend 0 0 i.digest with bootSlot := BitVec.ofNat 8 k, fwVersion := i.version, certSvnMin := s.sec.svnMin } : Sec) 3 3 d
  refine ⟨⟨hb.1.trans hx.1, ?_, ?_, fun q => ?_, Or.inl (fun q => ?_)⟩, ?_⟩
  · show s.sec.svnMin ≤ max z.sec.svnMin i.floor
    rw [hb.2.1, hd, K2.2]
    show s.sec.svnMin ≤ max (s.sec.extend 0 0 i.digest).svnMin i.floor
    rw [K1.2]; omega
  · intro j n hj
    show (SMap.getD z.sec.keys j 0).getLsbD n = true
    rw [hb.2.1, hd, K2.1]
    show (SMap.getD (s.sec.extend 0 0 i.digest).keys j 0).getLsbD n = true
    rw [K1.1]; exact hj
  · show z.sec.log.length ≤ 4096
    rw [hb.2.1, hd]
    exact ext_len _ _ _ _ (ext_len s.sec 0 0 i.digest q)
  · show z.dbg.auth = true
    rw [hb.2.2, hx.2.1]; exact q
  · show z.dbg.auth = _
    rw [hb.2.2, hx.2.1]

theorem s_image (s : State) (b c k i) : Sound s (s.bootImage b c k i) ∧ (s.bootImage b c k i).dbg.auth = s.dbg.auth :=
  s_image' s _ b c k i ⟨rfl, rfl, _, rfl⟩

theorem s_boot (b) (s t : State) (h : execBootRun b s = .next t) : Sound s t := by
  unfold execBootRun at h; cases h
  unfold onlyIf; split
  · unfold State.boot; simp only []
    obtain ⟨S, A⟩ := s_rom s b
    have S' : Sound s ((s.bootRom b).modPwr (fun p => { p with lastShutdown := p.shutdownNext, shutdownNext := 0 })) := S
    have A' : ((s.bootRom b).modPwr (fun p => { p with lastShutdown := p.shutdownNext, shutdownNext := 0 })).dbg.auth = s.dbg.auth := A
    generalize (s.bootRom b).modPwr (fun p => { p with lastShutdown := p.shutdownNext, shutdownNext := 0 }) = z at S' A'
    have R : Sound s z.bootRecovery := sound_trans S' (sound_sec rfl rfl rfl id id) A'
    split
    · split
      · exact sound_trans S' (s_image _ _ _ _ _).1 A'
      · exact R
    · exact R
  · exact sound_refl s

theorem x_sound (C : Instr) (S T : State) (H : exec C S = .next T) : Sound S T := by
  rcases x_kept C S T H with h | h | h | h | h | h
  · have K := kept_parts h
    exact sound_same K.1 K.2.1 K.2.2
  · simp only [List.mem_cons, List.not_mem_nil, or_false] at h
    rcases h with rfl | rfl | rfl | rfl | rfl | rfl | rfl | rfl | rfl | rfl | rfl | rfl | rfl | rfl | rfl | rfl
    · exact s_keyRevoke S T H
    · exact s_fwStage S T H
    · exact s_fwCommit S T H
    · exact s_fwDiscard S T H
    · exact s_mrExtend S T H
    · exact s_quoteNonce S T H
    · exact s_quoteSigned S T H
    · exact s_akCertSigned S T H
    · exact s_dbgChallenge S T H
    · exact s_dbgResponse S T H
    · exact s_inputUnderVoltage S T H
    · exact s_inputOverVoltage S T H
    · exact s_pwrEnHigh S T H
    · exact s_pwrEnLow S T H
    · exact s_modReset S T H
    · exact s_inputRestored S T H
  · obtain ⟨i, rfl⟩ := h; exact s_thermalTrip i S T H
  · obtain ⟨i, rfl⟩ := h; exact s_railFault i S T H
  · obtain ⟨i, rfl⟩ := h; exact s_slot i S T H
  · obtain ⟨i, rfl⟩ := h; exact s_boot i S T H

theorem step_sound (s t : State) (h : step s = .next t) : s.sec.svnMin ≤ t.sec.svnMin ∧ (∀ k i, (s.sec.key k).getLsbD i = true → (t.sec.key k).getLsbD i = true) ∧
  (s.sec.log.length ≤ 4096 → t.sec.log.length ≤ 4096) ∧
  ((s.dbg.auth = true → t.dbg.auth = true) ∨ (t.units = [] ∧ t.sync = [] ∧ t.timeHost = 0)) := by
  unfold step at h; split at h
  · cases h
    have : (tick s).sec = s.sec ∧ (tick s).dbg = s.dbg := by unfold tick; split <;> exact ⟨rfl, rfl⟩
    rw [this.1, this.2]; exact ⟨le_refl _, fun _ _ h => h, id, Or.inl id⟩
  · exact (x_sound _ _ _ h).2

theorem serve_dbg (s : State) (k : ReqKind) (f) (h : ∀ r p n, (f (taken s) r p n).dbg = s.dbg) : (s.serve k f).dbg = s.dbg := by
  unfold State.serve
  split
  · rfl
  · simp only []; split
    · exact (refuse_same _ _ _ _).2.2
    · split
      · exact (ans_same _ _ _ _ _ _).2.2
      · exact h _ _ _

theorem finish_dbg (s : State) (u : State) (t : Option State) (hu : u.dbg = s.dbg) (h : ∀ x, t = some x → x.dbg = s.dbg) (r p k) : (u.finishWrite r p k t).dbg = s.dbg := by
  unfold State.finishWrite; split
  · exact (ans_same _ _ _ _ _ _).2.2.trans (h _ rfl)
  · exact (refuse_same _ _ _ _).2.2.trans hu

theorem whole_dbg (s : State) (u : State) (t : Option State) (hu : u.dbg = s.dbg) (h : ∀ x, t = some x → x.dbg = s.dbg) (r p k n) : (u.whole r p k n t).dbg = s.dbg := by
  unfold State.whole; split
  · exact finish_dbg s u t hu h _ _ _
  · exact (refuse_same _ _ _ _).2.2.trans hu

theorem off_auth (z : State) (c) : (z.powerOff c).dbg.auth = z.dbg.auth ∨ (z.powerOff c).dbg.auth = false := by
  unfold State.powerOff; split
  · exact Or.inr rfl
  · exact Or.inl rfl

theorem up_auth (z : State) : z.powerUp.dbg.auth = z.dbg.auth ∨ z.powerUp.dbg.auth = false := by
  unfold State.powerUp; split
  · exact Or.inr rfl
  · exact Or.inl rfl

theorem only_auth (b : Bool) (s : State) (f) (h : (f s).dbg.auth = s.dbg.auth ∨ (f s).dbg.auth = false) : (onlyIf b s f).dbg.auth = s.dbg.auth ∨ (onlyIf b s f).dbg.auth = false := by
  unfold onlyIf; split
  · exact h
  · exact Or.inl rfl

theorem x_auth (C : Instr) (S T : State) (H : exec C S = .next T) : C = .dbgResponse ∨ T.dbg.auth = S.dbg.auth ∨ T.dbg.auth = false := by
  rcases x_kept C S T H with h | h | h | h | h | h
  · exact Or.inr (Or.inl (kept_parts h).2.2)
  · simp only [List.mem_cons, List.not_mem_nil, or_false] at h
    rcases h with rfl | rfl | rfl | rfl | rfl | rfl | rfl | rfl | rfl | rfl | rfl | rfl | rfl | rfl | rfl | rfl
    · have H : execKeyRevoke S = .next T := H
      unfold execKeyRevoke at H; cases H
      right; left
      refine congrArg Dbg.auth (serve_dbg S _ _ (fun r p n => finish_dbg S (taken S) _ rfl (fun x hx => ?_) _ _ _))
      rw [Option.map_eq_some_iff] at hx; obtain ⟨y, _, rfl⟩ := hx; rfl
    · have H : execFwStage S = .next T := H
      unfold execFwStage at H; cases H
      right; left
      refine congrArg Dbg.auth (serve_dbg S _ _ (fun r p n => finish_dbg S (taken S) _ rfl (fun x hx => ?_) _ _ _))
      rw [Option.map_eq_some_iff] at hx; obtain ⟨y, _, rfl⟩ := hx; rfl
    · have H : execFwCommit S = .next T := H
      unfold execFwCommit at H; cases H
      right; left
      refine congrArg Dbg.auth (serve_dbg S _ _ (fun r p n => finish_dbg S (taken S) _ rfl (fun x hx => ?_) _ _ _))
      split at hx
      · cases hx; rfl
      · cases hx
    · have H : execFwDiscard S = .next T := H
      unfold execFwDiscard at H; cases H
      right; left
      refine congrArg Dbg.auth (serve_dbg S _ _ (fun r p n => finish_dbg S (taken S) _ rfl (fun x hx => ?_) _ _ _))
      split at hx
      · cases hx; rfl
      · cases hx
    · have H : execMrExtend S = .next T := H
      unfold execMrExtend at H; cases H
      right; left
      refine congrArg Dbg.auth (serve_dbg S _ _ (fun r p n => whole_dbg S (taken S) _ rfl (fun x hx => ?_) _ _ _ _))
      unfold State.mrExtend at hx; simp only [] at hx
      split at hx
      · cases hx; rfl
      · cases hx
    · have H : execQuoteNonce S = .next T := H
      unfold execQuoteNonce at H; cases H
      right; left
      refine congrArg Dbg.auth (serve_dbg S _ _ (fun r p n => whole_dbg S (taken S) _ rfl (fun x hx => ?_) _ _ _ _))
      cases hx; rfl
    · have H : execQuoteSigned S = .next T := H
      unfold execQuoteSigned at H; cases H
      right; exact only_auth _ _ _ (Or.inl rfl)
    · have H : execAkCertSigned S = .next T := H
      unfold execAkCertSigned at H; cases H
      right; exact only_auth _ _ _ (Or.inl rfl)
    · have H : execDbgChallenge S = .next T := H
      unfold execDbgChallenge at H; cases H
      right; left
      exact congrArg Dbg.auth (serve_dbg S _ _ (fun r p n => (ans_same _ _ _ _ _ _).2.2))
    · exact Or.inl rfl
    · have H : execInputUnderVoltage S = .next T := H
      unfold execInputUnderVoltage at H; cases H; right; exact off_auth _ _
    · have H : execInputOverVoltage S = .next T := H
      unfold execInputOverVoltage at H; cases H; right; exact off_auth _ _
    · have H : execPwrEnHigh S = .next T := H
      unfold execPwrEnHigh at H; cases H; right; exact up_auth _
    · have H : execPwrEnLow S = .next T := H
      unfold execPwrEnLow at H; cases H; right; exact off_auth _ _
    · have H : execModResetAssert S = .next T := H
      unfold execModResetAssert at H; cases H; right
      split
      · exact Or.inr rfl
      · exact Or.inl rfl
    · have H : execInputRestored S = .next T := H
      unfold execInputRestored at H; cases H; right; exact only_auth _ _ _ (up_auth _)
  · obtain ⟨i, rfl⟩ := h
    have H : execThermalTrip i S = .next T := H
    unfold execThermalTrip at H; cases H; right; exact only_auth _ _ _ (off_auth _ _)
  · obtain ⟨i, rfl⟩ := h
    have H : execRailFault i S = .next T := H
    unfold execRailFault at H; cases H; right; exact only_auth _ _ _ (off_auth _ _)
  · obtain ⟨i, rfl⟩ := h
    have H : execFwSlotWriteComplete i S = .next T := H
    unfold execFwSlotWriteComplete at H; cases H; right; refine only_auth _ _ _ ?_
    split
    · split
      · unfold State.slotWritten; simp only []; split
        · exact Or.inr rfl
        · exact Or.inl rfl
      · exact Or.inl rfl
    · exact Or.inl rfl
  · obtain ⟨b, rfl⟩ := h
    have H : execBootRun b S = .next T := H
    unfold execBootRun at H; cases H; right; refine only_auth _ _ _ (Or.inl ?_)
    unfold State.boot; simp only []
    have A := (s_rom S b).2
    have A' : ((S.bootRom b).modPwr (fun p => { p with lastShutdown := p.shutdownNext, shutdownNext := 0 })).dbg.auth = S.dbg.auth := A
    generalize (S.bootRom b).modPwr (fun p => { p with lastShutdown := p.shutdownNext, shutdownNext := 0 }) = z at A'
    have I : ∀ b c k i, (z.bootImage b c k i).dbg.auth = z.dbg.auth := fun b c k i => (s_image z b c k i).2
    split
    · split
      · rw [I]; exact A'
      · exact A'
    · exact A'

theorem response_auth (s t : State) (h : execDbgResponse s = .next t) (h0 : s.dbg.auth = false) (h1 : t.dbg.auth = true) :
    ∃ r, s.dict.queue.head? = some r ∧ s.sec.unlocks r.value = true ∧ t.sec.challenge = none := by
  unfold execDbgResponse at h; cases h
  unfold State.serve at h1 ⊢
  rcases hq : s.headReq .response with _ | r
  · rw [hq] at h1; simp only [] at h1; rw [h0] at h1; cases h1
  · have hh : s.dict.queue.head? = some r := by
      unfold State.headReq at hq
      split at hq
      · cases hq
      · rename_i x y hxy
        split at hq
        · cases hq; rw [hxy]; rfl
        · cases hq
    rw [hq] at h1; simp only [] at h1 ⊢
    refine ⟨r, hh, ?_⟩
    split at h1
    · rw [(refuse_same _ _ _ _).2.2] at h1; rw [show (s.modDict _).dbg = s.dbg from rfl, h0] at h1; cases h1
    · rename_i x hx
      split at h1
      · unfold State.done at h1; rw [(ans_same _ _ _ _ _ _).2.2 ] at h1; rw [show (s.modDict _).dbg = s.dbg from rfl, h0] at h1; cases h1
      · rename_i hl
        split at h1
        · rename_i hw
          unfold State.response at h1; simp only [] at h1
          split at h1
          · rename_i hu
            refine ⟨hu, ?_⟩
            rw [if_neg hl, if_pos hw]
            unfold State.response; simp only []; rw [if_pos hu]
            refine (congrArg Sec.challenge (ans_same _ _ _ _ _ _).2.1).trans ?_
            show (({ s.sec with challenge := none } : Sec).extend 7 5 _).challenge = none
            unfold Sec.extend; simp only []; split <;> rfl
          · rw [(refuse_same _ _ _ _).2.2] at h1; have h1 : s.dbg.auth = true := h1; rw [h0] at h1; cases h1
        · rw [(refuse_same _ _ _ _).2.2] at h1; rw [show (s.modDict _).dbg = s.dbg from rfl, h0] at h1; cases h1

end Sys2Proof.Laws.StepLaws
end

