-- ==== Sys2Proof/Laws/SyncLaws.lean ====
section
/-! SUPPORT. Lemmas about synchronisation objects, spills, sums and bounces. -/

namespace Sys2Proof.Laws.SyncLaws

set_option linter.all false

open Sys2Proof Sys2Proof.Machine Sys2Proof.Claims

theorem syncObj_setSync (s : State) (i : Nat) (o : SyncObj) (j : Nat) : (s.setSync i o).syncObj j = if i = j then o else s.syncObj j := by
  unfold State.syncObj State.setSync; exact SMap.getD_put _ _ _ _ _

theorem sendMsg_sync (s : State) (m : Msg) : (s.sendMsg m).sync = s.sync ∧ (s.sendMsg m).waiters = s.waiters := by
  unfold State.sendMsg
  extract_lets t n here
  have ht : t.sync = s.sync ∧ t.waiters = s.waiters := by simp only [t]; split <;> exact ⟨rfl, rfl⟩
  split
  · exact ht
  · rcases h : t.routePacket (UA.digit m.src 1 % 2) (UA.device m.dest) ⟨m.items, false, Option.none⟩ with _ | y
    · exact ht
    · unfold State.routePacket at h
      split at h
      · cases h; exact ht
      · rw [Option.map_eq_some_iff] at h
        obtain ⟨mm, -, rfl⟩ := h
        exact ht

/-- what a sync reply leaves: cells, objects, waiters -/
def syncPart (s : State) := (s.cells, s.sync, s.waiters)

theorem sendMsg_part (s : State) (m : Msg) : syncPart (s.sendMsg m) = syncPart s := by
  unfold syncPart
  rw [(sendMsg_cells _ _).1, (sendMsg_sync _ _).1, (sendMsg_sync _ _).2]

theorem reply_part (s : State) (req : Msg) (code : BitVec 8) (item : Payload) (more : List Payload) : syncPart (s.reply req code item more) = syncPart s := by
  unfold State.reply
  exact sendMsg_part _ _

theorem replySync_part (s : State) (w : Waiter) (code : Code) (v : Word) (b : Bool) : syncPart (s.replySync w code v b) = syncPart s := by
  unfold State.replySync
  exact reply_part _ _ _ _ _

theorem syncReply_part (s : State) (m : Msg) (code : Code) (v : Word) : syncPart (s.syncReply m code v) = syncPart s := replySync_part _ _ _ _ _

theorem releaseWaiters_part (s : State) (i : Nat) : syncPart (s.releaseWaiters i) = (s.cells, s.sync, s.waiters.filter (fun w => !(decide (w.obj = i) && (!(s.syncObj i).accepts w.op.toNat || (s.syncObj i).holds w.op.toNat w.value)))) := by
  unfold State.releaseWaiters
  simp only []
  rw [foldl_pres syncPart]
  · rfl
  · intro s w; exact replySync_part _ _ _ _ _

theorem part_obj {s t : State} (h : t.sync = s.sync) (j) : t.syncObj j = s.syncObj j := by unfold State.syncObj; rw [h]

theorem modDie_part (s : State) (d f) : syncPart (s.modDie d f) = syncPart s := by unfold State.modDie; split <;> rfl

theorem modDie_net (s : State) (d f) : (s.modDie d f).net = s.net := by unfold State.modDie; split <;> rfl

/-- the state on which the operation is applied -/
def syncBase (s : State) (m : Msg) : State := ((s.takeMsg m).received m).modDie (syncDie m.obj) (fun x => { x with syncOps := x.syncOps + 1 })

theorem syncBase_part (s : State) (m : Msg) : syncPart (syncBase s m) = syncPart s := (modDie_part _ _ _).trans rfl

theorem syncBase_net (s : State) (m : Msg) : (syncBase s m).net.inFlight = s.net.inFlight.erase m ∧ ∀ u, (syncBase s m).local? u = s.local? u := by
  have h : (syncBase s m).net = (s.takeMsg m).net := by unfold syncBase; rw [modDie_net]; rfl
  refine ⟨by rw [h]; exact (takeMsg_rest s m).1, fun u => ?_⟩
  unfold State.local?; rw [h, (takeMsg_rest s m).2]

theorem syncArrives_ok (s : State) (m : Msg) (op : Nat) (hq : s.requestOk m 0x05 = true) (hd : UA.depth m.dest = 0) (he : m.epoch = s.epochOf m.dest)
   (hok : m.syncOk = true) (hop : m.syncOp = op) (ha : op ≤ 1 ∨ (s.syncObj m.obj).accepts op = true) : s.syncArrives m op = (syncBase s m).applySync m := by
  unfold State.syncArrives
  rw [onlyIf_true _ _ _ (by rw [hq, decide_eq_true (.inl hop)]; rfl), arrival_ok _ _ _ he, if_pos hd]
  unfold State.syncOp
  have : (!m.syncOk || !(decide (m.syncOp ≤ 1) || (State.syncObj ((s.takeMsg m).received m) m.obj).accepts m.syncOp)) = false := by
    have e : State.syncObj ((s.takeMsg m).received m) m.obj = s.syncObj m.obj := rfl
    rw [hok, e, hop]
    rcases ha with h | h
    · rw [decide_eq_true h]; rfl
    · rw [h]; simp
  simp only [this, Bool.false_eq_true, if_false]
  rfl

theorem base_obj (s : State) (m : Msg) (j) : (syncBase s m).syncObj j = s.syncObj j := part_obj (congrArg (·.2.1) (syncBase_part s m)) j

theorem part_split {s t : State} (h : syncPart t = syncPart s) : t.cells = s.cells ∧ t.sync = s.sync ∧ t.waiters = s.waiters := by
  simpa [syncPart] using h

/-- a result of the form "set, reply or not, release" -/
theorem sets_of {b t : State} {m : Msg} {n : SyncObj} (z : State) (hz : z.sync = (b.setSync m.obj n).sync ∧ z.cells = b.cells) (ht : syncPart t = syncPart (z.releaseWaiters m.obj)) :
    t.syncObj m.obj = n ∧ (∀ j, j ≠ m.obj → t.syncObj j = b.syncObj j) ∧ t.cells = b.cells := by
  have h := ht.trans (releaseWaiters_part z m.obj)
  have h1 : t.sync = z.sync := congrArg (·.2.1) h
  have h2 : t.cells = z.cells := congrArg (·.1) h
  have ho : ∀ j, t.syncObj j = (b.setSync m.obj n).syncObj j := part_obj (h1.trans hz.1)
  refine ⟨by rw [ho, syncObj_setSync, if_pos rfl], ?_, h2.trans hz.2⟩
  intro j hj
  rw [ho, syncObj_setSync, if_neg (Ne.symm hj)]

theorem reply_value (n a b : Nat) (v : Word) : fld (replyItem a b v.toNat) 119 56 = v.toNat := by
  unfold fld replyItem
  have := v.isLt
  rw [BitVec.toNat_ofNat]
  omega

theorem addWaiter_part (s : State) (w : Waiter) : syncPart (s.addWaiter w) = (s.cells, s.sync, s.waiters ++ [w]) ∧ (s.addWaiter w).net = s.net := by
  unfold State.addWaiter
  extract_lets d n s1
  split
  · exact ⟨modDie_part _ _ _, modDie_net _ _ _⟩
  · exact ⟨rfl, rfl⟩


structure Ready (s : State) (m : Msg) : Prop where
  hq : s.requestOk m 0x05 = true
  hd : UA.depth m.dest = 0
  he : m.epoch = s.epochOf m.dest
  hok : m.syncOk = true

def Sets (s : State) (m : Msg) (i : Instr) (n : SyncObj) : Prop :=
  ∃ t, exec i s = .next t ∧ t.syncObj m.obj = n ∧ (∀ j, j ≠ m.obj → t.syncObj j = s.syncObj j) ∧ t.cells = s.cells

def Waits (s : State) (m : Msg) (i : Instr) : Prop :=
  ∃ t, exec i s = .next t ∧ t.sync = s.sync ∧ t.waiters = s.waiters ++ [m.waiter (BitVec.ofNat 64 m.value)] ∧ t.net.inFlight = s.net.inFlight.erase m

def Answers (s : State) (m : Msg) (i : Instr) (value : Word) : Prop :=
      ∃ t, exec i s = .next t ∧ t.sync = s.sync ∧ t.waiters = s.waiters ∧ (s.local? m.src = true →
        ∃ r, t.net.inFlight = s.net.inFlight.erase m ++ [r] ∧ r.dest = m.src ∧ r.cls = 0x08 ∧ r.tag = m.tag ∧ r.code = ccOk ∧
          r.value = value.toNat)

theorem base_facts (s : State) (m : Msg) : (syncBase s m).cells = s.cells ∧ (syncBase s m).sync = s.sync ∧ (syncBase s m).waiters = s.waiters := part_split (syncBase_part s m)

theorem syncReply_msg (z : State) (m : Msg) (code : Code) (value : Word) : ∃ r : Msg, z.syncReply m code value = z.sendMsg r ∧ r.dest = m.src ∧ r.cls = 0x08 ∧ r.tag = m.tag ∧ r.code = code ∧ r.value = value.toNat := by
  unfold State.syncReply State.replySync State.reply
  simp only []
  refine ⟨_, rfl, rfl, rfl, rfl, rfl, ?_⟩
  unfold Msg.value Msg.fld replyMsg
  exact reply_value 0 _ _ _

theorem setsI {s : State} {m : Msg} (h : Ready s m) (i : Instr) (op : Nat) (n : SyncObj) (hi : exec i s = .next (s.syncArrives m op)) (hop : m.syncOp = op) (ha : op ≤ 1 ∨ (s.syncObj m.obj).accepts op = true)
      (hz : ∃ z : State, z.sync = ((syncBase s m).setSync m.obj n).sync ∧ z.cells = (syncBase s m).cells ∧ syncPart ((syncBase s m).applySync m) = syncPart (z.releaseWaiters m.obj)) : Sets s m i n := by
  obtain ⟨z, z1, z2, z3⟩ := hz
  rw [syncArrives_ok s m op h.hq h.hd h.he h.hok hop ha] at hi
  obtain ⟨a1, a2, a3⟩ := sets_of z ⟨z1, z2⟩ z3
  exact ⟨_, hi, a1, fun j hj => (a2 j hj).trans (base_obj s m j), a3.trans (base_facts s m).1⟩

theorem waitsI {s : State} {m : Msg} (h : Ready s m) (i : Instr) (op : Nat) (hi : exec i s = .next (s.syncArrives m op)) (hop : m.syncOp = op) (ha : op ≤ 1 ∨ (s.syncObj m.obj).accepts op = true)
      (e : (syncBase s m).applySync m = (syncBase s m).addWaiter (m.waiter (BitVec.ofNat 64 m.value))) : Waits s m i := by
  rw [syncArrives_ok s m op h.hq h.hd h.he h.hok hop ha, e] at hi
  have h := addWaiter_part (syncBase s m) (m.waiter (BitVec.ofNat 64 m.value))
  refine ⟨_, hi, (congrArg (·.2.1) h.1).trans (base_facts s m).2.1, (congrArg (·.2.2) h.1).trans (by rw [(base_facts s m).2.2]), ?_⟩
  rw [h.2, (syncBase_net s m).1]

theorem ansI {s : State} {m : Msg} (h : Ready s m) (i : Instr) (op : Nat) (value : Word) (hi : exec i s = .next (s.syncArrives m op)) (hop : m.syncOp = op) (ha : op ≤ 1 ∨ (s.syncObj m.obj).accepts op = true)
      (e : (syncBase s m).applySync m = (syncBase s m).syncReply m ccOk value) : Answers s m i value := by
  rw [syncArrives_ok s m op h.hq h.hd h.he h.hok hop ha, e] at hi
  have h := part_split (syncReply_part (syncBase s m) m ccOk value)
  refine ⟨_, hi, h.2.1.trans (base_facts s m).2.1, h.2.2.trans (base_facts s m).2.2, ?_⟩
  intro hl
  have hl2 : (syncBase s m).local? m.src = true := ((syncBase_net s m).2 _).trans hl
  obtain ⟨r, hr, r1, r2, r3, r4, r5⟩ := syncReply_msg (syncBase s m) m ccOk value
  rw [hr, sendMsg_inFlight _ _ (by rw [r1]; exact hl2), (syncBase_net s m).1]
  exact ⟨r, rfl, r1, r2, r3, r4, r5⟩

theorem doneIf (m : Msg) (z : State) (v : Word) : (if m.ack = true then z.syncReply m ccOk v else z).sync = z.sync ∧ (if m.ack = true then z.syncReply m ccOk v else z).cells = z.cells := by
  split
  · have h := part_split (syncReply_part z m ccOk v); exact ⟨h.2.1, h.1⟩
  · exact ⟨rfl, rfl⟩

theorem init_eq (t v : Nat) : SyncObj.init t v = if t = 1 then .counter (BitVec.ofNat 64 v) false
      else if t = 2 then .barrier (BitVec.ofNat 32 v) 0 (BitVec.ofNat 32 (v / 2 ^ 32))
      else if t = 3 then .flag (decide (v % 2 = 1)) else .none := by
  rcases t with _ | _ | _ | _ | t <;> simp [SyncObj.init]

theorem so_read {s : State} {m : Msg} (h : Ready s m) (h0 : m.syncOp = 0x0) : Answers s m (.syncRead m) (s.syncObj m.obj).readValue := by
  apply ansI h _ 0 _ rfl h0 (.inl (by decide))
  unfold State.applySync
  simp only [h0, if_true, base_obj]

theorem so_init {s : State} {m : Msg} (h : Ready s m) (h0 : m.syncOp = 0x1) : Sets s m (.syncInit m) (SyncObj.init m.syncType m.value) := by
  apply setsI h _ 1 _ rfl h0 (.inl (by decide))
  unfold State.applySync
  simp only [h0]
  rw [if_neg (show ¬ (1 : Nat) = 0 by decide), if_pos trivial]
  have d := doneIf m ((syncBase s m).setSync m.obj (SyncObj.init m.syncType m.value)) (((syncBase s m).setSync m.obj (SyncObj.init m.syncType m.value)).syncObj m.obj).value
  exact ⟨_, d.1, d.2, rfl⟩

theorem so_add {s : State} {m : Msg} (h : Ready s m) (h0 : m.syncOp = 0x2) {n f} (ho : s.syncObj m.obj = .counter n f) : Sets s m (.syncAdd m) (if 2 ^ 64 ≤ n.toNat + m.value then .counter (BitVec.ofNat 64 (2 ^ 64 - 1)) true else .counter (n + (BitVec.ofNat 64 m.value)) f) := by
  apply setsI h _ 2 _ rfl h0 (.inr (by rw [ho]; rfl))
  unfold State.applySync
  simp only [h0, base_obj, ho]
  rw [if_neg (show ¬ (2 : Nat) = 0 by decide), if_neg (show ¬ (2 : Nat) = 1 by decide), if_pos trivial]
  have ev : (SyncObj.counter (if decide (2 ^ 64 ≤ n.toNat + m.value) = true then BitVec.ofNat 64 (2 ^ 64 - 1) else n + BitVec.ofNat 64 m.value) (f || decide (2 ^ 64 ≤ n.toNat + m.value)))
     = if 2 ^ 64 ≤ n.toNat + m.value then .counter (BitVec.ofNat 64 (2 ^ 64 - 1)) true else .counter (n + (BitVec.ofNat 64 m.value)) f := by
    by_cases hh : 2 ^ 64 ≤ n.toNat + m.value
    · rw [decide_eq_true hh, if_pos hh]; simp
    · rw [decide_eq_false hh, if_neg hh]; simp
  rw [ev]
  generalize (if 2 ^ 64 ≤ n.toNat + m.value then SyncObj.counter (BitVec.ofNat 64 (2 ^ 64 - 1)) true else .counter (n + (BitVec.ofNat 64 m.value)) f) = o'
  obtain ⟨z, hz, e1, e2⟩ : ∃ z, z = (if decide (2 ^ 64 ≤ n.toNat + m.value) = true then ((syncBase s m).setSync m.obj o').modDie (syncDie m.obj) (fun x => { x with counterOvf := x.counterOvf + 1 }) else (syncBase s m).setSync m.obj o') ∧ z.sync = ((syncBase s m).setSync m.obj o').sync ∧ z.cells = (syncBase s m).cells := by
    refine ⟨_, rfl, ?_, ?_⟩
    · split
      · exact congrArg (·.2.1) (modDie_part _ _ _)
      · rfl
    · split
      · exact congrArg (·.1) (modDie_part _ _ _)
      · rfl
  rw [← hz]
  have d := doneIf m z (z.syncObj m.obj).value
  exact ⟨_, d.1.trans e1, d.2.trans e2, rfl⟩

theorem so_arrive {s : State} {m : Msg} (h : Ready s m) (h0 : m.syncOp = 0x4) {n a g} (ho : s.syncObj m.obj = .barrier n a g) : Sets s m (.syncArrive m) (s.syncObj m.obj).arrive := by
  apply setsI h _ 4 _ rfl h0 (.inr (by rw [ho]; rfl))
  unfold State.applySync
  simp only [h0, base_obj]
  rw [if_neg (by decide), if_neg (by decide), if_neg (by decide), if_pos trivial]
  have d := doneIf m ((syncBase s m).setSync m.obj (s.syncObj m.obj).arrive) (s.syncObj m.obj).value
  exact ⟨_, d.1, d.2, rfl⟩

theorem so_arriveWait {s : State} {m : Msg} (h : Ready s m) (h0 : m.syncOp = 0x5) {n a g} (ho : s.syncObj m.obj = .barrier n a g) : Sets s m (.syncArriveWait m) (s.syncObj m.obj).arrive := by
  apply setsI h _ 5 _ rfl h0 (.inr (by rw [ho]; rfl))
  unfold State.applySync
  simp only [h0, base_obj]
  rw [if_neg (by decide), if_neg (by decide), if_neg (by decide), if_neg (by decide), if_pos trivial]
  split
  · exact ⟨_, rfl, rfl, replySync_part _ _ _ _ _⟩
  · have d := addWaiter_part ((syncBase s m).setSync m.obj (s.syncObj m.obj).arrive) (m.waiter (s.syncObj m.obj).value)
    exact ⟨_, congrArg (·.2.1) d.1, congrArg (·.1) d.1, rfl⟩

theorem so_flag {s : State} {m : Msg} (h : Ready s m) {b} (ho : s.syncObj m.obj = .flag b) : (m.syncOp = 0x7 → Sets s m (.syncSet m) (.flag true)) ∧ (m.syncOp = 0x8 → Sets s m (.syncClear m) (.flag false)) := by
  refine ⟨?_, ?_⟩
  · intro h0
    apply setsI h _ 7 _ rfl h0 (.inr (by rw [ho]; rfl))
    unfold State.applySync
    simp only [h0]
    rw [if_neg (by decide), if_neg (by decide), if_neg (by decide), if_neg (by decide), if_neg (by decide), if_pos trivial]
    have d := doneIf m ((syncBase s m).setSync m.obj (.flag true)) 1
    exact ⟨_, d.1, d.2, rfl⟩
  · intro h0
    apply setsI h _ 8 _ rfl h0 (.inr (by rw [ho]; rfl))
    unfold State.applySync
    simp only [h0]
    rw [if_neg (by decide), if_neg (by decide), if_neg (by decide), if_neg (by decide), if_neg (by decide), if_neg (by decide), if_pos trivial]
    have d := doneIf m ((syncBase s m).setSync m.obj (.flag false)) 0
    exact ⟨_, d.1, d.2, rfl⟩

theorem so_wait {s : State} {m : Msg} (h : Ready s m) (i : Instr) (op : Nat) (hi : exec i s = .next (s.syncArrives m op)) (hop : op = 3 ∨ op = 6 ∨ op = 9 ∨ op = 10) (h0 : m.syncOp = op)
    (ha : (s.syncObj m.obj).accepts op = true) :
    ((s.syncObj m.obj).holds op (BitVec.ofNat 64 m.value) = true → Answers s m i (s.syncObj m.obj).value) ∧ ((s.syncObj m.obj).holds op (BitVec.ofNat 64 m.value) = false → Waits s m i) := by
  have e : (syncBase s m).applySync m = if (s.syncObj m.obj).holds op (BitVec.ofNat 64 m.value) = true then (syncBase s m).syncReply m ccOk (s.syncObj m.obj).value else (syncBase s m).addWaiter (m.waiter (BitVec.ofNat 64 m.value)) := by
    unfold State.applySync
    simp only [h0, base_obj]
    rcases hop with h | h | h | h <;> subst h <;>
    rw [if_neg (by decide), if_neg (by decide), if_neg (by decide), if_neg (by decide), if_neg (by decide), if_neg (by decide), if_neg (by decide)]
  refine ⟨?_, ?_⟩
  · intro hh
    rw [if_pos hh] at e
    exact ansI h i op _ hi h0 (.inr ha) e
  · intro hh
    rw [if_neg (by rw [hh]; decide)] at e
    exact waitsI h i op hi h0 (.inr ha) e

/-! releases -/

theorem rel_of {b : State} {m : Msg} (z y : State) (hy : syncPart y = syncPart (z.releaseWaiters m.obj)) (k : List Waiter) (hz : z.waiters = b.waiters ++ k) (hk : ∀ w ∈ k, w.obj = m.obj) :
    (∀ w ∈ y.waiters, w.obj = m.obj → (y.syncObj m.obj).accepts w.op.toNat = true ∧ (y.syncObj m.obj).holds w.op.toNat w.value = false) ∧
        y.waiters.filter (fun w => decide (w.obj ≠ m.obj)) = b.waiters.filter (fun w => decide (w.obj ≠ m.obj)) ∧
        (∀ w ∈ b.waiters, w.obj = m.obj → (y.syncObj m.obj).accepts w.op.toNat = true →
          (y.syncObj m.obj).holds w.op.toNat w.value = false → w ∈ y.waiters) := by
  have h := hy.trans (releaseWaiters_part z m.obj)
  have h1 : y.sync = z.sync := congrArg (·.2.1) h
  have h2 : y.waiters = _ := congrArg (·.2.2) h
  have ho : y.syncObj m.obj = z.syncObj m.obj := part_obj h1 _
  simp only at h2
  rw [ho, h2]
  refine ⟨?_, ?_, ?_⟩
  · intro w hw he
    rw [List.mem_filter] at hw
    have := hw.2
    simp only [he, decide_true, Bool.true_and, Bool.not_or, Bool.not_not, Bool.and_eq_true, Bool.not_eq_true'] at this
    exact this
  · rw [hz, List.filter_filter, List.filter_append]
    have : k.filter (fun a => decide (a.obj ≠ m.obj) && !(decide (a.obj = m.obj) && (!(z.syncObj m.obj).accepts a.op.toNat || (z.syncObj m.obj).holds a.op.toNat a.value))) = [] := by
      rw [List.filter_eq_nil_iff]
      intro w hw; rw [hk w hw]; simp
    rw [this, List.append_nil]
    apply List.filter_congr
    intro w _
    by_cases e : w.obj = m.obj <;> simp [e]
  · intro w hw he ha hh
    rw [List.mem_filter, hz]
    refine ⟨List.mem_append_left _ hw, ?_⟩
    rw [ha, hh]; simp

theorem doneWaiters (m : Msg) (z : State) (v : Word) : (if m.ack = true then z.syncReply m ccOk v else z).waiters = z.waiters := by
  split
  · exact (part_split (syncReply_part z m ccOk v)).2.2
  · rfl

/-! spill -/

theorem routePacket_route (s : State) (d : Nat) (dest : BitVec 16) (p : Packet) (h1 : (s.net.route dest).isSome = true) (h2 : s.net.heldPk.any (fun h => decide (h.1 = dest.toNat)) = false) :
    ∃ n : Net, s.routePacket d dest p = some { s with net := n } := by
  unfold State.routePacket
  obtain ⟨l, hl⟩ := Option.isSome_iff_exists.mp h1
  rw [hl, h2]
  exact ⟨_, rfl⟩

theorem sendMsg_leaves (s : State) (m : Msg) (h : s.local? m.dest = true ∨ ((s.net.route (UA.device m.dest)).isSome = true ∧ s.net.heldPk.any (fun h => decide (h.1 = (UA.device m.dest).toNat)) = false)) :
    (s.sendMsg m).mem = s.mem := by
  unfold State.sendMsg
  extract_lets t n here
  have ht : t.mem = s.mem ∧ t.net = s.net := by simp only [t]; split <;> exact ⟨rfl, rfl⟩
  split
  · exact ht.1
  · rename_i hl
    have hl' : t.local? m.dest = s.local? m.dest := by unfold State.local?; rw [ht.2]
    rw [hl'] at hl
    obtain ⟨h1, h2⟩ := h.resolve_left (fun e => hl (by rw [e]; rfl))
    obtain ⟨n', hn⟩ := routePacket_route t (UA.digit m.src 1 % 2) (UA.device m.dest) ⟨m.items, false, Option.none⟩ (by rw [ht.2]; exact h1) (by rw [ht.2]; exact h2)
    rw [hn]
    exact ht.1

theorem spillArrives_ok (s : State) (m : Msg) (op : Nat) (f : State → State) (hq : s.requestOk m 0x06 = true) (hd : UA.depth m.dest = 0) (he : m.epoch = s.epochOf m.dest) (hop : m.fld 0 3 0 = op) :
    s.spillArrives m op f = f (s.takeMsg m) := by
  unfold State.spillArrives
  simp only []
  rw [onlyIf_true _ _ _ (by rw [hq, decide_eq_true (.inl hop)]; rfl), arrival_ok _ _ _ he, if_neg (fun h => h hd), if_pos hop]

theorem spillAnswer_part (s : State) (m : Msg) (code : Code) (v : Nat) (l : List Payload) : syncPart (s.spillAnswer m code v l) = syncPart s := by
  unfold State.spillAnswer; exact reply_part _ _ _ _ _

/-- what an answer of a serving device leaves -/
theorem spillAnswer_facts (s : State) (m : Msg) (code : Code) (v : Nat) (l : List Payload) :
    (s.spillAnswer m code v l).cells = s.cells ∧ (s.spillAnswer m code v l).sync = s.sync ∧
    ((s.local? m.src = true ∨ ((s.net.route (UA.device m.src)).isSome = true ∧ s.net.heldPk.any (fun h => decide (h.1 = (UA.device m.src).toNat)) = false)) → (s.spillAnswer m code v l).mem = s.mem) ∧
    (s.local? m.src = true → ∃ r, (s.spillAnswer m code v l).net.inFlight = s.net.inFlight ++ [r] ∧ r.dest = m.src ∧ r.tag = m.tag ∧ r.code = code ∧ r.body.drop 1 = l) := by
  have h := part_split (spillAnswer_part s m code v l)
  refine ⟨h.1, h.2.1, ?_, ?_⟩
  · intro hl
    unfold State.spillAnswer State.reply
    exact sendMsg_leaves s (replyMsg m code (replyItem (m.fld 0 3 0) 0 v) l) hl
  · intro hl
    refine ⟨replyMsg m code (replyItem (m.fld 0 3 0) 0 v) l, ?_, rfl, rfl, rfl, by simp [replyMsg]⟩
    unfold State.spillAnswer State.reply
    exact sendMsg_inFlight s (replyMsg m code (replyItem (m.fld 0 3 0) 0 v) l) hl

/-! window writes -/

theorem bounce_local (s : State) (m : Msg) (code : BitVec 8) (hl : s.local? m.src = true) :
    (s.bounce m code).cells = s.cells ∧ (s.bounce m code).net.inFlight = s.net.inFlight ++ [m.bounceOf code] ∧
    ∀ k, ∃ w b, (s.bounce m code).unit k = { s.unit k with msgSent := w, bounces := b } := by
  unfold State.bounce
  have hun : s.unreachable m.src = false := by unfold State.unreachable; rw [hl]; rfl
  simp only [hun, Bool.false_eq_true, if_false]
  obtain ⟨z, hz, hc, hn, hu⟩ : ∃ z : State, z = (if code = 0x14 then s.modUnit (UA.key m.dest) (fun u => { u with bounces := u.bounces + 1 }) else s) ∧ z.cells = s.cells ∧ z.net = s.net ∧ ∀ k, ∃ b, z.unit k = { s.unit k with bounces := b } := by
    refine ⟨_, rfl, ?_, ?_, ?_⟩
    · split <;> rfl
    · split <;> rfl
    · intro k
      split
      · by_cases e : k = UA.key m.dest
        · rw [e, State.unit_modUnit]; exact ⟨_, rfl⟩
        · rw [State.unit_modUnit_ne _ _ _ _ e]; exact ⟨_, rfl⟩
      · exact ⟨_, rfl⟩
  rw [← hz]
  have hl2 : z.local? (m.bounceOf code).dest = true := by unfold State.local?; rw [hn]; exact hl
  refine ⟨(sendMsg_cells _ _).1.trans hc, ?_, ?_⟩
  · rw [sendMsg_inFlight _ _ hl2, hn]
  · intro k
    obtain ⟨w, hw⟩ := sendMsg_unit z (m.bounceOf code) k
    obtain ⟨b, hb⟩ := hu k
    exact ⟨w, b, by rw [hw, hb]⟩

/-! sums, replies, bounces -/

theorem tile_modTile (x : Cell) (k : Nat) (f : Tile → Tile) (h : k < 2) : (x.modTile k f).tile k = f (x.tile k) := by
  unfold Cell.modTile Cell.tile
  have : k = 0 ∨ k = 1 := by omega
  rcases this with h | h <;> subst h <;> rfl

theorem modTile_rest (x : Cell) (k : Nat) (f : Tile → Tile) : (x.modTile k f).spad = x.spad ∧ (x.modTile k f).seq = x.seq := by
  unfold Cell.modTile Cell.setTile; split <;> exact ⟨rfl, rfl⟩

theorem received_cell (s : State) (m : Msg) (c : CellIx) : ((s.takeMsg m).received m).cell c = s.cell c := rfl

theorem toRpl_cell (s : State) (c : CellIx) (m : Msg) (h2 : (s.cell c).scrubbing = false) (h3 : (s.cell c).rplq.flushing = false)
    (h1 : ownPackets (s.cell c).job.toNat (s.cell c).rplq.partialIn ((s.cell c).rplq.inflow ++ m.items) = true) :
    ((s.toRpl c m).cell c).ops = (s.cell c).ops ∧ ((s.toRpl c m).cell c).rplq.items = (s.cell c).rplq.items ++ ((s.cell c).rplq.inflow ++ m.items).take (64 - (s.cell c).rplq.items.length) := by
  unfold State.toRpl
  rw [State.cell_modCell]
  simp only [h2, Bool.false_eq_true, if_false]
  refine ⟨rfl, ?_⟩
  exact (rplFill_same s.runTime (s.cell c).job.toNat _ { (s.cell c).rplq with inflow := (s.cell c).rplq.inflow ++ m.items } h3 h1 (Nat.le_refl _)).1

theorem hiqFill_facts (s : State) (l : List QItem) (h : s.evc.hiq.flushing = false) : (s.hiqFill l).cells = s.cells ∧
   (s.hiqFill l).evc.hiq.items = s.evc.hiq.items ++ (s.evc.hiq.inflow ++ l).take (1024 - s.evc.hiq.items.length) := by
  have f : ∀ (n : Nat) (z : State), (((List.range n).foldl (fun s _ => s.fire 9) z).cells = z.cells ∧ ((List.range n).foldl (fun s _ => s.fire 9) z).evc.hiq = z.evc.hiq) := by
    intro n z
    generalize List.range n = l
    induction l generalizing z with
    | nil => exact ⟨rfl, rfl⟩
    | cons a l ih =>
      rw [List.foldl_cons]
      refine ⟨(ih _).1.trans rfl, (ih _).2.trans ?_⟩
      show (Evc.fire z.evc 9).hiq = _
      exact evc_fire_hiq _ _
  unfold State.hiqFill
  simp only []
  rw [(f _ _).1, (f _ _).2]
  exact ⟨rfl, fill_items 1024 s.runTime { s.evc.hiq with inflow := s.evc.hiq.inflow ++ l } h⟩

theorem addReply_facts (s : State) (m : Msg) : (s.addReply m).cells = s.cells ∧ (s.addReply m).evc = s.evc ∧ (s.addReply m).runTime = s.runTime := by
  unfold State.addReply
  split
  · exact ⟨rfl, rfl, rfl⟩
  · exact ⟨rfl, rfl, rfl⟩

end Sys2Proof.Laws.SyncLaws
end

