-- ==== Sys2Proof/Laws/TileLaws.lean ====
section
/-! SUPPORT. Lemmas about the tile unit and its drains. -/

namespace Sys2Proof.Laws.TileLaws

set_option linter.all false

open Sys2Proof Sys2Proof.Machine Sys2Proof.Claims

theorem tile_modTile (x : Cell) (k : Nat) (g : Tile → Tile) : (x.modTile k g).tile k = g (x.tile k) := by
  unfold Cell.modTile Cell.setTile Cell.tile; split <;> rfl

theorem modTile_rest (x : Cell) (k : Nat) (g : Tile → Tile) : (x.modTile k g).seq = x.seq ∧ (x.modTile k g).ops = x.ops ∧ (x.modTile k g).spad = x.spad
   ∧ (x.modTile k g).sab = x.sab := by
  unfold Cell.modTile Cell.setTile; split <;> exact ⟨rfl, rfl, rfl, rfl⟩

theorem requestRetire_rest (s : State) (c : CellIx) (k : Nat) : ((s.requestRetire c).cell c).tile k = (s.cell c).tile k ∧
    ((s.requestRetire c).cell c).sab = (s.cell c).sab ∧ ((s.requestRetire c).cell c).spad = (s.cell c).spad := by
  unfold State.requestRetire
  split
  · exact ⟨rfl, rfl, rfl⟩
  · obtain ⟨g, h⟩ := relCell_cell (s.modCell c (fun x => { x with retireReq := true })) c 3
    rw [h, State.cell_modCell]; exact ⟨rfl, rfl, rfl⟩

theorem countRepeats_all (s : State) (c : CellIx) (n k : Nat) : ((s.countRepeats c n).cell c).tile k = (s.cell c).tile k ∧
    ((s.countRepeats c n).cell c).sab = (s.cell c).sab ∧ ((s.countRepeats c n).cell c).spad = (s.cell c).spad := by
  unfold State.countRepeats; extract_lets now t
  have ht : (t.cell c).tile k = (s.cell c).tile k ∧ (t.cell c).sab = (s.cell c).sab ∧ (t.cell c).spad = (s.cell c).spad := by
    simp only [t, State.cell_modCell]; refine ⟨?_, ?_, ?_⟩ <;> first | rfl | trivial
  split
  · obtain ⟨h1, h2, h3⟩ := requestRetire_rest t c k
    exact ⟨h1.trans ht.1, h2.trans ht.2.1, h3.trans ht.2.2⟩
  · exact ht

theorem countRepeats_tile (s : State) (c : CellIx) (n k : Nat) : ((s.countRepeats c n).cell c).tile k = (s.cell c).tile k :=
  (countRepeats_all s c n k).1

theorem countRepeats_rest (s : State) (c : CellIx) (n : Nat) : ((s.countRepeats c n).cell c).sab = (s.cell c).sab ∧
    ((s.countRepeats c n).cell c).spad = (s.cell c).spad := (countRepeats_all s c n 0).2

theorem joinArray_rest (x : Cell) (r e job layer) : (x.joinArray r e job layer).seq = x.seq ∧ (x.joinArray r e job layer).ops = x.ops ∧
    (x.joinArray r e job layer).spad = x.spad ∧ ((x.joinArray r e job layer).tile r.tile).st = .filling ∧
    ∃ r', (x.joinArray r e job layer).arr = some r' ∧ r'.block = r.block ∧ r'.op = r.op ∧ r'.done = r.done ∧ r'.fill = r.fill := by
  unfold Cell.joinArray
  extract_lets r1 g r2 f n plan removed delta key first sums cut z
  refine ⟨(modTile_rest x n _).1, (modTile_rest x n _).2.1, (modTile_rest x n _).2.2.1, ?_, _, rfl, rfl, rfl, rfl, rfl⟩
  show (z.tile n).st = .filling
  simp only [z, tile_modTile]
  rfl

theorem settle_rest (t : Tile) (d : DrainRun) (hd : t.drain = some d) (hm : d.due = false) :
    t.settle.drain = some d ∧ t.settle.elems = t.elems ∧ t.settle.st = if t.st = .closing ∧ t.token then .draining else t.st := by
  unfold Tile.settle
  simp only [hd, hm, Bool.false_eq_true, and_false, or_false, false_and, if_false]
  by_cases hc : t.st = .closing
  · by_cases ht : t.token = true
    · cases hi : t.inlet <;> simp [hc, ht, hd]
    · cases hi : t.inlet <;> simp [hc, ht, hd]
  · simp [hc, hd]

theorem enterWindow_rest (x : Cell) (f r p) : (x.enterWindow f r p).tile0 = x.tile0 ∧ (x.enterWindow f r p).tile1 = x.tile1 ∧
    (x.enterWindow f r p).seq = x.seq ∧ (x.enterWindow f r p).spad = x.spad ∧ (x.enterWindow f r p).arr = x.arr := by
  unfold Cell.enterWindow; extract_lets q k ix; split
  · exact ⟨rfl, rfl, rfl, rfl, rfl⟩
  · split <;> exact ⟨rfl, rfl, rfl, rfl, rfl⟩

theorem enterAll_rest (x : Cell) (f r) (l : List Nat) : (l.foldl (fun x p => x.enterWindow f r p) x).tile0 = x.tile0 ∧
    (l.foldl (fun x p => x.enterWindow f r p) x).tile1 = x.tile1 ∧ (l.foldl (fun x p => x.enterWindow f r p) x).seq = x.seq ∧
    (l.foldl (fun x p => x.enterWindow f r p) x).spad = x.spad := by
  induction l generalizing x with
  | nil => exact ⟨rfl, rfl, rfl, rfl⟩
  | cons p l ih =>
    obtain ⟨a, b, c, d⟩ := ih (x.enterWindow f r p)
    obtain ⟨a', b', c', d', -⟩ := enterWindow_rest x f r p
    exact ⟨a.trans a', b.trans b', c.trans c', d.trans d'⟩

theorem beats_elems (y : Tile) (f : Feed) (l : List (Nat × ArrPos)) : (l.foldl (fun t g => t.beat f g.1 g.2 none) y).elems =
    l.foldl (fun e g => SMap.update (0 : Acc) (fun i v => accAdd v (BitVec.ofInt 40 (f.adds g.2 (i / 32) (i % 32)).1)) 256 (256 * g.1) e) y.elems ∧
    (l.foldl (fun t g => t.beat f g.1 g.2 none) y).cut = y.cut := by
  induction l generalizing y with
  | nil => exact ⟨rfl, rfl⟩
  | cons g l ih => exact ⟨(ih _).1.trans rfl, (ih _).2.trans rfl⟩

/-- Nothing happens between two beats where the tile goes on. -/
theorem ready_idle (s : State) (c : CellIx) (n : Nat) (r : ArrayRun) (h : (s.cell c).arr = some r) (h1 : r.ended = false)
    (h2 : r.joined = true) (h3 : 0 < r.fill ∨ (∃ st, r.lowest = some st) ∧ ((s.cell c).tile r.tile).cut = false) :
    State.arrayReady c n s = s := by
  cases n with
  | zero => rfl
  | succ n =>
    unfold State.arrayReady
    simp only [h, h1, h2, Bool.false_eq_true, if_false, Bool.not_true]
    split
    · rfl
    · rename_i hf
      rcases h3 with h3 | ⟨⟨st, h3⟩, h4⟩
      · exact absurd h3 hf
      · simp only [h3, h4, Bool.and_false, Bool.false_eq_true, if_false]

end Sys2Proof.Laws.TileLaws
end

