-- ==== Sys2Proof/Laws/WindowLaws.lean ====
section
/-! SUPPORT. Lemmas about the window unit, the queue and the stalls. -/

namespace Sys2Proof.Laws.WindowLaws

set_option linter.all false

open Sys2Proof Sys2Proof.Machine Sys2Proof.Claims

theorem setReg_getReg (q : Seq) (rd : BitVec 4) (v : Word) : (q.setReg rd v).reg rd = if rd = 0 then 0 else v := by
  rw [Seq.reg_setReg]; split <;> simp

theorem endBad_regs (q : Seq) : (q.endWith ccBadDesc).regs = q.regs := by
  have : stops ccBadDesc = true := by decide
  unfold Seq.endWith
  split
  · rfl
  · simp [this]

theorem next_regs' (q : Seq) : q.next.regs = q.regs := by
  unfold Seq.next Seq.goto
  extract_lets a
  split
  · rfl
  · exact endBad_regs a

theorem complete_regs (q : Seq) (code : Code) : (q.complete code).regs = q.regs := by
  unfold Seq.complete
  split
  · exact next_regs' q
  · split
    · rfl
    · split
      · exact next_regs' q
      · exact next_regs' _

theorem opDone_regs (q : Seq) (o : UnitOp) : (q.opDone o).regs = (o.regs.foldl (fun q r => q.setReg r.1 r.2) q).regs := by
  unfold Seq.opDone
  extract_lets q1
  split
  · exact complete_regs _ _
  · split
    · rfl
    · split
      · split
        · split <;> rfl
        · rfl
      · rfl

theorem next_flow (q : Seq) (h : q.waiting = none) (h2 : q.stalled = none) : q.next.lastCode = q.lastCode ∧ q.next.waiting = none ∧ q.next.stalled = none := by
  unfold Seq.next Seq.goto
  extract_lets a
  have hb : stops ccBadDesc = true := by decide
  split
  · exact ⟨rfl, h, h2⟩
  · unfold Seq.endWith
    split
    · exact ⟨rfl, h, h2⟩
    · simp [hb]; exact ⟨rfl, h, h2⟩

theorem completeBlocking_flow (q : Seq) (code : Code) : (q.completeBlocking code).lastCode = code ∧ (q.completeBlocking code).waiting = none ∧ (q.completeBlocking code).stalled = none := by
  unfold Seq.completeBlocking Seq.complete
  split
  · exact next_flow _ rfl rfl
  · split
    · exact ⟨rfl, rfl, rfl⟩
    · split
      · exact next_flow _ rfl rfl
      · exact next_flow _ rfl rfl

theorem foldSetReg (l : List (BitVec 4 × Word)) (q : Seq) : (l.foldl (fun q r => q.setReg r.1 r.2) q) = { q with regs := (l.foldl (fun q r => q.setReg r.1 r.2) q).regs } := by
  induction l generalizing q with
  | nil => rfl
  | cons a l ih => rw [List.foldl_cons, ih, Seq.setReg_eq]

theorem relCell_seq (s : State) (c : CellIx) (n) : ((s.relCell c n).cell c).seq = (s.cell c).seq := by
  obtain ⟨g, h⟩ := relCell_cell s c n; rw [h]

theorem repeats_seq (l : List Nat) (c : CellIx) (s : State) : ((l.foldl (fun v n => v.countRepeats c n) s).cell c).seq = (s.cell c).seq := by
  induction l generalizing s with
  | nil => rfl
  | cons n l ih =>
    rw [List.foldl_cons, ih]
    unfold State.countRepeats
    extract_lets now u
    have hu : (u.cell c).seq = (s.cell c).seq := by simp only [u, State.cell_modCell]
    split
    · unfold State.requestRetire; split
      · exact hu
      · rw [relCell_seq, State.cell_modCell]; exact hu
    · exact hu

theorem splitEop_at (p : List QItem) (e : QItem) (l : List QItem) (h : ∀ i ∈ p, i.eop = false) (he : e.eop = true) :
    splitEop (p ++ e :: l) = (p ++ [e], l) := by
  induction p with
  | nil => simp [splitEop, he]
  | cons a p ih =>
    have ha := h a (by simp)
    have := ih (fun i hi => h i (by simp [hi]))
    simp [splitEop, ha, this]

end Sys2Proof.Laws.WindowLaws
end

