-- ==== Sys2Proof/WellFormed.lean ====
section
/-! DEFINITION. Which commands are well formed: those whose operands the formats of the spec admit. A command that is not
well formed has a meaning too; what a sender of the spec can send is well formed. -/

namespace Sys2Proof

open Sys2Proof.Machine

/-- The body of a message counts in 16 bits (Table 2-8). -/
def Machine.Msg.wf (m : Msg) : Bool := decide (m.body.length ≤ 65535)

/-- A list has a length. -/
def hasLen {α : Type} (n : Nat) (l : List α) : Bool := decide (l.length = n)

/-- An aligned access of a power of two of bytes up to 64 (R462). -/
def accessOk (offset : Word) (n : Nat) : Bool := decide (n ∈ [1, 2, 4, 8, 16, 32, 64] ∧ offset.toNat % n = 0)

def Machine.WsAccess.wf : WsAccess → Bool
  | .load o n d => accessOk o n && hasLen n d
  | .store o d => accessOk o d.length

/-- A mailbox write stays in the mailbox (Table 16-5). -/
def Machine.MbWrite.wf : MbWrite → Bool
  | .hdr o b => decide (o + b.length ≤ 32)
  | .data o b => decide (o + b.length ≤ 61440)
  | .go => true
  | .stat _ _ => true

/-- A stream's sizes are 0 or a power of two from 2 to 65,536 (Table 13-11). -/
def sizeOk (n : BitVec 17) : Bool := decide (n = 0 ∨ (2 ≤ n.toNat ∧ n.toNat = 2 ^ Nat.log2 n.toNat))

/-- At most two bits of a codeword flip: what the code of R294 detects (log 5). -/
def rowFlipsOk (e : List RowFlip) : Bool :=
  decide e.Nodup && (List.range 17).all (fun i => decide (e.countP (fun f => decide (f.word.val = i)) ≤ 2))

/-- At most four symbols of a unit are in error: what the code of R500 detects (R501; log 5). -/
def unitFlipsOk (e : List UnitFlip) : Bool :=
  decide (e.map (fun f => (f.unit, f.sym.val))).Nodup &&
  e.all (fun f => decide (f.err ≠ 0 ∧ e.countP (fun g => decide (g.unit = f.unit)) ≤ 4))

/-- A command whose operands are admitted. -/
def Instr.wf : Instr → Bool
  | .windowOpenCmd u => UA.canonical u
  | .windowCloseCmd u => UA.canonical u
  | .carcaseCommandComplete u _ => UA.canonical u
  | .deferredWindowOpen u _ => UA.canonical u
  | .windowWriteLanded u _ => UA.canonical u
  | .commitApply u _ => UA.canonical u
  | .waveArrival u _ _ => UA.canonical u
  | .cutCmd m => m.wf
  | .killCmd m => m.wf
  | .commandArrival m => m.wf
  | .roleSet m => m.wf
  | .windowWrite m => m.wf
  | .chainSum m => m.wf
  | .blockFetch m e => m.wf && unitFlipsOk e
  | .ld1 _ _ e => rowFlipsOk e
  | .ld2 _ _ e => rowFlipsOk e
  | .ld4 _ _ e => rowFlipsOk e
  | .ld8 _ _ e => rowFlipsOk e
  | .st1 _ _ e => rowFlipsOk e
  | .st2 _ _ e => rowFlipsOk e
  | .st4 _ _ e => rowFlipsOk e
  | .arrayBeat _ _ _ e _ => rowFlipsOk e
  | .fetch _ _ e => unitFlipsOk e
  | .joinedFetchArrival _ e => unitFlipsOk e
  | .gatherColumn _ _ e => unitFlipsOk e
  | .gatherRow _ _ e => unitFlipsOk e
  | .patrol _ e => unitFlipsOk e
  | .replyArrival m => m.wf
  | .bounceArrival m => m.wf && m.bounced
  | .syncRead m => m.wf
  | .syncInit m => m.wf
  | .syncAdd m => m.wf
  | .syncWaitGe m => m.wf
  | .syncArrive m => m.wf
  | .syncArriveWait m => m.wf
  | .syncWaitGen m => m.wf
  | .syncSet m => m.wf
  | .syncClear m => m.wf
  | .syncWaitSet m => m.wf
  | .syncWaitClear m => m.wf
  | .spillAlloc m => m.wf
  | .spillFree m => m.wf
  | .spillWrite m => m.wf
  | .spillRead m => m.wf
  | .snapshotReport m => m.wf
  | .ucieLaneRepair _ _ n _ => decide (n ≤ 64)
  | .jobEntry _ e _ => hasLen 8 e
  | .killEntry _ e => hasLen 8 e
  | .cutEntry _ e => hasLen 8 e
  | .registerEntry _ e _ _ _ _ => hasLen 8 e
  | .releaseEntry _ e => hasLen 8 e
  | .evcSendGo _ _ n items _ => hasLen n.toNat items
  | .workstationWindowAccess _ _ _ a => a.wf
  | .streamReset _ w => sizeOk w.sqSize && sizeOk w.cqSize
  | .mbGo _ w => w.wf
  | .dataFlit _ b => hasLen 256 b
  | .abortFlit _ b => hasLen 256 b
  | .idleFlit _ b => hasLen 256 b
  | .helloFlit _ b => hasLen 256 b
  | .degradeFlit _ b => hasLen 256 b
  | .laneDegrade _ n _ => decide (n = 1 ∨ n = 2 ∨ n = 4)
  | .bootRun b => hasLen 40 b.chans0 && hasLen 40 b.chans1
  | .runCmd .. | .imageCmd .. | .imageItem .. | .scrubCmd .. | .cmdDispatch .. | .commandComplete .. | .scrubEnd ..
  | .li .. | .lih .. | .addI .. | .subI .. | .andI .. | .orI .. | .xorI .. | .shl .. | .shr .. | .sra .. | .mulI ..
  | .st8 .. | .beq .. | .bne .. | .blt ..
  | .bge .. | .bltu .. | .bgeu .. | .jal .. | .jr .. | .rdrand .. | .timeRd .. | .fenceI .. | .endRun ..
  | .illegalOpcode .. | .entryrd .. | .storeG .. | .groupFree ..
  | .storageRelease .. | .selectN .. | .auditN .. | .arrayI ..
  | .treeEmptyToken .. | .tileCheckpoint .. | .loadT .. | .loadComplete .. | .drainRq .. | .drainWide ..
  | .drainChain .. | .drainSab .. | .drainRow .. | .sabItemApply .. | .rangeReset .. | .requant .. | .rangeRequant ..
  | .dequant .. | .quant .. | .rangeF32 .. | .sabout .. | .rangeout .. | .rangemerge .. | .scaleRq .. | .ledgerW ..
  | .cvt .. | .lfuMul .. | .expF .. | .logF .. | .recip .. | .rsqrt .. | .softmax .. | .gelu .. | .silu .. | .normF ..
  | .wopen .. | .wclose .. | .syncOp .. | .qread .. | .qflush .. | .queueFlushComplete .. | .sendW ..
  | .unitOperationComplete .. | .stallRelease .. | .seqWdog .. | .chainInletAccept .. | .queueEnqueueResume ..
  | .queueTail .. | .spareSubstitution .. | .retirementRequest .. | .hostingStart .. | .hostContextSwitch ..
  | .ceLimitReached .. | .fieldRemap .. | .jobStart .. | .budgetExpiry .. | .jobEnd .. | .jobFailure ..
  | .completionEntryWrite .. | .deltaLayerBegin .. | .layerComplete .. | .evcHiqPop .. | .evcClaim ..
  | .evcComplete .. | .evcSrcWrite .. | .evcSgrpWrite .. | .evcThreshWrite .. | .evcHartCtlWrite ..
  | .evcSmaskWrite .. | .evcSpendRead .. | .evcSwfire .. | .evcMsixSend .. | .sourceFire .. | .statusSourceFire ..
  | .timerFire .. | .sqTail .. | .cqHead .. | .cqPublish .. | .coalesceTimeout .. | .busMasterEnableChange ..
  | .functionLevelReset | .dictionaryRead | .dictionaryWrite | .rwcStageWrite | .commitGroup | .commitDiscard
  | .chamoisDatagram .. | .solicit .. | .announceDelayExpiry | .dadComplete .. | .neighborSolicitation ..
  | .echoRequest .. | .saveStore | .saveDelayExpiry | .storeSaveComplete .. | .restoreStore | .snapGoStart
  | .snapGoAbandon | .fabricFreezeRequest | .fabricFreezeEnd | .freezeReached | .dbgDataRead | .holdPurge | .retrain
  | .routesWrite | .appGrantWrite | .lostRelease | .devIdApply | .keyRevoke | .fwStage | .fwCommit | .fwDiscard
  | .mrExtend | .quoteNonce | .quoteSigned | .akCertSigned | .dbgChallenge | .dbgResponse | .ethFrame ..
  | .replayTimeout .. | .helloSend .. | .helloTimeout .. | .flitLockLost .. | .flitLockAcquired ..
  | .linkRetrainComplete .. | .packetForward .. | .heldPacketRelease .. | .arrivalBufferDeliver .. | .cableChange ..
  | .powerControlStep .. | .thermalSample .. | .thermalTrip .. | .vcoreUnderVoltage .. | .vcoreRecovery ..
  | .inputUnderVoltage | .inputOverVoltage | .pwrEnHigh | .pwrEnLow | .modResetAssert | .internalResetRelease ..
  | .perstAssert | .perstDeassert | .freezeNAssert | .freezeNDeassert | .tapReset | .bypassTap .. | .idcodeTap ..
  | .samplePreload .. | .extest .. | .clampTap .. | .highzTap .. | .extestPulse .. | .extestTrain .. | .frzStatus ..
  | .dbgAccess .. | .inputRestored | .railFault .. | .pcieLinkEvent .. | .msixVectorUnmask .. | .linkModeWrite
  | .fwSlotWriteComplete .. => true

end Sys2Proof
end

