-- ==== Sys2Proof/Tests/Slice0.lean ====
section
/-! SUPPORT. Witnesses for the hypotheses of the statements, and the smoke test of well-formedness: small states, one step each. -/

namespace Sys2Proof.Tests

set_option Elab.async false

open Sys2Proof Sys2Proof.Machine Sys2Proof.Claims

/-! ### Small states -/

/-- The module at Driver ready, every unit as at reset. -/
def up : State := { State.reset with pwr := { State.reset.pwr with on := true, boot := .ready } }

/-- A command of job 1 in progress. -/
def aRun : CmdRun :=
  { cmd := 1, divide := false, logical := false, job := 1, layer := 0, a := 0, b := 0, hdr := 0, reserved := false, body := [], len := 0, src := 0, dest := 0, tag := 7 }

/-- `up` with cell 0 as given. -/
def onCell (x : Cell) : State := { up with cells := [(0, x)] }

/-- A cell that runs the word of `opc` and `f` at `pc`, with the block `b` in row 1. -/
def cellAt (pc : Nat) (opc : BitVec 8) (f : InsFields) (b : List Word) : Cell :=
  { seq := { running := true, pc := BitVec.ofNat 21 pc, cmd := some aRun },
    spad := Memory.writeWord (Memory.writeWords [] 128 b) pc (encodeIns opc f) }

/-- Cell 0 runs the word of `opc` and `f`. -/
def prog (pc : Nat) (opc : BitVec 8) (f : InsFields) : State := onCell (cellAt pc opc f [])

/-- The fields of an instruction whose block is in row 1. -/
def fb : InsFields := ⟨1, 2, 3, 128⟩

/-- Cell 0 runs a word of `opc` whose block in row 1 is `b`. -/
def blk (opc : BitVec 8) (b : List Word) : State := onCell (cellAt 0 opc fb b)

/-- A block of 16 words. -/
def pad (b : List Word) : List Word := b ++ List.replicate (16 - b.length) 0

/-- The conditions of `Issues`, evaluated. -/
def issuesB (s : State) (c : CellIx) (opc : BitVec 8) (f : InsFields) (rs : List (BitVec 4)) : Bool :=
  s.cellUp c && (s.cell c).issues && (s.cell c).fetched opc f &&
    !(s.cell c).rowBusy false ((s.cell c).seq.pc.toNat / 128) 1 && !(s.cell c).regBusy rs

theorem issues_of {s c opc f rs} (h : issuesB s c opc f rs = true) : Issues s c opc f rs := by
  simpa [issuesB, Issues, and_assoc] using h

/-- The conditions of `IssuesBlock` for a block in row 1, evaluated. -/
def blockB (s : State) (c : CellIx) (opc : BitVec 8) (f : InsFields) (rs : List (BitVec 4)) (mask : List Nat) (b : List Word) : Bool :=
  issuesB s c opc f rs && reservedOk mask b && decide ((s.cell c).blockAt f = some (1, b)) && !(s.cell c).rowBusy false 1 1

theorem block_of {s c opc f rs mask b} (h : blockB s c opc f rs mask b = true) : IssuesBlock s c opc f rs mask b := by
  simp only [blockB, Bool.and_eq_true, decide_eq_true_eq, Bool.not_eq_true'] at h
  exact ⟨issues_of h.1.1.1, h.1.1.2, 1, h.1.2, h.2⟩

/-! ### The scalar instructions -/

/-- Opcodes with the registers they need. -/
def regOps : List (BitVec 8 × List (BitVec 4)) := [(0x01, [1]), (0x02, [1]), (0x03, [1, 2, 3]), (0x04, [1, 2, 3]), (0x05, [1, 2, 3]), (0x06, [1, 2, 3]),
  (0x07, [1, 2, 3]), (0x08, [1, 2, 3]), (0x09, [1, 2, 3]), (0x0A, [1, 2, 3]), (0x0B, [1, 2, 3]), (0x29, [1]), (0x28, [1, 3])]

/-- The last word but one of the scratchpad runs each register instruction. -/
theorem test_register_instructions (p) (hp : p ∈ regOps) : Issues (prog 0x1FFFF0 p.1 fb) 0 p.1 fb p.2 :=
  have h : regOps.all (fun p => issuesB (prog 0x1FFFF0 p.1 fb) 0 p.1 fb p.2) = true := by decide +kernel
  issues_of (List.all_eq_true.mp h p hp)

theorem test_next_inside : NextInside (prog 0x1FFFF0 0x01 fb) 0 := ⟨by decide +kernel, by decide +kernel⟩

/-- RDRAND in a command with LOGICAL (test_register_instructions has it in one without). -/
theorem test_rdrand_logical :
    let x := cellAt 0 0x28 fb []
    Issues (onCell { x with seq := { x.seq with cmd := some { aRun with logical := true } } }) 0 0x28 fb [1, 3] := by
  exact issues_of (by decide +kernel)

/-- An access of n bytes at the last aligned address of the scratchpad. -/
def fLast (n : Nat) : InsFields := ⟨1, 2, 3, BitVec.ofNat 44 (0x200000 - n)⟩

def memOps : List (BitVec 8 × Nat) := [(0x10, 1), (0x11, 2), (0x12, 4), (0x13, 8), (0x14, 1), (0x15, 2), (0x16, 4), (0x17, 8)]

theorem test_loads_and_stores (p) (hp : p ∈ memOps) : Issues (prog 0 p.1 (fLast p.2)) 0 p.1 (fLast p.2) [1, 2] :=
  have h : memOps.all (fun p => issuesB (prog 0 p.1 (fLast p.2)) 0 p.1 (fLast p.2) [1, 2]) = true := by decide +kernel
  issues_of (List.all_eq_true.mp h p hp)

theorem test_last_addresses : ∀ p ∈ memOps,
    let x := (prog 0 p.1 (fLast p.2)).cell 0
    let a := (x.seq.reg 2 + (fLast p.2).imm.signExtend 64).toNat
    a < 0x200000 ∧ a % p.2 = 0 ∧ x.hazard [] [(a / 128, 1)] [] = none ∧ x.hazard [] [] [(a / 128, 1)] = none := by decide +kernel

/-- A misaligned LD2. -/
theorem test_misaligned : Issues (prog 0 0x11 ⟨1, 2, 3, 1⟩) 0 0x11 ⟨1, 2, 3, 1⟩ [1, 2] := issues_of (by decide +kernel)

/-- LD1 of the first address after the registers. -/
theorem test_no_register : Issues (prog 0 0x10 ⟨1, 2, 3, 0x201200⟩) 0 0x10 ⟨1, 2, 3, 0x201200⟩ [1, 2] ∧
    (prog 0 0x10 ⟨1, 2, 3, 0x201200⟩).narrowReg 0 0x201200 = none := ⟨issues_of (by decide +kernel), by decide +kernel⟩

/-- Flipped bits of the last row: none, and two in each of two codewords. -/
theorem test_row_errors :
    (rowErr [] 16383 (wordsOf 0x1FFFFF 1) []).2 ≠ .lost ∧
      (rowErr [] 16383 (wordsOf 0x1FFFFF 1) [⟨15, 0⟩, ⟨15, 1⟩, ⟨16, 0⟩, ⟨16, 71⟩]).2 = .lost := by decide +kernel

def claimOps : List (BitVec 8 × BitVec 44) := [(0x13, 0x200040), (0x12, 0x200044), (0x11, 0x200042)]

/-- LD8, LD4 and LD2 of RQ_CNT. -/
theorem test_claims (p) (hp : p ∈ claimOps) : Issues (prog 0 p.1 ⟨1, 2, 3, p.2⟩) 0 p.1 ⟨1, 2, 3, p.2⟩ [1, 2] :=
  have h : claimOps.all (fun p => issuesB (prog 0 p.1 ⟨1, 2, 3, p.2⟩) 0 p.1 ⟨1, 2, 3, p.2⟩ [1, 2]) = true := by decide +kernel
  issues_of (List.all_eq_true.mp h p hp)

def jumpOps : List (BitVec 8 × List (BitVec 4)) := [(0x20, [2, 3]), (0x21, [2, 3]), (0x22, [2, 3]), (0x23, [2, 3]), (0x24, [2, 3]), (0x25, [2, 3]), (0x26, [1])]

/-- Branches and JAL, with the last word of the scratchpad as the target. -/
def fj : InsFields := ⟨1, 2, 3, 0x3FFFF⟩

theorem test_branches_and_jal (p) (hp : p ∈ jumpOps) : Issues (prog 0 p.1 fj) 0 p.1 fj p.2 :=
  have h : jumpOps.all (fun p => issuesB (prog 0 p.1 fj) 0 p.1 fj p.2) = true := by decide +kernel
  issues_of (List.all_eq_true.mp h p hp)

theorem test_branch_target : ((0 : Word) + fj.imm.signExtend 64 * 8).toNat = 0x1FFFF8 := by decide +kernel

/-- JR to the last word of the scratchpad. -/
theorem test_jr : Issues (prog 0 0x27 ⟨0, 2, 0, 0x1FFFF8⟩) 0 0x27 ⟨0, 2, 0, 0x1FFFF8⟩ [2] := issues_of (by decide +kernel)

/-- JR to the first address outside. -/
theorem test_jr_outside : Issues (prog 0 0x27 ⟨0, 2, 0, 0x200000⟩) 0 0x27 ⟨0, 2, 0, 0x200000⟩ [2] := issues_of (by decide +kernel)

/-- JR to an address that is no multiple of 8. -/
theorem test_jr_misaligned : Issues (prog 0 0x27 ⟨0, 2, 0, 4⟩) 0 0x27 ⟨0, 2, 0, 4⟩ [2] := issues_of (by decide +kernel)

/-- A taken branch to the first word outside. -/
theorem test_beq_outside : Issues (prog 0 0x20 ⟨0, 2, 3, 0x40000⟩) 0 0x20 ⟨0, 2, 3, 0x40000⟩ [2, 3] := issues_of (by decide +kernel)

/-- A branch in the last word of the scratchpad that is not taken. -/
theorem test_fall_through : Issues (prog 0x1FFFF8 0x21 fb) 0 0x21 fb [2, 3] := issues_of (by decide +kernel)

/-- FENCE with no operation of its run, END, and the opcodes 0x0C and 0x7F of neither table. -/
theorem test_fence_end_illegal (opc) (h : opc ∈ [(0x2E : BitVec 8), 0x2F, 0x0C, 0x7F]) : Issues (prog 0 opc fb) 0 opc fb [] :=
  have h' : [(0x2E : BitVec 8), 0x2F, 0x0C, 0x7F].all (fun opc => issuesB (prog 0 opc fb) 0 opc fb []) = true := by decide +kernel
  issues_of (List.all_eq_true.mp h' opc h)

/-- FENCE while an operation of its run is in flight. -/
theorem test_fence_holds : Issues (onCell { cellAt 0 0x2E fb [] with ops := [{ id := 3, unit := .rq }] }) 0 0x2E fb [] := issues_of (by decide +kernel)

/-! ### Unit operations -/

theorem rows_of {x : Cell} {r w : List (Nat × Nat)} (h : (rowsIn (r ++ w) && (x.hazard [] r w).isNone) = true) : RowsFree x r w := by
  simpa [RowsFree, Option.isNone_iff_eq_none] using h

/-- The requantisation unit is free for operation `op` of the block `b`, with its rows. -/
def rqB (s : State) (b : List Word) (op : Nat) (reads writes : List (Nat × Nat)) : Bool :=
  blockB s 0 0x4C fb [1, 2] maskRq b && decide (bf b 0 3 0 = op) && !(s.cell 0).rqBusy &&
    (rowsIn (reads ++ writes) && ((s.cell 0).hazard [] reads writes).isNone)

theorem rq_of {s b op reads writes} (h : rqB s b op reads writes = true) :
    IssuesBlock s 0 0x4C fb [1, 2] maskRq b ∧ bf b 0 3 0 = op ∧ (s.cell 0).rqBusy = false ∧ RowsFree (s.cell 0) reads writes := by
  simp only [rqB, Bool.and_eq_true, decide_eq_true_eq, Bool.not_eq_true'] at h
  exact ⟨block_of h.1.1.1, h.1.1.2, h.1.2, rows_of (by simpa using h.2)⟩

/-- A block of the requantisation unit: operation, rows, lengths, operand words 3 and 4. -/
def rqBlock (w0 w1 w2 : Word) (w3 w4 : Word := 0) : List Word := pad [w0, w1, w2, w3, w4]

theorem test_range_reset :
    let b := rqBlock 0 0 0
    IssuesBlock (blk 0x4C b) 0 0x4C fb [1, 2] maskRq b ∧ bf b 0 3 0 = 0 ∧ ((blk 0x4C b).cell 0).rqBusy = false ∧ RowsFree ((blk 0x4C b).cell 0) [] [] :=
  rq_of (by decide +kernel)

/-- One row, the last of the scratchpad. -/
theorem test_range_f32 :
    let b := rqBlock 5 16383 1
    IssuesBlock (blk 0x4C b) 0 0x4C fb [1, 2] maskRq b ∧ bf b 0 3 0 = 5 ∧ ((blk 0x4C b).cell 0).rqBusy = false ∧
      RowsFree ((blk 0x4C b).cell 0) [(16383, 1)] [] := rq_of (by decide +kernel)

theorem test_rangeout :
    let b := rqBlock 7 (16383 * 2 ^ 14) 8
    IssuesBlock (blk 0x4C b) 0 0x4C fb [1, 2] maskRq b ∧ bf b 0 3 0 = 7 ∧ ((blk 0x4C b).cell 0).rqBusy = false ∧
      RowsFree ((blk 0x4C b).cell 0) [] [(16383, 1)] := rq_of (by decide +kernel)

theorem test_rangemerge :
    let b := rqBlock 8 16383 8
    IssuesBlock (blk 0x4C b) 0 0x4C fb [1, 2] maskRq b ∧ bf b 0 3 0 = 8 ∧ ((blk 0x4C b).cell 0).rqBusy = false ∧
      RowsFree ((blk 0x4C b).cell 0) [(16383, 1)] [] := rq_of (by decide +kernel)

/-- LEDGER of the last unit of device memory. -/
theorem test_ledger :
    let x := cellAt 0 0x4E ⟨0, 2, 3, 0⟩ []
    let s := onCell { x with seq := { x.seq with regs := [(2, 0xFFFFFFFFFF), (3, 1)] } }
    Issues s 0 0x4E ⟨0, 2, 3, 0⟩ [2, 3] ∧ ((s.cell 0).seq.reg 3).toNat = 1 ∧ ((s.cell 0).seq.reg 2).toNat + 1 ≤ 2 ^ 40 ∧ (s.cell 0).rqBusy = false := by
  exact ⟨issues_of (by decide +kernel), by decide +kernel, by decide +kernel, by decide +kernel⟩

/-- `blk` with the word `v` at byte `a`. -/
def blkWith (opc : BitVec 8) (b : List Word) (a : Nat) (v : Word) : State :=
  let x := cellAt 0 opc fb b
  onCell { x with spad := Memory.writeWord x.spad a v }

/-- Operand rows of a block: source, destination and two others. -/
def w1 (a b c : Nat) (d : Nat := 0) : Word := BitVec.ofNat 64 (a + b * 2 ^ 14 + c * 2 ^ 28 + d * 2 ^ 42)

/-- REQUANT and RANGE_REQUANT of one row of 8-bit codes. -/
theorem test_requant : ∀ op ∈ [1, 2],
    let b := rqBlock (BitVec.ofNat 64 op) (w1 100 200 300) 1 0x800000
    let s := blk 0x4C b
    rqB s b op (requantRows b (s.cell 0)).1 (requantRows b (s.cell 0)).2 = true ∧ requantFault b (s.cell 0) = none := by decide +kernel

/-- A record of 8-bit codes, one channel, in row 300, whichever way the channels lie. -/
theorem test_dequant : ∀ byRow : Bool,
    let b := rqBlock 3 (w1 100 200 300) 1
    let s := blkWith 0x4C b (128 * 300) 0x180
    let h := recHeader (s.cell 0).spad 300
    rqB s b 3 ((100, rowTiles b * groupRows (recWidth h)) :: recRows 300 0 (channelCount byRow 1)) [(200, 1)] = true ∧
      recBad h = false ∧ bf b 2 51 48 % 2 = 0 ∧ Rec.nch h = 1 := by decide +kernel

theorem test_quant : ∀ byRow : Bool,
    let b := rqBlock 4 (w1 100 200 300) 1
    let s := blkWith 0x4C b (128 * 300) 0x180
    let h := recHeader (s.cell 0).spad 300
    rqB s b 4 ((100, 1) :: recRows 300 0 (channelCount byRow 1)) [codeRows b (recWidth h)] = true ∧ recBad h = false ∧ Rec.width h ≠ 0xE ∧
      ¬(Rec.sym h = true ∧ Rec.width h = 1) ∧ Rec.nch h = 1 := by decide +kernel

/-- SABOUT of the last 32 slots, as codes and as words. -/
theorem test_sabout :
    let b := rqBlock 0x26 (w1 100 200 300) (1 + 65504 * 2 ^ 32) 0x800000
    let d := rqBlock 6 (w1 100 200 300) (1 + 65504 * 2 ^ 32)
    rqB (blk 0x4C b) b 6 [(300, 2)] [codeRows b (rqConv b).width] = true ∧ requantFault b ((blk 0x4C b).cell 0) = none ∧ bb b 0 5 = true ∧
      ((blk 0x4C b).cell 0).scatters = false ∧
      rqB (blk 0x4C d) d 6 [] [(200, 2)] = true ∧ bb d 0 5 = false ∧ bf d 2 47 32 + 32 * 1 = 65536 := by decide +kernel

/-- SCALE of one channel, from ranges and from given scales. -/
theorem test_scale :
    let b := rqBlock 9 (w1 100 200 300 400) 1 0x800000
    let d := rqBlock 0x89 (w1 100 200 300 400) 1 0x800000
    rqB (blk 0x4C b) b 9 [(300, 1)] [(400, 1), (200, 1)] = true ∧ rqB (blk 0x4C d) d 9 [(100, 1), (300, 1)] [(400, 1)] = true ∧
      bb d 0 7 = true ∧ Prec.outbits (b.getD 3 0) = 8 ∧ bf b 0 9 8 = 0 ∧ bb b 0 4 = false := by decide +kernel

/-- One row of one element for each LFU operation. -/
theorem test_lfu : ∀ op ∈ List.range 10,
    let b := pad [BitVec.ofNat 64 op, w1 100 200 300 400, 1 + 2 ^ 32, 0, 500]
    let s := blk 0x50 b
    let k := lfuBlk b
    blockB s 0 0x50 fb [2] maskLfu b = true ∧ k.op = op ∧ k.phase ≠ 3 ∧ k.len ≠ 0 ∧ k.rows ≠ 0 ∧ (s.cell 0).unitBusy .lfu = false ∧
      rowsIn (k.io.1 ++ k.io.2) = true ∧ (s.cell 0).hazard [] k.io.1 k.io.2 = none := by decide +kernel

/-! ### Tiles -/

/-- One group column and one tile of 8-bit weights and activations, a CONTINUE of an empty tile. -/
theorem test_array :
    let b := pad [0x106, 0x88, w1 100 200 0, 1]
    let s := blk 0x48 b
    blockB s 0 0x48 fb [2] maskArray b = true ∧ arrayPrecOk (b.getD 1 0) = true ∧ bf b 0 23 8 = 1 ∧ bf b 3 15 0 = 1 ∧ bb b 0 2 = true ∧
      rowsIn (arrayRows b) = true ∧ (s.cell 0).hazard [] (arrayRows b) [] = none ∧ (s.cell 0).arr = none ∧
      ((s.cell 0).tile 0).joined.length < 16 ∧ ((s.cell 0).tile 0).joinable (bb b 0 1) = true := by decide +kernel

/-- LOAD of the last tile of the scratchpad. -/
theorem test_load : let f : InsFields := ⟨0, 2, 0, 0x1FE000⟩
    issuesB (prog 0 0x49 f) 0 0x49 f [0, 2] = true ∧ 0x1FE000 % 8192 = 0 ∧ ((prog 0 0x49 f).cell 0).tile0.st = .empty ∧
      ((prog 0 0x49 f).cell 0).hazard [] [(0x1FE000 / 128, 64)] [] = none := by decide +kernel

/-- Drains to RQ (codes), WIDE, CHAIN and SAB of an empty and of a filling tile. -/
theorem test_drains : ∀ p ∈ [(0, (0x10 : Word)), (1, 2), (2, 4), (3, 6)], ∀ st ∈ [TileSt.empty, .filling],
    let b := pad [p.2, UA.mk 0 (UA.keyOf 5 1), 0, w1 64 300 0 , 0, 0x800000]
    let x := cellAt 0 0x4A fb b
    let s := onCell { x with tile0 := { x.tile0 with st := st } }
    blockB s 0 0x4A fb [2] maskDrain b = true ∧ bf b 0 2 1 = p.1 ∧ drainFault (s.cell 0).spad b = none ∧ bb b 0 3 = false ∧
      (s.cell 0).hazard [] (drainRows b).1 (drainRows b).2 = none := by decide +kernel

/-- A tile that closes, one due a checkpoint (with an upset element or none), one that loads, a drain of row 30. -/
theorem test_tile_events :
    let d : DrainRun := { block := pad [2], row := 30, op := 0 }
    (let s := onCell { tile0 := { st := .closing, drain := some d } }
     s.cellUp 0 = true ∧ (s.cell 0).arrayOn 0 = false ∧ (s.cell 0).tile0.token = false ∧ d.due = false) ∧
    (let s := onCell { tile0 := { st := .filling, token := true, joined := List.replicate 16 ⟨false, pad [], 0⟩ } }
     (s.cell 0).arrayOn 0 = false ∧ 16 ≤ (s.cell 0).tile0.joined.length ∧ (s.cell 0).tile0.storageFails 31 (some ⟨31, 31, 1⟩) = true) ∧
    (let s := onCell { tile0 := { st := .loading, load := some (16320, 0) } }
     (s.cell 0).held = none ∧ (s.cell 0).tile0.load = some (16320, 0)) ∧
    (bf d.block 0 2 1 = 1 ∧ d.row < 31 ∧ Prec.delta (d.block.getD 5 0) = false) := by decide +kernel

/-- A sum at the port of an empty inlet. -/
theorem test_inlet (m : ChainSum) :
    let s := onCell { tile0 := { port := [m] } }
    (s.cell 0).tile0.inlet = none ∧ (s.cell 0).tile0.port = [m] ∧ (s.cell 0).tile0.drain = none := ⟨rfl, rfl, rfl⟩

/-- An item in the queue of the last bank, whose add the check finds wrong. -/
theorem test_scatter_item :
    let x : Cell := { sab := { queues := [(15, [⟨15, 1, false⟩])] } }
    SMap.getD x.sab.queues 15 [] = [⟨15, 1, false⟩] ∧ x.sab.addFails ⟨15, 1, false⟩ 1 = true := by decide +kernel

/-- An array instruction that fills its window, and one whose positions are due. -/
theorem test_beats :
    let r : ArrayRun := { block := pad [], op := 0, joined := true }
    let q : ArrayRun := { r with fill := 0, plan := [⟨0, 0, 0, 15, 0⟩, ⟨0, 0, 0, 15, 0⟩] }
    (let x := (onCell { arr := some r }).cell 0
     x.retireReq = false ∧ x.arr = some r ∧ r.ended = false ∧ r.joined = true ∧ 1 < r.fill) ∧
    (let s := onCell { arr := some q }
     let x := s.cell 0
     let take := q.takers (decide (Prec.order (x.feed q).prec = 0)) [] 0
     q.fill = 0 ∧ q.lowest = some 0 ∧ (x.tile q.tile).cut = false ∧ s.dutyWait 0 = false ∧
      ArrayRun.lowest { q with pos := (List.range 4).map (fun g => (take.getD g none).elim (q.pos.getD g 0) (· + 1)) } = some 1) := by
  decide +kernel

/-! ### Groups -/

/-- A message of this device's driver to the unit of a key. -/
def msg (cls : BitVec 8) (key : Nat) (body : List Payload) : Msg :=
  ⟨UA.mk up.net.devId key, 0, cls, 7, UA.mk up.net.devId 0, 0, false, body⟩

/-- FETCH to the last rows that hold a group of 8-bit codes, with an empty and with a full mask; the entry is all zero. -/
theorem test_fetch : ∀ mask ∈ [0, 2 ^ 64 - 1],
    let b := pad [5, BitVec.ofNat 64 mask, BitVec.ofNat 64 (16319 + 8 * 2 ^ 14)]
    let s := blk 0x40 b
    blockB s 0 0x40 fb [2] maskFetch b = true ∧ s.groupOk b = true ∧ bb b 0 36 = false ∧ bb b 0 37 = false ∧
      rowsIn ([] ++ [(16319, groupRows 8)]) = true ∧ (s.cell 0).hazard [] [] [(16319, groupRows 8)] = none ∧ s.mem.entry 5 = (0, 0) ∧
      Ent2.ok 8 0 0 = true ∧ Ent2.loc 0 = 0 ∧ unitsRead 8 0 false mask = [] := by decide +kernel

/-- `s` with the entry of index `i`: its first block, of 8-bit codes, in two units at `base` of level `loc`. -/
def withEntry (s : State) (i base loc : Nat) : State :=
  let e := Ent2.mk base 1 false loc false 2
  { s with mem := { s.mem with mem := Memory.writeWords [] (s.mem.dirAddr i) [e.1, e.2] } }

/-- FETCH of a block whose units are in device memory with their tags, at level 3, and at level 4 without the bus. -/
theorem test_fetch_levels :
    let b := pad [5, 1, BitVec.ofNat 64 (8 * 2 ^ 14)]
    let s (loc : Nat) := withEntry (blk 0x40 b) 5 1000 loc
    let t : State := { s 0 with mem := { (s 0).mem with tags := [(1000, 2)] } }
    (∀ loc ∈ [0, 1, 2], Ent2.loc ((s loc).mem.entry 5).2 = loc ∧ Ent2.ok 8 ((s loc).mem.entry 5).1 ((s loc).mem.entry 5).2 = true ∧
      1 &&& Ent2.bitmap ((s loc).mem.entry 5).1 ((s loc).mem.entry 5).2 = 1) ∧
      (∀ u ∈ unitsRead 8 1 false 1, (t.mem.readUnit (1000 + u)).2.getLsbD 1 = headTag 8 false u ∧ t.mem.unitErr (1000 + u) [] ≠ .uncorrectable) ∧
      (s 2).pcie.bme = false := by decide +kernel

/-- A joined FETCH at the routers of depth 4. -/
theorem test_fetch_join :
    let b := pad [BitVec.ofNat 64 (5 + 2 ^ 34 + 2 ^ 36), 1, BitVec.ofNat 64 (8 * 2 ^ 14)]
    blockB (blk 0x40 b) 0 0x40 fb [2] maskFetch b = true ∧ (blk 0x40 b).groupOk b = true ∧ bb b 0 36 = true ∧ bf b 0 35 32 = 4 := by
  decide +kernel

/-- GATHER of one column, and of four rows, of one group whose entry is all zero. -/
theorem test_gather : ∀ k ∈ [0, 1],
    let b := pad [BitVec.ofNat 64 k, 100 + 2 ^ 32, BitVec.ofNat 64 (200 * 2 ^ 24 + 400 * 2 ^ 38), 2 ^ 32, 2 ^ 32, 8]
    let s := blk 0x43 b
    let io := gatherRows b
    blockB s 0 0x43 fb [2] maskGather b = true ∧ bb b 0 0 = decide (k = 1) ∧ formOk (bf b 5 3 0) (bf b 5 5 4) = true ∧ rowsIn (io.1 ++ io.2) = true ∧
      (s.cell 0).hazard [] io.1 io.2 = none ∧ bf b 1 63 32 = 1 ∧ bf b 4 63 32 = 1 ∧
      (∀ v ∈ gatherIdx (s.cell 0).spad b, v = none ∨ v = some 0) ∧ (gatherGroups (s.cell 0).spad b).map (·.1) = [0] ∧
      s.mem.entry 0 = (0, 0) ∧ Ent2.ok 8 0 0 = true ∧ Ent2.loc 0 = 0 ∧ (s.cell 0).ops = [] := by decide +kernel

/-- The indices of a list lie in its tensor: a graph whose tensor has 8 rows. And a group at level 3 that a gather has to ask for. -/
theorem test_gather_bounds :
    let b := pad [0, 100 + 2 ^ 32, BitVec.ofNat 64 (200 * 2 ^ 24 + 400 * 2 ^ 38), 2 ^ 32, 2 ^ 32, 8]
    let j : JobRec := ⟨1, 7, 9, 1, 0, 0, [], false, false, none, none, .running, 0, 0, [], [], none, false, false, [], [], false, false, 0, {}⟩
    let t : List Word := [0, 8 + 8 * 2 ^ 32, 0, 0, 0, 0, 0, 0]
    let s : State := { blk 0x43 b with drv := { up.drv with jobs := [j], graphs := [⟨1, [t], [[]], false⟩] } }
    let u := withEntry s 0 1000 1
    s.gatherBad 0 b = false ∧ ((gatherGroups (s.cell 0).spad b).find? (fun g =>
      decide (g.2 &&& Ent2.bitmap (u.mem.entry g.1).1 (u.mem.entry g.1).2 ≠ 0 ∧ Ent2.loc (u.mem.entry g.1).2 = 1))).isSome = true := by
  decide +kernel

/-- A BLOCK_FETCH to cell 0. -/
theorem test_block_fetch :
    let m := msg 0x02 (UA.keyOf 5 0) [5, 1, BitVec.ofNat 120 (8 * 2 ^ 14), 0]
    up.requestOk m 0x02 = true ∧ m.epoch = up.epochOf m.dest ∧ up.blockFetchReady m = true ∧
      (let s := withEntry up 5 1000 1
       s.blockFetchReady m = true ∧ s.groupOk [5, 1, BitVec.ofNat 64 (8 * 2 ^ 14), 0] = true) := by decide +kernel

/-- Joined fetches at a router of depth 4: one that holds blocks for the cell, one whose operands differ, one that ended, one
whose blocks are on their way, and a router that holds none. -/
theorem test_joined_fetch :
    let o : UnitOp := { id := 0, unit := .fetch, done := false, joinDepth := 5, joinNo := 1, block := pad [5, 1, BitVec.ofNat 64 (8 * 2 ^ 14)] }
    let j : JoinRec := ⟨aRun.src, aRun.tag, 1, o.block, 0, 0, 0, some [], [0], none, none⟩
    let s (js : List JoinRec) : State := { onCell { seq := { cmd := some aRun }, ops := [o] } with units := [(UA.keyOf 4 0, { joins := js })] }
    ((s []).cell 0).joining = some o ∧ ((s []).cell 0).cmdNo o.cmd = some aRun ∧ (s []).cellUp 0 = true ∧
      (∀ k ∈ [j, { j with block := pad [6] }, { j with ends := some ccBadDesc }, { j with blocks := none }],
        ((s [k]).unit (UA.keyOf (o.joinDepth - 1) 0)).joins.find? (fun j => decide (j.src = aRun.src ∧ j.tag = aRun.tag ∧ j.n = o.joinNo ∧ 0 ∈ j.left)) = some k) ∧
      sameFetch j.block o.block = true ∧ sameFetch (pad [6]) o.block = false ∧
      (List.replicate 64 { j with n := 2 }).find? (fun j => decide (j.n = o.joinNo)) = none ∧
      fetchMask [] o.block 0 = 1 := by decide +kernel

/-- ENTRYRD of the last entry of the directory. -/
theorem test_entryrd : let f : InsFields := ⟨1, 2, 3, 0xFFFFFF⟩
    issuesB (prog 0 0x41 f) 0 0x41 f [1, 2, 3] = true ∧ ((prog 0 0x41 f).cell 0).seq.reg 2 = 0 ∧ (f.imm.signExtend 64 : Word).toNat + 1 = (prog 0 0x41 f).mem.dirEntries := by
  decide +kernel

/-- SELECT and AUDIT of one position with the greatest shift. -/
theorem test_select_audit :
    let b := pad [BitVec.ofNat 64 (32 * 2 ^ 44 + 8 * 2 ^ 50), w1 100 200 0, 1]
    let d := pad [BitVec.ofNat 64 (32 * 2 ^ 44 + 8 * 2 ^ 54), w1 100 200 300, 1]
    let s := blk 0x44 b
    let t := blk 0x45 d
    blockB s 0 0x44 fb [1, 2] maskSelect b = true ∧ formOk 8 0 = true ∧ bf b 0 53 50 = 8 ∧ bf b 0 49 44 = 32 ∧ bf b 2 23 0 = 1 ∧
      rowsIn [(100, groupRows 8), (200, 1)] = true ∧ (s.cell 0).hazard [] [(100, groupRows 8)] [(200, 1)] = none ∧
      blockB t 0 0x45 fb [1, 2] maskSelect d = true ∧ bf d 0 57 54 = 8 ∧ (t.cell 0).hazard [] [(300, groupRows 8)] [] = none := by decide +kernel

/-- STORE of a group without a stored block and of one whose first block is stored, with room for it. -/
theorem test_store :
    let b := pad [5, 0, BitVec.ofNat 64 (100 + 8 * 2 ^ 14)]
    let s := blk 0x42 b
    let t := blkWith 0x42 b (128 * 100) 1
    blockB s 0 0x42 fb [2] maskFetch b = true ∧ s.groupOk b = true ∧ bb b 0 38 = false ∧ (s.cell 0).hazard [] [(100, groupRows (blockWidth b))] [] = none ∧
      (storeForm (s.cell 0) b).2.2.2 = [] ∧ blockB t 0 0x42 fb [2] maskFetch b = true ∧ (storeForm (t.cell 0) b).2.2.2 ≠ [] ∧
      (t.mem.alloc 1 (storeForm (t.cell 0) b).2.2.2.length (.group 5)).isSome = true := by decide +kernel

/-- GROUP_FREE of the last entry, which is valid, and storage that waits for its release. -/
theorem test_group_free :
    let s := { up with mem := { up.mem with mem := Memory.writeWord [] (up.mem.dirAddr 0xFFFFFF + 8) (2 ^ 40), replaced := [(100, 2, 1)] } }
    s.fabricUp = true ∧ Ent2.valid (s.mem.entry 0xFFFFFF).2 = true ∧ 0xFFFFFF < s.mem.dirEntries ∧
      s.mem.replaced.find? (fun y => decide (y.1 = 100)) = some (100, 2, 1) ∧ s.storageRead 100 = false := by decide +kernel

/-! ### Windows, messages, queues -/

/-- WOPEN of the last row for the driver, free and while the window closes. -/
theorem test_wopen :
    let b := pad [BitVec.ofNat 64 (15 + 16383 * 2 ^ 4 + 2 ^ 18), UA.mk up.net.devId 0]
    let s := blk 0x54 b
    let t := { s with units := [(UA.keyOf 5 0, { wins := [(15, { st := .closing })] })] }
    blockB s 0 0x54 fb [1, 2] maskWopen b = true ∧ s.winFree (s.cellAddr 0) 15 = true ∧ UA.canonical (b.getD 1 0) = true ∧ bf b 0 3 0 = 15 ∧
      bf b 0 17 4 + bf b 0 32 18 = 16384 ∧ blockB t 0 0x54 fb [1, 2] maskWopen b = true ∧ (t.win (UA.key (t.cellAddr 0)) 15).st = .closing := by decide +kernel

/-- WCLOSE of a free window, of an open one, and of one with a write not yet landed. -/
theorem test_wclose : ∀ w ∈ [({} : Win), { st := .opened }, { st := .opened, unlanded := [⟨0, 0, 0, 0, 0, [], false⟩] }],
    let f : InsFields := ⟨0, 0, 0, 15⟩
    let s := { prog 0 0x55 f with units := [(UA.keyOf 5 0, { wins := [(15, w)] })] }
    issuesB s 0 0x55 f [] = true ∧ s.win (UA.keyOf 5 0) 15 = w := by decide +kernel

/-- SYNC with and without BLOCK, QREAD, QFLUSH. -/
theorem test_sync_queue : (∀ p ∈ [((0x58 : BitVec 8), (0x400000 : BitVec 44), [(1 : BitVec 4), 2, 3]), (0x58, 0, [1, 2, 3]), (0x5C, 0, [1, 3]), (0x5D, 0, [])],
    let f : InsFields := ⟨1, 2, 3, p.2.1⟩
    issuesB (prog 0 p.1 f) 0 p.1 f p.2.2 = true) ∧ ((prog 0 0x5C fb).cell 0).rplq = {} := by decide +kernel

/-- QREAD of a queue with an item. -/
theorem test_qread_item : let x := cellAt 0 0x5C fb []
    let s := onCell { x with rplq := { items := [⟨true, 9, 1⟩] } }
    issuesB s 0 0x5C fb [1, 3] = true ∧ (s.cell 0).rplq.flushing = false ∧ (s.cell 0).rplq.items = [⟨true, 9, 1⟩] := by decide +kernel

/-- SEND of the last word of the scratchpad. -/
theorem test_send :
    let b := pad [UA.mk up.net.devId (UA.keyOf 5 1), 0, BitVec.ofNat 64 (8 * 2 ^ 41), 0x1FFFF8]
    let s := blk 0x60 b
    blockB s 0 0x60 fb [2] maskSend b = true ∧ UA.canonical (b.getD 0 0) = true ∧ bf b 3 20 0 = 0x1FFFF8 ∧ bf b 2 61 41 = 8 ∧
      (s.cell 0).hazard [] [rowSpan 0 0x1FFFF8 8] [] = none := by decide +kernel

/-- An operation that is done, one that holds the program, and one of another run. -/
theorem test_completion :
    let o : UnitOp := { id := 3, unit := .rq, regs := [(0, 9)] }
    let p : UnitOp := { o with id := 4, blocking := true }
    let s := onCell { seq := { running := true, waiting := some 4, cmd := some aRun }, ops := [o, p] }
    s.cellUp 0 = true ∧ (∃ k, (s.cell 0).op? k = some o) ∧ (∃ k, (s.cell 0).op? k = some p) ∧ o.done = true ∧ o.spill = none ∧ aRun.no = o.cmd ∧
      absorbed o.code = false ∧ stops o.code = false := by
  refine ⟨by decide +kernel, ⟨3, by decide +kernel⟩, ⟨4, by decide +kernel⟩, rfl, rfl, rfl, by decide +kernel, by decide +kernel⟩

/-- A stalled ADD whose registers are free, a stall of 1 ms. -/
theorem test_stall :
    let s := { onCell { seq := { running := true, stalled := some (5, .addI 0 fb), cmd := some aRun } } with runTime := 1000000 }
    s.cellUp 0 = true ∧ (s.cell 0).seq.waiting = none ∧ (s.cell 0).held = none ∧ (s.cell 0).scrubbing = false ∧ (s.cell 0).regBusy [1, 2, 3] = false ∧
      (s.cell 0).seq.stallRep = false ∧ (s.cell 0).seq.limit = 1000 ∧ 1000 * (s.cell 0).seq.limit.toNat ≤ (s.runTime - (s.cell 0).seq.stallSince).toNat := by
  decide +kernel

/-- Queues of cell 0 that flush, hold items at the router and have waited 20 µs; HIQ likewise. -/
theorem test_queue_events :
    (let i : QItem := ⟨false, 3, 0⟩
     let e : QItem := ⟨true, 3, 0⟩
     let x : Cell := { cmdq := { flushing := true, inflow := [i] ++ e :: [i] } }
     (onCell x).cellUp 0 = true ∧ x.cmdq.items = [] ∧ (∀ j ∈ [i], j.eop = false) ∧ e.eop = true ∧ x.rplq.flushing = false ∧
      ownPackets 1 true [e] = true ∧ ownPackets 0 true [e, ⟨true, 0x30, 0⟩] = true) ∧
    (let x : Cell := { cmdq := { timer := some 0 }, cmdQtmo := 20000 }
     ((onCell x).cell 0).cmdq.timer = some 0 ∧ x.cmdQtmo ≠ 0 ∧ x.cmdQtmo.toNat ≤ ((20000 : Word) - 0).toNat) := by decide +kernel

theorem test_hiq_timer : let s := { up with runTime := 20000, evc := { up.evc with hiq := { timer := some 0 }, hiqQtmo := 20000 } }
    s.hostUp = true ∧ s.evc.hiqQtmo ≠ 0 ∧ s.evc.hiqQtmo.toNat ≤ (s.runTime - 0).toNat := by decide +kernel

/-! ### Commands -/

/-- A command at cell 0 not yet begun. -/
def freshCell (r : CmdRun) : Cell := { seq := { cmd := some r } }

/-- A RUN with five items at the last word of the scratchpad: over all tiles, and with DIVIDE as the last member. -/
theorem test_run : ∀ d ∈ [false, true],
    let r : CmdRun := { aRun with len := 5, a := 0x1FFFF8, divide := d, b := if d then 0x1000000 else 0, j := if d then 0xFFFFFF else 0 }
    let s := onCell (freshCell r)
    s.cellUp 0 = true ∧ (s.cell 0).fresh 0x01 = some r ∧ r.reserved = false ∧ r.len = 5 ∧ r.a.toNat % 8 = 0 ∧ r.b.toNat ≤ 2 ^ 24 ∧
      (r.divide = false → r.b = 0) ∧ (r.divide = true → r.j < r.b.toNat) := by decide +kernel

/-- The header of a command of job 1. -/
def hdrOf (cmd : Nat) (more : Nat := 0) : Payload := BitVec.ofNat 120 (cmd + 2 ^ 16 + more)

/-- A RUN, a WINDOW and a SCRUB at the head of CMD: of a free cell, and of one that another job owns. -/
theorem test_dispatch : ∀ cmd ∈ [1, 3, 4], ∀ owner ∈ [0, 1, 2],
    let m := msg 0x01 (UA.keyOf 5 0) [hdrOf cmd]
    let x : Cell := { cmdq := { items := m.items }, spdOwner := BitVec.ofNat 32 owner }
    let s := onCell x
    s.cellUp 0 = true ∧ x.dispatches = true ∧ x.cmdq.head.2 = true ∧ Msg.ofItems x.cmdq.head.1 = some m ∧
      (cmdOf m 0 1 0).cmd = BitVec.ofNat 8 cmd ∧ (cmdOf m 0 1 0).job = 1 ∧ x.ops = [] ∧ x.seq.ended = [] := by decide +kernel

theorem test_scrub_cmd : let r : CmdRun := { aRun with cmd := 4 }
    ((onCell (freshCell r)).cell 0).fresh 0x04 = some r ∧ (freshCell r).ops = [] ∧ r.reserved = false := by decide +kernel

/-- The longest IMAGE, and one byte group of it. -/
theorem test_image : let r : CmdRun := { aRun with cmd := 2, a := 0, b := 983008, len := 1 + ceilDiv 983008 15 }
    let x : Cell := { freshCell r with cmdq := { midHead := true } }
    ((onCell x).cell 0).fresh 0x02 = some r ∧ r.reserved = false ∧ r.b.toNat % 8 = 0 ∧ r.b.toNat ≤ 983008 ∧ r.a.toNat + r.b.toNat ≤ 0x200000 := by
  decide +kernel

theorem test_image_item : let r : CmdRun := { aRun with cmd := 2, started := true }
    let x : Cell := { seq := { cmd := some r, image := some (0x1FFFF8, 8) }, cmdq := { items := [⟨true, 9, 1⟩] } }
    (onCell x).cellUp 0 = true ∧ r.ended = false ∧ r.stop = false ∧ x.rowBusy true (0x1FFFF8 / 128) ((0x1FFFF8 + min 15 8 - 1) / 128 - 0x1FFFF8 / 128 + 1) = false := by
  decide +kernel

/-- A command that has ended at a cell and one at a carcase. -/
theorem test_command_complete :
    let r : CmdRun := { aRun with ended := true, src := UA.mk 0 0, dest := UA.mk 0 (UA.keyOf 5 0) }
    let s := onCell (freshCell r)
    let p : Spread := ⟨UA.mk 0 0, 7, 1, 1, [], [ccOk], 0, none⟩
    let u := UA.mk 0 (UA.keyOf 4 0)
    let t := { up with units := [(UA.key u, { cmds := [p] })] }
    s.cellUp 0 = true ∧ s.local? r.src = true ∧ s.local? r.dest = true ∧ UA.depth r.dest = 5 ∧ (freshCell r).seq.ended = [] ∧
      t.local? u = true ∧ UA.canonical u = true ∧ t.unitUp u = true ∧
      (t.unit (UA.key u)).cmds.find? (fun p => decide (p.tag = 7 ∧ p.left = [] ∧ p.win = none)) = some p := by decide +kernel

/-! ### Windows at a carcase, writes -/

/-- Carcase 0 of depth 4. -/
def u4 : UnitAddr := UA.mk up.net.devId (UA.keyOf 4 0)

/-- An OPEN of window 15 over the last row, also one that waited, and a CLOSE of an open window with a write not yet landed. -/
theorem test_window_commands :
    let item : Payload := BitVec.ofNat 120 (15 + 16383 * 2 ^ 5 + 2 ^ 19)
    let close : Payload := BitVec.ofNat 120 (15 + 2 ^ 4)
    let s := { up with units := [(UA.key u4, { disp := [msg 0x01 (UA.keyOf 4 0) [hdrOf 3, item]], wins := [(15, { deferred := true })] })] }
    let t := { up with units := [(UA.key u4, { disp := [msg 0x01 (UA.keyOf 4 0) [hdrOf 3, close]], wins := [(15, { st := .opened, unlanded := [⟨0, 0, 0, 0, 0, [], false⟩] })] })] }
    s.local? u4 = true ∧ UA.canonical u4 = true ∧ s.unitUp u4 = true ∧ UA.depth u4 = 4 ∧ (s.windowCmd u4 false).map (fun (x : CmdRun × Payload) => (x.1.reserved, x.1.len, x.2)) = some (false, 2, item) ∧
      s.winFree u4 15 = true ∧ UA.canonical (BitVec.ofNat 64 (fld item 97 34)) = true ∧ fld item 18 5 + fld item 33 19 = 16384 ∧ fld item 119 98 = 0 ∧
      (t.windowCmd u4 true).map (fun (x : CmdRun × Payload) => (x.1.reserved, x.1.len, x.2)) = some (false, 2, close) ∧ (t.win (UA.key u4) 15).st = .opened ∧ (t.win (UA.key u4) 15).unlanded ≠ [] := by decide +kernel

/-- A write of the last word of a window of one row, and the same to a closed one. -/
theorem test_window_write :
    let m := msg 0x03 (UA.keyOf 5 0) [BitVec.ofNat 120 (15 + 2 ^ 4 + 120 * 2 ^ 20 + 8 * 2 ^ 41), 0]
    let s := { up with units := [(UA.keyOf 5 0, { wins := [(15, { st := .opened, rows := 1, wepoch := 1 })] })] }
    s.requestOk m 0x03 = true ∧ m.epoch = s.epochOf m.dest ∧ s.checkWrite m = ccOk ∧ up.checkWrite m = ccWinClosed ∧ up.local? m.src = true := by
  decide +kernel

/-- Cell 0 ends a scrub. -/
theorem test_scrub_end : let s := onCell { scrubbing := true }
    s.cellUp 0 = true ∧ s.scrubFenced 0 = true ∧ ∀ w ∈ List.range 16, (s.win (UA.keyOf 5 0) w).unlanded = [] := by decide +kernel

/-- A KILL and a CUT, of the job and of a layer, of a cell that works on the job. -/
theorem test_kill_cut :
    let s := onCell { spdOwner := 1, seq := { cmd := some aRun } }
    ∀ p ∈ [(6, 0), (5, 0), (5, 2 ^ 64)],
      let m := msg 0x01 (UA.keyOf 5 0) [hdrOf p.1 p.2]
      s.requestOk m 0x01 = true ∧ m.epoch = s.epochOf m.dest ∧ m.fld 0 15 8 = 0 ∧ m.fld 0 7 0 = p.1 ∧ (p.1 = 6 → m.fld 0 119 64 = 0) ∧ m.fld 0 119 65 = 0 ∧
        (s.cell 0).worksOn (BitVec.ofNat 32 m.job) = true ∧
        (s.cell 0).holdsWork (BitVec.ofNat 32 m.job) (if (m.body.getD 0 0).getLsbD 64 then some (BitVec.ofNat 16 (m.fld 0 63 48)) else none) = true := by decide +kernel

/-- The greatest role, from the greatest epoch. -/
theorem test_role_set :
    let m := { msg 0x07 (UA.keyOf 4 0) [4] with epoch := 0xFFFF }
    let s := { up with units := [(UA.keyOf 4 0, { epoch := 0xFFFF })] }
    s.requestOk m 0x07 = true ∧ m.epoch = s.epochOf m.dest ∧ m.fld 0 7 0 = 4 ∧ (s.unit (UA.key m.dest)).epoch = 0xFFFF := by decide +kernel

/-- A command for a carcase, and one with an old epoch. -/
theorem test_command_arrival :
    let m := msg 0x01 (UA.keyOf 4 0) [hdrOf 1]
    up.requestOk m 0x01 = true ∧ m.fld 0 7 0 = 1 ∧ m.epoch = up.epochOf m.dest ∧ up.requestOk { m with epoch := 1 } 0x01 = true ∧ up.driverSends m = true ∧ up.driverSends { m with epoch := 1 } = true ∧ up.local? m.src = true := by
  decide +kernel

/-! ### Synchronisation and spill -/

/-- A SYNC_OP of job 1 on object 65,535. -/
def syncReq (op : Nat) (typ : Nat := 0) (v : Nat := 0) : Msg := msg 0x05 0 [BitVec.ofNat 120 (65535 + op * 2 ^ 16 + typ * 2 ^ 20 + 2 ^ 24 + v * 2 ^ 56)]

/-- Every operation is asked of the device, INIT of the greatest type with the greatest value. -/
theorem test_sync_requests : ∀ op ∈ List.range 11,
    let m := syncReq op (if op = 1 then 3 else 0) (2 ^ 64 - 1)
    up.requestOk m 0x05 = true ∧ UA.depth m.dest = 0 ∧ m.epoch = up.epochOf m.dest ∧ m.syncOk = true ∧ m.syncOp = op ∧ m.obj = 65535 := by decide +kernel

/-- Objects of each type, where a wait holds and where it does not. -/
theorem test_sync_objects : ∀ p ∈ [(SyncObj.counter 5 false, [2, 3]), (.barrier 1 0 7, [4, 5, 6]), (.barrier 0 0 0, [4, 5, 6]), (.flag true, [7, 8, 9, 10]), (.flag false, [7, 8, 9, 10])],
    let s := { up with sync := [(65535, p.1)] }
    s.syncObj 65535 = p.1 ∧ (∀ op ∈ p.2, p.1.accepts op = true) ∧ p.1.accepts 1 = false := by decide +kernel

theorem test_sync_waits : (SyncObj.counter 5 false).holds 3 5 = true ∧ (SyncObj.counter 5 false).holds 3 6 = false ∧ (SyncObj.barrier 1 0 7).holds 6 7 = false ∧
    (SyncObj.barrier 1 0 7).holds 6 6 = true ∧ (SyncObj.none).accepts 2 = false := by decide +kernel

/-- A device that serves: an ALLOC of the greatest extent, and a FREE, WRITE and READ of one unit of a grant. -/
theorem test_spill :
    let s := { up with units := [(0, { role := 4 })], mem := { up.mem with served := [⟨0, 0, 64, 0⟩] } }
    let a := msg 0x06 0 [BitVec.ofNat 120 (1 + 6 * 2 ^ 28)]
    (s.requestOk a 0x06 = true ∧ UA.depth a.dest = 0 ∧ a.epoch = s.epochOf a.dest ∧ a.fld 0 3 0 = 1 ∧ spillOk a 1 = true ∧ (s.unit 0).role = 4 ∧
      s.mem.servedKib none + 64 ≤ s.serveGib * 2 ^ 20 ∧ s.mem.servedKib (some 0) + 64 ≤ 2 ^ 24 ∧ s.mem.serveOffset 0 64 = some 64) ∧
    ∀ op ∈ [2, 3, 4],
      let n := if op = 2 then 0 else 1
      let m := msg 0x06 0 (BitVec.ofNat 120 (op + 6 * 2 ^ 28 + n * 2 ^ 31) :: List.replicate (if op = 3 then 5 else 0) 0)
      s.requestOk m 0x06 = true ∧ m.fld 0 3 0 = op ∧ spillOk m op = true ∧ m.fld 0 41 31 = n ∧ s.mem.grant (UA.device m.src) (m.fld 0 27 4) = some ⟨0, 0, 64, 0⟩ ∧
        m.fld 0 51 42 + n ≤ 16 * 64 ∧ 2 ^ m.fld 0 30 28 = 64 ∧ s.local? m.src = true := by decide +kernel

theorem test_spill_room : ({} : MemSys).alloc 0 (16 * 64) (.serve 0) ≠ none := by decide +kernel

/-- A chain sum for an empty inlet and for a full one. -/
theorem test_chain_sum :
    let m := { msg 0x04 (UA.keyOf 5 0) (List.replicate 343 0) with tag := 1 }
    let t := onCell { tile1 := { inlet := some (chainOf m) } }
    up.requestOk m 0x04 = true ∧ up.destResident m = true ∧ m.epoch = up.epochOf m.dest ∧ UA.depth m.dest = 5 ∧ (up.cell 0).tile1.inlet = none ∧
      t.requestOk m 0x04 = true ∧ (t.cell 0).tile1.inlet.isSome = true ∧ (t.cell 0).tile1.drain = none := by decide +kernel

/-- A REPLY for a waiting SYNC, one for RPL, a bounce, and a REPLY at the device. -/
theorem test_replies :
    let m := msg 0x08 (UA.keyOf 5 0) [0]
    let o : UnitOp := { id := 0, unit := .net, blocking := true, done := false, tag := some 7 }
    let s := onCell { ops := [o] }
    let b := { msg 0x01 (UA.keyOf 5 0) [0] with bounced := true }
    let d := msg 0x08 0 [0]
    s.uncheckedOk m = true ∧ m.job = 0 ∧ (s.cell 0).waiter m.tag = some o ∧ up.uncheckedOk m = true ∧ (up.cell 0).waiter m.tag = none ∧
      ownPackets 0 false m.items = true ∧ ownPackets 0 false b.items = true ∧ up.uncheckedOk b = true ∧ b.job = 0 ∧ up.uncheckedOk d = true ∧ UA.depth d.dest = 0 ∧ up.spillOp d.tag = none ∧ up.drv.job? 0 = none := by decide +kernel

/-- The oldest write to a window, with a later one of the same sender behind it in another window. -/
theorem test_write_lands :
    let p (n : Nat) : WinWrite := ⟨n, UA.mk up.net.devId 0, 7, 0, 128 * 16383, [1], false⟩
    let s : State := { up with units := [(UA.keyOf 5 0, { wins := [(14, { st := .opened, unlanded := [p 2] }), (15, { st := .opened, unlanded := [p 1] })] })] }
    (s.unit (UA.keyOf 5 0)).landsNext 15 = true ∧ (s.win (UA.keyOf 5 0) 15).unlanded = [p 1] ∧ (s.unit (UA.keyOf 5 0)).landsNext 14 = false := by
  decide +kernel

/-! ### Reliability -/

/-- The last row at its limit, a due remap, a cell over the limit of recomputes. -/
theorem test_rows :
    (let x : Cell := { rows := { ce := [(16383, 4)] } }
     (onCell x).up = true ∧ x.ceLimit = 4 ∧ x.ceLimit.toNat ≤ (SMap.getD x.rows.ce 16383 0).toNat ∧ 16383 ∉ x.rows.due) ∧
    (let s := onCell { rows := { due := [16383], field := 191 } }
     s.cellUp 0 = true ∧ (s.cell 0).quiescent = true ∧ (s.cell 0).rows.field = 191) ∧
    (onCell { recomputeTimes := List.replicate 64 0 }).up = true ∧ ({ recomputeTimes := List.replicate 64 0 } : Cell).retires = true := by decide +kernel

/-- With 191 remaps in the field a spare row is free, whatever the test mapped. -/
theorem test_spare_row (s : State) (c : CellIx) (h : (s.cell c).rows.field = 191) : 0 < s.sparesFree c := by
  unfold State.sparesFree State.rowsMappedTest; omega

theorem test_patrol : up.up = true ∧ up.devParam 0x4000 0x0D 24 = 24 ∧ 64 * 0 < up.mem.bytes ∧ up.pwr.on = true ∧
    up.mem.unitErr 0 [] = .clean ∧ up.mem.unitErr 0 [⟨0, 0, 1⟩] = .corrected ∧ up.mem.unitErr 0 [⟨0, 0, 1⟩, ⟨0, 1, 1⟩, ⟨0, 2, 1⟩, ⟨0, 3, 1⟩] = .uncorrectable := by
  decide +kernel

/-- A cell that asks to be retired, with a spare of its carcase free and with none. -/
theorem test_retired :
    let s := { onCell { retireReq := true } with mem := { up.mem with appBase := 1024 } }
    let t := { s with rel := { s.rel with spareBad := [0] } }
    s.cellUp 0 = true ∧ s.spareFree 0 = true ∧ s.rel.hostOf 0 = none ∧ s.quiescent (carcaseCells 0) = true ∧ (s.cell 0).scrubbing = false ∧
      t.cellUp 0 = true ∧ t.spareFree 0 = false ∧ t.chooseHost 0 = some (1, 3) := by decide +kernel

/-- A block that a taken range covers, or that lies at or above the limit, holds no free block. -/
theorem buddies_none {x : Area} : ∀ k b, ((∃ t ∈ x.taken, t.1 ≤ b ∧ b + 2 ^ k ≤ t.1 + t.2) ∨ x.limit ≤ b) → x.buddies k b = [] := by
  have nf : ∀ k b, ((∃ t ∈ x.taken, t.1 ≤ b ∧ b + 2 ^ k ≤ t.1 + t.2) ∨ x.limit ≤ b) → x.free b (2 ^ k) = false := by
    intro k b h
    have hp := Nat.two_pow_pos k
    rcases h with ⟨t, ht, h1, h2⟩ | h
    · have : x.taken.all (fun t => !overlaps b (2 ^ k) t.1 t.2) = false := by
        rw [List.all_eq_false]; exact ⟨t, ht, by simp [overlaps]; omega⟩
      unfold Area.free; rw [this, Bool.and_false]
    · unfold Area.free; rw [decide_eq_false (by omega), Bool.false_and]
  intro k
  induction k with
  | zero => intro b h; unfold Area.buddies; rw [if_neg]; rw [show (1 : Nat) = 2 ^ 0 from rfl, nf 0 b h]; simp
  | succ k ih =>
    intro b h
    have hp := Nat.two_pow_pos k
    unfold Area.buddies
    rw [nf _ b h, if_neg (by simp), ih b, ih (b + 2 ^ k), List.append_nil]
    · rcases h with ⟨t, ht, h1, h2⟩ | h
      · exact Or.inl ⟨t, ht, by omega, by rw [pow_succ] at h2; omega⟩
      · exact Or.inr (by omega)
    · rcases h with ⟨t, ht, h1, h2⟩ | h
      · exact Or.inl ⟨t, ht, h1, by rw [pow_succ] at h2; omega⟩
      · exact Or.inr h

/-- Whole chunks, where every touched chunk is taken whole. -/
def chunks (d : Nat) (use : ExtUse) : Nat → MemSys → Option MemSys
  | 0, m => some m
  | k + 1, m =>
    let x := m.pool
    if (x.touched d).all (fun c => decide (x.limit ≤ 1024 * c) || x.taken.any (fun t => decide (t.1 ≤ 1024 * c ∧ 1024 * c + 2 ^ 10 ≤ t.1 + t.2))) then
      (x.freeChunk d (x.taken.length + 4) d).bind (fun b => chunks d use k { m with extents := m.extents ++ [⟨b, 1024, use⟩] })
    else none

theorem chunks_alloc {d use} : ∀ k m m', chunks d use k m = some m' → m.allocMany d 1024 use k = some m' := by
  intro k
  induction k with
  | zero => intro m m' h; exact h
  | succ k ih =>
    intro m m' h
    unfold chunks at h; simp only [] at h
    split at h
    · rename_i hc
      rcases hf : (m.pool).freeChunk d (m.pool.taken.length + 4) d with _ | b
      · rw [hf] at h; cases h
      · rw [hf] at h
        have hs : (m.pool.touched d).flatMap (fun k => m.pool.buddies 10 (1024 * k)) = [] := by
          rw [List.flatMap_eq_nil_iff]
          intro c hcm
          have := List.all_eq_true.mp hc c hcm
          simp only [Bool.or_eq_true, decide_eq_true_eq, List.any_eq_true] at this
          exact buddies_none _ _ (this.symm.imp_left id)
        have hl : m.pool.lowest d 1024 = some b := by
          unfold Area.lowest; simp only []; rw [hs, if_pos trivial, hf]; rfl
        have ha : m.alloc d 1024 use = some (b, { m with extents := m.extents ++ [⟨b, 1024, use⟩] }) := by
          unfold MemSys.alloc
          rw [show pow2Up 1024 = 1024 by decide +kernel]; simp only []
          rw [show 11 - Nat.log2 1024 = 1 by decide +kernel]
          unfold Area.find; rw [hl]; rfl
        unfold MemSys.allocMany
        rw [ha]
        exact ih _ _ h
    · cases h

/-- The extents of an image, with the application grant at unit 1,024. -/
theorem test_image_extents : (({ appBase := 1024 } : MemSys).allocMany 0 1024 (.image 0) 42).isSome = true := by
  have h : (chunks 0 (.image 0) 42 { appBase := 1024 }).isSome = true := by decide +kernel
  obtain ⟨m, hm⟩ := Option.isSome_iff_exists.mp h
  rw [chunks_alloc _ _ _ hm]; rfl

/-- A hosted context with a command while the host's own has none, and while it waits for another. -/
theorem test_context_switch :
    let r : Rel := { hosts := [⟨1, 0, false⟩] }
    let q : Queue := { items := (msg 0x01 (UA.keyOf 5 0) [hdrOf 1]).items }
    let s := { onCell { cmdq := q } with rel := r }
    let t := { s with cells := [(0, { cmdq := q }), (1, { tile0 := { st := .closing } })] }
    s.rel.hostOf 0 = some ⟨1, 0, false⟩ ∧ s.dieUp 0 = true ∧ s.resident 0 = false ∧ s.residentAt 1 = 1 ∧ (s.cell 1).unitsRest = true ∧ (s.cell 1).ready = false ∧
      (s.cell 0).cmdq.headReady = true ∧ t.residentAt 1 = 1 ∧ (t.cell 1).unitsRest = true ∧ (t.cell 1).waitsOutside = true ∧ (t.cell 0).ready = true := by decide +kernel

/-! ### The driver -/

/-- Stream 7 enabled with one entry to read. -/
def withStream (s : State) : State :=
  { s with pcie := { s.pcie with bme := true, streams := [(7, { sqSize := 2, cqSize := 2, sqTail := 1 })] } }

theorem test_can_read : CanRead (withStream up) 7 ∧ (withStream up).streamBusy 7 = false := by
  unfold CanRead; decide +kernel

/-- The header of an entry of `k`. -/
def entry (k : Nat) (w : List Word := []) : List Word := [BitVec.ofNat 64 (k + 0x08000100)] ++ w ++ List.replicate (7 - w.length) 0

/-- A registered graph without layers. -/
def aGraph : GraphRec := ⟨1, [], [], false⟩

/-- A JOB that passes, one that names no graph; a RELEASE of a registered handle and of none. -/
theorem test_job_entry :
    let s := { withStream up with drv := { up.drv with graphs := [aGraph] } }
    s.jobFault (entry 1 [1]) [] = none ∧ Desc.kind (entry 1 [1]) = 1 ∧ Desc.bit (entry 1 [1]) 5 3 = false ∧ ((withStream up).jobFault (entry 1 [1]) []).isSome = true ∧
      Desc.kind (entry 5 [1]) = 5 ∧ Desc.fault ((entry 5 [1]).take 8) 0x05 8 true = none ∧ Desc.f (entry 5 [1]) 1 31 0 = 1 := by decide +kernel

/-- A REGISTER of a graph without layers, with room and without. -/
theorem test_register_entry :
    let d : List Word := entry 0x30
    Desc.kind (entry 4) = 4 ∧ Desc.fault ((entry 4).take 8) 0x04 8 true = none ∧ graphLengths d [] [] = true ∧ up.graphFault d [] [] true = none ∧
      (up.graphFault d [] [] false).isSome = true := by decide +kernel

/-- A job of stream 7. -/
def aJob (p : JobPhase) : JobRec := ⟨5, 7, 9, 1, 0, 0, [], false, false, none, none, p, 0, 0, [], [], none, false, false, [], [], false, false, 0, {}⟩

/-- `up` with a job and its graph. -/
def withJob (j : JobRec) : State := { withStream up with drv := { up.drv with jobs := [j], graphs := [aGraph] } }

/-- KILL and CUT, with scope JOB and LAYER, of a tag that no job and that one job has. -/
theorem test_kill_cut_entries : ∀ k ∈ [2, 3],
    Desc.kind (entry k [9]) = k ∧ (Desc.fault ((entry k [9]).take 8) (BitVec.ofNat 8 k).toNat 8 true = none) ∧ (withStream up).anyHit 7 ((entry k [9]).take 8) = false ∧
      ∀ p ∈ [JobPhase.ready, .running], (withJob (aJob p)).drv.jobs.filter (·.hit 7 ((entry k [9]).take 8)) = [aJob p] ∧
        (withJob (aJob p)).drv.job? 5 = some (aJob p) ∧ (withJob (aJob p)).anyHit 7 ((entry k [9]).take 8) = true := by decide +kernel

theorem test_cut_layer : let e := entry 3 [BitVec.ofNat 64 (9 + 2 ^ 33), 65535]
    Desc.fault (e.take 8) 0x03 8 true = none ∧ Desc.bit e 1 33 = true ∧ Desc.f e 2 31 0 < 2 ^ 16 := by decide +kernel

/-- A ready job, a running job whose budget has just expired, one all whose layers are complete, with and without a signal. -/
theorem test_jobs :
    (withJob (aJob .ready)).drv.job? 5 = some (aJob .ready) ∧ (withJob (aJob .ready)).hostUp = true ∧
    (let j := { aJob .running with budget := 10 }
     let s := { withJob j with runTime := 10 }
     s.drv.job? 5 = some j ∧ j.expired = false ∧ j.budget.toNat ≤ (s.runTime - j.startRun).toNat ∧ s.graphOf j = some aGraph) ∧
    (let j := { aJob .running with sig := some (0, 3) }
     (withJob j).drv.job? 5 = some j ∧ (withJob j).unreachable (UA.mk 0 0) = false) ∧ failureCode 0x10 = true := by decide +kernel

/-- A layer of a running job: LINEAR with DELTA, of one tile, with OK_EMPTY. -/
theorem test_layers :
    let l : List Word := entry 0x20 [1, BitVec.ofNat 64 (2 ^ 16)]
    let j := { aJob .running with precs := [BitVec.ofNat 64 (2 ^ 16)] }
    let s := { withJob j with drv := { up.drv with jobs := [j], graphs := [{ aGraph with layers := [l] }] } }
    s.hostUp = true ∧ (s.openLayer 5 0).isSome = true ∧ Layer.op l = 1 ∧ Prec.delta (BitVec.ofNat 64 (2 ^ 16)) = true ∧
      s.layerFits { aGraph with layers := [l] } (BitVec.ofNat 64 (2 ^ 16)) l [] [] [] = true ∧
      (s.layerData j { aGraph with layers := [l] } (BitVec.ofNat 64 (2 ^ 16)) l).isSome = true := by decide +kernel

/-- A completion that waits: while its queue is full, while DMA is off, and with room. -/
theorem test_completion_entry : ∀ full ∈ [false, true], ∀ bme ∈ [false, true],
    let x : Completion := ⟨completionWords ccOk 1 7 false 0 0 0 noLayer 0 noLedger, []⟩
    let q : Stream := { sqSize := 2, cqSize := 2, cqTail := if full then 1 else 0, ready := [x] }
    let s := { up with pcie := { up.pcie with bme := bme, streams := [(7, q)] } }
    s.hostUp = true ∧ s.stream 7 = q ∧ q.enabled = true ∧ q.full = full := by decide +kernel

/-! ### Event controller, host port, endpoint -/

/-- A claim with a presented source and without one; a complete of an active source by its hart; a timer that is due. -/
theorem test_events :
    let e : Evc := { up.evc with srcs := [(4095, { st := .active, hart := 15 })], harts := [(15, { slot := 4095 })] }
    let s := { up with evc := e, timeHost := 100 }
    s.hostUp = true ∧ (e.hart 15).slot = 4095 ∧ (e.hart 0).slot = 0 ∧ evIdOk 4095 = true ∧ (e.src 4095).hart.toNat = 15 ∧ (e.src 4095).st = .active ∧
      neverFires 4095 = false ∧ s.frozen = false ∧ (100 : Word).toNat ≤ s.timeHost.toNat ∧ s.timeHost.toNat < (101 : Word).toNat ∧
      fld (64 : Word) 11 0 = 64 := by decide +kernel

/-- A mask that opens on a pending bit. -/
theorem test_smask : let e : Evc := { up.evc with spend := [(63, 1)] }
    SMap.getD e.spend 63 0 &&& (1 : Word) &&& ~~~(SMap.getD e.smask 63 0) ≠ 0 := by decide +kernel

/-- Sends from the last item of the carve-out: a bad address, a message of two items for cell 0, and one to no unit. -/
theorem test_send_go :
    (∃ a : BitVec 50, a.toNat % 16 ≠ 0) ∧ up.inCarveOut 0 = false ∧ up.inCarveOut (BitVec.ofNat 50 (0x1000000000 + 16 * 2 ^ 30 - 32)) = true ∧
    (let m := msg 0x05 0 []
     let l : List Payload := [m.hdr0, m.hdr1]
     2 = 2 + fld (l.getD 1 0) 79 64 ∧ Msg.ofItems (l.map (fun p => ⟨false, 0, p⟩)) = some m ∧ UA.canonical m.dest = true ∧ up.local? m.dest = true) ∧
    (let m := { msg 0x05 0 [] with dest := 1 }
     let l : List Payload := [m.hdr0, m.hdr1]
     Msg.ofItems (l.map (fun p => ⟨false, 0, p⟩)) = some m ∧ UA.canonical m.dest = false) := by
  refine ⟨⟨8, by decide +kernel⟩, by decide +kernel, by decide +kernel, by decide +kernel, by decide +kernel⟩

/-- HIQ with an item; DMA on and off. -/
theorem test_hiq_pop : let s := { up with evc := { up.evc with hiq := { items := [⟨true, 9, 1⟩] } } }
    s.hostUp = true ∧ s.evc.hiq.items = [⟨true, 9, 1⟩] ∧ s.pcie.bme = false ∧ (withStream up).pcie.bme = true := by decide +kernel

/-- Doorbells of stream 7 at the last index and at the size; a coalescing time that has run out. -/
theorem test_doorbells :
    let s := withStream up
    let q : Stream := { sqSize := 2, cqSize := 2, coalNs := 10, firstAt := some 0 }
    s.hostUp = true ∧ s.pinsHeld 0 = false ∧ (s.stream 7).enabled = true ∧ (s.stream 0).enabled = false ∧ (1 : BitVec 16).toNat < (s.stream 7).sqSize.toNat ∧
      (s.stream 7).sqSize.toNat ≤ (2 : BitVec 16).toNat ∧ (1 : BitVec 16).toNat < (s.stream 7).cqSize.toNat ∧ s.frozen = false ∧
      q.coalNs.toNat ≤ ((10 : Word) - 0).toNat ∧ 8 ≤ fld (8 : Word) 5 0 ∧ s.pcie.bme ≠ false ∧ up.pcie.bme ≠ true ∧ up.pwr.perstN = true := by decide +kernel

/-! ### The dictionary -/

/-- A request through the host die's own mailbox, with LOCAL. -/
def ask (op index sub typ len : Nat) (data : List Byte := []) : DictReq :=
  ⟨.loc, [1, BitVec.ofNat 8 op, 1, 0, 0, 0, 0, 0] ++ bytesLE 8 0 ++ bytesLE 2 index ++ bytesLE 1 sub ++ bytesLE 1 typ ++ bytesLE 4 0 ++ bytesLE 4 len ++ bytesLE 4 0, data⟩

/-- `up` with debug authorised, which a write of a freeze or of a revocation needs. -/
def authed : State := { up with dbg := { up.dbg with auth := true } }

/-- `s` with the request at the head of the service's queue. -/
def asking (r : DictReq) (s : State := authed) : State := s.modDict (fun d => { d with queue := [r] })

/-- The conditions of `Asks`, evaluated. -/
def asksB (s : State) (k : ReqKind) (r : DictReq) : Bool :=
  decide (s.headReq k = some r) && (match (taken s).access r with | .ok _ => true | .error _ => false) && decide (r.length ≠ 0)

theorem asks_of {s k r} (h : asksB s k r = true) : ∃ p n, Asks s k r p n := by
  simp only [asksB, Bool.and_eq_true, decide_eq_true_eq] at h
  obtain ⟨⟨h1, h2⟩, h3⟩ := h
  rcases ha : (taken s).access r with e | ⟨p, n⟩
  · rw [ha] at h2; cases h2
  · exact ⟨p, n, h1, ha, h3⟩

/-- One request of each kind. -/
def asks : List (ReqKind × DictReq) := [
  (.read, ask 3 0x4000 0x0C 3 4), (.write, ask 4 0x4000 0x0C 3 4 [0, 0, 0, 0]), (.stage, ask 4 0x3800 0x01 1 1 [1]), (.commit, ask 4 0x3800 0xFF 1 1 [1]),
  (.discard, ask 4 0x3800 0xFF 1 1 [0]), (.save, ask 4 0xF000 0x01 1 1 [1]), (.restore, ask 4 0xF000 0x06 1 1 [1]), (.snapGo, ask 4 0x8000 0x72 1 1 [1]),
  (.snapStop, ask 4 0x8000 0x72 1 1 [2]), (.freeze, ask 4 0xA000 0x01 1 1 [1]), (.thaw, ask 4 0xA000 0x01 1 1 [0]), (.purge, ask 4 0x3000 0x0E 2 2 [255, 255]),
  (.retrain, ask 4 0x3000 0x0D 1 1 [31]), (.linkMode, ask 4 0x3000 0x04 0x41 1 [2]), (.routes, ask 4 0x3100 0x01 0x0C 2 [0x0E, 0]),
  (.grant, ask 4 0x4000 0x06 4 8), (.revoke, ask 4 0x9000 0x05 1 1 [3]), (.fwStage, ask 4 0x9000 0x06 0x0C 64), (.fwCommit, ask 4 0x9000 0x07 1 1 [1]),
  (.fwDiscard, ask 4 0x9000 0x07 1 1 [0]), (.extend, ask 4 0x9000 0x0D 0x0C 33 [6]), (.nonce, ask 4 0x9000 0x0F 0x0C 32), (.challenge, ask 3 0x9000 0x12 0x0C 32),
  (.response, ask 4 0x9000 0x13 0x0C 29792), (.dbgData, ask 3 0xA000 0x08 0x0C 4096)]

theorem test_asks (x) (h : x ∈ asks) : ∃ p n, Asks (asking x.2) x.1 x.2 p n :=
  have h' : asks.all (fun x => asksB (asking x.2) x.1 x.2) = true := by decide +kernel
  asks_of (List.all_eq_true.mp h' x h)

theorem test_ask_release : ∃ p n, Asks (asking (ask 4 0x6000 0x0E 4 8)) .release (ask 4 0x6000 0x0E 4 8) p n := asks_of (by decide +kernel)

/-- A local mailbox that is busy and one that is not. -/
theorem test_mailbox : up.hostUp = true ∧ up.dict.loc.busy = false := by decide +kernel

/-- A read of an unknown subindex is refused. -/
theorem test_refused_read : let r := ask 3 0x4000 0x0C 2 4
    (asking r).headReq .read = some r ∧ (match (taken (asking r)).access r with | .error (some _, st) => decide (st = dsType) | _ => false) = true := by decide +kernel

/-- A staged group with a good and with a bad value, its commit pending, and another that does not meet it. -/
theorem test_commit :
    let r := ask 4 0x3800 0xFF 1 1 [1]
    let s := (asking r).modDict (fun d => { d with stages := [(⟨0, 0x3800, 0⟩, [(0x01, [1])])] })
    let x : PendCommit := ⟨0, 0x3800, [(0, [(0x01, [1])])], r⟩
    r.num = 1 ∧ (groupUnits 0x3800 0).filterMap (fun u => (s.dict.stage u 0x3800).map (fun v => (u, v))) = x.vals ∧ s.dict.commits = [] ∧
      s.commitBad x = none ∧ (s.commitBad { x with vals := [(0, [(0x02, [0])])] }).isSome = true ∧
      ({ s.dict with commits := [x] } : Dict).firstCommit 0 0x3800 = some (x, []) ∧ UA.canonical 0 = true ∧ s.local? 0 = true ∧ s.unitUp 0 = true ∧
      s.hostUp = true ∧ s.quiescent (UA.cells 0) = true := by decide +kernel

theorem bytes_lt (l : List Byte) : ofBytesLE l < 256 ^ l.length := by
  induction l with
  | nil => decide
  | cons b l ih => unfold ofBytesLE; have := b.isLt; rw [List.length_cons, pow_succ]; omega

/-- A Chamois read of a device with its address: new, answered before, malformed; a SOLICIT; an ANNOUNCE that is due. -/
theorem test_network :
    let r := ask 3 0x4000 0x0C 3 4
    let g : Datagram := ⟨1, 2, r.hdr⟩
    let q : DictReq := ⟨.chamois 1 2, g.bytes.take 32, g.bytes.drop 32⟩
    let sol : List Byte := [1, 1] ++ List.replicate 30 0
    let s := up.modDict (fun d => { d with dadState := 1, announces := [g] })
    s.hostUp = true ∧ chamoisOk q g.bytes.length = true ∧ chamoisOk q 31 = false ∧ s.dict.cache = [] ∧ s.dict.queue = [] ∧
      solicitOk ⟨.chamois 1 2, sol, []⟩ sol.length = true ∧ s.chamoisMode = 1 ∧ s.dict.announces = [g] ∧ up.dict.dadState = 0 ∧
      (BitVec.ofNat 128 (ofBytesLE linkLocal.reverse)).toNat = ofBytesLE linkLocal.reverse := by
  refine ⟨by decide +kernel, by decide +kernel, by decide +kernel, rfl, rfl, by decide +kernel, by decide +kernel, rfl, rfl, ?_⟩
  rw [BitVec.toNat_ofNat]
  have h := bytes_lt linkLocal.reverse
  rw [List.length_reverse, show linkLocal.length = 16 from rfl] at h
  exact Nat.mod_eq_of_lt h

/-! ### Store, own writes, security -/

/-- A save that is due, one in progress, and one already retried. -/
theorem test_saves :
    let c : StoreCopy := ⟨1, [], [], [], []⟩
    let s := up.modDict (fun d => { d with dirty := true, dirtySince := 0 })
    let a := up.modDict (fun d => { d with saving := some c })
    let b := up.modDict (fun d => { d with saving := some c, saveRetry := true, acting := 0 })
    s.hostUp = true ∧ ({ s with runTime := 1000000000 } : State).saveDue = true ∧
      a.hostUp = true ∧ a.dict.saving = some c ∧ a.dict.saveNow = false ∧ a.dict.saveRetry = false ∧ a.dict.acting ≠ 0 ∧
      b.dict.saveRetry = true ∧ b.dict.acting = 0 := by decide +kernel

/-- The values that the save, the restoring, the commit and the freeze take. -/
theorem test_ones : (ask 4 0xF000 0x01 1 1 [1]).num = 1 ∧ (ask 4 0x3000 0x0D 1 1 [31]).num = 31 ∧ (ask 4 0xA000 0x01 1 1 [1]).num = 1 ∧
    (ask 4 0xA000 0x01 1 1 [0]).num ≠ 1 ∧ (ask 4 0x4000 0x06 4 8).sub = 0x06 ∧ (ask 4 0x9000 0x0D 0x0C 33 [6]).offset = 0 ∧
    (ask 4 0x9000 0x0D 0x0C 33 [6]).length = 33 ∧ ofBytesLE ((ask 4 0x9000 0x0D 0x0C 33 [6]).value.take 1) = 6 ∧
    ofBytesLE ((ask 4 0x9000 0x0D 0x0C 33 [3]).value.take 1) = 3 ∧ ofBytesLE ((ask 4 0x9000 0x0D 0x0C 33 [7]).value.take 1) = 7 ∧
    ofBytesLE ((ask 4 0x9000 0x0D 0x0C 33 [4]).value.take 1) = 4 ∧ (ask 4 0x9000 0x0F 0x0C 32).length = 32 ∧
    (ask 4 0x9000 0x13 0x0C 29792).length = 29792 ∧ (ask 4 0x9000 0x13 0x0C 29792).offset = 0 ∧ (ask 4 0x9000 0x07 1 1 [1]).num = 1 ∧
    (ask 4 0x8000 0x72 1 1 [1]).num = 1 ∧ (ask 4 0xA000 0x08 0x0C 4096).path = .loc := by decide +kernel

/-- Port 7 with two links. -/
def split7 : State := { authed with net := { authed.net with split := [(7, 2)] } }

theorem test_retrain : let r := ask 4 0x3000 0x0D 1 1 [31]
    split7.net.exists? 31 = true ∧ (asking r split7).net.exists? r.num = true := by decide +kernel

/-- Route entries in and out of range, of the last device ID too. -/
theorem test_routes : ((taken (asking (ask 4 0x3100 0x01 0x0C 2 [0x0E, 0]))).writeRoutes (ask 4 0x3100 0x01 0x0C 2 [0x0E, 0])).isSome = true ∧
    (taken (asking (ask 4 0x3100 0x01 0x0C 2 [8, 0]))).writeRoutes (ask 4 0x3100 0x01 0x0C 2 [8, 0]) = none := by decide +kernel

/-- A grant of nothing anywhere, and one that reaches above the memory. -/
theorem test_grant : (up.mem.moveGrant 0 up.mem.appUnits).isSome = true ∧ up.mem.moveGrant (2 ^ 40) 1 = none := by decide +kernel

/-- A unit that is held for the damage of its storage. -/
theorem test_lost : let r := ask 4 0x6000 0x0E 4 8 [1]
    r.num = 1 ∧ r.num ∉ (asking r).mem.lost ∧ r.num ∈ ({ asking r with mem := { (asking r).mem with lost := [1] } } : State).mem.lost := by decide +kernel

/-- An unnumbered device whose valid flag is kept. -/
theorem test_dev_id : let s := up.modDict (fun d => { d with image := [(⟨0, 0x3000, 0x02⟩, [1])] })
    s.fabricUp = true ∧ s.net.numbered = false ∧ keptV 0x3000 0x02 0 s 0 = 1 ∧ s.quiescent (List.range 512) = true := by decide +kernel

/-- Link modes in and out of range. -/
theorem test_link_mode :
    let w (v : Byte) (b : Bool) := let r := ask 4 0x3000 0x04 0x41 1 [v]
      match (taken (asking r)).access r with
      | .ok (p, n) => ((taken (asking r)).writeLinkMode r p n).isSome == b
      | .error _ => false
    w 2 true = true ∧ w 3 false = true := by decide +kernel

/-- A revocation that leaves a firmware key and one that would leave none; keys outside the four. -/
theorem test_revoke : (up.sec.revoke 1).isSome = true ∧ up.sec.revoke 0 = none ∧ (up.sec.revoke 3).isSome = true ∧ up.sec.revoke 4 = none := by decide +kernel

/-- Firmware states, a bootable image and one that is not. -/
theorem test_firmware :
    let i : SlotImage := ⟨1, 0, 64, 64, 1, true, [], true⟩
    let s := { up with sec := { up.sec with fwState := 2, fwNext := some i } }
    up.sec.fwState ≠ 2 ∧ s.sec.fwState = 2 ∧ s.sec.fwNext = some i ∧ s.pwr.on = true ∧ s.pwr.boot = .ready ∧ s.dbg.fullFrozen = false ∧
      up.sec.bootable i = true ∧ up.sec.bootable { i with svn := 63 } = false ∧ up.sec.keeps.1 = 0 ∧ { up.sec with bootSlot := 1 }.keeps.1 ≠ 0 := by decide +kernel

/-- A log that is full and one with a free entry; quotes in each state. -/
theorem test_quotes :
    let x : Sec := { up.sec with quoteState := 1, akCert := true, held := some [] }
    (List.replicate 4096 (⟨4, 4, []⟩ : LogEntry)).length = 4096 ∧ up.sec.log.length < 4096 ∧ up.hostUp = true ∧ x.quoteState = 1 ∧ x.held = some [] ∧
      up.sec.held = none ∧ up.sec.akCert = false ∧ up.sec.quoteState ≠ 1 ∧ x.akCert = true := by decide +kernel

/-! ### Snapshots, freezes, test access ports -/

/-- A wave of this device over it and one over die 1. -/
def aWave : Wave := ⟨0, 5, false, 0⟩
def dieWave : Wave := ⟨0, 5, false, UA.mk 0 (UA.keyOf 1 256)⟩

/-- The node `k` has latched `aWave` and waits. -/
def latched (k : Nat) (kids : List Nat) : State :=
  { up with units := [(k, { shadow := { origin := 0, state := 1, num := 5, root := 0, pending := [.host], kids := kids } })],
            net := { up.net with waves := [(k, .host, aWave)] } }

/-- A root that is free, one outside this device, and a snapshot in progress. -/
theorem test_snap_roots : UA.canonical (authed.dbg.snapRoot.getD authed.devAddr) = true ∧ authed.local? (authed.dbg.snapRoot.getD authed.devAddr) = true ∧
    authed.dbg.snapDone = true ∧ UA.canonical (UA.mk 0 (UA.keyOf 5 511)) = true ∧ up.local? (UA.mk 0 (UA.keyOf 5 511)) = true ∧
    up.local? (UA.mk 1 0) = false ∧ { authed.dbg with snapDone := false }.snapDone = false := by decide +kernel

/-- A wave that reaches the device in scope and a cell of die 0 out of scope, and one that comes again. -/
theorem test_waves :
    let c := UA.mk 0 (UA.keyOf 5 0)
    let s := { up with net := { up.net with waves := [(0, .host, aWave), (UA.key c, .parent, dieWave)] } }
    s.local? 0 = true ∧ s.unitUp 0 = true ∧ s.local? c = true ∧ s.unitUp c = true ∧ (0, Chan.host, aWave) ∈ s.net.waves ∧
      (UA.key c, Chan.parent, dieWave) ∈ s.net.waves ∧ s.inScope 0 (s.waveRoot aWave) = true ∧ s.inScope (UA.key c) (s.waveRoot dieWave) = false ∧
      (s.unit 0).shadow.state = 0 ∧
      (let h := ((latched 0 []).unit 0).shadow
       (0, Chan.host, aWave) ∈ (latched 0 []).net.waves ∧ h.state ≠ 0 ∧ h.origin = aWave.origin ∧ h.num = aWave.num ∧
         (latched 0 []).inScope 0 ((latched 0 []).waveRoot aWave) = true) := by decide +kernel

/-- The report of die 1 for the wave that the device latched: first, and again. -/
theorem test_reports :
    let m : Msg := { msg 0x09 0 [BitVec.ofNat 120 (5 * 2 ^ 16)] with src := UA.mk 0 (UA.keyOf 1 256), dest := 0 }
    let s := latched 0 []
    let again := latched 0 [UA.key m.src]
    s.requestOk m 0x09 = true ∧ UA.key m.src ∈ UA.children m.dest ∧ s.local? m.src = true ∧ (s.unit 0).shadow.state = 1 ∧
      (s.unit 0).shadow.origin.toNat = m.fld 0 15 0 ∧ (s.unit 0).shadow.num.toNat = m.fld 0 47 16 ∧ UA.key m.src ∉ (s.unit 0).shadow.kids ∧
      s.dbg.snapAbandoned = false ∧ again.requestOk m 0x09 = true ∧ UA.key m.src ∈ (again.unit 0).shadow.kids := by decide +kernel

/-- Freezes that are asked for, and doorbells that none waits for. -/
theorem test_freezes : up.up = true ∧ { up.dbg with fullReq := true }.fullFrozen = false ∧ up.dbg.fullReq = false ∧
    { up.dbg with fabricReq := true }.fabricFrozen = false ∧ up.dbg.doorWait = [] ∧ up.dbg.barWait = [] := by decide +kernel

/-- Debug reads of the last window of a space of cell 511, and of one past its end. -/
theorem test_debug_reads :
    let d : Dbg := { authed.dbg with fabricFrozen := true, fullFrozen := true, fullDebug := true, unit := UA.mk 0 (UA.keyOf 5 511), space := 1, offset := 4096 }
    let s := asking (ask 3 0xA000 0x08 0x0C 4096) { authed with dbg := d }
    s.dbg.fabricFrozen = true ∧ s.dbg.auth = true ∧ UA.canonical s.dbg.unit = true ∧ UA.depth s.dbg.unit = 5 ∧ s.local? s.dbg.unit = true ∧
      s.dbg.offset.toNat + 4096 ≤ debugSize s.dbg.space.toNat ∧ debugSize 2 < 4097 + 4096 ∧ debugSize 6 < 0 + 4096 ∧ UA.depth 0 ≠ 5 ∧
      (authed.dbg.fabricFrozen && authed.dbg.auth) = false := by decide +kernel

/-- A request of that debug read which the service takes. -/
theorem test_debug_request :
    let d : Dbg := { authed.dbg with fabricFrozen := true, unit := UA.mk 0 (UA.keyOf 5 511), space := 1, offset := 4096 }
    ∃ p n, Asks (asking (ask 3 0xA000 0x08 0x0C 4096) { authed with dbg := d }) .dbgData (ask 3 0xA000 0x08 0x0C 4096) p n := asks_of (by decide +kernel)

/-- Unknown instructions of a TAP, DBG_ACCESS at the host die among them. -/
theorem test_taps : up.pwr.on = true ∧ tapKnown 0 0x11 = false ∧ tapKnown 1 0xFF = false ∧ tapKnown 2 0x03 = false := by decide +kernel

/-- DBG_ACCESS of the last eight bytes of a tile of cell 511, with GO and without, in a full freeze that may read and outside. -/
theorem test_dbg_access :
    let u := UA.mk 0 (UA.keyOf 5 511)
    let dr : BitVec 168 := BitVec.ofNat 168 (u.toNat * 2 ^ 64 + 2 * 2 ^ 128 + 1023 * 2 ^ 136 + 2 ^ 160)
    let v : UnitAddr := (dr >>> 64).setWidth 64
    v = u ∧ dr.getLsbD 160 = true ∧ (dr &&& (2 ^ 160 - 1 : Nat)).getLsbD 160 = false ∧ UA.canonical v = true ∧ UA.depth v = 5 ∧ up.local? v = true ∧
      CellIx.die (cellIx (UA.index v)) = 2 - 1 ∧ 8 * fld dr 159 136 + 8 ≤ debugSize (fld dr 135 128) ∧ (up.dbg.fullFrozen && up.dbg.fullDebug) = false := by
  decide +kernel

/-! ### Links and packets -/

/-- A flit with header `h` and an item area whose next four bytes bring the remainder of the CRC to zero, which zeros keep. -/
def flitOf (h : Nat) (area : List Byte := []) : List Byte :=
  let b := bytesLE 8 h ++ area
  sliceD (b ++ bytesLE 4 (b.foldl crcByte 0xFFFFFFFF).toNat) 0 248 0 ++ [255, 255, 255, 255, 0, 0, 0, 0]

theorem crc_zeros (n : Nat) : (List.replicate n (0 : Byte)).foldl crcByte 0 = 0 := by
  induction n with
  | zero => rfl
  | succ n ih => rw [List.replicate_succ, List.foldl_cons, show crcByte 0 0 = 0 by decide, ih]

theorem flit_ok (b : List Byte) (n : Nat) (hf : flitForm b = true) (ht : b.take 248 = b.take (248 - n) ++ List.replicate n 0)
    (hz : (b.take (248 - n)).foldl crcByte 0xFFFFFFFF = 0) (hc : ofBytesLE ((b.drop 248).take 4) = 0xFFFFFFFF) : flitOk b = true := by
  unfold flitOk crc32c
  rw [hf, ht, List.foldl_append, hz, crc_zeros, hc]; decide

/-- `up` with copper in port 7 and link 28 as given. -/
def onLink (k : Link) (s : State := up) : State := { s with net := { s.net with cables := [(7, .copper)], links := [(28, k)] } }

/-- A link that is UP in native mode, the last SEQ at the wrap. -/
def upLink : Link := { st := .up, lock := true, rxSeq := 4095, partner := some ⟨1, 0, 0, 0, false, 9⟩ }

/-- DATA, ABORT, IDLE, HELLO and DEGRADE flits of SEQ 0, each with its type. -/
theorem test_flits :
    let d := flitOf (1 + 1 * 2 ^ 5)
    let a := flitOf (1 + 2 ^ 9 + 2 ^ 4)
    let h := flitOf 3 (bytesLE 2 1 ++ [0, 0, 4, 0, 0, 0] ++ bytesLE 8 9)
    flitOk d = true ∧ FlitOf 28 d (.dataFlit 28 d) ∧ flitOk a = true ∧ FlitOf 28 a (.abortFlit 28 a) ∧ flitOk (flitOf 2) = true ∧
      FlitOf 28 (flitOf 2) (.idleFlit 28 (flitOf 2)) ∧ flitOk h = true ∧ FlitOf 28 h (.helloFlit 28 h) ∧ flitOk (flitOf 4) = true ∧
      FlitOf 28 (flitOf 4) (.degradeFlit 28 (flitOf 4)) ∧ flitOk (flitOf 5) = false ∧ BitVec.ofNat 12 (flitFld d 21 10) = 0 ∧
      (helloPartner h).serial = 9 ∧ (helloPartner h).unnum = false ∧ (helloPartner h).devid = 1 := by
  have ok (b : List Byte) (n : Nat) (hf : flitForm b = true) (ht : b.take 248 = b.take (248 - n) ++ List.replicate n 0)
    (hz : (b.take (248 - n)).foldl crcByte 0xFFFFFFFF = 0) (hc : ofBytesLE ((b.drop 248).take 4) = 0xFFFFFFFF) := flit_ok b n hf ht hz hc
  refine ⟨ok _ 236 ?_ ?_ ?_ ?_, .inl ⟨rfl, ?_⟩, ok _ 236 ?_ ?_ ?_ ?_, .inr (.inl ⟨rfl, ?_⟩), ok _ 236 ?_ ?_ ?_ ?_,
    .inr (.inr (.inl ⟨rfl, ?_⟩)), ok _ 220 ?_ ?_ ?_ ?_, .inr (.inr (.inr (.inl ⟨rfl, ?_⟩))), ok _ 236 ?_ ?_ ?_ ?_,
    .inr (.inr (.inr (.inr ⟨rfl, ?_⟩))), ?_⟩ <;> decide +kernel

/-- A wired link that is UP, one that is ABSENT, and one that retrains; SEQ 0 comes next. -/
theorem test_links :
    let s := onLink upLink
    let k := s.net.link 28
    s.linkWired 28 = true ∧ k.mode = 1 ∧ k.lock = true ∧ k.st = .up ∧ k.dup = false ∧ k.retraining = false ∧ (0 : BitVec 12) = k.rxSeq + 1 ∧
      (1 : BitVec 12) ≠ k.rxSeq + 1 ∧ 1 < k.lanes ∧ (onLink { upLink with lanes := 1 }).linkWired 28 = true ∧
      (onLink { st := .absent, lock := true }).linkWired 28 = true ∧ (onLink {}).linkMode 28 ≠ 0 ∧ (onLink {}).net.entry 1 = 15 ∧
      (onLink { upLink with retraining := true }).linkWired 28 = true ∧
      k.partner.elim false (fun q => decide (q.serial = 9)) = true := by decide +kernel

theorem baseMac_le : baseMac ≤ Config.baseMac.toNat := by unfold baseMac; omega

theorem linkMac_lt : linkMac 0 < 256 ^ 6 := by
  have h := baseMac_le
  have h2 := Config.baseMac.isLt
  unfold linkMac; omega

/-- A frame of Ethernet mode at link 0 for its address, from its partner. -/
theorem test_frame :
    let f := (bytesLE 6 (linkMac 0)).reverse ++ [0x02, 0, 0, 0, 0, 1, 0x88, 0xB5, 1, 0, 0, 0, 0, 0, 0, 0] ++ flitOf 2
    let s : State := { up with net := { up.net with cables := [(0, .active)], links := [(0, { upLink with mode := 2, peerMac := 0x020000000001 })] } }
    s.linkWired 0 = true ∧ (s.net.link 0).mode = 2 ∧ ofBytesLE (f.take 6).reverse = linkMac 0 ∧ f.length = 278 ∧
      s.peerMac 0 = ofBytesLE ((f.drop 6).take 6).reverse ∧ s.peerMac 0 ≠ 0 ∧ (f.drop 12).take 2 = [0x88, 0xB5] ∧
      ofBytesLE ((f.drop 14).take 1) = 1 ∧ ofBytesLE ((f.drop 15).take 7) = 0 ∧ (f.drop 22).take 256 = flitOf 2 := by
  refine ⟨by decide +kernel, by decide +kernel, ?_, ?_, rfl, by decide +kernel, rfl, rfl, rfl, ?_⟩
  · rw [show List.take 6 ((bytesLE 6 (linkMac 0)).reverse ++ [0x02, 0, 0, 0, 0, 1, 0x88, 0xB5, 1, 0, 0, 0, 0, 0, 0, 0] ++ flitOf 2) = (bytesLE 6 (linkMac 0)).reverse from rfl,
      List.reverse_reverse, ofBytesLE_bytesLE]
    exact Nat.mod_eq_of_lt linkMac_lt
  · have h : (flitOf 2).length = 256 := by decide +kernel
    rw [List.length_append, List.length_append, List.length_reverse, bytesLE_length, h]; rfl
  · decide +kernel

/-- Held flits whose time has run out; a HELLO and a partner that are late; a link without lock. -/
theorem test_link_times :
    let s : State := { onLink { upLink with held := [⟨0, false, [], true⟩] } with timeDie1 := 3500000 }
    let k := s.net.link 28
    s.linkWired 28 = true ∧ k.sends = true ∧ k.held ≠ [] ∧ s.retryNs 28 ≠ 0 ∧ s.retryNs 28 ≤ (s.linkTime 28 - k.lastAck).toNat ∧ s.frozen = false ∧
      k.st ≠ .off ∧ 1000000 ≤ (s.linkTime 28 - k.helloAt).toNat ∧ 3500000 ≤ (s.linkTime 28 - k.lastHello).toNat ∧ s.up = true ∧
      ((onLink {}).net.link 28).lock = false := by decide +kernel

/-- An item for device 0 and for device 1 at the head of a numbered device's receive buffer. -/
def received (dev : BitVec 16) (room : List Packet := []) : State :=
  let s := onLink { upLink with rx0 := [⟨[⟨true, 1, (UA.mk dev 0).setWidth 120⟩], false⟩] }
  { s with net := { s.net with numbered := true, devId := 0, arrive1 := room } }

theorem test_packets :
    let s := received 0
    let i : QItem := ⟨true, 1, (UA.mk 1 0).setWidth 120⟩
    s.dieUp (linkDie 28) = true ∧ s.net.numbered = true ∧ (s.net.link 28).rx0 = [⟨[⟨true, 1, (UA.mk 0 0).setWidth 120⟩], false⟩] ∧
      (s.net.link 28).mid0 = false ∧ (⟨[⟨true, 1, (UA.mk 0 0).setWidth 120⟩], false, none⟩ : Packet).dest = s.net.devId ∧
      ((s.net.arrive (linkDie 28)).map (fun p => p.items.length)).sum < arriveRoom ∧ ((received 1).net.link 28).rx0 = [⟨[i], false⟩] ∧
      (⟨[i], false, none⟩ : Packet).dest = 1 ∧ (received 1).net.route 1 = none ∧ ((received 1).mem.allocHold (linkDie 28) 1 1).isSome = true := by
  decide +kernel

/-- An arrival buffer of die 1 that is full. -/
theorem test_full_buffer : let s := received 0 [⟨List.replicate arriveRoom ⟨false, 1, 0⟩, false, none⟩]
    arriveRoom ≤ ((s.net.arrive (linkDie 28)).map (fun p => p.items.length)).sum := by
  have h (n : Nat) : n ≤ (([⟨List.replicate n ⟨false, 1, 0⟩, false, none⟩] : List Packet).map (fun p => p.items.length)).sum := by simp
  exact h arriveRoom

/-- Packets that have arrived whole and aborted; a packet that is held for device 1, with a usable link and without. -/
theorem test_deliveries :
    let m := msg 0x05 0 []
    let p : Packet := ⟨m.items, false, none⟩
    let q : Packet := { p with aborted := true }
    let s := received 1 [p]
    let n := { s.net with routes := [(1, 7)], heldPk := [(1, p)] }
    s.dieUp 1 = true ∧ (s.net.arrive 1).find? (fun p => decide (p.src = none)) = some p ∧ Msg.ofItems p.items = some m ∧
      ((received 1 [q]).net.arrive 1).find? (fun p => decide (p.src = none)) = some q ∧ s.fabricUp = true ∧ n.route 1 = some 28 ∧
      (∀ m ∈ n.inFlight, UA.device m.dest ≠ 1) := by
  refine ⟨by decide +kernel, by decide +kernel, by decide +kernel, by decide +kernel, by decide +kernel, by decide +kernel, ?_⟩
  intro m h; cases h

/-! ### Supply, power, boot, steps -/

/-- The module without power, its input in and out of range. -/
theorem test_supply :
    let off : State := { State.reset with pwr := { State.reset.pwr with on := false, pwrEn := false } }
    let low : State := { off with pwr := { off.pwr with inputOk := false, latch := .over } }
    State.reset.pwr.on = true ∧ off.pwr.on = false ∧ off.pwr.inputOk = true ∧ off.pwr.latch = .clear ∧ low.pwr.on = false ∧ low.pwr.inputOk = false ∧
      low.pwr.latch ≠ .clear ∧ { up.pwr with boot := .off }.pg = true := by decide +kernel

/-- `up` with a POWER_CAP of 400 W, so that no part of a control step is the variant's. -/
def capped : State := up.modDict (fun d => { d with params := [(⟨0, 0x2000, 0x01⟩, [0x90, 0x01])] })

/-- A hot die at 600 mV: its target falls below, the duty with it. -/
theorem test_power_falls :
    let s : State := { capped with pwr := { up.pwr with die1 := { up.pwr.die1 with mv := 600, tj := 1600 } } }
    s.hostUp = true ∧ s.fixedMv = 0 ∧ (s.diePower 1).mv ≤ 600 ∧
      (match exec (.powerControlStep 0) s with
       | .next t => decide (min (t.diePower 1).capMv (t.diePower 1).thermMv < 600 ∧ (t.diePower 1).duty = 15 ∧ (t.diePower 1).mv = 600)
       | _ => false) = true := by decide +kernel

/-- A cool die at 600 mV and a duty of 15 takes its duty first; one at full duty takes its target. -/
theorem test_power_rises :
    let d : DiePower := { up.pwr.die0 with mv := 600, capMv := 600, tj := 0, duty := 15 }
    let s : State := { capped with pwr := { up.pwr with die0 := d, die1 := { d with duty := 16 } } }
    (match exec (.powerControlStep 0) s with
     | .next t => decide (600 ≤ min (t.diePower 0).capMv (t.diePower 0).thermMv ∧ (s.diePower 0).duty < 16 ∧ (t.diePower 0).duty = 16 ∧
         600 ≤ min (t.diePower 1).capMv (t.diePower 1).thermMv ∧ 16 ≤ (s.diePower 1).duty ∧ 600 < (t.diePower 1).mv)
     | _ => false) = true := by decide +kernel

/-- TJ_WARN, which a sample reaches while a warning is armed, and one while it is not. -/
theorem test_thermal : up.pwr.boot ≠ .off ∧ (up.diePower 0).warnArmed = true ∧ up.tjWarn = 1520 ∧ (up.diePower 1).uv = false ∧
    { up.pwr.die0 with warnArmed := false }.warnArmed = false ∧ ¬ (∀ x : BitVec 16, x.toInt < 1520) := by
  refine ⟨by decide +kernel, by decide +kernel, by decide +kernel, by decide +kernel, by decide +kernel, fun h => absurd (h 1520) (by decide)⟩

/-- The endpoint's reset in a full freeze, without one, and before the module is up. -/
theorem test_perst : up.up = true ∧ { up.dbg with fullFrozen := true }.fullFrozen = true ∧ up.dbg.fullFrozen = false ∧ State.reset.up = false := by
  decide +kernel

/-- A boot of slot A, one of a module without an image, and one that the strap sends to recovery. -/
theorem test_boot :
    let i : SlotImage := ⟨1, 0, 0, 0, 0x01000000, true, [], true⟩
    let x : Sec := { State.reset.sec with slotA := none }
    State.reset.pwr.on = true ∧ State.reset.pwr.boot = .released ∧ State.reset.sec.choose = (0, some i) ∧ State.reset.pwr.strapRecoveryN = true ∧
      x.choose.2 = none ∧ { State.reset.sec with slotB := some { i with seq := 2 } }.choose = (1, some { i with seq := 2 }) := by decide +kernel

/-- A queue with a command and one without; the power off. -/
theorem test_queue : { up with pending := [.tapReset] }.pending = [.tapReset] ∧ State.reset.pending = [] ∧ State.reset.pwr.on = true ∧
    ({ State.reset.pwr with on := false } : Power).on = false := by decide +kernel

/-- A step from reset, and the invariant there. -/
theorem test_step : (match step { State.reset with pending := [.perstDeassert] } with
    | .next t => decide (t.pwr.perstN = true ∧ t.pending = [])
    | _ => false) = true := by decide +kernel

theorem test_invariant : MachineInvariant State.reset :=
  ⟨⟨by decide +kernel, by decide +kernel, fun x h => by cases h⟩, by decide +kernel⟩

/-- Blown fuses, and debug authorised with the response in front. -/
theorem test_fuses : (State.reset.sec.key 0).getLsbD 0 = true ∧ (State.reset.sec.key 1).getLsbD 2 = true ∧ authed.dbg.auth = true ∧ up.dbg.auth = false ∧
    ({ up with pending := [.dbgResponse] } : State).pending.head? = some .dbgResponse := by decide +kernel

/-! ### Well-formed commands -/

/-- A unit that is not canonical. -/
def noUnit : UnitAddr := 1

theorem test_wf_units : UA.canonical noUnit = false ∧
    ([.windowOpenCmd noUnit, .windowCloseCmd noUnit, .carcaseCommandComplete noUnit 0, .deferredWindowOpen noUnit 0, .windowWriteLanded noUnit 0,
      .commitApply noUnit 0, .waveArrival noUnit .host aWave] : List Instr).all (fun c => !c.wf) = true ∧
    ([.windowOpenCmd 0, .windowCloseCmd 0, .carcaseCommandComplete 0 0, .deferredWindowOpen 0 0, .windowWriteLanded 0 0, .commitApply 0 0,
      .waveArrival 0 .host aWave] : List Instr).all Instr.wf = true := by decide +kernel

/-- A message of too many body items. -/
def longMsg : Msg := { msg 0x05 0 [] with body := List.replicate 65536 0 }

theorem test_wf_longMsg : longMsg.wf = false := by
  unfold Msg.wf longMsg; rw [List.length_replicate]; rfl

theorem test_wf_messages :
    let l (m : Msg) : List Instr := [.cutCmd m, .killCmd m, .commandArrival m, .roleSet m, .windowWrite m, .chainSum m, .blockFetch m [], .replyArrival m,
      .bounceArrival { m with bounced := true }, .syncRead m, .syncInit m, .syncAdd m, .syncWaitGe m, .syncArrive m, .syncArriveWait m, .syncWaitGen m,
      .syncSet m, .syncClear m, .syncWaitSet m, .syncWaitClear m, .spillAlloc m, .spillFree m, .spillWrite m, .spillRead m, .snapshotReport m]
    (l longMsg).all (fun c => !c.wf) = true ∧ (l (msg 0x05 0 [])).all Instr.wf = true ∧ Instr.wf (.bounceArrival (msg 0x05 0 [])) = false := by
  have h : longMsg.wf = false := test_wf_longMsg
  have h' : ({ longMsg with bounced := true } : Msg).wf = false := test_wf_longMsg
  refine ⟨?_, by decide +kernel, by decide +kernel⟩
  simp only [List.all_cons, List.all_nil, Instr.wf, h, h', Bool.not_false, Bool.and_self, Bool.false_and]

/-- Entries of 7 words, and of 8. -/
theorem test_wf_entries :
    let l (e : List Word) : List Instr := [.jobEntry 0 e [], .killEntry 0 e, .cutEntry 0 e, .registerEntry 0 e [] [] [] true, .releaseEntry 0 e]
    (l (List.replicate 7 0)).all (fun c => !c.wf) = true ∧ (l (List.replicate 8 0)).all Instr.wf = true := by decide +kernel

/-- A count that the items do not have, accesses of 3 bytes, sizes of 1 and of 3 entries, writes outside the mailbox. -/
theorem test_wf_host :
    let st (n : BitVec 17) : Instr := .streamReset 0 ⟨0, n, 0, n, 0, 0, 0⟩
    ([.evcSendGo 0 0 3 [0] false, .workstationWindowAccess 0 none 0 (.load 0 3 [0, 0, 0]), .workstationWindowAccess 0 none 0 (.load 0 4 [0]),
      .workstationWindowAccess 0 none 0 (.store 0 [0, 0, 0]), st 1, st 3, .mbGo .loc (.hdr 32 [0]), .mbGo .bar4 (.data 61440 [0])] : List Instr).all
        (fun c => !c.wf) = true ∧
    ([.evcSendGo 0 0 1 [0] false, .workstationWindowAccess 0 none 0 (.load 0 2 [0, 0]), .workstationWindowAccess 0 none 0 (.store 0 [0]), st 0, st 2, st 65536,
      .mbGo .loc (.hdr 31 [0]), .mbGo .bar4 (.data 61439 [0]), .mbGo .loc .go] : List Instr).all Instr.wf = true := by decide +kernel

/-- Flits of 255 bytes and of 256; 3 lanes and 2; 65 lanes of a die and 64; a boot with 39 channels and with 40. -/
theorem test_wf_lines :
    let f (n : Nat) : List Instr := let b : List Byte := List.replicate n 0
      [.dataFlit 0 b, .abortFlit 0 b, .idleFlit 0 b, .helloFlit 0 b, .degradeFlit 0 b]
    let c (n : Nat) : Instr := .bootRun ⟨List.replicate 40 .full, List.replicate n .full, [], []⟩
    (f 255 ++ [.laneDegrade 0 3 none, .ucieLaneRepair 0 0 65 true, c 39]).all (fun c => !c.wf) = true ∧
    (f 256 ++ [.laneDegrade 0 2 none, .ucieLaneRepair 0 0 64 true, c 40, .tapReset]).all Instr.wf = true := by decide +kernel

/-- Three flips of one word of a row and two, a flip twice, and flips in two words. -/
theorem test_wf_row_flips :
    let l (e : List RowFlip) : List Instr := [.ld1 0 fb e, .ld2 0 fb e, .ld4 0 fb e, .ld8 0 fb e, .st1 0 fb e, .st2 0 fb e,
      .st4 0 fb e, .arrayBeat 0 [] false e none]
    (l [⟨16, 0⟩, ⟨16, 1⟩, ⟨16, 71⟩]).all (fun c => !c.wf) = true ∧ (l [⟨0, 5⟩, ⟨0, 5⟩]).all (fun c => !c.wf) = true ∧
      (l [⟨16, 0⟩, ⟨16, 71⟩, ⟨0, 0⟩, ⟨0, 1⟩]).all Instr.wf = true := by decide +kernel

/-- Five symbols of one unit in error and four; an error that is none. -/
theorem test_wf_unit_flips :
    let e (n : Nat) : List UnitFlip := (List.range n).map (fun i => ⟨7, Fin.ofNat 72 i, 1⟩)
    let l (e : List UnitFlip) : List Instr := [.fetch 0 fb e, .joinedFetchArrival 0 e, .gatherColumn 0 fb e, .gatherRow 0 fb e,
      .patrol 0 e, .blockFetch (msg 0x05 0 []) e]
    (l (e 5)).all (fun c => !c.wf) = true ∧ (l [⟨7, 0, 0⟩]).all (fun c => !c.wf) = true ∧ (l (e 4 ++ [⟨8, 0, 1⟩])).all Instr.wf = true := by decide +kernel

/-! ### More conditions of the statements -/

/-- A hart that is BUSY; offsets in the workstation window, at its end and past it. -/
theorem test_window_region :
    let s := withStream up
    let b : State := { up with evc := { up.evc with harts := [(15, { busy := true })] } }
    (b.evc.hart 15).busy = true ∧ (up.evc.hart 15).busy = false ∧ up.evc.hiq.flushing = false ∧ s.pcie.bme = true ∧
      s.hostRegion (0x2000000000000 + (0x1FFFFFFFFFFFF : Word).toNat) = some .window ∧
      s.hostRegion (0x2000000000000 + (0x2000000000000 : Word).toNat) ≠ some .window := by decide +kernel

/-- A value that CFG takes and one out of its range. -/
theorem test_write_values :
    let w (i sub n : Nat) (v : List Byte) (b : Bool) := let r := ask 4 i sub 3 n v
      match (taken (asking r)).access r with
      | .ok (p, n) => ((taken (asking r)).writeParam r p n).isSome == b && decide (p.targets n = [n]) && !p.next
      | .error _ => false
    w 0x4000 0x0C 4 [1, 0, 0, 0] true = true ∧ (0x4000 : Nat) ∉ [0x4800, 0x6000, 0x5820, 0xC100, 0x8000, 0xA000] := by decide +kernel

/-- A stage buffer that is empty, one that is filled, and a commit of a bad value with none in front. -/
theorem test_stages :
    let r := ask 4 0x3800 0xFF 1 1 [1]
    let s := (asking r).modDict (fun d => { d with stages := [(⟨0, 0x3800, 0⟩, [(0x02, [0])])] })
    let x : PendCommit := ⟨0, 0x3800, [(0, [(0x02, [0])])], r⟩
    (asking (ask 4 0x3800 0x01 1 1 [1])).dict.stage 0 0x3800 = none ∧ s.dict.stage 0 0x3800 = some [(0x02, [0])] ∧
      (groupUnits 0x3800 0).filterMap (fun u => (s.dict.stage u 0x3800).map (fun v => (u, v))) = x.vals ∧ s.commitBad x = some 0x02 ∧
      s.dict.commits = [] ∧ x.meets 0x3800 (groupUnits 0x3800 0) = true ∧ x.meets 0x4000 (groupUnits 0x4000 0) = false ∧
      ((ask 4 0x3800 0xFF 1 1 [2]).num ≠ 1) := by decide +kernel

/-- Pending commits at quiescence: of a role, of a parameter of cell 511, and one whose cell is not at rest. -/
theorem test_commit_rest :
    let r := ask 4 0x6800 0xFF 1 1 [1]
    let x : PendCommit := ⟨0, 0x6800, [(0, [(0x03, [1]), (0x04, [0, 0])])], r⟩
    let c : PendCommit := ⟨UA.keyOf 5 511, 0x4800, [(UA.keyOf 5 511, [(0x04, [9])])], r⟩
    let busy : State := { up with cells := [(511, { seq := { waiting := some 0 } })] }
    let q (s : State) (x : PendCommit) : State := s.modDict (fun d => { d with commits := [x] })
    atQuiescence 0x6800 = true ∧ atQuiescence 0x4800 = true ∧ (q up x).dict.firstCommit 0 0x6800 = some (x, []) ∧ (q up x).commitBad x = none ∧
      (q up c).dict.firstCommit (UA.key (UA.mk 0 (UA.keyOf 5 511))) 0x4800 = some (c, []) ∧ (q up c).commitBad c = none ∧
      (q up c).unitUp (UA.keyOf 5 511) = true ∧ (q up c).quiescent (UA.cells (UA.mk 0 (UA.keyOf 5 511))) = true ∧
      (q busy c).quiescent (UA.cells (UA.mk 0 (UA.keyOf 5 511))) = false ∧ (c.vals.map (fun e => cellOfKey e.1)).Nodup ∧
      (0x4800, 0x04) ∈ cellGroups.map (fun g => (g.1, g.2.1)) := by decide +kernel

/-- An answer of another device, and a request that has been answered before. -/
theorem test_chamois_more :
    let r := ask 3 0x4000 0x0C 3 4
    let a := ask 0x83 0x4000 0x0C 3 0
    let g : Datagram := ⟨1, 2, r.hdr⟩
    let d : Dict := { up.dict with cache := [(1, 2, BitVec.ofNat 32 (r.f 4 4), [7])] }
    chamoisAnswer a 32 = true ∧ chamoisAnswer r g.bytes.length = false ∧
      (d.cache.find? (fun c => decide (c.1 = g.addr ∧ c.2.1 = g.port ∧ c.2.2.1.toNat = r.f 4 4))).isSome = true ∧
      up.dict.queue.countP (fun q => q.path.isChamois) < 32 := by decide +kernel

/-- Links whose lanes are all there and one that has lost a lane; a retrain of each. -/
theorem test_lanes :
    ((onLink upLink).net.link 28).lanes = (onLink upLink).net.fullLanes 28 ∧
      ((onLink { upLink with lanes := 2 }).net.link 28).lanes ≠ (onLink upLink).net.fullLanes 28 ∧ (onLink upLink).laneFails none = true ∧
      (onLink upLink).laneFails (some 0) = false := by decide +kernel

/-- A wave that stands behind a message to its node, and one that does not. -/
theorem test_wave_behind :
    let m := msg 0x05 0 []
    let s : State := { up with net := { up.net with inFlight := [m], ahead := [m] }, dbg := { up.dbg with snapNum := 5 } }
    s.waveBehind (UA.key m.dest) aWave = true ∧ up.waveBehind (UA.key m.dest) aWave = false ∧
      ({ s with net := { s.net with inFlight := [] } } : State).waveBehind (UA.key m.dest) aWave = false := by decide +kernel

/-- FREEZE_N that has been low for 1,000 ns, and for 999. -/
theorem test_low_long :
    ({ up with timeHost := 1000 } : State).lowLong = true ∧ ({ up with timeHost := 999 } : State).lowLong = false := by decide +kernel

/-- What a receive buffer can hold at its head: nothing, an ABORT, a WAVE in its first and in its second copy, and more of a packet. -/
theorem test_forward_heads :
    let w : Payload := BitVec.ofNat 120 5
    let f : RxFlit := ⟨[⟨true, 0x3E, w⟩], false⟩
    let wave : Wave := ⟨w.setWidth 16, (w >>> 16).setWidth 32, w.getLsbD 48, (w >>> 56).setWidth 64⟩
    let on (k : Link) : State := let s := onLink k; { s with net := { s.net with numbered := true, devId := 0 } }
    let s := on { upLink with rx0 := [f] }
    let s1 : State := { s with net := { s.net with wave1 := [(28, wave)] } }
    let m := on { upLink with rx1 := [⟨[⟨false, 1, w⟩], false⟩], mid1 := true }
    s.dieUp (linkDie 28) = true ∧ s.net.numbered = true ∧ (s.net.link 28).rx1 = [] ∧ (s.net.link 28).rx0 = [f] ∧ (28, wave) ∉ s.net.wave1 ∧
      (28, wave) ∈ s1.net.wave1 ∧ (m.net.link 28).rx1 = [⟨[⟨false, 1, w⟩], false⟩] ∧ (m.net.link 28).mid true = true ∧
      ((on { upLink with rx0 := [⟨[], true⟩] }).net.link 28).rx0 = [⟨[], true⟩] := by decide +kernel

/-- A packet for device 1 with a route over a link that sends and over one that does not, with none, behind one that is held, and with
no memory to hold it; a release for a device with no route, for this one, and with a route. -/
theorem test_routes_taken :
    let s := received 1
    let n := { s.net with routes := [(1, 7)] }
    let h := { n with heldPk := [(1, ⟨[⟨true, 1, 0⟩], false, none⟩)] }
    let down := { n with links := [(28, { upLink with st := .down, rx0 := (s.net.link 28).rx0 })] }
    n.route 1 = some 28 ∧ (n.link 28).sends = true ∧ (∀ x ∈ n.heldPk, x.1 ≠ 1) ∧ down.route 1 = some 28 ∧ (down.link 28).sends = false ∧
      s.net.route 1 = none ∧ (∃ x ∈ h.heldPk, x.1 = 1) ∧ (s.mem.allocHold (linkDie 28) 1 1).isSome = true ∧
      ({ s.mem with dirEntries := 2 ^ 60 } : MemSys).allocHold (linkDie 28) 1 1 = none ∧ s.net.inFlight.filter (fun m => decide (UA.device m.dest = 1)) = [] ∧
      s.net.devId = 0 ∧ s.net.arrive 0 = [] := by
  refine ⟨by decide +kernel, by decide +kernel, (fun x h => by cases h), by decide +kernel, by decide +kernel, by decide +kernel,
    ⟨_, List.mem_cons_self, rfl⟩, by decide +kernel, by decide +kernel, by decide +kernel, by decide +kernel, by decide +kernel⟩

end Sys2Proof.Tests
end

/-! PROOFS. Runs never stop. -/

namespace Sys2Proof.Proofs

open Sys2Proof.Machine Sys2Proof.Safety

/-- A step is total: with an empty queue time passes, and any command in front has a meaning (log 1, log 2). -/
theorem step_proceeds (s : State) : Proceeds s := by
  unfold Proceeds step
  cases s.pending with
  | nil => exact ⟨tick s, rfl⟩
  | cons c rest => exact Laws.StepLaws.never c { s with pending := rest }

/-- Where every state proceeds, a run of any length is safe. -/
theorem safeFor_of_forall_proceeds (h : ∀ s, Proceeds s) (n : Nat) (s : State) : SafeFor n s := by
  induction n generalizing s with
  | zero => exact True.intro
  | succ n ih =>
    obtain ⟨t, hstep⟩ := h s
    exact ⟨t, hstep, ih t⟩

/-- Settles O55: every step proceeds, whatever state the run has come to, by induction on the length of the run. -/
theorem runsNeverStop : Obligations.RunsNeverStop :=
  safeFor_of_forall_proceeds step_proceeds

end Sys2Proof.Proofs

/-! PROOFS. Role changes, commands that arrive, spares and hosts, the queue of waiting commands, and resets. -/

namespace Sys2Proof.Proofs

open Sys2Proof Sys2Proof.Machine Sys2Proof.Laws

/-! ### Message arrivals -/

/-- A message with another epoch is bounced with STALE_ROLE (R57, R58). -/
theorem arrival_stale (s : State) (m : Msg) (f : State → State) (h : m.epoch ≠ s.epochOf m.dest) :
    s.arrival m f = (s.takeMsg m).bounce m ccStaleRole :=
  if_neg h

/-- Counting a received message leaves every unit's role and epoch. -/
theorem received_role_epoch (s : State) (m : Msg) (k : Nat) :
    ((s.received m).unit k).role = (s.unit k).role ∧ ((s.received m).unit k).epoch = (s.unit k).epoch := by
  unfold State.received
  by_cases h : k = UA.key m.dest
  · subst h; rw [State.unit_modUnit]; exact ⟨rfl, rfl⟩
  · rw [State.unit_modUnit_ne _ _ _ _ h]; exact ⟨rfl, rfl⟩

theorem received_unit_other (s : State) (m : Msg) (k : Nat) (h : k ≠ UA.key m.dest) : (s.received m).unit k = s.unit k :=
  State.unit_modUnit_ne _ _ _ _ h

/-! ### Role changes -/

/-- The keys of a unit and of the units below it are distinct. -/
theorem key_cons_below_nodup (u : UnitAddr) : (UA.key u :: UA.below u).Nodup :=
  List.nodup_cons.mpr ⟨key_notin_below u, below_nodup u⟩

/-- What ROLE_SET with a valid code does: the change of roles, and for the device's own role the announcement (R53, R537). -/
theorem roleSet_valid (s : State) (m : Msg) (h : m.fld 0 7 0 ≤ 4) :
    (s.roleSet m).cells = s.cells ∧
      (s.roleSet m).units = ((s.received m).setRole m.dest (BitVec.ofNat 8 (m.fld 0 7 0))).units := by
  have hcode : ¬ 4 < (BitVec.ofNat 8 (m.fld 0 7 0)).toNat := by
    rw [BitVec.toNat_ofNat]
    omega
  have hcells : ((s.received m).setRole m.dest (BitVec.ofNat 8 (m.fld 0 7 0))).cells = s.cells :=
    (setRole_fold _ (key_cons_below_nodup m.dest) _ (s.received m)).1
  unfold State.roleSet
  simp only [if_neg hcode]
  split
  · exact ⟨hcells, rfl⟩
  · exact ⟨hcells, rfl⟩

/-- Settles O24: the fold of the change over the unit and the distinct units below it. -/
theorem roleChanges : Obligations.RoleChanges := by
  unfold Obligations.RoleChanges
  intro s m hreq hepoch hcode
  obtain ⟨hcells, hunits⟩ := roleSet_valid (s.takeMsg m) m hcode
  obtain ⟨-, hin, hout⟩ := setRole_fold _ (key_cons_below_nodup m.dest) (BitVec.ofNat 8 (m.fld 0 7 0)) ((s.takeMsg m).received m)
  have hexec : exec (.roleSet m) s = .next ((s.takeMsg m).roleSet m) := by
    show execRoleSet m s = _
    unfold execRoleSet
    rw [onlyIf_true _ _ _ hreq, arrival_ok _ _ _ hepoch]
  refine ⟨_, hexec, hcells, fun k hk => ?_, fun k hk => ?_⟩
  · obtain ⟨hrole, hep⟩ := hin k hk
    have hep' : (((s.takeMsg m).roleSet m).unit k).epoch = (s.unit k).epoch + 1 := by
      rw [unit_of_units hunits]
      exact hep.trans (congrArg (· + 1) (received_role_epoch (s.takeMsg m) m k).2)
    refine ⟨by rw [unit_of_units hunits]; exact hrole, hep', fun hmax => ?_⟩
    rw [hep', hmax]
    decide
  · have hne : k ≠ UA.key m.dest := fun e => hk (e ▸ List.mem_cons_self)
    rw [unit_of_units hunits]
    exact (hout k hk).trans (received_unit_other _ _ _ hne)

/-! ### Commands that arrive -/

/-- The one cell of a unit of depth 5. -/
theorem cells_of_depth_five (u : UnitAddr) (h : UA.depth u = 5) : UA.cells u = [UA.index u] := by
  simp [UA.cells, h, UA.span]

/-- An accepted command goes to every cell of its unit, but for a WINDOW command, which waits at the dispatcher of its
carcase (R30, R36). -/
theorem acceptCommand_spreads (s : State) (m : Msg) (h : UA.depth m.dest = 5 ∨ m.fld 0 7 0 ≠ 0x03) :
    ∃ w : State, s.acceptCommand m = w.modCells (UA.cells m.dest) (·.enqueueCmd s.runTime m.items) ∧
      w.cells = s.cells ∧ w.net = s.net := by
  unfold State.acceptCommand
  by_cases hd : UA.depth m.dest = 5
  · rw [cells_of_depth_five _ hd]
    simp only [if_pos hd]
    exact ⟨s.received m, rfl, rfl, rfl⟩
  · simp only [if_neg hd, if_neg (h.resolve_left hd)]
    exact ⟨_, rfl, rfl, rfl⟩

/-- Items that come to a cell change CMD alone, and fill it where neither a scrub nor a flush holds them back (R331, R343). -/
theorem enqueueCmd_only_cmdq (x : Cell) (now : Word) (l : List QItem) :
    x.enqueueCmd now l = { x with cmdq := (x.enqueueCmd now l).cmdq } :=
  rfl

theorem enqueueCmd_items (x : Cell) (now : Word) (l : List QItem) (hscrub : x.scrubbing = false) (hflush : x.cmdq.flushing = false) :
    (x.enqueueCmd now l).cmdq.items = x.cmdq.items ++ (x.cmdq.inflow ++ l).take (64 - x.cmdq.items.length) := by
  unfold Cell.enqueueCmd
  simp only [hscrub, Bool.false_eq_true, if_false]
  exact fill_items 64 now { x.cmdq with inflow := x.cmdq.inflow ++ l } hflush

/-- A command that may arrive meets the epoch check (R57), unless it is a CUT or a KILL. -/
theorem exec_commandArrival (s : State) (m : Msg) (hreq : s.requestOk m 0x01 = true) (hcut : m.fld 0 7 0 ≠ 0x05)
    (hkill : m.fld 0 7 0 ≠ 0x06) (hsends : s.driverSends m = true) :
    exec (.commandArrival m) s = .next (s.arrival m (·.acceptCommand m)) := by
  show execCommandArrival m s = _
  unfold execCommandArrival
  rw [onlyIf_true _ _ _ (by rw [hreq, hsends, decide_eq_true ⟨hcut, hkill⟩]; rfl)]

/-- Settles O25: a command with its unit's epoch spreads over the unit's distinct cells; another is bounced. -/
theorem commandArrival : Obligations.CommandArrival := by
  unfold Obligations.CommandArrival
  intro s m hreq hcut hkill hsends
  have hexec := exec_commandArrival s m hreq hcut hkill hsends
  refine ⟨fun hepoch hwhere => ?_, fun hepoch hlocal => ?_⟩
  · rw [arrival_ok _ _ _ hepoch] at hexec
    obtain ⟨w, haccept, hcells, hnet⟩ := acceptCommand_spreads (s.takeMsg m) m hwhere
    rw [haccept] at hexec
    have hw (c : CellIx) : w.cell c = s.cell c := cell_of_cells hcells c
    refine ⟨_, hexec, ?_, fun i hi => ?_, fun c hc => ?_⟩
    · rw [modCells_frame]
      exact (congrArg Net.inFlight hnet).trans (takeMsg_rest s m).1
    · rw [modCells_mem _ _ (cells_nodup m.dest) i hi, hw]
      exact ⟨enqueueCmd_only_cmdq _ _ _, enqueueCmd_items _ _ _⟩
    · rw [modCells_other _ _ c hc, hw]
  · rw [arrival_stale _ _ _ hepoch] at hexec
    obtain ⟨hcells, hflight, -⟩ := SyncLaws.bounce_local (s.takeMsg m) m ccStaleRole ((takeMsg_local s m m.src).trans hlocal)
    refine ⟨_, hexec, hcells, ?_⟩
    rw [hflight, (takeMsg_rest s m).1]
    rfl

/-! ### Spares and hosts -/

/-- What a switch to the context of `c` does to one entry of the hosting table. -/
def switchEntry (h : Nat) (c : CellIx) (e : Host_) : Host_ :=
  if e.host = h then { e with resident := decide (e.guest = c.val) } else e

theorem switchTo_hosts (r : Rel) (h : Nat) (c : CellIx) : (r.switchTo h c).hosts = r.hosts.map (switchEntry h c) := rfl

@[simp] theorem switchEntry_host (h : Nat) (c : CellIx) (e : Host_) : (switchEntry h c e).host = e.host := by
  unfold switchEntry; split <;> rfl

@[simp] theorem switchEntry_guest (h : Nat) (c : CellIx) (e : Host_) : (switchEntry h c e).guest = e.guest := by
  unfold switchEntry; split <;> rfl

theorem switchEntry_resident (h : Nat) (c : CellIx) (e : Host_) (he : e.host = h) :
    (switchEntry h c e).resident = decide (e.guest = c.val) := by
  unfold switchEntry; rw [if_pos he]

theorem switchEntry_elsewhere (h : Nat) (c : CellIx) (e : Host_) (he : e.host ≠ h) : switchEntry h c e = e :=
  if_neg he

/-- A switch leaves every address with the host it has. -/
theorem switchTo_hostOf (r : Rel) (h : Nat) (c d : CellIx) :
    (r.switchTo h c).hostOf d = (r.hostOf d).map (switchEntry h c) := by
  unfold Rel.hostOf
  rw [switchTo_hosts, List.find?_map]
  simp only [Function.comp_def, switchEntry_guest]

theorem hostOf_guest {r : Rel} {c : CellIx} {e : Host_} (h : r.hostOf c = some e) : e.guest = c.val := by
  simpa using List.find?_some h

theorem hostOf_mem {r : Rel} {c : CellIx} {e : Host_} (h : r.hostOf c = some e) : e ∈ r.hosts :=
  List.mem_of_find?_eq_some h

theorem resident_of_hosted {s : State} {c : CellIx} {e : Host_} (h : s.rel.hostOf c = some e) : s.resident c = e.resident := by
  unfold State.resident; rw [h]

/-- An address that no other cell hosts is resident where no guest of its cell is. -/
theorem resident_of_own {s : State} {c : CellIx} (h : s.rel.hostOf c = none) :
    s.resident c = !s.rel.hosts.any (fun e => decide (e.host = c.val) && e.resident) := by
  unfold State.resident; rw [h]

/-- A state after the context of `c` became resident at `h`. -/
def switched (s : State) (h : Nat) (c : CellIx) : State := { s with rel := s.rel.switchTo h c }

theorem switched_hostOf (s : State) (h : Nat) (c d : CellIx) :
    (switched s h c).rel.hostOf d = (s.rel.hostOf d).map (switchEntry h c) :=
  switchTo_hostOf s.rel h c d

/-- The context that a host switches to is resident there (R616). -/
theorem switched_resident (s : State) (c : CellIx) :
    (switched s ((s.rel.hostOf c).elim c.val (·.host)) c).resident c = true := by
  cases hc : s.rel.hostOf c with
  | none =>
    rw [resident_of_own (by rw [switched_hostOf, hc]; rfl)]
    have hguest (e : Host_) (he : e ∈ s.rel.hosts) : e.guest ≠ c.val := by
      simpa using List.find?_eq_none.mp hc e he
    simp only [switched, switchTo_hosts, Option.elim_none, List.any_map, Bool.not_eq_true', List.any_eq_false]
    intro e he
    by_cases hhost : e.host = c.val
    · simp [switchEntry_resident _ _ _ hhost, hguest e he]
    · simp [hhost]
  | some e =>
    have hmap : (switched s e.host c).rel.hostOf c = some (switchEntry e.host c e) := by rw [switched_hostOf, hc]; rfl
    rw [Option.elim_some, resident_of_hosted hmap, switchEntry_resident _ _ _ rfl, hostOf_guest hc]
    simp

/-- No other context of that host is (R616). -/
theorem switched_not_resident (s : State) (c d : CellIx) (hne : d ≠ c)
    (hhost : (s.rel.hostOf d).elim d.val (·.host) = (s.rel.hostOf c).elim c.val (·.host)) :
    (switched s ((s.rel.hostOf c).elim c.val (·.host)) c).resident d = false := by
  have hval : d.val ≠ c.val := fun e => hne (Fin.ext e)
  cases hd : s.rel.hostOf d with
  | some e =>
    rw [hd, Option.elim_some] at hhost
    rw [← hhost]
    have hmap : (switched s e.host c).rel.hostOf d = some (switchEntry e.host c e) := by rw [switched_hostOf, hd]; rfl
    rw [resident_of_hosted hmap, switchEntry_resident _ _ _ rfl, hostOf_guest hd]
    simp [hval]
  | none =>
    rw [hd, Option.elim_none] at hhost
    cases hc : s.rel.hostOf c with
    | none => rw [hc] at hhost; exact absurd hhost hval
    | some e =>
      rw [hc, Option.elim_some] at hhost
      rw [Option.elim_some, resident_of_own (by rw [switched_hostOf, hd]; rfl), Bool.not_eq_false', List.any_eq_true]
      refine ⟨switchEntry e.host c e, List.mem_map_of_mem (hostOf_mem hc), ?_⟩
      rw [switchEntry_host, switchEntry_resident _ _ _ rfl, hostOf_guest hc]
      simp [hhost]

/-- The contexts of other hosts stay as they are. -/
theorem switched_resident_elsewhere (s : State) (h : Nat) (c d : CellIx) (hhost : (s.rel.hostOf d).elim d.val (·.host) ≠ h) :
    (switched s h c).resident d = s.resident d := by
  cases hd : s.rel.hostOf d with
  | some e =>
    rw [hd, Option.elim_some] at hhost
    have hmap : (switched s h c).rel.hostOf d = some e := by
      rw [switched_hostOf, hd, Option.map_some, switchEntry_elsewhere _ _ _ hhost]
    rw [resident_of_hosted hmap, resident_of_hosted hd]
  | none =>
    rw [hd, Option.elim_none] at hhost
    rw [resident_of_own (by rw [switched_hostOf, hd]; rfl), resident_of_own hd]
    simp only [switched, switchTo_hosts, List.any_map]
    congr 1
    refine List.any_congr rfl (fun e => ?_)
    by_cases he : e.host = h
    · simp [he, Ne.symm hhost]
    · simp [switchEntry_elsewhere _ _ _ he]

/-- A spare takes an address when the carcase rests, and no cell below it in the carcase asks first (R41, R612). -/
theorem exec_spareSubstitution (s : State) (c : CellIx) (hup : s.cellUp c = true) (hreq : (s.cell c).retireReq = true)
    (hfree : s.spareFree c = true) (hhost : s.rel.hostOf c = none) (hrest : s.quiescent (carcaseCells c) = true)
    (hscrub : (s.cell c).scrubbing = false)
    (hfirst : ∀ i ∈ carcaseCells c, i < c.val → (s.cell (cellIx i)).retireReq = false) :
    exec (.spareSubstitution c) s =
      .next (({ s with rel := { s.rel with spareOf := SMap.set s.rel.spareOf (c.val / 16) c.val } }).retired c 4) := by
  have hall : (carcaseCells c).all (fun i => decide (c.val ≤ i) || !(s.cell (cellIx i)).retireReq) = true := by
    rw [List.all_eq_true]
    intro i hi
    by_cases hle : c.val ≤ i
    · simp [hle]
    · simp [hfirst i hi (by omega)]
  show execSpareSubstitution c s = _
  unfold execSpareSubstitution
  rw [onlyIf_true _ _ _ (by rw [hup, hreq, hfree, hhost, hrest, hscrub, hall]; rfl)]

/-- A host takes an address when the unit that holds both rests and the pool holds the image (R614, R615). -/
theorem exec_hostingStart (s : State) (c : CellIx) (h d : Nat) (m : MemSys) (hup : s.cellUp c = true)
    (hreq : (s.cell c).retireReq = true) (hfree : s.spareFree c = false) (hhost : s.rel.hostOf c = none)
    (hscrub : (s.cell c).scrubbing = false) (hchoice : s.chooseHost c = some (h, d))
    (hroom : s.mem.allocMany (h / 256) 1024 (.image c.val) 42 = some m)
    (hrest : s.quiescent ((List.range (UA.span d)).map (fun i => c.val / UA.span d * UA.span d + i)) = true) :
    exec (.hostingStart c) s = .next (s.startHosting c h m) := by
  show execHostingStart c s = _
  unfold execHostingStart
  rw [onlyIf_true _ _ _ (by rw [hup, hreq, hfree, hhost, hscrub]; rfl)]
  simp only [hchoice, hrest, hroom, Bool.not_true, Bool.false_eq_true, if_false, Option.elim_some]

/-- A host switches to a context that can go on where its resident one cannot (R616). -/
theorem exec_hostContextSwitch (s : State) (c : CellIx) :
    let h := (s.rel.hostOf c).elim c.val (·.host)
    let now := s.cell (cellIx (s.residentAt h))
    s.dieUp (h / 256) = true → s.resident c = false → now.scrubbing = false → now.held = none → now.unitsRest = true →
    (now.ready = false ∧ (s.cell c).cmdq.headReady = true ∨
      now.waitsOutside = true ∧ ((s.cell c).ready = true ∨ s.waitsAtRouter c = true)) →
    exec (.hostContextSwitch c) s = .next (switched s h c) := by
  intro h now hup hnot hscrub hheld hunits hcause
  have hcond : ((!now.ready && (s.cell c).cmdq.headReady) ||
      (now.waitsOutside && ((s.cell c).ready || s.waitsAtRouter c))) = true := by
    simpa using hcause
  show execHostContextSwitch c s = _
  exact congrArg Host.Outcome.next (onlyIf_true _ _ _ (by rw [hup, hnot, hscrub, hheld, hunits, hcond]; rfl))

/-- Settles O31: the record of a retirement at a spare and at a host, and the entries of the hosting table after a switch. -/
theorem sparesAndHosts : Obligations.SparesAndHosts := by
  unfold Obligations.SparesAndHosts
  intro s c
  refine ⟨fun hup hreq hfree hhost hrest hscrub hfirst => ?_,
    fun h d m hup hreq hfree hhost hscrub hchoice hroom hrest => ?_, fun hup hnot hscrub hheld hunits hcause => ?_⟩
  · obtain ⟨hother, hmoved, hunits, hspare, -, hretired, hsave, -⟩ := ReliabilityLaws.retired_facts
      { s with rel := { s.rel with spareOf := SMap.set s.rel.spareOf (c.val / 16) c.val } } c 4
    exact ⟨_, exec_spareSubstitution s c hup hreq hfree hhost hrest hscrub hfirst, hother, hmoved, hunits,
      by rw [hspare]; exact ReliabilityLaws.get_mk _ _ _, hretired, hsave⟩
  · refine ⟨_, exec_hostingStart s c h d m hup hreq hfree hhost hscrub hchoice hroom hrest, ?_⟩
    unfold State.startHosting
    extract_lets old new bad
    obtain ⟨hother, hmoved, hunits, -, hhosts, hretired, hsave, hmem⟩ := ReliabilityLaws.retired_facts
      { s with mem := m, rel := { s.rel with hosts := old ++ [new], spareBad := bad } } c 5
    exact ⟨hother, hmoved, hunits, by rw [hhosts]; exact List.mem_append_right _ List.mem_cons_self, hretired, hmem, hsave⟩
  · exact ⟨_, exec_hostContextSwitch s c hup hnot hscrub hheld hunits hcause, rfl, switched_resident s c,
      switched_not_resident s c, switched_resident_elsewhere s _ c⟩

/-! ### The queue of waiting commands -/

/-- Settles O54: a command that keeps what most commands keep, or one of those that change security or the supply, and each of
these keeps the queue. -/
theorem commandsLeaveTheQueue : Obligations.CommandsLeaveTheQueue := by
  unfold Obligations.CommandsLeaveTheQueue
  intro c s t hexec
  obtain ⟨hpending, -⟩ := StepLaws.x_sound c s t hexec
  exact hpending

/-! ### Resets -/

/-- The parts of the module that every reset returns to their reset values (R709, R712). -/
structure PartsReset (t : State) : Prop where
  cells : t.cells = []
  units : t.units = []
  sync : t.sync = []
  waiters : t.waiters = []
  evc : t.evc = {}
  timeHost : t.timeHost = 0
  timeDie0 : t.timeDie0 = 0
  timeDie1 : t.timeDie1 = 0
  auth : t.dbg.auth = false
  params : t.dict.params = []
  jobs : t.drv.jobs = []

theorem partsReset_reset : PartsReset State.reset :=
  ⟨rfl, rfl, rfl, rfl, rfl, rfl, rfl, rfl, rfl, rfl, rfl⟩

theorem partsReset_coldReset (s : State) : PartsReset s.coldReset :=
  ⟨rfl, rfl, rfl, rfl, rfl, rfl, rfl, rfl, rfl, rfl, rfl⟩

/-- MOD_RESET_ASSERT with the power on is a cold reset (R712). -/
theorem exec_modResetAssert (s : State) (hon : s.pwr.on = true) :
    exec .modResetAssert s = .next (s.modPwr (fun p => { p with modResetN := false })).coldReset :=
  congrArg Host.Outcome.next (if_pos hon)

theorem PartsReset.unit {t : State} (h : PartsReset t) (k : Nat) : t.unit k = {} := unit_of_units (w := State.reset) h.units k

theorem PartsReset.cell {t : State} (h : PartsReset t) (c : CellIx) : t.cell c = {} := cell_of_cells (w := State.reset) h.cells c

theorem PartsReset.syncObj {t : State} (h : PartsReset t) (o : Nat) : t.syncObj o = .none := by
  unfold State.syncObj; rw [h.sync]; rfl

/-- Settles O60: reset and a module reset both reset the parts, and each value is read off a part. -/
theorem resetValues : Obligations.ResetValues := by
  unfold Obligations.ResetValues
  intro t ht
  have h : PartsReset t := by
    rcases ht with rfl | ⟨s, hon, hexec⟩
    · exact partsReset_reset
    · rw [exec_modResetAssert s hon] at hexec
      cases hexec
      exact partsReset_coldReset _
  refine ⟨fun k => ?_, h.syncObj, h.waiters, ?_, fun c => ?_, fun id => ?_, fun n => ?_, h.timeHost, h.timeDie0, h.timeDie1,
    h.auth, h.params, h.jobs⟩
  · rw [h.unit]; exact ⟨rfl, rfl⟩
  · rw [h.evc]
  · rw [h.cell]; exact ⟨rfl, rfl⟩
  · rw [h.evc]; rfl
  · rw [h.evc]; rfl

end Sys2Proof.Proofs

/-! PROOFS. Tiles from their issue to their drain, chain sums, and the replies and bounces that arrive. -/

namespace Sys2Proof.Proofs

open Sys2Proof Sys2Proof.Machine Sys2Proof.Claims Sys2Proof.Laws

/-! ### Tiles on their own -/

/-- A tile that no drain holds stays as it is when it settles. -/
theorem settle_of_undrained (y : Tile) (hd : y.drain = none) : y.settle = y := by
  unfold Tile.settle
  rw [hd]

/-- The token lets a CLOSING tile drain when its drain has nothing to merge (Table 4-3, R107). -/
theorem settle_token (y : Tile) (d : DrainRun) (hst : y.st = .closing) (hd : y.drain = some d) (hdue : d.due = false) :
    Tile.settle { y with token := true } = { y with token := true, st := .draining } := by
  unfold Tile.settle
  cases hi : y.inlet <;> simp [hst, hd, hdue]

/-- The first sum at the port enters an empty inlet (R116). -/
theorem acceptSum_of_empty (y : Tile) (m : ChainSum) (l : List ChainSum) (hi : y.inlet = none) (hp : y.port = m :: l)
    (hd : y.drain = none) : y.acceptSum = { y with inlet := some m, port := l } := by
  unfold Tile.acceptSum
  simp only [hi, hp]
  exact settle_of_undrained _ hd

/-! ### Events of a tile -/

section Events

variable {s : State} {c : CellIx} {k : Fin 2}

theorem exec_treeEmptyToken (hup : s.cellUp c = true) (hscrub : (s.cell c).scrubbing = false)
    (htoken : ((s.cell c).tile k.val).token = false) (hoff : (s.cell c).arrayOn k.val = false)
    (hst : ((s.cell c).tile k.val).st = .closing) : exec (.treeEmptyToken c k) s = .next (s.tokenArrives c k.val) :=
  congrArg Host.Outcome.next (onlyIf_true _ _ _ (by rw [hup, hscrub, htoken, hoff, hst]; rfl))

theorem exec_tileCheckpoint (hup : s.cellUp c = true) (hscrub : (s.cell c).scrubbing = false)
    (htoken : ((s.cell c).tile k.val).token = true) (hoff : (s.cell c).arrayOn k.val = false)
    (hst : ((s.cell c).tile k.val).st = .filling) (hfull : 16 ≤ ((s.cell c).tile k.val).joined.length) (u : Option Upset) :
    exec (.tileCheckpoint c k u) s = .next (s.checkpointTile c k.val u) :=
  congrArg Host.Outcome.next (onlyIf_true _ _ _ (by rw [hup, hscrub, htoken, hoff, hst, decide_eq_true hfull]; rfl))

/-- An upset that the residue shows is recomputed before the copy is made: the tile is checkpointed as it would be without
the upset (R600, R603). -/
theorem checkpointTile_of_seen (s : State) (c : CellIx) (k : Nat) (u : Upset)
    (h : ((s.cell c).tile k).storageFails u.m.val (some u) = true) :
    s.checkpointTile c k (some u) =
      (s.modCell c (fun z => z.modTile k (fun t => Tile.checkpoint { t with elems := ((s.cell c).tile k).elems }))).countRepeats c 1 := by
  unfold State.checkpointTile
  simp only [h, if_true]

theorem exec_loadComplete (hup : s.cellUp c = true) (hscrub : (s.cell c).scrubbing = false) (hheld : (s.cell c).held = none)
    {row op : Nat} (hload : ((s.cell c).tile k.val).load = some (row, op)) :
    exec (.loadComplete c k) s = .next (s.loadDone c k.val row op) := by
  show execLoadComplete c k s = _
  unfold execLoadComplete
  rw [hload]
  exact congrArg Host.Outcome.next (onlyIf_true _ _ _ (by rw [hup, hscrub, hheld]; rfl))

theorem exec_chainInletAccept (hup : s.cellUp c = true) (hscrub : (s.cell c).scrubbing = false) :
    exec (.chainInletAccept c k) s = .next (s.modCell c (fun x => x.modTile k.val (·.acceptSum))) :=
  congrArg Host.Outcome.next (onlyIf_true _ _ _ (by rw [hup, hscrub]; rfl))

theorem exec_sabItemApply (hup : s.cellUp c = true) (hscrub : (s.cell c).scrubbing = false) (bank : Fin 16) (flip : Option Acc) :
    exec (.sabItemApply c bank flip) s = .next (s.sabItem c bank.val flip) :=
  congrArg Host.Outcome.next (onlyIf_true _ _ _ (by rw [hup, hscrub]; rfl))

theorem exec_drainRow (hup : s.cellUp c = true) (hscrub : (s.cell c).scrubbing = false) (hheld : (s.cell c).held = none)
    {d : DrainRun} (hst : ((s.cell c).tile k.val).st = .draining) (hd : ((s.cell c).tile k.val).drain = some d)
    (hdue : d.due = false) (haccept : (s.cell c).rowAccepted d = true) (u : Option Upset) :
    exec (.drainRow c k u) s = .next (s.drainRow c k.val d u) := by
  show execDrainRow c k u s = _
  unfold execDrainRow
  simp only [hd]
  exact congrArg Host.Outcome.next (onlyIf_true _ _ _ (by rw [hup, hscrub, hheld, hst, hdue, haccept]; rfl))

end Events

/-- The tiles of a cell are its two parts. -/
theorem tile_eq_of_parts {x z : Cell} (h0 : x.tile0 = z.tile0) (h1 : x.tile1 = z.tile1) (k : Nat) : x.tile k = z.tile k := by
  unfold Cell.tile
  rw [h0, h1]

theorem tile_modOp (x : Cell) (k op : Nat) (f : UnitOp → UnitOp) : (x.modOp op f).tile k = x.tile k := rfl

/-- A LOAD fills its tile with the low 40 bits of its 1,024 words, and leaves the scratchpad (R104, R110). -/
theorem loadDone_facts (s : State) (c : CellIx) (k row op : Nat) :
    let t := s.loadDone c k row op
    let y := (t.cell c).tile k
    OnlyCell s c t ∧ y.st = .filling ∧ y.load = none ∧
      y.elems = (List.range 1024).foldr
        (fun i l => SMap.cons 0 i ((Memory.readWord (s.cell c).spad (128 * row + 8 * i)).setWidth 40) l) [] ∧
      (t.cell c).spad = (s.cell c).spad := by
  intro t y
  refine ⟨OnlyCell_modCell s c _, ?_⟩
  simp only [y, t, State.loadDone, State.cell_modCell, tile_modOp, TileLaws.tile_modTile, true_and]
  exact (TileLaws.modTile_rest (s.cell c) k _).2.2.1

/-- The head of a bank's queue is added to its slot, whether its adder is not upset or its check sees the upset, and leaves
the queue (R121, R599). -/
theorem applyHead_facts (b : Sab) (bank : Nat) (i : ScatterItem) (l : List ScatterItem) (flip : Option Acc)
    (hq : SMap.getD b.queues bank [] = i :: l) (hseen : flip.elim true (b.addFails i) = true) :
    (b.applyHead bank flip).slot i.slot = ⟨accAdd (b.slot i.slot).value i.value, (b.slot i.slot).poison || i.poison, true⟩ ∧
      SMap.getD (b.applyHead bank flip).queues bank [] = l := by
  have heq : b.applyHead bank flip = { b.apply i with queues := SMap.put b.queues bank l [] } := by
    unfold Sab.applyHead
    rw [hq]
    cases flip with
    | none => rfl
    | some a => exact congrArg (fun z : Sab => { z with queues := SMap.put b.queues bank l [] }) (if_pos hseen)
  rw [heq]
  exact ⟨(SMap.getD_put _ _ _ _ _).trans (if_pos rfl), (SMap.getD_put _ _ _ _ _).trans (if_pos rfl)⟩

/-- What the application of an item to its slot shows of the cell: the slots and queues of the banks, and the scratchpad. -/
theorem sabItem_facts (s : State) (c : CellIx) (bank : Nat) (flip : Option Acc) :
    (flip = none → OnlyCell s c (s.sabItem c bank flip)) ∧
      ((s.sabItem c bank flip).cell c).sab = (s.cell c).sab.applyHead bank flip ∧
      ((s.sabItem c bank flip).cell c).spad = (s.cell c).spad := by
  unfold State.sabItem
  extract_lets t
  have hsab : (t.cell c).sab = (s.cell c).sab.applyHead bank flip := congrArg Cell.sab (State.cell_modCell s c _)
  have hspad : (t.cell c).spad = (s.cell c).spad := by simp only [t, State.cell_modCell]
  have hnone (hflip : flip = none) : (s.cell c).sab.headFails bank flip = false := by
    subst hflip
    unfold Sab.headFails
    split <;> simp_all
  split
  · rename_i hfails
    obtain ⟨hsab', hspad'⟩ := TileLaws.countRepeats_rest t c 1
    exact ⟨fun hflip => absurd hfails (by rw [hnone hflip]; decide), hsab'.trans hsab, hspad'.trans hspad⟩
  · exact ⟨fun _ => OnlyCell_modCell s c _, hsab, hspad⟩

/-! ### A row of a drain to WIDE -/

/-- A row to WIDE goes to its two scratchpad rows and is zero in the tile, and the next one is due (R108, R110). -/
theorem rowWide_facts (s : State) (c : CellIx) (k m : Nat) (d : DrainRun) (v : Nat → Acc) (inside : Nat → Bool) :
    let t := s.rowWide c k m d v inside
    let y := (s.cell c).tile k
    OnlyCell s c t ∧
      (t.cell c).spad = writeAccRow (s.cell c).spad (128 * (bf d.block 3 13 0 + 2 * m)) v y.poison inside ∧
      ∃ l : Ledger, (t.cell c).tile k = { y.rowRead m d with ledger := l } := by
  intro t y
  simp only [t]
  unfold State.rowWide
  refine ⟨OnlyCell_modCell s c _, ?_⟩
  simp only [State.cell_modCell]
  exact ⟨rfl, _, (tile_eq_of_parts rfl rfl k).trans (TileLaws.tile_modTile (s.cell c) k _)⟩

/-- Before the last row, a row to WIDE of a layer that is no DELTA layer goes out alone: no reference word is written, and the
drain does not end (R108, R110, R247). -/
theorem drainRow_wide (s : State) (c : CellIx) (k : Nat) (d : DrainRun) (hdest : bf d.block 0 2 1 = 1) (hrow : d.row < 31)
    (hdelta : Prec.delta (d.block.getD 5 0) = false) :
    let y := (s.cell c).tile k
    s.drainRow c k d none = (s.modCell c (fun x => { x with failStreak := 0 })).rowWide c k d.row d
      (fun n => SMap.getD y.elems (32 * d.row + n) 0)
      (fun n => (s.extOf y.job y.layer (bf d.block 2 63 40) 0).inside d.row n) := by
  intro y
  unfold State.drainRow
  extract_lets m b r tile e inside v ch0 z w
  have hw : w = z.rowWide c k d.row d v inside := by
    simp only [w, b, if_pos hdest]
    unfold State.rowRef
    rw [hdelta]
    rfl
  have hnext : (((w.cell c).tile k).drain.elim 0 (·.row)) = d.row + 1 := by
    obtain ⟨-, -, l, htile⟩ := rowWide_facts z c k d.row d v inside
    rw [hw, htile]
    rfl
  rw [if_neg (show ¬ y.storageFails m none = true from Bool.false_ne_true), if_neg (by rw [hnext]; omega)]
  exact hw

/-! ### Beats of the array -/

theorem exec_arrayBeat {s : State} {c : CellIx} {r : ArrayRun} (hup : s.cellUp c = true) (hscrub : (s.cell c).scrubbing = false)
    (hheld : (s.cell c).held = none) (hretire : (s.cell c).retireReq = false) (harr : (s.cell c).arr = some r)
    (uns : List Nat) (behind : Bool) (e : List RowFlip) (u : Option Upset) :
    exec (.arrayBeat c uns behind e u) s = .next (s.arrayBeat c r uns behind e u) := by
  show execArrayBeat c uns behind e u s = _
  unfold execArrayBeat
  rw [harr]
  exact congrArg Host.Outcome.next (onlyIf_true _ _ _ (by rw [hup, hscrub, hheld, hretire]; rfl))

/-- A beat of the fill that is not the last takes one position into the window, and nothing else happens (R97). -/
theorem arrayBeat_fill (s : State) (c : CellIx) (r : ArrayRun) (uns : List Nat) (behind : Bool) (e : List RowFlip) (u : Option Upset)
    (harr : (s.cell c).arr = some r) (hended : r.ended = false) (hjoined : r.joined = true) (hfill : 1 < r.fill) :
    s.arrayBeat c r uns behind e u = s.fillBeat c r := by
  have harr' : ((s.fillBeat c r).cell c).arr = some { r with fill := r.fill - 1 } := congrArg Cell.arr (State.cell_modCell s c _)
  unfold State.arrayBeat
  rw [TileLaws.ready_idle s c _ r harr hended hjoined (.inl (by omega))]
  simp only [harr, hended, hjoined, Bool.not_true, Bool.or_self, Bool.false_eq_true, if_false, if_pos (show 0 < r.fill by omega)]
  exact TileLaws.ready_idle _ c _ _ harr' hended hjoined (.inl (Nat.sub_pos_of_lt hfill))

/-- How far each row group has come after a beat in which the groups take the positions `take`. -/
def posAfter (r : ArrayRun) (take : List (Option Nat)) : List Nat :=
  (List.range 4).map (fun g => (take.getD g none).elim (r.pos.getD g 0) (· + 1))

/-- The row groups that take a position of `take`, each with its position. -/
def takingGroups (r : ArrayRun) (take : List (Option Nat)) : List (Nat × ArrPos) :=
  (List.range 4).filterMap (fun g => (take.getD g none).map (fun p => (g, r.at? p)))

/-- A beat of lookups without an upset: the groups that take a position add its products to their elements of the tile; program
and scratchpad stay, and of the array instruction the positions move on (R73, R90, R93). -/
theorem lookupBeat_facts (s : State) (c : CellIx) (r : ArrayRun) (f : Feed) (st : Nat) (uns : List Nat) (behind : Bool) :
    let t := s.lookupBeat c r f st uns behind none
    let take := r.takers (decide (Prec.order f.prec = 0)) uns st
    OnlyCell s c t ∧ (t.cell c).seq = (s.cell c).seq ∧ (t.cell c).spad = (s.cell c).spad ∧
      (∃ b, (t.cell c).arr = some { r with pos := posAfter r take, behind := b }) ∧
      (t.cell c).tile r.tile = (takingGroups r take).foldl (fun y g => y.beat f g.1 g.2 none) ((s.cell c).tile r.tile) := by
  intro t take
  have hsound (l : List (Nat × ArrPos)) (y : Tile) : l.any (fun g => y.beatFails f g.1 g.2 none) = false :=
    List.any_eq_false.mpr (fun _ _ => Bool.false_ne_true)
  simp only [t]
  unfold State.lookupBeat
  extract_lets n groups y fails y' count waits late pos r' z
  rw [if_neg (by rw [show fails = false from hsound groups y]; decide)]
  refine ⟨OnlyCell_modCell s c _, ?_⟩
  simp only [z, State.cell_modCell]
  generalize r.entering st r' = l
  obtain ⟨htile0, htile1, hseq, hspad⟩ := TileLaws.enterAll_rest ((s.cell c).setTile n y') f r l
  obtain ⟨hseq', -, hspad', -⟩ := TileLaws.modTile_rest (s.cell c) n (fun _ => y')
  exact ⟨hseq.trans hseq', hspad.trans hspad', ⟨_, rfl⟩,
    (tile_eq_of_parts htile0 htile1 n).trans (TileLaws.tile_modTile (s.cell c) n (fun _ => y'))⟩

/-- A beat after the fill, in a tile that no cut ends and with positions left after it, is one beat of lookups (R73, R97). -/
theorem arrayBeat_lookups (s : State) (c : CellIx) (r : ArrayRun) (uns : List Nat) (behind : Bool) (st st' : Nat)
    (harr : (s.cell c).arr = some r) (hended : r.ended = false) (hjoined : r.joined = true) (hfill : r.fill = 0)
    (hlow : r.lowest = some st) (hcut : ((s.cell c).tile r.tile).cut = false) (hheld : (s.cell c).held = none)
    (hduty : s.dutyWait c = false)
    (hlow' : ArrayRun.lowest { r with
      pos := posAfter r (r.takers (decide (Prec.order ((s.cell c).feed r).prec = 0)) uns st) } = some st') :
    s.arrayBeat c r uns behind [] none = s.lookupBeat c r ((s.cell c).feed r) st uns behind none := by
  obtain ⟨-, -, -, ⟨b, harr'⟩, htile⟩ := lookupBeat_facts s c r ((s.cell c).feed r) st uns behind
  have hcut' := congrArg Tile.cut htile
  rw [(TileLaws.beats_elems _ _ _).2, hcut] at hcut'
  unfold State.arrayBeat
  rw [TileLaws.ready_idle s c _ r harr hended hjoined (.inr ⟨⟨st, hlow⟩, hcut⟩)]
  simp only [harr, hended, hjoined, hfill, hlow, LoadStoreLaws.rowRead_nil, hheld, hduty, Bool.not_true, Bool.not_false, Bool.or_self,
    Bool.false_eq_true, Option.isSome_none, Nat.lt_irrefl, if_false, Bool.and_true]
  exact TileLaws.ready_idle _ c _ _ harr' hended hjoined (.inr ⟨⟨st', hlow'⟩, hcut'⟩)

/-- Settles O11: each event is its operation on the tile, whose facts are stated above. -/
theorem tileEventsDrainsAndBeats : Obligations.TileEventsDrainsAndBeats := by
  unfold Obligations.TileEventsDrainsAndBeats
  refine ⟨fun s c k hup hscrub => ⟨?token, ?checkpoint, ?load, ?inlet, ?sab⟩,
    fun s c k hup hscrub hheld => ⟨?row, ?fill, ?lookups⟩⟩
  case token =>
    intro htoken hoff hst d hd hdue
    refine ⟨_, exec_treeEmptyToken hup hscrub htoken hoff hst, OnlyCell_modCell s c _, ?_⟩
    unfold State.tokenArrives
    rw [State.cell_modCell, TileLaws.tile_modTile]
    exact settle_token _ d hst hd hdue
  case checkpoint =>
    intro htoken hoff hst hfull
    have hplain : s.checkpointTile c k.val none = s.modCell c (fun z => z.modTile k.val (·.checkpoint)) := rfl
    refine ⟨⟨_, (exec_tileCheckpoint hup hscrub htoken hoff hst hfull none).trans (congrArg _ hplain),
      OnlyCell_modCell s c _, ?_⟩, fun u hseen => ⟨_, exec_tileCheckpoint hup hscrub htoken hoff hst hfull (some u), ?_⟩⟩
    · rw [State.cell_modCell, TileLaws.tile_modTile]
      rfl
    · rw [checkpointTile_of_seen s c k.val u hseen, TileLaws.countRepeats_tile, State.cell_modCell, TileLaws.tile_modTile]
      rfl
  case load =>
    intro hheld row op hload
    exact ⟨_, exec_loadComplete hup hscrub hheld hload, loadDone_facts s c k.val row op⟩
  case inlet =>
    intro hempty m l hport hd
    refine ⟨_, exec_chainInletAccept hup hscrub, OnlyCell_modCell s c _, ?_⟩
    rw [State.cell_modCell, TileLaws.tile_modTile]
    exact acceptSum_of_empty _ m l hempty hport hd
  case sab =>
    intro bank i l hq flip hseen
    obtain ⟨honly, hsab, hspad⟩ := sabItem_facts s c bank.val flip
    obtain ⟨hslot, hrest⟩ := applyHead_facts (s.cell c).sab bank.val i l flip hq hseen
    exact ⟨_, exec_sabItemApply hup hscrub bank flip, honly, by rw [hsab]; exact hslot, by rw [hsab]; exact hrest, hspad⟩
  case row =>
    intro d hst hd hdue hdest hrow hdelta
    have haccept : (s.cell c).rowAccepted d = true := by
      unfold Cell.rowAccepted
      rw [hdest]
      rfl
    refine ⟨_, exec_drainRow hup hscrub hheld hst hd hdue haccept none, ?_⟩
    rw [drainRow_wide s c k.val d hdest hrow hdelta]
    obtain ⟨honly, hspad, l, htile⟩ := rowWide_facts (s.modCell c (fun x => { x with failStreak := 0 })) c k.val d.row d
      (fun n => SMap.getD ((s.cell c).tile k.val).elems (32 * d.row + n) 0)
      (fun n => (s.extOf ((s.cell c).tile k.val).job ((s.cell c).tile k.val).layer (bf d.block 2 63 40) 0).inside d.row n)
    rw [State.cell_modCell] at hspad htile
    refine ⟨OnlyCell_trans (OnlyCell_modCell s c _) honly, hspad, ?_⟩
    rw [htile]
    exact ⟨rfl, rfl, hst⟩
  case fill =>
    intro r uns behind e u hretire harr hended hjoined hfill
    exact ⟨_, exec_arrayBeat hup hscrub hheld hretire harr uns behind e u,
      arrayBeat_fill s c r uns behind e u harr hended hjoined hfill⟩
  case lookups =>
    intro r uns behind st st' hretire harr hended hjoined hfill hlow hcut hduty f take pos groups hlow'
    obtain ⟨honly, hseq, hspad, ⟨b, harr'⟩, htile⟩ := lookupBeat_facts s c r f st uns behind
    refine ⟨_, exec_arrayBeat hup hscrub hheld hretire harr uns behind [] none, ?_⟩
    rw [arrayBeat_lookups s c r uns behind st st' harr hended hjoined hfill hlow hcut hheld hduty hlow']
    exact ⟨honly, hseq, hspad, ⟨_, harr', rfl, rfl, rfl⟩,
      (congrArg Tile.elems htile).trans (TileLaws.beats_elems _ f groups).1⟩

/-! ### Chain sums that arrive -/

/-- A sum that arrives at an empty inlet with nothing before it at the port fills the inlet (R116). -/
theorem sumArrives_of_empty (y : Tile) (k : ChainSum) (hi : y.inlet = none) (hp : y.port = []) (hd : y.drain = none) :
    y.sumArrives k = { y with inlet := some k } := by
  unfold Tile.sumArrives
  rw [hi, if_pos ⟨rfl, hp⟩]
  exact settle_of_undrained _ hd

/-- One that arrives at a full inlet waits at the port (R116). -/
theorem sumArrives_of_full (y : Tile) (k : ChainSum) (hi : y.inlet.isSome = true) :
    y.sumArrives k = { y with port := y.port ++ [k] } :=
  if_neg (fun h => by simp [Option.isNone_iff_eq_none.mp h.1] at hi)

/-- A sum with its cell's epoch reaches the tile that its TAG names where the cell's context is resident, and the port of the
tile where it is not; scratchpad and program stay (R57, R116, R617). -/
theorem exec_chainSum (s : State) (m : Msg) (hreq : s.requestOk m 0x04 = true) (hepoch : m.epoch = s.epochOf m.dest)
    (hdepth : UA.depth m.dest = 5) :
    let c := cellIx (UA.index m.dest)
    let y := (s.cell c).tile (m.tag.toNat % 2)
    ∃ t, exec (.chainSum m) s = .next t ∧
      (t.cell c).tile (m.tag.toNat % 2) =
        (if s.destResident m = true then y.sumArrives (chainOf m) else { y with port := y.port ++ [chainOf m] }) ∧
      (t.cell c).spad = (s.cell c).spad ∧ (t.cell c).seq = (s.cell c).seq := by
  intro c y
  refine ⟨(s.takeMsg m).takeSum m, ?_, ?_⟩
  · show execChainSum m s = _
    unfold execChainSum
    rw [onlyIf_true _ _ _ hreq, arrival_ok _ _ _ hepoch]
  · have htake : (s.takeMsg m).takeSum m = ((s.takeMsg m).received m).modCell c (fun x => x.modTile (m.tag.toNat % 2) (fun t =>
        if s.destResident m = true then t.sumArrives (chainOf m) else { t with port := t.port ++ [chainOf m] })) := if_pos hdepth
    rw [htake, State.cell_modCell, TileLaws.tile_modTile, SyncLaws.received_cell]
    obtain ⟨hseq, -, hspad, -⟩ := TileLaws.modTile_rest (s.cell c) (m.tag.toNat % 2) (fun t =>
      if s.destResident m = true then t.sumArrives (chainOf m) else { t with port := t.port ++ [chainOf m] })
    exact ⟨rfl, hspad, hseq⟩

/-! ### Replies and bounces that arrive -/

theorem exec_replyArrival (s : State) (m : Msg) (hok : s.uncheckedOk m = true) (hcls : m.cls = 0x08) (hbounced : m.bounced = false) :
    exec (.replyArrival m) s = .next ((s.takeMsg m).takeReply m) :=
  congrArg Host.Outcome.next (onlyIf_true _ _ _ (by rw [hok, hcls, hbounced]; rfl))

theorem exec_bounceArrival (s : State) (m : Msg) (hok : s.uncheckedOk m = true) (hbounced : m.bounced = true) :
    exec (.bounceArrival m) s = .next ((s.takeMsg m).takeBounce m) :=
  congrArg Host.Outcome.next (onlyIf_true _ _ _ (by rw [hok, hbounced]; rfl))

/-- The REPLY that an operation of its cell's job waits for answers it (R442). -/
theorem takeReply_of_waiter (s : State) (m : Msg) (o : UnitOp) (hdepth : UA.depth m.dest = 5)
    (hjob : m.job = (s.cell (cellIx (UA.index m.dest))).job.toNat)
    (hwaiter : (s.cell (cellIx (UA.index m.dest))).waiter m.tag = some o) :
    (s.takeMsg m).takeReply m = ((s.takeMsg m).received m).modCell (cellIx (UA.index m.dest)) (·.answered o m) := by
  unfold State.takeReply
  simp only [if_pos hdepth, SyncLaws.received_cell, hwaiter]
  exact if_pos hjob

/-- A REPLY that no operation waits for goes to RPL (R347). -/
theorem takeReply_of_no_waiter (s : State) (m : Msg) (hdepth : UA.depth m.dest = 5)
    (hwaiter : (s.cell (cellIx (UA.index m.dest))).waiter m.tag = none) :
    (s.takeMsg m).takeReply m = ((s.takeMsg m).received m).toRpl (cellIx (UA.index m.dest)) m := by
  unfold State.takeReply
  simp only [if_pos hdepth, SyncLaws.received_cell, hwaiter]

/-- A bounce that completes no operation goes to RPL, after the event of its code (R60, R348). -/
theorem takeBounce_of_no_waiter (s : State) (m : Msg) (hdepth : UA.depth m.dest = 5) (hcls : m.cls ≠ 0x02)
    (hwaiter : (s.cell (cellIx (UA.index m.dest))).waiter m.tag = none) :
    ∃ z : State, z.cells = s.cells ∧ (s.takeMsg m).takeBounce m = z.toRpl (cellIx (UA.index m.dest)) m := by
  have hsame (z : State) (hz : z.cells = s.cells) :
      (z.cell (cellIx (UA.index m.dest))).waiter m.tag = none := by rw [cell_of_cells hz, hwaiter]
  unfold State.takeBounce
  simp only [if_pos hdepth, if_neg hcls]
  cases bounceKind m.code with
  | none =>
    refine ⟨(s.takeMsg m).received m, rfl, ?_⟩
    simp only [hsame ((s.takeMsg m).received m) rfl]
  | some k =>
    refine ⟨((s.takeMsg m).received m).fireCell k (cellIx (UA.index m.dest)), rfl, ?_⟩
    simp only [hsame (((s.takeMsg m).received m).fireCell k _) rfl]

/-- Counting a received message changes the joined fetches of no unit: one that every unit's lacks, they lack afterwards. -/
theorem received_find_joins (s : State) (m : Msg) (p : Nat → Bool) (q : JoinRec → Bool)
    (h : s.units.find? (fun u => p u.1 && u.2.joins.any q) = none) :
    (s.received m).units.find? (fun u => p u.1 && u.2.joins.any q) = none := by
  rw [List.find?_eq_none] at h ⊢
  intro u hu
  rcases SMap.mem_set _ _ _ _ hu with rfl | hold
  · show ¬ (p (UA.key m.dest) && (s.unit (UA.key m.dest)).joins.any q) = true
    unfold State.unit SMap.getD
    cases hget : SMap.get? s.units (UA.key m.dest) with
    | none => simp
    | some v => exact h _ (SMap.get?_mem _ _ _ hget)
  · exact h u hold

/-- A REPLY at the device address that no spill, no block fetch and no job waits for enters HIQ, and no cell changes (R348). -/
theorem takeReply_of_device (s : State) (m : Msg) (hdepth : UA.depth m.dest = 0) (hspill : s.spillOp m.tag = none)
    (hfetch : s.units.find? (fun u => decide (unitTag u.1 = m.tag) &&
      u.2.joins.any (fun j => decide (j.n = blockFetchNo ∧ j.blocks = none))) = none)
    (hjob : s.drv.job? (BitVec.ofNat 32 m.job) = none) (hflush : s.evc.hiq.flushing = false) :
    ((s.takeMsg m).takeReply m).cells = s.cells ∧ ((s.takeMsg m).takeReply m).evc.hiq.items =
      s.evc.hiq.items ++ (s.evc.hiq.inflow ++ m.items).take (1024 - s.evc.hiq.items.length) := by
  have hnone : ((s.takeMsg m).received m).spillReply m = (s.takeMsg m).received m := by
    unfold State.spillReply
    rw [show ((s.takeMsg m).received m).spillOp m.tag = none from hspill]
    simp only [received_find_joins (s.takeMsg m) m (fun k => decide (unitTag k = m.tag)) _ hfetch]
  have hdriver : ((s.takeMsg m).received m).driverReply m = ((s.takeMsg m).received m).addReply m := by
    unfold State.driverReply
    rw [show ((s.takeMsg m).received m).drv.job? (BitVec.ofNat 32 m.job) = none from hjob]
  obtain ⟨hcells, hevc, -⟩ := SyncLaws.addReply_facts ((s.takeMsg m).received m) m
  unfold State.takeReply
  simp only [hdepth, if_neg (show ¬ (0 : Nat) = 5 by decide), if_true, hnone, hdriver]
  unfold State.toHost State.toHiq
  generalize ((s.takeMsg m).received m).addReply m = z at hcells hevc
  obtain ⟨hfill, hitems⟩ := SyncLaws.hiqFill_facts
    { z with net := z.net.crossHost (UA.digit m.src 1 % 2) false (z.net.hostWay m) m.items } m.items
    (by show z.evc.hiq.flushing = false; rw [hevc]; exact hflush)
  exact ⟨hfill.trans hcells, hitems.trans (by rw [hevc]; rfl)⟩

/-- Settles O29: a sum by the state of its inlet, a REPLY and a bounce by who waits for them. -/
theorem sumsRepliesAndBounces : Obligations.SumsRepliesAndBounces := by
  unfold Obligations.SumsRepliesAndBounces
  intro s m c x y
  refine ⟨fun hreq hepoch hdepth hd => ?_,
    fun hok hdepth hjob => ⟨fun o hcls hb hwaiter => ?_, fun hwaiter hscrub hflush hown => ?_⟩,
    fun hok hdepth hcls hb hspill hfetch hjob hflush => ?_⟩
  · obtain ⟨t, hexec, htile, hspad, hseq⟩ := exec_chainSum s m hreq hepoch hdepth
    refine ⟨fun hres hi hp => ⟨t, hexec, ?_, hspad, hseq⟩, fun hwait => ⟨t, hexec, ?_, hspad⟩⟩
    · rw [htile, if_pos hres]
      exact sumArrives_of_empty y _ hi hp hd
    · rw [htile]
      split
      · exact sumArrives_of_full y _ (hwait.resolve_right (by simp [*]))
      · rfl
  · refine ⟨_, exec_replyArrival s m hok hcls hb, ?_⟩
    rw [takeReply_of_waiter s m o hdepth hjob hwaiter]
    refine ⟨fun d hd => State.cell_modCell_ne _ _ _ _ hd, rfl, ?_, ?_⟩
    · rw [State.cell_modCell]; rfl
    · rw [State.cell_modCell]
      unfold Cell.answered
      rw [hb]
      rfl
  · refine ⟨fun hcls hb => ⟨_, exec_replyArrival s m hok hcls hb, ?_⟩, fun hcls hb => ⟨_, exec_bounceArrival s m hok hb, ?_⟩⟩
    · rw [takeReply_of_no_waiter s m hdepth hwaiter]
      exact SyncLaws.toRpl_cell ((s.takeMsg m).received m) c m hscrub hflush hown
    · obtain ⟨z, hcells, heq⟩ := takeBounce_of_no_waiter s m hdepth hcls hwaiter
      have hx : z.cell c = x := cell_of_cells hcells c
      have h := SyncLaws.toRpl_cell z c m
      rw [hx] at h
      rw [heq]
      exact h hscrub hflush hown
  · exact ⟨_, exec_replyArrival s m hok hcls hb, takeReply_of_device s m hdepth hspill hfetch hjob hflush⟩

/-! ### Instructions that take hold of a tile -/

/-- The cell of an operation that writes no row (R301). -/
theorem addOp_of_no_writes (s : State) (c : CellIx) (o : UnitOp) (hw : o.writes = []) :
    s.addOp c o = s.setCell c (issuedCell (s.cell c) o) := by
  unfold State.addOp State.modCell
  simp only [issuedCell, hw, List.foldl_nil]

theorem lastOp_addOp (s : State) (c : CellIx) (o : UnitOp) (hw : o.writes = []) :
    (s.addOp c o).lastOp c = (s.cell c).seq.nextOp := by
  rw [addOp_of_no_writes s c o hw, State.lastOp, State.cell_setCell]
  rfl

/-- Such an operation is issued, something else happens to its cell, and the program goes on. -/
theorem addOp_modCell_retire {s : State} {c : CellIx} (hn : NextInside s c) (o : UnitOp) (hw : o.writes = []) (g : Cell → Cell)
    (hg : ∀ z, (g z).seq = z.seq) : ((s.addOp c o).modCell c g).retire c =
      s.setCell c { g (issuedCell (s.cell c) o) with seq := wentOn (s.cell c).seq } := by
  rw [addOp_of_no_writes s c o hw, State.modCell, State.cell_setCell, State.setCell_setCell]
  exact mod_retire hn _ (hg _)

/-- An array instruction is in flight and has joined its tile, and the program goes on (R104, R450). -/
theorem joinTile_retire_facts {s : State} {c : CellIx} (hn : NextInside s c) (o : UnitOp) (hw : o.writes = []) (r : ArrayRun)
    (job : BitVec 32) (layer : BitVec 16) :
    let t := ((s.addOp c o).joinTile c r job layer).retire c
    let x := s.cell c
    OnlyCell s c t ∧ (t.cell c).ops = x.ops ++ [numbered x.seq o] ∧ (t.cell c).seq = wentOn x.seq ∧ (t.cell c).spad = x.spad ∧
      ((t.cell c).tile r.tile).st = .filling ∧
      ∃ r', (t.cell c).arr = some r' ∧ r'.block = r.block ∧ r'.op = r.op ∧ r'.done = r.done ∧ r'.fill = r.fill := by
  intro t x
  have hjoin (z : Cell) := TileLaws.joinArray_rest z r ((s.addOp c o).placeOf c r job layer) job layer
  have ht : t = s.setCell c { (issuedCell x o).joinArray r ((s.addOp c o).placeOf c r job layer) job layer with seq := wentOn x.seq } :=
    addOp_modCell_retire hn o hw _ (fun z => (hjoin z).1)
  obtain ⟨-, hops, hspad, hst, harr⟩ := hjoin (issuedCell x o)
  rw [ht, State.cell_setCell]
  exact ⟨OnlyCell_modCell s c (fun _ => _), hops, rfl, hspad, (congrArg Tile.st (tile_eq_of_parts rfl rfl _)).trans hst, harr⟩

/-- An operation is in flight and has changed a tile, and the program goes on. -/
theorem modTile_retire_facts {s : State} {c : CellIx} (hn : NextInside s c) (o : UnitOp) (hw : o.writes = []) (k : Nat)
    (g : Cell → Tile → Tile) :
    let t := ((s.addOp c o).modCell c (fun x => x.modTile k (g x))).retire c
    let x := s.cell c
    OnlyCell s c t ∧ (t.cell c).ops = x.ops ++ [numbered x.seq o] ∧ (t.cell c).seq = wentOn x.seq ∧ (t.cell c).spad = x.spad ∧
      (t.cell c).tile k = g (issuedCell x o) (x.tile k) := by
  intro t x
  have hrest (z : Cell) := TileLaws.modTile_rest z k (g z)
  have ht : t = s.setCell c { (issuedCell x o).modTile k (g (issuedCell x o)) with seq := wentOn x.seq } :=
    addOp_modCell_retire hn o hw _ (fun z => (hrest z).1)
  obtain ⟨-, hops, hspad, -⟩ := hrest (issuedCell x o)
  rw [ht, State.cell_setCell]
  have htile := TileLaws.tile_modTile (issuedCell x o) k (g (issuedCell x o))
  exact ⟨OnlyCell_modCell s c (fun _ => _), hops, rfl, hspad,
    (tile_eq_of_parts rfl rfl k).trans (htile.trans (congrArg _ (tile_eq_of_parts rfl rfl k)))⟩

theorem fld_bit_lt_two (w : Word) (i : Nat) : fld w i i < 2 := by
  unfold fld
  rw [show i + 1 - i = 1 by omega]
  exact Nat.mod_lt _ (by decide)

/-- The operation of an ARRAY with block `b`, before it is numbered. -/
def arrayOp (b : List Word) : UnitOp := { id := 0, unit := .array, reads := arrayRows b, done := false, block := b }

/-- The operation of a LOAD from row `row`, before it is numbered. -/
def loadOp (row : Nat) : UnitOp := { id := 0, unit := .load, reads := [(row, 64)], done := false }

/-- The tile of cell `x` that the LOAD of number `op` begins to fill from row `row` (R104, R252). -/
def loading (row op : Nat) (x : Cell) (y : Tile) : Tile :=
  { y.join ⟨true, [], row⟩ .loading x.job x.layer with load := some (row, op), loaded := true, cut := x.cutFor x.job x.layer }

/-- ARRAY whose block passes its checks, with the array idle and its tile joinable: an operation in flight, joined to the
tile (R104, R450). -/
theorem exec_arrayI {s : State} {c : CellIx} {f : InsFields} {b : List Word} (hi : IssuesBlock s c 0x48 f [f.ra] maskArray b)
    (hprec : arrayPrecOk (b.getD 1 0) = true) (hnt : bf b 0 23 8 ≠ 0) (hngc : bf b 3 15 0 ≠ 0)
    (hauto : bf b 0 23 8 = 1 ∨ bb b 0 2 = true) (hrows : RowsFree (s.cell c) (arrayRows b) []) (hidle : (s.cell c).arr = none)
    (hroom : ((s.cell c).tile (bf b 0 0 0)).joined.length < 16)
    (hjoin : ((s.cell c).tile (bf b 0 0 0)).joinable (bb b 0 1) = true) :
    let u := s.addOp c (arrayOp b)
    exec (.arrayI c f) s =
      .next ((u.joinTile c { block := b, op := u.lastOp c } (u.cell c).job (u.cell c).layer).retire c) := by
  obtain ⟨hin, hfree⟩ := hrows
  rw [List.append_nil] at hin
  have hdesc : ¬ ((1 < bf b 0 23 8 ∧ ¬ bb b 0 2 = true) ∨ ¬ rowsIn (arrayRows b) = true) := by
    rintro (⟨hmany, hno⟩ | hout)
    · exact hno (hauto.resolve_left (by omega))
    · exact hout hin
  refine congrArg Host.Outcome.next ((State.issue_at _ _ hi.1).trans ?_)
  obtain ⟨-, -, -, -, hregs⟩ := hi.1
  unfold bodyArrayI
  rw [State.guarded_regs _ _ hregs, State.withBlock_at _ _ hi]
  simp only [hprec, Bool.not_true, Bool.false_eq_true, if_false, if_neg hdesc, hnt, hngc, or_self, hidle, Option.isSome_none, hjoin,
    if_neg (show ¬ 16 ≤ _ from Nat.not_le.mpr hroom)]
  exact State.guarded_none _ _ hfree

/-- LOAD at a row that is a multiple of 64, into an empty tile: an operation in flight, joined to the tile (R104, R110). -/
theorem exec_loadT {s : State} {c : CellIx} {f : InsFields} (hi : Issues s c 0x49 f [f.rd, f.ra]) :
    let x := s.cell c
    let k := (x.seq.reg f.rd).toNat % 2
    let a := (x.seq.reg f.ra + f.imm.signExtend 64).toNat
    a % 8192 = 0 → a < 0x200000 → (x.tile k).st = .empty → x.hazard [] [(a / 128, 64)] [] = none →
    exec (.loadT c f) s =
      .next (((s.addOp c (loadOp (a / 128))).modCell c (fun z => z.modTile k (loading (a / 128) x.seq.nextOp z))).retire c) := by
  intro x k a halign hlt hempty hfree
  rw [← lastOp_addOp s c (loadOp (a / 128)) rfl]
  refine congrArg Host.Outcome.next ((State.issue_at _ _ hi).trans ?_)
  obtain ⟨-, -, -, -, hregs⟩ := hi
  unfold bodyLoadT
  rw [State.guarded_regs _ _ hregs]
  have hdesc : ¬ (a % 128 ≠ 0 ∨ a / 128 % 64 ≠ 0 ∨ 0x200000 ≤ a) := by omega
  exact (if_neg hdesc).trans ((if_neg (fun h => h hempty)).trans (State.guarded_none _ _ hfree))

/-- A DRAIN whose block passes its checks, of a tile that is EMPTY or FILLING (Table 4-3, R109): it takes hold of the tile. -/
theorem drain_issues {s : State} {c : CellIx} {f : InsFields} {b : List Word} (i : Instr) (dest : Nat)
    (hi : IssuesBlock s c 0x4A f [f.ra] maskDrain b) (hdest : bf b 0 2 1 = dest) (hok : drainFault (s.cell c).spad b = none)
    (hst : ((s.cell c).tile (bf b 0 0 0)).st = .empty ∨
      (((s.cell c).tile (bf b 0 0 0)).st = .filling ∧ (s.cell c).seq.untilEmpty = false))
    (hfree : (s.cell c).hazard [] (drainRows b).1 (drainRows b).2 = none) :
    let q := (s.cell c).seq
    s.drain c f i dest = ((s.modSeq c (fun q => { q with untilEmpty := false })).beginDrain c (bf b 0 0 0) b q.run
      (q.cmd.elim 0 (·.no)) (s.cell c).job (s.cell c).layer).retire c := by
  intro q
  have hgo : (s.cell c).drainWaits (bf b 0 0 0) = false := by
    unfold Cell.drainWaits
    rcases hst with hempty | ⟨hfilling, huntil⟩
    · simp [hempty]
    · simp [hfilling, huntil]
  obtain ⟨-, -, -, -, hregs⟩ := hi.1
  unfold State.drain
  rw [State.guarded_regs _ _ hregs, State.withBlock_at _ _ hi]
  simp only [hdest, ne_eq, not_true, if_false, hgo, Bool.false_eq_true]
  rw [State.guarded_none _ _ hfree]
  simp only [State.cell_modSeq, hok]
  rfl

theorem exec_drain_of_mem {s : State} {c : CellIx} {f : InsFields} {i : Instr} {dest : Nat} {rs : List (BitVec 4)}
    (hmem : (i, dest) ∈ [(Instr.drainRq c f, 0), (.drainWide c f, 1), (.drainChain c f, 2), (.drainSab c f, 3)])
    (hi : Issues s c 0x4A f rs) : exec i s = .next (s.drain c f i dest) := by
  simp only [List.mem_cons, Prod.mk.injEq, List.not_mem_nil, or_false] at hmem
  rcases hmem with ⟨rfl, rfl⟩ | ⟨rfl, rfl⟩ | ⟨rfl, rfl⟩ | ⟨rfl, rfl⟩ <;>
    exact congrArg Host.Outcome.next (State.issue_at _ _ hi)

/-- A drain that merges nothing enters its tile: DRAINING where the tile was EMPTY or its token is in, and else CLOSING; the
elements stay (Table 4-3). -/
theorem beginDrain_facts (y : Tile) (b : List Word) (op : Nat) (hmerge : bb b 0 3 = false) :
    (y.beginDrain b op).drain = some { block := b, row := 0, op := op } ∧ (y.beginDrain b op).elems = y.elems ∧
      (y.beginDrain b op).st = if y.st = .empty ∨ y.token = true then .draining else .closing := by
  unfold Tile.beginDrain
  rw [hmerge]
  obtain ⟨hdrain, helems, hst⟩ := TileLaws.settle_rest
    { y with
      st := if y.st = .empty then .draining else .closing, token := y.token || decide (y.st = .empty),
      drain := some { block := b, row := 0, op := op, due := false } } _ rfl rfl
  refine ⟨hdrain, helems, hst.trans ?_⟩
  by_cases hempty : y.st = .empty
  · simp [hempty]
  · simp [hempty]

/-- A tile that was EMPTY takes the job and layer of what takes hold of it. -/
def forWork (y : Tile) (job : BitVec 32) (layer : BitVec 16) : Tile :=
  if y.st = .empty then { y with job := job, layer := layer } else y

theorem forWork_same (y : Tile) (job : BitVec 32) (layer : BitVec 16) :
    (forWork y job layer).st = y.st ∧ (forWork y job layer).token = y.token ∧ (forWork y job layer).elems = y.elems := by
  unfold forWork
  split <;> exact ⟨rfl, rfl, rfl⟩

/-- A drain is in flight and has taken hold of its tile, and the program goes on (R106, R109). -/
theorem beginDrain_retire_facts {s : State} {c : CellIx} (hn : NextInside s c) (k : Nat) (b : List Word) (job : BitVec 32)
    (layer : BitVec 16) :
    let x := s.cell c
    let q := x.seq
    let t := (s.beginDrain c k b q.run (q.cmd.elim 0 (·.no)) job layer).retire c
    OnlyCell s c t ∧ (t.cell c).ops = x.ops ++
        [numbered q { id := 0, unit := .drain, reads := (drainRows b).1, writes := (drainRows b).2, done := false }] ∧
      (t.cell c).seq = wentOn q ∧ (t.cell c).spad = x.spad ∧
      (t.cell c).tile k = (forWork (x.tile k) job layer).beginDrain b q.nextOp := by
  intro x q t
  have ht : t = s.setCell c { x.setTile k ((forWork (x.tile k) job layer).beginDrain b q.nextOp) with
      ops := x.ops ++ [numbered q { id := 0, unit := .drain, reads := (drainRows b).1, writes := (drainRows b).2, done := false }],
      seq := wentOn q } := mod_retire hn _ rfl
  rw [ht, State.cell_setCell]
  obtain ⟨-, -, hspad, -⟩ := TileLaws.modTile_rest x k (fun _ => (forWork (x.tile k) job layer).beginDrain b q.nextOp)
  exact ⟨OnlyCell_modCell s c (fun _ => _), rfl, rfl, hspad, (tile_eq_of_parts rfl rfl k).trans
    (TileLaws.tile_modTile x k (fun _ => (forWork (x.tile k) job layer).beginDrain b q.nextOp))⟩

/-- Settles O10: each instruction issues its operation, and what that does to the tile is stated above. -/
theorem tileInstructions : Obligations.TileInstructions := by
  unfold Obligations.TileInstructions
  intro s c f b hn x q k op goesOn
  refine ⟨?array, ?load, ?drain⟩
  case array =>
    intro hi hprec hnt hngc hauto hrows hidle hroom hjoin
    have hexec := exec_arrayI hi hprec hnt hngc hauto hrows hidle hroom hjoin
    obtain ⟨honly, hops, hseq, hspad, hfilling, r, harr, hblock, hop, hdone, hfill⟩ :=
      joinTile_retire_facts hn (arrayOp b) rfl { block := b, op := (s.addOp c (arrayOp b)).lastOp c }
        ((s.addOp c (arrayOp b)).cell c).job ((s.addOp c (arrayOp b)).cell c).layer
    have htile : k % 2 = k := Nat.mod_eq_of_lt (fld_bit_lt_two _ _)
    refine ⟨_, hexec, ⟨honly, hops, hseq⟩, ?_, hspad, r, harr, hblock, hop.trans (lastOp_addOp s c _ rfl), hdone, hfill⟩
    rw [← htile]
    exact hfilling
  case load =>
    intro d a hi halign hlt hempty hfree
    have hexec := exec_loadT hi halign hlt hempty hfree
    obtain ⟨honly, hops, hseq, hspad, htile⟩ := modTile_retire_facts hn (loadOp (a / 128)) rfl d (loading (a / 128) q.nextOp)
    exact ⟨_, hexec, ⟨honly, hops, hseq⟩, hspad, congrArg Tile.st htile, congrArg Tile.load htile⟩
  case drain =>
    intro i dest hmem hi hdest hok hmerge hst hfree
    have hcell : (s.modSeq c (fun q => { q with untilEmpty := false })).cell c =
        { x with seq := { q with untilEmpty := false } } := State.cell_modSeq s c _
    have hn' : NextInside (s.modSeq c (fun q => { q with untilEmpty := false })) c := by
      unfold NextInside
      rw [hcell]
      exact hn
    have hexec := exec_drain_of_mem hmem hi.1
    rw [drain_issues i dest hi hdest hok hst hfree] at hexec
    obtain ⟨honly, hops, hseq, hspad, htile⟩ := beginDrain_retire_facts hn' k b x.job x.layer
    rw [hcell] at honly hops hseq hspad htile
    obtain ⟨hdrain, helems, hstate⟩ := beginDrain_facts (forWork (x.tile k) x.job x.layer) b q.nextOp hmerge
    obtain ⟨hsame, htoken, helems'⟩ := forWork_same (x.tile k) x.job x.layer
    rw [hsame, htoken] at hstate
    exact ⟨_, hexec, OnlyCell_trans (OnlyCell_modCell s c _) honly, hops, hseq, hspad, (congrArg Tile.drain htile).trans hdrain,
      (congrArg Tile.elems htile).trans (helems.trans helems'), (congrArg Tile.st htile).trans hstate⟩

end Sys2Proof.Proofs

/-! PROOFS. Range records, ledgers, code conversions and LFU operations. -/

namespace Sys2Proof.Proofs

open Sys2Proof Sys2Proof.Machine Sys2Proof.Claims Sys2Proof.Laws

/-! ### Operations of the RQ unit -/

/-- Cell `c` issues the RQ instruction of operation `op` with block `b`, the unit is idle and the rows `io` that the operation
reads and writes meet no stall (R175, R301). -/
def RqReady (s : State) (c : CellIx) (f : InsFields) (b : List Word) (op : Nat)
    (io : List (Nat × Nat) × List (Nat × Nat)) : Prop :=
  IssuesBlock s c 0x4C f [f.rd, f.ra] maskRq b ∧ bf b 0 3 0 = op ∧ (s.cell c).rqBusy = false ∧ RowsFree (s.cell c) io.1 io.2

/-- The operation of the RQ unit over the rows `io` whose effect is `r`, before it is numbered. -/
def rqUnitOp (io : List (Nat × Nat) × List (Nat × Nat)) (r : Code × List (BitVec 4 × Word) × State) : UnitOp :=
  { id := 0, unit := .rq, reads := io.1, writes := io.2, code := r.1, regs := r.2.1 }

section Rq

variable {s : State} {c : CellIx} {f : InsFields} {b : List Word} {i : Instr} {op : Nat} {body : State → State}
  {busy : Cell → Bool} {io : List Word → Cell → List (Nat × Nat) × List (Nat × Nat)} {check : List Word → Cell → Option Code}
  {run : List Word → State → Code × List (BitVec 4 × Word) × State}

/-- An RQ instruction that nothing holds and no rule of its block refuses takes its effect, with its operation in flight; it
waits for the operation or goes on. -/
theorem exec_rq (hexec : exec i s = .next (s.issue c 0x4C f i body)) (hbody : body s = s.rqOp c f i op busy io check run)
    (hready : RqReady s c f b op (io b (s.cell c))) (hbusy : busy (s.cell c) = false) (hcheck : check b (s.cell c) = none) :
    let u := (run b s).2.2.addOp c { rqUnitOp (io b (s.cell c)) (run b s) with blocking := blocks i }
    exec i s = .next (if blocks i then u.waitOp c none else u.retire c) := by
  intro u
  obtain ⟨hissues, hop, hidle, hrows⟩ := hready
  have hrq := RecordLaws.rq_issue i op busy io check run hissues hop hidle hbusy hrows hcheck
  rw [State.issue_at _ _ hissues.1] at hrq
  rw [hexec, State.issue_at _ _ hissues.1, hbody, hrq]
  rfl

/-- One that does not block: the operation is in flight on the cell as the effect left it, and the program goes on. -/
theorem exec_rq_issued (hexec : exec i s = .next (s.issue c 0x4C f i body))
    (hbody : body s = s.rqOp c f i op busy io check run) (hblocks : blocks i = false) (hn : NextInside s c)
    (htame : tameOf c (run b s).2.2 = tameOf c s) (hready : RqReady s c f b op (io b (s.cell c)))
    (hbusy : busy (s.cell c) = false) (hcheck : check b (s.cell c) = none) :
    ∃ t, exec i s = .next t ∧ OnlyConversion s c t ∧
      IssuedOn s (run b s).2.2 c (rqUnitOp (io b (s.cell c)) (run b s)) t := by
  have h := exec_rq hexec hbody hready hbusy hcheck
  simp only [hblocks, Bool.false_eq_true, if_false] at h
  exact ⟨_, h, tame_issued _ htame hn⟩

/-- One that blocks: the operation is in flight on the cell as the effect left it, and holds the program. -/
theorem exec_rq_held (hexec : exec i s = .next (s.issue c 0x4C f i body))
    (hbody : body s = s.rqOp c f i op busy io check run) (hblocks : blocks i = true)
    (htame : tameOf c (run b s).2.2 = tameOf c s) (hready : RqReady s c f b op (io b (s.cell c)))
    (hbusy : busy (s.cell c) = false) (hcheck : check b (s.cell c) = none) :
    ∃ t, exec i s = .next t ∧ OnlyConversion s c t ∧
      HeldOn s (run b s).2.2 c { rqUnitOp (io b (s.cell c)) (run b s) with blocking := true } none t := by
  have h := exec_rq hexec hbody hready hbusy hcheck
  simp only [hblocks, if_true] at h
  exact ⟨_, h, tame_held _ none htame⟩

end Rq

/-- A block with rows is not refused as empty (R412). -/
theorem emptyN_of_rows {b : List Word} (h : bf b 2 31 0 ≠ 0) : emptyN b = none := if_neg h

/-- What refuses a block with rows is one of its other rules. -/
theorem emptyN_orElse {b : List Word} (h : bf b 2 31 0 ≠ 0) (rules : Unit → Option Code) :
    (emptyN b).orElse rules = rules () := by
  rw [emptyN_of_rows h]
  rfl

/-! ### The range record and the ledger -/

/-- Where the effect of an operation made cell `c` into `x`, the operation is in flight on `x`. -/
theorem issuedOn_setCell {s t : State} {c : CellIx} {o : UnitOp} {effect : Cell → Cell} {x : Cell}
    (h : IssuedOn s (s.modCell c effect) c o t) (hx : effect (s.cell c) = x) : IssuedOn s (s.setCell c x) c o t :=
  hx ▸ h

/-- LEDGER of slots inside device memory, with the unit idle: the slots are written, the ledger starts anew and the operation is
in flight (R443, Table 12-8). -/
theorem exec_ledgerW {s : State} {c : CellIx} {f : InsFields} (hi : Issues s c 0x4E f [f.ra, f.rb])
    (hslots : ((s.cell c).seq.reg f.rb).toNat ≠ 0)
    (hmem : ((s.cell c).seq.reg f.ra).toNat + ((s.cell c).seq.reg f.rb).toNat ≤ 2 ^ 40) (hidle : (s.cell c).rqBusy = false) :
    let a := ((s.cell c).seq.reg f.ra).toNat
    let k := ((s.cell c).seq.reg f.rb).toNat
    let m := (List.range k).foldl (fun (m : MemSys) i => m.writeUnit (a + i) ((s.cell c).rq.ledger.stored, 0)) s.mem
    exec (.ledgerW c f) s = .next (((({ s with mem := m }).modCell c (fun x =>
      { x with rq := { x.rq with ledger := {} } })).addOp c { id := 0, unit := .rq }).retire c) := by
  intro a k m
  refine congrArg Host.Outcome.next ((State.issue_at _ _ hi).trans ?_)
  obtain ⟨-, -, -, -, hregs⟩ := hi
  unfold bodyLedgerW
  rw [State.guarded_regs _ _ hregs]
  exact (if_neg hslots).trans ((if_neg (Nat.not_lt.mpr hmem)).trans (if_neg (ne_true_of_eq_false hidle)))

/-- Settles O8: each is an RQ operation, or LEDGER, that issues with the stated effect. -/
theorem rangeRecordsAndLedgers : Obligations.RangeRecordsAndLedgers := by
  unfold Obligations.RangeRecordsAndLedgers
  intro s c f b hn x n ch ready pairs o
  refine ⟨?reset, ?f32, ?out, ?merge, ?ledger⟩
  case reset =>
    intro hready
    obtain ⟨t, hexec, -, hissued⟩ := exec_rq_issued (b := b) (i := .rangeReset c f) rfl rfl rfl hn
      ((tame_modC _ _ _ rfl).trans (tame_conv _ _ _ _ _)) hready rfl rfl
    exact ⟨t, hexec, hissued⟩
  case f32 =>
    intro hrows hready
    obtain ⟨t, hexec, -, hissued⟩ := exec_rq_issued (b := b) (i := .rangeF32 c f) rfl rfl rfl hn
      (tame_modC _ _ _ rfl) hready rfl (emptyN_of_rows hrows)
    exact ⟨t, _, hexec, rfl, issuedOn_setCell hissued rfl⟩
  case out =>
    intro hrows hready
    obtain ⟨t, hexec, -, hissued⟩ := exec_rq_issued (b := b) (i := .rangeout c f) rfl rfl rfl hn
      (tame_modC _ _ _ rfl) hready rfl (emptyN_of_rows hrows)
    exact ⟨t, hexec, hissued⟩
  case merge =>
    intro hrows hready merged
    obtain ⟨t, hexec, -, hissued⟩ := exec_rq_issued (b := b) (i := .rangemerge c f) rfl rfl rfl hn
      (tame_modC _ _ _ rfl) hready rfl (emptyN_of_rows hrows)
    exact ⟨t, hexec, hissued⟩
  case ledger =>
    intro a k hi hslots hmem hidle
    refine ⟨_, _, exec_ledgerW hi hslots hmem hidle, rfl, State.addOp_retire _ hn ?_ ?_⟩
    · rw [State.cell_modCell]; rfl
    · rw [State.cell_modCell]; rfl

/-! ### LFU operations -/

/-- An LFU instruction issues the operation of its opcode. -/
theorem exec_lfu_of_mem {s : State} {c : CellIx} {f : InsFields} {i : Instr} {op : Nat} {rs : List (BitVec 4)}
    (hmem : (i, op) ∈ [(Instr.cvt c f, 0), (.lfuMul c f, 1), (.expF c f, 2), (.logF c f, 3), (.recip c f, 4), (.rsqrt c f, 5),
      (.softmax c f, 6), (.gelu c f, 7), (.silu c f, 8), (.normF c f, 9)])
    (hi : Issues s c 0x50 f rs) : exec i s = .next (s.lfu c f i op) := by
  simp only [List.mem_cons, Prod.mk.injEq, List.not_mem_nil, or_false] at hmem
  rcases hmem with ⟨rfl, rfl⟩ | ⟨rfl, rfl⟩ | ⟨rfl, rfl⟩ | ⟨rfl, rfl⟩ | ⟨rfl, rfl⟩ | ⟨rfl, rfl⟩ | ⟨rfl, rfl⟩ | ⟨rfl, rfl⟩ |
      ⟨rfl, rfl⟩ | ⟨rfl, rfl⟩ <;>
    exact congrArg Host.Outcome.next (State.issue_at _ _ hi)

/-- An LFU operation that nothing holds and no rule of its block refuses takes its effect and is in flight, and the program goes
on (R278, R279). -/
theorem lfu_issues {s : State} {c : CellIx} {f : InsFields} {b : List Word} (i : Instr)
    (hb : IssuesBlock s c 0x50 f [f.ra] maskLfu b) (hphase : (lfuBlk b).phase ≠ 3) (hlen : (lfuBlk b).len ≠ 0)
    (hrows : (lfuBlk b).rows ≠ 0) (hidle : (s.cell c).unitBusy .lfu = false)
    (hfree : RowsFree (s.cell c) (lfuBlk b).io.1 (lfuBlk b).io.2) :
    let k := lfuBlk b
    s.lfu c f i k.op = ((s.lfuRun c k).2.addOp c
      { id := 0, unit := .lfu, reads := k.io.1, writes := k.io.2, code := (s.lfuRun c k).1 }).retire c := by
  intro k
  obtain ⟨hin, hhazard⟩ := hfree
  obtain ⟨-, -, -, -, hregs⟩ := hb.1
  unfold State.lfu
  rw [State.guarded_regs _ _ hregs, State.withBlock_at _ _ hb]
  have hdesc : ¬ (k.phase = 3 ∨ ¬ rowsIn (k.io.1 ++ k.io.2) = true) := by
    rintro (hthree | hout)
    · exact hphase hthree
    · exact hout hin
  have hsome : ¬ (k.len = 0 ∨ k.rows = 0) := not_or.mpr ⟨hlen, hrows⟩
  exact (if_neg (fun h => h rfl)).trans ((if_neg hdesc).trans ((if_neg hsome).trans
    ((if_neg (ne_true_of_eq_false hidle)).trans (State.guarded_none _ _ hhazard))))

/-! ### Conversions and LFU operations together -/

/-- Settles O9: an RQ or LFU operation issues, and its effect leaves the sequencer and the operations in flight alone. -/
theorem conversionsAndLfuOperations : Obligations.ConversionsAndLfuOperations := by
  unfold Obligations.ConversionsAndLfuOperations
  refine ⟨?conversions, ?lfu⟩
  case conversions =>
    intro s c f b hn x n h ready runs
    refine ⟨?requant, ?rangeRequant, ?dequant, ?quant, ?sabout, ?scale⟩
    case requant =>
      intro hready hfault
      exact exec_rq_issued (i := .requant c f) rfl rfl rfl hn (RecordLaws.requant_tame s c b) hready rfl hfault
    case rangeRequant =>
      intro hready hfault
      exact exec_rq_issued (i := .rangeRequant c f) rfl rfl rfl hn (RecordLaws.requant_tame s c b) hready rfl hfault
    case dequant =>
      intro io hready hrows hbad heven hnch
      have hdesc : ¬ (recBad h = true ∨ bf b 2 51 48 % 2 ≠ 0) := by simp [hbad, heven]
      exact exec_rq_issued (i := .dequant c f) rfl rfl rfl hn (RecordLaws.dequant_tame s c b) hready rfl
        ((emptyN_orElse hrows _).trans ((if_neg hdesc).trans (if_neg hnch)))
    case quant =>
      intro io hready hrows hbad hwidth hsym heven hnch
      have hdesc : ¬ (recBad h = true ∨ Rec.width h = 0xE ∨ (Rec.sym h = true ∧ Rec.width h = 1) ∨ bf b 2 51 48 % 2 ≠ 0) := by
        simp [hbad, hwidth, hsym, heven]
      exact exec_rq_issued (i := .quant c f) rfl rfl rfl hn (RecordLaws.quant_tame s c b) hready rfl
        ((emptyN_orElse hrows _).trans ((if_neg hdesc).trans (if_neg hnch)))
    case sabout =>
      intro io hready hscatters hrows hslots hfault
      have hcodes : (if bb b 0 5 then requantFault b x else none) = none := by
        split
        · exact hfault ‹_›
        · rfl
      exact exec_rq_issued (i := .sabout c f) rfl rfl rfl hn (RecordLaws.sabout_tame s c b) hready hscatters
        ((emptyN_orElse hrows _).trans ((if_neg (Nat.not_lt.mpr hslots)).trans hcodes))
    case scale =>
      intro given r recN io w hready hrows hwidth hone hgran hsym
      have hprec : ¬ (¬ ((1 ≤ w ∧ w ≤ 8) ∨ w = 0xF) ∨ (bb b 0 4 = true ∧ w = 1)) := not_or.mpr ⟨not_not.mpr hwidth, hone⟩
      have hdesc : ¬ (bf b 0 9 8 = 3 ∨ (bf b 0 9 8 = 1 ∧ bb b 0 4 = true)) := not_or.mpr ⟨hgran, hsym⟩
      exact exec_rq_held (i := .scaleRq c f) rfl rfl rfl (RecordLaws.scale_tame s c f b) hready rfl
        ((emptyN_orElse hrows _).trans ((if_neg hprec).trans (if_neg hdesc)))
  case lfu =>
    intro s c f b i op hn hmem k hb hop hphase hlen hrows hidle hfree
    have hexec := exec_lfu_of_mem hmem hb.1
    rw [← hop, lfu_issues i hb hphase hlen hrows hidle hfree] at hexec
    obtain ⟨honly, hissued⟩ := tame_issued
      { id := 0, unit := .lfu, reads := k.io.1, writes := k.io.2, code := (s.lfuRun c k).1 } (RecordLaws.lfu_tame s c k) hn
    exact ⟨_, hexec, OnlyConversion.cell honly (by rw [hissued]; rfl), hissued⟩

end Sys2Proof.Proofs

/-! PROOFS. Groups in storage: reads of entries, the neuron predictor, stores and frees, and the fetches of blocks. -/

namespace Sys2Proof.Proofs

open Sys2Proof Sys2Proof.Machine Sys2Proof.Claims Sys2Proof.Laws Sys2Proof.Laws.GroupLaws

/-! ### The issue of an instruction with a block -/

/-- A unit instruction that nothing holds back runs on its block (R433, R439, R444). -/
theorem issue_withBlock {s : State} {c : CellIx} {opc : BitVec 8} {f : InsFields} {rs : List (BitVec 4)} {mask : List Nat}
    {b : List Word} (hi : IssuesBlock s c opc f rs mask b) (i : Instr) (body : List Word → State → State) :
    s.issue c opc f i (fun s => s.guarded c i rs [] [] (fun s => s.withBlock c f i mask body)) = body b s := by
  have hissues := hi.1
  obtain ⟨-, -, -, -, hregs⟩ := hissues
  rw [State.issue_at _ _ hi.1, State.guarded_regs _ _ hregs, State.withBlock_at _ _ hi]

/-! ### Entries, SELECT and AUDIT -/

/-- The draws that a SELECT with an audit rate spends (R226). -/
def selectDraws (s : State) (c : CellIx) (b : List Word) : State :=
  if bf b 0 43 40 = 0 then s else s.spendDraws c 0x01 (bf b 2 23 0)

theorem cell_selectDraws (s : State) (c : CellIx) (b : List Word) :
    ∃ d, (selectDraws s c b).cell c = { s.cell c with draws := d } := by
  unfold selectDraws State.spendDraws State.spendDrawsOf
  split
  · exact ⟨(s.cell c).draws, rfl⟩
  · split
    · exact ⟨(s.cell c).draws, rfl⟩
    · exact ⟨_, State.cell_modCell _ _ _⟩

theorem tame_selectDraws (s : State) (c : CellIx) (b : List Word) : tameOf c (selectDraws s c b) = tameOf c s := by
  unfold selectDraws
  rw [tame_ite, tame_spend', ite_self]

/-- ENTRYRD of an index of the directory: the entry's two words are on their way to RD and RB (R210). -/
theorem exec_entryrd {s : State} {c : CellIx} {f : InsFields} (hi : Issues s c 0x41 f [f.rd, f.ra, f.rb])
    (hdix : ((s.cell c).seq.addrOf f).toNat < s.mem.dirEntries) :
    let u := s.dirAccess ((s.cell c).seq.addrOf f).toNat
    let ent := s.mem.entry ((s.cell c).seq.addrOf f).toNat
    exec (.entryrd c f) s = .next ((u.addOp c
      { id := 0, unit := .fetch, blocking := true, regs := [(f.rd, ent.1), (f.rb, ent.2)] }).waitOp c
        (some (6, .entryrd c f))) := by
  intro u ent
  refine congrArg Host.Outcome.next ((State.issue_at _ _ hi).trans ?_)
  obtain ⟨-, -, -, -, hregs⟩ := hi
  unfold bodyEntryrd
  rw [State.guarded_regs _ _ hregs]
  have hent : u.mem.entry ((s.cell c).seq.addrOf f).toNat = ent := (reads_same (reads_dir s _)).entry _
  exact (if_neg (Nat.not_le.mpr hdix)).trans (by rw [← hent])

/-- The cell once SELECT has its classes: the list of the neurons that are not skipped, the audited ones and the counts
(R226, R227, R230). -/
def withClasses (b : List Word) (cls : List NClass) (x : Cell) : Cell :=
  { x with
    spad := Memory.writeBytes x.spad (128 * bf b 1 27 14) ((neurons cls (fun y => decide (y ≠ .skipped))).flatMap (bytesLE 4)),
    doveAudited := neurons cls (fun y => decide (y = .audited)),
    rq := { x.rq with ledger := { x.rq.ledger with
      pred := true, sel := predCount (cls.count .selected), grd := predCount (cls.count .guarded),
      aud := predCount (cls.count .audited), skp := predCount (cls.count .skipped), dis := 0 } },
    cnt := { x.cnt with predSelected := x.cnt.predSelected + BitVec.ofNat 64 (cls.count .selected),
                        predGuarded := x.cnt.predGuarded + BitVec.ofNat 64 (cls.count .guarded),
                        predAudited := x.cnt.predAudited + BitVec.ofNat 64 (cls.count .audited),
                        predSkipped := x.cnt.predSkipped + BitVec.ofNat 64 (cls.count .skipped) } }

/-- The cell once AUDIT has counted `d` disagreements (R229, R230). -/
def withDisagreements (d : Nat) (x : Cell) : Cell :=
  { x with rq := { x.rq with ledger := { x.rq.ledger with pred := true, dis := predCount d } },
           cnt := { x.cnt with predDisagree := x.cnt.predDisagree + BitVec.ofNat 64 d } }

/-- SELECT over rows that meet no stall: it takes its draws, and its operation holds the program (R225 to R227, R443). -/
theorem exec_selectN {s : State} {c : CellIx} {f : InsFields} {b : List Word}
    (hi : IssuesBlock s c 0x44 f [f.rd, f.ra] maskSelect b) (hform : formOk (bf b 0 53 50) 0 = true) (hfew : bf b 0 49 44 ≤ 32)
    (hrows : bf b 0 49 44 ≠ 0) (hn : bf b 2 23 0 ≠ 0) :
    let src := (bf b 1 13 0, ceilDiv (bf b 2 23 0) 256 * groupRows (storedWidth (bf b 0 53 50) 0))
    let dst := (bf b 1 27 14, ceilDiv (4 * bf b 2 23 0) 128)
    let cls := selectAll (s.codeSpace c true) (s.cell c).spad b (s.draws c 0x01 (bf b 2 47 24) 0)
    RowsFree (s.cell c) [src] [dst] →
    exec (.selectN c f) s = .next ((((selectDraws s c b).modCell c (withClasses b cls)).addOp c
      { id := 0, unit := .dove, reads := [src], writes := [dst], blocking := true,
        regs := [(f.rd, BitVec.ofNat 64 (neurons cls (fun y => decide (y ≠ .skipped))).length)] }).waitOp c none) := by
  intro src dst cls hfree
  obtain ⟨hin, hhazard⟩ := hfree
  refine congrArg Host.Outcome.next ((issue_withBlock hi _ _).trans ?_)
  have hdesc : ¬ (!formOk (bf b 0 53 50) 0 || decide (32 < bf b 0 49 44) || !rowsIn [src, dst]) = true := by
    simpa [hform, hfew] using hin
  exact (if_neg hdesc).trans ((if_neg (not_or.mpr ⟨hn, hrows⟩)).trans (State.guarded_none _ _ hhazard))

/-- AUDIT over rows that meet no stall: its operation holds the program (R229, R443). -/
theorem exec_auditN {s : State} {c : CellIx} {f : InsFields} {b : List Word}
    (hi : IssuesBlock s c 0x45 f [f.rd, f.ra] maskSelect b) (hform : formOk (bf b 0 57 54) 0 = true) (hfew : bf b 0 49 44 ≤ 32)
    (hrows : bf b 0 49 44 ≠ 0) (hn : bf b 2 23 0 ≠ 0) :
    let src := (bf b 1 41 28, ceilDiv (bf b 2 23 0) 256 * groupRows (storedWidth (bf b 0 57 54) 0))
    let d := disagreements (s.codeSpace c false) (s.cell c).spad b (s.cell c).doveAudited
    RowsFree (s.cell c) [src] [] →
    exec (.auditN c f) s = .next (((s.modCell c (withDisagreements d)).addOp c
      { id := 0, unit := .audit, reads := [src], blocking := true, regs := [(f.rd, BitVec.ofNat 64 d)] }).waitOp c none) := by
  intro src d hfree
  obtain ⟨hin, hhazard⟩ := hfree
  refine congrArg Host.Outcome.next ((issue_withBlock hi _ _).trans ?_)
  have hdesc : ¬ (!formOk (bf b 0 57 54) 0 || decide (32 < bf b 0 49 44) || !rowsIn [src]) = true := by
    simpa [hform, hfew] using hin
  exact (if_neg hdesc).trans ((if_neg (not_or.mpr ⟨hn, hrows⟩)).trans (State.guarded_none _ _ hhazard))

/-- Settles O13: each instruction leaves its operation in flight, and that operation holds the program. -/
theorem entryReadSelectAudit : Obligations.EntryReadSelectAudit := by
  unfold Obligations.EntryReadSelectAudit
  intro s c f b x n
  refine ⟨?entryrd, ?select, ?audit⟩
  case entryrd =>
    intro dix hi hdix
    have hcells := cell_of_cells (reads_same (reads_dir s dix)).cells c
    exact ⟨_, exec_entryrd hi hdix, State.addOp_wait _ _ (congrArg Cell.seq hcells) (congrArg Cell.ops hcells)
      (reads_same (reads_dir s dix)).run⟩
  case select =>
    intro w src dst cls list hi hform hfew hrows hn hfree
    obtain ⟨d, hdrawn⟩ := cell_selectDraws s c b
    have hcell := (State.cell_modCell (selectDraws s c b) c (withClasses b cls)).trans (congrArg (withClasses b cls) hdrawn)
    obtain ⟨honly, hheld⟩ := tame_held _ none ((tame_modC c (selectDraws s c b) (withClasses b cls) rfl).trans (tame_selectDraws s c b))
    exact ⟨_, _, exec_selectN hi hform hfew hrows hn hfree, honly, congrArg Cell.spad hcell, congrArg Cell.doveAudited hcell,
      congrArg (fun y : Cell => y.cnt.predSelected) hcell, congrArg (fun y : Cell => y.cnt.predSkipped) hcell, hheld⟩
  case audit =>
    intro w src d hi hform hfew hrows hn hfree
    obtain ⟨honly, hheld⟩ := tame_held (s := s) (u := s.modCell c (withDisagreements d))
      { id := 0, unit := .audit, reads := [src], blocking := true, regs := [(f.rd, BitVec.ofNat 64 d)] } none (tame_modC _ _ _ rfl)
    have hcell := State.cell_modCell s c (withDisagreements d)
    exact ⟨_, _, exec_auditN hi hform hfew hrows hn hfree, OnlyConversion.cell honly rfl, (congrArg Cell.spad hcell).trans rfl,
      (congrArg (fun y : Cell => y.cnt.predDisagree) hcell).trans rfl, hheld⟩

/-! ### Stores -/

/-- A store that has not waited replaces the entry; nothing else of the pool or of a cell changes (R205, R207). -/
theorem storeEntry_facts {u : State} {c : CellIx} {k : Nat} (dix : Nat) (e : Word × Word) (hwait : u.storeWaited c k = false) :
    let t := u.storeEntry c k dix e
    t.cells = u.cells ∧ t.mem.entry dix = e ∧ t.mem.extents = u.mem.extents := by
  intro t
  obtain ⟨hentry, hcells, hextents, -⟩ := entry_replace u dix e
  have ht : t = { u.replaceEntry dix e with
      drv := { (u.replaceEntry dix e).drv with stored := (u.replaceEntry dix e).drv.stored ++
        [(((u.replaceEntry dix e).cell c).spdOwner, dix)] },
      mem := { (u.replaceEntry dix e).mem with storeQ := overtake dix none (u.replaceEntry dix e).mem.storeQ } } := by
    show u.storeEntry c k dix e = _
    unfold State.storeEntry
    simp only [hwait, Bool.false_and, Bool.false_eq_true, if_false]
  rw [ht]
  exact ⟨hcells, hentry, hextents⟩

/-- `v` once the store of number `k` of cell `c` waits no more (R207). -/
def withoutStore (v : State) (c : CellIx) (k : Nat) : State :=
  { v with mem := { v.mem with storeQ := v.mem.storeQ.filter (fun y => decide (y.2 ≠ (c.val, k))) } }

/-- A store that is over, on a cell that has just issued it: the operation is complete with its code, the program goes on, and
the entries and the pool are as they were. -/
theorem storeEnds_retire_facts {s v : State} {c : CellIx} (hn : NextInside s c) (hfree : NextOpFree (s.cell c)) (o : UnitOp)
    (hv : v.cells = (s.setCell c (issuedCell (s.cell c) o)).cells) (code : Code) :
    let x := s.cell c
    let t := (v.storeEnds c x.seq.nextOp code).retire c
    (∀ d, t.mem.entry d = v.mem.entry d) ∧ t.mem.extents = v.mem.extents ∧
      t.cell c = { x with seq := wentOn x.seq, ops := x.ops ++ [numbered x.seq { o with done := true, spill := none, code := code }] } ∧
      ∀ d, d ≠ c → t.cell d = s.cell d := by
  intro x t
  have hcell : v.cell c = issuedCell x o := (cell_of_cells hv c).trans (State.cell_setCell _ _ _)
  have hends : v.storeEnds c x.seq.nextOp code = (withoutStore v c x.seq.nextOp).setCell c
      { issuedCell x o with ops := x.ops ++ [numbered x.seq { o with done := true, spill := none, code := code }] } := by
    rw [← hcell]
    exact opEnds_cell (u := withoutStore v c x.seq.nextOp) (x := x) (o := o) code hfree (congrArg Cell.ops hcell)
  have ht := retire_cell (s := v.storeEnds c x.seq.nextOp code) (c := c) x.seq (by rw [hends, State.cell_setCell]; rfl) hn
  rw [hends, State.cell_setCell, State.setCell_setCell] at ht
  have ht' : t = _ := (congrArg (fun u => State.retire u c) hends).trans ht
  rw [ht']
  refine ⟨fun _ => rfl, rfl, State.cell_setCell _ _ _, fun d hd => ?_⟩
  rw [State.cell_setCell_ne _ _ _ _ hd, ← State.cell_setCell_ne s c d (issuedCell x o) hd]
  exact cell_of_cells hv d

/-- A store that has just been issued has not waited (R207). -/
theorem storeWaited_of_issued {s v : State} {c : CellIx} {o : UnitOp} (hfree : NextOpFree (s.cell c)) (hspill : o.spill = none)
    (hv : v.cells = (s.setCell c (issuedCell (s.cell c) o)).cells) : v.storeWaited c (s.cell c).seq.nextOp = false := by
  have hcell : v.cell c = issuedCell (s.cell c) o := (cell_of_cells hv c).trans (State.cell_setCell _ _ _)
  unfold State.storeWaited
  rw [op_new (x := s.cell c) (o := o) hfree (congrArg Cell.ops hcell)]
  simp [numbered, hspill]

/-- The operation of a STORE without a row block list. -/
def storeOp (b : List Word) : UnitOp :=
  { id := 0, unit := .store, reads := [(bf b 2 13 0, groupRows (blockWidth b))], block := b.take 4 }

/-- A STORE over rows that meet no stall, without a row block list: its operation is in flight and stores the group (R205). -/
theorem exec_storeG {s : State} {c : CellIx} {f : InsFields} {b : List Word} (hi : IssuesBlock s c 0x42 f [f.ra] maskFetch b)
    (hok : s.groupOk b = true) (hlist : bb b 0 38 = false)
    (hhazard : (s.cell c).hazard [] [(bf b 2 13 0, groupRows (blockWidth b))] [] = none) :
    exec (.storeG c f) s = .next (((s.setCell c (issuedCell (s.cell c) (storeOp b))).storeGroup c (s.cell c).seq.nextOp b).retire c) := by
  refine congrArg Host.Outcome.next ((issue_withBlock hi _ _).trans ?_)
  have hrowList : rowListOk (s.cell c).spad b = true := by simp [rowListOk, hlist]
  simp only [hok, hlist, Bool.not_true, Bool.false_eq_true, if_false]
  rw [State.guarded_none _ _ hhazard]
  simp only [hrowList, Bool.not_true, Bool.false_eq_true, if_false]
  rw [← addOp_of_no_writes s c (storeOp b) rfl, ← lastOp_addOp s c (storeOp b) rfl]
  rfl

/-- A group without a stored block gets the all-zero entry (R205). -/
theorem storeGroup_empty {v : State} {c : CellIx} {b : List Word} (k : Nat) (hunits : (storeForm (v.cell c) b).2.2.2 = []) :
    v.storeGroup c k b = (v.storeEntry c k (bf b 0 31 0) (0, 0)).storeEnds c k ccOk := by
  unfold State.storeGroup
  exact if_pos hunits

/-- `v` with `units` written from unit `u` of the pool on, which is `m` once they have been given their extent. -/
def withUnits (v : State) (m : MemSys) (u : Nat) (units : List (List Byte × BitVec 2)) : State :=
  State.passUnits { v with mem := m.writeUnits u units } true ((List.range units.length).map (u + ·)) []

theorem writeUnits_extents (m : MemSys) (u : Nat) (l : List (List Byte × BitVec 2)) : (m.writeUnits u l).extents = m.extents := by
  induction l generalizing m u with
  | nil => rfl
  | cons x l ih => exact ih (m.writeUnit u x) (u + 1)

theorem withUnits_extents (v : State) (m : MemSys) (u : Nat) (units : List (List Byte × BitVec 2)) :
    (withUnits v m u units).mem.extents = m.extents := by
  unfold withUnits State.passUnits
  exact writeUnits_extents m u units

theorem withUnits_cells (v : State) (m : MemSys) (u : Nat) (units : List (List Byte × BitVec 2)) :
    (withUnits v m u units).cells = v.cells := rfl

/-- A group that finds room in the pool of its home die is written there and gets its entry (R205, R508). -/
theorem storeGroup_room {v : State} {c : CellIx} {b : List Word} (k : Nat) {z : Nat × Nat × Bool × List (List Byte × BitVec 2)}
    (hform : storeForm (v.cell c) b = z) (hunits : z.2.2.2 ≠ []) {u : Nat} {m : MemSys}
    (halloc : v.mem.alloc (bf b 0 31 0 % 2) z.2.2.2.length (.group (bf b 0 31 0)) = some (u, m)) :
    v.storeGroup c k b = ((withUnits v m u z.2.2.2).storeEntry c k (bf b 0 31 0)
      (Ent2.mk u z.1 z.2.2.1 0 (decide (z.2.1 ≠ 0)) z.2.2.2.length)).storeEnds c k (if z.2.1 ≠ 0 then ccPoison else ccOk) := by
  obtain ⟨map, psn, dense, units⟩ := z
  unfold State.storeGroup
  simp only [hform, if_neg hunits, halloc]
  rfl

/-! ### Frees and releases -/

/-- A free of an index of the directory replaces its entry by the all-zero one; besides that only the stores that wait and the
frees under way change (R208). -/
theorem freeGroup_replaces (s : State) {dix : Nat} (hdix : dix < s.mem.dirEntries) :
    ∃ waiting frees freed, s.freeGroup dix = { s.replaceEntry dix (0, 0) with
      mem := { (s.replaceEntry dix (0, 0)).mem with storeQ := waiting, frees := frees, freed := freed } } := by
  unfold State.freeGroup
  rw [if_neg (Nat.not_le.mpr hdix)]
  dsimp only
  split
  · exact ⟨_, _, _, rfl⟩
  · exact ⟨_, _, _, rfl⟩

/-- Storage of device memory that is released returns to the pool, and the free that waited for it completes (R206, R208, R510). -/
theorem releaseStorage_pool (s : State) (r : Nat × Nat × Nat) (hpool : r.1 < 2 ^ 40) :
    s.releaseStorage r =
      { s with mem := (({ s.mem with replaced := s.mem.replaced.erase r } : MemSys).freeEnds r.1).release r.1 } := by
  unfold State.releaseStorage
  dsimp only
  rw [Nat.div_eq_of_lt hpool, Nat.mod_eq_of_lt hpool]
  rfl


/-! ### Stores, frees and releases together -/

/-- Settles O14: a store or a free replaces the entry, and a release gives the storage back. -/
theorem groupStoreAndFree : Obligations.GroupStoreAndFree := by
  unfold Obligations.GroupStoreAndFree
  intro s c f b x dix z
  refine ⟨?store, ?free, ?release⟩
  case store =>
    intro hn hi hok hlist hhazard hfree done
    have hexec : exec (.storeG c f) s = .next (((s.setCell c (issuedCell x (storeOp b))).storeGroup c x.seq.nextOp b).retire c) :=
      exec_storeG hi hok hlist hhazard
    -- what the cell holds of the group is not changed by the issue
    have hform : storeForm ((s.setCell c (issuedCell x (storeOp b))).cell c) b = z := by rw [State.cell_setCell]; rfl
    have ends (v : State) (e : Word × Word) (code : Code) (hv : v.cells = (s.setCell c (issuedCell x (storeOp b))).cells) :
        let t := ((v.storeEntry c x.seq.nextOp (bf b 0 31 0) e).storeEnds c x.seq.nextOp code).retire c
        t.mem.entry dix = e ∧ t.mem.extents = v.mem.extents ∧ done code t := by
      intro t
      obtain ⟨hcells, hentry, hextents⟩ := storeEntry_facts (bf b 0 31 0) e (storeWaited_of_issued hfree rfl hv)
      obtain ⟨hentry', hextents', hcell, hother⟩ := storeEnds_retire_facts hn hfree (storeOp b) (hcells.trans hv) code
      exact ⟨(hentry' dix).trans hentry, hextents'.trans hextents, ⟨x.zeroCols, hcell⟩, hother⟩
    refine ⟨?empty, ?stored⟩
    case empty =>
      intro hunits
      rw [storeGroup_empty _ ((congrArg (·.2.2.2) hform).trans hunits)] at hexec
      obtain ⟨hentry, -, hdone⟩ := ends (s.setCell c (issuedCell x (storeOp b))) (0, 0) ccOk rfl
      exact ⟨_, hexec, hentry, hdone⟩
    case stored =>
      intro hunits u m halloc
      rw [storeGroup_room _ hform hunits halloc] at hexec
      obtain ⟨hentry, hextents, hdone⟩ := ends (withUnits (s.setCell c (issuedCell x (storeOp b))) m u z.2.2.2)
        (Ent2.mk u z.1 z.2.2.1 0 (decide (z.2.1 ≠ 0)) z.2.2.2.length) (if z.2.1 ≠ 0 then ccPoison else ccOk) (withUnits_cells _ _ _ _)
      exact ⟨_, hexec, hentry, hextents.trans (withUnits_extents _ _ _ _), hdone⟩
  case free =>
    intro d hup hdix
    obtain ⟨hentry, hcells, hextents, hreplaced⟩ := entry_replace s d.toNat (0, 0)
    obtain ⟨waiting, frees, freed, hfree⟩ := freeGroup_replaces s hdix
    refine ⟨s.freeGroup d.toNat, congrArg Host.Outcome.next (onlyIf_true _ _ _ hup), ?_⟩
    rw [hfree]
    generalize s.replaceEntry d.toNat (0, 0) = replaced at *
    exact ⟨hentry, hreplaced, hextents, hcells⟩
  case release =>
    intro r hr hfind hup hread hpool
    refine ⟨s.releaseStorage r, ?_, ?_⟩
    · show execStorageRelease r.1 s = _
      unfold execStorageRelease
      rw [hfind]
      exact congrArg Host.Outcome.next (onlyIf_true _ _ _ (by rw [hup, hread]; rfl))
    · rw [releaseStorage_pool s r hpool]
      exact ⟨rfl, rfl⟩

/-! ### FETCH -/

/-- An operation in flight carries words 0 to 3 of its block, where all the fields of a FETCH stand (Table 12-10). -/
theorem bf_take (b : List Word) {i : Nat} (hi : i < 4) (hb lb : Nat) : bf (b.take 4) i hb lb = bf b i hb lb := by
  have hword : (b.take 4).getD i 0 = b.getD i 0 := by
    simp only [List.getD_eq_getElem?_getD, List.getElem?_take, hi, if_true]
  unfold bf
  rw [hword]

theorem blockWidth_take (b : List Word) : blockWidth (b.take 4) = blockWidth b := by
  unfold blockWidth
  rw [bf_take b (by decide), bf_take b (by decide)]

/-- The operation of the FETCH of block `b`. -/
def fetchOp (b : List Word) : UnitOp :=
  { id := 0, unit := .fetch, reads := if bb b 0 37 then [(bf b 2 33 20, 1)] else [],
    writes := [(bf b 2 13 0, groupRows (blockWidth b))], block := b.take 4 }

/-- `o` as it reads the storage that the entry `ent` names (R206). -/
def reading (ent : Word × Word) (o : UnitOp) : UnitOp :=
  { o with extents := if Ent2.valid ent.2 then [Ent2.key ent.1 ent.2] else [] }

/-- `o` as it waits for what `what` names of the group of entry `ent`. -/
def waitingFor (what : WaitFor) (ent : Word × Word) (o : UnitOp) : UnitOp :=
  { reading ent o with done := false, spill := some { what := what, lo := ent.1, hi := ent.2 } }

/-- A FETCH with a zero mask delivers nothing (R209). -/
theorem exec_fetch_empty {s : State} {c : CellIx} {f : InsFields} {b : List Word} (e : List UnitFlip)
    (hi : IssuesBlock s c 0x40 f [f.ra] maskFetch b) (hok : s.groupOk b = true) (hsingle : bb b 0 36 = false)
    (hmask : b.getD 1 0 = 0) : exec (.fetch c f e) s = .next (s.finish c ccEmpty) := by
  refine congrArg Host.Outcome.next ((issue_withBlock hi _ _).trans ?_)
  simp only [hok, hsingle, Bool.not_true, Bool.false_and, Bool.or_self, Bool.false_eq_true, if_false]
  exact if_pos hmask

/-- A FETCH outside a joined fetch reads its entry, and starts where the request mask leaves a block (R201, R209, R218). -/
theorem exec_fetch_single {s : State} {c : CellIx} {f : InsFields} {b : List Word} (e : List UnitFlip)
    (hi : IssuesBlock s c 0x40 f [f.ra] maskFetch b) (hok : s.groupOk b = true) (hsingle : bb b 0 36 = false)
    (hmask : b.getD 1 0 ≠ 0) (hhazard : (s.cell c).hazard [] (fetchOp b).reads (fetchOp b).writes = none)
    {ent : Word × Word} (hent : s.mem.entry (bf b 0 31 0) = ent) (hentry : Ent2.ok (blockWidth b) ent.1 ent.2 = true)
    {mask : Nat} (hrequest : fetchMask (s.cell c).spad b (Ent2.bitmap ent.1 ent.2) = mask) :
    let u := s.dirAccess (bf b 0 31 0)
    exec (.fetch c f e) s = .next (if mask = 0 then u.finish c ccEmpty
      else (u.startFetch c (fetchOp b) ent.1 ent.2 mask e).retire c) := by
  intro u
  refine congrArg Host.Outcome.next ((issue_withBlock hi _ _).trans ?_)
  have hread := reads_same (reads_dir s (bf b 0 31 0))
  simp only [hok, hsingle, hmask, Bool.not_true, Bool.false_and, Bool.or_self, Bool.false_eq_true, if_false]
  refine (State.guarded_none _ _ hhazard).trans ?_
  simp only [hread.entry, hread.cell, hent, hentry, hrequest, Bool.not_true, Bool.false_eq_true, if_false]
  rfl

/-- A FETCH of a joined fetch is in flight until its router answers, with the next number of its depth (R445, R446). -/
theorem exec_fetch_joined {s : State} {c : CellIx} {f : InsFields} {b : List Word} (e : List UnitFlip)
    (hi : IssuesBlock s c 0x40 f [f.ra] maskFetch b) (hok : s.groupOk b = true) (hjoined : bb b 0 36 = true)
    (hdepth : bf b 0 35 32 < 5) (hmask : b.getD 1 0 ≠ 0)
    (hhazard : (s.cell c).hazard [] (fetchOp b).reads (fetchOp b).writes = none) :
    let n := (s.cell c).seq.cmd.elim 0 (fun r => SMap.getD r.joins (bf b 0 35 32) 0)
    exec (.fetch c f e) s = .next (((s.addOp c
      { fetchOp b with done := false, joinDepth := bf b 0 35 32 + 1, joinNo := n }).modSeq c (fun q => { q with
        cmd := q.cmd.map (fun (r : CmdRun) => { r with joins := SMap.set r.joins (bf b 0 35 32) (n + 1) }) })).retire c) := by
  intro n
  refine congrArg Host.Outcome.next ((issue_withBlock hi _ _).trans ?_)
  simp only [hok, hjoined, hmask, Nat.not_le.mpr hdepth, decide_false, Bool.not_true, Bool.and_false, Bool.or_self,
    Bool.false_eq_true, if_false, if_true]
  exact State.guarded_none _ _ hhazard

/-- Blocks at hand are delivered when the fetch starts, and its code says whether one is poisoned (R211, R212, R128). -/
theorem startFetch_atHand {s u : State} {ent : Word × Word} {w row mask : Nat} {e : List UnitFlip} (c : CellIx) (o : UnitOp)
    (hw : blockWidth o.block = w) (hrow : bf o.block 2 13 0 = row) (hhand : AtHand s ent w mask e) (hu : OnlyReads s u) :
    let bl := storedBlocks s ent w mask
    ∃ v, OnlyReads s v ∧ u.startFetch c o ent.1 ent.2 mask e =
      (v.modCell c (delivered row w mask bl)).addOp c { reading ent o with code := poisonCode bl } := by
  intro bl
  subst hw hrow
  unfold State.startFetch
  obtain ⟨hnear, v, hread, hv⟩ | ⟨hfar, hloc, hbus, hdecode⟩ := at_hand hhand hu (some c)
  · refine ⟨v, hv, ?_⟩
    simp only [if_pos hnear, hread, deliver_one]
    rfl
  · refine ⟨u, hu, ?_⟩
    have hother : ¬ Ent2.loc ent.2 = 1 := by rw [hloc]; decide
    simp only [if_neg hfar, if_neg hother, hbus, hdecode, deliver_one, if_true]
    rfl

/-- Blocks at level 3 are asked for (R515). -/
theorem startFetch_far {u : State} {c : CellIx} {o : UnitOp} {ent : Word × Word} {mask : Nat} (e : List UnitFlip)
    (hblocks : mask &&& Ent2.bitmap ent.1 ent.2 ≠ 0) (hloc : Ent2.loc ent.2 = 1) :
    let v := u.addOp c (waitingFor .read ent o)
    u.startFetch c o ent.1 ent.2 mask e = v.sendRead (opTag c (v.lastOp c)) ent.1 ent.2 := by
  intro v
  unfold State.startFetch
  have hfar : ¬ (mask &&& Ent2.bitmap ent.1 ent.2 = 0 ∨ Ent2.loc ent.2 = 0) := by
    rw [hloc]; exact not_or.mpr ⟨hblocks, by decide⟩
  simp only [if_neg hfar, if_pos hloc]
  rfl

/-- Blocks at level 4 wait where the bus is not there (R520). -/
theorem startFetch_bus {u : State} {c : CellIx} {o : UnitOp} {ent : Word × Word} {mask : Nat} (e : List UnitFlip)
    (hblocks : mask &&& Ent2.bitmap ent.1 ent.2 ≠ 0) (hloc : Ent2.loc ent.2 = 2) (hbus : u.pcie.bme = false) :
    u.startFetch c o ent.1 ent.2 mask e = u.addOp c (waitingFor .bus ent o) := by
  unfold State.startFetch
  have hfar : ¬ (mask &&& Ent2.bitmap ent.1 ent.2 = 0 ∨ Ent2.loc ent.2 = 0) := by
    rw [hloc]; exact not_or.mpr ⟨hblocks, by decide⟩
  have hother : ¬ Ent2.loc ent.2 = 1 := by rw [hloc]; decide
  simp only [if_neg hfar, if_neg hother, hbus, Bool.false_eq_true, if_false]
  rfl

/-- An operation goes into flight on a cell into which blocks were delivered, and the program goes on. -/
theorem delivered_issue_facts {s v : State} {c : CellIx} (hn : NextInside s c) (hv : OnlyReads s v) (row w mask : Nat)
    (bl : List (Nat × Bool × List Byte)) (o : UnitOp) :
    let x := s.cell c
    let t := ((v.modCell c (delivered row w mask bl)).addOp c o).retire c
    OnlyReads (s.setCell c (t.cell c)) t ∧ OnlyDelivered x (t.cell c) ∧ (t.cell c).spad = writeGroup x.spad row w mask bl ∧
      (t.cell c).ops = x.ops ++ [numbered x.seq o] ∧ (t.cell c).seq = wentOn x.seq := by
  intro x t
  have hcell : (v.modCell c (delivered row w mask bl)).cell c = delivered row w mask bl x :=
    (State.cell_modCell _ _ _).trans (by rw [(reads_same hv).cell])
  obtain ⟨honly, hspad, hseq, hops⟩ := delivered_only row w mask bl x
  rw [← hcell] at honly hspad hseq hops
  have hissued : IssuedOn s (v.modCell c (delivered row w mask bl)) c o t := State.addOp_retire o hn hseq hops
  obtain ⟨honly', hspad', hops', hseq'⟩ := issued_delivered hissued honly
  exact ⟨issued_reads hissued hv (State.setCell_setCell v c _), honly', hspad'.trans hspad, hops', hseq'⟩

/-- An operation goes into flight once the storage was read, and the program goes on. -/
theorem read_issue_facts {s u : State} {c : CellIx} (hn : NextInside s c) (hu : OnlyReads s u) (o : UnitOp) :
    let x := s.cell c
    let t := (u.addOp c o).retire c
    OnlyReads (s.setCell c (t.cell c)) t ∧ (t.cell c).spad = x.spad ∧ (t.cell c).ops = x.ops ++ [numbered x.seq o] ∧
      (t.cell c).seq = wentOn x.seq := by
  intro x t
  have hcell := (reads_same hu).cell c
  have hissued : IssuedOn s u c o t := State.addOp_retire o hn (congrArg Cell.seq hcell) (congrArg Cell.ops hcell)
  obtain ⟨z, ht⟩ := issued_cell hissued
  refine ⟨issued_reads hissued hu (fun _ => rfl), ?_⟩
  rw [ht, hcell]
  exact ⟨rfl, rfl, rfl⟩

/-- An operation goes into flight, its blocks are asked for, and the program goes on (R515). -/
theorem asked_issue_facts {s u : State} {c : CellIx} (hn : NextInside s c) (hu : OnlyReads s u) (o : UnitOp) (lo hi : Word) :
    let x := s.cell c
    let v := u.addOp c o
    let t := (v.sendRead (opTag c x.seq.nextOp) lo hi).retire c
    v.lastOp c = x.seq.nextOp ∧ OnlyReads (s.setCell c (v.cell c)) v ∧ (t.cell c).spad = x.spad ∧
      (t.cell c).ops = x.ops ++ [numbered x.seq o] ∧ (t.cell c).seq = wentOn x.seq := by
  intro x v t
  obtain ⟨z, hv⟩ := addOp_cell u c o
  rw [(reads_same hu).cell] at hv
  have hcell : v.cell c = _ := (congrArg (fun w => State.cell w c) hv).trans (State.cell_setCell _ _ _)
  have hsent : (v.sendRead (opTag c x.seq.nextOp) lo hi).cell c = _ := (sendRead_cell v _ lo hi c).trans hcell
  have ht : t.cell c = _ := (congrArg (fun w => State.cell w c) (retire_cell x.seq (congrArg Cell.seq hsent) hn)).trans
    (State.cell_setCell _ _ _)
  refine ⟨by rw [State.lastOp, hcell]; rfl, ?_, ?_⟩
  · rw [hcell]
    show OnlyReads _ (u.addOp c o)
    rw [hv]
    exact reads_set hu c _
  · rw [ht, hsent]
    exact ⟨rfl, rfl, rfl⟩

/-- A joined fetch goes into flight, the count of its depth in the command moves on, and the program goes on (R445, R446). -/
theorem joined_issue_facts {s : State} {c : CellIx} (hn : NextInside s c) (o : UnitOp) (cmd : Option CmdRun → Option CmdRun) :
    let x := s.cell c
    let t := ((s.addOp c o).modSeq c (fun q => { q with cmd := cmd q.cmd })).retire c
    OnlyCell s c t ∧ (t.cell c).spad = x.spad ∧ (t.cell c).ops = x.ops ++ [numbered x.seq o] ∧
      (t.cell c).seq = { wentOn x.seq with cmd := cmd x.seq.cmd } := by
  intro x t
  obtain ⟨z, hadd⟩ := addOp_cell s c o
  have ht : t = s.setCell c _ := (retire_cell { x.seq with cmd := cmd x.seq.cmd }
    (by rw [State.cell_modSeq, hadd, State.cell_setCell]) hn).trans
      (by rw [hadd, State.modSeq, State.modCell, State.cell_setCell, State.setCell_setCell, State.setCell_setCell, State.cell_setCell])
  rw [ht, State.cell_setCell]
  exact ⟨OnlyCell_modCell s c (fun _ => _), rfl, rfl, rfl⟩

/-! ### BLOCK_FETCH -/

/-- A BLOCK_FETCH of the current epoch whose members are ready is taken from the network and runs (R40, R57). -/
theorem exec_blockFetch {s : State} {m : Msg} (e : List UnitFlip) (hreq : s.requestOk m 0x02 = true)
    (hepoch : m.epoch = s.epochOf m.dest) (hready : s.blockFetchReady m = true) :
    exec (.blockFetch m e) s = .next ((s.takeMsg m).blockFetch m e) :=
  congrArg Host.Outcome.next ((onlyIf_true _ _ _ (by rw [hreq, hready]; simp)).trans (arrival_ok s m _ hepoch))

/-- The block of a BLOCK_FETCH: words 0 to 3 of a FETCH block (log 19). -/
def blockOf (m : Msg) : List Word := (List.range 4).map (fun i => (m.body.getD i 0).setWidth 64)

/-- `s` with a BLOCK_FETCH received and its entry read. -/
def blockAsked (s : State) (m : Msg) : State := (s.received m).dirAccess (bf (blockOf m) 0 31 0)

section BlockFetch

variable {s : State} {m : Msg} {ent : Word × Word} {mask : Nat} (e : List UnitFlip) (hok : s.groupOk (blockOf m) = true)
  (hmask : (blockOf m).getD 1 0 ≠ 0) (hent : s.mem.entry (bf (blockOf m) 0 31 0) = ent)
  (hentry : Ent2.ok (blockWidth (blockOf m)) ent.1 ent.2 = true)
  (hrequest : fetchMask (s.cell (cellIx (UA.index m.dest))).spad (blockOf m) (Ent2.bitmap ent.1 ent.2) = mask) (hzero : mask ≠ 0)

include hok hmask hent hentry hrequest hzero

/-- A BLOCK_FETCH that no rule refuses delivers its blocks, or asks for them. -/
theorem blockFetch_starts :
    let u := blockAsked s m
    let w := blockWidth (blockOf m)
    s.blockFetch m e =
      if mask &&& Ent2.bitmap ent.1 ent.2 = 0 ∨ Ent2.loc ent.2 = 0 then
        (u.readGroup none ent.1 ent.2 w mask e).2.2.deliver (UA.cells m.dest) (bf (blockOf m) 2 13 0) w mask
          (u.readGroup none ent.1 ent.2 w mask e).1
      else if Ent2.loc ent.2 = 1 then
        (u.modUnit (UA.key m.dest) (fun v => { v with joins := v.joins ++ [⟨m.src, m.tag, blockFetchNo, blockOf m, mask, ent.1,
          ent.2, none, UA.cells m.dest, none, none⟩] })).sendRead (unitTag (UA.key m.dest)) ent.1 ent.2
      else u.deliver (UA.cells m.dest) (bf (blockOf m) 2 13 0) w mask
        (decodeBlocks (fun v => u.wsUnit (Ent2.base ent.1 + v)) w (Ent2.bitmap ent.1 ent.2) (Ent2.dense ent.2)
          (Ent2.psnAny ent.2) mask) := by
  intro u w
  have hread : OnlyReads (s.received m) u := reads_dir _ _
  have hent' : u.mem.entry (bf (blockOf m) 0 31 0) = ent := ((reads_same hread).entry _).trans hent
  have hcell : u.cell (cellIx (UA.index m.dest)) = s.cell (cellIx (UA.index m.dest)) := (reads_same hread).cell _
  have hdesc : ¬ (!s.groupOk (blockOf m) || decide ((blockOf m).getD 1 0 = 0)) = true := by
    rw [hok, decide_eq_false hmask]
    decide
  have hrefused : ¬ ((!Ent2.ok w ent.1 ent.2) = true ∨ mask = 0) := by
    rw [hentry]
    exact not_or.mpr ⟨Bool.false_ne_true, hzero⟩
  refine (if_neg hdesc).trans ?_
  have hblock : (List.range 4).map (fun i => (m.body.getD i 0).setWidth 64) = blockOf m := rfl
  have hu : (s.received m).dirAccess (bf (blockOf m) 0 31 0) = u := rfl
  simp only [hblock, hu, hent', hcell, hrequest]
  exact if_neg hrefused

/-- Blocks at hand are delivered into every cell of the unit (R39). -/
theorem blockFetch_atHand (hhand : AtHand s ent (blockWidth (blockOf m)) mask e) :
    let w := blockWidth (blockOf m)
    ∃ v, OnlyReads (s.received m) v ∧ s.blockFetch m e =
      v.modCells (UA.cells m.dest) (delivered (bf (blockOf m) 2 13 0) w mask (storedBlocks s ent w mask)) := by
  intro w
  have hstarts := blockFetch_starts e hok hmask hent hentry hrequest hzero
  have hread : OnlyReads (s.received m) (blockAsked s m) := reads_dir _ _
  have hhand' : AtHand (s.received m) ent w mask e := hhand
  obtain ⟨hnear, v, hgroup, hv⟩ | ⟨hfar, hloc, -, hdecode⟩ := at_hand hhand' hread none
  · refine ⟨v, hv, hstarts.trans ((if_pos hnear).trans ?_)⟩
    rw [hgroup]
    rfl
  · have hother : ¬ Ent2.loc ent.2 = 1 := by rw [hloc]; decide
    refine ⟨_, hread, hstarts.trans ((if_neg hfar).trans ((if_neg hother).trans ?_))⟩
    rw [hdecode]
    rfl

/-- Blocks at level 3 are asked for, and the unit holds the request (R515). -/
theorem blockFetch_far (hblocks : mask &&& Ent2.bitmap ent.1 ent.2 ≠ 0) (hloc : Ent2.loc ent.2 = 1) :
    s.blockFetch m e = ((blockAsked s m).modUnit (UA.key m.dest) (fun u => { u with joins := u.joins ++
      [⟨m.src, m.tag, blockFetchNo, blockOf m, mask, ent.1, ent.2, none, UA.cells m.dest, none, none⟩] })).sendRead
        (unitTag (UA.key m.dest)) ent.1 ent.2 :=
  have hfar : ¬ (mask &&& Ent2.bitmap ent.1 ent.2 = 0 ∨ Ent2.loc ent.2 = 0) := by
    rw [hloc]; exact not_or.mpr ⟨hblocks, by decide⟩
  (blockFetch_starts e hok hmask hent hentry hrequest hzero).trans ((if_neg hfar).trans (if_pos hloc))

end BlockFetch

/-- Blocks delivered into cells of distinct numbers, after storage was read, reach those cells and nothing else. -/
theorem deliver_cells_facts {s v : State} (hv : OnlyReads s v) (u : UnitAddr) (row w mask : Nat)
    (bl : List (Nat × Bool × List Byte)) :
    let t := v.modCells (UA.cells u) (delivered row w mask bl)
    (∀ k ∈ UA.cells u, (t.cell (cellIx k)).spad = writeGroup (s.cell (cellIx k)).spad row w mask bl) ∧
      (∀ d : CellIx, (∀ k ∈ UA.cells u, cellIx k ≠ d) → t.cell d = s.cell d) ∧ t.net = s.net ∧ t.units = s.units ∧
      t.mem.mem = s.mem.mem ∧ t.mem.tags = s.mem.tags := by
  intro t
  have hsame := reads_same hv
  have hframe : t = { v with cells := t.cells } := modCells_frame _ _ _
  refine ⟨fun k hk => ?_, fun d hd => ?_, ?_⟩
  · have hcell : t.cell (cellIx k) = delivered row w mask bl (v.cell (cellIx k)) := modCells_mem _ _ (cells_nodup u) k hk v
    obtain ⟨-, hspad, -⟩ := delivered_only row w mask bl (v.cell (cellIx k))
    rw [hcell, hspad, hsame.cell]
  · exact (modCells_other _ _ _ hd v).trans (hsame.cell d)
  · rw [hframe]
    exact ⟨hsame.net, hsame.units, hsame.mem, hsame.tags⟩

/-! ### Joined fetches that arrive at their router -/

/-- The next joined fetch of a cell reaches its router. -/
theorem exec_joinedFetchArrival {s : State} {c : CellIx} {o : UnitOp} {r : CmdRun} (e : List UnitFlip)
    (ho : (s.cell c).joining = some o) (hr : (s.cell c).cmdNo o.cmd = some r) (hup : s.cellUp c = true) :
    exec (.joinedFetchArrival c e) s = .next (s.joinArrive c o r e) := by
  show execJoinedFetchArrival c e s = _
  unfold execJoinedFetchArrival
  simp only [ho, hr]
  exact congrArg Host.Outcome.next (onlyIf_true _ _ _ hup)

section Arrival

variable {s : State} {c : CellIx} {o : UnitOp} {r : CmdRun} (e : List UnitFlip)

/-- What the router of a cell's joined fetch holds of it (R446). -/
def heldFor (s : State) (c : CellIx) (o : UnitOp) (r : CmdRun) : Option JoinRec :=
  (s.unit (UA.keyOf (o.joinDepth - 1) c.val)).joins.find?
    (fun j => decide (j.src = r.src ∧ j.tag = r.tag ∧ j.n = o.joinNo ∧ c.val ∈ j.left))

/-- A member whose operands differ from those that the router holds (R447). -/
theorem joinArrive_differs {j : JoinRec} (hj : heldFor s c o r = some j) (hsame : sameFetch j.block o.block = false) :
    s.joinArrive c o r e = s.endJoined c o (UA.keyOf (o.joinDepth - 1) c.val) j ccBadDesc := by
  unfold heldFor at hj
  unfold State.joinArrive
  simp only [hj, hsame, Bool.not_false, if_true]

/-- A member of a fetch that has ended (R446). -/
theorem joinArrive_ended {j : JoinRec} (hj : heldFor s c o r = some j) (hsame : sameFetch j.block o.block = true) {code : Code}
    (hends : j.ends = some code) : s.joinArrive c o r e = s.endJoined c o (UA.keyOf (o.joinDepth - 1) c.val) j code := by
  unfold heldFor at hj
  unfold State.joinArrive
  simp only [hj, hsame, hends, Bool.not_true, Bool.false_eq_true, if_false]

/-- A member whose blocks the router holds (R446). -/
theorem joinArrive_copies {j : JoinRec} (hj : heldFor s c o r = some j) (hsame : sameFetch j.block o.block = true)
    (hends : j.ends = none) {bl : List (Nat × Bool × List Byte)} (hblocks : j.blocks = some bl) :
    s.joinArrive c o r e = s.copyJoined c o (UA.keyOf (o.joinDepth - 1) c.val) j bl := by
  unfold heldFor at hj
  unfold State.joinArrive
  simp only [hj, hsame, hends, hblocks, Bool.not_true, Bool.false_eq_true, if_false]

/-- A member whose blocks are on their way waits. -/
theorem joinArrive_waits {j : JoinRec} (hj : heldFor s c o r = some j) (hsame : sameFetch j.block o.block = true)
    (hends : j.ends = none) (hblocks : j.blocks = none) : s.joinArrive c o r e = s := by
  unfold heldFor at hj
  unfold State.joinArrive
  simp only [hj, hsame, hends, hblocks, Bool.not_true, Bool.false_eq_true, if_false]

/-- A router that holds 64 joined fetches lets a new one wait (R448). -/
theorem joinArrive_full (hnone : heldFor s c o r = none)
    (hfull : 64 ≤ (s.unit (UA.keyOf (o.joinDepth - 1) c.val)).joins.length) : s.joinArrive c o r e = s := by
  unfold heldFor at hnone
  unfold State.joinArrive
  simp only [hnone]
  exact if_pos hfull

/-- One that the router has room for is the first of its command (R446). -/
theorem joinArrive_first (hnone : heldFor s c o r = none)
    (hroom : (s.unit (UA.keyOf (o.joinDepth - 1) c.val)).joins.length < 64) :
    s.joinArrive c o r e = s.firstJoined c o r (UA.keyOf (o.joinDepth - 1) c.val)
      (UA.mk s.net.devId (UA.keyOf (o.joinDepth - 1) c.val)) e := by
  unfold heldFor at hnone
  unfold State.joinArrive
  simp only [hnone]
  exact if_neg (Nat.not_le.mpr hroom)

/-- A unit as it holds one more joined fetch. -/
def holding (j : JoinRec) (u : UnitState) : UnitState := { u with joins := u.joins ++ [j] }

/-- Blocks at hand are read once; the router holds them and the first member takes its copy (R446). -/
theorem firstJoined_atHand {ent : Word × Word} {mask : Nat} (key : Nat) (router : UnitAddr)
    (hent : s.mem.entry (bf o.block 0 31 0) = ent) (hrequest : fetchMask (s.cell c).spad o.block (Ent2.bitmap ent.1 ent.2) = mask)
    (hentry : Ent2.ok (blockWidth o.block) ent.1 ent.2 = true) (hzero : mask ≠ 0)
    (hhand : AtHand s ent (blockWidth o.block) mask e) :
    let bl := storedBlocks s ent (blockWidth o.block) mask
    let j : JoinRec := ⟨r.src, r.tag, o.joinNo, o.block, mask, ent.1, ent.2, some bl, joinMembers router r.dest, none, none⟩
    ∃ v, OnlyReads s v ∧ s.firstJoined c o r key router e =
      (v.modUnit key (holding j)).copyJoined c o key j bl := by
  intro bl j
  have hread := reads_dir s (bf o.block 0 31 0)
  have hsame := reads_same hread
  unfold State.firstJoined
  simp only [hsame.entry, hsame.cell, hent, hrequest, hentry, hzero, Bool.not_true, Bool.false_eq_true, if_false]
  obtain ⟨hnear, v, hgroup, hv⟩ | ⟨hfar, hloc, hbus, hdecode⟩ := at_hand hhand hread (some c)
  · refine ⟨v, hv, (if_pos hnear).trans ?_⟩
    rw [hgroup]
    rfl
  · have hother : ¬ Ent2.loc ent.2 = 1 := by rw [hloc]; decide
    refine ⟨_, hread, (if_neg hfar).trans ((if_neg hother).trans ((if_pos hbus).trans ?_))⟩
    rw [hdecode]
    rfl

end Arrival

/-- A member's joined fetch `o` in cell `c` has ended in `t` with `code`, unless it waits for the lost unit `lost`; the router
`key` no longer holds `j` of `js` for it, and else only storage was read. -/
def LeavesJoin (s : State) (c : CellIx) (o : UnitOp) (key : Nat) (j : JoinRec) (js : List JoinRec) (code : Code)
    (lost : Option Nat) (spad : List Host.Cell) (t : State) : Prop :=
  ((t.cell c).ops = (s.cell c).ops.map (fun p => if p.id = o.id then { p with
      done := lost.isNone, spill := lost.map (fun u => { what := .lost u }), code := code } else p) ∧
    (t.cell c).seq = (s.cell c).seq ∧ OnlyDelivered (s.cell c) (t.cell c) ∧
    OnlyReads ((s.setCell c (t.cell c)).modUnit key (fun _ => t.unit key)) t) ∧
    (t.cell c).spad = spad ∧ (t.unit key).joins = leftBy c j js

/-- A fetch that ends without a copy leaves its member's scratchpad alone (R447). -/
theorem endJoined_leaves (s : State) (c : CellIx) (o : UnitOp) (key : Nat) (j : JoinRec) (code : Code) :
    LeavesJoin s c o key j (s.unit key).joins code none (s.cell c).spad (s.endJoined c o key j code) :=
  joined_end 0 0 0 [] none code _ (s.cell c) (.inl rfl) (s.unit key) (.inr ⟨reads_refl s, rfl⟩) rfl rfl

/-- A copy is written in slot form, and its member waits only for a unit that is lost (R446, R624). -/
theorem copyJoined_leaves {s u : State} {c : CellIx} {o : UnitOp} {key : Nat} (j : JoinRec) (bl : List (Nat × Bool × List Byte))
    (us : UnitState) (hu : OnlyReads (s.modUnit key (fun _ => us)) u ∨ (OnlyReads s u ∧ us = s.unit key))
    (hcell : u.cell c = s.cell c) (hlost : u.mem.lost = s.mem.lost) :
    LeavesJoin s c o key j us.joins (poisonCode bl) (j.lost.filter (fun u => decide (u ∈ s.mem.lost)))
      (writeGroup (s.cell c).spad (bf o.block 2 13 0) (blockWidth o.block) j.mask bl) (u.copyJoined c o key j bl) := by
  obtain ⟨-, hspad, -⟩ := delivered_only (bf o.block 2 13 0) (blockWidth o.block) j.mask bl (s.cell c)
  have hcopy : u.copyJoined c o key j bl = (u.setCell c ((delivered (bf o.block 2 13 0) (blockWidth o.block) j.mask bl (s.cell c)).modOp
      o.id (fun o => { o with
        done := (j.lost.filter (fun u => decide (u ∈ s.mem.lost))).isNone,
        spill := (j.lost.filter (fun u => decide (u ∈ s.mem.lost))).map (fun u => { what := .lost u }),
        code := poisonCode bl }))).leaveJoin c key j := by
    unfold State.copyJoined
    rw [deliver_one]
    simp only [State.modCell, State.cell_setCell, State.setCell_setCell, hcell, State.setCell_mem, hlost]
  obtain ⟨hends, hspad', hjoins⟩ := joined_end _ _ _ bl _ _ _ _ (.inr rfl) us hu rfl hcopy
  exact ⟨hends, hspad'.trans hspad, hjoins⟩

theorem reads_modUnit {s u : State} (h : OnlyReads s u) (k : Nat) (g : UnitState → UnitState) :
    OnlyReads (s.modUnit k (fun _ => g (s.unit k))) (u.modUnit k g) := by
  have hunit : u.unit k = s.unit k := unit_of_units (reads_same h).units k
  unfold State.modUnit
  rw [hunit]
  unfold OnlyReads at *
  rw [h]

/-! ### The three families of fetches together -/

/-- Settles O12: the blocks that are at hand are delivered, those at level 3 are asked for, and a joined fetch takes its copy from
what its router holds; the case split follows where the blocks lie. -/
theorem groupAndSharedFetches : Obligations.GroupAndSharedFetches := by
  unfold Obligations.GroupAndSharedFetches
  refine ⟨?fetch, ?shared⟩
  case fetch =>
    intro s c f b e hn x w row dix mcd ent mask src o p bl waits hi hok
    refine ⟨exec_fetch_empty e hi hok, ?single, ?joined⟩
    case single =>
      intro hsingle hmask hhazard hentry
      have hexec : exec (.fetch c f e) s = .next (if mask = 0 then (s.dirAccess dix).finish c ccEmpty
          else ((s.dirAccess dix).startFetch c (fetchOp b) ent.1 ent.2 mask e).retire c) :=
        exec_fetch_single e hi hok hsingle hmask hhazard rfl hentry rfl
      have hread := reads_dir s dix
      have hstored : mask &&& Ent2.bitmap ent.1 ent.2 ≠ 0 → mask ≠ 0 := mt (fun h => by rw [h, Nat.zero_and])
      refine ⟨fun hzero => hexec.trans (congrArg _ (if_pos hzero)), ?near, ?far, ?bus⟩
      case near =>
        intro hzero hhand
        obtain ⟨v, hv, hstart⟩ := startFetch_atHand c (fetchOp b) (blockWidth_take b) (bf_take b (by decide) 13 0) hhand hread
        rw [if_neg hzero, hstart] at hexec
        exact ⟨_, hexec, delivered_issue_facts hn hv row w mask bl _⟩
      case far =>
        intro hblocks hloc
        obtain ⟨hlast, hreads, hfacts⟩ := asked_issue_facts hn hread (waitingFor .read ent (fetchOp b)) ent.1 ent.2
        rw [if_neg (hstored hblocks), startFetch_far e hblocks hloc, hlast] at hexec
        exact ⟨_, _, hexec, hreads, rfl, hfacts⟩
      case bus =>
        intro hblocks hloc hbus
        rw [if_neg (hstored hblocks), startFetch_bus e hblocks hloc ((congrArg Pcie.bme (reads_same hread).pcie).trans hbus)] at hexec
        exact ⟨_, hexec, read_issue_facts hn hread _⟩
    case joined =>
      intro hjoined hdepth hmask hhazard n
      exact ⟨_, exec_fetch_joined e hi hok hjoined hdepth hmask hhazard, joined_issue_facts hn _ _⟩
  case shared =>
    intro s c f b e x io w gs src got ns out o
    refine ⟨?gather, ?block, ?arrival⟩
    case gather =>
      intro i row hrow hn hi hform hkind hrows
      simp only [List.mem_cons, Prod.mk.injEq, List.not_mem_nil, or_false] at hrow
      obtain ⟨rfl, rfl⟩ | ⟨rfl, rfl⟩ := hrow
      · exact pGatherOne s c f b e _ false rfl hn hi hform hkind hrows
      · exact pGatherOne s c f b e _ true rfl hn hi hform hkind hrows
    case block =>
      intro m hreq hepoch hready b w dix ent mask hok hmask hentry hzero
      have hexec := exec_blockFetch e hreq hepoch hready
      refine ⟨fun hhand => ?_, fun hblocks hloc => ?_⟩
      · obtain ⟨v, hv, hfetch⟩ := blockFetch_atHand (s := s.takeMsg m) e hok hmask rfl hentry rfl hzero hhand
        exact ⟨_, hexec.trans (congrArg _ hfetch), deliver_cells_facts hv m.dest (bf b 2 13 0) w mask _⟩
      · exact ⟨_, hexec.trans (congrArg _ (blockFetch_far (s := s.takeMsg m) e hok hmask rfl hentry rfl hzero hblocks hloc)), rfl,
          (sendRead_cells _ _ _ _).trans (reads_same (reads_dir ((s.takeMsg m).received m) dix)).cells⟩
    case arrival =>
      intro o r ho hr hup key js row w mine ends
      have hexec := exec_joinedFetchArrival e ho hr hup
      refine ⟨fun j hj => ⟨fun hsame => ?differs, fun hsame => ⟨fun code hends => ?ended, fun bl hends hblocks => ?copies,
        fun hends hblocks => ?waits⟩⟩, fun hnone hfull => ?full, ?first⟩
      case differs =>
        obtain ⟨hleft, hspad, hjoins⟩ := endJoined_leaves s c o key j ccBadDesc
        exact ⟨_, hexec.trans (congrArg _ (joinArrive_differs e hj hsame)), hleft, hspad, hjoins⟩
      case ended =>
        obtain ⟨hleft, hspad, hjoins⟩ := endJoined_leaves s c o key j code
        exact ⟨_, hexec.trans (congrArg _ (joinArrive_ended e hj hsame hends)), hleft, hspad, hjoins⟩
      case copies =>
        obtain ⟨hleft, hspad, hjoins⟩ := copyJoined_leaves (o := o) j bl (s.unit key) (.inr ⟨reads_refl s, rfl⟩) rfl rfl
        exact ⟨_, hexec.trans (congrArg _ (joinArrive_copies e hj hsame hends hblocks)), hleft, hspad, hjoins⟩
      case waits => exact hexec.trans (congrArg _ (joinArrive_waits e hj hsame hends hblocks))
      case full => exact hexec.trans (congrArg _ (joinArrive_full e hnone hfull))
      case first =>
        intro hnone hroom ent mask bl j hentry hzero hhand
        obtain ⟨v, hv, hfirst⟩ := firstJoined_atHand (r := r) e key (UA.mk s.net.devId key) rfl rfl hentry hzero hhand
        obtain ⟨hleft, hspad, hjoins⟩ := copyJoined_leaves (o := o) j bl (holding j (s.unit key))
          (.inl (reads_modUnit hv key (holding j))) ((reads_same hv).cell c) (reads_same hv).lost
        exact ⟨_, hexec.trans (congrArg _ ((joinArrive_first e hnone hroom).trans hfirst)), hleft, hspad, hjoins⟩

end Sys2Proof.Proofs

/-! PROOFS. Layers from their begin to their completion, and completion entries. -/

namespace Sys2Proof.Proofs

open Sys2Proof Sys2Proof.Machine Sys2Proof.Laws Sys2Proof.Laws.DriverLaws

/-! ### The begin of a DELTA layer -/

/-- A stored word leaves every byte outside it. -/
theorem read_writeWord_ne (m : List Host.Cell) (a b : Nat) (w : Word) (h : b < a ∨ a + 8 ≤ b) :
    Memory.read (Memory.writeWord m a w) b = Memory.read m b :=
  Memory.read_writeBytes_ne _ _ _ _ (by rw [bytesLE_length]; exact h)

/-- An open LINEAR layer with DELTA begins once (R247). -/
theorem exec_deltaLayerBegin {s : State} {job : BitVec 32} {layer : BitVec 16} {j : JobRec} {g : GraphRec} {p : Word} {l : Desc}
    (hup : s.hostUp = true) (hopen : s.openLayer job layer = some (j, g, p, l)) (hop : Layer.op l = 1)
    (hdelta : Prec.delta p = true) (hnew : ∀ f ∈ s.drv.frames, ¬ (f.job = job ∧ f.layer = layer)) :
    exec (.deltaLayerBegin job layer) s = .next (s.beginDelta j g p l layer) := by
  have hany : s.drv.frames.any (fun f => decide (f.job = job ∧ f.layer = layer)) = false :=
    List.any_eq_false.mpr (fun f hf => by simpa using hnew f hf)
  show execDeltaLayerBegin job layer s = _
  unfold execDeltaLayerBegin
  rw [hopen]
  exact congrArg Host.Outcome.next (onlyIf_true _ _ _ (by rw [hup, hop, hdelta, hany]; rfl))

/-- The begin of a DELTA layer notes its frame and clears the header word of its reference (R243, R247). -/
theorem beginDelta_facts (s : State) (j : JobRec) (g : GraphRec) (p : Word) (l : Desc) (layer : BitVec 16) :
    let t := s.beginDelta j g p l layer
    (∃ f : DeltaFrame, f.job = j.id ∧ f.layer = layer ∧ t.drv = { s.drv with frames := s.drv.frames ++ [f] }) ∧
      t.cells = s.cells ∧ t.mem.mem = Memory.writeWord s.mem.mem (64 * Layer.dref l) 0 :=
  ⟨⟨_, rfl, rfl, rfl⟩, rfl, rfl⟩

/-! ### The completion of a layer -/

/-- A layer that is no IMPORT or EXPORT, runs on cells, and has something to reduce moves no data as it completes (log 27). -/
theorem layerData_of_cells {s s' : State} {j : JobRec} {g : GraphRec} {p : Word} {l : Desc} {psn : Bool}
    (h : s.layerData j g p l = some (s', psn)) (himport : Layer.op l ≠ 4) (hexport : Layer.op l ≠ 5)
    (hhost : Prec.hostLayer p = false)
    (hklen : Layer.op l = 1 → (g.tensor (Layer.inT l)).elim 0 Tensor.klen ≠ 0) : s' = s ∧ psn = false := by
  have hreduces : ¬ (Layer.op l = 1 ∧ Tensor.klen ((g.tensor (Layer.inT l)).getD []) = 0) := by
    rintro ⟨hop, hzero⟩
    have hne := hklen hop
    cases hin : g.tensor (Layer.inT l) with
    | none => rw [hin] at hne; exact hne rfl
    | some t => rw [hin] at hne hzero; exact hne hzero
  unfold State.layerData at h
  simp only [if_neg himport, if_neg hexport, if_neg hreduces, hhost, Bool.false_eq_true, if_false, Option.some.injEq,
    Prod.mk.injEq] at h
  obtain ⟨hstate, hpsn⟩ := h
  exact ⟨hstate.symm, hpsn.symm⟩

/-- An open layer whose operands fit completes once its data have moved. -/
theorem exec_layerComplete {s s' : State} {job : BitVec 32} {layer : BitVec 16} {code : BitVec 8} {record carried : List Word}
    {ledgers : List (List Payload)} {j : JobRec} {g : GraphRec} {p : Word} {l : Desc} {psn : Bool} (hup : s.hostUp = true)
    (hopen : s.openLayer job layer = some (j, g, p, l)) (hcode : code.toNat ≤ 3)
    (hfits : s.layerFits g p l record carried ledgers = true) (hdata : s.layerData j g p l = some (s', psn)) :
    exec (.layerComplete job layer code record carried ledgers) s =
      .next (s'.layerDone j g p l layer code psn record carried ledgers) := by
  show execLayerComplete job layer code record carried ledgers s = _
  unfold execLayerComplete
  simp only [hopen]
  rw [onlyIf_true _ _ _ (by rw [hup, hfits, decide_eq_true hcode]; rfl), hdata]

/-- What a layer that completes with code `c` and its tiles' ledgers writes: unless it has nothing to do its records and its delta
reference, and its ledgers (R169, R247, R419). -/
def layerWritten (s : State) (j : JobRec) (g : GraphRec) (p : Word) (l : Desc) (layer : BitVec 16) (c : Code)
    (record carried : List Word) (ls : List Ledger) : State :=
  let r := s.writeRecords j.id layer g p l record carried
  State.writeLedgers (if c = ccEmpty then s else if decide (Layer.op l = 1) && Prec.delta p then r.endDelta g l else r) l ls

/-- The job's record once a layer has completed with a code and its tiles' ledgers (R415, R418). -/
def layerCounted (j : JobRec) (layer : BitVec 16) (c : Code) (ls : List Ledger) (elapsed : Word) : JobRec :=
  { j with done := j.done ++ [layer.toNat], codes := j.codes ++ [c], elapsed := elapsed, ledger := ls.foldl Ledger.fold j.ledger }

/-- The state without the conversions and the frame of a layer, and with its job's new record. -/
def layerClosed (s : State) (job : BitVec 32) (layer : BitVec 16) (j' : JobRec) : State :=
  ({ s with conv := s.conv.filter (fun k => decide (¬ (k.job = job ∧ k.layer = layer))),
            drv := { s.drv with
              frames := s.drv.frames.filter (fun f => decide (¬ (f.job = job ∧ f.layer = layer))) } } : State).setJob j'

/-- All that a completing layer writes is memory: driver, cells, messages and time stay. -/
theorem layerWritten_lay (s : State) (j : JobRec) (g : GraphRec) (p : Word) (l : Desc) (layer : BitVec 16) (c : Code)
    (record carried : List Word) (ls : List Ledger) :
    layPart (layerWritten s j g p l layer c record carried ls) = layPart s := by
  have hrecords := writeRecords_lay s j.id layer g p l record carried
  unfold layerWritten
  rw [writeLedgers_lay]
  split
  · rfl
  · split
    · exact (endDelta_lay _ g l).trans hrecords
    · exact hrecords

/-- A completing layer writes its records and ledgers, and the driver counts it with its code and closes it. -/
theorem layerDone_eq (s : State) (j : JobRec) (g : GraphRec) (p : Word) (l : Desc) (layer : BitVec 16) (code : Code)
    (psn : Bool) (record carried : List Word) (given : List (List Payload)) :
    let ls := g.ledgers p l given
    let c : Code := if g.empty l then ccEmpty else layerCode code psn ls
    let w := layerWritten s j g p l layer c record carried ls
    s.layerDone j g p l layer code psn record carried given =
      layerClosed w j.id layer (layerCounted j layer c ls (s.timeHost - j.start)) := by
  intro ls c w
  have htime : w.timeHost = s.timeHost := congrArg (·.2.2.2) (layerWritten_lay s j g p l layer c record carried ls)
  rw [← htime]
  unfold State.layerDone
  extract_lets
  rfl

/-- A layer with nothing to do and without a ledger area writes nothing. -/
theorem layerWritten_nothing (s : State) (j : JobRec) (g : GraphRec) (p : Word) (l : Desc) (layer : BitVec 16) {c : Code}
    (record carried : List Word) (ls : List Ledger) (hempty : c = ccEmpty) (hv : Layer.ledgerV l = false) :
    layerWritten s j g p l layer c record carried ls = s := by
  unfold layerWritten State.writeLedgers
  simp only [hempty, hv, Bool.false_eq_true, if_false, if_true]

/-- The ledgers of a layer with a ledger area stand there in the order of the tiles (R419). -/
theorem read_layerWritten (s : State) (j : JobRec) (g : GraphRec) (p : Word) (l : Desc) (layer : BitVec 16) (c : Code)
    (record carried : List Word) {ls : List Ledger} (hv : Layer.ledgerV l = true) {i : Nat} {b : Byte}
    (hb : (ls.flatMap (·.stored))[i]? = some b) :
    Memory.read (layerWritten s j g p l layer c record carried ls).mem.mem (64 * Layer.ledger l + i) = b := by
  obtain ⟨hi, rfl⟩ := List.getElem?_eq_some_iff.mp hb
  unfold layerWritten State.writeLedgers
  rw [if_pos hv]
  exact read_writeBytes_in _ _ _ _ hi

section LayerClosed

variable {s : State} {job : BitVec 32} {layer : BitVec 16} {j j' : JobRec}

@[simp] theorem layerClosed_cells : (layerClosed s job layer j').cells = s.cells := rfl
@[simp] theorem layerClosed_net : (layerClosed s job layer j').net = s.net := rfl
@[simp] theorem layerClosed_mem : (layerClosed s job layer j').mem = s.mem := rfl

theorem layerClosed_frames {f : DeltaFrame} (hf : f ∈ (layerClosed s job layer j').drv.frames) :
    ¬ (f.job = job ∧ f.layer = layer) :=
  of_decide_eq_true (List.mem_filter.mp hf).2

/-- A job that the driver holds has its new record. -/
theorem layerClosed_job (hj : s.drv.job? job = some j) (hid : j'.id = job) :
    (layerClosed s job layer j').drv.job? job = some j' := by
  unfold layerClosed
  exact job_setJob _ j j' job hj hid

end LayerClosed

/-! ### Completion entries -/

/-- The first completion that waits on an enabled stream is the one to be written. -/
theorem exec_completionEntryWrite {s : State} {st : Fin 8} {x : Completion} {l : List Completion} (hup : s.hostUp = true)
    (hready : (s.stream st.val).ready = x :: l) (hen : (s.stream st.val).enabled = true) :
    exec (.completionEntryWrite st) s = .next (s.completionWrite st.val x) := by
  show execCompletionEntryWrite st s = _
  unfold execCompletionEntryWrite
  simp only [hready]
  exact congrArg Host.Outcome.next (onlyIf_true _ _ _ (by rw [hup, hen]; rfl))

/-- A status source leaves the streams. -/
theorem fireStatus_stream (s : State) (n i : Nat) : (s.fireStatus n).stream i = s.stream i := rfl

section CompletionWrite

variable {s : State} {i : Nat} (x : Completion)

/-- With its queue full an entry waits, and the stream shows why (R492). -/
theorem completionWrite_full (h : (s.stream i).full = true) :
    (s.completionWrite i x).mem = s.mem ∧
      (s.completionWrite i x).stream i = { s.stream i with cqfull := true, roomwait := true } := by
  unfold State.completionWrite
  simp only [h, if_true]
  split
  · exact ⟨rfl, stream_mod s i _⟩
  · exact ⟨rfl, (fireStatus_stream _ _ i).trans (stream_mod s i _)⟩

/-- With room in its queue but DMA off it is discarded to BMOFF (R463). -/
theorem completionWrite_discarded (h : (s.stream i).full = false) (hbme : s.pcie.bme = false) :
    s.completionWrite i x = { s with evc := { s.evc with bmoff := true } } := by
  unfold State.completionWrite
  simp only [h, hbme, Bool.not_false, Bool.false_eq_true, if_false, if_true]

/-- With room and DMA on it is written (R490). -/
theorem completionWrite_written (h : (s.stream i).full = false) (hbme : s.pcie.bme = true) :
    s.completionWrite i x = s.writeEntry i x := by
  unfold State.completionWrite
  simp only [h, hbme, Bool.not_true, Bool.false_eq_true, if_false]

end CompletionWrite

/-- What writing an entry shows: the cells and device memory as they were, the entry in workstation memory, and the new tail. -/
theorem writeEntry_facts (s : State) (i : Nat) (x : Completion) :
    (s.writeEntry i x).cells = s.cells ∧ (s.writeEntry i x).mem.mem = s.mem.mem ∧
      (s.writeEntry i x).mem.wsMem = entryMem s i x ∧
      ((s.writeEntry i x).stream i).cqTail =
        BitVec.ofNat 16 (((s.stream i).cqTail.toNat + 1) % (s.stream i).cqSize.toNat) := by
  have h := writeEntry_we s i x
  simp only [wePart, twoMem, Prod.mk.injEq] at h
  obtain ⟨hcells, ⟨hmem, hws⟩, htail⟩ := h
  exact ⟨hcells, hmem, hws, htail⟩

/-! ### Layers and completion entries together -/

/-- Settles O35: a layer's begin, its completion, and the three ways of a completion entry, each by the facts of its operation. -/
theorem layersAndCompletionEntries : Obligations.LayersAndCompletionEntries := by
  unfold Obligations.LayersAndCompletionEntries
  refine fun s hup => ⟨?delta, ?complete, ?entry⟩
  case delta =>
    intro job layer j g p l hopen hop hdelta hnew
    obtain ⟨-, hid⟩ := openLayer_some hopen
    obtain ⟨⟨f, hjob, hlayer, hdrv⟩, hcells, hmem⟩ := beginDelta_facts s j g p l layer
    refine ⟨_, f, exec_deltaLayerBegin hup hopen hop hdelta hnew, hjob.trans hid, hlayer, hdrv, hcells, ?_, fun b hb => ?_⟩
    · rw [hmem, Memory.readWord_writeWord]
    · rw [hmem, read_writeWord_ne _ _ _ _ hb]
  case complete =>
    intro job layer code record carried ledgers j g p l s' psn hopen hcode hfits hdata ls c
    obtain ⟨hj, rfl⟩ := openLayer_some hopen
    have hexec := exec_layerComplete hup hopen hcode hfits hdata
    rw [layerDone_eq] at hexec
    have hlay := layerWritten_lay s' j g p l layer c record carried ls
    simp only [layPart, Prod.mk.injEq] at hlay
    obtain ⟨hdrv, hcells, hnet, -⟩ := hlay
    refine ⟨layerData_of_cells hdata, _, layerCounted j layer c ls (s'.timeHost - j.start), hexec,
      layerClosed_cells.trans hcells, layerClosed_net.trans hnet, fun hjobs => ?_, rfl, rfl, rfl, fun f => layerClosed_frames,
      fun hempty hv => ?_, fun hv i b hb => ?_⟩
    · refine layerClosed_job (j := j) ?_ rfl
      unfold Driver.job? at hj ⊢
      rw [hdrv, hjobs, hj]
    · rw [layerClosed_mem, layerWritten_nothing s' j g p l layer record carried ls hempty hv]
    · rw [layerClosed_mem]
      exact read_layerWritten s' j g p l layer c record carried hv hb
  case entry =>
    intro st x l q hready hen
    have hexec := exec_completionEntryWrite hup hready hen
    refine ⟨fun hfull => ⟨_, hexec, completionWrite_full x hfull⟩,
      fun hroom hoff => ⟨_, hexec, completionWrite_discarded x hroom hoff⟩, fun hroom hon => ?_⟩
    rw [completionWrite_written x hroom hon] at hexec
    obtain ⟨hcells, hmem, hws, htail⟩ := writeEntry_facts s st.val x
    refine ⟨_, hexec, hcells, hmem, htail, ?_, fun i b hb => ?_⟩
    · rw [hws]
      exact entryMem_first s st.val x
    · rw [hws]
      exact entryMem_rest s st.val x i b hb

end Sys2Proof.Proofs

/-! PROOFS. Loads and stores: invalid addresses, the counts that a read of a register claims, and errors of a row. -/

namespace Sys2Proof.Proofs

open Sys2Proof Sys2Proof.Machine Sys2Proof.Claims Sys2Proof.Laws

/-! ### Invalid and misaligned addresses -/

section BadAddress

variable {s : State} {c : CellIx} {opc : BitVec 8} {f : InsFields} {i : Instr} {n : Nat} {e : List RowFlip}

/-- A load at an invalid or misaligned address completes with BAD_DESC (R298). -/
theorem load_badDesc (hexec : exec i s = .next (s.issue c opc f i (bodyLoad c i f n e))) (hi : Issues s c opc f [f.rd, f.ra])
    (hcmd : (s.cell c).seq.cmd ≠ none) (hbad : s.narrowOk c ((s.cell c).seq.addrOf f).toNat n = false) :
    ∃ t, exec i s = .next t ∧ BadDesc s c t := by
  obtain ⟨-, -, -, -, hregs⟩ := id hi
  rw [hexec, State.issue_at _ _ hi, bodyLoad, State.guarded_regs _ _ hregs]
  simp only [hbad, Bool.not_false, if_true]
  exact ⟨_, rfl, bad_desc hcmd⟩

/-- So does a store (R298). -/
theorem store_badDesc (hexec : exec i s = .next (s.issue c opc f i (bodyStore c i f n e))) (hi : Issues s c opc f [f.rd, f.ra])
    (hcmd : (s.cell c).seq.cmd ≠ none) (hbad : s.narrowOk c ((s.cell c).seq.addrOf f).toNat n = false) :
    ∃ t, exec i s = .next t ∧ BadDesc s c t := by
  obtain ⟨-, -, -, -, hregs⟩ := id hi
  rw [hexec, State.issue_at _ _ hi, bodyStore, State.guarded_regs _ _ hregs]
  simp only [hbad, Bool.not_false, if_true]
  exact ⟨_, rfl, bad_desc hcmd⟩

end BadAddress

/-- Settles O3: each of the eight commands is a load or a store, and the check of its address comes first. -/
theorem badNarrowAccess : Obligations.BadNarrowAccess := by
  unfold Obligations.BadNarrowAccess
  intro s c f e i n opc hmem a hi hcmd haddr
  have hbad : s.narrowOk c ((s.cell c).seq.addrOf f).toNat n = false := LoadStoreLaws.not_ok haddr
  simp only [List.mem_cons, Prod.mk.injEq, List.not_mem_nil, or_false] at hmem
  obtain ⟨rfl, rfl, rfl⟩ | ⟨rfl, rfl, rfl⟩ | ⟨rfl, rfl, rfl⟩ | ⟨rfl, rfl, rfl⟩ | ⟨rfl, rfl, rfl⟩ | ⟨rfl, rfl, rfl⟩ |
    ⟨rfl, rfl, rfl⟩ | ⟨rfl, rfl, rfl⟩ := hmem
  · exact load_badDesc rfl hi hcmd hbad
  · exact load_badDesc rfl hi hcmd hbad
  · exact load_badDesc rfl hi hcmd hbad
  · exact load_badDesc rfl hi hcmd hbad
  · exact store_badDesc rfl hi hcmd hbad
  · exact store_badDesc rfl hi hcmd hbad
  · exact store_badDesc rfl hi hcmd hbad
  · exact store_badDesc rfl hi hcmd hbad

/-! ### Loads of RQ_CNT -/

section Counts

variable {s : State} {c : CellIx} {opc : BitVec 8} {f : InsFields} {i : Instr} {n A : Nat} {e : List RowFlip}

/-- The register RQ_CNT: clips in the low half, codes in the high one (R177). -/
theorem rqCount_toNat (x y : BitVec 32) :
    (BitVec.ofNat 64 (x.toNat + 2 ^ 32 * y.toNat)).toNat = x.toNat + 2 ^ 32 * y.toNat := by
  rw [BitVec.toNat_ofNat]
  omega

/-- A narrow read within RQ_CNT answers the bytes it names. -/
theorem narrowRead_rqCount (hA : A / 8 * 8 = 0x200040) :
    s.narrowRead c A n =
      BitVec.ofNat 64
        (((s.cell c).rq.clips.toNat + 2 ^ 32 * (s.cell c).rq.codes.toNat) / 2 ^ (8 * (A % 8)) % 2 ^ (8 * n)) := by
  unfold State.narrowRead
  rw [if_neg (by omega), hA, LoadStoreLaws.reg40, Option.getD_some, rqCount_toNat]

/-- A load within RQ_CNT delivers those bytes and claims the counts that it covers (R299). -/
theorem load_rqCount (hexec : exec i s = .next (s.issue c opc f i (bodyLoad c i f n e))) (hn : NextInside s c)
    (hi : Issues s c opc f [f.rd, f.ra]) (ha : ((s.cell c).seq.addrOf f).toNat = A) (hA : A / 8 * 8 = 0x200040) (hm : A % n = 0) :
    ∃ t, exec i s = .next t ∧ (t.cell c).seq.reg f.rd = (if f.rd = 0 then 0 else s.narrowRead c A n) ∧
      (t.cell c).rq = { (s.cell c).rq with
        clips := if covers (A % 8) n 31 0 then 0 else (s.cell c).rq.clips
        codes := if covers (A % 8) n 63 32 then 0 else (s.cell c).rq.codes } ∧
      (t.cell c).seq.pc = (s.cell c).seq.pc + 8 := by
  rw [hexec, LoadStoreLaws.load_reg i n A e hi ha hA hm, LoadStoreLaws.claim40 s c A n hA]
  refine ⟨_, rfl, ?_⟩
  simp only [State.cell_modSeq, State.cell_modCell, Seq.setReg_next hn]
  exact ⟨WindowLaws.setReg_getReg _ _ _, trivial, trivial⟩

end Counts

/-- LD8 reads both counts. -/
theorem both_counts (x y : BitVec 32) : BitVec.ofNat 64 ((x.toNat + 2 ^ 32 * y.toNat) / 2 ^ (8 * 0) % 2 ^ (8 * 8)) = y ++ x := by
  apply BitVec.eq_of_toNat_eq
  rw [BitVec.toNat_append, Nat.shiftLeft_eq, Nat.mul_comm y.toNat, ← Nat.two_pow_add_eq_or_of_lt x.isLt, BitVec.toNat_ofNat]
  omega

/-- LD4 of the high half reads the codes. -/
theorem codes_count (x y : BitVec 32) :
    BitVec.ofNat 64 ((x.toNat + 2 ^ 32 * y.toNat) / 2 ^ (8 * 4) % 2 ^ (8 * 4)) = y.setWidth 64 := by
  apply BitVec.eq_of_toNat_eq
  rw [BitVec.toNat_ofNat, BitVec.toNat_setWidth]
  omega

/-- LD2 of bytes 2 and 3 reads the high half of the clips. -/
theorem clips_high_half (x y : BitVec 32) :
    BitVec.ofNat 64 ((x.toNat + 2 ^ 32 * y.toNat) / 2 ^ (8 * 2) % 2 ^ (8 * 2)) =
      BitVec.setWidth 64 (BitVec.extractLsb' 16 16 x) := by
  apply BitVec.eq_of_toNat_eq
  rw [BitVec.toNat_ofNat, BitVec.toNat_setWidth, BitVec.extractLsb'_toNat, Nat.shiftRight_eq_div_pow]
  omega

/-! ### What a load or a store meets on its row -/

/-- Eight bytes of the scratchpad read as a word. -/
theorem narrowRead_word (u : State) (c : CellIx) {a : Nat} (ha : a < 0x200000) :
    u.narrowRead c a 8 = Memory.readWord (u.cell c).spad a :=
  if_pos ha

/-- The read of a row loses it where the code says so (R610). -/
theorem rowLoses_of_rowErr {s : State} {c : CellIx} {row : Nat} {ws : List Nat} {e : List RowFlip} {r : Nat × ReadErr}
    (h : rowErr (s.cell c).spad row ws e = r) : s.rowLoses c row ws e = decide (r.2 = .lost) := by
  unfold State.rowLoses
  rw [h]

/-- A corrected word is counted, and nothing else that a program sees changes (R309). -/
theorem rowRead_corrected {s : State} {c : CellIx} {row : Nat} {ws : List Nat} {e : List RowFlip}
    (h : rowErr (s.cell c).spad row ws e = (1, .corrected)) :
    let y := (s.rowRead c row ws e).cell c
    y.spdCe = sat16 (s.cell c).spdCe 1 ∧ y.spdUe = (s.cell c).spdUe := by
  unfold State.rowRead
  simp only [h, List.range_one, List.foldl_cons, List.foldl_nil, State.rowCorrected, State.cell_modCell, and_self]

/-- A word with two flipped bits is rebuilt, with UE set (R310, R609). -/
theorem rowRead_rebuilt {s : State} {c : CellIx} {row : Nat} {ws : List Nat} {e : List RowFlip}
    (h : rowErr (s.cell c).spad row ws e = (0, .uncorrectable)) : ((s.rowRead c row ws e).cell c).spdUe = true := by
  unfold State.rowRead
  simp only [h, List.range_zero, List.foldl_nil]
  obtain ⟨-, -, hue⟩ := LoadStoreLaws.rebuilt_cell s c row
  exact hue

theorem sat16_one_toNat (x : BitVec 16) : (sat16 x 1).toNat = min (x.toNat + 1) 0xFFFF := by
  unfold sat16
  rw [BitVec.toNat_ofNat]
  omega

section Row

variable {s : State} {c : CellIx} {f : InsFields} {e : List RowFlip} {a : Nat}

/-- LD8 of a word that is corrected or rebuilt: it is delivered, and the cell is else as the read of the row left it. -/
theorem ld8_delivers (hn : NextInside s c) (hi : Issues s c 0x13 f [f.rd, f.ra]) (haddr : ((s.cell c).seq.addrOf f).toNat = a)
    (ha : a < 0x200000) (h8 : a % 8 = 0) (hz : (s.cell c).hazard [] [(a / 128, 1)] [] = none) {n : Nat} {err : ReadErr}
    (herr : rowErr (s.cell c).spad (a / 128) [a % 128 / 8] e = (n, err)) (hgood : err ≠ .lost) :
    ∃ t, exec (.ld8 c f e) s = .next t ∧
      (t.cell c).seq.reg f.rd = (if f.rd = 0 then 0 else Memory.readWord (s.cell c).spad a) ∧
      (t.cell c).seq.pc = (s.cell c).seq.pc + 8 ∧
      (t.cell c).spdCe = ((s.rowRead c (a / 128) [a % 128 / 8] e).cell c).spdCe ∧
      (t.cell c).spdUe = ((s.rowRead c (a / 128) [a % 128 / 8] e).cell c).spdUe ∧ (t.cell c).spad = (s.cell c).spad := by
  subst haddr
  have hload := LoadStoreLaws.load_err (.ld8 c f e) 8 e hi ha hz h8
  obtain ⟨hseq, hkept, -⟩ := LoadStoreLaws.rowRead_cell s c _ _ e
  have hspad := hkept (by rw [herr]; exact hgood)
  simp only [LoadStoreLaws.wordsOf_8 _ h8, rowLoses_of_rowErr herr, decide_eq_false hgood, Bool.false_eq_true, if_false] at hload
  refine ⟨_, congrArg Host.Outcome.next hload, ?_⟩
  rw [State.cell_modSeq, hseq, Seq.setReg_next hn]
  refine ⟨?_, rfl, rfl, rfl, hspad⟩
  rw [narrowRead_word _ _ ha, hspad]
  exact WindowLaws.setReg_getReg _ _ _

/-- LD8 of a row that is lost: the row reads as zero and holds the program, and no register changes (R310, R610). -/
theorem ld8_holds (hi : Issues s c 0x13 f [f.rd, f.ra]) (haddr : ((s.cell c).seq.addrOf f).toNat = a) (ha : a < 0x200000)
    (h8 : a % 8 = 0) (hz : (s.cell c).hazard [] [(a / 128, 1)] [] = none) {n : Nat}
    (herr : rowErr (s.cell c).spad (a / 128) [a % 128 / 8] e = (n, .lost)) :
    ∃ t, exec (.ld8 c f e) s = .next t ∧ (t.cell c).seq = (s.cell c).seq ∧ (t.cell c).held = some (a / 128) ∧
      (t.cell c).spdUe = true ∧ (t.cell c).spad = Memory.zero (s.cell c).spad (128 * (a / 128)) 128 := by
  subst haddr
  have hload := LoadStoreLaws.load_err (.ld8 c f e) 8 e hi ha hz h8
  obtain ⟨hseq, -, hlost⟩ := LoadStoreLaws.rowRead_cell s c _ _ e
  obtain ⟨hspad, hue, hheld⟩ := hlost (by rw [herr])
  simp only [LoadStoreLaws.wordsOf_8 _ h8, rowLoses_of_rowErr herr, decide_true, if_true] at hload
  exact ⟨_, congrArg Host.Outcome.next hload, hseq, hheld, hue, hspad⟩

/-- ST1 reads its word before it writes, and writes where that did not lose the row (R295). -/
theorem exec_st1 (hi : Issues s c 0x14 f [f.rd, f.ra]) (haddr : ((s.cell c).seq.addrOf f).toNat = a) (ha : a < 0x200000)
    (hz : (s.cell c).hazard [] [] [(a / 128, 1)] = none) (e : List RowFlip) :
    exec (.st1 c f e) s = .next (if s.rowLoses c (a / 128) (wordsOf a 1) e then s.rowRead c (a / 128) (wordsOf a 1) e
      else ((s.rowRead c (a / 128) (wordsOf a 1) e).narrowWrite c a 1 ((s.cell c).seq.reg f.rd)).retire c) := by
  obtain ⟨-, -, -, -, hregs⟩ := id hi
  have hok : s.narrowOk c a 1 = true := by simp [State.narrowOk, ha, Nat.mod_one]
  refine congrArg Host.Outcome.next ((State.issue_at _ _ hi).trans ?_)
  unfold bodySt1 bodyStore
  rw [State.guarded_regs _ _ hregs]
  simp only [haddr, hok, ha, Bool.not_true, Bool.false_eq_true, if_false, if_true]
  rw [State.guarded_none _ _ hz]

/-- A store into the scratchpad that goes on: the bytes are written, and no register changes. -/
theorem narrowWrite_retire_facts {u : State} (hn : NextInside s c) (hseq : (u.cell c).seq = (s.cell c).seq)
    (hspad : (u.cell c).spad = (s.cell c).spad) (ha : a < 0x200000) (n : Nat) (v : Word) :
    let y := ((u.narrowWrite c a n v).retire c).cell c
    y.spad = Memory.writeNat (s.cell c).spad a n v.toNat ∧ y.seq.regs = (s.cell c).seq.regs ∧
      y.seq.pc = (s.cell c).seq.pc + 8 := by
  unfold State.narrowWrite State.retire
  simp only [if_pos ha, State.cell_modSeq, State.cell_modCell, Cell.overwritten, hseq, hspad, Seq.next_inside hn, and_self]

/-- ST1 writes its byte unless its row is lost, and then it holds (R295, R310). -/
theorem st1_writes_or_holds (hn : NextInside s c) (hi : Issues s c 0x14 f [f.rd, f.ra])
    (haddr : ((s.cell c).seq.addrOf f).toNat = a) (ha : a < 0x200000) (hz : (s.cell c).hazard [] [] [(a / 128, 1)] = none)
    (e : List RowFlip) :
    let lost := (rowErr (s.cell c).spad (a / 128) (wordsOf a 1) e).2 = .lost
    ∃ t, exec (.st1 c f e) s = .next t ∧
      (¬lost → (t.cell c).spad = Memory.writeNat (s.cell c).spad a 1 ((s.cell c).seq.reg f.rd).toNat ∧
        (t.cell c).seq.regs = (s.cell c).seq.regs ∧ (t.cell c).seq.pc = (s.cell c).seq.pc + 8) ∧
      (lost → (t.cell c).seq = (s.cell c).seq ∧ (t.cell c).held = some (a / 128) ∧
        (t.cell c).spad = Memory.zero (s.cell c).spad (128 * (a / 128)) 128) := by
  intro lost
  obtain ⟨hseq, hkept, hgone⟩ := LoadStoreLaws.rowRead_cell s c (a / 128) (wordsOf a 1) e
  refine ⟨_, exec_st1 hi haddr ha hz e, fun hgood => ?_, fun hlost => ?_⟩
  · rw [rowLoses_of_rowErr rfl, if_neg (by simpa using hgood)]
    exact narrowWrite_retire_facts hn hseq (hkept hgood) ha 1 _
  · rw [rowLoses_of_rowErr rfl, if_pos (by simpa using hlost)]
    obtain ⟨hspad, -, hheld⟩ := hgone hlost
    exact ⟨hseq, hheld, hspad⟩

end Row

/-- Settles O4: the counts that each width claims, what the code makes of one, two and four flipped bits on the row of a load,
and a store after the read of its word. -/
theorem narrowReads : Obligations.NarrowReads := by
  unfold Obligations.NarrowReads
  refine ⟨fun s c f e hn => ?counts, fun s c f hn => ?row⟩
  case counts =>
    refine ⟨fun hi ha => ?_, fun hi ha => ?_, fun hi ha => ?_⟩
    · have hload := load_rqCount (i := .ld8 c f e) (A := 0x200040) rfl hn hi (congrArg BitVec.toNat ha) rfl rfl
      rw [narrowRead_rqCount rfl, both_counts] at hload
      exact hload
    · have hload := load_rqCount (i := .ld4 c f e) (A := 0x200044) rfl hn hi (congrArg BitVec.toNat ha) rfl rfl
      rw [narrowRead_rqCount rfl, codes_count] at hload
      exact hload
    · have hload := load_rqCount (i := .ld2 c f e) (A := 0x200042) rfl hn hi (congrArg BitVec.toNat ha) rfl rfl
      rw [narrowRead_rqCount rfl, clips_high_half] at hload
      exact hload
  case row =>
    intro x a v ha
    refine ⟨fun h8 hz hi k l b b' d d' hk hl hb hd => ⟨?_, ?_, ?_⟩, fun hz hi e => ?_⟩
    · have herr := LoadStoreLaws.rowErr_one (s.cell c).spad (a / 128) k b
      rw [hk] at herr
      obtain ⟨hce, hue⟩ := rowRead_corrected herr
      obtain ⟨t, hexec, hreg, hpc, hce', hue', hspad⟩ := ld8_delivers hn hi rfl ha h8 hz herr (by decide)
      exact ⟨t, hexec, hreg, hpc, (congrArg BitVec.toNat (hce'.trans hce)).trans (sat16_one_toNat _), hue'.trans hue, hspad⟩
    · have herr := LoadStoreLaws.rowErr_two (s.cell c).spad (a / 128) k b b' hb
      rw [hk] at herr
      obtain ⟨t, hexec, hreg, hpc, -, hue, hspad⟩ := ld8_delivers hn hi rfl ha h8 hz herr (by decide)
      exact ⟨t, hexec, hreg, hpc, hue.trans (rowRead_rebuilt herr), hspad⟩
    · have herr := LoadStoreLaws.rowErr_four (s.cell c).spad (a / 128) k l b b' d d' hl hb hd
      rw [hk] at herr
      exact ld8_holds hi rfl ha h8 hz herr
    · exact st1_writes_or_holds hn hi rfl ha hz e

end Sys2Proof.Proofs

/-! PROOFS. Windows: the instructions and commands that open and close them, and the writes that come to them. -/

namespace Sys2Proof.Proofs

open Sys2Proof Sys2Proof.Machine Sys2Proof.Claims Sys2Proof.Laws

/-! ### WOPEN and WCLOSE -/

section Instructions

variable {s : State} {c : CellIx} {f : InsFields} {b : List Word}

/-- WOPEN of a CLOSING window stalls (R325). -/
theorem exec_wopen_closing (hi : IssuesBlock s c 0x54 f [f.rd, f.ra] maskWopen b)
    (hst : (s.win (UA.key (s.cellAddr c)) (bf b 0 3 0)).st = .closing) :
    exec (.wopen c f) s = .next (s.stall c 7 (.wopen c f)) :=
  congrArg Host.Outcome.next ((issue_withBlock hi _ _).trans (if_pos hst))

/-- WOPEN of a free window opens it over the rows of the block, and waits under cause REPLY to give RD the new WEPOCH (R313). -/
theorem exec_wopen_free (hi : IssuesBlock s c 0x54 f [f.rd, f.ra] maskWopen b)
    (hfree : s.winFree (s.cellAddr c) (bf b 0 3 0) = true) (hwriters : UA.canonical (b.getD 1 0) = true)
    (hrows : bf b 0 17 4 + bf b 0 32 18 ≤ 16384) (hsome : bf b 0 32 18 ≠ 0) :
    let k := UA.key (s.cellAddr c)
    let w := bf b 0 3 0
    exec (.wopen c f) s = .next (((s.modWin k w (fun _ =>
        { st := .opened, base := BitVec.ofNat 14 (bf b 0 17 4), rows := BitVec.ofNat 15 (bf b 0 32 18),
          wepoch := (s.win k w).wepoch + 1, writers := b.getD 1 0, job := (s.cell c).job })).addOp c
      { id := 0, unit := .net, blocking := true, regs := [(f.rd, ((s.win k w).wepoch + 1).setWidth 64)] }).waitOp c
        (some (6, .wopen c f))) := by
  intro k w
  have hclosed : ¬ (s.win k w).st = .closing := by
    rw [winFree_closed s _ w hfree]
    decide
  refine congrArg Host.Outcome.next ((issue_withBlock hi _ _).trans ((if_neg hclosed).trans ?_))
  rw [openWin_ok s _ _ _ _ _ (s.cell c).job hfree hwriters (Nat.not_lt.mpr hrows) hsome]
  rfl

/-- WCLOSE: the close point of the window, with an operation that is over once the window is free (R324, R325). -/
theorem exec_wclose (hi : Issues s c 0x55 f []) {k w : Nat} (hk : UA.keyOf 5 c.val = k) (hw : f.imm.toNat % 16 = w) :
    exec (.wclose c f) s = .next (((s.closeWin k w false).addOp c
      { id := 0, unit := .net, win := some (k, w), done := decide (((s.closeWin k w false).win k w).st = .closed) }).retire
        c) := by
  subst hk hw
  obtain ⟨-, -, -, -, hregs⟩ := id hi
  refine congrArg Host.Outcome.next ((State.issue_at _ _ hi).trans ?_)
  exact State.guarded_regs _ _ hregs

/-- An open window with nothing to land is free at once: the cell keeps all but the operations that waited for that. -/
theorem closeWin_frees (k w : Nat) (hst : (s.win k w).st = .opened) (hempty : (s.win k w).unlanded = []) :
    let z := s.closeWin k w false
    (z.win k w).st = .closed ∧ (z.win k w).wepoch = (s.win k w).wepoch ∧ (z.win k w).rows = 0 ∧
      ∃ ops, z.cell c = { s.cell c with ops := ops } := by
  obtain ⟨hclosed, hepoch, -, -, hcell, -⟩ := CommandLaws.closeWin_flat s k w hempty (by rw [hst]; decide)
  refine ⟨hclosed, hepoch, ?_, hcell c⟩
  rw [closeWin_open s k w hst hempty, winClosed_win]

end Instructions

/-- Settles O15: each instruction by the state of its window. -/
theorem windowInstructions : Obligations.WindowInstructions := by
  unfold Obligations.WindowInstructions
  intro s c f b x u
  refine ⟨?wopen, ?wclose⟩
  case wopen =>
    intro w v hi
    exact ⟨exec_wopen_closing hi, fun hfree hwriters hrows hsome =>
      ⟨_, exec_wopen_free hi hfree hwriters hrows hsome, State.addOp_wait _ _ rfl rfl rfl⟩⟩
  case wclose =>
    intro w k v hn hi
    have hexec := exec_wclose (k := k) (w := w) hi rfl rfl
    refine ⟨fun hst hun => ?_, fun hst hun => ?_, fun hst => ?_⟩
    · rw [closeWin_closing s k w hst hun, win_modWin] at hexec
      exact ⟨_, hexec, State.addOp_retire _ hn rfl rfl⟩
    · obtain ⟨hclosed, hepoch, hrows, ops, hcell⟩ := closeWin_frees (c := c) k w hst hun
      have hn' : NextInside (s.closeWin k w false) c := by
        unfold NextInside
        rw [hcell]
        exact hn
      rw [hclosed] at hexec
      obtain ⟨hspad, hops, hpc, hregs, -⟩ := issued_facts (State.addOp_retire (s := s.closeWin k w false)
        { id := 0, unit := .net, win := some (k, w), done := decide (WinSt.closed = .closed) } hn' rfl rfl)
      rw [hcell] at hspad hops hpc hregs
      refine ⟨_, hexec, hclosed, hepoch, hrows, ?_, hpc, hregs, hspad⟩
      rw [hops]
      exact ⟨_, List.mem_append_right _ List.mem_cons_self, rfl, rfl⟩
    · rw [closeWin_closed s k w hst, hst] at hexec
      exact ⟨_, hexec, State.addOp_retire _ hn rfl rfl⟩

/-! ### WINDOW commands of a carcase -/

section Commands

variable {s : State} {u : UnitAddr} {r : CmdRun} {item : Payload}

/-- `t` is `s` with the OPEN of `item` done at carcase `u`: its window is open for the job of the command, the command has left
the dispatcher and waits for its completion with the next WEPOCH, and nothing else of a unit or a cell changed (R313). -/
def OpenedByCommand (s : State) (u : UnitAddr) (r : CmdRun) (item : Payload) (t : State) : Prop :=
  let k := UA.key u
  let w := fld item 3 0
  let v := s.win k w
  (t.win k w).st = .opened ∧ (t.win k w).wepoch = v.wepoch + 1 ∧ (t.win k w).base = BitVec.ofNat 14 (fld item 18 5) ∧
    (t.win k w).rows = BitVec.ofNat 15 (fld item 33 19) ∧ (t.win k w).job = r.job ∧
    (t.unit k).disp = (s.unit k).disp.drop 1 ∧
    (t.unit k).cmds = (s.unit k).cmds ++ [⟨r.src, r.tag, 0x03, r.job, [], [ccOk], v.wepoch + 1, none⟩] ∧
    (∀ j, j ≠ k → t.unit j = s.unit j) ∧ t.cells = s.cells

/-- A carcase's command that is over with a change of one of the carcase's windows: it has left the dispatcher for the commands to
complete, and every other unit is as before. -/
theorem windowDone_modWin (hd : UA.depth u ≠ 5) (w : Nat) (g : Win → Win) (code : Code) (e : BitVec 16) (wait : Option Nat) :
    let k := UA.key u
    let t := (s.modWin k w g).windowDone u r code e wait
    t.win k w = g (s.win k w) ∧ (t.unit k).disp = (s.unit k).disp.drop 1 ∧
      (t.unit k).cmds = (s.unit k).cmds ++ [⟨r.src, r.tag, 0x03, r.job, [], [code], e, wait⟩] ∧
      (∀ j, j ≠ k → t.unit j = s.unit j) ∧ t.cells = s.cells := by
  unfold State.windowDone State.modWin State.win
  simp only [if_neg hd, State.modUnit_modUnit, State.unit_modUnit]
  refine ⟨?_, trivial, trivial, fun j hj => State.unit_modUnit_ne _ _ _ _ hj, rfl⟩
  unfold UnitState.win
  exact SMap.getD_set_self _ _ _ _

/-- A change of a window leaves what else its unit holds, and every other unit. -/
theorem modWin_frame (s : State) (k w : Nat) (g : Win → Win) :
    ((s.modWin k w g).unit k).disp = (s.unit k).disp ∧ ((s.modWin k w g).unit k).cmds = (s.unit k).cmds ∧
      ∀ j, j ≠ k → (s.modWin k w g).unit j = s.unit j := by
  unfold State.modWin
  exact ⟨by rw [State.unit_modUnit], by rw [State.unit_modUnit], fun j hj => State.unit_modUnit_ne _ _ _ _ hj⟩

section Checks

variable (hd : UA.depth u ≠ 5) (hres : r.reserved = false) (hzero : fld item 119 98 = 0) (hlen : r.len = 2)

include hd hres hzero hlen

/-- An OPEN of a free window (R313). -/
theorem windowOpen_opens (hfree : s.winFree u (fld item 3 0) = true)
    (hwriters : UA.canonical (BitVec.ofNat 64 (fld item 97 34)) = true) (hrows : fld item 18 5 + fld item 33 19 ≤ 16384)
    (hsome : fld item 33 19 ≠ 0) : OpenedByCommand s u r item (s.windowOpen u r item) := by
  have hgood : ¬ (r.reserved = true ∨ fld item 119 98 ≠ 0 ∨ r.len ≠ 2) := by simp [hres, hzero, hlen]
  have hclosed : ¬ (s.win (UA.key u) (fld item 3 0)).st = .closing := by
    rw [winFree_closed s u _ hfree]
    decide
  unfold State.windowOpen State.openByCmd
  simp only [if_neg hd, if_neg hgood, if_neg hclosed,
    openWin_ok s u _ _ _ _ r.job hfree hwriters (Nat.not_lt.mpr hrows) hsome]
  obtain ⟨hwin, hdisp, hcmds, hother, hcells⟩ := windowDone_modWin (s := s) (r := r) hd (fld item 3 0) (fun _ =>
    { st := .opened, base := BitVec.ofNat 14 (fld item 18 5), rows := BitVec.ofNat 15 (fld item 33 19),
      wepoch := (s.win (UA.key u) (fld item 3 0)).wepoch + 1, writers := BitVec.ofNat 64 (fld item 97 34), job := r.job })
    ccOk ((s.win (UA.key u) (fld item 3 0)).wepoch + 1) none
  exact ⟨congrArg Win.st hwin, congrArg Win.wepoch hwin, congrArg Win.base hwin, congrArg Win.rows hwin, congrArg Win.job hwin,
    hdisp, hcmds, hother, hcells⟩

/-- A CLOSE of an open window with writes to land: it is CLOSING, and the command waits for it (R324, R325). -/
theorem windowClose_waits (hst : (s.win (UA.key u) (fld item 3 0)).st = .opened)
    (hun : (s.win (UA.key u) (fld item 3 0)).unlanded ≠ []) :
    s.windowClose u r item = (s.modWin (UA.key u) (fld item 3 0) (fun v =>
      { v with st := .closing, byKill := false })).windowDone u r ccOk 0 (some (fld item 3 0)) := by
  have hgood : ¬ (r.reserved = true ∨ fld item 119 98 ≠ 0 ∨ r.len ≠ 2) := by simp [hres, hzero, hlen]
  unfold State.windowClose
  simp only [if_neg hd, if_neg hgood, closeWin_closing s _ _ hst hun, win_modWin]
  rfl

end Checks

/-- What a window owes to an OPEN that waited does not matter to the OPEN. -/
theorem OpenedByCommand.of_undeferred {t : State}
    (h : OpenedByCommand (s.modWin (UA.key u) (fld item 3 0) (fun x => { x with deferred := false })) u r item t) :
    OpenedByCommand s u r item t := by
  obtain ⟨hdisp, hcmds, hother⟩ := modWin_frame s (UA.key u) (fld item 3 0) (fun x => { x with deferred := false })
  obtain ⟨hst, hepoch, hbase, hrows, hjob, hdisp', hcmds', hother', hcells⟩ := h
  rw [win_modWin] at hepoch hcmds'
  exact ⟨hst, hepoch, hbase, hrows, hjob, by rw [hdisp', hdisp], by rw [hcmds', hcmds],
    fun j hj => (hother' j hj).trans (hother j hj), hcells⟩

theorem winFree_undeferred (w : Nat) :
    (s.modWin (UA.key u) w (fun x => { x with deferred := false })).winFree u w = s.winFree u w := by
  unfold State.winFree
  simp only [CommandLaws.openWin_st s (UA.key u) w (fun x => { x with deferred := false }) (fun _ => rfl)]

variable (hlocal : s.local? u = true) (hcanon : UA.canonical u = true) (hup : s.unitUp u = true)

include hlocal hcanon hup

theorem exec_windowOpenCmd (hcmd : s.windowCmd u false = some (r, item)) :
    exec (.windowOpenCmd u) s = .next (s.windowOpen u r item) := by
  show execWindowOpenCmd u s = _
  unfold execWindowOpenCmd
  simp only [hcmd]
  rw [onlyIf_true _ _ _ (by rw [hlocal, hcanon, hup]; rfl)]

theorem exec_windowCloseCmd (hcmd : s.windowCmd u true = some (r, item)) :
    exec (.windowCloseCmd u) s = .next (s.windowClose u r item) := by
  show execWindowCloseCmd u s = _
  unfold execWindowCloseCmd
  simp only [hcmd]
  rw [onlyIf_true _ _ _ (by rw [hlocal, hcanon, hup]; rfl)]

/-- The OPEN that waited acts on the window once it is free (R313, R325). -/
theorem exec_deferredWindowOpen (hcmd : s.windowCmd u false = some (r, item)) (hw : fld item 3 0 < 16)
    (hfree : s.winFree u (fld item 3 0) = true) (hdeferred : (s.win (UA.key u) (fld item 3 0)).deferred = true) :
    exec (.deferredWindowOpen u ⟨fld item 3 0, hw⟩) s =
      .next ((s.modWin (UA.key u) (fld item 3 0) (fun x => { x with deferred := false })).windowOpen u r item) := by
  have hclosed : ¬ (s.win (UA.key u) (fld item 3 0)).st ≠ .closed := not_not.mpr (winFree_closed s u _ hfree)
  show execDeferredWindowOpen u _ s = _
  unfold execDeferredWindowOpen
  rw [onlyIf_true _ _ _ (by rw [hlocal, hcanon, hup]; rfl)]
  unfold State.deferredOpen
  simp only [if_neg hclosed, hcmd]
  rw [if_pos ⟨hdeferred, trivial⟩]

end Commands

/-! ### Writes that arrive and land -/

/-- A write of message `m` as its window holds it until it lands (R320, R322). -/
def pendingWrite (s : State) (m : Msg) : WinWrite :=
  let k := UA.key m.dest
  ⟨(s.unit k).nextWrite, m.src, m.tag, m.body.getD 0 0, (s.win k (m.fld 0 3 0)).base.toNat * 128 + m.fld 0 40 20,
    (unpackItems (m.body.drop 1)).take (m.fld 0 61 41), (m.body.getD 0 0).getLsbD 62⟩

section Writes

variable {s : State} {m : Msg}

theorem exec_windowWrite (hreq : s.requestOk m 0x03 = true) (hepoch : m.epoch = s.epochOf m.dest) :
    exec (.windowWrite m) s = .next ((s.takeMsg m).acceptWrite m) := by
  show execWindowWrite m s = _
  unfold execWindowWrite
  rw [onlyIf_true _ _ _ hreq, arrival_ok _ _ _ hepoch]

/-- A write that passes the checks waits in its window and is counted, and nothing else but the count of messages changes
(R320, R336). -/
theorem acceptWrite_accepted (hcheck : s.checkWrite m = ccOk) :
    let k := UA.key m.dest
    let w := m.fld 0 3 0
    let t := s.acceptWrite m
    t.cells = s.cells ∧ t.win k w = { s.win k w with unlanded := (s.win k w).unlanded ++ [pendingWrite s m] } ∧
      (t.unit k).winAccepted = sat32 (s.unit k).winAccepted 1 ∧ (∀ j, j ≠ k → t.unit j = s.unit j) ∧ t.net = s.net := by
  intro k w t
  have hne : ¬ ccOk = ccEmpty := by decide
  have ht : t = (s.received m).modUnit k (fun u => { u with
      wins := SMap.set u.wins w { u.win w with unlanded := (u.win w).unlanded ++ [{ pendingWrite s m with
        addr := (u.win w).base.toNat * 128 + m.fld 0 40 20, no := u.nextWrite }] }
      winAccepted := sat32 u.winAccepted 1, nextWrite := u.nextWrite + 1 }) := by
    show s.acceptWrite m = _
    unfold State.acceptWrite
    simp only [hcheck, if_neg hne, if_true]
    rfl
  rw [ht]
  unfold State.received
  rw [State.modUnit_modUnit]
  refine ⟨rfl, ?_, by rw [State.unit_modUnit], fun j hj => State.unit_modUnit_ne _ _ _ _ hj, rfl⟩
  unfold State.win
  rw [State.unit_modUnit]
  simp [UnitState.win, pendingWrite, State.win, k, w]

/-- A write that fails check 3 is counted and bounced with WINDOW_CLOSED (R321). -/
theorem acceptWrite_closed (hcheck : s.checkWrite m = ccWinClosed) :
    s.acceptWrite m = (s.modUnit (UA.key m.dest) (fun u =>
      { u with winClosedB := sat16 u.winClosedB 1 })).bounce m ccWinClosed := by
  have hne : ¬ ccWinClosed = ccEmpty := by decide
  have hne' : ¬ ccWinClosed = ccOk := by decide
  have hne'' : ¬ ccWinClosed = ccWinBounds := by decide
  unfold State.acceptWrite
  simp only [hcheck, if_neg hne, if_neg hne', if_neg hne'', if_true]

end Writes

section Landing

variable {s : State} {u : UnitAddr}

/-- The cells of the owner with the bytes of a write, and the write struck off its window (R322). -/
def landed (s : State) (u : UnitAddr) (w : Nat) (p : WinWrite) (l : List WinWrite) : State :=
  (s.modCells (UA.cells u) (fun y =>
    { y.overwritten (p.addr / 128) (ceilDiv (p.addr % 128 + p.data.length) 128) with
      spad := Memory.writeBytes y.spad p.addr p.data })).modWin (UA.key u) w (fun x => { x with unlanded := l })

/-- The bytes land in every cell of the owner and in no other (R322). -/
theorem landed_facts (w : Nat) (p : WinWrite) (l : List WinWrite) :
    (landed s u w p l).win (UA.key u) w = { s.win (UA.key u) w with unlanded := l } ∧
      (∀ i ∈ UA.cells u, (landed s u w p l).cell (cellIx i) =
        { (s.cell (cellIx i)).overwritten (p.addr / 128) (ceilDiv (p.addr % 128 + p.data.length) 128) with
          spad := Memory.writeBytes (s.cell (cellIx i)).spad p.addr p.data }) ∧
      (∀ c : CellIx, (∀ i ∈ UA.cells u, cellIx i ≠ c) → (landed s u w p l).cell c = s.cell c) ∧
      (landed s u w p l).net = s.net := by
  unfold landed
  refine ⟨?_, fun i hi => modCells_mem _ _ (cells_nodup u) i hi s, fun c hc => modCells_other _ _ c hc s, ?_⟩
  · rw [win_modWin, modCells_frame]
    rfl
  · rw [modCells_frame]
    rfl

/-- The landing of the oldest write of an open window: besides the cells and the window at most a REPLY (R322). -/
theorem landWrite_opened {w : Nat} {p : WinWrite} {l : List WinWrite} (hun : (s.win (UA.key u) w).unlanded = p :: l)
    (hst : (s.win (UA.key u) w).st = .opened) :
    s.landWrite u w = landed s u w p l ∨ p.ack = true ∧ ∃ m, s.landWrite u w = (landed s u w p l).sendMsg m := by
  have hopen : ¬ (l = [] ∧ (s.win (UA.key u) w).st = .closing) := by
    rintro ⟨-, h⟩
    rw [hst] at h
    exact absurd h (by decide)
  unfold State.landWrite
  simp only [hun, if_neg hopen]
  cases hack : p.ack with
  | false => exact .inl rfl
  | true => exact .inr ⟨rfl, _, rfl⟩

/-- A message leaves every window as it was. -/
theorem sendMsg_win (t : State) (m : Msg) (k w : Nat) : (t.sendMsg m).win k w = t.win k w := by
  obtain ⟨n, hn⟩ := sendMsg_unit t m k
  unfold State.win
  rw [hn]
  rfl

theorem exec_windowWriteLanded {w : Fin 16} (hlocal : s.local? u = true) (hcanon : UA.canonical u = true)
    (hup : s.unitUp u = true) (hnext : (s.unit (UA.key u)).landsNext w.val = true) :
    exec (.windowWriteLanded u w) s = .next (s.landWrite u w.val) := by
  show execWindowWriteLanded u w s = _
  unfold execWindowWriteLanded
  rw [onlyIf_true _ _ _ (by rw [hlocal, hcanon, hup, hnext]; rfl)]

end Landing

/-- Settles O21: the commands by the state of their window, and a write from its checks to its landing. -/
theorem windowCommandsAndWrites : Obligations.WindowCommandsAndWrites := by
  unfold Obligations.WindowCommandsAndWrites
  refine ⟨fun s u r item hlocal hcanon hup hd hres hzero hlen => ?commands, fun s => ⟨fun m hreq hepoch => ?writes,
    fun u w p l hlocal hcanon hup hnext => ?landing⟩⟩
  case commands =>
    intro w v n opens
    refine ⟨fun hcmd hfree hwriters hrows hsome => ⟨?_, fun hdeferred hw => ?_⟩, fun hcmd hst hun => ?_⟩
    · exact ⟨_, exec_windowOpenCmd hlocal hcanon hup hcmd, windowOpen_opens hd hres hzero hlen hfree hwriters hrows hsome⟩
    · exact ⟨_, exec_deferredWindowOpen hlocal hcanon hup hcmd hw hfree hdeferred, OpenedByCommand.of_undeferred
        (windowOpen_opens hd hres hzero hlen ((winFree_undeferred _).trans hfree) hwriters hrows hsome)⟩
    · have hexec := exec_windowCloseCmd hlocal hcanon hup hcmd
      rw [windowClose_waits hd hres hzero hlen hst hun] at hexec
      obtain ⟨hwin, -, hcmds, hother, hcells⟩ := windowDone_modWin (s := s) (r := r) hd w
        (fun v => { v with st := .closing, byKill := false }) ccOk 0 (some w)
      exact ⟨_, hexec, hwin, hcmds, hother, hcells⟩
  case writes =>
    intro k w v
    have hexec := exec_windowWrite hreq hepoch
    refine ⟨fun hcheck => ?_, fun hcheck hlocal => ?_⟩
    · obtain ⟨hcells, hwin, hcount, hother, hnet⟩ := acceptWrite_accepted (s := s.takeMsg m) (m := m) hcheck
      exact ⟨_, hexec, hcells, hwin, hcount, hother, by rw [hnet, (takeMsg_rest s m).1]⟩
    · rw [acceptWrite_closed (s := s.takeMsg m) hcheck] at hexec
      obtain ⟨hcells, hflight, hunit⟩ := SyncLaws.bounce_local ((s.takeMsg m).modUnit k (fun u =>
        { u with winClosedB := sat16 u.winClosedB 1 })) m ccWinClosed ((takeMsg_local s m m.src).trans hlocal)
      obtain ⟨sent, bounces, hk⟩ := hunit k
      rw [State.unit_modUnit] at hk
      refine ⟨_, hexec, hcells, by rw [hk]; rfl, by rw [hk]; rfl, ?_⟩
      rw [hflight, State.modUnit_net, (takeMsg_rest s m).1]
      rfl
  case landing =>
    intro v hun hst
    have hexec := exec_windowWriteLanded hlocal hcanon hup hnext
    obtain ⟨hwin, hin, hout, hnet⟩ := landed_facts (s := s) (u := u) w.val p l
    rcases landWrite_opened hun hst with h | ⟨hack, m, h⟩
    · exact ⟨_, hexec.trans (congrArg _ h), hwin, hin, hout, fun _ => hnet⟩
    · refine ⟨_, hexec.trans (congrArg _ h), (sendMsg_win _ m _ _).trans hwin, fun i hi => ?_, fun c hc => ?_, fun hno => ?_⟩
      · exact (sendMsg_cell _ m _).trans (hin i hi)
      · exact (sendMsg_cell _ m c).trans (hout c hc)
      · rw [hack] at hno
        exact absurd hno (by decide)

end Sys2Proof.Proofs

/-! PROOFS. Images, the completion of commands, and what a scrub, a kill and a cut do to the cells of their unit. -/

namespace Sys2Proof.Proofs

open Sys2Proof Sys2Proof.Machine Sys2Proof.Claims Sys2Proof.Laws

/-! ### IMAGE -/

section Images

variable {s : State} {c : CellIx} {r : CmdRun}

/-- Parking a command leaves the image in progress and the registers. -/
theorem park_image (q : Seq) : q.park.image = q.image := by
  unfold Seq.park
  split
  · split <;> rfl
  · rfl

/-- A command that has not ended stays in progress. -/
theorem park_running {q : Seq} (hcmd : q.cmd = some r) (hend : r.ended = false) : q.park = q := by
  unfold Seq.park
  rw [hcmd]
  exact if_neg (by rw [hend]; decide)

/-- An IMAGE within its limits: the place and length of Table 12-2. -/
def ImageFits (r : CmdRun) : Prop :=
  r.a.toNat % 8 = 0 ∧ r.b.toNat % 8 = 0 ∧ r.b.toNat ≤ 983008 ∧ r.a.toNat + r.b.toNat ≤ 0x200000 ∧
    r.len = 1 + ceilDiv r.b.toNat 15

/-- Such an IMAGE, whose items follow, takes its place and length, and stays in progress (R318). -/
theorem startImage_fits (hres : r.reserved = false) (hfits : ImageFits r) (hsome : r.b.toNat ≠ 0)
    (hmore : (s.cell c).cmdq.midHead = true) :
    (s.startImage c r).cell c = { (s.cell c).ownJob r.job with seq := { (s.cell c).seq with
      image := some (r.a.toNat, r.b.toNat)
      cmd := some { r with started := true, ended := false, codes := [ccOk], stop := false } } } := by
  obtain ⟨ha, hb, hmax, hend, hlen⟩ := hfits
  have hgood : (r.reserved || decide (r.a.toNat % 8 ≠ 0 ∨ r.b.toNat % 8 ≠ 0 ∨ 983008 < r.b.toNat ∨
      0x200000 < r.a.toNat + r.b.toNat ∨ r.len ≠ 1 + ceilDiv r.b.toNat 15)) = false := by
    rw [hres, Bool.false_or, decide_eq_false_iff_not]
    omega
  have hmid : ((s.cell c).ownJob r.job).cmdq.midHead = true := hmore
  unfold State.startImage
  simp only [hgood, State.cell_modCell, hmid, if_neg hsome, Bool.not_true, Bool.false_eq_true, if_false]
  rw [park_running rfl rfl]
  rfl

theorem startImage_onlyCell : OnlyCell s c (s.startImage c r) := by
  unfold State.startImage
  exact OnlyCell_modCell s c _

theorem exec_imageCmd (hup : s.cellUp c = true) (hfresh : (s.cell c).fresh 0x02 = some r) :
    exec (.imageCmd c) s = .next (s.startImage c r) := by
  show execImageCmd c s = _
  unfold execImageCmd
  simp only [hfresh]
  rw [onlyIf_true _ _ _ hup]

theorem exec_imageItem {i : QItem} {l : List QItem} (hup : s.cellUp c = true) (hcmd : (s.cell c).seq.cmd = some r)
    (hitems : (s.cell c).cmdq.items = i :: l) (himage : r.cmd = 0x02) (hstart : r.started = true) (hend : r.ended = false) :
    exec (.imageItem c) s = .next (s.imageItem c r i) := by
  show execImageItem c s = _
  unfold execImageItem
  simp only [hcmd, hitems]
  rw [onlyIf_true _ _ _ (by rw [hup, hstart, hend, decide_eq_true himage]; rfl)]

/-- An item of an image with bytes left, whose rows are free: up to 15 bytes are written at the place, and it moves on. -/
theorem imageItem_writes (i : QItem) {a n : Nat} (hstop : r.stop = false) (himage : (s.cell c).seq.image = some (a, n))
    (hrows : (s.cell c).rowBusy true (a / 128) ((a + min 15 n - 1) / 128 - a / 128 + 1) = false) :
    let t := s.imageItem c r i
    OnlyCell s c t ∧
      (t.cell c).spad = Memory.writeBytes (s.cell c).spad a ((bytesLE 15 i.payload.toNat).take (min 15 n)) ∧
      (t.cell c).seq.image = some (a + min 15 n, n - min 15 n) ∧ (t.cell c).seq.regs = (s.cell c).seq.regs := by
  unfold State.imageItem
  simp only [himage, hstop, hrows, Option.getD_some, Bool.false_eq_true, if_false, and_false]
  refine ⟨OnlyCell_modCell s c _, ?_⟩
  rw [State.cell_modCell]
  exact ⟨rfl, park_image _, CommandLaws.park_regs _⟩

end Images

/-! ### The completion of commands -/

section Completions

variable {s : State}

/-- A share that is over counts at its cell, and no other cell changes. -/
theorem shareDone_cell (c : CellIx) (r : CmdRun) (code : Code) :
    (s.shareDone c r code).cell c =
      { s.cell c with cnt := { (s.cell c).cnt with commandsDone := (s.cell c).cnt.commandsDone + 1 } } := by
  rw [cell_of_cells (CommandLaws.shareDone_cells s c r code), State.cell_modCell]

theorem shareDone_cell_other {c d : CellIx} (hd : d ≠ c) (r : CmdRun) (code : Code) :
    (s.shareDone c r code).cell d = s.cell d := by
  rw [cell_of_cells (CommandLaws.shareDone_cells s c r code), State.cell_modCell_ne _ _ _ _ hd]

/-- `s` with no command in progress at cell `c`. -/
def withoutCommand (s : State) (c : CellIx) : State := s.modSeq c (fun q => { q with cmd := none, hdr := 0 })

/-- A command alone at its cell, ended and with no operation left, completes with its combined code (R429). -/
theorem exec_commandComplete {c : CellIx} {r : CmdRun} (hup : s.cellUp c = true) (hnone : (s.cell c).seq.ended = [])
    (hcmd : (s.cell c).seq.cmd = some r) (hend : r.ended = true) (hscrub : (s.cell c).scrubbing = false)
    (hops : ∀ o ∈ (s.cell c).ops, o.cmd ≠ r.no) :
    exec (.commandComplete c) s =
      .next ((withoutCommand s c).shareDone c r (combineCodes r.codes)) := by
  have hdone : (s.cell c).cmdOpsDone r = true := by
    unfold Cell.cmdOpsDone
    simpa using hops
  have hcomplete : (s.cell c).completable = some r := by
    unfold Cell.completable
    rw [hnone, hcmd]
    exact if_pos ⟨hend, hdone, by rw [hscrub]; decide⟩
  have hseq : s.modSeq c (fun q => { q with
      ended := q.ended.filter (fun x => decide (x.no ≠ r.no))
      cmd := if q.cmd.elim false (fun x => decide (x.no = r.no)) then none else q.cmd
      hdr := if q.cmd.elim false (fun x => decide (x.no = r.no)) then 0 else q.hdr }) =
      withoutCommand s c := by
    simp [withoutCommand, State.modSeq, State.modCell, hcmd, hnone]
  show execCommandComplete c s = _
  unfold execCommandComplete
  simp only [hcomplete]
  rw [onlyIf_true _ _ _ hup]
  unfold State.completeCmd
  rw [hseq]

/-- A carcase's command that every member has completed. -/
theorem exec_carcaseCommandComplete {u : UnitAddr} {tag : BitVec 32} {p : Spread} (hlocal : s.local? u = true)
    (hcanon : UA.canonical u = true) (hup : s.unitUp u = true)
    (hfind : (s.unit (UA.key u)).cmds.find? (fun p => decide (p.tag = tag ∧ p.left = [] ∧ p.win = none)) = some p) :
    exec (.carcaseCommandComplete u tag) s = .next (s.carcaseComplete u p) := by
  show execCarcaseCommandComplete u tag s = _
  unfold execCarcaseCommandComplete
  simp only [hfind]
  rw [onlyIf_true _ _ _ (by rw [hlocal, hcanon, hup]; rfl)]

theorem carcaseCode_eq (l : List Code) : carcaseCode l = if ccKilled ∈ l then ccKilled else combineCodes l := by
  unfold carcaseCode
  simp

/-- It leaves the carcase's records, and its REPLY goes to its sender (R31). -/
theorem carcaseComplete_facts {u : UnitAddr} (p : Spread) (hsrc : s.local? p.src = true) :
    let t := s.carcaseComplete u p
    t.cells = s.cells ∧ (t.unit (UA.key u)).cmds = (s.unit (UA.key u)).cmds.erase p ∧
      ∃ m, t.net.inFlight = s.net.inFlight ++ [m] ∧ m.dest = p.src ∧ m.src = u ∧ m.cls = 0x08 ∧ m.tag = p.tag ∧
        m.code = (if ccKilled ∈ p.codes then ccKilled else combineCodes p.codes) := by
  unfold State.carcaseComplete State.replyCmd State.reply
  refine ⟨(sendMsg_cells _ _).1, ?_, _, sendMsg_inFlight _ _ hsrc, rfl, rfl, rfl, rfl, carcaseCode_eq _⟩
  obtain ⟨n, hn⟩ := sendMsg_unit (s.modUnit (UA.key u) (fun v => { v with cmds := v.cmds.erase p }))
    (replyMsg ⟨u, 0, 0x01, p.tag, p.src, 0, false, []⟩ (carcaseCode p.codes)
      (replyItem p.cmd.toNat p.job.toNat p.wepoch.toNat) [])
    (UA.key u)
  rw [hn, State.unit_modUnit]

end Completions

/-- Settles O20: an image from its command to its items, and the REPLY of a command at a cell and at a carcase. -/
theorem imagesAndCompletions : Obligations.ImagesAndCompletions := by
  unfold Obligations.ImagesAndCompletions
  refine ⟨fun s c r hup => ?image, fun s => ⟨fun c r hup hsrc hdest hdepth hnone hcmd hend hscrub hops => ?cell,
    fun u tag p hlocal hcanon hup hsrc htag hleft hwin hfind => ?carcase⟩⟩
  case image =>
    intro x
    refine ⟨fun hfresh hres ha hb hmax hin hlen hsome hmore => ?_,
      fun i l a n hcmd hitems himage hstart hend hstop hplace hsome hrows => ?_⟩
    · have hcell := startImage_fits (s := s) (c := c) hres ⟨ha, hb, hmax, hin, hlen⟩ hsome hmore
      refine ⟨_, exec_imageCmd hup hfresh, startImage_onlyCell, ?_⟩
      rw [hcell]
      exact ⟨rfl, rfl, rfl, rfl⟩
    · obtain ⟨honly, hspad, hnext, hregs⟩ := imageItem_writes (s := s) (c := c) i hstop hplace hrows
      have hlength : ((bytesLE 15 i.payload.toNat).take (min 15 n)).length = min 15 n := by
        rw [List.length_take, bytesLE_length]
        omega
      refine ⟨_, exec_imageItem hup hcmd hitems himage hstart hend, honly, fun k hk => ?_, fun p hp => ?_, hnext, hregs⟩
      · rw [hspad, read_writeBytes_in _ _ _ _ (by rw [hlength]; exact hk)]
        exact List.getElem_eq_iff _ |>.mpr (CommandLaws.getElem_take_bytes _ _ _ hk)
      · rw [hspad, Memory.read_writeBytes_ne _ _ _ _ (by rw [hlength]; exact hp)]
  case cell =>
    have hexec := exec_commandComplete hup hnone hcmd hend hscrub hops
    obtain ⟨m, hflight, hm⟩ := CommandLaws.shareDone_local (withoutCommand s c) c r (combineCodes r.codes) hdepth hsrc
    refine ⟨_, hexec, ?_, ?_, ?_, fun d hd => ?_, m, hflight, hm⟩
    · rw [shareDone_cell, withoutCommand, State.cell_modSeq]
    · rw [shareDone_cell, withoutCommand, State.cell_modSeq]
    · rw [shareDone_cell, withoutCommand, State.cell_modSeq]
    · rw [shareDone_cell_other hd, withoutCommand, State.cell_modSeq_ne _ _ _ _ hd]
  case carcase =>
    have hexec := exec_carcaseCommandComplete hlocal hcanon hup hfind
    obtain ⟨hcells, hcmds, m, hflight, hm⟩ := carcaseComplete_facts (u := u) p hsrc
    rw [htag] at hm
    exact ⟨_, hexec, hcells, hcmds, m, hflight, hm⟩

/-! ### Scrubs -/

section Scrubs

variable {s : State} {c : CellIx}

/-- A scrub ends only where no window that the cell owns, or that lies over it, is CLOSING (R329). -/
theorem not_closing_of_scrubFenced (h : s.scrubFenced c = true) {k w : Nat} (hw : w < 16)
    (hk : k ∈ UA.keyOf 5 c.val :: UA.above (s.cellAddr c)) : (s.win k w).st ≠ .closing := by
  unfold State.scrubFenced at h
  have hall := List.all_eq_true.mp (Bool.and_eq_true_iff.mp h).2 w (List.mem_range.mpr hw)
  exact of_decide_eq_true (List.all_eq_true.mp hall k hk)

/-- The cell's windows, with nothing to land, are free once they reach their close point; the cell keeps all but its operations,
and the fences stay over (R329). -/
theorem freeWindows_facts (hfence : s.scrubFenced c = true)
    (hempty : ∀ w, w < 16 → (s.win (UA.keyOf 5 c.val) w).unlanded = []) :
    let k := UA.keyOf 5 c.val
    let t := s.freeWindows c
    t.scrubFenced c = true ∧ (∃ ops, t.cell c = { s.cell c with ops := ops }) ∧
      (∀ w, w < 16 → (t.win k w).st = .closed ∧ (t.win k w).wepoch = (s.win k w).wepoch) ∧
      (t.unit k).role = (s.unit k).role ∧ (t.unit k).epoch = (s.unit k).epoch := by
  intro k t
  obtain ⟨hclosed, hany, hcell, hnet, hunit⟩ := CommandLaws.closeAll k (List.range 16) s (fun w hw =>
    ⟨hempty w (List.mem_range.mp hw), not_closing_of_scrubFenced hfence (List.mem_range.mp hw) List.mem_cons_self⟩) t rfl
  refine ⟨?_, hcell c, fun w hw => hclosed w (List.mem_range.mpr hw), hunit k⟩
  obtain ⟨ops, hops⟩ := hcell c
  have haddr : t.cellAddr c = s.cellAddr c := by
    unfold State.cellAddr
    rw [hnet]
  have hqueues := (Bool.and_eq_true_iff.mp hfence).1
  unfold State.scrubFenced
  rw [hops, haddr, Bool.and_eq_true_iff]
  refine ⟨hqueues, List.all_eq_true.mpr (fun w hw => List.all_eq_true.mpr (fun j hj => decide_eq_true ?_))⟩
  rcases (hany j w).2 with h | h
  · rw [h]
    decide
  · rw [h]
    exact not_closing_of_scrubFenced hfence (List.mem_range.mp hw) hj

/-- SCRUB_END where the fences are over: the cell's windows are freed, and the scrub ends. -/
theorem exec_scrubEnd (hup : s.cellUp c = true) (hfence : s.scrubFenced c = true)
    (hempty : ∀ w, w < 16 → (s.win (UA.keyOf 5 c.val) w).unlanded = []) :
    exec (.scrubEnd c) s = .next ((s.freeWindows c).endScrub c) := by
  obtain ⟨hstill, -⟩ := freeWindows_facts hfence hempty
  show execScrubEnd c s = _
  unfold execScrubEnd
  rw [onlyIf_true _ _ _ (by rw [hup, hfence]; rfl)]
  unfold State.finishScrub
  simp only [hstill, if_true]

end Scrubs

/-- Settles O22: the cell's windows are freed first, and the end of the scrub zeroes the cell. -/
theorem scrubLeavesNothing : Obligations.ScrubLeavesNothing := by
  unfold Obligations.ScrubLeavesNothing
  intro s c hup hfence hempty k
  obtain ⟨-, ⟨ops, hops⟩, hwins, hrole, hepoch⟩ := freeWindows_facts hfence hempty
  obtain ⟨q, cq, rq, hcell, hregs⟩ := CommandLaws.endScrub_cell (s.freeWindows c) c
  obtain ⟨hrole', hepoch', hwins'⟩ := CommandLaws.endScrub_unit (s.freeWindows c) c k
  have hwin (w : Nat) : ((s.freeWindows c).endScrub c).win k w = (s.freeWindows c).win k w := by
    unfold State.win UnitState.win
    rw [hwins']
  refine ⟨_, exec_scrubEnd hup hfence hempty, ?_⟩
  rw [hcell, hops]
  refine ⟨rfl, fun r => ?_, rfl, rfl, rfl, rfl, rfl, rfl, rfl, rfl, rfl, rfl, rfl, rfl, hrole'.trans hrole, hepoch'.trans hepoch,
    fun w hw => ?_⟩
  · exact (reg_of_regs (q' := { q with regs := [] }) hregs r).trans (CommandLaws.reg_empty q r)
  · rw [hwin]
    exact hwins w hw

/-! ### Kills and cuts -/

section KillsAndCuts

variable {s : State} {m : Msg}

/-- What comes before a kill reaches the cells changes no more of them than the operations that waited for a window (R328). -/
theorem kill_cells (hgood : ¬ (m.fld 0 15 8 ≠ 0 ∨ m.fld 0 119 64 ≠ 0)) :
    ∃ z : State, CommandLaws.EqOps s z ∧ (s.kill m).cells =
      ((UA.cells m.dest).foldl (fun s i => s.killCell (cellIx i) (BitVec.ofNat 32 m.job)) z).cells := by
  unfold State.kill
  simp only [if_neg hgood]
  refine ⟨_, ?_, rfl⟩
  refine CommandLaws.EqOps.trans ?_ (CommandLaws.EqOps.of_cells (CommandLaws.killSpreads_cells _ _ _))
  refine CommandLaws.EqOps.trans ?_ (CommandLaws.eqOps_killWindows _ _ _)
  split
  · exact CommandLaws.EqOps.of_cells (CommandLaws.killWaiters_cells _ _)
  · exact CommandLaws.EqOps.of_cells rfl

/-- A KILL records the job at every cell of its unit, and stops those that work on it (R327, R352). -/
theorem kill_facts (hgood : ¬ (m.fld 0 15 8 ≠ 0 ∨ m.fld 0 119 64 ≠ 0)) {i : Nat} (hi : i ∈ UA.cells m.dest) :
    CommandLaws.killedFrom (BitVec.ofNat 32 m.job) (s.cell (cellIx i)) ((s.kill m).cell (cellIx i)) := by
  obtain ⟨z, hsame, hcells⟩ := kill_cells (s := s) hgood
  obtain ⟨ops, hops⟩ := hsame (cellIx i)
  rw [cell_of_cells hcells]
  exact CommandLaws.killFold _ _ z _ _ (.inl ⟨⟨ops, (s.cell (cellIx i)).cnt, hops⟩, List.mem_map_of_mem hi⟩)

theorem exec_killCmd (hreq : s.requestOk m 0x01 = true) (hepoch : m.epoch = s.epochOf m.dest) (hkill : m.fld 0 7 0 = 0x06) :
    exec (.killCmd m) s = .next ((s.takeMsg m).kill m) := by
  show execKillCmd m s = _
  unfold execKillCmd
  rw [onlyIf_true _ _ _ (by rw [hreq, decide_eq_true hkill]; rfl), arrival_ok _ _ _ hepoch]

/-- A CUT of work that a cell of its unit holds is recorded at every cell of it (R252, R254). -/
theorem cutCmd_cells (hgood : ¬ (m.fld 0 15 8 ≠ 0 ∨ m.fld 0 119 65 ≠ 0)) {layer : Option (BitVec 16)}
    (hlayer : (if (m.body.getD 0 0).getLsbD 64 then some (BitVec.ofNat 16 (m.fld 0 63 48)) else none) = layer)
    (hwork : ∃ i ∈ UA.cells m.dest, (s.cell (cellIx i)).holdsWork (BitVec.ofNat 32 m.job) layer = true) :
    (s.cutCmd m).cells =
      ((s.received m).modCells (UA.cells m.dest) (fun x => x.recordCut ⟨BitVec.ofNat 32 m.job, layer⟩)).cells := by
  have hany : (UA.cells m.dest).any (fun i =>
      ((s.received m).cell (cellIx i)).holdsWork (BitVec.ofNat 32 m.job) layer) = true := List.any_eq_true.mpr hwork
  unfold State.cutCmd State.cut
  simp only [if_neg hgood, hlayer, hany, if_true]
  exact (sendMsg_cells _ _).1

theorem exec_cutCmd (hreq : s.requestOk m 0x01 = true) (hepoch : m.epoch = s.epochOf m.dest) (hcut : m.fld 0 7 0 = 0x05) :
    exec (.cutCmd m) s = .next ((s.takeMsg m).cutCmd m) := by
  show execCutCmd m s = _
  unfold execCutCmd
  rw [onlyIf_true _ _ _ (by rw [hreq, decide_eq_true hcut]; rfl), arrival_ok _ _ _ hepoch]

end KillsAndCuts

/-- Settles O23: what a kill does to each cell, by induction over the cells of the unit, and the record of a cut. -/
theorem killAndCut : Obligations.KillAndCut := by
  unfold Obligations.KillAndCut
  intro s m hreq hepoch hzero job
  refine ⟨fun hkill hrest => ?_, fun hcut hrest => ?_⟩
  · exact ⟨_, exec_killCmd hreq hepoch hkill, fun i hi => kill_facts (by simp [hzero, hrest]) hi⟩
  · intro layer hwork
    have hcells := cutCmd_cells (s := s.takeMsg m) (m := m) (by simp [hzero, hrest]) rfl hwork
    refine ⟨_, exec_cutCmd hreq hepoch hcut, fun i hi => ?_⟩
    rw [cell_of_cells hcells, modCells_mem _ _ (cells_nodup m.dest) i hi]
    obtain ⟨hrecord, hspad, hseq⟩ := CommandLaws.recordCut_facts (((s.takeMsg m).received m).cell (cellIx i)) ⟨job, layer⟩
    exact ⟨hspad, hseq, hrecord⟩

end Sys2Proof.Proofs

/-! PROOFS. Rows that come due, remaps, retirement requests, the patrol and the repair of lanes. -/

namespace Sys2Proof.Proofs

open Sys2Proof Sys2Proof.Machine Sys2Proof.Claims Sys2Proof.Laws

/-! ### Rows and retirement -/

section Rows

variable {s : State} {c : CellIx}

theorem exec_ceLimitReached {row : Fin 16384} (hup : s.up = true) (hon : (s.cell c).ceLimit ≠ 0)
    (hlimit : (s.cell c).ceLimit.toNat ≤ (SMap.getD (s.cell c).rows.ce row.val 0).toNat)
    (hnew : row.val ∉ (s.cell c).rows.due) :
    exec (.ceLimitReached c row) s = .next (s.ceLimitReached c row.val) := by
  show execCeLimitReached c row s = _
  unfold execCeLimitReached
  simp only []
  rw [onlyIf_true _ _ _ (by rw [hup, decide_eq_true hon, decide_eq_true hlimit, decide_eq_true hnew]; rfl)]

/-- `s` with a remap of row `row` of cell `c` due. -/
def withDue (s : State) (c : CellIx) (row : Nat) : State :=
  s.modCell c (fun x => { x with rows := { x.rows with due := x.rows.due ++ [row] } })

theorem withDue_sparesFree (s : State) (c : CellIx) (row : Nat) : (withDue s c row).sparesFree c = s.sparesFree c := by
  unfold State.sparesFree
  rw [withDue, State.cell_modCell]
  rfl

theorem ceLimitReached_eq (s : State) (c : CellIx) (row : Nat) :
    s.ceLimitReached c row = if s.sparesFree c = 0 then (withDue s c row).requestRetire c else withDue s c row := by
  rw [← withDue_sparesFree s c row]
  rfl

/-- The row comes due, and the cell asks to be retired when no spare row is free (R307, R311). -/
theorem ceLimitReached_facts (s : State) (c : CellIx) (row : Nat) :
    let x := s.cell c
    let t := s.ceLimitReached c row
    (∀ d, d ≠ c → t.cell d = s.cell d) ∧
      t.cell c = { x with
        rows := { x.rows with due := x.rows.due ++ [row] }
        cnt := (t.cell c).cnt
        retireReq := x.retireReq || decide (s.sparesFree c = 0) } := by
  intro x t
  have hdue : (withDue s c row).cell c = { x with rows := { x.rows with due := x.rows.due ++ [row] } } := State.cell_modCell _ _ _
  have hother (d : CellIx) (hd : d ≠ c) : (withDue s c row).cell d = s.cell d := State.cell_modCell_ne _ _ _ _ hd
  have ht : t = _ := ceLimitReached_eq s c row
  by_cases hfull : s.sparesFree c = 0
  · rw [if_pos hfull] at ht
    obtain ⟨k, hk⟩ := ReliabilityLaws.requestRetire_cell (withDue s c row) c
    rw [ht, hk, hdue, decide_eq_true hfull, Bool.or_true]
    exact ⟨fun d hd => (ReliabilityLaws.requestRetire_other _ c d hd).trans (hother d hd), rfl⟩
  · rw [if_neg hfull] at ht
    rw [ht, hdue, decide_eq_false hfull, Bool.or_false]
    exact ⟨hother, rfl⟩

theorem exec_fieldRemap {row : Fin 16384} (hup : s.cellUp c = true) (hdue : row.val ∈ (s.cell c).rows.due)
    (hrest : (s.cell c).quiescent = true) (hspare : 0 < s.sparesFree c) :
    exec (.fieldRemap c row) s = .next (s.remapRow c row.val) := by
  show execFieldRemap c row s = _
  unfold execFieldRemap
  rw [onlyIf_true _ _ _ (by rw [hup, decide_eq_true hdue, hrest, decide_eq_true hspare]; rfl)]

/-- The row map and the counts of a cell whose row `row` goes to the next spare row, `spare` (R307, R308). -/
def remapped (x : Rows) (row spare : Nat) : Rows :=
  { x with map := SMap.set x.map row spare, ce := SMap.put x.ce row 0 0, due := x.due.erase row, field := x.field + 1 }

/-- `s` with row `row` of cell `c` on its next spare row, before the change is saved. -/
def withRemap (s : State) (c : CellIx) (row : Nat) : State :=
  s.modCell c (fun x => { x with rows := remapped x.rows row (16384 + s.rowsMappedTest c + x.rows.field) })

theorem remapped_map (x : Rows) (row spare : Nat) : SMap.get? (remapped x row spare).map row = some spare :=
  ReliabilityLaws.get_mk _ _ _

theorem remapped_count (x : Rows) (row spare : Nat) : SMap.getD (remapped x row spare).ce row 0 = 0 := by
  unfold remapped
  rw [SMap.getD_put, if_pos rfl]

/-- A remap changes the rows' record and the cause of the cell, and starts a save (R307, R308, R591). -/
theorem remapRow_facts (s : State) (c : CellIx) (row : Nat) :
    let x := s.cell c
    let t := s.remapRow c row
    (∀ d, d ≠ c → t.cell d = s.cell d) ∧
      t.cell c = { x with
        rows := remapped x.rows row (16384 + s.rowsMappedTest c + x.rows.field)
        cnt := { x.cnt with lastCause := 2 } } ∧
      t.dict.saving.isSome = true := by
  intro x t
  have ht : t = (withRemap s c row).saveRecord.relCell c 2 := rfl
  rw [ht]
  refine ⟨fun d hd => ?_, ?_, ReliabilityLaws.saveRecord_saving _⟩
  · rw [ReliabilityLaws.relCell_other _ _ _ hd, ReliabilityLaws.saveRecord_cell]
    exact State.cell_modCell_ne _ _ _ _ hd
  · rw [ReliabilityLaws.relCell_cell', ReliabilityLaws.saveRecord_cell, withRemap, State.cell_modCell]

theorem exec_retirementRequest (hup : s.up = true) (hretires : (s.cell c).retires = true) :
    exec (.retirementRequest c) s = .next (s.requestRetire c) := by
  show execRetirementRequest c s = _
  unfold execRetirementRequest
  simp only []
  rw [onlyIf_true _ _ _ (by rw [hup, hretires]; rfl)]

end Rows

/-! ### Dies -/

/-- A change of a die's counters leaves the other die. -/
theorem modDie_die (s : State) {d : Nat} (hd : d < 2) (g : DieCounters → DieCounters) :
    (s.modDie d g).mem.die d = g (s.mem.die d) ∧ (s.modDie d g).mem.die (1 - d) = s.mem.die (1 - d) ∧
      (s.modDie d g).mem.mem = s.mem.mem ∧ (s.modDie d g).mem.lost = s.mem.lost := by
  obtain rfl | rfl : d = 0 ∨ d = 1 := by omega
  · exact ⟨rfl, rfl, rfl, rfl⟩
  · exact ⟨rfl, rfl, rfl, rfl⟩

/-! ### The patrol -/

section Patrol

variable {s : State} {u : Nat} {e : List UnitFlip}

/-- What the patrol does to a unit it reads, by what it meets (R501 to R503). -/
def patrolled (s : State) (u : Nat) (r : ReadErr) : State :=
  match r with
  | .clean => s
  | .corrected => s.unitCorrected u
  | _ => s.unitLost none u

/-- The patrol reads its unit through the FIFO of its channel. -/
theorem exec_patrol (hup : s.fabricUp = true) (hhours : s.devParam 0x4000 0x0D 24 ≠ 0) (hin : 64 * u < s.mem.bytes)
    {r : ReadErr} (hr : s.mem.unitErr u e = r) :
    exec (.patrol u e) s = .next (patrolled (s.passUnits false [u] e) u r) := by
  show execPatrol u e s = _
  unfold execPatrol
  rw [onlyIf_true _ _ _ (by rw [hup, decide_eq_true hhours, decide_eq_true hin]; rfl)]
  have hmem : (s.passUnits false [u] e).mem = s.mem := rfl
  simp only [hmem, hr]
  cases r with
  | clean => rfl
  | corrected => rfl
  | uncorrectable => rfl
  | lost => rfl

theorem readErr_cases (r : ReadErr) : r = .clean ∨ r = .corrected ∨ (r = .uncorrectable ∨ r = .lost) := by
  cases r with
  | clean => exact .inl rfl
  | corrected => exact .inr (.inl rfl)
  | uncorrectable => exact .inr (.inr (.inl rfl))
  | lost => exact .inr (.inr (.inr rfl))

theorem patrolled_gone (s : State) (u : Nat) {r : ReadErr} (h : r = .uncorrectable ∨ r = .lost) :
    patrolled s u r = s.unitLost none u := by
  rcases h with rfl | rfl
  · rfl
  · rfl

/-- A unit that cannot be corrected is counted at its die, recorded as lost, and its die's source fires (R502, R620). -/
theorem unitLost_facts (s : State) (u : Nat) :
    let d := u / 64 % 2
    let t := s.unitLost none u
    t.cells = s.cells ∧ t.mem.mem = s.mem.mem ∧ t.mem.die (1 - d) = s.mem.die (1 - d) ∧
      t.mem.die d = { s.mem.die d with ueTotal := (s.mem.die d).ueTotal + 1, lastCause := 7 } ∧ u ∈ t.mem.lost ∧
      t.evc = s.evc.fireStatus (srcDieRel d) := by
  intro d t
  obtain ⟨hdie, hother, hmem, -⟩ := modDie_die s (Nat.mod_lt _ (by decide) : d < 2)
    (fun x => { x with ueTotal := x.ueTotal + 1, lastCause := 7 })
  refine ⟨State.modDie_cells _ _ _, hmem, hother, hdie, ?_, ?_⟩
  · show u ∈ if u ∈ (s.modDie d _).mem.lost then (s.modDie d _).mem.lost else (s.modDie d _).mem.lost ++ [u]
    split
    · assumption
    · exact List.mem_append_right _ List.mem_cons_self
  · exact congrArg (Evc.fireStatus · (srcDieRel d)) (State.modDie_evc s d _)

end Patrol

/-! ### Lane repair -/

section Lanes

/-- The modules that are down after a repair of module `k` that succeeded or not (R619). -/
def withModule (s : State) (k : Nat) (ok : Bool) : State :=
  if ok then s else { s with net := { s.net with modsDown := (s.net.modsDown ++ [k]).dedup } }

theorem mem_withModule_modsDown (s : State) (k : Nat) (ok : Bool) (j : Nat) :
    j ∈ (withModule s k ok).net.modsDown ↔ j ∈ s.net.modsDown ∨ (ok = false ∧ j = k) := by
  cases ok with
  | true => simp [withModule]
  | false => simp [withModule]

theorem withModule_frame (s : State) (k : Nat) (ok : Bool) :
    (withModule s k ok).cells = s.cells ∧ (withModule s k ok).mem = s.mem ∧ (withModule s k ok).evc = s.evc ∧
      (withModule s k ok).net = { s.net with modsDown := (withModule s k ok).net.modsDown } := by
  cases ok with
  | true => exact ⟨rfl, rfl, rfl, rfl⟩
  | false => exact ⟨rfl, rfl, rfl, rfl⟩

/-- What a die counts of a repair (R626). -/
def laneCounted (n : Nat) (ok : Bool) (d : DieCounters) : DieCounters :=
  if ok then { d with lanesRepaired := d.lanesRepaired + BitVec.ofNat 8 n, lastCause := 8 }
  else { d with modulesDown := d.modulesDown + 1, lastCause := 8 }

/-- A repair counts at its die, and the die's source fires (R619, R626). -/
def laneRepaired (s : State) (die k n : Nat) (ok : Bool) : State :=
  ((withModule s k ok).modDie die (laneCounted n ok)).fireStatus (srcDieRel die)

theorem laneRepaired_net (s : State) (die k n : Nat) (ok : Bool) : (laneRepaired s die k n ok).net = (withModule s k ok).net :=
  State.modDie_net _ _ _

theorem laneRepaired_facts (s : State) {die : Nat} (hdie : die < 2) (k n : Nat) (ok : Bool) :
    let t := laneRepaired s die k n ok
    t.cells = s.cells ∧ t.evc = s.evc.fireStatus (srcDieRel die) ∧ t.mem.die (1 - die) = s.mem.die (1 - die) ∧
      t.mem.die die = laneCounted n ok (s.mem.die die) := by
  obtain ⟨hcells, hmem, hevc, -⟩ := withModule_frame s k ok
  obtain ⟨hself, hother, -, -⟩ := modDie_die (withModule s k ok) hdie (laneCounted n ok)
  rw [hmem] at hself hother
  exact ⟨(State.modDie_cells _ _ _).trans hcells,
    congrArg (Evc.fireStatus · (srcDieRel die)) ((State.modDie_evc _ _ _).trans hevc), hother, hself⟩

theorem exec_ucieLaneRepair {s : State} (die : Fin 2) (mod : Fin 5) (n : Nat) (ok : Bool) (hon : s.pwr.on = true) :
    exec (.ucieLaneRepair die mod n ok) s = .next (laneRepaired s die.val (5 * die.val + mod.val) n ok) :=
  congrArg Host.Outcome.next (onlyIf_true _ _ _ hon)

end Lanes

/-- Settles O30: rows and requests by the record of the cell, the patrol by what the code makes of the unit, and a repair by the
modules and the die. -/
theorem rowsRetirementAndRepair : Obligations.RowsRetirementAndRepair := by
  unfold Obligations.RowsRetirementAndRepair
  refine ⟨fun s c row => ?rows, fun s u e hup hhours hin => ?patrol, fun s die mod n ok hon => ?lanes⟩
  case rows =>
    intro x
    refine ⟨fun hup hon hlimit hnew => ?_, fun hup hdue hrest hspare => ?_, fun hup hretires => ?_⟩
    · obtain ⟨hother, hcell⟩ := ceLimitReached_facts s c row.val
      exact ⟨_, exec_ceLimitReached hup hon hlimit hnew, hother, hcell⟩
    · obtain ⟨hother, hcell, hsave⟩ := remapRow_facts s c row.val
      refine ⟨_, exec_fieldRemap hup hdue hrest hspare, hother, ?_⟩
      rw [hcell]
      exact ⟨rfl, remapped_map _ _ _, remapped_count _ _ _, rfl, rfl, rfl, hsave⟩
    · obtain ⟨k, hk⟩ := ReliabilityLaws.requestRetire_cell s c
      refine ⟨_, exec_retirementRequest hup hretires, ReliabilityLaws.requestRetire_other s c, ?_,
        ReliabilityLaws.requestRetire_mem s c⟩
      rw [hk]
  case patrol =>
    intro d r
    have hexec := exec_patrol (e := e) (r := r) hup hhours hin rfl
    rcases readErr_cases r with hr | hr | hr
    · rw [hr] at hexec ⊢
      exact ⟨_, hexec, rfl, rfl, rfl, fun _ => rfl, fun h => absurd h (by decide), fun h => absurd h (by decide)⟩
    · rw [hr] at hexec ⊢
      obtain ⟨hdie, hother, hmem, hlost⟩ := modDie_die (s.passUnits false [u] e) (Nat.mod_lt _ (by decide) : d < 2)
        (fun x => { x with ceTotal := x.ceTotal + 1 })
      exact ⟨_, hexec, State.modDie_cells _ _ _, hmem, hother, fun h => absurd h (by decide), fun _ => ⟨hdie, hlost⟩,
        fun h => absurd h (by decide)⟩
    · rw [patrolled_gone _ _ hr] at hexec
      obtain ⟨hcells, hmem, hother, hdie, hlost, hevc⟩ := unitLost_facts (s.passUnits false [u] e) u
      refine ⟨_, hexec, hcells, hmem, hother, fun h => ?_, fun h => ?_, fun _ => ⟨hdie, hlost, hevc⟩⟩
      · rw [h] at hr
        exact absurd hr (by decide)
      · rw [h] at hr
        exact absurd hr (by decide)
  case lanes =>
    intro d k
    obtain ⟨-, -, -, hnet⟩ := withModule_frame s k ok
    obtain ⟨hcells, hevc, hother, hself⟩ := laneRepaired_facts s die.isLt k n ok
    refine ⟨_, exec_ucieLaneRepair die mod n ok hon, hcells, ?_, fun j => ?_, hevc, hother, hself⟩
    · rw [laneRepaired_net]
      exact hnet
    · rw [laneRepaired_net]
      exact mem_withModule_modsDown s k ok j

end Sys2Proof.Proofs

/-! PROOFS. What the queues do of themselves, and the operations on sync objects with the waiters that they release. -/

namespace Sys2Proof.Proofs

open Sys2Proof Sys2Proof.Machine Sys2Proof.Claims Sys2Proof.Laws

/-! ### Filling, flushing and stranding a queue -/

section Queues

variable {depth : Nat} {now : Word} {q : Queue}

theorem fill_inflow (h : q.flushing = false) :
    (Queue.fill depth now q).inflow = q.inflow.drop (depth - q.items.length) := by
  unfold Queue.fill
  simp only [h, Bool.false_eq_true, if_false]
  split <;> rfl

/-- Items that enter neither end a flush nor count as discarded. -/
theorem fill_flushing_discarded (depth : Nat) (now : Word) (q : Queue) :
    (Queue.fill depth now q).flushing = q.flushing ∧ (Queue.fill depth now q).discarded = q.discarded := by
  unfold Queue.fill
  extract_lets n q'
  split
  · exact ⟨rfl, rfl⟩
  · split <;> exact ⟨rfl, rfl⟩

/-- At the EOP `e` of the discarded packet a flush is over: the packet's items are counted and what follows enters (R350). -/
theorem flushDone_of_eop {p : List QItem} {e : QItem} {l : List QItem} (hflush : q.flushing = true)
    (hin : q.inflow = p ++ e :: l) (hp : ∀ i ∈ p, i.eop = false) (he : e.eop = true) :
    Queue.flushDone depth now q =
      Queue.fill depth now { q with inflow := l, discarded := sat16 q.discarded (p.length + 1), flushing := false } := by
  have hany : q.inflow.any (·.eop) = true := List.any_eq_true.mpr ⟨e, by rw [hin]; simp, he⟩
  unfold Queue.flushDone
  rw [if_pos (by rw [hflush, hany]; rfl), hin, WindowLaws.splitEop_at p e l hp he]
  simp only [List.length_append, List.length_singleton]

/-- A timer that has run for QTMO, where QTMO is not 0, is due (R354). -/
theorem tailDue_of_elapsed {since : Word} {qtmo : Nat} (htimer : q.timer = some since) (hon : qtmo ≠ 0)
    (hdue : qtmo ≤ (now - since).toNat) : q.tailDue now qtmo = true := by
  unfold Queue.tailDue
  rw [htimer, decide_eq_true hon]
  exact decide_eq_true hdue

end Queues

/-! ### The queues of a cell and HIQ -/

section QueueCommands

variable {s : State} {q : QueueId} {c : CellIx}

theorem exec_queueFlushComplete (hup : s.queueUp q = true) : exec (.queueFlushComplete q) s = .next (s.flushDone q) :=
  congrArg Host.Outcome.next (onlyIf_true _ _ _ hup)

theorem exec_queueEnqueueResume (hup : s.queueUp q = true) : exec (.queueEnqueueResume q) s = .next (s.enqueueMore q) :=
  congrArg Host.Outcome.next (onlyIf_true _ _ _ hup)

theorem exec_queueTail (hup : s.queueUp q = true) : exec (.queueTail q) s = .next (s.queueTail q) :=
  congrArg Host.Outcome.next (onlyIf_true _ _ _ hup)

theorem flushDone_cmd (s : State) (c : CellIx) :
    s.flushDone (.cmd c) = s.setCell c { s.cell c with cmdq := Queue.flushDone 64 s.runTime (s.cell c).cmdq } :=
  rfl

/-- No item enters a queue of a cell that is being scrubbed (R331). -/
theorem enqueueMore_cmd (hscrub : (s.cell c).scrubbing = false) :
    s.enqueueMore (.cmd c) = s.setCell c { s.cell c with cmdq := Queue.fill 64 s.runTime (s.cell c).cmdq } :=
  congrArg (s.setCell c) (if_neg (ne_true_of_eq_false hscrub))

theorem enqueueMore_rpl (hscrub : (s.cell c).scrubbing = false) :
    s.enqueueMore (.rpl c) = s.setCell c ((s.cell c).fillRpl s.runTime) :=
  congrArg (s.setCell c) (if_neg (ne_true_of_eq_false hscrub))

theorem onlyCell_setCell (s : State) (c : CellIx) (x : Cell) : OnlyCell s c (s.setCell c x) :=
  OnlyCell_modCell s c (fun _ => x)

/-- A CMD queue that is due strands, and a status source fires (R354). -/
theorem queueTail_cmd (hdue : (s.cell c).cmdq.tailDue s.runTime (s.cell c).cmdQtmo.toNat = true) :
    s.queueTail (.cmd c) = (s.setCell c { s.cell c with cmdq := (s.cell c).cmdq.strand }).fireCell 4 c :=
  if_pos hdue

/-- HIQ strands as a cell's queue does, and its own status source fires (R354). -/
theorem queueTail_hiq (hdue : s.evc.hiq.tailDue s.runTime s.evc.hiqQtmo.toNat = true) :
    s.queueTail .hiq = ({ s with evc := { s.evc with hiq := s.evc.hiq.strand } } : State).fireStatus srcHiqTail :=
  if_pos hdue

theorem fireCell_cell (s : State) (k : Nat) (c d : CellIx) : (s.fireCell k c).cell d = s.cell d :=
  cell_of_cells (fireStatus_cells s _) d

end QueueCommands

/-- Settles O18: each event is one operation on its queue, whose facts are stated above. -/
theorem queueEvents : Obligations.QueueEvents := by
  unfold Obligations.QueueEvents
  intro s c hup x now
  refine ⟨fun p e l hflush hitems hin hp he => ?flushComplete, fun hscrub hflush => ?enqueueCmd,
    fun hscrub hflush hown => ?enqueueRpl, fun since htimer hon hle => ?tailCmd, fun since htimer hon hle hhost => ?tailHiq⟩
  case flushComplete =>
    refine ⟨_, exec_queueFlushComplete hup, onlyCell_setCell _ _ _, ?_⟩
    rw [flushDone_cmd, flushDone_of_eop hflush hin hp he, State.cell_setCell]
    obtain ⟨hdone, hdiscarded⟩ := fill_flushing_discarded 64 s.runTime
      { x.cmdq with inflow := l, discarded := sat16 x.cmdq.discarded (p.length + 1), flushing := false }
    refine ⟨hdone, ?_, ?_, hdiscarded⟩
    · rw [fill_items _ _ _ rfl, hitems]
      rfl
    · rw [fill_inflow rfl, hitems]
      rfl
  case enqueueCmd =>
    refine ⟨_, exec_queueEnqueueResume hup, ?_⟩
    rw [enqueueMore_cmd hscrub, State.cell_setCell]
    exact ⟨onlyCell_setCell _ _ _, fill_items 64 _ _ hflush, fill_inflow hflush⟩
  case enqueueRpl =>
    refine ⟨_, exec_queueEnqueueResume hup, ?_⟩
    rw [enqueueMore_rpl hscrub, State.cell_setCell]
    exact ⟨onlyCell_setCell _ _ _, rplFill_same s.runTime x.job.toNat _ x.rplq hflush hown (Nat.le_refl _)⟩
  case tailCmd =>
    refine ⟨_, exec_queueTail hup, ?_, fun d hd => ?_⟩ <;>
      rw [queueTail_cmd (tailDue_of_elapsed htimer (BitVec.toNat_ne_iff_ne.mpr hon) hle), fireCell_cell]
    · exact State.cell_setCell _ _ _
    · exact State.cell_setCell_ne _ _ _ _ hd
  case tailHiq =>
    refine ⟨_, exec_queueTail hhost, ?_⟩
    rw [queueTail_hiq (tailDue_of_elapsed htimer (BitVec.toNat_ne_iff_ne.mpr hon) hle)]
    exact ⟨fireStatus_cells _ _, evc_fireStatus_hiq _ _⟩

/-! ### The operations on sync objects

The condition of a waiting operation, by the type of its object (R363, R365). -/

theorem counter_holds_waitGe (n v : Word) (f : Bool) : (SyncObj.counter n f).holds 3 v = decide (v.toNat ≤ n.toNat) :=
  rfl

theorem barrier_holds_waitGen (n a g : BitVec 32) (v : Word) :
    (SyncObj.barrier n a g).holds 6 v = decide (n = 0 ∨ g ≠ v.setWidth 32) :=
  rfl

theorem flag_holds_waitSet (b : Bool) (v : Word) : (SyncObj.flag b).holds 9 v = b :=
  Bool.or_false b

theorem flag_holds_waitClear (b : Bool) (v : Word) : (SyncObj.flag b).holds 10 v = !b :=
  rfl

/-- A waiting operation that the object `o` takes is answered where its condition holds, and waits where it does not. -/
theorem wait_by_condition {s : State} {m : Msg} {o : SyncObj} {i : Instr} {op : Nat} (hready : SyncLaws.Ready s m)
    (ho : s.syncObj m.obj = o) (hi : exec i s = .next (s.syncArrives m op)) (hwait : op = 3 ∨ op = 6 ∨ op = 9 ∨ op = 10)
    (hop : m.syncOp = op) (hacc : o.accepts op = true) :
    (o.holds op (BitVec.ofNat 64 m.value) = true → SyncLaws.Answers s m i o.value) ∧
      (o.holds op (BitVec.ofNat 64 m.value) = false → SyncLaws.Waits s m i) := by
  subst ho
  exact SyncLaws.so_wait hready i op hi hwait hop hacc

/-- Settles O26: each operation by the type of its object, and one that may wait by its condition. -/
theorem syncOperations : Obligations.SyncOperations := by
  unfold Obligations.SyncOperations
  intro s m hreq hdepth hepoch hok o v sets waits answers
  have hready : SyncLaws.Ready s m := ⟨hreq, hdepth, hepoch, hok⟩
  refine ⟨fun hop => ?read, fun hop => ?init, fun n f (ho : s.syncObj m.obj = _) => ?counter,
    fun n a g (ho : s.syncObj m.obj = _) => ?barrier, fun b (ho : s.syncObj m.obj = _) => ?flag⟩
  case read =>
    have hread : answers (.syncRead m) o.readValue := SyncLaws.so_read hready hop
    clear_value o
    cases o <;> exact hread
  case init =>
    have hinit := SyncLaws.so_init hready hop
    rw [SyncLaws.init_eq] at hinit
    exact hinit
  case counter =>
    refine ⟨fun hop => SyncLaws.so_add hready hop ho, fun hop => ?_⟩
    obtain ⟨hanswers, hwaits⟩ := wait_by_condition hready ho (i := .syncWaitGe m) (op := 3) rfl (by decide) hop rfl
    rw [counter_holds_waitGe] at hanswers hwaits
    exact ⟨fun hle => hanswers (decide_eq_true hle), fun hlt => hwaits (decide_eq_false (Nat.not_le.mpr hlt))⟩
  case barrier =>
    have harrive : (s.syncObj m.obj).arrive =
        if n = 0 then o else if a + 1 = n then .barrier n 0 (g + 1) else .barrier n (a + 1) g := by
      rw [show o = .barrier n a g from ho, ho]
      rfl
    refine ⟨fun hop => harrive ▸ SyncLaws.so_arrive hready hop ho, fun hop => harrive ▸ SyncLaws.so_arriveWait hready hop ho,
      fun hop => ?_⟩
    obtain ⟨hanswers, hwaits⟩ := wait_by_condition hready ho (i := .syncWaitGen m) (op := 6) rfl (by decide) hop rfl
    rw [barrier_holds_waitGen] at hanswers hwaits
    exact ⟨fun hgone => hanswers (decide_eq_true hgone),
      fun hn hg => hwaits (decide_eq_false (not_or.mpr ⟨hn, not_not.mpr hg⟩))⟩
  case flag =>
    obtain ⟨hset, hclear⟩ := SyncLaws.so_flag hready ho
    refine ⟨hset, hclear, fun hop => ?_, fun hop => ?_⟩
    · obtain ⟨hanswers, hwaits⟩ := wait_by_condition hready ho (i := .syncWaitSet m) (op := 9) rfl (by decide) hop rfl
      rw [flag_holds_waitSet] at hanswers hwaits
      refine ⟨fun hb => ?_, hwaits⟩
      subst hb
      exact hanswers rfl
    · obtain ⟨hanswers, hwaits⟩ := wait_by_condition hready ho (i := .syncWaitClear m) (op := 10) rfl (by decide) hop rfl
      rw [flag_holds_waitClear] at hanswers hwaits
      refine ⟨fun hb => ?_, fun hb => hwaits (congrArg not hb)⟩
      subst hb
      exact hanswers rfl

/-! ### The waiters that an operation releases -/

/-- `t` is what `b` becomes when the waiters of the object of `m` are released, of which some may have begun to wait just before. -/
def Releases (b : State) (m : Msg) (t : State) : Prop :=
  ∃ (z : State) (k : List Waiter), SyncLaws.syncPart t = SyncLaws.syncPart (z.releaseWaiters m.obj) ∧
    z.waiters = b.waiters ++ k ∧ ∀ w ∈ k, w.obj = m.obj

section Releases

variable {b : State} {m : Msg}

/-- An acknowledgement (R371) begins no wait. -/
theorem releases_acked {z : State} (v : Word) (hz : z.waiters = b.waiters) :
    Releases b m ((if m.ack = true then z.syncReply m ccOk v else z).releaseWaiters m.obj) :=
  ⟨_, [], rfl, by rw [SyncLaws.doneWaiters, hz, List.append_nil], fun _ h => nomatch h⟩

theorem applySync_init_releases (hop : m.syncOp = 0x1) : Releases b m (b.applySync m) := by
  simp only [State.applySync, hop, Nat.reduceEqDiff, if_true, if_false]
  exact releases_acked _ rfl

theorem applySync_add_releases (hop : m.syncOp = 0x2) {n : Word} {f : Bool} (ho : b.syncObj m.obj = .counter n f) :
    Releases b m (b.applySync m) := by
  simp only [State.applySync, hop, ho, Nat.reduceEqDiff, if_true, if_false]
  apply releases_acked
  split
  · exact State.modDie_waiters _ _ _
  · rfl

theorem applySync_arrive_releases (hop : m.syncOp = 0x4) : Releases b m (b.applySync m) := by
  simp only [State.applySync, hop, Nat.reduceEqDiff, if_true, if_false]
  exact releases_acked _ rfl

/-- ARRIVE_WAIT that completes the barrier is answered after the others; one that does not is the last waiter of its object. -/
theorem applySync_arriveWait_releases (hop : m.syncOp = 0x5) : Releases b m (b.applySync m) := by
  simp only [State.applySync, hop, Nat.reduceEqDiff, if_true, if_false]
  split
  · exact ⟨_, [], SyncLaws.replySync_part _ _ _ _ _, (List.append_nil _).symm, fun _ h => nomatch h⟩
  · obtain ⟨hpart, -⟩ := SyncLaws.addWaiter_part (b.setSync m.obj (b.syncObj m.obj).arrive) (m.waiter (b.syncObj m.obj).value)
    refine ⟨_, [m.waiter (b.syncObj m.obj).value], rfl, congrArg (·.2.2) hpart, fun w hw => ?_⟩
    rw [List.mem_singleton.mp hw]
    rfl

theorem applySync_set_releases (hop : m.syncOp = 0x7) : Releases b m (b.applySync m) := by
  simp only [State.applySync, hop, Nat.reduceEqDiff, if_true, if_false]
  exact releases_acked _ rfl

theorem applySync_clear_releases (hop : m.syncOp = 0x8) : Releases b m (b.applySync m) := by
  simp only [State.applySync, hop, Nat.reduceEqDiff, if_true, if_false]
  exact releases_acked _ rfl

end Releases

/-- Only a counter takes ADD (R364). -/
theorem counter_of_accepts_add {o : SyncObj} (h : o.accepts 2 = true) : ∃ n f, o = .counter n f := by
  cases o with
  | counter n f => exact ⟨n, f, rfl⟩
  | none => cases h
  | barrier n a g => cases h
  | flag b => cases h

/-- The operations that change an object. -/
def changesObject (op : Nat) : Prop := op = 0x1 ∨ op = 0x2 ∨ op = 0x4 ∨ op = 0x5 ∨ op = 0x7 ∨ op = 0x8

theorem applySync_releases {b : State} {m : Msg} (hop : changesObject m.syncOp)
    (hacc : m.syncOp = 0x1 ∨ (b.syncObj m.obj).accepts m.syncOp = true) : Releases b m (b.applySync m) := by
  rcases hop with h | h | h | h | h | h
  · exact applySync_init_releases h
  · rw [h] at hacc
    obtain ⟨n, f, ho⟩ := counter_of_accepts_add (hacc.resolve_left (by decide))
    exact applySync_add_releases h ho
  · exact applySync_arrive_releases h
  · exact applySync_arriveWait_releases h
  · exact applySync_set_releases h
  · exact applySync_clear_releases h

/-- An operation that the type of its object does not take is at most answered with BAD_DESC (R364). -/
theorem syncArrives_refused {s : State} {m : Msg} (hreq : s.requestOk m 0x05 = true) (hdepth : UA.depth m.dest = 0)
    (hepoch : m.epoch = s.epochOf m.dest) (hop : 1 < m.syncOp) (hacc : (s.syncObj m.obj).accepts m.syncOp = false) :
    SyncLaws.syncPart (s.syncArrives m m.syncOp) = SyncLaws.syncPart s := by
  have hrefused : (!m.syncOk || !(decide (m.syncOp ≤ 1) || (((s.takeMsg m).received m).syncObj m.obj).accepts m.syncOp)) = true := by
    rw [decide_eq_false (by omega), show ((s.takeMsg m).received m).syncObj m.obj = s.syncObj m.obj from rfl, hacc]
    exact Bool.or_true _
  unfold State.syncArrives
  rw [onlyIf_true _ _ _ (by rw [hreq, decide_eq_true (.inl rfl)]; rfl), arrival_ok _ _ _ hepoch, if_pos hdepth]
  unfold State.syncOp
  simp only [hrefused, if_true]
  split
  · exact SyncLaws.syncReply_part _ _ _ _
  · rfl

/-- Each of the six instructions is the arrival of its operation. -/
theorem changingInstr_cases {m : Msg} {i : Instr} {op : Nat}
    (h : (i, op) ∈ [(Instr.syncInit m, 0x1), (.syncAdd m, 0x2), (.syncArrive m, 0x4), (.syncArriveWait m, 0x5),
      (.syncSet m, 0x7), (.syncClear m, 0x8)]) :
    changesObject op ∧ ∀ s, exec i s = .next (s.syncArrives m op) := by
  simp only [List.mem_cons, List.not_mem_nil, or_false, Prod.mk.injEq] at h
  obtain ⟨rfl, rfl⟩ | ⟨rfl, rfl⟩ | ⟨rfl, rfl⟩ | ⟨rfl, rfl⟩ | ⟨rfl, rfl⟩ | ⟨rfl, rfl⟩ := h <;>
    exact ⟨by unfold changesObject; decide, fun _ => rfl⟩

/-- Settles O27: an operation that its object takes ends with the release of the object's waiters, and one that it does not take
is refused. -/
theorem syncReleasesItsWaiters : Obligations.SyncReleasesItsWaiters := by
  unfold Obligations.SyncReleasesItsWaiters
  intro s m i op hmem hreq hdepth hepoch hop
  obtain ⟨hchanges, hexec⟩ := changingInstr_cases hmem
  subst hop
  refine ⟨fun hok hacc => ?taken, fun hne hacc => ?refused⟩
  case taken =>
    have harrives := SyncLaws.syncArrives_ok s m m.syncOp hreq hdepth hepoch hok rfl (hacc.imp_left Nat.le_of_eq)
    rw [← SyncLaws.base_obj s m m.obj] at hacc
    obtain ⟨z, k, hpart, hwaiters, hk⟩ := applySync_releases hchanges hacc
    have hrel := SyncLaws.rel_of z _ hpart k hwaiters hk
    obtain ⟨-, -, hbase⟩ := SyncLaws.base_facts s m
    rw [hbase] at hrel
    exact ⟨_, harrives ▸ hexec s, hrel⟩
  case refused =>
    have hlt : 1 < m.syncOp := by unfold changesObject at hchanges; omega
    obtain ⟨hcells, hsync, hwaiters⟩ := SyncLaws.part_split (syncArrives_refused hreq hdepth hepoch hlt hacc)
    exact ⟨_, hexec s, hsync, hwaiters, hcells⟩

end Sys2Proof.Proofs

/-! PROOFS. Submission entries, KILL and CUT entries, and jobs from their start to their end. -/

namespace Sys2Proof.Proofs

open Sys2Proof Sys2Proof.Machine Sys2Proof.Claims Sys2Proof.Laws Sys2Proof.Laws.DriverLaws

/-! ### JOB entries -/

section JobEntries

variable {s : State} {d : Desc} {tab : List Word}

/-- A JOB entry, or one of an invalid KIND, acts at once on a stream with nothing before it (R383). -/
theorem exec_jobEntry {st : Fin 8} {e : List Word} (hcan : CanRead s st.val) (hidle : s.streamBusy st.val = false)
    (hqueue : ∀ q ∈ s.drv.queue, q.stream ≠ st.val)
    (hkind : ¬ (Desc.kind e = 2 ∨ Desc.kind e = 3 ∨ Desc.kind e = 4 ∨ Desc.kind e = 5)) :
    exec (.jobEntry st e tab) s = .next ((entryRead s st.val).beginJob st.val (e.take 8) tab [] []) := by
  show execJobEntry st e tab s = _
  unfold execJobEntry
  rw [if_neg hkind, seq_at hcan hidle hqueue]
  rfl

/-- A job that no KILL has matched and that fails a check completes with the check's code and layer (R389). -/
theorem beginJob_rejected {i : Nat} {cuts : List (Option (BitVec 16))} {x : Code × BitVec 32}
    (hfault : s.jobFault d tab = some x) :
    s.beginJob i d tab [] cuts = s.post i (s.noJob i d tab x.1 x.2 [] false) := by
  unfold State.beginJob
  simp only [ne_eq, not_true_eq_false, if_false, hfault]
  rfl

/-- The completion without a job of a JOB entry carries its APPTAG and GRAPH, and the class of its PREC words (R413, R409). -/
theorem noJob_of_job (i : Nat) (tab : List Word) (code : Code) (layer : BitVec 32) (killers : List Nat) (lost : Bool)
    (hkind : d.kind = 1) :
    s.noJob i d tab code layer killers lost =
      ⟨completionWords code 1 i lost 0 (BitVec.ofNat 32 (d.f 1 63 32)) (BitVec.ofNat 32 (d.f 1 31 0)) layer 0
        ({ exact := ((s.drv.graphs.find? (fun g => decide (g.handle.toNat = d.f 1 31 0) && !g.released)).elim tab
          (fun g => g.effective d tab)).all Prec.exact } : Ledger).words, killers⟩ := by
  unfold State.noJob
  rw [hkind]
  rfl

/-- `s` with a job accepted under the next identifier (R390). -/
def accepted (s : State) (j : JobRec) : State :=
  s.modDrv (fun v => { v with jobs := v.jobs ++ [j], nextJob := if v.nextJob = 0xFFFFFFFF then 1 else v.nextJob + 1 })

/-- A job that passes its checks and has no WAIT_GE is accepted, with its graph's effective PREC words, and sends nothing. -/
theorem beginJob_accepted {i : Nat} {cuts : List (Option (BitVec 16))} {g : GraphRec}
    (hgraph : s.drv.graphs.find? (fun g => decide (g.handle.toNat = d.f 1 31 0) && !g.released) = some g)
    (hfault : s.jobFault d tab = none) (hwait : d.bit 5 3 = false) :
    s.beginJob i d tab [] cuts = accepted s (jobOf s.drv.nextJob i d (g.effective d tab) cuts) := by
  have hnowait : (jobOf s.drv.nextJob i d (g.effective d tab) cuts).wait = none := by
    simp only [jobOf, hwait, Bool.false_eq_true, if_false]
  unfold State.beginJob
  simp only [ne_eq, not_true_eq_false, if_false, hfault, hgraph, Option.elim_some]
  unfold State.acceptJob
  simp only [hnowait]
  rfl

end JobEntries

/-! ### REGISTER and RELEASE entries -/

section GraphEntries

variable {s : State} {d : Desc} {i : Nat}

theorem exec_registerEntry {st : Fin 8} {e : List Word} {ts ls : List Desc} {room : Bool} (hcan : CanRead s st.val)
    (hidle : s.streamBusy st.val = false) (hqueue : ∀ q ∈ s.drv.queue, q.stream ≠ st.val) (hkind : Desc.kind e = 4)
    (hlengths : graphLengths d ts ls = true) :
    exec (.registerEntry st e d ts ls room) s =
      .next ((entryRead s st.val).beginRegister st.val (e.take 8) d ts ls room) := by
  show execRegisterEntry st e d ts ls room s = _
  unfold execRegisterEntry
  rw [onlyIf_true _ _ _ (by rw [decide_eq_true hkind, hlengths]; rfl), seq_at hcan hidle hqueue]
  rfl

theorem exec_releaseEntry {st : Fin 8} {e : List Word} (hcan : CanRead s st.val)
    (hidle : s.streamBusy st.val = false) (hqueue : ∀ q ∈ s.drv.queue, q.stream ≠ st.val) (hkind : Desc.kind e = 5) :
    exec (.releaseEntry st e) s = .next ((entryRead s st.val).beginRelease st.val (e.take 8)) := by
  show execReleaseEntry st e s = _
  unfold execReleaseEntry
  rw [onlyIf_true _ _ _ (decide_eq_true hkind), seq_at hcan hidle hqueue]
  rfl

/-- A graph that fails a check completes with the check's code and layer (R400). -/
theorem beginRegister_rejected {graph : Desc} {ts ls : List Desc} {room : Bool} {x : Code × BitVec 32}
    (hentry : d.fault 0x04 8 true = none) (hfault : s.graphFault graph ts ls room = some x) :
    s.beginRegister i d graph ts ls room = s.post i ⟨completionWords x.1 4 i false 0 0 0 x.2 0 noLedger, []⟩ := by
  unfold State.beginRegister
  simp only [hentry, hfault]

/-- `s` with a graph registered under the next handle (R401). -/
def registered (s : State) (ts ls : List Desc) : State :=
  s.modDrv (fun v => { v with
    graphs := v.graphs ++ [⟨v.nextHandle, ts, ls, false⟩],
    nextHandle := if v.nextHandle = 0xFFFFFFFF then 1 else v.nextHandle + 1 })

/-- A graph that passes is registered, and its entry completes with the handle. -/
theorem beginRegister_passes {graph : Desc} {ts ls : List Desc} {room : Bool}
    (hentry : d.fault 0x04 8 true = none) (hfault : s.graphFault graph ts ls room = none) :
    s.beginRegister i d graph ts ls room =
      (registered s ts ls).post i ⟨completionWords ccOk 4 i false 0 0 s.drv.nextHandle noLayer 0 noLedger, []⟩ := by
  unfold State.beginRegister
  simp only [hentry, hfault]
  rfl

/-- A RELEASE of a handle under which no graph stands registered completes with OK_EMPTY (R402). -/
theorem beginRelease_unknown (hentry : d.fault 0x05 8 true = none)
    (hnone : ∀ g ∈ s.drv.graphs, g.handle = BitVec.ofNat 32 (d.f 1 31 0) → g.released = true) :
    s.beginRelease i d =
      s.post i ⟨completionWords ccEmpty 5 i false 0 0 (BitVec.ofNat 32 (d.f 1 31 0)) noLayer 0 noLedger, []⟩ := by
  have hany : s.drv.graphs.any (fun g => decide (g.handle = BitVec.ofNat 32 (d.f 1 31 0)) && !g.released) = false := by
    simpa using hnone
  unfold State.beginRelease
  simp only [hentry, hany, Bool.false_eq_true, if_false]

/-- A graph after a RELEASE of handle `h`. -/
def releaseOf (h : BitVec 32) (g : GraphRec) : GraphRec := if g.handle = h then { g with released := true } else g

theorem releaseOf_released {h : BitVec 32} {g : GraphRec} (hh : (releaseOf h g).handle = h) :
    (releaseOf h g).released = true := by
  unfold releaseOf at hh ⊢
  split
  · rfl
  · next hne => exact absurd (by rwa [if_neg hne] at hh) hne

/-- `s` with the graphs of handle `h` released, and the entry of stream `i` waiting for their jobs (R402). -/
def releasing (s : State) (i : Nat) (h : BitVec 32) : State :=
  s.modDrv (fun v => { v with
    graphs := v.graphs.map (releaseOf h), waits := v.waits ++ [⟨v.nextWait, i, 5, 0, h⟩], nextWait := v.nextWait + 1 })

theorem beginRelease_known (hentry : d.fault 0x05 8 true = none) {g : GraphRec} (hg : g ∈ s.drv.graphs)
    (hhandle : g.handle = BitVec.ofNat 32 (d.f 1 31 0)) (hrel : g.released = false) :
    s.beginRelease i d = (releasing s i (BitVec.ofNat 32 (d.f 1 31 0))).settle := by
  have hany : s.drv.graphs.any (fun g => decide (g.handle = BitVec.ofNat 32 (d.f 1 31 0)) && !g.released) = true :=
    List.any_eq_true.mpr ⟨g, hg, by rw [decide_eq_true hhandle, hrel]; rfl⟩
  unfold State.beginRelease
  simp only [hentry, hany, if_true]
  rfl

end GraphEntries

/-- Settles O32: each entry acts on the state with it read, and is rejected, accepted, registered or released there. -/
theorem submissionEntries : Obligations.SubmissionEntries := by
  unfold Obligations.SubmissionEntries
  refine fun s st hcan hidle hqueue => ⟨?job, ?register, ?release⟩
  case job =>
    intro e tab hkill hcut hreg hrelease d
    have hexec := exec_jobEntry (tab := tab) hcan hidle hqueue (e := e) (by simp [hkill, hcut, hreg, hrelease])
    refine ⟨fun x hfault hkind => ?_, fun g hgraph hfault hwait => ?_⟩
    · rw [beginJob_rejected (s := entryRead s st.val) (d := d) hfault,
        noJob_of_job _ _ _ _ _ _ ((kind_take e).trans hkind)] at hexec
      exact ⟨_, hexec, rfl, posts_post _ _ _⟩
    · rw [beginJob_accepted (s := entryRead s st.val) (d := d) (tab := tab) hgraph hfault hwait] at hexec
      exact ⟨_, hexec, rfl⟩
  case register =>
    intro e d ts ls room hkind hentry hlengths
    have hexec := exec_registerEntry (room := room) hcan hidle hqueue hkind hlengths
    refine ⟨fun x hfault => ?_, fun hfault => ?_⟩
    · rw [beginRegister_rejected (s := entryRead s st.val) hentry hfault] at hexec
      exact ⟨_, hexec, rfl, posts_post _ _ _⟩
    · rw [beginRegister_passes (s := entryRead s st.val) hentry hfault] at hexec
      exact ⟨_, hexec, rfl, rfl⟩
  case release =>
    intro e hkind hentry h
    have hexec := exec_releaseEntry hcan hidle hqueue hkind
    refine ⟨fun hnone => ?_, fun g hg hhandle hrel => ?_⟩
    · rw [beginRelease_unknown (s := entryRead s st.val) hentry hnone] at hexec
      exact ⟨_, hexec, rfl, posts_post _ _ _⟩
    · rw [beginRelease_known (s := entryRead s st.val) hentry hg hhandle hrel] at hexec
      obtain ⟨hgraphs, hjobs, hcells, hmem⟩ := settle_facts (releasing (entryRead s st.val) st.val h)
      refine ⟨_, hexec, fun g' hg' hh => ?_, hjobs, hcells, hmem⟩
      obtain ⟨g₀, -, rfl⟩ := List.mem_map.mp (hgraphs g' hg')
      exact releaseOf_released hh

/-! ### Jobs that end -/

section JobEnds

variable {s : State} {j : JobRec}

/-- A completion waits behind those of its stream. -/
theorem post_ready (s : State) (i : Nat) (x : Completion) :
    ((s.post i x).stream i).ready = (s.stream i).ready ++ [x] := by
  rw [State.post, stream_mod]

/-- `s` with nothing recorded for a job any longer, at the cells and in the driver. -/
def withoutJob (s : State) (id : BitVec 32) : State :=
  (s.forget id).modDrv (fun d => { d with
    jobs := d.jobs.filter (fun i => decide (i.id ≠ id)), frames := d.frames.filter (fun f => decide (f.job ≠ id)),
    stored := d.stored.filter (fun x => decide (x.1 ≠ id)) })

theorem withoutJob_forgets (s : State) (id : BitVec 32) : Forgets s id (withoutJob s id) := forget_cell s id

theorem withoutJob_job (s : State) (id : BitVec 32) : (withoutJob s id).drv.job? id = none :=
  List.find?_eq_none.mpr (fun i hi => by simpa using (List.mem_filter.mp hi).2)

/-- A job that is not silent is over with its completion waiting to be written (R413). -/
theorem jobOver_posts (hsilent : j.silent = false) :
    s.jobOver j = (withoutJob s j.id).post j.stream j.completion := by
  unfold State.jobOver
  simp only [hsilent, Bool.false_eq_true, if_false]
  rfl

theorem endJob_unsignalled (hsig : j.sig = none) : s.endJob j = s.jobOver j := by
  unfold State.endJob
  rw [hsig]

/-- A job with SIG_V waits for the REPLY to its ADD before it is over (R392). -/
theorem endJob_signals {dev obj : BitVec 16} (hsig : j.sig = some (dev, obj)) (hreach : s.unreachable (UA.mk dev 0) = false) :
    s.endJob j = (s.setJob { j with phase := .signal }).driverSync j.id dev obj 2 true 1 2 := by
  unfold State.endJob
  simp only [hsig, hreach, Bool.false_eq_true, if_false]

/-- A job that has not started, has no signal and has not failed ends with its kill (R394). -/
theorem killJob_ready (hphase : j.phase = .ready) (hsig : j.sig = none) (hfail : j.fail = none) (hsilent : j.silent = false) :
    s.killJob j = (withoutJob s j.id).post j.stream { j with killed := true }.completion := by
  have hend : s.killJob j = s.endJob { j with killed := true } := by
    unfold State.killJob
    simp only [hphase, hfail, Option.isNone_none]
  rw [hend, endJob_unsignalled (j := { j with killed := true }) hsig, jobOver_posts (j := { j with killed := true }) hsilent]

/-- A job after the kill of its units has begun. -/
def killing (j : JobRec) : JobRec := { j with killed := j.fail.isNone, phase := .killing }

/-- A running job becomes one whose units are being killed; its memory loses VALID of its references (R394, R395, R416). -/
theorem killJob_running (hphase : j.phase = .running) :
    (s.killJob j).cells = s.cells ∧ (s.killJob j).mem = (s.clearRefs j).mem ∧
      (s.killJob j).drv = (s.setJob (killing j)).drv :=
  killRunning_rest s j hphase

/-- The driver sends a KILL of a running job to its own device (R394). -/
theorem killJob_running_sends (hphase : j.phase = .running) :
    ∃ m, (s.killJob j).net.inFlight = s.net.inFlight ++ [m] ∧ m.cls = 0x01 ∧ m.dest = UA.mk s.net.devId 0 ∧
      m.body = [BitVec.ofNat 120 (6 + j.id.toNat * 2 ^ 16)] := by
  have hnet : ((s.setJob (killing j)).clearRefs j).net = s.net := (clearRefs_rest (s.setJob (killing j)) j).2.2
  have hkill := driverKill_own ((s.setJob (killing j)).clearRefs j) j.id 3
  rw [hnet] at hkill
  unfold State.killJob
  simp only [hphase]
  exact hkill

theorem job_id {id : BitVec 32} (hjob : s.drv.job? id = some j) : j.id = id := by
  simpa using List.find?_some hjob

end JobEnds

/-! ### KILL entries -/

section KillEntries

variable {s : State} {d : Desc} {i : Nat}

theorem exec_killEntry {st : Fin 8} {e : List Word} (hcan : CanRead s st.val) (hkind : Desc.kind e = 2) :
    exec (.killEntry st e) s = .next ((entryRead s st.val).killEntry st.val (e.take 8)) := by
  show execKillEntry st e s = _
  unfold execKillEntry
  rw [onlyIf_true _ _ _ (decide_eq_true hkind), readEntry_can _ hcan]

/-- A KILL that matches nothing completes with OK_EMPTY (R396). -/
theorem killEntry_misses (hfault : d.fault 0x02 8 true = none) (hmiss : s.anyHit i d = false) :
    s.killEntry i d =
      s.post i ⟨completionWords ccEmpty 2 i false 0 (BitVec.ofNat 32 (d.f 1 31 0)) 0 noLayer 0 noLedger, []⟩ := by
  unfold State.killEntry
  simp only [hfault, hmiss, Bool.not_false, if_true]

/-- A job that KILL entry `k` waits for. -/
def withKiller (j : JobRec) (k : Nat) : JobRec := { j with killers := j.killers ++ [k] }

/-- A job after KILL entry `k` of stream `i` has looked at it. -/
def killMark (i : Nat) (d : Desc) (k : Nat) (j : JobRec) : JobRec := if j.hit i d then withKiller j k else j

@[simp] theorem killMark_id (i : Nat) (d : Desc) (k : Nat) (j : JobRec) : (killMark i d k j).id = j.id := by
  unfold killMark
  split <;> rfl

/-- `s` with every job, entry and completion that a KILL entry of stream `i` matches marked, and the entry waiting (R396). -/
def killMarked (s : State) (i : Nat) (d : Desc) : State :=
  let k := s.drv.nextWait
  (s.modDrv (fun v => { v with
    jobs := v.jobs.map (killMark i d k),
    adds := v.adds.map (fun a =>
      if decide (a.1 = i) && a.2.hit d then (a.1, { a.2 with killers := a.2.killers ++ [k] }) else a),
    queue := v.queue.map (fun (q : QEntry) => if q.hit i d then { q with killers := q.killers ++ [k] } else q),
    waits := v.waits ++ [⟨k, i, 2, BitVec.ofNat 32 (d.f 1 31 0), 0⟩], nextWait := k + 1 })).modStream i
      (fun q => { q with ready := q.ready.map (fun (x : Completion) =>
        if x.hit d then { x with killers := x.killers ++ [k] } else x) })

/-- A KILL that matches marks what it matches and kills each matching job. -/
theorem killEntry_hits (hfault : d.fault 0x02 8 true = none) (hhit : s.anyHit i d = true) :
    s.killEntry i d = (s.drv.jobs.filter (·.hit i d)).foldl
      (fun s j => (s.drv.job? j.id).elim s s.killJob) (killMarked s i d) := by
  unfold State.killEntry
  simp only [hfault, hhit, Bool.not_true, Bool.false_eq_true, if_false]
  rfl

/-- The one job that an entry of stream `i` matches is a job of the driver, and matched. -/
theorem hit_of_only {j : JobRec} (honly : s.drv.jobs.filter (·.hit i d) = [j]) :
    j ∈ s.drv.jobs ∧ j.hit i d = true :=
  List.mem_filter.mp (honly ▸ List.mem_cons_self)

theorem anyHit_of_hit {j : JobRec} (hj : j ∈ s.drv.jobs) (hhit : j.hit i d = true) : s.anyHit i d = true := by
  have hany : s.drv.jobs.any (·.hit i d) = true := List.any_eq_true.mpr ⟨j, hj, hhit⟩
  unfold State.anyHit
  simp only [hany, Bool.true_or]

/-- A job that an entry of stream `i` matches is of the stream, and its completion is to be written (R393). -/
theorem hit_stream {j : JobRec} (hhit : j.hit i d = true) : j.stream = i ∧ j.silent = false := by
  unfold JobRec.hit at hhit
  simp only [Bool.and_eq_true, decide_eq_true_eq, Bool.not_eq_true'] at hhit
  exact hhit.1

/-- The marked record of a job that the KILL matches. -/
theorem killMarked_job {j : JobRec} {id : BitVec 32} (hjob : s.drv.job? id = some j) (hhit : j.hit i d = true) :
    (killMarked s i d).drv.job? id = some (withKiller j s.drv.nextWait) := by
  show (s.drv.jobs.map (killMark i d s.drv.nextWait)).find? (fun j => decide (j.id = id)) = _
  unfold Driver.job? at hjob
  rw [find_map_id _ _ (killMark_id i d _), hjob, Option.map_some, killMark, if_pos hhit]

/-- A KILL that matches one job kills that job, once marked. -/
theorem killEntry_one {j : JobRec} (hfault : d.fault 0x02 8 true = none) (honly : s.drv.jobs.filter (·.hit i d) = [j])
    (hjob : s.drv.job? j.id = some j) :
    s.killEntry i d = (killMarked s i d).killJob (withKiller j s.drv.nextWait) := by
  obtain ⟨hmem, hhit⟩ := hit_of_only honly
  rw [killEntry_hits hfault (anyHit_of_hit hmem hhit), honly, List.foldl_cons, List.foldl_nil, killMarked_job hjob hhit]
  rfl

/-- The marks are on the one matching job alone, so that without it the jobs are as they were. -/
theorem killMarked_others {j : JobRec} (honly : s.drv.jobs.filter (·.hit i d) = [j]) :
    (killMarked s i d).drv.jobs.filter (fun x => decide (x.id ≠ j.id)) =
      s.drv.jobs.filter (fun x => decide (x.id ≠ j.id)) := by
  show (s.drv.jobs.map (killMark i d s.drv.nextWait)).filter _ = _
  have hcomp : (fun x : JobRec => decide (x.id ≠ j.id)) ∘ killMark i d s.drv.nextWait = fun x => decide (x.id ≠ j.id) := by
    funext x
    simp only [Function.comp_apply, killMark_id]
  rw [List.filter_map, hcomp]
  refine (List.map_congr_left fun x hx => ?_).trans (List.map_id _)
  obtain ⟨hmem, hne⟩ := List.mem_filter.mp hx
  exact if_neg (by rw [mark_other honly x hmem (of_decide_eq_true hne)]; decide)

end KillEntries

/-! ### CUT entries -/

section CutEntries

variable {s : State} {d : Desc} {i : Nat}

theorem exec_cutEntry {st : Fin 8} {e : List Word} (hcan : CanRead s st.val) (hkind : Desc.kind e = 3) :
    exec (.cutEntry st e) s = .next ((entryRead s st.val).cutEntry st.val (e.take 8)) := by
  show execCutEntry st e s = _
  unfold execCutEntry
  rw [onlyIf_true _ _ _ (decide_eq_true hkind), readEntry_can _ hcan]

/-- A CUT that matches nothing completes with OK_EMPTY (R397). -/
theorem cutEntry_misses (hfault : d.fault 0x03 8 true = none) (hmiss : s.anyHit i d = false) :
    s.cutEntry i d =
      s.post i ⟨completionWords ccEmpty 3 i false 0 (BitVec.ofNat 32 (d.f 1 31 0)) 0 noLayer 0 noLedger, []⟩ := by
  unfold State.cutEntry
  simp only [hfault, hmiss, Bool.not_false, if_true]

/-- What a CUT names: a layer, or (none) the whole job (R397). -/
def cutScope (d : Desc) : Option (BitVec 16) := if d.bit 1 33 then some (BitVec.ofNat 16 (d.f 2 31 0)) else none

/-- `s` with a cut recorded with every job and queued entry that a CUT of stream `i` matches (R397). -/
def cutMarked (s : State) (i : Nat) (d : Desc) : State :=
  s.modDrv (fun v => { v with
    jobs := v.jobs.map (fun (j : JobRec) => if j.hit i d then { j with cuts := j.cuts ++ [cutScope d] } else j),
    queue := v.queue.map (fun (q : QEntry) => if q.hit i d then { q with cuts := q.cuts ++ [cutScope d] } else q) })

/-- Cuts of several jobs recorded at every cell. -/
def cutJobs (s : State) (l : List JobRec) (scope : Option (BitVec 16)) : State :=
  l.foldl (fun s j => s.cutDevice j.id scope) s

/-- Such cuts change the cells alone. -/
theorem cutJobs_notCells (s : State) (l : List JobRec) (scope : Option (BitVec 16)) :
    notCells (cutJobs s l scope) = notCells s := by
  unfold cutJobs
  rw [foldl_pres notCells _ (fun s j => cutDevice_rest s _ scope)]

theorem cutJobs_records {l : List JobRec} {j : JobRec} (hj : j ∈ l) (s : State) (scope : Option (BitVec 16)) (c : CellIx) :
    (⟨j.id, scope⟩ : CutRec) ∈ ((cutJobs s l scope).cell c).cutRecs := by
  have h := cuts_fold c (l.map (fun j => (j.id, scope))) s ⟨j.id, scope⟩ (.inr (List.mem_map.mpr ⟨j, hj, rfl⟩))
  rw [List.foldl_map] at h
  exact h

/-- A CUT whose layer a layer can have is recorded with the jobs it matches, and at the cells for the running ones. -/
theorem cutEntry_hits (hfault : d.fault 0x03 8 true = none) (hhit : s.anyHit i d = true)
    (hnamed : d.bit 1 33 = false ∨ d.f 2 31 0 < 2 ^ 16) :
    s.cutEntry i d = (cutJobs (cutMarked s i d)
      (s.drv.jobs.filter (fun j => j.hit i d && decide (j.phase = .running))) (cutScope d)).post i
        ⟨completionWords ccOk 3 i false 0 (BitVec.ofNat 32 (d.f 1 31 0)) 0 noLayer 0 noLedger, []⟩ := by
  have hscope : decide (cutScope d = none ∨ d.f 2 31 0 < 2 ^ 16) = true :=
    decide_eq_true (hnamed.imp_left (fun h => if_neg (ne_true_of_eq_false h)))
  unfold cutScope at hscope
  unfold State.cutEntry
  simp only [hfault, hhit, hscope, Bool.not_true, Bool.false_eq_true, if_false, if_true]
  rfl

end CutEntries

/-- Settles O33: a KILL marks what it matches and kills the one job, by the phase that the job is in; a CUT is recorded where it
matches. -/
theorem killAndCutEntries : Obligations.KillAndCutEntries := by
  unfold Obligations.KillAndCutEntries
  refine fun s st e hcan => ⟨fun hkind hfault => ?kill, fun hkind hfault => ?cut⟩
  case kill =>
    have hexec := exec_killEntry hcan hkind
    refine ⟨fun hmiss => ?_, fun j honly hjob => ⟨fun hphase hsig hfail => ?_, fun hphase => ?_⟩⟩
    · rw [killEntry_misses hfault ((anyHit_read s st.val _).trans hmiss)] at hexec
      exact ⟨_, hexec, rfl, posts_post _ _ _⟩
    · rw [killEntry_one (s := entryRead s st.val) hfault honly hjob] at hexec
      obtain ⟨hstream, hsilent⟩ := hit_stream (hit_of_only honly).2
      rw [killJob_ready (j := withKiller j (entryRead s st.val).drv.nextWait) hphase hsig hfail hsilent] at hexec
      refine ⟨_, hexec, withoutJob_forgets _ _, rfl, rfl, killMarked_others (j := j) honly, rfl, ?_⟩
      rw [← hstream]
      exact (congrArg List.getLast? (post_ready _ j.stream _)).trans List.getLast?_concat
    · rw [killEntry_one (s := entryRead s st.val) hfault honly hjob] at hexec
      have hmarked := killMarked_job (s := entryRead s st.val) hjob (hit_of_only honly).2
      obtain ⟨hcells, hmem, hdrv⟩ := killJob_running (s := killMarked (entryRead s st.val) st.val (e.take 8))
        (j := withKiller j (entryRead s st.val).drv.nextWait) hphase
      have hrefs := hmem.trans (clearRefs_mem _ s _ j rfl rfl rfl rfl rfl)
      refine ⟨_, hexec, hcells, hrefs, fun hdone => hrefs.trans (clearRefs_none s j hdone),
        congrArg Driver.waits hdrv, ?_, killJob_running_sends (j := withKiller j _) hphase⟩
      rw [hdrv]
      exact job_setJob _ _ (killing (withKiller j _)) j.id hmarked rfl
  case cut =>
    have hexec := exec_cutEntry hcan hkind
    refine ⟨fun hmiss => ?_, fun hhit hnamed => ?_⟩
    · rw [cutEntry_misses hfault ((anyHit_read s st.val _).trans hmiss)] at hexec
      exact ⟨_, hexec, rfl, posts_post _ _ _⟩
    · rw [cutEntry_hits hfault ((anyHit_read s st.val _).trans hhit) hnamed] at hexec
      let u := cutMarked (entryRead s st.val) st.val (e.take 8)
      let run := s.drv.jobs.filter (fun j => j.hit st.val (e.take 8) && decide (j.phase = .running))
      have hrest := cutJobs_notCells u run (cutScope (e.take 8))
      simp only [notCells, Prod.mk.injEq] at hrest
      obtain ⟨hmem, hnet, hdrv, hpcie, -⟩ := hrest
      refine ⟨_, hexec, hmem, hnet, congrArg Driver.jobs hdrv, fun j hj hhits hphase c => ?_, ?_⟩
      · have hrun : j ∈ run := List.mem_filter.mpr ⟨hj, by rw [hhits, decide_eq_true hphase]; rfl⟩
        exact cutJobs_records hrun u (cutScope (e.take 8)) c
      · have hready : (u.stream st.val).ready = (s.stream st.val).ready := entryRead_ready s st.val
        rw [post_ready, ← hready, ← stream_of_pcie hpcie st.val]
        rfl

/-! ### Jobs from their start to their end -/

section JobCommands

variable {s : State} {job : BitVec 32} {j : JobRec}

theorem exec_jobStart (hup : s.hostUp = true) (hjob : s.drv.job? job = some j) (hphase : j.phase = .ready) :
    exec (.jobStart job) s = .next (s.startJob j) := by
  show execJobStart job s = _
  unfold execJobStart
  simp only [hjob]
  rw [onlyIf_true _ _ _ (by rw [hup, decide_eq_true hphase]; rfl)]

theorem exec_budgetExpiry (hup : s.hostUp = true) (hjob : s.drv.job? job = some j) (hphase : j.phase = .running)
    (hbudget : j.budget ≠ 0) (hfirst : j.expired = false) (hover : j.budget.toNat ≤ (s.runTime - j.startRun).toNat) :
    exec (.budgetExpiry job) s = .next ((s.setJob { j with expired := true }).cutDevice job none) := by
  show execBudgetExpiry job s = _
  unfold execBudgetExpiry
  simp only [hjob]
  rw [onlyIf_true _ _ _ (by rw [hup, decide_eq_true ⟨hphase, hbudget⟩, hfirst, decide_eq_true hover]; rfl)]

theorem exec_jobEnd {g : GraphRec} (hup : s.hostUp = true) (hjob : s.drv.job? job = some j) (hgraph : s.graphOf j = some g)
    (hphase : j.phase = .running) (hdone : ∀ i, i < g.layers.length → i ∈ j.done) :
    exec (.jobEnd job) s = .next (s.endJob j) := by
  have hall : (List.range g.layers.length).all (fun i => decide (i ∈ j.done)) = true := by simpa using hdone
  show execJobEnd job s = _
  unfold execJobEnd
  simp only [hjob, hgraph, Option.elim_some]
  rw [onlyIf_true _ _ _ (by rw [hup, decide_eq_true hphase, hall]; rfl)]

theorem exec_jobFailure {layer : BitVec 32} {code : BitVec 8} (hup : s.hostUp = true) (hjob : s.drv.job? job = some j)
    (hcode : failureCode code = true) (hphase : j.phase = .running) :
    exec (.jobFailure job layer code) s = .next (s.killJob { j with fail := some (code, layer) }) := by
  show execJobFailure job layer code s = _
  unfold execJobFailure
  simp only [hjob]
  rw [onlyIf_true _ _ _ (by rw [hup, hcode, decide_eq_true (.inr (.inr hphase))]; rfl)]

/-- A job's record once it has started (R391). -/
def started (s : State) (j : JobRec) : JobRec := { j with phase := .running, start := s.timeHost, startRun := s.runTime }

theorem startJob_eq (s : State) (j : JobRec) :
    s.startJob j = j.cuts.foldl (fun s k => s.cutDevice j.id k) (s.setJob (started s j)) :=
  rfl

/-- Of a job that starts, the cuts recorded before reach the cells, and nothing else but its record changes. -/
theorem startJob_rest (s : State) (j : JobRec) : notCells (s.startJob j) = notCells (s.setJob (started s j)) := by
  rw [startJob_eq]
  exact foldl_pres notCells _ (fun s k => cutDevice_rest s j.id k) _ _

end JobCommands

/-- Settles O34: each command changes the record of its job and, by the cuts, the end or the kill that it brings, what these
change. -/
theorem jobsFromStartToEnd : Obligations.JobsFromStartToEnd := by
  unfold Obligations.JobsFromStartToEnd
  intro s job j hup hjob
  obtain rfl := job_id hjob
  refine ⟨fun hphase => ?start, fun hphase hbudget hfirst hover => ?expiry, fun g hgraph hphase hdone => ?finish,
    fun layer code hcode hphase => ?failure⟩
  case start =>
    have hrest := startJob_rest s j
    simp only [notCells, Prod.mk.injEq] at hrest
    obtain ⟨hmem, hnet, hdrv, -⟩ := hrest
    refine ⟨_, exec_jobStart hup hjob hphase, hmem, hnet, ?_, fun i hi => ?_, fun hcuts => ?_, fun k hk c => ?_⟩
    · rw [hdrv]
      exact job_setJob s j (started s j) j.id hjob rfl
    · rw [hdrv]
      exact job_setJob_ne s (started s j) i hi
    · rw [startJob_eq, hcuts]
      rfl
    · exact starts_fold c j.id j.cuts _ k hk
  case expiry =>
    let j' : JobRec := { j with expired := true }
    have hrest := cutDevice_rest (s.setJob j') j.id none
    simp only [notCells, Prod.mk.injEq] at hrest
    obtain ⟨hmem, hnet, hdrv, -⟩ := hrest
    refine ⟨_, exec_budgetExpiry hup hjob hphase hbudget hfirst hover, hmem, hnet, ?_, fun i hi => ?_, fun c => ?_⟩
    · rw [hdrv]
      exact job_setJob s j j' j.id hjob rfl
    · rw [hdrv]
      exact job_setJob_ne s j' i hi
    · rw [cutDevice_cell]
      exact ⟨rfl, cut_in _ _⟩
  case finish =>
    have hexec := exec_jobEnd hup hjob hgraph hphase hdone
    refine ⟨fun hsig hsilent => ?_, fun dev obj hsig hreach => ?_⟩
    · rw [endJob_unsignalled hsig, jobOver_posts hsilent] at hexec
      refine ⟨_, hexec, withoutJob_forgets s j.id, rfl, withoutJob_job s j.id, ?_⟩
      exact post_ready _ _ _
    · rw [endJob_signals hsig hreach] at hexec
      obtain ⟨hdrv, hcells⟩ := driverSync_rest (s.setJob { j with phase := .signal }) j.id dev obj 2 true 1 2
      refine ⟨_, hexec, hcells, ?_⟩
      rw [hdrv]
      exact job_setJob s j { j with phase := .signal } j.id hjob rfl
  case failure =>
    let i : JobRec := { j with fail := some (code, layer) }
    obtain ⟨hcells, hmem, hdrv⟩ := killJob_running (s := s) (j := i) hphase
    refine ⟨_, exec_jobFailure hup hjob hcode hphase, hcells, hmem.trans (clearRefs_mem s s i j rfl rfl rfl rfl rfl),
      fun k hk => ?_, ?_⟩
    · rw [hdrv]
      exact job_setJob_ne s (killing i) k hk
    · rw [hdrv]
      exact job_setJob s j (killing i) j.id hjob rfl

end Sys2Proof.Proofs

/-! PROOFS. Loads and stores, the end of operations and of stalls, and the commands that start a tile program. -/

namespace Sys2Proof.Proofs

open Sys2Proof Sys2Proof.Machine Sys2Proof.Claims Sys2Proof.Laws

/-! ### Loads and stores -/

/-- Settles O2: each load reads and each store writes its row without a flipped bit, which `load_result` and `store_result` say
for every width; one byte is aligned everywhere. -/
theorem loadsAndStores : Obligations.LoadsAndStores := by
  unfold Obligations.LoadsAndStores
  refine ⟨?load, ?store⟩
  case load =>
    intro s c f hn a bytes ha hz
    exact ⟨fun hi => ⟨_, rfl, LoadStoreLaws.load_result (.ld1 c f []) 1 hn hi ha hz (Nat.mod_one _)⟩,
      fun hi h2 => ⟨_, rfl, LoadStoreLaws.load_result (.ld2 c f []) 2 hn hi ha hz h2⟩,
      fun hi h4 => ⟨_, rfl, LoadStoreLaws.load_result (.ld4 c f []) 4 hn hi ha hz h4⟩,
      fun hi h8 => ⟨_, rfl, LoadStoreLaws.load_result (.ld8 c f []) 8 hn hi ha hz h8⟩⟩
  case store =>
    intro s c f hn a v ha hz
    exact ⟨fun hi => ⟨_, rfl, LoadStoreLaws.store_result (.st1 c f []) 1 hn hi ha hz (Nat.mod_one _)⟩,
      fun hi h2 => ⟨_, rfl, LoadStoreLaws.store_result (.st2 c f []) 2 hn hi ha hz h2⟩,
      fun hi h4 => ⟨_, rfl, LoadStoreLaws.store_result (.st4 c f []) 4 hn hi ha hz h4⟩,
      fun hi h8 => ⟨_, rfl, LoadStoreLaws.store_result (.st8 c f) 8 hn hi ha hz h8⟩⟩

/-! ### The completion of a unit operation -/

section Completion

variable {s : State} {c : CellIx}

/-- `s` with the operation `o` of cell `c` over: it has left the list, and the sequencer has taken its registers and code. -/
def withOpDone (s : State) (c : CellIx) (o : UnitOp) : State :=
  s.modCell c (fun x => { x with ops := x.ops.filter (fun p => decide (p.id ≠ o.id)), seq := x.seq.opDone o })

/-- An operation that is over leaves the list; of one of a checked engine the steps it repeated are counted (R604). -/
theorem exec_unitOperationComplete {k : Nat} {o : UnitOp} (again : List Nat) (hup : s.cellUp c = true)
    (hop : (s.cell c).op? k = some o) (hscrub : (s.cell c).scrubbing = false) (hspill : o.spill = none) (hdone : o.done = true) :
    exec (.unitOperationComplete c k again) s =
      .next (if o.unit.checks then again.foldl (fun v n => v.countRepeats c n) (withOpDone s c o) else withOpDone s c o) := by
  show execUnitOperationComplete c k again s = _
  unfold execUnitOperationComplete
  simp only [hop]
  rw [onlyIf_true _ _ _ (by rw [hup, hscrub]; rfl)]
  unfold State.opComplete
  simp only [hspill, hdone, if_true]
  rfl

/-- Counting repeats leaves the sequencer alone. -/
theorem ifChecks_seq (o : UnitOp) (again : List Nat) (u : State) :
    ((if o.unit.checks then again.foldl (fun v n => v.countRepeats c n) u else u).cell c).seq = (u.cell c).seq := by
  split
  · exact WindowLaws.repeats_seq again c u
  · rfl

/-- An operation with one register writes it (R440). -/
theorem opDone_reg {o : UnitOp} {rd : BitVec 4} {v : Word} (q : Seq) (hregs : o.regs = [(rd, v)]) :
    (q.opDone o).reg rd = if rd = 0 then 0 else v := by
  rw [reg_of_regs (WindowLaws.opDone_regs q o) rd, hregs]
  exact WindowLaws.setReg_getReg q rd v

/-- The operation that the program waits for lets it go on, with LASTCODE at its code (R431). -/
theorem opDone_blocking {q : Seq} {o : UnitOp} (hblock : o.blocking = true) (hwait : q.waiting = some o.id) :
    (q.opDone o).lastCode = o.code ∧ (q.opDone o).waiting = none ∧ (q.opDone o).stalled = none := by
  have hwait' : (o.regs.foldl (fun q r => q.setReg r.1 r.2) q).waiting = some o.id := by
    rw [WindowLaws.foldSetReg]
    exact hwait
  unfold Seq.opDone
  simp only [hblock, hwait', decide_true, Bool.and_self, if_true]
  exact WindowLaws.completeBlocking_flow _ _

/-- The code of another operation of the command in progress joins the command's codes (R429). -/
theorem opDone_async {q : Seq} {o : UnitOp} {r : CmdRun} (hblock : o.blocking = false) (hcmd : q.cmd = some r)
    (hno : r.no = o.cmd) (habs : absorbed o.code = false) (hstop : stops o.code = false) :
    (q.opDone o).cmd = some { r with codes := r.codes ++ [o.code] } := by
  have hcmd' : (o.regs.foldl (fun q r => q.setReg r.1 r.2) q).cmd = some r := by
    rw [WindowLaws.foldSetReg]
    exact hcmd
  unfold Seq.opDone
  simp only [hblock, habs, hstop, hcmd', if_pos hno, Bool.false_and, Bool.false_eq_true, if_false]

end Completion

/-! ### Register instructions, stalled and released -/

section Registers

variable {s : State} {c : CellIx}

/-- A register instruction whose registers are free has its effect (R437, R440). -/
theorem bodyReg_result {rd : BitVec 4} {rs : List (BitVec 4)} (i : Instr) (v : Seq → Word) (hn : NextInside s c)
    (hfree : (s.cell c).regBusy (rd :: rs) = false) : RegResult s c rd (v (s.cell c).seq) (bodyReg c i rd rs v s) := by
  unfold bodyReg
  rw [State.guarded_regs _ _ hfree]
  exact reg_result' hn

/-- The stall over, and the fetch that may have stalled with it. -/
def released (s : State) (c : CellIx) : State := s.modSeq c (fun q => { q with stalled := none, fetching := none })

/-- A stalled instruction acts where its cause is gone: issued again, it neither stalls nor waits (R449). Where the fetch itself
stalled, its row is free and still holds the same word (R301). -/
theorem exec_stallRelease {k : BitVec 4} {i : Instr} (hup : s.cellUp c = true) (hstall : (s.cell c).seq.stalled = some (k, i))
    (hwait : (s.cell c).seq.waiting = none)
    (hfetch : (s.cell c).seq.fetching.elim true (fun w =>
      !(s.cell c).rowBusy false ((s.cell c).seq.pc.toNat / 128) 1 &&
        decide (Memory.readWord (s.cell c).spad (s.cell c).seq.pc.toNat = w)) = true)
    (hheld : (s.cell c).held = none) (hscrub : (s.cell c).scrubbing = false)
    (hgone : ((bodyOf i (released s c)).cell c).seq.stalled = none) :
    exec (.stallRelease c) s = .next (bodyOf i (released s c)) := by
  have hreissue (u : State) (hu : u.modSeq c (fun q => { q with stalled := none }) = released s c) :
      u.reissue c i = bodyOf i (released s c) := by
    unfold State.reissue
    simp only [hu, hgone]
  show execStallRelease c s = _
  unfold execStallRelease
  simp only [hstall]
  rw [onlyIf_true _ _ _ (by rw [hup, hheld, hscrub]; rfl)]
  unfold State.releaseStall
  simp only [hwait, Option.isSome_none, Bool.false_eq_true, and_false, if_false]
  cases hf : (s.cell c).seq.fetching with
  | none =>
    refine congrArg Host.Outcome.next (hreissue s ?_)
    simp only [released, State.modSeq, State.modCell, hf]
  | some w =>
    rw [hf] at hfetch
    obtain ⟨hrow, hword⟩ := Bool.and_eq_true_iff.mp hfetch
    simp only [(Bool.not_eq_true' _).mp hrow, of_decide_eq_true hword, Bool.false_eq_true, if_false, if_true]
    refine congrArg Host.Outcome.next (hreissue _ ?_)
    simp [released, State.modSeq, State.modCell]

end Registers

/-! ### The watchdog -/

/-- A stall of LIMIT microseconds that has not been reported sets WDOG and fires (R435). -/
theorem exec_seqWdog {s : State} {c : CellIx} (hup : s.cellUp c = true) (hstall : (s.cell c).seq.stalled.isSome = true)
    (hfirst : (s.cell c).seq.stallRep = false) (hon : (s.cell c).seq.limit ≠ 0)
    (hover : 1000 * (s.cell c).seq.limit.toNat ≤ (s.runTime - (s.cell c).seq.stallSince).toNat) :
    exec (.seqWdog c) s = .next (s.watchdog c) := by
  refine congrArg Host.Outcome.next (onlyIf_true _ _ _ ?_)
  rw [hup, hstall, hfirst, decide_eq_true hon, decide_eq_true hover]
  rfl

/-- Settles O17: the sequencer after the operation's end by what the operation was; the stalled ADD is issued again on the state
with its stall over; the watchdog's source is the cell's. -/
theorem completionStallsAndWatchdog : Obligations.CompletionStallsAndWatchdog := by
  unfold Obligations.CompletionStallsAndWatchdog
  intro s c hup x
  refine ⟨fun k o hop hscrub hspill hdone again => ?complete, fun k f hstall hwait hfetch hheld hscrub hfree hn => ?stall,
    fun hstall hfirst hon hover => ?watchdog⟩
  case complete =>
    have hcell : (withOpDone s c o).cell c =
        { x with ops := x.ops.filter (fun p => decide (p.id ≠ o.id)), seq := x.seq.opDone o } := State.cell_modCell s c _
    have hseq := ifChecks_seq o again (withOpDone s c o) (c := c)
    refine ⟨_, withOpDone s c o, exec_unitOperationComplete again hup hop hscrub hspill hdone, hseq, ?_, rfl, ?_⟩
    · rw [hcell]
      rfl
    · rw [hseq, hcell]
      exact ⟨fun rd v hregs => opDone_reg x.seq hregs, fun hblock hwait => opDone_blocking hblock hwait,
        fun hblock r hcmd hno habs hstop => opDone_async hblock hcmd hno habs hstop⟩
  case stall =>
    have hcell : (released s c).cell c = { x with seq := { x.seq with stalled := none, fetching := none } } :=
      State.cell_modSeq s c _
    have hresult : RegResult (released s c) c f.rd (x.seq.reg f.ra + (x.seq.reg f.rb + f.imm.signExtend 64))
        (bodyAdd c f (released s c)) := by
      have h := bodyReg_result (s := released s c) (c := c) (rd := f.rd) (rs := [f.ra, f.rb]) (.addI c f)
        (fun q => q.reg f.ra + q.opX f) (by unfold NextInside; rw [hcell]; exact hn) (by rw [hcell]; exact hfree)
      rw [hcell] at h
      exact h
    obtain ⟨-, honly, -⟩ := id hresult
    have hgone : ((bodyAdd c f (released s c)).cell c).seq.stalled = none := by
      rw [honly, hcell]
    exact ⟨_, exec_stallRelease hup hstall hwait hfetch hheld hscrub hgone, hresult⟩
  case watchdog =>
    refine ⟨_, exec_seqWdog hup hstall hfirst hon hover, ?_, fun d hd => ?_, ?_⟩
    · exact (fireCell_cell _ 5 c c).trans (State.cell_modSeq s c _)
    · exact (fireCell_cell _ 5 c d).trans (State.cell_modSeq_ne s c d _ hd)
    · exact fireStatus_pending _ (512 * 5 + c.val)

/-! ### The start of a RUN -/

/-- The registers at the start of the first run of a command (R427), each of the sixteen read by itself. -/
theorem startRun_reg (q : Seq) (r : CmdRun) (tile : Nat) (i : BitVec 4) :
    (q.startRun r tile true).reg i =
      if 1 ≤ i.toNat ∧ i.toNat ≤ 4 then (r.body.getD (i.toNat - 1) 0).setWidth 64
      else if i = 13 then BitVec.ofNat 64 r.count
      else if i = 14 then BitVec.ofNat 64 tile
      else if i = 15 then BitVec.ofNat 64 r.j else 0 := by
  have hregs : (q.startRun r tile true).reg i = (q.startRegs r tile true).reg i := reg_of_regs rfl i
  rw [hregs]
  unfold Seq.startRegs
  simp only [Seq.reg_setReg, if_true, CommandLaws.reg_empty]
  obtain ⟨⟨n, hn⟩⟩ := i
  interval_cases n <;> rfl

section RunCommands

variable {s : State} {c : CellIx} {r : CmdRun}

/-- A RUN within its limits: LEN from 1 to 5, A on an instruction, and with DIVIDE a dealt tile for the member (R427, R428). -/
def RunFits (r : CmdRun) : Prop :=
  r.len ≠ 0 ∧ r.len ≤ 5 ∧ r.a.toNat % 8 = 0 ∧ r.b.toNat ≤ 2 ^ 24 ∧ (r.divide = false → r.b = 0) ∧
    (r.divide = true → r.j < r.b.toNat)

/-- Such a RUN starts its first run, with the member's first dealt tile where DIVIDE deals them. -/
theorem exec_runCmd (hup : s.cellUp c = true) (hfresh : (s.cell c).fresh 0x01 = some r) (hres : r.reserved = false)
    (hfits : RunFits r) :
    exec (.runCmd c) s = .next (s.setCell c { (s.cell c).ownJob r.job with
      seq := (s.cell c).seq.startRun r (if r.divide then r.j else 0) true }) := by
  obtain ⟨hlen, hlen5, ha, hb, hwhole, hdealt⟩ := hfits
  have hgood : ¬ (r.reserved ∨ r.len = 0 ∨ 5 < r.len ∨ r.a.toNat % 8 ≠ 0 ∨ 2 ^ 24 < r.b.toNat ∨
      (¬ r.divide ∧ r.b ≠ 0)) := by
    rintro (h | h | h | h | h | ⟨hdiv, h⟩)
    · exact ne_true_of_eq_false hres h
    · exact hlen h
    · omega
    · exact h ha
    · omega
    · exact h (hwhole (Bool.eq_false_iff.mpr hdiv))
  have htile : ¬ (r.divide ∧ r.b.toNat ≤ r.j) := fun ⟨hdiv, h⟩ => Nat.not_le.mpr (hdealt hdiv) h
  show execRunCmd c s = _
  unfold execRunCmd
  simp only [hfresh]
  rw [onlyIf_true _ _ _ hup]
  exact congrArg (fun x => Host.Outcome.next (s.setCell c x)) ((if_neg hgood).trans (if_neg htile))

/-- The command of the message at the head of CMD, with the cell's place among the members (R423, R427). -/
def headCmd (s : State) (c : CellIx) (m : Msg) : CmdRun :=
  cmdOf m (c.val - UA.index m.dest) (UA.span (UA.depth m.dest)) (s.cell c).seq.nextCmd

/-- Cell `x` with the packet at the head of CMD taken and its command `r` in progress. -/
def begins (x : Cell) (r : CmdRun) (now : Word) : Cell :=
  { x.takeCmd x.cmdq.head.1.length now with
    seq := { x.seq with cmd := some r, hdr := r.hdr, nextCmd := x.seq.nextCmd + 1, image := none } }

/-- A cell that takes a command now dispatches the one at the head of CMD (R426). -/
theorem exec_cmdDispatch (hup : s.cellUp c = true) (hready : (s.cell c).dispatches = true) :
    exec (.cmdDispatch c) s = .next (s.dispatch c) :=
  congrArg Host.Outcome.next (onlyIf_true _ _ _ (by rw [hup, hready]; rfl))

theorem not_flushing_of_dispatches {x : Cell} (h : x.dispatches = true) : x.cmdq.flushing = false := by
  unfold Cell.dispatches Queue.headReady at h
  simp only [Bool.and_eq_true, Bool.not_eq_true'] at h
  obtain ⟨-, ⟨hflush, -⟩, -⟩ := h
  exact hflush

/-- A RUN, WINDOW or SCRUB that no kill and no scrub comes before is in progress (R426). -/
theorem dispatch_begins {m : Msg} (hm : Msg.ofItems (s.cell c).cmdq.head.1 = some m) (hr : headCmd s c m = r)
    (hcmd : r.cmd = 0x01 ∨ r.cmd = 0x03 ∨ r.cmd = 0x04) (hlive : r.job ∉ (s.cell c).killed ∨ r.cmd = 0x04)
    (hown : r.cmd = 0x04 ∨ (s.cell c).spdOwner = 0 ∨ (s.cell c).spdOwner = r.job) :
    s.dispatch c = s.setCell c (begins (s.cell c) r s.runTime) := by
  have himage : r.cmd ≠ 0x02 := by rcases hcmd with h | h | h <;> rw [h] <;> decide
  have hvalid : ¬ (r.cmd = 0 ∨ 4 < r.cmd.toNat) := by rcases hcmd with h | h | h <;> rw [h] <;> decide
  have hkill : ¬ (r.job ∈ (s.cell c).killed ∧ r.cmd ≠ 0x04) := by
    rintro ⟨hjob, h4⟩
    exact hlive.elim (· hjob) h4
  have hscrub : ¬ (r.cmd ≠ 0x04 ∧ (s.cell c).spdOwner ≠ 0 ∧ (s.cell c).spdOwner ≠ r.job) := by
    rintro ⟨h4, h0, hjob⟩
    exact hown.elim h4 (·.elim h0 hjob)
  unfold State.dispatch
  simp only [hm]
  unfold headCmd at hr
  simp only [hr, himage, decide_false, Bool.false_eq_true, if_false, if_neg hkill, if_neg hscrub, if_neg hvalid]
  rfl

/-- Before a command of another job the cell starts to scrub, once its earlier work is over (R332). -/
theorem dispatch_scrubs {m : Msg} (hm : Msg.ofItems (s.cell c).cmdq.head.1 = some m) (hr : headCmd s c m = r)
    (hlive : r.job ∉ (s.cell c).killed) (h4 : r.cmd ≠ 0x04) (hown : (s.cell c).spdOwner ≠ 0)
    (hother : (s.cell c).spdOwner ≠ r.job) (hops : (s.cell c).ops = []) (hended : (s.cell c).seq.ended = []) :
    s.dispatch c = s.setCell c (s.cell c).startScrub := by
  unfold State.dispatch
  simp only [hm]
  unfold headCmd at hr
  simp only [hr, hlive, false_and, if_false, h4, hown, hother, hops, hended, ne_eq, not_false_eq_true, and_self, if_true]
  rfl

/-- SCRUB at a cell whose earlier work is over starts the scrub, and clears the record of killed jobs (R332, R622). -/
theorem exec_scrubCmd (hup : s.cellUp c = true) (hfresh : (s.cell c).fresh 0x04 = some r) (hops : (s.cell c).ops = [])
    (hended : (s.cell c).seq.ended = []) (hres : r.reserved = false) :
    exec (.scrubCmd c) s = .next (s.setCell c { (s.cell c).startScrub with killed := [], scrubReply := some r }) := by
  show execScrubCmd c s = _
  unfold execScrubCmd
  simp only [hfresh]
  rw [onlyIf_true _ _ _ hup]
  unfold State.startScrubCmd
  rw [if_neg (by simp [hops, hended]), if_neg (ne_true_of_eq_false hres)]
  rfl

end RunCommands

/-- Settles O19: the registers of the first run are read one by one, and a dispatch begins the command or starts the scrub. -/
theorem runStartAndDispatch : Obligations.RunStartAndDispatch := by
  unfold Obligations.RunStartAndDispatch
  refine ⟨fun s c r hup hfresh hres hlen hlen5 ha hb hwhole hdealt => ?run, ?commands⟩
  case run =>
    refine ⟨_, exec_runCmd hup hfresh hres ⟨hlen, hlen5, ha, hb, hwhole, hdealt⟩, onlyCell_setCell _ _ _, ?_⟩
    rw [State.cell_setCell]
    refine ⟨rfl, rfl, rfl, rfl, fun i => ?_⟩
    rw [startRun_reg]
    cases r.divide <;> rfl
  case commands =>
    intro s c hup x
    refine ⟨?dispatch, fun r hfresh hops hended hres => ?scrubCmd⟩
    case dispatch =>
      intro m hready hwhole hm r hcmd hlive
      refine ⟨fun hown => ?begins, fun h4 hown hother hops hended => ?scrubs⟩
      case begins =>
        refine ⟨_, exec_cmdDispatch hup hready, ?_⟩
        rw [dispatch_begins hm rfl hcmd hlive hown, State.cell_setCell]
        exact ⟨onlyCell_setCell _ _ _, rfl, rfl, fill_items 64 _ _ (not_flushing_of_dispatches hready)⟩
      case scrubs =>
        refine ⟨_, exec_cmdDispatch hup hready, ?_⟩
        rw [dispatch_scrubs hm rfl (hlive.resolve_right h4) h4 hown hother hops hended, State.cell_setCell]
        exact ⟨onlyCell_setCell _ _ _, rfl, rfl⟩
    case scrubCmd =>
      refine ⟨_, exec_scrubCmd hup hfresh hops hended hres, onlyCell_setCell _ _ _, ?_⟩
      rw [State.cell_setCell]
      exact ⟨rfl, rfl, rfl, rfl⟩

end Sys2Proof.Proofs

/-! PROOFS. The scalar instructions of tile programs that go on: registers, time, random words, branches and jumps. -/

namespace Sys2Proof.Proofs

open Sys2Proof Sys2Proof.Machine Sys2Proof.Claims Sys2Proof.Laws

/-! ### Register instructions -/

/-- LIH puts IMM[19:0] above the low 44 bits of RD (Table 12-7). -/
theorem lih_word (v : Word) (imm : BitVec 44) :
    BitVec.ofNat 64 (v.toNat % 2 ^ 44 + imm.toNat % 2 ^ 20 * 2 ^ 44) =
      BitVec.extractLsb' 0 20 imm ++ BitVec.extractLsb' 0 44 v := by
  apply BitVec.eq_of_toNat_eq
  have hlow : v.toNat % 2 ^ 44 < 2 ^ 44 := Nat.mod_lt _ (Nat.two_pow_pos 44)
  rw [BitVec.toNat_append, BitVec.extractLsb'_toNat, BitVec.extractLsb'_toNat, Nat.shiftRight_zero, Nat.shiftRight_zero,
    Nat.shiftLeft_eq, Nat.mul_comm _ (2 ^ 44), ← Nat.two_pow_add_eq_or_of_lt hlow, BitVec.toNat_ofNat]
  omega

/-- A write of RD that goes on at the next word: RD reads as written, and of the sequencer only the registers, SEQ_PC and RETIRED
change (R432, R437). -/
theorem setReg_next_facts {q : Seq} (hn : q.pc.toNat + 8 < 0x200000 ∧ q.pc.toNat % 8 = 0) (rd : BitVec 4) (v : Word) :
    (∀ r, (q.setReg rd v).next.reg r = if r = 0 then 0 else if r = rd then v else q.reg r) ∧
      (q.setReg rd v).next.rand = q.rand ∧ (q.setReg rd v).next.pc = q.pc + 8 ∧ OnlyRegsPc q (q.setReg rd v).next := by
  rw [Seq.setReg_next hn]
  exact ⟨fun r => Seq.reg_setReg q rd r v, rfl, rfl, rfl⟩

/-! ### TIME and RDRAND -/

/-- An instruction in issue whose registers are free acts (R440). -/
theorem issue_guarded {s : State} {c : CellIx} {opc : BitVec 8} {f : InsFields} {rs : List (BitVec 4)} (hi : Issues s c opc f rs)
    (i : Instr) (body : State → State) : s.issue c opc f i (fun s => s.guarded c i rs [] [] body) = body s := by
  obtain ⟨-, -, -, -, hregs⟩ := id hi
  rw [State.issue_at _ _ hi, State.guarded_regs _ _ hregs]

/-- The counter of the cell's own die: cells 0 to 255 lie on die 0. -/
theorem dieTime_cell (s : State) (c : CellIx) : s.dieTime (CellIx.die c) = if c.val < 256 then s.timeDie0 else s.timeDie1 := by
  unfold State.dieTime CellIx.die
  exact if_congr (by omega) rfl rfl

section Instructions

variable {s : State} {c : CellIx} {f : InsFields}

/-- TIME: a timestamp crosses from the die's counter, and RD receives the counter (R356, R437). -/
theorem exec_timeRd (hi : Issues s c 0x29 f [f.rd]) :
    exec (.timeRd c f) s = .next ((s.passTime (CellIx.die c)).modSeq c (fun q =>
      (q.setReg f.rd (s.dieTime (CellIx.die c))).next)) :=
  congrArg Host.Outcome.next (issue_guarded hi _ _)

/-- The word that RDRAND takes from the cell's physical stream of its channel (R180, R183, R438). -/
def physicalWord (s : State) (c : CellIx) (f : InsFields) : Word :=
  let n := 0x10 + f.imm.toNat % 16
  rngWord (rngKey (s.seedOf (s.cell c).job) (sidPhysical (s.cellAddr c) n)) (SMap.getD (s.cell c).draws n 0)

/-- The word that it takes from the logical stream of the command `r`, for the tile in RB (R181, R438). -/
def logicalWord (s : State) (c : CellIx) (f : InsFields) (r : CmdRun) : Word :=
  let q := (s.cell c).seq
  let ch := f.imm.toNat % 16
  rngWord (rngKey (s.seedOf r.job) (sidLogical r.layer ((q.reg f.rb).toNat % 2 ^ 24) (0x10 + ch))) (SMap.getD q.rand ch 0)

/-- RDRAND on a physical stream: the word that the cell's count of its channel names, and the count goes up (R183, R438). -/
theorem exec_rdrand_physical (hi : Issues s c 0x28 f [f.rd, f.rb]) (hlog : s.logicalFor (s.cell c).seq.cmd = false) :
    let x := s.cell c
    let n := 0x10 + f.imm.toNat % 16
    exec (.rdrand c f) s = .next (s.setCell c { x with
      draws := SMap.put x.draws n (SMap.getD x.draws n 0 + 1) 0
      seq := (x.seq.setReg f.rd (physicalWord s c f)).next }) := by
  intro x n
  refine congrArg Host.Outcome.next ((issue_guarded hi _ _).trans ?_)
  simp only [hlog, Bool.false_eq_true, if_false, State.drawKey, State.spendDraws, State.spendDrawsOf, State.modSeq,
    State.modCell, State.cell_setCell, State.setCell_setCell]
  rfl

/-- The sequencer `q` when its run has taken one word of draw channel `ch` (R438). -/
def drawn (q : Seq) (ch : Nat) : Seq := { q with rand := SMap.put q.rand ch (SMap.getD q.rand ch 0 + 1) 0 }

/-- RDRAND on a logical stream: the tile is RB's, and the count is the run's own (R181, R438). -/
theorem exec_rdrand_logical {r : CmdRun} (hi : Issues s c 0x28 f [f.rd, f.rb]) (hcmd : (s.cell c).seq.cmd = some r)
    (hlog : s.logicalFor (some r) = true) :
    let x := s.cell c
    exec (.rdrand c f) s = .next (s.setCell c { x with
      seq := ((drawn x.seq (f.imm.toNat % 16)).setReg f.rd (logicalWord s c f r)).next }) := by
  intro x
  refine congrArg Host.Outcome.next ((issue_guarded hi _ _).trans ?_)
  simp only [hcmd, hlog, if_true, State.drawKey]
  rfl

end Instructions

/-- Settles O1: each instruction is a register operation, whose value is that of the table. -/
theorem registerTimeAndRandomWords : Obligations.RegisterTimeAndRandomWords := by
  unfold Obligations.RegisterTimeAndRandomWords
  refine ⟨?registers, ?others⟩
  case registers =>
    intro s c f hn a x
    refine ⟨fun hi => ⟨_, rfl, RegisterLaws.reg_result _ _ _ hn hi rfl⟩,
      fun hi => ⟨_, rfl, RegisterLaws.reg_result _ _ _ hn hi (lih_word _ _)⟩,
      fun hi => ⟨_, rfl, RegisterLaws.reg_result _ _ _ hn hi rfl⟩,
      fun hi => ⟨_, rfl, RegisterLaws.reg_result _ _ _ hn hi rfl⟩,
      fun hi => ⟨_, rfl, RegisterLaws.reg_result _ _ _ hn hi rfl⟩,
      fun hi => ⟨_, rfl, RegisterLaws.reg_result _ _ _ hn hi rfl⟩,
      fun hi => ⟨_, rfl, RegisterLaws.reg_result _ _ _ hn hi rfl⟩,
      fun hi => ⟨_, rfl, RegisterLaws.reg_result _ _ _ hn hi ?shl⟩,
      fun hi => ⟨_, rfl, RegisterLaws.reg_result _ _ _ hn hi ?shr⟩,
      fun hi => ⟨_, rfl, RegisterLaws.reg_result _ _ _ hn hi ?sra⟩,
      fun hi => ⟨_, rfl, RegisterLaws.reg_result _ _ _ hn hi rfl⟩⟩
    case shl => exact congrArg (a <<< ·) (BitVec.toNat_umod (x := x) (y := 64)).symm
    case shr => exact congrArg (a >>> ·) (BitVec.toNat_umod (x := x) (y := 64)).symm
    case sra => exact congrArg a.sshiftRight (BitVec.toNat_umod (x := x) (y := 64)).symm
  case others =>
    intro s c f hn
    refine ⟨fun hi => ?time, fun hi hlog => ?physical, fun hi r hcmd hlog => ?logical⟩
    case time =>
      rw [← dieTime_cell s c]
      exact ⟨_, exec_timeRd hi, reg_result' hn⟩
    case physical =>
      obtain ⟨hreg, -, hpc, honly⟩ := setReg_next_facts hn f.rd (physicalWord s c f)
      refine ⟨_, exec_rdrand_physical hi hlog, ?_⟩
      rw [State.cell_setCell]
      exact ⟨hreg, rfl, hpc, rfl, honly⟩
    case logical =>
      obtain ⟨hreg, hrand, hpc, -⟩ := setReg_next_facts (q := drawn (s.cell c).seq (f.imm.toNat % 16)) hn f.rd
        (logicalWord s c f r)
      refine ⟨_, exec_rdrand_logical hi hcmd hlog, ?_⟩
      unfold OnlySeq
      rw [State.cell_setCell]
      exact ⟨hreg, hrand, hpc, rfl⟩

/-! ### Branches and jumps -/

/-- `a` is not below `b`, signed or unsigned, where `b` is at most `a`. -/
theorem not_slt_eq (a b : Word) : (!a.slt b) = decide (b.toInt ≤ a.toInt) :=
  (decide_not).symm.trans (decide_eq_decide.mpr Int.not_lt)

theorem not_ult_eq (a b : Word) : (!a.ult b) = decide (b.toNat ≤ a.toNat) :=
  (decide_not).symm.trans (decide_eq_decide.mpr Nat.not_lt)

section Jumps

variable {s : State} {c : CellIx} {f : InsFields}

/-- JAL: RD takes the address of the next word, and the program goes to the target (R437). -/
theorem exec_jal (hi : Issues s c 0x26 f [f.rd]) :
    exec (.jal c f) s = .next (s.modSeq c (fun q => (q.setReg f.rd (q.pc.setWidth 64 + 8)).goto (q.target f))) :=
  congrArg Host.Outcome.next (issue_guarded hi _ _)

/-- JR goes to RA + IMM (R437). -/
theorem exec_jr (hi : Issues s c 0x27 f [f.ra]) :
    exec (.jr c f) s = .next (s.modSeq c (fun q => q.goto (q.addrOf f))) :=
  congrArg Host.Outcome.next (issue_guarded hi _ _)

/-- The program goes on at an instruction's address inside the scratchpad. -/
theorem modSeq_goto {p : Word} (hin : p.toNat < 0x200000) (h8 : p.toNat % 8 = 0) : JumpResult s c p (s.modSeq c (·.goto p)) :=
  ⟨hin, congrArg (fun q => s.setCell c { s.cell c with seq := q }) (goto_in hin h8)⟩

end Jumps

/-- Settles O5: a branch by its comparison, and a jump to a target that is an instruction's address. -/
theorem branchesAndJumps : Obligations.BranchesAndJumps := by
  unfold Obligations.BranchesAndJumps
  refine ⟨?branches, ?jumps⟩
  case branches =>
    intro s c f hn a b pc dest ht
    exact ⟨fun hi => ⟨_, rfl, ControlLaws.branch_result _ _ (a = b) hn hi ht rfl⟩,
      fun hi => ⟨_, rfl, ControlLaws.branch_result _ _ (a ≠ b) hn hi ht rfl⟩,
      fun hi => ⟨_, rfl, ControlLaws.branch_result _ _ (a.toInt < b.toInt) hn hi ht rfl⟩,
      fun hi => ⟨_, rfl, ControlLaws.branch_result _ _ (b.toInt ≤ a.toInt) hn hi ht (not_slt_eq a b)⟩,
      fun hi => ⟨_, rfl, ControlLaws.branch_result _ _ (a.toNat < b.toNat) hn hi ht rfl⟩,
      fun hi => ⟨_, rfl, ControlLaws.branch_result _ _ (b.toNat ≤ a.toNat) hn hi ht (not_ult_eq a b)⟩⟩
  case jumps =>
    intro s c f hn pc jal jr
    refine ⟨fun hi hin => ?jal, fun hi hin h8 => ⟨_, exec_jr hi, modSeq_goto hin h8⟩⟩
    case jal =>
      have h8 : jal.toNat % 8 = 0 := ControlLaws.tgt8 _ _ hn.2
      have hgoto : ((s.cell c).seq.setReg f.rd (pc + 8)).goto jal =
          { (s.cell c).seq with
            regs := ((s.cell c).seq.setReg f.rd (pc + 8)).regs
            pc := jal.setWidth 21
            retired := sat32 (s.cell c).seq.retired 1 } := by
        rw [goto_in hin h8, Seq.setReg_eq]
      have hseq : ((s.modSeq c (fun q => (q.setReg f.rd (q.pc.setWidth 64 + 8)).goto (q.target f))).cell c).seq =
          ((s.cell c).seq.setReg f.rd (pc + 8)).goto jal := congrArg Cell.seq (State.cell_modSeq s c _)
      refine ⟨_, exec_jal hi, ?_⟩
      unfold OnlySeq
      rw [hseq]
      refine ⟨rfl, ?_⟩
      rw [hgoto]
      exact ⟨rfl, rfl, fun r => Seq.reg_setReg _ _ _ _⟩

end Sys2Proof.Proofs

/-! PROOFS. What ends a program or holds it: a program counter outside the scratchpad, FENCE, END, illegal opcodes, SYNC, QREAD,
QFLUSH and SEND. -/

namespace Sys2Proof.Proofs

open Sys2Proof Sys2Proof.Machine Sys2Proof.Claims Sys2Proof.Laws

/-! ### A program counter outside the scratchpad -/

section Leaving

variable {s : State} {c : CellIx} {opc : BitVec 8} {f : InsFields}

/-- A program counter outside the scratchpad, or off an instruction's boundary, ends the run with BAD_DESC (R433). -/
theorem modSeq_goto_badDesc {p : Word} (hcmd : (s.cell c).seq.cmd ≠ none) (hout : 0x200000 ≤ p.toNat ∨ p.toNat % 8 ≠ 0) :
    BadDesc s c (s.modSeq c (·.goto p)) := by
  obtain ⟨r, hr⟩ := Option.ne_none_iff_exists'.mp hcmd
  exact ⟨r, hr, congrArg (fun q => s.setCell c { s.cell c with seq := q }) (goto_out hout hr)⟩

/-- A branch goes to its target where its comparison holds, and to the next word where it does not (R437). -/
theorem issue_branch (hi : Issues s c opc f [f.ra, f.rb]) (i : Instr) (p : Word → Word → Bool) :
    s.issue c opc f i (bodyBranch c i f p) =
      s.modSeq c (·.goto (if p ((s.cell c).seq.reg f.ra) ((s.cell c).seq.reg f.rb) then (s.cell c).seq.target f
        else (s.cell c).seq.pc.setWidth 64 + 8)) := by
  refine (issue_guarded hi _ _).trans ?_
  exact congrArg (fun q => s.setCell c { s.cell c with seq := q }) (apply_ite (s.cell c).seq.goto _ _ _).symm

end Leaving

/-- Settles O6: JR, a BEQ that is taken and a BNE that falls through leave the scratchpad. -/
theorem programCounterLeavesTheScratchpad : Obligations.ProgramCounterLeavesTheScratchpad := by
  unfold Obligations.ProgramCounterLeavesTheScratchpad
  intro s c f hcmd h8 pc jr
  refine ⟨fun hi hout => ⟨_, exec_jr hi, modSeq_goto_badDesc hcmd hout⟩, fun hi heq hout => ?beq,
    fun hi heq hlast => ?bne⟩
  case beq =>
    refine ⟨_, congrArg Host.Outcome.next (issue_branch hi _ _), ?_⟩
    rw [if_pos (decide_eq_true heq)]
    exact modSeq_goto_badDesc hcmd (.inl hout)
  case bne =>
    refine ⟨_, congrArg Host.Outcome.next (issue_branch hi _ _), ?_⟩
    rw [if_neg (by rw [heq]; simp), hlast]
    exact modSeq_goto_badDesc hcmd (.inl (by decide))

/-! ### FENCE, END and illegal opcodes -/

section Ends

variable {s : State} {c : CellIx} {opc : BitVec 8} {f : InsFields}

/-- The program goes on at the next word, where that lies in the scratchpad. -/
theorem retire_result (hn : NextInside s c) : JumpResult s c ((s.cell c).seq.pc.setWidth 64 + 8) (s.retire c) := by
  obtain ⟨hin, h8⟩ := hn
  have hnext : ((s.cell c).seq.pc.setWidth 64 + 8 : Word).toNat = (s.cell c).seq.pc.toNat + 8 := by bv_omega
  exact modSeq_goto (by omega) (by omega)

/-- FENCE goes on once no operation of the run is left, and stays in issue until then (R437). -/
theorem exec_fenceI (hi : Issues s c 0x2E f []) :
    exec (.fenceI c f) s =
      .next (if (s.cell c).ops.any (fun o => decide (o.run = (s.cell c).seq.run)) then s else s.retire c) :=
  congrArg Host.Outcome.next (State.issue_at _ _ hi)

/-- A run that deals no tiles ends with its code, whatever that is (R441). -/
theorem endWith_whole {q : Seq} {r : CmdRun} (hcmd : q.cmd = some r) (hdiv : r.divide = false) (code : Code) :
    q.endWith code = { q with
      running := false
      cmd := some { r with codes := r.codes ++ [code], ended := true, stop := r.stop || stops code } } := by
  unfold Seq.endWith
  simp only [hcmd, hdiv, Bool.and_false, Bool.false_and, Bool.false_eq_true, if_false]

/-- A code that stops the command ends the run, of dealt tiles or not (R430). -/
theorem endWith_stops {q : Seq} {r : CmdRun} (hcmd : q.cmd = some r) {code : Code} (hstop : stops code = true) :
    q.endWith code = { q with
      running := false
      cmd := some { r with codes := r.codes ++ [code], ended := true, stop := true } } := by
  unfold Seq.endWith
  simp only [hcmd, hstop, Bool.not_true, Bool.false_and, Bool.false_eq_true, if_false, Bool.or_true]

/-- An opcode of neither table completes the run with BAD_DESC (R437). -/
theorem illegalOpcode_badDesc (hi : Issues s c opc f []) (hillegal : legalOpcode opc.toNat = false)
    (hcmd : (s.cell c).seq.cmd ≠ none) : ∃ t, exec (.illegalOpcode c opc f) s = .next t ∧ BadDesc s c t := by
  obtain ⟨r, hr⟩ := Option.ne_none_iff_exists'.mp hcmd
  have hbody : bodyIllegal c opc f s =
      s.modSeq c (fun q => { q with retired := sat32 q.retired 1 }.endWith ccBadDesc) := by
    unfold bodyIllegal
    rw [hillegal]
    rfl
  refine ⟨_, congrArg Host.Outcome.next ((State.issue_at _ _ hi).trans hbody), r, hr, ?_⟩
  exact congrArg (fun q => s.setCell c { s.cell c with seq := q })
    (endWith_stops (q := { (s.cell c).seq with retired := sat32 (s.cell c).seq.retired 1 }) hr (by decide))

end Ends

/-- Settles O7: FENCE by the operations of the run, END by its code, and two opcodes of neither table. -/
theorem fenceEndAndIllegalOpcodes : Obligations.FenceEndAndIllegalOpcodes := by
  unfold Obligations.FenceEndAndIllegalOpcodes
  intro s c f x
  refine ⟨fun hi hn hnone => ?fenceGoes, fun hi hsome => ?fenceStays, fun hi r hcmd hdiv => ?ends,
    fun hi hcmd => illegalOpcode_badDesc hi (by decide) hcmd, fun hi hcmd => illegalOpcode_badDesc hi (by decide) hcmd⟩
  case fenceGoes =>
    have hany : ¬ x.ops.any (fun o => decide (o.run = x.seq.run)) = true := by simpa using hnone
    refine ⟨_, exec_fenceI hi, ?_⟩
    rw [if_neg hany]
    exact retire_result hn
  case fenceStays =>
    have hany : x.ops.any (fun o => decide (o.run = x.seq.run)) = true := by simpa using hsome
    rw [exec_fenceI hi, if_pos hany]
  case ends =>
    refine ⟨_, congrArg Host.Outcome.next (State.issue_at _ _ hi), ?_⟩
    exact congrArg (fun q => s.setCell c { s.cell c with seq := q })
      (endWith_whole (q := { x.seq with retired := sat32 x.seq.retired 1 }) hcmd hdiv _)

/-! ### SYNC, QREAD, QFLUSH and SEND -/

section Queues

variable {now : Word} {q : Queue}

/-- Nothing enters a queue of depth 0. -/
theorem fill_zero (now : Word) (q : Queue) : Queue.fill 0 now q = q := by
  unfold Queue.fill
  split
  · rfl
  · simp

/-- A read delivers no item while a flush is pending, or of an empty queue (R344, R350). -/
theorem pop_none (h : q.flushing = true ∨ q.items = []) : Queue.pop 0 now q = (none, q) := by
  unfold Queue.pop
  split
  · rfl
  · next hflush => rw [h.resolve_left hflush]

/-- Else it takes the head item, and the timer restarts where items are left (R344, R354). -/
theorem pop_head {i : QItem} {l : List QItem} (hflush : q.flushing = false) (hitems : q.items = i :: l) :
    Queue.pop 0 now q =
      (some i, { q with items := l, midHead := !i.eop, timer := if l = [] then none else some now }) := by
  unfold Queue.pop
  simp only [hflush, hitems, Bool.false_eq_true, if_false, fill_zero]

/-- The flush of a queue with none pending (R349). -/
theorem flush_eq (hflush : q.flushing = false) :
    q.flush = { q with
      items := [], discarded := sat16 q.discarded q.items.length, flushing := q.partialIn, midHead := false, timer := none } :=
  if_neg (ne_true_of_eq_false hflush)

end Queues

section Instructions

variable {s : State} {c : CellIx} {f : InsFields} {b : List Word}

/-- The SYNC_OP that a SYNC of cell `c` sends (R442). -/
def syncMsgOf (s : State) (c : CellIx) (f : InsFields) : Msg :=
  let q := (s.cell c).seq
  syncMsg (s.cellAddr c) (opTag c q.nextOp) ((q.reg f.rb).setWidth 16) (q.reg f.ra) (s.cell c).job f.imm

/-- Its operation with BLOCK, before it is numbered: the answer is known by its tag, and RD takes its value (R442). -/
def syncUnitOp (s : State) (c : CellIx) (f : InsFields) : UnitOp :=
  { id := 0, unit := .net, blocking := true, done := false, tag := some (opTag c (s.cell c).seq.nextOp), regs := [(f.rd, 0)] }

/-- SYNC sends its message; with BLOCK its operation waits for the answer by its tag, without BLOCK it is over (R442). -/
theorem exec_syncOp (hi : Issues s c 0x58 f [f.rd, f.ra, f.rb]) :
    exec (.syncOp c f) s = .next (
      if f.imm.getLsbD 22 then
        ((s.sendMsg (syncMsgOf s c f)).addOp c (syncUnitOp s c f)).waitOp c (some (6, .syncOp c f))
      else ((s.sendMsg (syncMsgOf s c f)).addOp c { id := 0, unit := .net }).retire c) :=
  congrArg Host.Outcome.next (issue_guarded hi _ _)

/-- QREAD takes the head item of RPL, if a read delivers one, and waits for RD and RB to take its words (R339, R344). -/
theorem exec_qread (hi : Issues s c 0x5C f [f.rd, f.rb]) {item : Option QItem} {q : Queue}
    (hpop : Queue.pop 0 s.runTime (s.cell c).rplq = (item, q)) :
    exec (.qread c f) s = .next (((s.modCell c (fun x => ({ x with rplq := q }).fillRpl s.runTime)).addOp c
      { id := 0, unit := .seq, blocking := true,
        regs := [(f.rd, (QItem.words item).1), (f.rb, (QItem.words item).2)] }).waitOp c none) := by
  refine congrArg Host.Outcome.next ((issue_guarded hi _ _).trans ?_)
  rw [hpop]

/-- QFLUSH with no flush pending empties RPL, and waits where the rest of a packet has to be discarded (R349, R351). -/
theorem exec_qflush (hi : Issues s c 0x5D f []) (hflush : (s.cell c).rplq.flushing = false) :
    exec (.qflush c f) s = .next (((s.modCell c (fun x => { x with rplq := { x.rplq with
        items := [], discarded := sat16 x.rplq.discarded x.rplq.items.length, flushing := x.rplq.partialIn,
        midHead := false, timer := none } })).addOp c
      { id := 0, unit := .seq, blocking := true, done := !(s.cell c).rplq.partialIn }).waitOp c none) := by
  refine congrArg Host.Outcome.next ((issue_guarded hi _ _).trans ?_)
  unfold State.modCell
  simp only [State.cell_setCell, flush_eq hflush]

/-- The block of a SEND is good: a canonical DEST, and data on 8-byte boundaries inside the scratchpad, of a length that a window
takes (R317, Table 12-8). -/
def SendFits (b : List Word) : Prop :=
  UA.canonical (b.getD 0 0) = true ∧ bf b 3 20 0 % 8 = 0 ∧ bf b 2 61 41 % 8 = 0 ∧ bf b 3 20 0 + bf b 2 61 41 ≤ 2 ^ 21 ∧
    bf b 2 61 41 ≤ 524288

/-- SEND of a good block with data, whose rows meet no stall, sends its WINDOW_WRITE and waits until it has left (R317, R318). -/
theorem exec_sendW (hi : IssuesBlock s c 0x60 f [f.ra] maskSend b) (hfits : SendFits b) (hsome : bf b 2 61 41 ≠ 0)
    (hrows : (s.cell c).hazard [] [rowSpan 0 (bf b 3 20 0) (bf b 2 61 41)] [] = none) :
    exec (.sendW c f) s = .next (((s.sendMsg (sendMsgOf (s.cellAddr c) b (s.cell c).job
        (Memory.readBytes (s.cell c).spad (bf b 3 20 0) (bf b 2 61 41)))).addOp c
      { id := 0, unit := .net, reads := [rowSpan 0 (bf b 3 20 0) (bf b 2 61 41)], blocking := true }).waitOp c none) := by
  obtain ⟨hdest, ha, hn, hend, hmax⟩ := hfits
  have hgood : ¬ (!UA.canonical (b.getD 0 0) || decide (bf b 3 20 0 % 8 ≠ 0 ∨ 2 ^ 21 < bf b 3 20 0 + bf b 2 61 41 ∨
      bf b 2 61 41 % 8 ≠ 0 ∨ 524288 < bf b 2 61 41)) = true := by
    rw [hdest, decide_eq_false (by omega)]
    decide
  refine congrArg Host.Outcome.next ((issue_withBlock hi _ _).trans ((if_neg hgood).trans ?_))
  rw [if_neg hsome]
  exact State.guarded_none _ _ hrows

/-- A change of the cell that leaves the sequencer and the operations alone, and then an operation that holds the program. -/
theorem modCell_heldOn {g : Cell → Cell} (o : UnitOp) (cause : Option (BitVec 4 × Instr))
    (hseq : (g (s.cell c)).seq = (s.cell c).seq) (hops : (g (s.cell c)).ops = (s.cell c).ops) :
    HeldOn s (s.modCell c g) c o cause (((s.modCell c g).addOp c o).waitOp c cause) :=
  State.addOp_wait o cause (by rw [State.cell_modCell, hseq]) (by rw [State.cell_modCell, hops]) rfl

end Instructions

/-- Settles O16: each instruction sends its message or changes RPL, which leaves the sequencer and the operations alone, and
leaves its own operation in flight. -/
theorem syncQueueAndSendInstructions : Obligations.SyncQueueAndSendInstructions := by
  unfold Obligations.SyncQueueAndSendInstructions
  intro s c f b x tag m
  have hsent (m : Msg) : ((s.sendMsg m).cell c).seq = x.seq ∧ ((s.sendMsg m).cell c).ops = x.ops ∧
      (s.sendMsg m).runTime = s.runTime := by
    rw [sendMsg_cell]
    exact ⟨rfl, rfl, (sendMsg_cells s m).2⟩
  refine ⟨fun hi => ?sync, fun hi => ⟨fun hnone => ?qreadNone, fun i l hflush hitems => ?qreadItem⟩, fun hi hflush => ?qflush,
    ?send⟩
  case sync =>
    obtain ⟨hseq, hops, htime⟩ := hsent m
    refine ⟨fun hblock => ⟨_, exec_syncOp hi, ?_⟩, fun hblock hn => ⟨_, exec_syncOp hi, ?_⟩⟩
    · rw [if_pos hblock]
      exact State.addOp_wait (syncUnitOp s c f) _ hseq hops htime
    · rw [if_neg (ne_true_of_eq_false hblock)]
      exact State.addOp_retire _ hn hseq hops
  case qreadNone => exact ⟨_, exec_qread hi (pop_none hnone), modCell_heldOn _ none rfl rfl⟩
  case qreadItem => exact ⟨_, exec_qread hi (pop_head hflush hitems), modCell_heldOn _ none rfl rfl⟩
  case qflush => exact ⟨_, exec_qflush hi hflush, modCell_heldOn _ none rfl rfl⟩
  case send =>
    intro a n hi hdest ha hn hend hmax hsome hrows
    obtain ⟨hseq, hops, htime⟩ := hsent (sendMsgOf (s.cellAddr c) b x.job (Memory.readBytes x.spad a n))
    exact ⟨_, exec_sendW hi ⟨hdest, ha, hn, hend, hmax⟩ hsome hrows, State.addOp_wait _ _ hseq hops htime⟩

end Sys2Proof.Proofs

/-! PROOFS. The event controller: its registers, claims and completes, firings, masks and timers. -/

namespace Sys2Proof.Proofs

open Sys2Proof Sys2Proof.Machine Sys2Proof.Claims Sys2Proof.Laws Sys2Proof.Laws.HostDieLaws

/-! ### What passes and firings leave alone -/

/-- What no routing pass and no firing changes: the masks, FLR, and of every hart BADCOMP and SENDERR. -/
def unfired (e : Evc) : SMap Word × Bool × (Nat → Bool × Bool) :=
  (e.smask, e.flr, fun h => ((e.hart h).badcomp, (e.hart h).sendErr))

theorem pass_unfired (e : Evc) : unfired e.pass = unfired e := by
  have hpass := pass_part e
  simp only [passPart, Prod.mk.injEq] at hpass
  obtain ⟨⟨-, hmask, -, -, -, -, hflr⟩, -, -, hharts⟩ := hpass
  have herrors (h : Nat) : (e.pass.hart h).badcomp = (e.hart h).badcomp ∧
      (e.pass.hart h).sendErr = (e.hart h).sendErr := by
    have hregs := congrFun hharts h
    simp only [Prod.mk.injEq] at hregs
    obtain ⟨-, -, -, hbad, -, -, herr⟩ := hregs
    exact ⟨hbad, herr⟩
  simp only [unfired, hmask, hflr, herrors]

theorem fire_unfired (e : Evc) (id : Nat) : unfired (e.fire id) = unfired e := by
  unfold Evc.fire
  split
  · exact pass_unfired (e.modSrc id fun x => { x with st := .pending })
  · rfl
  · rfl
  · rfl

theorem fireStatus_unfired (e : Evc) (n : Nat) : unfired (e.fireStatus n) = unfired e := by
  unfold Evc.fireStatus
  extract_lets g p e'
  split
  · rfl
  · split
    · exact fire_unfired e' (0x1000 + g)
    · rfl

theorem pass_badcomp (e : Evc) (h : Nat) : (e.pass.hart h).badcomp = (e.hart h).badcomp := by
  have hpass := pass_unfired e
  simp only [unfired, Prod.mk.injEq, funext_iff] at hpass
  obtain ⟨-, -, hharts⟩ := hpass
  exact (hharts h).1

theorem pass_st (e : Evc) (i : Nat) : (e.pass.src i).st = (e.src i).st := by
  obtain ⟨-, -, -, -, -, hsrc, -⟩ := pass_facts e
  exact (hsrc i).1

/-! ### Claims and completes (R474, R475, Table 13-7) -/

section Completes

variable {e : Evc} {h id : Nat}

/-- The event controller after a write of `w1c` to the hart's BADCOMP (R5). -/
def clearBadcomp (e : Evc) (h : Nat) (w1c : Bool) : Evc :=
  e.modHart h fun k => { k with badcomp := k.badcomp && !w1c }

theorem clearBadcomp_src (e : Evc) (h : Nat) (w1c : Bool) (i : Nat) : (clearBadcomp e h w1c).src i = e.src i :=
  rfl

/-- The complete of a job-class source by the hart that holds it: PENDING again where it fired meanwhile, else IDLE. -/
theorem complete_own_facts (hid : evIdOk id = true) (hst : (e.src id).st = .active ∨ (e.src id).st = .activePending)
    (hown : (e.src id).hart.toNat = h) (hjob : id < 0x1000) :
    ((e.complete h id).src id).st = (if (e.src id).st = .activePending then .pending else .idle) ∧
      ((e.complete h id).hart h).badcomp = (e.hart h).badcomp := by
  let e' := e.modSrc id fun x => { x with st := if (e.src id).st = .activePending then .pending else .idle }
  have hpass : e.complete h id = e'.pass := by
    unfold Evc.complete
    simp only [hid, hst, hown, hjob, and_self, if_true, decide_eq_true_eq, e']
  rw [hpass, pass_st, pass_badcomp, src_modSrc, if_pos rfl]
  exact ⟨rfl, rfl⟩

/-- The complete of a source that is not active (R475). -/
theorem complete_inactive (hactive : (e.src id).st ≠ .active) (hpending : (e.src id).st ≠ .activePending) :
    e.complete h id = e.modHart h (fun k => { k with badcomp := true }) :=
  if_neg fun ⟨_, hst, _⟩ => hst.elim hactive hpending

/-- No complete moves another source. -/
theorem complete_others {i : Nat} (hi : i ≠ id) : ((e.complete h id).src i).st = (e.src i).st := by
  unfold Evc.complete
  extract_lets x again
  split
  · rw [pass_st, src_modSrc, if_neg (Ne.symm hi)]
  · rfl

end Completes

/-! ### Sources, masks and pending bits -/

section Sources

variable {e : Evc}

/-- A write of a source's register sets PRIO and TARGETS, and moves no source (Table 13-10). -/
theorem setSource_facts (e : Evc) (id : Nat) (v : Word) :
    ((e.setSource id v).src id).prio = BitVec.ofNat 4 (fld v 3 0) ∧
      ((e.setSource id v).src id).targets = BitVec.ofNat 16 (fld v 23 8) ∧
      ∀ i, ((e.setSource id v).src i).st = (e.src i).st := by
  unfold Evc.setSource
  obtain ⟨-, -, -, -, -, hsrc, -⟩ := pass_facts (e.modSrc id fun x =>
    { x with prio := BitVec.ofNat 4 (fld v 3 0), targets := BitVec.ofNat 16 (fld v 23 8) })
  refine ⟨(hsrc id).2.1.trans ?_, (hsrc id).2.2.trans ?_, fun i => (hsrc i).1.trans ?_⟩
  · rw [src_modSrc, if_pos rfl]
  · rw [src_modSrc, if_pos rfl]
  · rw [src_modSrc]
    split
    · next heq => rw [heq]
    · rfl

/-- A write of a group's mask leaves the pending bits, and fires the group where it enables one of them (R475). -/
theorem setMask_facts (e : Evc) (g : Nat) (v : Word) :
    SMap.getD (e.setMask g v).smask g 0 = v ∧ (e.setMask g v).spend = e.spend ∧
      (SMap.getD e.spend g 0 &&& v &&& ~~~(SMap.getD e.smask g 0) ≠ 0 →
        ((e.setMask g v).src (0x1000 + g)).st = fired (e.src (0x1000 + g)).st) := by
  unfold Evc.setMask
  extract_lets new e'
  obtain ⟨hspend, hmask, -⟩ := pass_facts (if new = 0 then e' else e'.fire (0x1000 + g))
  obtain ⟨hfired, -, hfspend, hfmask, -⟩ := fire_facts e' (0x1000 + g)
  rw [hspend, hmask, pass_st]
  by_cases hnew : new = 0
  · rw [if_pos hnew]
    exact ⟨SMap.getD_set_self _ _ _ _, rfl, fun hne => absurd hnew hne⟩
  · rw [if_neg hnew, hfmask]
    exact ⟨SMap.getD_set_self _ _ _ _, hfspend, fun _ => hfired⟩

/-- A status source whose pending bit is set changes nothing by firing (R476). -/
theorem fireStatus_pending_again {n : Nat} (hset : (SMap.getD e.spend (n / 64) 0).getLsbD (n % 64) = true) :
    e.fireStatus n = e :=
  if_pos hset

theorem fireStatus_smask (e : Evc) (n : Nat) : (e.fireStatus n).smask = e.smask :=
  congrArg Prod.fst (fireStatus_unfired e n)

end Sources

/-! ### Timers -/

section Timers

variable {s : State} {k : Nat} {v : Word}

/-- A timer whose time has come is disarmed and fires its source (Table 13-8). -/
theorem timerFire_due (hv : v ≠ 0) (hdue : v.toNat ≤ s.timeHost.toNat) :
    s.timerFire k (some v) =
      (s.modEvc fun e => { e with timers := SMap.put (SMap.put e.timers k v 0) k 0 0 }).fire (16 + k) := by
  unfold State.timerFire
  simp only [State.modEvc, SMap.getD_put, if_true, if_pos (And.intro hv hdue)]

/-- One whose time has not come is armed and does not fire. -/
theorem timerFire_early (hearly : s.timeHost.toNat < v.toNat) :
    s.timerFire k (some v) = s.modEvc fun e => { e with timers := SMap.put e.timers k v 0 } := by
  have hwaits : ¬ (v ≠ 0 ∧ v.toNat ≤ s.timeHost.toNat) := fun ⟨_, hle⟩ => Nat.not_le.mpr hearly hle
  unfold State.timerFire
  simp only [State.modEvc, SMap.getD_put, if_true, if_neg hwaits]

end Timers

/-! ### The commands -/

section EventCommands

variable {s : State}

theorem onlyEvc_modEvc (s : State) (f : Evc → Evc) : OnlyEvc s (s.modEvc f) :=
  rfl

theorem exec_evcClaim (hup : s.hostUp = true) (h : Fin 16) :
    exec (.evcClaim h) s = .next (s.modEvc fun e => (e.claim h.val).2) :=
  congrArg Host.Outcome.next (onlyIf_true _ _ _ hup)

theorem exec_evcComplete (hup : s.hostUp = true) (h : Fin 16) (id : BitVec 13) (w1c : Bool) :
    exec (.evcComplete h id w1c) s = .next (s.modEvc fun e =>
      (clearBadcomp e h.val w1c).complete h.val id.toNat) :=
  congrArg Host.Outcome.next (onlyIf_true _ _ _ hup)

theorem exec_evcSrcWrite (hup : s.hostUp = true) {n : BitVec 12} (hn : n ≠ 0) (v : Word) :
    exec (.evcSrcWrite n v) s = .next (s.modEvc (·.setSource n.toNat v)) :=
  congrArg Host.Outcome.next (onlyIf_true _ _ _ (by rw [hup, decide_eq_true hn]; rfl))

theorem exec_evcSgrpWrite (hup : s.hostUp = true) (g : Fin 64) (v : Word) :
    exec (.evcSgrpWrite g v) s = .next (s.modEvc (·.setSource (0x1000 + g.val) v)) :=
  congrArg Host.Outcome.next (onlyIf_true _ _ _ hup)

theorem exec_evcThreshWrite (hup : s.hostUp = true) (h : Fin 16) (v : Word) :
    exec (.evcThreshWrite h v) s =
      .next (s.modEvc fun e => (e.modHart h.val fun k => { k with thresh := BitVec.ofNat 4 (fld v 3 0) }).pass) :=
  congrArg Host.Outcome.next (onlyIf_true _ _ _ hup)

theorem exec_evcHartCtlWrite (hup : s.hostUp = true) (h : Fin 16) (v : Word) :
    exec (.evcHartCtlWrite h v) s =
      .next (s.modEvc fun e =>
        (e.modHart h.val fun k => { k with online := v.getLsbD 0, machine := v.getLsbD 1 }).pass) :=
  congrArg Host.Outcome.next (onlyIf_true _ _ _ hup)

theorem exec_evcSmaskWrite (hup : s.hostUp = true) (g : Fin 64) (v : Word) :
    exec (.evcSmaskWrite g v) s = .next (s.modEvc (·.setMask g.val v)) :=
  congrArg Host.Outcome.next (onlyIf_true _ _ _ hup)

theorem exec_evcSpendRead (hup : s.hostUp = true) (g : Fin 64) :
    exec (.evcSpendRead g) s = .next (s.modEvc fun e => { e with spend := SMap.set e.spend g.val 0 }) :=
  congrArg Host.Outcome.next (onlyIf_true _ _ _ hup)

theorem exec_evcSwfire (hup : s.hostUp = true) {v : Word} (hv : 64 ≤ fld v 11 0) :
    exec (.evcSwfire v) s = .next (s.fire (fld v 11 0)) :=
  congrArg Host.Outcome.next (onlyIf_true _ _ _ (by rw [hup, decide_eq_true hv]; rfl))

/-- A job-class source that can fire does so on its occasion (Table 13-4). -/
theorem exec_sourceFire (hup : s.up = true) {id : BitVec 13} (hid : evIdOk id.toNat = true)
    (hfires : neverFires id.toNat = false) (hjob : id.toNat < 0x1000) :
    exec (.sourceFire id) s = .next (s.fire id.toNat) :=
  congrArg Host.Outcome.next (onlyIf_true _ _ _ (by rw [hup, hid, hfires, decide_eq_true hjob]; rfl))

theorem exec_statusSourceFire (hup : s.up = true) {n : BitVec 12} (hn : n.toNat < 3599) :
    exec (.statusSourceFire n) s = .next (s.fireStatus n.toNat) :=
  congrArg Host.Outcome.next (onlyIf_true _ _ _ (by rw [hup, decide_eq_true hn]; rfl))

theorem exec_timerFire (hup : s.up = true) (hfrozen : s.frozen = false) (k : Fin 32) (armed : Option Word) :
    exec (.timerFire k armed) s = .next (s.timerFire k.val armed) :=
  congrArg Host.Outcome.next (onlyIf_true _ _ _ (by rw [hup, hfrozen]; rfl))

end EventCommands

/-- Settles O36: each command changes the event controller by one of its operations, whose facts are stated above. -/
theorem eventController : Obligations.EventController := by
  unfold Obligations.EventController
  intro s hup e
  obtain ⟨hrun, -⟩ := up_of_host hup
  refine ⟨fun h => ?claim, fun h id w1c => ?complete, fun n v hn => ?srcWrite, fun g v => ?sgrpWrite, fun h v => ?thresh,
    fun h v => ?hartCtl, fun g v => ?smask, fun g => ?spendRead, fun v hv => ?swfire, fun id hid hfires hjob => ?source,
    fun n hn => ?status, fun k v hfrozen hv => ?timer⟩
  case claim =>
    intro id
    refine ⟨_, exec_evcClaim hup h, onlyEvc_modEvc _ _, ?_⟩
    rw [State.modEvc_evc]
    by_cases hid : id = 0
    · rw [claim_zero s.evc h.val hid]
      exact ⟨rfl, rfl, fun _ => rfl, fun hne => absurd hid hne⟩
    · obtain ⟨hspend, hmask, -, -, hclaims, -⟩ := pass_facts (claimed e h.val id)
      rw [claim_eq s.evc h.val hid]
      exact ⟨hspend, hmask, fun hnone => absurd hnone hid, fun _ =>
        ⟨claim_self e h.val id, hclaims, fun i hi => claim_other e h.val id i (Ne.symm hi)⟩⟩
  case complete =>
    intro x
    refine ⟨_, exec_evcComplete hup h id w1c, onlyEvc_modEvc _ _, ?_⟩
    rw [State.modEvc_evc]
    refine ⟨fun i hi => complete_others (e := clearBadcomp e h.val w1c) hi, fun hid hown hjob => ?_,
      fun hactive hpending => ?_⟩
    · have hdone (hst : x.st = .active ∨ x.st = .activePending) :=
        complete_own_facts (e := clearBadcomp e h.val w1c) hid hst hown hjob
      rw [clearBadcomp_src] at hdone
      refine ⟨fun hst => ?_, fun hst => ?_, fun hst => ?_⟩
      · exact (hdone (.inl hst)).1.trans (if_neg (by rw [hst]; decide))
      · exact (hdone (.inr hst)).1.trans (if_pos hst)
      · refine (hdone hst).2.trans ?_
        rw [clearBadcomp, hart_modHart, if_pos rfl]
    · exact (complete_inactive (e := clearBadcomp e h.val w1c) hactive hpending).trans (modHart_modHart e h.val _ _)
  case srcWrite =>
    refine ⟨_, exec_evcSrcWrite hup hn v, onlyEvc_modEvc _ _, ?_⟩
    rw [State.modEvc_evc]
    exact setSource_facts e n.toNat v
  case sgrpWrite =>
    refine ⟨_, exec_evcSgrpWrite hup g v, onlyEvc_modEvc _ _, ?_⟩
    rw [State.modEvc_evc]
    exact setSource_facts e (0x1000 + g.val) v
  case thresh =>
    obtain ⟨-, -, -, -, -, hsrc, hhart⟩ :=
      pass_facts (e.modHart h.val fun k => { k with thresh := BitVec.ofNat 4 (fld v 3 0) })
    refine ⟨_, exec_evcThreshWrite hup h v, onlyEvc_modEvc _ _, ?_⟩
    rw [State.modEvc_evc]
    refine ⟨(hhart h.val).1.trans ?_, fun i => (hsrc i).1⟩
    rw [hart_modHart, if_pos rfl]
  case hartCtl =>
    obtain ⟨-, -, -, -, -, hsrc, hhart⟩ :=
      pass_facts (e.modHart h.val fun k => { k with online := v.getLsbD 0, machine := v.getLsbD 1 })
    obtain ⟨-, honline, hmachine⟩ := hhart h.val
    refine ⟨_, exec_evcHartCtlWrite hup h v, onlyEvc_modEvc _ _, ?_⟩
    rw [State.modEvc_evc]
    refine ⟨honline.trans ?_, hmachine.trans ?_, fun i => (hsrc i).1⟩ <;>
      rw [hart_modHart, if_pos rfl]
  case smask =>
    refine ⟨_, exec_evcSmaskWrite hup g v, onlyEvc_modEvc _ _, ?_⟩
    rw [State.modEvc_evc]
    exact setMask_facts e g.val v
  case spendRead =>
    refine ⟨_, exec_evcSpendRead hup g, rfl, SMap.getD_set_self _ _ _ _, fun i hi => ?_⟩
    exact (SMap.getD_set _ _ _ _ _).trans (if_neg (Ne.symm hi))
  case swfire =>
    obtain ⟨hfired, -, hspend, -⟩ := fire_facts e (fld v 11 0)
    refine ⟨_, exec_evcSwfire hup hv, onlyEvc_modEvc _ _, ?_⟩
    rw [State.fire, State.modEvc_evc]
    exact ⟨hfired, hspend⟩
  case source =>
    obtain ⟨hfired, hothers, -⟩ := fire_facts e id.toNat
    refine ⟨_, exec_sourceFire hrun hid hfires hjob, onlyEvc_modEvc _ _, ?_⟩
    rw [State.fire, State.modEvc_evc]
    exact ⟨hfired, hothers⟩
  case status =>
    refine ⟨_, exec_statusSourceFire hrun hn, onlyEvc_modEvc _ _, fireStatus_pending s n.toNat,
      fireStatus_smask e n.toNat, fun hset => ?_⟩
    rw [State.fireStatus, State.modEvc, fireStatus_pending_again hset]
  case timer =>
    refine ⟨_, exec_timerFire hrun hfrozen k (some v), ?_⟩
    rcases Nat.lt_or_ge s.timeHost.toNat v.toNat with hearly | hdue
    · rw [timerFire_early hearly]
      refine ⟨rfl, fun hle => absurd hle (Nat.not_le.mpr hearly), fun _ => ⟨?_, rfl⟩⟩
      exact (SMap.getD_put _ _ _ _ _).trans (if_pos rfl)
    · rw [timerFire_due hv hdue]
      obtain ⟨hfired, -, -, -, htimers⟩ :=
        fire_facts { e with timers := SMap.put (SMap.put e.timers k.val v 0) k.val 0 0 } (16 + k.val)
      refine ⟨onlyEvc_modEvc _ _, fun _ => ⟨?_, hfired⟩, fun hlt => absurd hlt (Nat.not_lt.mpr hdue)⟩
      rw [State.fire, State.modEvc_evc, State.modEvc_evc, htimers, SMap.getD_put, if_pos rfl]

end Sys2Proof.Proofs

/-! PROOFS. The host message port, HIQ as the harts read it, and the workstation window. -/

namespace Sys2Proof.Proofs

open Sys2Proof Sys2Proof.Machine Sys2Proof.Claims Sys2Proof.Laws Sys2Proof.Laws.HostDieLaws

/-! ### Sends of the host port (R465 to R469) -/

section Sends

variable {s : State} {h : Nat} {addr : BitVec 50} {w1c : Bool} {m : Msg} {items : List Payload} {n : Nat}

/-- The event controller with SENDERR and EVC_SEND_ADDR of a hart written, as they are before a GO (R5, R8). -/
def sendWritten (e : Evc) (h : Nat) (addr : BitVec 50) (w1c : Bool) : Evc :=
  e.modHart h fun k => { k with sendAddr := addr &&& ~~~(0xF : BitVec 50), sendErr := k.sendErr && !w1c }

/-- `s` with those registers written. -/
def sendReady (s : State) (h : Nat) (addr : BitVec 50) (w1c : Bool) : State :=
  s.modEvc (sendWritten · h addr w1c)

/-- A GO by the state of the port, the count and the address. -/
def goFrom (s u : State) (h : Nat) (addr : BitVec 50) (n : Nat) (items : List Payload) : State :=
  if (s.evc.hart h).busy then u.sendErr h
  else if n = 0 then u
  else if addr.toNat % 16 ≠ 0 ∨ ¬ s.inCarveOut addr then u.sendErr h
  else (u.modHart h fun k => { k with busy := true }).portSendAll h (n + 1) (sliceD items 0 n 0)

theorem exec_evcSendGo (hup : s.hostUp = true) (h : Fin 16) (addr : BitVec 50) (n : BitVec 32) (items : List Payload)
    (w1c : Bool) :
    exec (.evcSendGo h addr n items w1c) s =
      .next (goFrom s (sendReady s h.val addr w1c) h.val addr n.toNat items) := by
  have hwritten : (s.modHart h.val fun k => { k with sendErr := k.sendErr && !w1c }).modHart h.val
      (fun k => { k with sendAddr := addr &&& ~~~(0xF : BitVec 50) }) = sendReady s h.val addr w1c := by
    simp only [State.modHart, State.modEvc, modHart_modHart]
    rfl
  have hbusy : ((s.modHart h.val fun k => { k with sendErr := k.sendErr && !w1c }).evc.hart h.val).busy =
      (s.evc.hart h.val).busy := by
    rw [State.modHart, State.modEvc_evc, hart_modHart, if_pos rfl]
  refine (congrArg Host.Outcome.next (onlyIf_true _ _ _ hup)).trans (congrArg Host.Outcome.next ?_)
  unfold State.sendGo goFrom
  simp only [hwritten, hbusy]
  rfl

/-- SENDERR set is a change of the event controller, in which the hart's SENDERR reads 1 (R466, R468). -/
theorem sendErr_facts (s : State) (h : Nat) : OnlyEvc s (s.sendErr h) ∧ ((s.sendErr h).evc.hart h).sendErr = true := by
  refine ⟨rfl, ?_⟩
  have hrest := fireStatus_unfired (s.evc.modHart h fun k => { k with sendErr := true }) srcSend
  simp only [unfired, Prod.mk.injEq, funext_iff] at hrest
  obtain ⟨-, -, hharts⟩ := hrest
  refine (hharts h).2.trans ?_
  rw [hart_modHart, if_pos rfl]

/-- A message for a unit of this device is in flight once it has left the port, with SRC the device (R45, R465). -/
theorem portSend_local (hcanon : UA.canonical m.dest = true) (hlocal : s.local? m.dest = true) :
    (s.portSend m).net.inFlight = s.net.inFlight ++ [{ m with src := s.devAddr }] ∧ (s.portSend m).cells = s.cells ∧
      (s.portSend m).mem = s.mem ∧ (s.portSend m).evc = s.evc := by
  let m' : Msg := { m with src := s.devAddr }
  obtain ⟨_, rfl, hflight, hdev⟩ := crossHost_rest s.net (UA.digit m'.dest 1 % 2) true (s.net.hostWay m') m'.items
  let u : State := { s with net := s.net.crossHost (UA.digit m'.dest 1 % 2) true (s.net.hostWay m') m'.items }
  have hsend : s.portSend m = u.sendMsg m' := if_pos hcanon
  have hreach : u.local? m'.dest = true := by rw [← hlocal]; exact congrArg (fun d => decide (UA.device m.dest = d)) hdev
  rw [hsend]
  refine ⟨(sendMsg_inFlight u m' hreach).trans (congrArg (· ++ [m']) hflight), ?_⟩
  rw [sendMsg_local_eq u m' hreach]
  exact ⟨rfl, rfl, rfl⟩

/-- A message whose DEST is not canonical comes back into HIQ (R467). -/
theorem portSend_bounces (hcanon : UA.canonical m.dest = false) (hflush : s.evc.hiq.flushing = false) :
    (s.portSend m).net = s.net ∧ (s.portSend m).cells = s.cells ∧
      (s.portSend m).evc.hiq.items = s.evc.hiq.items ++ (s.evc.hiq.inflow ++
        ({ m with src := s.devAddr, bounced := true, code := ccBadDesc } : Msg).items).take
          (1024 - s.evc.hiq.items.length) := by
  let m' : Msg := { m with src := s.devAddr, bounced := true, code := ccBadDesc }
  let u := s.fireStatus srcHostBadDesc
  have hsend : s.portSend m = u.toHiq m' := if_neg (ne_true_of_eq_false hcanon)
  have hhiq : u.evc.hiq = s.evc.hiq := evc_fireStatus_hiq s.evc srcHostBadDesc
  have hrest := toHiq_rest u m'
  simp only [hiqRest, Prod.mk.injEq] at hrest
  obtain ⟨hcells, -, hnet, -⟩ := hrest
  obtain ⟨-, hitems⟩ := hiqFill_facts u m'.items (by rw [hhiq]; exact hflush)
  rw [hhiq] at hitems
  rw [hsend]
  exact ⟨hnet, hcells, hitems⟩

/-- A GO while BUSY, or for items that do not lie in the carve-out, only sets SENDERR (R466, R468). -/
theorem goFrom_bad {u : State}
    (hbad : (s.evc.hart h).busy = true ∨ (n ≠ 0 ∧ (addr.toNat % 16 ≠ 0 ∨ s.inCarveOut addr = false))) :
    goFrom s u h addr n items = u.sendErr h := by
  unfold goFrom
  split
  · rfl
  · next hbusy =>
    obtain ⟨hn, haddr⟩ := hbad.resolve_left hbusy
    rw [if_neg hn, if_pos (haddr.imp_right ne_true_of_eq_false)]

/-- A GO with a COUNT of 0 sends nothing (R469). -/
theorem goFrom_none {u : State} (hbusy : (s.evc.hart h).busy = false) : goFrom s u h addr 0 items = u := by
  unfold goFrom
  rw [if_neg (ne_true_of_eq_false hbusy), if_pos rfl]

/-- A GO whose items are one message sends that message, with BUSY set (R465). -/
theorem goFrom_message {u : State} (hbusy : (s.evc.hart h).busy = false) (hn : n ≠ 0) (halign : addr.toNat % 16 = 0)
    (hin : s.inCarveOut addr = true) (hlen : n = 2 + fld ((sliceD items 0 n 0).getD 1 0) 79 64)
    (hm : Msg.ofItems ((sliceD items 0 n 0).map (fun p => ⟨false, 0, p⟩)) = some m) :
    goFrom s u h addr n items = (u.modHart h fun k => { k with busy := true }).portSend m := by
  have haddr : ¬ (addr.toNat % 16 ≠ 0 ∨ ¬ s.inCarveOut addr = true) := by simp [halign, hin]
  unfold goFrom
  rw [if_neg (ne_true_of_eq_false hbusy), if_neg hn, if_neg haddr]
  obtain ⟨k, rfl⟩ : ∃ k, n = k + 1 := Nat.exists_eq_succ_of_ne_zero hn
  exact portSendAll_one ((sliceD_len items (k + 1)).trans hlen) hm

end Sends

/-! ### Pops of HIQ (R470) -/

section Pops

variable {s : State} {i : QItem} {l : List QItem}

theorem exec_evcHiqPop (hup : s.hostUp = true) (h : Fin 16) : exec (.evcHiqPop h) s = .next (s.hiqPop h.val) :=
  congrArg Host.Outcome.next (onlyIf_true _ _ _ hup)

/-- `s` with the head item of HIQ taken by hart `h`, of which EVC_HIQ_HI holds the high half. -/
def headTaken (s : State) (h : Nat) (i : QItem) (l : List QItem) : State :=
  (s.modEvc fun e => { e with
    hiq := { e.hiq with items := l, midHead := !i.eop, timer := if l = [] then none else some s.runTime } }).modHart h
      (fun k => { k with hiqHi := (QItem.words (some i)).2 })

theorem hiqPop_head (h : Nat) (hflush : s.evc.hiq.flushing = false) (hitems : s.evc.hiq.items = i :: l) :
    s.hiqPop h = (headTaken s h i l).hiqFill [] := by
  unfold State.hiqPop
  simp only [pop_head hflush hitems]
  rfl

theorem hiqPop_facts (h : Nat) (hflush : s.evc.hiq.flushing = false) (hitems : s.evc.hiq.items = i :: l) :
    OnlyEvc s (s.hiqPop h) ∧ (s.hiqPop h).evc.hiq.items = l ++ s.evc.hiq.inflow.take (1024 - l.length) ∧
      ((s.hiqPop h).evc.hart h).hiqHi = (QItem.words (some i)).2 := by
  let u := headTaken s h i l
  obtain ⟨-, hfilled⟩ := hiqFill_facts u [] hflush
  rw [hiqPop_head h hflush hitems]
  refine ⟨(hiqFill_only u []).trans rfl, ?_, (hiqFill_hart u [] h).trans ?_⟩
  · exact hfilled.trans (by rw [List.append_nil]; rfl)
  · show ((Evc.modHart _ h _).hart h).hiqHi = _
    rw [hart_modHart, if_pos rfl]

end Pops

/-! ### The workstation window (R456, R462, R463) -/

section Window

variable {s : State} {a : WsAccess}

/-- `e` with EVC_OB_BASE and EVC_GSTAT written before an access. -/
def windowWritten (e : Evc) (base : Option Word) (w1c : BitVec 2) : Evc :=
  ({ e with obBase := base.elim e.obBase id } : Evc).clearGstat w1c

theorem exec_workstationWindowAccess (hup : s.hostUp = true) (h : Fin 16) (base : Option Word) (w1c : BitVec 2)
    (a : WsAccess) :
    exec (.workstationWindowAccess h base w1c a) s =
      .next (State.windowAccess (s.modEvc (windowWritten · base w1c)) a) := by
  have hwritten : (s.setBase base).modEvc (·.clearGstat w1c) = s.modEvc (windowWritten · base w1c) := by
    cases base <;> rfl
  rw [← hwritten]
  exact congrArg Host.Outcome.next (onlyIf_true _ _ _ (by rw [hup, decide_eq_true h.isLt]; rfl))

/-- An offset past the window names an address outside every region: the access faults at the hart alone (R456). -/
theorem windowAccess_outside (hout : s.hostRegion (0x2000000000000 + a.offset.toNat) ≠ some .window) :
    s.windowAccess a = s :=
  if_pos hout

/-- While DMA is off no access reaches the workstation (R463). -/
theorem windowAccess_dmaOff (hin : s.hostRegion (0x2000000000000 + a.offset.toNat) = some .window)
    (hoff : s.pcie.bme = false) : s.windowAccess a = s.modEvc (fun e => { e with bmoff := true }) := by
  unfold State.windowAccess
  rw [if_neg (not_not.mpr hin), if_pos (by rw [hoff]; rfl)]

theorem windowAccess_load {o : Word} {n : Nat} {w : List Byte} (hon : s.pcie.bme = true) :
    s.windowAccess (.load o n w) = s := by
  unfold State.windowAccess
  rw [hon]
  split <;> rfl

/-- A store reaches the bus address of R462. -/
theorem windowAccess_store {o : Word} {d : List Byte}
    (hin : s.hostRegion (0x2000000000000 + (WsAccess.store o d).offset.toNat) = some .window) (hon : s.pcie.bme = true) :
    s.windowAccess (.store o d) =
      { s with mem := { s.mem with wsMem := Memory.writeBytes s.mem.wsMem (s.evc.obBase + o).toNat d } } := by
  unfold State.windowAccess
  rw [if_neg (not_not.mpr hin), hon]
  rfl

end Window

/-- Settles O37: a GO by what it finds, a pop and an access to the window, each by its rule above. -/
theorem hostPortAndWindow : Obligations.HostPortAndWindow := by
  unfold Obligations.HostPortAndWindow
  intro s h hup
  refine ⟨fun addr n items w1c => ?send, fun i l hitems hflush => ?pop, fun base w1c a => ?window⟩
  case send =>
    intro go adr
    have hexec : go = _ := exec_evcSendGo hup h addr n items w1c
    rw [hexec]
    let u := sendReady s h.val addr w1c
    refine ⟨fun hbad => ?bad, fun hbusy => ⟨fun hn => ?none, fun m hn halign hin => ?message⟩⟩
    case bad =>
      obtain ⟨honly, herr⟩ := sendErr_facts u h.val
      rw [goFrom_bad (hbad.imp_right (And.imp_left BitVec.toNat_ne_iff_ne.mpr))]
      exact ⟨_, rfl, honly.trans rfl, herr⟩
    case none =>
      subst hn
      rw [show (0 : BitVec 32).toNat = 0 from rfl, goFrom_none hbusy]
      exact ⟨_, rfl, rfl, rfl⟩
    case message =>
      intro l hlen hm
      rw [goFrom_message hbusy (BitVec.toNat_ne_iff_ne.mpr hn) halign hin hlen hm]
      let v := u.modHart h.val fun k => { k with busy := true }
      refine ⟨fun hcanon hlocal => ?_, fun hcanon hflush => ?_⟩
      · obtain ⟨hflight, hcells, hmem, hevc⟩ := portSend_local (s := v) hcanon hlocal
        refine ⟨_, rfl, hflight, hcells, hmem, hevc.trans ?_⟩
        exact modHart_modHart s.evc h.val (fun k => { k with sendAddr := adr, sendErr := k.sendErr && !w1c })
          (fun k => { k with busy := true })
      · exact ⟨_, rfl, portSend_bounces (s := v) hcanon hflush⟩
  case pop => exact ⟨_, exec_evcHiqPop hup h, hiqPop_facts h.val hflush hitems⟩
  case window =>
    intro b e at?
    have hexec := exec_workstationWindowAccess hup h base w1c a
    let u := s.modEvc (windowWritten · base w1c)
    refine ⟨fun hout => ?_, fun hin => ⟨fun hoff => ?_, fun hon => ⟨fun o n w ha => ?_, fun o d ha => ?_⟩⟩⟩
    · exact ⟨_, hexec, windowAccess_outside (s := u) hout⟩
    · exact ⟨_, hexec, windowAccess_dmaOff (s := u) hin hoff⟩
    · subst ha
      exact ⟨_, hexec, windowAccess_load (s := u) hon⟩
    · subst ha
      rw [windowAccess_store (s := u) hin hon] at hexec
      exact ⟨_, hexec, rfl, rfl, rfl⟩

end Sys2Proof.Proofs

/-! PROOFS. The streams' doorbells, completion signals and resets, and the PCIe endpoint. -/

namespace Sys2Proof.Proofs

open Sys2Proof Sys2Proof.Machine Sys2Proof.Claims Sys2Proof.Laws Sys2Proof.Laws.HostDieLaws

/-! ### Doorbells (R489, R492) -/

section Doorbells

variable {s : State} {i : Nat} {v : BitVec 16}

/-- A stream's flags after a write of `w` to their register (R5). -/
def flagsWritten (w : BitVec 4) (q : Stream) : Stream :=
  { q with dberr := q.dberr && !w.getLsbD 1, cfgerr := q.cfgerr && !w.getLsbD 2 }

theorem exec_sqTail (hup : s.hostUp = true) (hpins : s.pinsHeld 0 = false) (st : Fin 8) (v : BitVec 16) (w1c : BitVec 4) :
    exec (.sqTail st v w1c) s = .next ((s.modStream st.val (flagsWritten w1c)).sqTail st.val v) :=
  congrArg Host.Outcome.next (barWrite_at hup hpins _ _)

theorem exec_cqHead (hup : s.hostUp = true) (hpins : s.pinsHeld 0 = false) (st : Fin 8) (v : BitVec 16) :
    exec (.cqHead st v) s = .next (s.cqHead st.val v) :=
  congrArg Host.Outcome.next (barWrite_at hup hpins _ _)

theorem fire_stream (s : State) (id i : Nat) : (s.fire id).stream i = s.stream i :=
  rfl

theorem sqTail_disabled (hoff : (s.stream i).enabled = false) : s.sqTail i v = s :=
  if_pos (by rw [hoff]; rfl)

theorem cqHead_disabled (hoff : (s.stream i).enabled = false) : s.cqHead i v = s :=
  if_pos (by rw [hoff]; rfl)

theorem sqTail_outside (hon : (s.stream i).enabled = true) (hout : (s.stream i).sqSize.toNat ≤ v.toNat) :
    s.sqTail i v = s.doorbellError i := by
  unfold State.sqTail
  simp only [hon, hout, Bool.not_true, Bool.false_eq_true, if_false, if_true]

/-- A tail inside the ring is taken and fires the stream's source. -/
theorem sqTail_inside (hon : (s.stream i).enabled = true) (hin : v.toNat < (s.stream i).sqSize.toNat)
    (hfrozen : s.frozen = false) : s.sqTail i v = (s.modStream i fun q => { q with sqTail := v }).fire (1 + i) := by
  unfold State.sqTail
  simp only [hon, Nat.not_le.mpr hin, Bool.not_true, Bool.false_eq_true, if_false]
  exact doorbell_src (s.modStream i fun q => { q with sqTail := v }) hfrozen (1 + i)

/-- A head inside the ring is taken, and fires the stream's source where the driver waits for room (R492). -/
theorem cqHead_inside (hon : (s.stream i).enabled = true) (hin : v.toNat < (s.stream i).cqSize.toNat)
    (hfrozen : s.frozen = false) :
    s.cqHead i v =
      if (s.stream i).roomwait then (s.modStream i fun q => { q with cqHead := v }).fire (1 + i)
      else s.modStream i fun q => { q with cqHead := v } := by
  unfold State.cqHead
  simp only [hon, Nat.not_le.mpr hin, Bool.not_true, Bool.false_eq_true, if_false]
  rw [doorbell_src (s.modStream i fun q => { q with cqHead := v }) hfrozen]

end Doorbells

/-! ### Completions published and signalled (R490, R491) -/

section Signals

variable {s : State}

theorem exec_cqPublish (hup : s.hostUp = true) {st : Fin 8} {v : BitVec 16} (hon : (s.stream st.val).enabled = true)
    (hin : v.toNat < (s.stream st.val).cqSize.toNat) : exec (.cqPublish st v) s = .next (s.publish st.val v) :=
  congrArg Host.Outcome.next (onlyIf_true _ _ _ (by rw [hup, hon, decide_eq_true hin]; rfl))

theorem exec_coalesceTimeout (hup : s.up = true) {st : Fin 8} {f : Word} (hon : (s.stream st.val).coalNs ≠ 0)
    (hfirst : (s.stream st.val).firstAt = some f)
    (hdue : (s.stream st.val).coalNs.toNat ≤ (s.runTime - f).toNat) :
    exec (.coalesceTimeout st) s = .next (s.signal st.val) := by
  refine congrArg Host.Outcome.next (onlyIf_true _ _ _ ?_)
  rw [hup, decide_eq_true hon, hfirst]
  exact decide_eq_true hdue

/-- A signal of a stream sends its vector and begins its count anew. -/
theorem signal_facts (s : State) (i : Nat) :
    (s.signal i).stream i = { s.stream i with unsig := 0, firstAt := none } ∧
      (s.signal i).pcie.vecs = (s.pcie.vector (s.stream i).vec.toNat).vecs ∧ (s.signal i).evc = s.evc :=
  ⟨stream_mod s i fun q => { q with unsig := 0, firstAt := none }, rfl, rfl⟩

end Signals

/-! ### RESET of a stream and Function Level Reset (R486, R488) -/

section Resets

variable {s : State}

theorem exec_streamReset (hup : s.hostUp = true) (hpins : s.pinsHeld 0 = false) (st : Fin 8) (w : StreamSetup) :
    exec (.streamReset st w) s = .next (s.streamReset st.val w) :=
  congrArg Host.Outcome.next (barWrite_at hup hpins _ _)

theorem exec_functionLevelReset (hup : s.hostUp = true) (hpins : s.pinsHeld 0 = false) :
    exec .functionLevelReset s = .next s.flr :=
  congrArg Host.Outcome.next (barWrite_at hup hpins _ _)

/-- A RESET ends the stream's jobs and then sets its registers; sizes that are none fire a status source besides. -/
theorem streamReset_facts (s : State) (i : Nat) (w : StreamSetup) :
    (s.streamReset i w).cells = (s.endStream i).cells ∧ (s.streamReset i w).mem = (s.endStream i).mem ∧
      (s.streamReset i w).drv = (s.endStream i).drv ∧
      (s.streamReset i w).stream i = ((s.endStream i).stream i).reset w := by
  have hstream := stream_mod (s.endStream i) i (·.reset w)
  unfold State.streamReset
  extract_lets u
  split
  · exact ⟨rfl, rfl, rfl, hstream⟩
  · exact ⟨rfl, rfl, rfl, hstream⟩

theorem exceptCuts_of_cells {t u : State} (h : ExceptCuts s t) (hcells : u.cells = t.cells) : ExceptCuts s u :=
  cuts_trans h (cuts_of hcells)

theorem exceptRefs_of_mem {t u : State} (h : ExceptRefs s t) (hmem : u.mem = t.mem) : ExceptRefs s u := by
  unfold ExceptRefs
  rw [hmem]
  exact h

/-- Stream `i` after a Function Level Reset: its reset values, but for the counts of Table 13-16. -/
def afterFlr (i : Nat) (q : Stream) : Stream := { vec := BitVec.ofNat 6 i, read := q.read, published := q.published }

theorem flr_stream (p : Pcie) (i : Nat) : p.flr.stream i = afterFlr i (p.stream i) := by
  show (SMap.get? (p.streams.map fun x => (x.1, afterFlr x.1 x.2)) i).getD { vec := BitVec.ofNat 6 i } =
    afterFlr i ((SMap.get? p.streams i).getD { vec := BitVec.ofNat 6 i })
  rw [map_getK]
  cases SMap.get? p.streams i <;> rfl

/-- `s` with the jobs of every stream ended. -/
def streamsEnded (s : State) : State := (List.range 8).foldl (fun s st => s.endStream st) s

/-- Of the cells only recorded cuts go, of memory only VALID of references, and no job of a stream writes its completion. -/
theorem streamsEnded_facts (s : State) :
    ExceptCuts s (streamsEnded s) ∧ ExceptRefs s (streamsEnded s) ∧ (streamsEnded s).mem.wsMem = s.mem.wsMem ∧
      ∀ j ∈ (streamsEnded s).drv.jobs, j.stream < 8 → j.silent = true := by
  obtain ⟨hcuts, hrefs, hws, hsilent⟩ := endStreams (List.range 8) s
  unfold streamsEnded
  exact ⟨hcuts, hrefs, hws, fun j hj hlt => hsilent j.stream (.inl (List.mem_range.mpr hlt)) j hj rfl⟩

/-- `u` with the function reset, and FLR set. -/
def functionReset (u : State) : State :=
  ({ u with pcie := u.pcie.flr, evc := { u.evc with flr := true }, dict := u.dict.flr } : State).fireStatus srcPcie

theorem flr_eq (s : State) : s.flr = functionReset (streamsEnded s) := by
  unfold State.flr functionReset streamsEnded
  rfl

theorem functionReset_rest (u : State) :
    (functionReset u).cells = u.cells ∧ (functionReset u).mem = u.mem ∧ (functionReset u).drv = u.drv ∧
      (functionReset u).pcie = u.pcie.flr :=
  ⟨rfl, rfl, rfl, rfl⟩

theorem functionReset_flr (u : State) : (functionReset u).evc.flr = true := by
  have hrest := fireStatus_unfired { u.evc with flr := true } srcPcie
  simp only [unfired, Prod.mk.injEq] at hrest
  obtain ⟨-, hflr, -⟩ := hrest
  exact hflr

end Resets

/-! ### MSI-X vectors, Bus Master Enable and the link (R463, R494) -/

section Endpoint

variable {s : State} {p : Pcie}

theorem exec_evcMsixSend (hup : s.hostUp = true) {v : Word} (hv : 8 ≤ fld v 5 0) :
    exec (.evcMsixSend v) s = .next (s.vector (fld v 5 0)) :=
  congrArg Host.Outcome.next (onlyIf_true _ _ _ (by rw [hup, decide_eq_true hv]; rfl))

theorem exec_msixVectorUnmask (hup : s.hostUp = true) (hpins : s.pinsHeld 0 = false) (v : Fin 64) :
    exec (.msixVectorUnmask v) s = .next (s.unmask v.val) :=
  congrArg Host.Outcome.next (barWrite_at hup hpins _ _)

theorem exec_busMasterEnableChange (hup : s.up = true) {v : Bool} (hv : s.pcie.bme ≠ v) :
    exec (.busMasterEnableChange v) s = .next (s.setBme v) :=
  congrArg Host.Outcome.next (onlyIf_true _ _ _ (by rw [hup, decide_eq_true hv]; rfl))

theorem exec_pcieLinkEvent (hon : s.pwr.on = true) (hperst : s.pwr.perstN = true) (hpins : s.pinsHeld 0 = false)
    (e : PcieEvent) : exec (.pcieLinkEvent e) s = .next (s.pcieEvent e) :=
  congrArg Host.Outcome.next (onlyIf_true _ _ _ (by rw [hon, hperst, hpins]; rfl))

/-- The endpoint with vector `v` unmasked, before what it holds goes out. -/
def unmasked (p : Pcie) (v : Nat) : Pcie :=
  { p with vecs := SMap.set p.vecs v { SMap.getD p.vecs v {} with masked := false } }

theorem flush_off (hoff : p.bme = false) : p.flushVectors = p :=
  if_neg (ne_true_of_eq_false hoff)

theorem unmask_only (s : State) (v : Nat) :
    s.unmask v = { s with pcie := { s.pcie with vecs := (s.unmask v).pcie.vecs } } :=
  congrArg (fun p => { s with pcie := p }) (flush_rest (unmasked s.pcie v))

/-- An unmasked vector goes out where it is pending and Bus Master Enable is 1, and is else as it was (R494). -/
theorem unmask_vec (s : State) (v : Nat) :
    let x := SMap.getD s.pcie.vecs v {}
    (s.pcie.bme = true → SMap.getD (s.unmask v).pcie.vecs v {} =
        if x.pba then { x with masked := false, pba := false, sent := x.sent + 1 } else { x with masked := false }) ∧
      (s.pcie.bme = false → SMap.getD (s.unmask v).pcie.vecs v {} = { x with masked := false }) := by
  intro x
  have hx : SMap.getD (unmasked s.pcie v).vecs v {} = { x with masked := false } := SMap.getD_set_self _ _ _ _
  have hunmask : (s.unmask v).pcie = (unmasked s.pcie v).flushVectors := rfl
  rw [hunmask]
  refine ⟨fun hon => ?_, fun hoff => ?_⟩
  · rw [flush_vec (unmasked s.pcie v) v hon, hx]
    simp only [Bool.not_false, Bool.and_true]
  · rw [flush_off (p := unmasked s.pcie v) hoff, hx]

/-- With Bus Master Enable 1 no unmasked vector stays pending. -/
theorem flush_none_pending (hon : p.bme = true) :
    ∀ x ∈ p.flushVectors.vecs, x.2.masked = false → x.2.pba = false := by
  intro x hx hmask
  unfold Pcie.flushVectors at hx
  rw [if_pos hon] at hx
  obtain ⟨y, -, rfl⟩ := List.mem_map.mp hx
  by_cases hsent : (y.2.pba && !y.2.masked) = true
  · rw [if_pos hsent]
  · rw [if_neg hsent] at hmask ⊢
    simpa [hmask] using hsent

/-- A change of Bus Master Enable changes nothing else of the endpoint but the vectors, which go out when it becomes 1. -/
theorem setBme_pcie (s : State) (v : Bool) :
    (s.setBme v).pcie.bme = v ∧ (s.setBme v).pcie.streams = s.pcie.streams ∧
      (v = true → ∀ x ∈ (s.setBme v).pcie.vecs, x.2.masked = false → x.2.pba = false) := by
  let p : Pcie := { s.pcie with bme := v }
  cases v with
  | false => exact ⟨rfl, rfl, fun h => nomatch h⟩
  | true =>
    have hp : (s.setBme true).pcie = p.flushVectors := rfl
    rw [hp]
    refine ⟨?_, ?_, fun _ => flush_none_pending rfl⟩ <;>
      rw [flush_rest]

end Endpoint

/-- Settles O38: doorbells by the index they carry, completions by what is published, resets by the jobs they end, and vectors
by their mask and Bus Master Enable. -/
theorem streamsAndEndpoint : Obligations.StreamsAndEndpoint := by
  unfold Obligations.StreamsAndEndpoint
  intro s hup hpins
  obtain ⟨hrun, -⟩ := up_of_host hup
  refine ⟨fun st v w1c => ?doorbells, fun st w => ?reset, ?flr, fun v hv => ?msix, fun v => ?unmask, fun v hv => ?bme,
    fun r w f hperst => ?link⟩
  case doorbells =>
    intro q clear
    have hsq := exec_sqTail hup hpins st v w1c
    have hcq := exec_cqHead hup hpins st v
    let u := s.modStream st.val (flagsWritten w1c)
    have hu : u.stream st.val = flagsWritten w1c q := stream_mod s st.val _
    have henabled : (u.stream st.val).enabled = q.enabled := by rw [hu]; rfl
    have hsize : (u.stream st.val).sqSize = q.sqSize := by rw [hu]; rfl
    refine ⟨fun hoff => ⟨?_, ?_⟩, fun hon hin hfrozen => ?_, fun hon hout => ?_, fun hon hin hfrozen => ?_,
      fun hon hin => ?_, fun f hns hfirst hdue => ?_⟩
    · rw [hsq, sqTail_disabled (s := u) (henabled.trans hoff)]
      rfl
    · rw [hcq, cqHead_disabled hoff]
    · rw [sqTail_inside (s := u) (henabled.trans hon) (by rw [hsize]; exact hin) hfrozen] at hsq
      refine ⟨_, hsq, ?_, rfl, rfl, (fire_facts s.evc (1 + st.val)).1⟩
      rw [fire_stream, stream_mod, hu]
      rfl
    · rw [sqTail_outside (s := u) (henabled.trans hon) (by rw [hsize]; exact hout)] at hsq
      refine ⟨_, hsq, ?_, rfl⟩
      rw [State.doorbellError, fireStatus_stream, stream_mod, hu]
      rfl
    · let k := s.modStream st.val fun q => { q with cqHead := v }
      have hk : k.stream st.val = { q with cqHead := v } := stream_mod s st.val _
      rw [cqHead_inside hon hin hfrozen] at hcq
      refine ⟨_, hcq, ?_⟩
      by_cases hroom : q.roomwait = true
      · rw [if_pos hroom]
        exact ⟨hk, rfl, rfl, fun hno => absurd hroom (ne_true_of_eq_false hno),
          fun _ => (fire_facts s.evc (1 + st.val)).1⟩
      · rw [if_neg hroom]
        exact ⟨hk, rfl, rfl, fun _ => rfl, fun hyes => absurd hyes hroom⟩
    · obtain ⟨htail, hcount⟩ := publish_stream s st.val v
      obtain ⟨hcells, hdrv, hevc⟩ := publish_rest s st.val v
      exact ⟨_, exec_cqPublish hup hon hin, hcells, hdrv, hevc, htail, hcount⟩
    · obtain ⟨hstream, hvecs, hevc⟩ := signal_facts s st.val
      exact ⟨_, exec_coalesceTimeout hrun hns hfirst hdue, hstream, congrArg (SMap.getD · q.vec.toNat {}) hvecs, hevc⟩
  case reset =>
    intro ok
    obtain ⟨hcuts, hrefs, hws, -, hqueue, hsilent, -⟩ := endStream_facts s st.val
    obtain ⟨hcells, hmem, hdrv, hstream⟩ := streamReset_facts s st.val w
    refine ⟨_, exec_streamReset hup hpins st w, exceptCuts_of_cells hcuts hcells, exceptRefs_of_mem hrefs hmem,
      (congrArg MemSys.wsMem hmem).trans hws, ?_⟩
    rw [hdrv, hstream]
    refine ⟨hsilent, hqueue, rfl, rfl, rfl, rfl, fun hbad => ?_, rfl, rfl, rfl, rfl, rfl, rfl, rfl⟩
    show (_ || !ok) = true
    rw [hbad, Bool.not_false, Bool.or_true]
  case flr =>
    obtain ⟨hcuts, hrefs, hws, hsilent⟩ := streamsEnded_facts s
    obtain ⟨hcells, hmem, hdrv, hpcie⟩ := functionReset_rest (streamsEnded s)
    have hexec := exec_functionLevelReset hup hpins
    rw [flr_eq] at hexec
    refine ⟨_, hexec, exceptCuts_of_cells hcuts hcells, exceptRefs_of_mem hrefs hmem,
      (congrArg MemSys.wsMem hmem).trans hws, functionReset_flr _, ?_, fun i => ?_, ?_⟩
    · rw [hpcie]
      rfl
    · rw [State.stream, hpcie, flr_stream]
      exact ⟨rfl, rfl⟩
    · rw [hdrv]
      exact hsilent
  case msix => exact ⟨_, exec_evcMsixSend hup hv, rfl, SMap.getD_set_self _ _ _ _⟩
  case unmask =>
    refine ⟨_, exec_msixVectorUnmask hup hpins v, unmask_only s v.val, ?_⟩
    obtain ⟨hsends, hholds⟩ := unmask_vec s v.val
    cases hbme : s.pcie.bme with
    | true =>
      rw [hsends hbme]
      refine ⟨?_, fun _ hpba => ?_, (fun h => nomatch h)⟩
      · split <;> rfl
      · rw [if_pos hpba]
    | false =>
      rw [hholds hbme]
      exact ⟨rfl, (fun h => nomatch h), fun _ => rfl⟩
  case bme =>
    obtain ⟨hbme, hstreams, hvecs⟩ := setBme_pcie s v
    exact ⟨_, exec_busMasterEnableChange hrun hv, hbme, hstreams, rfl, rfl, hvecs⟩
  case link =>
    have hon : s.pwr.on = true := by
      unfold State.up at hrun
      exact (Bool.and_eq_true_iff.mp hrun).1
    exact ⟨_, exec_pcieLinkEvent hon hperst hpins (.up r w f), rfl, rfl, rfl⟩

end Sys2Proof.Proofs

/-! PROOFS. What every step keeps: the canonical memories and the bound of the log, the fuses, DBG_AUTH. -/

namespace Sys2Proof.Proofs

open Sys2Proof Sys2Proof.Machine Sys2Proof.Claims Sys2Proof.Laws

/-! ### The front of the queue -/

/-- A step with an empty queue is a tick. -/
theorem step_of_empty {s : State} (h : s.pending = []) : step s = .next (tick s) := by
  unfold step
  rw [h]

/-- A step with a command in front runs it on the rest of the queue. -/
theorem step_of_front {s : State} {c : Instr} {rest : List Instr} (h : s.pending = c :: rest) :
    step s = exec c { s with pending := rest } := by
  unfold step
  rw [h]

theorem tick_on {s : State} (h : s.pwr.on = true) : tick s = { s with
      timeHost := s.timeHost + 1, timeDie0 := s.timeDie0 + 1, timeDie1 := s.timeDie1 + 1
      runTime := if s.frozen then s.runTime else s.runTime + 1
      cells := s.cells.map (fun (c : Nat × Cell) => (c.1, c.2.tick)), evc := s.evc.tick } :=
  if_pos h

theorem tick_off {s : State} (h : s.pwr.on = false) : tick s = s :=
  if_neg (ne_true_of_eq_false h)

/-- Reading a table after a map over its values. -/
theorem getD_mapValues {α : Type} (f : α → α) (m : SMap α) (i : Nat) (d : α) (hd : f d = d) :
    SMap.getD (m.map (fun p : Nat × α => (p.1, f p.2))) i d = f (SMap.getD m i d) := by
  induction m with
  | nil => exact hd.symm
  | cons p t ih =>
    obtain ⟨k, v⟩ := p
    simp only [SMap.getD, List.map_cons, SMap.get?] at ih ⊢
    by_cases hk : k = i
    · simp [hk]
    · simpa [hk] using ih

/-- Every hart's send is over after a tick (log 28). -/
theorem evcTick_hart (e : Evc) (i : Nat) : e.tick.hart i = { e.hart i with busy := false } :=
  getD_mapValues (fun h : Hart => { h with busy := false }) e.harts i {} rfl

/-- Settles O53: by the two branches of the step, and of the tick with the power on and off. -/
theorem stepRunsTheFrontCommand : Obligations.StepRunsTheFrontCommand := by
  unfold Obligations.StepRunsTheFrontCommand
  refine ⟨fun s c rest => step_of_front rfl, fun s hempty => ⟨tick s, step_of_empty hempty, ?_⟩⟩
  cases hon : s.pwr.on with
  | true =>
    rw [tick_on hon]
    exact ⟨hempty, rfl, rfl, rfl, fun _ => ⟨rfl, rfl, evcTick_hart s.evc⟩, (fun h => nomatch h)⟩
  | false =>
    rw [tick_off hon]
    exact ⟨hempty, rfl, rfl, rfl, (fun h => nomatch h), fun _ => rfl⟩

/-! ### The invariant of the machine -/

/-- Every command keeps the canonical form of the memories. -/
theorem exec_memOk (c : Instr) (s t : State) (hs : s.memOk) (hexec : exec c s = .next t) : t.memOk := by
  cases c with
  | runCmd c => exact execRunCmd_memOk c s hs t hexec
  | imageCmd c => exact execImageCmd_memOk c s hs t hexec
  | imageItem c => exact execImageItem_memOk c s hs t hexec
  | windowOpenCmd u => exact execWindowOpenCmd_memOk u s hs t hexec
  | windowCloseCmd u => exact execWindowCloseCmd_memOk u s hs t hexec
  | scrubCmd c => exact execScrubCmd_memOk c s hs t hexec
  | cutCmd m => exact execCutCmd_memOk m s hs t hexec
  | killCmd m => exact execKillCmd_memOk m s hs t hexec
  | cmdDispatch c => exact execCmdDispatch_memOk c s hs t hexec
  | commandComplete c => exact execCommandComplete_memOk c s hs t hexec
  | carcaseCommandComplete u tag => exact execCarcaseCommandComplete_memOk u tag s hs t hexec
  | scrubEnd c => exact execScrubEnd_memOk c s hs t hexec
  | li c f => exact execLi_memOk c f s hs t hexec
  | lih c f => exact execLih_memOk c f s hs t hexec
  | addI c f => exact execAddI_memOk c f s hs t hexec
  | subI c f => exact execSubI_memOk c f s hs t hexec
  | andI c f => exact execAndI_memOk c f s hs t hexec
  | orI c f => exact execOrI_memOk c f s hs t hexec
  | xorI c f => exact execXorI_memOk c f s hs t hexec
  | shl c f => exact execShl_memOk c f s hs t hexec
  | shr c f => exact execShr_memOk c f s hs t hexec
  | sra c f => exact execSra_memOk c f s hs t hexec
  | mulI c f => exact execMulI_memOk c f s hs t hexec
  | ld1 c f e => exact execLd1_memOk c f e s hs t hexec
  | ld2 c f e => exact execLd2_memOk c f e s hs t hexec
  | ld4 c f e => exact execLd4_memOk c f e s hs t hexec
  | ld8 c f e => exact execLd8_memOk c f e s hs t hexec
  | st1 c f e => exact execSt1_memOk c f e s hs t hexec
  | st2 c f e => exact execSt2_memOk c f e s hs t hexec
  | st4 c f e => exact execSt4_memOk c f e s hs t hexec
  | st8 c f => exact execSt8_memOk c f s hs t hexec
  | beq c f => exact execBeq_memOk c f s hs t hexec
  | bne c f => exact execBne_memOk c f s hs t hexec
  | blt c f => exact execBlt_memOk c f s hs t hexec
  | bge c f => exact execBge_memOk c f s hs t hexec
  | bltu c f => exact execBltu_memOk c f s hs t hexec
  | bgeu c f => exact execBgeu_memOk c f s hs t hexec
  | jal c f => exact execJal_memOk c f s hs t hexec
  | jr c f => exact execJr_memOk c f s hs t hexec
  | rdrand c f => exact execRdrand_memOk c f s hs t hexec
  | timeRd c f => exact execTimeRd_memOk c f s hs t hexec
  | fenceI c f => exact execFenceI_memOk c f s hs t hexec
  | endRun c f => exact execEndRun_memOk c f s hs t hexec
  | illegalOpcode c opc f => exact execIllegalOpcode_memOk c opc f s hs t hexec
  | fetch c f e => exact execFetch_memOk c f e s hs t hexec
  | joinedFetchArrival c e => exact execJoinedFetchArrival_memOk c e s hs t hexec
  | entryrd c f => exact execEntryrd_memOk c f s hs t hexec
  | storeG c f => exact execStoreG_memOk c f s hs t hexec
  | groupFree dix => exact execGroupFree_memOk dix s hs t hexec
  | storageRelease base => exact execStorageRelease_memOk base s hs t hexec
  | gatherColumn c f e => exact execGatherColumn_memOk c f e s hs t hexec
  | gatherRow c f e => exact execGatherRow_memOk c f e s hs t hexec
  | selectN c f => exact execSelectN_memOk c f s hs t hexec
  | auditN c f => exact execAuditN_memOk c f s hs t hexec
  | arrayI c f => exact execArrayI_memOk c f s hs t hexec
  | arrayBeat c unsupplied behind e x => exact execArrayBeat_memOk c unsupplied behind e x s hs t hexec
  | treeEmptyToken c tile => exact execTreeEmptyToken_memOk c tile s hs t hexec
  | tileCheckpoint c tile x => exact execTileCheckpoint_memOk c tile x s hs t hexec
  | loadT c f => exact execLoadT_memOk c f s hs t hexec
  | loadComplete c tile => exact execLoadComplete_memOk c tile s hs t hexec
  | drainRq c f => exact execDrainRq_memOk c f s hs t hexec
  | drainWide c f => exact execDrainWide_memOk c f s hs t hexec
  | drainChain c f => exact execDrainChain_memOk c f s hs t hexec
  | drainSab c f => exact execDrainSab_memOk c f s hs t hexec
  | drainRow c tile x => exact execDrainRow_memOk c tile x s hs t hexec
  | sabItemApply c bank x => exact execSabItemApply_memOk c bank x s hs t hexec
  | rangeReset c f => exact execRangeReset_memOk c f s hs t hexec
  | requant c f => exact execRequant_memOk c f s hs t hexec
  | rangeRequant c f => exact execRangeRequant_memOk c f s hs t hexec
  | dequant c f => exact execDequant_memOk c f s hs t hexec
  | quant c f => exact execQuant_memOk c f s hs t hexec
  | rangeF32 c f => exact execRangeF32_memOk c f s hs t hexec
  | sabout c f => exact execSabout_memOk c f s hs t hexec
  | rangeout c f => exact execRangeout_memOk c f s hs t hexec
  | rangemerge c f => exact execRangemerge_memOk c f s hs t hexec
  | scaleRq c f => exact execScaleRq_memOk c f s hs t hexec
  | ledgerW c f => exact execLedgerW_memOk c f s hs t hexec
  | cvt c f => exact execCvt_memOk c f s hs t hexec
  | lfuMul c f => exact execLfuMul_memOk c f s hs t hexec
  | expF c f => exact execExpF_memOk c f s hs t hexec
  | logF c f => exact execLogF_memOk c f s hs t hexec
  | recip c f => exact execRecip_memOk c f s hs t hexec
  | rsqrt c f => exact execRsqrt_memOk c f s hs t hexec
  | softmax c f => exact execSoftmax_memOk c f s hs t hexec
  | gelu c f => exact execGelu_memOk c f s hs t hexec
  | silu c f => exact execSilu_memOk c f s hs t hexec
  | normF c f => exact execNormF_memOk c f s hs t hexec
  | wopen c f => exact execWopen_memOk c f s hs t hexec
  | deferredWindowOpen u w => exact execDeferredWindowOpen_memOk u w s hs t hexec
  | wclose c f => exact execWclose_memOk c f s hs t hexec
  | syncOp c f => exact execSyncOp_memOk c f s hs t hexec
  | qread c f => exact execQread_memOk c f s hs t hexec
  | qflush c f => exact execQflush_memOk c f s hs t hexec
  | queueFlushComplete q => exact execQueueFlushComplete_memOk q s hs t hexec
  | sendW c f => exact execSendW_memOk c f s hs t hexec
  | unitOperationComplete c k again => exact execUnitOperationComplete_memOk c k again s hs t hexec
  | stallRelease c => exact execStallRelease_memOk c s hs t hexec
  | seqWdog c => exact execSeqWdog_memOk c s hs t hexec
  | commandArrival m => exact execCommandArrival_memOk m s hs t hexec
  | roleSet m => exact execRoleSet_memOk m s hs t hexec
  | windowWrite m => exact execWindowWrite_memOk m s hs t hexec
  | windowWriteLanded u w => exact execWindowWriteLanded_memOk u w s hs t hexec
  | chainSum m => exact execChainSum_memOk m s hs t hexec
  | chainInletAccept c tile => exact execChainInletAccept_memOk c tile s hs t hexec
  | blockFetch m e => exact execBlockFetch_memOk m e s hs t hexec
  | replyArrival m => exact execReplyArrival_memOk m s hs t hexec
  | bounceArrival m => exact execBounceArrival_memOk m s hs t hexec
  | queueEnqueueResume q => exact execQueueEnqueueResume_memOk q s hs t hexec
  | queueTail q => exact execQueueTail_memOk q s hs t hexec
  | syncRead m => exact execSyncRead_memOk m s hs t hexec
  | syncInit m => exact execSyncInit_memOk m s hs t hexec
  | syncAdd m => exact execSyncAdd_memOk m s hs t hexec
  | syncWaitGe m => exact execSyncWaitGe_memOk m s hs t hexec
  | syncArrive m => exact execSyncArrive_memOk m s hs t hexec
  | syncArriveWait m => exact execSyncArriveWait_memOk m s hs t hexec
  | syncWaitGen m => exact execSyncWaitGen_memOk m s hs t hexec
  | syncSet m => exact execSyncSet_memOk m s hs t hexec
  | syncClear m => exact execSyncClear_memOk m s hs t hexec
  | syncWaitSet m => exact execSyncWaitSet_memOk m s hs t hexec
  | syncWaitClear m => exact execSyncWaitClear_memOk m s hs t hexec
  | spillAlloc m => exact execSpillAlloc_memOk m s hs t hexec
  | spillFree m => exact execSpillFree_memOk m s hs t hexec
  | spillWrite m => exact execSpillWrite_memOk m s hs t hexec
  | spillRead m => exact execSpillRead_memOk m s hs t hexec
  | spareSubstitution c => exact execSpareSubstitution_memOk c s hs t hexec
  | retirementRequest c => exact execRetirementRequest_memOk c s hs t hexec
  | hostingStart c => exact execHostingStart_memOk c s hs t hexec
  | hostContextSwitch c => exact execHostContextSwitch_memOk c s hs t hexec
  | ceLimitReached c row => exact execCeLimitReached_memOk c row s hs t hexec
  | fieldRemap c row => exact execFieldRemap_memOk c row s hs t hexec
  | patrol unit e => exact execPatrol_memOk unit e s hs t hexec
  | ucieLaneRepair die mod lanes repaired => exact execUcieLaneRepair_memOk die mod lanes repaired s hs t hexec
  | jobEntry st entry prectab => exact execJobEntry_memOk st entry prectab s hs t hexec
  | jobStart job => exact execJobStart_memOk job s hs t hexec
  | budgetExpiry job => exact execBudgetExpiry_memOk job s hs t hexec
  | jobEnd job => exact execJobEnd_memOk job s hs t hexec
  | jobFailure job layer code => exact execJobFailure_memOk job layer code s hs t hexec
  | completionEntryWrite st => exact execCompletionEntryWrite_memOk st s hs t hexec
  | killEntry st entry => exact execKillEntry_memOk st entry s hs t hexec
  | cutEntry st entry => exact execCutEntry_memOk st entry s hs t hexec
  | registerEntry st entry graph tensors layers room => exact execRegisterEntry_memOk st entry graph tensors layers room s hs t hexec
  | releaseEntry st entry => exact execReleaseEntry_memOk st entry s hs t hexec
  | deltaLayerBegin job layer => exact execDeltaLayerBegin_memOk job layer s hs t hexec
  | layerComplete job layer code record carried ledgers => exact execLayerComplete_memOk job layer code record carried ledgers s hs t hexec
  | evcSendGo hart addr count items w1c => exact execEvcSendGo_memOk hart addr count items w1c s hs t hexec
  | evcHiqPop hart => exact execEvcHiqPop_memOk hart s hs t hexec
  | evcClaim hart => exact execEvcClaim_memOk hart s hs t hexec
  | evcComplete hart id w1c => exact execEvcComplete_memOk hart id w1c s hs t hexec
  | evcSrcWrite n v => exact execEvcSrcWrite_memOk n v s hs t hexec
  | evcSgrpWrite g v => exact execEvcSgrpWrite_memOk g v s hs t hexec
  | evcThreshWrite hart v => exact execEvcThreshWrite_memOk hart v s hs t hexec
  | evcHartCtlWrite hart v => exact execEvcHartCtlWrite_memOk hart v s hs t hexec
  | evcSmaskWrite g v => exact execEvcSmaskWrite_memOk g v s hs t hexec
  | evcSpendRead g => exact execEvcSpendRead_memOk g s hs t hexec
  | evcSwfire v => exact execEvcSwfire_memOk v s hs t hexec
  | evcMsixSend v => exact execEvcMsixSend_memOk v s hs t hexec
  | sourceFire id => exact execSourceFire_memOk id s hs t hexec
  | statusSourceFire n => exact execStatusSourceFire_memOk n s hs t hexec
  | timerFire tile armed => exact execTimerFire_memOk tile armed s hs t hexec
  | workstationWindowAccess hart base w1c a => exact execWorkstationWindowAccess_memOk hart base w1c a s hs t hexec
  | sqTail st v w1c => exact execSqTail_memOk st v w1c s hs t hexec
  | cqHead st v => exact execCqHead_memOk st v s hs t hexec
  | streamReset st w => exact execStreamReset_memOk st w s hs t hexec
  | cqPublish st v => exact execCqPublish_memOk st v s hs t hexec
  | coalesceTimeout st => exact execCoalesceTimeout_memOk st s hs t hexec
  | busMasterEnableChange v => exact execBusMasterEnableChange_memOk v s hs t hexec
  | functionLevelReset => exact execFunctionLevelReset_memOk s hs t hexec
  | mbGo p w => exact execMbGo_memOk p w s hs t hexec
  | dictionaryRead => exact execDictionaryRead_memOk s hs t hexec
  | dictionaryWrite => exact execDictionaryWrite_memOk s hs t hexec
  | rwcStageWrite => exact execRwcStageWrite_memOk s hs t hexec
  | commitGroup => exact execCommitGroup_memOk s hs t hexec
  | commitDiscard => exact execCommitDiscard_memOk s hs t hexec
  | commitApply u index => exact execCommitApply_memOk u index s hs t hexec
  | chamoisDatagram d => exact execChamoisDatagram_memOk d s hs t hexec
  | solicit d => exact execSolicit_memOk d s hs t hexec
  | announceDelayExpiry => exact execAnnounceDelayExpiry_memOk s hs t hexec
  | dadComplete duplicate => exact execDadComplete_memOk duplicate s hs t hexec
  | neighborSolicitation d target => exact execNeighborSolicitation_memOk d target s hs t hexec
  | echoRequest d => exact execEchoRequest_memOk d s hs t hexec
  | saveStore => exact execSaveStore_memOk s hs t hexec
  | saveDelayExpiry => exact execSaveDelayExpiry_memOk s hs t hexec
  | storeSaveComplete ok => exact execStoreSaveComplete_memOk ok s hs t hexec
  | restoreStore => exact execRestoreStore_memOk s hs t hexec
  | snapGoStart => exact execSnapGoStart_memOk s hs t hexec
  | snapGoAbandon => exact execSnapGoAbandon_memOk s hs t hexec
  | waveArrival u ch w => exact execWaveArrival_memOk u ch w s hs t hexec
  | snapshotReport m => exact execSnapshotReport_memOk m s hs t hexec
  | fabricFreezeRequest => exact execFabricFreezeRequest_memOk s hs t hexec
  | fabricFreezeEnd => exact execFabricFreezeEnd_memOk s hs t hexec
  | freezeReached => exact execFreezeReached_memOk s hs t hexec
  | dbgDataRead => exact execDbgDataRead_memOk s hs t hexec
  | holdPurge => exact execHoldPurge_memOk s hs t hexec
  | retrain => exact execRetrain_memOk s hs t hexec
  | routesWrite => exact execRoutesWrite_memOk s hs t hexec
  | appGrantWrite => exact execAppGrantWrite_memOk s hs t hexec
  | lostRelease => exact execLostRelease_memOk s hs t hexec
  | devIdApply => exact execDevIdApply_memOk s hs t hexec
  | keyRevoke => exact execKeyRevoke_memOk s hs t hexec
  | fwStage => exact execFwStage_memOk s hs t hexec
  | fwCommit => exact execFwCommit_memOk s hs t hexec
  | fwDiscard => exact execFwDiscard_memOk s hs t hexec
  | mrExtend => exact execMrExtend_memOk s hs t hexec
  | quoteNonce => exact execQuoteNonce_memOk s hs t hexec
  | quoteSigned => exact execQuoteSigned_memOk s hs t hexec
  | akCertSigned => exact execAkCertSigned_memOk s hs t hexec
  | dbgChallenge => exact execDbgChallenge_memOk s hs t hexec
  | dbgResponse => exact execDbgResponse_memOk s hs t hexec
  | dataFlit l bytes => exact execDataFlit_memOk l bytes s hs t hexec
  | abortFlit l bytes => exact execAbortFlit_memOk l bytes s hs t hexec
  | idleFlit l bytes => exact execIdleFlit_memOk l bytes s hs t hexec
  | helloFlit l bytes => exact execHelloFlit_memOk l bytes s hs t hexec
  | degradeFlit l bytes => exact execDegradeFlit_memOk l bytes s hs t hexec
  | ethFrame l frame fcsOk => exact execEthFrame_memOk l frame fcsOk s hs t hexec
  | replayTimeout l => exact execReplayTimeout_memOk l s hs t hexec
  | helloSend l => exact execHelloSend_memOk l s hs t hexec
  | helloTimeout l => exact execHelloTimeout_memOk l s hs t hexec
  | flitLockLost l => exact execFlitLockLost_memOk l s hs t hexec
  | flitLockAcquired l => exact execFlitLockAcquired_memOk l s hs t hexec
  | laneDegrade l lanes errors => exact execLaneDegrade_memOk l lanes errors s hs t hexec
  | linkRetrainComplete l ok => exact execLinkRetrainComplete_memOk l ok s hs t hexec
  | packetForward l vc => exact execPacketForward_memOk l vc s hs t hexec
  | heldPacketRelease dest => exact execHeldPacketRelease_memOk dest s hs t hexec
  | arrivalBufferDeliver die => exact execArrivalBufferDeliver_memOk die s hs t hexec
  | cableChange port cable => exact execCableChange_memOk port cable s hs t hexec
  | powerControlStep inputW => exact execPowerControlStep_memOk inputW s hs t hexec
  | thermalSample die tj => exact execThermalSample_memOk die tj s hs t hexec
  | thermalTrip die => exact execThermalTrip_memOk die s hs t hexec
  | vcoreUnderVoltage die => exact execVcoreUnderVoltage_memOk die s hs t hexec
  | vcoreRecovery die => exact execVcoreRecovery_memOk die s hs t hexec
  | inputUnderVoltage => exact execInputUnderVoltage_memOk s hs t hexec
  | inputOverVoltage => exact execInputOverVoltage_memOk s hs t hexec
  | pwrEnHigh => exact execPwrEnHigh_memOk s hs t hexec
  | pwrEnLow => exact execPwrEnLow_memOk s hs t hexec
  | modResetAssert => exact execModResetAssert_memOk s hs t hexec
  | internalResetRelease recoveryN sris t1sTerm => exact execInternalResetRelease_memOk recoveryN sris t1sTerm s hs t hexec
  | bootRun b => exact execBootRun_memOk b s hs t hexec
  | perstAssert => exact execPerstAssert_memOk s hs t hexec
  | perstDeassert => exact execPerstDeassert_memOk s hs t hexec
  | freezeNAssert => exact execFreezeNAssert_memOk s hs t hexec
  | freezeNDeassert => exact execFreezeNDeassert_memOk s hs t hexec
  | tapReset => exact execTapReset_memOk s hs t hexec
  | bypassTap tap opc => exact execBypassTap_memOk tap opc s hs t hexec
  | idcodeTap tap => exact execIdcodeTap_memOk tap s hs t hexec
  | samplePreload tap boundary => exact execSamplePreload_memOk tap boundary s hs t hexec
  | extest tap => exact execExtest_memOk tap s hs t hexec
  | clampTap tap => exact execClampTap_memOk tap s hs t hexec
  | highzTap tap => exact execHighzTap_memOk tap s hs t hexec
  | extestPulse tap => exact execExtestPulse_memOk tap s hs t hexec
  | extestTrain tap => exact execExtestTrain_memOk tap s hs t hexec
  | frzStatus tap => exact execFrzStatus_memOk tap s hs t hexec
  | dbgAccess tap dr => exact execDbgAccess_memOk tap dr s hs t hexec
  | inputRestored => exact execInputRestored_memOk s hs t hexec
  | railFault rail => exact execRailFault_memOk rail s hs t hexec
  | pcieLinkEvent e => exact execPcieLinkEvent_memOk e s hs t hexec
  | msixVectorUnmask v => exact execMsixVectorUnmask_memOk v s hs t hexec
  | linkModeWrite => exact execLinkModeWrite_memOk s hs t hexec
  | fwSlotWriteComplete readback => exact execFwSlotWriteComplete_memOk readback s hs t hexec

/-- Every step keeps the canonical form of the memories. -/
theorem step_memOk {s t : State} (hs : s.memOk) (h : step s = .next t) : t.memOk := by
  cases hq : s.pending with
  | nil =>
    rw [step_of_empty hq] at h
    cases h
    exact tick_memOk s hs
  | cons c rest =>
    rw [step_of_front hq] at h
    exact exec_memOk c { s with pending := rest } t hs h

/-- The form of the claims and that of the laws are one: device memory, workstation memory, every scratchpad. -/
theorem memoriesCanonical_iff (s : State) : MemoriesCanonical s ↔ s.memOk :=
  and_assoc.symm

/-- Settles O56: every command keeps the memories canonical, and none lets the log grow past 4,096 entries. -/
theorem invariantIsKept : Obligations.InvariantIsKept := by
  unfold Obligations.InvariantIsKept
  intro s t ⟨hmem, hlog⟩ hstep
  obtain ⟨-, -, hkeeps, -⟩ := StepLaws.step_sound s t hstep
  exact ⟨(memoriesCanonical_iff t).mpr (step_memOk ((memoriesCanonical_iff s).mp hmem) hstep), hkeeps hlog⟩

/-- Settles O57: at reset every memory and the log are empty. -/
theorem invariantAtReset : Obligations.InvariantAtReset :=
  ⟨⟨Memory.wf_nil, Memory.wf_nil, fun _ h => nomatch h⟩, Nat.zero_le _⟩

/-! ### Fuses and DBG_AUTH -/

/-- Settles O58: no command clears a bit of a key or lowers SVN_MIN, nor does a tick. -/
theorem fusesOnlyBlow : Obligations.FusesOnlyBlow := by
  unfold Obligations.FusesOnlyBlow
  intro s t hstep
  obtain ⟨hsvn, hkeys, -⟩ := StepLaws.step_sound s t hstep
  exact ⟨hsvn, hkeys⟩

theorem tick_dbg (s : State) : (tick s).dbg = s.dbg := by
  cases hon : s.pwr.on with
  | true => rw [tick_on hon]
  | false => rw [tick_off hon]

/-- DBG_AUTH comes to 1 only by the response in front of the queue (R674, R675). -/
theorem auth_rises_by_response {s t : State} (hstep : step s = .next t) (h0 : s.dbg.auth = false) (h1 : t.dbg.auth = true) :
    ∃ rest, s.pending = .dbgResponse :: rest ∧ execDbgResponse { s with pending := rest } = .next t := by
  cases hq : s.pending with
  | nil =>
    rw [step_of_empty hq] at hstep
    cases hstep
    rw [tick_dbg, h0] at h1
    cases h1
  | cons c rest =>
    rw [step_of_front hq] at hstep
    rcases StepLaws.x_auth c _ t hstep with rfl | hsame | hfalse
    · exact ⟨rest, rfl, hstep⟩
    · exact absurd (hsame.symm.trans h1) (ne_true_of_eq_false h0)
    · exact absurd h1 (ne_true_of_eq_false hfalse)

/-- Settles O59: a step keeps DBG_AUTH or is a reset, and only a response that verifies raises it. -/
theorem debugAuthStaysUntilReset : Obligations.DebugAuthStaysUntilReset := by
  unfold Obligations.DebugAuthStaysUntilReset
  intro s t hstep
  obtain ⟨-, -, -, hauth⟩ := StepLaws.step_sound s t hstep
  refine ⟨fun h => hauth.imp (fun keeps => keeps h) id, fun h0 h1 => ?_⟩
  obtain ⟨rest, hfront, hexec⟩ := auth_rises_by_response hstep h0 h1
  exact ⟨by rw [hfront]; rfl, StepLaws.response_auth { s with pending := rest } t hexec h0 h1⟩

end Sys2Proof.Proofs

/-! PROOFS. Supply, shutdowns and module reset, power control, sensors, PERST, and the boot. -/

namespace Sys2Proof.Proofs

open Sys2Proof Sys2Proof.Machine Sys2Proof.Claims Sys2Proof.Laws

/-! ### Shutdowns (R694, R712) -/

theorem exec_inputUnderVoltage (s : State) :
    exec .inputUnderVoltage s = .next ((s.modPwr (fun p => { p with inputOk := false })).powerOff 2) :=
  rfl

theorem exec_inputOverVoltage (s : State) :
    exec .inputOverVoltage s = .next ((s.modPwr (fun p => { p with inputOk := false, latch := .over })).powerOff 4) :=
  rfl

theorem exec_pwrEnLow (s : State) : exec .pwrEnLow s = .next ((s.modPwr (fun p => { p with pwrEn := false })).powerOff 0) :=
  rfl

theorem exec_pwrEnHigh (s : State) : exec .pwrEnHigh s = .next (s.modPwr (fun p => { p with pwrEn := true })).powerUp :=
  rfl

theorem exec_thermalTrip {s : State} (hon : s.pwr.on = true) (d : Fin 2) :
    exec (.thermalTrip d) s = .next ((s.modPwr (fun p => { p with latch := .trip, thermtripN := false })).powerOff 1) :=
  congrArg Host.Outcome.next (onlyIf_true _ _ _ (by rw [hon, decide_eq_true d.isLt]; rfl))

theorem exec_railFault {s : State} (hon : s.pwr.on = true) (r : Fin 8) :
    exec (.railFault r) s = .next (((s.modPwr (fun p => { p with
      railFaults := p.railFaults ||| BitVec.ofNat 32 (2 ^ r.val) })).fireStatus srcPower).powerOff 3) :=
  congrArg Host.Outcome.next (onlyIf_true _ _ _ hon)

theorem exec_internalResetRelease {s : State} (hon : s.pwr.on = true) (hpg : s.pwr.pg = true) (hboot : s.pwr.boot = .off)
    (a b c : Bool) :
    exec (.internalResetRelease a b c) s = .next (s.modPwr (fun p => { p with
      modResetN := true, strapRecoveryN := a, strapSris := b, strapT1s := c, boot := .released })) :=
  congrArg Host.Outcome.next (onlyIf_true _ _ _ (by rw [hon, hpg, hboot]; rfl))

theorem exec_inputRestored {s : State} (h : s.pwr.inputOk = false ∨ s.pwr.latch ≠ .clear) :
    exec .inputRestored s =
      .next (s.modPwr (fun p => { p with inputOk := true, latch := .clear, thermtripN := true })).powerUp := by
  refine congrArg Host.Outcome.next (onlyIf_true _ _ _ ?_)
  rcases h with hinput | hlatch
  · rw [hinput]; rfl
  · rw [decide_eq_true hlatch, Bool.or_true]

/-- What the commands of the supply do with the power on. -/
theorem supply_on {s : State} (hon : s.pwr.on = true) :
    (∃ t, exec .inputUnderVoltage s = .next t ∧ GoesOff s t 2 ∧ t.pwr.inputOk = false ∧ t.pwr.latch = s.pwr.latch) ∧
    (∃ t, exec .inputOverVoltage s = .next t ∧ GoesOff s t 4 ∧ t.pwr.inputOk = false ∧ t.pwr.latch = .over) ∧
    (∀ d : Fin 2, ∃ t, exec (.thermalTrip d) s = .next t ∧ GoesOff s t 1 ∧ t.pwr.latch = .trip ∧ t.pwr.thermtripN = false) ∧
    (∃ t, exec .pwrEnLow s = .next t ∧ GoesOff s t s.pwr.shutdownNext ∧ t.pwr.pwrEn = false) ∧
    (∀ r : Fin 8, ∃ t, exec (.railFault r) s = .next t ∧ GoesOff s t 3 ∧
      t.pwr.railFaults = s.pwr.railFaults ||| BitVec.ofNat 32 (2 ^ r.val)) := by
  refine ⟨?_, ?_, fun d => ?_, ?_, fun r => ?_⟩
  · obtain ⟨hoff, hinput, hlatch, -⟩ := PowerLaws.powerOff_facts (s.modPwr (fun p => { p with inputOk := false })) 2 hon
    exact ⟨_, exec_inputUnderVoltage s, hoff, hinput, hlatch⟩
  · obtain ⟨hoff, hinput, hlatch, -⟩ :=
      PowerLaws.powerOff_facts (s.modPwr (fun p => { p with inputOk := false, latch := .over })) 4 hon
    exact ⟨_, exec_inputOverVoltage s, hoff, hinput, hlatch⟩
  · obtain ⟨hoff, -, hlatch, htrip, -⟩ :=
      PowerLaws.powerOff_facts (s.modPwr (fun p => { p with latch := .trip, thermtripN := false })) 1 hon
    exact ⟨_, exec_thermalTrip hon d, hoff, hlatch, htrip⟩
  · obtain ⟨hoff, -, -, -, hen, -⟩ := PowerLaws.powerOff_facts (s.modPwr (fun p => { p with pwrEn := false })) 0 hon
    exact ⟨_, exec_pwrEnLow s, hoff, hen⟩
  · obtain ⟨hoff, -, -, -, -, hfaults⟩ := PowerLaws.powerOff_facts ((s.modPwr (fun p => { p with
      railFaults := p.railFaults ||| BitVec.ofNat 32 (2 ^ r.val) })).fireStatus srcPower) 3 hon
    exact ⟨_, exec_railFault hon r, hoff, hfaults⟩

/-! ### Reset and its release (R709, R712) -/

/-- A module reset with the power on, and the end of the internal reset. -/
theorem reset_on {s : State} (hon : s.pwr.on = true) :
    (∃ t, exec .modResetAssert s = .next t ∧ KeepsFlash s t ∧ t.pwr.on = true ∧ t.pwr.boot = .off ∧ t.pwr.modResetN = false ∧
      t.cells = [] ∧ t.units = [] ∧ t.mem.mem = [] ∧ t.dict.params = [] ∧ t.sec.log = []) ∧
    (∀ a b c, s.pwr.pg = true → s.pwr.boot = .off → ∃ t, exec (.internalResetRelease a b c) s = .next t ∧
      t = { s with pwr := { s.pwr with modResetN := true, strapRecoveryN := a, strapSris := b, strapT1s := c, boot := .released } }) := by
  refine ⟨?_, fun a b c hpg hboot => ⟨_, exec_internalResetRelease hon hpg hboot a b c, rfl⟩⟩
  obtain ⟨hflash, hstays, hboot, hcells, hunits, hmem, -, hparams, hlog, -⟩ :=
    PowerLaws.coldReset_facts (s.modPwr (fun p => { p with modResetN := false }))
  exact ⟨_, exec_modResetAssert s hon, hflash, hstays.trans hon, hboot, rfl, hcells, hunits, hmem, hparams, hlog⟩

/-! ### Supply with the power off (R708) -/

/-- With the input in range, no latch and PWR_EN high the rails ramp. -/
theorem ramps_iff (u : State) : (!u.pwr.on && u.pwr.inputOk && decide (u.pwr.latch = .clear) && u.pwr.pwrEn) = true ↔
    u.pwr.on = false ∧ u.pwr.inputOk = true ∧ u.pwr.latch = .clear ∧ u.pwr.pwrEn = true := by
  simp [and_assoc]

theorem keepsFlash_modPwr (s : State) (f : Power → Power) : KeepsFlash s (s.modPwr f) := by
  refine ⟨rfl, rfl, rfl, rfl, fun _ => ⟨rfl, rfl⟩, ?_, rfl, rfl, rfl⟩
  split <;> rfl

/-- What the commands of the supply do with the power off. -/
theorem supply_off {s : State} (hoff : s.pwr.on = false) :
    (∃ t, exec .inputUnderVoltage s = .next t ∧ t = { s with pwr := { s.pwr with inputOk := false } }) ∧
    (∃ t, exec .inputOverVoltage s = .next t ∧ t = { s with pwr := { s.pwr with inputOk := false, latch := .over } }) ∧
    (∃ t, exec .pwrEnLow s = .next t ∧ t = { s with pwr := { s.pwr with pwrEn := false } }) :=
  ⟨⟨_, exec_inputUnderVoltage s, PowerLaws.powerOff_off _ _ hoff⟩, ⟨_, exec_inputOverVoltage s, PowerLaws.powerOff_off _ _ hoff⟩,
    ⟨_, exec_pwrEnLow s, PowerLaws.powerOff_off _ _ hoff⟩⟩

/-- The latches clear, and the module restarts where PWR_EN is high (R712). -/
theorem inputRestored_off {s : State} (hoff : s.pwr.on = false) (h : s.pwr.inputOk = false ∨ s.pwr.latch ≠ .clear) :
    ∃ t, exec .inputRestored s = .next t ∧ KeepsFlash s t ∧
      t.pwr.inputOk = true ∧ t.pwr.latch = .clear ∧ t.pwr.thermtripN = true ∧ t.pwr.on = s.pwr.pwrEn := by
  refine ⟨_, exec_inputRestored h, ?_⟩
  cases hen : s.pwr.pwrEn with
  | true =>
    obtain ⟨hflash, hon, -, -, -, -, -, hinput, hlatch, htrip⟩ := PowerLaws.powerUp_yes
      (s.modPwr (fun p => { p with inputOk := true, latch := .clear, thermtripN := true })) ((ramps_iff _).mpr ⟨hoff, rfl, rfl, hen⟩)
    exact ⟨hflash, hinput, hlatch, htrip, hon⟩
  | false =>
    have hstays := PowerLaws.powerUp_no (s.modPwr (fun p => { p with inputOk := true, latch := .clear, thermtripN := true }))
      (Bool.eq_false_iff.mpr fun hramps => by
        obtain ⟨-, -, -, hhigh⟩ := (ramps_iff _).mp hramps
        exact ne_true_of_eq_false hen hhigh)
    rw [hstays]
    exact ⟨keepsFlash_modPwr s _, rfl, rfl, rfl, hoff⟩

/-- PWR_EN comes high with the power off. -/
theorem pwrEnHigh_off {s : State} (hoff : s.pwr.on = false) :
    ((s.pwr.inputOk = false ∨ s.pwr.latch ≠ .clear) → ∃ t, exec .pwrEnHigh s = .next t ∧
      t = { s with pwr := { s.pwr with pwrEn := true } }) ∧
    (s.pwr.inputOk = true → s.pwr.latch = .clear → ∃ t, exec .pwrEnHigh s = .next t ∧ KeepsFlash s t ∧ t.pwr.on = true ∧
      t.pwr.pg = true ∧ t.pwr.boot = .off ∧ t.pwr.railFaults = 0 ∧ t.pwr.die0.mv = 750 ∧ t.pwr.die1.mv = 750) := by
  refine ⟨fun hheld => ⟨_, exec_pwrEnHigh s, ?_⟩, fun hinput hlatch => ⟨_, exec_pwrEnHigh s, ?_⟩⟩
  · refine PowerLaws.powerUp_no _ (Bool.eq_false_iff.mpr fun hramps => ?_)
    obtain ⟨-, hinput, hlatch, -⟩ := (ramps_iff _).mp hramps
    exact hheld.elim (fun h => absurd hinput (ne_true_of_eq_false h)) (fun h => h hlatch)
  · obtain ⟨hflash, hon, hpg, hboot, hfaults, h0, h1, -⟩ := PowerLaws.powerUp_yes
      (s.modPwr (fun p => { p with pwrEn := true })) ((ramps_iff _).mpr ⟨hoff, hinput, hlatch, rfl⟩)
    exact ⟨hflash, hon, hpg, hboot, hfaults, h0, h1⟩

/-- Settles O50: the shutdowns and resets with the power on, and the supply with the power off. -/
theorem supplyAndResets : Obligations.SupplyAndResets := by
  unfold Obligations.SupplyAndResets
  intro s
  refine ⟨fun hon => ?_, fun hoff => ?_⟩
  · obtain ⟨hunder, hover, htrip, hlow, hrail⟩ := supply_on hon
    obtain ⟨hreset, hrelease⟩ := reset_on hon
    exact ⟨hunder, hover, htrip, hlow, hrail, hreset, hrelease⟩
  · obtain ⟨hunder, hover, hlow⟩ := supply_off hoff
    obtain ⟨hheld, hramps⟩ := pwrEnHigh_off hoff
    exact ⟨hunder, hover, hlow, inputRestored_off hoff, hheld, hramps⟩

/-! ### The power controller (R683 to R685) -/

/-- A control step on one die, with no fixed VCORE (Table 20-3). -/
def dieStep (s : State) (w : Nat) (d : DiePower) : DiePower :=
  ((d.targets w s.powerCap s.vcoreMax).count s.vcoreMax).settle w s.powerCap s.vcoreMax 0

theorem exec_powerControlStep {s : State} (hup : s.hostUp = true) (hfree : s.fixedMv = 0) (w : Nat) :
    exec (.powerControlStep w) s = .next { s with pwr := { s.pwr with
      die0 := dieStep s w s.pwr.die0, die1 := dieStep s w s.pwr.die1, inputW := w, energy := s.pwr.energy + BitVec.ofNat 64 w } } := by
  refine congrArg Host.Outcome.next ((onlyIf_true _ _ _ hup).trans ?_)
  unfold State.controlStep
  rw [hfree]
  rfl

/-- The power of a die where both dies are given. -/
theorem diePower_of_dies {t : State} {a b : DiePower} (h0 : t.pwr.die0 = a) (h1 : t.pwr.die1 = b) (i : Nat) :
    t.diePower i = if i = 0 then a else b := by
  unfold State.diePower
  rw [h0, h1]

theorem dieStep_diePower (s : State) (w i : Nat) :
    dieStep s w (s.diePower i) = if i = 0 then dieStep s w s.pwr.die0 else dieStep s w s.pwr.die1 :=
  apply_ite (dieStep s w) _ _ _

/-! ### Sensors (R687, R691, R692) -/

theorem exec_thermalSample {s : State} (hon : s.pwr.on = true) (hboot : s.pwr.boot ≠ .off) (i : Fin 2) (raw : BitVec 16) :
    exec (.thermalSample i raw) s = .next (s.sample i.val raw) :=
  congrArg Host.Outcome.next (onlyIf_true _ _ _ (by rw [hon, decide_eq_true hboot]; rfl))

theorem exec_vcoreUnderVoltage {s : State} (hon : s.pwr.on = true) (i : Fin 2) (huv : (s.diePower i.val).uv = false) :
    exec (.vcoreUnderVoltage i) s =
      .next ((s.modDiePower i.val (fun d => { d with uv := true, uvEvents := d.uvEvents + 1 })).fireStatus srcPower) :=
  congrArg Host.Outcome.next (onlyIf_true _ _ _ (by rw [hon, huv]; rfl))

theorem exec_vcoreRecovery {s : State} (hon : s.pwr.on = true) (i : Fin 2) :
    exec (.vcoreRecovery i) s = .next (s.modDiePower i.val (fun d => { d with uv := false })) :=
  congrArg Host.Outcome.next (onlyIf_true _ _ _ hon)

/-- The event of a status source leaves the dies' power alone. -/
theorem fireStatus_diePower (s : State) (n i : Nat) : (s.fireStatus n).diePower i = s.diePower i := rfl

/-- TSENSE_OFFSET of a die (R691). -/
def tsenseOffset (s : State) (i : Nat) : Int := (calibOf 0x7020).elim 0 (fun c => c.acting s 0x7020 (UA.keyOf 1 (256 * i)) 0)

/-- What a sample makes of a die whose Tj comes to `tj`. -/
def sampled (s : State) (tj : Int) (d : DiePower) : DiePower :=
  let hot := decide (s.tjWarn ≤ tj)
  { d with
    tj := BitVec.ofInt 16 tj
    warnArmed := if hot then false else d.warnArmed || decide (tj ≤ s.tjWarn - 80)
    warnEvents := if hot && d.warnArmed then d.warnEvents + 1 else d.warnEvents }

theorem sample_eq (s : State) (i : Nat) (raw : BitVec 16) :
    s.sample i raw = if (decide (s.tjWarn ≤ raw.toInt + tsenseOffset s i) && (s.diePower i).warnArmed) = true
      then (s.modDiePower i (sampled s (raw.toInt + tsenseOffset s i))).fireStatus srcThermal
      else s.modDiePower i (sampled s (raw.toInt + tsenseOffset s i)) :=
  rfl

/-- THERMAL fires as Tj comes to TJ_WARN at a die that is armed (R692). -/
theorem sample_facts (s : State) (i : Fin 2) (raw : BitVec 16) :
    let tj := raw.toInt + tsenseOffset s i.val
    let t := s.sample i.val raw
    t.diePower i.val = sampled s tj (s.diePower i.val) ∧ t.cells = s.cells ∧ t.dict = s.dict ∧
      t.evc = if (decide (s.tjWarn ≤ tj) && (s.diePower i.val).warnArmed) = true then s.evc.fireStatus srcThermal else s.evc := by
  intro tj t
  have hdie : (s.modDiePower i.val (sampled s tj)).diePower i.val = sampled s tj (s.diePower i.val) := PowerLaws.die_mod s i _
  obtain ⟨hcells, hdict, hevc⟩ := PowerLaws.die_mod_rest s i.val (sampled s tj)
  show (s.sample i.val raw).diePower i.val = _ ∧ (s.sample i.val raw).cells = _ ∧ (s.sample i.val raw).dict = _ ∧
    (s.sample i.val raw).evc = _
  rw [sample_eq]
  by_cases hfires : (decide (s.tjWarn ≤ tj) && (s.diePower i.val).warnArmed) = true
  · rw [if_pos hfires, if_pos hfires]
    exact ⟨hdie, hcells, hdict, congrArg (Evc.fireStatus · srcThermal) hevc⟩
  · rw [if_neg hfires, if_neg hfires]
    exact ⟨hdie, hcells, hdict, hevc⟩

/-- THERMAL_SAMPLE gives Tj, and fires THERMAL once as Tj comes to TJ_WARN (R692). -/
theorem thermalSample_fires_once {s : State} (hon : s.pwr.on = true) (hboot : s.pwr.boot ≠ .off) (i : Fin 2) (raw : BitVec 16) :
    let tj := raw.toInt + tsenseOffset s i.val
    ∃ t, exec (.thermalSample i raw) s = .next t ∧ (t.diePower i.val).tj = BitVec.ofInt 16 tj ∧ t.cells = s.cells ∧ t.dict = s.dict ∧
      (s.tjWarn ≤ tj ∧ (s.diePower i.val).warnArmed = true → t.evc = s.evc.fireStatus srcThermal ∧
        (t.diePower i.val).warnEvents = (s.diePower i.val).warnEvents + 1 ∧ (t.diePower i.val).warnArmed = false) ∧
      (tj < s.tjWarn ∨ (s.diePower i.val).warnArmed = false → t.evc = s.evc ∧
        (t.diePower i.val).warnEvents = (s.diePower i.val).warnEvents) := by
  intro tj
  obtain ⟨hdie, hcells, hdict, hevc⟩ := sample_facts s i raw
  refine ⟨_, exec_thermalSample hon hboot i raw, by rw [hdie]; rfl, hcells, hdict, fun ⟨hhot, harmed⟩ => ?_, fun hcold => ?_⟩
  · have hfires : (decide (s.tjWarn ≤ tj) && (s.diePower i.val).warnArmed) = true := by
      rw [harmed, decide_eq_true hhot]; rfl
    rw [hevc, hdie, if_pos hfires]
    exact ⟨rfl, if_pos hfires, if_pos (decide_eq_true hhot)⟩
  · have hquiet : ¬ (decide (s.tjWarn ≤ tj) && (s.diePower i.val).warnArmed) = true := by
      rw [Bool.and_eq_true, decide_eq_true_iff]
      exact fun ⟨hhot, harmed⟩ => hcold.elim (fun h => absurd hhot (not_le.mpr h)) (fun h => ne_true_of_eq_false h harmed)
    rw [hevc, hdie, if_neg hquiet]
    exact ⟨rfl, if_neg hquiet⟩

/-! ### PERST (R646, R712) -/

/-- The state once PERST_N is low and the link is down. -/
def linkReset (s : State) : State := { s with pwr := { s.pwr with perstN := false }, pcie := { s.pcie with up := false } }

/-- PERST is a reset of the endpoint where the module is up, and waits for the end of a full freeze. -/
theorem exec_perstAssert (s : State) : exec .perstAssert s = .next (if s.up = true
    then (if s.dbg.fullFrozen = true
      then { linkReset s with dbg := { s.dbg with barWait := s.dbg.barWait ++ [.flr] } }
      else (linkReset s).flr)
    else linkReset s) :=
  rfl

theorem exec_perstDeassert (s : State) : exec .perstDeassert s = .next { s with pwr := { s.pwr with perstN := true } } := rfl

/-- Settles O51: the targets of each die, the samples of its sensors, its under-voltage, and PERST by the state of the module. -/
theorem powerAndHeat : Obligations.PowerAndHeat := by
  unfold Obligations.PowerAndHeat
  intro s
  refine ⟨fun w hup hfree => ?_, fun i raw hon hboot => ?_, fun i hon => ⟨fun huv => ?_, ?_⟩, fun hup hfrozen => ?_,
    fun hup hfrozen => ?_, fun hup => ?_, ⟨_, exec_perstDeassert s, rfl⟩⟩
  · refine ⟨_, exec_powerControlStep hup hfree w, rfl, fun i => ?_⟩
    intro d e
    have he : e = dieStep s w d := (diePower_of_dies rfl rfl i.val).trans (dieStep_diePower s w i.val).symm
    rw [he]
    exact PowerLaws.step_facts d w s.powerCap s.vcoreMax
  · exact thermalSample_fires_once hon hboot i raw
  · have hdie := PowerLaws.die_mod s i (fun d => { d with uv := true, uvEvents := d.uvEvents + 1 })
    obtain ⟨hcells, -, hevc⟩ := PowerLaws.die_mod_rest s i.val (fun d => { d with uv := true, uvEvents := d.uvEvents + 1 })
    refine ⟨_, exec_vcoreUnderVoltage hon i huv, ?_, ?_, congrArg (Evc.fireStatus · srcPower) hevc, hcells⟩
    · rw [fireStatus_diePower, hdie]
    · rw [fireStatus_diePower, hdie]
  · obtain ⟨hcells, -, hevc⟩ := PowerLaws.die_mod_rest s i.val (fun d => { d with uv := false })
    exact ⟨_, exec_vcoreRecovery hon i, by rw [PowerLaws.die_mod], hcells, hevc⟩
  · rw [exec_perstAssert, if_pos hup, if_pos hfrozen]
    exact ⟨_, rfl, rfl⟩
  · rw [exec_perstAssert, if_pos hup, if_neg (ne_true_of_eq_false hfrozen)]
    exact ⟨_, rfl, rfl⟩
  · rw [exec_perstAssert, if_neg (ne_true_of_eq_false hup)]
    exact ⟨_, rfl, rfl⟩

/-! ### The boot (R657, R661, R662, R665, R679) -/

theorem exec_bootRun {s : State} (hon : s.pwr.on = true) (hboot : s.pwr.boot = .released) (b : BootInput) :
    exec (.bootRun b) s = .next (s.boot b) :=
  congrArg Host.Outcome.next (onlyIf_true _ _ _ (by rw [hon, hboot]; rfl))

/-- The state of a boot once the ROM is done and LAST_SHUTDOWN has its cause (R694). -/
def romDone (s : State) (b : BootInput) : State :=
  (s.bootRom b).modPwr (fun p => { p with lastShutdown := p.shutdownNext, shutdownNext := 0 })

theorem boot_image {s : State} {b : BootInput} {k : Nat} {i : SlotImage} (hchoice : (romDone s b).sec.choose = (k, some i))
    (hstrap : (romDone s b).pwr.strapRecoveryN = true) :
    s.boot b = (romDone s b).bootImage b s.dict.chooseCopy.2 k i := by
  unfold State.boot
  unfold romDone at hchoice hstrap ⊢
  simp only [hchoice, hstrap, if_true]

theorem boot_recovery {s : State} {b : BootInput}
    (h : (romDone s b).sec.choose.2 = none ∨ (romDone s b).pwr.strapRecoveryN = false) :
    s.boot b = (romDone s b).bootRecovery := by
  unfold State.boot
  unfold romDone at h ⊢
  simp only []
  split
  · next k i hchoice =>
    rw [hchoice] at h
    rw [if_neg]
    exact ne_true_of_eq_false (h.resolve_left (fun h => nomatch h))
  · rfl

/-- What the ROM leaves for the choice of an image: fuses, slots and the choice itself as before, both measurements taken. -/
theorem romDone_facts (s : State) (b : BootInput) :
    let u := romDone s b
    u.dict.acting = s.dict.chooseCopy.1 ∧
      u.pwr = { s.pwr with lastShutdown := s.pwr.shutdownNext, shutdownNext := 0 } ∧
      u.sec.keys = s.sec.keys ∧ u.sec.svnMin = s.sec.svnMin ∧ u.sec.slotA = s.sec.slotA ∧ u.sec.slotB = s.sec.slotB ∧
      u.sec.mr 0 = s.sec.mr 0 ∧ u.sec.mr 1 = shake256 (s.sec.mr 1 ++ digest s.sec.fuses) 64 ∧ u.sec.choose = s.sec.choose := by
  intro u
  obtain ⟨hacting, hpwr, -, g, hsec⟩ := PowerLaws.bootRom_facts s b
  have hu : u.sec = (s.sec.extend 1 1 (digest s.sec.fuses)).extend 2 2 g := hsec
  obtain ⟨hkeys1, hsvn1, ha1, hb1⟩ := PowerLaws.ext_keep s.sec 1 1 (digest s.sec.fuses)
  obtain ⟨hkeys2, hsvn2, ha2, hb2⟩ := PowerLaws.ext_keep (s.sec.extend 1 1 (digest s.sec.fuses)) 2 2 g
  obtain ⟨hmr1, hother1⟩ := PowerLaws.ext_mr s.sec 1 1 (digest s.sec.fuses)
  obtain ⟨-, hother2⟩ := PowerLaws.ext_mr (s.sec.extend 1 1 (digest s.sec.fuses)) 2 2 g
  rw [← hu] at hkeys2 hsvn2 ha2 hb2 hother2
  have hkeys := hkeys2.trans hkeys1
  have hsvn := hsvn2.trans hsvn1
  have ha := ha2.trans ha1
  have hb := hb2.trans hb1
  refine ⟨hacting, ?_, hkeys, hsvn, ha, hb, (hother2 0 (by decide)).trans (hother1 0 (by decide)),
    (hother2 1 (by decide)).trans hmr1, PowerLaws.choose_of ⟨hkeys, hsvn, ha, hb⟩⟩
  show ({ (s.bootRom b).pwr with lastShutdown := (s.bootRom b).pwr.shutdownNext, shutdownNext := 0 } : Power) = _
  rw [hpwr]

/-- A boot that runs image `i` of slot `k` (R657, R661, R662). -/
theorem boot_image_facts {s : State} {b : BootInput} {k : Nat} {i : SlotImage} (hchoice : s.sec.choose = (k, some i))
    (hstrap : s.pwr.strapRecoveryN = true) :
    let t := s.boot b
    t.dict.acting = s.dict.chooseCopy.1 ∧ t.pwr.lastShutdown = s.pwr.shutdownNext ∧ t.pwr.shutdownNext = 0 ∧
      t.sec.keys = s.sec.keys ∧ t.sec.slotA = s.sec.slotA ∧ t.sec.slotB = s.sec.slotB ∧
      t.sec.mr 1 = shake256 (s.sec.mr 1 ++ digest s.sec.fuses) 64 ∧
      t.pwr.boot = .ready ∧ t.sec.bootSlot = BitVec.ofNat 8 k ∧ t.sec.fwVersion = i.version ∧ t.sec.svnMin = max s.sec.svnMin i.floor ∧
      t.sec.mr 0 = shake256 (s.sec.mr 0 ++ i.digest) 64 ∧ t.dbg.fullReq = !s.pwr.freezeN := by
  intro t
  obtain ⟨hacting, hpwr, hkeys, hsvn, ha, hb, hmr0, hmr1, hchoose⟩ := romDone_facts s b
  have ht : t = (romDone s b).bootImage b s.dict.chooseCopy.2 k i :=
    boot_image (hchoose.trans hchoice) ((congrArg Power.strapRecoveryN hpwr).trans hstrap)
  obtain ⟨d, hsec, hpower, hact, hfreeze⟩ := PowerLaws.bootImage_facts (romDone s b) b s.dict.chooseCopy.2 k i
  rw [← ht] at hsec hpower hact hfreeze
  obtain ⟨hkeys0, hsvn0, ha0, hb0⟩ := PowerLaws.ext_keep (romDone s b).sec 0 0 i.digest
  obtain ⟨hmr0', hother0⟩ := PowerLaws.ext_mr (romDone s b).sec 0 0 i.digest
  generalize hx : ({ (romDone s b).sec.extend 0 0 i.digest with
    bootSlot := BitVec.ofNat 8 k, fwVersion := i.version, certSvnMin := (romDone s b).sec.svnMin } : Sec) = x at hsec
  have hxmr (j : Nat) : x.mr j = ((romDone s b).sec.extend 0 0 i.digest).mr j := by rw [← hx]; rfl
  obtain ⟨hkeys3, hsvn3, ha3, hb3⟩ := PowerLaws.ext_keep x 3 3 d
  obtain ⟨hslot3, hver3⟩ := PowerLaws.ext_boot x 3 3 d
  obtain ⟨-, hother3⟩ := PowerLaws.ext_mr x 3 3 d
  have hmr (j : Nat) (hj : j ≠ 3) : t.sec.mr j = ((romDone s b).sec.extend 0 0 i.digest).mr j := by
    rw [hsec]; exact (hother3 j hj).trans (hxmr j)
  rw [hpwr] at hpower hfreeze
  refine ⟨hact.trans hacting, congrArg Power.lastShutdown hpower, congrArg Power.shutdownNext hpower, ?_, ?_, ?_, ?_,
    congrArg Power.boot hpower, ?_, ?_, ?_, ?_, hfreeze⟩
  · rw [hsec]; exact hkeys3.trans ((by rw [← hx] : x.keys = _).trans (hkeys0.trans hkeys))
  · rw [hsec]; exact ha3.trans ((by rw [← hx] : x.slotA = _).trans (ha0.trans ha))
  · rw [hsec]; exact hb3.trans ((by rw [← hx] : x.slotB = _).trans (hb0.trans hb))
  · exact (hmr 1 (by decide)).trans ((hother0 1 (by decide)).trans hmr1)
  · rw [hsec]; exact hslot3.trans (by rw [← hx])
  · rw [hsec]; exact hver3.trans (by rw [← hx])
  · rw [hsec]
    exact congrArg (max · i.floor) (hsvn3.trans ((by rw [← hx] : x.svnMin = _).trans (hsvn0.trans hsvn)))
  · exact (hmr 0 (by decide)).trans (hmr0'.trans (by rw [hmr0]))

/-- A boot that goes to recovery (R661, R679). -/
theorem boot_recovery_facts {s : State} (b : BootInput) (h : s.sec.choose.2 = none ∨ s.pwr.strapRecoveryN = false) :
    let t := s.boot b
    t.dict.acting = s.dict.chooseCopy.1 ∧ t.pwr.lastShutdown = s.pwr.shutdownNext ∧ t.pwr.shutdownNext = 0 ∧
      t.sec.keys = s.sec.keys ∧ t.sec.slotA = s.sec.slotA ∧ t.sec.slotB = s.sec.slotB ∧
      t.sec.mr 1 = shake256 (s.sec.mr 1 ++ digest s.sec.fuses) 64 ∧
      t.pwr.boot = .recovery ∧ t.sec.bootSlot = 2 ∧ t.sec.svnMin = s.sec.svnMin ∧ t.sec.mr 0 = s.sec.mr 0 := by
  intro t
  obtain ⟨hacting, hpwr, hkeys, hsvn, ha, hb, hmr0, hmr1, hchoose⟩ := romDone_facts s b
  have ht : t = (romDone s b).bootRecovery := boot_recovery (h.imp
    (fun hnone => (congrArg Prod.snd hchoose).trans hnone) (fun hstrap => (congrArg Power.strapRecoveryN hpwr).trans hstrap))
  rw [ht]
  generalize romDone s b = u at hacting hpwr hkeys hsvn ha hb hmr0 hmr1
  exact ⟨hacting, congrArg Power.lastShutdown hpwr, congrArg Power.shutdownNext hpwr, hkeys, ha, hb, hmr1, rfl, rfl, hsvn, hmr0⟩

/-- Settles O52: the choice of an image and the strap decide between the image and recovery. -/
theorem bootSequence : Obligations.BootSequence := by
  unfold Obligations.BootSequence
  intro s b hon hboot
  refine ⟨_, exec_bootRun hon hboot b, ?_⟩
  by_cases hrecovery : s.sec.choose.2 = none ∨ s.pwr.strapRecoveryN = false
  · obtain ⟨hacting, hlast, hnext, hkeys, ha, hb, hmr1, hstage, hslot, hsvn, hmr0⟩ := boot_recovery_facts b hrecovery
    refine ⟨hacting, hlast, hnext, hkeys, ha, hb, hmr1, fun k i hchoice hstrap => ?_, fun _ => ⟨hstage, hslot, hsvn, hmr0⟩⟩
    rw [hchoice, hstrap] at hrecovery
    exact hrecovery.elim (fun h => nomatch h) (fun h => nomatch h)
  · obtain ⟨hsome, hstrap⟩ := not_or.mp hrecovery
    obtain ⟨i, hi⟩ := Option.ne_none_iff_exists'.mp hsome
    have hchoice : s.sec.choose = (s.sec.choose.1, some i) := Prod.ext rfl hi
    obtain ⟨hacting, hlast, hnext, hkeys, ha, hb, hmr1, hstage, hslot, hversion, hsvn, hmr0, hfreeze⟩ :=
      boot_image_facts (b := b) hchoice (Bool.eq_true_of_not_eq_false hstrap)
    refine ⟨hacting, hlast, hnext, hkeys, ha, hb, hmr1, fun k j hkj _ => ?_, fun h => absurd h hrecovery⟩
    obtain ⟨rfl, hij⟩ := Prod.mk.inj (hchoice.symm.trans hkj)
    cases hij
    exact ⟨hstage, hslot, hversion, hsvn, hmr0, hfreeze⟩

end Sys2Proof.Proofs

/-! PROOFS. The dictionary service: its mailboxes, reads and writes, and the management network. -/

namespace Sys2Proof.Proofs

open Sys2Proof Sys2Proof.Machine Sys2Proof.Claims Sys2Proof.Laws

/-! ### Requests that are served (R572, R574 to R576) -/

/-- A command that serves the head request does so where the request passes the checks. -/
theorem exec_served {c : Instr} {s : State} {k : ReqKind} {f : State → DictReq → Param → Nat → State} {r : DictReq} {p : Param}
    {n : Nat} (hc : exec c s = .next (s.serve k f)) (h : Asks s k r p n) : exec c s = .next (f (taken s) r p n) :=
  hc.trans (congrArg Host.Outcome.next (serve_at f h))

/-- A write with a new state is answered OK. -/
theorem exec_written {c : Instr} {s : State} {k : ReqKind} {g : State → DictReq → Param → Nat → Option State} {r : DictReq}
    {p : Param} {n : Nat} {u : State} (hc : exec c s = .next (s.serve k (fun s r p k => s.finishWrite r p k (g s r p k))))
    (h : Asks s k r p n) (hu : g (taken s) r p n = some u) : exec c s = .next (u.done r p n) := by
  rw [exec_served hc h, hu, ServiceLaws.finish_some]

/-- A write without one is answered RANGE. -/
theorem exec_outOfRange {c : Instr} {s : State} {k : ReqKind} {g : State → DictReq → Param → Nat → Option State} {r : DictReq}
    {p : Param} {n : Nat} (hc : exec c s = .next (s.serve k (fun s r p k => s.finishWrite r p k (g s r p k))))
    (h : Asks s k r p n) (hu : g (taken s) r p n = none) : exec c s = .next ((taken s).refuse r (some p) dsRange) := by
  rw [exec_served hc h, hu, ServiceLaws.finish_none]

/-- The answer through the local mailbox (R577). -/
theorem answer_loc (u : State) {r : DictReq} (h : r.path = .loc) (st ty tot : Nat) (data : List Byte) :
    (u.answer r st ty tot data).dict.loc = u.dict.loc.answered (r.response st ty tot data.length) data := by
  unfold State.answer
  simp only [h]
  rfl

/-- What is written of a parameter depends on the list of written values alone. -/
theorem raw_of_params {d e : Dict} (h : d.params = e.params) (k : ParamKey) : d.raw k = e.raw k := by
  unfold Dict.raw
  rw [h]

theorem answers_raw {u t : State} {r : DictReq} {st : Nat} (h : Answers u r st t) (k : ParamKey) : t.dict.raw k = u.dict.raw k := by
  obtain ⟨-, -, -, -, -, hparams, -⟩ := ans_rest h
  exact raw_of_params hparams k

/-! ### Reads and writes (R571, R575, R577) -/

theorem exec_mbGo_loc {s : State} (hup : s.hostUp = true) (w : MbWrite) :
    exec (.mbGo .loc w) s = .next (s.mailboxWrite .loc w) :=
  congrArg Host.Outcome.next (onlyIf_true _ _ _ hup)

/-- A write of the local mailbox: GO posts the request, and a write while BUSY is 1 only sets GOERR (R577). -/
theorem mailbox_facts (s : State) :
    (s.dict.loc.busy = true → s.mailboxWrite .loc .go = { s with dict := { s.dict with loc := { s.dict.loc with goerr := true } } }) ∧
    (s.dict.loc.busy = false → s.mailboxWrite .loc .go =
      { s with dict := { s.dict with loc := { s.dict.loc with busy := true }, queue := s.dict.queue ++ [s.dict.loc.request .loc] } }) ∧
    (∀ o b, s.dict.loc.busy = true →
      s.mailboxWrite .loc (.hdr o b) = { s with dict := { s.dict with loc := { s.dict.loc with goerr := true } } }) := by
  refine ⟨fun hbusy => if_pos hbusy, fun hidle => if_neg (ne_true_of_eq_false hidle), fun o b hbusy => ?_⟩
  exact congrArg (fun m => s.modDict (·.setMailbox .loc m)) (if_pos hbusy)

/-- The one unit at which a parameter is written takes the value with its bytes replaced. -/
theorem writeParam_single {s u : State} {r : DictReq} {p : Param} {n : Nat} (hu : s.writeParam r p n = some u)
    (hone : p.targets n = [n]) : u = s.setParam r.index p n (patch (p.val s n) r.offset r.value) := by
  unfold State.writeParam at hu
  simp only [hone] at hu
  split at hu
  · cases hu; rfl
  · cases hu

theorem exec_dictionaryRead {s : State} {r : DictReq} {p : Param} {n : Nat} (h : Asks s .read r p n) :
    exec .dictionaryRead s = .next ((taken s).serveRead r p n) :=
  exec_served (f := State.serveRead) rfl h

theorem exec_dictionaryRead_refused {s : State} {r : DictReq} {p : Param} {st : Nat} (hhead : s.headReq .read = some r)
    (hcheck : (taken s).access r = .error (some p, st)) :
    exec .dictionaryRead s = .next ((taken s).refuse r (some p) st) :=
  congrArg Host.Outcome.next (serve_err State.serveRead hhead hcheck)

theorem dictionaryWrite_serves (s : State) :
    exec .dictionaryWrite s = .next (s.serve .write (fun s r p k => s.finishWrite r p k (s.writeParam r p k))) :=
  rfl

/-- Settles O39: the mailbox's write by BUSY, and the answers of reads and writes by the checks and the new value. -/
theorem dictionaryService : Obligations.DictionaryService := by
  unfold Obligations.DictionaryService
  intro s
  refine ⟨fun hup => ?mailbox, fun r p n h => ?read, fun r p st hhead hcheck => ?refused,
    fun r p n h => ⟨fun u hu => ?written, fun hnone => ?range⟩⟩
  case mailbox =>
    obtain ⟨hgoerr, hposts, hhdr⟩ := mailbox_facts s
    exact ⟨fun hbusy => ⟨_, exec_mbGo_loc hup .go, hgoerr hbusy⟩, fun hidle => ⟨_, exec_mbGo_loc hup .go, hposts hidle⟩,
      fun o b hbusy => ⟨_, exec_mbGo_loc hup (.hdr o b), hhdr o b hbusy⟩⟩
  case read =>
    intro v
    refine ⟨_, exec_dictionaryRead h, answers_self _ _ _ _ _ _, fun hloc => ?_⟩
    have hanswer : ((taken s).serveRead r p n).dict.loc = _ := answer_loc (taken s) hloc _ _ _ _
    exact ⟨congrArg Mailbox.busy hanswer, congrArg Mailbox.done hanswer, fun i b hb => FreezeLaws.ans_loc _ _ _ _ _ _ hloc i b hb⟩
  case refused => exact ⟨_, exec_dictionaryRead_refused hhead hcheck, answers_refuse _ _ _ _⟩
  case written =>
    have hanswers : Answers u r dsOk (u.done r p n) := answers_done u r p n
    refine ⟨_, exec_written (dictionaryWrite_serves s) h hu, hanswers, fun hone hindex hnow => ?_⟩
    rw [answers_raw hanswers, writeParam_single hu hone]
    exact setParam_raw _ _ _ _ _ hindex hnow
  case range => exact ⟨_, exec_outOfRange (dictionaryWrite_serves s) h hnone, answers_refuse _ _ _ _⟩

/-! ### Chamois and the management network (R579 to R585) -/

theorem exec_chamoisDatagram {s : State} (hup : s.hostUp = true) (g : Datagram) :
    exec (.chamoisDatagram g) s = .next (s.chamoisFrame g) :=
  congrArg Host.Outcome.next (onlyIf_true _ _ _ hup)

theorem exec_solicit {s : State} (hup : s.hostUp = true) (g : Datagram) : exec (.solicit g) s = .next (s.solicit g) :=
  congrArg Host.Outcome.next (onlyIf_true _ _ _ hup)

theorem exec_announceDelayExpiry {s : State} (hup : s.hostUp = true) (hdad : s.dict.dadState = 1) :
    exec .announceDelayExpiry s = .next s.announceNext :=
  congrArg Host.Outcome.next (onlyIf_true _ _ _ (by unfold State.mgmtUp; rw [hup, hdad]; rfl))

theorem exec_dadComplete {s : State} (hup : s.hostUp = true) (hdad : s.dict.dadState = 0) (duplicate : Bool) :
    exec (.dadComplete duplicate) s = .next (s.dadComplete duplicate) :=
  congrArg Host.Outcome.next (onlyIf_true _ _ _ (by rw [hup, hdad]; rfl))

theorem exec_neighborSolicitation {s : State} (hup : s.hostUp = true) (g : Datagram) (target : BitVec 128) :
    exec (.neighborSolicitation g target) s = .next (s.neighbor g target) :=
  congrArg Host.Outcome.next (onlyIf_true _ _ _ hup)

theorem exec_echoRequest {s : State} (hup : s.hostUp = true) (g : Datagram) : exec (.echoRequest g) s = .next (s.echo g) :=
  congrArg Host.Outcome.next (onlyIf_true _ _ _ hup)

/-- The request that a Chamois datagram carries. -/
def chamoisReq (g : Datagram) : DictReq := ⟨.chamois g.addr g.port, g.bytes.take 32, g.bytes.drop 32⟩

/-- The answer that the cache holds for a datagram (R582). -/
def cachedAnswer (d : Dict) (g : Datagram) : Option (BitVec 128 × BitVec 16 × BitVec 32 × List Byte) :=
  d.cache.find? (fun c => decide (c.1 = g.addr ∧ c.2.1 = g.port ∧ c.2.2.1.toNat = (chamoisReq g).f 4 4))

theorem takeDatagram_eq (d : Dict) (g : Datagram) : d.takeDatagram g =
    if chamoisAnswer (chamoisReq g) g.bytes.length = true then d
    else if (!chamoisOk (chamoisReq g) g.bytes.length) = true then d.badDatagram
    else match cachedAnswer d g with
      | some c => d.send ⟨g.addr, g.port, c.2.2.2⟩
      | none =>
        if 32 ≤ d.queue.countP (fun q => q.path.isChamois) then d.badDatagram
        else { d with queue := d.queue ++ [chamoisReq g] } := by
  unfold Dict.takeDatagram cachedAnswer chamoisReq
  rfl

/-- A datagram while the address is in use is taken, and fires CHAMOIS. -/
theorem chamoisFrame_eq {s : State} (hdad : s.dict.dadState = 1) (g : Datagram) :
    s.chamoisFrame g = { s with dict := s.dict.framesIn.takeDatagram g, evc := s.evc.fire 11 } := by
  unfold State.chamoisFrame State.modDict
  simp only [if_pos hdad]
  rfl

/-- What becomes of a Chamois datagram (R581, R582). -/
theorem takeDatagram_facts (d : Dict) (g : Datagram) :
    (chamoisAnswer (chamoisReq g) g.bytes.length = true → d.takeDatagram g = d) ∧
    (chamoisAnswer (chamoisReq g) g.bytes.length = false → chamoisOk (chamoisReq g) g.bytes.length = false →
      d.takeDatagram g = d.badDatagram) ∧
    (∀ c, chamoisAnswer (chamoisReq g) g.bytes.length = false → chamoisOk (chamoisReq g) g.bytes.length = true →
      cachedAnswer d g = some c → d.takeDatagram g = d.send ⟨g.addr, g.port, c.2.2.2⟩) ∧
    (chamoisAnswer (chamoisReq g) g.bytes.length = false → chamoisOk (chamoisReq g) g.bytes.length = true →
      cachedAnswer d g = none → d.queue.countP (fun q => q.path.isChamois) < 32 →
      d.takeDatagram g = { d with queue := d.queue ++ [chamoisReq g] }) := by
  rw [takeDatagram_eq]
  refine ⟨fun ha => if_pos ha, fun ha hbad => ?_, fun c ha hok hc => ?_, fun ha hok hc hroom => ?_⟩
  · rw [if_neg (ne_true_of_eq_false ha), if_pos (by rw [hbad]; rfl)]
  · rw [if_neg (ne_true_of_eq_false ha), if_neg (by rw [hok]; decide), hc]
  · rw [if_neg (ne_true_of_eq_false ha), if_neg (by rw [hok]; decide), hc]
    exact if_neg (not_le.mpr hroom)

/-- A SOLICIT that keeps its rules waits for its delay (R584). -/
theorem solicit_waits {s : State} {g : Datagram} (hdad : s.dict.dadState = 1)
    (hok : solicitOk ⟨.chamois g.addr g.port, g.bytes, []⟩ g.bytes.length = true) (hmode : s.chamoisMode ≠ 0) :
    s.solicit g = { s with
      dict := { s.dict with framesRx := s.dict.framesRx + 1, announces := s.dict.announces ++ [g] }, evc := s.evc.fire 11 } := by
  have hstays : ¬ s.dict.framesIn.dadState ≠ 1 := not_not.mpr hdad
  unfold State.solicit State.modDict
  simp only [if_neg hstays, hok, Bool.not_true, Bool.false_eq_true, if_false, if_neg hmode]
  rfl

/-- The oldest ANNOUNCE that waits goes out (R584). -/
theorem announceNext_cons {s : State} {g : Datagram} {l : List Datagram} (h : s.dict.announces = g :: l) :
    s.announceNext = { s with dict := { s.dict with
      announces := l, framesTx := s.dict.framesTx + 1, mgmtTx := s.dict.mgmtTx ++ [⟨g.addr, g.port, s.announceBytes g.bytes⟩] } } := by
  unfold State.announceNext
  rw [h]
  rfl

/-- The Advertisement that answers a neighbour solicitation (R579, log 32). -/
def advertisement (g : Datagram) : Datagram :=
  ⟨g.addr, 0, [136, 0, 0, 0, 0x60, 0, 0, 0] ++ linkLocal ++ [2, 1] ++ (bytesLE 6 mgmtMac).reverse⟩

/-- A neighbour solicitation for the device's address is answered with an Advertisement (R579). -/
theorem neighbor_answers {s : State} {g : Datagram} {target : BitVec 128} (hmine : target.toNat = ofBytesLE linkLocal.reverse)
    (hdad : s.dict.dadState = 1) : s.neighbor g target = { s with dict := { s.dict with
      framesRx := s.dict.framesRx + 1, framesTx := s.dict.framesTx + 1, mgmtTx := s.dict.mgmtTx ++ [advertisement g] } } := by
  have hcond : target.toNat = ofBytesLE linkLocal.reverse ∧ s.dict.framesIn.dadState = 1 := ⟨hmine, hdad⟩
  unfold State.neighbor State.modDict
  simp only [if_pos hcond]
  rfl

/-- An echo request is answered with its own data (R579). -/
theorem echo_answers {s : State} {g : Datagram} (hdad : s.dict.dadState = 1) : s.echo g = { s with dict := { s.dict with
    framesRx := s.dict.framesRx + 1, framesTx := s.dict.framesTx + 1,
    mgmtTx := s.dict.mgmtTx ++ [⟨g.addr, 0, [129, 0, 0, 0] ++ g.bytes.drop 4⟩] } } := by
  have hcond : s.dict.framesIn.dadState = 1 := hdad
  unfold State.echo State.modDict
  simp only [if_pos hcond]
  rfl

/-- Settles O41: each message of the management network by what the dictionary's network part makes of it. -/
theorem managementNetwork : Obligations.ManagementNetwork := by
  unfold Obligations.ManagementNetwork
  intro s hup
  refine ⟨?chamois, ?solicit, ?announce, ?dad, ?neighbor, ?echo⟩
  case chamois =>
    intro g r d hdad
    obtain ⟨hanswer, hbad, hagain, hqueued⟩ := takeDatagram_facts s.dict.framesIn g
    refine ⟨_, exec_chamoisDatagram hup g, ?_⟩
    rw [chamoisFrame_eq hdad]
    exact ⟨rfl, hanswer, hbad, hagain, hqueued⟩
  case solicit => exact fun g hdad hok hmode => ⟨_, exec_solicit hup g, solicit_waits hdad hok hmode⟩
  case announce => exact fun g l hdad hwaits => ⟨_, exec_announceDelayExpiry hup hdad, announceNext_cons hwaits⟩
  case dad => exact fun hdad => ⟨⟨_, exec_dadComplete hup hdad true, rfl⟩, ⟨_, exec_dadComplete hup hdad false, rfl⟩⟩
  case neighbor => exact fun g target hmine hdad =>
    ⟨_, advertisement g, exec_neighborSolicitation hup g target, rfl, rfl, neighbor_answers hmine hdad⟩
  case echo => exact fun g hdad => ⟨_, exec_echoRequest hup g, echo_answers hdad⟩

end Sys2Proof.Proofs

/-! PROOFS. Commit groups: staged values, commits, and the commits that act. -/

namespace Sys2Proof.Proofs

open Sys2Proof Sys2Proof.Machine Sys2Proof.Claims Sys2Proof.Laws

/-! ### Staged values (R563) -/

/-- `s` with the value of a request in the stage buffers of the units `us`. -/
def stagedAt (s : State) (r : DictReq) (sub : Nat) (us : List Nat) : State :=
  us.foldl (fun t u => t.stageAt r.index sub u r.value) s

theorem exec_rwcStageWrite {s : State} {r : DictReq} {p : Param} {n : Nat} (h : Asks s .stage r p n) :
    exec .rwcStageWrite s = .next ((stagedAt (taken s) r p.sub (p.targets n)).done r p n) :=
  exec_served (f := State.serveStage) rfl h

theorem stage_of_answers {u t : State} {r : DictReq} {st : Nat} (h : Answers u r st t) (k i : Nat) :
    t.dict.stage k i = u.dict.stage k i := by
  obtain ⟨-, -, -, -, -, -, -, hstages, -⟩ := ans_rest h
  exact ServiceLaws.stage_of hstages k i

/-- A buffer that is filled with the acting values holds the staged one in its place. -/
theorem staged_mem {p : Param} {index : Nat} {v : List Byte} {m : List (Nat × List Byte)} (hp : p ∈ rwcOf index)
    (hsubs : m.map (·.1) = (rwcOf index).map (·.sub)) (hval : ∀ x ∈ m, x.1 = p.sub → x.2 = v) : (p.sub, v) ∈ m := by
  have hsub : p.sub ∈ m.map (·.1) := hsubs ▸ List.mem_map_of_mem hp
  obtain ⟨x, hx, hxsub⟩ := List.mem_map.mp hsub
  have hxv : x = (p.sub, v) := Prod.ext hxsub (hval x hx hxsub)
  exact hxv ▸ hx

/-- The buffer of a unit that a staged value reaches. -/
theorem stagedAt_buffer {s : State} {r : DictReq} {p : Param} {n k : Nat} (hp : p ∈ rwcOf r.index) (hk : k ∈ p.targets n) :
    ∃ l, (stagedAt s r p.sub (p.targets n)).dict.stage k r.index = some l ∧
      (∀ old, s.dict.stage k r.index = some old → l = old.map (fun x => if x.1 = p.sub then (p.sub, r.value) else x)) ∧
      (s.dict.stage k r.index = none → (p.sub, r.value) ∈ l ∧ (∀ x ∈ l, x.1 = p.sub → x.2 = r.value) ∧
        (p.targets n = [n] → l = (rwcOf r.index).map (fun q =>
          if q.sub = p.sub then (p.sub, r.value) else (q.sub, q.val s n)))) := by
  obtain ⟨l, hl, hold, hnew⟩ := ServiceLaws.stageAts_in (p.targets n) r.index p.sub r.value k s hk
  refine ⟨l, hl, hold, fun hnone => ?_⟩
  obtain ⟨hsubs, hval, hone⟩ := hnew hnone
  refine ⟨staged_mem hp hsubs hval, hval, fun htargets => ?_⟩
  have hkn : k = n := List.mem_singleton.mp (htargets ▸ hk)
  subst hkn
  exact hone htargets

/-! ### Commits (R564, R565, R567, R568) -/

/-- The buffers of a group that hold staged values. -/
def stagedVals (d : Dict) (index n : Nat) : List (Nat × List (Nat × List Byte)) :=
  (groupUnits index n).filterMap (fun u => (d.stage u index).map (fun v => (u, v)))

/-- `s` with the stage buffers of a group empty. -/
def unstaged (s : State) (index n : Nat) : State :=
  s.modDict (fun d => (groupUnits index n).foldl (fun d u => d.dropStage u index) d)

/-- `s` with one more commit pending. -/
def pended (s : State) (x : PendCommit) : State := s.modDict (fun d => { d with commits := d.commits ++ [x] })

theorem unstaged_only (s : State) (index n : Nat) :
    unstaged s index n = { s with dict := { s.dict with stages := (unstaged s index n).dict.stages } } :=
  congrArg (fun d => { s with dict := d }) (ServiceLaws.drops_only (groupUnits index n) index s.dict)

theorem unstaged_stage (s : State) {index n k : Nat} (hk : k ∈ groupUnits index n) : (unstaged s index n).dict.stage k index = none :=
  ServiceLaws.stage_dropped _ _ _ _ hk

theorem unstaged_stage_other (s : State) {index n k i : Nat} (h : i ≠ index ∨ k ∉ groupUnits index n) :
    (unstaged s index n).dict.stage k i = s.dict.stage k i :=
  ServiceLaws.drops_other _ _ _ _ h _

theorem unstaged_rest (s : State) (index n : Nat) :
    (unstaged s index n).dict.params = s.dict.params ∧ (unstaged s index n).dict.commits = s.dict.commits := by
  obtain ⟨hparams, hcommits, -⟩ := ServiceLaws.drop_rest (groupUnits index n) index s.dict
  exact ⟨hparams, hcommits⟩

/-- A commit before `x` reaches one of its buffers. -/
def Behind (s : State) (index n : Nat) : Prop := ∃ c ∈ s.dict.commits, c.meets index (groupUnits index n) = true

theorem behind_iff (s : State) (index n : Nat) :
    s.dict.commits.any (·.meets index (groupUnits index n)) = true ↔ Behind s index n :=
  List.any_eq_true

/-- What a COMMIT does, by its value, the buffers, the commits before it and its check. -/
theorem serveCommit_cases (s : State) (r : DictReq) (p : Param) (n : Nat) :
    let x : PendCommit := ⟨n, r.index, stagedVals s.dict r.index n, r⟩
    (r.num ≠ 1 → s.serveCommit r p n = s.refuse r (some p) dsRange) ∧
    (r.num = 1 → x.vals = [] → s.serveCommit r p n = s.done r p n) ∧
    (r.num = 1 → x.vals ≠ [] → s.commitBad x = none ∨ Behind s r.index n →
      s.serveCommit r p n = pended (unstaged s r.index n) x) ∧
    (∀ b, r.num = 1 → x.vals ≠ [] → s.commitBad x = some b → ¬ Behind s r.index n →
      s.serveCommit r p n = (unstaged s r.index n).answer r dsRejected p.typ b []) := by
  intro x
  have heq : s.serveCommit r p n = if r.num ≠ 1 then s.refuse r (some p) dsRange
      else if x.vals = [] then s.done r p n
      else if s.dict.commits.any (·.meets r.index (groupUnits r.index n)) = true then pended (unstaged s r.index n) x
      else match s.commitBad x with
      | some b => (unstaged s r.index n).answer r dsRejected p.typ b []
      | none => pended (unstaged s r.index n) x := rfl
  rw [heq]
  refine ⟨fun h => if_pos h, fun h hv => ?_, fun h hv hwaits => ?_, fun b h hv hbad hfirst => ?_⟩
  · rw [if_neg (not_not.mpr h), if_pos hv]
  · rw [if_neg (not_not.mpr h), if_neg hv]
    by_cases hbehind : Behind s r.index n
    · exact if_pos ((behind_iff s r.index n).mpr hbehind)
    · rw [if_neg (mt (behind_iff s r.index n).mp hbehind), hwaits.resolve_right hbehind]
  · rw [if_neg (not_not.mpr h), if_neg hv, if_neg (mt (behind_iff s r.index n).mp hfirst), hbad]

/-- The subindex that a rejected commit names is the lowest that fails (R565). -/
theorem commitBad_lowest {s : State} {x : PendCommit} {b : Nat} (h : s.commitBad x = some b) :
    (∃ e ∈ x.vals, ∃ y ∈ e.2, y.1 = b ∧ s.rwcOk x.index e.1 e.2 y.1 y.2 = false) ∧
      ∀ e ∈ x.vals, ∀ y ∈ e.2, s.rwcOk x.index e.1 e.2 y.1 y.2 = false → b ≤ y.1 := by
  obtain ⟨hmem, hleast⟩ := List.min?_eq_some_iff.mp h
  refine ⟨?_, fun e he y hy hbad => hleast _ ?_⟩
  · simpa using hmem
  · simp only [List.mem_flatMap, List.mem_map, List.mem_filter]
    exact ⟨e, he, y, ⟨hy, by rw [hbad]; rfl⟩, rfl⟩

theorem exec_commitGroup {s : State} {r : DictReq} {p : Param} {n : Nat} (h : Asks s .commit r p n) :
    exec .commitGroup s = .next ((taken s).serveCommit r p n) :=
  exec_served (f := State.serveCommit) rfl h

theorem exec_commitDiscard {s : State} {r : DictReq} {p : Param} {n : Nat} (h : Asks s .discard r p n) :
    exec .commitDiscard s = .next ((unstaged (taken s) r.index n).done r p n) :=
  exec_served (f := State.serveDiscard) rfl h

/-! ### Commits that act (R55, R566) -/

/-- `s` with the pending commit `x` gone. -/
def unpended (s : State) (x : PendCommit) : State := s.modDict (fun d => { d with commits := d.commits.erase x })

/-- What the first pending commit of a group does, by its check and whether its unit is at rest. -/
theorem exec_commitApply {s : State} {u : UnitAddr} {index : BitVec 16} {x : PendCommit} {before : List PendCommit}
    (hup : s.hostUp = true) (hcan : UA.canonical u = true) (hlocal : s.local? u = true)
    (hfirst : s.dict.firstCommit (UA.key u) index.toNat = some (x, before))
    (hfree : ∀ c ∈ before, c.meets index.toNat (groupUnits index.toNat x.unit) = false) :
    exec (.commitApply u index) s = .next (match s.commitBad x with
      | some b => (unpended s x).answer x.req dsRejected (commitP .own).typ b []
      | none => if (atQuiescence index.toNat && !(s.unitUp u && s.quiescent (UA.cells u))) = true then s
        else ((unpended s x).applyCommit x).answer x.req dsOk (commitP .own).typ 1 []) := by
  refine congrArg Host.Outcome.next ((onlyIf_true _ _ _ (by rw [hup, hcan, hlocal]; rfl)).trans ?_)
  have hnone : ¬ before.any (·.meets index.toNat (groupUnits index.toNat x.unit)) = true := by
    rw [Bool.not_eq_true, List.any_eq_false]
    exact fun c hc => ne_true_of_eq_false (hfree c hc)
  unfold State.commitApply
  simp only [hfirst, if_neg hnone]
  rfl

theorem applyCommit_of_ne {s : State} {x : PendCommit} (h : x.index ≠ 0x6800) : s.applyCommit x = s.setCommit x :=
  if_neg h

/-- The groups that parameters of the dictionary alone hold: the staged values act (R566). -/
theorem applied_params {s : State} {x : PendCommit} (hi : x.index ∈ [0x2000, 0x2400, 0x3800, 0x4000, 0x5810]) :
    (s.applyCommit x).cells = s.cells ∧ (s.applyCommit x).mem = s.mem ∧
      ∀ k l, x.vals = [(k, l)] → ∀ q ∈ rwcOf x.index, ∀ y, l.find? (fun y => decide (y.1 = q.sub)) = some y →
        (s.applyCommit x).dict.raw ⟨k, x.index, q.sub⟩ = some y.2 := by
  have hroles : x.index ≠ 0x6800 := by rintro h; rw [h] at hi; exact absurd hi (by decide)
  have hgroups : x.index ∈ [0x2000, 0x2400, 0x3800, 0x4000, 0x5810, 0x6800] := by
    simp only [List.mem_cons, List.not_mem_nil, or_false] at hi ⊢; omega
  have hplain : x.index ∉ [0x4800, 0x6000, 0x5820, 0xC100, 0x8000, 0xA000] := by
    simp only [List.mem_cons, List.not_mem_nil, or_false, not_or] at hi ⊢; omega
  rw [applyCommit_of_ne hroles]
  obtain ⟨d, hd⟩ := ServiceLaws.commit_any s x hgroups
  refine ⟨by rw [hd], by rw [hd], fun k l hvals q hq y hy => ?_⟩
  obtain ⟨hnodup, hnow⟩ := ServiceLaws.rwc_facts x.index hgroups
  obtain ⟨-, hraw, -⟩ := ServiceLaws.commit_params x.index k l hplain (rwcOf x.index) s hnodup hnow
  have hset := hraw q hq y hy
  unfold State.setCommit
  rw [hvals]
  exact hset

/-- The groups that the cells hold: each cell takes its value, and the others stay (R566). -/
theorem applied_cells {s : State} {x : PendCommit} {sub : Nat} {set : Nat → Cell → Cell} (hg : (x.index, sub, set) ∈ cellGroups)
    (hnodup : (x.vals.map (fun e => cellOfKey e.1)).Nodup) :
    (∀ e ∈ x.vals, ∀ y, e.2.find? (fun y => decide (y.1 = sub)) = some y →
      (s.applyCommit x).cell (cellOfKey e.1) = set (ofBytesLE y.2) (s.cell (cellOfKey e.1))) ∧
    ∀ c : CellIx, c ∉ x.vals.map (fun e => cellOfKey e.1) → (s.applyCommit x).cell c = s.cell c := by
  have hroles : x.index ≠ 0x6800 := by
    intro h
    simp [cellGroups, h] at hg
  rw [applyCommit_of_ne hroles, ServiceLaws.commit_cells s x sub set hg]
  exact ServiceLaws.modCells_set set sub x.vals s hnodup

/-- A role commit is a role change: the unit and those below it take the role and a new epoch (R54, R55). -/
theorem applied_role {s : State} {x : PendCommit} {k : Nat} {l : List (Nat × List Byte)} {y : Nat × List Byte}
    (hi : x.index = 0x6800) (hvals : x.vals = [(k, l)]) (hy : l.find? (fun y => decide (y.1 = 0x03)) = some y) :
    let w := UA.mk s.net.devId x.unit
    (∀ j ∈ UA.key w :: UA.below w, ((s.applyCommit x).unit j).role = BitVec.ofNat 8 (ofBytesLE y.2) ∧
      ((s.applyCommit x).unit j).epoch = (s.unit j).epoch + 1) ∧
    ∀ j, j ∉ UA.key w :: UA.below w → (s.applyCommit x).unit j = s.unit j := by
  intro w
  have hrole : (x.vals.flatMap (·.2)).find? (fun y => decide (y.1 = 0x03)) = some y := by
    rw [hvals]
    simpa using hy
  obtain ⟨q, hq, hunits⟩ := ServiceLaws.commit_role s x y hi hrole
  obtain ⟨d, hd⟩ := ServiceLaws.commit_any s x (by rw [hi]; decide)
  obtain ⟨-, hin, hout⟩ := setRole_fold _ (key_cons_below_nodup w) (BitVec.ofNat 8 (ofBytesLE y.2)) (s.setCommit x)
  have hset (j : Nat) : (s.setCommit x).unit j = s.unit j := unit_of_units (by rw [hd]) j
  have hunit (j : Nat) : (s.applyCommit x).unit j = ((s.setCommit x).setRole w (BitVec.ofNat 8 (ofBytesLE y.2))).unit j :=
    (unit_of_units hunits j).trans (by rw [hq])
  refine ⟨fun j hj => ?_, fun j hj => ?_⟩
  · rw [hunit, ← hset]
    exact hin j hj
  · rw [hunit, ← hset]
    exact hout j hj

/-! ### Commit groups together -/

/-- A staged value: the buffers of the units that it reaches, and no others (R563). -/
theorem stage_settles {s : State} {r : DictReq} {p : Param} {n : Nat} (h : Asks s .stage r p n) :
    let asked (x : Nat × List Byte) := if x.1 = p.sub then (p.sub, r.value) else x
    ∃ t u, exec .rwcStageWrite s = .next t ∧ Answers u r dsOk t ∧
      u = { taken s with dict := { s.dict with queue := s.dict.queue.drop 1, stages := u.dict.stages } } ∧
      (∀ k ∈ p.targets n, ∃ l, t.dict.stage k r.index = some l ∧
        (∀ old, s.dict.stage k r.index = some old → l = old.map asked) ∧
        (s.dict.stage k r.index = none → (p.sub, r.value) ∈ l ∧ (∀ x ∈ l, x.1 = p.sub → x.2 = r.value) ∧
          (p.targets n = [n] → l = (rwcOf r.index).map (fun q => asked (q.sub, q.val (taken s) n))))) ∧
      ∀ k i, (i ≠ r.index ∨ k ∉ p.targets n) → t.dict.stage k i = s.dict.stage k i := by
  intro asked
  obtain ⟨hp, -⟩ := ServiceLaws.staged_param h
  have hanswers := answers_done (stagedAt (taken s) r p.sub (p.targets n)) r p n
  refine ⟨_, _, exec_rwcStageWrite h, hanswers, ServiceLaws.stageAts_only (p.targets n) r.index p.sub r.value (taken s),
    fun k hk => ?_, fun k i hother => ?_⟩
  · obtain ⟨l, hl, hold, hnew⟩ := stagedAt_buffer (s := taken s) hp hk
    exact ⟨l, (stage_of_answers hanswers k r.index).trans hl, hold, hnew⟩
  · exact (stage_of_answers hanswers k i).trans (ServiceLaws.stageAts_other _ _ _ _ _ _ hother (taken s))

/-- A COMMIT of 1 with staged values freezes the buffers, or is rejected (R564, R565, R567). -/
theorem commit_settles {s : State} {r : DictReq} {p : Param} {n : Nat} (h : Asks s .commit r p n) (hone : r.num = 1)
    (hvals : stagedVals s.dict r.index n ≠ []) :
    let x : PendCommit := ⟨n, r.index, stagedVals s.dict r.index n, r⟩
    ∃ t, exec .commitGroup s = .next t ∧ t.dict.params = s.dict.params ∧ t.cells = s.cells ∧
      (∀ u ∈ groupUnits r.index n, t.dict.stage u r.index = none) ∧
      (s.commitBad x = none ∨ Behind s r.index n → t.dict.commits = s.dict.commits ++ [x] ∧ t = { taken s with dict := t.dict }) ∧
      (∀ b, s.commitBad x = some b → ¬ Behind s r.index n → t.dict.commits = s.dict.commits ∧
        (∃ u ty, Answers u r dsRejected t ∧
          u = { taken s with dict := { s.dict with queue := s.dict.queue.drop 1, stages := u.dict.stages } } ∧
          t = u.answer r dsRejected ty b []) ∧
        (∃ e ∈ x.vals, ∃ y ∈ e.2, y.1 = b ∧ s.rwcOk r.index e.1 e.2 y.1 y.2 = false) ∧
        ∀ e ∈ x.vals, ∀ y ∈ e.2, s.rwcOk r.index e.1 e.2 y.1 y.2 = false → b ≤ y.1) := by
  intro x
  obtain ⟨-, -, hpends, hrejects⟩ := serveCommit_cases (taken s) r p n
  obtain ⟨hparams, hcommits⟩ := unstaged_rest (taken s) r.index n
  by_cases hwaits : s.commitBad x = none ∨ Behind s r.index n
  · have hexec : exec .commitGroup s = .next (pended (unstaged (taken s) r.index n) x) :=
      (exec_commitGroup h).trans (congrArg Host.Outcome.next (hpends hone hvals hwaits))
    exact ⟨_, hexec, hparams, rfl, fun u hu => unstaged_stage (taken s) hu, fun _ => ⟨congrArg (· ++ [x]) hcommits, rfl⟩,
      fun b hbad hfirst => nomatch (hwaits.resolve_right hfirst).symm.trans hbad⟩
  · obtain ⟨hbad, hfirst⟩ := not_or.mp hwaits
    obtain ⟨b, hb⟩ := Option.ne_none_iff_exists'.mp hbad
    have hexec : exec .commitGroup s = .next ((unstaged (taken s) r.index n).answer r dsRejected p.typ b []) :=
      (exec_commitGroup h).trans (congrArg Host.Outcome.next (hrejects b hone hvals hb hfirst))
    have hanswers : Answers _ r dsRejected _ := answers_self (unstaged (taken s) r.index n) r dsRejected p.typ b []
    obtain ⟨hcells, -, -, -, -, hparams', hcommits', -⟩ := ans_rest hanswers
    refine ⟨_, hexec, hparams'.trans hparams, hcells,
      fun u hu => (stage_of_answers hanswers _ _).trans (unstaged_stage (taken s) hu), fun h => absurd h hwaits, fun b' hb' _ => ?_⟩
    cases hb.symm.trans hb'
    obtain ⟨hfails, hleast⟩ := commitBad_lowest hb
    exact ⟨hcommits'.trans hcommits, ⟨_, _, hanswers, unstaged_only (taken s) r.index n, rfl⟩, hfails, hleast⟩

/-- Settles O40: staged values, commits, discards, and the commits that act, group by group. -/
theorem commitGroups : Obligations.CommitGroups := by
  unfold Obligations.CommitGroups
  intro s stagesOnly
  refine ⟨fun r p n h => stage_settles h, fun r p n h => ?commit, fun r p n h => ?discard,
    fun u index x before hup hcan hlocal hfirst hfree => ?apply⟩
  case commit =>
    obtain ⟨hrange, hempty, -⟩ := serveCommit_cases (taken s) r p n
    refine ⟨fun hnum => ?_, fun hone hvals => ?_, fun hone hvals => commit_settles h hone hvals⟩
    · exact ⟨_, (exec_commitGroup h).trans (congrArg Host.Outcome.next (hrange hnum)), answers_refuse _ _ _ _⟩
    · exact ⟨_, (exec_commitGroup h).trans (congrArg Host.Outcome.next (hempty hone hvals)), answers_done _ _ _ _⟩
  case discard =>
    have hanswers := answers_done (unstaged (taken s) r.index n) r p n
    exact ⟨_, _, exec_commitDiscard h, hanswers, unstaged_only (taken s) r.index n,
      fun k hk => (stage_of_answers hanswers _ _).trans (unstaged_stage (taken s) hk),
      fun k i hother => (stage_of_answers hanswers _ _).trans (unstaged_stage_other (taken s) hother)⟩
  case apply =>
    intro t0 atRest
    have hexec := exec_commitApply hup hcan hlocal hfirst hfree
    refine ⟨fun b hbad => ?_, fun hok hquiet hbusy => ?_, fun hok hrest => ?_⟩
    · rw [hbad] at hexec
      exact ⟨_, hexec, answers_self _ _ _ _ _ _⟩
    · have hwaits : (atQuiescence index.toNat && !(s.unitUp u && s.quiescent (UA.cells u))) = true := by
        rw [hquiet, Bool.true_and, Bool.not_eq_true', Bool.eq_false_iff, ne_eq, Bool.and_eq_true]
        exact hbusy
      rw [hok] at hexec
      exact hexec.trans (congrArg Host.Outcome.next (if_pos hwaits))
    · have hacts : ¬ (atQuiescence index.toNat && !(s.unitUp u && s.quiescent (UA.cells u))) = true := by
        rw [Bool.and_eq_true, Bool.not_eq_true', Bool.eq_false_iff]
        exact fun ⟨hquiet, hbusy⟩ => hbusy (Bool.and_eq_true_iff.mpr (hrest hquiet))
      rw [hok] at hexec
      have hanswers : Answers ((unpended s x).applyCommit x) x.req dsOk _ := answers_self _ _ _ (commitP .own).typ 1 []
      obtain ⟨hcells, hmem, -⟩ := ans_rest hanswers
      refine ⟨_, hexec.trans (congrArg Host.Outcome.next (if_neg hacts)), hanswers, fun hi => ?_, fun sub set hg hnodup => ?_,
        fun hi k l y hvals hy => ?_⟩
      · obtain ⟨hc, hm, hraw⟩ := applied_params (s := unpended s x) hi
        exact ⟨hcells.trans hc, hmem.trans hm, fun k l hvals q hq y hy => (answers_raw hanswers _).trans (hraw k l hvals q hq y hy)⟩
      · obtain ⟨hin, hout⟩ := applied_cells (s := unpended s x) hg hnodup
        exact ⟨fun e he y hy => (cell_of_cells hcells _).trans (hin e he y hy),
          fun c hc => (cell_of_cells hcells c).trans (hout c hc)⟩
      · obtain ⟨hin, hout⟩ := applied_role (s := unpended s x) hi hvals hy
        have hunits := unit_of_units (congrArg State.units hanswers.2)
        exact ⟨fun j hj => by rw [hunits]; exact hin j hj, fun j hj => (hunits j).trans (hout j hj)⟩

end Sys2Proof.Proofs

/-! PROOFS. The persistent store, the parameters whose write is an action, and the security engine. -/

namespace Sys2Proof.Proofs

open Sys2Proof Sys2Proof.Machine Sys2Proof.Claims Sys2Proof.Laws

/-! ### Saves of the store (R590, R591, R593) -/

theorem saveStore_serves (s : State) : exec .saveStore s = .next (s.serve .save (fun s r p k =>
    s.finishWrite r p k (if r.num = 1 then some s.startSave else none))) :=
  rfl

theorem restoreStore_serves (s : State) : exec .restoreStore s = .next (s.serve .restore (fun s r p k =>
    s.finishWrite r p k (if r.num = 1 then
      some (s.modDict (fun d => { d with image := d.image.filter (fun x => keptRange x.1.index) })).startSave else none))) :=
  rfl

theorem exec_saveDelayExpiry {s : State} (hup : s.hostUp = true) (hdue : s.saveDue = true) :
    exec .saveDelayExpiry s = .next s.startSave :=
  congrArg Host.Outcome.next (onlyIf_true _ _ _ (by rw [hup, hdue]; rfl))

theorem exec_storeSaveComplete {s : State} (hup : s.hostUp = true) (ok : Bool) :
    exec (.storeSaveComplete ok) s = .next (s.saveComplete ok) :=
  congrArg Host.Outcome.next (onlyIf_true _ _ _ hup)

/-- A save that starts writes the copy that is not acting, from the image of now (R590). -/
theorem startSave_starts {s : State} (h : s.dict.saving = none) :
    s.startSave.dict.saving = some s.storeCopy ∧ s.startSave.dict.dirty = false ∧ s.startSave = { s with dict := s.startSave.dict } := by
  have hidle : ¬ s.dict.saving.isSome = true := by rw [h]; exact Bool.false_ne_true
  have heq : s.startSave = _ := if_neg hidle
  rw [heq]
  by_cases hacting : s.dict.acting = 0
  · exact ⟨congrArg Dict.saving (if_pos hacting), congrArg Dict.dirty (if_pos hacting), rfl⟩
  · exact ⟨congrArg Dict.saving (if_neg hacting), congrArg Dict.dirty (if_neg hacting), rfl⟩

theorem saving_of_saveDue {s : State} (h : s.saveDue = true) : s.dict.saving = none := by
  unfold State.saveDue at h
  rw [Bool.and_eq_true, Bool.and_eq_true] at h
  obtain ⟨⟨-, hidle⟩, -⟩ := h
  exact Option.isNone_iff_eq_none.mp hidle

/-- Where no other save is asked for, the end of a save starts none. -/
theorem no_save_now {u : State} (h : u.dict.saveNow = false) :
    (if (u.dict.saving.isNone && u.dict.saveNow) = true then u.startSave else u) = u := by
  rw [h, Bool.and_false, if_neg Bool.false_ne_true]

theorem saved_saveNow (d : Dict) (c : StoreCopy) : (d.saved c).saveNow = d.saveNow := by
  unfold Dict.saved
  simp only []
  split <;> rfl

/-- The end of a save, where no other is asked for: the copy acts, or the save is tried again, or it has failed (R590). -/
theorem saveComplete_eq {s : State} {c : StoreCopy} (hc : s.dict.saving = some c) (hnow : s.dict.saveNow = false) :
    s.saveComplete true = s.modDict (·.saved c) ∧
    (s.dict.saveRetry = true → s.saveComplete false = s.modDict (fun d => { d with
      saving := none, saveRetry := false, storeFails := d.storeFails + 1, dirty := true })) ∧
    (s.dict.saveRetry = false → s.saveComplete false = s.modDict (fun d => { d with saveRetry := true })) := by
  unfold State.saveComplete
  rw [hc]
  refine ⟨no_save_now ((saved_saveNow s.dict c).trans hnow), fun hretry => ?_, fun hretry => ?_⟩
  · simp only [hretry, Bool.false_eq_true, if_false, if_true]
    exact no_save_now hnow
  · simp only [hretry, Bool.false_eq_true, if_false]
    exact no_save_now hnow

/-- The copy that was written and checked acts, and the other stays (R590). -/
theorem saved_facts (d : Dict) (c : StoreCopy) :
    (d.saved c).saving = none ∧ (d.saved c).saves = d.saves + 1 ∧
      (d.acting = 0 → (d.saved c).storeB = some c ∧ (d.saved c).acting = 1 ∧ (d.saved c).storeA = d.storeA) ∧
      (d.acting ≠ 0 → (d.saved c).storeA = some c ∧ (d.saved c).acting = 0 ∧ (d.saved c).storeB = d.storeB) := by
  unfold Dict.saved
  simp only []
  by_cases h : d.acting = 0
  · rw [if_pos h]
    exact ⟨rfl, rfl, fun _ => ⟨rfl, rfl, rfl⟩, fun hne => absurd h hne⟩
  · rw [if_neg h]
    exact ⟨rfl, rfl, fun heq => absurd heq h, fun _ => ⟨rfl, rfl, rfl⟩⟩

/-! ### Writes that act as they are written -/

theorem retrain_serves (s : State) :
    exec .retrain s = .next (s.serve .retrain (fun s r p k => s.finishWrite r p k (s.retrain r.num))) :=
  rfl

theorem routesWrite_serves (s : State) :
    exec .routesWrite s = .next (s.serve .routes (fun s r p k => s.finishWrite r p k (s.writeRoutes r))) :=
  rfl

theorem appGrantWrite_serves (s : State) :
    exec .appGrantWrite s = .next (s.serve .grant (fun s r p k => s.finishWrite r p k (s.writeGrant r))) :=
  rfl

theorem linkModeWrite_serves (s : State) :
    exec .linkModeWrite s = .next (s.serve .linkMode (fun s r p k => s.finishWrite r p k (s.writeLinkMode r p k))) :=
  rfl

theorem exec_lostRelease {s : State} {r : DictReq} {p : Param} {n : Nat} (h : Asks s .release r p n) :
    exec .lostRelease s = .next ((if r.num ∈ s.mem.lost then (taken s).releaseLost r.num else taken s).done r p n) :=
  exec_served (f := fun s r p k => (if r.num ∈ s.mem.lost then s.releaseLost r.num else s).done r p k) rfl h

theorem exec_holdPurge {s : State} {r : DictReq} {p : Param} {n : Nat} (h : Asks s .purge r p n) :
    exec .holdPurge s = .next (((taken s).holdPurge r.num).done r p n) :=
  exec_served (f := fun s r p k => (s.holdPurge r.num).done r p k) rfl h

theorem exec_devIdApply {s : State} (hup : s.fabricUp = true) (hnum : s.net.numbered = false)
    (hvalid : keptV 0x3000 0x02 0 s 0 = 1) (hrest : s.quiescent (List.range 512) = true) :
    exec .devIdApply s = .next (s.takeDevId (BitVec.ofNat 16 (keptV 0x3000 0x01 0 s 0))) :=
  congrArg Host.Outcome.next (onlyIf_true _ _ _ (by rw [hup, hnum, hvalid, hrest]; rfl))

/-- RETRAIN of a link that is there: it runs on its full lanes, an UP link pauses, and more lanes fire CAPACITY (R534, R625). -/
theorem retrain_exists {s : State} {l : Nat} (hl : s.net.exists? l = true) :
    ∃ u, s.retrain l = some u ∧ (u.net.link l).lanes = s.net.fullLanes l ∧
      (u.net.link l).retraining = decide ((s.net.link l).st = .up) ∧ (u.net.link l).st = (s.net.link l).st ∧ u.cells = s.cells ∧
      ((s.net.link l).lanes = s.net.fullLanes l → u.evc = s.evc) ∧
      ((s.net.link l).lanes ≠ s.net.fullLanes l → u.evc = s.evc.fireStatus srcCapacity) := by
  have hset := ServiceLaws.links_self s.net l
    { s.net.link l with lanes := s.net.fullLanes l, retraining := decide ((s.net.link l).st = .up) }
  have hfacts {u : State} (hu : u.net.link l = { s.net.link l with
      lanes := s.net.fullLanes l, retraining := decide ((s.net.link l).st = .up) }) :
      (u.net.link l).lanes = s.net.fullLanes l ∧ (u.net.link l).retraining = decide ((s.net.link l).st = .up) ∧
        (u.net.link l).st = (s.net.link l).st := by
    rw [hu]
    exact ⟨rfl, rfl, rfl⟩
  unfold State.retrain
  rw [hl]
  by_cases hfull : (s.net.link l).lanes = s.net.fullLanes l
  · obtain ⟨hlanes, hretraining, hst⟩ := hfacts (u := { s with net := s.net.setLink l _ }) hset
    exact ⟨_, congrArg some (if_pos hfull), hlanes, hretraining, hst, rfl, fun _ => rfl, fun hne => absurd hfull hne⟩
  · obtain ⟨hlanes, hretraining, hst⟩ := hfacts (u := State.fireStatus { s with net := s.net.setLink l _ } srcCapacity) hset
    exact ⟨_, congrArg some (if_neg hfull), hlanes, hretraining, hst, rfl, fun heq => absurd heq hfull, fun _ => rfl⟩

theorem writeRoutes_cells {s u : State} {r : DictReq} (h : s.writeRoutes r = some u) : u.cells = s.cells := by
  unfold State.writeRoutes at h
  simp only [] at h
  split at h
  · cases h; rfl
  · cases h

/-- A write of APP_BASE moves the grant (R725). -/
theorem writeGrant_base {s : State} {r : DictReq} (h : r.sub = 0x06) :
    s.writeGrant r = (s.mem.moveGrant r.num s.mem.appUnits).map (fun m => { s with mem := m }) := by
  unfold State.writeGrant
  rw [if_pos h]

theorem answers_evc {u t : State} {r : DictReq} {st : Nat} (h : Answers u r st t) : t.evc = u.evc :=
  by rw [h.2]

/-- The three kinds of saves (R590, R591). -/
theorem saves_settle (s : State) :
    (∀ r p n, Asks s .save r p n → r.num = 1 → ∃ t, exec .saveStore s = .next t ∧ Answers (taken s).startSave r dsOk t ∧
      t.dict.saving.isSome = true) ∧
    (s.hostUp = true → s.saveDue = true → ∃ t, exec .saveDelayExpiry s = .next t ∧ t.dict.saving = some s.storeCopy ∧
      t.dict.dirty = false ∧ t = { s with dict := t.dict }) ∧
    (∀ r p n, Asks s .restore r p n → r.num = 1 → ∃ t, exec .restoreStore s = .next t ∧ t.dict.params = s.dict.params ∧
      t.dict.image = s.dict.image.filter (fun x => keptRange x.1.index) ∧ t.dict.saving.isSome = true ∧ t.cells = s.cells) := by
  refine ⟨fun r p n h hone => ?_, fun hup hdue => ⟨_, exec_saveDelayExpiry hup hdue, startSave_starts (saving_of_saveDue hdue)⟩,
    fun r p n h hone => ?_⟩
  · have hanswers := answers_done (taken s).startSave r p n
    obtain ⟨-, -, -, -, -, -, -, -, -, hsaving⟩ := ans_rest hanswers
    obtain ⟨-, -, -, hstarted⟩ := ServiceLaws.startSave_rest (taken s)
    exact ⟨_, exec_written (saveStore_serves s) h (if_pos hone), hanswers, hsaving ▸ hstarted⟩
  · let w : State := (taken s).modDict (fun d => { d with image := d.image.filter (fun x => keptRange x.1.index) })
    obtain ⟨hcells, -, -, -, -, hparams, -, -, himage, hsaving⟩ := ans_rest (answers_done w.startSave r p n)
    obtain ⟨hwcells, hwparams, hwimage, hstarted⟩ := ServiceLaws.startSave_rest w
    exact ⟨_, exec_written (restoreStore_serves s) h (if_pos hone), hparams.trans hwparams, himage.trans hwimage, hsaving ▸ hstarted,
      hcells.trans hwcells⟩

/-- The end of a save (R590). -/
theorem saveComplete_settles {s : State} {c : StoreCopy} (hup : s.hostUp = true) (hc : s.dict.saving = some c)
    (hnow : s.dict.saveNow = false) :
    (∃ t, exec (.storeSaveComplete true) s = .next t ∧ t = { s with dict := t.dict } ∧ t.dict.saving = none ∧
      t.dict.saves = s.dict.saves + 1 ∧ (s.dict.acting = 0 → t.dict.storeB = some c ∧ t.dict.acting = 1 ∧ t.dict.storeA = s.dict.storeA) ∧
      (s.dict.acting ≠ 0 → t.dict.storeA = some c ∧ t.dict.acting = 0 ∧ t.dict.storeB = s.dict.storeB)) ∧
    (s.dict.saveRetry = true → ∃ t, exec (.storeSaveComplete false) s = .next t ∧
      t = { s with dict := { s.dict with saving := none, saveRetry := false, storeFails := s.dict.storeFails + 1, dirty := true } }) ∧
    (s.dict.saveRetry = false → ∃ t, exec (.storeSaveComplete false) s = .next t ∧
      t = { s with dict := { s.dict with saveRetry := true } }) := by
  obtain ⟨hsaved, hfails, hagain⟩ := saveComplete_eq hc hnow
  refine ⟨?_, fun hretry => ⟨_, exec_storeSaveComplete hup false, hfails hretry⟩,
    fun hretry => ⟨_, exec_storeSaveComplete hup false, hagain hretry⟩⟩
  refine ⟨_, exec_storeSaveComplete hup true, ?_⟩
  rw [hsaved]
  exact ⟨rfl, saved_facts s.dict c⟩

/-- Settles O42: saves, and each parameter whose write is an action, by what the action makes of the state. -/
theorem storeAndOwnWrites : Obligations.StoreAndOwnWrites := by
  unfold Obligations.StoreAndOwnWrites
  intro s
  obtain ⟨hsave, hdelay, hrestore⟩ := saves_settle s
  refine ⟨hsave, hdelay, fun c hup hc hnow => saveComplete_settles hup hc hnow, hrestore, ?retrain, ?routes, ?grant, ?release,
    ?devId, ?linkMode, ?purge⟩
  case retrain =>
    intro r p n h hl
    obtain ⟨u, hu, hlanes, hretraining, hst, hcells, hsame, hmore⟩ := retrain_exists (s := taken s) hl
    have hanswers := answers_done u r p n
    obtain ⟨hc, -, hnet, -⟩ := ans_rest hanswers
    have hevc := answers_evc hanswers
    refine ⟨_, exec_written (retrain_serves s) h hu, ?_⟩
    rw [hnet, hevc, hc]
    exact ⟨hlanes, hretraining, hst, hcells, hsame, hmore⟩
  case routes =>
    refine fun r p n h => ⟨fun u hu => ?_, fun hnone => ⟨_, exec_outOfRange (routesWrite_serves s) h hnone, answers_refuse _ _ _ _⟩⟩
    have hanswers := answers_done u r p n
    obtain ⟨hc, -⟩ := ans_rest hanswers
    exact ⟨_, exec_written (routesWrite_serves s) h hu, hanswers, hc.trans (writeRoutes_cells (s := taken s) hu)⟩
  case grant =>
    intro r p n h hsub
    have hwrite := writeGrant_base (s := taken s) hsub
    refine ⟨fun m hm => ?_, fun hnone => ?_⟩
    · have hanswers := answers_done { taken s with mem := m } r p n
      obtain ⟨-, hmem, -⟩ := ans_rest hanswers
      refine ⟨_, exec_written (appGrantWrite_serves s) h (hwrite.trans (congrArg (Option.map _) hm)), hanswers, ?_⟩
      rw [hmem]
      exact ServiceLaws.moveGrant_app s.mem _ _ _ hm
    · exact ⟨_, exec_outOfRange (appGrantWrite_serves s) h (hwrite.trans (congrArg (Option.map _) hnone)), answers_refuse _ _ _ _⟩
  case release =>
    intro r p n h
    have hexec := exec_lostRelease h
    refine ⟨_, hexec, fun hout => ?_, fun hin => ?_⟩
    · rw [if_neg hout]
      exact answers_done _ _ _ _
    · rw [if_pos hin]
      obtain ⟨-, hmem, -⟩ := ans_rest (answers_done ((taken s).releaseLost r.num) r p n)
      rw [hmem]
      exact ServiceLaws.rel_mem (taken s) r.num hin
  case devId => exact fun hup hnum hvalid hrest => ⟨_, exec_devIdApply hup hnum hvalid hrest, rfl, rfl, rfl, rfl⟩
  case linkMode =>
    exact fun r p n h => ⟨fun u hu => ⟨_, exec_written (linkModeWrite_serves s) h hu, answers_done _ _ _ _⟩,
      fun hnone => ⟨_, exec_outOfRange (linkModeWrite_serves s) h hnone, answers_refuse _ _ _ _⟩⟩
  case purge =>
    intro r p n h
    obtain ⟨hcells, -, hnet, -⟩ := ans_rest (answers_done ((taken s).holdPurge r.num) r p n)
    refine ⟨_, exec_holdPurge h, ?_⟩
    rw [hnet, hcells]
    exact ⟨rfl, rfl, rfl⟩

end Sys2Proof.Proofs

/-! PROOFS. The security engine: keys, firmware slots, measurements, quotes and the debug unlock. -/

namespace Sys2Proof.Proofs

open Sys2Proof Sys2Proof.Machine Sys2Proof.Claims Sys2Proof.Laws

/-! ### Keys and firmware images (R660, R677, R678) -/

theorem keyRevoke_serves (s : State) : exec .keyRevoke s = .next (s.serve .revoke (fun s r p k =>
    s.finishWrite r p k ((s.sec.revoke r.num).map (fun x => { s with sec := x })))) :=
  rfl

theorem fwStage_serves (s : State) : exec .fwStage s = .next (s.serve .fwStage (fun s r p k =>
    s.finishWrite r p k ((s.sec.stagePiece r.offset r.value).map (fun x => { s with sec := x })))) :=
  rfl

theorem fwCommit_serves (s : State) : exec .fwCommit s = .next (s.serve .fwCommit (fun s r p k =>
    s.finishWrite r p k (if r.num = 1 ∧ s.sec.fwState ≠ 2 then some (s.modSec (·.commit)) else none))) :=
  rfl

theorem fwDiscard_serves (s : State) : exec .fwDiscard s = .next (s.serve .fwDiscard (fun s r p k =>
    s.finishWrite r p k
      (if s.sec.fwState ≠ 2 then some (s.modSec (fun x => { x with fwStage := [], fwState := 0 })) else none))) :=
  rfl

/-- A key that is revoked has its bit set, and every other key stays. -/
theorem revoke_keys {x y : Sec} {k : Nat} (h : x.revoke k = some y) :
    (y.key k).getLsbD 3 = true ∧ ∀ j, j ≠ k → y.key j = x.key j := by
  obtain ⟨hother, hself⟩ := ServiceLaws.key_set x k (x.key k ||| 0b1000)
  unfold Sec.revoke at h
  simp only [] at h
  split at h
  · cases h
    exact ⟨(congrArg (·.getLsbD 3) hself).trans (ServiceLaws.bitOr _), hother⟩
  · cases h

theorem stagePiece_eq (x : Sec) (o : Nat) (v : List Byte) :
    (x.fwState ≠ 2 → x.stagePiece o v = some { x with fwStage := Memory.writeBytes x.fwStage o v, fwState := 1 }) ∧
    (x.fwState = 2 → x.stagePiece o v = none) :=
  ⟨fun h => if_neg h, fun h => if_pos h⟩

/-- A commit: a bootable image is on its way to the slot that is not kept; another is refused (R677). -/
theorem commit_facts (x : Sec) :
    let i := x.stagedSlot (x.keeps.2.elim 0 (·.seq) + 1)
    x.commit.fwStage = [] ∧
      (x.bootable i = true → x.commit.fwState = 2 ∧ x.commit.fwNext = some i ∧
        (x.keeps.1 = 0 → x.commit.slotA = x.slotA) ∧ (x.keeps.1 ≠ 0 → x.commit.slotB = x.slotB)) ∧
      (x.bootable i = false → x.commit.fwState = 4 ∧ x.commit.slotA = x.slotA ∧ x.commit.slotB = x.slotB) := by
  intro i
  have heq : x.commit = if x.bootable i = true then
      (if x.keeps.1 = 0 then { x with fwState := 2, fwNext := some i, fwStage := [], slotB := none }
        else { x with fwState := 2, fwNext := some i, fwStage := [], slotA := none })
      else { x with fwState := 4, fwStage := [] } := rfl
  rw [heq]
  by_cases hboot : x.bootable i = true
  · rw [if_pos hboot]
    by_cases hkeeps : x.keeps.1 = 0
    · rw [if_pos hkeeps]
      exact ⟨rfl, fun _ => ⟨rfl, rfl, fun _ => rfl, fun hne => absurd hkeeps hne⟩, fun hbad => absurd (hboot.symm.trans hbad) nofun⟩
    · rw [if_neg hkeeps]
      exact ⟨rfl, fun _ => ⟨rfl, rfl, fun heq => absurd heq hkeeps, fun _ => rfl⟩, fun hbad => absurd (hboot.symm.trans hbad) nofun⟩
  · rw [if_neg hboot]
    exact ⟨rfl, fun h => absurd h hboot, fun _ => ⟨rfl, rfl, rfl⟩⟩

/-- The end of the write of a slot, in normal operation: the slot holds the image, or nothing whole (R677). -/
theorem exec_fwSlotWriteComplete {s : State} {i : SlotImage} (hon : s.pwr.on = true) (hready : s.pwr.boot = .ready)
    (hfrozen : s.dbg.fullFrozen = false) (hnext : s.sec.fwNext = some i) (hwrites : s.sec.fwState = 2) (ok : Bool) :
    exec (.fwSlotWriteComplete ok) s = .next { s with sec := s.sec.slotWritten i ok } := by
  refine congrArg Host.Outcome.next ((onlyIf_true _ _ _ (by rw [hon, hready, hfrozen]; rfl)).trans ?_)
  have hnorestart : ¬ (ok && decide (s.pwr.boot = .recovery)) = true := by
    rw [hready, decide_eq_false (by decide), Bool.and_false]
    exact Bool.false_ne_true
  simp only [hnext, if_pos hwrites]
  exact if_neg hnorestart

/-! ### Measurements, quotes and the debug unlock (R666, R667, R672 to R674) -/

theorem mrExtend_serves (s : State) :
    exec .mrExtend s = .next (s.serve .extend (fun s r p k => s.whole r p k 33 (s.mrExtend r.value))) :=
  rfl

theorem quoteNonce_serves (s : State) : exec .quoteNonce s = .next (s.serve .nonce (fun s r p k =>
    s.whole r p k 32 (some (s.modSec (·.takeNonce r.value))))) :=
  rfl

theorem dbgResponse_serves (s : State) : exec .dbgResponse s = .next (s.serve .response (fun s r p k =>
    if r.offset = 0 ∧ r.length = 29792 then s.response r p k else s.refuse r (some p) dsType)) :=
  rfl

theorem exec_mrExtend {s : State} {r : DictReq} {p : Param} {n : Nat} (h : Asks s .extend r p n) (hoff : r.offset = 0)
    (hlen : r.length = 33) :
    exec .mrExtend s = .next ((taken s).finishWrite r p n ((taken s).mrExtend r.value)) := by
  rw [exec_served (mrExtend_serves s) h, ServiceLaws.whole_eq _ _ _ _ _ _ hoff hlen]

theorem exec_quoteNonce {s : State} {r : DictReq} {p : Param} {n : Nat} (h : Asks s .nonce r p n) (hoff : r.offset = 0)
    (hlen : r.length = 32) :
    exec .quoteNonce s = .next (State.done { taken s with sec := s.sec.takeNonce r.value } r p n) := by
  rw [exec_served (quoteNonce_serves s) h, ServiceLaws.whole_eq _ _ _ _ _ _ hoff hlen]
  rfl

theorem exec_dbgChallenge {s : State} {r : DictReq} {p : Param} {n : Nat} (h : Asks s .challenge r p n) :
    exec .dbgChallenge s = .next ((taken s).challenge r p) :=
  exec_served (f := fun s r p _ => s.challenge r p) rfl h

theorem exec_dbgResponse {s : State} {r : DictReq} {p : Param} {n : Nat} (h : Asks s .response r p n) (hoff : r.offset = 0)
    (hlen : r.length = 29792) : exec .dbgResponse s = .next ((taken s).response r p n) :=
  (exec_served (dbgResponse_serves s) h).trans (congrArg Host.Outcome.next (if_pos ⟨hoff, hlen⟩))

theorem exec_quoteSigned {s : State} (hup : s.hostUp = true) (hsigns : s.sec.quoteState = 1) :
    exec .quoteSigned s = .next s.quoteSigned :=
  congrArg Host.Outcome.next (onlyIf_true _ _ _ (by rw [hup, hsigns]; rfl))

theorem exec_akCertSigned {s : State} (hup : s.hostUp = true) (hnone : s.sec.akCert = false) :
    exec .akCertSigned s = .next { s with sec := { s.sec with
      akCert := true, quoteState := if s.sec.quoteState = 3 then 1 else s.sec.quoteState } } :=
  congrArg Host.Outcome.next (onlyIf_true _ _ _ (by rw [hup, hnone]; rfl))

theorem mrExtend_eq (s : State) (v : List Byte) :
    let i := ofBytesLE (v.take 1)
    (4 ≤ i ∧ i ≤ 6 → s.mrExtend v = some (s.modSec (·.extend i 4 (v.drop 1)))) ∧
      (¬ (4 ≤ i ∧ i ≤ 6) → s.mrExtend v = none) :=
  ⟨fun h => if_pos h, fun h => if_neg h⟩

/-- A nonce is held, signed, or waits for the certificate (R672, R673). -/
theorem takeNonce_facts (x : Sec) (v : List Byte) :
    (x.akCert = true → x.quoteState = 1 → x.takeNonce v = { x with held := some v }) ∧
    (x.akCert = true → x.quoteState ≠ 1 → x.takeNonce v = { x with nonce := v, quoteState := 1 }) ∧
    (x.akCert = false → x.takeNonce v = { x with nonce := v, quoteState := 3 }) := by
  unfold Sec.takeNonce
  refine ⟨fun hcert hone => ?_, fun hcert hne => ?_, fun hnone => ?_⟩
  · rw [hcert]
    exact if_pos hone
  · rw [hcert]
    exact if_neg hne
  · rw [hnone]
    rfl

/-- The quote is there; the nonce that was held is signed next (R673). -/
theorem quoteSigned_facts (s : State) :
    s.quoteSigned.sec.quote = s.quote ∧ s.quoteSigned.cells = s.cells ∧
      (s.sec.held = none → s.quoteSigned.sec.quoteState = 2) ∧
      ∀ v, s.sec.held = some v →
        s.quoteSigned.sec.quoteState = 1 ∧ s.quoteSigned.sec.nonce = v ∧ s.quoteSigned.sec.held = none := by
  have heq : s.quoteSigned.sec = match s.sec.held with
      | some v => { s.sec with quote := s.quote, nonce := v, held := none, quoteState := 1 }
      | none => { s.sec with quote := s.quote, quoteState := 2 } := rfl
  rw [heq]
  cases hheld : s.sec.held with
  | none => exact ⟨rfl, rfl, fun _ => rfl, nofun⟩
  | some v => exact ⟨rfl, rfl, nofun, fun w hw => ⟨rfl, Option.some.inj hw, rfl⟩⟩

theorem extend_challenge (x : Sec) (i ev : Nat) (d : List Byte) : (x.extend i ev d).challenge = x.challenge := by
  unfold Sec.extend
  simp only []
  split <;> rfl

/-- A response: the challenge is consumed, and a signature that verifies unlocks (R674). -/
theorem response_facts (s : State) (r : DictReq) (p : Param) (k : Nat) :
    (s.response r p k).sec.challenge = none ∧ (s.response r p k).cells = s.cells ∧
      (s.sec.unlocks r.value = true → (s.response r p k).dbg = { s.dbg with auth := true, authEver := true } ∧
        (s.response r p k).sec.mr 7 = shake256 (s.sec.mr 7 ++ digest (s.sec.challenge.getD [])) 64) ∧
      (s.sec.unlocks r.value = false → (s.response r p k).dbg = s.dbg ∧
        (s.response r p k).sec = { s.sec with challenge := none }) := by
  unfold State.response
  simp only []
  by_cases hunlocks : s.sec.unlocks r.value = true
  · rw [if_pos hunlocks]
    generalize hd : digest (s.sec.challenge.getD []) = d
    obtain ⟨hmr, -⟩ := ServiceLaws.extend_mr { s.sec with challenge := none } 7 5 d
    obtain ⟨hcells, -, -, hsec, hdbg, -⟩ := ans_rest (answers_done { (s.modSec (fun x => { x with challenge := none })).modSec
      (·.extend 7 5 d) with dbg := { s.dbg with auth := true, authEver := true } } r p k)
    rw [hcells, hsec, hdbg]
    exact ⟨extend_challenge _ 7 5 d, rfl, fun _ => ⟨rfl, hmr⟩, fun hno => absurd (hunlocks.symm.trans hno) nofun⟩
  · rw [if_neg hunlocks]
    obtain ⟨hcells, -, -, hsec, hdbg, -⟩ := ans_rest (answers_refuse (s.modSec (fun x => { x with challenge := none })) r p dsRange)
    rw [hcells, hsec, hdbg]
    exact ⟨rfl, rfl, fun h => absurd h hunlocks, fun _ => ⟨rfl, rfl⟩⟩

/-- Settles O43: each command of the security engine by what it makes of the keys, slots, registers and quotes. -/
theorem securityCommands : Obligations.SecurityCommands := by
  unfold Obligations.SecurityCommands
  intro s
  refine ⟨?revoke, ?stage, ?commit, ?discard, ?written, ?extend, ?nonce, ?signed, fun hup hnone => ⟨_, exec_akCertSigned hup hnone, rfl⟩,
    ?challenge, ?response⟩
  case revoke =>
    refine fun r p n h => ⟨fun x hx => ?_, fun hnone => ?_⟩
    · have hanswers := answers_done { taken s with sec := x } r p n
      obtain ⟨-, -, -, hsec, -⟩ := ans_rest hanswers
      refine ⟨_, exec_written (keyRevoke_serves s) h (congrArg (Option.map _) hx), hanswers, ?_⟩
      rw [hsec]
      exact revoke_keys hx
    · exact ⟨_, exec_outOfRange (keyRevoke_serves s) h (congrArg (Option.map _) hnone), answers_refuse _ _ _ _⟩
  case stage =>
    intro r p n h
    obtain ⟨hidle, hbusy⟩ := stagePiece_eq s.sec r.offset r.value
    exact ⟨fun hne => ⟨_, exec_written (fwStage_serves s) h (congrArg (Option.map _) (hidle hne)), answers_done _ _ _ _⟩,
      fun heq => ⟨_, exec_outOfRange (fwStage_serves s) h (congrArg (Option.map _) (hbusy heq)), answers_refuse _ _ _ _⟩⟩
  case commit =>
    intro r p n h hone hidle
    obtain ⟨hcells, -, -, hsec, -⟩ := ans_rest (answers_done ((taken s).modSec (·.commit)) r p n)
    obtain ⟨hempty, hboots, hfails⟩ := commit_facts s.sec
    refine ⟨_, exec_written (fwCommit_serves s) h (if_pos ⟨hone, hidle⟩), ?_⟩
    rw [hsec, hcells]
    exact ⟨hempty, rfl, hboots, hfails⟩
  case discard =>
    exact fun r p n h hidle => ⟨_, exec_written (fwDiscard_serves s) h (if_pos hidle), answers_done _ _ _ _⟩
  case written =>
    intro i hon hready hfrozen hnext hwrites
    obtain ⟨hstate, hslot, hkeepsA, hkeepsB⟩ := ServiceLaws.keepA s.sec i true
    obtain ⟨hfails, -⟩ := ServiceLaws.keepA s.sec i false
    exact ⟨⟨_, exec_fwSlotWriteComplete hon hready hfrozen hnext hwrites true, rfl, hstate, hslot, hkeepsA, hkeepsB⟩,
      ⟨_, exec_fwSlotWriteComplete hon hready hfrozen hnext hwrites false, rfl, hfails⟩⟩
  case extend =>
    intro r p n h hoff hlen i
    obtain ⟨hin, hout⟩ := mrExtend_eq (taken s) r.value
    have hexec := exec_mrExtend h hoff hlen
    refine ⟨fun hlow hhigh => ?_, fun hother => ?_⟩
    · rw [hin ⟨hlow, hhigh⟩, ServiceLaws.finish_some] at hexec
      obtain ⟨hcells, -, -, hsec, -⟩ := ans_rest (answers_done ((taken s).modSec (·.extend i 4 (r.value.drop 1))) r p n)
      obtain ⟨hmr, hothers⟩ := ServiceLaws.extend_mr s.sec i 4 (r.value.drop 1)
      obtain ⟨hroom, hfull⟩ := ServiceLaws.extend_log s.sec i 4 (r.value.drop 1)
      refine ⟨_, hexec, ?_⟩
      rw [hsec, hcells]
      exact ⟨hmr, hothers, rfl, hroom, hfull⟩
    · rw [hout (by omega), ServiceLaws.finish_none] at hexec
      exact ⟨_, hexec, answers_refuse _ _ _ _⟩
  case nonce =>
    intro r p n h hoff hlen
    have hanswers := answers_done { taken s with sec := s.sec.takeNonce r.value } r p n
    obtain ⟨-, -, -, hsec, -⟩ := ans_rest hanswers
    refine ⟨_, exec_quoteNonce h hoff hlen, ?_⟩
    rw [hsec]
    exact ⟨hanswers, takeNonce_facts s.sec r.value⟩
  case signed => exact fun hup hsigns => ⟨_, exec_quoteSigned hup hsigns, quoteSigned_facts s⟩
  case challenge =>
    intro r p n h
    obtain ⟨hcells, -, -, hsec, hdbg, -⟩ := ans_rest (answers_self
      ((taken s).useFree.modSec (fun x => { x with challenge := some ((List.range 32).map (fun i => Config.freeBytes s.free i)) })) r dsOk
      p.typ 32 ((((List.range 32).map (fun i => Config.freeBytes s.free i)).drop r.offset).take r.length))
    exact ⟨_, _, exec_dbgChallenge h, hsec, (List.length_map _).trans List.length_range, hdbg, hcells⟩
  case response =>
    exact fun r p n h hoff hlen => ⟨_, exec_dbgResponse h hoff hlen, response_facts (taken s) r p n⟩

end Sys2Proof.Proofs

/-! PROOFS. Snapshot waves, freezes, debug reads and the test access ports. -/

namespace Sys2Proof.Proofs

open Sys2Proof Sys2Proof.Machine Sys2Proof.Claims Sys2Proof.Laws

/-! ### Snapshot waves (R633 to R639) -/

theorem snapGoStart_serves (s : State) :
    exec .snapGoStart s = .next (s.serve .snapGo (fun s r p k => s.finishWrite r p k (s.snapGo r.num))) :=
  rfl

theorem exec_snapGoAbandon {s : State} {r : DictReq} {p : Param} {n : Nat} (h : Asks s .snapStop r p n) :
    exec .snapGoAbandon s = .next ((taken s).snapStop.done r p n) :=
  exec_served (f := fun s r p k => s.snapStop.done r p k) rfl h

/-- The root of the next wave: SNAP_ROOT, or the whole device. -/
def snapRootOf (s : State) : UnitAddr := s.dbg.snapRoot.getD s.devAddr

/-- `s` once it has started a wave at its root. -/
def waveStarted (s : State) : State :=
  { s with
    dbg := { s.dbg with snapNum := s.dbg.snapNum + 1, snapDone := false, snapAbandoned := false }
    net := { s.net with
      waves := s.net.waves ++ [(UA.key (snapRootOf s), .host, ⟨s.net.devId, s.dbg.snapNum + 1, s.dbg.snapLinks, snapRootOf s⟩)]
      ahead := s.net.inFlight.filter (fun m => s.local? m.src && decide (UA.depth m.src = 0)) } }

theorem snapGo_eq (s : State) (n : Nat) : s.snapGo n =
    if n ≠ 1 ∨ ¬ UA.canonical (snapRootOf s) ∨ ¬ s.local? (snapRootOf s) ∨ ¬ s.dbg.snapDone then none else some (waveStarted s) :=
  rfl

theorem snapStop_facts (s : State) :
    s.snapStop.cells = s.cells ∧ s.snapStop.units = s.units ∧
      (s.dbg.snapDone = false → s.snapStop.dbg = { s.dbg with snapDone := true, snapAbandoned := true }) ∧
      (s.dbg.snapDone = true → s.snapStop.dbg = s.dbg) := by
  unfold State.snapStop
  by_cases hdone : s.dbg.snapDone = true
  · rw [if_pos hdone]
    exact ⟨rfl, rfl, fun hno => absurd (hdone.symm.trans hno) nofun, fun _ => rfl⟩
  · rw [if_neg hdone]
    exact ⟨rfl, rfl, fun _ => rfl, fun h => absurd h hdone⟩

/-- `s` with a wave off its way to a node. -/
def waveTaken (s : State) (e : Nat × Chan × Wave) : State := { s with net := { s.net with waves := s.net.waves.erase e } }

theorem exec_waveArrival {s : State} {u : UnitAddr} {ch : Chan} {w : Wave} (hlocal : s.local? u = true) (hup : s.unitUp u = true)
    (hcomes : (UA.key u, ch, w) ∈ s.net.waves) :
    exec (.waveArrival u ch w) s = .next
      (if s.waveBehind (UA.key u) w = true then s else (waveTaken s (UA.key u, ch, w)).waveAt (UA.key u) ch w) := by
  refine congrArg Host.Outcome.next ?_
  have hcond : (s.local? u && s.unitUp u && decide ((UA.key u, ch, w) ∈ s.net.waves) && !s.waveBehind (UA.key u) w) =
      !s.waveBehind (UA.key u) w := by
    rw [hlocal, hup, decide_eq_true hcomes]
    rfl
  unfold onlyIf
  rw [hcond]
  by_cases hbehind : s.waveBehind (UA.key u) w = true
  · rw [if_pos hbehind, if_neg (by rw [hbehind]; exact Bool.false_ne_true)]
  · rw [if_neg hbehind, if_pos (by rw [Bool.not_eq_true _ |>.mp hbehind]; rfl)]
    rfl

/-- A node takes a wave off a channel and looks whether it is complete. -/
theorem waveEnds (s : State) (k : Nat) (ch : Chan) :
    let v := (s.modUnit k (fun v => { v with shadow := { v.shadow with pending := v.shadow.pending.erase ch } })).waveCheck k
    v.cells = s.cells ∧ v.mem = s.mem ∧
      ∃ st rp, (v.unit k).shadow =
        { (s.unit k).shadow with pending := (s.unit k).shadow.pending.erase ch, state := st, reported := rp } ∧
        (st = (s.unit k).shadow.state ∨ st = 2) := by
  intro v
  obtain ⟨hcells, hmem, st, rp, hshadow, hst⟩ := FreezeLaws.waveCheck_facts
    (s.modUnit k (fun v => { v with shadow := { v.shadow with pending := v.shadow.pending.erase ch } })) k
  rw [State.unit_modUnit] at hshadow hst
  exact ⟨hcells, hmem, st, rp, hshadow, hst⟩

theorem waveAt_out {s : State} {k : Nat} {w : Wave} (h : s.inScope k (s.waveRoot w) = false) (ch : Chan) : s.waveAt k ch w = s := by
  unfold State.waveAt
  simp only [h, Bool.not_false, if_true]

theorem waveAt_first {s : State} {k : Nat} {w : Wave} (hscope : s.inScope k (s.waveRoot w) = true)
    (hnew : (s.unit k).shadow.holds w = false) (ch : Chan) :
    s.waveAt k ch w = (((s.waveFirst k ch w (s.waveRoot w)).modUnit k
      (fun v => { v with shadow := { v.shadow with pending := v.shadow.pending.erase ch } })).waveCheck k) := by
  unfold State.waveAt
  simp only [hscope, hnew, Bool.not_true, Bool.false_eq_true, if_false]

theorem waveAt_later {s : State} {k : Nat} {w : Wave} (hscope : s.inScope k (s.waveRoot w) = true)
    (hold : (s.unit k).shadow.holds w = true) (ch : Chan) :
    s.waveAt k ch w = ((s.modUnit k
      (fun v => { v with shadow := { v.shadow with pending := v.shadow.pending.erase ch } })).waveCheck k) := by
  unfold State.waveAt
  simp only [hscope, hold, Bool.not_true, Bool.false_eq_true, if_false, if_true]

/-- The first arrival of a wave latches the node (R635). -/
theorem first_arrival {s : State} {k : Nat} {w : Wave} (hscope : s.inScope k (s.waveRoot w) = true)
    (hnew : (s.unit k).shadow.holds w = false) (ch : Chan) :
    let t := s.waveAt k ch w
    t.cells = s.cells ∧ t.mem = s.mem ∧ (t.unit k).shadow.origin = w.origin ∧ (t.unit k).shadow.num = w.num ∧
      (t.unit k).shadow.vals = s.latch k ∧ (t.unit k).shadow.time = s.nodeTime k ∧ (t.unit k).shadow.root = s.waveRoot w ∧
      (t.unit k).shadow.pending = (s.waveInputs k w (s.waveRoot w)).erase ch ∧
      ((t.unit k).shadow.state = 1 ∨ (t.unit k).shadow.state = 2) := by
  intro t
  obtain ⟨hcells, hmem, hlatched⟩ := FreezeLaws.waveFirst_facts s k ch w (s.waveRoot w)
  obtain ⟨hc, hm, st, rp, hshadow, hst⟩ := waveEnds (s.waveFirst k ch w (s.waveRoot w)) k ch
  rw [hlatched] at hshadow hst
  have ht : t = _ := waveAt_first hscope hnew ch
  rw [ht]
  refine ⟨hc.trans hcells, hm.trans hmem, ?_⟩
  rw [hshadow]
  exact ⟨rfl, rfl, rfl, rfl, rfl, rfl, hst⟩

/-- A later arrival only ends what its channel owes (R636). -/
theorem later_arrival {s : State} {k : Nat} {w : Wave} (hscope : s.inScope k (s.waveRoot w) = true)
    (hold : (s.unit k).shadow.holds w = true) (ch : Chan) :
    let t := s.waveAt k ch w
    t.cells = s.cells ∧ (t.unit k).shadow.vals = (s.unit k).shadow.vals ∧ (t.unit k).shadow.time = (s.unit k).shadow.time ∧
      (t.unit k).shadow.pending = (s.unit k).shadow.pending.erase ch := by
  intro t
  obtain ⟨hcells, -, st, rp, hshadow, -⟩ := waveEnds s k ch
  have ht : t = _ := waveAt_later hscope hold ch
  rw [ht]
  refine ⟨hcells, ?_⟩
  rw [hshadow]
  exact ⟨rfl, rfl, rfl⟩

/-! ### Reports of the members (R639) -/

theorem exec_snapshotReport {s : State} {m : Msg} (hok : s.requestOk m 0x09 = true) (hchild : UA.key m.src ∈ UA.children m.dest)
    (hlocal : s.local? m.src = true) : exec (.snapshotReport m) s = .next (((s.takeMsg m).received m).report m) :=
  congrArg Host.Outcome.next (onlyIf_true _ _ _ (by rw [hok, decide_eq_true hchild, hlocal]; rfl))

/-- The report is of the wave that the node has latched, and the first of its member. -/
def ReportCounts (s : State) (m : Msg) : Prop :=
  let h := (s.unit (UA.key m.dest)).shadow
  h.state = 1 ∧ h.origin.toNat = m.fld 0 15 0 ∧ h.num.toNat = m.fld 0 47 16 ∧ UA.key m.src ∉ h.kids

/-- A field of a message of at most `n` bits is its own number. -/
theorem eq_ofNat_iff_toNat {n : Nat} (x : BitVec n) {v : Nat} (hv : v < 2 ^ n) : x = BitVec.ofNat n v ↔ x.toNat = v := by
  rw [← BitVec.toNat_inj, BitVec.toNat_ofNat, Nat.mod_eq_of_lt hv]

theorem fld_lt (m : Msg) (i hi lo : Nat) : m.fld i hi lo < 2 ^ (hi + 1 - lo) := by
  unfold Msg.fld fld
  exact Nat.mod_lt _ (Nat.two_pow_pos _)

/-- What the report does where it counts, and where it is discarded. -/
theorem report_cases (s : State) (m : Msg) :
    let k := UA.key m.dest
    let h := (s.unit k).shadow
    (ReportCounts s m → (UA.key h.root ≠ k ∨ s.dbg.snapAbandoned = false) →
      s.report m = (s.modUnit k (fun v => { v with shadow :=
        { h with vals := foldVals h.vals (reportVals m), kids := h.kids ++ [UA.key m.src] } })).waveCheck k) ∧
    (¬ ReportCounts s m → s.report m = s) := by
  intro k h
  have horigin : h.origin = BitVec.ofNat 16 (m.fld 0 15 0) ↔ h.origin.toNat = m.fld 0 15 0 := eq_ofNat_iff_toNat _ (fld_lt m 0 15 0)
  have hnum : h.num = BitVec.ofNat 32 (m.fld 0 47 16) ↔ h.num.toNat = m.fld 0 47 16 := eq_ofNat_iff_toNat _ (fld_lt m 0 47 16)
  unfold State.report
  refine ⟨fun ⟨hstate, ho, hn, hkid⟩ hstays => if_neg ?_, fun hno => if_pos ?_⟩
  · rintro (hbad | hbad | hbad | hbad | hbad)
    · exact hbad hstate
    · exact hbad (horigin.mpr ho)
    · exact hbad (hnum.mpr hn)
    · simp only [Bool.and_eq_true, decide_eq_true_eq] at hbad
      obtain ⟨⟨hroot, habandoned⟩, -⟩ := hbad
      exact hstays.elim (fun hne => hne hroot.symm) (fun hna => absurd (habandoned.symm.trans hna) nofun)
    · exact hkid hbad
  · by_contra hgood
    simp only [not_or, not_not] at hgood
    obtain ⟨hstate, ho, hn, -, hkid⟩ := hgood
    exact hno ⟨hstate, horigin.mp ho, hnum.mp hn, hkid⟩

/-- What a node holds of a wave stays when a message leaves the network and is counted. -/
theorem received_shadow (s : State) (m : Msg) (k : Nat) : (((s.takeMsg m).received m).unit k).shadow = (s.unit k).shadow :=
  FreezeLaws.modUnit_shadow (s.takeMsg m) _ (fun u => { u with msgReceived := u.msgReceived + 1 }) (fun _ => rfl) k

/-- Settles O44: the writes of SNAP_GO, the arrivals of a wave at a node, and the reports of its members. -/
theorem snapshots : Obligations.Snapshots := by
  unfold Obligations.Snapshots
  intro s
  refine ⟨?go, ?stop, ?arrival, ?report⟩
  case go =>
    intro r p n h root
    refine ⟨fun hone hcan hlocal hdone => ?_, fun hno => ?_⟩
    · have hstarts : (taken s).snapGo r.num = some (waveStarted (taken s)) := by
        rw [snapGo_eq]
        exact if_neg (by rintro (hbad | hbad | hbad | hbad) <;> exact hbad (by assumption))
      have hanswers := answers_done (waveStarted (taken s)) r p n
      obtain ⟨hcells, -, hnet, -, hdbg, -⟩ := ans_rest hanswers
      refine ⟨_, exec_written (snapGoStart_serves s) h hstarts, hcells, by rw [hanswers.2]; rfl, hdbg, congrArg Net.waves hnet,
        fun m => ?_⟩
      rw [hnet]
      simp only [waveStarted, List.mem_filter, Bool.and_eq_true, decide_eq_true_eq]
      rfl
    · have hrange : (taken s).snapGo r.num = none := by
        rw [snapGo_eq]
        refine if_pos ?_
        by_contra hgood
        simp only [not_or, not_not] at hgood
        obtain ⟨-, hcan, hlocal, hdone⟩ := hgood
        rw [Bool.eq_false_iff] at hno
        exact hno (Bool.and_eq_true_iff.mpr ⟨Bool.and_eq_true_iff.mpr ⟨hcan, hlocal⟩, hdone⟩)
      exact ⟨_, exec_outOfRange (snapGoStart_serves s) h hrange, answers_refuse _ _ _ _⟩
  case stop =>
    intro r p n h
    have hanswers := answers_done (taken s).snapStop r p n
    obtain ⟨hcells, -, -, -, hdbg, -⟩ := ans_rest hanswers
    have hunits := congrArg State.units hanswers.2
    obtain ⟨hc, hu, hruns, hdone⟩ := snapStop_facts (taken s)
    exact ⟨_, exec_snapGoAbandon h, hcells.trans hc, hunits.trans hu, fun hno => hdbg.trans (hruns hno),
      fun hyes => hdbg.trans (hdone hyes)⟩
  case arrival =>
    intro u ch w hlocal hup hcomes k h s1
    have hexec := exec_waveArrival hlocal hup hcomes
    refine ⟨fun hbehind => ⟨_, hexec, if_pos hbehind⟩, fun hclear => ?_⟩
    rw [if_neg (ne_true_of_eq_false hclear)] at hexec
    refine ⟨fun hout => ⟨_, hexec, waveAt_out (s := s1) hout ch⟩, fun hscope hnew => ?_, fun hscope hstate ho hn => ?_⟩
    · obtain ⟨hcells, hmem, hrest⟩ := first_arrival (s := s1) hscope (decide_eq_false hnew) ch
      exact ⟨_, hexec, hcells, congrArg MemSys.mem hmem, hrest⟩
    · exact ⟨_, hexec, later_arrival (s := s1) hscope (decide_eq_true ⟨hstate, ho, hn⟩) ch⟩
  case report =>
    intro m hok hchild hlocal k h
    have hexec := exec_snapshotReport hok hchild hlocal
    have hshadow := received_shadow s m k
    obtain ⟨hcounts, hdiscards⟩ := report_cases ((s.takeMsg m).received m) m
    have hiff : ReportCounts ((s.takeMsg m).received m) m ↔ ReportCounts s m := by
      unfold ReportCounts
      rw [hshadow]
    refine ⟨fun hstate ho hn hkid hstays => ?_, fun hother => ?_⟩
    · have hreport := hcounts (hiff.mpr ⟨hstate, ho, hn, hkid⟩) (by rw [hshadow]; exact hstays)
      rw [hreport, hshadow] at hexec
      obtain ⟨hcells, -, st, rp, hfolded, -⟩ := FreezeLaws.waveCheck_facts (((s.takeMsg m).received m).modUnit k (fun v =>
        { v with shadow := { h with vals := foldVals h.vals (reportVals m), kids := h.kids ++ [UA.key m.src] } })) k
      rw [State.unit_modUnit] at hfolded
      refine ⟨_, hexec, hcells, ?_⟩
      rw [hfolded]
      exact ⟨rfl, rfl⟩
    · have hno : ¬ ReportCounts ((s.takeMsg m).received m) m := by
        rw [hiff]
        rintro ⟨hstate, ho, hn, hkid⟩
        exact hother.elim (fun hne => hne hstate) (·.elim (fun hne => hne ho) (·.elim (fun hne => hne hn) hkid))
      rw [hdiscards hno] at hexec
      exact ⟨_, hexec, rfl, hshadow⟩

/-! ### Freezes and debug reads (R643 to R647) -/

theorem fabricFreezeRequest_serves (s : State) :
    exec .fabricFreezeRequest s = .next (s.serve .freeze (fun s r p k => s.finishWrite r p k
      (if r.num = 1 then some { s with dbg := { s.dbg with fabricReq := true } } else none))) :=
  rfl

theorem exec_fabricFreezeEnd {s : State} {r : DictReq} {p : Param} {n : Nat} (h : Asks s .thaw r p n) :
    exec .fabricFreezeEnd s = .next ((taken s).endFabric.done r p n) :=
  exec_served (f := fun s r p k => s.endFabric.done r p k) rfl h

theorem exec_dbgDataRead {s : State} {r : DictReq} {p : Param} {n : Nat} (h : Asks s .dbgData r p n) :
    exec .dbgDataRead s = .next ((taken s).debugRead r p n) :=
  exec_served (f := State.debugRead) rfl h

theorem exec_freezeReached {s : State} (hup : s.up = true) : exec .freezeReached s = .next s.reachFreeze :=
  congrArg Host.Outcome.next (onlyIf_true _ _ _ hup)

/-- The freeze that is reached is the full one where it is asked for, else the fabric one (R646). -/
theorem reachFreeze_facts (s : State) :
    (s.dbg.fullReq = true → s.dbg.fullFrozen = false → s.lowLong = true → s.reachFreeze = { s with dbg := { s.dbg with
      fullFrozen := true, fullDebug := s.dbg.auth, freezeAt := s.timeHost, freezes := s.dbg.freezes + 1 } }) ∧
    (s.dbg.fullReq = false → s.dbg.fabricReq = true → s.dbg.fabricFrozen = false → s.reachFreeze = { s with dbg := { s.dbg with
      fabricFrozen := true, freezeAt := s.timeHost, freezes := s.dbg.freezes + 1 } }) := by
  unfold State.reachFreeze
  refine ⟨fun hfull hnot hlow => if_pos ⟨hfull, ne_true_of_eq_false hnot, hlow⟩, fun hnofull hfabric hnot => ?_⟩
  exact (if_neg (fun hyes => ne_true_of_eq_false hnofull hyes.1)).trans
    (if_pos ⟨hfabric, ne_true_of_eq_false hnot, ne_true_of_eq_false hnofull⟩)

/-- A debug read by its checks (R647). -/
theorem debugRead_cases (s : State) (r : DictReq) (p : Param) (k : Nat) :
    let u := s.dbg.unit
    let inside := UA.canonical u = true ∧ UA.depth u = 5 ∧ s.local? u = true
    ((s.dbg.fabricFrozen && s.dbg.auth) = false → s.debugRead r p k = s.refuse r (some p) dsDenied) ∧
    (s.dbg.fabricFrozen = true → s.dbg.auth = true →
      (¬ inside ∨ debugSize s.dbg.space.toNat < s.dbg.offset.toNat + 4096 → s.debugRead r p k = s.refuse r (some p) dsRange) ∧
      (inside → s.dbg.offset.toNat + 4096 ≤ debugSize s.dbg.space.toNat → s.debugRead r p k = s.answer r dsOk p.typ (s.total p k)
        (s.debugBytes (cellIx (UA.index u)) s.dbg.space.toNat (s.dbg.offset.toNat + r.offset) r.length))) := by
  intro u inside
  unfold State.debugRead
  simp only []
  refine ⟨fun hno => if_pos ?_, fun hfrozen hauth => ?_⟩
  · by_contra hyes
    simp only [not_or, not_not] at hyes
    obtain ⟨hfrozen, hauth⟩ := hyes
    rw [hfrozen, hauth] at hno
    cases hno
  · have hopen : ¬ (¬ s.dbg.fabricFrozen = true ∨ ¬ s.dbg.auth = true) :=
      not_or.mpr ⟨not_not.mpr hfrozen, not_not.mpr hauth⟩
    rw [if_neg hopen]
    exact ⟨fun hbad => if_pos hbad, fun hin hfits => if_neg (not_or.mpr ⟨not_not.mpr hin, not_lt.mpr hfits⟩)⟩

/-- Settles O45: both freezes by what asks for them, reaches them and ends them, and debug reads by their checks. -/
theorem freezes : Obligations.Freezes := by
  unfold Obligations.Freezes
  intro s
  refine ⟨?request, ?fabricEnd, fun hup => ?reached, ⟨_, rfl, rfl⟩, ?fullEnd, ?read⟩
  case request =>
    exact fun r p n h => ⟨fun hone => ⟨_, exec_written (fabricFreezeRequest_serves s) h (if_pos hone), answers_done _ _ _ _⟩,
      fun hne => ⟨_, exec_outOfRange (fabricFreezeRequest_serves s) h (if_neg hne), answers_refuse _ _ _ _⟩⟩
  case fabricEnd =>
    intro r p n h hfull hdoor hbar
    have hthaws : (taken s).endFabric = { taken s with dbg := { s.dbg with fabricReq := false, fabricFrozen := false } } :=
      FreezeLaws.fullOff _ hfull hdoor hbar
    have hexec := exec_fabricFreezeEnd h
    rw [hthaws] at hexec
    exact ⟨_, hexec, answers_done _ _ _ _⟩
  case reached =>
    obtain ⟨hfull, hfabric⟩ := reachFreeze_facts s
    exact ⟨fun hreq hnot hlow => ⟨_, exec_freezeReached hup, hfull hreq hnot hlow⟩,
      fun hnofull hreq hnot => ⟨_, exec_freezeReached hup, hfabric hnofull hreq hnot⟩⟩
  case fullEnd => exact fun hdoor hbar => ⟨_, rfl, FreezeLaws.fullOff _ rfl hdoor hbar⟩
  case read =>
    intro r p n h u
    have hexec := exec_dbgDataRead h
    obtain ⟨hdenied, hopen⟩ := debugRead_cases (taken s) r p n
    refine ⟨fun hno => ?_, fun hfrozen hauth => ?_⟩
    · rw [hdenied hno] at hexec
      exact ⟨_, hexec, answers_refuse _ _ _ _⟩
    · obtain ⟨hrange, hreads⟩ := hopen hfrozen hauth
      refine ⟨fun hbad => ?_, fun hcan hdepth hlocal hfits => ?_⟩
      · rw [hrange hbad] at hexec
        exact ⟨_, hexec, answers_refuse _ _ _ _⟩
      · rw [hreads ⟨hcan, hdepth, hlocal⟩ hfits] at hexec
        exact ⟨_, hexec, answers_self _ _ _ _ _ _, fun hloc i hi =>
          FreezeLaws.ans_loc _ _ _ _ _ _ hloc i _ (FreezeLaws.debugBytes_get _ _ _ _ _ i hi)⟩

/-! ### Test access ports (R650 to R654) -/

section
variable {s : State} (hon : s.pwr.on = true)
include hon

theorem exec_tapReset : exec .tapReset s = .next
    ((List.range 3).foldl (fun s i => s.modTap i (fun t => { t with instr := 0x01 })) s) :=
  congrArg Host.Outcome.next (onlyIf_true _ _ _ hon)

theorem exec_bypassTap (i : Fin 3) {opc : BitVec 8} (h : tapKnown i.val opc = false) :
    exec (.bypassTap i opc) s = .next (s.modTap i.val (fun t => { t with instr := opc, capture := 0 })) := by
  refine congrArg Host.Outcome.next ((onlyIf_true _ _ _ (by rw [hon, h]; rfl)).trans ?_)
  rw [FreezeLaws.selectTap_free s i.val opc (FreezeLaws.known_free _ _ h), FreezeLaws.modTap_modTap]

theorem exec_idcodeTap (i : Fin 3) :
    exec (.idcodeTap i) s = .next (s.modTap i.val (fun t => { t with instr := 0x01, capture := idcode i.val })) := by
  refine congrArg Host.Outcome.next ((onlyIf_true _ _ _ hon).trans ?_)
  rw [FreezeLaws.selectTap_free s i.val 0x01 rfl, FreezeLaws.modTap_modTap]

theorem exec_frzStatus (i : Fin 3) :
    exec (.frzStatus i) s = .next (s.modTap i.val (fun t => { t with instr := 0x10, capture := s.dbg.frzStatus })) := by
  refine congrArg Host.Outcome.next ((onlyIf_true _ _ _ hon).trans ?_)
  rw [FreezeLaws.selectTap_free s i.val 0x10 rfl, FreezeLaws.modTap_modTap]

theorem exec_samplePreload (i : Fin 3) (b : List Bool) :
    exec (.samplePreload i b) s = .next (s.modTap i.val (fun t => { t with instr := 0x02, boundary := b })) := by
  refine congrArg Host.Outcome.next ((onlyIf_true _ _ _ hon).trans ?_)
  rw [FreezeLaws.selectTap_free s i.val 0x02 rfl, FreezeLaws.modTap_modTap]

/-- The pins are held; CLAMP and HIGHZ select the bypass bit too. -/
theorem exec_holdsPins (i : Fin 3) {c : Instr} {opc : BitVec 8}
    (h : (c, opc) ∈ [(Instr.extest i, (0x00 : BitVec 8)), (.clampTap i, 0x04), (.highzTap i, 0x05), (.extestPulse i, 0x06),
      (.extestTrain i, 0x07)]) :
    holdsPins opc = true ∧
      ((opc ≠ 0x04 ∧ opc ≠ 0x05 ∧ exec c s = .next (s.selectTap i.val opc)) ∨
        exec c s = .next ((s.selectTap i.val opc).modTap i.val (fun t => { t with capture := 0 }))) := by
  have hruns (f : State → State) : (.next (onlyIf s.pwr.on s f) : Out) = .next (f s) :=
    congrArg Host.Outcome.next (onlyIf_true _ _ _ hon)
  simp only [List.mem_cons, List.not_mem_nil, or_false, Prod.mk.injEq] at h
  obtain ⟨rfl, rfl⟩ | ⟨rfl, rfl⟩ | ⟨rfl, rfl⟩ | ⟨rfl, rfl⟩ | ⟨rfl, rfl⟩ := h
  · exact ⟨rfl, .inl ⟨by decide, by decide, hruns _⟩⟩
  · exact ⟨rfl, .inr (hruns _)⟩
  · exact ⟨rfl, .inr (hruns _)⟩
  · exact ⟨rfl, .inl ⟨by decide, by decide, hruns _⟩⟩
  · exact ⟨rfl, .inl ⟨by decide, by decide, hruns _⟩⟩

theorem exec_dbgAccess (i : Fin 3) (hcompute : i.val ≠ 0) (dr : BitVec 168) :
    exec (.dbgAccess i dr) s = .next (s.dbgAccess i.val dr) :=
  congrArg Host.Outcome.next ((onlyIf_true _ _ _ hon).trans (if_neg hcompute))

end

/-- The access of a DBG_ACCESS register is allowed (R652). -/
def accessOk (s : State) (tap : Nat) (dr : BitVec 168) : Bool :=
  let u : UnitAddr := (dr >>> 64).setWidth 64
  s.dbg.fullFrozen && s.dbg.fullDebug && UA.canonical u && decide (UA.depth u = 5) && s.local? u &&
    decide (CellIx.die (cellIx (UA.index u)) = tap - 1) && decide (8 * fld dr 159 136 + 8 ≤ debugSize (fld dr 135 128))

/-- DBG_ACCESS: the register of before is captured, and where GO is 1 the access is done. -/
theorem dbgAccess_cases (s : State) (tap : Nat) (dr : BitVec 168) :
    let c := cellIx (UA.index ((dr >>> 64).setWidth 64 : UnitAddr))
    (dr.getLsbD 160 = false → s.dbgAccess tap dr = s.modTap tap (fun t => { t with instr := 0x11, capture := t.access })) ∧
    (dr.getLsbD 160 = true → accessOk s tap dr = false → s.dbgAccess tap dr = s.modTap tap (fun t =>
      { t with instr := 0x11, capture := t.access, dbgDone := true, dbgErr := true, dbgData := 0 })) ∧
    (dr.getLsbD 160 = true → accessOk s tap dr = true → s.dbgAccess tap dr = s.modTap tap (fun t =>
      { t with
        instr := 0x11, capture := t.access, dbgDone := true, dbgErr := false
        dbgData := BitVec.ofNat 64 (ofBytesLE (s.debugBytes c (fld dr 135 128) (8 * fld dr 159 136) 8)) })) := by
  intro c
  have hselect : (s.selectTap tap 0x11).modTap tap (fun t => { t with capture := t.access }) =
      s.modTap tap (fun t => { t with instr := 0x11, capture := t.access }) := by
    rw [FreezeLaws.selectTap_free s tap 0x11 rfl, FreezeLaws.modTap_modTap]
    rfl
  have hbytes (f : Tap → Tap) : (s.modTap tap f).debugBytes c (fld dr 135 128) (8 * fld dr 159 136) 8 =
      s.debugBytes c (fld dr 135 128) (8 * fld dr 159 136) 8 := rfl
  have heq : s.dbgAccess tap dr = if dr.getLsbD 160 = true then
      (s.modTap tap (fun t => { t with instr := 0x11, capture := t.access })).modTap tap (fun t =>
        { t with
          dbgDone := true, dbgErr := !accessOk s tap dr
          dbgData := if accessOk s tap dr = true then
            BitVec.ofNat 64 (ofBytesLE (s.debugBytes c (fld dr 135 128) (8 * fld dr 159 136) 8)) else 0 })
      else s.modTap tap (fun t => { t with instr := 0x11, capture := t.access }) := by
    unfold State.dbgAccess
    simp only [hselect]
    rfl
  rw [heq]
  refine ⟨fun hno => if_neg (ne_true_of_eq_false hno), fun hgo hbad => ?_, fun hgo hok => ?_⟩
  · rw [if_pos hgo, hbad, FreezeLaws.modTap_modTap]
    rfl
  · rw [if_pos hgo, hok, FreezeLaws.modTap_modTap]
    rfl

/-- TAP_RESET selects IDCODE in the three TAPs and changes nothing else (R650). -/
theorem tapReset_facts (s : State) :
    let t := (List.range 3).foldl (fun s i => s.modTap i (fun t => { t with instr := 0x01 })) s
    (∀ i : Fin 3, (t.dbg.tap i.val).instr = 0x01) ∧
      t = { s with dbg := { s.dbg with tap0 := t.dbg.tap0, tap1 := t.dbg.tap1, tap2 := t.dbg.tap2 } } := by
  refine ⟨fun i => ?_, rfl⟩
  fin_cases i <;> rfl

/-- Settles O46: the TAP instructions by what each selects, captures and holds, and DBG_ACCESS by its access. -/
theorem testAccessPorts : Obligations.TestAccessPorts := by
  unfold Obligations.TestAccessPorts
  intro s hon
  refine ⟨⟨_, exec_tapReset hon, tapReset_facts s⟩, fun i opc h => ⟨_, exec_bypassTap hon i h, rfl⟩,
    fun i => ⟨_, exec_idcodeTap hon i, rfl⟩, fun i => ⟨_, exec_frzStatus hon i, rfl⟩, fun i b => ⟨_, exec_samplePreload hon i b, rfl⟩,
    ?pins, ?access⟩
  case pins =>
    intro i c opc hmem
    obtain ⟨hholds, hexec⟩ := exec_holdsPins hon i hmem
    obtain ⟨hinstr, hcells, hdict, hhost, hdie⟩ := FreezeLaws.select_hold s i.val opc hholds i.isLt
    obtain ⟨hne4, hne5, hplain⟩ | hbypass := hexec
    · exact ⟨_, hplain, hinstr, fun hor => (hor.elim hne4 hne5).elim, hcells, hdict, hhost, hdie⟩
    · have htap := FreezeLaws.tap_modTap (s.selectTap i.val opc) i.val (fun t => { t with capture := 0 })
      refine ⟨_, hbypass, ?_, fun _ => ?_, hcells, hdict, hhost, hdie⟩
      · rw [htap]
        exact hinstr
      · rw [htap]
  case access =>
    intro i dr hcompute u c o
    have hexec := exec_dbgAccess hon i hcompute dr
    obtain ⟨hidle, hfails, hreads⟩ := dbgAccess_cases s i.val dr
    refine ⟨fun hno => ⟨_, hexec, hidle hno⟩, fun hgo hclosed => ⟨_, hexec, hfails hgo ?_⟩,
      fun hgo hfull hdebug hcan hdepth hlocal hdie hfits => ⟨_, hexec, hreads hgo ?_⟩⟩
    · unfold accessOk
      rw [hclosed]
      rfl
    · unfold accessOk
      simp only [Bool.and_eq_true, decide_eq_true_eq]
      exact ⟨⟨⟨⟨⟨⟨hfull, hdebug⟩, hcan⟩, hdepth⟩, hlocal⟩, hdie⟩, hfits⟩

end Sys2Proof.Proofs

/-! PROOFS. The links: flits that arrive, their timers and faults, and packets on their way. -/

namespace Sys2Proof.Proofs

open Sys2Proof Sys2Proof.Machine Sys2Proof.Claims Sys2Proof.Laws

/-! ### Flits that arrive (R527 to R533, R536 to R538) -/

/-- Any of the five rows takes a bad flit. -/
theorem exec_badFlit {s : State} {l : Fin 32} {b : List Byte} {c : Instr} (hwired : s.linkWired l.val = true)
    (hmode : (s.net.link l.val).mode = 1) (hlock : (s.net.link l.val).lock = true) (hbad : flitOk b = false)
    (hc : c ∈ [Instr.dataFlit l b, .abortFlit l b, .idleFlit l b, .helloFlit l b, .degradeFlit l b]) :
    exec c s = .next ((s.passRx l.val b).badFlit l.val) := by
  have htakes (kind : Bool) : s.nativeFlit l.val b kind = (s.passRx l.val b).badFlit l.val := by
    rw [LinkLaws.native_in s l.val b kind hwired hmode hlock (by rw [hbad]; exact Bool.or_true kind), LinkLaws.flit_bad _ _ _ hbad]
  simp only [List.mem_cons, List.not_mem_nil, or_false] at hc
  obtain rfl | rfl | rfl | rfl | rfl := hc
  all_goals exact congrArg Host.Outcome.next (htakes _)

/-- What a good flit of each type does. -/
theorem flitIn_cases (s : State) (l : Nat) {b : List Byte} (hok : flitOk b = true) :
    (flitType b = 1 → s.flitIn l b = s.dataIn l b) ∧ (flitType b = 2 → s.flitIn l b = s.flitReport l b) ∧
      (flitType b = 3 → s.flitIn l b = s.helloIn l b) ∧ (flitType b = 4 → s.flitIn l b = (s.degrade l).flitReport l b) := by
  rw [LinkLaws.flit_good s l b hok]
  refine ⟨fun h => ?_, fun h => ?_, fun h => ?_, fun h => ?_⟩ <;> (rw [h]; rfl)

/-- A DEGRADE flit halves the lanes of a link that has more than one (R533). -/
theorem degradeFlit_more {s : State} {l : Nat} (hup : (s.net.link l).st = .up) (hruns : (s.net.link l).retraining = false)
    (hmore : 1 < (s.net.link l).lanes) (b : List Byte) :
    let t := (s.degrade l).flitReport l b
    (t.net.link l).lanes = (s.net.link l).lanes / 2 ∧ (t.net.link l).retraining = true ∧ (t.net.link l).st = .up ∧
      t.net.degrades = s.net.degrades + 1 ∧ t.evc = s.evc.fireStatus srcCapacity ∧ t.cells = s.cells := by
  intro t
  have hreports := LinkLaws.sends_report (s.degrade l) l b
  obtain ⟨hlanes, hretraining, hst, hcount, hevc, hcells⟩ := LinkLaws.degrade_more s l hup hruns hmore
  obtain ⟨hst', -, -, -, hlanes', hretraining', -⟩ := LinkLaws.sends_link hreports l
  obtain ⟨hcells', -, hevc', -, -, -, -, hcount', -⟩ := LinkLaws.sends_mod hreports
  exact ⟨hlanes'.trans hlanes, hretraining'.trans hretraining, hst'.trans hst, hcount'.trans hcount, hevc'.trans hevc,
    hcells'.trans hcells⟩

/-- A DEGRADE flit takes a link of one lane down (R533). -/
theorem degradeFlit_last {s : State} {l : Nat} (hup : (s.net.link l).st = .up) (hruns : (s.net.link l).retraining = false)
    (hlast : (s.net.link l).lanes ≤ 1) (b : List Byte) :
    let t := (s.degrade l).flitReport l b
    (t.net.link l).st = .down ∧ (t.net.link l).lock = false ∧ t.cells = s.cells := by
  intro t
  have hreports := LinkLaws.sends_report (s.degrade l) l b
  obtain ⟨hst, hlock, hcells⟩ := LinkLaws.degrade_last s l hup hruns hlast
  obtain ⟨hst', -, -, -, -, -, hlock', -⟩ := LinkLaws.sends_link hreports l
  obtain ⟨hcells', -⟩ := LinkLaws.sends_mod hreports
  exact ⟨hst'.trans hst, hlock'.trans hlock, hcells'.trans hcells⟩

/-- Settles O47: bad flits, good ones by their type, and frames of Ethernet mode. -/
theorem flitsThatArrive : Obligations.FlitsThatArrive := by
  unfold Obligations.FlitsThatArrive
  intro s l hwired k bad
  refine ⟨fun b hmode hlock => ?native, fun f hmode hdest => ?frame⟩
  case native =>
    intro s1 bad1
    refine ⟨fun hbad c hc => ⟨_, exec_badFlit hwired hmode hlock hbad hc, rfl⟩, fun c hflit hok => ?_⟩
    intro seq f
    have hexec := LinkLaws.exec_flit s l b c hwired hmode hlock hflit
    obtain ⟨hdata, hidle, hhello, hdegrade⟩ := flitIn_cases s1 l.val hok
    refine ⟨fun htyp hup hdup hruns hseq => ⟨_, hexec, ?_⟩, fun htyp hup hdup hruns hseq => ⟨_, hexec, ?_⟩,
      fun htyp hoff => ⟨_, hexec, ?_⟩, fun htyp => ⟨_, hexec, ?_⟩, fun htyp habsent hon => ⟨_, hexec, ?_⟩,
      fun htyp hup hsame => ⟨_, hexec, ?_⟩, fun htyp hup hruns hmore => ⟨_, hexec, ?_⟩, fun htyp hup hruns hlast => ⟨_, hexec, ?_⟩⟩
    · rw [hdata htyp]
      exact LinkLaws.dataIn_ok s1 l.val b hup hdup hruns hseq
    · rw [hdata htyp]
      exact LinkLaws.dataIn_gap s1 l.val b hup hdup hruns hseq
    · rw [hdata htyp]
      exact LinkLaws.dataIn_off s1 l.val b hoff
    · rw [hidle htyp]
      exact LinkLaws.sends_report s1 l.val b
    · exact LinkLaws.helloIn_first s1 l.val b habsent hon _ (hhello htyp)
    · exact LinkLaws.helloIn_again s1 l.val b hup hsame _ (hhello htyp)
    · rw [hdegrade htyp]
      exact degradeFlit_more (s := s1) hup hruns hmore b
    · rw [hdegrade htyp]
      exact degradeFlit_last (s := s1) hup hruns hlast b
  case frame =>
    refine ⟨⟨_, LinkLaws.frame_bad s l f hwired hmode hdest, rfl⟩, fun n b hpeer hknown htyp hcount hzero hlen hb hn => ?_⟩
    obtain ⟨t, hexec, hbad, hidle⟩ := LinkLaws.frame_one s l f n b hwired hmode hdest hpeer hknown htyp hcount hzero hlen hb hn
    exact ⟨t, hexec, hbad, hidle⟩

/-! ### Timers, faults, retrains and cables (R525, R532 to R539, R702) -/

section
variable {s : State} {l : Fin 32}

theorem exec_replayTimeout (hwired : s.linkWired l.val = true) (hsends : (s.net.link l.val).sends = true)
    (hheld : (s.net.link l.val).held ≠ []) (hon : s.retryNs l.val ≠ 0)
    (hlate : s.retryNs l.val ≤ (s.linkTime l.val - (s.net.link l.val).lastAck).toNat) :
    exec (.replayTimeout l) s = .next (s.replay l.val) :=
  congrArg Host.Outcome.next (onlyIf_true _ _ _
    (by rw [hwired, hsends, decide_eq_true hheld, decide_eq_true hon, decide_eq_true hlate]; rfl))

theorem exec_helloSend (hwired : s.linkWired l.val = true) (hlock : (s.net.link l.val).lock = true)
    (hon : (s.net.link l.val).st ≠ .off)
    (hdue : (s.net.link l.val).helloDue = true ∨ 1000000 ≤ (s.linkTime l.val - (s.net.link l.val).helloAt).toNat) :
    exec (.helloSend l) s = .next (s.sendHello l.val) := by
  refine congrArg Host.Outcome.next (onlyIf_true _ _ _ ?_)
  simp only [hwired, hlock, Bool.and_eq_true, Bool.or_eq_true, decide_eq_true_eq]
  exact ⟨⟨⟨trivial, .inl trivial⟩, hon⟩, hdue⟩

theorem exec_helloTimeout (hup : s.up = true) (hlive : (s.net.link l.val).st = .up ∨ (s.net.link l.val).st = .down)
    (hlate : 3500000 ≤ (s.linkTime l.val - (s.net.link l.val).lastHello).toNat) :
    exec (.helloTimeout l) s = .next (s.partnerGone l.val) :=
  congrArg Host.Outcome.next (onlyIf_true _ _ _ (by rw [hup, decide_eq_true hlive, decide_eq_true hlate]; rfl))

theorem exec_flitLockLost (hup : s.up = true) (hlock : (s.net.link l.val).lock = true) :
    exec (.flitLockLost l) s = .next (s.modLink l.val (·.lockLost)) :=
  congrArg Host.Outcome.next (onlyIf_true _ _ _ (by rw [hup, hlock]; rfl))

theorem exec_flitLockAcquired (hwired : s.linkWired l.val = true) (hmode : (s.net.link l.val).mode = 1)
    (hon : (s.net.link l.val).st ≠ .off) (hno : (s.net.link l.val).lock = false) :
    exec (.flitLockAcquired l) s = .next (s.modLink l.val (fun k => { k with lock := true })) :=
  congrArg Host.Outcome.next (onlyIf_true _ _ _ (by rw [hwired, decide_eq_true hmode, decide_eq_true hon, hno]; rfl))

theorem exec_laneDegrade {n : Option Nat} (hwired : s.linkWired l.val = true) (hmode : (s.net.link l.val).mode = 1)
    (hfails : s.laneFails n = true) :
    exec (.laneDegrade l (s.net.link l.val).lanes n) s = .next (s.degrade l.val) :=
  congrArg Host.Outcome.next (onlyIf_true _ _ _ (by rw [hwired, decide_eq_true ⟨hmode, rfl⟩, hfails]; rfl))

theorem exec_linkRetrainComplete (hwired : s.linkWired l.val = true) (hretrains : (s.net.link l.val).retraining = true) (ok : Bool) :
    exec (.linkRetrainComplete l ok) s = .next (s.retrained l.val ok) :=
  congrArg Host.Outcome.next (onlyIf_true _ _ _ (by rw [hwired, hretrains]; rfl))

end

theorem reported_held (k : Link) : k.reported.held = k.held := by
  unfold Link.reported
  rfl

/-- Every held flit goes again, and stays held (R532). -/
theorem replay_facts {s : State} {l : Nat} (hruns : s.frozen = false) :
    ((s.replay l).net.link l).held = (s.net.link l).held ∧ ((s.replay l).net.link l).lastAck = s.linkTime l ∧
      (s.replay l).net.replays = s.net.replays + BitVec.ofNat 64 (s.net.link l).held.length ∧
      (s.replay l).net.flitsTx = s.net.flitsTx + BitVec.ofNat 64 (s.net.link l).held.length := by
  have hlink : (s.replay l).net.link l = { (s.net.link l).reported with lastAck := s.linkTime l } := by
    unfold State.replay
    rw [if_neg (ne_true_of_eq_false hruns)]
    exact LinkLaws.mod_self s l (fun k => { k.reported with lastAck := s.linkTime l })
  have hcounts : (s.replay l).net.replays = s.net.replays + BitVec.ofNat 64 (s.net.link l).held.length ∧
      (s.replay l).net.flitsTx = s.net.flitsTx + BitVec.ofNat 64 (s.net.link l).held.length := by
    unfold State.replay
    rw [if_neg (ne_true_of_eq_false hruns)]
    exact ⟨rfl, rfl⟩
  rw [hlink]
  simp only [reported_held, true_and]
  exact hcounts

/-- A HELLO leaves with its number (R537); a native link sends the bare flit. -/
theorem sendHello_facts {s : State} {l : Nat} (hmode : (s.net.link l).mode = 1) :
    (s.sendHello l).net.link l = { (s.net.link l).reported with
      hseq := (s.net.link l).hseq + 1, helloDue := false, helloAt := s.linkTime l, out := (s.net.link l).flit 3 (s.helloBytes l) } := by
  have hplain (a b : List Byte) : (if (s.net.link l).mode = 2 then a else b) = b := if_neg (by rw [hmode]; decide)
  unfold State.sendHello
  rw [LinkLaws.mod_self, hplain]

/-- A retrain that ends well: the link resumes, and LINK fires (R534). -/
theorem retrained_facts (s : State) (l : Nat) :
    let t := s.retrained l true
    t.evc = s.evc.fireStatus srcLink ∧ (t.net.link l).retraining = false ∧ (t.net.link l).lock = true ∧
      (t.net.link l).st = (s.net.link l).st ∧ t.cells = s.cells ∧ t.mem = s.mem := by
  intro t
  let resumed := s.modLink l (fun k => { k with retraining := false, lock := true })
  have hlink : resumed.net.link l = { s.net.link l with retraining := false, lock := true } := LinkLaws.mod_self s l _
  have hsends : OnlySends resumed ((resumed.replay l).pump l) :=
    LinkLaws.sends_trans (LinkLaws.sends_replay resumed l) (LinkLaws.sends_pump _ l)
  obtain ⟨hst, -, -, -, -, hretraining, hlock, -⟩ := LinkLaws.sends_link hsends l
  obtain ⟨hcells, hmem, hevc, -⟩ := LinkLaws.sends_mod hsends
  rw [hlink] at hst hretraining hlock
  exact ⟨congrArg (Evc.fireStatus · srcLink) hevc, hretraining, hlock, hst, hcells, hmem⟩

/-- Settles O48: each timer, fault and change of a link by what becomes of it. -/
theorem linkEvents : Obligations.LinkEvents := by
  unfold Obligations.LinkEvents
  intro s l k
  refine ⟨fun hwired hsends hheld hon hlate hruns => ?replay, fun hwired hlock hmode hon hdue => ?hello,
    fun hup hlive hlate => ?gone, fun hup hlock => ?lost, fun hwired hmode hon hno => ⟨_, exec_flitLockAcquired hwired hmode hon hno, rfl⟩,
    fun n hwired hmode hup hruns hfails => ?degrade, fun hwired hretrains => ?retrain, fun p c => ?cable⟩
  case replay =>
    exact ⟨_, exec_replayTimeout hwired hsends hheld hon hlate, LinkLaws.sends_replay s l.val, replay_facts hruns⟩
  case hello =>
    have hlink := sendHello_facts hmode
    refine ⟨_, exec_helloSend hwired hlock hon hdue, ?_⟩
    rw [hlink]
    simp only [reported_held, true_and]
    exact ⟨rfl, rfl, rfl, rfl⟩
  case gone =>
    obtain ⟨hlink, hcells, hsync⟩ := LinkLaws.partnerGone_facts s l.val
    refine ⟨_, exec_helloTimeout hup hlive hlate, ?_⟩
    rw [hlink]
    exact ⟨rfl, rfl, rfl, rfl, rfl, hcells, hsync⟩
  case lost =>
    exact ⟨_, exec_flitLockLost hup hlock, LinkLaws.mod_congr s l.val _ _ (LinkLaws.lockLost_eq _)⟩
  case degrade =>
    refine ⟨fun hmore => ?_, fun hlast => ?_⟩
    · obtain ⟨hlanes, hretraining, -, hcount, hevc, -⟩ := LinkLaws.degrade_more s l.val hup hruns hmore
      exact ⟨_, exec_laneDegrade hwired hmode hfails, hlanes, hretraining, hcount, hevc⟩
    · obtain ⟨hst, hlock, -⟩ := LinkLaws.degrade_last s l.val hup hruns hlast
      exact ⟨_, exec_laneDegrade hwired hmode hfails, hst, hlock⟩
  case retrain =>
    exact ⟨⟨_, exec_linkRetrainComplete hwired hretrains true, retrained_facts s l.val⟩,
      ⟨_, exec_linkRetrainComplete hwired hretrains false, rfl⟩⟩
  case cable =>
    refine ⟨_, rfl, SMap.getD_set_self _ _ _ _, ?_, rfl⟩
    simp only [State.cableChange, LinkLaws.lockLost_eq]

end Sys2Proof.Proofs

/-! PROOFS. Packets on their way: receive buffers, arrival buffers and held packets. -/

namespace Sys2Proof.Proofs

open Sys2Proof Sys2Proof.Machine Sys2Proof.Claims Sys2Proof.Laws

/-! ### The oldest flit of a receive buffer (R528, R529, R540, R545 to R547) -/

/-- The receive buffer of a virtual channel. -/
def rxOf (v : Bool) (k : Link) : List RxFlit := if v then k.rx1 else k.rx0

/-- A PACKET_FORWARD from `s` comes to `t` and leaves `r` of the receive buffer of its channel: no cell, no message in flight and
not the other channel's buffer changes. -/
def Leaves (s : State) (l : Fin 32) (vc : Fin 2) (t : State) (r : List RxFlit) : Prop :=
  exec (.packetForward l vc) s = .next t ∧ rxOf (decide (vc.val = 1)) (t.net.link l.val) = r ∧
    rxOf (!decide (vc.val = 1)) (t.net.link l.val) = rxOf (!decide (vc.val = 1)) (s.net.link l.val) ∧ t.cells = s.cells ∧
    t.net.inFlight = s.net.inFlight

/-- `t` is `z` after an item has left virtual channel `v` of link `l` and every link has sent what it may: what a packet has
come to in `z` stays. -/
structure SentFrom (z : State) (l : Nat) (v : Bool) (t : State) : Prop where
  mem : t.mem = z.mem
  arrive : ∀ d, t.net.arrive d = z.net.arrive d
  heldPk : t.net.heldPk = z.net.heldPk
  forwarded : t.net.forwarded = z.net.forwarded
  waves : t.net.waves = z.net.waves
  wave0 : t.net.wave0 = z.net.wave0
  wave1 : t.net.wave1 = z.net.wave1
  mid : (t.net.link l).mid v = (z.net.link l).mid v
  queue : ∀ j, (z.net.link j).sends = false →
    (if v then (t.net.link j).q1 else (t.net.link j).q0) = (if v then (z.net.link j).q1 else (z.net.link j).q0)

/-- What the forwarding of a flit comes to, from the state in which its items have left. -/
theorem leaves_after {s z : State} {l : Fin 32} {vc : Fin 2} {r : List RxFlit} {credit : Nat} (hup : s.dieUp (linkDie l.val) = true)
    (hnum : s.net.numbered = true)
    (hforward : s.forwardFlit l (decide (vc.val = 1)) = z.modLink l.val (LinkLaws.setRx (decide (vc.val = 1)) r credit))
    (hother : rxOf (!decide (vc.val = 1)) (z.net.link l.val) = rxOf (!decide (vc.val = 1)) (s.net.link l.val))
    (hcells : z.cells = s.cells) (hflight : z.net.inFlight = s.net.inFlight) :
    ∃ t, Leaves s l vc t r ∧ SentFrom z l.val (decide (vc.val = 1)) t := by
  obtain ⟨t, hexec, hrx, hrx', hcells', hflight', hsends, hqueue⟩ :=
    LinkLaws.leaves_of s z l vc r credit hup hnum hforward hother hcells hflight
  obtain ⟨-, hmem, -, -, -, -, -, -, -, -, -, hheld, hforwarded⟩ := LinkLaws.sends_mod hsends
  obtain ⟨-, hwaves, hwave0, hwave1⟩ := LinkLaws.sends_more hsends
  exact ⟨t, ⟨hexec, hrx, hrx', hcells', hflight'⟩, hmem, fun d => (LinkLaws.sends_arrive hsends d :), hheld, hforwarded, hwaves, hwave0, hwave1,
    LinkLaws.mid_after hsends, hqueue⟩

/-- A flit of one item whose item leaves. -/
theorem item_leaves {s z : State} {l : Fin 32} {vc : Fin 2} {f : RxFlit} {rest : List RxFlit} {i : QItem}
    (hup : s.dieUp (linkDie l.val) = true) (hnum : s.net.numbered = true)
    (hrx : rxOf (decide (vc.val = 1)) (s.net.link l.val) = f :: rest) (hone : f.items = [i]) (hwhole : f.abort = false)
    (hz : s.forwardItem l (decide (vc.val = 1)) i = some z)
    (hother : rxOf (!decide (vc.val = 1)) (z.net.link l.val) = rxOf (!decide (vc.val = 1)) (s.net.link l.val))
    (hcells : z.cells = s.cells) (hflight : z.net.inFlight = s.net.inFlight) :
    ∃ t, Leaves s l vc t rest ∧ SentFrom z l.val (decide (vc.val = 1)) t :=
  leaves_after hup hnum (LinkLaws.fwd_one s l _ f rest i hrx hone hwhole z hz) hother hcells hflight

/-- A flit of one item that must wait. -/
theorem item_waits {s : State} {l : Fin 32} {vc : Fin 2} {f : RxFlit} {rest : List RxFlit} {i : QItem}
    (hup : s.dieUp (linkDie l.val) = true) (hnum : s.net.numbered = true)
    (hrx : rxOf (decide (vc.val = 1)) (s.net.link l.val) = f :: rest) (hone : f.items = [i])
    (hz : s.forwardItem l (decide (vc.val = 1)) i = none) :
    ∃ t, Leaves s l vc t (f :: rest) ∧ SentFrom s l.val (decide (vc.val = 1)) t :=
  leaves_after hup hnum (LinkLaws.fwd_wait s l _ f rest i hrx hone hz) rfl rfl rfl

/-- The oldest flit of an empty buffer: the links send, and nothing else happens. -/
theorem exec_packetForward_empty {s : State} {l : Fin 32} {vc : Fin 2} (hup : s.dieUp (linkDie l.val) = true)
    (hnum : s.net.numbered = true) (hrx : rxOf (decide (vc.val = 1)) (s.net.link l.val) = []) :
    exec (.packetForward l vc) s = .next s.pumpAll := by
  have hnone : s.forwardFlit l (decide (vc.val = 1)) = s := by
    unfold State.forwardFlit
    unfold rxOf at hrx
    simp only [hrx]
  refine congrArg Host.Outcome.next ((onlyIf_true _ _ _ (by rw [hup, hnum]; rfl)).trans ?_)
  rw [hnone]

/-! ### One item -/

theorem rxOf_setMid (k : Link) (v w m : Bool) : rxOf v (k.setMid w m) = rxOf v k := by
  obtain ⟨hrx0, hrx1⟩ := LinkLaws.setMid_rx k w m
  unfold rxOf
  rw [hrx0, hrx1]

theorem item_wave {s : State} {l : Fin 32} {v : Bool} {i : QItem} (h : i.kind = 0x3E) :
    s.forwardItem l v i = some (s.waveOver l v i) :=
  if_pos h

/-- `s` with more of the packet that is coming in over a link: an item of it, or its abort. -/
def packetGrown (s : State) (l : Nat) (v : Bool) (i : Option QItem) (n : Net → Net) : State :=
  let z := s.modLink l (·.setMid v (i.elim false (fun i => !i.eop)))
  { z with net := (n z.net).mapPackets (Packet.more (l, v) i) }

theorem item_more {s : State} {l : Fin 32} {v : Bool} {i : QItem} (h : i.kind ≠ 0x3E) (hmid : (s.net.link l.val).mid v = true) :
    s.forwardItem l v i = some (packetGrown s l.val v (some i) (·.transitItem (l.val, v) i)) := by
  unfold State.forwardItem
  simp only [if_neg h, hmid, if_true]
  rfl

/-- More of a packet reaches the packet wherever it stands, and changes nothing else. -/
theorem packetGrown_facts (s : State) (l : Nat) (v : Bool) (i : Option QItem) {n : Net → Net}
    (hn : ∀ m, n m = { m with ucie := (n m).ucie }) :
    let z := packetGrown s l v i n
    (∀ w, rxOf w (z.net.link l) = rxOf w (s.net.link l)) ∧ z.net.inFlight = s.net.inFlight ∧
      (∀ e, z.net.arrive e = (s.net.arrive e).map (Packet.more (l, v) i)) ∧
      z.net.heldPk = s.net.heldPk.map (fun h => (h.1, Packet.more (l, v) i h.2)) ∧ z.net.forwarded = s.net.forwarded ∧
      (z.net.link l).mid v = i.elim false (fun i => !i.eop) := by
  intro z
  let m := s.net.setLink l ((s.net.link l).setMid v (i.elim false (fun i => !i.eop)))
  have hz : z.net = ({ m with ucie := (n m).ucie } : Net).mapPackets (Packet.more (l, v) i) :=
    congrArg (Net.mapPackets · (Packet.more (l, v) i)) (hn m)
  have hlink : z.net.link l = ((s.net.link l).setMid v (i.elim false (fun i => !i.eop))).mapPackets (Packet.more (l, v) i) := by
    rw [hz, LinkLaws.map_link]
    exact congrArg (Link.mapPackets · _) (LinkLaws.links_self s.net l _)
  refine ⟨fun w => ?_, by rw [hz]; rfl, fun e => ?_, by rw [hz]; rfl, by rw [hz]; rfl, ?_⟩
  · rw [hlink]
    exact rxOf_setMid _ w v _
  · rw [hz, LinkLaws.map_arrive]
    rfl
  · rw [hlink]
    exact LinkLaws.setMid_mid _ v _

/-- The packet that a first item opens. -/
def newPacket (x : Nat × Bool) (i : QItem) : Packet := ⟨[i], false, if i.eop then none else some x⟩

/-- The first item of a packet: where it goes, and where it waits. -/
theorem openPacket_cases (s : State) (x : Nat × Bool) (i : QItem) :
    let p := newPacket x i
    let d := linkDie x.1
    (p.dest = s.net.devId →
      (((s.net.arrive d).map (fun p => p.items.length)).sum < arriveRoom →
        s.openPacket x i = some { s with net := s.net.setArrive d (s.net.arrive d ++ [p]) }) ∧
      (arriveRoom ≤ ((s.net.arrive d).map (fun p => p.items.length)).sum → s.openPacket x i = none)) ∧
    (p.dest ≠ s.net.devId →
      (∀ j, s.net.route p.dest = some j → (∀ h ∈ s.net.heldPk, h.1 ≠ p.dest.toNat) →
        s.openPacket x i = some { s with net := ({ s.net with forwarded := s.net.forwarded + 1 } : Net).enqueue j x.2 p }) ∧
      (s.net.route p.dest = none ∨ (∃ h ∈ s.net.heldPk, h.1 = p.dest.toNat) → s.openPacket x i =
        (s.mem.allocHold d p.dest.toNat 1).map (fun m => { s with mem := m, net := { s.net with
          forwarded := s.net.forwarded + 1, heldPk := s.net.heldPk ++ [(p.dest.toNat, p)] } }))) := by
  intro p d
  refine ⟨fun hhere => ⟨fun hroom => ?_, fun hfull => ?_⟩, fun haway => ⟨fun j hroute hnone => ?_, fun hheld => ?_⟩⟩
  · exact (if_pos hhere).trans (if_neg (not_le.mpr hroom))
  · exact (if_pos hhere).trans (if_pos hfull)
  · refine (if_neg haway).trans ?_
    split
    next l hl _ =>
      cases hl.symm.trans hroute
      rfl
    next hno => exact (hno j hroute (LinkLaws.any_false hnone)).elim
  · refine (if_neg haway).trans ?_
    split
    next l hl hfree =>
      obtain hroute | hsome := hheld
      · cases hl.symm.trans hroute
      · cases hfree.symm.trans (LinkLaws.any_true hsome)
    next => rfl

/-! ### Packets that open -/

/-- The first item of a packet leaves where the packet opens. -/
theorem opened_leaves {s z : State} {l : Fin 32} {vc : Fin 2} {f : RxFlit} {rest : List RxFlit} {i : QItem}
    (hup : s.dieUp (linkDie l.val) = true) (hnum : s.net.numbered = true)
    (hrx : rxOf (decide (vc.val = 1)) (s.net.link l.val) = f :: rest) (hone : f.items = [i]) (hwhole : f.abort = false)
    (hkind : i.kind ≠ 0x3E) (hmid : (s.net.link l.val).mid (decide (vc.val = 1)) = false)
    (hopen : s.openPacket (l.val, decide (vc.val = 1)) i = some z)
    (hside : LinkLaws.rxSide (z.net.link l.val) = LinkLaws.rxSide (s.net.link l.val)) (hcells : z.cells = s.cells)
    (hflight : z.net.inFlight = s.net.inFlight) :
    ∃ t, Leaves s l vc t rest ∧
      SentFrom (z.modLink l.val (·.setMid (decide (vc.val = 1)) (!i.eop))) l.val (decide (vc.val = 1)) t := by
  have hitem : s.forwardItem l (decide (vc.val = 1)) i = some (z.modLink l.val (·.setMid (decide (vc.val = 1)) (!i.eop))) := by
    rw [LinkLaws.item_open s l _ i hkind hmid, hopen]
    rfl
  exact item_leaves hup hnum hrx hone hwhole hitem (LinkLaws.opened_rx s z l.val _ _ hside) hcells hflight

/-- What has become of an opened packet's link once the channel is marked. -/
theorem mid_marked (z : State) (l : Nat) (v m : Bool) : ((z.modLink l (·.setMid v m)).net.link l).mid v = m := by
  rw [LinkLaws.mod_self]
  exact LinkLaws.setMid_mid _ v m

theorem setMid_sends (k : Link) (v m : Bool) :
    (k.setMid v m).sends = k.sends ∧ (k.setMid v m).q0 = k.q0 ∧ (k.setMid v m).q1 = k.q1 := by
  unfold Link.setMid
  cases v <;> exact ⟨rfl, rfl, rfl⟩

/-- Marking a channel of a link leaves the queues of every link. -/
theorem marked_queue (z : State) (l j : Nat) (v m : Bool) :
    let k := (z.modLink l (·.setMid v m)).net.link j
    k.sends = (z.net.link j).sends ∧ k.q0 = (z.net.link j).q0 ∧ k.q1 = (z.net.link j).q1 := by
  intro k
  have hk : k = if j = l then (z.net.link j).setMid v m else z.net.link j := LinkLaws.mod_link z l j _
  rw [hk]
  split
  · exact setMid_sends _ v m
  · exact ⟨rfl, rfl, rfl⟩

/-- A packet that joins the queue of a link that may not send stays there. -/
theorem enqueued_queue {n : Net} {j : Nat} (h : (n.link j).sends = false) (v : Bool) (p : Packet) :
    let k := (n.enqueue j v p).link j
    k.sends = false ∧ (if v then k.q1 else k.q0) = (if v then (n.link j).q1 else (n.link j).q0) ++ [p] := by
  intro k
  have hk : k = _ := LinkLaws.enqueue_still n j v p h
  rw [hk]
  cases v <;> exact ⟨h, rfl⟩

/-! ### The arrival buffers (R540) -/

theorem exec_arrivalBufferDeliver {s : State} {d : Fin 2} (hup : s.dieUp d.val = true) (hnum : s.net.numbered = true) :
    exec (.arrivalBufferDeliver d) s = .next (s.deliverArrived d.val) :=
  congrArg Host.Outcome.next (onlyIf_true _ _ _ (by rw [hup, hnum]; rfl))

/-- The next packet that leaves the arrival buffer of a die: the oldest one that no link still brings in. -/
def nextArrived (s : State) (d : Nat) : Option Packet := (s.net.arrive d).find? (fun p => decide (p.src = none))

theorem deliverArrived_none {s : State} {d : Nat} (h : nextArrived s d = none) : s.deliverArrived d = s := by
  unfold nextArrived at h
  unfold State.deliverArrived
  rw [h]

theorem deliverArrived_aborted {s : State} {d : Nat} {p : Packet} (h : nextArrived s d = some p) (hcut : p.aborted = true) :
    s.deliverArrived d =
      { s with net := { s.net.setArrive d ((s.net.arrive d).erase p) with aborted := s.net.aborted + 1 } } := by
  obtain ⟨-, -, -, -, haborted⟩ := LinkLaws.setArrive_rest s.net d ((s.net.arrive d).erase p)
  unfold nextArrived at h
  unfold State.deliverArrived
  simp only [h, hcut, if_true, haborted]

/-- A packet that has arrived whole becomes a message in flight here. -/
theorem deliverArrived_whole {s : State} {d : Nat} {p : Packet} {m : Msg} (h : nextArrived s d = some p) (hwhole : p.aborted = false)
    (hmsg : Msg.ofItems p.items = some m) :
    ∃ x, s.deliverArrived d =
      State.fly { s with net := { s.net.setArrive d ((s.net.arrive d).erase p) with ucie := x } } m := by
  have htransit := LinkLaws.transit_rest (s.net.setArrive d ((s.net.arrive d).erase p)) d (UA.digit m.dest 1 % 2) p.items p.items
  unfold nextArrived at h
  unfold State.deliverArrived
  simp only [h, hwhole, hmsg, Bool.false_eq_true, if_false]
  split
  · exact ⟨_, rfl⟩
  · exact ⟨_, congrArg (fun n => State.fly { s with net := n } m) htransit⟩

/-! ### Held packets (R47, R546) -/

theorem exec_heldPacketRelease {s : State} (hup : s.fabricUp = true) (dest : BitVec 16) :
    exec (.heldPacketRelease dest) s = .next (s.heldRelease dest) :=
  congrArg Host.Outcome.next (onlyIf_true _ _ _ hup)

/-- Without a usable link nothing is released, and where no message waits nothing happens. -/
theorem heldRelease_none {s : State} {dest : BitVec 16} (hroute : s.net.route dest = none)
    (hidle : s.net.inFlight.filter (fun m => decide (UA.device m.dest = dest)) = [] ∨ dest = s.net.devId) :
    s.heldRelease dest = s := by
  have hkeeps : s.releaseHeld dest = s := by
    unfold State.releaseHeld
    rw [hroute]
  unfold State.heldRelease
  simp only [hkeeps]
  by_cases hown : dest = s.net.devId
  · exact if_pos hown
  · rw [if_neg hown]
    exact LinkLaws.retry_none dest _ (hidle.resolve_right hown) s

/-- `s` with the packets held for a device on the queue of link `j`, and their storage in the pool again. -/
def heldGone (s : State) (dest : BitVec 16) (j : Nat) : State :=
  { s with
    mem := s.mem.releaseUse (.hold dest.toNat)
    net := (s.net.heldPk.filter (fun h => decide (h.1 = dest.toNat))).foldl (fun n h => n.enqueue j h.2.vc1 h.2)
      { s.net with heldPk := s.net.heldPk.filter (fun h => decide (h.1 ≠ dest.toNat)) } }

theorem enqueues_devId (j : Nat) (held : List (Nat × Packet)) (n : Net) :
    (held.foldl (fun n h => n.enqueue j h.2.vc1 h.2) n).devId = n.devId := by
  induction held generalizing n with
  | nil => rfl
  | cons h held ih => exact ih (n.enqueue j h.2.vc1 h.2)

theorem heldGone_facts {s : State} {dest : BitVec 16} {j : Nat} (hroute : s.net.route dest = some j) :
    let z := heldGone s dest j
    let ps := (s.net.heldPk.filter (fun h => decide (h.1 = dest.toNat))).map (fun h => h.2)
    z.net.route dest = some j ∧ z.net.heldPk = s.net.heldPk.filter (fun h => decide (h.1 ≠ dest.toNat)) ∧
      z.net.inFlight = s.net.inFlight ∧ z.net.devId = s.net.devId ∧ (∀ i, i ≠ j → z.net.link i = s.net.link i) ∧
      ((s.net.link j).sends = false → (z.net.link j).sends = false ∧
        (z.net.link j).q0 = (s.net.link j).q0 ++ ps.filter (fun p => !p.vc1) ∧
        (z.net.link j).q1 = (s.net.link j).q1 ++ ps.filter (fun p => p.vc1)) := by
  intro z ps
  obtain ⟨n, rfl, hheld, hflight, hsame, hothers, hqueue⟩ := LinkLaws.enq_foldl j dest
    (s.net.heldPk.filter (fun h => decide (h.1 = dest.toNat)))
    { s.net with heldPk := s.net.heldPk.filter (fun h => decide (h.1 ≠ dest.toNat)) }
  exact ⟨hsame.trans hroute, hheld, hflight, enqueues_devId j _ _, hothers, hqueue⟩

/-- The held packets leave, then the messages that have waited behind them. -/
theorem heldRelease_route {s : State} {dest : BitVec 16} {j : Nat} (hroute : s.net.route dest = some j)
    (haway : dest ≠ s.net.devId) :
    s.heldRelease dest = State.retryAll dest s.net.inFlight (heldGone s dest j) := by
  have hgone : s.releaseHeld dest = heldGone s dest j := by
    unfold State.releaseHeld
    rw [hroute]
    rfl
  obtain ⟨-, -, hflight, hdev, -⟩ := heldGone_facts hroute
  unfold State.heldRelease
  simp only [hgone, hdev, if_neg haway, hflight]

/-- What the release of the packets held for a device comes to. -/
theorem heldRelease_facts {s : State} {dest : BitVec 16} {j : Nat} (hroute : s.net.route dest = some j) (haway : dest ≠ s.net.devId) :
    let t := s.heldRelease dest
    let ps := (s.net.heldPk.filter (fun h => decide (h.1 = dest.toNat))).map (fun h => h.2) ++
      (s.net.inFlight.filter (fun m => decide (UA.device m.dest = dest))).map (fun m => (⟨m.items, false, none⟩ : Packet))
    t.net.heldPk = s.net.heldPk.filter (fun h => decide (h.1 ≠ dest.toNat)) ∧ t.mem = s.mem.releaseUse (.hold dest.toNat) ∧
      t.net.inFlight = s.net.inFlight.filter (fun m => decide (UA.device m.dest ≠ dest)) ∧ t.cells = s.cells ∧
      (∀ i, i ≠ j → t.net.link i = s.net.link i) ∧
      ((s.net.link j).sends = false → (t.net.link j).q0 = (s.net.link j).q0 ++ ps.filter (fun p => !p.vc1) ∧
        (t.net.link j).q1 = (s.net.link j).q1 ++ ps.filter (fun p => p.vc1)) := by
  intro t ps
  obtain ⟨hsame, hheld, hflight, -, hothers, hqueue⟩ := heldGone_facts hroute
  have hfree : ∀ h ∈ (heldGone s dest j).net.heldPk, h.1 ≠ dest.toNat := by
    rw [hheld]
    intro h hmem
    exact of_decide_eq_true (List.mem_filter.mp hmem).2
  obtain ⟨u, hu, hflight', hheld', hmem, hcells, hothers', hqueue'⟩ :=
    LinkLaws.retry_facts dest j s.net.inFlight [] (heldGone s dest j) hsame hfree nofun hflight
  have ht : t = u := (heldRelease_route hroute haway).trans hu.symm
  rw [ht]
  refine ⟨hheld'.trans hheld, hmem, hflight', hcells, fun i hi => (hothers' i hi).trans (hothers i hi), fun hstill => ?_⟩
  obtain ⟨hsends, hq0, hq1⟩ := hqueue hstill
  obtain ⟨hq0', hq1'⟩ := hqueue' hsends
  rw [hq0', hq1', hq0, hq1]
  simp only [ps, List.filter_append, List.append_assoc, and_self]

/-! ### Packets together -/

/-- What the oldest flit of a channel of a link comes to, by what it holds. -/
theorem forward_settles {s : State} {l : Fin 32} {vc : Fin 2} {f : RxFlit} {rest : List RxFlit} {i : QItem}
    (hup : s.dieUp (linkDie l.val) = true) (hnum : s.net.numbered = true)
    (hrx : rxOf (decide (vc.val = 1)) (s.net.link l.val) = f :: rest) (hone : f.items = [i]) (hwhole : f.abort = false)
    (hkind : i.kind ≠ 0x3E) (hmid : (s.net.link l.val).mid (decide (vc.val = 1)) = false) :
    let v := decide (vc.val = 1)
    let p := newPacket (l.val, v) i
    let d := linkDie l.val
    (p.dest = s.net.devId →
      (((s.net.arrive d).map (fun p => p.items.length)).sum < arriveRoom → ∃ t, Leaves s l vc t rest ∧
        t.net.arrive d = s.net.arrive d ++ [p] ∧ t.net.forwarded = s.net.forwarded ∧ t.mem = s.mem ∧ (t.net.link l.val).mid v = !i.eop) ∧
      (arriveRoom ≤ ((s.net.arrive d).map (fun p => p.items.length)).sum → ∃ t, Leaves s l vc t (f :: rest) ∧
        t.net.arrive d = s.net.arrive d ∧ t.mem = s.mem)) ∧
    (p.dest ≠ s.net.devId →
      (∀ j, s.net.route p.dest = some j → (∀ h ∈ s.net.heldPk, h.1 ≠ p.dest.toNat) → ∃ t, Leaves s l vc t rest ∧
        t.net.forwarded = s.net.forwarded + 1 ∧ t.net.heldPk = s.net.heldPk ∧ t.mem = s.mem ∧
        ((s.net.link j).sends = false → (if v then (t.net.link j).q1 else (t.net.link j).q0) =
          (if v then (s.net.link j).q1 else (s.net.link j).q0) ++ [p])) ∧
      (s.net.route p.dest = none ∨ (∃ h ∈ s.net.heldPk, h.1 = p.dest.toNat) →
        (∀ m, s.mem.allocHold d p.dest.toNat 1 = some m → ∃ t, Leaves s l vc t rest ∧ t.net.forwarded = s.net.forwarded + 1 ∧
          t.net.heldPk = s.net.heldPk ++ [(p.dest.toNat, p)] ∧ t.mem = m) ∧
        (s.mem.allocHold d p.dest.toNat 1 = none → ∃ t, Leaves s l vc t (f :: rest) ∧ t.net.heldPk = s.net.heldPk ∧ t.mem = s.mem))) := by
  intro v p d
  obtain ⟨hhere, haway⟩ := openPacket_cases s (l.val, v) i
  have hwait (hnone : s.openPacket (l.val, v) i = none) : ∃ t, Leaves s l vc t (f :: rest) ∧ SentFrom s l.val v t :=
    item_waits hup hnum hrx hone (by rw [LinkLaws.item_open s l _ i hkind hmid, hnone]; rfl)
  refine ⟨fun hown => ?_, fun hother => ?_⟩
  · obtain ⟨hroom, hfull⟩ := hhere hown
    refine ⟨fun hlt => ?_, fun hge => ?_⟩
    · obtain ⟨hlinks, hforwarded, hflight, -, -⟩ := LinkLaws.setArrive_rest s.net d (s.net.arrive d ++ [p])
      obtain ⟨t, hleaves, hsent⟩ := opened_leaves hup hnum hrx hone hwhole hkind hmid (hroom hlt)
        (congrArg LinkLaws.rxSide (LinkLaws.link_of_links hlinks l.val)) rfl hflight
      exact ⟨t, hleaves, (hsent.arrive d).trans (LinkLaws.setArrive_self s.net d _), hsent.forwarded.trans hforwarded, hsent.mem,
        hsent.mid.trans (mid_marked _ l.val v _)⟩
    · obtain ⟨t, hleaves, hsent⟩ := hwait (hfull hge)
      exact ⟨t, hleaves, hsent.arrive d, hsent.mem⟩
  · obtain ⟨hroutes, hholds⟩ := haway hother
    refine ⟨fun j hroute hfree => ?_, fun hheld => ⟨fun m hm => ?_, fun hnone => ?_⟩⟩
    · obtain ⟨t, hleaves, hsent⟩ := opened_leaves hup hnum hrx hone hwhole hkind hmid (hroutes j hroute hfree)
        (LinkLaws.enqueue_rx _ j v p l.val) rfl rfl
      refine ⟨t, hleaves, hsent.forwarded, hsent.heldPk, hsent.mem, fun hstill => ?_⟩
      obtain ⟨hsends, hq⟩ := enqueued_queue (n := { s.net with forwarded := s.net.forwarded + 1 }) (j := j) hstill v p
      obtain ⟨hsends', hq0, hq1⟩ := marked_queue
        { s with net := ({ s.net with forwarded := s.net.forwarded + 1 } : Net).enqueue j v p } l.val j v (!i.eop)
      have hqueue := hsent.queue j (hsends'.trans hsends)
      rw [hq0, hq1] at hqueue
      exact hqueue.trans hq
    · obtain ⟨t, hleaves, hsent⟩ := opened_leaves hup hnum hrx hone hwhole hkind hmid
        ((hholds hheld).trans (congrArg (Option.map _) hm)) rfl rfl rfl
      exact ⟨t, hleaves, hsent.forwarded, hsent.heldPk, hsent.mem⟩
    · obtain ⟨t, hleaves, hsent⟩ := hwait ((hholds hheld).trans (congrArg (Option.map _) hnone))
      exact ⟨t, hleaves, hsent.heldPk, hsent.mem⟩

/-- Settles O49: the oldest flit of a receive buffer, the oldest packet of an arrival buffer, and the packets that are held. -/
theorem packetsOnTheirWay : Obligations.PacketsOnTheirWay := by
  unfold Obligations.PacketsOnTheirWay
  intro s
  refine ⟨fun l vc hup hnum => ?forward, fun d hup hnum => ?deliver, fun dest hup => ?release⟩
  case forward =>
    intro v d k rx leaves adds
    refine ⟨fun hempty => ⟨_, exec_packetForward_empty hup hnum hempty, LinkLaws.pumps _ s⟩,
      fun f rest hrx => ⟨fun hone habort => ?_, fun i hone hwhole => ?_⟩⟩
    · obtain ⟨z, hz, hforward⟩ := LinkLaws.fwd_abort s l v f rest hrx hone habort
      obtain ⟨hside, hflight, harrive, hheld, hforwarded, hmid⟩ := packetGrown_facts s l.val v none (n := id) (fun _ => rfl)
      subst hz
      obtain ⟨t, hleaves, hsent⟩ := leaves_after (z := packetGrown s l.val v none id) hup hnum hforward (hside _) rfl hflight
      exact ⟨t, hleaves, ⟨fun e => (hsent.arrive e).trans (harrive e), hsent.heldPk.trans hheld, hsent.forwarded.trans hforwarded,
        hsent.mem⟩, hsent.mid.trans hmid⟩
    · refine ⟨fun hwave => ?_, fun hkind hmid => ?_, fun hkind hmid hown => ?_, fun hkind hmid hother => ?_⟩
      · obtain ⟨hlinks, hcells, hflight, hmem, hheld, hsecond, hfirst⟩ := LinkLaws.waveOver_facts s l v i _ rfl
        obtain ⟨t, hleaves, hsent⟩ := item_leaves hup hnum hrx hone hwhole (item_wave hwave)
          (congrArg (rxOf _) (LinkLaws.link_of_links hlinks l.val)) hcells hflight
        refine ⟨t, hleaves, hsent.mem.trans hmem, hsent.heldPk.trans hheld, fun hin => hsent.waves.trans (hsecond hin), fun hout => ?_⟩
        obtain ⟨hwaves, hcopies⟩ := hfirst hout
        rw [hsent.waves, hsent.wave0, hsent.wave1]
        exact ⟨hwaves, hcopies⟩
      · obtain ⟨hside, hflight, harrive, hheld, hforwarded, hmid'⟩ := packetGrown_facts s l.val v (some i)
          (fun n => LinkLaws.transitItem_rest n (l.val, v) i)
        obtain ⟨t, hleaves, hsent⟩ := item_leaves hup hnum hrx hone hwhole (item_more hkind hmid) (hside _) rfl hflight
        exact ⟨t, hleaves, ⟨fun e => (hsent.arrive e).trans (harrive e), hsent.heldPk.trans hheld, hsent.forwarded.trans hforwarded,
          hsent.mem⟩, hsent.mid.trans hmid'⟩
      · obtain ⟨hhere, -⟩ := forward_settles hup hnum hrx hone hwhole hkind hmid
        exact hhere hown
      · obtain ⟨-, haway⟩ := forward_settles hup hnum hrx hone hwhole hkind hmid
        exact haway hother
  case deliver =>
    have hexec := exec_arrivalBufferDeliver hup hnum
    refine ⟨fun hnone => ⟨_, hexec, deliverArrived_none hnone⟩, fun p hnext => ⟨fun hcut => ⟨_, hexec, deliverArrived_aborted hnext hcut⟩,
      fun m hwhole hmsg => ?_⟩⟩
    obtain ⟨x, hx⟩ := deliverArrived_whole hnext hwhole hmsg
    obtain ⟨hlinks, -, hflight, -, haborted⟩ := LinkLaws.setArrive_rest s.net d.val ((s.net.arrive d.val).erase p)
    have harrive := LinkLaws.setArrive_self s.net d.val ((s.net.arrive d.val).erase p)
    rw [hx] at hexec
    exact ⟨_, hexec, harrive, congrArg (· ++ [m]) hflight, haborted, hlinks, rfl, rfl, rfl⟩
  case release =>
    intro mine gone
    have hexec := exec_heldPacketRelease hup dest
    exact ⟨fun hnone hidle => ⟨_, hexec, heldRelease_none hnone hidle⟩,
      fun j hroute haway => ⟨_, hexec, heldRelease_facts hroute haway⟩⟩

end Sys2Proof.Proofs

/-! PROOFS. The serving side of SPILL: grants, and the units that lie in them. -/

namespace Sys2Proof.Proofs

open Sys2Proof Sys2Proof.Machine Sys2Proof.Claims Sys2Proof.Laws

/-! ### The answer of a serving device (R515) -/

/-- The answer to a SPILL leaves at once: its client is here, or a link leads to it and nothing is held for it. -/
def AnswerLeaves (s : State) (m : Msg) : Prop :=
  s.local? m.src = true ∨ ((s.net.route (UA.device m.src)).isSome = true ∧
    s.net.heldPk.any (fun h => decide (h.1 = (UA.device m.src).toNat)) = false)

theorem takeMsg_answerLeaves {s : State} {m : Msg} (h : AnswerLeaves s m) : AnswerLeaves (s.takeMsg m) m := by
  obtain ⟨x, hnet⟩ := takeMsg_net s m
  unfold AnswerLeaves at h ⊢
  rw [takeMsg_local, hnet]
  exact h

/-- A SPILL that is served comes to the state in which its operation has been done, and its answer leaves of that state what the
links and the messages in flight do not hold. -/
theorem served_settles {s : State} {m : Msg} {c : Instr} {mem : MemSys} {fifo : Fifos} {code : Code} {value : Nat} {more : List Payload}
    (hexec : exec c s =
      .next (State.spillAnswer { (s.takeMsg m).received m with mem := mem, fifo := fifo } m code value more)) :
    ∃ t, exec c s = .next t ∧ (t.cells = s.cells ∧ t.sync = s.sync) ∧ (AnswerLeaves s m → t.mem = mem) ∧
      (s.local? m.src = true → ∃ r, t.net.inFlight = s.net.inFlight.erase m ++ [r] ∧ r.dest = m.src ∧ r.tag = m.tag ∧
        r.code = code ∧ r.body.drop 1 = more) := by
  obtain ⟨hcells, hsync, hmem, hreply⟩ :=
    SyncLaws.spillAnswer_facts { (s.takeMsg m).received m with mem := mem, fifo := fifo } m code value more
  obtain ⟨hflight, -⟩ := takeMsg_rest s m
  refine ⟨_, hexec, ⟨hcells, hsync⟩, fun hleaves => hmem (takeMsg_answerLeaves hleaves), fun hsrc => ?_⟩
  obtain ⟨r, hr, hfields⟩ := hreply ((takeMsg_local s m m.src).trans hsrc)
  exact ⟨r, hr.trans (congrArg (· ++ [r]) hflight), hfields⟩

/-! ### The four operations (R514, R516, R517) -/

section
variable {s : State} {m : Msg} (hok : s.requestOk m 0x06 = true) (hdev : UA.depth m.dest = 0) (hepoch : m.epoch = s.epochOf m.dest)
include hok hdev hepoch

theorem exec_spillAlloc (hop : m.fld 0 3 0 = 1) : exec (.spillAlloc m) s = .next ((s.takeMsg m).serveAlloc m) :=
  congrArg Host.Outcome.next (SyncLaws.spillArrives_ok s m 1 _ hok hdev hepoch hop)

theorem exec_spillFree (hop : m.fld 0 3 0 = 2) : exec (.spillFree m) s = .next ((s.takeMsg m).serveOther m 2) :=
  congrArg Host.Outcome.next (SyncLaws.spillArrives_ok s m 2 _ hok hdev hepoch hop)

theorem exec_spillWrite (hop : m.fld 0 3 0 = 3) : exec (.spillWrite m) s = .next ((s.takeMsg m).serveOther m 3) :=
  congrArg Host.Outcome.next (SyncLaws.spillArrives_ok s m 3 _ hok hdev hepoch hop)

theorem exec_spillRead (hop : m.fld 0 3 0 = 4) : exec (.spillRead m) s = .next ((s.takeMsg m).serveOther m 4) :=
  congrArg Host.Outcome.next (SyncLaws.spillArrives_ok s m 4 _ hok hdev hepoch hop)

end

/-- The pool gives an extent without a change of the grants. -/
theorem alloc_served {mem mem' : MemSys} {d n b : Nat} {use : ExtUse} (h : mem.alloc d n use = some (b, mem')) :
    mem'.served = mem.served := by
  obtain ⟨x, -, hx⟩ := Option.map_eq_some_iff.mp h
  cases hx
  rfl

/-- An ALLOC that fits makes its grant and answers the offset (R514, R517). -/
theorem serveAlloc_grants {s : State} {m : Msg} {o b : Nat} {mm : MemSys} (hform : spillOk m 1 = true)
    (hrole : (s.unit 0).role = 3 ∨ (s.unit 0).role = 4)
    (htotal : s.mem.servedKib none + 2 ^ m.fld 0 30 28 ≤ s.serveGib * 2 ^ 20)
    (hclient : s.mem.servedKib (some (UA.device m.src)) + 2 ^ m.fld 0 30 28 ≤ 2 ^ 24)
    (hoffset : s.mem.serveOffset (UA.device m.src) (2 ^ m.fld 0 30 28) = some o)
    (halloc : s.mem.alloc 0 (16 * 2 ^ m.fld 0 30 28) (.serve (UA.device m.src).toNat) = some (b, mm)) :
    s.serveAlloc m = State.spillAnswer { s.received m with
      mem := { mm with served := mm.served ++ [⟨UA.device m.src, o, 2 ^ m.fld 0 30 28, b⟩] } } m ccOk o [] := by
  have hmem : (s.received m).mem = s.mem := rfl
  have hgib : (s.received m).serveGib = s.serveGib := rfl
  have hroom : ¬ (¬ ((s.unit 0).role = 3 ∨ (s.unit 0).role = 4) ∨
      s.serveGib * 2 ^ 20 < s.mem.servedKib none + 2 ^ m.fld 0 30 28 ∨
      2 ^ 24 < s.mem.servedKib (some (UA.device m.src)) + 2 ^ m.fld 0 30 28) :=
    not_or.mpr ⟨not_not.mpr hrole, not_or.mpr ⟨not_lt.mpr htotal, not_lt.mpr hclient⟩⟩
  unfold State.serveAlloc
  simp only [hform, hmem, hgib, Bool.not_true, Bool.false_eq_true, if_false, if_neg hroom, hoffset, halloc, Option.orElse_some]

/-- The units that a SPILL names lie in the grant `g` that it names, and its form is right (R516, R517). -/
structure GrantCovers (g : Served) (s : State) (m : Msg) (op : Nat) : Prop where
  named : s.mem.grant (UA.device m.src) (m.fld 0 27 4) = some g
  inside : m.fld 0 51 42 + m.fld 0 41 31 ≤ 16 * g.kib
  size : g.kib = 2 ^ m.fld 0 30 28
  form : spillOk m op = true
  body : op = 3 → m.body.length = 1 + 5 * m.fld 0 41 31

namespace GrantCovers

variable {g : Served} {s : State} {m : Msg}

/-- A SPILL that its grant covers is not BAD_DESC. -/
theorem not_bad {op : Nat} (h : GrantCovers g s m op) :
    ¬ (!spillOk m op || decide (16 * g.kib < m.fld 0 51 42 + m.fld 0 41 31 ∨ g.kib ≠ 2 ^ m.fld 0 30 28 ∨
      (op = 3 ∧ m.body.length ≠ 1 + 5 * m.fld 0 41 31))) = true := by
  rw [h.form, Bool.not_true, Bool.false_or, decide_eq_true_eq]
  rintro (hout | hsize | ⟨hop, hbody⟩)
  · exact absurd h.inside (not_le.mpr hout)
  · exact hsize h.size
  · exact hbody (h.body hop)

/-- FREE gives the extent of the grant back. -/
theorem free (h : GrantCovers g s m 2) : s.serveOther m 2 = State.spillAnswer { s.received m with
    mem := { s.mem.release g.base with served := (s.mem.release g.base).served.erase g } } m ccOk 0 [] := by
  unfold State.serveOther
  extract_lets t units uoff
  rw [show t.mem.grant (UA.device m.src) (m.fld 0 27 4) = some g from h.named]
  exact (if_neg h.not_bad).trans (if_pos rfl)

/-- WRITE stores the units of its body. -/
theorem write (h : GrantCovers g s m 3) (hsome : m.fld 0 41 31 ≠ 0) : ∃ f, s.serveOther m 3 = State.spillAnswer { s.received m with
    mem := s.mem.writeUnits (g.base + m.fld 0 51 42) (unitsOf (m.body.drop 1)), fifo := f } m ccOk 0 [] := by
  unfold State.serveOther
  extract_lets t units uoff
  rw [show t.mem.grant (UA.device m.src) (m.fld 0 27 4) = some g from h.named]
  exact ⟨_, (if_neg h.not_bad).trans ((if_neg (by decide)).trans ((if_neg hsome).trans (if_pos rfl)))⟩

/-- READ answers with the units. -/
theorem read (h : GrantCovers g s m 4) (hsome : m.fld 0 41 31 ≠ 0) : ∃ f, s.serveOther m 4 = State.spillAnswer { s.received m with
    fifo := f } m ccOk 0
      ((List.range (m.fld 0 41 31)).flatMap (fun j => unitItems (s.mem.readUnit (g.base + m.fld 0 51 42 + j)))) := by
  unfold State.serveOther
  extract_lets t units uoff
  rw [show t.mem.grant (UA.device m.src) (m.fld 0 27 4) = some g from h.named]
  exact ⟨_, (if_neg h.not_bad).trans ((if_neg (by decide)).trans ((if_neg hsome).trans (if_neg (by decide))))⟩

end GrantCovers

/-- Settles O28: each operation of SPILL by what the grant and the device memory come to, and what its answer leaves. -/
theorem spillServing : Obligations.SpillServing := by
  unfold Obligations.SpillServing
  intro s m g hok hdev hepoch client n off k clear leaves
  refine ⟨fun hop hform hrole htotal hclient o b mm hoffset halloc => ?alloc, fun hgrant hinside hsize => ⟨fun hop hform => ?free,
    fun hop hform hsome hbody => ?write, fun hop hform hsome => ?read⟩⟩
  case alloc =>
    have hexec := exec_spillAlloc hok hdev hepoch hop
    rw [serveAlloc_grants (s := s.takeMsg m) hform hrole htotal hclient hoffset halloc, alloc_served halloc] at hexec
    obtain ⟨t, ht, hclear, hmem, -⟩ := served_settles hexec
    exact ⟨t, ht, hclear, hmem⟩
  case free =>
    have hexec := exec_spillFree hok hdev hepoch hop
    rw [GrantCovers.free (s := s.takeMsg m) ⟨hgrant, hinside, hsize, hform, nofun⟩] at hexec
    obtain ⟨t, ht, hclear, hmem, -⟩ := served_settles hexec
    exact ⟨t, ht, hclear, hmem⟩
  case write =>
    have hexec := exec_spillWrite hok hdev hepoch hop
    obtain ⟨f, hwrite⟩ := GrantCovers.write (s := s.takeMsg m) ⟨hgrant, hinside, hsize, hform, fun _ => hbody⟩ hsome
    rw [hwrite] at hexec
    obtain ⟨t, ht, hclear, hmem, -⟩ := served_settles hexec
    exact ⟨t, ht, hclear, hmem⟩
  case read =>
    have hexec := exec_spillRead hok hdev hepoch hop
    obtain ⟨f, hread⟩ := GrantCovers.read (s := s.takeMsg m) ⟨hgrant, hinside, hsize, hform, nofun⟩ hsome
    rw [hread] at hexec
    exact served_settles hexec

end Sys2Proof.Proofs
